-- ==== Sys2Proof/Word.lean ====
section
/-! DEFINITION. The word types of the X7 and their plainest reading. Bit 0 of a word is its least significant bit
(00_scope.md R5). -/

namespace Sys2Proof

/-- One byte. -/
abbrev Byte := BitVec 8

/-- A 16-bit word. -/
abbrev W16 := BitVec 16

/-- A 32-bit register. -/
abbrev W32 := BitVec 32

/-- A 64-bit word of a descriptor, a table entry or a ring entry. -/
abbrev W64 := BitVec 64

/-- The 256 bits of a frame header, bit 255 sent first (09_frames_and_forwarding.md R253). -/
abbrev HdrBits := BitVec 256

/-- A finite map from numbers: pairs with strictly rising keys, none of them holding the default. -/
abbrev Sparse (α : Type) := List (Nat × α)

end Sys2Proof
end

