-- ==== Sys2Proof/Syntax.lean ====
section
/-! DEFINITION. The commands of the X7 block: one constructor of Instr per row of spec/opcode_table.json, with the
row's operands. A ring command carries the ring it stands on, its descriptor D0-D7 (13_host_attachment.md R372) and the
data the X7 reads by DMA for it. -/

namespace Sys2Proof

/-- A command descriptor D0-D7 (13 R372, Table 13.7). -/
structure Desc where
  d0 : W64
  d1 : W64
  d2 : W64
  d3 : W64
  d4 : W64
  d5 : W64
  d6 : W64
  d7 : W64
  deriving DecidableEq, Repr

/-- A frame as it stands on a lane: header bits, payload bytes, trailer CRC and STATUS (09 R252-R255). `cut` says
that it ended with a cut cycle (09 R278). -/
structure Frame where
  hdr : HdrBits
  payload : List Byte
  crc : W32
  status : W16
  cut : Bool
  deriving DecidableEq, Repr

/-- The class of an accumuland (02_grid_arithmetic.md Table 2.6). -/
inductive Cls where
  | fin | pinf | ninf | nan
  deriving DecidableEq, Repr

/-- One accumulated element: class, grid value, attributed rank (02 R48) and, for MAX and MIN, the winner rank
(03_tills.md R82). `empty` says that nothing has been applied yet (03 R43: words are zeroed at open). -/
structure Acc where
  cls : Cls
  val : Int
  rank : Nat
  win : Nat
  empty : Bool
  deriving DecidableEq, Repr

/-- Chunk states (03 Table 3.10). -/
inductive ChunkSt where
  | idle | filling | minting | done
  deriving DecidableEq, Repr

/-- The exception record (02 R50): ORIGIN, RANK and INDEX. -/
structure ExcRec where
  origin : Nat
  rank : Nat
  index : Nat
  deriving DecidableEq, Repr

/-- What a chunk counts in one epoch (02 R55, 04 R109, R123; 05 R150): it is part of the chunk-state words of 03 Table 3.5. -/
structure Part where
  trunc : Nat := 0
  sat : Nat := 0
  nan : Nat := 0
  exc : Option ExcRec := none
  engInvalid : Nat := 0
  /-- Lowest index counted in ENG_INVALID. -/
  engIndex : Option Nat := none
  /-- Latch words of the chunk's pass. -/
  latch : Option (List W32) := none
  caughtUp : Nat := 0
  deriving DecidableEq, Repr

/-- One chunk of a till: epoch, state, accumulator words, arrival bitmap (bits A and B), early-part words, timers and
chunk receipt (03 Table 3.5, R74, R80, R97; 11_reproducibility.md R320). -/
structure Chunk where
  epoch : W16
  st : ChunkSt
  /-- Element words; none listed while they are zeroed (03 R43). -/
  acc : List Acc := []
  /-- Input slots whose bit A and bit B are set, in slot order. -/
  bitA : List Nat := []
  bitB : List Nat := []
  early : List Acc := []
  earlySent : Bool := false
  /-- An early part has left in this epoch, before a reset or after it: there is no second one (03 R80). -/
  earlyOnce : Bool := false
  timerAt : Option Nat := none
  rounds : Nat := 0
  efAt : Option Nat := none
  /-- Cycles of the first and last applied input (06 R189 TILL_SPAN), and arrival of the input that completed the chunk. -/
  firstAt : Nat := 0
  lastAt : Nat := 0
  completeAt : Nat := 0
  /-- First cycle of the ACLK cycle after the last addition issued so far retires (03 R74, R92). -/
  retire : Nat := 0
  /-- Cycles by which thermal throttle delayed the chunk's additions (01 R18). -/
  idle : Nat := 0
  receipt : Nat := 0
  excisedIn : Bool := false
  /-- RESEND_REQs not answered yet: slot and cycle sent (06 R189 RESEND_WAIT). -/
  resendAt : List (Nat × Nat) := []
  /-- Tile store mismatches of this chunk and epoch (03 R100): 0 none, 1 one that waits for its recomputation, 2 one counted. -/
  mismatch : Nat := 0
  /-- Elements that wait for the SUMMARY of a child slot to fix their attributed rank: slot * 65,536 + element (03 R78). -/
  waitSum : List Nat := []
  part : Part := {}
  /-- Headers of the early and of the last PARTIAL sent in this epoch, as first sent (03 R81, R98). -/
  sentEarly : HdrBits := 0
  sentLast : HdrBits := 0
  /-- Fused operand being read from another X7, and reads outstanding (03 R84, 05 R135). -/
  fuseGot : List Byte := []
  fuseLeft : Nat := 0
  /-- Its fused operand is there, and its mint waits for a tile that stands halted (14 R405). -/
  toMint : Bool := false
  /-- First cycle of the ACLK cycle in which a mismatch or a fence resets the chunk (03 Table 3.10, 12 R338). -/
  resetAt : Option Nat := none
  /-- What its counts and receipt were before its update pass, once the pass has ended: a pass that has to run again begins there (04 R127, 05
  R151). -/
  prePart : Option (Part × Nat) := none
  deriving DecidableEq, Repr

/-- What a till counts in one epoch (03 R77, R79, R91). -/
structure Counts where
  seen : W16 := 0
  /-- Counts of its children's SUMMARY frames, and of chunks that have gone on to a later epoch. -/
  part : Part := {}
  discard : Nat := 0
  resend : Nat := 0
  excised : Nat := 0
  /-- Receipt terms of chunks that have gone on (11 R321). -/
  recLo : Nat := 0
  recHi : Nat := 0
  /-- Deadline cycle, once a first contribution has been applied (03 R91). -/
  dueAt : Option Nat := none
  deriving DecidableEq, Repr

/-- A saved image (03 R94, Table 3.8): the header's fields, one record per chunk, and the counts and the exception record of the till's
epochs, its SUMMARY bits, excised slots and generations, which the chunk-state words carry (03 R95). `checksOk` says that every
word's CHECK byte passes (02 R43). -/
structure TillImage where
  digest : W64
  till : Nat
  job : Nat
  format : Nat
  chunks : List Chunk
  checksOk : Bool
  epoch : Option W16 := none
  cnt : Counts := {}
  ahead : List Counts := []
  sums : List (Nat × Nat) := []
  excised : List Nat := []
  gens : List (Nat × Nat) := []
  deriving DecidableEq, Repr

/-- What TILL_OPEN reads by DMA: the sixteen descriptor words, the shard table (four words an entry), the scale table
and the fused operand (03 R63, R66, R84). -/
structure TillObj where
  words : List W64
  shard : List W64
  scales : List Byte
  fuse : List Byte
  deriving DecidableEq, Repr

/-- How an HBM read passed its detection check (05_fabric_memory_and_vault.md R144): the first read, the re-read, the
mirror twin, or none. -/
inductive ReadCheck where
  | first | reread | twin | fail
  deriving DecidableEq, Repr

/-- Who writes a set-up register (14_setup_registers.md R395). -/
inductive RegOrigin where
  | host | debugPort
  deriving DecidableEq, Repr

/-- A lane block as received (08_lanes_and_links.md Table 8.1): when its first bit reached the receive pins, in lane symbols on the X7's
own scale, 140 to an FCLK cycle (08 R238); its 2,800 bits as they came, block bit 0 most significant; and the codeword the
decoder found within 8 symbol errors, if it found one (08 R224). -/
structure LaneBlock where
  lane : Nat
  arrival : Nat
  raw : BitVec 2800
  decoded : Option (List Nat)
  deriving DecidableEq, Repr

/-- The two copies of the flash directory (15_bringup_trust_ledger.md R416). -/
structure FlashDir where
  first : List Byte
  second : List Byte
  deriving DecidableEq, Repr

/-- What the boot ROM reads before SYNC_N is released (15 Table 15.2): the fuses and the strap pins. -/
structure Fuses where
  grade : Nat
  sparedWest : Nat
  sparedEast : Nat
  stepping : W32
  serial : W64
  rootKey0 : BitVec 512
  rootKey1 : BitVec 512
  revoked0 : Bool
  svn : Nat
  /-- Disabled physical tiles, as pairs (cluster, physical tile of the cluster) (15 Table 15.9, index 7). -/
  disabled : List (Nat × Nat)
  deriving DecidableEq, Repr

/-- Which host read failed (13 R391). -/
inductive ReadFault where
  /-- The fetch of a command descriptor, by its read number. -/
  | fetch (id : Nat)
  /-- The read of the object, table or image that the command at the head of a ring names. -/
  | object (ring : BitVec 6) (d : Desc)
  /-- The RdShared of a watched line. -/
  | line (k : BitVec 10)
  deriving DecidableEq, Repr

/-- The commands: one constructor per row of spec/opcode_table.json, in the table's order. -/
inductive Instr where
  | nop (ring : BitVec 6) (d : Desc)
  | tillOpen (ring : BitVec 6) (d : Desc) (obj : TillObj)
  | tillClose (ring : BitVec 6) (d : Desc)
  | tillAbort (ring : BitVec 6) (d : Desc)
  | tillSave (ring : BitVec 6) (d : Desc)
  | tillRestore (ring : BitVec 6) (d : Desc) (img : TillImage) (chk : ReadCheck)
  | tillResume (ring : BitVec 6) (d : Desc)
  | tillExcise (ring : BitVec 6) (d : Desc)
  | tallyOpen (ring : BitVec 6) (d : Desc) (words : List W64) (inputs : List W64)
  | tallyClose (ring : BitVec 6) (d : Desc)
  | tallyAbort (ring : BitVec 6) (d : Desc)
  | tallyExcise (ring : BitVec 6) (d : Desc)
  | tallyExciseEffect (tally : BitVec 12) (slot : BitVec 10)
  | progLoad (ring : BitVec 6) (d : Desc) (image : List Byte)
  | progUnload (ring : BitVec 6) (d : Desc)
  | progRun (ring : BitVec 6) (d : Desc) (params : List Byte) (data : List Byte)
  | regionOpen (ring : BitVec 6) (d : Desc) (words : List W64) (init : List Byte) (param : Option (List Byte))
  | regionClose (ring : BitVec 6) (d : Desc)
  | memCopy (ring : BitVec 6) (d : Desc) (data : List Byte) (chk : ReadCheck)
  | memConfig (ring : BitVec 6) (d : Desc)
  | vaultGather (ring : BitVec 6) (d : Desc) (chk : ReadCheck)
  | vaultQuery (ring : BitVec 6) (d : Desc)
  | relayOpen (ring : BitVec 6) (d : Desc) (members : List W64)
  | relayClose (ring : BitVec 6) (d : Desc)
  | stage (ring : BitVec 6) (d : Desc) (image : List W64)
  | arm (ring : BitVec 6) (d : Desc)
  | cancel (ring : BitVec 6) (d : Desc)
  | linkDown (ring : BitVec 6) (d : Desc)
  | linkUp (ring : BitVec 6) (d : Desc)
  | queueRead (ring : BitVec 6) (d : Desc)
  | poolRead (ring : BitVec 6) (d : Desc)
  | counterRead (ring : BitVec 6) (d : Desc)
  | freewheelRead (ring : BitVec 6) (d : Desc)
  | receiptRead (ring : BitVec 6) (d : Desc)
  | tossRead (ring : BitVec 6) (d : Desc)
  | ledgerRead (ring : BitVec 6) (d : Desc)
  | ledgerMirror (ring : BitVec 6) (d : Desc)
  /-- `mismatch`: the tile finds a store mismatch (03 R100) when it adds this frame. -/
  | contribReceive (f : Frame) (mismatch : Bool)
  | partialReceive (f : Frame) (mismatch : Bool)
  | summaryReceive (f : Frame)
  | resendReqReceive (f : Frame)
  | chunkTimerExpiry (till : BitVec 12) (chunk : Nat)
  | summaryTimerExpiry (till : BitVec 12) (slot : Nat)
  | earlyForwardExpiry (till : BitVec 12) (chunk : Nat)
  | tillDeadline (till : BitVec 12)
  | admissionGrant (till : BitVec 12)
  | preemptRestore (till : BitVec 12)
  | drainAction (till : BitVec 12)
  | snapshotWritten (till : BitVec 12)
  | restoreLoaded (till : BitVec 12)
  | chunkDone (till : BitVec 12) (chunk : Nat) (mismatch : Bool)
  | updatePassStart (till : BitVec 12) (chunk : Nat)
  | enginePassStart (tile : BitVec 12) (tick : Bool) (chk : ReadCheck)
  | enginePassEnd (tile : BitVec 12) (tick : Bool)
  | progRunEnd (tile : BitVec 12) (detectFail : Bool)
  | tallyArrive (f : Frame)
  | tallyAdd (f : Frame)
  | tallyCarry (f : Frame)
  | tallyReleasePass (port : BitVec 9) (f : Frame)
  | tallyTimerExpiry (tally : BitVec 12)
  | tallyDeadline (tally : BitVec 12)
  | alignedCopySend (port : BitVec 9)
  | memRdReceive (f : Frame) (chk : ReadCheck)
  | versionRelease (f : Frame)
  | memWrReceive (f : Frame)
  | memRspReceive (f : Frame)
  | memRequestTimeout (tag : BitVec 16)
  | versionReclaim (region : BitVec 12)
  | paramBlockRead (region : BitVec 12) (block : Option (List Byte))
  | hbmTrainingDone (stack : BitVec 2) (ok : Bool)
  | hbmRefresh (stack : BitVec 2)
  | relayFrameReceive (port : BitVec 9) (f : Frame)
  | relayCopySend (rgroup : BitVec 16) (receiver : Nat)
  | relaySkip (rgroup : BitVec 16) (receiver : Nat)
  | frameReceive (port : BitVec 9) (f : Frame)
  | sourceStall (port : BitVec 9)
  | frameStart (port : BitVec 9)
  | reorderTimerExpiry (pg : BitVec 4) (src : BitVec 20) (job : BitVec 8) (seq : BitVec 16)
  | tickOfferReceive (port : BitVec 9) (f : Frame) (markArrival : Nat)
  | tickOfferSend (port : BitVec 9)
  | tandemRecordReceive (f : Frame)
  | tandemWindowExpiry (own : Bool) (index : Nat)
  | twinLost
  | mgmtReceive (port : BitVec 9) (f : Frame)
  | laneBlockReceive (port : BitVec 9) (blocks : List LaneBlock)
  | nakReceive (port : BitVec 9) (header : BitVec 80)
  | degradeTimeout (port : BitVec 9)
  | passbookRotation (port : BitVec 9) (bsn : BitVec 12) (arrival : Nat)
  | linkStateEnd (port : BitVec 9) (byLimit : Bool)
  | creditCycleReceive (port : BitVec 9) (ret : List (BitVec 16))
  | creditCycleSend (port : BitVec 9)
  | tickBegin
  | commit
  | drainStart
  | overflowCopy
  | watchDeadline (port : BitVec 9) (watch : BitVec 2)
  | kickstandSend (port : BitVec 9)
  | kickstandRepeat (port : BitVec 9)
  | queueSample
  /-- Temperatures in degrees: west die, east die, stacks H0-H3 (16_package_power_board.md R450). -/
  | sensorRead (west : Int) (east : Int) (stackTemps : List Int)
  /-- The measured REFCLK in kHz (16 R446). -/
  | refclkMeasure (khz : Nat)
  /-- `cause`: 0 power-on, 1 RST_N, 2 REFCLK (15 Table 15.11, GENESIS). -/
  | coldReset (cause : BitVec 2)
  | syncNSampleHigh
  | warmReset
  | warmResetRelease
  /-- `cause`: false watchdog, true exception (15 Table 15.11). -/
  | stewardRestart (exception : Bool) (core : BitVec 2)
  /-- `chain` is the identity chain item, `chainKeyOk` whether its device key equals the device's own (15 R423). -/
  | firmwareCheck (dir : FlashDir) (item : List Byte) (chain : List Byte) (chainKeyOk : Bool)
  | wiringPlanCheck (dir : FlashDir) (plan : List Byte) (eq : List Byte)
  | fuseWrite
  | strapChange (pins : BitVec 14)
  | functionLevelReset
  | conventionalReset
  | cxlLinkLoss
  | snoopInvalidate (line : BitVec 58)
  | snoopData (line : BitVec 58)
  | watchLineRead (k : BitVec 10) (index : W32)
  | hostReadError (which : ReadFault)
  | hostWriteError (id : Nat)
  | completionWrite
  /-- `event`: false a completion ring, true an event ring (13 R390). -/
  | coalesceTimerExpiry (event : Bool) (ring : BitVec 6)
  | registerWrite (origin : RegOrigin) (offset : BitVec 20) (size : Nat) (value : W64)
  | ringEnable (origin : RegOrigin) (offset : BitVec 20) (value : W32)
  | watchDisable (origin : RegOrigin) (k : BitVec 10) (value : W32)
  | statusClear (origin : RegOrigin) (offset : BitVec 20) (value : W32)
  | kickLatchClear (origin : RegOrigin) (nn : BitVec 4) (value : W32)
  | refusedClear (origin : RegOrigin) (value : W32)
  | pairLoRead (origin : RegOrigin) (offset : BitVec 20) (size : Nat)
  | debugHalt (origin : RegOrigin) (value : W32)
  | debugResume (origin : RegOrigin) (value : W32)
  | dbgKickTest (origin : RegOrigin) (value : W32)
  | accumulatorWindowRead (origin : RegOrigin) (offset : BitVec 20) (size : Nat)
  | ledgerChainEntry
  | ledgerMirrorWrite
  | seal
  | sealWait
  | getVersion
  | getCapabilities
  | negotiateAlgorithms
  | getDigests
  | getCertificate (slot : Nat) (offset : Nat) (length : Nat)
  | challenge (slot : Nat) (nonce : BitVec 256)
  /-- `index`: 0 the number of blocks, 1-12 one block, 255 all; `sign` asks for a signed response. -/
  | getMeasurements (index : Byte) (sign : Bool) (nonce : BitVec 256)
  | i3cRegisterRead (offset : BitVec 16)
  | i3cDynamicAddress (address : BitVec 7)
  | dbgreg (write : Bool) (offset : BitVec 20) (size : Nat) (value : W64)
  | lossOfSignal (port : BitVec 9) (lane : BitVec 9)
  | rstNRelease
  | pllLock (fuses : Fuses) (pins : BitVec 14)
  | tilesReady
  | cxlLinkUp
  | stewardReturn
  | hostWriteGo (id : Nat)
  | hostReadData (id : Nat) (data : List Byte)
  | doeDiscovery (index : Byte)
  | jtagBootLoad (image : List Byte)
  deriving DecidableEq, Repr

end Sys2Proof
end

