-- ==== Sys2Proof/Config.lean ====
section
/-! DEFINITION. The constants the spec fixes for the XN7-F, and the FREE VALUES: constants with no body, for what the
spec leaves open. Nothing can be proved of a free value but what holds for every value. -/

namespace Sys2Proof.Config

/-! ### Sizes and limits -/

/-- Command and completion rings (13_host_attachment.md, Table 13.3). -/
def numRings : Nat := 64
/-- Entries of the watch table (13 R364). -/
def numWatch : Nat := 1024
/-- Depth of the pending queue of completions (13 R385). -/
def pendingDepth : Nat := 4096
/-- Descriptors fetched ahead on each command ring (13 R371). -/
def fetchAhead : Nat := 8
/-- Armed commit sets (07 R218). -/
def maxArmed : Nat := 8
/-- A commit set must be armed this many FCLK cycles before its tick (07 R219). -/
def armLimit : Nat := 1024
/-- The ledger chain engine's queue (15 R430). -/
def ledgerQueue : Nat := 4096
/-- Places of that queue kept for device and strap entries, commits and abandonments (15 R430). -/
def ledgerKept : Nat := 1024
/-- FCLK cycles the chain engine takes for an entry (15 R430). -/
def ledgerPace : Nat := 160
/-- Entries of the on-die ledger store (15 R429). -/
def ledgerStore : Nat := 65536
/-- Cells of one packet-buffer slice (10 R288). -/
def sliceCells : Nat := 98304
/-- Cells of the reorder reserve of a port group (10 R293). -/
def reorderReserve : Nat := 8192
/-- Reorder contexts of a port group (09 R274). -/
def reorderContexts : Nat := 1024
/-- Requests a vault region's park queue holds (05 R156). -/
def parkDepth : Nat := 256
/-- Blocks of a port's replay buffer (08 R243). -/
def replayDepth : Nat := 512
/-- Words of a tile's accumulator store (04 Table 4.1). -/
def storeWords : Nat := 24576
/-- Bytes of a tile's scratchpad (04 Table 4.1). -/
def scratchBytes : Nat := 65536
/-- Instructions a tile's program store holds (04 Table 4.1). -/
def progInstrs : Nat := 4096
/-- FCLK cycles before an unanswered memory request is sent again (05 R135). -/
def memTimeout : Nat := 65536
/-- Bytes the die-to-die bridge carries in an FCLK cycle in each direction, and those of them reserved for TC7 (01 R14). -/
def bridgeBytes : Nat := 12288
def bridgeExpress : Nat := 1024
/-- Where every 32-bit count stops (02 R55). -/
def sat32 : Nat := 4294967295
/-- Where every 48-bit count stops (06 R188, 11 R322). -/
def sat48 : Nat := 281474976710655

/-! ### Free values (assumption log 4) -/

/-- FREE VALUE. The CHECK byte of the 56 bits below it: the spec gives its strength, not its code (02 R43). -/
opaque checkByte : BitVec 56 → BitVec 8
/-- FREE VALUE. Which (till, chunk, word of the chunk) word `i` of a tile's accumulator store holds, for the halt accepted at a
cycle: the spec does not give the place of a chunk's words inside a slab (03 R86, 14 R406). -/
opaque storePlace : Nat → Nat → Nat → Nat × Nat × Nat
/-- FREE VALUE. CLASS and VALUE of word `i` of a halted tile's store where no chunk has it (14 R406). -/
opaque idleWord : Nat → Nat → Nat → BitVec 50
/-- FREE VALUE. CLASS and VALUE of word `i` of the record of a chunk, with the till's scale table, where the spec gives the number of such
words and not their layout: scale table, arrival bitmap and chunk state (03 Table 3.5). -/
opaque otherWord : Chunk → List Byte → Nat → BitVec 50
/-- FREE VALUE. Field `j` of the packed word `i` of a chunk for an element of a NaN block, whose state R44 keeps in the block status word
(02 R44). -/
opaque nanField : Chunk → Nat → Nat → BitVec 24
/-- FREE VALUE. In the two words that each element of a MAX, MIN or PAIR till takes (03 Table 3.5): all first words come before all second
words, or else the two of an element stand side by side. -/
opaque wordsApart : Bool
/-- FREE VALUE. The tag the X7 chooses for its n-th memory request (05 R135). -/
opaque tag : Nat → BitVec 16
/-- FREE VALUE. SEQ, RANK and LAST of the n-th frame the X7 originates where its type's chapter does not give them (09
Table 9.1: chosen by the source). -/
opaque frameSeq : Nat → BitVec 16
/-- FREE VALUE. The device key's RSASSA-PSS signature of a SHA-512 value (15 R422, R431). -/
opaque deviceSign : BitVec 512 → BitVec 4096
/-- FREE VALUE. The SHA-512 digest of the boot ROM (15 Table 15.9, index 1). -/
opaque bootRomDigest : BitVec 512
/-- FREE VALUE. The responder's nonce of the n-th SPDM response (15 R424). -/
opaque spdmNonce : Nat → BitVec 256
/-- FREE VALUE. Cycles an origination with no published latency takes from its cause (03 R97, 07 Table 7.6 gives none). -/
opaque originDelay : Nat → Nat
/-- FREE VALUE. Scratchpad line that fails, of the n-th occasion (12 R334). -/
opaque failedLine : Nat → BitVec 11
/-- FREE VALUE. FCLK cycles that the copy of the n-th program image takes: 04 R114 gives no bound. -/
opaque loadTime : Nat → Nat
/-- FREE VALUE. FCLK cycles for which the re-read of a program store word stalls a context, of the n-th occasion (12 Table 12.2). -/
opaque progStall : Nat → Nat
/-- FREE VALUE. The 32-bit detection code of a unit of HBM, over its 32 data bytes and its physical address in the stack: the spec gives its
strength, not its code (05 R133). -/
opaque detectCode : BitVec 256 → Nat → BitVec 32
/-- FREE VALUE. Physical address in stack `k` of a place of a space of region `r` (05 R133, R137, R146). -/
opaque unitAddr : Nat → Nat → Nat → Nat → Nat
/-- FREE VALUE. Page of region `r` on which operand `o` of the slot of chunk `k` lies: the spec does not lay the slots out (05 R146). -/
opaque slotPage : Nat → Nat → Nat → Nat
/-- FREE VALUE. Cells of contributions that fill the intake of a port group, the point from which a drain pushes credit back: the spec does
not give its room (03 R92). -/
opaque intakeCells : Nat → Nat
/-- FREE VALUE. The bytes of the n-th frame that a relay sends from staging come from the other die: the spec does not say on which die's
memory or slice a frame is staged (05 R159, R162). -/
opaque relayFar : Nat → Bool

/-- FREE VALUE. How the fuses of 15 R420 are written out before the digest of the FUSES entry is taken (15 Table 15.11). -/
opaque fuseBytes : Fuses → List Byte
/-- FREE VALUE. The signature of the n-th SPDM response over its transcript, whose content the spec leaves to SPDM 1.2 (15
R424). -/
opaque spdmSign : Nat → List Byte → BitVec 4096

/-- FREE VALUE. FCLK cycles that the n-th MEM_WR takes to be written whole, and by which its unit `u` has been written: other sources may see
some units and not others (05 R141). -/
opaque writeTime : Nat → Nat
/-- FREE VALUE. See `writeTime`: FCLK cycles by which unit `u` of the n-th MEM_WR has been written. -/
opaque unitTime : Nat → Nat → Nat
/-- FREE VALUE. Physical page within stack `s` of page `i` of region `r`: the spec does not say which free pages a region gets (05
R137, R138). -/
opaque pagePlace : Nat → Nat → Nat → Nat
/-- FREE VALUE. Attributed rank of a non-finite element whose rank its child's SUMMARY has not fixed yet, in a part sent early
(03 R78, R80). -/
opaque earlyRank : Nat → Nat → Nat

/-- FREE VALUE. The outcome code in the ABANDON entry of a set lost to a warm reset, for which 13 Table 13.10 has none (07
R220). -/
opaque lostCode : W16 → Nat

/-- FREE VALUE. The reason in the BOOT_FAIL entry of an image that no longer matches measurement 2 after a warm reset, for which 15 Table
15.11 has none (15 R413, R414). -/
opaque mismatchReason : Nat

/-- FREE VALUE. FCLK cycles by which the idle ACLK cycles of thermal throttle delay a complete bulk chunk: the spec gives the share of
issue slots withheld and not the slots a chunk's additions take (01 R18, 07 Table 7.8, 16 R450). -/
opaque throttleIdle : Nat → Nat → Nat

end Sys2Proof.Config
end

