-- ==== Sys2Proof/Machine/Bits.lean ====
section
/-! DEFINITION. Bits and bytes: fields of words, byte orders, the checks of frames, lane headers and codewords, and
SHA-512. -/

namespace Sys2Proof.Machine

/-! ### Fields and byte orders (00_scope.md R5, R6) -/

/-- Bits hi:lo of a number. -/
def bits (n hi lo : Nat) : Nat := n / 2 ^ lo % 2 ^ (hi + 1 - lo)

/-- Bit i of a number. -/
def bit (n i : Nat) : Bool := n / 2 ^ i % 2 == 1

/-- Bits hi:lo of a 64-bit word. -/
def fld (w : W64) (hi lo : Nat) : Nat := bits w.toNat hi lo

/-- 1 for true. -/
def b2n (b : Bool) : Nat := if b then 1 else 0

/-- `n` little-endian bytes of a number. -/
def leBytes : Nat → Nat → List Byte
  | 0, _ => []
  | n + 1, v => BitVec.ofNat 8 v :: leBytes n (v / 256)

/-- `n` big-endian bytes of a number. -/
def beBytes (n v : Nat) : List Byte := (leBytes n v).reverse

/-- The number that little-endian bytes spell. -/
def leNat : List Byte → Nat
  | [] => 0
  | b :: r => b.toNat + 256 * leNat r

/-- The number that big-endian bytes spell. -/
def beNat (l : List Byte) : Nat := leNat l.reverse

/-- Bytes a to a + n - 1, zero beyond the end. -/
def slice (l : List Byte) (a n : Nat) : List Byte :=
  let r := (l.drop a).take n
  r ++ List.replicate (n - r.length) 0

/-- The little-endian number in bytes a to a + n - 1. -/
def leAt (l : List Byte) (a n : Nat) : Nat := leNat (slice l a n)

/-- Little-endian 64-bit words of a byte string. -/
def wordsOf (n : Nat) (l : List Byte) : List W64 :=
  (List.range n).map fun i => BitVec.ofNat 64 (leAt l (8 * i) 8)

/-- The little-endian bytes of words. -/
def bytesOf (ws : List W64) : List Byte := (ws.map fun w => leBytes 8 w.toNat).flatten

/-- A byte string made n bytes long: cut, or padded with zeroes. -/
def padTo (n : Nat) (l : List Byte) : List Byte := slice l 0 n

/-- ⌈a / b⌉. -/
def ceilDiv (a b : Nat) : Nat := (a + b - 1) / b

/-- Two's complement value of the low n bits. -/
def toInt (n v : Nat) : Int :=
  if v % 2 ^ n < 2 ^ (n - 1) then Int.ofNat (v % 2 ^ n) else Int.ofNat (v % 2 ^ n) - (2 : Int) ^ n

/-- The n-bit two's complement code of an integer. -/
def ofInt (n : Nat) (i : Int) : Nat := (i % (2 : Int) ^ n).toNat

/-- Element i of a list of numbers, 0 beyond its end. -/
def nth (l : List Nat) (i : Nat) : Nat := l.getD i 0

/-- Element i increased by n. -/
def addAt (l : List Nat) (i n : Nat) : List Nat := l.set i (nth l i + n)

/-- Sum of a list. -/
def sumNat (l : List Nat) : Nat := l.foldl (· + ·) 0

/-- The first i < n with p i. -/
def firstIdx (n : Nat) (p : Nat → Bool) : Option Nat := (List.range n).find? p

/-! ### Cyclic checks -/

/-- One step of a w-bit cyclic check, most significant bit first. -/
def crcBit (w poly reg : Nat) (b : Bool) : Nat :=
  let sh := reg * 2 % 2 ^ w
  if bit reg (w - 1) != b then Nat.xor sh poly else sh

/-- A cyclic check over bytes, each most significant bit first. The register stays below 2^w, so the test always holds; it makes the
evaluation of terms proceed byte by byte. -/
def crcBytes (w poly : Nat) : Nat → List Byte → Nat
  | reg, [] => reg
  | reg, b :: r =>
    let a := [7, 6, 5, 4, 3, 2, 1, 0].foldl (fun a i => crcBit w poly a (bit b.toNat i)) reg
    if a < 2 ^ w then crcBytes w poly a r else 0

/-- HCRC: x^16 + x^15 + x^2 + 1, initial value 0xFFFF (09 R254). -/
def crc16 (l : List Byte) : Nat := crcBytes 16 0x8005 0xFFFF l

/-- The trailer CRC: 0x04C1_1DB7, initial value 0xFFFF_FFFF, complemented (09 R255). -/
def crc32 (l : List Byte) : Nat := 0xFFFFFFFF - crcBytes 32 0x04C11DB7 0xFFFFFFFF l

/-- PB_CHK: x^16 + x^12 + x^5 + 1, initial value 0xFFFF (08 R228). -/
def pbCrc (l : List Byte) : Nat := crcBytes 16 0x1021 0xFFFF l

/-! ### Lane header check (08 R227) -/

/-- The remainder modulo x^10 + x^3 + 1 of the n low bits of a number, bit n - 1 highest. -/
def rem10 (n v : Nat) : Nat :=
  (List.range n).foldl
    (fun a i =>
      let a' := a * 2 + b2n (bit v (n - 1 - i))
      if a' < 1024 then a' else Nat.xor a' 0x409)
    0

/-- HCHK of a header's bits 79:10. -/
def hchk (h : Nat) : Nat := rem10 80 (h / 1024 * 1024)

/-- The header with its one wrong bit set right; none when its syndrome names no single bit. -/
def fixHeader (h : BitVec 80) : Option (BitVec 80) :=
  let syn := rem10 80 h.toNat
  if syn = 0 then some h
  else (firstIdx 80 fun i => rem10 80 (2 ^ i) == syn).map fun i => h ^^^ BitVec.ofNat 80 (2 ^ i)

/-! ### RS(272,256) over GF(2^10) (08 R224) -/

/-- Product in GF(2^10), field polynomial x^10 + x^3 + 1. -/
def gfMul (a b : Nat) : Nat :=
  [9, 8, 7, 6, 5, 4, 3, 2, 1, 0].foldl
    (fun acc i =>
      let d := acc * 2
      let d := if d < 1024 then d else Nat.xor d 0x409
      if bit a i then Nat.xor d b else d)
    0

/-- α^i. -/
def gfPow : Nat → Nat
  | 0 => 1
  | i + 1 => gfMul (gfPow i) 2

/-- The codeword's value at x, symbol 0 being the coefficient of x^271. -/
def rsEval (x : Nat) (c : List Nat) : Nat := c.foldl (fun a s => Nat.xor (gfMul a x) s) 0

/-- A valid codeword: 272 symbols, zero at α^0 to α^15. -/
def rsValid (c : List Nat) : Bool :=
  c.length == 272 && c.all (fun x => decide (x < 1024)) && (List.range 16).all fun i => rsEval (gfPow i) c == 0

/-- Symbols in which two words differ. -/
def symErrors (a b : List Nat) : Nat := sumNat (List.zipWith (fun x y => b2n (x != y)) a b)

/-- A power of a field element. -/
def gfExp (a : Nat) : Nat → Nat
  | 0 => 1
  | n + 1 => gfMul (gfExp a n) a

/-- The inverse of a non-zero element: a^1022, as the product of a^2, a^4, … a^512. -/
def gfInv (a : Nat) : Nat :=
  ((List.range 9).foldl (fun (x : Nat × Nat) _ => let q := gfMul x.1 x.1; (q, gfMul x.2 q)) (a, 1)).2

/-- Polynomials with the lowest coefficient first: sum, product with c x^m, and value at x. -/
def gfAdd (p q : List Nat) : List Nat := (List.range (max p.length q.length)).map fun i => Nat.xor (nth p i) (nth q i)
def gfShift (c m : Nat) (p : List Nat) : List Nat := List.replicate m 0 ++ p.map (gfMul c)
def gfValue (p : List Nat) (x : Nat) : Nat := p.foldr (fun c v => Nat.xor (gfMul v x) c) 0

/-- What Berlekamp and Massey's algorithm has reached: locator and the one before its last change of length, length, shift and the
discrepancy of that change. -/
structure Locator where
  c : List Nat := [1]
  b : List Nat := [1]
  len : Nat := 0
  m : Nat := 1
  d : Nat := 1
  deriving DecidableEq, Repr

/-- One syndrome more. -/
def locStep (syn : List Nat) (x : Locator) (n : Nat) : Locator :=
  let d := (List.range (x.len + 1)).foldl (fun a i => Nat.xor a (gfMul (nth x.c i) (nth syn (n - i)))) 0
  if d = 0 then { x with m := x.m + 1 }
  else
    let c := gfAdd x.c (gfShift (gfMul d (gfInv x.d)) x.m x.b)
    if 2 * x.len ≤ n then { c := c, b := x.c, len := n + 1 - x.len, m := 1, d := d } else { x with c := c, m := x.m + 1 }

/-- The word with the errors that its 16 syndromes locate set right: at symbol i, whose place is X = α^(271 - i), the value X Ω(1/X) / Λ'(1/X)
is added where Λ(1/X) = 0. -/
def rsFix (sym : List Nat) : List Nat :=
  let syn := (List.range 16).map fun i => rsEval (gfPow i) sym
  let loc := ((List.range 16).foldl (locStep syn) {}).c
  let om := (List.range 16).map fun n => (List.range (n + 1)).foldl (fun a i => Nat.xor a (gfMul (nth loc i) (nth syn (n - i)))) 0
  let der := (List.range loc.length).map fun i => if i % 2 = 0 then nth loc (i + 1) else 0
  let fixed := sym.foldr (fun v (a : List Nat × Nat × Nat) =>
    -- places from the last symbol on: X, and 1/X
    let (l, x, y) := a
    let v := if gfValue loc y = 0 then Nat.xor v (gfMul (gfMul x (gfValue om y)) (gfInv (gfValue der y))) else v
    (v :: l, gfMul x 2, gfMul y 516)) ([], 1, 1)
  fixed.1

/-- The codeword a block decodes to (R224): itself where it is one, else the one within 8 symbols of it, if there is. `found` is where to look
first. -/
def rsDecode (sym : List Nat) (found : Option (List Nat)) : Option (List Nat) :=
  let near (c : List Nat) : Bool := rsValid c && sym.length == 272 && decide (symErrors sym c ≤ 8)
  if rsValid sym then some sym
  else match found.filter near with
    | some c => some c
    | none => (some (rsFix sym)).filter near

/-- The 272 symbols of a codeword, block bit 80 first (08 R224). -/
def rsSymbols (cw : Nat) : List Nat := (List.range 272).map fun i => bits cw (2719 - 10 * i) (2710 - 10 * i)

/-- The 320 data bytes of a codeword, as its 256 data symbols spell them. -/
def rsData (c : List Nat) : List Byte := beBytes 320 ((c.take 256).foldl (fun a s => a * 1024 + s) 0)

/-- A polynomial over GF(2^10), highest coefficient first, times x + r. -/
def gfTimes (p : List Nat) (r : Nat) : List Nat := List.zipWith Nat.xor (p ++ [0]) (0 :: p.map (gfMul r))

/-- The generator polynomial, the product of x + α^i for i = 0 to 15, without its leading 1 (08 R224). -/
def rsGen : List Nat := ((List.range 16).foldl (fun p i => gfTimes p (gfPow i)) [1]).drop 1

/-- The 16 parity symbols of 256 data symbols: the remainder of the data times x^16. -/
def rsParity (g : List Nat) (d : List Nat) : List Nat :=
  d.foldl (fun r s =>
    let q := Nat.xor s (nth r 0)
    List.zipWith Nat.xor (r.drop 1 ++ [0]) (g.map (gfMul q))) (List.replicate 16 0)

/-- The codeword of 2,560 data bits: the data, then 160 bits of parity. Data of zeroes has a parity of zeroes. -/
def rsEncode (data : Nat) : Nat :=
  if data = 0 then 0
  else
    let d := (rsSymbols (data * 2 ^ 160)).take 256
    data * 2 ^ 160 + (rsParity rsGen d).foldl (fun a s => a * 1024 + s) 0

/-! ### The lane's bits on the wire (08 R225) -/

/-- The level of a PAM4 symbol: the Gray mapping. -/
def pam4 (b : BitVec 2) : Int := if b = 0 then -3 else if b = 1 then -1 else if b = 3 then 1 else 3

/-- The 1,400 levels of a block, first sent first. -/
def blockLevels (b : BitVec 2800) : List Int := (List.range 1400).map fun i => pam4 (b.extractLsb' (2798 - 2 * i) 2)

/-- First bits of every pair: what inverted polarity inverts (08 R227 design note). -/
def pairBits (n : Nat) : Nat := (4 ^ (n / 2) - 1) / 3 * 2

/-- The next 28 bits of the scrambler sequence, each the sum of the bits 28 and 31 before it, and the state after them. The state is the
last 31 bits, newest lowest. -/
def scr28 (st : Nat) : Nat × Nat :=
  let w := Nat.xor (st % 2 ^ 28) (st / 8 % 2 ^ 28)
  (w, (st * 2 ^ 28 + w) % 2 ^ 31)

/-- k times 28 bits of the sequence behind those of `acc`, and the state after them. -/
def scrRun : Nat → Nat → Nat → Nat × Nat
  | 0, acc, st => (acc, st)
  | k + 1, acc, st => scrRun k (acc * 2 ^ 28 + (scr28 st).1) (scr28 st).2

/-- The 2,792 scrambler bits of a block, MARK apart, and the state after them. -/
def scrBlock (st : Nat) : Nat × Nat :=
  let r := scrRun 99 0 st
  let w := (scr28 r.2).1 / 2 ^ 8
  (r.1 * 2 ^ 20 + w, (r.2 * 2 ^ 20 + w) % 2 ^ 31)

/-- A block scrambled, or its scrambling undone, from a state: every bit but MARK. -/
def scramble (st : Nat) (b : BitVec 2800) : BitVec 2800 := b ^^^ BitVec.ofNat 2800 (scrBlock st).1

/-- A block with its polarity inverted. -/
def flipPairs (b : BitVec 2800) : BitVec 2800 := b ^^^ BitVec.ofNat 2800 (pairBits 2800)

/-- The scrambler state that a block with data of zeroes shows: its last 31 bits, of a lane whose MARK says how its pairs lie (08
R225). -/
def takeScr (b : BitVec 2800) : Option Nat :=
  let mark := b.extractLsb' 2792 8
  if mark = 0xB4 then some (b.toNat % 2 ^ 31)
  else if mark = 0x1E then some ((flipPairs b).toNat % 2 ^ 31)
  else none

/-! ### SHA-512 -/

/-- Initial hash value. -/
def shaInit : List W64 :=
  [0x6A09E667F3BCC908, 0xBB67AE8584CAA73B, 0x3C6EF372FE94F82B, 0xA54FF53A5F1D36F1,
   0x510E527FADE682D1, 0x9B05688C2B3E6C1F, 0x1F83D9ABFB41BD6B, 0x5BE0CD19137E2179]

def shaK0 : List W64 :=
  [0x428A2F98D728AE22, 0x7137449123EF65CD, 0xB5C0FBCFEC4D3B2F, 0xE9B5DBA58189DBBC,
   0x3956C25BF348B538, 0x59F111F1B605D019, 0x923F82A4AF194F9B, 0xAB1C5ED5DA6D8118,
   0xD807AA98A3030242, 0x12835B0145706FBE, 0x243185BE4EE4B28C, 0x550C7DC3D5FFB4E2,
   0x72BE5D74F27B896F, 0x80DEB1FE3B1696B1, 0x9BDC06A725C71235, 0xC19BF174CF692694,
   0xE49B69C19EF14AD2, 0xEFBE4786384F25E3, 0x0FC19DC68B8CD5B5, 0x240CA1CC77AC9C65]

def shaK1 : List W64 :=
  [0x2DE92C6F592B0275, 0x4A7484AA6EA6E483, 0x5CB0A9DCBD41FBD4, 0x76F988DA831153B5,
   0x983E5152EE66DFAB, 0xA831C66D2DB43210, 0xB00327C898FB213F, 0xBF597FC7BEEF0EE4,
   0xC6E00BF33DA88FC2, 0xD5A79147930AA725, 0x06CA6351E003826F, 0x142929670A0E6E70,
   0x27B70A8546D22FFC, 0x2E1B21385C26C926, 0x4D2C6DFC5AC42AED, 0x53380D139D95B3DF,
   0x650A73548BAF63DE, 0x766A0ABB3C77B2A8, 0x81C2C92E47EDAEE6, 0x92722C851482353B]

def shaK2 : List W64 :=
  [0xA2BFE8A14CF10364, 0xA81A664BBC423001, 0xC24B8B70D0F89791, 0xC76C51A30654BE30,
   0xD192E819D6EF5218, 0xD69906245565A910, 0xF40E35855771202A, 0x106AA07032BBD1B8,
   0x19A4C116B8D2D0C8, 0x1E376C085141AB53, 0x2748774CDF8EEB99, 0x34B0BCB5E19B48A8,
   0x391C0CB3C5C95A63, 0x4ED8AA4AE3418ACB, 0x5B9CCA4F7763E373, 0x682E6FF3D6B2B8A3,
   0x748F82EE5DEFB2FC, 0x78A5636F43172F60, 0x84C87814A1F0AB72, 0x8CC702081A6439EC]

def shaK3 : List W64 :=
  [0x90BEFFFA23631E28, 0xA4506CEBDE82BDE9, 0xBEF9A3F7B2C67915, 0xC67178F2E372532B,
   0xCA273ECEEA26619C, 0xD186B8C721C0C207, 0xEADA7DD6CDE0EB1E, 0xF57D4F7FEE6ED178,
   0x06F067AA72176FBA, 0x0A637DC5A2C898A6, 0x113F9804BEF90DAE, 0x1B710B35131C471B,
   0x28DB77F523047D84, 0x32CAAB7B40C72493, 0x3C9EBE0A15C9BEBC, 0x431D67C49C100D4C,
   0x4CC5D4BECB3E42B6, 0x597F299CFC657E2A, 0x5FCB6FAB3AD6FAEC, 0x6C44198C4A475817]

/-- The 80 round constants. -/
def shaK : List W64 := shaK0 ++ shaK1 ++ shaK2 ++ shaK3

/-- Message schedule: extends the last 16 words, newest first, by n words. -/
def shaExtend : Nat → List W64 → List W64
  | 0, w => w
  | n + 1, w =>
    let a := w.getD 1 0
    let b := w.getD 14 0
    let s1 := a.rotateRight 19 ^^^ a.rotateRight 61 ^^^ (a >>> 6)
    let s0 := b.rotateRight 1 ^^^ b.rotateRight 8 ^^^ (b >>> 7)
    shaExtend n ((s1 + w.getD 6 0 + s0 + w.getD 15 0) :: w)

/-- One round on the eight working words. -/
def shaRound (v : List W64) (kw : W64) : List W64 :=
  match v with
  | [a, b, c, d, e, f, g, h] =>
    let t1 := h + (e.rotateRight 14 ^^^ e.rotateRight 18 ^^^ e.rotateRight 41) + ((e &&& f) ^^^ (~~~e &&& g)) + kw
    let t2 := (a.rotateRight 28 ^^^ a.rotateRight 34 ^^^ a.rotateRight 39) + ((a &&& b) ^^^ (a &&& c) ^^^ (b &&& c))
    [t1 + t2, a, b, c, d + t1, e, f, g]
  | v => v

/-- One block of 128 bytes. -/
def shaBlock (h : List W64) (block : List Byte) : List W64 :=
  let m := (List.range 16).map fun i => BitVec.ofNat 64 (beNat (slice block (8 * i) 8))
  let w := (shaExtend 64 m.reverse).reverse
  List.zipWith (· + ·) h ((List.zipWith (· + ·) shaK w).foldl shaRound h)

/-- n blocks of a padded message. -/
def shaBlocks : Nat → List W64 → List Byte → List W64
  | 0, h, _ => h
  | n + 1, h, l => shaBlocks n (shaBlock h (l.take 128)) (l.drop 128)

/-- SHA-512 of a byte string: 64 bytes, byte 0 first (00_scope.md R459). -/
def sha512Bytes (l : List Byte) : List Byte :=
  let p := l ++ [0x80] ++ List.replicate ((239 - l.length % 128) % 128) 0 ++ beBytes 16 (8 * l.length)
  ((shaBlocks (p.length / 128) shaInit p).map fun w => beBytes 8 w.toNat).flatten

/-- SHA-512 as a number, byte 0 most significant. -/
def sha512 (l : List Byte) : BitVec 512 := BitVec.ofNat 512 (beNat (sha512Bytes l))

/-- A digest's bytes, byte 0 first. -/
def digestBytes (d : BitVec 512) : List Byte := beBytes 64 d.toNat

/-- The low 64 bits of a digest: bytes 56-63, byte 56 most significant (00_scope.md R459). -/
def digestLow64 (l : List Byte) : W64 := BitVec.ofNat 64 (beNat ((sha512Bytes l).drop 56))

end Sys2Proof.Machine
end

