-- ==== Sys2Proof/Machine/Operands.lean ====
section
/-! DEFINITION. Operand forms: the frame header and trailer (09), the command descriptor (13), the till, tally and region
descriptors (03, 06, 05) and the wiring-plan words (08), each field at the bits the spec gives it. -/

namespace Sys2Proof.Machine

/-! ### The frame header (09 Table 9.1) -/

/-- The header's fields in the order in which they are sent. -/
structure Header where
  ver : BitVec 4
  type : BitVec 4
  cls : BitVec 3
  cm : BitVec 1
  mc : BitVec 1
  last : BitVec 1
  xp : BitVec 1
  rsv1 : BitVec 1
  dest : BitVec 20
  src : BitVec 20
  job : BitVec 8
  seq : BitVec 16
  offset : BitVec 24
  len : BitVec 9
  path : BitVec 7
  till : BitVec 12
  epoch : BitVec 16
  rank : BitVec 14
  fmt : BitVec 5
  blk : BitVec 1
  tick : BitVec 16
  aux : BitVec 32
  hcrc : BitVec 16
  rsv2 : BitVec 24
  deriving DecidableEq, Repr

/-- The fields of 256 header bits. -/
def headerOf (b : HdrBits) : Header where
  ver := b.extractLsb' 252 4
  type := b.extractLsb' 248 4
  cls := b.extractLsb' 245 3
  cm := b.extractLsb' 244 1
  mc := b.extractLsb' 243 1
  last := b.extractLsb' 242 1
  xp := b.extractLsb' 241 1
  rsv1 := b.extractLsb' 240 1
  dest := b.extractLsb' 220 20
  src := b.extractLsb' 200 20
  job := b.extractLsb' 192 8
  seq := b.extractLsb' 176 16
  offset := b.extractLsb' 152 24
  len := b.extractLsb' 143 9
  path := b.extractLsb' 136 7
  till := b.extractLsb' 124 12
  epoch := b.extractLsb' 108 16
  rank := b.extractLsb' 94 14
  fmt := b.extractLsb' 89 5
  blk := b.extractLsb' 88 1
  tick := b.extractLsb' 72 16
  aux := b.extractLsb' 40 32
  hcrc := b.extractLsb' 24 16
  rsv2 := b.extractLsb' 0 24

/-- The 256 bits of a header. -/
def headerBits (h : Header) : HdrBits :=
  h.ver ++ h.type ++ h.cls ++ h.cm ++ h.mc ++ h.last ++ h.xp ++ h.rsv1 ++ h.dest ++ h.src ++ h.job ++ h.seq ++
    h.offset ++ h.len ++ h.path ++ h.till ++ h.epoch ++ h.rank ++ h.fmt ++ h.blk ++ h.tick ++ h.aux ++ h.hcrc ++ h.rsv2

/-- The 32 bytes of header bits, bit 255 first (09 R253). -/
def hdrBytes (b : HdrBits) : List Byte := beBytes 32 b.toNat

/-- HCRC over header bytes 0-26 (09 R254). -/
def hcrcOf (b : HdrBits) : BitVec 16 := BitVec.ofNat 16 (crc16 ((hdrBytes b).take 27))

/-- A header with its HCRC written. -/
def withHcrc (h : Header) : Header := { h with hcrc := hcrcOf (headerBits { h with hcrc := 0 }) }

/-- The header as the trailer CRC covers it: CM, PATH and HCRC taken as 0 (09 R255). -/
def crcHeader (b : HdrBits) : HdrBits := headerBits { headerOf b with cm := 0, path := 0, hcrc := 0 }

/-- The trailer CRC of a header and payload (09 R255). -/
def frameCrc (b : HdrBits) (payload : List Byte) : W32 :=
  BitVec.ofNat 32 (crc32 (hdrBytes (crcHeader b) ++ payload))

/-- Bytes of a frame (09 R252). -/
def frameBytes (f : Frame) : Nat := 40 + 32 * (headerOf f.hdr).len.toNat

/-- The 8 trailer bytes: CRC and STATUS most significant byte first, then zeroes (09 R255). -/
def trailerBytes (crc : W32) (status : W16) : List Byte := beBytes 4 crc.toNat ++ beBytes 2 status.toNat ++ [0, 0]

/-- The bytes of a whole frame in the order in which they are sent: header, payload and trailer (09 R252). -/
def wireBytes (f : Frame) : List Byte := hdrBytes f.hdr ++ f.payload ++ trailerBytes f.crc f.status

/-- The stomped trailer of a cut cycle: the complement of the CRC over the header and the payload bytes sent, with a reason (09 R278). -/
def cutTrailer (b : HdrBits) (sent : List Byte) (reason : W16) : List Byte := trailerBytes (~~~(frameCrc b sent)) reason

/-- Packet-buffer cells of a frame (10 R288). -/
def cellsOf (f : Frame) : Nat := ceilDiv (frameBytes f) 256

/-- Data cycles of a frame on a port of w lanes (07 R192). -/
def dataCycles (f : Frame) (w : Nat) : Nat := ceilDiv (frameBytes f) (32 * w)

/-- A received frame's trailer class (09 R279). -/
inductive Trailer where
  | good
  | stomped (reason : W16)
  | corrupt
  deriving DecidableEq, Repr

/-- How a receiver classes a frame (09 R279): over the bytes it received. -/
def trailerOf (f : Frame) : Trailer :=
  let c := frameCrc f.hdr f.payload
  if f.crc = c ∧ f.status = 0 ∧ f.cut = false ∧ f.payload.length = 32 * (headerOf f.hdr).len.toNat then .good
  else if f.crc = ~~~c ∧ f.status ≠ 0 then .stomped f.status
  else .corrupt

/-- A frame good enough for what it carries to take effect (09 R260). -/
def frameGood (f : Frame) : Bool := decide (trailerOf f = .good)

/-- The header is malformed (09 R253): VER, a reserved TYPE, LEN above 256 or a reserved bit. -/
def malformed (h : Header) : Bool :=
  h.ver ≠ 1 || decide (h.type.toNat > 12) || decide (h.len.toNat > 256) || h.rsv1 ≠ 0 || h.rsv2 ≠ 0

/-- A frame built from a header and payload, HCRC and CRC written (09 R254, R255). -/
def mkFrame (h : Header) (payload : List Byte) : Frame :=
  let h' := withHcrc { h with ver := 1, len := BitVec.ofNat 9 (payload.length / 32) }
  let b := headerBits h'
  { hdr := b, payload := payload, crc := frameCrc b payload, status := 0, cut := false }

/-- A header of zeroes but for VER. -/
def blankHeader : Header := headerOf (BitVec.ofNat 256 1 <<< 252)

/-- A frame with its header changed and HCRC written again; the trailer stands (09 R256). -/
def rehead (f : Frame) (h : Header) : Frame := { f with hdr := headerBits (withHcrc h) }

/-- A frame stomped with a reason (09 R277): its CRC complemented, unless it arrived stomped. -/
def stompFrame (f : Frame) (reason : W16) : Frame :=
  match trailerOf f with
  | .stomped _ => f
  | _ => { f with crc := ~~~(frameCrc f.hdr f.payload), status := reason }

/-- XP must be 1 exactly when CLASS is TC7, but for an aligned release (09 R257). -/
def xpOk (h : Header) : Bool :=
  (h.xp == 1) == (h.cls == 7) ||
    (h.type == 5 && h.xp == 1 && h.aux != 0xFFFFFFFF)

/-- Classes and MC a type may use (09 Table 9.4). -/
def formOk (h : Header) : Bool :=
  let c := h.cls.toNat
  let t := h.type.toNat
  let classOk :=
    if t = 0 || t = 6 || t = 7 || t = 8 then true
    else if t = 1 || t = 3 then c == 4 || c == 7
    else if t = 2 then c == 5 || c == 7
    else if t = 4 || t = 5 || t = 9 then c == 6 || c == 7
    else if t = 10 then c == 7
    else if t = 11 then c == 6
    else decide (c ≤ 3)
  let mcOk :=
    if t = 0 || t = 2 || t = 12 then true
    else if t = 5 then h.mc == 1
    else h.mc == 0
  classOk && mcOk && xpOk h && (h.mc == 0 || decide (h.dest.toNat < 65536)) &&
    (decide (h.dest.toNat < 0xFC000) || (t == 0 && h.mc == 0))

/-- SRC or ENDPOINT folded to 16 bits (08 Table 8.3, ID16). -/
def id16 (e : Nat) : Nat := Nat.xor (e % 65536) (e / 65536 % 16 * 4096)

/-! ### The command descriptor (13 Table 13.7) -/

/-- OPCODE. -/
def opcodeOf (d : Desc) : Nat := fld d.d0 63 56
/-- FENCE. -/
def fenceOf (d : Desc) : Bool := bit d.d0.toNat 55
/-- QUIET. -/
def quietOf (d0 : W64) : Bool := bit d0.toNat 54
/-- CRING. -/
def cringOf (d0 : W64) : Nat := fld d0 53 48
/-- TAG. -/
def tagOf (d0 : W64) : Nat := fld d0 31 0
/-- The object number O of D1[11:0] (13 Table 13.8). -/
def objOf (d : Desc) : Nat := fld d.d1 11 0

/-- A host address that keeps the rule of 13 R360: bits 63:52 are 0 and it is aligned. -/
def hostAddrOk (w : W64) (align : Nat) : Bool := fld w 63 52 == 0 && w.toNat % align == 0

/-- Word Di of a descriptor. -/
def descWord (d : Desc) (i : Nat) : W64 :=
  [d.d0, d.d1, d.d2, d.d3, d.d4, d.d5, d.d6, d.d7].getD i 0

/-- The bits of D1-D6 that 13 Table 13.9 assigns to an opcode, and the host addresses it carries: their word and
alignment. None for a reserved opcode. -/
def descForm (op : Nat) : Option (List Nat × List (Nat × Nat)) :=
  let all := 2 ^ 64 - 1
  match op with
  | 0x00 => some ([], [])
  | 0x10 | 0x18 | 0x28 => some ([all], [(1, 64)])
  | 0x11 | 0x12 | 0x13 | 0x15 | 0x19 | 0x1A | 0x29 => some ([0xFFF], [])
  | 0x14 => some ([0x1FFF, all], [])
  | 0x16 => some ([2 ^ 36 - 1, 2 ^ 48 - 1], [])
  | 0x1B => some ([2 ^ 22 - 1, 2 ^ 48 - 1], [])
  | 0x20 => some ([0xFF, all], [(2, 64)])
  | 0x21 => some ([0xFF], [])
  | 0x22 => some ([2 ^ 46 - 1, 2 ^ 32 - 1, all, all, all, 2 ^ 42 - 1], [(3, 64)])
  | 0x2A => some ([1, all, all, 2 ^ 40 - 1], [(2, 32)])
  | 0x2B => some ([0xFFFF], [])
  | 0x2C => some ([2 ^ 32 - 1, all], [(2, 64)])
  | 0x2D | 0x4C => some ([0xFFF, all], [(2, 64)])
  | 0x30 => some ([2 ^ 53 - 1, 2 ^ 49 - 1, 2 ^ 29 - 1, all], [(4, 8)])
  | 0x31 => some ([0xFFFF], [])
  | 0x38 => some ([2 ^ 63 - 1, all], [(2, 8)])
  | 0x39 => some ([2 ^ 56 - 1, 2 ^ 48 - 1], [])
  | 0x3A => some ([0xFFFF], [])
  | 0x40 | 0x41 => some ([0xF], [])
  | 0x48 | 0x49 | 0x4A | 0x4D => some ([1, all], [(2, 64)])
  | 0x4B => some ([7, all], [(2, 64)])
  | 0x50 => some ([2 ^ 33 - 1, all], [(2, 64)])
  | 0x51 => some ([0x1F0001, all, all], [(2, 4096), (3, 8)])
  | _ => none

/-- The descriptor sets no reserved bit and its host addresses keep their rule (13 R372, R373, R360). TILL_RESTORE and
PROG_RUN carry a host address only under SRC = 1, IN_SRC = 0 and OUT_DST = 0. -/
def descOk (d : Desc) : Bool :=
  match descForm (opcodeOf d) with
  | none => false
  | some (masks, addrs) =>
    fld d.d0 47 32 == 0 &&
      (List.range 7).all (fun i => (descWord d (i + 1) &&& ~~~(BitVec.ofNat 64 (masks.getD i 0))) == 0) &&
      addrs.all (fun a => hostAddrOk (descWord d a.1) a.2) &&
      (opcodeOf d != 0x14 || !bit d.d1.toNat 12 || hostAddrOk d.d2 64) &&
      (opcodeOf d != 0x22 || ((bit d.d1.toNat 33 || hostAddrOk d.d4 32) && (bit d.d1.toNat 34 || hostAddrOk d.d5 32)))

/-- Commands marked P (13 Table 13.9). -/
def privileged (op : Nat) : Bool := [0x20, 0x21, 0x28, 0x29, 0x2B, 0x38, 0x39, 0x3A, 0x40, 0x41, 0x51].contains op

/-- Commands the ledger records with origin host ring (15 Table 15.11), ABANDON apart. -/
def ledgered (op : Nat) : Bool := [0x20, 0x21, 0x28, 0x29, 0x2B, 0x38, 0x39, 0x40, 0x41].contains op

/-! ### Descriptor words of objects -/

/-- Bits hi:lo of word i of a descriptor or table entry; 0 beyond its end. -/
def wf (ws : List W64) (i hi lo : Nat) : Nat := fld (ws.getD i 0) hi lo

/-- Bit b of word i. -/
def wb (ws : List W64) (i b : Nat) : Bool := bit (ws.getD i 0).toNat b

/-! ### Wiring-plan port entry (08 Table 8.6) -/

def planWidth (w : W64) : Nat := 2 ^ fld w 63 62
def planUsed (w : W64) : Bool := bit w.toNat 61
def planBoard (w : W64) : Bool := bit w.toNat 60
def planSwap (w : W64) : Bool := bit w.toNat 59
def planDegrade (w : W64) : Bool := bit w.toNat 58
def planBulk (w : W64) : Bool := bit w.toNat 57
/-- NKIND: 1 an X7, 0 an endpoint. -/
def planX7 (w : W64) : Bool := bit w.toNat 56
def planNeighbour (w : W64) : Nat := fld w 55 36
def planNport (w : W64) : Nat := fld w 35 27
def planMaxDelay (w : W64) : Nat := fld w 26 16

end Sys2Proof.Machine
end

