-- ==== Sys2Proof/Machine/Flags.lean ====
section
/-! DEFINITION. Status codes (13 Table 13.10), how a completion's status is chosen (03 R102), the sources of events and
causes (13 Table 13.18, 12 Table 12.5) and how counts stop. -/

namespace Sys2Proof.Machine

/-! ### Status codes -/

def stOk : Nat := 0x00
def stSaturated : Nat := 0x01
def stInvalid : Nat := 0x02
def stExcised : Nat := 0x03
def stLate : Nat := 0x04
def stScale : Nat := 0x05
def stHeadroom : Nat := 0x06
def stStale : Nat := 0x07
def stDetect : Nat := 0x08
def stPeerLost : Nat := 0x09
def stAborted : Nat := 0x0A
def stRefused : Nat := 0x0B
def stHostError : Nat := 0x0C
def stCommitted : Nat := 0x10
def stLateArm : Nat := 0x11
def stStage : Nat := 0x12
def stDrain : Nat := 0x13
def stCancel : Nat := 0x14
def stUnaligned : Nat := 0x15

/-- STATUS_SEEN with the bit of one more status (13 R378). -/
def addSeen (seen : W16) (st : Nat) : W16 := seen ||| BitVec.ofNat 16 (2 ^ st)

/-- The highest-precedence status seen: codes 0x00-0x0A rise with precedence (03 R102, 13 R378). -/
def topStatus (seen : W16) : Nat :=
  ([10, 9, 8, 7, 6, 5, 4, 3, 2, 1].find? fun k => bit seen.toNat k).getD 0

/-- A count that stops at a largest value (02 R55). -/
def satAdd (limit a b : Nat) : Nat := min limit (a + b)

/-! ### Event and cause sources (13 Table 13.18) -/

def srcCluster (c : Nat) : Nat := c
def srcPg (pg : Nat) : Nat := 0x40 + pg
def srcHbm (s : Nat) : Nat := 0x50 + s
def srcCoreW : Nat := 0x54
def srcCoreE : Nat := 0x55
def srcPool : Nat := 0x56
def srcSteward : Nat := 0x57
def srcHost : Nat := 0x58
def srcTill : Nat := 0x60
def srcTally : Nat := 0x61
def srcRegion : Nat := 0x62
def srcRelay : Nat := 0x63

/-- Class c of RING_EVROUTE for a source. -/
def eventClass (src : Nat) : Nat :=
  if src < 0x40 then 0
  else if src < 0x50 then 1
  else if src < 0x54 then 2
  else if src < 0x56 then 3
  else if src = 0x56 then 4
  else if src = 0x57 then 5
  else if src = 0x58 then 6
  else 7 + (src - 0x60)

/-! ### Words of the counter copy (12 Table 12.6) -/

def cFecCorrected : Nat := 18
def cReplayOk : Nat := 19
def cReplayFail : Nat := 20
def cLockLoss : Nat := 21
def cDegrade : Nat := 22
def cStompRx : Nat := 23
def cStompTx : Nat := 24
def cWatchMiss : Nat := 25
def cKickSent : Nat := 26
def cKickAbsorbed : Nat := 27
def cKickLate : Nat := 28
def cKickLost : Nat := 29
def cKickHeld : Nat := 30
def cDownFlush : Nat := 32

/-! ### Discard reasons (09 Table 9.6; 10 R302, R309; 12 R335) -/

def rHcrc : Nat := 0x01
def rMalformed : Nat := 0x02
def rLinkState : Nat := 0x03
def rForm : Nat := 0x04
def rOrigin : Nat := 0x05
def rJob : Nat := 0x06
def rSource : Nat := 0x07
def rRankMap : Nat := 0x08
def rNotConsumed : Nat := 0x09
def rGroup : Nat := 0x0A
def rNoRoute : Nat := 0x0B
def rBadTrailer : Nat := 0x0C
def rDownFlush : Nat := 0x0D
def rMirrorDrop : Nat := 0x0E
def rMeterRed : Nat := 0x0F
def rYellow : Nat := 0x10
def rQuota : Nat := 0x11
def rTable : Nat := 0x12

end Sys2Proof.Machine
end

