-- ==== Sys2Proof/Machine/State.lean ====
section
/-! DEFINITION. The state of the X7 block as plain data: every register, table, queue, buffer, counter, mode and pin
the spec gives it, and the queue of commands waiting. Fields that are the model's own are marked MODEL. -/

namespace Sys2Proof.Machine

/-- Why the machine would stop. No command of this block stops it: every refusal the spec describes is an effect on the
state. Never raised (safe). -/
inductive Fault where
  /-- Raised by no meaning; it keeps the type inhabited (safe). -/
  | none
  deriving DecidableEq, Repr

/-- Why a command would have no meaning. -/
inductive Refusal where
  /-- Raised by an arm of Dispatch.lean whose command has no meaning yet, by its mnemonic (safe). -/
  | notModelled (mnemonic : String)
  deriving DecidableEq, Repr

/-! ### Lanes and links (08_lanes_and_links.md) -/

/-- Link states: the link-up states of 08 Table 8.7 and the outcomes of Table 8.10. -/
inductive LinkSt where
  | down | quiet | train | identify | measure | check | up | refused | quarantine | held
  deriving DecidableEq, Repr

/-- One lane's receiver (08 R227, R230) and the passbook rotation it is taking (R228). -/
structure Lane where
  lock : Bool := false
  goodRun : Nat := 0
  badRun : Nat := 0
  /-- Marked bad: a lasting fault, no lock in TRAIN, or beyond the skew limit; until the next link-up (08 R242, R231). -/
  bad : Bool := false
  inverted : Bool := false
  /-- State of the receiver's scrambler, once taken (08 R225): the last 31 bits, newest lowest. -/
  rxScr : Option Nat := none
  /-- Lane symbols by which its last block arrived after the first block of its port (08 R231). -/
  skew : Nat := 0
  /-- LANE_IN_PORT of the neighbour's lane that it receives, once a rotation has shown it (08 R228, R248). -/
  nbrIndex : Option Nat := none
  /-- Passbook bytes of the rotation under way, slot 0 first. -/
  slots : List Byte := []
  /-- The last complete rotation, 64 bytes, and whether it still waits to be compared. -/
  rotation : List Byte := []
  ready : Bool := false
  /-- The last complete rotation to arrive has a good PB_CHK; `rotation` keeps the last that had (08 R228). -/
  bookOk : Bool := false
  /-- Lane symbol in which its last block arrived (08 R230). -/
  at_ : Option Nat := none
  /-- Complete rotations with good PB_CHK since IDENTIFY began. -/
  goodRots : Nat := 0
  /-- State of the sender's scrambler (08 R225). -/
  txScr : Nat := 0x7FFFFFFF
  /-- Passbook bytes taken for the record being sent (08 R228). -/
  book : List Byte := []
  /-- The lane header last sent (08 Table 8.2), 0 while the lane is electrically idle. -/
  sent : BitVec 80 := 0
  /-- The last whole block as it left the pins, block bit 0 most significant (08 R223-R225); 0 while the lane is electrically idle. -/
  wire : BitVec 2800 := 0
  deriving DecidableEq, Repr

/-- A block time of a port, as kept for replay (08 R240): its BSN, and each active lane's header as first sent and data bits; the stomped
trailer that would end the frame under way as it began (R245), and which of its data cycles carry bytes of a frame (06 R188). -/
structure TxBlock where
  bsn : BitVec 12
  heads : List (BitVec 80)
  data : List (BitVec 2560)
  under : Option (List Byte) := none
  busy : List Bool := []
  deriving DecidableEq, Repr

/-- Where the data cycles read from a port's blocks stand (08 R226): between frames, inside one with some data cycles left, or past a
header whose length cannot be trusted (09 R262). -/
inductive RxPos where
  | idle
  | inside (left : Nat)
  | lost
  deriving DecidableEq, Repr

/-- What a decoded block or rotation brings in the next cycle (08 R249): the state of a comparison (0 UP, 1 REFUSED, 2
QUARANTINE), HELD with a reason and the lane that shows it, or DOWN. -/
inductive Verdict where
  | state (k : Nat)
  | held (reason lane : Nat)
  | down
  deriving DecidableEq, Repr

/-- One port's link (08 R236-R251). -/
structure Link where
  st : LinkSt := .down
  /-- Narrowing under 08 R247: LSTATE reads DEGRADING. -/
  degrading : Bool := false
  /-- Cycle in which the state was entered. -/
  since : Nat := 0
  /-- Consecutive failed link-up attempts (08 R236). -/
  attempts : Nat := 0
  measureTries : Nat := 0
  /-- Reason code of 08 Table 8.9 while HELD. -/
  heldReason : Nat := 0
  /-- ID16, SLANE and LANE_IN_PORT that its HELD event shows (13 Table 13.19). -/
  heldWhere : Nat := 0
  /-- One-way delay d in FCLK cycles and in lane symbols, fixed at MEASURE (08 R238). -/
  delay : Nat := 0
  delaySym : Nat := 0
  rtt : Nat := 0
  /-- Round trips of the consecutive echoes that agree, newest first. -/
  echoes : List Int := []
  /-- The neighbour's last good rotation, 64 bytes. -/
  nbr : List Byte := []
  /-- Cycle in which that rotation's slot-0 block began arriving, and its TICK. -/
  nbrAt : Nat := 0
  nbrTick : BitVec 16 := 0
  /-- Arrival of the last slot-22 block, in lane symbols (08 R238). -/
  at22 : Nat := 0
  /-- A complete rotation has shown the neighbour in UP, REFUSED or QUARANTINE (08 R237). -/
  nbrUp : Bool := false
  /-- BSN and arrival, in lane symbols, of the last block received, and of the last that was no replayed copy. -/
  lastIn : Option (BitVec 12 × Nat) := none
  lastNew : Option (BitVec 12 × Nat) := none
  /-- Where the data cycles of the accepted blocks stand (08 R226). -/
  rx : RxPos := .idle
  /-- What has been decoded and takes effect in the next cycle: the cycle of its decoding, and the effect (08 R249). -/
  due : List (Nat × Verdict) := []
  /-- Rotations in a row whose PB_CHK failed. -/
  pbFails : Nat := 0
  /-- Last disagreement found in a received TICK field (08 R249). -/
  tickWrong : Bool := false
  /-- TSTATE of the last accepted lane header. -/
  nbrTstate : BitVec 2 := 0
  /-- BSN of the last block accepted in order (08 R240). -/
  ack : BitVec 12 := 4095
  /-- Waiting for the block after `ack`: NAK is sent. -/
  waiting : Bool := false
  /-- The awaited block failed as received, so its replay decides (08 R242). -/
  failed : Bool := false
  /-- While waiting: the lanes of the last block time none of whose headers could be read (08 R242). -/
  unread : List Nat := []
  /-- The last block that the neighbour resends in the replay awaited or under way (08 R240, R242). -/
  copies : Option (BitVec 12) := none
  /-- Data of the neighbour's frames has come: it has started them (08 R237). -/
  heard : Bool := false
  /-- Replays of this receiver: the cycle in which the failed block began to arrive, and that in which its accepted copy did (08 R244). -/
  gaps : List (Nat × Option Nat) := []
  /-- The neighbour's port, as its lanes' passbooks show it (08 R248). -/
  nbrPort : Option Nat := none
  /-- BSN of the next new block sent. -/
  txBsn : BitVec 12 := 0
  /-- Sent blocks not yet acknowledged, oldest first (08 R243). -/
  replay : List TxBlock := []
  /-- Copies left to resend. -/
  resend : List TxBlock := []
  /-- The block under way, whether it is a replayed copy, and the data cycles of it so far: their bytes and HOLD. -/
  block : Option TxBlock := none
  copying : Bool := false
  cycles : List (List Byte × Bool) := []
  /-- Which of those data cycles carry bytes of a frame (06 R188). -/
  busy : List Bool := []
  /-- BSN and first cycle of the blocks begun last, newest first (08 R238). -/
  sentAt : List (BitVec 12 × Nat) := []
  nakSeen : Bool := false
  /-- Cycle of the fence (08 R246, R247). -/
  fencedAt : Option Nat := none
  /-- The end may start frames (08 R237). -/
  started : Bool := false
  /-- Framing lost (09 R262): the cycle in which it was lost, and the first cycle after what was received since. -/
  framingLost : Option (Nat × Nat) := none
  /-- 08 R251: commit tick whose generations the neighbour's pending ones matched, and commit tick at which this X7 abandoned a set
that the neighbour commits. -/
  agreeTick : Option (BitVec 48) := none
  refuseTick : Option (BitVec 48) := none
  deriving DecidableEq, Repr

/-! ### Frames, queues and kickstand (09, 10, 12) -/

/-- One entry of a virtual output queue (10 R288): a copy of a frame waiting at an output. -/
structure Entry where
  /-- Number of the buffered frame it is a copy of. -/
  fid : Nat
  frame : Frame
  cls : Nat
  /-- Input port group, or 16 for a frame the X7 originated. -/
  src : Nat
  /-- Arrival cycle (07 R203). -/
  arrival : Nat
  /-- First data cycle in which the path latency lets it start (07 Table 7.6). -/
  ready : Nat
  /-- Mirror session of a mirror copy (09 R282). -/
  mirror : Option Nat := none
  /-- Stomp reason it will leave with, 0 for none (09 R277). -/
  stomp : W16 := 0
  /-- Input port and the cycle in which its last byte has arrived, for 08 R244 and 09 R284. -/
  inPort : Option (Nat × Nat) := none
  /-- Aligned release copy: tally and the start cycle it is due in (06 R175). -/
  aligned : Option (Nat × Nat) := none
  /-- It holds no cell: a prepared frame (09 Table 7.7: tally release, kickstand), or one in its express path (10 R289). -/
  express : Bool := false
  /-- Number of the frame a copy of a session with MATCH 1 was taken of, and its output (09 R282). -/
  copyOf : Option (Nat × Nat) := none
  deriving DecidableEq, Repr

/-- A frame held in packet-buffer cells (10 R288): its slice, cells, requester and the copies still queued. -/
structure Held where
  slice : Nat := 0
  cells : Nat := 0
  job : Nat := 0
  cls : Nat := 0
  copies : Nat := 0
  /-- Port whose neighbour gets credit back when the frame is gone, and its cells (10 R294). -/
  credit : Option (Nat × Nat) := none
  /-- Mirror session of a mirror copy (09 R282). -/
  mirror : Option Nat := none
  /-- Held for reordering: its cells are of the reserve of its slice (09 R274). -/
  reserve : Bool := false
  /-- A copy has started (10 R309). -/
  started : Bool := false
  deriving DecidableEq, Repr

/-- What a port's lanes carry (09 R226, R278; 10 R295). -/
inductive OnLane where
  | idle
  | frame (e : Entry) (start : Nat) (cycles : Nat)
  | credit (cycle : Nat)
  | cut (cycle : Nat)
  | kick (f : Frame) (start : Nat) (cycles : Nat)
  deriving DecidableEq, Repr

/-- An output's queues and scheduler (10 R290-R296). -/
structure PortQ where
  queue : List Entry := []
  lane : OnLane := .idle
  /-- Credit held for each class at the neighbour, in cells. -/
  credit : List Nat := [0, 0, 0, 0, 0, 0, 0, 0]
  /-- Credit of a credit cycle decoded in this cycle, usable from the next (10 R295, R314). -/
  coming : List Nat := [0, 0, 0, 0, 0, 0, 0, 0]
  /-- Cells freed here and not yet returned to the neighbour. -/
  owed : List Nat := [0, 0, 0, 0, 0, 0, 0, 0]
  /-- Withholders of each class's credit (10 R296): a count. -/
  withheld : List Nat := [0, 0, 0, 0, 0, 0, 0, 0]
  /-- Commit cycle after which a rotation must show the neighbour's allotment of a drained class (10 R295). -/
  awaitCred : List (Option Nat) := [none, none, none, none, none, none, none, none]
  lastCredit : Option Nat := none
  /-- D_c of TC0-TC5 (10 R292). -/
  deficit : List Nat := [0, 0, 0, 0, 0, 0]
  /-- Class whose turn it is. -/
  turn : Nat := 5
  /-- The class holding the turn has had its quantum added. -/
  turnOpen : Bool := false
  /-- Source last served in each class, 0-16. -/
  lastSrc : List Nat := [16, 16, 16, 16, 16, 16, 16, 16]
  /-- Path last chosen for this input port in each class (09 R270). -/
  lastPath : List Nat := [127, 127, 127, 127, 127, 127, 127, 127]
  /-- DEPTH, DEPTH_MAX, HEAD_AGE, WAIT_MAX of each class (10 Table 10.8). -/
  samples : List (Nat × Nat × Nat × Nat) := List.replicate 8 (0, 0, 0, 0)
  /-- First of the hold cycles in which the frame on the lane stands now (08 R244). -/
  stallFrom : Option Nat := none
  /-- Data cycles sent of the frame on the lane. -/
  done : Nat := 0
  /-- RET0-RET7 of the credit cycle on the lane (10 R295). -/
  ret : List Nat := []
  /-- A cut cycle: the data cycle it takes, and its stomped trailer (09 R278). -/
  cut : Option (Nat × List Byte) := none
  deriving DecidableEq, Repr

/-- A detected kickstand that has not left yet: CAUSE, TILL field, detection cycle, tick and offset (12 R345). -/
structure KickPend where
  cause : Nat
  till : Nat
  cycle : Nat
  tick : BitVec 48
  ofs : Nat
  /-- The kickstand entry active in that cycle (07 Table 7.10). -/
  words : List W64 := []
  /-- It has had to wait, and is counted KICK_LATE (12 R347). -/
  late : Bool := false
  deriving DecidableEq, Repr

/-- A port's kickstand state (12 R344-R350). -/
structure Kick where
  latch : Bool := false
  /-- Tick in which the latch was set. -/
  latchTick : BitVec 48 := 0
  latchAt : Nat := 0
  /-- Tick of the last kickstand frame sent. -/
  sentTick : Option (BitVec 48) := none
  /-- Kickstand frames sent on the port, modulo 2^16. -/
  seq : W16 := 0
  pending : List KickPend := []
  /-- The kickstand whose frame went on the lane last (08 Table 8.12). -/
  sending : Option KickPend := none
  /-- Tick in which REPEAT was last detected. -/
  repeatTick : Option (BitVec 48) := none
  /-- Cycle in which a write to DBG_KICK_TEST was accepted; it is detected in the next (Table 12.9). -/
  testAt : Option Nat := none
  /-- A write of 1 to the latch: its cycle and origin; it clears in the next (12 R342, R350). -/
  clearing : Option (Nat × RegOrigin) := none
  deriving DecidableEq, Repr

/-- One port, kept at its first lane (08 R234). -/
structure Port where
  /-- Configured by the wiring plan (08 R235). -/
  conf : Bool := false
  /-- Its wiring-plan word (08 Table 8.6). -/
  plan : W64 := 0
  /-- Active lanes, in index order. -/
  lanes : List Nat := []
  link : Link := {}
  q : PortQ := {}
  kick : Kick := {}
  /-- BUSY, LINK, HOLD, GATE, CREDIT, SHAPER, EMPTY (06 R188). -/
  freewheel : List Nat := [0, 0, 0, 0, 0, 0, 0]
  /-- The 64 words of 12 Table 12.6. -/
  counters : Sparse Nat := []
  /-- Watches met in this tick, and watches enabled by a commit of this tick (07 R210). -/
  met : List Bool := [false, false, false, false]
  fresh : List Bool := [false, false, false, false]
  /-- Watches already missed in this tick. -/
  missed : List Bool := [false, false, false, false]
  /-- Tandem HOLD: no compared frame is sent (11 R329). -/
  tandemHold : Bool := false
  /-- Cycle in which the last TICK_OFFER was sent on the port (07 R197). -/
  lastOffer : Option Nat := none
  deriving DecidableEq, Repr

/-- A reorder context (09 R274): its message, what it has delivered, its held frames and timer. -/
structure Reorder where
  pg : Nat
  src : Nat
  job : Nat
  seq : Nat
  port : Nat
  cls : Nat
  /-- FULL: the OFFSET expected next. LAST_ONLY: units delivered. -/
  expect : Nat
  held : List Entry
  timer : Nat
  /-- The timer has expired once: frames pass on arrival (09 R275). -/
  pass : Bool
  /-- The LAST frame, once it is on its way out: the context is freed as it leaves (09 Table 9.14). -/
  ending : Option Nat := none
  deriving DecidableEq, Repr

/-- The last 1,024 completed messages of one port group (09 R274), newest first. -/
structure DoneMsgs where
  msgs : List (Nat × Nat × Nat) := []
  deriving DecidableEq, Repr

/-! ### Status, counters and ledger (12, 14, 15) -/

/-- The registers of one status block (12 Table 12.4, R339). -/
structure Stat where
  status : W32 := 0
  enable : W32 := 0
  info : W32 := 0xF8000000
  tiles : W64 := 0
  /-- Cycle in which FIRST and UNIT were set (12 R341). -/
  firstAt : Nat := 0
  /-- Bits of STATUS written with 1, and the cycle of the write: they clear in the next (12 R342). -/
  clearing : Option (Nat × W32) := none
  deriving DecidableEq, Repr

/-- A change waiting for the chain engine (15 R426, R430): the entry but for SEQ. -/
structure Change where
  tick : BitVec 48
  ofs : W32
  origin : Byte
  originId : W16
  kind : Byte
  raw : Bool
  target : W64
  old : List Byte
  new : List Byte
  deriving DecidableEq, Repr

/-- The change ledger (15 R426-R435). -/
structure Ledger where
  recording : Bool := false
  seq : Nat := 0
  /-- The chain value h of 15 R429. -/
  chain : BitVec 512 := 0
  queue : List Change := []
  /-- The last entries of the queue that may still give way to another of their cycle: the cycle and their number (15 R428). -/
  recentAt : Nat := 0
  recent : Nat := 0
  /-- Entries held on die, 64 bytes each, keyed by SEQ mod 65,536. -/
  store : Sparse (List Byte) := []
  /-- Cycle of the last entry taken by the chain engine (15 R430). -/
  lastAt : Option Nat := none
  sealSeq : Nat := 0
  sealTick : BitVec 48 := 0
  /-- Cycle of the earliest entry no seal covers, SEAL and SEAL_SIG apart (15 R431). -/
  unsealedAt : Option Nat := none
  /-- A seal under way: the SEQ of its SEAL entry, its tick, and the parts written. -/
  sealing : Option (Nat × BitVec 48 × Nat) := none
  /-- At least one seal of this boot has completed (15 R420). -/
  sealed : Bool := false
  /-- LEDGER_MIRROR: enable, size, base, head word address, next entry to write (15 R433). -/
  mirrorEn : Bool := false
  mirrorLog : Nat := 0
  mirrorBase : Nat := 0
  mirrorHead : Nat := 0
  mirrorNext : Nat := 0
  deriving DecidableEq, Repr

/-! ### Host interface (13) -/

/-- A command slot taken from its ring (13 R369). -/
inductive Slot where
  | reading (id : Nat)
  | got (d : Desc)
  | failed
  deriving DecidableEq, Repr

/-- A command ring (13 Table 13.4). -/
structure CmdRing where
  base : W64 := 0
  ciAddr : W64 := 0
  ctl : W32 := 6
  ci : W32 := 0
  halted : Bool := false
  /-- Index last read from the watched line. -/
  pi : W32 := 0
  /-- Slots fetched and not accepted, oldest first: from index `ci`. -/
  slots : List Slot := []
  /-- Commands accepted and not completed (13 R371). -/
  outstanding : Nat := 0
  deriving DecidableEq, Repr

/-- A completion or event ring (13 Table 13.5). -/
structure OutRing where
  base : W64 := 0
  ctl : W32 := 6
  wi : W32 := 0
  /-- Consumer index last read from the watched line. -/
  ci : W32 := 0
  /-- Entries written since the last interrupt, and the cycle of the first (13 R390). -/
  since : Nat := 0
  firstAt : Option Nat := none
  /-- Events dropped since the last record (event rings, 13 R389). -/
  lost : Nat := 0
  deriving DecidableEq, Repr

/-- A watch entry (13 Table 13.6) and the line it watches (R359, R367). -/
structure Watch where
  addr : W64 := 0
  ctl : W32 := 0
  value : W32 := 0
  /-- The line is held in Shared state. -/
  held : Bool := false
  /-- An RdShared of the line is outstanding. -/
  reading : Bool := false
  /-- A snoop arrived meanwhile: read again. -/
  again : Bool := false
  /-- After a failed read: 1 more than the doorbells left on which it is retried (13 R391). -/
  retries : Nat := 0
  deriving DecidableEq, Repr

/-- Why a host write was issued (13 R384, R391; 15 R433). -/
inductive WriteKind where
  | completion (m : Nat)
  | event (e : Nat)
  | ci (n : Nat)
  | copy (ring tag : Nat)
  | save (till : Nat)
  | mirror (seq : Nat)
  | mirrorHead
  deriving DecidableEq, Repr

/-- A write of host memory without GO yet: WOWrInvF for each full line of it, WOWrInv for a part of one (13 Table 13.2). -/
structure HostWrite where
  addr : Nat
  data : List Byte
  kind : WriteKind
  deriving DecidableEq, Repr

/-- A read of host memory under way. -/
inductive HostRead where
  | fetch (ring index : Nat)
  deriving DecidableEq, Repr

/-- What posting a completion brings with it (13 R385). -/
inductive After where
  /-- Slab release at the end of a till (03 R89). -/
  | freeSlabs (till : Nat)
  /-- The version an epoch built becomes current (05 R152). -/
  | current (region : Nat) (version : W16)
  /-- A copy out of a region, or a gather, is over (05 R137, R157). -/
  | copied (region : Nat) (gather : Bool)
  /-- It copies an operand: STALE_VERSION once a chunk has moved on (05 R157). -/
  | operand (region : Nat)
  deriving DecidableEq, Repr

/-- A completion on its way to a ring (13 R375, R384): entries of four words, PHASE not yet written. -/
structure Cpl where
  cring : Nat
  entries : List (List W64)
  /-- Host writes whose GO it waits for. -/
  waits : List Nat := []
  after : List After := []
  /-- Command ring whose command it completes. -/
  ring : Option Nat := none
  /-- QUIET: nothing is posted for status OK. -/
  quiet : Bool := false
  deriving DecidableEq, Repr

/-- An interrupt that waits for GO of the entries it announces (13 R390). -/
structure Irq where
  vector : Nat
  waits : List Nat
  deriving DecidableEq, Repr

/-- An entry of the MSI-X table in BAR2 (13 R357, R390): where its write goes, and whether it is masked. -/
structure MsixEntry where
  addr : W64 := 0
  data : W32 := 0
  masked : Bool := false
  deriving DecidableEq, Repr

/-- Configuration space of function 0, as 13 Table 13.1 gives it: the CXL device DVSEC, its capabilities, the base addresses that the host
writes, and the power state, which is always D0. -/
structure PciConfig where
  cacheCapable : Bool := true
  ioCapable : Bool := true
  memCapable : Bool := false
  cacheKiB : Nat := 64
  vectors : Nat := 64
  bar0 : W64 := 0
  bar2 : W64 := 0
  powerState : BitVec 2 := 0
  deriving DecidableEq, Repr

/-- The host interface. -/
structure HostIf where
  cmd : Sparse CmdRing := []
  cpl : Sparse OutRing := []
  ev : Sparse OutRing := []
  evroute : W32 := 0
  watch : Sparse Watch := []
  reads : Sparse HostRead := []
  writes : Sparse HostWrite := []
  /-- Completions ready to post, oldest first, and the pending queue of 13 R385. -/
  ready : List Cpl := []
  pending : List Cpl := []
  irqs : List Irq := []
  /-- MSI-X vectors raised, oldest first; each is a CXL.io write of its table entry's data to its address. -/
  msix : List Nat := []
  /-- The MSI-X table and its pending-bit array (13 R357, R390). -/
  msixTable : Sparse MsixEntry := []
  pba : W64 := 0
  pci : PciConfig := {}
  /-- Host addresses of the object descriptors, tables, images and data that commands have read with RdCurr (13 Table 13.2). -/
  rdCurr : List Nat := []
  /-- Ring from which the last command was taken, and the cycle (13 R371). -/
  served : Nat := 63
  servedAt : Option Nat := none
  /-- Low halves written and waiting for the high half (13 R362), by offset. -/
  lo : Sparse W32 := []
  /-- Latched registers (14 R394), by offset. -/
  latch : Sparse W32 := []
  /-- Answers of the last register read and of the last snoop, as sent. -/
  readData : W64 := 0
  snoopRsp : List (BitVec 3) := []
  cxlUp : Bool := false
  /-- Lines dropped: CleanEvictNoData sent for them, and CacheFlushed. -/
  evicted : List (BitVec 58) := []
  cacheFlushed : Nat := 0
  deriving DecidableEq, Repr

/-! ### Bring-up and package (15, 16) -/

/-- Phases of a cold bring-up (15 Table 15.2). -/
inductive Phase where
  /-- RST_N low, or REFCLK out of range. -/
  | reset
  /-- RST_N high, PLLs starting. -/
  | plls
  /-- SYNC_N released, waiting to be sampled high. -/
  | sync
  /-- FCLK runs. -/
  | run
  deriving DecidableEq, Repr

/-- Firmware accepted (15 R418). -/
structure Firmware where
  slot : Nat
  version : W16
  compat : Byte
  svn : Nat
  keySlot : Nat
  commitSvn : Bool
  revoke0 : Bool
  digest : BitVec 512
  deriving DecidableEq, Repr

/-- Bring-up, straps, fuses and package state. -/
structure Boot where
  phase : Phase := .reset
  cause : BitVec 2 := 0
  held : Bool := false
  /-- WRST_N is low. -/
  warm : Bool := false
  fuses : Fuses := { grade := 1, sparedWest := 0, sparedEast := 0, stepping := 0x10, serial := 0, rootKey0 := 0,
                     rootKey1 := 0, revoked0 := false, svn := 0, disabled := [] }
  pins : BitVec 14 := 0x1000
  /-- STRAP_VALUE bits 13:0 as sampled, and whether they have been (14 R400). -/
  strap : BitVec 14 := 0
  sampled : Bool := false
  /-- STAT_READY (14 Table 14.10), HOST apart. -/
  ready : W32 := 0
  /-- Firmware slots tried and rejected. -/
  tried : List Nat := []
  fw : Option Firmware := none
  /-- An image written through JTAG (15 Table 15.3, STRAP_BOOT 0b11). -/
  jtag : Option (List Byte) := none
  capFw : W32 := 0
  capEndpoint : W32 := 0
  /-- The steward has checked the wiring plan and the equalisation table. -/
  planDone : Bool := false
  /-- Cycle in which CORE_W and CORE_E are set after a warm reset (15 Table 15.4). -/
  coreAt : Option Nat := none
  /-- Ports enter QUIET when the steward returns: it stopped for a warm reset. -/
  quietNext : Bool := false
  /-- Wiring plan accepted: the header's fields. -/
  planOk : Bool := false
  planId : W16 := 0
  tickRoot : Bool := false
  tickPorts : List (Option Nat) := [none, none, none, none]
  boardEp : List (Option (BitVec 20)) := [none, none, none, none, none, none, none, none]
  planDigest : BitVec 512 := 0
  /-- The 512 words of the plan (08 R235), kept for LINK_UP. -/
  planWords : Sparse W64 := []
  /-- Equalisation table in use: four words a lane (08 R233); a lane without an entry has LANE_EN = 0. -/
  eq : Sparse (List W64) := []
  eqDigest : BitVec 512 := 0
  unprovisioned : Bool := false
  certChain : List Byte := []
  /-- Steward running (01 R21). -/
  steward : Bool := false
  /-- Sets lost to a warm reset, to be recorded when the steward returns (07 R220). -/
  lostSets : List W16 := []
  /-- Measurement 12 (15 Table 15.9). -/
  debugBits : BitVec 3 := 0
  thermtrip : Bool := false
  syncDriven : Bool := true
  refclkOk : Bool := true
  /-- STAT_TEMP readings: valid and temperature (16 Table 16.7). -/
  temps : List (Option Int) := [none, none, none, none, none, none]
  /-- 16 f for each die (16 R450), the start tick of the interval, and sum and number of its readings. -/
  throttle : List (Option (Nat × BitVec 48 × Nat × Nat)) := [none, none]
  i3cAddr : BitVec 7 := 0
  i3cData : W32 := 0
  i3cIbi : List Byte := []
  /-- Lanes driven electrically idle whatever their ports do (16 R451, R446). -/
  allIdle : Bool := true
  deriving DecidableEq, Repr

/-- The SPDM responder's connection (15 R424): how far negotiation has come, and the last response. -/
structure Spdm where
  version : Bool := false
  caps : Bool := false
  algs : Bool := false
  /-- Requests answered, used as the number of the next nonce. MODEL. -/
  count : Nat := 0
  /-- DOE Busy at the last request (15 R413, R424). -/
  busy : Bool := true
  /-- Response code and content of the last response (13 Table 13.1, 15 Table 15.8). -/
  code : Byte := 0
  response : List Byte := []
  /-- Bytes signed in the last response, if it was signed. -/
  signed : Option (BitVec 4096) := none
  deriving DecidableEq, Repr

/-! ### Tick and commit sets (07) -/

/-- Tick state (07 Table 7.3, R196-R202). -/
structure Tick where
  num : BitVec 48 := 0
  /-- Cycle of the tick's cycle 0, below 0 where it began before this X7's FCLK cycle 0. -/
  start : Int := 0
  running : Bool := false
  len : W32 := 0
  /-- 0 UNALIGNED, 1 ALIGNED, 2 ROOT. -/
  state : BitVec 2 := 0
  source : BitVec 3 := 0
  sourcePort : BitVec 9 := 0
  residual : Int := 0
  /-- On the tick root, once its first link is up: the port it adopts from, or none (07 R197). -/
  rootFirst : Option (Option Nat) := none
  /-- TICK_SAMPLE.OFFSET and the value in force (10 R303). -/
  sample : W32 := 0
  sampleNow : W32 := 0
  sampledAt : Option Nat := none
  sampleTick : BitVec 48 := 0
  deriving DecidableEq, Repr

/-- Staged contents of one table (07 R218). -/
structure Staged where
  tid : Nat
  set : W16
  entries : Sparse (List W64)
  /-- Entries refused at staging. -/
  refused : Nat
  deriving DecidableEq, Repr

/-- An armed commit set (07 R218-R220). -/
structure Armed where
  set : W16
  tables : List Nat
  tick : BitVec 48
  routeGen : W16
  rmapGen : W16
  mask : Byte
  ring : Nat
  d0 : W64
  acceptTick : BitVec 48
  acceptOfs : Nat
  acceptAt : Nat
  /-- The drain of 09 R286 is under way. -/
  draining : Bool := false
  deriving DecidableEq, Repr

/-- Commit-set tables (07, 09, 10, 11, 12): entries as their words of 13 R377. -/
structure Tables where
  /-- Active entries, keyed by identifier * 2^20 + index; an entry at its reset value is not listed. -/
  active : Sparse (List W64) := []
  staged : List Staged := []
  armed : List Armed := []
  /-- Entries copied after the commit, oldest first, with the mask they hold (09 R287). -/
  overflow : List (Nat × List W64) := []
  overflowMask : Byte := 0
  /-- Cycle of the last such copy. -/
  overflowAt : Option Nat := none
  /-- Classes drained until the end of cycle `heldAt` (09 R286). -/
  heldMask : Byte := 0
  heldAt : Nat := 0
  routeGen : W16 := 0
  rmapGen : W16 := 0
  deriving DecidableEq, Repr

/-! ### Tandem (11) -/

/-- A FRAME record waiting for its pair: key, CRC and the cycle it was formed or held (11 R326). -/
structure TandemRec where
  slot : Nat
  src : BitVec 20
  seq : W16
  offset : BitVec 24
  tick : W16
  crc : W32
  at_ : Nat
  deriving DecidableEq, Repr

/-- Tandem state (11 R323-R329). -/
structure Tandem where
  own : List TandemRec := []
  twin : List TandemRec := []
  /-- Records of frames on their way to an output, by frame and output, that are formed at their cycle (11 R325). -/
  forming : List (Nat × Nat × TandemRec) := []
  lost : Bool := false
  /-- A STATE record that agrees has been held in this tick: restore at the next. -/
  restore : Bool := false
  /-- Cycle in which the last STATE record was held. -/
  stateAt : Option Nat := none
  /-- A state mismatch persists (12 R350). -/
  mismatch : Bool := false
  /-- MISMATCH of slots 0-63 (12 Table 12.6). -/
  counts : Sparse Nat := []
  /-- Own STATE record of the current tick. -/
  ownState : List Byte := []
  deriving DecidableEq, Repr

/-! ### Pools (10) -/

/-- A slab block: size class 0-3 (4, 16, 64, 256 KiB) and its address in units of 4 KiB within the cluster (10 R306). -/
structure Block where
  size : Nat
  addr : Nat
  deriving DecidableEq, Repr

/-- The buffer pool manager (10 R306-R312). -/
structure Pools where
  /-- Free slab blocks of each cluster; a cluster not listed has its 48 whole blocks free. -/
  slabs : Sparse (List Block) := []
  /-- Cells used and cells fenced in each slice. -/
  cells : Sparse Nat := []
  cellsFenced : Sparse Nat := []
  /-- Cells of one slice held by one requester, keyed slice * 2,048 + job * 8 + class. -/
  sliceUse : Sparse Nat := []
  /-- Units held and peak, keyed by quota index (pool * 2,048 + job * 8 + class). -/
  use : Sparse Nat := []
  peak : Sparse Nat := []
  /-- Staging buffers: count set by MEM_CONFIG and buffers in use. -/
  staging : Nat := 0
  stagingUsed : Nat := 0
  /-- Staging buffers and slab blocks, with their clusters, removed until cold reset (10 R311). -/
  stagingFenced : Nat := 0
  /-- Cells of each slice and staging buffers freed in this cycle: they may be granted from the next (10 R314). -/
  cellsFreed : Sparse Nat := []
  stagingFreed : Nat := 0
  slabsFenced : List (Nat × Block) := []
  /-- Staging buffers on each stack (05 R159). -/
  stagingOn : List Nat := [0, 0, 0, 0]
  doubleFree : List Nat := [0, 0, 0]
  fenced : List Nat := [0, 0, 0]
  /-- Cells held by each mirror session (09 R282). -/
  mirror : Sparse Nat := []
  /-- Slabs given back, with the cycle in which they are free and their quota index: they may be granted from the cycle after it (03
  Table 3.9, 10 R314). -/
  returning : List (Nat × Nat × List (Nat × Block)) := []
  deriving DecidableEq, Repr

/-- A token count and the cycle it stands for (10 R298, R301), in units of 2^-16 byte. -/
structure Tokens where
  value : Int := 0
  at_ : Nat := 0
  deriving DecidableEq, Repr

/-- The C and P counts of a meter. -/
structure MeterTokens where
  c : Int := 0
  p : Int := 0
  at_ : Nat := 0
  deriving DecidableEq, Repr

/-! ### Tills (03) -/

/-- Till states (03 Table 3.9); `opening` is a till admitted that opens in the next cycle, or with the next tick (R101). -/
inductive TillSt where
  | waitAdmit | opening | open | draining | saved | stopped
  deriving DecidableEq, Repr

/-- An accepted command whose completion is still to come: ring, D0, acceptance cycle and object (13 R375, R380). -/
structure Accept where
  ring : Nat
  d0 : W64
  tick : BitVec 48
  ofs : Nat
  obj : Nat
  deriving DecidableEq, Repr

/-- What a drain does at D + 4 (03 Table 3.7). -/
inductive DrainKind where
  | save
  | preempt
  | restore (img : TillImage) (ok : Bool)
  | abort
  | close
  | excise (slot rank : Nat)
  | ending (status : Nat) (epoch : W16)
  | halt
  deriving DecidableEq, Repr

/-- A drain under way: its acceptance cycle c, its action and the command it answers (03 R92). -/
structure Drain where
  c : Nat
  kind : DrainKind
  by_ : Option Accept
  deriving DecidableEq, Repr

/-- A till (03). -/
structure Till where
  st : TillSt
  /-- Descriptor words W0-W15 and shard table words (03 Tables 3.1, 3.2). -/
  words : List W64
  shard : List W64
  scales : List Byte
  fuse : List Byte
  chunks : List Chunk
  /-- The epoch whose completion is not posted yet, its counts, and those of the epochs after it. -/
  epoch : W16
  cnt : Counts := {}
  ahead : List Counts := []
  /-- Granted slabs: cluster and block. -/
  slabs : List (Nat × Block) := []
  /-- Slots excised (03 R96) and generations held for child slots (R99). -/
  excised : List Nat := []
  gens : Sparse Nat := []
  /-- Slots whose SUMMARY bit is set, with the rank they fixed plus 1 (03 R79, R78). -/
  sums : Sparse Nat := []
  /-- Summary timers running: slot, expiry cycle, rounds. -/
  sumTimers : List (Nat × Nat × Nat) := []
  /-- RESEND_REQs for SUMMARY frames not answered yet: slot and cycle (06 R189 RESEND_WAIT). -/
  sumAsked : List (Nat × Nat) := []
  /-- Own generation (INNER), and the SUMMARY frames sent: epoch, header and payload, newest first (03 R79). -/
  gen : Nat := 0
  sumSent : List (W16 × HdrBits × List Byte) := []
  /-- Epochs in progress whose zero-sum chunks complete in a cycle to come: epoch, cycle, arrival of its first frame (03 R460). -/
  zeroAt : List (W16 × Nat × Nat) := []
  /-- Acceptance order of its TILL_OPEN, the cycle it began to wait, and the command while not completed. -/
  order : Nat := 0
  waitAt : Option Nat := none
  by_ : Option Accept := none
  /-- Effect ticks of excisions not started: slot, rank, tick, command (03 R96). -/
  excisions : List (Nat × Nat × BitVec 48 × Accept) := []
  drains : List Drain := []
  /-- First cycle in which contributions that waited for an excision issue (03 Table 3.7). -/
  issueAt : Nat := 0
  /-- An image being written, or the saved image; staging buffers held; whether pre-emption saved it (03 R88, R93). -/
  image : Option TillImage := none
  staging : Nat := 0
  preempted : Bool := false
  /-- Waits in WAIT_ADMIT for the slabs of tills that pre-emption saves (03 R88). -/
  preempts : Bool := false
  /-- An image being loaded (03 R95). -/
  loading : Option (TillImage × Option Accept) := none
  /-- TILL_RESUME accepted: the till opens in the next cycle (03 Table 3.9). -/
  resuming : Option Accept := none
  /-- Host writes of the image not yet acknowledged. -/
  saveWrites : List Nat := []
  /-- Cycle from which every word of the image has been read (03 R93). -/
  readBy : Nat := 0
  /-- Δ of 05 R148. -/
  delta : W16 := 0
  /-- The completion of the epoch is posted: a till that is not standing waits to be freed, and once the completion is written it is
freed in the next cycle (03 R89). -/
  ended : Bool := false
  freeNext : Bool := false
  deriving DecidableEq, Repr

/-! ### Tallies (06) -/

/-- A tally (06). -/
structure Tally where
  /-- Descriptor words T0-T7 and input words (06 Tables 6.1, 6.2). -/
  words : List W64
  inputs : List W64
  /-- Cycle from which it is open; none while it waits for a tick or for alignment (06 R166, 07 R200). -/
  openAt : Option Nat
  by_ : Option Accept
  gen : W16
  arrived : List Nat := []
  all : Nat := 0
  yes : Nat := 0
  count : Int := 0
  excised : List Nat := []
  /-- The next completion or CARRY carries MEMBER_EXCISED (06 R181). -/
  excisedMark : Bool := false
  excisions : List (Nat × BitVec 48 × Accept) := []
  /-- Arrival cycles of the generation's first and last input, and its deadline cycle (06 R180, R189). -/
  first : Option Nat := none
  last : Nat := 0
  dueAt : Option Nat := none
  timerAt : Option Nat := none
  /-- Cycle of the last release (06 R171: at most one a cycle). -/
  releasedAt : Option Nat := none
  /-- INNER: CARRY sent, no further input in this generation (06 R172). -/
  carried : Bool := false
  discard : Nat := 0
  late : Nat := 0
  deriving DecidableEq, Repr

/-! ### Tile engines (04) -/

/-- A loaded program image (04 R110, R114). -/
structure Prog where
  image : List Byte
  digest : BitVec 512
  /-- Still being copied to the tiles: the cycle from which the slot is usable, and the PROG_LOAD. -/
  loading : Option (Nat × Accept) := none
  deriving DecidableEq, Repr

/-- A standalone run (04 R128, Table 4.9). -/
structure RunReq where
  by_ : Accept
  slot : Nat
  count : Nat
  idxBase : W32
  params : List Byte
  data : List Byte
  outDst : Bool
  outAddr : Nat
  outLine : Nat
  outBytes : Nat
  job : Nat
  window : Nat
  /-- Board address of its input, where that is fabric memory. -/
  src : Option Nat := none
  deriving DecidableEq, Repr

/-- A pass or run in a context's order (04 R126). -/
structure Pass where
  till : Nat
  chunk : Nat
  readyAt : Nat
  run : Option RunReq := none
  /-- Cycle from which it has been passed over (05 R149), once it has. -/
  passedAt : Option Nat := none
  deriving DecidableEq, Repr

/-- The pass a context runs: when it started and its last write leaves, and what it produced. -/
structure Running where
  pass : Pass
  endsAt : Nat
  started : Nat
  /-- Version being built (05 R149), and whether the pass is an update pass. -/
  version : W16 := 0
  /-- A run whose window is still being filled (04 R128). -/
  loading : Bool := false
  /-- Bytes that its FABRIC read streams have fetched, and that its write streams have handed to the controllers (04 R119). -/
  got : Nat := 0
  put : Nat := 0
  deriving DecidableEq, Repr

/-- One context of one tile (04 R126). -/
structure Ctx where
  ready : List Pass := []
  running : Option Running := none
  /-- FABRIC writes of passes that have ended and that the controllers have not accepted yet: till, chunk and bytes (04 R124). -/
  writing : List (Nat × Nat × Nat) := []
  deriving DecidableEq, Repr

/-- Tile fences, spares and scratchpads (12 R338, 04 Table 4.1), and the debug halt (14 R405). -/
structure Tiles where
  /-- Physical tiles (cluster * 66 + place) that logical tiles have moved to; no entry for one that has not moved. -/
  moved : Sparse Nat := []
  /-- Physical tiles fenced, as cluster * 66 + physical tile. -/
  fenced : List Nat := []
  unavailable : List Nat := []
  /-- Scratchpad bytes held by fused-operand slices and running windows, and lines retired. -/
  scratch : Sparse Nat := []
  retired : Sparse Nat := []
  haltState : BitVec 2 := 0
  haltTile : BitVec 12 := 0
  notHalted : Bool := false
  haltAt : Nat := 0
  /-- Cycle in which the last halt was lifted, 0 before the first. -/
  liftedAt : Nat := 0
  /-- Every accumulator is zeroed: TILES of STAT_READY (14 Table 14.10). -/
  ready : Bool := false
  deriving DecidableEq, Repr

/-! ### Fabric memory, vault, relays (05) -/

/-- One chunk of a vault (05 R146, R150, R151). -/
structure VChunk where
  stored : W16 := 0
  /-- Operands 0-7 of the chunk slot. -/
  ops : List (List Byte) := []
  /-- Operands of the build slot, none where not written. -/
  build : List (Option (List Byte)) := []
  /-- Published copies in bank 0 and bank 1. -/
  pub0 : List Byte := []
  pub1 : List Byte := []
  deriving DecidableEq, Repr

/-- A MEM_WR being written (05 R141): its source and class, region, offset and bytes, its number, and the cycles between which its units are
written. -/
structure MemWrite where
  src : BitVec 20
  cls : Nat
  region : Nat
  off : Nat
  data : List Byte
  id : Nat
  from_ : Nat
  doneAt : Nat
  deriving DecidableEq, Repr

/-- An open region (05 R136). -/
structure Region where
  words : List W64
  /-- Vault: current version, previous version held, distinct ranks that released the previous and the current. -/
  current : W16 := 0
  prevHeld : Bool := false
  prevAt : Nat := 0
  relPrev : List Nat := []
  relCur : List Nat := []
  split : Bool := false
  degraded : Bool := false
  chunks : List VChunk := []
  /-- Parameter block for CURRENT + 1, its tries and the cycle of the last (05 R153). -/
  param : Option (List Byte) := none
  paramTries : Nat := 0
  /-- Host address last read for it (05 R153). -/
  paramFrom : Nat := 0
  paramAt : Nat := 0
  /-- The last 16 epoch records, oldest first (05 R154). -/
  records : List (List Byte) := []
  /-- Parked reads, oldest first: the request frame and the port it came by (05 R156). -/
  parked : List (Frame × Nat) := []
  /-- Transfers into or out of the region in progress, and gathers (05 R137, R157). -/
  transfers : Nat := 0
  gathers : Nat := 0
  /-- Pages retired, as stack * 2^24 + page of the region (05 R145). -/
  retired : List Nat := []
  /-- The version that becomes current in the next cycle (05 R152). -/
  next : Option W16 := none
  /-- REGION_OPEN still waits for a stack in training (05 R137). -/
  waiting : Option Accept := none
  deriving DecidableEq, Repr

/-- One HBM stack (05 R132, R133, R143). -/
structure Stack where
  trained : Bool := false
  failed : Bool := false
  training : Bool := false
  /-- Refreshes postponed, or below 0 pulled in, and the cycle up to which intervals are counted. -/
  owed : Int := 0
  refreshAt : Nat := 0
  hot : Bool := false
  deriving DecidableEq, Repr

/-- What a memory request of the X7 is for (05 R135). -/
inductive MemFor where
  | xfer (id : Nat)
  | fuse (till chunk : Nat)
  deriving DecidableEq, Repr

/-- A memory request awaiting its MEM_RSP. -/
structure MemReq where
  frame : Frame
  sentAt : Nat
  again : Bool
  for_ : MemFor
  /-- Place of its data in the transfer, in bytes. -/
  place : Nat
  deriving DecidableEq, Repr

/-- A command moving data through remote memory or host writes: the command, its host address, the requests and the
host writes it waits for, and the worst status met. -/
structure Xfer where
  by_ : Accept
  hostAddr : Nat
  /-- A region-to-host copy writes what it reads; others only wait. -/
  toHost : Bool
  left : Nat
  status : Nat
  data : List Byte
  /-- A PROG_RUN whose input comes from fabric memory of another X7, or whose output goes there: its tile, and then what its pass
  counted and latched. -/
  run : Option (Nat × RunReq) := none
  result : Option (Nat × Nat × List W32) := none
  deriving DecidableEq, Repr

/-- Fabric memory of this X7. -/
structure Hbm where
  stackOf : List Stack := [{}, {}, {}, {}]
  /-- Plain-region bytes, keyed REGION * 2^39 + OFFSET; an unlisted byte reads 0. -/
  mem : Sparse Byte := []
  regions : Sparse Region := []
  /-- MEM_WR frames being written, in order of reception (05 R141). -/
  writing : List MemWrite := []
  /-- Engine context whose streams the controllers of each die served last (04 R119). -/
  served : List Nat := [0, 0]
  reqs : Sparse MemReq := []
  xfers : Sparse Xfer := []
  deriving DecidableEq, Repr

/-- A staged block of a relay: sender index, round and the frames held. -/
structure RBlock where
  sender : Nat
  round : W16
  frames : List Frame
  units : Nat
  deriving DecidableEq, Repr

/-- One receiver of a relay (05 R161, R162). -/
structure RRecv where
  /-- The round of its next block; EPOCH carries it, modulo 65,536 (05 R160). -/
  round : W16 := 0
  dist : Nat := 1
  /-- Units of the block copied. -/
  done : Nat := 0
  /-- Units copied in the current tick. -/
  paced : Nat := 0
  paceTick : BitVec 48 := 0
  /-- Cycle at which the previous block in order left, or was skipped. -/
  lastAt : Option Nat := none
  deriving DecidableEq, Repr

/-- A KV relay (05 R160). -/
structure Relay where
  job : Nat
  cls : Nat
  units : Nat
  pace : Nat
  depth : Nat
  stageMax : Nat
  rtimeout : Nat
  /-- Members in ring order: rank and endpoint. -/
  members : List (Nat × Nat)
  recv : List RRecv
  staged : List RBlock := []
  /-- Staging buffers held; on XN7-N, where they are cells, the slice of each. -/
  held : List Nat := []
  /-- Ports whose credit is withheld, and since when (05 R162). -/
  withheld : List Nat := []
  withheldAt : Nat := 0
  deriving DecidableEq, Repr

/-! ### The whole -/

/-- A consumed frame waiting for its block (09 R260): the frame, its port (512 for one of the X7's own) and arrival
cycle. -/
structure Intake where
  frame : Frame
  port : Nat
  arrival : Nat
  deriving DecidableEq, Repr

/-- A 32-byte unit that does not read as it was written (05 R133, R144): its stack, its region, its space there (0 the bytes of a plain region,
1 and 2 the banks of a vault's published copy, 3 + k its chunk slots of operand k), and its place, in units or, in a chunk slot, as the
chunk; `twice` says that the re-read fails as well. `flips` are the bits that read wrong, the code's above those of the `data` written;
`from_` is the physical address of the unit that is read in its place, if another one is. -/
structure UnitFault where
  stack : Nat
  region : Nat
  space : Nat
  place : Nat
  twice : Bool
  data : BitVec 256 := 0
  flips : BitVec 288 := 1
  from_ : Option Nat := none
  deriving DecidableEq, Repr

/-- One copy of an entry of a commit-set table that fails its detection code (12 R335): table, entry, copy 0 or 1, and the die it is on. -/
structure EntryFault where
  tid : Nat
  idx : Nat
  copy : Nat
  die : Nat
  /-- It fails again once rewritten. -/
  hard : Bool
  /-- Cycle of the lookup that found it. -/
  found : Option Nat := none
  /-- No longer used (12 Table 12.2). -/
  unused : Bool := false
  deriving DecidableEq, Repr

/-- A cell of a buffered frame that fails its detection check when read (12 R336): the frame's number and the cell within its slice. -/
structure CellFault where
  fid : Nat
  cell : Nat
  /-- The two patterns do not read back. -/
  hard : Bool
  /-- A read has found it. -/
  read : Bool := false
  deriving DecidableEq, Repr

/-- Who sends bytes over the die-to-die bridge (01 R13, R14). -/
inductive CrossOf where
  /-- Copies of a received frame, by its number. -/
  | copy (fid : Nat)
  /-- A contribution bound for a tile, by its port and arrival. -/
  | input (port arrival : Nat)
  /-- A frame of the X7's own that a tile has made, by its number. -/
  | result (fid : Nat)
  /-- The fabric-memory streams of the pass of an engine context. -/
  | operand (ctx : Nat)
  /-- The fused operand that the tile of a chunk reads from fabric memory. -/
  | fused (till chunk : Nat)
  /-- Bytes that a command copies from fabric memory to the host, by the number of the host write: the first unit from the other die, as
  region, space and place. -/
  | toHost (id region space place : Nat)
  /-- Bytes that a command copies from the host to fabric memory, by a number of its own. -/
  | fromHost (id : Nat)
  deriving DecidableEq, Repr

/-- Bytes on their way over the bridge to a die. -/
structure Crossing where
  what : CrossOf
  die : Nat
  cls : Nat
  /-- Port group of the lanes they come from, or 16 for a tile. -/
  source : Nat
  /-- Bytes that come in an FCLK cycle, and bytes still to cross. -/
  rate : Nat
  left : Nat
  /-- Cycle from which they come. -/
  start : Nat
  deriving DecidableEq, Repr

/-- The die-to-die bridge (01 R13, R14). -/
structure Bridge where
  crossings : List Crossing := []
  /-- Source served last, by die * 8 + class. -/
  last : List Nat := List.replicate 16 16
  /-- Who got less than came in this cycle, with the die. -/
  short : List (CrossOf × Nat) := []
  /-- Die and cycle of the latest flits that could not be corrected (12 R337). -/
  uncorr : List (Nat × Nat) := []
  /-- MODEL. Frames below this number, and these contributions, are taken into account. -/
  upTo : Nat := 0
  inputs : List (Nat × Nat) := []
  deriving DecidableEq, Repr

/-- MODEL. Physical failures that stand in the machine: no command of the table brings one about, and the machine reacts to those that
stand (assumption log 52). -/
structure Faults where
  /-- Fused slices, by till and chunk, of which a scratchpad line fails its read, and whether it fails the re-read (12 Table 12.2). -/
  slices : List (Nat × Nat × Bool) := []
  /-- Tiles whose running window has a scratchpad line that fails its read and passes the re-read. -/
  lines : List Nat := []
  /-- Tiles of which a program store word fails its read, and whether it fails the re-read. -/
  progs : List (Nat × Bool) := []
  /-- Units of fabric memory that fail their check. -/
  units : List UnitFault := []
  entries : List EntryFault := []
  cells : List CellFault := []
  /-- Crossings of which the next flit to arrive cannot be corrected (12 R337). -/
  flits : List CrossOf := []
  /-- Free units whose state bit reads 1, and granted units whose state bit reads 0, as pool and unit index: a cell is its slice times the
  cells of a slice plus its place there, a slab unit of pool 1 its cluster times 4,096 plus its address (10 R311). -/
  stuck : List (Nat × Nat) := []
  lost : List (Nat × Nat) := []
  /-- The image in steward memory no longer has the digest of measurement 2 (15 R414). -/
  image : Bool := false
  deriving DecidableEq, Repr

/-- The X7. -/
structure State where
  /-- FCLK cycle (07 R191). -/
  now : Nat := 0
  boot : Boot := {}
  tick : Tick := {}
  tables : Tables := {}
  host : HostIf := {}
  stats : Sparse Stat := []
  refused : W32 := 0
  ports : Sparse Port := []
  lanes : Sparse Lane := []
  frames : Sparse Held := []
  /-- Originated copies that wait for cells, with their output ports, oldest first (10 R309). -/
  stalled : List (Nat × Entry) := []
  reorder : List Reorder := []
  doneMsgs : Sparse DoneMsgs := []
  /-- Words of the port-group, cluster, stack and core records of 12 Table 12.6, keyed by SOURCE * 8 + word. -/
  blockCounts : Sparse Nat := []
  shapers : Sparse Tokens := []
  meters : Sparse MeterTokens := []
  pools : Pools := {}
  tandem : Tandem := {}
  /-- Buffered frames, by number, of which a copy was flushed or discarded in this cycle: their cells are freed in the next (10 R288). -/
  dropping : List Nat := []
  intake : List Intake := []
  /-- Frames whose parse and lookup stage comes in or after the cycle of an armed set: port, frame and arrival (07 R222). -/
  parsing : List (Nat × Frame × Nat) := []
  tills : Sparse Till := []
  tallies : Sparse Tally := []
  progs : Sparse Prog := []
  /-- Engine contexts, keyed tile * 2 + (1 for the tick context). -/
  ctxs : Sparse Ctx := []
  tiles : Tiles := {}
  hbm : Hbm := {}
  faults : Faults := {}
  bridge : Bridge := {}
  relays : Sparse Relay := []
  /-- Toss-counter parts, keyed job * 4 + part (11 R322). -/
  toss : Sparse Nat := []
  /-- Job freewheel counters, keyed job * 8 + counter (06 R189). -/
  jobFree : Sparse Nat := []
  ledger : Ledger := {}
  spdm : Spdm := {}
  /-- DOE response of the last discovery (13 Table 13.1). -/
  doe : W32 := 0
  /-- MODEL. Number of the next frame, read, write, transfer or free value. -/
  fresh : Nat := 0
  /-- The commands waiting, first in first out. -/
  pending : List Instr := []
  deriving DecidableEq, Repr

/-- The machine right after reset: cold reset asserted, every register at its Reset column (14 R397), nothing listed. -/
def State.reset : State := {}

end Sys2Proof.Machine
end

