-- ==== Sys2Proof/Machine/Ops.lean ====
section
/-! DEFINITION. The named operations over the state: sparse maps, time, status and events, the ledger queue, host writes,
completions and the acceptance of ring commands. -/

namespace Sys2Proof.Machine

/-- What a meaning answers. -/
abbrev Res := Host.Outcome State Fault Refusal

/-! ### Sparse maps -/

/-- The value at a key, the default when it is not listed. -/
def sget {α : Type} (d : α) : Sparse α → Nat → α
  | [], _ => d
  | (a, v) :: r, k => if a = k then v else sget d r k

/-- The map with a value written: keys stay rising, and a default is never listed. -/
def sput {α : Type} [DecidableEq α] (d : α) : Sparse α → Nat → α → Sparse α
  | [], k, v => if v = d then [] else [(k, v)]
  | (a, w) :: r, k, v =>
    if k < a then (if v = d then (a, w) :: r else (k, v) :: (a, w) :: r)
    else if k = a then (if v = d then r else (k, v) :: r)
    else (a, w) :: sput d r k v

/-- The object at a key, if there is one. -/
def ofind {α : Type} (m : Sparse α) (k : Nat) : Option α := (m.find? fun e => e.1 == k).map (·.2)

/-- The map with an object placed at a key. -/
def oins {α : Type} : Sparse α → Nat → α → Sparse α
  | [], k, v => [(k, v)]
  | (a, w) :: r, k, v =>
    if k < a then (k, v) :: (a, w) :: r
    else if k = a then (k, v) :: r
    else (a, w) :: oins r k v

/-- The map with the object at a key removed. -/
def odel {α : Type} (m : Sparse α) (k : Nat) : Sparse α := m.filter fun e => e.1 != k

/-- Keys rise strictly. -/
def rising {α : Type} : Sparse α → Bool
  | [] => true
  | [_] => true
  | (a, _) :: (b, w) :: r => decide (a < b) && rising ((b, w) :: r)

/-- No entry holds the default. -/
def noDefault {α : Type} [DecidableEq α] (d : α) (m : Sparse α) : Bool := m.all fun e => decide (e.2 ≠ d)

/-- A sparse map with the entries that hold the default taken out. -/
def canonMap {α : Type} [DecidableEq α] (d : α) (m : Sparse α) : Sparse α := m.filter fun e => decide (e.2 ≠ d)

/-- The canonical form of a sparse map. -/
def canon {α : Type} [DecidableEq α] (d : α) (m : Sparse α) : Bool := rising m && noDefault d m

/-- Fabric memory keeps its canonical form; an unlisted byte reads 0 (05 Table 5.3, INIT_ADDR). -/
abbrev Memory.wf (m : Sparse Byte) : Bool := canon 0 m

/-- n bytes of fabric memory from address a. -/
def memRead (m : Sparse Byte) (a n : Nat) : List Byte := (List.range n).map fun i => sget 0 m (a + i)

/-- Fabric memory with bytes written from address a. -/
def memWrite (m : Sparse Byte) : Nat → List Byte → Sparse Byte
  | _, [] => m
  | a, b :: r => memWrite (sput 0 m a b) (a + 1) r

/-- A sparse count increased, stopping at a limit. -/
def sbump (limit : Nat) (m : Sparse Nat) (k n : Nat) : Sparse Nat := sput 0 m k (satAdd limit (sget 0 m k) n)

/-- A sparse count decreased. -/
def sdrop (m : Sparse Nat) (k n : Nat) : Sparse Nat := sput 0 m k (sget 0 m k - n)

/-! ### Time (07 R191, R202) -/

/-- Active TICK_LEN. -/
def tickLen (s : State) : Nat := s.tick.len.toNat

/-- FCLK offset within the tick; 0 while no tick runs. -/
def curOfs (s : State) : Nat := if s.tick.running && tickLen s != 0 then ((s.now : Int) - s.tick.start).toNat else 0

/-- The tick and the offset in it of the present cycle: in the first cycle of a tick those of the tick that it begins, before TICK_BEGIN has
run too (07 R191, R204). -/
def cycleStamp (s : State) : BitVec 48 × Nat :=
  if s.tick.running && tickLen s != 0 && decide (tickLen s ≤ curOfs s) then (s.tick.num + 1, curOfs s - tickLen s)
  else (s.tick.num, curOfs s)

/-- Ticks run. -/
def ticksOn (s : State) : Bool := tickLen s != 0 && s.tick.running

/-- First FCLK cycle of a tick to come; the present one's for a tick that has begun. -/
def startOf (s : State) (t : BitVec 48) : Nat := (s.tick.start + (t - s.tick.num).toNat * tickLen s).toNat

/-- The low 16 bits of the tick number. -/
def tick16 (s : State) : W16 := s.tick.num.setWidth 16

/-- The first ACLK cycle at or after an FCLK cycle (07 R191). -/
def aclkAt (c : Nat) : Nat := c + c % 2

/-- The drain cycle D of a command accepted at c, and D + 4 ACLK cycles (03 R92), in FCLK cycles. -/
def drainAt (c : Nat) : Nat := aclkAt (c + 24)
def actionAt (c : Nat) : Nat := drainAt c + 8

/-! ### Access to parts -/

def portAt (s : State) (p : Nat) : Port := sget {} s.ports p
def setPort (s : State) (p : Nat) (v : Port) : State := { s with ports := sput {} s.ports p v }
def modPort (s : State) (p : Nat) (f : Port → Port) : State := setPort s p (f (portAt s p))
def laneAt (s : State) (l : Nat) : Lane := sget {} s.lanes l
def setLane (s : State) (l : Nat) (v : Lane) : State := { s with lanes := sput {} s.lanes l v }
def statAt (s : State) (src : Nat) : Stat := sget {} s.stats src
def setStat (s : State) (src : Nat) (v : Stat) : State := { s with stats := sput {} s.stats src v }
def cmdRing (s : State) (n : Nat) : CmdRing := sget {} s.host.cmd n
def setCmdRing (s : State) (n : Nat) (r : CmdRing) : State :=
  { s with host := { s.host with cmd := sput {} s.host.cmd n r } }
/-- The ring from which a command is taken is the one last served (13 R371). -/
def serveRing (s : State) (n : Nat) (r : CmdRing) : State :=
  { s with host := { s.host with cmd := sput {} s.host.cmd n r, served := n, servedAt := some s.now } }
def cplRing (s : State) (m : Nat) : OutRing := sget {} s.host.cpl m
def setCplRing (s : State) (m : Nat) (r : OutRing) : State :=
  { s with host := { s.host with cpl := sput {} s.host.cpl m r } }
def evRing (s : State) (e : Nat) : OutRing := sget {} s.host.ev e
def setEvRing (s : State) (e : Nat) (r : OutRing) : State :=
  { s with host := { s.host with ev := sput {} s.host.ev e r } }
def watchAt (s : State) (k : Nat) : Watch := sget {} s.host.watch k
def setWatch (s : State) (k : Nat) (w : Watch) : State :=
  { s with host := { s.host with watch := sput {} s.host.watch k w } }
def tillAt (s : State) (t : Nat) : Option Till := ofind s.tills t
def setTill (s : State) (t : Nat) (v : Till) : State := { s with tills := oins s.tills t v }
def tallyAt (s : State) (t : Nat) : Option Tally := ofind s.tallies t
def setTally (s : State) (t : Nat) (v : Tally) : State := { s with tallies := oins s.tallies t v }
def regionAt (s : State) (r : Nat) : Option Region := ofind s.hbm.regions r
def setRegion (s : State) (r : Nat) (v : Region) : State :=
  { s with hbm := { s.hbm with regions := oins s.hbm.regions r v } }
def ctxAt (s : State) (k : Nat) : Ctx := sget {} s.ctxs k
def setCtx (s : State) (k : Nat) (c : Ctx) : State := { s with ctxs := sput {} s.ctxs k c }
def setRelay (s : State) (g : Nat) (r : Relay) : State := { s with relays := oins s.relays g r }

/-- The next free number, and the state after taking it. -/
def takeFresh (s : State) : Nat × State := (s.fresh, { s with fresh := s.fresh + 1 })

/-- The own endpoint identifier, once the wiring plan gives it (14 R399). -/
def ownEndpoint (s : State) : Option (BitVec 20) :=
  if bit s.boot.capEndpoint.toNat 31 then some (s.boot.capEndpoint.setWidth 20) else none

/-- Grade: 1 XN7-F, 2 XN7-S, 3 XN7-N (01 R24). -/
def grade (s : State) : Nat := s.boot.fuses.grade

/-- CAP_UNITS (01 R24). -/
def capUnits (s : State) : W32 :=
  if grade s = 1 then 0x10FFFFFE else if grade s = 2 then 0x20FFFF3E else if grade s = 3 then 0x3000FF00
  else BitVec.ofNat 32 (grade s % 16 * 2 ^ 28)

def isN (s : State) : Bool := grade s == 3
def hasVault (s : State) : Bool := bit (capUnits s).toNat 3
def hasTandem (s : State) : Bool := bit (capUnits s).toNat 2
def hasEast (s : State) : Bool := bit (capUnits s).toNat 1
/-- Stack s is fitted. -/
def hasStack (s : State) (k : Nat) : Bool := bit (capUnits s).toNat (4 + k)
/-- Port group present. -/
def hasPg (s : State) (pg : Nat) : Bool := bit (capUnits s).toNat (8 + pg)
/-- LOGICAL_TILES (01 R25). -/
def logicalTiles (s : State) : Nat := if isN s then 2048 else 4096
/-- CAP_TILES (01 Table 1.9). -/
def capTiles (s : State) : W32 :=
  BitVec.ofNat 32
    ((if hasEast s then s.boot.fuses.sparedEast % 128 else 0) * 2 ^ 23 + s.boot.fuses.sparedWest % 128 * 2 ^ 16 +
      logicalTiles s)

/-- Port group of a lane, and die of a lane: 0 west, 1 east (01 Table 1.2). -/
def pgOf (lane : Nat) : Nat := lane / 32
def dieOf (lane : Nat) : Nat := lane / 256

/-! ### Tiles (01 R25, 12 R338) -/

/-- Physical tiles of a cluster that are not fused off, as cluster * 66 + place. -/
def enabledTiles (s : State) (cluster : Nat) : List Nat :=
  ((List.range 66).filter fun k => !s.boot.fuses.disabled.contains (cluster, k)).map fun k => cluster * 66 + k

/-- The physical tile behind a logical tile: it moved there, or it is the one of its place among those not fused off. -/
def physOf (s : State) (tile : Nat) : Nat :=
  (ofind s.tiles.moved tile).getD (nth (enabledTiles s (tile / 64)) (tile % 64))

/-- The logical tile is unavailable or its physical tile is fenced. -/
def tileDown (s : State) (tile : Nat) : Bool :=
  s.tiles.unavailable.contains tile || s.tiles.fenced.contains (physOf s tile)

/-! ### Host writes (13 R358, R384) -/

/-- A write of host memory issued: its number and the state. -/
def hostWrite (s : State) (addr : Nat) (data : List Byte) (kind : WriteKind) : Nat × State :=
  let (id, s) := takeFresh s
  (id, { s with host := { s.host with writes := oins s.host.writes id { addr := addr, data := data, kind := kind } } })

/-- An MSI-X vector raised (13 R390, 12 R341). -/
def raiseVector (s : State) (v : Nat) : State :=
  let held := (sget {} s.host.msixTable v).masked
  { s with host := { s.host with
      msix := if held then s.host.msix else s.host.msix ++ [v],
      pba := if held then s.host.pba ||| BitVec.ofNat 64 (2 ^ v) else s.host.pba } }

/-! ### Completion and event rings (13 R361-R365, R379, R390) -/

def ringEn (ctl : W32) : Bool := bit ctl.toNat 31
def ringLog (ctl : W32) : Nat := ctl.toNat % 32
def ringSize (ctl : W32) : Nat := 2 ^ ringLog ctl

/-- An enabled watch entry of this kind names the ring (13 R364). -/
def watched (s : State) (kind ring : Nat) : Bool :=
  s.host.watch.any fun e => bit e.2.ctl.toNat 31 && bits e.2.ctl.toNat 30 29 == kind && bits e.2.ctl.toNat 28 23 == ring

/-- PHASE of an entry written at an index (13 R365). -/
def phaseOf (wi : W32) (log : Nat) : Bool := !bit wi.toNat log

/-- A PAD entry goes first: two entries would start at the last slot (13 R379). -/
def needsPad (r : OutRing) (n : Nat) : Bool := n == 2 && r.wi.toNat % ringSize r.ctl == ringSize r.ctl - 1

/-- The ring has room for n entries, and the PAD they may need (13 R385). -/
def ringRoom (s : State) (kind ring : Nat) (r : OutRing) (n : Nat) : Bool :=
  watched s kind ring && decide ((r.wi - r.ci).toNat + n + b2n (needsPad r n) ≤ ringSize r.ctl)

/-- Q0 with its PHASE bit. -/
def withPhase (q : List W64) (ph : Bool) : List W64 :=
  match q with
  | [] => []
  | q0 :: r => (q0 ||| BitVec.ofNat 64 (b2n ph * 2 ^ 47)) :: r

/-- One entry written at the ring's write index. -/
def putEntry (s : State) (kind : WriteKind) (r : OutRing) (words : List W64) : OutRing × State :=
  let ph := phaseOf r.wi (ringLog r.ctl)
  let addr := r.base.toNat / 4096 * 4096 + 32 * (r.wi.toNat % ringSize r.ctl)
  let (_, s) := hostWrite s addr (bytesOf (withPhase words ph)) kind
  ({ r with wi := r.wi + 1, since := r.since + 1, firstAt := some (r.firstAt.getD s.now) }, s)

/-- Entries written one after another. -/
def putEntries (kind : WriteKind) : State → OutRing → List (List W64) → OutRing × State
  | s, r, [] => (r, s)
  | s, r, e :: es =>
    let (r, s) := putEntry s kind r e
    putEntries kind s r es

/-- The numbers of a ring's entry writes still without GO. -/
def entryWrites (s : State) (kind : WriteKind) : List Nat :=
  (s.host.writes.filter fun e => decide (e.2.kind = kind)).map (·.1)

/-- The ring raises its vector: at once, or after GO of the entries it announces (13 R390). -/
def fireRing (s : State) (kind : WriteKind) (r : OutRing) : OutRing × State :=
  let v := bits r.ctl.toNat 30 25
  let waits := entryWrites s kind
  let s := if waits.isEmpty then raiseVector s v
           else { s with host := { s.host with irqs := s.host.irqs ++ [{ vector := v, waits := waits }] } }
  ({ r with since := 0, firstAt := none }, s)

/-- The interrupt after entries are written: COAL_COUNT reached (13 R390). -/
def ringIrq (s : State) (kind : WriteKind) (r : OutRing) : OutRing × State :=
  if bit r.ctl.toNat 24 && decide (r.since ≥ max 1 (bits r.ctl.toNat 23 16)) then fireRing s kind r else (r, s)

/-- Entries written with the PAD they need, and the interrupt. -/
def ringPut (s : State) (kind : WriteKind) (r : OutRing) (es : List (List W64)) : OutRing × State :=
  let es := if needsPad r es.length then [[0, 0, 0, 0]] ++ es else es
  let (r, s) := putEntries kind s r es
  ringIrq s kind r

/-! ### Events (13 R387-R389) -/

/-- Word Q0 of an event record, PHASE apart (13 Table 13.17). -/
def eventQ0 (src code job unit : Nat) (more : Bool) : W64 :=
  BitVec.ofNat 64 (src % 256 * 2 ^ 56 + code % 256 * 2 ^ 48 + b2n more * 2 ^ 46 + job % 256 * 2 ^ 32 + unit % 2 ^ 32)

/-- The records of one event: one, or two when it has details 2 to 4 (13 R387). -/
def eventRecords (s : State) (lost src code job unit d0 d1 : Nat) (more : Option (Nat × Nat × Nat)) :
    List (List W64) :=
  let r := [eventQ0 src code job unit more.isSome, BitVec.ofNat 64 (min lost 0xFFFF * 2 ^ 48 + (cycleStamp s).1.toNat),
    BitVec.ofNat 64 (d0 % 2 ^ 32 * 2 ^ 32 + (cycleStamp s).2), BitVec.ofNat 64 d1]
  match more with
  | none => [r]
  | some (a, b, c) =>
    [r, [eventQ0 src code job unit false, BitVec.ofNat 64 a, BitVec.ofNat 64 b, BitVec.ofNat 64 c]]

/-- Posts an event, and says whether a full ring dropped it (13 R389). -/
def postEventRaw (s : State) (src code job unit d0 d1 : Nat) (more : Option (Nat × Nat × Nat)) : State × Bool :=
  let e := bits s.host.evroute.toNat (2 * eventClass src + 1) (2 * eventClass src)
  let r := evRing s e
  if !ringEn r.ctl then (s, false)
  else
    let es := eventRecords s r.lost src code job unit d0 d1 more
    if ringRoom s 2 e r es.length then
      let (r, s) := ringPut s (.event e) { r with lost := 0 } es
      (setEvRing s e r, false)
    else (setEvRing s e { r with lost := satAdd 0xFFFF r.lost 1 }, true)

/-- Sets a cause bit, with FIRST and UNIT, and raises the block's vector (12 R341, Table 12.4). Of several in the first cycle, FIRST and UNIT
take the lowest. -/
def setBit (s : State) (src b unit : Nat) : State :=
  let t := statAt s src
  let mine : W32 := BitVec.ofNat 32 (b % 32 * 2 ^ 27 + unit % 2 ^ 27)
  let first := decide (t.status = 0) || (decide (t.firstAt = s.now) && decide (mine < t.info))
  let info := if first then mine else t.info
  let new := t.status ||| BitVec.ofNat 32 (2 ^ b)
  let fire := (t.status &&& t.enable).toNat % 2 ^ 26 == 0 && (new &&& t.enable).toNat % 2 ^ 26 != 0
  let s := setStat s src { t with status := new, info := info, firstAt := if t.status = 0 then s.now else t.firstAt }
  if fire then raiseVector s (bits t.enable.toNat 31 26) else s

/-- HOST bits. -/
def hbLinkDown : Nat := 0
def hbDmaRead : Nat := 1
def hbDmaWrite : Nat := 2
def hbOverflow : Nat := 3
def hbParam : Nat := 4

/-- RING_OVERFLOW of ring e: its bit, and its own event, which a full ring drops in turn (13 R389, R385). -/
def ringOverflow (s : State) (ring : Nat) : State :=
  (postEventRaw (setBit s srcHost hbOverflow ring) srcHost hbOverflow 0 ring 0 0 none).1

/-- Posts an event (13 R387-R389). -/
def postEvent (s : State) (src code job unit d0 d1 : Nat) (more : Option (Nat × Nat × Nat) := none) : State :=
  let (s', full) := postEventRaw s src code job unit d0 d1 more
  if full then ringOverflow s' (bits s.host.evroute.toNat (2 * eventClass src + 1) (2 * eventClass src)) else s'

/-- A cause is detected: its bit and its event (12 R341). -/
def setCause (s : State) (src b unit : Nat) (job d0 d1 : Nat := 0) (more : Option (Nat × Nat × Nat) := none) : State :=
  postEvent (setBit s src b unit) src b job unit d0 d1 more

/-! ### Counters (12 R343) -/

/-- Adds to a word of a port's counter record. -/
def countPort (s : State) (p word n : Nat) : State :=
  modPort s p fun q => { q with counters := sbump Config.sat32 q.counters word n }

/-- Adds to word w of the record of a block (12 Table 12.6). -/
def countBlock (s : State) (src w : Nat) (n : Nat := 1) : State :=
  { s with blockCounts := sbump Config.sat32 s.blockCounts (src * 8 + w) n }

/-- A frame discarded at a port for a reason: counted, and for Table 9.6 and 0x12 reported in PG[7] (12 R340, R343). -/
def discard (s : State) (p reason : Nat) : State :=
  let s := countPort s p (reason - 1) 1
  if reason ≤ 0x0B || reason = 0x12 then setCause s (srcPg (pgOf p)) 7 (p + reason * 2 ^ 9) else s

/-- Adds to a toss-counter part of a job: 0 EARLY_FWD, 1 EXCISE, 2 RELAY_SKIP, 3 RECLAIM (11 R322). -/
def toss (s : State) (job part : Nat) : State :=
  { s with toss := sbump Config.sat48 s.toss (job * 4 + part) 1 }

/-- Adds to a job freewheel counter (06 Table 6.10): 0 STRAGGLE, 1 TILL_SPAN, 2 ADMIT_WAIT, 3 VERSION_WAIT,
4 RESEND_WAIT, 5 RELAY_WAIT. -/
def jobWait (s : State) (job c n : Nat) : State :=
  { s with jobFree := sbump Config.sat48 s.jobFree (job * 8 + c) n }

/-! ### The ledger's queue (15 R426-R430) -/

/-- Origins (15 Table 15.10). -/
def oHost : Nat := 0
def oReg : Nat := 1
def oSteward : Nat := 2
def oStrap : Nat := 3
def oPeer : Nat := 4
def oDebug : Nat := 5
def oDevice : Nat := 6

/-- Places left for host ring, host register, steward and debug port (15 R430). -/
def ledgerRoom (s : State) : Bool := decide (s.ledger.queue.length < Config.ledgerQueue - Config.ledgerKept)

/-- The place of an entry among those of its FCLK cycle: commits and abandonments, device entries by SOURCE, straps, register
writes, ring commands, steward, peers by port (15 R428). -/
def cycleOrder (c : Change) : Nat :=
  let o := c.origin.toNat
  if o = oDevice then (if c.kind = 0x12 ∨ c.kind = 0x13 then 0 else 2 ^ 16 + c.originId.toNat)
  else if o = oStrap then 2 * 2 ^ 16
  else if o = oReg then 3 * 2 ^ 16
  else if o = oDebug then 4 * 2 ^ 16
  else if o = oHost then 5 * 2 ^ 16
  else if o = oSteward then 6 * 2 ^ 16
  else 7 * 2 ^ 16 + c.originId.toNat

/-- An entry goes behind those of its cycle that come before it or tie with it. -/
def insertChange (c : Change) : List Change → List Change
  | [] => [c]
  | x :: l => if cycleOrder c < cycleOrder x then c :: x :: l else x :: insertChange c l

/-- Entries at the end of the queue that were recorded in this cycle. -/
def recentOf (s : State) : Nat := if s.ledger.recentAt = s.now then s.ledger.recent else 0

/-- The queue with one more entry. -/
def enqueueChange (s : State) (c : Change) : List Change :=
  let n := s.ledger.queue.length - recentOf s
  s.ledger.queue.take n ++ insertChange c (s.ledger.queue.drop n)

/-- A change enters the chain engine's queue. Before FCLK cycle 128 its TICK and OFS read 0 (15 Table 15.10). -/
def record (s : State) (origin id kind : Nat) (raw : Bool) (target : Nat) (old new : List Byte) : State :=
  let early := s.boot.phase != .run || decide (s.now < 128)
  let c : Change :=
    { tick := if early then 0 else (cycleStamp s).1, ofs := if early then 0 else BitVec.ofNat 32 (cycleStamp s).2,
      origin := BitVec.ofNat 8 origin, originId := BitVec.ofNat 16 id, kind := BitVec.ofNat 8 kind, raw := raw,
      target := BitVec.ofNat 64 target, old := padTo 16 old, new := padTo 16 new }
  let n := if s.boot.phase != .run then 0 else recentOf s + 1
  { s with ledger := { s.ledger with queue := enqueueChange s c, recentAt := s.now, recent := n } }

/-- A change whose OLD and NEW are numbers (RAW = 1). -/
def recordRaw (s : State) (origin id kind target old new : Nat) : State :=
  record s origin id kind true target (leBytes 16 old) (leBytes 16 new)

/-- The 64 bytes of an entry (15 Table 15.10). -/
def entryBytes (seq : Nat) (c : Change) : List Byte :=
  leBytes 8 seq ++ leBytes 6 c.tick.toNat ++ leBytes 4 c.ofs.toNat ++ [c.origin] ++ leBytes 2 c.originId.toNat ++
    [c.kind, if c.raw then 1 else 0, 0] ++ leBytes 8 c.target.toNat ++ c.old ++ c.new

/-! ### Completions (13 R375, R378-R385) -/

/-- The entry of a command completion (13 Table 13.12). -/
def cmdEntry (a : Accept) (status d0 d1 : Nat) : List W64 :=
  [BitVec.ofNat 64 (0x01 * 2 ^ 56 + status % 256 * 2 ^ 48 + a.ring % 64 * 2 ^ 40 + fld a.d0 63 56 * 2 ^ 32 + tagOf a.d0),
   BitVec.ofNat 64 (a.tick.toNat * 2 ^ 16 + a.obj % 4096),
   BitVec.ofNat 64 (a.ofs % 2 ^ 32 * 2 ^ 32 + d0 % 2 ^ 32),
   BitVec.ofNat 64 d1]

/-- A completion is ready to be posted (COMPLETION_WRITE writes it). -/
def ready (s : State) (c : Cpl) : State := { s with host := { s.host with ready := s.host.ready ++ [c] } }

/-- A command ring has one command fewer under way (13 R371). -/
def finished (s : State) (ring : Nat) : State :=
  let r := cmdRing s ring
  setCmdRing s ring { r with outstanding := r.outstanding - 1 }

/-- The one completion of a command (13 R375): to ring `cring`, or none for QUIET and status OK. It waits for the GO of
the host writes `waits` (R384). -/
def completeTo (s : State) (cring : Nat) (a : Accept) (status : Nat) (d0 d1 : Nat := 0) (waits : List Nat := [])
    (after : List After := []) : State :=
  let quiet := quietOf a.d0 && status == stOk
  if quiet && waits.isEmpty && after.isEmpty then finished s a.ring
  else ready s { cring := cring, entries := [cmdEntry a status d0 d1], waits := waits, after := after,
                 ring := some a.ring, quiet := quiet }

/-- The two entries of a run completion (13 Table 13.14); `obj` of the acceptance holds the slot. -/
def runEntries (a : Accept) (status inv index : Nat) (l : List W32) : List (List W64) :=
  let two (i : Nat) : W64 := l.getD (i + 1) 0 ++ l.getD i 0
  [[BitVec.ofNat 64 (0x05 * 2 ^ 56 + status % 256 * 2 ^ 48 + 2 ^ 46 + a.ring % 64 * 2 ^ 40 + a.obj % 256 * 2 ^ 32 + tagOf a.d0),
    BitVec.ofNat 64 (inv % 2 ^ 32 * 2 ^ 32 + index % 2 ^ 32), two 0, two 2],
   [BitVec.ofNat 64 (0x06 * 2 ^ 56), two 4, two 6, 0]]

/-- The completion of a PROG_RUN (13 R383), after the host writes `waits`. -/
def completeRun (s : State) (a : Accept) (status : Nat) (inv index : Nat := 0) (l : List W32 := []) (waits : List Nat := []) :
    State :=
  let quiet := quietOf a.d0 && status == stOk
  if quiet && waits.isEmpty then finished s a.ring
  else ready s { cring := cringOf a.d0, entries := runEntries a status inv index l, waits := waits, ring := some a.ring,
                 quiet := quiet }

/-- A command that does nothing else completes with a status, in the form of its opcode. -/
def completeAs (s : State) (op cring : Nat) (a : Accept) (status : Nat) : State :=
  if op = 0x22 then completeRun s a status else completeTo s cring a status

/-- A command completes to D0 CRING. -/
def complete (s : State) (a : Accept) (status : Nat) (d0 d1 : Nat := 0) (waits : List Nat := []) : State :=
  completeTo s (cringOf a.d0) a status d0 d1 waits

/-- The event NO_CRING: KIND of the discarded completion, command ring and TAG (13 Table 13.19). -/
def noCring (s : State) (cring kind ring tag : Nat) : State :=
  postEvent s srcHost 0x21 0 cring kind (ring * 2 ^ 32 + tag)

/-! ### Command rings (13 R366-R373) -/

/-- Descriptors fetched ahead, at most 8, below the producer index last read (13 R361, R371). -/
def fetchAhead : Nat → Nat → State → State
  | 0, _, s => s
  | k + 1, n, s =>
    let r := cmdRing s n
    let next := r.ci + BitVec.ofNat 32 r.slots.length
    if !ringEn r.ctl || r.halted || next = r.pi || decide (r.slots.length ≥ Config.fetchAhead) then s
    else
      let (id, s) := takeFresh s
      let s := { s with host := { s.host with reads := oins s.host.reads id (.fetch n next.toNat) } }
      fetchAhead k n (setCmdRing s n { r with slots := r.slots ++ [.reading id] })

/-- The head of a ring is taken: the consumer index advances and is written back (13 R369). -/
def popHead (s : State) (n : Nat) : State :=
  let r := cmdRing s n
  let s := serveRing s n { r with slots := r.slots.drop 1, ci := r.ci + 1, outstanding := r.outstanding + 1 }
  let s := if r.ciAddr.toNat / 8 = 0 then s
           else (hostWrite s (r.ciAddr.toNat / 8 * 8) (leBytes 4 (r.ci + 1).toNat) (.ci n)).2
  fetchAhead Config.fetchAhead n s

/-- The record of an acceptance in this cycle. -/
def acceptNow (s : State) (ring : Nat) (d0 : W64) (obj : Nat) : Accept :=
  { ring := ring, d0 := d0, tick := s.tick.num, ofs := curOfs s, obj := obj }

/-- Failed descriptor fetches at the head complete with HOST_ERROR, OPCODE 0xFF and TAG 0 (13 R391). -/
def settleFailed : Nat → Nat → State → State
  | 0, _, s => s
  | k + 1, n, s =>
    match (cmdRing s n).slots with
    | .failed :: _ =>
      let a := acceptNow s n (BitVec.ofNat 64 (0xFF * 2 ^ 56)) 0
      settleFailed k n (complete (popHead s n) a stHostError)
    | _ => s

/-- A ring has a command ready: at its head stands one whose FENCE holds (13 R371), which waits neither for a place in the ledger's queue (15
R430) nor, STAGE or LINK_UP, for the steward (01 R21). -/
def readyRing (s : State) (r : CmdRing) : Bool :=
  ringEn r.ctl && match r.slots with
    | .got d :: _ => (!fenceOf d || r.outstanding == 0) && !(ledgered (opcodeOf d) && !ledgerRoom s) &&
        (s.boot.steward || !(opcodeOf d == 0x38 || opcodeOf d == 0x41))
    | _ => false

/-- Rings with a command ready are served in round-robin order of ring number, and within one cycle in ascending order (13 R371). -/
def ringTurn (s : State) (n : Nat) : Bool :=
  let ahead (m : Nat) : Nat := (m + 63 - s.host.served) % 64
  (s.host.cmd.all fun e => !readyRing s e.2 || decide (ahead n ≤ ahead e.1)) &&
    (s.host.servedAt != some s.now || decide (s.host.served ≤ n))

/-- The command at the head of an enabled ring is this descriptor, its FENCE holds, and it is the ring's turn (13 R371). -/
def atHead (s : State) (n : Nat) (d : Desc) : Bool :=
  let r := cmdRing s n
  ringEn r.ctl && decide (r.slots.head? = some (.got d)) && (!fenceOf d || r.outstanding == 0) && ringTurn s n

/-- Host addresses that a command reads as it executes (13 Table 13.9): descriptors, tables, images and data. -/
def hostSources (d : Desc) : List Nat :=
  let a : List W64 := match opcodeOf d with
    | 0x10 => [d.d1]
    | 0x14 => if bit d.d1.toNat 12 then [d.d2] else []
    | 0x18 => [d.d1]
    | 0x20 => [d.d2]
    | 0x22 => d.d3 :: if bit d.d1.toNat 33 then [] else [d.d4]
    | 0x28 => [d.d1]
    | 0x2A => if bit d.d1.toNat 0 then [] else [d.d2]
    | 0x30 => [d.d4]
    | 0x38 => [d.d2]
    | _ => []
  a.map (·.toNat)

/-- They are read with RdCurr (13 R358). -/
def noteReads (s : State) (d : Desc) : State := { s with host := { s.host with rdCurr := s.host.rdCurr ++ hostSources d } }

/-- RESTRICT = 1 and the object or descriptor is of another job (13 R373). -/
def restricted (r : CmdRing) (job : Option Nat) : Bool :=
  bit r.ctl.toNat 29 && match job with
    | none => false
    | some j => j != bits r.ctl.toNat 28 21

/-- Acceptance of a ring command (13 R371-R375, 15 R430). `job`: the job of the object named or of the descriptor read.
`cring`: the ring of its completion. -/
def accept (s : State) (ring : BitVec 6) (d : Desc) (op : Nat) (job : Option Nat) (obj cring : Nat)
    (body : Accept → State → State) : State :=
  let n := ring.toNat
  if !atHead s n d || opcodeOf d != op || (ledgered op && !ledgerRoom s) then s
  else
    let a := acceptNow s n d.d0 obj
    let r := cmdRing s n
    let s := popHead s n
    let s :=
      if !ringEn (cplRing s cring).ctl then finished (noCring s cring (if op = 0x22 then 0x05 else 0x01) n (tagOf d.d0)) n
      else if !descOk d || (privileged op && !bit r.ctl.toNat 30) || restricted r job then
        completeAs s op cring a stRefused
      else body a (noteReads s d)
    settleFailed Config.fetchAhead n s

end Sys2Proof.Machine
end

