-- ==== Sys2Proof/Machine/Tables.lean ====
section
/-! DEFINITION. The commit-set tables: their sizes, entry layouts and reset values (13 R377; 07, 09, 10, 11, 12), and the
readings of their active banks. -/

namespace Sys2Proof.Machine

/-- Words of an entry, entries, and changed entries the shadow holds, of each table (09 Table 9.17, 10 Table 10.11,
11 R324, 12 R344, 13 R377). -/
def tableInfo (tid : Nat) : Option (Nat × Nat × Nat) :=
  match tid with
  | 0x01 => some (1, 1, 1)
  | 0x02 => some (4, 4, 4)
  | 0x10 => some (1, 256, 256)
  | 0x11 => some (1, 262144, 16384)
  | 0x12 => some (1, 4096, 4096)
  | 0x13 => some (1, 8192, 8192)
  | 0x14 => some (33, 1024, 1024)
  | 0x15 => some (9, 65536, 4096)
  | 0x16 => some (1, 8, 8)
  | 0x17 => some (2, 16, 16)
  | 0x20 => some (1, 512, 512)
  | 0x21 => some (1, 1024, 1024)
  | 0x22 => some (1, 4096, 4096)
  | 0x23 => some (2, 1024, 1024)
  | 0x24 => some (1, 2048, 2048)
  | 0x25 => some (1, 6144, 6144)
  | 0x26 => some (1, 512, 512)
  | 0x27 => some (33, 512, 512)
  | 0x28 => some (4, 512, 512)
  | 0x30 => some (1, 1, 1)
  | 0x31 => some (1, 64, 64)
  | 0x38 => some (34, 512, 512)
  | 0x39 => some (8, 256, 256)
  | _ => none

/-- The reset value of an entry: 0, but for the output scheduler (quanta 0x01), the shapers (RATE 0x0100_0000), the quotas
(LIMIT 0xFF_FFFF) and the link credit (0x04 each). -/
def entryReset (tid : Nat) : List W64 :=
  match tid with
  | 0x20 => [0x0000010101010101]
  | 0x21 => [0x01000000]
  | 0x25 => [0x0000FFFFFF000000]
  | 0x26 => [0x0404040404040404]
  | t => List.replicate ((tableInfo t).map (·.1) |>.getD 0) 0

/-- Key of an active entry. -/
def tkey (tid i : Nat) : Nat := tid * 2 ^ 20 + i

/-- A copy of an active entry fails its detection code, or is no longer used (12 R335). -/
def copyFails (s : State) (tid i c : Nat) : Bool := s.faults.entries.any fun f => f.tid == tid && f.idx == i && f.copy == c

/-- Both copies of an active entry fail (12 R335). -/
def bothFail (s : State) (tid i : Nat) : Bool := copyFails s tid i 0 && copyFails s tid i 1

/-- The active entry of a table, from the copy that does not fail; where both do, its reset value (12 R335). TICK_LEN has its one home in the tick (07 R201). -/
def activeEntry (s : State) (tid i : Nat) : List W64 :=
  if tid = 0x01 then [s.tick.len.setWidth 64] else if bothFail s tid i then entryReset tid else sget (entryReset tid) s.tables.active (tkey tid i)

/-- An entry of the active bank written, in both its copies (12 R335). -/
def setActive (s : State) (tid i : Nat) (e : List W64) : State :=
  let s := { s with faults := { s.faults with entries := s.faults.entries.filter fun f => f.tid != tid || f.idx != i || f.hard } }
  if tid = 0x01 then { s with tick := { s.tick with len := (e.getD 0 0).setWidth 32 } }
  else { s with tables := { s.tables with active := sput (entryReset tid) s.tables.active (tkey tid i) e } }

/-- Word k of an active entry. -/
def ew (s : State) (tid i k : Nat) : W64 := (activeEntry s tid i).getD k 0

/-- Tables consulted for each frame at its input (12 R335). -/
def frameTables : List Nat := [0x10, 0x11, 0x12, 0x13, 0x14, 0x15, 0x16, 0x17, 0x23, 0x24, 0x25]

/-- CORE causes of Table 12.5. -/
def coreTransient : Nat := 0
def coreLasting : Nat := 1
def coreBoth : Nat := 2

/-- The slice of a die. -/
def srcCore (die : Nat) : Nat := if die = 0 then srcCoreW else srcCoreE

/-- A lookup of an entry finds the copies that fail; when both do, it is reported (12 R335). -/
def noteLookup (s : State) (e : Nat × Nat) : State :=
  let new (f : EntryFault) : Bool := f.tid == e.1 && f.idx == e.2 && f.found.isNone
  match s.faults.entries.find? new with
  | none => s
  | some f =>
    let both := bothFail s e.1 e.2
    let s := { s with faults := { s.faults with entries := s.faults.entries.map fun x => if new x then { x with found := some s.now } else x } }
    if both then setCause s (srcCore f.die) coreBoth (e.1 * 2 ^ 20 + e.2) else s

/-- The copy that failed has been rewritten from the good one and read back. -/
def repairCopy (s : State) (f : EntryFault) : State :=
  let unit := f.tid * 2 ^ 20 + f.idx
  if bothFail s f.tid f.idx then s
  else if f.hard then
    let s := { s with faults := { s.faults with entries := s.faults.entries.map fun x => if x = f then { x with unused := true } else x } }
    countBlock (setCause s (srcCore f.die) coreLasting unit) (srcCore f.die) coreLasting 1
  else
    let s := { s with faults := { s.faults with entries := s.faults.entries.filter fun x => x != f } }
    countBlock (setCause s (srcCore f.die) coreTransient unit) (srcCore f.die) coreTransient 1

/-- TICK_LEN of STRAP_TICK (07 R201, 15 Table 15.3). -/
def strapTickLen (strap : BitVec 14) : W32 := match bits strap.toNat 5 4 with
  | 0 => 0
  | 1 => 16000
  | 2 => 160000
  | _ => 1600000

/-- TICK_LEN takes its reset value when both copies of its entry fail. -/
def settleTickLen (s : State) : State :=
  if bothFail s 0x01 0 then { s with tick := { s.tick with len := strapTickLen s.boot.strap } } else s

/-- The cycle of the table memories: copies found to fail in an earlier cycle are repaired, and entries that no frame consults are looked at
(12 R335). -/
def tableCycle (s : State) : State :=
  if s.faults.entries.isEmpty then s
  else
    let s := (s.faults.entries.filter fun f => !f.unused && f.found.any fun t => decide (t < s.now)).foldl repairCopy s
    let s := (s.faults.entries.filter fun f => !frameTables.contains f.tid).foldl (fun s f => noteLookup s (f.tid, f.idx)) s
    settleTickLen s

/-! ### Jobs and the rank map (09 Tables 9.7, 9.8) -/

def jobEn (s : State) (j : Nat) : Bool := bit (ew s 0x10 j 0).toNat 63
def jobEdge (s : State) (j : Nat) : Bool := bit (ew s 0x10 j 0).toNat 62
def jobRmapBase (s : State) (j : Nat) : Nat := fld (ew s 0x10 j 0) 61 44
def jobRmapCount (s : State) (j : Nat) : Nat := fld (ew s 0x10 j 0) 43 29

/-- Endpoint of a rank of a job, when its entry is valid (09 R263). -/
def rankEndpoint (s : State) (j r : Nat) : Option Nat :=
  if r < jobRmapCount s j then
    let e := ew s 0x11 (jobRmapBase s j + r) 0
    if bit e.toNat 31 then some (fld e 19 0) else none
  else none

/-! ### Routing (09 Tables 9.9-9.13) -/

def routeKind (s : State) (dest : Nat) : Nat := fld (ew s 0x12 (dest / 256) 0) 31 30
def routeIndex (s : State) (dest : Nat) : Nat := fld (ew s 0x12 (dest / 256) 0) 9 0
/-- PORT of a valid local entry. -/
def localPort (s : State) (block dest : Nat) : Option Nat :=
  let e := ew s 0x13 (block * 256 + dest % 256) 0
  if bit e.toNat 15 then some (fld e 8 0) else none
def pathCount (s : State) (set : Nat) : Nat := fld (ew s 0x14 set 0) 63 56
/-- PORT of slot i of a path set. -/
def pathPort (s : State) (set i : Nat) : Nat :=
  let w := ew s 0x14 set (1 + i / 4)
  fld w (16 * (i % 4) + 8) (16 * (i % 4))
def groupEn (s : State) (g : Nat) : Bool := bit (ew s 0x15 g 0).toNat 63
def groupJob (s : State) (g : Nat) : Nat := fld (ew s 0x15 g 0) 62 55
/-- Port p is a member of a group. -/
def groupHas (s : State) (g p : Nat) : Bool := bit (ew s 0x15 g (1 + p / 64)).toNat (p % 64)

/-! ### Class policy (09 Table 9.12) -/

def clsSpread (s : State) (c : Nat) : Bool := bit (ew s 0x16 c 0).toNat 63
/-- 0 off, 1 LAST_ONLY, 2 FULL. -/
def clsReorder (s : State) (c : Nat) : Nat := fld (ew s 0x16 c 0) 62 61
def clsCmDepth (s : State) (c : Nat) : Nat := fld (ew s 0x16 c 0) 47 32
def clsTimeout (s : State) (c : Nat) : Nat := fld (ew s 0x16 c 0) 31 16

/-! ### Queues (10) -/

/-- Quantum of class c (10 Table 10.1). -/
def quantum (s : State) (p c : Nat) : Nat := fld (ew s 0x20 p 0) (8 * c + 7) (8 * c)
/-- The shaper a queue is bound to, while it is active. -/
def boundShaper (s : State) (p c : Nat) : Option Nat :=
  let e := ew s 0x22 (p * 8 + c) 0
  let n := fld e 9 0
  if bit e.toNat 15 && bit (ew s 0x21 n 0).toNat 63 then some n else none
def shaperRate (s : State) (n : Nat) : Nat := fld (ew s 0x21 n 0) 31 0
def shaperBurst (s : State) (n : Nat) : Nat := fld (ew s 0x21 n 0) 55 32
def boundMeter (s : State) (job c : Nat) : Option Nat :=
  let e := ew s 0x24 (job * 8 + c) 0
  if bit e.toNat 15 then some (fld e 9 0) else none
def quotaLimit (s : State) (q : Nat) : Nat := fld (ew s 0x25 q 0) 47 24
def quotaGuarantee (s : State) (q : Nat) : Nat := fld (ew s 0x25 q 0) 23 0
/-- Allotment of class c in units of 64 cells (10 Table 10.2). -/
def creditUnits (s : State) (p c : Nat) : Nat := fld (ew s 0x26 p 0) (8 * c + 7) (8 * c)

/-! ### Gate windows (07 R205-R207) -/

/-- An enabled window of a port open to a class: OPEN and CLOSE. -/
def windowOf (g : List W64) (c n : Nat) : Option (Nat × Nat) :=
  let oc := g.getD (1 + 2 * n) 0
  let ctl := (g.getD (2 + 2 * n) 0).toNat
  if bit ctl 31 && bit ctl c then some (fld oc 31 0, fld oc 63 32) else none

/-- How far from cycle x the open span runs: windows that overlap or touch form one span, across ticks too. -/
def spanEnd (wins : List (Nat × Nat)) (len : Nat) : Nat → Nat → Nat
  | 0, x => x
  | k + 1, x =>
    match wins.find? fun w => decide (w.1 ≤ x % len) && decide (x % len < w.2) with
    | none => x
    | some w => spanEnd wins len k (x + (w.2 - x % len))

/-- A frame of class c and n data cycles may start now by the gate rule (07 R206). Gates are inactive with ticks off
(07 R202). -/
def gateOpen (s : State) (p c n : Nat) : Bool :=
  let g := activeEntry s 0x27 p
  if tickLen s = 0 || !s.tick.running || !bit (g.getD 0 0).toNat c then true
  else
    let wins := (List.range 16).filterMap (windowOf g c)
    let x := curOfs s % tickLen s
    decide (x + n ≤ spanEnd wins (tickLen s) 40 x) && wins.any fun w => decide (w.1 ≤ x) && decide (x < w.2)

/-! ### Deadline watches (07 Table 7.5) -/

def watchEntry (s : State) (p n : Nat) : W64 := ew s 0x28 p n
def dlEn (w : W64) : Bool := bit w.toNat 63
def dlKick (w : W64) : Bool := bit w.toNat 62
def dlAny (w : W64) : Bool := bit w.toNat 61
def dlJob (w : W64) : Nat := fld w 59 52
def dlSrc (w : W64) : Nat := fld w 51 32
def dlCycle (w : W64) : Nat := fld w 31 0

/-! ### Kickstand (12 Tables 12.7, 12.8) and tandem (11 Tables 11.5, 11.6) -/

def kickEn (s : State) (p : Nat) : Bool := bit (ew s 0x38 p 0).toNat 63
def kickHold (s : State) (p : Nat) : Bool := bit (ew s 0x38 p 0).toNat 62
def kickRepeat (s : State) (p : Nat) : Bool := bit (ew s 0x38 p 0).toNat 61
def kickJob (s : State) (p : Nat) : Nat := fld (ew s 0x38 p 0) 55 48
def kickLen (s : State) (p : Nat) : Nat := fld (ew s 0x38 p 0) 47 44
def kickDest (s : State) (p : Nat) : Nat := fld (ew s 0x38 p 0) 39 20
def kickRepOfs (s : State) (p : Nat) : Nat := fld (ew s 0x38 p 1) 63 32
/-- Payload of the entry, LEN * 32 bytes. -/
def kickPayload (s : State) (p : Nat) : List Byte :=
  (bytesOf ((activeEntry s 0x38 p).drop 2)).take (32 * kickLen s p)
/-- Ports that a LATE till or tally of a job fires. -/
def kickMask (s : State) (job : Nat) : List Nat :=
  (List.range 512).filter fun p => bit (ew s 0x39 job (p / 64)).toNat (p % 64)

def tandemEn (s : State) : Bool := bit (ew s 0x30 0 0).toNat 63
/-- ON_LOSS: false HOLD, true SOLO. -/
def tandemSolo (s : State) : Bool := bit (ew s 0x30 0 0).toNat 62
def tandemPort (s : State) : Nat := fld (ew s 0x30 0 0) 61 53
def tandemTwin (s : State) : Nat := fld (ew s 0x30 0 0) 52 33
def tandemSkew (s : State) : Nat := fld (ew s 0x30 0 0) 32 25
def tandemWindow (s : State) : Nat := fld (ew s 0x30 0 0) 15 0
/-- The compared port of a slot, while it is enabled. -/
def slotPort (s : State) (k : Nat) : Option Nat :=
  let e := ew s 0x31 k 0
  if bit e.toNat 15 then some (fld e 8 0) else none
/-- The slots that compare a port. -/
def slotsOf (s : State) (p : Nat) : List Nat := (List.range 64).filter fun k => decide (slotPort s k = some p)

/-! ### Quiet windows (05 R143) -/

/-- OPEN and CLOSE of window n of a stack. -/
def quietWin (s : State) (stack n : Nat) : Nat × Nat := (fld (ew s 0x02 stack n) 31 0, fld (ew s 0x02 stack n) 63 32)

/-- Inside a quiet window of the stack. -/
def inQuiet (s : State) (stack : Nat) : Bool :=
  tickLen s != 0 && s.tick.running && (List.range 4).any fun n =>
    let w := quietWin s stack n
    decide (w.1 ≤ curOfs s) && decide (curOfs s < w.2)

end Sys2Proof.Machine
end

