-- ==== Sys2Proof/Machine/Ports.lean ====
section
/-! DEFINITION. Ports: packet-buffer cells and quotas (10), credit, routing and the derailleur (09), frames placed on
output queues, flushing, and kickstand detection (12). -/

namespace Sys2Proof.Machine

/-! ### Pools and quotas (10 R306-R312) -/

/-- Index of a requester in the quota table (10 R307). -/
def quotaIdx (pool job cls : Nat) : Nat := pool * 2048 + job * 8 + cls

/-- Unmet guarantees of every other requester of a pool (10 R308). -/
def unmet (s : State) (pool q : Nat) (used : Nat → Nat) : Nat :=
  sumNat (s.tables.active.map fun e =>
    let i := e.1 - tkey 0x25 0
    if bothFail s 0x25 i || decide (e.1 < tkey 0x25 (pool * 2048)) || decide (e.1 ≥ tkey 0x25 (pool * 2048 + 2048)) || i = q then 0
    else quotaGuarantee s i - used i)

/-- R308 for k units of a pool: units free, units the requester holds in the scope judged, and everyone's use. -/
def quotaAllows (s : State) (pool q k free : Nat) (used : Nat → Nat) : Bool :=
  decide (k ≤ free) && decide (used q + k ≤ quotaLimit s q) &&
    (decide (used q + k ≤ quotaGuarantee s q) || decide (k ≤ free - unmet s pool q used))

/-- Use of a requester raised, with its peak (10 R312). -/
def addUse (s : State) (q k : Nat) : State :=
  let u := sget 0 s.pools.use q + k
  { s with pools := { s.pools with use := sput 0 s.pools.use q u, peak := sput 0 s.pools.peak q (max u (sget 0 s.pools.peak q)) } }

def subUse (s : State) (q k : Nat) : State := { s with pools := { s.pools with use := sdrop s.pools.use q k } }

/-- Quota index of a till in a pool: its job, and TC7 for a tick-class till, else TC4 (10 R307). -/
def tillQuota (pool : Nat) (words : List W64) : Nat := quotaIdx pool (wf words 0 51 44) (if wb words 0 26 then 7 else 4)

/-! ### Unit state bits (R311) -/

/-- The place of a unit: its slice in pool 0, its cluster in pool 1. -/
def placeOfUnit (x : Nat × Nat) : Nat := if x.1 = 0 then x.2 / Config.sliceCells else if x.1 = 1 then x.2 / 4096 else 0

/-- Units of a pool at a place that a list of marks names. -/
def marks (l : List (Nat × Nat)) (pool place : Nat) : List (Nat × Nat) := l.filter fun x => x.1 == pool && placeOfUnit x == place

/-- The pool manager counts and reports a unit: freed twice, with its index (13 Table 13.19), or fenced. -/
def poolFault (s : State) (fence : Bool) (pool q unit : Nat) : State :=
  let s := if fence then { s with pools := { s.pools with fenced := addAt s.pools.fenced pool 1 } }
           else { s with pools := { s.pools with doubleFree := addAt s.pools.doubleFree pool 1 } }
  setCause s srcPool (pool + b2n fence * 3) q (q / 8 % 256) 0 (if fence then 0 else unit)

/-- Free units of a pool at a place whose bit reads 1 are fenced when units are taken there. How many. -/
def takeStuck (s : State) (pool place q : Nat) : State × Nat :=
  let gone := marks s.faults.stuck pool place
  if gone.isEmpty then (s, 0)
  else
    let s := { s with faults := { s.faults with stuck := s.faults.stuck.filter fun x => !gone.contains x } }
    (gone.foldl (fun s x => poolFault s true pool q x.2) s, gone.length)

/-- Granted units at a place whose bit reads 0: their free is ignored. How many of n. -/
def giveLost (s : State) (pool place q n : Nat) : State × Nat :=
  let gone := (marks s.faults.lost pool place).take n
  if gone.isEmpty then (s, 0)
  else
    let s := { s with faults := { s.faults with lost := s.faults.lost.filter fun x => !gone.contains x } }
    (gone.foldl (fun s x => poolFault s false pool q x.2) s, gone.length)

/-- Free staging buffers that can be granted: one whose bit reads 1 cannot (R311). -/
def freeStaging (s : State) : Nat :=
  s.pools.staging - s.pools.stagingUsed - s.pools.stagingFenced - s.pools.stagingFreed - (marks s.faults.stuck 2 0).length

/-- Staging buffers granted to a requester (05 R159, 10 R308): the state, none when they cannot be. -/
def takeStaging (s : State) (q k : Nat) : Option State :=
  if quotaAllows s 2 q k (freeStaging s) (sget 0 s.pools.use) then
    let (s, n) := takeStuck (addUse s q k) 2 0 q
    some { s with pools := { s.pools with stagingUsed := s.pools.stagingUsed + k, stagingFenced := s.pools.stagingFenced + n } }
  else none

/-- Staging buffers given back. -/
def giveStaging (s : State) (q k : Nat) : State :=
  let (s, n) := giveLost s 2 0 q k
  let s := subUse s q (k - n)
  { s with pools := { s.pools with stagingUsed := s.pools.stagingUsed - (k - n), stagingFreed := s.pools.stagingFreed + (k - n) } }

/-- Free cells of a slice that can be granted: one whose bit reads 1 cannot (R311). -/
def freeCells (s : State) (slice : Nat) : Nat :=
  Config.sliceCells - Config.reorderReserve - sget 0 s.pools.cells slice - sget 0 s.pools.cellsFenced slice -
    sget 0 s.pools.cellsFreed slice - (marks s.faults.stuck 0 slice).length

/-- Cells a requester holds in a slice; q is its quota index in pool 0. -/
def sliceUse (s : State) (slice q : Nat) : Nat := sget 0 s.pools.sliceUse (slice * 2048 + q)

/-- A frame's cells can be granted in its slice (10 R308). -/
def cellsAllowed (s : State) (slice q k : Nat) : Bool :=
  quotaAllows s 0 q k (freeCells s slice) (sliceUse s slice)

/-- Cells taken for a frame. -/
def takeCells (s : State) (slice q k : Nat) : State :=
  let (s, n) := takeStuck (addUse s q k) 0 slice q
  { s with pools := { s.pools with cells := sput 0 s.pools.cells slice (sget 0 s.pools.cells slice + k),
                                   cellsFenced := sput 0 s.pools.cellsFenced slice (sget 0 s.pools.cellsFenced slice + n),
                                   sliceUse := sput 0 s.pools.sliceUse (slice * 2048 + q) (sliceUse s slice q + k) } }

/-- Cells given back. -/
def giveCells (s : State) (slice q k : Nat) : State :=
  let (s, n) := giveLost s 0 slice q k
  let k := k - n
  let s := subUse s q k
  { s with pools := { s.pools with cells := sdrop s.pools.cells slice k,
                                   cellsFreed := sput 0 s.pools.cellsFreed slice (sget 0 s.pools.cellsFreed slice + k),
                                   sliceUse := sdrop s.pools.sliceUse (slice * 2048 + q) k } }

/-- Credit owed to the neighbour of a port for cells freed there (10 R294, R296). -/
def owe (s : State) (p c k : Nat) : State :=
  modPort s p fun q => { q with q := { q.q with owed := addAt q.q.owed c k } }

/-- A frame entered in the buffer under its number. -/
def hold (s : State) (fid : Nat) (h : Held) : State := { s with frames := oins s.frames fid h }

/-- The parts of a port changed. -/
def modLink (s : State) (p : Nat) (f : Link → Link) : State := modPort s p fun q => { q with link := f q.link }
def modQ (s : State) (p : Nat) (f : PortQ → PortQ) : State := modPort s p fun q => { q with q := f q.q }
def modKick (s : State) (p : Nat) (f : Kick → Kick) : State := modPort s p fun q => { q with kick := f q.kick }

/-- A cell that failed on a read is tested before it is free (12 R336): fenced, or its fault was transient. -/
def testCell (s : State) (b : Held) (c : CellFault) : State :=
  let src := srcPg b.slice
  if c.hard then
    let n := sget 0 s.pools.cellsFenced b.slice + 1
    let s := poolFault { s with pools := { s.pools with cellsFenced := sput 0 s.pools.cellsFenced b.slice n } } true 0
      (quotaIdx 0 b.job b.cls) 0
    countBlock (setCause s src 10 c.cell b.job) src 3 1
  else countBlock (setCause s src 9 c.cell b.job) src 2 1

/-- The cells of a frame that is gone: those found to fail are tested (12 R336). -/
def testCells (s : State) (fid : Nat) (b : Held) : State :=
  if s.faults.cells.isEmpty then s
  else
    let mine := s.faults.cells.filter fun c => c.fid == fid
    (mine.filter (·.read)).foldl (fun s c => testCell s b c)
      { s with faults := { s.faults with cells := s.faults.cells.filter fun c => c.fid != fid } }

/-- One copy of a buffered frame has left or gone: with the last, its cells are free and its credit is owed. -/
def dropCopy (s : State) (fid : Nat) : State :=
  match ofind s.frames fid with
  | none => s
  | some h =>
    if h.copies > 1 then { s with frames := oins s.frames fid { h with copies := h.copies - 1 } }
    else
      let s := testCells { s with frames := odel s.frames fid } fid h
      let s := match h.mirror with
        | some m => { s with pools := { s.pools with cells := sdrop s.pools.cells h.slice h.cells,
                                                     cellsFreed := sput 0 s.pools.cellsFreed h.slice (sget 0 s.pools.cellsFreed h.slice + h.cells),
                                                     mirror := sdrop s.pools.mirror m h.cells } }
        | none => if h.cells = 0 || h.reserve then s else giveCells s h.slice (quotaIdx 0 h.job h.cls) h.cells
      match h.credit with
      | none => s
      | some (p, k) => owe s p h.cls k

/-- A copy was flushed or discarded: its frame's cells are freed in the next cycle, once no other copy holds them (10 R288). -/
def dropLater (s : State) (fid : Nat) : State := { s with dropping := s.dropping ++ [fid] }

/-- The cycle in which they are. -/
def dropFlushed (s : State) : State := s.dropping.foldl dropCopy { s with dropping := [] }

/-! ### Link state and usable ports (08 R250, 09 R266) -/

/-- Frames a link state allows (08 Table 8.11). -/
def linkAllows (st : LinkSt) (plan : W64) (h : Header) : Bool :=
  let t := h.type.toNat
  let always := t == 10 || t == 11
  match st with
  | .up => true
  | .refused => always || (planBulk plan && h.cls != 7 && (t == 0 || t == 6 || t == 7 || t == 8 || t == 12))
  | .quarantine => always
  | _ => false

/-- A port is usable for a frame (09 R266). -/
def usable (s : State) (p : Nat) (h : Header) (inPort : Nat) : Bool :=
  let q := portAt s p
  q.conf && p != inPort && (q.link.st == .up || (q.link.st == .refused && linkAllows .refused q.plan h)) &&
    q.link.fencedAt.isNone && !q.link.degrading

/-- The port is an edge port: its neighbour is an endpoint (09 R258). -/
def isEdge (s : State) (p : Nat) : Bool := !planX7 (portAt s p).plan

/-- Active width of a port in lanes, at least 1. -/
def widthOf (s : State) (p : Nat) : Nat := max 1 (portAt s p).lanes.length

/-- Data cycles in which a queued frame leaves: all of it, or what was received and the cut cycle (09 R278). -/
def leaveCycles (e : Entry) (w : Nat) : Nat :=
  if e.frame.cut then ceilDiv (32 + e.frame.payload.length) (32 * w) + 1 else dataCycles e.frame w

/-- An aligned release copy (06 R175). -/
def isAligned (e : Entry) : Bool := e.aligned.isSome

/-- A frame may join a port's queue: the port carries frames, or narrows and keeps its queue (09 R283). -/
def joins (s : State) (p : Nat) : Bool :=
  let l := (portAt s p).link
  [.up, .refused, .quarantine].contains l.st || l.degrading

/-- The cycles that a copy from input a to output b takes beyond its base latency: the bridge, and an output wider than the input, which the
frame's last byte must not outrun (01 R13, 07 R214). -/
def pathExtra (s : State) (a b : Nat) (f : Frame) : Nat :=
  (if dieOf a = dieOf b then 0 else 8) + (dataCycles f (widthOf s a) - dataCycles f (widthOf s b))

/-! ### Queues -/

/-- Cells queued at an output for a class, from all inputs (09 R280, 10 R304). -/
def depthOf (q : PortQ) (c : Nat) : Nat := sumNat (q.queue.map fun e => if e.cls = c ∧ e.express = false then cellsOf e.frame else 0)

/-- A class with no queued frame has a deficit of 0 (10 R292). -/
def settleDeficit (q : PortQ) (c : Nat) : PortQ :=
  if q.queue.any fun e => e.cls == c then q else { q with deficit := q.deficit.set c 0 }

/-- Queued copies are taken out of an output's queue. -/
def unqueue (q : PortQ) (gone : Entry → Bool) : PortQ :=
  (List.range 6).foldl settleDeficit { q with queue := q.queue.filter fun e => !gone e }

/-- DEPTH_MAX of a class brought up to its depth (10 Table 10.8). -/
def noteDepth (q : PortQ) (c : Nat) : PortQ :=
  let r := q.samples.getD c (0, 0, 0, 0)
  { q with samples := q.samples.set c (r.1, max r.2.1 (min (depthOf q c) Config.sat32), r.2.2.1, r.2.2.2) }

/-- CM set where the queue has reached the class's CM_DEPTH (09 R280). -/
def markCm (s : State) (p : Nat) (e : Entry) : Entry :=
  let d := clsCmDepth s e.cls
  let h := headerOf e.frame.hdr
  if h.xp = 1 || e.cls = 7 || d = 0 || decide (depthOf (portAt s p).q e.cls < d) || h.cm = 1 then e
  else { e with frame := rehead e.frame { h with cm := 1 } }

/-- A copy at the tail of its output's queue. -/
def pushEntry (s : State) (p : Nat) (e : Entry) : State :=
  modPort s p fun q => { q with q := noteDepth { q.q with queue := q.q.queue ++ [e] } e.cls }

/-- DEPTH_MAX of every class brought up to the depth of this cycle. -/
def noteDepths (q : PortQ) : PortQ := if q.queue.isEmpty then q else (List.range 8).foldl noteDepth q

/-- A count of frames dropped at an output because it is down: reason 0x0D and the class's DOWN_FLUSH (12 R343). -/
def countFlush (s : State) (p c : Nat) : State := countPort (countPort s p (rDownFlush - 1) 1) p (cDownFlush + c) 1

/-! ### Mirroring (09 R282) -/

/-- A queued mirror copy gives its cells up at once to the frame that needs them. -/
def evictMirror (s : State) (fid p : Nat) : State :=
  let k := ((ofind s.frames fid).map (·.cells)).getD 0
  let slice := ((ofind s.frames fid).map (·.slice)).getD 0
  let s := dropCopy (modQ s p fun q => unqueue q fun e => e.fid == fid) fid
  countPort { s with pools := { s.pools with cellsFreed := sdrop s.pools.cellsFreed slice k } } p (rMirrorDrop - 1) 1

/-- Queued mirror copies of a slice are discarded, newest first, until k cells are free. -/
def dropMirrors : Nat → State → Nat → Nat → State
  | 0, s, _, _ => s
  | n + 1, s, slice, k =>
    if freeCells s slice ≥ k then s
    else
      let copies := s.ports.flatMap fun q => (q.2.q.queue.filter fun e => e.mirror.isSome).map fun e => (e.fid, q.1)
      let mine := copies.filter fun c => match ofind s.frames c.1 with
        | some h => h.slice == slice
        | none => false
      match mine.foldl (fun b c => if b.any (fun x => decide (x.1 ≥ c.1)) then b else [c]) [] with
      | [] => s
      | c :: _ => dropMirrors n (evictMirror s c.1 c.2) slice k

/-- Mirror copies give way where a slice lacks k cells for another frame (09 R282, 10 R309). -/
def makeRoom (s : State) (slice k : Nat) : State := if freeCells s slice < k then dropMirrors s.fresh s slice k else s

/-- A copy of an entry for a mirror session joins its analysis port in MCLASS; its bytes arrive as those of the original, at the input it
came by, or from its output p when the X7 sends it itself. -/
def mirrorCopy (s : State) (m p slice : Nat) (e : Entry) (copyOf : Option (Nat × Nat)) : State :=
  let w := ew s 0x17 m 0
  let out := fld w 51 43
  let k := cellsOf e.frame
  let ready := match e.inPort with
    | some (ip, _) => e.arrival + 96 + pathExtra s ip out e.frame
    | none => max e.ready s.now + pathExtra s p out e.frame
  if sget 0 s.pools.mirror m ≥ fld (ew s 0x17 m 1) 63 48 ∨ freeCells s slice < k ∨ (portAt s out).conf = false ∨ joins s out = false then
    countPort s out (rMirrorDrop - 1) 1
  else
    let (fid, s) := takeFresh s
    let s := { s with pools := { s.pools with cells := sput 0 s.pools.cells slice (sget 0 s.pools.cells slice + k),
                                               mirror := sput 0 s.pools.mirror m (sget 0 s.pools.mirror m + k) } }
    let s := hold s fid { slice := slice, cells := k, cls := fld w 42 40, copies := 1, mirror := some m }
    pushEntry s out { fid := fid, frame := e.frame, cls := fld w 42 40, src := slice, arrival := s.now, ready := ready,
                      mirror := some m, stomp := e.stomp, inPort := e.inPort, copyOf := copyOf }

/-- Sessions matched by a frame to be sent on a port (MATCH 1), MGMT apart. -/
def mirrorOut (s : State) (p slice : Nat) (e : Entry) : State :=
  (List.range 16).foldl (fun s m =>
    let w := ew s 0x17 m 0
    if bit w.toNat 63 && (headerOf e.frame.hdr).type != 0xB && fld w 62 61 == 1 && fld w 60 52 == p then
      mirrorCopy s m p slice e (some (e.fid, p)) else s) s

/-- A frame found to be bad leaves its copies of sessions with MATCH 1 stomped alike: those queued, and those on a lane (09 R282). `of` picks
them by the frame and its output. -/
def stompCopies (s : State) (of : Nat × Nat → Bool) (reason : W16) : State :=
  let mine (e : Entry) : Bool := e.copyOf.any of
  let mark (q : PortQ) : PortQ :=
    { q with queue := q.queue.map fun e => if mine e && e.stomp == 0 then { e with stomp := reason } else e,
             lane := match q.lane with
               | .frame e st n => if mine e then .frame { e with frame := stompFrame e.frame reason } st n else q.lane
               | l => l }
  (s.ports.filter fun q => q.2.q.queue.any mine || match q.2.q.lane with
    | .frame e _ _ => mine e
    | _ => false).foldl (fun s q => modQ s q.1 mark) s

/-- A copy joins its output's queue, marked and mirrored. A frame of the X7's own is mirrored as it starts, when its TICK is written
(07 R204). -/
def enqueue (s : State) (p : Nat) (e : Entry) : State :=
  if e.mirror.isSome then pushEntry s p e
  else
    let e := markCm s p e
    pushEntry (if e.src = 16 then s else mirrorOut s p e.src e) p e

/-! ### Routing (09 R267, R269, R270) -/

/-- DEST values that never route (09 R263). -/
def neverRoutes (h : Header) : Bool := h.mc == 0 && decide (0xF0000 ≤ h.dest.toNat) && decide (h.dest.toNat < 0xFC000)

/-- The fixed path of a frame (09 R269). -/
def fixedPath (h : Header) : Nat :=
  (h.src.toNat * 0x9e3779b1 + h.dest.toNat * 0x85ebca6b + (h.job.toNat * 8 + h.cls.toNat) * 0xc2b2ae35) % 2 ^ 32 *
    128 / 2 ^ 32

/-- Types that may be spread (09 R269). -/
def spreads (s : State) (h : Header) : Bool :=
  let t := h.type.toNat
  clsSpread s h.cls.toNat && h.mc == 0 && !neverRoutes h && (t == 0 || t == 1 || t == 3 || t == 2 || t == 9 || t == 4) &&
    routeKind s h.dest.toNat == 2

/-- The derailleur's choice (09 R270): of the usable paths, the one whose port holds the fewest cells of the class, the
first after `last` in index order among equals. -/
def derail (s : State) (h : Header) (inPort last : Nat) : Option Nat :=
  let set := routeIndex s h.dest.toNat
  let n := pathCount s set
  let cands := (List.range n).filter fun i => usable s (pathPort s set i) h inPort
  let cost i := depthOf (portAt s (pathPort s set i)).q h.cls.toNat
  let best := cands.foldl (fun b i => min b (cost i)) (10 ^ 9)
  let ties := cands.filter fun i => cost i == best
  match ties.find? (fun i => decide (i > last)) with
  | some i => some i
  | none => ties.head?

/-- PATH as the first X7 writes it: the frame, and the path chosen when the frame is spread. -/
def writePath (s : State) (h : Header) (inPort : Nat) : Header × Option Nat :=
  if h.mc = 1 then (h, none)
  else if spreads s h then
    match derail s h inPort (nth (portAt s inPort).q.lastPath h.cls.toNat) with
    | some i => ({ h with path := BitVec.ofNat 7 i }, some i)
    | none => ({ h with path := BitVec.ofNat 7 (fixedPath h) }, none)
  else ({ h with path := BitVec.ofNat 7 (fixedPath h) }, none)

/-- The output of a unicast frame (09 R267). -/
def route (s : State) (h : Header) (inPort : Nat) : Option Nat :=
  let dest := h.dest.toNat
  let idx := routeIndex s dest
  if neverRoutes h then none
  else if routeKind s dest = 1 then
    match localPort s idx dest with
    | some p => if usable s p h inPort then some p else none
    | none => none
  else if routeKind s dest = 2 then
    let n := pathCount s idx
    ((List.range n).map fun i => pathPort s idx ((h.path.toNat + i) % n)).find? fun p => usable s p h inPort
  else none

/-- Ports a group's copies go to, and member ports that make none because they are not usable (09 R272). -/
def groupPorts (s : State) (h : Header) (inPort : Nat) : List Nat × List Nat :=
  let g := h.dest.toNat % 65536
  let ms := (List.range 512).filter fun p => groupHas s g p && p != inPort
  (ms.filter fun p => usable s p h inPort, ms.filter fun p => !usable s p h inPort)

/-! ### Frames the X7 originates (09 R260, 10 R288, R309) -/

/-- The port number that stands for the X7 itself. -/
def selfPort : Nat := 512

/-- A header for a frame the X7 originates: VER, SRC, SEQ, and XP by its class (09 R257). -/
def ownHeader (s : State) : Header :=
  { blankHeader with src := (ownEndpoint s).getD 0, seq := Config.frameSeq s.fresh }

/-- The source of an originated frame, which stalls while one of its frames waits for cells: a till, a tally, or a memory response or
other exchange (10 R309). -/
def sourceOf (e : Entry) : Nat × Nat × Nat :=
  let h := headerOf e.frame.hdr
  let t := h.type.toNat
  if t = 2 ∨ t = 3 ∨ t = 9 then (0, h.job.toNat, h.till.toNat)
  else if t = 4 ∨ t = 5 then (1, h.job.toNat, h.till.toNat)
  else (2 + t, h.dest.toNat, h.seq.toNat)

/-- The copies of an originated frame take its cells, once for all of them: in the slice of its first output (R288). None while it may not
have them. -/
def takeOwn (s : State) (cs : List (Nat × Entry)) : Option State := match cs with
  | [] => none
  | (p, e) :: _ =>
    let h := headerOf e.frame.hdr
    let q := quotaIdx 0 h.job.toNat h.cls.toNat
    let k := cellsOf e.frame
    let s := makeRoom s (pgOf p) k
    if cellsAllowed s (pgOf p) q k then
      let b : Held := { slice := pgOf p, cells := k, job := h.job.toNat, cls := h.cls.toNat, copies := cs.length }
      some (hold (takeCells s (pgOf p) q k) e.fid b)
    else none

/-- The copies of an originated frame join their outputs; they wait for cells when there are none, or behind an earlier frame of its source
(10 R309). -/
def emitAll (s : State) (cs : List (Nat × Entry)) : State :=
  let put (s : State) (x : Nat × Entry) : State := enqueue s x.1 x.2
  if cs.all fun x => x.2.express then cs.foldl put s
  else if s.stalled.any fun y => cs.any fun x => sourceOf x.2 == sourceOf y.2 then { s with stalled := s.stalled ++ cs }
  else match takeOwn s cs with
    | some s => cs.foldl put s
    | none => { s with stalled := s.stalled ++ cs }

/-- The entry of a copy of an originated frame. -/
def ownEntry (s : State) (fid : Nat) (f : Frame) (ready : Nat) (prepared : Bool) (aligned : Option (Nat × Nat)) : Entry :=
  { fid := fid, frame := f, cls := (headerOf f.hdr).cls.toNat, src := 16, arrival := s.now, ready := ready,
    aligned := aligned, express := prepared }

/-- An originated frame joins output p. -/
def emitTo (s : State) (p : Nat) (f : Frame) (ready : Nat) (prepared : Bool) (aligned : Option (Nat × Nat)) : State :=
  let (fid, s) := takeFresh s
  emitAll s [(p, ownEntry s fid f ready prepared aligned)]

/-- A stalled frame takes its cells if it may and no earlier one of its source waits (10 R309, 06 R187). -/
def retryOne (s : State) (x : Nat × Entry) : State :=
  let mine := s.stalled.filter fun y => y.2.fid == x.2.fid
  if (s.stalled.find? fun y => sourceOf y.2 == sourceOf x.2).any fun y => y.2.fid == x.2.fid then
    match takeOwn s mine with
    | some s => mine.foldl (fun s y => enqueue s y.1 y.2) { s with stalled := s.stalled.filter fun y => y.2.fid != x.2.fid }
    | none => s
  else s

/-- Stalled frames take their cells as soon as they may, oldest first. -/
def retryStalled (s : State) : State := s.stalled.foldl retryOne s

/-- A memory request between two X7s of this board, which may leave over board links only (05 R135, 08 R234). -/
def boardFrame (s : State) (h : Header) : Bool :=
  (h.type == 6 || h.type == 7) && s.boot.boardEp.contains (some h.src) && s.boot.boardEp.contains (some h.dest)

/-- The output of a unicast frame (09 R267), none where a board request would leave on another link (05 R135). -/
def routed (s : State) (h : Header) (inPort : Nat) : Option Nat :=
  (route s h inPort).filter fun o => !boardFrame s h || planBoard (portAt s o).plan

/-- A unicast frame the X7 originates: consumed at once when DEST is its own endpoint (or discarded there by its type, R260), else
routed with its PATH. `ready` gives
the first data cycle in which it may leave on a port. A frame with no usable route is lost. -/
def sendOwn (s : State) (h : Header) (payload : List Byte) (ready : Nat → Nat) : State :=
  if h.mc = 0 ∧ some h.dest = ownEndpoint s then
    if [0, 2, 5, 0xA, 0xC].contains h.type.toNat then { s with fresh := s.fresh + 1 }
    else
      let i : Intake := { frame := mkFrame h payload, port := selfPort, arrival := s.now }
      { s with intake := s.intake ++ [i], fresh := s.fresh + 1 }
  else
    let (h, ch) := writePath s h selfPort
    let s := match ch with
      | some i => modQ s selfPort fun q => { q with lastPath := q.lastPath.set h.cls.toNat i }
      | none => s
    match routed s h selfPort with
    | some p => emitTo s p (mkFrame h payload) (ready p) false none
    | none => { s with fresh := s.fresh + 1 }

/-- A multicast frame the X7 originates: one copy to each usable member port (09 R272); it is held once (10 R288). -/
def sendGroup (s : State) (h : Header) (payload : List Byte) (ready : Nat → Nat) (prepared : Bool)
    (aligned : Nat → Option (Nat × Nat)) : State :=
  let g := h.dest.toNat % 65536
  if groupEn s g && groupJob s g == h.job.toNat then
    let (outs, lost) := groupPorts s h selfPort
    let s := lost.foldl (fun s p => countFlush s p h.cls.toNat) s
    let (fid, s) := takeFresh s
    emitAll s (outs.map fun p => (p, ownEntry s fid (mkFrame h payload) (ready p) prepared (aligned p)))
  else { s with fresh := s.fresh + 1 }

/-- A frame of an object's own: TYPE, CLASS, DEST, JOB, TILL, EPOCH and AUX given. -/
def ownFrame (s : State) (type cls : Nat) (dest job till : Nat) (epoch : W16) (offset aux : Nat) : Header :=
  { ownHeader s with type := BitVec.ofNat 4 type, cls := BitVec.ofNat 3 cls, xp := if cls = 7 then 1 else 0,
                     dest := BitVec.ofNat 20 dest, job := BitVec.ofNat 8 job, till := BitVec.ofNat 12 till,
                     epoch := epoch, offset := BitVec.ofNat 24 offset, aux := BitVec.ofNat 32 aux }

/-- The origination latency the spec does not publish: a free number of cycles (assumption log 4). -/
def freeDelay (s : State) : Nat := s.now + Config.originDelay s.fresh

/-- A frame of the X7's own with this header is queued or on a lane: used where a rule waits until it has left. -/
def inFlight (s : State) (p : Header → Bool) : Bool :=
  s.ports.any (fun q => q.2.q.queue.any (fun e => e.src == 16 && p (headerOf e.frame.hdr)) ||
    match q.2.q.lane with
    | .frame e _ _ => e.src == 16 && p (headerOf e.frame.hdr)
    | _ => false) ||
  s.stalled.any fun e => p (headerOf e.2.frame.hdr)

/-- Queued frames of the X7's own that have not started are taken back. -/
def recallFrames (s : State) (p : Header → Bool) : State :=
  let hit (e : Entry) : Bool := e.src == 16 && e.mirror.isNone && p (headerOf e.frame.hdr)
  let s := { s with stalled := s.stalled.filter fun e => !hit e.2 }
  s.ports.foldl (fun s q =>
    let r := portAt s q.1
    let gone := r.q.queue.filter hit
    gone.foldl (fun s e => dropLater s e.fid) (setPort s q.1 { r with q := unqueue r.q hit })) s

/-! ### Flushing (09 R283, R284) -/

/-- Every frame queued for a port that has not started, or that waits for cells to be, is flushed and counted (09 R283). -/
def flushQueue (s : State) (p : Nat) : State :=
  let q := (portAt s p).q
  let waits := s.stalled.filter fun x => x.1 == p
  let s := modPort s p fun r => { r with q := { r.q with queue := [], deficit := List.replicate 6 0 } }
  let s := { s with stalled := s.stalled.filter fun x => x.1 != p }
  let s := q.queue.foldl (fun s e => countFlush (dropLater s e.fid) p e.cls) s
  waits.foldl (fun s x => countFlush s p x.2.cls) s

/-- Nothing on the lane. -/
def clearLane (q : PortQ) : PortQ := { q with lane := .idle, stallFrom := none, done := 0, ret := [], cut := none }

/-- The frame on a port's lane is lost with the link. -/
def loseLane (s : State) (p : Nat) : State :=
  match (portAt s p).q.lane with
  | .frame e _ _ => dropLater (modQ s p clearLane) e.fid
  | _ => modQ s p clearLane

/-- A frame of which only some payload bytes are sent, with the stomped trailer of a cut cycle (09 R277, R278): a frame that arrived
stomped keeps its reason. -/
def cutFrame (f : Frame) (sent : Nat) (reason : W16) : Frame :=
  let b := f.payload.take sent
  { f with payload := b, crc := ~~~(frameCrc f.hdr b), status := if f.status = 0 then reason else f.status, cut := true }

/-- When a byte comes that would come at x, of a frame whose header came at `hdr`, past the replays of its input (08 R244): none while one
is awaited. -/
def byteArrival (l : Link) (hdr x : Nat) : Option Nat :=
  l.gaps.foldl (fun y g => y.bind fun y => if g.1 > hdr ∧ y ≥ g.1 then g.2.map fun t => y + (t - g.1) else some y) (some x)

/-- The bytes of a frame are still coming. -/
def coming (s : State) (e : Entry) : Bool := match e.inPort with
  | some (ip, t) => (byteArrival (portAt s ip).link e.arrival t).all fun y => decide (y > s.now)
  | none => false

/-- The frame of a copy with the STATUS that this X7 knows of now: none while its trailer is still to come. -/
def knownFrame (s : State) (e : Entry) : Frame := if coming s e then { e.frame with status := 0 } else e.frame

/-- Copies of a frame that a session with MATCH 1 took and that have not started are cut alike (09 R282). -/
def cutCopies (s : State) (of : Nat × Nat) (sent : Nat) (reason : W16) : State :=
  let cut (e : Entry) : Entry := if e.copyOf = some of then { e with frame := cutFrame (knownFrame s e) sent reason } else e
  if s.ports.any fun q => q.2.q.queue.any fun e => e.copyOf == some of then
    (s.ports.map (·.1)).foldl (fun s p => modQ s p fun q => { q with queue := q.queue.map cut }) s
  else s

/-- Records of a frame for an output that have not been formed: of a frame cut before, the record carries the CRC that the frame then has
(11 R325); of one that leaves no trace, there is none. -/
def cutRecords (s : State) (fid p : Nat) (f : Option Frame) : State :=
  let mine (x : Nat × Nat × TandemRec) : Bool := x.1 == fid && x.2.1 == p
  if !s.tandem.forming.any mine then s
  else
    let change (x : Nat × Nat × TandemRec) : Nat × Nat × TandemRec := match f with
      | some g => if mine x && decide (x.2.2.at_ > s.now) then (x.1, x.2.1, { x.2.2 with crc := g.crc, at_ := s.now + 1 }) else x
      | none => x
    { s with tandem := { s.tandem with forming := (s.tandem.forming.filter fun x => f.isSome || !mine x).map change } }

/-- The next data cycle that a port may fill: past a replayed copy under way (08 R241). -/
def nextCycle (s : State) (p : Nat) : Nat := if (portAt s p).link.copying then s.now - s.now % 10 + 10 else s.now

/-- The frame on a lane is cut with a reason: its cut cycle is the next data cycle, and carries the stomped trailer (09 R278). A frame of
which nothing has been sent leaves no trace. -/
def cutLane (s : State) (p : Nat) (reason : W16) : State :=
  match (portAt s p).q.lane with
  | .frame e _ _ =>
    let q := (portAt s p).q
    let sent := 32 * widthOf s p * q.done - 32
    let f := cutFrame (knownFrame s e) sent reason
    let c := nextCycle s p
    let s := cutRecords s e.fid p (if q.done = 0 then none else some f)
    let s := if q.done = 0 then modQ s p clearLane
             else countPort (modQ s p fun q =>
               { clearLane q with lane := .cut c, cut := some (c, trailerBytes f.crc f.status) }) p cStompTx 1
    dropLater (cutCopies s (e.fid, p) sent reason) e.fid
  | _ => s

/-- The bytes of a frame are still coming on port p. -/
def stillComing (s : State) (p : Nat) (e : Entry) : Bool := e.inPort.any (fun x => x.1 == p) && coming s e

/-- Data cycles of a frame that have come by now: none passes while a replay is awaited (08 R244). -/
def cyclesCome (s : State) (p : Nat) (e : Entry) : Nat :=
  (portAt s p).link.gaps.foldl (fun n g => if g.1 > e.arrival then n - (min (g.2.getD (s.now + 1)) (s.now + 1) - g.1) else n)
    (s.now + 1 - e.arrival)

/-- A copy whose input is fenced while it arrives, and which has not started, leaves cut after what was received (09 R284). -/
def cutEntry (s : State) (p : Nat) (e : Entry) : Entry :=
  if stillComing s p e then
    { e with stomp := 0x0004, frame := cutFrame (knownFrame s e) (32 * widthOf s p * cyclesCome s p e - 32) 0x0004 }
  else e

/-- A fenced input: frames still being received on it are cut with INPUT_DOWN at the outputs that carry them, and a copy that has not
started, or that is held for reordering, leaves cut (09 R284). -/
def cutInput (s : State) (p : Nat) : State :=
  let remains (i : Intake) : Bool := i.port != p || decide (i.arrival + dataCycles i.frame (widthOf s p) ≤ s.now + 1)
  let held (c : Reorder) : Reorder := { c with held := c.held.map (cutEntry s p) }
  let s := { s with intake := s.intake.filter remains, reorder := s.reorder.map held }
  (s.ports.map (·.1)).foldl (fun s o =>
    let hit := (portAt s o).q.queue.filter (stillComing s p)
    let s := if hit.isEmpty then s
             else (hit.map (cutEntry s p)).foldl (fun s e => cutRecords s e.fid o (some e.frame))
               (modQ s o fun q => { q with queue := q.queue.map (cutEntry s p) })
    match (portAt s o).q.lane with
    | .frame e _ _ => if stillComing s p e then cutLane s o 0x0004 else s
    | _ => s) s

/-! ### Kickstand detection (12 R345, R347-R349) -/

/-- A kickstand is on the port's lane. -/
def kickOnLane (q : PortQ) : Bool := match q.lane with
  | .kick _ _ _ => true
  | _ => false

/-- A kickstand is detected on a port with a CAUSE and TILL field. -/
def kickDetect (s : State) (p cause till : Nat) : State :=
  if s.boot.thermtrip then s
  else
    let k := (portAt s p).kick
    let lt := if k.latch then k.latchTick else s.tick.num
    let s := modKick s p fun k => { k with latch := true, latchAt := s.now, latchTick := lt }
    let s := setCause s (srcPg (pgOf p)) 13 p (kickJob s p) cause till
    let new : KickPend := { cause := cause, till := till, cycle := s.now, tick := s.tick.num, ofs := curOfs s, words := activeEntry s 0x38 p }
    let st := (portAt s p).link.st
    if !kickEn s p then setCause (countPort s p cKickLost 1) (srcPg (pgOf p)) 15 p (kickJob s p)
    else
      match k.pending.find? fun e => e.cycle == s.now with
      | some e =>
        if cause < e.cause || (cause == e.cause && till < e.till) then
          modKick s p fun k => { k with pending := k.pending.map fun x => if x.cycle = s.now then new else x }
        else s
      | none =>
        if k.sentTick = some s.tick.num || kickOnLane (portAt s p).q ||
            k.pending.any (fun e => e.tick == s.tick.num) then
          postEvent (countPort s p cKickAbsorbed 1) (srcPg (pgOf p)) 0x25 (kickJob s p) p cause till
        else if st = .held || st = .down || st = .quiet || st = .train then
          setCause (countPort s p cKickLost 1) (srcPg (pgOf p)) 15 p (kickJob s p)
        else modKick s p fun k => { k with pending := k.pending ++ [new] }

/-- The kickstand of a LATE till or tally: on every port of its job's mask (12 R344). -/
def kickLate (s : State) (job cause till : Nat) : State :=
  (kickMask s job).foldl (fun s p => kickDetect s p cause till) s

/-- The TEST kickstand of a write accepted in an earlier cycle is detected (12 Table 12.9). -/
def kickTest (s : State) (p : Nat) : State :=
  match (portAt s p).kick.testAt with
  | none => s
  | some c =>
    if c < s.now then kickDetect (modKick s p fun k => { k with testAt := none }) p 0xF 0 else s

/-- Pending kickstands of a port are lost: the port is HELD or DOWN (12 R347). -/
def loseKicks (s : State) (p : Nat) : State :=
  let k := (portAt s p).kick
  let s := modKick s p fun k => { k with pending := [] }
  k.pending.foldl (fun s e => setCause (countPort s p cKickLost 1) (srcPg (pgOf p)) 15 p (fld (e.words.getD 0 0) 55 48)) s

end Sys2Proof.Machine
end

