-- ==== Sys2Proof/Machine/Regs.lean ====
section
/-! DEFINITION. The set-up registers (14_set-up register map, 13 R360-R365): what each offset reads, what a write does, what
is refused and how STAT_REFUSED reports it. -/

namespace Sys2Proof.Machine

/-! ### STAT_REFUSED (14 R398, Table 14.2) -/

def rsReserved : Nat := 1
def rsLocked : Nat := 2
def rsAddress : Nat := 3
def rsSize : Nat := 4
def rsWatch : Nat := 5
def rsDebug : Nat := 6

/-- A refused field: the first fills the register, a later one sets only MULTI. -/
def refuseField (s : State) (off lsb reason : Nat) : State :=
  if bit s.refused.toNat 31 then { s with refused := s.refused ||| 0x40000000 }
  else { s with refused := BitVec.ofNat 32 (2 ^ 31 + lsb % 32 * 2 ^ 25 + reason % 32 * 2 ^ 20 + off % 2 ^ 20) }

/-! ### Status registers (12 R339-R342, 14 Table 14.9) -/

/-- The source code and register index (0 STATUS, 1 ENABLE, 2 INFO, 3 TILES_LO, 4 TILES_HI) at an offset. -/
def statusReg (off : Nat) : Option (Nat × Nat) :=
  let four (base src n : Nat) : Option (Nat × Nat) :=
    let k := (off - base) / 16
    let r := (off - base) % 16 / 4
    if off < base ∨ k ≥ n ∨ r = 3 then none else some (src + k, r)
  if off % 4 ≠ 0 then none
  else if 0x1000 ≤ off ∧ off < 0x1800 then
    let r := off % 32 / 4
    if r ≤ 4 then some ((off - 0x1000) / 32, r) else none
  else if 0xA00 ≤ off ∧ off < 0xB00 then four 0xA00 0x40 16
  else if 0x980 ≤ off ∧ off < 0x9C0 then four 0x980 0x50 4
  else if 0x940 ≤ off ∧ off < 0x950 then four 0x940 srcCoreE 1
  else if 0x930 ≤ off ∧ off < 0x940 then four 0x930 srcCoreW 1
  else if 0x920 ≤ off ∧ off < 0x930 then four 0x920 srcHost 1
  else if 0x910 ≤ off ∧ off < 0x920 then four 0x910 srcSteward 1
  else if 0x900 ≤ off ∧ off < 0x910 then four 0x900 srcPool 1
  else none

/-- The block is present on the grade (14 R396). -/
def blockPresent (s : State) (src : Nat) : Bool :=
  if src < 0x40 then src < 32 || hasEast s
  else if src < 0x50 then hasPg s (src - 0x40)
  else if src < 0x54 then hasStack s (src - 0x50)
  else if src = 0x55 then hasEast s
  else true

/-- Cause bits a block has (12 Table 12.5). -/
def causeMask (src : Nat) : Nat :=
  if src < 0x40 then 0xFF
  else if src < 0x50 then 0xFFFF
  else if src < 0x54 then 0x3F
  else if src = 0x54 then 0x3FF
  else if src = 0x55 then 0x3F
  else if src = 0x56 then 0x7F
  else if src = 0x57 then 0x1F
  else if src = 0x58 then 0x1F
  else 0

/-- A die's throttle interval is under way (01 R18). -/
def throttled (s : State) (die : Nat) : Bool := (s.boot.throttle.getD die none).isSome

/-- The unit for which a state cause holds, the lowest of several (12 Tables 12.3, 12.5). -/
def stateUnit (s : State) (src b : Nat) : Option Nat :=
  let port (p : Port → Bool) : Option Nat := (s.ports.find? fun e => e.2.conf && pgOf e.1 == src - 0x40 && p e.2).map (·.1)
  let given (c : Bool) (unit : Nat) : Option Nat := if c then some unit else none
  if src < 0x40 then if b = 3 then s.tiles.unavailable.find? fun t => t / 64 == src else none
  else if src < 0x50 then
    if b = 3 then port fun q => decide (q.lanes.length < planWidth q.plan) && q.lanes.length != 0
    else if b = 4 then port fun q => q.link.st == .held
    else if b = 5 then port fun q => q.link.st == .quarantine
    else if b = 6 then port fun q => q.link.st == .refused
    else none
  else if src < 0x54 then
    let st := s.hbm.stackOf.getD (src - 0x50) {}
    given ((b == 4 && st.failed) || (b == 5 && st.hot)) 0
  else if src = 0x54 then
    given ((b == 5 && throttled s 0) || (b == 7 && s.tick.state == 0) || (b == 9 && s.tandem.lost)) 0
  else if src = 0x55 then given (b == 5 && throttled s 1) 1
  else if src = 0x57 then
    given (b == 3 && s.ledger.unsealedAt.any fun t => decide (s.now ≥ t + 1600000000)) 0
  else given (src == 0x58 && b == 0 && !s.host.cxlUp) 0

/-- The condition of a state cause holds (12 Table 12.5). -/
def stateCause (s : State) (src b : Nat) : Bool := (stateUnit s src b).isSome

/-- A state cause is set once more: a HELD link shows its reason and place (08 R248), a degraded port its planned and its present width. -/
def setAgain (s : State) (src b : Nat) : State := match stateUnit s src b with
  | none => s
  | some u =>
    if 0x40 ≤ src ∧ src < 0x50 ∧ b = 4 then
      let l := (portAt s u).link
      postEvent (setBit s src b (u + l.heldReason * 2 ^ 9)) src b 0 u l.heldReason l.heldWhere
    else if 0x40 ≤ src ∧ src < 0x50 ∧ b = 3 then
      setCause s src b u 0 (planWidth (portAt s u).plan + (portAt s u).lanes.length * 256)
    else setCause s src b u

/-- Bits of STATUS clear, and a state cause still present sets its bit again with a new event (12 R342). -/
def clearStatus (s : State) (src : Nat) (v : W32) : State :=
  let t := statAt s src
  let hit := v &&& BitVec.ofNat 32 (causeMask src)
  let left := t.status &&& ~~~hit
  let info : W32 := if left = 0 then 0xF8000000 else t.info
  let again := (List.range 26).filter fun b => bit (t.status &&& hit).toNat b && stateCause s src b
  let s := setStat s src { t with status := left, info := info, clearing := none }
  again.foldl (fun s b => setAgain s src b) s

/-- A write of 1s to STATUS: the bits clear in the next cycle (12 R342). -/
def writeStatus (s : State) (src : Nat) (v : W32) : State :=
  let t := statAt s src
  setStat s src { t with clearing := some (s.now, ((t.clearing.map (·.2)).getD 0) ||| v) }

/-- A write of EN or VECTOR: STATUS AND EN may become non-zero by it, which raises the vector (12 R341). -/
def writeEnable (s : State) (src : Nat) (en : W32) : State :=
  let t := statAt s src
  let fire := (t.status &&& t.enable).toNat % 2 ^ 26 == 0 && (t.status &&& en).toNat % 2 ^ 26 != 0
  let s := setStat s src { t with enable := en }
  if fire then raiseVector s (bits en.toNat 31 26) else s

/-- A state cause begins: its bit is set when it was not. -/
def noteState (s : State) (src b unit : Nat) : State :=
  if bit (statAt s src).status.toNat b then s else setCause s src b unit

/-! ### STAT_KICK (12 R348, R350) -/

/-- The kickstand cause of a port is still present (12 R350): TWIN_LOST under HOLD, or a persisting state mismatch. -/
def kickPresent (s : State) (p : Nat) : Option Nat :=
  if !tandemEn s || (slotsOf s p).isEmpty then none
  else if s.tandem.lost && !tandemSolo s then some 6
  else if s.tandem.mismatch then some 5
  else none

/-- Latches of port group nn. -/
def kickBits (s : State) (nn : Nat) : W32 :=
  BitVec.ofNat 32 (sumNat ((List.range 32).map fun j => b2n (portAt s (32 * nn + j)).kick.latch * 2 ^ j))

/-- A latch clears, and a cause still present sets it again with a new event (12 R342, R350). -/
def clearKick (s : State) (p : Nat) : State :=
  let s := modKick s p fun k => { k with clearing := none }
  if !(portAt s p).kick.latch then s
  else match kickPresent s p with
    | some c => setCause (modKick s p fun k => { k with latchTick := s.tick.num, latchAt := s.now }) (srcPg (pgOf p)) 13 p (kickJob s p) c 0
    | none => modKick s p fun k => { k with latch := false }

/-- A write of 1s to STAT_KICKnn: the latches clear in the next cycle. -/
def writeLatches (s : State) (org : RegOrigin) (nn : Nat) (v : W32) : State :=
  (List.range 32).foldl (fun s j =>
    let p := 32 * nn + j
    if bit v.toNat j && (portAt s p).kick.latch then modKick s p fun k => { k with clearing := some (s.now, org) } else s) s

/-! ### Reading -/

/-- Debug halt state, with the halt reached by its cycle (14 R405). -/
def haltNow (s : State) : BitVec 2 :=
  if s.tiles.haltState = 1 ∧ s.now ≥ actionAt s.tiles.haltAt then 2 else s.tiles.haltState

/-- The armed set with the earliest commit tick, the one armed first among equals (14 R402). -/
def earliest (s : State) : Option Armed :=
  s.tables.armed.foldl (fun b a => match b with
    | none => some a
    | some x => if a.tick < x.tick then some a else some x) none

/-- TICK_STATUS (07 Table 7.3). -/
def tickStatus (s : State) : W32 :=
  BitVec.ofNat 32 (s.tick.state.toNat * 2 ^ 30 + s.tick.source.toNat * 2 ^ 27 + s.tick.sourcePort.toNat * 2 ^ 17 +
    ofInt 8 s.tick.residual * 2 ^ 9 + b2n (tickLen s == 0) * 2 ^ 8)

/-- TICK_PEND (14 Table 14.7). -/
def tickPend (s : State) : W32 :=
  match earliest s with
  | none => 0
  | some a => BitVec.ofNat 32 (2 ^ 31 + s.tables.armed.length % 8 * 2 ^ 16 + a.set.toNat)

def pendTick (s : State) : Nat := match earliest s with
  | none => 0
  | some a => a.tick.toNat

/-- GRADE_OK (14 Table 14.5). -/
def gradeOk (s : State) : Bool := s.boot.strap.toNat / 4096 == grade s % 4

def strapValue (s : State) : W32 :=
  if s.boot.sampled then BitVec.ofNat 32 (b2n (gradeOk s) * 2 ^ 31 + s.boot.strap.toNat) else 0

def strapPins (s : State) : W32 :=
  BitVec.ofNat 32 (b2n (s.boot.sampled && s.boot.pins != s.boot.strap) * 2 ^ 31 + s.boot.pins.toNat)

/-- STAT_READY: HOST follows the CXL link (14 Table 14.10). -/
def statReady (s : State) : W32 := (s.boot.ready &&& 0xBFFFFFFF) ||| (if s.host.cxlUp then 0x40000000 else 0)

def ledgerOldest (s : State) : Nat := s.ledger.seq - Config.ledgerStore

/-- The register that a latched one returns once it has been latched (14 R394). -/
def latched (s : State) (off : Nat) (cur : W32) : W32 := (ofind s.host.latch off).getD cur

def lo32 (n : Nat) : W32 := BitVec.ofNat 32 n
def hi32 (n : Nat) : W32 := BitVec.ofNat 32 (n / 2 ^ 32)

/-- Word k of the ledger head in its register form (14 R404). -/
def headWord (s : State) (k : Nat) : W32 := lo32 (leAt (digestBytes s.ledger.chain) (4 * k) 4)

/-- Half `h` (0 low, 1 high) of a 64-bit register. -/
def half (w : W64) (h : Nat) : W32 := if h = 0 then lo32 w.toNat else hi32 w.toNat

/-- A ring register. -/
def readOut (r : OutRing) (o : Nat) : W32 :=
  if o = 0 then half r.base 0 else if o = 4 then half r.base 1 else if o = 8 then r.ctl else if o = 12 then r.wi else 0

/-- A word of a tick view; lanes that are not a port's first lane read 0 (14 R401). -/
def viewWord (s : State) (off : Nat) : W32 :=
  let l := (off - 0x20000) / 512
  let o := off % 512
  if !(portAt s l).conf then 0
  else
    let g := activeEntry s 0x27 l
    if o = 256 then half (g.getD 0 0) 0
    else if o < 256 then
      let oc := g.getD (1 + 2 * (o / 16)) 0
      if o % 16 = 0 then half oc 0 else if o % 16 = 4 then half oc 1
      else if o % 16 = 8 then half (g.getD (2 + 2 * (o / 16)) 0) 0 else 0
    else 0

/-- What a register reads now, latches and the accumulator window apart (14). -/
def readReg (s : State) (off : Nat) : W32 :=
  match off with
  | 0x00 => 0x00071F3C
  | 0x04 => s.boot.fuses.stepping &&& 0xFF
  | 0x08 => s.boot.capFw
  | 0x0C => s.boot.capEndpoint
  | 0x10 => half s.boot.fuses.serial 0
  | 0x14 => latched s 0x14 (half s.boot.fuses.serial 1)
  | 0x20 => capUnits s
  | 0x24 => capTiles s
  | 0x100 => strapValue s
  | 0x104 => strapPins s
  | 0x200 => tickStatus s
  | 0x204 => s.tick.len
  | 0x208 => lo32 s.tick.num.toNat
  | 0x20C => latched s 0x20C (hi32 s.tick.num.toNat)
  | 0x210 => latched s 0x210 (lo32 (curOfs s))
  | 0x214 => s.tick.sample
  | 0x218 => latched s 0x218 (tickPend s)
  | 0x220 => lo32 (pendTick s)
  | 0x224 => latched s 0x224 (hi32 (pendTick s))
  | 0x400 => lo32 s.ledger.seq
  | 0x404 => latched s 0x404 (hi32 s.ledger.seq)
  | 0x408 => lo32 (ledgerOldest s)
  | 0x40C => latched s 0x40C (hi32 (ledgerOldest s))
  | 0x410 => lo32 s.ledger.sealSeq
  | 0x414 => latched s 0x414 (hi32 s.ledger.sealSeq)
  | 0x418 => lo32 s.ledger.sealTick.toNat
  | 0x41C => latched s 0x41C (hi32 s.ledger.sealTick.toNat)
  | 0x420 => lo32 (b2n s.ledger.mirrorEn * 2 ^ 31 + s.ledger.mirrorLog * 2 ^ 16)
  | 0x800 => statReady s
  | 0x804 => s.refused
  | 0x5080 => s.host.evroute
  | 0x80004 => lo32 ((haltNow s).toNat * 2 ^ 30 + b2n s.tiles.notHalted * 2 ^ 29 + s.tiles.haltTile.toNat)
  | off =>
    if 0x280 ≤ off ∧ off < 0x300 then
      let w := quietWin s ((off - 0x280) / 32) (off % 32 / 8)
      if !hasStack s ((off - 0x280) / 32) then 0
      else if off % 8 = 0 then lo32 w.1 else lo32 w.2
    else if 0x440 ≤ off ∧ off < 0x480 then latched s off 0
    else if 0x840 ≤ off ∧ off < 0x880 then kickBits s ((off - 0x840) / 4)
    else if 0x4000 ≤ off ∧ off < 0x4800 then
      let r := cmdRing s ((off - 0x4000) / 32)
      let o := off % 32
      if o = 0 then half r.base 0 else if o = 4 then half r.base 1 else if o = 8 then half r.ciAddr 0
      else if o = 12 then half r.ciAddr 1 else if o = 16 then r.ctl else if o = 20 then r.ci
      else if o = 24 then lo32 (b2n r.halted * 2 ^ 31) else 0
    else if 0x4800 ≤ off ∧ off < 0x5000 then readOut (cplRing s ((off - 0x4800) / 32)) (off % 32)
    else if 0x5000 ≤ off ∧ off < 0x5080 then readOut (evRing s ((off - 0x5000) / 32)) (off % 32)
    else if 0x8000 ≤ off ∧ off < 0xC000 then
      let w := watchAt s ((off - 0x8000) / 16)
      let o := off % 16
      if o = 0 then half w.addr 0 else if o = 4 then half w.addr 1 else if o = 8 then w.ctl else w.value
    else if 0x20000 ≤ off ∧ off < 0x60000 then viewWord s off
    else if 0x60000 ≤ off ∧ off < 0x64000 then
      let l := (off - 0x60000) / 32
      if !(portAt s l).conf then 0 else half (watchEntry s l (off % 32 / 8)) (off % 8 / 4)
    else
      match statusReg off with
      | none => 0
      | some (src, r) =>
        if !blockPresent s src then 0
        else
          let t := statAt s src
          if r = 0 then t.status else if r = 1 then t.enable else if r = 2 then t.info
          else if r = 3 then half t.tiles 0 else half t.tiles 1

/-- The latches a read of a _LO register sets (14 R394, R404). -/
def latchReads (s : State) (off : Nat) : State :=
  let put (l : List (Nat × W32)) : State :=
    { s with host := { s.host with latch := l.foldl (fun m e => oins m e.1 e.2) s.host.latch } }
  match off with
  | 0x10 => put [(0x14, half s.boot.fuses.serial 1)]
  | 0x208 => put [(0x20C, hi32 s.tick.num.toNat), (0x210, lo32 (curOfs s))]
  | 0x220 => put [(0x224, hi32 (pendTick s)), (0x218, tickPend s)]
  | 0x400 => put ((0x404, hi32 s.ledger.seq) :: (List.range 16).map fun k => (0x440 + 4 * k, headWord s k))
  | 0x408 => put [(0x40C, hi32 (ledgerOldest s))]
  | 0x410 => put [(0x414, hi32 s.ledger.sealSeq)]
  | 0x418 => put [(0x41C, hi32 s.ledger.sealTick.toNat)]
  | _ => s

/-! ### Writing -/

/-- A change of a register entered in the ledger (14 R395). -/
def recordReg (s : State) (org : RegOrigin) (off old new : Nat) : State :=
  recordRaw s (match org with
    | .host => oReg
    | .debugPort => oDebug) 0 0x07 off old new

/-- The low half of a 64-bit register waits for the high half (13 R362). -/
def stageLow (s : State) (off : Nat) (v : W32) : State :=
  { s with host := { s.host with lo := oins s.host.lo off v } }

/-- The value a 64-bit register takes when its high half is written. -/
def fullValue (s : State) (off : Nat) (cur : W64) (v : W32) : W64 :=
  v ++ ((ofind s.host.lo off).getD (lo32 cur.toNat))

def clearLow (s : State) (off : Nat) : State := { s with host := { s.host with lo := odel s.host.lo off } }

/-- A refused address field that begins at bit lo, reported in the half addressed: an access of 8 bytes addresses both
halves, and the field begins in the low one; a write of the high half holds the field from its bit 0 (14 Table 14.2). -/
def refuseAddr (s : State) (wide : Bool) (off lo reason : Nat) : State :=
  if wide then refuseField s off lo reason else refuseField s (off + 4) 0 reason

/-- A 64-bit address register written, its address from bit lo: locked while its ring runs, bits 63:52 must be 0 (13 R360,
R362). The new value, none when refused. -/
def addrWrite (s : State) (wide : Bool) (off : Nat) (locked : Bool) (cur : W64) (lo : Nat) (v : W32) : State × Option W64 :=
  let full := fullValue s off cur v
  let s := clearLow s off
  if locked then (refuseAddr s wide off lo rsLocked, none)
  else if fld full 63 52 != 0 then (refuseAddr s wide off lo rsAddress, none)
  else (s, some (full &&& ~~~(BitVec.ofNat 64 (2 ^ lo - 1))))

/-- A field of a CTL register: its new value, refused where it is locked or reserved. Fields run from bit hi to lo. -/
def ctlField (off : Nat) (locked : Bool) (legal : Nat → Bool) (cur v : W32) (hi lo : Nat) (a : State × Nat) :
    State × Nat :=
  let o := bits cur.toNat hi lo
  let n := bits v.toNat hi lo
  if n = o then (a.1, a.2 + o * 2 ^ lo)
  else if locked then (refuseField a.1 off lo rsLocked, a.2 + o * 2 ^ lo)
  else if !legal n then (refuseField a.1 off lo rsReserved, a.2 + o * 2 ^ lo)
  else (a.1, a.2 + n * 2 ^ lo)

def anyVal (_ : Nat) : Bool := true
def logLegal (n : Nat) : Bool := decide (6 ≤ n) && decide (n ≤ 16)

/-- RdShared of the watched line of a ring (13 R365, R367). -/
def takeLine (s : State) (kind ring : Nat) : State :=
  match s.host.watch.find? fun e => bit e.2.ctl.toNat 31 && bits e.2.ctl.toNat 30 29 == kind &&
      bits e.2.ctl.toNat 28 23 == ring with
  | none => s
  | some (k, w) => setWatch s k { w with reading := true, held := false, again := false, retries := 0 }

/-- A completion discarded from the pending queue: nothing of it is written, and only what was tied to its posting is left. -/
def unposted (c : Cpl) : Cpl := { c with entries := [], ring := none, waits := [], quiet := true }

/-- Entries pending for a completion ring that is disabled are discarded, each posting NO_CRING (13 Table 13.20). -/
def dropPending (s : State) (m : Nat) : State :=
  let gone := s.host.pending.filter fun c => c.cring == m
  let s := { s with host := { s.host with pending := s.host.pending.filter (fun c => c.cring != m),
                                          ready := gone.map unposted ++ s.host.ready } }
  gone.foldl (fun s c =>
    let q0 := (c.entries.headD []).getD 0 0
    noCring s m (fld q0 63 56) (c.ring.getD 0) (fld q0 31 0)) s

/-- A write of RING_Cn_CTL. -/
def writeCmdCtl (s : State) (org : RegOrigin) (off n : Nat) (v : W32) : State :=
  let r := cmdRing s n
  let en := ringEn r.ctl
  let a := ctlField off en logLegal r.ctl v 4 0 (s, 0)
  let a := ctlField off en anyVal r.ctl v 28 21 a
  let a := ctlField off en anyVal r.ctl v 29 29 a
  let a := ctlField off en anyVal r.ctl v 30 30 a
  let new := BitVec.ofNat 32 (a.2 + b2n (bit v.toNat 31) * 2 ^ 31)
  let s := a.1
  if new = r.ctl then s
  else
    let s := recordReg s org off r.ctl.toNat new.toNat
    if ringEn new && !en then
      takeLine (setCmdRing s n { r with ctl := new, ci := 0, pi := 0, slots := [], halted := false }) 0 n
    else if en && !ringEn new then setCmdRing s n { r with ctl := new, slots := [] }
    else setCmdRing s n { r with ctl := new }

/-- The CTL value of a completion or event ring after a write. -/
def outCtl (s : State) (off : Nat) (r : OutRing) (v : W32) : State × W32 :=
  let en := ringEn r.ctl
  let a := ctlField off en logLegal r.ctl v 4 0 (s, 0)
  let a := ctlField off en anyVal r.ctl v 15 5 a
  let a := ctlField off en anyVal r.ctl v 23 16 a
  let a := ctlField off en anyVal r.ctl v 24 24 a
  let a := ctlField off en anyVal r.ctl v 30 25 a
  (a.1, BitVec.ofNat 32 (a.2 + b2n (bit v.toNat 31) * 2 ^ 31))

/-- A completion or event ring just enabled (13 R365). -/
def freshOut (r : OutRing) (ctl : W32) : OutRing :=
  { r with ctl := ctl, wi := 0, ci := 0, since := 0, firstAt := none, lost := 0 }

def writeCplCtl (s : State) (org : RegOrigin) (off m : Nat) (v : W32) : State :=
  let r := cplRing s m
  let (s, new) := outCtl s off r v
  if new = r.ctl then s
  else
    let s := recordReg s org off r.ctl.toNat new.toNat
    if ringEn new && !ringEn r.ctl then takeLine (setCplRing s m (freshOut r new)) 1 m
    else if ringEn r.ctl && !ringEn new then dropPending (setCplRing s m { r with ctl := new }) m
    else setCplRing s m { r with ctl := new }

def writeEvCtl (s : State) (org : RegOrigin) (off e : Nat) (v : W32) : State :=
  let r := evRing s e
  let (s, new) := outCtl s off r v
  if new = r.ctl then s
  else
    let s := recordReg s org off r.ctl.toNat new.toNat
    if ringEn new && !ringEn r.ctl then takeLine (setEvRing s e (freshOut r new)) 2 e
    else setEvRing s e { r with ctl := new }

/-- The ring a watch entry names is enabled. -/
def watchRingEn (s : State) (ctl : W32) : Bool :=
  let n := bits ctl.toNat 28 23
  match bits ctl.toNat 30 29 with
  | 0 => ringEn (cmdRing s n).ctl
  | 1 => ringEn (cplRing s n).ctl
  | 2 => ringEn (evRing s n).ctl
  | _ => false

/-- An enabled entry cannot be changed while its ring runs (13 R364). -/
def watchLocked (s : State) (w : Watch) : Bool := bit w.ctl.toNat 31 && watchRingEn s w.ctl

/-- Another enabled entry names this line, or this ring index (13 R364). -/
def watchConflict (s : State) (k : Nat) (addr : W64) (ctl : W32) : Bool :=
  s.host.watch.any fun e => e.1 != k && bit e.2.ctl.toNat 31 &&
    (e.2.addr == addr || bits e.2.ctl.toNat 30 23 == bits ctl.toNat 30 23)

/-- A line is dropped with CleanEvictNoData (13 R364). -/
def dropLine (s : State) (k : Nat) : State :=
  let w := watchAt s k
  let s := setWatch s k { w with held := false, reading := false, again := false, retries := 0 }
  if w.held then { s with host := { s.host with evicted := s.host.evicted ++ [w.addr.extractLsb' 6 58] } } else s

/-- A write of WATCH_k_CTL. RING is judged by the KIND written, whether or not that KIND is taken (DESIGN CHOICE, assumption log 54: R11 and
13 R363 do not say which KIND counts). -/
def writeWatchCtl (s : State) (org : RegOrigin) (off k : Nat) (v : W32) : State :=
  let w := watchAt s k
  let locked := watchLocked s w
  let kind := bits v.toNat 30 29
  let a := ctlField off locked (fun n => kind != 2 || decide (n ≤ 3)) w.ctl v 28 23 (s, 0)
  let a := ctlField off locked (fun n => n != 3) w.ctl v 30 29 a
  let en := bit w.ctl.toNat 31
  let want := bit v.toNat 31
  let s := a.1
  let (s, now_) :=
    if want = en then (s, en)
    else if locked then (refuseField s off 31 rsLocked, en)
    else if want && watchConflict s k w.addr (BitVec.ofNat 32 a.2) then (refuseField s off 31 rsWatch, false)
    else (s, want)
  let new := BitVec.ofNat 32 (a.2 + b2n now_ * 2 ^ 31)
  -- An enabled entry may neither come to name a ring index that another names, nor a ring that its KIND does not have (R364).
  let bad := en && now_ && (watchConflict s k w.addr new || (bits new.toNat 30 29 == 2 && decide (bits new.toNat 28 23 > 3)))
  if new = w.ctl then s
  else if bad then refuseField s off 23 rsWatch
  else
    let s := setWatch (recordReg s org off w.ctl.toNat new.toNat) k { w with ctl := new }
    if en && !now_ then dropLine s k else s

/-- A write of a high half of WATCH_k_ADDR. -/
def writeWatchAddr (s : State) (org : RegOrigin) (wide : Bool) (off k : Nat) (v : W32) : State :=
  let w := watchAt s k
  let (s, r) := addrWrite s wide off (watchLocked s w) w.addr 6 v
  match r with
  | none => s
  | some a =>
    if a = w.addr then s
    else if bit w.ctl.toNat 31 && s.host.watch.any (fun e => e.1 != k && bit e.2.ctl.toNat 31 && e.2.addr == a) then
      refuseAddr s wide off 6 rsWatch
    else
      -- An enabled entry drops the line it leaves (R359); a read of it that is under way is followed by one of the new line.
      let s := if bit w.ctl.toNat 31 then dropLine s k else s
      setWatch (recordReg s org off w.addr.toNat a.toNat) k { watchAt s k with addr := a, reading := w.reading, again := w.reading }

/-- A tile's chunks of open tills are drained for a debug halt (14 R405). -/
def placesOn (s : State) (t : Till) (n tile : Nat) : Bool :=
  let cb := max 1 (wf t.words 3 31 23)
  (List.range t.chunks.length).any fun k =>
    (n * 0x9E3779B1 + k * cb * 0x85EBCA6B) % 2 ^ 32 * logicalTiles s / 2 ^ 32 == tile

/-- A write of DBG_HALT (14 Table 14.12, R405, R407). Every write to a WO register is recorded (R395). -/
def writeHalt (s : State) (org : RegOrigin) (v : W32) : State :=
  let off := 0x80000
  let s := recordReg s org off 0 v.toNat
  let op := bits v.toNat 31 30
  let tile := bits v.toNat 11 0
  if op = 1 then
    if haltNow s ≠ 0 ∨ tile ≥ logicalTiles s ∨ tileDown s tile = true then refuseField s off 0 rsDebug
    else
      let s := { s with tiles := { s.tiles with haltState := 1, haltTile := BitVec.ofNat 12 tile, haltAt := s.now } }
      let s := { s with boot := { s.boot with debugBits := s.boot.debugBits ||| 2 } }
      let tills := s.tills.map fun e =>
        if placesOn s e.2 e.1 tile then
          (e.1, { e.2 with drains := e.2.drains ++ [{ c := s.now, kind := .halt, by_ := none }] })
        else e
      { s with tills := tills }
  else if op = 2 then
    if haltNow s = 2 then { s with tiles := { s.tiles with haltState := 0, liftedAt := s.now } } else refuseField s off 30 rsDebug
  else refuseField s off 30 rsReserved

/-- A write of DBG_KICK_TEST: the kickstand is detected in the next FCLK cycle (12 R351, Table 12.9; 14 R407). -/
def writeKickTest (s : State) (org : RegOrigin) (v : W32) : State :=
  let off := 0x80010
  let p := bits v.toNat 8 0
  let s := recordReg s org off 0 v.toNat
  if (portAt s p).conf && kickEn s p then modKick s p fun k => { k with testAt := some s.now } else refuseField s off 0 rsDebug

/-- A write of the word of a command ring (13 Table 13.4). -/
def writeCmdRing (s : State) (org : RegOrigin) (wide : Bool) (off : Nat) (v : W32) : State :=
  let n := (off - 0x4000) / 32
  let r := cmdRing s n
  let o := off % 32
  if o = 0 ∨ o = 8 then stageLow s off v
  else if o = 4 then
    match addrWrite s wide (off - 4) (ringEn r.ctl) r.base 12 v with
    | (s, none) => s
    | (s, some a) => if a = r.base then s else setCmdRing (recordReg s org (off - 4) r.base.toNat a.toNat) n { r with base := a }
  else if o = 12 then
    match addrWrite s wide (off - 4) (ringEn r.ctl) r.ciAddr 3 v with
    | (s, none) => s
    | (s, some a) =>
      if a = r.ciAddr then s else setCmdRing (recordReg s org (off - 4) r.ciAddr.toNat a.toNat) n { r with ciAddr := a }
  else if o = 16 then writeCmdCtl s org off n v
  else s

/-- A write of the word of a completion ring (13 Table 13.5). -/
def writeCplRing (s : State) (org : RegOrigin) (wide : Bool) (off : Nat) (v : W32) : State :=
  let m := (off - 0x4800) / 32
  let r := cplRing s m
  let o := off % 32
  if o = 0 then stageLow s off v
  else if o = 4 then
    match addrWrite s wide (off - 4) (ringEn r.ctl) r.base 12 v with
    | (s, none) => s
    | (s, some a) => if a = r.base then s else setCplRing (recordReg s org (off - 4) r.base.toNat a.toNat) m { r with base := a }
  else if o = 8 then writeCplCtl s org off m v
  else s

/-- A write of the word of an event ring (13 Table 13.5). -/
def writeEvRing (s : State) (org : RegOrigin) (wide : Bool) (off : Nat) (v : W32) : State :=
  let e := (off - 0x5000) / 32
  let r := evRing s e
  let o := off % 32
  if o = 0 then stageLow s off v
  else if o = 4 then
    match addrWrite s wide (off - 4) (ringEn r.ctl) r.base 12 v with
    | (s, none) => s
    | (s, some a) => if a = r.base then s else setEvRing (recordReg s org (off - 4) r.base.toNat a.toNat) e { r with base := a }
  else if o = 8 then writeEvCtl s org off e v
  else s

/-- A write of the word of a watch entry (13 Table 13.6). -/
def writeWatch (s : State) (org : RegOrigin) (wide : Bool) (off : Nat) (v : W32) : State :=
  let k := (off - 0x8000) / 16
  let o := off % 16
  if o = 0 then stageLow s off v
  else if o = 4 then writeWatchAddr s org wide (off - 4) k v
  else if o = 8 then writeWatchCtl s org off k v
  else s

/-- A write of KICK_LATCH nn (14 Table 14.5). -/
def writeKicks (s : State) (org : RegOrigin) (off : Nat) (v : W32) : State :=
  let nn := (off - 0x840) / 4
  if !hasPg s nn || ((kickBits s nn &&& v) != 0 && !ledgerRoom s) then s else writeLatches s org nn v

/-- Latches of a port group written in the cycle before clear; a change is recorded (15 R426). A detection of this cycle comes after it, and
keeps its latch (12 Table 12.12). -/
def clearLatches (s : State) (nn : Nat) : State :=
  let mine := s.ports.filter fun e => pgOf e.1 == nn && e.2.kick.clearing.any fun c => decide (c.1 < s.now)
  match mine with
  | [] => s
  | (_, q) :: _ =>
    let s' := mine.foldl (fun s e => clearKick s e.1) s
    if kickBits s' nn = kickBits s nn then s'
    else recordReg s' ((q.kick.clearing.map (·.2)).getD .host) (0x840 + 4 * nn) (kickBits s nn).toNat (kickBits s' nn).toNat

/-- What writes of the cycle before clear (12 R342). -/
def clearsDue (s : State) : State :=
  let s := s.stats.foldl (fun s e => match e.2.clearing with
    | some (c, v) => if c < s.now then clearStatus s e.1 v else s
    | none => s) s
  if s.ports.any fun e => e.2.kick.clearing.isSome then (List.range 16).foldl clearLatches s else s

/-- A write of a 32-bit half (14 R395). -/
def writeHalf (s : State) (org : RegOrigin) (wide : Bool) (off : Nat) (v : W32) : State :=
  if off = 0x214 then
    if s.tick.sample = v then s
    else { recordReg s org off s.tick.sample.toNat v.toNat with tick := { s.tick with sample := v } }
  else if off = 0x804 then
    { s with refused := s.refused &&& if bit v.toNat 31 then 0x3FFFFFFF else if bit v.toNat 30 then 0xBFFFFFFF else 0xFFFFFFFF }
  else if 0x840 ≤ off ∧ off < 0x880 then writeKicks s org off v
  else if off = 0x5080 then
    let v := v &&& 0x3FFFFF
    if s.host.evroute = v then s
    else
      let s' := recordReg s org off s.host.evroute.toNat v.toNat
      { s' with host := { s'.host with evroute := v } }
  else if 0x4000 ≤ off ∧ off < 0x4800 then writeCmdRing s org wide off v
  else if 0x4800 ≤ off ∧ off < 0x5000 then writeCplRing s org wide off v
  else if 0x5000 ≤ off ∧ off < 0x5080 then writeEvRing s org wide off v
  else if 0x8000 ≤ off ∧ off < 0xC000 then writeWatch s org wide off v
  else if off = 0x80000 then writeHalt s org v
  else if off = 0x80004 then
    if bit v.toNat 29 then { s with tiles := { s.tiles with notHalted := false } } else s
  else if off = 0x80010 then writeKickTest s org v
  else
    match statusReg off with
    | none => s
    | some (src, r) =>
      if !blockPresent s src then s
      else
        let t := statAt s src
        if r = 0 then writeStatus s src v
        else if r = 1 then
          let en := (v &&& 0xFC000000) ||| (v &&& BitVec.ofNat 32 (causeMask src))
          if en = t.enable then s else writeEnable (recordReg s org off t.enable.toNat en.toNat) src en
        else if r = 3 then setStat s src { t with tiles := t.tiles &&& ~~~(v.setWidth 64) }
        else if r = 4 then setStat s src { t with tiles := t.tiles &&& ~~~(v.setWidth 64 <<< 32) }
        else s

/-- A register write of 4 or 8 bytes, naturally aligned; any other has no effect but its report (14 R393). A write that the
ledger must record waits for a place in its queue (15 R430). -/
def regWrite (s : State) (org : RegOrigin) (off size : Nat) (v : W64) : State :=
  let s' :=
    if (size ≠ 4 ∧ size ≠ 8) ∨ off % size ≠ 0 then refuseField s (off / 4 * 4) 0 rsSize
    else if size = 4 then writeHalf s org false off (lo32 v.toNat)
    else writeHalf (writeHalf s org true off (lo32 v.toNat)) org true (off + 4) (hi32 v.toNat)
  if s.boot.phase ≠ .run ∨ (s'.ledger.queue.length > s.ledger.queue.length ∧ ledgerRoom s = false) then s
  else
    match org with
    | .host => s'
    | .debugPort => { s' with boot := { s'.boot with debugBits := s'.boot.debugBits ||| 1 } }

end Sys2Proof.Machine
end

