-- ==== Sys2Proof/Machine/Host.lean ====
section
/-! DEFINITION. The host interface: NOP, snoops and doorbells, reads and writes of host memory, coalescing, and the resets of the
host interface (13). -/

namespace Sys2Proof.Machine

/-! ### Copies to host memory (13 R384) -/

/-- A command copies bytes to host memory and completes once the write has its GO. -/
def copyOut (s : State) (a : Accept) (addr : Nat) (data : List Byte) (d0 d1 : Nat := 0) : State :=
  let (id, s) := hostWrite s addr data (.copy a.ring (tagOf a.d0))
  complete s a stOk d0 d1 [id]

/-! ### NOP and reserved opcodes (13 R373, R376) -/

/-- NOP completes at acceptance; a reserved opcode is refused. -/
def execNop (ring : BitVec 6) (d : Desc) (s : State) : Res :=
  .next (if (descForm (opcodeOf d)).isSome && opcodeOf d != 0 then s
         else accept s ring d (opcodeOf d) none 0 (cringOf d.d0) fun a s => complete s a stOk)

/-! ### Snoops (13 R359, R367) -/

/-- The enabled watch entry of a line. -/
def watchOfLine (s : State) (line : BitVec 58) : Option (Nat × Watch) :=
  s.host.watch.find? fun e => bit e.2.ctl.toNat 31 && e.2.addr.extractLsb' 6 58 == line

/-- A snoop answer: 0 RspIHitI, 1 RspIHitSE, 2 RspSHitSE, in the order in which snoops came. -/
def answerSnoop (s : State) (r : BitVec 3) : State :=
  { s with host := { s.host with snoopRsp := s.host.snoopRsp ++ [r] } }

/-- A doorbell: RdShared of the line, or another read after the one outstanding (R367); a failed read is retried on 16
doorbells (R391). -/
def doorbell (s : State) (k : Nat) (w : Watch) : State :=
  if w.held then setWatch s k { w with held := false, reading := true }
  else if w.reading then setWatch s k { w with again := true }
  else if w.retries > 1 then setWatch s k { w with reading := true, retries := w.retries - 1 }
  else s

def execSnoopInvalidate (line : BitVec 58) (s : State) : Res :=
  .next (match watchOfLine s line with
    | none => answerSnoop s 0
    | some (k, w) => doorbell (answerSnoop s (if w.held then 1 else 0)) k w)

def execSnoopData (line : BitVec 58) (s : State) : Res :=
  .next (match watchOfLine s line with
    | none => answerSnoop s 0
    | some (_, w) => answerSnoop s (if w.held then 2 else 0))

/-- The index of a command ring has been read: descriptors below it are fetched, or the ring is halted (R367, R370). -/
def indexRead (s : State) (n : Nat) (index : W32) : State :=
  let r := cmdRing s n
  if !ringEn r.ctl then s
  else
    let s := setCmdRing s n { r with pi := index }
    if (index - r.ci).toNat > ringSize r.ctl then
      if r.halted then s
      else postEvent (setCmdRing s n { r with pi := index, halted := true }) srcHost 0x20 0 n index.toNat r.ci.toNat
    else fetchAhead Config.fetchAhead n s

def execWatchLineRead (k : BitVec 10) (index : W32) (s : State) : Res :=
  let w := watchAt s k.toNat
  .next (
    if !w.reading then s
    else
      let s := setWatch s k.toNat { w with value := index, reading := w.again, held := !w.again, again := false,
                                            retries := 0 }
      let ring := bits w.ctl.toNat 28 23
      match bits w.ctl.toNat 30 29 with
      | 0 => indexRead s ring index
      | 1 => if ringEn (cplRing s ring).ctl then setCplRing s ring { cplRing s ring with ci := index } else s
      | _ => if ringEn (evRing s ring).ctl then setEvRing s ring { evRing s ring with ci := index } else s)

/-! ### Reads of host memory (13 R369, R391) -/

/-- The descriptor that 64 bytes spell. -/
def descOf (l : List Byte) : Desc :=
  let w i := BitVec.ofNat 64 (leAt l (8 * i) 8)
  { d0 := w 0, d1 := w 1, d2 := w 2, d3 := w 3, d4 := w 4, d5 := w 5, d6 := w 6, d7 := w 7 }

/-- A fetched slot is settled: the read is over. -/
def settleSlot (s : State) (id n : Nat) (v : Slot) : State :=
  let s := { s with host := { s.host with reads := odel s.host.reads id } }
  let r := cmdRing s n
  setCmdRing s n { r with slots := r.slots.map fun x => if x = .reading id then v else x }

def execHostReadData (id : Nat) (data : List Byte) (s : State) : Res :=
  .next (match ofind s.host.reads id with
    | some (.fetch n _) => settleSlot s id n (.got (descOf data))
    | none => s)

/-- Its command reads host memory as it executes. -/
def readsHost (d : Desc) : Bool := !(hostSources d).isEmpty

/-- The CXL.cache requests of a host write, one for each line of 64 bytes: its first byte, the bytes, and whether it is WOWrInvF, of a full
line, or WOWrInv (13 Table 13.2). -/
def lineWrites (w : HostWrite) : List (Nat × List Byte × Bool) :=
  let first := w.addr / 64 * 64
  (List.range (ceilDiv (w.addr - first + w.data.length) 64)).map fun i =>
    let a := max w.addr (first + 64 * i)
    let b := slice w.data (a - w.addr) (min (first + 64 * (i + 1)) (w.addr + w.data.length) - a)
    (a, b, b.length == 64)

/-- The CXL.io writes that the vectors raised have brought: address and data of their table entries (13 R390). -/
def msixWrites (s : State) : List (W64 × W32) := s.host.msix.map fun v => ((sget {} s.host.msixTable v).addr, (sget {} s.host.msixTable v).data)

def execHostReadError (which : ReadFault) (s : State) : Res :=
  .next (match which with
    | .fetch id =>
      match ofind s.host.reads id with
      | some (.fetch n _) =>
        settleFailed Config.fetchAhead n (settleSlot (setCause s srcHost hbDmaRead n) id n .failed)
      | none => s
    | .object ring d =>
      if !readsHost d || !atHead s ring.toNat d then s
      else accept s ring d (opcodeOf d) none 0 (cringOf d.d0) fun a s =>
        completeAs (setCause s srcHost hbDmaRead a.ring) (opcodeOf d) (cringOf d.d0) a stHostError
    | .line k =>
      let w := watchAt s k.toNat
      if !w.reading then s
      else
        let left := if w.retries = 0 then 17 else w.retries
        -- A doorbell that came meanwhile is the first on which it is retried: none is lost (R368).
        let go := w.again && decide (left > 1)
        let s := setWatch s k.toNat { w with reading := go, held := false, again := false, retries := left - b2n go }
        setCause s srcHost hbDmaRead (bits w.ctl.toNat 28 23))

/-! ### Writes of host memory (13 R384, R391) -/

/-- A list of numbers without one. -/
def without (l : List Nat) (id : Nat) : List Nat := l.filter fun x => x != id

def cplOver (id : Nat) (c : Cpl) : Cpl := { c with waits := without c.waits id }
def irqOver (id : Nat) (i : Irq) : Irq := { i with waits := without i.waits id }

/-- A write is over: completions and interrupts no longer wait for it; an interrupt with nothing left to wait for is raised. -/
def writeOver (s : State) (id : Nat) : State :=
  let irqs : List Irq := s.host.irqs.map (irqOver id)
  let h := s.host
  let s := { s with host := { h with writes := odel h.writes id, ready := h.ready.map (cplOver id),
                                     irqs := irqs.filter fun i => !i.waits.isEmpty } }
  (irqs.filter fun i => i.waits.isEmpty).foldl (fun s i => raiseVector s i.vector) s

/-- A till no longer waits for a write of its image. -/
def saveOver (s : State) (t id : Nat) : State :=
  match tillAt s t with
  | none => s
  | some v => setTill s t { v with saveWrites := without v.saveWrites id }

def execHostWriteGo (id : Nat) (s : State) : Res :=
  .next (match ofind s.host.writes id with
    | none => s
    | some w =>
      let s := writeOver s id
      match w.kind with
      | .save t => saveOver s t id
      | .mirror seq =>
        if s.ledger.mirrorEn then (hostWrite s s.ledger.mirrorHead (leBytes 8 (seq + 1)) .mirrorHead).2 else s
      | _ => s)

/-- An entry with its status replaced by HOST_ERROR. -/
def failEntry (e : List W64) : List W64 := match e with
  | [] => []
  | q0 :: r => ((q0 &&& ~~~(0xFF000000000000 : W64)) ||| BitVec.ofNat 64 (stHostError * 2 ^ 48)) :: r

/-- The status of a completion not yet posted becomes HOST_ERROR. -/
def failCpl (c : Cpl) : Cpl :=
  { c with quiet := false, entries := match c.entries with
    | [] => []
    | e :: r => failEntry e :: r }

/-- A failed save: the image is dropped and the till stays OPEN (03 R93, 13 R391). -/
def saveFailed (s : State) (t : Nat) : State :=
  match tillAt s t with
  | none => s
  | some v =>
    let mine (w : Nat × HostWrite) : Bool := decide (w.2.kind = .save t)
    let s := { s with host := { s.host with writes := s.host.writes.filter fun w => !mine w } }
    let s := giveStaging s (tillQuota 2 v.words) v.staging
    let by_ := v.by_
    let s := setTill s t { v with st := .open, image := none, saveWrites := [], by_ := none, staging := 0, preempted := false }
    match by_ with
    | some a => complete s a stHostError
    | none => s

/-- The mirror stops (15 R433). -/
def mirrorOff (s : State) : State := { s with ledger := { s.ledger with mirrorEn := false } }

def execHostWriteError (id : Nat) (s : State) : Res :=
  .next (match ofind s.host.writes id with
    | none => s
    | some w =>
      let hit c : Cpl := if c.waits.contains id then failCpl c else c
      let s := match w.kind with
        | .copy _ _ => { s with host := { s.host with ready := s.host.ready.map hit } }
        | _ => s
      let s := writeOver s id
      match w.kind with
      | .save t => saveFailed (setCause s srcHost hbDmaWrite 0) t
      | .mirror _ => mirrorOff (setCause s srcHost hbDmaWrite 0)
      | .mirrorHead => mirrorOff (setCause s srcHost hbDmaWrite 0)
      | .completion m => setCause s srcHost hbDmaWrite m
      | .event e => setCause s srcHost hbDmaWrite e
      | .ci n => setCause s srcHost hbDmaWrite n
      | .copy n _ => setCause s srcHost hbDmaWrite n)

/-! ### Interrupt coalescing (13 R390) -/

/-- COAL_TIME has passed since the first entry after the last interrupt. -/
def coalDue (s : State) (r : OutRing) : Bool :=
  bit r.ctl.toNat 24 && bits r.ctl.toNat 15 5 != 0 && match r.firstAt with
    | none => false
    | some t => decide (s.now ≥ t + bits r.ctl.toNat 15 5 * 1024)

def execCoalesceTimerExpiry (event : Bool) (ring : BitVec 6) (s : State) : Res :=
  .next (
    let n := ring.toNat
    if event then
      if coalDue s (evRing s n) then
        let (r, s) := fireRing s (.event n) (evRing s n)
        setEvRing s n r
      else s
    else if coalDue s (cplRing s n) then
      let (r, s) := fireRing s (.completion n) (cplRing s n)
      setCplRing s n r
    else s)

/-! ### Resets of the host interface (13 R392) -/

def offBit (ctl : W32) : W32 := ctl &&& 0x7FFFFFFF

/-- A command ring, a completion or event ring and a watch entry disabled. -/
def offCmd (r : CmdRing) : CmdRing := { r with ctl := offBit r.ctl, slots := [] }
def offOut (r : OutRing) : OutRing := { r with ctl := offBit r.ctl }
def offWatch (w : Watch) : Watch :=
  { w with ctl := offBit w.ctl, held := false, reading := false, again := false, retries := 0 }

/-- Every ring and watch entry disabled, lines dropped, and nothing left under way. Completions of copies cut short become
HOST_ERROR. -/
def hostOff (s : State) : State :=
  let lines := (s.host.watch.filter fun e => e.2.held).map fun e => e.2.addr.extractLsb' 6 58
  let saving := (s.host.writes.filterMap fun e => match e.2.kind with
    | .save t => some t
    | _ => none).eraseDups
  let s := saving.foldl saveFailed s
  mirrorOff { s with host := { s.host with
    cmd := canonMap {} (s.host.cmd.map fun e => (e.1, offCmd e.2)),
    cpl := canonMap {} (s.host.cpl.map fun e => (e.1, offOut e.2)),
    ev := canonMap {} (s.host.ev.map fun e => (e.1, offOut e.2)),
    watch := canonMap {} (s.host.watch.map fun e => (e.1, offWatch e.2)),
    reads := [], writes := [], pending := [], irqs := [], msix := [], msixTable := [], pba := 0,
    ready := s.host.pending.map unposted ++
      s.host.ready.map fun c => if c.waits.isEmpty then c else { failCpl c with waits := [] },
    evicted := s.host.evicted ++ lines,
    cacheFlushed := s.host.cacheFlushed + b2n s.host.cxlUp } }

/-- A reset of the host interface, with its ledger entry: cause 0 FLR, 1 conventional, 2 link loss. -/
def hostReset (s : State) (cause : Nat) : State :=
  let gone := s.host.pending.length
  hostOff (recordRaw s oDevice srcHost 0x09 cause 0 gone)

def execFunctionLevelReset (s : State) : Res := .next (hostReset s 0)

def execConventionalReset (s : State) : Res := .next (hostReset s 1)

/-- Loss of the CXL link: no CacheFlushed can be sent, HOST follows the link, and CXL_LINK_DOWN is set (13 R392, 14 Table
14.10). -/
def execCxlLinkLoss (s : State) : Res :=
  .next (if !s.host.cxlUp then s
         else
           let s := { s with host := { s.host with cxlUp := false } }
           noteState (hostReset s 2) srcHost hbLinkDown 0)

/-- The CXL link finishes training, once the host interface is released and unless STRAP_CXL disables it (15 Tables 15.2,
15.3). -/
def execCxlLinkUp (s : State) : Res :=
  .next (if s.boot.phase != .run || decide (s.now < 1024) || bits s.boot.strap.toNat 11 10 == 2 then s
         else { s with host := { s.host with cxlUp := true } })

end Sys2Proof.Machine
end

