-- ==== Sys2Proof/Machine/Ledger.lean ====
section
/-! DEFINITION. The change ledger: the chain engine, seals, the mirror and LEDGER_READ (15 R426-R435), and the digests of
measurements (15 Table 15.9). -/

namespace Sys2Proof.Machine

def stwRefclk : Nat := 0
def stwReset : Nat := 1
def stwWatchdog : Nat := 2
def stwSealWait : Nat := 3
def stwFlash : Nat := 4

/-- The 16 bytes of "XANIEN X7 LEDGER" (15 R429). -/
def ledgerName : List Byte :=
  [0x58, 0x41, 0x4E, 0x49, 0x45, 0x4E, 0x20, 0x58, 0x37, 0x20, 0x4C, 0x45, 0x44, 0x47, 0x45, 0x52]

/-- The chain value before entry 0. -/
def chainStart (s : State) : BitVec 512 := sha512 (ledgerName ++ leBytes 8 s.boot.fuses.serial.toNat)

def kindSeal : Byte := 0x30
def kindSig : Byte := 0x31

/-- SEAL_SIG entry k: signature bytes 32k to 32k + 31 (15 Table 15.11). -/
def sealSig (s : State) (sig : BitVec 4096) (k : Nat) : Change :=
  let b := slice (beBytes 512 sig.toNat) (32 * k) 32
  { tick := s.tick.num, ofs := BitVec.ofNat 32 (curOfs s), origin := BitVec.ofNat 8 oSteward, originId := 0,
    kind := kindSig, raw := true, target := BitVec.ofNat 64 k, old := b.take 16, new := b.drop 16 }

/-- After entry n has been chained: a SEAL entry is signed and its signature entries follow at once (15 R431). -/
def sealStep (s : State) (n : Nat) : State :=
  match s.ledger.sealing with
  | none => s
  | some (sn, _, _) =>
    if n = sn then
      let sig := Config.deviceSign s.ledger.chain
      { s with ledger := { s.ledger with queue := (List.range 16).map (sealSig s sig) ++ s.ledger.queue } }
    else s

/-- The seal registers take their values in the cycle after the last SEAL_SIG entry has been written, and the seal is made (15 R431). -/
def sealCycle (s : State) : State :=
  match s.ledger.sealing with
  | none => s
  | some (sn, tk, _) =>
    if s.ledger.seq ≤ sn + 16 then s
    else
      let t := statAt s srcSteward
      let s := { s with ledger := { s.ledger with sealSeq := sn + 1, sealTick := tk, sealing := none, sealed := true,
                                                   unsealedAt := none } }
      let left := t.status &&& ~~~(BitVec.ofNat 32 (2 ^ stwSealWait))
      setStat s srcSteward { t with status := left, info := if left = 0 then 0xF8000000 else t.info }

/-- The chain engine takes one entry, at most one every 160 FCLK cycles (15 R430). -/
def execLedgerChainEntry (s : State) : Res :=
  .next (
    let due := match s.ledger.lastAt with
      | none => true
      | some t => decide (s.now ≥ t + Config.ledgerPace)
    match s.ledger.queue with
    | [] => s
    | c :: rest =>
      if !s.ledger.recording || !due then s
      else
        let n := s.ledger.seq
        let e := entryBytes n c
        let counts := c.kind != kindSeal && c.kind != kindSig
        let l := { s.ledger with
          queue := rest, seq := n + 1, lastAt := some s.now,
          chain := sha512 (digestBytes s.ledger.chain ++ e),
          store := sput [] s.ledger.store (n % Config.ledgerStore) e,
          unsealedAt := if counts then some (s.ledger.unsealedAt.getD s.now) else s.ledger.unsealedAt }
        sealStep { s with ledger := l } n)

/-- The steward begins a seal: its SEAL entry takes the next place, with TARGET = S + 1 (15 R431), and nothing goes ahead of it
any more. -/
def execSeal (s : State) : Res :=
  .next (
    let open_ := s.ledger.unsealedAt.isSome || s.ledger.queue.any fun c => c.kind != kindSeal && c.kind != kindSig
    if !s.boot.steward || s.ledger.sealing.isSome || !s.ledger.recording || !ledgerRoom s || !open_ then s
    else
      let sn := s.ledger.seq + s.ledger.queue.length
      let s := recordRaw { s with ledger := { s.ledger with recent := 0 } } oSteward 0 0x30 (sn + 1) 0 s.tick.num.toNat
      { s with ledger := { s.ledger with sealing := some (sn, s.tick.num, 0), recent := 0 } })

/-- A seal is interrupted: it leaves a SEAL entry with no signature entries (15 R431). One whose last signature entry is written is made. -/
def sealLost (s : State) : State :=
  let s := sealCycle s
  if s.ledger.sealing.isNone then s
  else { s with ledger := { s.ledger with sealing := none, queue := s.ledger.queue.filter fun c => c.kind != kindSig } }

/-- An entry left unsealed for 1 s (15 R432). -/
def execSealWait (s : State) : Res :=
  .next (if stateCause s srcSteward stwSealWait then noteState s srcSteward stwSealWait 0 else s)

/-! ### Mirror and reading (15 R433, R434) -/

/-- An entry held on die. -/
def heldEntry (s : State) (n : Nat) : List Byte := sget [] s.ledger.store (n % Config.ledgerStore)

/-- LEDGER_MIRROR. -/
def execLedgerMirror (ring : BitVec 6) (d : Desc) (s : State) : Res :=
  .next (accept s ring d 0x51 none 0 (cringOf d.d0) fun a s =>
    let en := bit d.d1.toNat 0
    let lg := fld d.d1 20 16
    if en && !logLegal lg then complete s a stRefused
    else
      let l := { s.ledger with mirrorEn := en, mirrorLog := lg, mirrorBase := d.d2.toNat, mirrorHead := d.d3.toNat,
                               mirrorNext := max (ledgerOldest s) (s.ledger.seq - 2 ^ lg) }
      complete { s with ledger := l } a stOk)

/-- The next entry is written to the host mirror; one already overwritten on die is skipped. -/
def execLedgerMirrorWrite (s : State) : Res :=
  .next (
    let n := max s.ledger.mirrorNext (ledgerOldest s)
    if !s.ledger.mirrorEn || n ≥ s.ledger.seq then s
    else
      let addr := s.ledger.mirrorBase + 64 * (n % 2 ^ s.ledger.mirrorLog)
      let s := (hostWrite s addr (heldEntry s n) (.mirror n)).2
      { s with ledger := { s.ledger with mirrorNext := n + 1 } })

/-- LEDGER_READ. -/
def execLedgerRead (ring : BitVec 6) (d : Desc) (s : State) : Res :=
  .next (accept s ring d 0x50 none 0 (cringOf d.d0) fun a s =>
    let first := fld d.d1 15 0
    let count := fld d.d1 32 16
    let old := ledgerOldest s
    let n := old + (first + Config.ledgerStore - old % Config.ledgerStore) % Config.ledgerStore
    if count = 0 ∨ count > Config.ledgerStore ∨ n ≥ s.ledger.seq then complete s a stRefused
    else
      let data := (List.range count).map fun i =>
        if n + i < s.ledger.seq then padTo 64 (heldEntry s (n + i)) else List.replicate 64 0
      copyOut s a d.d2.toNat data.flatten)

/-! ### Measurements (15 Table 15.9) -/

/-- The disabled-unit map: 64 records of 16 bytes. -/
def disabledMap (s : State) : List Byte :=
  ((List.range 64).map fun c =>
    leBytes 16 (sumNat ((List.range 66).map fun k => b2n (s.boot.fuses.disabled.contains (c, k)) * 2 ^ k))).flatten

/-- Measurement 6: CAP_STEP, CAP_UNITS, CAP_TILES. -/
def measure6 (s : State) : List Byte :=
  leBytes 4 (s.boot.fuses.stepping &&& 0xFF).toNat ++ leBytes 4 (capUnits s).toNat ++ leBytes 4 (capTiles s).toNat

/-- Content, DMTF type and raw flag of measurement k. -/
def measurement (s : State) (k : Nat) : Option (Nat × Bool × List Byte) :=
  let fw := s.boot.fw
  let dg (v : BitVec 512) := digestBytes v
  match k with
  | 1 => some (0x00, false, dg Config.bootRomDigest)
  | 2 => some (0x01, false, dg ((fw.map (·.digest)).getD 0))
  | 3 => some (0x06, true, match fw with
    | some f => leBytes 2 f.version.toNat ++ [f.compat, BitVec.ofNat 8 f.slot]
    | none => [0, 0, 0, 0])
  | 4 => some (0x07, true, leBytes 2 ((fw.map (·.svn)).getD 0) ++ leBytes 2 s.boot.fuses.svn ++
      [BitVec.ofNat 8 (b2n s.boot.fuses.revoked0), 0, 0, 0])
  | 5 => some (0x02, true, leBytes 4 (strapValue s).toNat ++ leBytes 4 (strapPins s).toNat)
  | 6 => some (0x02, true, measure6 s)
  | 7 => some (0x02, false, sha512Bytes (disabledMap s))
  | 8 => some (0x03, false, dg s.boot.eqDigest)
  | 9 => some (0x03, false, dg s.boot.planDigest)
  | 10 => some (0x04, true, leBytes 8 s.ledger.seq)
  | 11 => some (0x04, true, dg s.ledger.chain)
  | 12 => some (0x04, true, leBytes 4 s.boot.debugBits.toNat)
  | _ => none

/-- The FUSES entry's value: measurements 6 and 7 and the fuses of R420. -/
def fusesValue (s : State) : List Byte := measure6 s ++ sha512Bytes (disabledMap s) ++ Config.fuseBytes s.boot.fuses

/-- Recording begins at FCLK cycle 64: GENESIS, STRAPS and FUSES go before whatever waits, and LEDGER is set (15 Table
15.2). -/
def recordingBegins (s : State) : State :=
  let waiting := s.ledger.queue
  let s := { s with ledger := { s.ledger with queue := [], recent := 0, recording := true, chain := chainStart s } }
  let s := recordRaw s oDevice srcSteward 0x00 s.boot.fuses.serial.toNat 0 s.boot.cause.toNat
  let s := recordRaw { s with ledger := { s.ledger with recent := 0 } } oStrap 0 0x01 0 0 (strapValue s).toNat
  let s := record { s with ledger := { s.ledger with recent := 0 } } oDevice srcSteward 0x02 false 0 [] (sha512Bytes (fusesValue s))
  { s with ledger := { s.ledger with queue := s.ledger.queue ++ waiting, recent := 0 },
           boot := { s.boot with ready := s.boot.ready ||| 0x20000000 } }

end Sys2Proof.Machine
end

