-- ==== Sys2Proof/Machine/Links.lean ====
section
/-! DEFINITION. Lanes and links: what a port sends (lane headers and passbook), block lock, replay, link-up, the passbook
comparison, ports going down and narrowing (08 R223-R251). -/

namespace Sys2Proof.Machine

/-! ### What a port sends (08 R227, R228) -/

/-- WIDTH code of a number of lanes. -/
def widthCode (n : Nat) : Nat := if n ≥ 8 then 3 else if n ≥ 4 then 2 else if n ≥ 2 then 1 else 0

/-- LSTATE of a link (08 Tables 8.3, 8.7). -/
def lstate (l : Link) : Nat :=
  if l.degrading then 7
  else match l.st with
    | .train => 0
    | .identify => 1
    | .measure => 2
    | .check => 2
    | .up => 3
    | .refused => 4
    | .quarantine => 5
    | .held => 6
    | .quiet => 0
    | .down => 0

/-- Lanes a port may use: those of its planned width. -/
def planLanes (p : Nat) (w : W64) : List Nat := (List.range (planWidth w)).map fun j => p + j

/-- LANE_EN: the equalisation table in use has a good entry for the lane (08 R233). -/
def laneEn (s : State) (l : Nat) : Bool := (ofind s.boot.eq l).isSome

/-- LANE_IN_PORT of the neighbour's lane that a lane of a port receives: as its rotations show, else its own index. -/
def nbrLane (s : State) (p l : Nat) : Nat := ((laneAt s l).nbrIndex).getD ((portAt s p).lanes.idxOf l)

/-- GOOD_MASK: the neighbour's lanes, by LANE_IN_PORT, with block lock and no lasting fault (08 Table 8.3). -/
def goodMask (s : State) (p : Nat) : Nat :=
  sumNat ((List.range 8).map fun j =>
    b2n ((portAt s p).lanes.any fun l => nbrLane s p l == j && (laneAt s l).lock && !(laneAt s l).bad) * 2 ^ j)

/-- LANE_EN, TX_INV and RX_INV of a lane's equalisation entry (08 Table 8.5). -/
def eqBit (s : State) (l i : Nat) : Bool := match ofind s.boot.eq l with
  | some w => bit (w.getD 0 0).toNat i
  | none => false
def txInv (s : State) (l : Nat) : Bool := eqBit s l 62
def rxInv (s : State) (l : Nat) : Bool := eqBit s l 61

/-- ECHO_BSN and ECHO_OFS of a block that begins at lane symbol t: the last block whose first bit arrived at least 280 lane symbols before
(08 R238). Blocks follow each other 1,400 symbols apart with consecutive numbers (R223, R227), so it is counted from the last one
received. -/
def echoOf (l : Link) (t : Nat) : Nat :=
  match l.lastIn with
  | none => 0
  | some (b, a) =>
    let k : Int := ((t : Int) - 280 - a) / 1400
    let ofs := ((t : Int) - a - 1400 * k).toNat
    ofInt 12 ((b.toNat : Int) + k) * 2048 + ofs % 2048

/-- The tick number that contains an FCLK cycle. -/
def tickAt (s : State) (x : Int) : Nat :=
  let len := tickLen s
  if len = 0 ∨ s.tick.running = false then s.tick.num.toNat
  else (((s.tick.num.toNat : Int) + (x - s.tick.start) / len) % (2 ^ 48 : Int)).toNat

/-- The passbook record of lane j of port p as its values are now, PB_CHK apart (08 Table 8.3). -/
def passbook (s : State) (p j : Nat) : List Byte :=
  let q := portAt s p
  let lane := nth q.lanes j
  [BitVec.ofNat 8 (bits s.boot.capFw.toNat 23 16),
   BitVec.ofNat 8 (128 + widthCode q.lanes.length * 32 + j * 4)] ++
  beBytes 2 (lane * 128 + bits s.boot.strap.toNat 2 0 * 16) ++
  beBytes 2 (id16 ((ownEndpoint s).getD 0).toNat) ++
  beBytes 2 s.tables.routeGen.toNat ++ beBytes 2 s.tables.rmapGen.toNat ++
  beBytes 4 (tickLen s) ++ beBytes 4 (tickAt s s.now / 65536) ++ beBytes 2 q.link.delay ++
  [BitVec.ofNat 8 (ofInt 8 s.tick.residual), BitVec.ofNat 8 (lstate q.link * 32)] ++
  beBytes 3 (echoOf q.link (140 * s.now) * 2) ++ [BitVec.ofNat 8 (goodMask s p)] ++
  (match earliest s with
    | none => List.replicate 11 0
    | some a => [128] ++ beBytes 2 a.routeGen.toNat ++ beBytes 2 a.rmapGen.toNat ++ beBytes 6 a.tick.toNat) ++
  ((List.range 8).map fun c => BitVec.ofNat 8 (creditUnits s p c)) ++ List.replicate 17 0

/-- First slots and lengths of the passbook's fields (08 Table 8.3), ECHO_BSN with ECHO_OFS. -/
def bookFields : List (Nat × Nat) :=
  [(0, 1), (1, 1), (2, 2), (4, 2), (6, 2), (8, 2), (10, 4), (14, 4), (18, 2), (20, 1), (21, 1), (22, 3), (25, 1), (26, 1), (27, 2),
   (29, 2), (31, 6), (37, 1), (38, 1), (39, 1), (40, 1), (41, 1), (42, 1), (43, 1), (44, 1), (45, 17)]

/-- The bytes taken for the record being sent, when the block of a slot begins: the value of a field whose first slot it is, PB_CHK over
what was sent, or what was taken before (08 R228). -/
def takeBook (s : State) (p j slot : Nat) (book : List Byte) : List Byte :=
  let kept := padTo slot book
  if slot = 62 then kept ++ beBytes 2 (pbCrc kept)
  else match bookFields.find? fun f => f.1 == slot with
    | some f => kept ++ slice (passbook s p j) slot f.2
    | none => book

/-- A lane header with its HCHK (08 R227). -/
def withHchk (h : Nat) : BitVec 80 := BitVec.ofNat 80 (h / 1024 * 1024 + hchk h)

/-- The header of the new block that lane j of port p begins now, with block number `bsn` (08 Table 8.2): HOLD is set as its data cycles
pass. -/
def laneHeader (s : State) (p j : Nat) (bsn : BitVec 12) : BitVec 80 :=
  let q := portAt s p
  let pb := ((laneAt s (nth q.lanes j)).book.getD (bsn.toNat % 64) 0).toNat
  withHchk (0xB4 * 2 ^ 72 + bsn.toNat * 2 ^ 60 + tickAt s s.now % 2 ^ 16 * 2 ^ 44 + s.tick.state.toNat * 2 ^ 42 +
    q.link.ack.toNat * 2 ^ 30 + b2n q.link.waiting * 2 ^ 29 + pb * 2 ^ 11)

/-- A stored header sent again: RPL is 1; ACK, NAK and HCHK are current (08 R240). -/
def copyHeader (l : Link) (h : BitVec 80) : BitVec 80 :=
  let keep := h.toNat / 2 ^ 42 * 2 ^ 42 + bits h.toNat 28 11 * 2 ^ 11
  withHchk (keep + l.ack.toNat * 2 ^ 30 + b2n l.waiting * 2 ^ 29 + 2 ^ 10)

/-- A header with the HOLD bits of its data cycles (08 Table 8.2): bit 28 − k for data cycle k. -/
def holdHeader (h : BitVec 80) (cycles : List (List Byte × Bool)) : BitVec 80 :=
  let held := sumNat ((List.range 10).map fun k => b2n (cycles.getD k ([], false)).2 * 2 ^ (28 - k))
  withHchk (Nat.lor h.toNat held)

/-- A link in this state sends blocks. -/
def sends (st : LinkSt) : Bool := match st with
  | .down => false
  | .quiet => false
  | _ => true

/-! ### Ports going down and narrowing (08 R246, R247) -/

/-- A link with nothing learnt, entering QUIET. -/
def quietLink (l : Link) (now attempts : Nat) (st : LinkSt) : Link :=
  { st := st, since := now, attempts := attempts, txBsn := l.txBsn, nbr := l.nbr, sentAt := l.sentAt }

/-- The receivers of some lanes start again. -/
def freshLanes (s : State) (ls : List Nat) : State :=
  ls.foldl (fun s l => setLane s l { txScr := (laneAt s l).txScr, book := (laneAt s l).book, sent := (laneAt s l).sent,
                                     wire := (laneAt s l).wire }) s

/-- The lanes are electrically idle. -/
def silence (s : State) (ls : List Nat) : State :=
  ls.foldl (fun s l => setLane s l { laneAt s l with sent := 0, wire := 0 }) s

/-- The rotations of some lanes are counted anew, as IDENTIFY begins. -/
def countAnew (s : State) (ls : List Nat) : State :=
  ls.foldl (fun s l => setLane s l { laneAt s l with goodRots := 0, slots := [], rotation := [], ready := false }) s

/-- A port enters QUIET (or DOWN) with its lanes idle, and with those it has kept: it never widens by itself (R247). -/
def toQuiet (s : State) (p attempts : Nat) (st : LinkSt) : State :=
  let ls := planLanes p (portAt s p).plan
  let s := silence (freshLanes s ls) ls
  modPort s p fun q => { q with link := quietLink q.link s.now attempts st }

/-- LINK_DOWN and LINK_UP bring a port back to the lanes of its plan (R247). -/
def widen (s : State) (p : Nat) : State := modPort s p fun q => { q with lanes := planLanes p q.plan }

/-- Queues and lanes of a port that is fenced for going DOWN (09 R283, R284; 12 R347): a kickstand on the lane, or waiting, is lost. -/
def fenceDown (s : State) (p : Nat) : State :=
  let s := if kickOnLane (portAt s p).q then
      setCause (countPort s p cKickLost 1) (srcPg (pgOf p)) 15 p (((portAt s p).kick.sending.map fun k => fld (k.words.getD 0 0) 55 48).getD 0)
    else s
  let s := loseKicks (cutInput (loseLane (flushQueue s p) p) p) p
  modQ s p fun q => { q with credit := List.replicate 8 0, coming := List.replicate 8 0, owed := List.replicate 8 0, awaitCred := List.replicate 8 none }

/-- A port goes DOWN, and link-up starts again at QUIET. -/
def portDown (s : State) (p : Nat) : State := toQuiet (fenceDown s p) p 0 .quiet

/-- The sub-port of R247: the widest aligned group of indices, narrower than now, good at both ends; the lowest of equals. -/
def subPort (w mask : Nat) : Option (Nat × Nat) :=
  [4, 2, 1].findSome? fun v =>
    if v < w then
      (firstIdx (w / v) fun g => (List.range v).all fun i => bit mask (g * v + i)).map fun g => (g * v, v)
    else none

/-- The neighbour's byte at a slot of its last good rotation. -/
def nbrByte (l : Link) (i : Nat) : Nat := (l.nbr.getD i 0).toNat
/-- A number in slots a to b of the neighbour's last good rotation. -/
def nbrNum (l : Link) (a n : Nat) : Nat := beNat (slice l.nbr a n)

/-- A block under way goes on over v lanes, from index `base` on (08 R223). -/
def keepLanes (base v : Nat) (l : Link) : Link :=
  let part {α : Type} (x : List α) : List α := (x.drop base).take v
  { l with block := l.block.map fun b => { b with heads := part b.heads, data := part b.data },
           cycles := l.cycles.map fun c => (slice c.1 (32 * base) (32 * v), c.2) }

/-- A port narrows: event, count, ledger entry, and IDENTIFY on the chosen lanes. -/
def narrow (s : State) (p base v : Nat) (st : LinkSt) : State :=
  let q := portAt s p
  let old := q.lanes.length
  let s := countPort s p cDegrade 1
  let s := setCause s (srcPg (pgOf p)) 3 p 0 (old + v * 256)
  let s := recordRaw s oDevice (srcPg (pgOf p)) 0x16 p old v
  let ls := (q.lanes.drop base).take v
  let s := silence (countAnew s ls) (q.lanes.filter fun l => !ls.contains l)
  modPort s p fun q => { q with lanes := ls, link := { keepLanes base v q.link with st := st, since := s.now, echoes := [], measureTries := 0 } }

/-- A kickstand on the lane of a degrading port goes out again on the remaining lanes (08 Table 8.12). -/
def keepKick (s : State) (p : Nat) : State :=
  match (portAt s p).q.lane, (portAt s p).kick.sending with
  | .kick _ _ _, some k =>
    modKick s p fun x => { x with pending := k :: x.pending, sending := none, sentTick := none, seq := x.seq - 1 }
  | _, _ => s

/-- Loss of block lock or a lasting lane fault on a port in UP, REFUSED or QUARANTINE (08 R246). -/
def portLoss (s : State) (p : Nat) : State :=
  let q := portAt s p
  let mask := Nat.land (goodMask s p) (nbrByte q.link 25)
  match (if planDegrade q.plan && !q.link.degrading then subPort q.lanes.length mask else none) with
  | none => portDown s p
  | some (base, v) =>
    let s := narrow (cutInput (loseLane (keepKick s p) p) p) p base v .identify
    modLink s p fun l => { l with degrading := true, fencedAt := some s.now, started := false, waiting := false, failed := false,
                                  unread := [], copies := none, replay := [], resend := [], nakSeen := false, nbrUp := false, heard := false,
                                  gaps := [], rx := .idle, due := [] }

/-- Link states in which frames may pass. -/
def carrying (st : LinkSt) : Bool := match st with
  | .up => true
  | .refused => true
  | .quarantine => true
  | _ => false

/-- Block lock is lost on a lane of a port (08 R230, R246). A HELD link starts over. -/
def lockLost (s : State) (p : Nat) : State :=
  let s := setCause (countPort s p cLockLoss 1) (srcPg (pgOf p)) 2 p
  let st := (portAt s p).link.st
  if carrying st then portLoss s p else if st = .held then portDown s p else s

/-! ### Receiving lane blocks (08 R227, R230, R240-R243) -/

/-- First bits of every pair of an 80-bit header: what inverted polarity inverts (08 R227 design note). -/
def pairMask : BitVec 80 := 0xAAAAAAAAAAAAAAAAAAAA

/-- A header as received, set right: none when it fails; and whether its polarity was inverted. -/
def readHeader (h : BitVec 80) : Option (BitVec 80 × Bool) :=
  let good (x : BitVec 80) : Bool := x.extractLsb' 72 8 == 0xB4#8
  match fixHeader h with
  | some x => if good x then some (x, false) else (fixHeader (h ^^^ pairMask)).bind fun y => if good y then some (y, true) else none
  | none => (fixHeader (h ^^^ pairMask)).bind fun y => if good y then some (y, true) else none

def hBsn (h : BitVec 80) : BitVec 12 := h.extractLsb' 60 12
def hTick (h : BitVec 80) : BitVec 16 := h.extractLsb' 44 16
def hTstate (h : BitVec 80) : BitVec 2 := h.extractLsb' 42 2
def hAck (h : BitVec 80) : BitVec 12 := h.extractLsb' 30 12
def hNak (h : BitVec 80) : Bool := h.getLsbD 29
def hPb (h : BitVec 80) : Byte := h.extractLsb' 11 8
def hRpl (h : BitVec 80) : Bool := h.getLsbD 10

/-- Within 3 cycles of x some cycle lies in a tick with this number, by its low n bits (08 Table 8.10). -/
def tickNear (s : State) (x : Int) (shift n v : Nat) : Bool :=
  (List.range 7).any fun i => tickAt s (x - 3 + i) / 2 ^ shift % 2 ^ n == v

/-- One lane's header passes or fails (08 R230), for a block that arrived at a lane symbol: its state, and whether block lock is lost now. A
header that passes counts after the one before only 2,800 bits, which are 1,400 symbols, behind it. -/
def laneHeaderSeen (l : Lane) (h : Option (BitVec 80 × Bool)) (arrival : Nat) : Lane × Bool :=
  let next := l.at_.any fun a => a + 1400 == arrival
  let l := { l with at_ := some arrival }
  match h with
  | some (_, inv) =>
    let run := if next then min 8 (l.goodRun + 1) else 1
    ({ l with goodRun := run, badRun := 0, lock := l.lock || run == 8, inverted := inv }, false)
  | none =>
    let run := min 32 (l.badRun + 1)
    ({ l with goodRun := 0, badRun := run, lock := l.lock && run < 32 }, l.lock && run == 32)

/-- A block as its lane reads it: RX_INV and the scrambler undone. None before the lane has the scrambler state (08 R225). -/
def clearBlock (s : State) (b : LaneBlock) : Option (BitVec 2800) :=
  (laneAt s b.lane).rxScr.map fun st => scramble st (if rxInv s b.lane then flipPairs b.raw else b.raw)

/-- The header of a block, set right, and whether its lane is inverted; none when its syndrome or its MARK fails (08 R227). -/
def blockHeader (s : State) (b : LaneBlock) : Option (BitVec 80 × Bool) :=
  (clearBlock s b).bind fun x => readHeader (x.extractLsb' 2720 80)

/-- The codeword of a block, as its lane's polarity gives it, and what it decodes to (08 R224). -/
def blockWord (s : State) (b : LaneBlock) (inv : Bool) : List Nat :=
  match clearBlock s b with
  | some x => rsSymbols ((if inv then flipPairs x else x).toNat % 2 ^ 2720)
  | none => []

/-- A block of a lane passes: its header, when its codeword decodes too. -/
def blockGood (s : State) (b : LaneBlock) : Option (BitVec 80) :=
  match blockHeader s b with
  | some (h, inv) => (rsDecode (blockWord s b inv) b.decoded).map fun _ => h
  | none => none

/-- The data bytes of a block that passes. -/
def rxBytes (s : State) (b : LaneBlock) : List Byte :=
  match blockHeader s b with
  | some (_, inv) => ((rsDecode (blockWord s b inv) b.decoded).map rsData).getD []
  | none => []

/-- Lock handling of one block whose header passed or failed: the lane's scrambler runs on, or is taken anew in TRAIN; the event of an
inverted polarity; and whether the lane lost lock (08 R225, R230). -/
def blockLock (s : State) (st : LinkSt) (b : LaneBlock) (skew : Nat) (h : Option (BitVec 80 × Bool)) : State × Bool :=
  let l := laneAt s b.lane
  let (l', lost) := laneHeaderSeen l h b.arrival
  let raw := if rxInv s b.lane then flipPairs b.raw else b.raw
  let scr := if st = .train ∧ l'.lock = false ∧ h = none then takeScr raw else l.rxScr.map fun x => (scrBlock x).2
  let s := setLane s b.lane { l' with rxScr := scr, skew := skew }
  (if l'.inverted && !l.inverted then postEvent s (srcPg (pgOf b.lane)) 0x21 0 b.lane 0 0 else s, lost)

/-! #### The data cycles of a block (08 R226) -/

/-- One data cycle of a port of w lanes: where the reading stands after it, and whether its HOLD bit marks a cycle that no frame
occupies (08 R227). A new frame may begin after a frame, an idle cycle or a credit cycle, which VER = 0 tells from a frame (R226). -/
def rxStep (w : Nat) (pos : RxPos) (hold : Bool) (bs : List Byte) : RxPos × Bool :=
  let zero := bs.all (· == 0)
  match pos with
  | .inside n => if hold then (if zero then .inside n else .idle, false) else (if n ≤ 1 then .idle else .inside (n - 1), false)
  | .lost => (if zero && !hold then .idle else .lost, false)
  | .idle =>
    if hold then (.idle, true)
    else
      let h := headerOf (BitVec.ofNat 256 (beNat (bs.take 32)))
      let n := ceilDiv (40 + 32 * h.len.toNat) (32 * w)
      (if h.ver = 0 then .idle
       else if h.hcrc ≠ hcrcOf (headerBits { h with hcrc := 0 }) || malformed h then .lost
       else if n ≤ 1 then .idle else .inside (n - 1), false)

/-- The ten data cycles of a block time, given each lane's data in LANE_IN_PORT order. -/
def rxBlock (pos : RxPos) (holds : Nat) (lanes : List (List Byte)) : RxPos × Bool :=
  (List.range 10).foldl (fun (a : RxPos × Bool) k =>
    let r := rxStep (max 1 lanes.length) a.1 (bit holds (9 - k)) ((lanes.map fun d => slice d (32 * k) 32).flatten)
    (r.1, a.2 || r.2)) (pos, false)

/-- A data cycle carries a frame or a credit cycle: its first byte, VER = 0 apart, is 0x0C, or VER is not 0 (08 R226). -/
def speaks (bs : List Byte) : Bool :=
  (headerOf (BitVec.ofNat 256 (beNat (bs.take 32)))).ver != 0 || (bs.getD 0 0) == 0x0C

/-- Blocks in the order of the neighbour's lanes. -/
def inNbrOrder (s : State) (p : Nat) (bs : List LaneBlock) : List LaneBlock :=
  (List.range 8).filterMap fun j => bs.find? fun b => nbrLane s p b.lane == j

/-! #### Acceptance (08 R240, R249) -/

/-- A passbook byte of an accepted block joins its lane's rotation; a complete one waits to be compared, and counts when its PB_CHK is
good. -/
def passSlot (l : Lane) (h : BitVec 80) : Lane :=
  let k := (hBsn h).toNat % 64
  let slots := if k = 0 then [hPb h] else if l.slots.length = k then l.slots ++ [hPb h] else []
  if slots.length = 64 then
    let good := pbCrc (slots.take 62) == beNat (slots.drop 62)
    { l with slots := [], rotation := if good then slots else l.rotation, bookOk := good, ready := true,
             goodRots := l.goodRots + b2n good, nbrIndex := if good then some (bits (slots.getD 1 0).toNat 4 2) else l.nbrIndex }
  else { l with slots := slots }

/-- When the first bit of a block was first sent towards the X7: its arrival, or for a replayed copy what the last new block's arrival
makes of it (08 R223). -/
def firstArrival (l : Link) (h : BitVec 80) (arrival : Nat) : Nat :=
  match l.lastNew with
  | some (b, a) => if hRpl h then ((a : Int) + 1400 * toInt 12 ((hBsn h).toNat + 4096 - b.toNat)).toNat else arrival
  | none => arrival

/-- What is decoded takes effect in the next cycle (08 R249). -/
def addDue (l : Link) (now : Nat) (v : Verdict) : Link := { l with due := l.due ++ [(now, v)] }

/-- A replay that the receiver awaited has brought its block: when it arrived (08 R244). -/
def closeGap (at_ : Nat) (g : Nat × Option Nat) : Nat × Option Nat := if g.2.isNone then (g.1, some at_) else g

/-- The blocks of one block time pass (08 R240, R249); `arrival` is that of the first of them, and `whole` says that every active lane's does,
so that the block is accepted. -/
def acceptBlocks (s : State) (p arrival : Nat) (whole : Bool) (hs : List (Nat × BitVec 80)) : State :=
  match hs with
  | [] => s
  | (_, h) :: _ =>
    let s := hs.foldl (fun s e => setLane s e.1 (passSlot (laneAt s e.1) e.2)) s
    let l := (portAt s p).link
    let s := if l.failed then setCause (countPort s p cReplayOk 1) (srcPg (pgOf p)) 0 p else s
    let at0 := firstArrival l h arrival
    let slot := (hBsn h).toNat % 64
    let judged := l.st == .check || carrying l.st
    let wrong := judged && !hRpl h && tickLen s != 0 && nbrNum l 10 4 != 0 &&
      !tickNear s ((arrival / 140 : Nat) - (l.delay : Int)) 0 16 (hTick h).toNat
    let worse := wrong || (judged && !hRpl h && hTstate h == 0)
    modLink s p fun l =>
      let l := { l with ack := if whole then hBsn h else l.ack, waiting := false, failed := false, unread := [], nbrTstate := hTstate h,
                        copies := if l.copies = some (hBsn h) then none else l.copies,
                        gaps := (l.gaps.map (closeGap (arrival / 140))).filter fun g => g.2.all fun t => decide (s.now < t + 16384),
                        tickWrong := l.tickWrong || wrong,
                        nbrAt := if slot = 0 then at0 / 140 else l.nbrAt, nbrTick := if slot = 0 then hTick h else l.nbrTick,
                        at22 := if slot = 22 then at0 else l.at22,
                        lastIn := some (hBsn h, arrival), lastNew := if hRpl h then l.lastNew else some (hBsn h, arrival) }
      if worse && l.st == .up then addDue l s.now (.state 1) else l

/-- Blocks covered by an ACK leave the replay buffer. -/
def ackUpTo (replay : List TxBlock) (ack : BitVec 12) : List TxBlock :=
  if replay.any (·.bsn == ack) then (replay.dropWhile (·.bsn != ack)).drop 1 else replay

/-- A lasting fault: the lanes that failed in the replayed copy are bad (08 R242). -/
def lasting (s : State) (p : Nat) (bad : List Nat) : State :=
  let s := bad.foldl (fun s l => setLane s l { laneAt s l with bad := true }) s
  let s := setCause (countPort s p cReplayFail 1) (srcPg (pgOf p)) 1 p
  if carrying (portAt s p).link.st then portLoss s p else s

/-- A wait begins for the block after `ack` (08 R240): the bytes of its frames stop coming where it should have begun to arrive (R244), and
the neighbour will resend all up to the block that shows it, number b where it can be read. -/
def beginWait (l : Link) (failed : Bool) (b : Option (BitVec 12)) : Link :=
  { l with waiting := true, failed := failed, unread := [], copies := some (b.getD (l.ack + 1)),
           gaps := l.gaps ++ [((l.lastIn.map fun x => x.2 / 140 + 10).getD 0, none)] }

/-- A block that comes while a wait lasts, before the replay: the neighbour will resend it too. -/
def oneMore (l : Link) (b : Option (BitVec 12)) : Link :=
  { l with copies := l.copies.map fun c => b.getD (c + 1) }

/-- The sequence rules of R240 and R242 for one block time on a running link: `heads` are the headers read, `good` those of the lanes
whose block passes, `bad` the other lanes. A replayed copy that fails is known by its header, by the copies that follow it, or by being due
as one. -/
def sequence (s : State) (p arrival : Nat) (pos : RxPos) (heads good : List (Nat × BitVec 80)) (bad : List Nat) : State :=
  let l := (portAt s p).link
  let bsn := good.map fun e => hBsn e.2
  let next := l.ack + 1
  let whole := bad.isEmpty && bsn.all fun b => b == next
  let shown := (heads.map fun e => hBsn e.2).head?
  if whole && !good.isEmpty then modLink (acceptBlocks s p arrival true good) p fun l => { l with rx := pos }
  else if !bad.isEmpty && !l.waiting && l.copies.isSome then lasting s p bad
  else if !bad.isEmpty && heads.any (fun e => hRpl e.2) && (!l.waiting || heads.any fun e => hBsn e.2 == next) then lasting s p bad
  else if l.waiting then
    if heads.any (fun e => hRpl e.2) && !l.unread.isEmpty then lasting s p l.unread
    else
      let copy := heads.any fun e => hRpl e.2
      modLink s p fun l => { (if copy then l else oneMore l shown) with unread := if heads.isEmpty then bad else [] }
  else modLink s p fun l => beginWait l (!bad.isEmpty) shown

/-- The lanes of a port that bring no block in a block time: their scramblers run on, and a run of good headers begins anew (R230). -/
def missedLanes (s : State) (ls : List Nat) : State :=
  ls.foldl (fun s l => setLane s l { laneAt s l with rxScr := (laneAt s l).rxScr.map fun x => (scrBlock x).2, goodRun := 0, at_ := none }) s

/-- One block time of a port: the blocks of its lanes, each with its lane. -/
def execLaneBlockReceive (port : BitVec 9) (blocks : List LaneBlock) (s : State) : Res :=
  .next (
    let p := port.toNat
    let q := portAt s p
    if !q.conf || !sends q.link.st then s
    else
      let bs := blocks.filter fun b => (planLanes p q.plan).contains b.lane
      let act := bs.filter fun b => q.lanes.contains b.lane
      let first := (act.map (·.arrival)).foldl min ((act.head?.map (·.arrival)).getD 0)
      let good := act.filterMap fun b => (blockGood s b).map fun h => (b.lane, h)
      -- The data cycles are read in order: HOLD bits that mark one no frame occupies fail their header (R227).
      let next := good.length == q.lanes.length && good.all fun e => hBsn e.2 == q.link.ack + 1
      let data := if next then (inNbrOrder s p act).map (rxBytes s) else []
      let reads (h : BitVec 80) : RxPos × Bool := if next then rxBlock q.link.rx (bits h.toNat 28 19) data else (q.link.rx, false)
      let odd := (good.filter fun e => (reads e.2).2).map (·.1)
      let pos := ((good.head?.map fun e => reads e.2).getD (q.link.rx, false)).1
      let good := good.filter fun e => !odd.contains e.1
      let head (b : LaneBlock) : Option (BitVec 80 × Bool) := if odd.contains b.lane then none else blockHeader s b
      let heard := next && (List.range 10).any fun k => speaks (data.map fun d => slice d (32 * k) 32).flatten
      let heads := act.filterMap fun b => (head b).map fun h => (b.lane, h.1)
      let failing := q.lanes.filter fun l => !(good.map (·.1)).contains l
      let fixed := act.filter fun b => match blockHeader s b with
        | some (_, inv) => !rsValid (blockWord s b inv) && (rsDecode (blockWord s b inv) b.decoded).isSome
        | none => false
      let s' := s
      let (s, lost) := bs.foldl (fun (a : State × Bool) b =>
        let (s, l) := blockLock a.1 q.link.st b (b.arrival - first) (if act.contains b then head b else blockHeader s' b)
        (s, a.2 || (l && q.lanes.contains b.lane))) (s, false)
      let s := missedLanes s ((planLanes p q.plan).filter fun l => !(bs.map (·.lane)).contains l)
      let s := if fixed.isEmpty then s else countPort s p cFecCorrected fixed.length
      if lost then lockLost s p
      else if act.isEmpty then s
      else
        let s := match heads with
          | [] => s
          | (_, h) :: _ => modLink s p fun l =>
              { l with replay := ackUpTo l.replay (hAck h), nakSeen := l.nakSeen && hNak h }
        if q.link.started || q.link.heard || heard then
          sequence (modLink s p fun l => { l with heard := true }) p first pos heads good failing
        else
          let s := acceptBlocks s p first failing.isEmpty good
          if failing.isEmpty then modLink s p fun l => { l with rx := pos } else s)

/-- A header with NAK = 1 after one with NAK = 0: every stored block from ACK + 1 is sent again (08 R240). -/
def execNakReceive (port : BitVec 9) (header : BitVec 80) (s : State) : Res :=
  .next (
    let p := port.toNat
    match readHeader header with
    | none => s
    | some (h, _) =>
      let l := (portAt s p).link
      if !(portAt s p).conf || !l.started || !hNak h then s
      else
        let left := ackUpTo l.replay (hAck h)
        modLink s p fun l =>
          { l with replay := left, nakSeen := true, resend := if l.nakSeen then l.resend else left })

/-- A lane receives no signal for 32 block times (08 R230). -/
def execLossOfSignal (port lane : BitVec 9) (s : State) : Res :=
  .next (
    let p := port.toNat
    let l := laneAt s lane.toNat
    if !(portAt s p).conf || !(planLanes p (portAt s p).plan).contains lane.toNat || !l.lock then s
    else
      let s := setLane s lane.toNat { l with lock := false, goodRun := 0, rxScr := none }
      if (portAt s p).lanes.contains lane.toNat then lockLost s p else s)

/-- A degrading port that has not returned within 65,536 cycles of its fence goes DOWN (08 R247). -/
def execDegradeTimeout (port : BitVec 9) (s : State) : Res :=
  .next (
    let l := (portAt s port.toNat).link
    match l.fencedAt with
    | some t => if l.degrading && decide (s.now ≥ t + 65536) then portDown s port.toNat else s
    | none => s)

/-! ### Wiring and the passbook comparison (08 R248, R249, R251) -/

/-- A byte of a lane's last complete rotation. -/
def rotByte (s : State) (lane i : Nat) : Nat := ((laneAt s lane).rotation.getD i 0).toNat
def rotNum (s : State) (lane a n : Nat) : Nat := beNat (slice (laneAt s lane).rotation a n)

/-- The neighbour's port, as a lane's passbook shows it: SLANE − LANE_IN_PORT. -/
def senderPort (s : State) (lane : Nat) : Int :=
  (bits (rotNum s lane 2 2) 15 7 : Int) - bits (rotByte s lane 1) 4 2

/-- The first wiring check that fails (08 Table 8.9), the delay apart; its lane. -/
def wiringFault (s : State) (p : Nat) (ls : List Nat) : Option (Nat × Nat) :=
  let q := portAt s p
  let lane0 := nth ls 0
  let id := rotNum s lane0 4 2
  let sp := senderPort s lane0
  match ls.find? fun l => rotNum s l 4 2 != id || senderPort s l != sp with
  | some l => some (1, l)
  | none =>
    if id ≠ id16 (planNeighbour q.plan) ∨ bit (rotByte s lane0 1) 7 ≠ planX7 q.plan then some (2, lane0)
    else if planX7 q.plan = true ∧ sp ≠ (planNport q.plan : Int) ∧ planSwap q.plan = false then some (3, lane0)
    else if 2 ^ bits (rotByte s lane0 1) 6 5 ≠ planWidth q.plan ∧ 2 ^ bits (rotByte s lane0 1) 6 5 ≠ q.lanes.length then
      some (4, lane0)
    else if planBoard q.plan = true ∧ bits (rotNum s lane0 2 2) 6 4 = bits s.boot.strap.toNat 2 0 then some (5, lane0)
    else none

/-- A link is HELD with a reason: its event carries ID16, SLANE and LANE_IN_PORT; its queue is flushed (09 R283). A frame on
its lane completes. -/
def holdLink (s : State) (p reason lane : Nat) : State :=
  let s := loseKicks (flushQueue s p) p
  let at_ := rotNum s lane 4 2 + bits (rotNum s lane 2 2) 15 7 * 2 ^ 16 + bits (rotByte s lane 1) 4 2 * 2 ^ 25
  let s := modLink s p fun l => { l with st := .held, heldReason := reason, heldWhere := at_, since := s.now, degrading := false,
                                         fencedAt := none, started := false, due := [] }
  postEvent (setBit s (srcPg (pgOf p)) 4 (p + reason * 2 ^ 9)) (srcPg (pgOf p)) 4 0 p reason at_

/-- A rotation whose slot-0 block carried TICK `t16` was begun at or after the start of tick T (08 R251): the block's tick, as its sender
had it when it was first sent (R240). -/
def begunAtTick (t16 : BitVec 16) (t : BitVec 48) : Bool := decide ((t16 - t.setWidth 16).toNat < 2 ^ 15)

/-- The state that the comparison of a good rotation gives (08 Table 8.10): 0 UP, 1 REFUSED, 2 QUARANTINE. -/
def compareRotation (s : State) (p : Nat) : Nat :=
  let q := portAt s p
  let l := q.link
  let genOk := (nbrNum l 6 2 == s.tables.routeGen.toNat && nbrNum l 8 2 == s.tables.rmapGen.toNat) ||
    match l.agreeTick with
    | none => false
    | some t => !begunAtTick l.nbrTick t && t == s.tick.num
  let refused := match l.refuseTick with
    | none => false
    | some t => !begunAtTick l.nbrTick t
  let tickOk := tickLen s == 0 || nbrNum l 10 4 == 0 ||
    (!l.tickWrong && tickNear s ((l.nbrAt : Int) + 140 - l.delay) 16 32 (nbrNum l 14 4))
  if nbrByte l 0 ≠ bits s.boot.capFw.toNat 23 16 then 2
  else if l.nbrTstate = 0 ∨ s.tick.state = 0 then 1
  else if nbrNum l 10 4 ≠ tickLen s then 1
  else if !tickOk then 1
  else if planX7 q.plan && (!genOk || refused) then 1
  else 0

def severity (st : LinkSt) : Nat := match st with
  | .up => 0
  | .refused => 1
  | .quarantine => 2
  | _ => 3

def rowState (k : Nat) : LinkSt := if k = 0 then .up else if k = 1 then .refused else .quarantine

/-- Credit as the compared rotation gives it (10 R294), in cells. -/
def fullCredit (l : Link) : List Nat := (List.range 8).map fun c => 64 * nbrByte l (37 + c)

/-- A class that waits for the CRED value after a commit takes it from a rotation begun since: a lower allotment is what it then holds (10
R295). -/
def settleCred (s : State) (p : Nat) : State :=
  let l := (portAt s p).link
  let begun : Int := (l.nbrAt : Int) - l.delay
  modQ s p fun q => (List.range 8).foldl (fun (q : PortQ) c =>
    match q.awaitCred.getD c none with
    | none => q
    | some t =>
      if begun < (t : Int) then q
      else
        let q := { q with awaitCred := q.awaitCred.set c none }
        { q with credit := q.credit.set c (min (nth q.credit c) (64 * nbrByte l (37 + c))) }) q

/-- A link takes the state the comparison gives; from CHECK it holds the neighbour's full allotment. -/
def enterState (s : State) (p k : Nat) : State :=
  let l := (portAt s p).link
  let fromCheck := l.st == .check
  let new := if fromCheck || k = 0 || k ≥ severity l.st then rowState k else l.st
  let s := if fromCheck then modQ s p fun q => { q with credit := fullCredit l } else s
  let s := if fromCheck && s.tick.state == 2 && s.tick.rootFirst.isNone then
      { s with tick := { s.tick with rootFirst := some (if l.nbrTstate = 1 then some p else none) } } else s
  let s := modLink s p fun l => { l with st := new, since := if new = l.st then l.since else s.now,
                                         degrading := l.degrading && !fromCheck, attempts := 0,
                                         fencedAt := if fromCheck then none else l.fencedAt }
  if new = l.st then s
  else if new = .refused then noteState s (srcPg (pgOf p)) 6 p
  else if new = .quarantine then noteState s (srcPg (pgOf p)) 5 p
  else s

/-- The latest sending of the block of a number, in lane symbols. -/
def sentOf (l : Link) (bsn : Nat) : Option Nat := (l.sentAt.find? fun e => e.1.toNat == bsn).map fun e => 140 * e.2

/-- The round trip that a rotation reports, in lane symbols: it echoes a block sent here (08 R238). -/
def roundTrip (l : Link) : Option Int :=
  (sentOf l (bits (nbrNum l 22 3) 23 12)).map fun t => (l.at22 : Int) - t - bits (nbrNum l 22 3) 11 1

/-- All of some round trips lie within 1 lane symbol of each other. -/
def agree (es : List Int) : Bool := es.all fun a => es.all fun b => decide (a - b ≤ 1)

/-- The echo joins the consecutive echoes that agree within 1 lane symbol, newest first. -/
def addEcho (es : List Int) (r : Int) : List Int :=
  let new := r :: es.take 3
  ((List.range 4).map fun k => new.take (4 - k)).find? agree |>.getD [r]

/-- A good rotation on every active lane: what it shows is compared (08 R248, R249), and takes effect in the next cycle. -/
def goodRotation (s : State) (p : Nat) : State :=
  let q := portAt s p
  let lane0 := (q.lanes.find? fun l => !(laneAt s l).bad).getD p
  let s := modLink s p fun l => { l with nbr := (laneAt s lane0).rotation, pbFails := 0 }
  let l := (portAt s p).link
  let held := match wiringFault s p q.lanes with
    | some (reason, lane) => some (Verdict.held reason lane)
    | none => none
  match l.st, held with
  | .measure, some v => modLink s p fun l => addDue l s.now v
  | .measure, none => match roundTrip l with
    | some r => modLink s p fun l => { l with echoes := addEcho l.echoes r }
    | none => s
  | .identify, _ => s
  | .train, _ => s
  | .held, _ => s
  | .down, _ => s
  | .quiet, _ => s
  | _, some v => modLink s p fun l => addDue l s.now v
  | _, none =>
    let s := match roundTrip l with
      | some r => if l.st ≠ .check ∧ (r - l.rtt > 140 ∨ (l.rtt : Int) - r > 140) then
          postEvent s (srcPg (pgOf p)) 0x22 0 p (ofInt 32 r) l.rtt else s
      | none => s
    let dn := nbrNum l 18 2
    let s := if dn > l.delay + 1 ∨ l.delay > dn + 1 then postEvent s (srcPg (pgOf p)) 0x27 0 p dn l.delay else s
    let k := compareRotation s p
    let s := settleCred s p
    let nst := bits (nbrByte l 21) 7 5
    let begun (t : Option (BitVec 48)) : Bool := match t with
      | some x => begunAtTick l.nbrTick x
      | none => false
    modLink s p fun l => addDue { l with
      tickWrong := false,
      agreeTick := if begun l.agreeTick then none else l.agreeTick,
      refuseTick := if begun l.refuseTick then none else l.refuseTick,
      nbrUp := l.nbrUp || nst == 3 || nst == 4 || nst == 5 } s.now (.state k)

/-- A complete passbook rotation, in the cycle of the block that completes it: the port's last accepted, with its number and its arrival
in lane symbols. -/
def execPassbookRotation (port : BitVec 9) (bsn : BitVec 12) (arrival : Nat) (s : State) : Res :=
  .next (
    let p := port.toNat
    let q := portAt s p
    let ls := q.lanes.filter fun l => !(laneAt s l).bad
    if !q.conf || !sends q.link.st || ls.isEmpty || !ls.all (fun l => (laneAt s l).ready) || q.link.lastIn != some (bsn, arrival) then s
    else
      let good l := (laneAt s l).bookOk
      let s :=
        if ls.all good then goodRotation s p
        else
          let s := modLink s p fun l => { l with pbFails := l.pbFails + 1 }
          if (portAt s p).link.pbFails ≥ 4 ∧ (carrying q.link.st || [.measure, .check].contains q.link.st) = true then modLink s p fun l => addDue l s.now .down else s
      ls.foldl (fun s l => setLane s l { laneAt s l with ready := false }) s)

/-! ### What takes effect in the next cycle (08 R237, R249) -/

/-- One decoded happening takes effect. A comparison moves a port in CHECK, or one that carries. -/
def applyVerdict (s : State) (p : Nat) (v : Verdict) : State :=
  let st := (portAt s p).link.st
  match v with
  | .state k => if (st = .check ∧ s.boot.steward = true) ∨ carrying st = true then enterState s p k else s
  | .held reason lane => if st = .held ∨ sends st = false then s else holdLink s p reason lane
  | .down => if carrying st || [.measure, .check].contains st then portDown s p else s

/-- The verdicts of earlier cycles take effect on a port. -/
def applyDue (s : State) (p : Nat) : State :=
  let due := (portAt s p).link.due
  if due.isEmpty then s
  else
    let now_ := due.filter fun e => decide (e.1 < s.now)
    let s := modLink s p fun l => { l with due := l.due.filter fun e => decide (e.1 ≥ s.now) }
    now_.foldl (fun s e => applyVerdict s p e.2) s

/-- A port whose own state and whose neighbour's allow frames starts them in the next cycle (08 R237). -/
def startLink (s : State) (p : Nat) : State :=
  let l := (portAt s p).link
  if !l.started && carrying l.st && l.nbrUp then modLink s p fun l => { l with started := true } else s

/-! ### Link-up (08 R236, R238, R239) -/

/-- A link-up attempt fails: back to QUIET, or DOWN after 8 in a row. -/
def attemptFails (s : State) (p : Nat) : State :=
  let q := portAt s p
  if q.link.degrading then portDown s p
  else
    let n := q.link.attempts + 1
    toQuiet s p n (if n ≥ 8 then .down else .quiet)

/-- Enters a link-up state. -/
def linkTo (s : State) (p : Nat) (st : LinkSt) : State := modLink s p fun l => { l with st := st, since := s.now }

/-- Nearest lane symbol and FCLK cycle of half a round trip, ties upward (08 R238). -/
def halfUp (r : Nat) : Nat := (r + 1) / 2
def cyclesOf (sym : Nat) : Nat := (sym + 70) / 140

/-- Largest skew of a lane against the first of its port, in lane symbols (08 R231). -/
def skewLimit : Nat := 420

/-- IDENTIFY ends: wiring is checked over the good lanes, then bad lanes narrow the port or fail the attempt. -/
def identifyEnds (s : State) (p : Nat) : State :=
  let q := portAt s p
  let isBad l := (laneAt s l).bad || decide ((laneAt s l).goodRots < 2) || decide ((laneAt s l).skew > skewLimit)
  let good := q.lanes.filter fun l => !isBad l
  let s := (q.lanes.filter isBad).foldl (fun s l => setLane s l { laneAt s l with bad := true }) s
  if good.isEmpty then attemptFails s p
  else
    match wiringFault s p good with
    | some (reason, lane) => holdLink s p reason lane
    | none =>
      let s := good.foldl (fun s l =>
        if bits (rotByte s l 1) 4 2 ≠ q.lanes.idxOf l then postEvent s (srcPg (pgOf l)) 0x20 0 l 0 0 else s) s
      let s := modLink s p fun l => { l with nbrPort := some (senderPort s (nth good 0)).toNat }
      if good.length = q.lanes.length then linkTo (modLink s p fun l => { l with echoes := [], measureTries := 0 }) p .measure
      else
        let mask := Nat.land (goodMask s p) (bits (rotNum s (nth good 0) 25 1) 7 0)
        match (if planDegrade q.plan then subPort q.lanes.length mask else none) with
        | some (base, v) => narrow s p base v .measure
        | none => attemptFails s p

/-- MEASURE ends: four echoes agree, and the delay is fixed and checked (08 R238, R239); or its time is over. -/
def measureEnds (s : State) (p : Nat) (byLimit : Bool) : State :=
  let l := (portAt s p).link
  let lane0 := nth (portAt s p).lanes 0
  if l.echoes.length ≥ 4 then
    let r := (l.echoes.headD 0).toNat
    let d := cyclesOf (halfUp r)
    let s := modLink s p fun l => { l with rtt := r, delaySym := halfUp r, delay := d }
    if d > planMaxDelay (portAt s p).plan ∨ d > 2000 then holdLink s p 6 lane0 else linkTo s p .check
  else if !byLimit || s.now < l.since + 3200 + 2 * cyclesOf (halfUp (l.echoes.headD 0).toNat) then s
  else if l.measureTries ≥ 1 then holdLink s p 6 lane0
  else linkTo (modLink s p fun l => { l with measureTries := l.measureTries + 1, echoes := [] }) p .measure

/-- CHECK is over without a verdict: the state that the last good rotation gives, or DOWN where a lane has lost block lock (DEDUCED,
assumption log 24: Table 8.7 gives the state of Table 8.10). -/
def checkEnds (s : State) (p : Nat) : State :=
  if (portAt s p).lanes.any fun l => !(laneAt s l).lock && !(laneAt s l).bad then portDown s p else enterState s p (compareRotation s p)

/-- A link-up state ends on its condition, or `byLimit` on its time limit (08 Table 8.7). While the steward is down none does: links cannot be
brought up (01 R21; that every one of these states waits is DEDUCED, assumption log 24). -/
def execLinkStateEnd (port : BitVec 9) (byLimit : Bool) (s : State) : Res :=
  .next (
    let p := port.toNat
    let q := portAt s p
    if !q.conf || !s.boot.steward then s
    else
      match q.link.st with
      | .quiet =>
        if s.now < q.link.since + 1024 || s.boot.allIdle then s
        else linkTo (freshLanes s (planLanes p q.plan)) p .train
      | .train =>
        let want := q.lanes.filter (laneEn s)
        let locked := want.filter fun l => (laneAt s l).lock && (laneAt s l).rxScr.isSome
        if (if byLimit then decide (s.now ≥ q.link.since + 20000) else decide (want.length = locked.length ∧ want ≠ [])) then
          if locked.isEmpty then attemptFails s p
          else
            let s := (q.lanes.filter fun l => !locked.contains l).foldl
              (fun s l => setLane s l { laneAt s l with bad := true }) s
            linkTo (countAnew s q.lanes) p .identify
        else s
      | .identify =>
        let good := q.lanes.filter fun l => !(laneAt s l).bad
        if (if byLimit then decide (s.now ≥ q.link.since + 1930) else good.all fun l => decide ((laneAt s l).goodRots ≥ 2)) then
          identifyEnds s p
        else s
      | .measure => measureEnds s p byLimit
      | .check => if byLimit && decide (s.now ≥ q.link.since + 640 + q.link.delay) then checkEnds s p else s
      | _ => s)

/-! ### Port groups (08 R234, R235; 13 Table 13.9) -/

/-- The first entry of a port group that breaks R234 or R235. -/
def planFault (s : State) (pg : Nat) : Option Nat :=
  let entry l := sget 0 s.boot.planWords l
  let inside l := (List.range 8).any fun k =>
    decide (k ≥ 1) && decide (l % 32 ≥ k) && planUsed (entry (l - k)) && decide (planWidth (entry (l - k)) > k) &&
      (l - k) % planWidth (entry (l - k)) == 0
  (firstIdx 32 fun j =>
    let l := 32 * pg + j
    let e := entry l
    (planUsed e && (l % planWidth e != 0 || inside l)) || (planBoard e && !planX7 e)).map fun j => 32 * pg + j

/-- A port group's ports take the plan's layout and enter QUIET, a port that carried after its fence. -/
def raiseGroup (s : State) (pg : Nat) : State :=
  (List.range 32).foldl (fun s j =>
    let p := 32 * pg + j
    let w := sget 0 s.boot.planWords p
    let s := if carrying (portAt s p).link.st then fenceDown s p else s
    if planUsed w then toQuiet (widen (modPort s p fun q => { q with conf := true, plan := w }) p) p 0 .quiet
    else modPort s p fun q => { q with conf := false, plan := w }) s

/-- A port group passes R235 and its ports enter QUIET, or it is kept down with an event. -/
def openGroup (s : State) (pg : Nat) : State × Bool :=
  match planFault s pg with
  | some l => (postEvent s (srcPg pg) 0x24 0 l 0 0, false)
  | none => (raiseGroup s pg, true)

/-- LINK_DOWN: every port of the group is fenced, flushed and stays DOWN. -/
def execLinkDown (ring : BitVec 6) (d : Desc) (s : State) : Res :=
  .next (accept s ring d 0x40 none 0 (cringOf d.d0) fun a s =>
    let pg := fld d.d1 3 0
    if !hasPg s pg then complete s a stRefused
    else
      let s := recordRaw s oHost a.ring 0x16 (0x8000 + pg) 0 0
      let s := (List.range 32).foldl (fun s j =>
        let p := 32 * pg + j
        if (portAt s p).conf then toQuiet (widen (fenceDown s p) p) p 0 .down else s) s
      complete s a stOk)

/-- LINK_UP waits while the steward is down (01 R21). -/
def execLinkUp (ring : BitVec 6) (d : Desc) (s : State) : Res :=
  .next (
    if !s.boot.steward then s
    else accept s ring d 0x41 none 0 (cringOf d.d0) fun a s =>
      let pg := fld d.d1 3 0
      if !hasPg s pg || !bit s.boot.ready.toNat pg then complete s a stRefused
      else
        let s := recordRaw s oHost a.ring 0x16 (0x8000 + pg) 0 0
        complete (openGroup s pg).1 a stOk)

end Sys2Proof.Machine
end

