-- ==== Sys2Proof/Machine/Frames.lean ====
section
/-! DEFINITION. Frames at the input and inside the switch: input checks, meters, mirroring, cells, routing to output queues,
last-hop reorder, and tandem records (09 R257-R282, 10 R288-R302, 11 R325). -/

namespace Sys2Proof.Machine

/-! ### Tandem records (11 R325-R327, R329) -/

/-- A mismatch on a slot: counted, reported, and the kickstand on its port. `cause`: 1 differing, 2 twin missing, 3 own missing. -/
def tandemMismatch (s : State) (r : TandemRec) (cause own twin : Nat) : State :=
  let s := { s with tandem := { s.tandem with counts := sbump Config.sat32 s.tandem.counts r.slot 1 } }
  let key := r.src.toNat + r.seq.toNat * 2 ^ 20 + r.tick.toNat * 2 ^ 36
  let s := setCause s srcCoreW 8 r.slot 0 cause key (some (r.offset.toNat, own + twin * 2 ^ 32, 0))
  match slotPort s r.slot with
  | some p => kickDetect s p 4 r.slot
  | none => s

/-- Same key (SLOT, SRC, SEQ, OFFSET, TICK). -/
def sameKey (a b : TandemRec) : Bool :=
  a.slot == b.slot && a.src == b.src && a.seq == b.seq && a.offset == b.offset && a.tick == b.tick

/-- The 16 bytes of a FRAME record (11 Table 11.7). -/
def recordBytes (r : TandemRec) : List Byte :=
  [0x01, BitVec.ofNat 8 r.slot] ++ leBytes 3 r.src.toNat ++ leBytes 2 r.seq.toNat ++ leBytes 3 r.offset.toNat ++
    leBytes 2 r.tick.toNat ++ leBytes 4 r.crc.toNat

/-- A tandem record sent to the twin: a MGMT frame of subtype 0x10 on TPORT; none on a port that takes no frames. -/
def sendRecord (s : State) (bytes : List Byte) (ready : Nat) : State :=
  let h := ownFrame s 0xB 6 (tandemTwin s) 0 0 0 0 0x10000000
  if !joins s (tandemPort s) then s else emitTo s (tandemPort s) (mkFrame h (padTo 32 bytes)) ready false none

/-- An own record is formed, held and sent. -/
def ownRecord (s : State) (r : TandemRec) : State :=
  let s := sendRecord s (recordBytes r) r.at_
  { s with tandem := { s.tandem with own := s.tandem.own ++ [r] } }

/-- Comparing is under way. -/
def comparing (s : State) : Bool := tandemEn s && !s.tandem.lost

/-- The records whose cycle it is are formed, held and sent, while comparing is under way (11 R325, R329). -/
def formDue (s : State) : State :=
  let due := s.tandem.forming.filter fun x => decide (x.2.2.at_ ≤ s.now)
  if due.isEmpty then s
  else
    let s := { s with tandem := { s.tandem with forming := s.tandem.forming.filter fun x => decide (x.2.2.at_ > s.now) } }
    if !comparing s then s
    else due.foldl (fun s x => (slotsOf s x.2.1).foldl (fun s k => ownRecord s { x.2.2 with slot := k }) s) s

/-- Own records formed by now that have their pair are compared (11 R326). -/
def comparePairs (s : State) : State :=
  (s.tandem.own.filter fun r => decide (r.at_ ≤ s.now)).foldl (fun s r =>
    match s.tandem.twin.find? (sameKey r) with
    | none => s
    | some t =>
      let s := { s with tandem := { s.tandem with own := s.tandem.own.erase r, twin := s.tandem.twin.erase t } }
      if t.crc = r.crc then s else tandemMismatch s r 1 r.crc.toNat t.crc.toNat) s

/-- The FRAME record of a TC7 frame that will leave on a port is formed in a cycle to come (11 R325). A pair that is not enabled, with no set
armed that could enable it, forms none. -/
def formRecords (s : State) (fid p : Nat) (f : Frame) (at_ : Nat) : State :=
  let h := headerOf f.hdr
  if (!tandemEn s && s.tables.armed.isEmpty) || h.cls != 7 || h.type == 0xA then s
  else
    let r : TandemRec := { slot := 0, src := h.src, seq := h.seq, offset := h.offset, tick := h.tick, crc := f.crc, at_ := at_ }
    { s with tandem := { s.tandem with forming := s.tandem.forming ++ [(fid, p, r)] } }

/-- HOLD after the loss of the twin: frames for a compared port are discarded and counted as mismatches, all but kickstands (11 R329). -/
def tandemHolds (s : State) (p : Nat) (h : Header) : Bool :=
  tandemEn s && s.tandem.lost && !tandemSolo s && h.type != 0xA && !(slotsOf s p).isEmpty

def countHeld (s : State) (p : Nat) : State :=
  (slotsOf s p).foldl (fun s k =>
    { s with tandem := { s.tandem with counts := sbump Config.sat32 s.tandem.counts k 1 } }) s

/-- HOLD_TC7 of a latched kickstand entry discards a TC7 frame of its job (12 R348). -/
def kickHolds (s : State) (p : Nat) (h : Header) : Bool :=
  (portAt s p).kick.latch && kickEn s p && kickHold s p && h.cls == 7 && h.type != 0xA && h.job.toNat == kickJob s p

/-! ### Meters (10 R300-R302) -/

inductive Colour where
  | green | yellow | red
  deriving DecidableEq, Repr

def meterWord (s : State) (n k : Nat) : W64 := ew s 0x23 n k

/-- Tokens of meter n filled up to now. -/
def meterNow (s : State) (n : Nat) : MeterTokens :=
  let m := sget {} s.meters n
  let dt : Int := s.now - m.at_
  let k0 := meterWord s n 0
  let k1 := meterWord s n 1
  { c := min (m.c + dt * (fld k0 31 0 : Int)) ((fld k0 55 32 : Int) * 65536),
    p := min (m.p + dt * (fld k1 31 0 : Int)) ((fld k1 55 32 : Int) * 65536), at_ := s.now }

/-- A frame of b bytes coloured in its arrival cycle. -/
def colour (s : State) (job cls b : Nat) : Colour × State :=
  match boundMeter s job cls with
  | none => (.green, s)
  | some n =>
    if !bit (meterWord s n 0).toNat 63 then (.green, s)
    else
      let m := meterNow s n
      let x : Int := (b : Int) * 65536
      let put (m : MeterTokens) : State := { s with meters := sput {} s.meters n m }
      if m.p < x then (if bit (meterWord s n 0).toNat 62 then .yellow else .red, put m)
      else if m.c < x then (.yellow, put { m with p := m.p - x })
      else (.green, put { m with p := m.p - x, c := m.c - x })

/-! ### Mirroring at the input (09 R282) -/

/-- Sessions matched by a frame received on a port (MATCH 0 and flow); MGMT is never mirrored. -/
def mirrorIn (s : State) (p : Nat) (h : Header) (f : Frame) : State :=
  let e : Entry := { fid := s.fresh, frame := f, cls := h.cls.toNat, src := pgOf p, arrival := s.now, ready := s.now + 96,
                     inPort := some (p, s.now + dataCycles f (widthOf s p) - 1) }
  (List.range 16).foldl (fun s m =>
    let w := ew s 0x17 m 0
    let flow := fld w 39 32 == h.job.toNat && bit (fld w 31 24) h.cls.toNat &&
      (bit w.toNat 3 || (if h.mc = 1 then h.dest.toNat % 65536 == fld w 19 4 else fld w 23 4 == h.dest.toNat))
    if bit w.toNat 63 && h.type != 0xB && ((fld w 62 61 == 0 && fld w 60 52 == p) || (fld w 62 61 == 2 && flow)) then
      mirrorCopy s m p (pgOf p % 16) e none else s) s

/-! ### Copies to output queues (07 Table 7.6, R214; 09 R276-R280) -/

/-- The first data cycle in which a forwarded copy may start. -/
def forwardReady (s : State) (inPort out : Nat) (h : Header) (f : Frame) : Nat :=
  s.now + (if h.xp = 1 then 64 else 96) + pathExtra s inPort out f

/-- Cycle after the lane's present use. -/
def laneFree (q : PortQ) : Nat := match q.lane with
  | .idle => 0
  | .frame _ st n => st + n
  | .credit c => c + 1
  | .cut c => c + 1
  | .kick _ st n => st + n

/-- A TC7 frame that can start in its express cycle takes no cell (10 R289): what is on the lane, and the TC7 frames queued before it, will have
left. -/
def expressFits (s : State) (out ready : Nat) : Bool :=
  let q := (portAt s out).q
  let left := (q.queue.filter fun e => e.cls == 7).foldl (fun t e => max t e.ready + leaveCycles e (widthOf s out)) (laneFree q)
  decide (left ≤ ready) && q.queue.all fun e => !isAligned e

/-- A copy of a received frame joins an output's queue, unless a latched kickstand or a lost twin holds it back. `aligned` is the
tally and start cycle of an aligned release copy, of which no record is formed (11 R325). -/
def forwardCopyAs (s : State) (fid inPort out : Nat) (h : Header) (f : Frame) (ready : Nat) (aligned : Option (Nat × Nat)) :
    State :=
  if kickHolds s out h then countPort (dropLater s fid) out cKickHeld 1
  else if tandemHolds s out h then countHeld (dropLater s fid) out
  else
    let s := if aligned.isSome then s else formRecords s fid out f (s.now + 44 + dataCycles f (widthOf s inPort))
    enqueue s out { fid := fid, frame := f, cls := h.cls.toNat, src := pgOf inPort, arrival := s.now, ready := ready,
                    inPort := some (inPort, s.now + dataCycles f (widthOf s inPort) - 1), aligned := aligned,
                    express := (ofind s.frames fid).any fun b => b.cells == 0 }

def forwardCopy (s : State) (fid inPort out : Nat) (h : Header) (f : Frame) : State :=
  forwardCopyAs s fid inPort out h f (forwardReady s inPort out h f) none

/-- A frame's cells in its slice, taken under R308; none when it is to be discarded. An express frame takes none. -/
def admitFrame (s : State) (inPort : Nat) (outs : List Nat) (h : Header) (f : Frame) (yellow : Bool) : State × Option Nat :=
  let slice := pgOf inPort
  let k := cellsOf f
  let q := quotaIdx 0 h.job.toNat h.cls.toNat
  let (fid, s) := takeFresh s
  let b : Held := { slice := slice, cells := k, job := h.job.toNat, cls := h.cls.toNat, copies := outs.length,
                    credit := some (inPort, k) }
  let express := h.cls == 7 && outs.all fun o => expressFits s o (forwardReady s inPort o h f)
  if express then (hold s fid { b with cells := 0 }, some fid)
  else
    let s := makeRoom s slice k
    if yellow && decide (sliceUse s slice q ≥ quotaGuarantee s q) then (discard s inPort rYellow, none)
    else if !cellsAllowed s slice q k then
      (setCause (discard s inPort rQuota) srcPool 6 q h.job.toNat, none)
    else (hold (takeCells s slice q k) fid b, some fid)

/-- A frame discarded at the input: its credit returns as if its cells were freed (10 R294). -/
def dropIn (s : State) (p reason : Nat) (h : Header) (f : Frame) : State :=
  owe (discard s p reason) p h.cls.toNat (ceilDiv (40 + f.payload.length) 256)

/-! ### Last-hop reorder (09 R274, R275) -/

def reCount (pg : Nat) : Nat := srcPg pg

/-- The context of a message at an output port group. -/
def ctxOf (s : State) (pg : Nat) (h : Header) : Option Reorder :=
  s.reorder.find? fun c => c.pg == pg && c.src == h.src.toNat && c.job == h.job.toNat && c.seq == h.seq.toNat

def sameCtx (a b : Reorder) : Bool := a.pg == b.pg && a.src == b.src && a.job == b.job && a.seq == b.seq

def putCtx (s : State) (c : Reorder) : State :=
  { s with reorder := s.reorder.map fun x => if sameCtx x c then c else x }

def dropCtx (s : State) (c : Reorder) : State := { s with reorder := s.reorder.filter fun x => !sameCtx x c }

/-- A context is freed when its LAST frame leaves, and its message is recorded as complete (Table 9.14). -/
def finishCtx (s : State) (c : Reorder) : State :=
  let d := sget {} s.doneMsgs c.pg
  { dropCtx s c with doneMsgs := sput {} s.doneMsgs c.pg { msgs := ((c.src, c.job, c.seq) :: d.msgs).take 1024 } }

/-- A frame leaves: it may be the LAST of a context. -/
def endCtx (s : State) (fid : Nat) : State := match s.reorder.find? fun c => c.ending == some fid with
  | some c => finishCtx s c
  | none => s

/-- A released frame joins its output's queue; on a port that is down or held it is flushed (R283). -/
def release (s : State) (p : Nat) (e : Entry) : State :=
  if joins s p then enqueue s p e else countFlush (dropLater s e.fid) p e.cls

def entryOffset (e : Entry) : Nat := (headerOf e.frame.hdr).offset.toNat
def entryLast (e : Entry) : Bool := (headerOf e.frame.hdr).last == 1
def entryLen (e : Entry) : Nat := (headerOf e.frame.hdr).len.toNat

/-- Held frames in OFFSET order. -/
def insertHeld (e : Entry) : List Entry → List Entry
  | [] => [e]
  | x :: r => if entryOffset e < entryOffset x then e :: x :: r else x :: insertHeld e r

/-- Held frames that have become deliverable follow the one that released them, in its source group's order (09 R274). `last` is the LAST
frame, once it is on its way. -/
def releaseHeld : Nat → State → Reorder → Nat → Option Nat → State × Reorder × Option Nat
  | 0, s, c, _, last => (s, c, last)
  | n + 1, s, c, src, last =>
    match c.held with
    | [] => (s, c, last)
    | e :: r =>
      let go := if clsReorder s c.cls = 2 then entryOffset e ≤ c.expect else entryOffset e = c.expect
      if go then
        let x := if clsReorder s c.cls = 2 then max c.expect (entryOffset e + entryLen e) else c.expect + entryLen e
        releaseHeld n (release s c.port { e with src := src }) { c with held := r, expect := x } src
          (if entryLast e then some e.fid else last)
      else (s, c, last)

/-- The LAST frame of a context is on its way: what is held follows, and what still comes passes; the context ends as it leaves. -/
def lastGoes (s : State) (c : Reorder) (fid : Nat) : State :=
  putCtx (c.held.foldl (fun s e => release s c.port e) s) { c with held := [], pass := true, ending := some fid, timer := s.now }

/-- Settles a context after a delivery of a frame of source group `src`: held frames follow. -/
def settleCtx (s : State) (c : Reorder) (src : Nat) (last : Option Nat) : State :=
  match releaseHeld c.held.length s c src last with
  | (s, c, some fid) => lastGoes s c fid
  | (s, c, none) => putCtx s { c with timer := s.now }

/-- The timer of a context expires: its held frames go in OFFSET order; a second expiry frees it (09 R275). -/
def expireCtx (s : State) (c : Reorder) : State :=
  let s := setCause (countBlock s (reCount c.pg) 0) (srcPg c.pg) 11 c.port
  let full := clsReorder s c.cls == 2
  let jumps := (c.held.foldl (fun (a : Nat × Nat) e =>
    (if full then max a.1 (entryOffset e + entryLen e) else a.1 + entryLen e, if entryOffset e = a.1 then a.2 else a.2 + 1)) (c.expect, 0))
  let s := (List.range jumps.2).foldl (fun s _ => countBlock s (reCount c.pg) 1) s
  let s' := c.held.foldl (fun s e => release s c.port e) s
  match c.held.find? entryLast with
  | some e => lastGoes s { c with expect := jumps.1 } e.fid
  | none => if c.pass then dropCtx s' c else putCtx s' { c with held := [], expect := jumps.1, pass := true, timer := s.now }

/-- Cells of the reserve of a port group that held frames fill. -/
def reserveUsed (s : State) (pg : Nat) : Nat :=
  sumNat ((s.reorder.filter fun c => c.pg == pg).map fun c => sumNat (c.held.map fun e => cellsOf e.frame))

/-- A context for a message: the one in progress, or a new one; when none is free the oldest is treated as expired. -/
def openCtx (s : State) (pg port : Nat) (h : Header) : State × Option Reorder :=
  match ctxOf s pg h with
  | some c => (s, some c)
  | none =>
    let mine := s.reorder.filter fun c => c.pg == pg
    let s := if mine.length < Config.reorderContexts then s
             else match mine with
               | c :: _ => expireCtx s c
               | [] => s
    if (s.reorder.filter fun c => c.pg == pg).length < Config.reorderContexts then
      let c : Reorder := { pg := pg, src := h.src.toNat, job := h.job.toNat, seq := h.seq.toNat, port := port,
                           cls := h.cls.toNat, expect := 0, held := [], timer := s.now, pass := false }
      ({ s with reorder := s.reorder ++ [c] }, some c)
    else (s, none)

/-- A frame takes its cells and joins its output's queue; one that gets none is discarded (10 R309). -/
def deliver (s : State) (inPort out : Nat) (h : Header) (f : Frame) (yellow : Bool) : State × Option Nat :=
  match admitFrame s inPort [out] h f yellow with
  | (s, none) => (owe s inPort h.cls.toNat (cellsOf f), none)
  | (s, some fid) => (forwardCopy s fid inPort out h f, some fid)

/-- A frame is held whole in the reserve of its output's port group (09 R274); a yellow one only under its guarantee (10 R302). -/
def holdFrame (s : State) (c : Reorder) (inPort out : Nat) (h : Header) (f : Frame) (yellow : Bool) : State :=
  let q := quotaIdx 0 h.job.toNat h.cls.toNat
  if yellow && decide (sliceUse s (pgOf out) q ≥ quotaGuarantee s q) then dropIn s inPort rYellow h f else
  let (fid, s) := takeFresh s
  let e : Entry := { fid := fid, frame := f, cls := h.cls.toNat, src := pgOf inPort, arrival := s.now,
                     ready := forwardReady s inPort out h f,
                     inPort := some (inPort, s.now + dataCycles f (widthOf s inPort) - 1) }
  let b : Held := { slice := pgOf out, cells := cellsOf f, job := h.job.toNat, cls := h.cls.toNat, copies := 1,
                    credit := some (inPort, cellsOf f), reserve := true }
  putCtx (hold s fid b) { c with held := insertHeld e c.held }

/-- A DATA frame of a reordered class at its last hop. -/
def reorderIn (s : State) (inPort out : Nat) (h : Header) (f : Frame) (yellow : Bool) : State :=
  let pg := pgOf out
  let src := pgOf inPort
  let off := h.offset.toNat
  let last := h.last == 1
  let late (s : State) (yes : Bool) : State := if yes then countBlock s (reCount pg) 1 else s
  -- Delivered outside a context's order: its LAST frame ends the context (R274), and any other restarts the timer (R275).
  let passBy (s : State) (c : Option Reorder) : State := match deliver s inPort out h f yellow with
    | (s, none) => s
    | (s, some fid) =>
      let s := late s (off != (c.map (·.expect)).getD 0)
      match c with
      | none => s
      | some c =>
        let c := { c with timer := s.now,
                          expect := if clsReorder s c.cls = 2 then max c.expect (off + h.len.toNat) else c.expect + h.len.toNat }
        if last then lastGoes s c fid else putCtx s c
  if (off = 0 ∧ last = true) ∨ (sget {} s.doneMsgs pg).msgs.contains (h.src.toNat, h.job.toNat, h.seq.toNat) = true then
    (deliver s inPort out h f yellow).1
  else
    match openCtx s pg out h with
    | (s, none) => passBy s none
    | (s, some c) =>
      let full := clsReorder s h.cls.toNat == 2
      let inTurn := if full then off == c.expect else !last || c.expect == off
      if c.pass then passBy s (some c)
      else if full && decide (off < c.expect) then
        match deliver s inPort out h f yellow with
        | (s, none) => s
        | (s, some fid) => if last then lastGoes (late s true) c fid else putCtx (late s true) { c with timer := s.now }
      else if inTurn then
        match deliver s inPort out h f yellow with
        | (s, none) => s
        | (s, some fid) =>
          settleCtx (late s (!full && off != c.expect))
            { c with expect := if full then off + h.len.toNat else c.expect + h.len.toNat } src (if last then some fid else none)
      else if reserveUsed s pg + cellsOf f ≤ Config.reorderReserve then holdFrame s c inPort out h f yellow
      else
        let s := match s.reorder.find? fun x => x.pg == pg with
          | some x => expireCtx s x
          | none => s
        match ctxOf s pg h with
        | some c => if !c.pass && decide (reserveUsed s pg + cellsOf f ≤ Config.reorderReserve) then holdFrame s c inPort out h f yellow
                    else passBy s (some c)
        | none => passBy s none

/-- The timer of a context runs out (09 R275). -/
def execReorderTimerExpiry (pg : BitVec 4) (src : BitVec 20) (job : BitVec 8) (seq : BitVec 16) (s : State) : Res :=
  .next (
    match s.reorder.find? fun c => c.pg == pg.toNat && c.src == src.toNat && c.job == job.toNat && c.seq == seq.toNat with
    | none => s
    | some c => if s.now ≥ c.timer + clsTimeout s c.cls * 1024 then expireCtx s c else s)

/-! ### Input checks (09 R258-R264, Table 9.6) -/

/-- Types that only an X7 sends (09 Table 9.4). -/
def x7Only (t : BitVec 4) : Bool := t == 2 || t == 3 || t == 5 || t == 8 || t == 9 || t == 0xA || t == 0xB

def isRankAddr (h : Header) : Bool := decide (h.dest.toNat ≥ 0xFC000)

/-- The frame is addressed to this X7 (09 R260). -/
def toSelf (s : State) (h : Header) : Bool := h.mc == 0 && some h.dest == ownEndpoint s

/-- The frame is consumed here (09 R260): its own endpoint, MGMT, or RELAY with MC = 1 for a relay it holds. -/
def consumes (s : State) (h : Header) : Bool :=
  h.type == 0xB || toSelf s h || (h.type == 0xC && h.mc == 1 && (ofind s.relays (h.dest.toNat % 65536)).isSome)

/-- Types addressed to the X7 that it discards (09 R260). -/
def notConsumed (s : State) (h : Header) : Bool :=
  toSelf s h && (h.type == 0 || h.type == 2 || h.type == 5 || h.type == 0xA ||
    (h.type == 8 && (ofind s.hbm.reqs h.seq.toNat).isNone))

/-- The source checks of R264 on an edge port. -/
def sourceOk (s : State) (p : Nat) (h : Header) : Bool :=
  h.type == 0xB || (id16 h.src.toNat == nbrNum (portAt s p).link 4 2 &&
    (!jobEdge s h.job.toNat || rankEndpoint s h.job.toNat h.rank.toNat == some h.src.toNat))

/-- DEST after rank translation; none when the rank has no valid entry (09 R263). -/
def translate (s : State) (h : Header) : Option Header :=
  if isRankAddr h then (rankEndpoint s h.job.toNat (h.dest.toNat % 16384)).map fun e => { h with dest := BitVec.ofNat 20 e }
  else some h

/-- The entries that a frame needs at its input (09 R263-R272; 10 R299, R308). -/
def needed (s : State) (p : Nat) (h : Header) : List (Nat × Nat) :=
  let j := h.job.toNat
  let free := h.type == 0xB || h.type == 0xA
  let rank (r : Nat) : List (Nat × Nat) := if r < jobRmapCount s j then [(0x11, jobRmapBase s j + r)] else []
  let d := ((translate s h).getD h).dest.toNat
  let b := d / 256
  let way := if routeKind s d = 1 then [(0x13, routeIndex s d * 256 + d % 256)] else if routeKind s d = 2 then [(0x14, routeIndex s d)] else []
  (if free then [] else [(0x10, j), (0x24, j * 8 + h.cls.toNat)] ++ ((boundMeter s j h.cls.toNat).map fun m => (0x23, m)).toList) ++
    (if isEdge s p && jobEdge s j && !free then rank h.rank.toNat else []) ++
    (if isRankAddr h then rank (h.dest.toNat % 16384) else []) ++ [(0x16, h.cls.toNat), (0x25, quotaIdx 0 j h.cls.toNat)] ++
    ((List.range 16).map fun k => (0x17, k)) ++
    (if consumes s h then [] else if h.mc = 1 then [(0x15, h.dest.toNat % 65536)] else (0x12, b) :: way)

/-- Its lookups: each reads both copies of an entry (12 R335). -/
def lookEntries (s : State) (p : Nat) (h : Header) : State :=
  if s.faults.entries.isEmpty then s else (needed s p h).foldl noteLookup s

/-- Checks 3 to 9 of Table 9.6, in order: the code of the first that fails, or the header with its DEST translated. A
frame that needs an entry of which both copies fail is discarded before those checks that read the tables (12 R335). -/
def inputCheck (s : State) (p : Nat) (h : Header) : Except Nat Header :=
  let q := portAt s p
  let edge := isEdge s p
  let free := h.type == 0xB || h.type == 0xA
  if !linkAllows q.link.st q.plan h then .error rLinkState
  else if !formOk h || (edge && h.type == 0xC && h.mc == 0) then .error rForm
  else if (edge && x7Only h.type) || (!edge && isRankAddr h) then .error rOrigin
  else if !s.faults.entries.isEmpty && (needed s p h).any (fun e => bothFail s e.1 e.2) then .error rTable
  else if !free && !jobEn s h.job.toNat then .error rJob
  else if edge && !sourceOk s p h then .error rSource
  else match translate s h with
    | none => .error rRankMap
    | some h' => if notConsumed s h' then .error rNotConsumed else .ok h'

/-- The frame as this X7 sends it on: DEST and PATH rewritten with HCRC, a translated frame with a new CRC, and a bad frame
stomped (09 R256, R277). -/
def outgoing (f : Frame) (old new : Header) : Frame :=
  let bad := trailerOf f
  let g := rehead f new
  let g := if old.dest = new.dest then g
           else match bad with
             | .good => { g with crc := frameCrc g.hdr g.payload }
             | _ => { g with crc := ~~~(frameCrc g.hdr g.payload) }
  match bad with
  | .good => g
  | .stomped _ => g
  | .corrupt => { g with crc := ~~~(frameCrc g.hdr g.payload), status := 0x0001 }

/-- A received stomped or cut frame is counted (12 PG[8]). -/
def noteStomp (s : State) (p : Nat) (f : Frame) : State :=
  match trailerOf f with
  | .stomped _ => setCause (countPort s p cStompRx 1) (srcPg (pgOf p)) 8 p
  | _ => if f.cut then setCause (countPort s p cStompRx 1) (srcPg (pgOf p)) 8 p else s

/-- A consumed frame waits for its block; one that does not check is discarded whole (09 R260). Its cells are free at once. No block
takes a RELAY frame with MC = 0, which is a copy for an endpoint (05 R160), so it ends here. -/
def consume (s : State) (p : Nat) (h : Header) (f : Frame) : State :=
  let s := owe s p h.cls.toNat (cellsOf f)
  if !frameGood f then countPort s p (rBadTrailer - 1) 1
  else if h.type == 0xC && h.mc == 0 then s
  else { s with intake := s.intake ++ [{ frame := f, port := p, arrival := s.now }] }

/-- The header with the PATH the first X7 writes, and the path chosen (09 R270). -/
def pathed (s : State) (p : Nat) (h : Header) : Header × Option Nat := if isEdge s p then writePath s h p else (h, none)

/-- A frame that passed its checks goes to its outputs: multicast copies, or the routed output, with reorder at a last hop. -/
def forward (s : State) (p : Nat) (old h : Header) (f : Frame) (yellow : Bool) : State :=
  let h := if yellow then { h with cm := 1 } else h
  if h.mc = 1 then
    let (outs, lost) := groupPorts s h p
    let s := lost.foldl (fun s o => countFlush s o h.cls.toNat) s
    if outs.isEmpty then owe s p h.cls.toNat (cellsOf f)
    else
      let g := outgoing f old h
      match admitFrame s p outs h f yellow with
      | (s, none) => owe s p h.cls.toNat (cellsOf f)
      | (s, some fid) => outs.foldl (fun s o => forwardCopy s fid p o h g) s
  else
    let (h, chosen) := pathed s p h
    match routed s h p with
    | none => dropIn s p rNoRoute h f
    | some o =>
      let s := match chosen with
        | some i => modQ s p fun q => { q with lastPath := q.lastPath.set h.cls.toNat i }
        | none => s
      let g := outgoing f old h
      if h.type == 0 && clsReorder s h.cls.toNat != 0 && routeKind s h.dest.toNat == 1 then reorderIn s p o h g yellow
      else (deliver s p o h g yellow).1

/-- A unicast frame for elsewhere finds no port it may leave on (09 Table 9.6, NO_ROUTE; 05 R135). -/
def noRoute (s : State) (p : Nat) (h : Header) : Bool :=
  !consumes s h && h.mc == 0 && (routed s (pathed s p h).1 p).isNone

/-- GROUP and NO_ROUTE, then meters, mirroring, and consumption or forwarding. -/
def passed (s : State) (p : Nat) (old h : Header) (f : Frame) : State :=
  let g := h.dest.toNat % 65536
  if h.mc == 1 && !consumes s h && !(groupEn s g && groupJob s g == h.job.toNat && groupHas s g p) then
    dropIn s p rGroup h f
  else if noRoute s p h then dropIn s p rNoRoute h f
  else
    let s := noteStomp s p f
    let metered := isEdge s p && h.type != 0xB && h.type != 0xA
    let (c, s) := if metered then colour s h.job.toNat h.cls.toNat (frameBytes f) else (.green, s)
    if c = .red then dropIn s p rMeterRed h f
    else
      let s := mirrorIn s p h f
      if consumes s h then consume s p h f
      else if h.type == 5 then
        -- A TALLY_RELEASE waits for TALLY_RELEASE_PASS, bad or good: it is replicated either way (06 R172).
        { s with intake := s.intake ++ [{ frame := f, port := p, arrival := s.now }] }
      else forward s p old h f (decide (c = .yellow))

/-- Framing is lost until an idle data cycle comes, or goes on: what arrives now takes n data cycles (09 R262). -/
def framingLoss (s : State) (p n : Nat) : State :=
  let t := match (portAt s p).link.framingLost with
    | some (t, _) => t
    | none => s.now
  modLink s p fun l => { l with framingLost := some (t, s.now + n) }

/-- Data cycles of a frame as received. -/
def cyclesHere (s : State) (p : Nat) (f : Frame) : Nat := ceilDiv (40 + f.payload.length) (32 * widthOf s p)

/-- Framing is still lost on a port: no data cycle has been idle since. -/
def stillLost (s : State) (p : Nat) : Bool := match (portAt s p).link.framingLost with
  | some (_, e) => decide (s.now ≤ e)
  | none => false

/-- No idle data cycle has come for 4,096 data cycles: the port is handled as for loss of block lock (09 R262). -/
def framingTimeout (s : State) (p : Nat) : State := match (portAt s p).link.framingLost with
  | some (t, _) => if stillLost s p && decide (s.now ≥ t + 4096) then
      lockLost (modLink s p fun l => { l with framingLost := none }) p else s
  | none => s

/-- FCLK cycles from a frame's arrival to its parse and lookup stage (07 Table 7.7). -/
def lookupStage : Nat := 38

/-- A set may commit by the cycle in which a frame that arrives now is looked up (07 R222): one that is armed, or with ticks off one that may
yet be, for it commits in the cycle after. -/
def lookupWaits (s : State) : Bool := !ticksOn s || s.tables.armed.any fun a => decide (startOf s a.tick ≤ s.now + lookupStage)

/-- The frame is looked up after a set that may be due, or after a frame that waits for that. -/
def lookupLater (s : State) : Bool := lookupWaits s || !s.parsing.isEmpty

/-- A frame that is looked up is checked and goes its way. -/
def checkFrame (s : State) (p : Nat) (f : Frame) : State :=
  let h := headerOf f.hdr
  let s := lookEntries s p h
  match inputCheck s p h with
  | .error c => dropIn s p c h f
  | .ok h' => passed s p h h' f

/-- A frame whose header arrives now on a port. One that fails HCRC or is malformed loses framing at once (09 R262). Where no set can commit
before its lookup, the tables it meets are those of now, and it goes its way at once; else it waits for the cycle of its lookup (07
R222). -/
def execFrameReceive (port : BitVec 9) (f : Frame) (s : State) : Res :=
  .next (
    let p := port.toNat
    let h := headerOf f.hdr
    if !(portAt s p).conf then s
    else if stillLost s p then framingLoss s p (cyclesHere s p f)
    else
      let s := modLink s p fun l => { l with framingLost := none }
      if h.hcrc ≠ hcrcOf (headerBits { h with hcrc := 0 }) then framingLoss (dropIn s p rHcrc h f) p (cyclesHere s p f)
      else if malformed h then framingLoss (dropIn s p rMalformed h f) p (cyclesHere s p f)
      else if lookupLater s then { s with parsing := s.parsing ++ [(p, f, s.now)] }
      else checkFrame s p f)

/-- A frame that waited for its lookup goes its way, as of its arrival. -/
def lookUp (s : State) (x : Nat × Frame × Nat) : State :=
  let s' := checkFrame { s with parsing := s.parsing.erase x, now := x.2.2 } x.1 x.2.1
  { s' with now := s.now }

/-- The frames whose lookup stage is this cycle's or an earlier one's. -/
def lookUps (s : State) : State :=
  (s.parsing.filter fun x => decide (x.2.2 + lookupStage ≤ s.now)).foldl lookUp s

/-- A frame taken from the frames that wait for their block: its port and arrival; one that is not waiting arrives now. -/
def takeIntake (s : State) (f : Frame) : State × Nat × Nat :=
  match s.intake.find? fun i => decide (i.frame = f) with
  | some i => ({ s with intake := s.intake.erase i }, i.port, i.arrival)
  | none => (s, selfPort, s.now)

end Sys2Proof.Machine
end

