-- ==== Sys2Proof/Machine/Sched.lean ====
section
/-! DEFINITION. Outputs: which queued frame starts, credit cycles, source stalls, aligned release copies and kickstand frames
(06 R175, R176; 07 R204, R206; 08 R244, R245; 10 R290-R298; 12 R345-R348). -/

namespace Sys2Proof.Machine

/-! ### Conditions of a start (10 R290) -/

/-- A class is held by a drain: from its start to the end of the commit cycle, and until the overflow copy ends (09 R286,
R287). -/
def drained (s : State) (c : Nat) : Bool :=
  s.tables.armed.any (fun a => a.draining && bit a.mask.toNat c) || bit s.tables.overflowMask.toNat c ||
    (bit s.tables.heldMask.toNat c && decide (s.now ≤ s.tables.heldAt))

/-- Tokens of shaper n in cycle t (10 R298): a disabled shaper keeps them. -/
def shaperAt (s : State) (n t : Nat) : Int :=
  let k := sget {} s.shapers n
  if !bit (ew s 0x21 n 0).toNat 63 then k.value
  else min (k.value + ((t : Int) - k.at_) * (shaperRate s n : Int)) ((shaperBurst s n : Int) * 65536)

/-- A kickstand frame on its way from a board link (12 R345). -/
def isKick (e : Entry) : Bool := (headerOf e.frame.hdr).type == 0xA

/-- The frame is exempt from gates and shapers (07 R207): an aligned release copy, or a kickstand. -/
def isExempt (e : Entry) : Bool := isAligned e || isKick e

/-- On an edge port it spends no credit (06 R175, 12 R347). -/
def spendsNone (s : State) (p : Nat) (e : Entry) : Bool := isExempt e && isEdge s p

/-- The first cycle at or after which an aligned copy may go: its send cycle on an endpoint port, at once on a switch port. -/
def alignedDue (s : State) (p : Nat) (e : Entry) : Nat := match e.aligned with
  | some (_, c) => if isEdge s p then max c e.ready else e.ready
  | none => e.ready

/-- Hold-off before an aligned copy's send cycle (06 R176). -/
def heldOff (s : State) (p n : Nat) : Bool :=
  isEdge s p && (portAt s p).q.queue.any fun e => match e.aligned with
    | some (_, c) => decide (s.now + n > c)
    | none => false

/-- The link lets frames start: no replayed copy is under way or begins now (08 R237, R241). -/
def linkOpen (s : State) (p : Nat) : Bool :=
  let q := portAt s p
  q.conf && q.link.started && carrying q.link.st && q.link.fencedAt.isNone && !q.link.degrading && !q.link.copying && !s.boot.allIdle &&
    (decide (s.now % 10 ≠ 0) || q.link.resend.isEmpty)

/-- Credit for a frame's cells. -/
def hasCredit (s : State) (p : Nat) (e : Entry) : Bool :=
  spendsNone s p e || decide (cellsOf e.frame ≤ nth (portAt s p).q.credit e.cls)

/-- A queued frame may start now, the lane apart (10 R290). -/
def mayStart (s : State) (p : Nat) (e : Entry) : Bool :=
  let n := leaveCycles e (widthOf s p)
  let origin := !(e.src == 16 && drained s e.cls)
  if isAligned e then decide (alignedDue s p e ≤ s.now) && hasCredit s p e && origin
  else
    decide (e.ready ≤ s.now) && (isKick e || gateOpen s p e.cls n) && hasCredit s p e && !heldOff s p n && origin &&
      ((portAt s p).q.awaitCred.getD e.cls none).isNone && (isKick e ||
      match boundShaper s p e.cls with
      | some k => decide (shaperAt s k s.now ≥ 0)
      | none => true)

/-- The head of the virtual output queue of a source and class. -/
def headOf (q : PortQ) (src c : Nat) : Option Entry :=
  q.queue.find? fun e => !isAligned e && e.src == src && e.cls == c

/-- Sources in round-robin order after the one last served. -/
def sourceOrder (last : Nat) : List Nat := (List.range 17).map fun i => (last + 1 + i) % 17

/-- The frame of a class that is first in line to start. -/
def candidate (s : State) (p c : Nat) : Option Entry :=
  let q := (portAt s p).q
  ((sourceOrder (nth q.lastSrc c)).filterMap fun src => headOf q src c).find? (mayStart s p)

/-! ### Queued frames that are discarded (08 R250, 11 R329, 12 R348) -/

/-- Why a queued frame may never start: 1 the link state, counted where it arrived; 2 a latched kickstand; 3 a lost twin. -/
def refusedAt (s : State) (p : Nat) (e : Entry) : Nat :=
  let q := portAt s p
  let h := headerOf e.frame.hdr
  if !linkAllows q.link.st q.plan h then 1
  else if e.mirror.isNone && kickHolds s p h then 2
  else if e.mirror.isNone && tandemHolds s p h then 3
  else 0

/-- Queued frames that may never start are discarded. -/
def purge : Nat → State → Nat → State
  | 0, s, _ => s
  | n + 1, s, p =>
    match (portAt s p).q.queue.find? fun e => refusedAt s p e != 0 with
    | none => s
    | some e =>
      let why := refusedAt s p e
      let s := dropLater (modQ s p fun q => unqueue q fun x => x.fid == e.fid) e.fid
      let s := if why = 1 then discard s ((e.inPort.map (·.1)).getD p) rLinkState
               else if why = 2 then countPort s p cKickHeld 1 else countHeld s p
      purge n s p

/-! ### Starting a frame -/

/-- TICK of an originated frame, written in its first data cycle, and the trailer that follows from it (07 R204). A TALLY_RELEASE keeps its
release tick (06 R168, R174). -/
def stamp (s : State) (e : Entry) : Frame :=
  let h := headerOf e.frame.hdr
  if e.src = 16 ∧ e.mirror = none ∧ e.aligned = none ∧ [2, 3, 9, 4, 8, 0xA, 0xB].contains h.type.toNat = true then
    mkFrame { h with tick := tick16 s } e.frame.payload
  else e.frame

/-- A TC7 frame with this header meets a watch, begun at an offset of its tick (07 R210). -/
def meets (w : W64) (h : Header) (ofs : Nat) : Bool :=
  dlEn w && dlJob w == h.job.toNat && (dlAny w || dlSrc w == h.src.toNat) && decide (ofs < dlCycle w)

/-- A frame whose header begins now meets the port's watches (07 R210). -/
def meetWatches (s : State) (p : Nat) (h : Header) : State :=
  if h.cls != 7 || h.type == 0xA || tickLen s == 0 || !s.tick.running then s
  else
    let hit (q : Port) (n : Nat) : Bool := q.met.getD n false || meets (watchEntry s p n) h (curOfs s)
    modPort s p fun q => { q with met := (List.range 4).map (hit q) }

/-- WAIT_MAX of a class (10 Table 10.8). -/
def noteWait (q : PortQ) (c w : Nat) : PortQ :=
  let r := q.samples.getD c (0, 0, 0, 0)
  { q with samples := q.samples.set c (r.1, r.2.1, r.2.2.1, min Config.sat32 (max r.2.2.2 w)) }

/-- Tokens spent by a shaped frame. -/
def spendTokens (s : State) (p : Nat) (e : Entry) : State :=
  match boundShaper s p e.cls with
  | none => s
  | some k =>
    let v := shaperAt s k s.now - (frameBytes e.frame : Int) * 65536
    { s with shapers := sput {} s.shapers k { value := v, at_ := s.now } }

/-- A copy of a frame without cells has started: it is not discarded any more (10 R309). -/
def noteStart (s : State) (fid : Nat) : State := match ofind s.frames fid with
  | some h => if h.cells = 0 ∧ h.started = false then hold s fid { h with started := true } else s
  | none => s

/-- A frame starts on a port in this data cycle. -/
def startFrame (s : State) (p : Nat) (e : Entry) : State :=
  let f := stamp s e
  let f := if e.stomp = 0 then f else stompFrame f e.stomp
  -- Read from the buffer: a cell that fails its check stomps the frame (09 R277).
  let failed := s.faults.cells.any (fun c => c.fid == e.fid) && ((ofind s.frames e.fid).map (·.cells)).getD 0 != 0
  let f := if failed then stompFrame f 0x0002 else f
  let found (c : CellFault) : CellFault := if c.fid = e.fid then { c with read := true } else c
  let s := if failed then stompCopies { s with faults := { s.faults with cells := s.faults.cells.map found } } (· == (e.fid, p)) 0x0002 else s
  let s := if isExempt e then s else spendTokens s p e
  let k := if spendsNone s p e then 0 else cellsOf e.frame
  let n := leaveCycles e (widthOf s p)
  let lane : OnLane := .frame { e with frame := f } s.now n
  let s := modQ s p fun q => settleDeficit (noteWait { q with
    queue := q.queue.filter fun x => x.fid != e.fid,
    credit := q.credit.set e.cls (nth q.credit e.cls - k),
    lastSrc := if isAligned e then q.lastSrc else q.lastSrc.set e.cls e.src,
    lane := lane, stallFrom := none, done := 0, cut := none } e.cls (s.now - e.arrival)) e.cls
  let s := if frameGood f then s else countPort s p cStompTx 1
  let s := if e.src == 16 && e.mirror.isNone && !isAligned e then formRecords s e.fid p f (s.now + n) else s
  let s := endCtx (noteStart s e.fid) e.fid
  let s := if e.src = 16 ∧ e.mirror = none then mirrorOut s p (pgOf p) { e with frame := f } else s
  meetWatches s p (headerOf f.hdr)

/-- One visit of the turn (10 R292): the class that may start, with its deficit, or the turn passed on. -/
def drr : Nat → State → Nat → State
  | 0, s, _ => s
  | k + 1, s, p =>
    let q := (portAt s p).q
    let c := q.turn
    let pass (q : PortQ) : PortQ := { q with turn := (c + 5) % 6, turnOpen := false }
    if quantum s p c = 0 then drr k (modQ s p pass) p
    else
      match candidate s p c with
      | none => drr k (modQ s p pass) p
      | some e =>
        let d := nth q.deficit c + if q.turnOpen then 0 else quantum s p c * 256
        let b := frameBytes e.frame
        if b ≤ d then
          startFrame (modQ s p fun q => { q with turnOpen := true, deficit := q.deficit.set c (d - b) }) p e
        else drr k (modQ s p fun q => pass { q with deficit := q.deficit.set c d }) p

/-- The choice among TC5 to TC0 (10 R292). -/
def startBulk (s : State) (p : Nat) : State :=
  let turned := [5, 4, 3, 2, 1, 0].filter fun c => quantum s p c != 0 && (candidate s p c).isSome
  if !turned.isEmpty then drr 256 s p
  else
    match [5, 4, 3, 2, 1, 0].findSome? (candidate s p) with
    | some e => startFrame s p e
    | none => s

/-- Contributions that a drain keeps waiting in the intake of a port's group (03 R92): cells, and the classes concerned. -/
def drainWaits (s : State) (p : Nat) : List (Nat × Nat) :=
  (s.intake.filter fun i =>
    let h := headerOf i.frame.hdr
    h.type == 1 && pgOf i.port == pgOf p && (ofind s.tills h.till.toNat).any fun t => t.drains.any fun d => decide (s.now ≥ drainAt d.c)).map
    fun i => (cellsOf i.frame, (headerOf i.frame.hdr).cls.toNat)

/-- Credit of a class is withheld on a port: by a relay; by a drain on an edge port; or by a drained till, once what waits for it fills the
intake (03 R92), whose room the spec does not give: a free value (assumption log 4). -/
def creditHeld (s : State) (p c : Nat) : Bool :=
  nth (portAt s p).q.withheld c != 0 || (isEdge s p && drained s c) ||
    ((drainWaits s p).any (fun x => x.2 == c) && decide (sumNat ((drainWaits s p).map (·.1)) ≥ Config.intakeCells (pgOf p)))

/-- A kickstand detected on the port in the cycle in which the copy is due goes first (12 Table 12.12). -/
def kickFirst (s : State) (p : Nat) (e : Entry) : Bool :=
  let k := (portAt s p).kick
  isEdge s p && (k.pending.any (fun x => x.cycle == alignedDue s p e) || (match k.testAt with
    | some c => c + 1 == alignedDue s p e
    | none => false))

/-- An aligned release copy that may go now; of several, the one of the lowest tally (06 R176). -/
def alignedNow (s : State) (p : Nat) : Option Entry :=
  let es := (portAt s p).q.queue.filter fun e => isAligned e && mayStart s p e && !kickFirst s p e
  let key (e : Entry) : Nat := alignedDue s p e * 4096 + (e.aligned.getD (0, 0)).1
  es.foldl (fun b e => match b with
    | none => some e
    | some x => if key e < key x then some e else some x) none

/-- A pending kickstand whose reaction time is over (12 Table 12.11). -/
def kickDue (s : State) (p : Nat) : Option KickPend :=
  (portAt s p).kick.pending.find? fun k => decide (s.now ≥ k.cycle + 30)

/-- Payload units of a kickstand entry, its frame and its credit. -/
def kickCells (k : KickPend) : Nat := ceilDiv (40 + 32 * wf k.words 0 47 44) 256

/-- The link carries a kickstand, a replay under way apart (08 R245). -/
def kickOpen (s : State) (p : Nat) : Bool :=
  let q := portAt s p
  q.conf && q.link.started && carrying q.link.st && q.link.fencedAt.isNone && !q.link.degrading && !s.boot.allIdle

/-- The kickstand may take the lane: the link carries it, and credit on a board link (12 R347, R349). -/
def kickMayGo (s : State) (p : Nat) (k : KickPend) : Bool :=
  kickOpen s p && (isEdge s p || decide (kickCells k ≤ nth (portAt s p).q.credit 7))

/-- A kickstand takes the lane in this cycle, ahead of every frame (10 R291). -/
def kickTakes (s : State) (p : Nat) : Bool := match kickDue s p with
  | some k => kickMayGo s p k && (portAt s p).kick.sentTick != some s.tick.num
  | none => false

/-- RET0-RET7 that a credit cycle would carry now. -/
def returns (s : State) (p : Nat) : List Nat :=
  (List.range 8).map fun c => if creditHeld s p c then 0 else min 0xFFFF (nth (portAt s p).q.owed c)

/-- A TC7 frame or aligned copy may start in cycle t. -/
def urgentAt (s : State) (p t : Nat) : Bool :=
  let s' := { s with now := t }
  (candidate s' p 7).isSome || (alignedNow s' p).isSome

/-- A credit cycle takes this data cycle: there is credit to return, no frame is on the lane, none of TC7 starts now or next, and 16 data
cycles have passed since the last (10 R295). -/
def creditDue (s : State) (p : Nat) : Bool :=
  let q := (portAt s p).q
  let rest := match q.lastCredit with
    | none => true
    | some t => decide (s.now ≥ t + 16)
  linkOpen s p && q.lane == .idle && sumNat (returns s p) != 0 && rest && !urgentAt s p s.now && !urgentAt s p (s.now + 1)

/-- An output chooses the frame that starts in this cycle: nothing while the lane is busy, while a kickstand is due, or while an
aligned copy is (10 R290, R291); below TC7, nothing in a data cycle that a credit cycle takes (R295). -/
def execFrameStart (port : BitVec 9) (s : State) : Res :=
  .next (
    let p := port.toNat
    let s := if (portAt s p).link.degrading then s else purge (portAt s p).q.queue.length s p
    if !linkOpen s p || (portAt s p).q.lane != .idle || kickTakes s p then s
    else
      match alignedNow s p with
      | some e => if isEdge s p then s else startFrame s p e
      | none =>
        match candidate s p 7 with
        | some e => startFrame s p e
        | none =>
          if creditDue s p then s
          else match candidate s p 6 with
          | some e => startFrame s p e
          | none => startBulk s p)

/-! ### Source stalls (08 R244) -/

def execSourceStall (port : BitVec 9) (s : State) : Res :=
  .next (match (portAt s port.toNat).q.stallFrom with
    | some c => if s.now ≥ c + 4096 then cutLane s port.toNat 0x0003 else s
    | none => s)

/-! ### Credit cycles (10 R295, R296) -/

/-- A received credit cycle, whose credit may be spent from the next cycle; one that comes while framing is lost is discarded with the rest (09 R262). -/
def execCreditCycleReceive (port : BitVec 9) (ret : List (BitVec 16)) (s : State) : Res :=
  .next (
    let q := portAt s port.toNat
    if !q.conf || !carrying q.link.st then s
    else if stillLost s port.toNat then framingLoss s port.toNat 1
    else
      let sum (q : PortQ) (c : Nat) : Nat := nth q.coming c + (ret.getD c 0).toNat
      modQ s port.toNat fun q => { q with coming := (List.range 8).map (sum q) })

/-- The cycle after: the credit is there. -/
def creditArrives (s : State) (p : Nat) : State :=
  let sum (q : PortQ) (c : Nat) : Nat := nth q.credit c + nth q.coming c
  if sumNat (portAt s p).q.coming = 0 then s
  else modQ s p fun q => { q with credit := (List.range 8).map (sum q), coming := List.replicate 8 0 }

def execCreditCycleSend (port : BitVec 9) (s : State) : Res :=
  .next (
    let p := port.toNat
    let ret := returns s p
    if !creditDue s p then s
    else modQ s p fun q => { q with lane := .credit s.now, lastCredit := some s.now, ret := ret,
                                    owed := (List.range 8).map fun c => nth q.owed c - nth ret c })

/-! ### Aligned release copies (06 R175, R176) -/

/-- A late copy: LATE_RELEASE of the tally at this switch, and its event. -/
def noteLate (s : State) (p : Nat) (e : Entry) : State :=
  match e.aligned with
  | none => s
  | some (t, c) =>
    if s.now ≤ c then s
    else
      let s := match tallyAt s t with
        | some v =>
          if wf v.words 0 51 44 = (headerOf e.frame.hdr).job.toNat then setTally s t { v with late := satAdd 0x3FF v.late 1 } else s
        | none => s
      postEvent s (srcPg (pgOf p)) 0x26 (headerOf e.frame.hdr).job.toNat p (t + (headerOf e.frame.hdr).epoch.toNat * 4096) (s.now - c)

def execAlignedCopySend (port : BitVec 9) (s : State) : Res :=
  .next (
    let p := port.toNat
    let s := if (portAt s p).link.degrading then s else purge (portAt s p).q.queue.length s p
    if !linkOpen s p || !isEdge s p || (portAt s p).q.lane != .idle || kickTakes s p then s
    else
      match alignedNow s p with
      | some e => startFrame (noteLate s p e) p e
      | none => s)

/-! ### The kickstand frame (12 R345-R349) -/

/-- The header of Table 12.10, whose first data cycle is `st`. -/
def kickHeader (s : State) (p : Nat) (k : KickPend) (st : Nat) : Header :=
  { blankHeader with type := 0xA, cls := 7, xp := 1, last := 1, src := (ownEndpoint s).getD 0,
                     dest := BitVec.ofNat 20 (wf k.words 0 39 20), job := BitVec.ofNat 8 (wf k.words 0 55 48),
                     seq := (portAt s p).kick.seq, till := BitVec.ofNat 12 k.till, epoch := k.tick.setWidth 16,
                     tick := BitVec.ofNat 16 (tickAt s st), aux := BitVec.ofNat 32 (k.cause % 16 * 2 ^ 28 + k.ofs % 2 ^ 28) }

/-- The frame: the entry's payload of LEN units. -/
def kickFrame (s : State) (p : Nat) (k : KickPend) (st : Nat) : Frame :=
  mkFrame (kickHeader s p k st) (padTo (32 * wf k.words 0 47 44) (bytesOf (k.words.drop 2)))

/-- A replay under way ends: what has not been resent is dropped, and new blocks follow the last one sent (08 R245). -/
def endReplay (l : Link) : Link := match l.resend with
  | [] => l
  | b :: _ => { l with resend := [], replay := l.replay.takeWhile (·.bsn != b.bsn), txBsn := b.bsn }

/-- The lane is taken in the next data cycle by what stands on it: a cut cycle of a frame of which something has been sent, or a credit
cycle. -/
def laneBusy (q : PortQ) : Bool := match q.lane with
  | .frame _ _ _ => q.done != 0
  | .credit _ => true
  | .cut _ => true
  | .idle => false
  | .kick _ _ _ => false

/-- The data cycle in which the kickstand header leaves: now on an idle lane; after the cut or credit cycle; after the block boundary that
ends a replay. -/
def kickStart (s : State) (p : Nat) : Nat := nextCycle s p + match (portAt s p).link.resend with
  | [] => b2n (laneBusy (portAt s p).q)
  | b :: _ => b2n b.under.isSome

/-- What a replay that ends now was to resend: the frames whose bytes lay there are lost, and a frame under way as its first block began is
stomped in the data cycle c of the boundary (08 R245). A credit cycle that has not left stays owed. -/
def dropReplay (s : State) (p c : Nat) (under : Option (List Byte)) : State :=
  let back (q : PortQ) : PortQ := match q.lane with
    | .credit _ => { q with owed := (List.range 8).map fun i => nth q.owed i + nth q.ret i }
    | _ => q
  let s := loseLane (modQ s p back) p
  match under with
  | none => s
  | some t => countPort (modQ s p fun q => { q with lane := .cut c, cut := some (c, t) }) p cStompTx 1

/-- The kickstand takes the lane: its header's TICK is that of its first data cycle (07 R204). -/
def sendKick (s : State) (p : Nat) (k : KickPend) : State :=
  let st := kickStart s p
  let f := kickFrame s p k st
  let s := match (portAt s p).link.resend with
    | [] => cutLane s p 0x0005
    | b :: _ => dropReplay s p (nextCycle s p) b.under
  let s := modLink s p endReplay
  let lane : OnLane := .kick f st (dataCycles f (widthOf s p))
  let cost := if isEdge s p then 0 else kickCells k
  let s := modQ s p fun q => { q with lane := lane, stallFrom := none, done := 0, credit := q.credit.set 7 (nth q.credit 7 - cost) }
  let s := modKick s p fun x => { x with pending := x.pending.filter (fun y => y.cycle != k.cycle), seq := x.seq + 1,
                                         sentTick := some s.tick.num, sending := some k }
  countPort s p cKickSent 1

/-- A kickstand that must wait is counted KICK_LATE once (12 R347). -/
def kickWaits (s : State) (p : Nat) (k : KickPend) : State :=
  if k.late then s
  else
    let s := modKick s p fun x => { x with pending := x.pending.map fun y => if y.cycle = k.cycle then { y with late := true } else y }
    setCause (countPort s p cKickLate 1) (srcPg (pgOf p)) 14 p (fld (k.words.getD 0 0) 55 48)

def execKickstandSend (port : BitVec 9) (s : State) : Res :=
  .next (
    let p := port.toNat
    match kickDue s p with
    | none => s
    | some k =>
      if (portAt s p).kick.sentTick = some s.tick.num ∨ kickOnLane (portAt s p).q = true then s
      else if kickMayGo s p k then sendKick s p k
      else kickWaits s p k)

/-- REPEAT: a latched port detects again at REP_OFS of each later tick in which none has been sent (12 R348). -/
def execKickstandRepeat (port : BitVec 9) (s : State) : Res :=
  .next (
    let p := port.toNat
    let k := (portAt s p).kick
    if !k.latch || !kickEn s p || !kickRepeat s p || tickLen s == 0 || !s.tick.running || curOfs s != kickRepOfs s p ||
        k.latchTick == s.tick.num || k.sentTick == some s.tick.num || k.repeatTick == some s.tick.num then s
    else kickDetect (modKick s p fun x => { x with repeatTick := some s.tick.num }) p 7 0)

/-! ### Deadline watches (07 R210) and queue samples (10 R303) -/

/-- A watch not met by its deadline is missed. -/
def execWatchDeadline (port : BitVec 9) (watch : BitVec 2) (s : State) : Res :=
  .next (
    let p := port.toNat
    let n := watch.toNat
    let q := portAt s p
    let w := watchEntry s p n
    if !q.conf || !dlEn w || tickLen s == 0 || !s.tick.running || decide (curOfs s < dlCycle w) || q.met.getD n false ||
        q.fresh.getD n false || q.missed.getD n false then s
    else
      let s := modPort s p fun q => { q with missed := q.missed.set n true }
      let s := setCause (countPort s p cWatchMiss 1) (srcPg (pgOf p)) 12 p (dlJob w) n (if dlKick w then n else 0)
      if dlKick w then kickDetect s p 1 n else s)

/-- DEPTH and HEAD_AGE of every class of an output. -/
def sampleQueue (now : Nat) (q : PortQ) : PortQ :=
  { q with samples := (List.range 8).map fun c =>
      let r := q.samples.getD c (0, 0, 0, 0)
      let heads := (List.range 17).filterMap fun src => q.queue.find? fun e => e.src == src && e.cls == c && !e.express
      let oldest := heads.foldl (fun b e => min b e.arrival) now
      (min Config.sat32 (depthOf q c), r.2.1, min Config.sat32 (now - oldest), r.2.2.2) }

/-- The sample is due: at TICK_SAMPLE.OFFSET of the tick, or every 65,536 cycles with ticks off. -/
def sampleDue (s : State) : Bool :=
  s.tick.sampledAt != some s.now &&
    if tickLen s = 0 ∨ s.tick.running = false then s.now % 65536 == 0
    else curOfs s == (if s.tick.sampleNow.toNat < tickLen s then s.tick.sampleNow.toNat else 0)

def execQueueSample (s : State) : Res :=
  .next (if !sampleDue s then s
         else
           let sample (q : Port) : Port := { q with q := sampleQueue s.now q.q }
           { s with ports := canonMap {} (s.ports.map fun e => (e.1, sample e.2)),
                    tick := { s.tick with sampledAt := some s.now, sampleTick := s.tick.num } })

/-! ### MGMT frames of the steward's link management (09 R259) -/

def mgmtSubtype (h : Header) : Nat := h.aux.toNat / 2 ^ 24

/-- A MGMT frame of a subtype other than TICK_OFFER and TANDEM is consumed. -/
def execMgmtReceive (port : BitVec 9) (f : Frame) (s : State) : Res :=
  .next (
    let h := headerOf f.hdr
    if h.type != 0xB || !(portAt s port.toNat).conf || mgmtSubtype h == 1 || mgmtSubtype h == 0x10 then s else (takeIntake s f).1)

end Sys2Proof.Machine
end

