-- ==== Sys2Proof/Machine/Blocks.lean ====
section
/-! DEFINITION. What a port's lanes send: the data cycles of a block, its codeword and scrambling, replayed copies (08 R223-R228, R240-R245;
10 R295). -/

namespace Sys2Proof.Machine

/-! ### Data cycles (08 R226) -/

/-- Data cycle k of the `total` in which a frame leaves on w lanes: its bytes and HOLD. A frame that arrived cut ends with a cut cycle (09
R278). -/
def frameCycle (f : Frame) (w k total : Nat) : List Byte × Bool :=
  if f.cut then
    if k + 1 = total then (padTo (32 * w) (trailerBytes f.crc f.status), true)
    else (slice (hdrBytes f.hdr ++ f.payload) (32 * w * k) (32 * w), false)
  else (slice (wireBytes f) (32 * w * k) (32 * w), false)

/-- A credit cycle: 0x0C, and RET0-RET7 from byte 2 (10 R295). -/
def creditBytes (w : Nat) (ret : List Nat) : List Byte := padTo (32 * w) ([0x0C, 0] ++ (ret.map (beBytes 2)).flatten)

/-- What a port sends in this data cycle, with HOLD, and whether it is one of the frame on the lane. -/
def dataCycle (s : State) (p : Nat) : (List Byte × Bool) × Bool :=
  let q := (portAt s p).q
  let w := widthOf s p
  let zero : List Byte := List.replicate (32 * w) 0
  match q.cut with
  | some (c, t) => if c = s.now then ((padTo (32 * w) t, true), false) else body q w zero
  | none => body q w zero
where
  body (q : PortQ) (w : Nat) (zero : List Byte) : (List Byte × Bool) × Bool :=
    if q.lastCredit = some s.now then ((creditBytes w q.ret, false), false)
    else match q.lane with
      | .frame e st _ => if st > s.now then ((zero, false), false)
                         else if q.stallFrom.isSome then ((zero, true), false)
                         else (frameCycle e.frame w q.done (leaveCycles e w), true)
      | .kick f st _ => if st > s.now then ((zero, false), false) else (frameCycle f w q.done (dataCycles f w), true)
      | _ => ((zero, false), false)

/-- The data cycle joins the block under way, and whether it carries bytes of a frame (06 R188). -/
def sendCycle (s : State) (p : Nat) : State :=
  let q := portAt s p
  if q.link.block.isNone || q.link.copying then s
  else
    let (c, moved) := dataCycle s p
    let cut := q.q.cut.any fun x => x.1 == s.now
    modPort s p fun q => { q with link := { q.link with cycles := q.link.cycles ++ [c], busy := q.link.busy ++ [moved || cut] },
                                  q := if moved then { q.q with done := q.q.done + 1 } else q.q }

/-- A cut or credit cycle due in a cycle that a replayed copy takes goes in the next, and a kickstand behind it (08 R241, 09 R278). -/
def putOff (now : Nat) (q : PortQ) : PortQ :=
  if q.cut.any (fun c => c.1 == now) || q.lastCredit == some now then
    { q with cut := q.cut.map fun c => if c.1 = now then (now + 1, c.2) else c,
             lastCredit := if q.lastCredit = some now then some (now + 1) else q.lastCredit,
             lane := match q.lane with
               | .credit _ => .credit (now + 1)
               | .cut _ => .cut (now + 1)
               | .kick f st n => .kick f (if st > now then st + 1 else st) n
               | l => l }
  else q

/-- The bytes of a frame's next data cycle are not there: they have not come, or not long enough ago for the path, whose latency the copy's
first data cycle keeps (08 R244, 07 R214; over the bridge 01 R14). -/
def bytesLate (s : State) (p : Nat) (e : Entry) (k : Nat) : Bool := match e.inPort with
  | none => decide (s.now < e.ready + k)
  | some (ip, _) =>
    let x := e.arrival + (32 * widthOf s p * (k + 1) - 1) / (32 * widthOf s ip)
    match byteArrival (portAt s ip).link e.arrival x with
    | none => true
    | some y => decide (s.now < e.ready + k + (y - x))

/-- What stands on the lane stands still for this cycle: a replayed copy takes it (08 R241), or bytes of the frame are late (R244). -/
def standStill (s : State) (p : Nat) : State :=
  let q := portAt s p
  let copying := q.link.copying
  match q.q.lane with
  | .frame e st n =>
    -- Bytes short on the bridge delay it once they would be due.
    let short := s.bridge.short.contains (.copy e.fid, dieOf p) || s.bridge.short.contains (.result e.fid, dieOf p)
    let e := if short then { e with ready := e.ready + 1 } else e
    let on := decide (st ≤ s.now)
    let late := on && bytesLate s p e q.q.done
    if short || late || (on && copying) || q.q.stallFrom.isSome then
      modQ s p fun r => { r with lane := .frame e st (n + b2n (late || (on && copying))),
                                 stallFrom := if late then some (r.stallFrom.getD s.now) else none }
    else s
  | .kick f st n =>
    if !copying then s else if st ≤ s.now then modQ s p fun r => { r with lane := .kick f st (n + 1) } else modQ s p (putOff s.now)
  | .idle => s
  | _ => if copying then modQ s p (putOff s.now) else s

/-! ### The block that ends (08 R223-R225, R240) -/

/-- The data bits of each of n lanes: bytes 32j to 32j + 31 of every data cycle (08 R226). -/
def laneData (n : Nat) (cycles : List (List Byte × Bool)) : List (BitVec 2560) :=
  (List.range n).map fun j => BitVec.ofNat 2560 (beNat (cycles.map fun c => slice c.1 (32 * j) 32).flatten)

/-- The block as a lane sends it, scrambled from a state, its polarity as TX_INV says. -/
def wireBlock (head : BitVec 80) (data : BitVec 2560) (scr : Nat) (inv : Bool) : BitVec 2800 :=
  let b := scramble scr (BitVec.ofNat 2800 (head.toNat * 2 ^ 2720 + rsEncode data.toNat))
  if inv then flipPairs b else b

/-- The block under way ends: HOLD marks its data cycles, and each lane with an equalisation entry has sent it. -/
def endTxBlock (s : State) (p : Nat) : State :=
  let q := portAt s p
  match q.link.block with
  | none => s
  | some b =>
    let l := q.link
    let b := if l.copying then b
             else { b with heads := b.heads.map fun h => holdHeader h l.cycles, data := laneData q.lanes.length l.cycles,
                           busy := l.busy }
    let s := (List.range q.lanes.length).foldl (fun s j =>
      let ln := nth q.lanes j
      if laneEn s ln then
        let a := laneAt s ln
        let h := b.heads.getD j 0
        setLane s ln { a with sent := h, wire := wireBlock h (b.data.getD j 0) a.txScr (txInv s ln), txScr := (scrBlock a.txScr).2 }
      else s) s
    modLink s p fun l => { l with block := none, copying := false, cycles := [], busy := [],
                                  replay := if l.copying then l.replay else l.replay.map fun x => if x.bsn = b.bsn then b else x }

/-! ### The block that begins (08 R223, R228, R240, R243) -/

/-- The number of the block a port begins now, and the stored block when it is a replayed copy. -/
def nextBlock (l : Link) : BitVec 12 × Option TxBlock := match l.resend with
  | b :: _ => (b.bsn, some ((l.replay.find? fun x => x.bsn == b.bsn).getD b))
  | [] => (l.txBsn, none)

/-- The stomped trailer that would end what is on a lane of w lanes now, should a kickstand end a replay at this block (08 R245): of a frame
of which something has been sent, or of one that is cut already. -/
def underWay (now w : Nat) (q : PortQ) : Option (List Byte) :=
  let stomped (f : Frame) : List Byte :=
    let g := cutFrame { f with status := 0 } (32 * w * q.done - 32) 0x0005
    trailerBytes g.crc g.status
  match q.cut with
  | some (c, t) => if c ≥ now then some t else none
  | none => if q.done = 0 then none
            else match q.lane with
              | .frame e _ _ => some (stomped e.frame)
              | .kick f _ _ => some (stomped f)
              | _ => none

/-- Every lane of a port begins a block: a replayed copy, or a new block, kept until acknowledged once frames may start. A full replay buffer
counts as loss of block lock (08 R243). -/
def beginBlock (s : State) (p : Nat) : State :=
  let s := if (portAt s p).link.replay.length ≥ Config.replayDepth then lockLost s p else s
  let q := portAt s p
  if !q.conf || !sends q.link.st || s.boot.allIdle then s
  else
    let l := q.link
    let (bsn, copy) := nextBlock l
    let lanes := List.range q.lanes.length
    let s := if copy.isSome then s else lanes.foldl (fun s j =>
      let ln := nth q.lanes j
      setLane s ln { laneAt s ln with book := takeBook s p j (bsn.toNat % 64) (laneAt s ln).book }) s
    let b : TxBlock := match copy with
      | some b => { b with heads := b.heads.map (copyHeader l) }
      | none => { bsn := bsn, heads := lanes.map fun j => laneHeader s p j bsn, data := [], under := underWay s.now (widthOf s p) q.q }
    let s := lanes.foldl (fun s j =>
      let ln := nth q.lanes j
      if laneEn s ln then setLane s ln { laneAt s ln with sent := b.heads.getD j 0 } else s) s
    modLink s p fun l => { l with block := some b, copying := copy.isSome, cycles := [], busy := [], sentAt := ((bsn, s.now) :: l.sentAt).take 512,
                                  resend := l.resend.drop 1, txBsn := if copy.isSome then l.txBsn else l.txBsn + 1,
                                  replay := if l.started && copy.isNone then l.replay ++ [b] else l.replay }

/-- Every configured port begins a block in each FCLK cycle whose number is a multiple of 10 (08 R223), with what this cycle has decoded
(R241). -/
def beginBlocks (s : State) : State :=
  if s.now % 10 ≠ 0 then s else ((s.ports.filter fun e => e.2.conf).map (·.1)).foldl beginBlock s

/-- Its last data cycle ends it. -/
def endBlocks (s : State) : State :=
  if s.now % 10 ≠ 9 then s else ((s.ports.filter fun e => e.2.conf).map (·.1)).foldl endTxBlock s

end Sys2Proof.Machine
end

