-- ==== Sys2Proof/Machine/Spdm.lean ====
section
/-! DEFINITION. The SPDM 1.2 responder and DOE discovery (15 R422-R425, 13 Table 13.1). Message codes and the layout of
responses are those of SPDM 1.2 and of PCI Express DOE (assumption log 30, PRESUMED). -/

namespace Sys2Proof.Machine

/-- DOE reports Busy while the steward does not run (15 R424, R413). -/
def doeBusy (s : State) : Bool := !s.boot.steward || s.boot.held

/-- A response sent: its code and content, and its signature when it is signed. -/
def respond (s : State) (code : Byte) (content : List Byte) (signed : Bool := false) : State :=
  let sig := if signed then some (Config.spdmSign s.spdm.count (code :: content)) else none
  { s with spdm := { s.spdm with busy := false, code := code, response := content, signed := sig,
                                 count := s.spdm.count + 1 } }

/-- ERROR with a code: 0x01 InvalidRequest, 0x04 UnexpectedRequest. -/
def respondError (s : State) (e : Byte) : State := respond s 0x7F [e]

/-- A request is answered only when DOE is not Busy. -/
def spdmRequest (s : State) (body : State → State) : State :=
  if doeBusy s then { s with spdm := { s.spdm with busy := true } } else body s

/-- A request that needs a negotiated connection. -/
def spdmConnected (s : State) (body : State → State) : State :=
  spdmRequest s fun s => if s.spdm.algs then body s else respondError s 0x04

/-- Version 1.2 only; the connection starts again. -/
def execGetVersion (s : State) : Res :=
  .next (spdmRequest s fun s =>
    respond { s with spdm := { s.spdm with version := true, caps := false, algs := false } } 0x04 [0x12])

/-- CTExponent 14 and the flags CERT_CAP, CHAL_CAP, MEAS_CAP = 2, MEAS_FRESH_CAP. -/
def execGetCapabilities (s : State) : Res :=
  .next (spdmRequest s fun s =>
    if !s.spdm.version then respondError s 0x04
    else respond { s with spdm := { s.spdm with caps := true } } 0x61 (14 :: leBytes 4 0x36))

/-- TPM_ALG_RSAPSS_4096, TPM_ALG_SHA_512 for both hashes, DMTF measurements. -/
def execNegotiateAlgorithms (s : State) : Res :=
  .next (spdmRequest s fun s =>
    if !s.spdm.caps then respondError s 0x04
    else respond { s with spdm := { s.spdm with algs := true } } 0x63
      ([0x01] ++ leBytes 4 0x08 ++ leBytes 4 0x40 ++ leBytes 4 0x04))

/-- The digest of slot 0's chain; UnexpectedRequest from an unprovisioned device (15 R423). -/
def execGetDigests (s : State) : Res :=
  .next (spdmConnected s fun s =>
    if s.boot.unprovisioned then respondError s 0x04
    else respond s 0x01 (0x01 :: sha512Bytes s.boot.certChain))

/-- A portion of slot 0's chain with what remains after it, of a length that fits a responder object of 64 KiB (15 Table 15.8). -/
def execGetCertificate (slot offset length : Nat) (s : State) : Res :=
  .next (spdmConnected s fun s =>
    if s.boot.unprovisioned then respondError s 0x04
    else if slot ≠ 0 ∨ offset ≥ s.boot.certChain.length then respondError s 0x01
    else
      let part := (s.boot.certChain.drop offset).take (min length 65520)
      let left := s.boot.certChain.length - offset - part.length
      respond s 0x02 (leBytes 2 part.length ++ leBytes 2 left ++ part))

/-- CHALLENGE: the own nonce, the chain's digest and the requester's nonce, signed by the device key, provisioned or not. -/
def execChallenge (slot : Nat) (nonce : BitVec 256) (s : State) : Res :=
  .next (spdmConnected s fun s =>
    if slot ≠ 0 then respondError s 0x01
    else respond s 0x03
      (sha512Bytes s.boot.certChain ++ beBytes 32 (Config.spdmNonce s.spdm.count).toNat ++ beBytes 32 nonce.toNat) true)

/-- A DMTF measurement block. -/
def measureBlock (s : State) (k : Nat) : List Byte :=
  match measurement s k with
  | none => []
  | some (ty, raw, v) =>
    [BitVec.ofNat 8 k, 0x01] ++ leBytes 2 (v.length + 3) ++ [BitVec.ofNat 8 (ty + b2n raw * 128)] ++ leBytes 2 v.length ++ v

/-- GET_MEASUREMENTS: blocks taken fresh, after the number of blocks (15 R425). -/
def execGetMeasurements (index : Byte) (sign : Bool) (nonce : BitVec 256) (s : State) : Res :=
  .next (spdmConnected s fun s =>
    let k := index.toNat
    let tail := beBytes 32 (Config.spdmNonce s.spdm.count).toNat ++ (if sign then beBytes 32 nonce.toNat else [])
    if k = 0 then respond s 0x60 ([12, 0] ++ tail) sign
    else if k ≤ 12 then respond s 0x60 ([0, 1] ++ measureBlock s k ++ tail) sign
    else if k = 255 then
      respond s 0x60 ([0, 12] ++ ((List.range 12).map fun i => measureBlock s (i + 1)).flatten ++ tail) sign
    else respondError s 0x01)

/-- DOE Discovery: vendor 0x0001, protocol 0 Discovery and 1 CMA, and the next index; any other index reads vendor
0xFFFF. -/
def execDoeDiscovery (index : Byte) (s : State) : Res :=
  .next (if doeBusy s then { s with spdm := { s.spdm with busy := true } }
         else
           let r : W32 := if index = 0 then 0x01000001 else if index = 1 then 0x00010001 else 0x0000FFFF
           { s with doe := r, spdm := { s.spdm with busy := false } })

end Sys2Proof.Machine
end

