-- ==== Sys2Proof/Machine/RegCmds.lean ====
section
/-! DEFINITION. The commands on set-up registers: writes, clears, latched reads, debug, I3C and JTAG (14, 16 R453, R454). Each
write goes through the one operation regWrite. -/

namespace Sys2Proof.Machine

/-- Any write with no command of its own. -/
def execRegisterWrite (origin : RegOrigin) (offset : BitVec 20) (size : Nat) (value : W64) (s : State) : Res :=
  .next (regWrite s origin offset.toNat size value)

/-- The offset is a ring's CTL register (13 Tables 13.4, 13.5). -/
def isRingCtl (off : Nat) : Bool :=
  (decide (0x4000 ≤ off) && decide (off < 0x4800) && off % 32 == 16) ||
    (decide (0x4800 ≤ off) && decide (off < 0x5080) && off % 32 == 8)

/-- A write of a ring's CTL with EN = 1 (13 R365). -/
def execRingEnable (origin : RegOrigin) (offset : BitVec 20) (value : W32) (s : State) : Res :=
  .next (if isRingCtl offset.toNat && bit value.toNat 31 then regWrite s origin offset.toNat 4 (value.setWidth 64) else s)

/-- A write of WATCH_k_CTL with EN = 0 (13 R364). -/
def execWatchDisable (origin : RegOrigin) (k : BitVec 10) (value : W32) (s : State) : Res :=
  .next (if bit value.toNat 31 then s else regWrite s origin (0x8008 + 16 * k.toNat) 4 (value.setWidth 64))

/-- A W1C write of a block's STATUS or of a cluster's TILES word (12 R339, R342). -/
def execStatusClear (origin : RegOrigin) (offset : BitVec 20) (value : W32) (s : State) : Res :=
  .next (match statusReg offset.toNat with
    | some (_, 0) => regWrite s origin offset.toNat 4 (value.setWidth 64)
    | some (_, 3) => regWrite s origin offset.toNat 4 (value.setWidth 64)
    | some (_, 4) => regWrite s origin offset.toNat 4 (value.setWidth 64)
    | _ => s)

/-- A write of STAT_KICKnn (12 R350). -/
def execKickLatchClear (origin : RegOrigin) (nn : BitVec 4) (value : W32) (s : State) : Res :=
  .next (regWrite s origin (0x840 + 4 * nn.toNat) 4 (value.setWidth 64))

/-- A write of STAT_REFUSED (14 R398). -/
def execRefusedClear (origin : RegOrigin) (value : W32) (s : State) : Res :=
  .next (regWrite s origin 0x804 4 (value.setWidth 64))

/-- A write of DBG_HALT with OP = halt (14 R405). -/
def execDebugHalt (origin : RegOrigin) (value : W32) (s : State) : Res :=
  .next (if bits value.toNat 31 30 = 1 then regWrite s origin 0x80000 4 (value.setWidth 64) else s)

/-- A write of DBG_HALT with OP = resume (14 R405). -/
def execDebugResume (origin : RegOrigin) (value : W32) (s : State) : Res :=
  .next (if bits value.toNat 31 30 = 2 then regWrite s origin 0x80000 4 (value.setWidth 64) else s)

/-- A write of DBG_KICK_TEST (12 R351). -/
def execDbgKickTest (origin : RegOrigin) (value : W32) (s : State) : Res :=
  .next (regWrite s origin 0x80010 4 (value.setWidth 64))

/-! ### Reads (14 R393, R394) -/

/-- The answer of a register read, kept as the X7 sent it. -/
def answerRead (s : State) (v : W64) : State := { s with host := { s.host with readData := v } }

/-- A read of 4 or 8 bytes, naturally aligned, outside the accumulator window: a _LO register latches; any other access reads
0. -/
def regRead (s : State) (off size : Nat) : State :=
  if s.boot.phase ≠ .run ∨ (size ≠ 4 ∧ size ≠ 8) ∨ off % size ≠ 0 then answerRead s 0
  else
    let s := latchReads s off
    if size = 4 then answerRead s ((readReg s off).setWidth 64)
    else answerRead s (readReg s (off + 4) ++ readReg s off)

/-- A register read; a read of a _LO register is the one with an effect on the state. Offsets of the accumulator window are
ACCUMULATOR_WINDOW_READ's. -/
def execPairLoRead (_origin : RegOrigin) (offset : BitVec 20) (size : Nat) (s : State) : Res :=
  .next (if offset.toNat ≥ 0xC0000 then s else regRead s offset.toNat size)

/-! ### I3C (16 R453) -/

/-- STAT_TEMP word i (16 Table 16.7). -/
def statTemp (s : State) (i : Nat) : W32 :=
  match s.boot.temps.getD i none with
  | none => 0
  | some t =>
    let f := if i < 2 then (s.boot.throttle.getD i none) else none
    BitVec.ofNat 32 (2 ^ 31 + (match f with
      | some (x, _, _, _) => 2 ^ 30 + x % 64 * 2 ^ 24
      | none => 0) + ofInt 8 t)

/-- Offsets that the I3C sideband reads: CAP_, STRAP_, STAT_READY, STAT_STEWARD and TICK_STATUS (14 R397). -/
def i3cReaches (off : Nat) : Bool :=
  decide (off < 0x200) || off == 0x800 || (decide (0x910 ≤ off) && decide (off ≤ 0x918)) || off == 0x200

def execI3cRegisterRead (offset : BitVec 16) (s : State) : Res :=
  .next (
    let off := offset.toNat
    let v : W32 :=
      if 0xF000 ≤ off ∧ off < 0xF018 ∧ off % 4 = 0 then statTemp s ((off - 0xF000) / 4)
      else if off % 4 = 0 ∧ i3cReaches off = true then readReg s off
      else 0
    { s with boot := { s.boot with i3cData := v } })

def execI3cDynamicAddress (address : BitVec 7) (s : State) : Res :=
  .next { s with boot := { s.boot with i3cAddr := address } }

end Sys2Proof.Machine
end

