-- ==== Sys2Proof/Machine/Numbers.lean ====
section
/-! DEFINITION. Grid arithmetic (02): element formats, conversion onto the grid, combination of classes, the mint, payload
layout, and receipts (11 R320, R321). Every value is an exact dyadic number. -/

namespace Sys2Proof.Machine

/-! ### Formats (02 Tables 2.2, 2.3, 2.10) -/

/-- Block-scaled codes. -/
def isScaled (f : Nat) : Bool := decide (f ≤ 6)
/-- BF16, FP16, FP32. -/
def isAnchored (f : Nat) : Bool := f == 8 || f == 9 || f == 10
/-- W48, W96. -/
def isWide (f : Nat) : Bool := f == 16 || f == 17
def isFormat (f : Nat) : Bool := isScaled f || isAnchored f || isWide f

/-- Bits of an element. -/
def fmtBits (f : Nat) : Nat :=
  if f ≤ 2 then 8 else if f ≤ 4 then 4 else if f = 5 then 2 else if f = 6 then 1
  else if f ≤ 9 then 16 else if f = 10 then 32 else if f = 16 then 64 else 128

/-- Fraction positions f of a block-scaled format. -/
def fmtFrac (f : Nat) : Int := if f = 0 then 9 else if f = 1 then 16 else if f = 3 then 1 else 0

/-- Span in bits of a block-scaled format. -/
def fmtSpan (f : Nat) : Nat :=
  if f = 0 then 18 else if f = 1 then 32 else if f = 2 then 8 else if f ≤ 4 then 4 else if f = 5 then 2 else 1

/-- Exponent bits, mantissa bits and bias of a floating format. -/
def floatForm (f : Nat) : Option (Nat × Nat × Nat) :=
  match f with
  | 0 => some (4, 3, 7)
  | 1 => some (5, 2, 15)
  | 3 => some (2, 1, 1)
  | 8 => some (8, 7, 127)
  | 9 => some (5, 10, 15)
  | 10 => some (8, 23, 127)
  | _ => none

/-- Encoding of the largest positive finite value. -/
def maxEnc (f : Nat) : Nat :=
  match f with
  | 0 => 0x7E
  | 1 => 0x7B
  | 2 => 127
  | 3 => 7
  | 4 => 7
  | 5 => 1
  | 6 => 0
  | 8 => 0x7F7F
  | 9 => 0x7BFF
  | 10 => 0x7F7FFFFF
  | _ => 0

/-- Encoding of the largest finite value of the negative sign. -/
def minEnc (f : Nat) : Nat :=
  match f with
  | 2 => 0x80
  | 4 => 8
  | 5 => 2
  | 6 => 1
  | f => 2 ^ (fmtBits f - 1) + maxEnc f

/-- NaN encoding, where the format has one. -/
def nanEnc (f : Nat) : Option Nat :=
  match f with
  | 0 => some 0x7F
  | 1 => some 0x7E
  | 8 => some 0x7FC0
  | 9 => some 0x7E00
  | 10 => some 0x7FC00000
  | _ => none

/-- Encoding of +∞, where the format has one. -/
def infEnc (f : Nat) : Option Nat :=
  match f with
  | 1 => some 0x7C
  | 8 => some 0x7F80
  | 9 => some 0x7C00
  | 10 => some 0x7F800000
  | _ => none

/-! ### Exact values -/

/-- A value: its class, and m × 2^e when it is finite. -/
structure Val where
  cls : Cls
  m : Int
  e : Int
  deriving DecidableEq, Repr

def Val.fin (m e : Int) : Val := { cls := .fin, m := m, e := e }
def Val.inf (neg : Bool) : Val := { cls := if neg then .ninf else .pinf, m := 0, e := 0 }
def Val.nan : Val := { cls := .nan, m := 0, e := 0 }

/-- A value is below zero. -/
def Val.neg (v : Val) : Bool := v.cls == .ninf || (v.cls == .fin && decide (v.m < 0))

/-- floor(n × 2^k). -/
def scaleFloor (n k : Int) : Int := if k ≥ 0 then n * 2 ^ k.toNat else n / 2 ^ (-k).toNat

/-- n × 2^k is no integer. -/
def lossy (n k : Int) : Bool := decide (k < 0) && n % 2 ^ (-k).toNat != 0

/-- m × 2^a ≤ n × 2^b. -/
def dyLe (m a n b : Int) : Bool :=
  if a ≥ b then decide (m * 2 ^ (a - b).toNat ≤ n) else decide (m ≤ n * 2 ^ (b - a).toNat)

/-- m × 2^e rounded to an integer, nearest even (R51 step 5). -/
def roundEven (m : Nat) (e : Int) : Nat :=
  if e ≥ 0 then m * 2 ^ e.toNat
  else
    let d := 2 ^ (-e).toNat
    let q := m / d
    let r := m % d
    if 2 * r < d ∨ (2 * r = d ∧ q % 2 = 0) then q else q + 1

/-- Bits needed for a number. -/
def bitLen (n : Nat) : Nat := if n = 0 then 0 else Nat.log2 n + 1

/-- The value an element encodes (R32, R56; Table 2.3). -/
def decodeElem (f enc : Nat) : Val :=
  match floatForm f with
  | some (eb, mb, bias) =>
    let s := bit enc (eb + mb)
    let E := bits enc (eb + mb - 1) mb
    let M := enc % 2 ^ mb
    let top := E == 2 ^ eb - 1
    if f = 0 ∧ top ∧ M = 7 then .nan
    else if f ≠ 0 ∧ f ≠ 3 ∧ top then (if M = 0 then .inf s else .nan)
    else
      let mag : Int := if E = 0 then M else 2 ^ mb + M
      .fin (if s then -mag else mag) (max E 1 - bias - mb)
  | none =>
    if f = 6 then .fin (if enc % 2 = 1 then -1 else 1) 0
    else if isWide f then
      let vb := if f = 16 then 48 else 96
      match bits enc (vb + 1) vb with
      | 0 => .fin (toInt vb enc) 0
      | 1 => .inf false
      | 2 => .inf true
      | _ => .nan
    else .fin (toInt (fmtBits f) enc) 0

/-- Round to nearest even in a floating format: the magnitude's encoding, not bounded above. -/
def roundFloat (mb bias m : Nat) (e : Int) : Nat :=
  if m = 0 then 0
  else
    let emin : Int := 1 - bias - mb
    let q := max (e + bitLen m - 1 - mb) emin
    (q - emin).toNat * 2 ^ mb + roundEven m (e - q)

/-- A finite value rounded to a format (R51 steps 5 and 6): the encoding, and whether it had to saturate.
B1S keeps the sign of the value rounded, of the product where the till is fused (DESIGN CHOICE, assumption log 54: R53 speaks of T alone). -/
def encodeElem (f : Nat) (m e : Int) : Nat × Bool :=
  match floatForm f with
  | some (eb, mb, bias) =>
    let enc := roundFloat mb bias m.natAbs e
    if enc > maxEnc f then (if m < 0 then minEnc f else maxEnc f, true)
    else if enc = 0 then (0, false)
    else (if m < 0 then 2 ^ (eb + mb) + enc else enc, false)
  | none =>
    if f = 6 then (if m < 0 then 1 else 0, false)
    else
      let q : Int := if m < 0 then -Int.ofNat (roundEven m.natAbs e) else Int.ofNat (roundEven m.natAbs e)
      let hi : Int := maxEnc f
      if q > hi then (maxEnc f, true)
      else if q < -hi - 1 then (minEnc f, true)
      else (ofInt (fmtBits f) q, false)

/-! ### Payload layout (R34, R35) -/

/-- Elements of a block. -/
def blockElems (blk : Bool) : Nat := if blk then 32 else 16

/-- Bytes of the elements of a block. -/
def blockBytes (f : Nat) (blk : Bool) : Nat := blockElems blk * fmtBits f / 8

def round32 (n : Nat) : Nat := ceilDiv n 32 * 32

/-- Element i of the bytes of a block. -/
def elemAt (f : Nat) (l : List Byte) (i : Nat) : Nat :=
  let b := fmtBits f
  if b ≥ 8 then leAt l (i * b / 8) (b / 8) else bits (l.getD (i * b / 8) 0).toNat (i * b % 8 + b - 1) (i * b % 8)

/-- The elements of n blocks from byte a. -/
def elemsOf (f n : Nat) (l : List Byte) : List Nat := (List.range n).map (elemAt f l)

/-- The bytes of elements. -/
def packElems (f : Nat) (l : List Nat) : List Byte :=
  let b := fmtBits f
  if b ≥ 8 then (l.map fun e => leBytes (b / 8) e).flatten
  else (List.range (l.length * b / 8)).map fun i =>
    BitVec.ofNat 8 (sumNat ((List.range (8 / b)).map fun j => nth l (i * (8 / b) + j) * 2 ^ (j * b)))

/-- A block on a lane: its scale byte (0 for an unscaled format) and its elements. -/
structure Blk where
  scale : Nat
  encs : List Nat
  deriving DecidableEq, Repr

/-- Bytes that n blocks take in a frame. -/
def payloadSize (f : Nat) (blk : Bool) (n : Nat) : Nat :=
  if isScaled f then
    n / 32 * (32 + 32 * blockBytes f blk) + (if n % 32 = 0 then 0 else 32 + round32 (n % 32 * blockBytes f blk))
  else n * blockBytes f blk

/-- Block i of a payload. -/
def blockAt (f : Nat) (blk : Bool) (l : List Byte) (i : Nat) : Blk :=
  let bb := blockBytes f blk
  if isScaled f then
    let g := i / 32 * (32 + 32 * bb)
    { scale := leAt l (g + i % 32) 1, encs := elemsOf f (blockElems blk) (slice l (g + 32 + i % 32 * bb) bb) }
  else { scale := 0, encs := elemsOf f (blockElems blk) (slice l (i * bb) bb) }

/-- Up to 32 blocks as one group. -/
def groupBytes (f : Nat) (bs : List Blk) : List Byte :=
  let body := (bs.map fun b => packElems f b.encs).flatten
  padTo 32 (bs.map fun b => BitVec.ofNat 8 b.scale) ++ padTo (round32 body.length) body

/-- Blocks as a payload. -/
def packBlocks (f : Nat) (bs : List Blk) : List Byte :=
  if isScaled f then
    ((List.range (ceilDiv bs.length 32)).map fun g => groupBytes f ((bs.drop (32 * g)).take 32)).flatten
  else (bs.map fun b => packElems f b.encs).flatten

/-- The rank section of n elements (R82). -/
def rankBytes (rs : List Nat) : List Byte :=
  let l := (rs.map fun r => leBytes 2 (r % 16384)).flatten
  padTo (round32 l.length) l

/-! ### The till's arithmetic parameters (Table 2.1, 03 Table 3.1) -/

def tFmt (w : List W64) : Nat := wf w 1 63 59
def tBlk (w : List W64) : Bool := wb w 1 58
/-- 0 SUM, 1 MAX, 2 MIN. -/
def tOp (w : List W64) : Nat := wf w 1 57 56
/-- 0 strict, 1 aligned, 2 table. -/
def tMode (w : List W64) : Nat := wf w 1 55 54
def tAgreed (w : List W64) : Nat := wf w 1 53 46
def tExt (w : List W64) : Nat := wf w 1 45 41
def tAnchor (w : List W64) : Int := toInt 10 (wf w 1 40 31)
def tSpan (w : List W64) : Nat := wf w 1 30 24
def tPair (w : List W64) : Bool := wb w 1 23
/-- PAIR of an FP32 till; for a block-scaled format PAIR is ignored (R30). -/
def tPaired (w : List W64) : Bool := tPair w && tFmt w == 10
def tContributors (w : List W64) : Nat := wf w 1 22 8
def tWeighted (w : List W64) : Bool := wb w 1 7
def tSatErr (w : List W64) : Bool := wb w 1 6
def tPart (w : List W64) : Nat := wf w 1 5 1
def tOut (w : List W64) : Nat := wf w 2 63 59
def tOutChosen (w : List W64) : Bool := wb w 2 58
def tOutScale (w : List W64) : Nat := wf w 2 57 50
def tOmul (w : List W64) : Nat := wf w 2 49 33
def tOexp (w : List W64) : Int := toInt 8 (wf w 2 32 25)
/-- 0 none, 1 add, 2 multiply. -/
def tFuseOp (w : List W64) : Nat := wf w 2 24 23
def tFuseFab (w : List W64) : Bool := wb w 2 22
def tFuseFmt (w : List W64) : Nat := wf w 2 21 17
/-- Elements in a block of the till. -/
def tElems (w : List W64) : Nat := blockElems (tBlk w)

/-- Exponent of the grid unit U for a block of agreed scale X (R36, R39). -/
def gridExp (w : List W64) (x : Nat) : Int :=
  if isScaled (tFmt w) then (x : Int) - 127 - fmtFrac (tFmt w) - tExt w else tAnchor w

/-! ### Accumulands (R43, R47-R49, R82) -/

def Acc.zero : Acc := { cls := .fin, val := 0, rank := 0, win := 0, empty := true }

def Acc.ofVal (c : Cls) (v : Int) (rank win : Nat) : Acc := { cls := c, val := v, rank := rank, win := win, empty := false }

/-- The class of a SUM of two accumulands (Table 2.9). -/
def sumCls (a b : Cls) : Cls :=
  match a, b with
  | .fin, c => c
  | c, .fin => c
  | .pinf, .pinf => .pinf
  | .ninf, .ninf => .ninf
  | _, _ => .nan

/-- SUM (R27, R48): exact, the lowest rank among the non-finite accumulands. -/
def addAcc (a b : Acc) : Acc :=
  let rank := if a.cls = .fin then b.rank else if b.cls = .fin then a.rank else min a.rank b.rank
  let c := sumCls a.cls b.cls
  { cls := c, val := if c = .fin then a.val + b.val else 0, rank := if c = .fin then 0 else rank, win := 0, empty := false }

/-- a wins over b, values only: for MAX a is greater, for MIN less (R49). -/
def beats (op : Nat) (a b : Acc) : Bool :=
  let key (x : Acc) : Int := match x.cls with
    | .pinf => 1
    | .ninf => -1
    | _ => 0
  let gt (x y : Acc) : Bool := decide (key x > key y) || (key x == key y && decide (x.val > y.val))
  if op = 1 then gt a b else gt b a

/-- MAX or MIN (R49, R82): NaN above all with its lowest rank; the lower rank wins a tie. -/
def maxAcc (op : Nat) (a b : Acc) : Acc :=
  if a.cls = .nan ∨ b.cls = .nan then
    let r := if a.cls ≠ .nan then b.rank else if b.cls ≠ .nan then a.rank else min a.rank b.rank
    { cls := .nan, val := 0, rank := r, win := r, empty := false }
  else if beats op a b then a
  else if beats op b a then b
  else if a.win ≤ b.win then a else b

/-- Two accumulands combined under OP. -/
def combine (op : Nat) (a b : Acc) : Acc :=
  if a.empty then b else if b.empty then a else if op = 0 then addAcc a b else maxAcc op a b

/-! ### Intake (R36-R40, R47) -/

/-- What an element or a frame of elements gives at intake: a status that ends the till, or its accumulands and the
elements truncated. -/
inductive Taken where
  | ends (status : Nat)
  | ok (accs : List Acc) (trunc : Nat)
  deriving DecidableEq, Repr

/-- Signed weight W of Table 2.5. -/
def weightOf (field : Nat) : Int := if bit field 17 then -(field % 2 ^ 17 : Nat) else (field % 2 ^ 17 : Nat)

/-- One element of format f in a block of scale s from a member: its accumuland and whether it was truncated; none when it
lies outside SPAN. -/
def takeElem (w : List W64) (f enc s x : Nat) (wt : Int) (neg : Bool) (rank : Nat) : Option (Acc × Bool) :=
  let v := decodeElem f enc
  if isScaled f && s == 0xFF then some (Acc.ofVal .nan 0 rank rank, false)
  else match v.cls with
    | .nan => some (Acc.ofVal .nan 0 rank rank, false)
    | .fin =>
      let k := v.e + (if isScaled f then (s : Int) - 127 else 0) - gridExp w x
      let g := scaleFloor (v.m * wt) (k - 16)
      if isAnchored f && (decide (g < -(2 ^ tSpan w)) || decide (g ≥ 2 ^ tSpan w)) then none
      else some (Acc.ofVal .fin g 0 (if tOp w = 0 then 0 else rank), lossy v.m k)
    | c =>
      if wt = 0 then some (Acc.ofVal .nan 0 rank rank, false)
      else some (Acc.ofVal (if (c == .ninf) != neg then .ninf else .pinf) 0 rank rank, false)

/-- The block scale keeps Table 2.4. -/
def scaleOk (w : List W64) (s x : Nat) : Bool :=
  s == 0xFF || s == x || (tMode w != 0 && decide (s < x))

/-- One block from a sender: `valid` elements count (R60), the rest enter as finite 0. A block-scaled PARTIAL for an anchored FMT is taken at
its own scale, unchecked (DESIGN CHOICE, assumption log 54: R30 ignores AGREED_SCALE there and R58 mints at it). -/
def takeBlock (w : List W64) (f x valid : Nat) (wt : Int) (neg : Bool) (rank : Nat) (b : Blk) : Taken :=
  if isScaled f && isScaled (tFmt w) && !scaleOk w b.scale x then .ends stScale
  else
    let es := (b.encs.take valid).map fun e => takeElem w f e b.scale x wt neg rank
    if es.any (·.isNone) then .ends stHeadroom
    else
      let got := es.filterMap id
      .ok (got.map (·.1) ++ List.replicate (tElems w - got.length) (Acc.ofVal .fin 0 0 0)) (got.filter (·.2)).length

/-- Blocks one after another; the first status that ends the till decides. -/
def joinTaken : List Taken → Taken
  | [] => .ok [] 0
  | .ends st :: _ => .ends st
  | .ok a t :: r =>
    match joinTaken r with
    | .ends st => .ends st
    | .ok b u => .ok (a ++ b) (t + u)

/-- The accumuland of a W48 or W96 slot (R56). -/
def slotAcc (f enc : Nat) : Acc :=
  let v := decodeElem f enc
  if v.cls = .fin then Acc.ofVal .fin v.m 0 0 else Acc.ofVal v.cls 0 (enc % 16384) (enc % 16384)

def clsCode (c : Cls) : Nat := match c with
  | .fin => 0
  | .pinf => 1
  | .ninf => 2
  | .nan => 3

/-- The W48 or W96 slot of an accumuland; a 96-bit sum in a W48 slot keeps its low 48 bits (DESIGN CHOICE, assumption log 54: R56 gives no
rule for PAIR = 1 with PART_FMT = W48). -/
def accSlot (f : Nat) (a : Acc) : Nat :=
  let vb := if f = 16 then 48 else 96
  if a.cls = .fin then ofInt vb a.val else clsCode a.cls * 2 ^ vb + a.rank % 16384

/-! ### The mint (R51-R54, R83) -/

/-- An element on its way out: its value, the rank of an element NaN before the mint (none for one made NaN there). -/
structure Minted where
  v : Val
  rank : Option Nat
  deriving DecidableEq, Repr

/-- Fused add, before step 3 (R83): the sum, and whether the operand lost bits. -/
def fuseAdd (w : List W64) (u : Int) (a : Acc) (enc : Nat) : Acc × Option Nat × Bool :=
  let f := tFuseFmt w
  let o := decodeElem f enc
  let k := if f = 16 then 0 else o.e - u
  let g := scaleFloor o.m k
  let c : Cls := if o.cls ≠ Cls.fin then o.cls
    else if g < -(2 ^ 94) then .ninf else if g ≥ 2 ^ 94 then .pinf else .fin
  let r := sumCls a.cls c
  ({ a with cls := r, val := if r = Cls.fin then a.val + g else 0 }, if a.cls = Cls.fin then none else some a.rank,
    o.cls == Cls.fin && lossy o.m k)

/-- Fused multiply of a value by the operand (R83). -/
def fuseMul (w : List W64) (u : Int) (v : Val) (enc : Nat) : Val :=
  let f := tFuseFmt w
  let o := decodeElem f enc
  let oe := if f = 16 then o.e + u else o.e
  let zero (x : Val) : Bool := x.cls == .fin && x.m == 0
  let isInf (x : Val) : Bool := x.cls == .pinf || x.cls == .ninf
  if v.cls = .nan ∨ o.cls = .nan ∨ (isInf v && zero o) = true ∨ (zero v && isInf o) = true then .nan
  else if isInf v || isInf o then .inf (v.neg != o.neg)
  else .fin (v.m * o.m) (v.e + oe)

/-- Steps 1 to 3 of R51 with the fused operation: the value of one element, its attributed rank if the sum was non-finite, and
whether the fused operand lost bits. -/
def mintElem (w : List W64) (u : Int) (fuse : Option Nat) (omul : Nat) (oexp : Int) (a : Acc) : Minted × Bool :=
  let (a', rank, lost) := match fuse with
    | some enc => if tFuseOp w = 1 then fuseAdd w u a enc
                  else (a, if a.cls = Cls.fin then none else some a.rank, false)
    | none => (a, if a.cls = Cls.fin then none else some a.rank, false)
  let v : Val := match a'.cls with
    | .fin => .fin (scaleFloor (a'.val * omul) (-16)) (u + oexp)
    | .pinf => .inf false
    | .ninf => .inf true
    | .nan => .nan
  let v := match fuse with
    | some enc => if tFuseOp w = 2 then fuseMul w u v enc else v
    | none => v
  ({ v := v, rank := rank }, lost)

/-- The chosen output scale (R52). -/
def chosenScale (f : Nat) (vs : List Val) : Nat :=
  let l := decodeElem f (maxEnc f)
  let fins := vs.filter fun v => v.cls == .fin
  let fits (e : Nat) : Bool := fins.all fun v => dyLe v.m.natAbs v.e l.m (l.e + e - 127)
  if fins.all (fun v => v.m == 0) then 0 else (firstIdx 255 fits).getD 0xFE

/-- A minted block: what is sent, saturations, and the elements that are NaN with ORIGIN, RANK and place (R50). -/
structure OutBlk where
  blk : Blk
  sat : Nat
  nans : List (Nat × Nat × Nat)
  deriving DecidableEq, Repr

/-- Steps 1, 2, 5 and 6 of one element: encoding, saturated, and NaN. -/
def outElem (f : Nat) (satErr : Bool) (scale : Nat) (m : Minted) : Nat × Bool × Option (Nat × Nat) :=
  let nan := (nanEnc f).getD 0
  match m.v.cls with
  | .nan => (nan, false, some (match m.rank with
    | some r => (0, r)
    | none => (1, 0)))
  | .fin =>
    let e := if isScaled f then m.v.e - ((scale : Int) - 127) else m.v.e
    let (enc, past) := encodeElem f m.v.m e
    if past && satErr then (nan, false, some (1, 0)) else (enc, past, none)
  | c =>
    match infEnc f with
    | some i => (if c = .ninf then 2 ^ (fmtBits f - 1) + i else i, false, none)
    | none => (if c = .ninf then minEnc f else maxEnc f, true, none)

/-- Steps 4 to 6 for a block of `size` places (R51, R52, R54, R60). `fixed` is the output scale, none when the mint chooses. -/
def finishBlock (f : Nat) (satErr : Bool) (fixed : Option Nat) (size : Nat) (ms : List Minted) : OutBlk :=
  let scale := if isScaled f then fixed.getD (chosenScale f (ms.map (·.v))) else 0
  let es := ms.map (outElem f satErr scale)
  let nans := ((List.range es.length).zip es).filterMap fun e => e.2.2.2.map fun r => (r.1, r.2, e.1)
  if nans ≠ [] ∧ nanEnc f = none then { blk := { scale := 0xFF, encs := List.replicate size 0 }, sat := 0, nans := nans }
  else { blk := { scale := scale, encs := es.map (·.1) ++ List.replicate (size - es.length) 0 },
         sat := (es.filter fun e => e.2.1).length, nans := nans }

/-- The mint of one block at a ROOT: `fuse` its operands where the till has a fused operation. The block and the operands
that lost bits. -/
def mintBlock (w : List W64) (x : Nat) (fuse : Option (List Nat)) (accs : List Acc) : OutBlk × Nat :=
  let u := gridExp w x
  let es := ((List.range accs.length).zip accs).map fun a =>
    mintElem w u (fuse.map fun l => nth l a.1) (tOmul w) (tOexp w) a.2
  (finishBlock (tOut w) (tSatErr w) (if tOutChosen w then none else some (tOutScale w)) (tElems w) (es.map (·.1)),
    (es.filter (·.2)).length)

/-- A compact partial's block (R58): scale X, OMUL 1.0. -/
def compactBlock (w : List W64) (x : Nat) (accs : List Acc) : OutBlk :=
  finishBlock (tPart w) false (some x) (tElems w)
    (accs.map fun a => (mintElem w (gridExp w x) none 65536 0 a).1)

/-- The exception record kept: the lower triple (R50). -/
def excLower (a b : Option ExcRec) : Option ExcRec :=
  match a, b with
  | none, b => b
  | a, none => a
  | some a, some b =>
    if decide (a.origin < b.origin) || (a.origin == b.origin && (decide (a.rank < b.rank) ||
        (a.rank == b.rank && decide (a.index ≤ b.index)))) then some a else some b

/-! ### Receipts (11 R320, R321) -/

def recP : Nat := 0xFFFFFFFFFFFFFFC5
def recM : Nat := 0x9E3779B97F4A7C15
def recLo : Nat := 0xC2B2AE3D27D4EB4F
def recHi : Nat := 0x165667B19E3779F9

/-- A chunk receipt continued over symbols. -/
def receipt (h : Nat) (syms : List Nat) : Nat := syms.foldl (fun h s => (h * recM + s % recP + 1) % recP) h

/-- b^n mod p, by squaring over the low k bits of n. -/
def powMod : Nat → Nat → Nat → Nat
  | 0, _, _ => 1
  | k + 1, b, n => (if n % 2 = 1 then b else 1) * powMod k (b * b % recP) (n / 2) % recP

/-- Term of chunk k in the till receipt under a multiplier. -/
def receiptTerm (m k h : Nat) : Nat := (h + 1) * powMod 32 m (k + 1) % recP

end Sys2Proof.Machine
end

