-- ==== Sys2Proof/Machine/Commit.lean ====
section
/-! DEFINITION. Commit sets: staging, arming, draining and the commit (07 R218-R222, 09 R286, R287, 13 R377). -/

namespace Sys2Proof.Machine

/-! ### Entries refused at staging -/

/-- A port number is a configured port's first lane. -/
def isPort (s : State) (p : Nat) : Bool := decide (p < 512) && (portAt s p).conf

/-- TICK_LEN values that are not reserved (07 R201). -/
def tickLenOk (n : Nat) : Bool := n == 0 || (decide (8000 ≤ n) && n % 2 == 0)

/-- Ports of 512 mask bits in words k to k + 7. -/
def maskPorts (e : List W64) (k : Nat) : List Nat := (List.range 512).filter fun p => wb e (k + p / 64) (p % 64)

/-- An entry that is refused at staging (07 R201; 09 R263, R265, R268, R271, R281; 10 R297, R300). -/
def entryRefused (s : State) (tid i : Nat) (e : List W64) : Bool :=
  match tid with
  | 0x01 => !tickLenOk (wf e 0 31 0)
  | 0x10 => decide (wf e 0 43 29 > 16384) || decide (wf e 0 61 44 + wf e 0 43 29 > 262144)
  | 0x11 => wb e 0 31 && decide (wf e 0 19 0 > 0xEFFFF)
  | 0x12 => wf e 0 31 30 == 3 || (wf e 0 31 30 == 1 && decide (wf e 0 9 0 > 31))
  | 0x13 => wb e 0 15 && !isPort s (wf e 0 8 0)
  | 0x14 =>
    let n := wf e 0 63 56
    decide (n > 128) ||
      (List.range n).any fun k => !isPort s (wf e (1 + k / 4) (16 * (k % 4) + 8) (16 * (k % 4)))
  | 0x15 => (maskPorts e 1).any fun p => !isPort s p
  | 0x16 => wf e 0 62 61 == 3 || (i == 7 && (wb e 0 63 || wf e 0 62 61 != 0))
  | 0x17 =>
    wb e 0 63 && (wf e 0 62 61 == 3 || wf e 0 42 40 == 7 || !isPort s (wf e 0 51 43) ||
      (wf e 0 62 61 != 2 && wf e 0 51 43 == wf e 0 60 52) || wf e 1 63 48 == 0)
  | 0x21 => wf e 0 31 0 == 0 || decide (wf e 0 31 0 > 0x01000000)
  | 0x22 => wb e 0 15 && i % 8 == 7
  | 0x23 => decide (wf e 1 31 0 < wf e 0 31 0) || decide (wf e 1 55 32 < wf e 0 55 32)
  | 0x24 => wb e 0 15 && decide (i % 8 ≥ 6)
  | _ => false

/-- Entries i to i + n - 1 of a table set up a port, lane or stack that the grade does not have (01 Table 1.10): of PG08-PG15 on XN7-N, in
the tables indexed by port (10 Table 10.11, 12 R344), and the quiet windows of an absent stack. -/
def namesAbsent (s : State) (tid i n : Nat) : Bool :=
  (tid == 0x02 && (List.range n).any fun k => !hasStack s (i + k)) ||
    (isN s && n != 0 && (([0x20, 0x26, 0x27, 0x28, 0x38].contains tid && decide (i + n > 256)) || (tid == 0x22 && decide (i + n > 2048))))

/-! ### STAGE (13 R377, Table 13.9) -/

/-- The staged contents of a table. -/
def stagedOf (s : State) (tid : Nat) : Option Staged := s.tables.staged.find? fun t => t.tid == tid

def putStaged (s : State) (t : Staged) : State :=
  { s with tables := { s.tables with staged := (s.tables.staged.filter fun x => x.tid != t.tid) ++ [t] } }

def dropStaged (s : State) (tid : Nat) : State :=
  { s with tables := { s.tables with staged := s.tables.staged.filter fun x => x.tid != tid } }

/-- Words of entry i of an image. -/
def imageEntry (image : List W64) (w i : Nat) : List W64 := padWords w ((image.drop (w * i)).take w)
where
  padWords (w : Nat) (l : List W64) : List W64 := l ++ List.replicate (w - l.length) 0

def noIndex : Nat := 0xFFFFFFFFFFFFFFFF

/-- Entries of an image staged one after another: the refused ones are left out. -/
def stageAll (s : State) (tid w first : Nat) (image : List W64) (n : Nat) (t : Staged) : Staged × List Nat :=
  (List.range n).foldl (fun (a : Staged × List Nat) k =>
    let e := imageEntry image w k
    if entryRefused s tid (first + k) e then ({ a.1 with refused := a.1.refused + 1 }, a.2 ++ [first + k])
    else ({ a.1 with entries := oins a.1.entries (first + k) e }, a.2)) (t, [])

/-- The digest of active entries first to first + n - 1. -/
def activeDigest (s : State) (tid first n : Nat) : List Byte :=
  sha512Bytes ((List.range n).map fun k => bytesOf (activeEntry s tid (first + k))).flatten

def execStage (ring : BitVec 6) (d : Desc) (image : List W64) (s : State) : Res :=
  .next (if !s.boot.steward then s else accept s ring d 0x38 none 0 (cringOf d.d0) fun a s =>
    let set := BitVec.ofNat 16 (fld d.d1 15 0)
    let tid := fld d.d1 22 16
    let first := fld d.d1 42 23
    let n := fld d.d1 62 43
    let other := match stagedOf s tid with
      | some t => t.set != set
      | none => false
    match tableInfo tid with
    | none => complete s a stRefused
    | some (w, count, _) =>
      if first + n > count || other || namesAbsent s tid first n || (!hasTandem s && (tid == 0x30 || tid == 0x31)) then
        complete s a stRefused
      else
        let img := (List.range n).map fun k => bytesOf (imageEntry image w k)
        let s := record s oHost a.ring 0x10 false d.d1.toNat (activeDigest s tid first n) (sha512Bytes img.flatten)
        if n = 0 then complete (dropStaged s tid) a stOk 0 noIndex
        else
          let t0 := (stagedOf s tid).getD { tid := tid, set := set, entries := [], refused := 0 }
          let (t, bad) := stageAll s tid w first image n t0
          complete (putStaged s t) a stOk bad.length (bad.headD noIndex))

/-! ### What a set would do -/

/-- Entries of a staged table that change the active bank, by rising index. -/
def changes (s : State) (t : Staged) : List (Nat × List W64) :=
  t.entries.filter fun e => decide (activeEntry s t.tid e.1 ≠ e.2)

/-- Changed entries that the shadow holds, and the rest (09 R287). -/
def shadowCap (tid : Nat) : Nat := (tableInfo tid).map (·.2.2) |>.getD 0

/-- The staged tables a set names. -/
def stagedFor (s : State) (a : Armed) : List Staged :=
  s.tables.staged.filter fun t => t.set == a.set && a.tables.contains t.tid

/-- Every named table switched whole. -/
def applied (s : State) (ts : List Staged) : State :=
  ts.foldl (fun s t => t.entries.foldl (fun s e => setActive s t.tid e.1 e.2) s) s

/-- Entries listed in an active table. -/
def listed (s : State) (tid : Nat) : List (Nat × List W64) :=
  (s.tables.active.filter fun e => e.1 / 2 ^ 20 == tid && !bothFail s tid (e.1 % 2 ^ 20)).map fun e => (e.1 % 2 ^ 20, e.2)

/-- The classes that R286 requires in the mask, and whether a mask is needed at all. -/
def drainNeed (s : State) (ts : List Staged) : Bool × List Nat :=
  let always := ts.any fun t => [0x12, 0x13, 0x14].contains t.tid
  let beyond := ts.any fun t => decide ((changes s t).length > shadowCap t.tid)
  let s' := applied s ts
  let pol := (List.range 8).filter fun c => clsSpread s c != clsSpread s' c || clsReorder s c != clsReorder s' c
  let falls := (List.range 8).filter fun c =>
    (List.range 512).any fun p => (portAt s p).conf && decide (creditUnits s' p c < creditUnits s p c)
  let must := (if ts.any fun t => t.tid == 0x16 then pol else []) ++ (if ts.any fun t => t.tid == 0x26 then falls else [])
  (always || beyond || !must.isEmpty, must)

/-- The drain mask breaks R286. -/
def drainBad (s : State) (a : Armed) : Bool :=
  let (need, must) := drainNeed s (stagedFor s a)
  (need && a.mask == 0) || must.any fun c => !bit a.mask.toNat c

/-! ### Conditions at the commit cycle (07 Table 7.9) -/

/-- An enabled window breaks R205. -/
def windowsBad (s : State) : Bool :=
  (listed s 0x27).any fun e => (List.range 16).any fun n =>
    let oc := e.2.getD (1 + 2 * n) 0
    wb e.2 (2 + 2 * n) 31 && (decide (fld oc 31 0 ≥ fld oc 63 32) || decide (fld oc 63 32 > tickLen s))

/-- An enabled watch breaks R209. -/
def watchesBad (s : State) : Bool :=
  (listed s 0x28).any fun e => e.2.any fun w => dlEn w && (dlCycle w == 0 || decide (dlCycle w ≥ tickLen s))

/-- A quiet window breaks R143; with TICK_LEN = 0 there are none. Across the tick boundary a window and its own next opening are two as
well. -/
def quietBad (s : State) : Bool :=
  tickLen s != 0 && (List.range 4).any fun st =>
    let ws := ((List.range 4).map fun n => quietWin s st n).filter fun w => w.1 != w.2
    let apart (a b : Nat × Nat) : Bool := decide (a.2 + 8000 ≤ b.1)
    ws.any (fun w => decide (w.1 > w.2) || decide (w.2 > tickLen s) || decide (w.2 - w.1 > 24000)) ||
      -- each two, in one tick and across its end
      (List.range ws.length).any fun i => (List.range ws.length).any fun j =>
        let a := ws.getD i (0, 0)
        let b := ws.getD j (0, 0)
        decide (b.1 + tickLen s < a.2 + 8000) || (i != j && !apart a b && !apart b a)

/-- An active route entry would name a path set with COUNT = 0 (09 R265). -/
def routesBad (s : State) : Bool :=
  (listed s 0x12).any fun e => wf e.2 0 31 30 == 2 && pathCount s (wf e.2 0 9 0) == 0

/-- The deadline of an open tick-class till or tally would not lie below TICK_LEN. -/
def deadlinesBad (s : State) : Bool :=
  s.tills.any (fun e => e.2.st == .open && wb e.2.words 0 26 && decide (wf e.2.words 5 63 32 ≥ tickLen s)) ||
    s.tallies.any fun e => e.2.openAt.isSome && wb e.2.words 0 26 && decide (wf e.2.words 2 31 0 ≥ tickLen s)

/-- Cells of a slice that allotments and the reorder reserve take (10 R293). -/
def allotted (s : State) (pg : Nat) : Nat :=
  Config.reorderReserve + sumNat ((List.range 32).map fun j =>
    let p := 32 * pg + j
    if (portAt s p).conf then 64 * sumNat ((List.range 8).map fun c => creditUnits s p c) else 0)

def creditBad (s : State) : Bool := (List.range 16).any fun pg => decide (allotted s pg > Config.sliceCells)

/-- Quotas break R307. Each slice has its own extent, less the reserves of R293. -/
def quotasBad (s : State) : Bool :=
  let g (pool : Nat) : Nat := sumNat ((listed s 0x25).map fun e => if e.1 / 2048 = pool then wf e.2 0 23 0 else 0)
  let clusters := if isN s then 32 else 64
  let cells := (List.range (if isN s then 8 else 16)).foldl (fun b pg => min b (Config.sliceCells - allotted s pg))
    Config.sliceCells
  (listed s 0x25).any (fun e => decide (wf e.2 0 23 0 > wf e.2 0 47 24)) || decide (g 0 > cells) ||
    decide (g 1 > clusters * 48 * 64) || decide (g 2 > s.pools.staging)

/-- Ports that must have an enabled kickstand entry (12 R344). -/
def kickNeeds (s : State) : List Nat :=
  ((listed s 0x28).filter fun e => e.2.any dlKick).map (·.1) ++
    (listed s 0x39).flatMap (fun e => maskPorts e.2 0) ++ (List.range 64).filterMap (slotPort s)

/-- Kickstand entries, masks and what names them break R344. -/
def kicksBad (s : State) : Bool :=
  (listed s 0x38).any (fun e => !isPort s e.1 || (wb e.2 0 63 && (decide (wf e.2 0 47 44 > 8) ||
      decide (wf e.2 0 39 20 > 0xEFFFF) || (wb e.2 0 61 && decide (wf e.2 1 63 32 ≥ tickLen s))))) ||
    (listed s 0x39).any (fun e => (maskPorts e.2 0).any fun p => !isPort s p) ||
    (kickNeeds s).any fun p => isPort s p && !kickEn s p

/-- Ports that route, local, path-set and group entries, mirror sessions and compare slots name. -/
def namesPort (s : State) (t : Nat) : Bool :=
  (listed s 0x13).any (fun e => wb e.2 0 15 && wf e.2 0 8 0 == t) ||
    (listed s 0x14).any (fun e => (List.range (wf e.2 0 63 56)).any fun k => pathPort s e.1 k == t) ||
    (listed s 0x15).any (fun e => groupHas s e.1 t) ||
    (listed s 0x17).any (fun e => wb e.2 0 63 && (wf e.2 0 51 43 == t || (wf e.2 0 62 61 != 2 && wf e.2 0 60 52 == t))) ||
    (List.range 64).any fun k => slotPort s k == some t

/-- The tandem entry and compare slots break R324. -/
def tandemNames (s : State) : Bool :=
  let t := tandemPort s
  !isPort s t || namesPort s t || bit (ew s 0x27 t 0).toNat 6 ||
    (List.range 64).any fun k => match slotPort s k with
      | some p => !isPort s p
      | none => false

/-- A staged tandem entry breaks R324, whether it is enabled or not; an enabled one that stands is held to R324 by every set that could break
it, and to R328. -/
def tandemBad (s : State) (staged : Bool) : Bool :=
  (staged && tandemNames s) ||
    (tandemEn s && (tandemNames s || decide (tandemWindow s < tandemSkew s + 60 + (portAt s (tandemPort s)).link.delay)))

/-- The set ends ABANDONED_STAGE: a staged entry was refused, or what would hold breaks a rule. -/
def stageBad (s : State) (a : Armed) : Bool :=
  let ts := stagedFor s a
  let s' := applied s ts
  let has (tid : Nat) : Bool := ts.any fun t => t.tid == tid
  ts.any (fun t => t.refused != 0) || drainBad s a || windowsBad s' || watchesBad s' || quietBad s' || routesBad s' ||
    (has 1 && deadlinesBad s') || (has 0x26 && creditBad s') || ((has 0x25 || has 0x26) && quotasBad s') || kicksBad s' ||
    ((has 0x30 || has 0x31 || has 0x27 || has 0x12 || has 0x13 || has 0x14 || has 0x15 || has 0x17) && tandemBad s' (has 0x30)) ||
    (!hasTandem s && (has 0x30 || has 0x31))

/-- A frame of a class is queued or in flight at the X7. -/
def classBusy (s : State) (c : Nat) : Bool :=
  s.ports.any (fun q => q.2.q.queue.any (fun e => e.cls == c) || match q.2.q.lane with
    | .frame e _ _ => e.cls == c
    | _ => false) ||
  s.stalled.any (fun e => e.2.cls == c) || s.reorder.any (fun r => r.held.any fun e => e.cls == c) ||
  s.intake.any (fun i => (headerOf i.frame.hdr).cls.toNat == c) || s.parsing.any fun x => (headerOf x.2.1.hdr).cls.toNat == c

/-! ### Ends of a set -/

/-- The record of the ARM that a set answers. -/
def armAccept (a : Armed) : Accept := { ring := a.ring, d0 := a.d0, tick := a.acceptTick, ofs := a.acceptOfs, obj := 0 }

/-- Drained classes resume in the cycle after this one (09 R286). -/
def resumeAfter (s : State) (a : Armed) : State :=
  if !a.draining then s
  else
    let old := if s.tables.heldAt = s.now then s.tables.heldMask else 0
    { s with tables := { s.tables with heldMask := old ||| a.mask, heldAt := s.now } }

def dropArmed (s : State) (a : Armed) : State :=
  { s with tables := { s.tables with armed := s.tables.armed.filter fun x => x.set != a.set } }

/-- A set is abandoned: ledger, COMMIT_ABANDONED and the completion of its ARM (07 R220). -/
def abandon (s : State) (a : Armed) (outcome : Nat) : State :=
  let s := resumeAfter (dropArmed s a) a
  let s := recordRaw s oDevice srcCoreW 0x13 a.set.toNat 0 outcome
  let s := setCause s srcCoreW 6 a.set.toNat 0 outcome a.tick.toNat
  complete s (armAccept a) outcome 0 a.tick.toNat


/-- A tick later than the current one: less than half the number's range ahead (07 R202: the number wraps). -/
def laterTick (s : State) (t : BitVec 48) : Bool :=
  t != s.tick.num && decide ((t - s.tick.num).toNat < 2 ^ 47)

/-! ### ARM and CANCEL (07 R218-R220) -/

def execArm (ring : BitVec 6) (d : Desc) (s : State) : Res :=
  .next (accept s ring d 0x39 none 0 (cringOf d.d0) fun a s =>
    let set := BitVec.ofNat 16 (fld d.d1 15 0)
    let tk := BitVec.ofNat 48 (fld d.d2 47 0)
    if s.tables.armed.any (fun x => x.set == set) || decide (s.tables.armed.length ≥ Config.maxArmed) then
      complete s a stRefused 0 tk.toNat
    else
      let x : Armed := {
        set := set, tables := (s.tables.staged.filter fun t => t.set == set).map (·.tid), tick := tk,
        routeGen := BitVec.ofNat 16 (fld d.d1 39 24), rmapGen := BitVec.ofNat 16 (fld d.d1 55 40),
        mask := BitVec.ofNat 8 (fld d.d1 23 16), ring := a.ring, d0 := a.d0, acceptTick := a.tick, acceptOfs := a.ofs,
        acceptAt := s.now }
      let s := recordRaw s oHost a.ring 0x11 d.d1.toNat 0 tk.toNat
      let s := { s with tables := { s.tables with armed := s.tables.armed ++ [x] } }
      if s.tick.state = 0 then abandon s x stUnaligned
      else if ticksOn s && (!laterTick s tk || decide (s.now + Config.armLimit > startOf s tk)) then abandon s x stLateArm
      else if drainBad s x then abandon s x stStage
      else s)

/-- CANCEL is accepted before the limit of R219; with ticks off no limit lies ahead. -/
def execCancel (ring : BitVec 6) (d : Desc) (s : State) : Res :=
  .next (accept s ring d 0x3A none 0 (cringOf d.d0) fun a s =>
    let set := BitVec.ofNat 16 (fld d.d1 15 0)
    match s.tables.armed.find? fun x => x.set == set with
    | none => complete s a stRefused
    | some x =>
      if ticksOn s && laterTick s x.tick && decide (s.now + Config.armLimit < startOf s x.tick) then
        complete (abandon s x stCancel) a stOk
      else complete s a stRefused)

/-! ### Draining (09 R286) -/

/-- The drain of a set is due: its commit tick is the next, or ticks are off. -/
def drainDue (s : State) (a : Armed) : Bool :=
  a.mask != 0 && !a.draining && (!ticksOn s || !laterTick s (a.tick - 1))

def execDrainStart (s : State) : Res :=
  .next (
    let go (a : Armed) : Armed := if drainDue s a then { a with draining := true } else a
    { s with tables := { s.tables with armed := s.tables.armed.map go } })

/-! ### COMMIT (07 R219-R222) -/

/-- Tokens of shapers and meters whose entries change, brought up to the cycle before this one at the old rates (10 R299,
R301). -/
def settleTokens (s : State) (ts : List Staged) : State :=
  let idx (tid : Nat) : List Nat := (ts.filter fun t => t.tid == tid).flatMap fun t => t.entries.map (·.1)
  let s := (idx 0x21).foldl (fun s n =>
    let t := max (sget {} s.shapers n).at_ (s.now - 1)
    { s with shapers := sput {} s.shapers n { value := shaperAt s n t, at_ := t } }) s
  (idx 0x23).foldl (fun s n =>
    let t := max (sget {} s.meters n).at_ (s.now - 1)
    { s with meters := sput {} s.meters n (meterNow { s with now := t } n) }) s

/-- One table switches: what the shadow holds at once, the rest into the overflow copy. -/
def switchTable (s : State) (a : Armed) (t : Staged) : State :=
  let ch := changes s t
  let cap := shadowCap t.tid
  let rest := (ch.drop cap).map fun e => (tkey t.tid e.1, e.2)
  let s := (ch.take cap).foldl (fun s e => setActive s t.tid e.1 e.2) s
  let s := if rest.isEmpty then s
    else { s with tables := { s.tables with overflow := s.tables.overflow ++ rest,
                                            overflowMask := s.tables.overflowMask ||| a.mask } }
  dropStaged s t.tid

/-- Allotments raised are returned as credit on the links that hold the old ones; a link still to come up takes them from the passbook (10
R294, R295). -/
def creditChange (old s : State) (ts : List Staged) : State :=
  if !ts.any (fun t => t.tid == 0x26) then s
  else
    let ps := (s.ports.filter fun e => e.2.conf && carrying e.2.link.st).map (·.1)
    ps.foldl (fun s p =>
      modQ s p fun q => (List.range 8).foldl (fun (q : PortQ) c =>
        { q with owed := addAt q.owed c (64 * (creditUnits s p c - creditUnits old p c)) }) q) s

/-- A class drained at this commit waits for a neighbour that commits a set with it: its allotment may be lower from now on (10 R295; that every
drained class waits on such a port, since nothing tells which set changes an allotment, is a DESIGN CHOICE, assumption log 54). -/
def awaitCredit (old s : State) (a : Armed) : State :=
  let ps := (s.ports.filter fun e => e.2.conf && carrying e.2.link.st && !isEdge s e.1 &&
    bit (nbrByte e.2.link 26) 7 && nbrNum e.2.link 31 6 == a.tick.toNat && ticksOn old).map (·.1)
  ps.foldl (fun s p =>
    modQ s p fun q => (List.range 8).foldl (fun (q : PortQ) c =>
      if bit a.mask.toNat c then { q with awaitCred := q.awaitCred.set c (some s.now) } else q) q) s

/-- Watches newly enabled are first evaluated in the next tick (07 R210). -/
def freshWatches (old s : State) (ts : List Staged) : State :=
  ((ts.filter fun t => t.tid == 0x28).flatMap fun t => t.entries.map (·.1)).foldl (fun s p =>
    let now_ (q : Port) (n : Nat) : Bool := q.fresh.getD n false || (dlEn (watchEntry s p n) && !dlEn (watchEntry old p n))
    modPort s p fun q => { q with fresh := (List.range 4).map (now_ q) }) s

/-- Watches of every port begin a tick unmet. -/
def clearWatches (s : State) (keepFresh : Bool) : State :=
  let none4 := List.replicate 4 false
  let clear (q : Port) : Port := { q with met := none4, missed := none4, fresh := if keepFresh then q.fresh else none4 }
  { s with ports := canonMap {} (s.ports.map fun e => (e.1, clear e.2)) }

/-- Ticks turned on by a commit: the first tick of the new length begins now (07 R202). -/
def tickChange (old s : State) : State :=
  if tickLen s = 0 then { s with tick := { s.tick with running := false } }
  else if ticksOn old then s
  else
    let s := { s with tick := { s.tick with running := true, start := s.now, num := s.tick.num + 1,
                                            sampleNow := s.tick.sample } }
    clearWatches s true

/-- The neighbour's last good rotation shows a set pending for this tick with these generations (08 R251). -/
def nbrPending (s : State) (p : Nat) (rg mg : W16) (t : BitVec 48) : Bool :=
  let l := (portAt s p).link
  bit (nbrByte l 26) 7 && nbrNum l 27 2 == rg.toNat && nbrNum l 29 2 == mg.toNat && nbrNum l 31 6 == t.toNat

/-- Ports whose links compare rotations: those that carry frames, and those in CHECK (08 R249, R251). -/
def rotationPorts (s : State) : List Nat :=
  (s.ports.filter fun e => e.2.conf && planX7 e.2.plan && (carrying e.2.link.st || e.2.link.st == .check)).map (·.1)

/-- Links after a commit at this tick: neighbours that commit alike agree until a rotation begun since, and where a carrying link agrees on
all, with them or with a neighbour that had these generations before, it carries all traffic from this cycle (07 R221, 08 R251). -/
def linksAfter (s : State) : State :=
  (rotationPorts s).foldl (fun s p =>
    let s := if nbrPending s p s.tables.routeGen s.tables.rmapGen s.tick.num then
        modLink s p fun l => { l with agreeTick := some s.tick.num }
      else s
    if carrying (portAt s p).link.st && compareRotation s p == 0 then
      modLink s p fun l => { l with st := .up, since := if l.st = .up then l.since else s.now }
    else s) s

/-- Links after a set is abandoned at its tick: neighbours that commit it are refused at once, and until a rotation begun since (08
R251). -/
def linksRefused (s : State) (a : Armed) : State :=
  (rotationPorts s).foldl (fun s p =>
    if nbrPending s p a.routeGen a.rmapGen s.tick.num && (a.routeGen != s.tables.routeGen || a.rmapGen != s.tables.rmapGen) then
      let s := modLink s p fun l => { l with refuseTick := some s.tick.num }
      if (portAt s p).link.st = .up then noteState (modLink s p fun l => { l with st := .refused, since := s.now }) (srcPg (pgOf p)) 6 p
      else s
    else s) s

/-- A tandem entry newly enabled starts with nothing held. -/
def tandemStart (old s : State) : State :=
  if tandemEn s && !tandemEn old then
    { s with tandem := { counts := s.tandem.counts, stateAt := some s.now } }
  else s

/-- Table identifiers that install the routing generation, and the rank-map generation (09 Table 9.17). -/
def installsRoute (ts : List Staged) : Bool := ts.any fun t => [0x12, 0x13, 0x14, 0x15, 0x16].contains t.tid
def installsRmap (ts : List Staged) : Bool := ts.any fun t => [0x10, 0x11].contains t.tid

/-- The set commits. -/
def commitSet (s : State) (a : Armed) : State :=
  let ts := stagedFor s a
  let old := s
  let s := settleTokens s ts
  let s := resumeAfter (dropArmed (ts.foldl (fun s t => switchTable s a t) s) a) a
  let rg := if installsRoute ts then a.routeGen else s.tables.routeGen
  let mg := if installsRmap ts then a.rmapGen else s.tables.rmapGen
  let s := { s with tables := { s.tables with routeGen := rg, rmapGen := mg } }
  let s := tandemStart old (freshWatches old (awaitCredit old (creditChange old s ts) a) ts)
  let s := if ts.any fun t => t.tid == 1 then tickChange old s else s
  let s := recordRaw s oDevice srcCoreW 0x12 a.set.toNat
    (old.tables.routeGen.toNat + old.tables.rmapGen.toNat * 65536) (rg.toNat + mg.toNat * 65536)
  let s := complete s (armAccept a) stCommitted 0 a.tick.toNat
  let s := linksAfter s
  if ticksOn old && !ticksOn s then
    (s.tables.armed.filter fun x => x.tick != a.tick).foldl (fun s x => abandon s x stLateArm) s
  else s

/-- The commit cycle of a set has come. -/
def commitDue (s : State) (a : Armed) : Bool :=
  if ticksOn s then !laterTick s a.tick else decide (s.now ≥ a.acceptAt + 1)

/-- One due set ends. -/
def endSet (s : State) (a : Armed) : State :=
  if !s.tables.armed.contains a then s
  else if stageBad s a then linksRefused (abandon s a stStage) a
  else if (List.range 8).any fun c => bit a.mask.toNat c && classBusy s c then linksRefused (abandon s a stDrain) a
  else commitSet s a

def execCommit (s : State) : Res :=
  .next ((s.tables.armed.filter (commitDue s)).foldl endSet s)

/-- One entry staged beyond the shadow is copied (09 R287). -/
def execOverflowCopy (s : State) : Res :=
  .next (match s.tables.overflow with
    | [] => s
    | (k, e) :: r =>
      if s.tables.overflowAt = some s.now then s
      else
        let s := setActive s (k / 2 ^ 20) (k % 2 ^ 20) e
        { s with tables := { s.tables with overflow := r, overflowAt := some s.now,
                                           overflowMask := if r.isEmpty then 0 else s.tables.overflowMask } })

end Sys2Proof.Machine
end

