-- ==== Sys2Proof/Machine/Tandem.lean ====
section
/-! DEFINITION. Tandem: records from the twin, compares that run out of time, and the loss and return of the twin (11
R324-R329). -/

namespace Sys2Proof.Machine

/-- The FRAME record that 16 bytes spell, held in a cycle. -/
def recordOf (at_ : Nat) (l : List Byte) : TandemRec :=
  { slot := leAt l 1 1 % 64, src := BitVec.ofNat 20 (leAt l 2 3), seq := BitVec.ofNat 16 (leAt l 5 2),
    offset := BitVec.ofNat 24 (leAt l 7 3), tick := BitVec.ofNat 16 (leAt l 10 2), crc := BitVec.ofNat 32 (leAt l 12 4),
    at_ := at_ }

/-- The own STATE record (11 Table 11.7). -/
def stateRecord (s : State) : List Byte :=
  [0x02, 0] ++ leBytes 2 s.tables.routeGen.toNat ++ leBytes 2 s.tables.rmapGen.toNat ++ leBytes 4 (tickLen s) ++
    leBytes 2 (tick16 s).toNat ++ leBytes 2 (bits s.boot.capFw.toNat 15 0) ++ [0, 0]

/-- The STATE record of a tick is formed and sent, in its first FCLK cycle, once whatever commits there has. -/
def sendState (s : State) : State :=
  if tandemEn s && ticksOn s && decide ((s.now : Int) = s.tick.start) then
    let r := stateRecord s
    { sendRecord s r s.now with tandem := { s.tandem with ownState := r } }
  else s

/-- A kickstand on the port of every enabled compare slot. -/
def kickSlots (s : State) (cause : Nat) : State :=
  ((List.range 64).filterMap (slotPort s)).eraseDups.foldl (fun s p => kickDetect s p cause 0) s

/-- A STATE record of the twin is held. -/
def holdState (s : State) (l : List Byte) : State :=
  let same := l == s.tandem.ownState
  let s := { s with tandem := { s.tandem with stateAt := some s.now, restore := s.tandem.restore || same, mismatch := !same } }
  if same || (s.tandem.lost && tandemSolo s) then s else kickSlots s 5

/-- One received record: a FRAME record is held and compared while comparing is under way. -/
def holdRecord (s : State) (at_ : Nat) (l : List Byte) : State :=
  let kind := leAt l 0 1
  if kind = 1 then
    if comparing s then comparePairs { s with tandem := { s.tandem with twin := s.tandem.twin ++ [recordOf at_ l] } } else s
  else if kind = 2 then holdState s l
  else s

/-- FCLK cycles from a header's arrival to the end of the receive stages (07 Table 7.7). -/
def receiveStages : Nat := 44

/-- A MGMT frame of subtype 0x10 on the tandem port: its records are held once its header has passed the receive stages (11 R326; 07 Table
7.7). -/
def execTandemRecordReceive (f : Frame) (s : State) : Res :=
  .next (
    let h := headerOf f.hdr
    if h.type != 0xB || mgmtSubtype h != 0x10 || !frameGood f then s
    else
      let (s', port, arrival) := takeIntake s f
      let at_ := if port = selfPort then s.now else arrival + receiveStages
      if s.now < at_ then s
      else if !tandemEn s || (port != tandemPort s && port != selfPort) then s'
      else holdRecord (holdRecord s' at_ (slice f.payload 0 16)) at_ (slice f.payload 16 16))

/-- A record has not been matched within W cycles (11 R326). -/
def execTandemWindowExpiry (own : Bool) (index : Nat) (s : State) : Res :=
  .next (
    if !comparing s then s
    else if own then
      match s.tandem.own[index]? with
      | none => s
      | some r =>
        if s.now < r.at_ + tandemWindow s then s
        else tandemMismatch { s with tandem := { s.tandem with own := s.tandem.own.erase r } } r 2 r.crc.toNat 0
    else
      match s.tandem.twin[index]? with
      | none => s
      | some r =>
        if s.now < r.at_ + tandemWindow s then s
        else tandemMismatch { s with tandem := { s.tandem with twin := s.tandem.twin.erase r } } r 3 0 r.crc.toNat)

/-- A condition of R329 holds. -/
def twinGone (s : State) : Bool :=
  let q := portAt s (tandemPort s)
  q.link.st != .up || decide (tandemWindow s < tandemSkew s + 60 + q.link.delay) ||
    (ticksOn s && match s.tandem.stateAt with
      | some t => decide (s.now ≥ t + 2 * tickLen s)
      | none => false)

/-- The twin is lost: the cause, the kickstand on every enabled compare slot, and nothing held. -/
def execTwinLost (s : State) : Res :=
  .next (
    if !comparing s || !twinGone s then s
    else
      let s := { s with tandem := { s.tandem with lost := true, restore := false, own := [], twin := [] } }
      kickSlots (setCause s srcCoreW 9 0) 6)

/-- At the start of a tick the pair is restored when an agreeing STATE record has been held. -/
def tandemTick (s : State) : State :=
  if s.tandem.lost && s.tandem.restore then
    { s with tandem := { s.tandem with lost := false, restore := false, own := [], twin := [] } }
  else { s with tandem := { s.tandem with restore := false } }

end Sys2Proof.Machine
end

