-- ==== Sys2Proof/Machine/Queries.lean ====
section
/-! DEFINITION. Commands that copy counters, samples, pools and receipts to host memory (06 R190, 10 R304, R312, 11 R321, R322,
12 R343, 13 Table 13.16). -/

namespace Sys2Proof.Machine

/-- The CLEAR option. -/
def clears (d : Desc) : Bool := bit d.d1.toNat 0

/-- A 16-byte header that holds a tick number. -/
def tickHeader (t : BitVec 48) : List Byte := leBytes 6 t.toNat ++ List.replicate 10 0

/-- A change of every configured port. -/
def mapPorts (s : State) (f : Port → Port) : State := { s with ports := canonMap {} (s.ports.map fun e => (e.1, f e.2)) }

/-! ### QUEUE_READ (10 R304, R305) -/

def sampleBytes (r : Nat × Nat × Nat × Nat) : List Byte :=
  leBytes 4 r.1 ++ leBytes 4 r.2.1 ++ leBytes 4 r.2.2.1 ++ leBytes 4 r.2.2.2

def queueRecords (q : Port) : List Byte :=
  if q.conf then ((List.range 8).map fun c => sampleBytes (q.q.samples.getD c (0, 0, 0, 0))).flatten
  else List.replicate 128 0

/-- DEPTH_MAX and WAIT_MAX zeroed. -/
def clearSamples (q : Port) : Port :=
  let z (r : Nat × Nat × Nat × Nat) : Nat × Nat × Nat × Nat := (r.1, 0, r.2.2.1, 0)
  { q with q := { q.q with samples := q.q.samples.map z } }

def execQueueRead (ring : BitVec 6) (d : Desc) (s : State) : Res :=
  .next (accept s ring d 0x48 none 0 (cringOf d.d0) fun a s =>
    let data := tickHeader s.tick.sampleTick ++ ((List.range 512).map fun p => queueRecords (portAt s p)).flatten
    copyOut (if clears d then mapPorts s clearSamples else s) a d.d2.toNat data)

/-! ### POOL_READ (10 R312) -/

/-- 4 KiB units of a slab block: 1, 4, 16 or 64. -/
def blockUnits (b : Block) : Nat := 4 ^ b.size

/-- Free slab blocks of a cluster; at first its 48 blocks of 256 KiB. -/
def wholeSlabs : List Block := (List.range 48).map fun i => { size := 3, addr := 64 * i }
def freeBlocks (s : State) (c : Nat) : List Block := (ofind s.pools.slabs c).getD wholeSlabs

/-- Clusters and slices of the grade. -/
def clusters (s : State) : Nat := if isN s then 32 else 64
def slices (s : State) : Nat := if isN s then 8 else 16

def freeUnits (s : State) (c : Nat) : Nat := sumNat ((freeBlocks s c).map blockUnits)

/-- FREE of a pool. -/
def poolFree (s : State) (pool : Nat) : Nat :=
  if pool = 0 then sumNat ((List.range (slices s)).map (freeCells s))
  else if pool = 1 then sumNat ((List.range (clusters s)).map (freeUnits s))
  else freeStaging s

def poolHeader (s : State) (pool : Nat) : List Byte :=
  leBytes 4 (poolFree s pool) ++ leBytes 4 (nth s.pools.doubleFree pool) ++ leBytes 4 (nth s.pools.fenced pool) ++
    List.replicate 4 0

def execPoolRead (ring : BitVec 6) (d : Desc) (s : State) : Res :=
  .next (accept s ring d 0x49 none 0 (cringOf d.d0) fun a s =>
    let word (q : Nat) : List Byte := leBytes 3 (sget 0 s.pools.use q) ++ leBytes 3 (sget 0 s.pools.peak q) ++ [0, 0]
    let data := poolHeader s 0 ++ poolHeader s 1 ++ poolHeader s 2 ++ ((List.range 6144).map word).flatten
    let s' := if clears d then { s with pools := { s.pools with peak := s.pools.use } } else s
    copyOut s' a d.d2.toNat data)

/-! ### COUNTER_READ (12 Table 12.6) -/

def portCounters (q : Port) : List Byte :=
  ((List.range 64).map fun k => leBytes 4 (if q.conf then sget 0 q.counters k else 0)).flatten

/-- n words of the record of a block. -/
def blockRecord (s : State) (src n : Nat) : List Byte :=
  ((List.range n).map fun k => leBytes 4 (sget 0 s.blockCounts (src * 8 + k))).flatten

def counterCopy (s : State) : List Byte :=
  tickHeader s.tick.num ++ ((List.range 512).map fun p => portCounters (portAt s p)).flatten ++
    ((List.range 16).map fun g => blockRecord s (srcPg g) 8).flatten ++
    ((List.range 64).map fun c => blockRecord s (srcCluster c) 4).flatten ++
    ((List.range 4).map fun h => blockRecord s (srcHbm h) 4).flatten ++
    blockRecord s srcCoreW 4 ++ blockRecord s srcCoreE 4 ++
    ((List.range 64).map fun k => leBytes 4 (sget 0 s.tandem.counts k)).flatten

/-- Every counter zeroed. -/
def clearCounters (s : State) : State :=
  let s := mapPorts s fun q => { q with counters := [] }
  { s with blockCounts := [], tandem := { s.tandem with counts := [] } }

def execCounterRead (ring : BitVec 6) (d : Desc) (s : State) : Res :=
  .next (accept s ring d 0x4A none 0 (cringOf d.d0) fun a s =>
    copyOut (if clears d then clearCounters s else s) a d.d2.toNat (counterCopy s))

/-! ### FREEWHEEL_READ (06 R190) -/

def portFree (q : Port) : List Byte :=
  ((List.range 8).map fun k => leBytes 8 (if q.conf then nth q.freewheel k else 0)).flatten

def jobFreeBytes (s : State) (j : Nat) : List Byte :=
  ((List.range 8).map fun k => leBytes 8 (if k < 6 then sget 0 s.jobFree (j * 8 + k) else 0)).flatten

/-- The waits under way count up to now, and go on from here (06 R189, R190). -/
def settleWaits (s : State) : State :=
  let jobOf (n : Nat) : Nat := ((ofind s.tills n).map fun t => wf t.words 0 51 44).getD 0
  let admitted (s : State) (e : Nat × Till) : State := match e.2.waitAt with
    | some c => setTill (jobWait s (wf e.2.words 0 51 44) 2 (s.now - c)) e.1 { e.2 with waitAt := some s.now }
    | none => s
  let passed (s : State) (p : Pass) : State := match p.passedAt with
    | some c => jobWait s (jobOf p.till) 3 (s.now - c)
    | none => s
  let again (p : Pass) : Pass := { p with passedAt := p.passedAt.map fun _ => s.now }
  let byCtx (s : State) (e : Nat × Ctx) : State :=
    if e.2.ready.any fun p => p.passedAt.isSome then setCtx (e.2.ready.foldl passed s) e.1 { e.2 with ready := e.2.ready.map again } else s
  let staged (s : State) (e : Nat × Relay) : State :=
    if e.2.withheld.isEmpty then s else setRelay (jobWait s e.2.job 5 (s.now - e.2.withheldAt)) e.1 { e.2 with withheldAt := s.now }
  s.relays.foldl staged (s.ctxs.foldl byCtx (s.tills.foldl admitted s))

/-- WHICH = 0 is reserved. -/
def execFreewheelRead (ring : BitVec 6) (d : Desc) (s : State) : Res :=
  .next (accept s ring d 0x4B none 0 (cringOf d.d0) fun a s =>
    let which := fld d.d1 2 1
    let ports := bit which 0
    let jobs := bit which 1
    if which = 0 then complete s a stRefused
    else
      let s := if jobs then settleWaits s else s
      let data := leBytes 6 s.tick.num.toNat ++ [BitVec.ofNat 8 which] ++ List.replicate 9 0 ++
        (if ports then ((List.range 512).map fun p => portFree (portAt s p)).flatten else []) ++
        (if jobs then ((List.range 256).map (jobFreeBytes s)).flatten else [])
      let z (q : Port) : Port := { q with freewheel := List.replicate 7 0 }
      let s := if clears d && ports then mapPorts s z else s
      let s := if clears d && jobs then { s with jobFree := [] } else s
      copyOut s a d.d2.toNat data)

/-! ### TOSS_READ (11 R322) -/

def execTossRead (ring : BitVec 6) (d : Desc) (s : State) : Res :=
  .next (accept s ring d 0x4D none 0 (cringOf d.d0) fun a s =>
    let data := tickHeader s.tick.num ++
      ((List.range 1024).map fun k => leBytes 8 (sget 0 s.toss k)).flatten
    copyOut (if clears d then { s with toss := [] } else s) a d.d2.toNat data)

/-! ### RECEIPT_READ (11 R321) -/

/-- JOB of a till. -/
def tillJob (t : Till) : Nat := wf t.words 0 51 44

/-- The chunks whose receipts are read: those of the image while the till is SAVED. -/
def receiptChunks (t : Till) : List Chunk := match t.st, t.image with
  | .saved, some i => i.chunks
  | _, _ => t.chunks

def receiptRecord (c : Chunk) : List Byte :=
  let done := c.st == .done
  leBytes 8 (if done then c.receipt else 0) ++ leBytes 2 c.epoch.toNat ++
    [BitVec.ofNat 8 (b2n done + b2n c.excisedIn * 2)] ++ List.replicate 5 0

def execReceiptRead (ring : BitVec 6) (d : Desc) (s : State) : Res :=
  let n := objOf d
  .next (accept s ring d 0x4C ((tillAt s n).map tillJob) n (cringOf d.d0) fun a s =>
    match tillAt s n with
    | none => complete s a stRefused
    | some t =>
      let cs := receiptChunks t
      let head := leBytes 2 n ++ [BitVec.ofNat 8 (tillJob t), 0] ++ leBytes 4 cs.length ++ List.replicate 8 0
      copyOut s a d.d2.toNat (head ++ (cs.map receiptRecord).flatten) cs.length)

end Sys2Proof.Machine
end

