-- ==== Sys2Proof/Machine/Slabs.lean ====
section
/-! DEFINITION. Till descriptors and shard tables as fields (03 Tables 3.1, 3.2), chunk placement (R62), the words and slabs a
till needs (R85, R86), and the buddy allocation of accumulator slabs (10 R306-R308). -/

namespace Sys2Proof.Machine

/-! ### Descriptor fields (03 Table 3.1) -/

def tTill (w : List W64) : Nat := wf w 0 63 52
def tJob (w : List W64) : Nat := wf w 0 51 44
def tEpoch0 (w : List W64) : W16 := BitVec.ofNat 16 (wf w 0 43 28)
def tStanding (w : List W64) : Bool := wb w 0 27
def tTick (w : List W64) : Bool := wb w 0 26
/-- ADMIT = 1: fail instead of waiting. -/
def tAdmit (w : List W64) : Bool := wb w 0 25
/-- EARLY_FWD, at an INNER till only (R65). -/
def tEarly (w : List W64) : Bool := wf w 0 23 22 == 1 && wb w 0 24
/-- ROLE = INNER. -/
def tInner (w : List W64) : Bool := wf w 0 23 22 == 1
def tCring (w : List W64) : Nat := wf w 0 21 16
def tBucket (w : List W64) : Nat := wf w 0 15 0
/-- 0 GROUP, 1 SCATTER, 2 VAULT. -/
def tResult (w : List W64) : Nat := wf w 2 16 15
def tVault (w : List W64) : Bool := !tInner w && tResult w == 2
def tKick (w : List W64) : Bool := wb w 2 14
/-- SAVE_TGT = 1: host memory. -/
def tSaveHost (w : List W64) : Bool := wb w 2 13
def tLimit (w : List W64) : Nat := wf w 2 12 10
def tElements (w : List W64) : Nat := wf w 3 63 32
def tChunkBlocks (w : List W64) : Nat := wf w 3 31 23
def tEntries (w : List W64) : Nat := wf w 3 22 12
def tGroup (w : List W64) : Nat := wf w 4 63 48
def tParent (w : List W64) : Nat := wf w 4 47 28
def tParentTill (w : List W64) : Nat := wf w 4 27 16
/-- TIMEOUT in FCLK cycles; 0 for no timer. -/
def tTimeout (w : List W64) : Nat := wf w 4 15 0 * 1024
def tDeadline (w : List W64) : Nat := wf w 5 63 32
def tEfTimer (w : List W64) : Nat := wf w 5 31 16
def tRegion (w : List W64) : Nat := wf w 10 63 48
def tProg (w : List W64) : Nat := wf w 10 47 32
/-- Traffic class of CONTRIB and PARTIAL; of RESULT; of RESEND_REQ (Table 3.3). -/
def clsIn (w : List W64) : Nat := if tTick w then 7 else 4
def clsOut (w : List W64) : Nat := if tTick w then 7 else 5
def clsResend (w : List W64) : Nat := if tTick w then 7 else 6
/-- A fused operation applies (R65: ignored at an INNER till). -/
def tFused (w : List W64) : Bool := !tInner w && tFuseOp w != 0

/-! ### Blocks, chunks and the shard table (R60, R61, R66, R68, R460) -/

/-- Blocks of the tensor. -/
def tBlocks (w : List W64) : Nat := ceilDiv (tElements w) (tElems w)
/-- Chunks of the tensor. -/
def tChunks (w : List W64) : Nat := ceilDiv (tBlocks w) (max 1 (tChunkBlocks w))
def chunkFirst (w : List W64) (k : Nat) : Nat := k * tChunkBlocks w
def chunkLen (w : List W64) (k : Nat) : Nat := min (tChunkBlocks w) (tBlocks w - chunkFirst w k)
/-- Valid elements among n blocks from block b (R60). -/
def validFrom (w : List W64) (b n : Nat) : Nat := min (n * tElems w) (tElements w - b * tElems w)

/-- Word j of shard entry i. -/
def shWord (sh : List W64) (i j hi lo : Nat) : Nat := wf sh (4 * i + j) hi lo
/-- 0 member, 1 child switch, 2 destination only. -/
def shKind (sh : List W64) (i : Nat) : Nat := shWord sh i 0 63 62
def shRank (sh : List W64) (i : Nat) : Nat := shWord sh i 0 61 48
def shEndpoint (sh : List W64) (i : Nat) : Nat := shWord sh i 0 47 28
def shChildTill (sh : List W64) (i : Nat) : Nat := shWord sh i 0 27 16
def shWeight (sh : List W64) (i : Nat) : Nat := shWord sh i 1 63 46
def shFirst (sh : List W64) (i : Nat) : Nat := shWord sh i 1 45 22
def shCount (sh : List W64) (i : Nat) : Nat := shWord sh i 2 63 40
def shDstFirst (sh : List W64) (i : Nat) : Nat := shWord sh i 2 39 16
def shDstCount (sh : List W64) (i : Nat) : Nat := shWord sh i 3 63 40
/-- Slots of KIND 0 or 1. -/
def inputsOf (w sh : List W64) : List Nat := (List.range (tEntries w)).filter fun i => decide (shKind sh i ≤ 1)
def childrenOf (w sh : List W64) : List Nat := (List.range (tEntries w)).filter fun i => shKind sh i == 1

/-- The overlap of blocks a to a + n - 1 with chunk k: first block and number. -/
def overlap (w : List W64) (a n k : Nat) : Nat × Nat :=
  let lo := max a (chunkFirst w k)
  let hi := min (a + n) (chunkFirst w k + chunkLen w k)
  if n = 0 ∨ hi ≤ lo then (chunkFirst w k, 0) else (lo, hi - lo)

/-- What input i delivers for chunk k (R68). -/
def delivery (w sh : List W64) (i k : Nat) : Nat × Nat := overlap w (shFirst sh i) (shCount sh i) k

/-- Span of an INNER till: first block and number (R460). -/
def spanOf (w sh : List W64) : Nat × Nat :=
  let ins := inputsOf w sh
  let lo := ins.foldl (fun b i => min b (shFirst sh i)) (tBlocks w)
  let hi := min (tBlocks w) (ins.foldl (fun b i => max b (shFirst sh i + shCount sh i)) 0)
  (lo, hi - lo)

/-- What the till itself sends for chunk k: the whole chunk at a ROOT, its span's part at an INNER till. -/
def ownDelivery (w sh : List W64) (k : Nat) : Nat × Nat :=
  if tInner w then overlap w (spanOf w sh).1 (spanOf w sh).2 k else (chunkFirst w k, chunkLen w k)

/-- The chunk has something to deliver. -/
def chunkActive (w sh : List W64) (k : Nat) : Bool := (ownDelivery w sh k).2 != 0

/-- Agreed scale of a block: AGREED_SCALE, or its scale-table entry. -/
def agreedAt (w : List W64) (scales : List Byte) (b : Nat) : Nat :=
  if tMode w = 2 then (scales.getD b 0).toNat else tAgreed w

/-! ### Placement and need (R62, R85, R86) -/

/-- 16 f of the die of a logical tile, 0 without throttle. -/
def throttleOf (s : State) (tile : Nat) : Nat := match s.boot.throttle.getD (tile / 2048) none with
  | some (f, _, _, _) => f
  | none => 0

/-- Logical tile of chunk k of till n (R62). -/
def tileOf (s : State) (n : Nat) (w : List W64) (k : Nat) : Nat :=
  (n * 0x9E3779B1 + chunkFirst w k * 0x85EBCA6B) % 2 ^ 32 * logicalTiles s / 2 ^ 32

/-- Words a chunk needs (Table 3.5). -/
def chunkWords (w sh : List W64) : Nat :=
  let n := tChunkBlocks w
  let e := n * tElems w
  let el := if tOp w ≠ 0 then 2 * e else if tFmt w = 5 then ceilDiv e 2 else if tFmt w = 6 then ceilDiv e 3
    else if tPaired w then 2 * e else e
  el + (if tFmt w = 5 ∨ tFmt w = 6 then n else 0) + (if tMode w = 2 then ceilDiv n 6 else 0) +
    ceilDiv (2 * (inputsOf w sh).length) 48 + (if tEarly w then el else 0) + 4

/-- A sum kept for each key. -/
def tallyBy (l : List (Nat × Nat)) : Sparse Nat := l.foldl (fun m e => sput 0 m e.1 (sget 0 m e.1 + e.2)) []

/-- Bytes needed in each cluster: 64 times the largest need of one of its tiles. -/
def clusterNeed (s : State) (n : Nat) (w sh : List W64) : Sparse Nat :=
  let tiles := tallyBy ((List.range (tChunks w)).map fun k => (tileOf s n w k, chunkWords w sh))
  tiles.foldl (fun m e => sput 0 m (e.1 / 64) (max (sget 0 m (e.1 / 64)) (512 * e.2))) []

/-- Slab sizes for a need (R86). -/
def slabSizes (need : Nat) : List Nat :=
  let rest := need % 262144
  List.replicate (need / 262144) 3 ++
    (if rest = 0 then [] else if rest ≤ 4096 then [0] else if rest ≤ 16384 then [1] else if rest ≤ 65536 then [2] else [3])

/-- Slabs a till needs: cluster and size. -/
def slabNeed (s : State) (n : Nat) (w sh : List W64) : List (Nat × Nat) :=
  ((clusterNeed s n w sh).map fun e => (slabSizes e.2).map fun z => (e.1, z)).flatten

/-! ### Buddy allocation (10 R306) -/

/-- A block put into a free list, in address order. -/
def insBlock (b : Block) : List Block → List Block
  | [] => [b]
  | x :: r => if b.addr < x.addr then b :: x :: r else x :: insBlock b r

/-- A block split down to a size: the lowest-addressed part is granted, the others become free. -/
def splitBlock : Nat → Block → Nat → List Block → Block × List Block
  | 0, b, _, free => (b, free)
  | k + 1, b, size, free =>
    if b.size ≤ size then (b, free)
    else
      let u := 4 ^ (b.size - 1)
      let free := [1, 2, 3].foldl (fun f i => insBlock { size := b.size - 1, addr := b.addr + i * u } f) free
      splitBlock k { size := b.size - 1, addr := b.addr } size free

/-- The lowest-addressed free block of a size, or of the smallest larger size that has one. -/
def takeBlock4 (free : List Block) (size : Nat) : Option (Block × List Block) :=
  (((List.range 4).filter fun z => decide (size ≤ z)).findSome? fun z => free.find? fun b => b.size == z).map fun b =>
    splitBlock 3 b size (free.erase b)

/-- A freed block merges with its three buddies once all four are free. -/
def mergeBlock : Nat → Block → List Block → List Block
  | 0, b, free => insBlock b free
  | k + 1, b, free =>
    if b.size = 3 then insBlock b free
    else
      let u := 4 ^ b.size
      let base := b.addr / (4 * u) * (4 * u)
      let bud := (List.range 4).map fun i => ({ size := b.size, addr := base + i * u } : Block)
      if bud.all fun x => x == b || free.contains x then
        mergeBlock k { size := b.size + 1, addr := base } (free.filter fun x => !bud.contains x)
      else insBlock b free

def setFree (s : State) (c : Nat) (free : List Block) : State :=
  { s with pools := { s.pools with slabs := if free = wholeSlabs then odel s.pools.slabs c else oins s.pools.slabs c free } }

/-- A block taken out of a free list, out of a larger one where it must be split. -/
def carve : Nat → Block → List Block → List Block
  | 0, _, free => free
  | k + 1, b, free =>
    match free.find? fun x => decide (x.addr ≤ b.addr) && decide (b.addr < x.addr + blockUnits x) with
    | none => free
    | some x =>
      if x.size = b.size then free.erase x
      else
        let u := 4 ^ (x.size - 1)
        carve k b ([0, 1, 2, 3].foldl (fun f i => insBlock { size := x.size - 1, addr := x.addr + i * u } f) (free.erase x))

/-- Places of a block that a list of marks names, in pool 1 (10 R311). -/
def blockMarks (l : List (Nat × Nat)) (c : Nat) (b : Block) : List (Nat × Nat) :=
  l.filter fun x => x.1 == 1 && x.2 / 4096 == c && decide (b.addr ≤ x.2 % 4096) && decide (x.2 % 4096 < b.addr + blockUnits b)

/-- A block is removed until cold reset: its bit was 1 when it was taken (10 R311). -/
def fenceSlab (s : State) (q c : Nat) (b : Block) : State :=
  let gone := blockMarks s.faults.stuck c b
  poolFault { s with faults := { s.faults with stuck := s.faults.stuck.filter fun x => !gone.contains x },
                     pools := { s.pools with slabsFenced := s.pools.slabsFenced ++ [(c, b)] } } true 1 q 0

/-- One block of a size from a cluster: those whose bit reads 1 are fenced and passed by. -/
def takeSlab : Nat → State → Nat → Nat → Nat → Option (State × Block)
  | 0, _, _, _, _ => none
  | k + 1, s, q, c, z =>
    match takeBlock4 (freeBlocks s c) z with
    | none => none
    | some (b, free) =>
      let s := setFree s c free
      if (blockMarks s.faults.stuck c b).isEmpty then some (s, b) else takeSlab k (fenceSlab s q c b) q c z

/-- Slabs granted one after another to a requester; none when one does not exist. -/
def takeSlabs (q : Nat) : State → List (Nat × Nat) → Option (State × List (Nat × Block))
  | s, [] => some (s, [])
  | s, (c, z) :: r =>
    match takeSlab (s.faults.stuck.length + 1) s q c z with
    | none => none
    | some (s, b) =>
      match takeSlabs q s r with
      | none => none
      | some (s, l) => some (s, (c, b) :: l)

/-- 4 KiB units of a list of slabs. -/
def unitsOf (l : List (Nat × Nat)) : Nat := sumNat (l.map fun e => 4 ^ e.2)

/-- All slabs at once, or none (03 R87, 10 R308). -/
def grantSlabs (s : State) (q : Nat) (need : List (Nat × Nat)) : Option (State × List (Nat × Block)) :=
  let k := unitsOf need
  if quotaAllows s 1 q k (poolFree s 1 - (s.faults.stuck.filter fun x => x.1 == 1).length) (sget 0 s.pools.use) then
    (takeSlabs q s need).map fun r => (addUse r.1 q k, r.2)
  else none

/-- A slab returned to its cluster's free list; the free of one whose bit reads 0, or that is free, is ignored (10 R311). -/
def giveSlab (s : State) (q : Nat) (e : Nat × Block) : State :=
  let gone := blockMarks s.faults.lost e.1 e.2
  let overlap (b : Block) : Bool := decide (b.addr < e.2.addr + blockUnits e.2) && decide (e.2.addr < b.addr + blockUnits b)
  if (freeBlocks s e.1).any overlap || !gone.isEmpty then
    poolFault { s with faults := { s.faults with lost := s.faults.lost.filter fun x => !gone.contains x } } false 1 q (e.1 * 4096 + e.2.addr)
  else setFree (subUse s q (unitsOf [(e.1, e.2.size)])) e.1 (mergeBlock 3 e.2 (freeBlocks s e.1))

/-- Slabs returned to the pool. -/
def freeSlabs (s : State) (q : Nat) (l : List (Nat × Block)) : State := l.foldl (fun s e => giveSlab s q e) s

end Sys2Proof.Machine
end

