-- ==== Sys2Proof/Machine/Fabric.lean ====
section
/-! DEFINITION. Fabric memory: region descriptors as fields (05 Table 5.3), placement (R138, R146), the checks of a memory access
(R140), detection and retry (R144, R145), access by board address (R134, R135), and the versions of a vault (R148-R156). -/

namespace Sys2Proof.Machine

/-! ### Bytes over the die-to-die bridge (01 R14) -/

/-- Bytes a tile's network port moves in an FCLK cycle: 32 in an ACLK cycle (04 Table 4.1). -/
def tileRate : Nat := 16

/-- Bytes in an FCLK cycle of what a die's stacks send to the host: all they deliver, 8,192 in an ACLK cycle (DESIGN CHOICE, assumption log
56: no rule gives the rate). -/
def stackRate : Nat := 4096

/-- A crossing joins those under way, once for each sender and die. -/
def addCrossing (s : State) (x : Crossing) : State :=
  if x.left = 0 || s.bridge.crossings.any fun y => y.what == x.what && y.die == x.die then s
  else { s with bridge := { s.bridge with crossings := s.bridge.crossings ++ [x] } }

/-! ### Region descriptor (05 Table 5.3) -/

def rNum (w : List W64) : Nat := wf w 0 63 52
def regJob (w : List W64) : Nat := wf w 0 51 44
def rVault (w : List W64) : Bool := wf w 0 43 42 == 1
def rMirror (w : List W64) : Bool := wb w 0 41
def rStacks (w : List W64) : Nat := wf w 0 40 37
def rBytes (w : List W64) : Nat := wf w 1 63 0
def rTill (w : List W64) : Nat := wf w 2 63 52
def rChunkBlocks (w : List W64) : Nat := wf w 2 51 43
def rBlk (w : List W64) : Bool := wb w 2 42
def rElements (w : List W64) : Nat := wf w 2 41 10
/-- Format code of operand k; 0 when it is absent. -/
def rOpnd (w : List W64) (k : Nat) : Nat := wf w 3 (63 - 5 * k) (59 - 5 * k)
def rPubFmt (w : List W64) : Nat := wf w 4 63 59
def rPubEn (w : List W64) : Bool := wb w 4 58
def rPubGroup (w : List W64) : Nat := wf w 4 57 42
def rVersion0 (w : List W64) : W16 := BitVec.ofNat 16 (wf w 4 41 26)
def rHoldLimit (w : List W64) : Nat := wf w 4 25 10
/-- Spare chunk slots of a die: 0 west, 1 east. -/
def rSpares (w : List W64) (die : Nat) : Nat := if die = 0 then wf w 5 63 52 else wf w 5 51 40
def rParamCount (w : List W64) : Nat := wf w 5 39 24
def rHolders (w : List W64) : Nat := wf w 5 23 9

/-- Elements in a block of the vault, blocks, chunks, and first block and blocks of chunk k: as the bound till's. -/
def rBlocks (w : List W64) : Nat := ceilDiv (rElements w) (blockElems (rBlk w))
def rChunks (w : List W64) : Nat := ceilDiv (rBlocks w) (max 1 (rChunkBlocks w))
def rChunkLen (w : List W64) (k : Nat) : Nat := min (rChunkBlocks w) (rBlocks w - k * rChunkBlocks w)
/-- Elements of chunk k. -/
def rValid (w : List W64) (k : Nat) : Nat :=
  let e := blockElems (rBlk w)
  min (rChunkLen w k * e) (rElements w - k * rChunkBlocks w * e)

/-- Bytes of chunk k of the published copy (R146), of all of it, and of operand j of chunk k. -/
def pubBytes (w : List W64) (k : Nat) : Nat :=
  if rPubEn w then payloadSize (rPubFmt w) (rBlk w) (rChunkLen w k) else 0
def pubSize (w : List W64) : Nat := sumNat ((List.range (rChunks w)).map (pubBytes w))
def opndBytes (w : List W64) (j k : Nat) : Nat :=
  if rOpnd w j = 0 then 0 else rValid w k * fmtBits (rOpnd w j) / 8

/-! ### Placement (R138, R146) -/

/-- Bytes of a page. -/
def pageSize : Nat := 2097152

/-- The stacks of a plain region, in ascending order; of a mirrored one, the stacks that hold the first copy. -/
def plainStacks (w : List W64) : List Nat :=
  (List.range 4).filter fun k => bit (rStacks w) k && (!rMirror w || decide (k < 2))

/-- The stack that holds page i of a plain region. -/
def pageStack (w : List W64) (i : Nat) : Nat :=
  let l := plainStacks w
  nth l (i % max 1 l.length)

/-- Die of chunk k of a vault: that of the logical tile of chunk k of BIND_TILL. -/
def vaultDie (s : State) (w : List W64) (k : Nat) : Nat :=
  (rTill w * 0x9E3779B1 + k * rChunkBlocks w * 0x85EBCA6B) % 2 ^ 32 * logicalTiles s / 2 ^ 32 / 2048

/-- Stack of chunk k of a vault: H0 or H2 on the west die, H1 or H3 on the east; the only one a die has; mirrored, the
lower-numbered. -/
def vaultStack (s : State) (w : List W64) (k : Nat) : Nat :=
  let d := vaultDie s w k
  if rMirror w || !hasStack s (d + 2) || k % 2 = 0 then d else d + 2

/-- Page of region n behind a place of one of its spaces (`UnitFault`); the slots of several chunks may lie on one page. -/
def unitPage (n space place : Nat) : Nat :=
  if space ≤ 2 then space * 2 ^ 20 + place * 32 / pageSize else 3 * 2 ^ 20 + Config.slotPage n (space - 3) place % 2 ^ 20

/-- Stack that holds a place of a space; of a mirrored region, the one with the first copy. -/
def unitStack (s : State) (w : List W64) (space place : Nat) : Nat :=
  if space = 0 then pageStack w (place * 32 / pageSize)
  else if space ≤ 2 then vaultStack s w (min (place * 32 / max 1 (pubBytes w 0)) (rChunks w - 1))
  else vaultStack s w place

/-- A page has been retired on a stack (R145). -/
def isRetired (r : Region) (k page : Nat) : Bool := r.retired.contains (k * 2 ^ 24 + page)

/-- The stack that a place is read from: the lower-numbered, or the twin once the page is retired there (R145, R158). -/
def readStack (s : State) (r : Region) (space place : Nat) : Nat :=
  let k := unitStack s r.words space place
  if rMirror r.words && isRetired r k (unitPage (rNum r.words) space place) then k + 2 else k

/-- Pages that a region takes on each stack. A die's spare slots of a vault are split over its two stacks, the odd one on the
lower-numbered (DESIGN CHOICE, assumption log 54: R146 does not split them). -/
def regionPages (s : State) (w : List W64) : List Nat :=
  let mirrored (l : List Nat) : List Nat := if rMirror w then [nth l 0, nth l 1, nth l 0, nth l 1] else l
  if rVault w then
    let slot (k : Nat) : Nat := sumNat ((List.range 8).map fun j => opndBytes w j k)
    let cs := (List.range (rChunks w)).map fun k => (vaultStack s w k, slot k + 2 * pubBytes w k)
    let spare (st : Nat) : Nat :=
      let n := rSpares w (st % 2)
      let both := !rMirror w && hasStack s (st % 2 + 2)
      slot 0 * (if both then (if st < 2 then (n + 1) / 2 else n / 2) else if st < 2 then n else 0)
    mirrored ((List.range 4).map fun st =>
      ceilDiv (sumNat (cs.map fun c => if c.1 = st then c.2 else 0) + spare st) pageSize)
  else
    let n := rBytes w / pageSize
    mirrored ((List.range 4).map fun st => ((List.range n).filter fun i => pageStack w i == st).length)

/-- Stacks on which a region has pages. -/
def regionStacks (s : State) (w : List W64) : List Nat :=
  (List.range 4).filter fun k => decide (nth (regionPages s w) k > 0)

/-- A stack is still to finish its training. -/
def stackTrains (s : State) (k : Nat) : Bool :=
  let st := s.hbm.stackOf.getD k {}
  hasStack s k && !st.trained && !st.failed

/-- A stack of the region is still to finish its training. -/
def awaitsStack (s : State) (w : List W64) : Bool := (regionStacks s w).any (stackTrains s)

/-! ### Detection and retry (R144, R145) -/

def hbTransient : Nat := 0
def hbTwin : Nat := 1
def hbRetired : Nat := 2
def hbFail : Nat := 3

/-- Places of the bits that read wrong. -/
def wrongBits (x : BitVec 288) : List Nat := (List.range 288).filter fun i => bit x.toNat i

/-- The detection check of R133 fails: for a unit read from another address, up to 4 wrong bits and a burst of up to 32 always, else
where the code of what was read is not the code that was read. -/
def unitCaught (f : UnitFault) : Bool :=
  let l := wrongBits f.flips
  let addr := Config.unitAddr f.stack f.region f.space f.place
  let read := f.data ^^^ f.flips.setWidth 256
  let code := Config.detectCode f.data addr ^^^ (f.flips >>> 256).setWidth 32
  f.from_.isSome || (!l.isEmpty && (decide (l.length ≤ 4) || decide (l.getLastD 0 - l.headD 0 < 32))) ||
    Config.detectCode read addr != code

/-- What stands against a read of a place on a stack: 0 nothing, 1 a first read that fails, 2 both reads. -/
def unitFault (s : State) (k n space place : Nat) : Nat :=
  (s.faults.units.filter fun f => f.stack == k && f.region == n && f.space == space && f.place == place && unitCaught f).foldl
    (fun m f => max m (if f.twice then 2 else 1)) 0

/-- A failure that the re-read cleared stands no more. -/
def clearFault (s : State) (k n space place : Nat) : State :=
  { s with faults := { s.faults with
      units := s.faults.units.filter fun f => !(f.stack == k && f.region == n && f.space == space && f.place == place) } }

/-- A place fails both reads on a stack: the page is retired there while a twin is in use, and the fault is posted (R145). -/
def lastingFault (s : State) (n : Nat) (r : Region) (k page i : Nat) (twin : Bool) : State :=
  let src := srcHbm k
  if twin then
    let s := countBlock (setCause s src hbRetired page (regJob r.words) n) src 2
    setRegion s n { r with degraded := true, retired := r.retired ++ [k * 2 ^ 24 + i] }
  else postEvent s src 0x20 (regJob r.words) page n 0

/-- One place is read: the re-read, then the twin (R144). The state, whether the data is good, and the extra reads. `kind` and `twinBad`
say what the command's operand adds to the failures that stand. -/
def readUnit (s : State) (n space place kind : Nat) (twinBad : Bool) : State × Bool × Nat :=
  match regionAt s n with
  | none => (s, false, 0)
  | some r =>
    let k := readStack s r space place
    let i := unitPage n space place
    let page := Config.pagePlace k n i
    let src := srcHbm k
    let job := regJob r.words
    let f := max kind (unitFault s k n space place)
    if f = 0 then (s, true, 0)
    else if f = 1 then (countBlock (setCause (clearFault s k n space place) src hbTransient page job) src 0, true, 1)
    else
      let twin := rMirror r.words && k == unitStack s r.words space place && !isRetired r (k + 2) i
      if twin && !twinBad && unitFault s (k + 2) n space place == 0 then
        (lastingFault (countBlock (setCause s src hbTwin page job) src 1) n r k page i true, true, 2)
      else (countBlock (setCause (lastingFault s n r k page i twin) src hbFail page job) src 3, false, if twin then 2 else 1)

/-- What the operand of a command says of the first place it reads. -/
def checkKind (chk : ReadCheck) : Nat := match chk with
  | .first => 0
  | .reread => 1
  | _ => 2

/-- The places that a read of `count` places from `first` on meets with a failure. -/
def failing (s : State) (n space first count : Nat) (chk : ReadCheck) : List Nat :=
  let marked := (s.faults.units.filter fun f =>
    f.region == n && f.space == space && decide (first ≤ f.place) && decide (f.place < first + count) && unitCaught f).map (·.place)
  ((if chk = .first then [] else [first]) ++ marked).eraseDups

/-- A read of a run of places of region n ended as `chk` and the failures that stand say: the state with what is counted, posted and
retired, whether the data is good, and the FCLK cycles that the extra reads add (R144). -/
def detect (s : State) (n space first count : Nat) (chk : ReadCheck) : State × Bool × Nat :=
  (failing s n space first count chk).foldl (fun x p =>
    let q := readUnit x.1 n space p (if p = first then checkKind chk else 0) (p == first && chk == .fail)
    (q.1, x.2.1 && q.2.1, x.2.2 + 168 * q.2.2)) (s, true, 0)

/-! ### Versions (R152, R155, R156) -/

/-- The till bound to a vault, in a state other than FREE. -/
def boundTill (s : State) (n : Nat) : Option (Nat × Till) :=
  s.tills.find? fun e => tVault e.2.words && tRegion e.2.words == n

/-- A version is current, or previous and held. -/
def versionHeld (r : Region) (v : W16) : Bool := v == r.current || (r.prevHeld && v + 1 == r.current)

/-- The version being built (R156). -/
def versionBuilt (s : State) (n : Nat) (r : Region) (v : W16) : Bool := (boundTill s n).isSome && v == r.current + 1

/-- The bytes of the published copy of a version: bank 0 holds even versions. -/
def pubCopy (r : Region) (v : W16) : List Byte :=
  ((List.range (rChunks r.words)).map fun k =>
    let c := r.chunks.getD k {}
    padTo (pubBytes r.words k) (if v.toNat % 2 = 0 then c.pub0 else c.pub1)).flatten

/-! ### A memory access (R140) -/

def msOk : Nat := 0
def msAbsent : Nat := 1
def msNotReady : Nat := 2
def msProtected : Nat := 3
def msBounds : Nat := 4
def msDetect : Nat := 5
def msStale : Nat := 6
def msBusy : Nat := 7

/-- An access to fabric memory: to a region and offset, for a job, of `len` bytes. -/
structure Access where
  region : Nat
  off : Nat
  len : Nat
  job : Nat
  write : Bool
  release : Bool
  version : W16
  deriving DecidableEq, Repr

/-- The places an access reads: space, first and number. -/
def accessPlaces (r : Region) (a : Access) : Nat × Nat × Nat :=
  (if rVault r.words then 1 + a.version.toNat % 2 else 0, a.off / 32, ceilDiv (a.off % 32 + a.len) 32)

/-- The units an access touches, one at least. -/
def accessUnits (r : Region) (a : Access) : List Nat :=
  (List.range (max 1 (accessPlaces r a).2.2)).map fun i => (accessPlaces r a).2.1 + i

/-- A stack that holds the addressed pages is still training. -/
def accessTrains (s : State) (r : Region) (a : Access) : Bool :=
  (accessUnits r a).any fun u =>
    let k := unitStack s r.words (accessPlaces r a).1 u
    stackTrains s k || (rMirror r.words && stackTrains s (k + 2))

/-- The first condition of Table 5.5 that holds, detection apart. -/
def accessStatus (s : State) (a : Access) : Nat :=
  if isN s then msAbsent
  else match regionAt s a.region with
    | none => msProtected
    | some r =>
      let w := r.words
      if accessTrains s r a then msNotReady
      else if r.waiting.isSome then msProtected
      else if a.job ≠ regJob w ∨ (a.write && rVault w) = true ∨ (a.release && (a.len != 0 || !rVault w)) = true then msProtected
      else if a.len ≠ 0 ∧ a.off + a.len > (if rVault w then pubSize w else rBytes w) then msBounds
      else if a.len > 8192 then msBounds
      else if a.write || !rVault w then msOk
      else if versionHeld r a.version then msOk
      else if a.release || !versionBuilt s a.region r a.version then msStale
      else if r.parked.length ≥ Config.parkDepth then msBusy
      else msOk

/-- A source and class of memory frames (R141). -/
abbrev Reader := Option (BitVec 20 × Nat)

/-- The bytes of plain regions as a reader finds them: a MEM_WR in progress of its own source and class counts as written, of another only
the units written by now. -/
def memSeen (s : State) (by_ : Reader) : Sparse Byte :=
  s.hbm.writing.foldl (fun m j =>
    let base := j.region * 2 ^ 39 + j.off
    if by_ = some (j.src, j.cls) then memWrite m base j.data
    else (List.range (j.data.length / 32)).foldl (fun m u =>
      if j.from_ + Config.unitTime j.id u ≤ s.now then memWrite m (base + 32 * u) ((j.data.drop (32 * u)).take 32) else m) m) s.hbm.mem

/-- The bytes an access reads. -/
def accessRead (s : State) (a : Access) (by_ : Reader := none) : List Byte :=
  match regionAt s a.region with
  | none => []
  | some r =>
    if rVault r.words then slice (pubCopy r a.version) a.off a.len
    else memRead (memSeen s by_) (a.region * 2 ^ 39 + a.off) a.len

/-- A read of an access under R144: the state, whether its data is good, and the cycles that extra reads add. -/
def accessCheck (s : State) (a : Access) (chk : ReadCheck) : State × Bool × Nat :=
  match regionAt s a.region with
  | none => (s, false, 0)
  | some r =>
    let p := accessPlaces r a
    if a.len = 0 then (s, true, 0) else detect s a.region p.1 p.2.1 p.2.2 chk

/-- Accesses one after another; the operand speaks of the first. -/
def accessChecks (s : State) (l : List Access) (chk : ReadCheck) : State × Bool × Nat :=
  ((List.range l.length).zip l).foldl (fun x a =>
    let q := accessCheck x.1 a.2 (if a.1 = 0 then chk else .first)
    (q.1, x.2.1 && q.2.1, x.2.2 + q.2.2)) (s, true, 0)

/-- MEM_WR frames in progress written to memory, in order. -/
def landAll (m : Sparse Byte) (l : List MemWrite) : Sparse Byte := l.foldl (fun m j => memWrite m (j.region * 2 ^ 39 + j.off) j.data) m

/-- Those whose time has come. -/
def landWrites (s : State) : State :=
  let due (j : MemWrite) : Bool := decide (j.doneAt ≤ s.now)
  if s.hbm.writing.isEmpty then s
  else { s with hbm := { s.hbm with mem := landAll s.hbm.mem (s.hbm.writing.filter due), writing := s.hbm.writing.filter fun j => !due j } }

/-- The bytes of a plain region written by a command, after every MEM_WR received before. -/
def accessWrite (s : State) (region off : Nat) (data : List Byte) : State :=
  { s with hbm := { s.hbm with mem := memWrite (landAll s.hbm.mem s.hbm.writing) (region * 2 ^ 39 + off) data, writing := [] } }

/-! ### Memory frames (R139, R142) -/

/-- The access that a MEM_RD or MEM_WR asks for. -/
def accessOf (h : Header) : Access :=
  let aux := h.aux.toNat
  let write := h.type == 7
  { region := bits aux 31 20, off := 32 * (bits aux 19 10 * 2 ^ 24 + h.offset.toNat),
    len := 32 * (if write then h.len.toNat else bits aux 8 0), job := h.job.toNat, write := write,
    release := !write && bit aux 9, version := h.epoch }

/-- The stacks of an access; none where there is no region to access. -/
def accessStacks (s : State) (a : Access) : List Nat := match regionAt s a.region with
  | some r => ((accessUnits r a).map (readStack s r (accessPlaces r a).1)).eraseDups
  | none => []

/-- The stacks whose quiet windows an access needs: those it reads, and for a write into a mirrored region their twins too. -/
def quietStacks (s : State) (a : Access) : List Nat :=
  let ks := accessStacks s a
  if a.write && (regionAt s a.region).any (fun r => rMirror r.words) then (ks ++ ks.map fun k => (k + 2) % 4).eraseDups else ks

/-- The HBM access of a TC7 request lies wholly in a quiet window of every stack it needs, in the tick in which it falls, 8 cycles later on
a stack that its request crosses the bridge to reach (R142). -/
def inQuietAccess (s : State) (a : Access) (port arrival extra : Nat) : Bool :=
  let ks := quietStacks s a
  let from_ (k : Nat) : Nat := arrival + 44 + 8 * b2n (dieOf port != k % 2)
  tickLen s != 0 && s.tick.running && !ks.isEmpty && ks.all fun k =>
    let lo := (((from_ k : Nat) : Int) - s.tick.start) % (max 1 (tickLen s) : Nat) |>.toNat
    (List.range 4).any fun n => decide ((quietWin s k n).1 ≤ lo) && decide (lo + 168 + extra ≤ (quietWin s k n).2)

/-- A response has the fixed latency of R142. -/
def fixedAccess (s : State) (a : Access) (port arrival cls extra : Nat) : Bool :=
  cls == 7 && decide (port < selfPort) && inQuietAccess s a port arrival extra

/-- Bridge crossings from a receive port by the stacks of an access to a transmit port: those of the stack with most, whose data comes
last (DEDUCED, assumption log 54: R142 speaks of one stack). -/
def bridgeHops (ks : List Nat) (port p : Nat) : Nat :=
  ks.foldl (fun x k => max x (b2n (dieOf port != k % 2) + b2n (dieOf p != k % 2))) 0

/-- Ready cycle of a response: fixed for a TC7 access inside a quiet window of its stack (R142), else free, and not before cycle
`least`. -/
def rspReady (s : State) (a : Access) (port arrival : Nat) (cls extra payload : Nat) (least : Nat := 0) : Nat → Nat :=
  fun p =>
    if fixedAccess s a port arrival cls extra then
      arrival + 232 + 8 * bridgeHops (accessStacks s a) port p + extra + ceilDiv payload (32 * widthOf s port)
    else max least (freeDelay s)

/-- The answer to a request (R140, Table 5.4). -/
def memAnswer (s : State) (h : Header) (status : Nat) (data : List Byte) (ready : Nat → Nat) : State :=
  let aux := h.aux.toNat / 1024 * 1024 + status
  let r := ownFrame s 8 h.cls.toNat h.src.toNat h.job.toNat 0 h.epoch h.offset.toNat aux
  sendOwn s { r with seq := h.seq } data ready

/-- Parked reads of a version answered in arrival order (R156). -/
def answerParked (s : State) (n : Nat) (status : Nat) : State :=
  match regionAt s n with
  | none => s
  | some r =>
    let s := setRegion s n { r with parked := [] }
    r.parked.foldl (fun s q =>
      let h := headerOf q.1.hdr
      if status ≠ msOk then memAnswer s h status [] fun _ => freeDelay s
      else
        let x := accessCheck s (accessOf h) .first
        if x.2.1 then memAnswer x.1 h msOk (accessRead s (accessOf h)) fun _ => freeDelay s
        else memAnswer x.1 h msDetect [] fun _ => freeDelay s) s

/-- Releases take effect on a previous version once HOLDERS distinct ranks have released it (R155). -/
def settleReleases (r : Region) : Region :=
  if r.prevHeld && decide (r.relPrev.length ≥ rHolders r.words) then { r with prevHeld := false } else r

/-- A version becomes current (R152): the one before becomes previous, its early releases count, the next parameter block is
wanted, and parked reads are answered. -/
def makeCurrent (s : State) (n : Nat) (v : W16) : State :=
  match regionAt s n with
  | none => s
  | some r =>
    if v ≠ r.current + 1 then s
    else
      let r := settleReleases { r with current := v, prevHeld := true, prevAt := s.now, relPrev := r.relCur, relCur := [],
                                       split := false, param := none, paramTries := 0, paramAt := s.now }
      answerParked (setRegion s n r) n msOk

/-- Versions whose epoch's completion was written in the cycle before become current (R152). -/
def versionCycle (s : State) : State :=
  (s.hbm.regions.filter fun e => e.2.next.isSome).foldl (fun s e =>
    match e.2.next with
    | none => s
    | some v => makeCurrent (setRegion s e.1 { (regionAt s e.1).getD e.2 with next := none }) e.1 v) s

/-- The bound till becomes FREE: reads parked for the version it was building are answered STALE_VERSION (R156). -/
def unbind (s : State) (w : List W64) : State :=
  if tVault w then answerParked s (tRegion w) msStale else s

/-! ### Board addresses (R134, R135) -/

def baPos (a : Nat) : Nat := bits a 53 51
def baRegion (a : Nat) : Nat := bits a 50 39
def baOff (a : Nat) : Nat := bits a 38 0

/-- The board position of this X7. -/
def ownPos (s : State) : Nat := bits s.boot.strap.toNat 2 0

/-- The X7 at a board address: none for its own, or the endpoint of another. -/
def baEndpoint (s : State) (a : Nat) : Option (BitVec 20) := (s.boot.boardEp.getD (baPos a) none)

/-- The address may be carried: bits 63:54 are 0, the grade has memory, and another X7 has a valid endpoint. -/
def boardOk (s : State) (a : Nat) : Bool :=
  decide (a < 2 ^ 54) && !isN s && (baPos a == ownPos s || (baEndpoint s a).isSome)

/-- A tag that no awaited request carries (R135). -/
def freeTag (s : State) : Nat :=
  let t := (Config.tag s.fresh).toNat
  match (List.range 65536).find? fun i => (ofind s.hbm.reqs ((t + i) % 65536)).isNone with
  | some i => (t + i) % 65536
  | none => t

/-- A MEM_RD or MEM_WR of up to 8,192 bytes sent to another X7; `place` says where its data belongs. -/
def sendRequest (s : State) (for_ : MemFor) (place a len job cls : Nat) (data : Option (List Byte)) (again : Bool) : State :=
  match baEndpoint s a with
  | none => s
  | some ep =>
    let tag := freeTag s
    let off := baOff a / 32
    let aux := baRegion a * 2 ^ 20 + off / 2 ^ 24 % 1024 * 2 ^ 10 + (if data.isSome then 0 else len / 32)
    let h := ownFrame s (if data.isSome then 7 else 6) cls ep.toNat job 0 0 (off % 2 ^ 24) aux
    let h := { h with seq := BitVec.ofNat 16 tag }
    let q : MemReq := { frame := mkFrame h (data.getD []), sentAt := s.now, again := again, for_ := for_, place := place }
    let s := { s with hbm := { s.hbm with reqs := oins s.hbm.reqs tag q } }
    sendOwn s h (data.getD []) fun _ => freeDelay s

/-- A run of bytes cut into pieces of at most 8,192: place and length. -/
def pieces (len : Nat) : List (Nat × Nat) :=
  (List.range (ceilDiv len 8192)).map fun i => (8192 * i, min 8192 (len - 8192 * i))

end Sys2Proof.Machine
end

