-- ==== Sys2Proof/Machine/Programs.lean ====
section
/-! DEFINITION. Program images (04 R110-R116): their fields, the checks of PROG_LOAD, and the program store. -/

namespace Sys2Proof.Machine

/-! ### Fields (Tables 4.3-4.5) -/

def pgFormat (im : List Byte) : Nat := leAt im 0 1
/-- 0 general, 1 update. -/
def pgKind (im : List Byte) : Nat := leAt im 1 1
def pgLen (im : List Byte) : Nat := leAt im 2 2
def pgScr (im : List Byte) : Nat := leAt im 4 1
/-- Bytes of the image. -/
def pgBytes (im : List Byte) : Nat := 128 + 8 * pgLen im
/-- Stream descriptor k. -/
def strmOf (im : List Byte) (k : Nat) : W64 := BitVec.ofNat 64 (leAt im (64 + 8 * k) 8)
/-- 0 unused, 1 CHUNK, 2 SCRATCH, 3 FABRIC, 4 PUBLISH. -/
def sKind (w : W64) : Nat := fld w 63 61
def sWrite (w : W64) : Bool := bit w.toNat 60
def sFmt (w : W64) : Nat := fld w 59 55
def sOpnd (w : W64) : Nat := fld w 54 52
def sLine (w : W64) : Nat := fld w 51 41
def sChosen (w : W64) : Bool := bit w.toNat 40
def sScale (w : W64) : Nat := fld w 39 32
/-- Instruction i. -/
def insOf (im : List Byte) (i : Nat) : W64 := BitVec.ofNat 64 (leAt im (128 + 8 * i) 8)
def iOpc (w : W64) : Nat := fld w 63 56
def iDst (w : W64) : Nat := fld w 55 52
/-- Source selector j: A, B, C. -/
def iSel (w : W64) (j : Nat) : Nat := fld w (51 - 5 * j) (47 - 5 * j)
def iStrm (w : W64) : Nat := fld w 36 34
def iImm (w : W64) : Nat := fld w 31 0

/-- DST used, number of sources, STRM used and issue slots of an opcode; none for a reserved one (Table 4.7). -/
def opForm (op : Nat) : Option (Bool × Nat × Bool × Nat) :=
  match op with
  | 0x00 => some (false, 0, false, 1)
  | 0x01 => some (true, 0, true, 1)
  | 0x02 => some (false, 1, true, 1)
  | 0x03 | 0x19 | 0x1A | 0x23 | 0x38 | 0x39 | 0x40 | 0x41 | 0x42 | 0x43 => some (true, 1, false, 1)
  | 0x16 => some (true, 1, false, 4)
  | 0x15 => some (true, 2, false, 4)
  | 0x13 | 0x14 | 0x24 => some (true, 3, false, 1)
  | 0x10 | 0x11 | 0x12 | 0x17 | 0x18 | 0x1B | 0x20 | 0x21 | 0x22 | 0x30 | 0x31 | 0x32 | 0x33 | 0x34 | 0x35 | 0x36 | 0x37 =>
    some (true, 2, false, 1)
  | _ => none

/-- Cross-element opcodes. -/
def isCross (op : Nat) : Bool := decide (0x40 ≤ op) && decide (op ≤ 0x43)

/-- The instructions and streams of an image. -/
def insList (im : List Byte) : List W64 := (List.range (pgLen im)).map (insOf im)
def strmList (im : List Byte) : List W64 := (List.range 8).map (strmOf im)

/-- Issue slots P of a program (R130). -/
def issueSlots (im : List Byte) : Nat := sumNat ((insList im).map fun i => ((opForm (iOpc i)).map (·.2.2.2)).getD 0)

/-! ### The checks of R115 -/

/-- Table 4.3. -/
def headerOk (im : List Byte) : Bool :=
  pgFormat im == 1 && decide (pgKind im ≤ 1) && decide (1 ≤ pgLen im) && decide (pgLen im ≤ 128) &&
    (if pgKind im = 1 then pgScr im == 0 else decide (1 ≤ pgScr im) && decide (pgScr im ≤ 64)) &&
    (slice im 5 59).all fun b => b == 0

/-- FP32, BF16 or FP16. -/
def isFloat (f : Nat) : Bool := f == 8 || f == 9 || f == 10

/-- A stream descriptor keeps Tables 4.4 and 4.8 and fits its KIND of program. A line beyond the program's window refuses the run and not the
load (DESIGN CHOICE, assumption log 54: Table 4.4 bounds SP_LINE, R115 and R118 do not say where that is judged). -/
def streamOk (kind : Nat) (w : W64) : Bool :=
  fld w 31 0 == 0 && match sKind w with
    | 0 => true
    | 1 => kind == 1 && !sWrite w && isFloat (sFmt w)
    | 2 => kind == 0 && isFloat (sFmt w)
    | 3 => kind == 1 && isFloat (sFmt w)
    | 4 => kind == 1 && sWrite w && (isScaled (sFmt w) || isFloat (sFmt w)) &&
        (if sChosen w then sFmt w != 6 else sScale w != 0xFF)
    | _ => false

/-- An instruction keeps Tables 4.5 and 4.6 and R113. -/
def insOk (i : W64) : Bool :=
  match opForm (iOpc i) with
  | none => false
  | some (d, n, st, _) =>
    fld i 33 32 == 0 && (d || iDst i == 0) && (st || iStrm i == 0) &&
      (List.range 3).all fun j => if j < n then iSel i j != 0x1F else iSel i j == 0x1E

/-- The LDs of read streams and the STs of write streams: exactly one each, and none of another stream. -/
def transfersOk (im : List Byte) : Bool :=
  let is_ := insList im
  (List.range 8).all fun k =>
    let w := strmOf im k
    let ld := (is_.filter fun i => iOpc i == 1 && iStrm i == k).length
    let st := (is_.filter fun i => iOpc i == 2 && iStrm i == k).length
    if sKind w = 0 then ld == 0 && st == 0
    else if sWrite w then ld == 0 && st == 1
    else ld == 1 && st == 0

/-- Every V register is written before it is read. -/
def readsOk : List W64 → List Nat → Bool
  | [], _ => true
  | i :: r, written =>
    let (d, n) := match opForm (iOpc i) with
      | some (d, n, _, _) => (d && !isCross (iOpc i), n)
      | none => (false, 0)
    ((List.range n).all fun j => decide (iSel i j > 15) || written.contains (iSel i j)) &&
      readsOk r (if d then iDst i :: written else written)

/-- Latch words an instruction writes, each with its opcode. -/
def latchUse (i : W64) : List (Nat × Nat) :=
  let op := iOpc i
  if op = 0x40 || op = 0x43 then [(iDst i, op)]
  else if op = 0x41 || op = 0x42 then [(iDst i, op), (iDst i + 1, op)]
  else []

/-- The latch rules of R115. -/
def latchOk (im : List Byte) : Bool :=
  let is_ := insList im
  let uses := (is_.map latchUse).flatten
  uses.all (fun u => decide (u.1 ≤ 7) && uses.all fun v => v.1 != u.1 || v.2 == u.2) &&
    is_.all fun i => !(iOpc i == 0x41 || iOpc i == 0x42) || iDst i % 2 == 0

/-- Streams of one kind. -/
def streamsOf (im : List Byte) (kind : Nat) : List W64 := (strmList im).filter fun w => sKind w == kind

/-- An image that PROG_LOAD may load, the slot and the store apart. On XN7-N an update program without a FABRIC stream is loaded: R115 lists
those with one, Table 1.10 update programs, which no till there can name (DESIGN CHOICE, assumption log 54). -/
def imageOk (s : State) (im : List Byte) : Bool :=
  headerOk im && (strmList im).all (streamOk (pgKind im)) && (insList im).all insOk && transfersOk im &&
    readsOk (insList im) [] && latchOk im &&
    (pgKind im == 0 || ((streamsOf im 1).length == 1 && decide ((streamsOf im 4).length ≤ 1))) &&
    ((streamsOf im 3).isEmpty || hasVault s)

/-! ### The store (R114) -/

/-- The usable image in a slot. -/
def progAt (s : State) (slot : Nat) : Option Prog := (ofind s.progs slot).filter fun p => p.loading.isNone

/-- Instructions held. -/
def storeUsed (s : State) : Nat := sumNat (s.progs.map fun e => pgLen e.2.image)

/-- A pass or run of a context is a standalone run of this slot. -/
def runsSlot (slot : Nat) (p : Pass) : Bool := match p.run with
  | some r => r.slot == slot
  | none => false

/-- A till names the slot, or a run of it is queued or running (R115). -/
def slotBusy (s : State) (slot : Nat) : Bool :=
  s.tills.any (fun e => tVault e.2.words && tProg e.2.words == slot) ||
    s.ctxs.any (fun e => e.2.ready.any (runsSlot slot) || match e.2.running with
      | some r => runsSlot slot r.pass
      | none => false) ||
    s.hbm.xfers.any fun e => match e.2.run with
      | some (_, r) => r.slot == slot
      | none => false

/-- PROG_LOAD takes the slot; it is usable, and the command completes, once the last tile holds the image. -/
def execProgLoad (ring : BitVec 6) (d : Desc) (image : List Byte) (s : State) : Res :=
  .next (accept s ring d 0x20 none 0 (cringOf d.d0) fun a s =>
    let slot := fld d.d1 7 0
    let im := padTo (pgBytes image) image
    if (ofind s.progs slot).isSome || !imageOk s im || decide (storeUsed s + pgLen im > Config.progInstrs) then complete s a stRefused
    else
      let dg := sha512Bytes im
      let (n, s) := takeFresh s
      let p : Prog := { image := im, digest := BitVec.ofNat 512 (beNat dg), loading := some (s.now + 1 + Config.loadTime n, a) }
      { s with progs := oins s.progs slot p })

/-- The images that every tile holds by the cycle before become usable: their loads complete, and are recorded (15 R427). -/
def progCycle (s : State) : State :=
  s.progs.foldl (fun s e => match e.2.loading with
    | some (t, a) =>
      if s.now < t then s
      else
        let s := record s oHost a.ring 0x14 false e.1 [] (sha512Bytes e.2.image)
        complete { s with progs := oins s.progs e.1 { e.2 with loading := none } } a stOk 0 (digestLow64 e.2.image).toNat
    | none => s) s

def execProgUnload (ring : BitVec 6) (d : Desc) (s : State) : Res :=
  .next (accept s ring d 0x21 none 0 (cringOf d.d0) fun a s =>
    let slot := fld d.d1 7 0
    match progAt s slot with
    | none => complete s a stRefused
    | some p =>
      if slotBusy s slot then complete s a stRefused
      else
        let s := record s oHost a.ring 0x14 false (slot + 256) [] (digestBytes p.digest)
        complete { s with progs := odel s.progs slot } a stOk)

end Sys2Proof.Machine
end

