-- ==== Sys2Proof/Machine/Float.lean ====
section
/-! DEFINITION. Engine arithmetic (04 R108, R109, Table 4.2), the instructions of Table 4.7, stream conversion (R117) and the
result latch (R122, R123). -/

namespace Sys2Proof.Machine

/-! ### binary32 values -/

def fNan : W32 := 0x7FC00000
def fSign (a : W32) : Bool := bit a.toNat 31
/-- Exponent and fraction bits. -/
def fMag (a : W32) : Nat := a.toNat % 2 ^ 31
def fIsNan (a : W32) : Bool := decide (fMag a > 0x7F800000)
def fIsInf (a : W32) : Bool := fMag a == 0x7F800000
def fIsZero (a : W32) : Bool := fMag a == 0

/-- A value with its sign and magnitude bits. -/
def fMake (neg : Bool) (mag : Nat) : W32 := BitVec.ofNat 32 (b2n neg * 2 ^ 31 + mag % 2 ^ 31)

/-- ±m × 2^e rounded once, to nearest even, overflowing to infinity. -/
def fRound (neg : Bool) (m : Nat) (e : Int) : W32 := fMake neg (min (roundFloat 23 127 m e) 0x7F800000)

/-- Magnitude m × 2^e of a finite value. -/
def fNum (a : W32) : Nat × Int :=
  let v := decodeElem 10 a.toNat
  (v.m.natAbs, v.e)

/-- Signed significand of a finite value. -/
def fInt (a : W32) : Int := (decodeElem 10 a.toNat).m

/-- a × 2^e + b × 2^f rounded once; an exact zero is negative only when both terms are. -/
def fSum (na : Bool) (a : Int) (e : Int) (nb : Bool) (b : Int) (f : Int) : W32 :=
  let g := min e f
  let t := a * 2 ^ (e - g).toNat + b * 2 ^ (f - g).toNat
  if t = 0 then fMake (na && nb) 0 else fRound (decide (t < 0)) t.natAbs g

def fNeg (a : W32) : W32 := if fIsNan a then fNan else a ^^^ 0x80000000
def fAbs (a : W32) : W32 := if fIsNan a then fNan else fMake false (fMag a)

def fAdd (a b : W32) : W32 :=
  if fIsNan a || fIsNan b then fNan
  else if fIsInf a then (if fIsInf b && fSign a != fSign b then fNan else a)
  else if fIsInf b then b
  else fSum (fSign a) (fInt a) (fNum a).2 (fSign b) (fInt b) (fNum b).2

/-- A × B + C with one rounding. -/
def fFma (a b c : W32) : W32 :=
  let neg := fSign a != fSign b
  if fIsNan a || fIsNan b || fIsNan c || (fIsInf a && fIsZero b) || (fIsZero a && fIsInf b) then fNan
  else if fIsInf a || fIsInf b then (if fIsInf c && fSign c != neg then fNan else fMake neg 0x7F800000)
  else if fIsInf c then c
  else fSum neg (fInt a * fInt b) ((fNum a).2 + (fNum b).2) (fSign c) (fInt c) (fNum c).2

def fMul (a b : W32) : W32 :=
  let neg := fSign a != fSign b
  if fIsNan a || fIsNan b || (fIsInf a && fIsZero b) || (fIsZero a && fIsInf b) then fNan
  else if fIsInf a || fIsInf b then fMake neg 0x7F800000
  else fRound neg ((fNum a).1 * (fNum b).1) ((fNum a).2 + (fNum b).2)

def fDiv (a b : W32) : W32 :=
  let neg := fSign a != fSign b
  if fIsNan a || fIsNan b || (fIsInf a && fIsInf b) || (fIsZero a && fIsZero b) then fNan
  else if fIsInf a || fIsZero b then fMake neg 0x7F800000
  else if fIsInf b || fIsZero a then fMake neg 0
  else
    let n := (fNum a).1 * 2 ^ 80
    let d := (fNum b).1
    fRound neg (2 * (n / d) + b2n (n % d != 0)) ((fNum a).2 - (fNum b).2 - 81)

/-- The largest r with r × r ≤ n, for n below 2^128. -/
def isqrt (n : Nat) : Nat :=
  (List.range 64).foldl (fun r i => let t := r + 2 ^ (63 - i); if t * t ≤ n then t else r) 0

def fSqrt (a : W32) : W32 :=
  if fIsNan a then fNan
  else if fIsZero a then a
  else if fSign a then fNan
  else if fIsInf a then a
  else
    let (m, e) := fNum a
    let odd := e % 2 != 0
    let n := (if odd then 2 * m else m) * 2 ^ 80
    let e' := (if odd then e - 1 else e) - 80
    let r := isqrt n
    fRound false (2 * r + b2n (r * r != n)) (e' / 2 - 1)

/-- A key that rises with the value, −0 just below +0. -/
def fKey (a : W32) : Int := if fSign a then -(fMag a : Int) - 1 else fMag a
/-- A key that rises with the value, the zeroes equal. -/
def fVal (a : W32) : Int := if fSign a then -(fMag a : Int) else fMag a

def fMax (a b : W32) : W32 := if fIsNan a || fIsNan b then fNan else if fKey a ≥ fKey b then a else b
def fMin (a b : W32) : W32 := if fIsNan a || fIsNan b then fNan else if fKey a ≤ fKey b then a else b

/-- A × 2^B; beyond ±600 the shift no longer changes the result. -/
def fScalb (a b : W32) : W32 :=
  if fIsNan a then fNan
  else if fIsInf a || fIsZero a then a
  else fRound (fSign a) (fNum a).1 ((fNum a).2 + max (-600) (min 600 (toInt 32 b.toNat)))

/-- FP32 to signed integer, and whether it was NaN or out of range. -/
def fToInt (a : W32) : W32 × Bool :=
  if fIsNan a then (0, true)
  else
    let big := fIsInf a || decide (fMag a ≥ 0x4F800000)
    let q : Int := if big then 2 ^ 40 else roundEven (fNum a).1 (fNum a).2
    let v : Int := if fSign a then -q else q
    if v > 2 ^ 31 - 1 then (0x7FFFFFFF, true)
    else if v < -(2 ^ 31) then (0x80000000, true)
    else (BitVec.ofInt 32 v, false)

def fOfInt (a : W32) : W32 :=
  let v := toInt 32 a.toNat
  fRound (decide (v < 0)) v.natAbs 0

def mask32 (b : Bool) : W32 := if b then 0xFFFFFFFF else 0

/-! ### Stream conversion (R117) -/

/-- LD: an element of a read stream as FP32. -/
def fWiden (f enc : Nat) : W32 :=
  if f = 10 then BitVec.ofNat 32 enc
  else
    let v := decodeElem f enc
    let neg := bit enc 15
    match v.cls with
    | .nan => fNan
    | .fin => fRound neg v.m.natAbs v.e
    | _ => fMake neg 0x7F800000

/-- ST to a SCRATCH or FABRIC stream. -/
def fNarrow (f : Nat) (a : W32) : Nat :=
  if f = 10 then a.toNat
  else if fIsNan a then (nanEnc f).getD 0
  else
    let sign := b2n (fSign a) * 2 ^ 15
    let inf := (infEnc f).getD 0
    if fIsInf a then sign + inf
    else match floatForm f with
      | some (_, mb, bias) => sign + min inf (roundFloat mb bias (fNum a).1 (fNum a).2)
      | none => 0

/-! ### Instructions (Table 4.7) -/

/-- Result of an instruction that writes a V register from its operands. -/
def aluResult (op : Nat) (a b c : W32) : W32 :=
  match op with
  | 0x03 => a
  | 0x10 => fAdd a b
  | 0x11 => fAdd a (fNeg b)
  | 0x12 => fMul a b
  | 0x13 => fFma a b c
  | 0x14 => fFma (fNeg a) b c
  | 0x15 => fDiv a b
  | 0x16 => fSqrt a
  | 0x17 => fMax a b
  | 0x18 => fMin a b
  | 0x19 => fAbs a
  | 0x1A => fNeg a
  | 0x1B => fScalb a b
  | 0x20 => mask32 (!fIsNan a && !fIsNan b && decide (fVal a > fVal b))
  | 0x21 => mask32 (!fIsNan a && !fIsNan b && decide (fVal a ≥ fVal b))
  | 0x22 => mask32 (!fIsNan a && !fIsNan b && decide (fVal a = fVal b))
  | 0x23 => mask32 (fIsNan a)
  | 0x24 => if a ≠ 0 then b else c
  | 0x30 => a &&& b
  | 0x31 => a ||| b
  | 0x32 => a ^^^ b
  | 0x33 => a + b
  | 0x34 => a - b
  | 0x35 => a <<< (b.toNat % 32)
  | 0x36 => a >>> (b.toNat % 32)
  | 0x37 => mask32 (decide (a < b))
  | 0x38 => (fToInt a).1
  | 0x39 => fOfInt a
  | _ => 0

/-- What a pass carries from element to element: the latch, ENG_INVALID with its lowest index, and the values stored, newest
first, as stream and value. -/
structure PassSt where
  latch : List W32
  invalid : Nat
  index : Option Nat
  outs : List (Nat × W32)
  deriving DecidableEq, Repr

/-- What a pass works on besides its image: K0-K11, the index base, and the widened element e of read stream k. -/
structure PassIn where
  image : List Byte
  k : List W32
  base : Nat

/-- Value of a source selector (Table 4.6). -/
def selVal (x : PassIn) (v : List W32) (index : W32) (i : W64) (j : Nat) : W32 :=
  let c := iSel i j
  if c ≤ 15 then v.getD c 0
  else if c ≤ 0x1B then x.k.getD (c - 16) 0
  else if c = 0x1C then BitVec.ofNat 32 (iImm i)
  else if c = 0x1D then index
  else 0

/-- An operand is a NaN that counts nowhere again: one held in a V register, or a pattern taken from INDEX. -/
def vNan (i : W64) (j : Nat) (a : W32) : Bool := (decide (iSel i j ≤ 15) || iSel i j == 0x1D) && fIsNan a
/-- An operand is a NaN from a K register or IMM. -/
def kNan (i : W64) (j : Nat) (a : W32) : Bool := decide (0x10 ≤ iSel i j) && decide (iSel i j ≤ 0x1C) && fIsNan a

/-- An occasion of R109 for an instruction that is not a transfer. -/
def occasion (i : W64) (a b c r : W32) : Bool :=
  let op := iOpc i
  let n : Nat := ((opForm op).map fun (f : Bool × Nat × Bool × Nat) => f.2.1).getD 0
  if 0x10 ≤ op ∧ op ≤ 0x1B then
    fIsNan r && !(vNan i 0 a || (decide (n ≥ 2) && vNan i 1 b) || (decide (n ≥ 3) && vNan i 2 c))
  else if op = 0x03 then kNan i 0 a
  else if op = 0x24 then if a ≠ 0 then kNan i 1 b else kNan i 2 c
  else if op = 0x38 then (fToInt a).2
  else false

/-- A held (value, index) pair gives way to another (R122): the pair is empty, or A is the first NaN, or A is the better. -/
def argBeats (op : Nat) (held idx a : W32) : Bool :=
  idx == 0xFFFFFFFF || (!fIsNan held && (fIsNan a || (if op = 0x41 then decide (fKey a > fKey held) else decide (fKey a < fKey held))))

/-- A cross-element instruction acts on the latch (R122). -/
def latchStep (op dst : Nat) (l : List W32) (a index : W32) : List W32 :=
  let w := l.getD dst 0
  match op with
  | 0x40 => if fIsNan w then l
            else if fIsNan a then l.set dst fNan
            else if fMag a > fMag w then l.set dst (fAbs a) else l
  | 0x43 => if a ≠ 0 then l.set dst (BitVec.ofNat 32 (satAdd Config.sat32 w.toNat 1)) else l
  | _ =>
    if argBeats op w (l.getD (dst + 1) 0) a then (l.set dst (if fIsNan a then fNan else a)).set (dst + 1) index else l

/-- One instruction of one element: the V registers and the pass. `rd` reads a stream's element, given the stores so far. -/
def insStep (x : PassIn) (rd : List (Nat × W32) → Nat → Nat → W32) (e : Nat) (index : W32) (vs : List W32 × PassSt) (i : W64) :
    List W32 × PassSt :=
  let (v, p) := vs
  let op := iOpc i
  let a := selVal x v index i 0
  let b := selVal x v index i 1
  let c := selVal x v index i 2
  let note (p : PassSt) : PassSt :=
    { p with invalid := satAdd Config.sat32 p.invalid 1, index := some (min (p.index.getD index.toNat) index.toNat) }
  if op = 0x00 then (v, p)
  else if op = 0x01 then
    let r := rd p.outs (iStrm i) e
    (v.set (iDst i) r, if fIsNan r && sKind (strmOf x.image (iStrm i)) != 1 then note p else p)
  else if op = 0x02 then (v, { p with outs := (iStrm i, a) :: p.outs })
  else if isCross op then (v, { p with latch := latchStep op (iDst i) p.latch a index })
  else
    let r := aluResult op a b c
    (v.set (iDst i) r, if occasion i a b c r then note p else p)

/-- The latch at the start of a pass (R122). Words that no instruction of the program writes start, and so read, 0 (DESIGN CHOICE, assumption
log 54). -/
def latchReset (im : List Byte) : List W32 :=
  (insList im).foldl (fun l i =>
    if iOpc i = 0x41 then (l.set (iDst i) 0xFF800000).set (iDst i + 1) 0xFFFFFFFF
    else if iOpc i = 0x42 then (l.set (iDst i) 0x7F800000).set (iDst i + 1) 0xFFFFFFFF
    else l) (List.replicate 8 0)

/-- A pass of n elements (R104): every instruction for every element, in ascending element order. `rd` reads a stream's element,
given what the pass has stored so far. -/
def runPass (x : PassIn) (rd : List (Nat × W32) → Nat → Nat → W32) (n : Nat) : PassSt :=
  let p0 : PassSt := { latch := latchReset x.image, invalid := 0, index := none, outs := [] }
  (List.range n).foldl (fun p e =>
    ((insList x.image).foldl (insStep x rd e (BitVec.ofNat 32 (x.base + e))) (List.replicate 16 0, p)).2) p0

/-- The values stored to a write stream, in element order. -/
def outsOf (p : PassSt) (k : Nat) : List W32 := (p.outs.filterMap fun o => if o.1 = k then some o.2 else none).reverse

/-- Latch words of two passes over disjoint parts combined (R123). -/
def latchJoin (im : List Byte) (a b : List W32) : List W32 :=
  (insList im).foldl (fun l i =>
    let d := iDst i
    let y := b.getD d 0
    let x := a.getD d 0
    match iOpc i with
    | 0x40 => l.set d (if fIsNan x || fIsNan y then fNan else if fMag y > fMag x then y else x)
    | 0x43 => l.set d (BitVec.ofNat 32 (satAdd Config.sat32 x.toNat y.toNat))
    | 0x41 | 0x42 =>
      let xi := a.getD (d + 1) 0
      let yi := b.getD (d + 1) 0
      let op := iOpc i
      let better (h hi v vi : W32) : Bool :=
        vi != 0xFFFFFFFF && (hi == 0xFFFFFFFF || (if fIsNan h then fIsNan v && decide (vi < hi)
          else fIsNan v || (if op = 0x41 then decide (fKey v > fKey h) else decide (fKey v < fKey h)) ||
            (fKey v == fKey h && decide (vi < hi))))
      if better x xi y yi then (l.set d y).set (d + 1) yi else (l.set d x).set (d + 1) xi
    | _ => l) a

end Sys2Proof.Machine
end

