-- ==== Sys2Proof/Machine/TillCheck.lean ====
section
/-! DEFINITION. The checks of TILL_OPEN (03 R63-R67, R70; 02 R29, R30, R38, R41, R45, R52; 04 R125; 05 R147), in the order of
R64. -/

namespace Sys2Proof.Machine

/-! ### Step 1: field ranges -/

/-- Reserved bits of the till descriptor are 0. -/
def tReservedOk (w : List W64) : Bool :=
  wf w 1 0 0 == 0 && wf w 2 9 0 == 0 && wf w 3 11 0 == 0 && wf w 5 15 0 == 0 && wf w 10 31 0 == 0 &&
    [11, 12, 13, 14, 15].all fun i => wf w i 63 0 == 0

/-- Contribution arithmetic (02 Table 2.1, R30, R41). -/
def tArithOk (w : List W64) : Bool :=
  let f := tFmt w
  isFormat f && !isWide f && tOp w != 3 && tMode w != 3 && (!tPair w || f == 10 || isScaled f) &&
    (if isScaled f then tAgreed w != 0xFF
     else tMode w == 0 && tExt w == 0 && decide (1 ≤ tSpan w) && decide (tSpan w ≤ (if tPaired w then 95 else 47))) &&
    decide (1 ≤ tContributors w) && decide (tContributors w ≤ 16384) && !(tOp w != 0 && tWeighted w)

/-- Sizes and host addresses. -/
def tSizesOk (w : List W64) : Bool :=
  decide (1 ≤ tElements w) && decide (tElements w ≤ 2 ^ 24 * tElems w) &&
    decide (1 ≤ tChunkBlocks w) && decide (tChunkBlocks w ≤ 256) && decide (1 ≤ tEntries w) && decide (tEntries w ≤ 1024) &&
    hostAddrOk (w.getD 6 0) 32 && (!(isScaled (tFmt w) && tMode w == 2) || hostAddrOk (w.getD 7 0) 1) &&
    (!tSaveHost w || hostAddrOk (w.getD 9 0) 64)

/-- The fields of a ROOT till (R63, R65, R30, R52). -/
def tRootOk (s : State) (w : List W64) : Bool :=
  isFormat (tOut w) && !isWide (tOut w) && tOutScale w != 0xFF && !(tOutChosen w && tOut w == 6) &&
    decide (tOmul w ≤ 65536) && tFuseOp w != 3 && tResult w != 3 &&
    (tFuseOp w == 0 ||
      (tOp w == 0 &&
        (if tFuseFab w then boardOk s (w.getD 8 0).toNat || isN s else hostAddrOk (w.getD 8 0) 1)))

/-- The fields of an INNER till (R65). OMUL, which acts at a ROOT alone (02 R57), is not held to its range here: R65 names the OUT_* fields
(DESIGN CHOICE, assumption log 54). -/
def tInnerOk (w : List W64) : Bool := isWide (tPart w) || isScaled (tPart w)

/-- Ranges that Table 3.1 gives without a setting under which they hold: EF_TIMER, and FUSE_FMT (R63). -/
def tAlwaysOk (w : List W64) : Bool := tEfTimer w != 0 && (isFloat (tFuseFmt w) || tFuseFmt w == 16)

/-- Step 1 of R64, the vault's conditions apart. -/
def tFieldsOk (s : State) (w : List W64) : Bool :=
  tReservedOk w && decide (wf w 0 23 22 ≤ 1) && tAlwaysOk w && tArithOk w && tSizesOk w &&
    (!tTick w || (tickLen s != 0 && decide (tDeadline w < tickLen s))) &&
    (if tInner w then tInnerOk w else tRootOk s w)

/-! ### The vault and its program (R125, R147) -/

/-- Logical tiles that host a chunk of till n on a die. -/
def dieTiles (s : State) (n : Nat) (w : List W64) (die : Nat) : Nat :=
  (((List.range (tChunks w)).map (tileOf s n w)).filter fun t => t / 2048 == die).eraseDups.length

/-- R125 and R147 for a till in RESULT_MODE = VAULT. -/
def tVaultOk (s : State) (w : List W64) : Bool :=
  let n := tTill w
  match progAt s (tProg w), regionAt s (tRegion w) with
  | some p, some r =>
    let im := p.image
    let rw := r.words
    decide (tProg w ≤ 255) && pgKind im == 1 && (streamsOf im 1).all (fun x => sFmt x == tOut w) &&
      (streamsOf im 3).all (fun x => rOpnd rw (sOpnd x) == sFmt x && rOpnd rw (sOpnd x) != 0 && !tTick w) &&
      (streamsOf im 4).all (fun x => rPubEn rw && sFmt x == rPubFmt rw) &&
      (!rPubEn rw || !(streamsOf im 4).isEmpty) &&
      rVault rw && rTill rw == n && rChunkBlocks rw == tChunkBlocks w && rBlk rw == tBlk w &&
      rElements rw == tElements w && (boundTill s (tRegion w)).isNone &&
      [0, 1].all fun d => decide (dieTiles s n w d ≤ rSpares rw d)
  | _, _ => false

/-! ### Step 3: the shard table and the frame-fit rule -/

/-- One entry keeps Table 3.2: reserved bits, KIND, CHILD_TILL, SRC_COUNT, and the weight of a member that contributes: R67 does not list
it, and a destination's weight has no use (DESIGN CHOICE, assumption log 54). -/
def shEntryOk (w sh : List W64) (i : Nat) : Bool :=
  shKind sh i != 3 && shWord sh i 0 15 0 == 0 && shWord sh i 1 21 0 == 0 && shWord sh i 2 15 0 == 0 && shWord sh i 3 39 0 == 0 &&
    (shKind sh i == 1 || shChildTill sh i == 0) && (shKind sh i != 2 || shCount sh i == 0) &&
    (!(tWeighted w && shKind sh i == 0) || decide (shWeight sh i % 2 ^ 17 ≤ 65536)) &&
    (shCount sh i == 0 || decide (shFirst sh i + shCount sh i ≤ tBlocks w)) &&
    (shDstCount sh i == 0 || decide (shDstFirst sh i + shDstCount sh i ≤ tBlocks w))

/-- A list of numbers without repeats. -/
def distinct (l : List Nat) : Bool := l.eraseDups.length == l.length

/-- How far ranges cover the blocks from block p on, without a gap, and without overlap where that is asked. -/
def covers (rs : List (Nat × Nat)) (disjoint : Bool) : Nat → Nat → Nat
  | 0, p => p
  | k + 1, p =>
    match rs.find? fun r => if disjoint then r.1 == p else decide (r.1 ≤ p) && decide (p < r.1 + r.2) with
    | none => p
    | some r => covers rs disjoint k (r.1 + r.2)

/-- R67. -/
def shardOk (s : State) (w sh : List W64) : Bool :=
  let all := List.range (tEntries w)
  let kind (k : Nat) := all.filter fun i => shKind sh i == k
  let src := ((inputsOf w sh).filter fun i => shCount sh i != 0).map fun i => (shFirst sh i, shCount sh i)
  let dst := (all.filter fun i => shDstCount sh i != 0).map fun i => (shDstFirst sh i, shDstCount sh i)
  let ranked := all.filter fun i => shKind sh i != 1
  all.all (shEntryOk w sh) && decide ((inputsOf w sh).length ≤ (if isN s then 256 else 512)) &&
    distinct (ranked.map (shRank sh)) && distinct ((kind 1).map (shEndpoint sh)) &&
    decide ((kind 0).length ≤ tContributors w) &&
    (tInner w || (covers src false src.length 0 == tBlocks w &&
      (tResult w != 1 || (covers dst true dst.length 0 == tBlocks w && sumNat (dst.map (·.2)) == tBlocks w))))

/-- Payload bytes of n blocks in a format, with the rank section of MAX and MIN. -/
def fitBytes (w : List W64) (f n : Nat) : Nat :=
  payloadSize f (tBlk w) n + (if tOp w = 0 then 0 else round32 (2 * n * tElems w))

/-- The largest delivery of a range for any one chunk. -/
def largest (w : List W64) (first n : Nat) : Nat :=
  let cb := tChunkBlocks w
  let a := first / cb
  let b := (first + n - 1) / cb
  if n = 0 then 0
  else if a = b then n
  else max (max (cb * (a + 1) - first) (first + n - cb * b)) (if b ≥ a + 2 then cb else 0)

/-- R70. -/
def frameFit (w sh : List W64) : Bool :=
  ((inputsOf w sh).all fun i =>
    let f := if shKind sh i = 0 then tFmt w else tPart w
    !isFormat f || decide (fitBytes w f (largest w (shFirst sh i) (shCount sh i)) ≤ 8192)) &&
  (!tInner w || decide (fitBytes w (tPart w) (largest w (spanOf w sh).1 (spanOf w sh).2) ≤ 8192))

/-! ### Steps 2 and 4, scale table and scratchpad -/

/-- R3: the units the descriptor needs are present. FUSE_SRC = 1 needs fabric memory where FUSE_OP ≠ 0 (DESIGN CHOICE, assumption log 54). -/
def tUnitsOk (s : State) (w : List W64) : Bool :=
  (!tVault w || hasVault s) && !(tFused w && tFuseFab w && isN s)

/-- ⌈log2 n⌉. -/
def log2Up (n : Nat) : Nat := if n ≤ 1 then 0 else Nat.log2 (n - 1) + 1

/-- R45. -/
def headroomOk (w : List W64) : Bool :=
  let f := tFmt w
  let span := if isScaled f then fmtSpan f + tExt w else tSpan w
  let a := if f = 5 then 24 else if f = 6 then 16 else if tPaired w then 96 else 48
  decide (span + 1 + log2Up (tContributors w) ≤ a)

/-- The scale table of SCALE_MODE = table holds no 0xFF (R38). -/
def scalesOk (w : List W64) (scales : List Byte) : Bool :=
  tMode w != 2 || (padTo (tBlocks w) scales).all fun b => b != 0xFF

/-- Bytes of an element of the fused operand. -/
def fuseSize (w : List W64) : Nat := fmtBits (tFuseFmt w) / 8

/-- Scratchpad bytes that the fused slices of a till take on each logical tile (R84). -/
def fuseUse (s : State) (n : Nat) (w : List W64) : List (Nat × Nat) :=
  if tFused w && !tFuseFab w then
    (List.range (tChunks w)).map fun k =>
      (tileOf s n w k, validFrom w (chunkFirst w k) (chunkLen w k) * fuseSize w)
  else []

/-- Free scratchpad of a tile: not held by slices, running windows or retired lines. -/
def scratchFree (s : State) (tile : Nat) : Nat :=
  Config.scratchBytes - sget 0 s.tiles.scratch tile - 32 * sget 0 s.tiles.retired tile

def scratchTake (s : State) (l : List (Nat × Nat)) : State :=
  { s with tiles := { s.tiles with scratch := l.foldl (fun m e => sput 0 m e.1 (sget 0 m e.1 + e.2)) s.tiles.scratch } }

def scratchGive (s : State) (l : List (Nat × Nat)) : State :=
  { s with tiles := { s.tiles with scratch := l.foldl (fun m e => sdrop m e.1 e.2) s.tiles.scratch } }

/-- Every tile has room for its slices. -/
def scratchOk (s : State) (l : List (Nat × Nat)) : Bool := (tallyBy l).all fun e => decide (e.2 ≤ scratchFree s e.1)

/-- The outcome of the checks before admission: none when the till may be admitted (R64, R84, 12 R338).
The scale-table check of R38 stands before headroom, those of R84 and R338 after it (DESIGN CHOICE, assumption log 54: R64 lists none of
them). -/
def openRefusal (s : State) (o : TillObj) : Option Nat :=
  let w := o.words
  let n := tTill w
  if (tillAt s n).isSome || !tFieldsOk s w || (tVault w && !tVaultOk s w) || !tUnitsOk s w || !shardOk s w o.shard ||
      !frameFit w o.shard || !scalesOk w o.scales then some stRefused
  else if !headroomOk w then some stHeadroom
  else if !scratchOk s (fuseUse s n w) ||
      (List.range (tChunks w)).any (fun k => tileDown s (tileOf s n w k)) then some stRefused
  else none

end Sys2Proof.Machine
end

