-- ==== Sys2Proof/Machine/Tills.lean ====
section
/-! DEFINITION. Tills: chunks and counts, frames a till sends (03 Table 3.3, R71, R78, R99), resets (R96, R97, R100), admission
(R87, R88), epoch completion and ending (R76, R77, R89, R102), and freeing. -/

namespace Sys2Proof.Machine

/-! ### Chunks and counts -/

def modTill (s : State) (n : Nat) (f : Till → Till) : State :=
  match tillAt s n with
  | none => s
  | some t => setTill s n (f t)

def blankChunk (e : W16) : Chunk := { epoch := e, st := .idle }
def chunkOf (t : Till) (k : Nat) : Chunk := t.chunks.getD k (blankChunk t.epoch)
def putChunk (t : Till) (k : Nat) (c : Chunk) : Till := { t with chunks := t.chunks.set k c }
def modChunk (s : State) (n k : Nat) (f : Chunk → Chunk) : State := modTill s n fun t => putChunk t k (f (chunkOf t k))

/-- How many epochs e lies ahead of the one whose completion is not posted. -/
def epochsAhead (t : Till) (e : W16) : Nat := (e - t.epoch).toNat

/-- The counts of an epoch not yet posted. -/
def countsAt (t : Till) (e : W16) : Counts :=
  if e = t.epoch then t.cnt else t.ahead.getD (epochsAhead t e - 1) {}

/-- The counts of an epoch changed; an epoch already posted counts no more. -/
def modCounts (t : Till) (e : W16) (f : Counts → Counts) : Till :=
  let d := epochsAhead t e
  if d = 0 then { t with cnt := f t.cnt }
  else if d ≥ 32768 then t
  else
    let l := t.ahead ++ List.replicate (d - t.ahead.length) ({} : Counts)
    { t with ahead := l.set (d - 1) (f (l.getD (d - 1) {})) }

def addOpt (a b : Option Nat) (f : Nat → Nat → Nat) : Option Nat :=
  match a, b with
  | none, b => b
  | a, none => a
  | some x, some y => some (f x y)

/-- The program of a till's update passes. -/
def tillImage (s : State) (w : List W64) : List Byte := ((progAt s (tProg w)).map (·.image)).getD []

/-- Counts of two parts of an epoch joined (R78; 02 R50, R55; 04 R123). -/
def joinPart (im : List Byte) (a b : Part) : Part :=
  { trunc := satAdd Config.sat32 a.trunc b.trunc, sat := satAdd Config.sat32 a.sat b.sat,
    nan := satAdd Config.sat32 a.nan b.nan, exc := excLower a.exc b.exc,
    engInvalid := satAdd Config.sat32 a.engInvalid b.engInvalid, engIndex := addOpt a.engIndex b.engIndex min,
    latch := match a.latch, b.latch with
      | none, l => l
      | l, none => l
      | some x, some y => some (latchJoin im x y),
    caughtUp := a.caughtUp + b.caughtUp }

/-- A chunk's counts and receipt term enter the counts of its epoch. -/
def spill (im : List Byte) (k : Nat) (c : Chunk) (n : Counts) : Counts :=
  let n := { n with part := joinPart im n.part c.part }
  if c.st = .done then
    { n with recLo := (n.recLo + receiptTerm recLo k c.receipt) % recP,
             recHi := (n.recHi + receiptTerm recHi k c.receipt) % recP }
  else n

/-- The counts of an epoch with those still kept in its chunks. -/
def epochTotals (s : State) (t : Till) (e : W16) : Counts :=
  let im := tillImage s t.words
  ((List.range t.chunks.length).zip t.chunks).foldl (fun n k =>
    if k.2.epoch = e then spill im k.1 k.2 n else n) (countsAt t e)

/-- Bit A or B of a slot. -/
def hasA (c : Chunk) (i : Nat) : Bool := c.bitA.contains i
def hasB (c : Chunk) (i : Nat) : Bool := c.bitB.contains i

/-- Inputs required for chunk k: those that deliver something, excised members apart (R68, R96). -/
def requiredOf (t : Till) (k : Nat) : List Nat :=
  (inputsOf t.words t.shard).filter fun i =>
    (delivery t.words t.shard i k).2 != 0 && !(shKind t.shard i == 0 && t.excised.contains i)

/-- Generation held for a child slot. -/
def genOf (t : Till) (i : Nat) : Nat := sget 0 t.gens i

/-- The till is OPEN and takes part in reductions; one that an image is being loaded into does not (R95). -/
def isOpenTill (t : Till) : Bool := t.st == .open && !t.ended && t.loading.isNone

/-- An ending, abort or close is under way. -/
def isEnding (t : Till) : Bool := t.drains.any fun d => match d.kind with
  | .ending _ _ => true
  | .abort => true
  | .close => true
  | _ => false

/-- A status ends the epoch not posted yet (R102). -/
def endsNow (t : Till) : Bool := t.drains.any fun d => match d.kind with
  | .ending _ e => e == t.epoch
  | _ => false

/-- A drain that saves or restores the till is under way. -/
def isSaving (t : Till) : Bool := t.loading.isSome || t.drains.any fun d => match d.kind with
  | .save => true
  | .preempt => true
  | .restore _ _ => true
  | _ => false

/-- A drain of the whole till has reached its drain cycle. -/
def drainedTill (s : State) (t : Till) : Bool :=
  t.drains.any fun d => d.kind != .halt && decide (s.now ≥ drainAt d.c)

/-- A logical tile stands halted or draining for a debug halt (14 R405), or with every tile after a thermal trip (16 R451). -/
def haltedTile (s : State) (tile : Nat) : Bool :=
  s.boot.thermtrip || s.tiles.haltState != 0 && s.tiles.haltTile.toNat == tile && decide (s.now ≥ drainAt s.tiles.haltAt)

/-! ### Passes of chunks (04 R126, R127) -/

/-- Key of the context that runs the passes of a till on a tile. -/
def ctxKey (tile : Nat) (tick : Bool) : Nat := tile * 2 + b2n tick

def isPassOf (n k : Nat) (p : Pass) : Bool := p.run.isNone && p.till == n && p.chunk == k

/-- Bulk issue slots up to ACLK cycle x when the first f of each 16 are withheld (16 R450). -/
def bulkSlots (f x : Nat) : Nat := x / 16 * (16 - f) + (x % 16 - f)

/-- ACLK cycle after the one in which c slots from cycle a on have issued. -/
def bulkEnd (f a c : Nat) : Nat :=
  let n := bulkSlots f a + c
  if n = 0 then a else (n - 1) / (16 - f) * 16 + f + (n - 1) % (16 - f) + 1

/-- Where work that ends at FCLK cycle e ends when the slots it takes from cycle a on are taken from cycle b on, under a throttle of f'
in place of f (01 R18, 16 R450). -/
def stretch (f f' e a b : Nat) : Nat :=
  if f = 0 ∧ f' = 0 then e + b - a
  else 2 * bulkEnd f' (b / 2) (bulkSlots f ((e + 1) / 2) - bulkSlots f (a / 2))

/-- The slots that a tick-class pass on a tile would still have taken from the bulk context go back to it (04 R126, R127). -/
def returnSlots (s : State) (key : Nat) (r : Running) : State :=
  let bulk := ctxAt s (key - 1)
  let f := throttleOf s (key / 2)
  match bulk.running with
  | some b =>
    if key % 2 = 1 ∧ s.now < r.endsAt ∧ r.endsAt ≤ b.endsAt then
      setCtx s (key - 1) { bulk with running := some { b with endsAt := stretch f f b.endsAt r.endsAt (aclkAt s.now) } }
    else s
  | none => s

/-- A context's running pass is abandoned: its latch, registers and publish output are discarded (04 R127). -/
def stopRun (s : State) (key : Nat) : State :=
  let c := ctxAt s key
  match c.running with
  | some r => returnSlots (setCtx s key { c with running := none }) key r
  | none => s

/-- A running pass of the chunk is abandoned. -/
def stopRunning (s : State) (n : Nat) (t : Till) (k : Nat) : State :=
  let key := ctxKey (tileOf s n t.words k) (tTick t.words)
  match (ctxAt s key).running with
  | some r => if isPassOf n k r.pass then stopRun s key else s
  | none => s

/-- Time for which a pass has been passed over enters VERSION_WAIT of its job (06 R189). -/
def passWaited (s : State) (job : Nat) (p : Pass) : State := match p.passedAt with
  | some a => jobWait s job 3 (s.now - a)
  | none => s

/-- A chunk's pass is abandoned, whether it runs or is ready. -/
def abandonPass (s : State) (n : Nat) (t : Till) (k : Nat) : State :=
  let s := stopRunning s n t k
  let key := ctxKey (tileOf s n t.words k) (tTick t.words)
  let c := ctxAt s key
  let s := (c.ready.filter (isPassOf n k)).foldl (fun s p => passWaited s (tJob t.words) p) s
  setCtx s key { c with ready := c.ready.filter fun p => !isPassOf n k p }

/-- The chunk's pass becomes ready in the ACLK cycle after it enters MINTING, or later by what throttle held its additions back
(R124, 01 R18). -/
def pushPass (s : State) (n : Nat) (t : Till) (k : Nat) : State :=
  let key := ctxKey (tileOf s n t.words k) (tTick t.words)
  let c := ctxAt s key
  let at_ := aclkAt (s.now + (chunkOf t k).idle) + 2
  setCtx s key { c with ready := c.ready ++ [{ till := n, chunk := k, readyAt := at_ }] }

/-! ### Frames of a till -/

/-- A header names a RESULT or PARTIAL of chunk k of this till's epoch e, SUMMARY frames apart. -/
def isChunkFrame (n : Nat) (t : Till) (k : Nat) (e : W16) (h : Header) : Bool :=
  let a := chunkFirst t.words k
  let inRange := decide (a ≤ h.offset.toNat) && decide (h.offset.toNat < a + chunkLen t.words k)
  h.job.toNat == tJob t.words && h.epoch == e && inRange &&
    if tInner t.words then h.type == 3 && !bit h.aux.toNat 31 && h.till.toNat == tParentTill t.words &&
      h.dest.toNat == tParent t.words
    else h.type == 2 && h.till.toNat == n

/-- Cycle in which a reduction's output may leave port p (R75, 07 Table 7.6). -/
def turnaround (s : State) (from_ extra bytes : Nat) (p : Nat) : Nat := from_ + 128 + extra + ceilDiv bytes (32 * widthOf s p)

/-- Groups of blocks that fit in a RESULT frame: the most blocks a frame holds (R71). -/
def frameBlocks (f : Nat) (blk ranks : Bool) : Nat :=
  let e := blockElems blk
  let fits (n : Nat) : Bool := decide (payloadSize f blk n + (if ranks then round32 (2 * n * e) else 0) ≤ 8192)
  let step := if isScaled f then 32 else 1
  (((List.range 257).map fun i => i * step).filter fits).foldl max step

/-- One RESULT frame per frame-full of blocks from block b: block, rank section elements of each block. -/
def resultFrames (f : Nat) (blk ranks : Bool) (b : Nat) : Nat → List (Blk × List Nat) → List (Nat × Nat × List Byte)
  | 0, _ => []
  | k + 1, l =>
    if l.isEmpty then []
    else
      let m := frameBlocks f blk ranks
      let a := l.take m
      let body := packBlocks f (a.map (·.1)) ++ (if ranks then rankBytes ((a.map (·.2)).flatten) else [])
      (b, a.length, body) :: resultFrames f blk ranks (b + m) k (l.drop m)

/-- Sends a chunk's minted blocks in format f: to RESULT_GROUP `group`, or to each destination of a SCATTER till (R71). -/
def sendResults (s : State) (n : Nat) (t : Till) (k : Nat) (e : W16) (f group : Nat) (ranks scatter : Bool)
    (blocks : List (Blk × List Nat)) (ready : Nat → Nat) : State :=
  let w := t.words
  let first := chunkFirst w k
  let one (s : State) (mc : Bool) (dest : Nat) (fr : Nat × Nat × List Byte) : State :=
    let aux := b2n ranks * 2 ^ 31 + fr.2.1
    let h := { ownFrame s 2 (clsOut w) dest (tJob w) n e fr.1 aux with
      mc := if mc then 1 else 0, fmt := BitVec.ofNat 5 f, blk := if tBlk w then 1 else 0 }
    if mc then sendGroup s h fr.2.2 ready false fun _ => none else sendOwn s h fr.2.2 ready
  if scatter then
    ((List.range (tEntries w)).filter fun i => shDstCount t.shard i != 0).foldl (fun s i =>
      let (a, m) := overlap w (shDstFirst t.shard i) (shDstCount t.shard i) k
      (resultFrames f (tBlk w) ranks a blocks.length ((blocks.drop (a - first)).take m)).foldl
        (fun s fr => one s false (shEndpoint t.shard i) fr) s) s
  else (resultFrames f (tBlk w) ranks first blocks.length blocks).foldl (fun s fr => one s true group fr) s

/-- Header of a PARTIAL frame to the parent (Table 3.3). -/
def partialHeader (s : State) (t : Till) (e : W16) (offset nblk : Nat) (summary more split : Bool) : Header :=
  let w := t.words
  let aux := b2n summary * 2 ^ 31 + b2n more * 2 ^ 30 + t.gen % 16 * 2 ^ 26 + b2n split * 2 ^ 25 + nblk
  { ownFrame s 3 (clsIn w) (tParent w) (tJob w) (tParentTill w) e offset aux with
    fmt := BitVec.ofNat 5 (tPart w), blk := if tBlk w then 1 else 0 }

/-- A PARTIAL sent again: its header as it was, with the till's current generation (R81, R98, R99). -/
def againHeader (t : Till) (b : HdrBits) : Header :=
  let h := headerOf b
  { h with aux := (h.aux &&& ~~~0x3C000000) ||| BitVec.ofNat 32 (t.gen % 16 * 2 ^ 26) }

/-- A RESEND_REQ to an input: for blocks, for its SUMMARY, or a generation notice (R97, R79, R99). -/
def sendResend (s : State) (n : Nat) (t : Till) (i : Nat) (e : W16) (offset nblk : Nat) (summary : Bool) : State :=
  let w := t.words
  let child := shKind t.shard i == 1
  let aux := b2n summary * 2 ^ 31 + (if child then genOf t i * 2 ^ 26 else 0) + nblk
  let h := ownFrame s 9 (clsResend w) (shEndpoint t.shard i) (tJob w) (if child then shChildTill t.shard i else n) e offset aux
  sendOwn s h [] fun _ => freeDelay s

/-- RESEND_REQs for chunk k to some of its inputs, counted in RESEND_COUNT of the chunk's epoch. -/
def askResend (s : State) (n k : Nat) (slots : List Nat) : State :=
  match tillAt s n with
  | none => s
  | some t =>
    let e := (chunkOf t k).epoch
    let s := slots.foldl (fun s i =>
      let d := delivery t.words t.shard i k
      sendResend s n t i e d.1 d.2 false) s
    modTill s n fun t =>
      let c := chunkOf t k
      let t := putChunk t k { c with resendAt := c.resendAt ++ slots.map fun i => (i, s.now) }
      modCounts t e fun c => { c with resend := satAdd Config.sat32 c.resend slots.length }

/-! ### Resets (R96, R100) -/

/-- Reads of a fused operand that are still awaited for chunk k are forgotten. -/
def dropReads (s : State) (n k : Nat) : State :=
  { s with hbm := { s.hbm with reqs := s.hbm.reqs.filter fun q => q.2.for_ != .fuse n k } }

/-- A chunk is reset: its queued frames are taken back, its pass is abandoned, and its accumulators, bitmap, early-part words and
timers are cleared. -/
def resetChunk (s : State) (n k : Nat) : State :=
  match tillAt s n with
  | none => s
  | some t =>
    let c := chunkOf t k
    let s := dropReads (recallFrames s (isChunkFrame n t k c.epoch)) n k
    let s := abandonPass s n t k
    setTill s n (putChunk t k { blankChunk c.epoch with st := .filling, mismatch := c.mismatch, completeAt := s.now,
                                                        earlyOnce := c.earlyOnce, resendAt := c.resendAt })

/-! ### Freeing -/

/-- Status of a command that still waits on a till as it becomes FREE: a close or an abort has what it asked for. -/
def leftStatus (k : DrainKind) : Nat := match k with
  | .close => stOk
  | .abort => stOk
  | _ => stAborted

/-- Any command still waiting on the till completes: ABORTED, but for a close or an abort. -/
def dropCommands (s : State) (t : Till) : State :=
  let left : List (Accept × Nat) := (t.excisions.map fun x => (x.2.2.2, stAborted)) ++
    t.drains.filterMap (fun d => d.by_.map fun a => (a, leftStatus d.kind)) ++
    (match t.loading with
      | some (_, some a) => [(a, stAborted)]
      | _ => []) ++
    (match t.by_ with
      | some a => if t.st = .draining then [(a, stAborted)] else []
      | none => []) ++
    (t.resuming.map fun a => (a, stAborted)).toList
  left.foldl (fun s a => complete s a.1 a.2) s

/-- Slabs that return to the pool in a cycle (Table 3.9); none of them is granted again in it (10 R314). -/
def returnSlabs (s : State) (due q : Nat) (l : List (Nat × Block)) : State :=
  if l.isEmpty then s else { s with pools := { s.pools with returning := s.pools.returning ++ [(due, q, l)] } }

/-- The end of that cycle. -/
def settleSlabs (s : State) : State :=
  let due (e : Nat × Nat × List (Nat × Block)) : Bool := decide (e.1 ≤ s.now)
  (s.pools.returning.filter due).foldl (fun s e => freeSlabs s e.2.1 e.2.2)
    { s with pools := { s.pools with returning := s.pools.returning.filter fun e => !due e } }

/-- The build slots that a till's chunks still have become spare (05 R151). -/
def dropBuilds (s : State) (w : List W64) : State :=
  match regionAt s (tRegion w) with
  | none => s
  | some r => if tVault w then setRegion s (tRegion w) { r with chunks := r.chunks.map fun c => { c with build := [] } } else s

/-- A till becomes FREE: its slabs (in the next cycle where `wait` says), staging buffers, scratchpad slices and build slots return, its
passes go, and reads parked for the version it was building are answered (R89, R127; 05 R151, R156). -/
def freeTill (s : State) (n : Nat) (wait : Bool) : State :=
  match tillAt s n with
  | none => s
  | some t =>
    let s := (List.range t.chunks.length).foldl (fun s k => dropReads (abandonPass s n t k) n k) s
    let s := returnSlabs s (s.now + b2n wait) (tillQuota 1 t.words) t.slabs
    let s := if t.staging = 0 then s else giveStaging s (tillQuota 2 t.words) t.staging
    let s := dropBuilds (scratchGive s (fuseUse s n t.words)) t.words
    let s := { s with host := { s.host with writes := s.host.writes.filter fun w => w.2.kind != .save n } }
    let s := dropCommands s t
    unbind { s with tills := odel s.tills n } t.words

/-! ### Epoch records and completions (05 R154, 13 Table 13.13) -/

/-- The version that epoch e of a till builds (05 R148). -/
def versionOf (t : Till) (e : W16) : W16 := e + t.delta

/-- Bytes of an epoch record (05 Table 5.7). -/
def epochRecord (v e : W16) (status flags : Nat) (p : Part) : List Byte :=
  leBytes 2 v.toNat ++ leBytes 2 e.toNat ++ [BitVec.ofNat 8 status, BitVec.ofNat 8 flags, 0, 0] ++ leBytes 4 p.caughtUp ++
    leBytes 4 p.engInvalid ++ leBytes 4 (p.engIndex.getD 0) ++
    ((p.latch.getD (List.replicate 8 0)).map fun l => leBytes 4 l.toNat).flatten ++ List.replicate 12 0

/-- The record joins the region's ring of the last 16; an epoch that ends short leaves the region SPLIT when a chunk has gone on
(R152, R154). -/
def recordEpoch (s : State) (t : Till) (status : Nat) (whole : Bool) (p : Part) : State :=
  if !tVault t.words then s
  else match regionAt s (tRegion t.words) with
    | none => s
    | some r =>
      let v := versionOf t t.epoch
      let split := if whole then false else r.split || r.chunks.any fun c => c.stored == v
      let rec_ := epochRecord v t.epoch status (b2n whole + 2 * b2n split) p
      let l := r.records ++ [rec_]
      setRegion s (tRegion t.words) { r with split := if whole then r.split else split, records := l.drop (l.length - 16) }

/-- The exception record of an epoch is valid: at a ROOT not with NAN_COUNT 0 (02 R50). A compact INNER till has one with NAN_COUNT 0, which
R50 and R58 read together do not settle (DESIGN CHOICE, assumption log 54). -/
def excValid (t : Till) (p : Part) : Bool := p.exc.isSome && (tInner t.words || p.nan != 0)

/-- The two entries of a till completion. -/
def tillEntries (n : Nat) (t : Till) (status : Nat) (seen : W16) (c : Counts) : List (List W64) :=
  let p := c.part
  let vault := tVault t.words
  let x := (if excValid t p then p.exc else none).getD { origin := 0, rank := 0, index := 0 }
  let e0 : List W64 :=
    [BitVec.ofNat 64 (0x02 * 2 ^ 56 + status * 2 ^ 48 + 2 ^ 46 + n * 2 ^ 34 + tJob t.words * 2 ^ 26 + min c.excised 0x3FF * 2 ^ 16 +
      tBucket t.words),
     BitVec.ofNat 64 (t.epoch.toNat * 2 ^ 48 + seen.toNat * 2 ^ 32 + p.sat),
     BitVec.ofNat 64 (p.trunc * 2 ^ 32 + p.nan),
     BitVec.ofNat 64 (x.index % 2 ^ 32 * 2 ^ 32 + (if vault then p.engInvalid else 0))]
  let e1 : List W64 :=
    [BitVec.ofNat 64 (0x03 * 2 ^ 56 + b2n (excValid t p) * 2 ^ 55 + x.origin % 2 * 2 ^ 54 + x.rank % 2 ^ 14 * 2 ^ 32 +
      (if vault then p.engIndex.getD 0 else 0)),
     BitVec.ofNat 64 (c.discard * 2 ^ 32 + c.resend), BitVec.ofNat 64 c.recLo, BitVec.ofNat 64 c.recHi]
  [e0, e1]

/-- STATUS_SEEN of an epoch (R102): what arose, with the statuses its counts give; OK alone when nothing did. -/
def seenOf (c : Counts) : W16 :=
  let s := c.seen
  let s := if c.part.nan > 0 ∨ c.part.engInvalid > 0 then addSeen s stInvalid else s
  let s := if c.part.sat > 0 then addSeen s stSaturated else s
  if s = 0 then 1 else s

/-- Posts the till completion of the epoch not yet posted: `whole` when it completed. The till goes on to the next epoch, and its
SUMMARY bits are cleared (R77, R79, R154). -/
def postEpoch (s : State) (n : Nat) (whole : Bool) (after : List After) : State :=
  match tillAt s n with
  | none => s
  | some t =>
    let c := epochTotals s t t.epoch
    let seen := seenOf c
    let st := topStatus seen
    let s := recordEpoch s t st whole c.part
    let cur := if whole && tVault t.words then [After.current (tRegion t.words) (versionOf t t.epoch)] else []
    let cring := tCring t.words
    let es := tillEntries n t st seen c
    let s := ready s { cring := cring, entries := es, after := cur ++ after }
    setTill s n { t with epoch := t.epoch + 1, cnt := t.ahead.headD {}, ahead := t.ahead.drop 1, sums := [], sumTimers := [],
                         sumAsked := [] }

/-! ### Completing an epoch (R76, R79, R89) -/

/-- Chunk k is finished for the epoch not yet posted. -/
def chunkFinished (t : Till) (k : Nat) : Bool :=
  let c := chunkOf t k
  !chunkActive t.words t.shard k || (c.epoch == t.epoch && c.st == .done) ||
    (c.epoch != t.epoch && decide (epochsAhead t c.epoch < 32768))

/-- Every chunk is DONE for that epoch; an epoch with no chunk never begins. -/
def allDone (t : Till) : Bool :=
  (List.range t.chunks.length).all (chunkFinished t) && (List.range t.chunks.length).any fun k => chunkActive t.words t.shard k

/-- Every child's SUMMARY has come. -/
def allSums (t : Till) : Bool := (childrenOf t.words t.shard).all fun i => sget 0 t.sums i != 0

/-- The SUMMARY payload (Table 3.4). -/
def summaryBytes (t : Till) (c : Counts) : List Byte :=
  let p := c.part
  let x := p.exc.getD { origin := 0, rank := 0, index := 0 }
  let sat := if isWide (tPart t.words) then 0 else p.sat
  padTo 32 (leBytes 4 p.trunc ++ leBytes 4 sat ++ leBytes 4 x.index ++
    leBytes 2 (x.rank % 2 ^ 14 + x.origin % 2 * 2 ^ 14 + b2n p.exc.isSome * 2 ^ 15) ++ leBytes 4 c.discard ++ leBytes 4 c.resend)

/-- The epoch's completion is posted when it is complete; an INNER till sends its SUMMARY first, which counts as sent when it is queued
(DESIGN CHOICE, assumption log 54). A till that is not standing is freed once the completion is written. -/
def settleEpoch : Nat → State → Nat → State
  | 0, s, _ => s
  | fuel + 1, s, n =>
    match tillAt s n with
    | none => s
    | some t =>
      if !isOpenTill t || endsNow t || !allDone t || !allSums t then s
      else
        let s :=
          if tInner t.words then
            let body := summaryBytes t (epochTotals s t t.epoch)
            let h := partialHeader s t t.epoch 0 0 true false false
            let s := modTill s n fun t => { t with sumSent := (t.epoch, headerBits h, body) :: t.sumSent.filter fun x => x.1 != t.epoch }
            sendOwn s h body fun _ => freeDelay s
          else s
        if tStanding t.words then settleEpoch fuel (postEpoch s n true []) n
        else modTill (postEpoch s n true [.freeSlabs n]) n fun t => { t with ended := true }

/-- The summary timer of each child that R79 gives one is started, and stopped where its reason is gone. -/
def sumTimer (s : State) (n : Nat) : State :=
  modTill s n fun t =>
    let wait (i : Nat) : Bool := t.chunks.any fun c => c.epoch == t.epoch && c.waitSum.any fun x => x / 65536 == i
    let want := (childrenOf t.words t.shard).filter fun i => sget 0 t.sums i == 0 && (allDone t || wait i)
    if tTimeout t.words = 0 then t
    else
      let keep := t.sumTimers.filter fun x => want.contains x.1
      let new := (want.filter fun i => !(keep.any fun x => x.1 == i)).map fun i => (i, s.now + tTimeout t.words, 0)
      { t with sumTimers := keep ++ new }

/-- After a chunk or SUMMARY has come to an end: the epoch, then the summary timers. -/
def settleTill (s : State) (n : Nat) : State := sumTimer (settleEpoch 4 s n) n

/-! ### Ending an epoch (R102, Table 3.9) -/

/-- A drain that ends an epoch before e ends epoch e as well. -/
def endsWith (t : Till) (e : W16) (d : Drain) : Drain := match d.kind with
  | .ending st f => if epochsAhead t f < epochsAhead t e then { d with kind := .ending st e } else d
  | _ => d

/-- A status ends epoch e, in which it arose: it is seen there, and the drain begins in the detecting cycle; one under way ends both. -/
def endTill (s : State) (n status : Nat) (e : W16) : State :=
  modTill s n fun t =>
    let t := modCounts t e fun c => { c with seen := addSeen c.seen status }
    if isEnding t then { t with drains := t.drains.map (endsWith t e) }
    else if t.st != .open then t
    else { t with drains := t.drains ++ [{ c := s.now, kind := .ending status e, by_ := none }] }

/-! ### Admission (R87, R88, R22) -/

/-- HBM that the till needs is not ready: a stack of its vault, or of its fused operand on this X7 (R22). -/
def awaitsHbm (s : State) (w : List W64) : Bool :=
  let of_ (n : Nat) : Bool := match regionAt s n with
    | some r => r.waiting.isSome || awaitsStack s r.words
    | none => (List.range 4).any (stackTrains s)
  let a := (w.getD 8 0).toNat
  (tVault w && of_ (tRegion w)) || (tFused w && tFuseFab w && baPos a == ownPos s && of_ (baRegion a))

/-- The functions the till needs are not ready yet: tiles, HBM, and for a tick-class till an aligned tick (R22, 07 R200). -/
def notReadyFor (s : State) (w : List W64) : Bool :=
  !s.tiles.ready || awaitsHbm s w || (tTick w && s.tick.state == 0)

/-- A till of this job and class waits, with an order below `order`. -/
def waiterBefore (s : State) (w : List W64) (order : Nat) : Bool :=
  s.tills.any fun e => e.2.st == .waitAdmit && e.2.by_.isSome && tillQuota 1 e.2.words == tillQuota 1 w &&
    decide (e.2.order < order)

/-- The slabs a till needs, granted all or none (R87). -/
def grantTill (s : State) (n : Nat) (w sh : List W64) : Option (State × List (Nat × Block)) :=
  if notReadyFor s w then none else grantSlabs s (tillQuota 1 w) (slabNeed s n w sh)

/-- Time in WAIT_ADMIT enters ADMIT_WAIT of the job (06 R189). -/
def admitWaited (s : State) (t : Till) : State := match t.waitAt with
  | some c => jobWait s (tJob t.words) 2 (s.now - c)
  | none => s

/-- An admitted till: it opens in the next cycle, or, tick-class, with the next tick (Table 3.9). One that has waited is in WAIT_ADMIT until
then. -/
def openTill (s : State) (n : Nat) (t : Till) (slabs : List (Nat × Block)) : State :=
  setTill s n { t with st := .opening, slabs := slabs, preempts := false }

/-- Admitted tills of a class open (Table 3.9). -/
def openTills (s : State) (tick : Bool) : State :=
  (s.tills.filter fun e => e.2.st == .opening && tTick e.2.words == tick).foldl (fun s e =>
    let s := setTill (admitWaited s e.2) e.1 { e.2 with st := .open, by_ := none, waitAt := none }
    match e.2.by_ with
    | some a => completeTo s (tCring e.2.words) a stOk
    | none => s) s

/-- DELTA for the epoch that comes first, from the region's current version (05 R148). -/
def deltaFor (s : State) (w : List W64) (e : W16) : W16 :=
  match regionAt s (tRegion w) with
  | some r => if tVault w then r.current + 1 - e else 0
  | none => 0

/-- A new till as its descriptor gives it, not admitted yet. -/
def newTill (s : State) (o : TillObj) (a : Accept) : Till :=
  let w := o.words.take 16
  let e := tEpoch0 w
  { st := .waitAdmit, words := w, shard := o.shard.take (4 * tEntries w), scales := padTo (if tMode w = 2 then tBlocks w else 0) o.scales,
    fuse := padTo (if tFused w && !tFuseFab w then tElements w * fuseSize w else 0) o.fuse,
    chunks := List.replicate (tChunks w) (blankChunk e), epoch := e, order := s.fresh, waitAt := some s.now, by_ := some a,
    delta := deltaFor s w e }

/-- Words of a saved image, and its bytes (R94). -/
def imageBytes (t : Till) : Nat := 64 + 8 * t.chunks.length * chunkWords t.words t.shard
/-- Staging buffers of 2 MiB that an image takes. -/
def imageBuffers (t : Till) : Nat := ceilDiv (imageBytes t) 2097152

/-- A save begins if its target is available: the state with the staging taken and the drain under way. -/
def beginSave (s : State) (n : Nat) (t : Till) (kind : DrainKind) (by_ : Option Accept) : Option State :=
  let d : Drain := { c := s.now, kind := kind, by_ := by_ }
  if tSaveHost t.words then
    some (setTill s n { t with drains := t.drains ++ [d] })
  else if isN s then none
  else (takeStaging s (tillQuota 2 t.words) (imageBuffers t)).map fun s =>
    setTill s n { t with drains := t.drains ++ [d], staging := imageBuffers t }

/-- The bulk tills that pre-emption may save: OPEN, and host memory within reach where it is the target; highest TILL first. One that a
drain already ends, frees, saves or restores is passed by (DESIGN CHOICE, assumption log 54). -/
def victims (s : State) : List Nat :=
  ((s.tills.filter fun e => isOpenTill e.2 && !tTick e.2.words && !isEnding e.2 && !isSaving e.2 &&
    (!tSaveHost e.2.words || s.host.cxlUp)).map (·.1)).reverse

/-- Pre-emption already saves the till. -/
def isPreempted (t : Till) : Bool :=
  (t.st == .draining && t.preempted) || t.drains.any fun d => d.kind == .preempt

/-- The state with the slabs of the tills that pre-emption already saves given back. -/
def afterSaves (s : State) : State :=
  (s.tills.filter fun e => isPreempted e.2).foldl (fun s e => freeSlabs s (tillQuota 1 e.2.words) e.2.slabs) s

/-- Victims saved one after another until the free pool would cover the till: the state with their saves begun, each in the ledger (R88,
15 Table 15.11); none when all of them would not free enough. `after` is the state with their slabs given back. -/
def saveVictims (n : Nat) (w sh : List W64) : List Nat → State → State → Option State
  | [], _, _ => none
  | v :: r, s, after =>
    match tillAt s v with
    | none => saveVictims n w sh r s after
    | some t =>
      match beginSave s v t .preempt none with
      | none => saveVictims n w sh r s after
      | some s =>
        let s := recordRaw s oDevice srcPool 0x19 v 0 t.epoch.toNat
        let after := freeSlabs after (tillQuota 1 t.words) t.slabs
        if (grantTill after n w sh).isSome then some s else saveVictims n w sh r s after

/-- Pre-emption for a tick-class till that the free pool does not cover: none when it cannot help. -/
def preemptFor (s : State) (n : Nat) (w sh : List W64) : Option State :=
  let after := afterSaves s
  if !tTick w || notReadyFor s w then none
  else if (grantTill after n w sh).isSome then some s
  else saveVictims n w sh (victims s) s after

/-- A tile that hosts a chunk is unavailable (12 R338). -/
def tilesMissing (s : State) (n : Nat) (t : Till) : Bool :=
  (List.range t.chunks.length).any fun k => tileDown s (tileOf s n t.words k)

/-- Waiters by the order in which their TILL_OPEN commands were accepted. -/
def insertWaiter (e : Nat × Till) : List (Nat × Till) → List (Nat × Till)
  | [] => [e]
  | x :: r => if e.2.order < x.2.order then e :: x :: r else x :: insertWaiter e r

/-- A till that waits in WAIT_ADMIT since before `order`. -/
def isBefore (order : Nat) (t : Till) : Bool := t.st == .waitAdmit && t.by_.isSome && decide (t.order < order)

/-- A waiter is granted its slabs if nothing of its job and class waits before it and they are to be had. -/
def grantWaiter (order : Nat) (s : State) (n : Nat) : State :=
  match tillAt s n with
  | none => s
  | some t =>
    if !isBefore order t || waiterBefore s t.words t.order || tilesMissing s n t || (tVault t.words && (regionAt s (tRegion t.words)).isNone) then s
    else match grantTill s n t.words t.shard with
      | some (s, slabs) => openTill s n t slabs
      | none => s

/-- Tills that wait since before `order` are granted first, in the order accepted (R87, 10 R314). -/
def grantEarlier (s : State) (order : Nat) : State :=
  ((s.tills.filter fun e => isBefore order e.2).foldl (fun l e => insertWaiter e l) []).foldl (fun s e => grantWaiter order s e.1) s

/-- Admission of a new till (R87, R88), whose fused slices its tiles hold from now on (R84). -/
def admitTill (s : State) (n : Nat) (t : Till) : State :=
  let w := t.words
  let s := grantEarlier s t.order
  let held := scratchTake s (fuseUse s n w)
  let passes := !waiterBefore s w t.order
  match (if passes then grantTill held n w t.shard else none) with
  | some (s, slabs) => openTill s n { t with waitAt := none } slabs
  | none =>
    if tTick w && s.tick.state == 0 then setTill held n t
    else match (if passes then preemptFor held n w t.shard else none) with
      | some s => setTill s n { t with preempts := true }
      | none =>
        if tAdmit w then (match t.by_ with
          | some a => completeTo s (tCring w) a stRefused
          | none => s)
        else setTill held n t

end Sys2Proof.Machine
end

