-- ==== Sys2Proof/Machine/Chunks.lean ====
section
/-! DEFINITION. Chunks: what a complete chunk sends (03 R71, R74, R82-R84), what an input adds (R72, R81, R97), store mismatches and
fences (R100, 12 R338), and LATE epochs (R91). -/

namespace Sys2Proof.Machine

/-! ### What leaves a chunk -/

/-- Accumulands of chunk k, block by block. -/
def chunkAccs (w : List W64) (k : Nat) (l : List Acc) : List Acc :=
  if l.isEmpty then List.replicate (chunkLen w k * tElems w) Acc.zero else l

/-- A chunk on its way out: blocks with their winner ranks, what it counts, and its receipt symbols. -/
structure OutChunk where
  blocks : List (Blk × List Nat)
  part : Part
  syms : List Nat
  deriving DecidableEq, Repr

/-- The exception record and NaN count of blocks that start at element `base`. -/
def nanPart (base : Nat) (nans : List (Nat × Nat × Nat)) : Option ExcRec :=
  nans.foldl (fun e x => excLower e (some { origin := x.1, rank := x.2.1, index := base + x.2.2 })) none

/-- Winner ranks of the valid elements of a block, 0 for its tail (R82). -/
def winners (w : List W64) (as : List Acc) : List Nat := as.map (fun a => a.win) ++ List.replicate (tElems w - as.length) 0

/-- Symbols of one block: its scale byte where it has one, then each valid element (11 Table 11.3). -/
def blockSyms (f valid : Nat) (b : Blk) : List Nat := (if isScaled f then [b.scale] else []) ++ b.encs.take valid

/-- Joins a block to a chunk. -/
def addBlock (c : OutChunk) (b : Blk) (ranks : List Nat) (p : Part) (syms : List Nat) : OutChunk :=
  { blocks := c.blocks ++ [(b, ranks)], part := joinPart [] c.part p, syms := c.syms ++ syms }

/-- Receipt symbols of the winner ranks, after the values of the whole chunk or frame. -/
def rankSyms (w : List W64) (l : List (List Acc)) : List Nat := if tOp w = 0 then [] else (l.map fun as => as.map (fun a => a.win)).flatten

/-- The valid accumulands of n blocks from block b, block by block. -/
def validBlocks (w : List W64) (b n : Nat) (accs : List Acc) : List (Nat × List Acc) :=
  (List.range n).map fun j => (b + j, ((accs.drop (j * tElems w)).take (validFrom w (b + j) 1)))

/-- The mint of chunk k at a ROOT till; `fuse` holds the chunk's slice of the fused operand. -/
def mintRoot (w : List W64) (scales fuse : List Byte) (k : Nat) (accs : List Acc) : OutChunk :=
  let bs := validBlocks w (chunkFirst w k) (chunkLen w k) accs
  let sz := fuseSize w
  let out := bs.foldl (fun c b =>
    let at_ := (b.1 - chunkFirst w k) * tElems w
    let fz := if tFused w then some ((List.range b.2.length).map fun i => leAt fuse ((at_ + i) * sz) sz) else none
    let (o, lost) := mintBlock w (agreedAt w scales b.1) fz b.2
    let p : Part := { trunc := lost, sat := o.sat, nan := o.nans.length, exc := nanPart (b.1 * tElems w) o.nans }
    addBlock c o.blk (winners w b.2) p (blockSyms (tOut w) b.2.length o.blk)) { blocks := [], part := {}, syms := [] }
  { out with syms := out.syms ++ rankSyms w (bs.map (·.2)) }

/-- The blocks of a PARTIAL: n blocks from block b (R56, R58, R82). -/
def partialOut (w : List W64) (scales : List Byte) (b n : Nat) (accs : List Acc) : OutChunk :=
  let bs := validBlocks w b n accs
  let f := tPart w
  let out := bs.foldl (fun c x =>
    if isWide f then
      let es := x.2.map (accSlot f)
      let blk : Blk := { scale := 0, encs := es ++ List.replicate (tElems w - es.length) 0 }
      let syms := if f = 16 then es else (es.map fun e => [e % 2 ^ 64, e / 2 ^ 64]).flatten
      addBlock c blk (winners w x.2) {} syms
    else
      let o := compactBlock w (agreedAt w scales x.1) x.2
      let losers := if (infEnc f).isSome then 0 else (x.2.filter fun a => a.empty && a.cls != .fin).length
      let p : Part := { sat := o.sat - losers, exc := nanPart (x.1 * tElems w) o.nans }
      addBlock c o.blk (winners w x.2) p (blockSyms f x.2.length o.blk)) { blocks := [], part := {}, syms := [] }
  { out with syms := out.syms ++ rankSyms w (bs.map (·.2)) }

/-- Payload of a PARTIAL. -/
def partialBody (w : List W64) (o : OutChunk) : List Byte :=
  packBlocks (tPart w) (o.blocks.map (·.1)) ++ (if tOp w = 0 then [] else rankBytes ((o.blocks.map (·.2)).flatten))

/-- The part of chunk k that an INNER till sends, from accumulands of the whole chunk. -/
def spanAccs (t : Till) (k : Nat) (accs : List Acc) : List Acc :=
  let d := ownDelivery t.words t.shard k
  ((chunkAccs t.words k accs).drop ((d.1 - chunkFirst t.words k) * tElems t.words)).take (d.2 * tElems t.words)

/-- Block b of the till is still to come from some input of chunk k that is required for it. -/
def blockRequired (t : Till) (k b : Nat) : Bool :=
  (requiredOf t k).any fun i => decide (shFirst t.shard i ≤ b) && decide (b < shFirst t.shard i + shCount t.shard i)

/-- What a MAX or MIN element that no input has reached stands for in one of two parts: it loses to every contribution (R49, R82), so
that an early part changes timing only (R81). `empty` keeps it out of SAT_COUNT. -/
def loserAcc (op : Nat) : Acc := { cls := if op = 1 then .ninf else .pinf, val := 0, rank := 0x3FFF, win := 0x3FFF, empty := true }

/-- Accumulands of one of two parts of chunk k: the elements of required blocks that no input of this part has reached lose (DESIGN
CHOICE, assumption log 54). -/
def partAccs (t : Till) (k : Nat) (accs : List Acc) : List Acc :=
  if tOp t.words = 0 then accs
  else ((List.range accs.length).zip accs).map fun p =>
    if p.2.empty && blockRequired t k (chunkFirst t.words k + p.1 / tElems t.words) then loserAcc (tOp t.words) else p.2

/-- A PARTIAL of chunk k from accumulands, the early part (MORE) or the whole or later part: the state, what left, and its
header. -/
def emitPartial (s : State) (t : Till) (k : Nat) (accs : List Acc) (more : Bool) (ready : Nat → Nat → Nat) :
    State × OutChunk × HdrBits :=
  let c := chunkOf t k
  let d := ownDelivery t.words t.shard k
  let o := partialOut t.words t.scales d.1 d.2 (spanAccs t k accs)
  let body := partialBody t.words o
  let h := partialHeader s t c.epoch d.1 d.2 false more (!more && c.earlySent)
  (sendOwn s h body (ready body.length), o, headerBits h)

/-- The chunk's slice of the fused operand. -/
def fuseSlice (t : Till) (k : Nat) : List Byte :=
  let w := t.words
  let at_ := chunkFirst w k * tElems w * fuseSize w
  let n := validFrom w (chunkFirst w k) (chunkLen w k) * fuseSize w
  if tFuseFab w then slice (chunkOf t k).fuseGot (((w.getD 8 0).toNat + at_) % 32) n else slice t.fuse at_ n

/-- Cycles by which idle ACLK cycles of a throttled die delay what a complete bulk chunk sends (01 R18, 16 R450). -/
def idleAdded (s : State) (n k : Nat) (w : List W64) : Nat :=
  let f := throttleOf s (tileOf s n w k)
  if tTick w || f == 0 then 0 else Config.throttleIdle f s.fresh

/-- A complete chunk leaves: minted at a ROOT, handed to its update pass in RESULT_MODE = VAULT, or as a PARTIAL at an INNER
till (R74). It is the work of its tile, which does it when it stands halted no more (14 R405, 16 R451). -/
def finishChunk (s : State) (n k : Nat) : State :=
  match tillAt s n with
  | none => s
  | some t =>
    let w := t.words
    let c := chunkOf t k
    let keep (s : State) (o : OutChunk) : State :=
      setTill s n (putChunk t k { c with st := .minting, toMint := false, part := joinPart [] c.part o.part, receipt := receipt c.receipt o.syms })
    let idle := idleAdded s n k w
    if haltedTile s (tileOf s n w k) then setTill s n (putChunk t k { c with st := .minting, toMint := true })
    else if tInner w then
      let acc := if c.earlySent then partAccs t k (chunkAccs w k c.acc) else c.acc
      let (s, o, h) := emitPartial s t k acc false (turnaround s c.completeAt idle)
      modChunk (keep s o) n k fun c => { c with sentLast := h, acc := acc }
    else if tVault w then
      let t := putChunk t k { c with st := .minting, toMint := false, idle := idle }
      pushPass (setTill s n t) n t k
    else
      let o := mintRoot w t.scales (fuseSlice t k) k (chunkAccs w k c.acc)
      let ranks := tOp w != 0
      let bytes := payloadSize (tOut w) (tBlk w) o.blocks.length + (if ranks then round32 (2 * o.blocks.length * tElems w) else 0)
      let ready := if tFused w && tFuseFab w then fun _ => freeDelay s else turnaround s c.completeAt idle bytes
      sendResults (keep s o) n t k c.epoch (tOut w) (tGroup w) ranks (tResult w == 1) o.blocks ready

/-- The fused operand of a complete chunk is read from fabric memory (R84, 05 R135): here at once, from another X7 by MEM_RD. -/
def fetchFuse (s : State) (n k : Nat) : State :=
  match tillAt s n with
  | none => s
  | some t =>
    let w := t.words
    let a := (w.getD 8 0).toNat + chunkFirst w k * tElems w * fuseSize w
    let len := validFrom w (chunkFirst w k) (chunkLen w k) * fuseSize w
    let lo := a / 32 * 32
    let total := round32 (a % 32 + len)
    if baPos a == ownPos s then
      let acc (p : Nat × Nat) : Access :=
        { region := baRegion a, off := baOff lo + p.1, len := p.2, job := tJob w, write := false, release := false, version := 0 }
      let ps := (pieces total).map acc
      let chk := accessChecks s ps .first
      let die := tileOf s n w k / 2048
      let far := (pieces total).filter fun p => (accessStacks s (acc p)).any fun j => j % 2 != die
      let x : Crossing := { what := .fused n k, die := die, cls := if tTick w then 7 else 4, source := 16, rate := tileRate,
                            left := sumNat (far.map (·.2)), start := s.now }
      let chk := (addCrossing chk.1 x, chk.2)
      if ps.all (fun x => accessStatus s x == msOk) && chk.2.1 then
        let s := chk.1
        let got := (ps.map fun p => accessRead s p).flatten
        finishChunk (modChunk s n k fun c => { c with fuseGot := got, st := .minting }) n k
      else endTill (modChunk chk.1 n k fun c => { c with st := .minting }) n stDetect (chunkOf t k).epoch
    else
      let ps := pieces total
      let s := modChunk s n k fun c =>
        { c with st := .minting, fuseGot := List.replicate total 0, fuseLeft := ps.length }
      ps.foldl (fun s p => sendRequest s (.fuse n k) p.1 (lo + p.1) p.2 (tJob w) (if tTick w then 7 else 3) none false) s

/-- A cause of a cluster raised by a logical tile: its bit, its event and its bit of the tile status word. -/
def tileCause (s : State) (tile b : Nat) : State :=
  let s := setCause s (srcCluster (tile / 64)) b tile
  let t := statAt s (srcCluster (tile / 64))
  setStat s (srcCluster (tile / 64)) { t with tiles := t.tiles ||| BitVec.ofNat 64 (2 ^ (tile % 64)) }

/-- A scratchpad line of a tile passes its re-read (12 Tables 12.2, 12.5, 12.6). -/
def rereadLine (s : State) (tile : Nat) : State := countBlock (tileCause s tile 4) (srcCluster (tile / 64)) 2

/-- A scratchpad line of a tile fails both reads: it is retired (12 R334, Table 12.2). -/
def retireLine (s : State) (tile : Nat) : State :=
  let line := (Config.failedLine s.fresh).toNat
  let s := { s with fresh := s.fresh + 1, tiles := { s.tiles with retired := sput 0 s.tiles.retired tile (sget 0 s.tiles.retired tile + 1) } }
  let s := setCause s (srcCluster (tile / 64)) 5 (tile + line * 2 ^ 12)
  let t := statAt s (srcCluster (tile / 64))
  setStat s (srcCluster (tile / 64)) { t with tiles := t.tiles ||| BitVec.ofNat 64 (2 ^ (tile % 64)) }

/-- The fused operand of a complete chunk is read from its tile's scratchpad: a line that fails both reads ends the epoch (R84, R102), one that
passes the re-read is counted (12 Table 12.2). -/
def readSlice (s : State) (n k : Nat) : State :=
  match tillAt s n with
  | none => s
  | some t =>
    let tile := tileOf s n t.words k
    match s.faults.slices.find? fun x => x.1 == n && x.2.1 == k with
    | none => finishChunk s n k
    | some x =>
      let s := { s with faults := { s.faults with slices := s.faults.slices.filter fun y => y != x } }
      if x.2.2 then endTill (retireLine (modChunk s n k fun c => { c with st := .minting }) tile) n stDetect (chunkOf t k).epoch
      else finishChunk (rereadLine s tile) n k

/-! ### Tile errors (R100, 12 R338-R340) -/

/-- A chunk complete after its first mismatch: the mismatch was transient (R100). -/
def mismatchOver (s : State) (n k : Nat) : State :=
  match tillAt s n with
  | none => s
  | some t =>
    if (chunkOf t k).mismatch = 1 then
      let tile := tileOf s n t.words k
      let s := countBlock (tileCause s tile 0) (srcCluster (tile / 64)) 0
      modChunk s n k fun c => { c with mismatch := 2 }
    else s

/-- A chunk is complete when every required input has delivered, its additions have retired and no element waits for a SUMMARY (R74, R78);
a tile that stands halted takes no completion (R103, 16 R451). -/
def tryComplete (s : State) (n k arrival : Nat) : State :=
  match tillAt s n with
  | none => s
  | some t =>
    let c := chunkOf t k
    if c.st = .filling ∧ chunkActive t.words t.shard k = true ∧ isOpenTill t = true ∧ (requiredOf t k).all (hasB c) = true ∧
        c.waitSum = [] ∧ c.retire ≤ s.now ∧ c.resetAt = none ∧ haltedTile s (tileOf s n t.words k) = false then
      let s := jobWait s (tJob t.words) 1 (c.lastAt - c.firstAt)
      let s := setTill s n (putChunk t k { c with completeAt := arrival, timerAt := none, efAt := none })
      let s := mismatchOver s n k
      if !tFused t.words then finishChunk s n k else if tFuseFab t.words then fetchFuse s n k else readSlice s n k
    else s

/-- The next epoch zeroes a chunk; what it counted enters its epoch's counts. -/
def nextEpoch (im : List Byte) (t : Till) (k : Nat) : Till :=
  let c := chunkOf t k
  putChunk (modCounts t c.epoch (spill im k c)) k (blankChunk (c.epoch + 1))

/-- Chunks that wait for no input complete with zero sums once epoch e is in progress (R460). -/
def zeroChunks (s : State) (n : Nat) (e : W16) (arrival : Nat) : State :=
  match tillAt s n with
  | none => s
  | some t =>
    ((List.range t.chunks.length).filter fun k => chunkActive t.words t.shard k && (requiredOf t k).isEmpty).foldl (fun s k =>
      let s := modTill s n fun t =>
        let c := chunkOf t k
        if tStanding t.words && c.st == .done && c.epoch + 1 == e then nextEpoch (tillImage s t.words) t k else t
      match tillAt s n with
      | none => s
      | some t =>
        let c := chunkOf t k
        if c.epoch = e ∧ (c.st = .idle ∨ c.st = .filling) then
          tryComplete (setTill s n (putChunk t k { c with st := .filling })) n k arrival
        else s) s

/-- Chunks FILLING or MINTING on a logical tile: till and chunk. -/
def heldOn (s : State) (tile : Nat) : List (Nat × Nat) :=
  (s.tills.map fun e =>
    ((List.range e.2.chunks.length).filter fun k =>
      let st := (chunkOf e.2 k).st
      tileOf s e.1 e.2.words k == tile && (st == .filling || st == .minting)).map fun k => (e.1, k)).flatten

/-- A chunk is reset and asks all its required inputs again (R100). -/
def recompute (s : State) (n k : Nat) : State :=
  let s := resetChunk s n k
  match tillAt s n with
  | none => s
  | some t => tryComplete (askResend s n k (requiredOf t k)) n k s.now

/-- A physical tile of the cluster that is neither fused off, fenced nor mapped, the lowest. -/
def spareOf (s : State) (cluster : Nat) : Option Nat :=
  (enabledTiles s cluster).find? fun p =>
    !s.tiles.fenced.contains p && !(List.range 64).any fun i => physOf s (cluster * 64 + i) == p

/-- A chunk is reset in the next ACLK cycle (Table 3.10, 12 R338). -/
def resetSoon (s : State) (n k : Nat) : State := modChunk s n k fun c => { c with resetAt := some (aclkAt s.now + 2) }

/-- The latest epoch that a till's chunks held on a logical tile are in, or else the one not posted yet. -/
def heldEpoch (s : State) (n : Nat) (t : Till) (tile : Nat) : W16 :=
  ((heldOn s tile).filter fun x => x.1 == n).foldl (fun e x =>
    let f := (chunkOf t x.2).epoch
    if epochsAhead t e < epochsAhead t f ∧ epochsAhead t f < 32768 then f else e) t.epoch

/-- A run gives back its window and completes. -/
def finishRun (s : State) (tile : Nat) (r : RunReq) (status : Nat) (p : Option (Nat × Nat × List W32)) (waits : List Nat) : State :=
  let s := scratchGive s [(tile, r.window)]
  match p with
  | some (inv, index, latch) => completeRun s r.by_ status inv index latch waits
  | none => completeRun s r.by_ status 0 0 [] waits

/-- A run whose pass cannot go on gives back its context and its window, and completes (R129). -/
def dropRun (s : State) (tile : Nat) (r : RunReq) (status : Nat) : State :=
  let key := ctxKey tile false
  finishRun (setCtx s key { ctxAt s key with running := none }) tile r status none []

/-- A fenced tile issues nothing further (12 R338): the standalone run under way on it completes with DETECT_FAIL, and those queued there too
where the tile is lost (DESIGN CHOICE, assumption log 39: the spec gives the fence no effect on a run). -/
def fenceRuns (s : State) (tile : Nat) (lost : Bool) : State :=
  let key := ctxKey tile false
  let fetches (e : Nat × Xfer) : Bool := e.2.result.isNone && e.2.run.any fun x => x.1 == tile
  let s := match (ctxAt s key).running.bind fun x => x.pass.run with
    | some r => dropRun { s with hbm := { s.hbm with xfers := s.hbm.xfers.filter fun e => !fetches e } } tile r stDetect
    | none => s
  if !lost then s
  else
    let c := ctxAt s key
    let s := setCtx s key { c with ready := c.ready.filter fun p => p.run.isNone }
    (c.ready.filterMap fun p => p.run).foldl (fun s r => completeRun s r.by_ stDetect) s

/-- The tile behind a logical tile is fenced (12 R338): chunks held on it are recomputed on a spare from the next ACLK cycle on, or their
tills end. The chunk whose second mismatch caused it, if one did, is not reset. -/
def fenceTile (s : State) (tile cause : Nat) (spare : Option (Nat × Nat)) : State :=
  let cl := tile / 64
  let old := physOf s tile
  let held := (heldOn s tile).filter fun x => some x != spare
  let s := { s with tiles := { s.tiles with fenced := s.tiles.fenced ++ [old] } }
  let s := countBlock (tileCause s tile cause) (srcCluster cl) 1
  let s := if haltNow s != 0 && s.tiles.haltTile.toNat == tile then
      refuseField { s with tiles := { s.tiles with haltState := 0, liftedAt := s.now } } 0x80000 0 rsDebug
    else s
  match spareOf s cl with
  | some p =>
    let s := { s with tiles := { s.tiles with moved := oins s.tiles.moved tile p } }
    let s := tileCause s tile 2
    let s := recordRaw s oDevice (srcCluster cl) 0x17 tile (old % 66) (p % 66)
    held.foldl (fun s x => resetSoon s x.1 x.2) (fenceRuns s tile false)
  | none =>
    let s := { s with tiles := { s.tiles with unavailable := s.tiles.unavailable ++ [tile] } }
    let s := tileCause s tile 3
    let s := recordRaw s oDevice (srcCluster cl) 0x17 tile (old % 66) 0xFFFF
    (s.tills.filter fun e => (List.range e.2.chunks.length).any fun k => tileOf s e.1 e.2.words k == tile).foldl
      (fun s e => endTill s e.1 stDetect (heldEpoch s e.1 e.2 tile)) (fenceRuns s tile true)

/-- The program store of a tile is read for a pass: a word that fails and passes its re-read is counted and stalls the context, one that fails
both fences the tile (12 Tables 12.2, 12.5). The state, whether the tile may go on, and the FCLK cycles of the stall. -/
def readProgram (s : State) (tile : Nat) : State × Bool × Nat :=
  match s.faults.progs.find? fun x => x.1 == tile with
  | none => (s, true, 0)
  | some x =>
    let s := { s with faults := { s.faults with progs := s.faults.progs.filter fun y => y != x } }
    if x.2 then (fenceTile s tile 7 none, false, 0)
    else
      let (n, s) := takeFresh (countBlock (tileCause s tile 6) (srcCluster (tile / 64)) 3)
      (s, true, 2 * Config.progStall n)

/-- A tile store mismatch in a chunk (R100): at the first it is reset in the next ACLK cycle (Table 3.10). -/
def storeMismatch (s : State) (n k : Nat) : State :=
  match tillAt s n with
  | none => s
  | some t =>
    if (chunkOf t k).mismatch = 0 then resetSoon (setTill s n (putChunk t k { chunkOf t k with mismatch := 1 })) n k
    else endTill (fenceTile s (tileOf s n t.words k) 1 (some (n, k))) n stDetect (chunkOf t k).epoch

/-! ### LATE (R91) -/

/-- The epoch not yet posted is LATE: its chunks that are not DONE are reset and go on to the next epoch, no further result is
sent, the completion is posted, and the kickstand fires. -/
def lateEpoch (s : State) (n : Nat) : State :=
  match tillAt s n with
  | none => s
  | some t =>
    let e := t.epoch
    let open_ := (List.range t.chunks.length).filter fun k => (chunkOf t k).epoch == e && (chunkOf t k).st != .done
    let s := open_.foldl (fun s k => abandonPass (dropReads (recallFrames s (isChunkFrame n t k e)) n k) n t k) s
    let s := modTill s n fun t => { t with cnt := { t.cnt with seen := addSeen t.cnt.seen stLate } }
    let s := postEpoch s n false (if tStanding t.words then [] else [.freeSlabs n])
    let s := open_.foldl (fun s k => modChunk s n k fun _ => blankChunk (e + 1)) s
    let s := modTill s n fun t => { t with ended := !tStanding t.words }
    if tKick t.words then kickLate s (tJob t.words) 2 n else s

/-! ### What an input adds (R36, R72, R74, R97) -/

/-- Slot added to a bitmap kept in slot order. -/
def addSlot (l : List Nat) (i : Nat) : List Nat := (l.filter fun x => decide (x < i)) ++ [i] ++ l.filter fun x => decide (x > i)

/-- Provisional attributed rank: above every rank (R78). -/
def noRank : Nat := 16384

/-- Accumulands added to a chunk from element `at_` on. -/
def addAt_ (op : Nat) (l : List Acc) (at_ : Nat) (new : List Acc) : List Acc :=
  l.take at_ ++ List.zipWith (combine op) ((l.drop at_).take new.length) new ++ l.drop (at_ + new.length)

/-- One accepted input: its slot, first block, accumulands, truncations, elements that wait for its SUMMARY, and MORE. -/
structure Input where
  slot : Nat
  epoch : W16
  first : Nat
  accs : List Acc
  trunc : Nat
  waits : List Nat
  more : Bool
  deriving DecidableEq, Repr

/-- The chunk after an input: sums, bits, timers and counts. -/
def inputChunk (s : State) (t : Till) (k : Nat) (c : Chunk) (x : Input) (arrival : Nat) : Chunk :=
  let w := t.words
  let at_ := (x.first - chunkFirst w k) * tElems w
  let begun := !c.bitA.isEmpty
  { c with
    st := .filling,
    acc := addAt_ (tOp w) (chunkAccs w k c.acc) at_ x.accs,
    bitA := addSlot c.bitA x.slot,
    bitB := if x.more then c.bitB else addSlot c.bitB x.slot,
    timerAt := if tTimeout w = 0 then none else some (s.now + tTimeout w),
    efAt := if begun then c.efAt else if tEarly w then some (s.now + 64 * tEfTimer w) else none,
    firstAt := if begun then c.firstAt else s.now, lastAt := s.now, completeAt := arrival,
    retire := aclkAt s.now + 10, resendAt := c.resendAt.filter fun q => q.1 != x.slot,
    waitSum := c.waitSum ++ x.waits.map fun i => x.slot * 65536 + at_ + i,
    part := { c.part with trunc := satAdd Config.sat32 c.part.trunc x.trunc } }

/-- An accepted input is applied to chunk k, and what follows from it in its cycle: a store mismatch, a deadline already past. -/
def applyInput (s : State) (n k : Nat) (x : Input) (arrival : Nat) (mismatch : Bool) : State :=
  match tillAt s n with
  | none => s
  | some t =>
    let t := if (chunkOf t k).epoch = x.epoch then t else nextEpoch (tillImage s t.words) t k
    let c := chunkOf t k
    let s := (c.resendAt.filter fun q => q.1 == x.slot).foldl (fun s q => jobWait s (tJob t.words) 4 (arrival - q.2)) s
    let t := putChunk t k (inputChunk s t k c x arrival)
    let due := (s.tick.start + tDeadline t.words).toNat
    let t := if tTick t.words && (countsAt t x.epoch).dueAt.isNone then modCounts t x.epoch fun c => { c with dueAt := some due } else t
    let t := { t with zeroAt := t.zeroAt.filter (fun z => z.1 != x.epoch) ++ [(x.epoch, s.now + 1, arrival)] }
    let s := setTill s n t
    let s := if mismatch then storeMismatch s n k else s
    let late := tTick t.words && x.epoch == t.epoch && !endsNow t && match t.cnt.dueAt with
      | some d => decide (s.now ≥ d)
      | none => false
    let s := if late then lateEpoch s n else s
    sumTimer s n

/-- What retires in a cycle: chunks reset by a mismatch or a fence ask again, chunks whose last addition has retired complete, mints that a
halted tile held back, and the zero-sum chunks of an epoch begun in the cycle before (R74, R100, R460). -/
def retireTill (s : State) (n : Nat) : State :=
  match tillAt s n with
  | none => s
  | some t =>
    let all := List.range t.chunks.length
    let due (k : Nat) : Bool := match (chunkOf t k).resetAt with
      | some c => decide (c ≤ s.now) && (t.st == .open || t.st == .draining)
      | none => false
    let s := (all.filter due).foldl (fun s k => recompute s n k) s
    let s := (all.filter fun k => (chunkOf t k).st == .filling && !due k).foldl (fun s k =>
      tryComplete s n k (chunkOf t k).completeAt) s
    let s := (all.filter fun k => (chunkOf t k).toMint && (chunkOf t k).st == .minting && isOpenTill t).foldl (fun s k => finishChunk s n k) s
    let zs := t.zeroAt.filter fun z => decide (z.2.1 ≤ s.now)
    if zs.isEmpty then s
    else
      let s := modTill s n fun t => { t with zeroAt := t.zeroAt.filter fun z => decide (s.now < z.2.1) }
      sumTimer (zs.foldl (fun s z => zeroChunks s n z.1 z.2.2) s) n

end Sys2Proof.Machine
end

