-- ==== Sys2Proof/Machine/Intake.lean ====
section
/-! DEFINITION. Frames that tills consume: CONTRIB, PARTIAL, SUMMARY and RESEND_REQ (03 R72, R78, R79, R81, R98, R99), and the
timers of chunks and summaries (R79, R80, R91, R97). -/

namespace Sys2Proof.Machine

/-! ### CONTRIB and PARTIAL -/

/-- A discarded frame is counted at the till it names (R72). -/
def countDiscard (s : State) (n : Nat) : State :=
  modTill s n fun t => { t with cnt := { t.cnt with discard := satAdd Config.sat32 t.cnt.discard 1 } }

/-- Slot of a sender: a member by RANK, unless excised, or a child switch by SRC. -/
def inputSlot (t : Till) (h : Header) (child : Bool) : Option Nat :=
  (inputsOf t.words t.shard).find? fun i =>
    if child then shKind t.shard i == 1 && shEndpoint t.shard i == h.src.toNat
    else shKind t.shard i == 0 && shRank t.shard i == h.rank.toNat && !t.excised.contains i

/-- NBLK, MORE, GEN and SPLIT of AUX (Table 3.3). -/
def auxNblk (h : Header) : Nat := h.aux.toNat % 65536
def auxMore (h : Header) : Bool := bit h.aux.toNat 30
def auxGen (h : Header) : Nat := bits h.aux.toNat 29 26
def auxSplit (h : Header) : Bool := bit h.aux.toNat 25

/-- Payload bytes of a delivery of n blocks: under MAX and MIN it ends with a rank section (R69); a member's own rank is its winner rank
(R47, R82). -/
def deliveryBytes (w : List W64) (child : Bool) (n : Nat) : Nat := fitBytes w (if child then tPart w else tFmt w) n

/-- The conditions of R72 for an input from slot i, but for the state of the till. -/
def inputOk (t : Till) (h : Header) (i : Nat) (child : Bool) (bytes : Nat) : Bool :=
  let w := t.words
  let k := h.offset.toNat / max 1 (tChunkBlocks w)
  let c := chunkOf t k
  let d := delivery w t.shard i k
  let next := tStanding w && c.st == .done && h.epoch == c.epoch + 1
  let more := child && auxMore h
  let a := !next && hasA c i
  let b := !next && hasB c i
  h.job.toNat == tJob w && h.cls.toNat == clsIn w && h.fmt.toNat == (if child then tPart w else tFmt w) &&
    (h.blk == 1) == tBlk w && d.2 != 0 && h.offset.toNat == d.1 && auxNblk h == d.2 && bytes == deliveryBytes w child d.2 &&
    (h.epoch == c.epoch || next) && !(if more then a else b) && !(child && auxSplit h && !a) &&
    (!child || auxGen h == genOf t i)

/-- The attributed rank that a child's SUMMARY has fixed for the epoch (R78), if it has come. -/
def sumRank (t : Till) (i : Nat) (e : W16) : Option Nat :=
  if e = t.epoch ∧ sget 0 t.sums i ≠ 0 then some (sget 0 t.sums i - 1) else none

/-- The accumulands of block j of a PARTIAL, the ranks of a MAX or MIN taken from its rank section. -/
def partialBlock (t : Till) (i : Nat) (e : W16) (b j n : Nat) (payload : List Byte) : Taken :=
  let w := t.words
  let f := tPart w
  let size := tElems w
  let valid := validFrom w (b + j) 1
  let blk := blockAt f (tBlk w) payload j
  let at_ := payloadSize f (tBlk w) n + 2 * j * size
  let rank (x : Nat) : Nat := leAt payload (at_ + 2 * x) 2 % 16384
  let ranked (l : List Acc) : List Acc :=
    if tOp w = 0 then l
    else ((List.range l.length).zip l).map fun p =>
      { p.2 with win := rank p.1, rank := if p.2.cls = Cls.fin then 0 else rank p.1 }
  if isWide f then
    let got := (blk.encs.take valid).map (slotAcc f)
    .ok (ranked got ++ List.replicate (size - got.length) (Acc.ofVal .fin 0 0 0)) 0
  else match takeBlock w f (agreedAt w t.scales (b + j)) valid 65536 false ((sumRank t i e).getD noRank) blk with
    | .ok l u => .ok (ranked l) u
    | .ends st => .ends st

/-- The accumulands of block j of a CONTRIB from a member. -/
def contribBlock (t : Till) (i b j : Nat) (payload : List Byte) : Taken :=
  let w := t.words
  let f := tFmt w
  let field := shWeight t.shard i
  takeBlock w f (agreedAt w t.scales (b + j)) (validFrom w (b + j) 1) (if tWeighted w then weightOf field else 65536)
    (tWeighted w && bit field 17) (shRank t.shard i) (blockAt f (tBlk w) payload j)

/-- What an accepted frame adds. -/
def inputAccs (t : Till) (h : Header) (i : Nat) (child : Bool) (payload : List Byte) : Taken :=
  let n := auxNblk h
  joinTaken ((List.range n).map fun j =>
    if child then partialBlock t i h.epoch h.offset.toNat j n payload else contribBlock t i h.offset.toNat j payload)

/-- Elements of a compact SUM partial that wait for the child's SUMMARY to fix their rank (R78). -/
def waitingElems (t : Till) (h : Header) (i : Nat) (child : Bool) (accs : List Acc) : List Nat :=
  if child && !isWide (tPart t.words) && tOp t.words == 0 && (sumRank t i h.epoch).isNone then
    ((List.range accs.length).zip accs).filterMap fun p => if p.2.cls = Cls.fin then none else some p.1
  else []

/-- A halt of the tile was lifted in this ACLK cycle (Table 3.7). -/
def justLifted (s : State) (tile : Nat) : Bool :=
  s.tiles.liftedAt != 0 && s.tiles.haltTile.toNat == tile && decide (s.now < aclkAt s.tiles.liftedAt + 2)

/-- A contribution of the till waits in intake: its tiles are drained, a snapshot is being written, or its own tile is halted, and in the
ACLK cycle in which an excision acts or a halt is lifted (R92, Table 3.7; 14 R405). -/
def inputWaits (s : State) (n : Nat) (t : Till) (k : Nat) : Bool :=
  let tile := tileOf s n t.words k
  t.st == .draining || (t.st == .open && (drainedTill s t || decide (s.now < t.issueAt) || haltedTile s tile || justLifted s tile))

/-- Bytes of a waiting frame are still to cross to its tile's die (01 R14). -/
def stillCrosses (s : State) (f : Frame) : Bool := match s.intake.find? fun i => decide (i.frame = f) with
  | some i => s.bridge.crossings.any fun x => x.what == .input i.port i.arrival
  | none => false

/-- A CONTRIB or a PARTIAL is checked, converted and added, or discarded, or ends the till (R72, R74). -/
def inputFrame (s : State) (f : Frame) (child mismatch : Bool) : State :=
  let h := headerOf f.hdr
  let n := h.till.toNat
  match tillAt s n with
  | none => (takeIntake s f).1
  | some t =>
    if inputWaits s n t (h.offset.toNat / max 1 (tChunkBlocks t.words)) || stillCrosses s f then s
    else
      let (s, _, arrival) := takeIntake s f
      match inputSlot t h child with
      | none => countDiscard s n
      | some i =>
        if !isOpenTill t || !inputOk t h i child f.payload.length then countDiscard s n
        else match inputAccs t h i child f.payload with
          | .ends st => endTill s n st h.epoch
          | .ok accs trunc =>
            applyInput s n (h.offset.toNat / max 1 (tChunkBlocks t.words))
              { slot := i, epoch := h.epoch, first := h.offset.toNat, accs := accs, trunc := trunc,
                waits := waitingElems t h i child accs, more := child && auxMore h } arrival mismatch

/-- A frame of a type, its trailer good. -/
def goodFrame (f : Frame) (type : Nat) : Bool := frameGood f && (headerOf f.hdr).type.toNat == type

/-- A PARTIAL with SUMMARY = 1. -/
def isSummary (f : Frame) : Bool := bit (headerOf f.hdr).aux.toNat 31

def execContribReceive (f : Frame) (mismatch : Bool) (s : State) : Res :=
  .next (if goodFrame f 1 then inputFrame s f false mismatch else s)

def execPartialReceive (f : Frame) (mismatch : Bool) (s : State) : Res :=
  .next (if goodFrame f 3 && !isSummary f then inputFrame s f true mismatch else s)

/-! ### SUMMARY (R78, R79) -/

/-- The conditions of R72, R78 and R79 for a SUMMARY of child slot i. -/
def summaryOk (t : Till) (h : Header) (i : Nat) : Bool :=
  let w := t.words
  h.job.toNat == tJob w && h.cls.toNat == clsIn w && h.fmt.toNat == tPart w && (h.blk == 1) == tBlk w && auxNblk h == 0 &&
    h.offset == 0 && h.len == 1 && h.epoch == t.epoch && sget 0 t.sums i == 0 && auxGen h == genOf t i

/-- The counts a SUMMARY carries (Table 3.4). -/
def summaryPart (p : List Byte) : Part :=
  let x := leAt p 12 2
  { trunc := leAt p 0 4, sat := leAt p 4 4,
    exc := if bit x 15 then some { origin := bits x 14 14, rank := x % 16384, index := leAt p 8 4 } else none }

/-- The SUMMARY fixes the rank of the elements of chunk c that waited for slot i. -/
def fixRanks (c : Chunk) (i rank : Nat) : Chunk :=
  let mine := c.waitSum.filter fun x => x / 65536 == i
  let fix (p : Nat × Acc) : Acc :=
    if mine.contains (i * 65536 + p.1) && p.2.cls != .fin then { p.2 with rank := min p.2.rank rank } else p.2
  { c with acc := ((List.range c.acc.length).zip c.acc).map fix, waitSum := c.waitSum.filter fun x => x / 65536 != i }

/-- The till after an accepted SUMMARY. -/
def summaryTill (im : List Byte) (t : Till) (i : Nat) (p : List Byte) : Till :=
  let q := summaryPart p
  let rank := (q.exc.map (·.rank)).getD 0
  let cnt := { t.cnt with
    part := joinPart im t.cnt.part q,
    discard := satAdd Config.sat32 t.cnt.discard (leAt p 14 4),
    resend := satAdd Config.sat32 t.cnt.resend (leAt p 18 4) }
  { t with sums := sput 0 t.sums i (rank + 1), sumTimers := t.sumTimers.filter fun x => x.1 != i,
           sumAsked := t.sumAsked.filter fun x => x.1 != i, cnt := cnt,
           chunks := t.chunks.map fun c => if c.epoch = t.epoch then fixRanks c i rank else c }

def execSummaryReceive (f : Frame) (s : State) : Res :=
  .next (
    if !goodFrame f 3 || !isSummary f then s
    else
      let h := headerOf f.hdr
      let n := h.till.toNat
      let (s, _, arrival) := takeIntake s f
      match tillAt s n with
      | none => s
      | some t =>
        match inputSlot t h true with
        | none => countDiscard s n
        | some i =>
          if !isOpenTill t || !summaryOk t h i then countDiscard s n
          else
            let s := (t.sumAsked.filter fun q => q.1 == i).foldl (fun s q => jobWait s (tJob t.words) 4 (arrival - q.2)) s
            let s := setTill s n (summaryTill (tillImage s t.words) t i f.payload)
            let s := (List.range t.chunks.length).foldl (fun s k =>
              if (chunkOf t k).epoch = t.epoch ∧ (chunkOf t k).waitSum ≠ [] then tryComplete s n k arrival else s) s
            settleTill s n)

/-! ### RESEND_REQ (R81, R98, R99) -/

/-- The PARTIALs of chunk k are sent again: the early part, and once the chunk is DONE the whole or later part. A SAVED till's slabs hold
them no more, so it sends none (DESIGN CHOICE, assumption log 54). -/
def resendPartials (s : State) (t : Till) (k : Nat) : State :=
  let c := chunkOf t k
  let d := ownDelivery t.words t.shard k
  let body (accs : List Acc) : List Byte := partialBody t.words (partialOut t.words t.scales d.1 d.2 (spanAccs t k accs))
  let send (s : State) (b : HdrBits) (accs : List Acc) : State :=
    sendOwn s (againHeader t b) (body accs) fun _ => freeDelay s
  let s := if c.earlySent then send s c.sentEarly c.early else s
  if c.st = .done then send s c.sentLast c.acc else s

def execResendReqReceive (f : Frame) (s : State) : Res :=
  .next (
    if !goodFrame f 9 then s
    else
      let h := headerOf f.hdr
      let n := h.till.toNat
      let (s, _, _) := takeIntake s f
      match tillAt s n with
      | none => s
      | some t =>
        if !(tInner t.words && h.job.toNat == tJob t.words && h.src.toNat == tParent t.words) then s
        else
          let t := { t with gen := auxGen h }
          let s := setTill s n t
          let k := h.offset.toNat / max 1 (tChunkBlocks t.words)
          if t.st = .waitAdmit ∨ t.st = .opening then s
          else if auxNblk h > 0 then
            if t.st ≠ .saved ∧ (chunkOf t k).epoch = h.epoch ∧ k < t.chunks.length then resendPartials s t k else s
          else if bit h.aux.toNat 31 then
            match t.sumSent.find? fun x => x.1 == h.epoch with
            | some (_, b, body) => sendOwn s (againHeader t b) body fun _ => freeDelay s
            | none => s
          else s)

/-! ### Timers (R79, R80, R91, R97) -/

/-- A drain that stops the whole till has reached its drain cycle: its timers stand still (R93). -/
def timersStopped (s : State) (t : Till) : Bool :=
  t.drains.any fun d => decide (s.now ≥ drainAt d.c) && match d.kind with
    | .excise _ _ => false
    | .halt => false
    | _ => true

/-- A time has come. -/
def dueNow (s : State) (at_ : Option Nat) : Bool := match at_ with
  | some c => decide (s.now ≥ c)
  | none => false

/-- The chunk's timer runs again after a round. -/
def nextRound (s : State) (w : List W64) (c : Chunk) : Chunk :=
  { c with rounds := c.rounds + 1, timerAt := some (s.now + tTimeout w) }

def execChunkTimerExpiry (till : BitVec 12) (chunk : Nat) (s : State) : Res :=
  .next (match tillAt s till.toNat with
    | none => s
    | some t =>
      let c := chunkOf t chunk
      if !isOpenTill t || timersStopped s t || chunk ≥ t.chunks.length || c.st != .filling || !dueNow s c.timerAt then s
      else if c.rounds ≥ tLimit t.words then endTill s till.toNat stPeerLost c.epoch
      else
        let s := askResend s till.toNat chunk ((requiredOf t chunk).filter fun i => !hasB c i)
        modChunk s till.toNat chunk (nextRound s t.words))

def execSummaryTimerExpiry (till : BitVec 12) (slot : Nat) (s : State) : Res :=
  .next (match tillAt s till.toNat with
    | none => s
    | some t =>
      match t.sumTimers.find? fun x => x.1 == slot with
      | none => s
      | some (_, at_, rounds) =>
        if !isOpenTill t || timersStopped s t || s.now < at_ then s
        else if rounds ≥ tLimit t.words then endTill s till.toNat stPeerLost t.epoch
        else
          let s := sendResend s till.toNat t slot t.epoch 0 0 true
          modTill s till.toNat fun t =>
            { t with cnt := { t.cnt with resend := satAdd Config.sat32 t.cnt.resend 1 }, sumAsked := t.sumAsked ++ [(slot, s.now)],
                     sumTimers := t.sumTimers.map fun x => if x.1 = slot then (slot, s.now + tTimeout t.words, rounds + 1) else x })

/-- Sums about to be sent early: an attributed rank that no SUMMARY has fixed yet is a free value. -/
def earlyAccs (n k : Nat) (e : W16) (accs : List Acc) : List Acc :=
  ((List.range accs.length).zip accs).map fun p =>
    if p.2.rank = noRank then { p.2 with rank := Config.earlyRank (n * 65536 + e.toNat) (k * 65536 + p.1) } else p.2

def execEarlyForwardExpiry (till : BitVec 12) (chunk : Nat) (s : State) : Res :=
  let n := till.toNat
  .next (match tillAt s n with
    | none => s
    | some t =>
      let c := chunkOf t chunk
      if !isOpenTill t || timersStopped s t || chunk ≥ t.chunks.length || c.st != .filling || c.earlyOnce || c.resetAt.isSome || !dueNow s c.efAt ||
          haltedTile s (tileOf s n t.words chunk) then s
      else
        let accs := partAccs t chunk (earlyAccs n chunk c.epoch (chunkAccs t.words chunk c.acc))
        let (s, o, h) := emitPartial s t chunk accs true fun _ _ => freeDelay s
        let s := toss s (tJob t.words) 0
        modChunk s n chunk fun c =>
          { c with early := accs, earlySent := true, earlyOnce := true, acc := [], efAt := none, waitSum := [], sentEarly := h,
                   receipt := receipt c.receipt o.syms, part := joinPart [] c.part o.part })

/-- Every chunk of the epoch not posted has had its last frame's first bit leave before the deadline (R91). -/
def leftInTime (s : State) (n : Nat) (t : Till) (due : Nat) : Bool :=
  (List.range t.chunks.length).all fun k =>
    let c := chunkOf t k
    let mine (e : Entry) : Bool := e.src == 16 && isChunkFrame n t k c.epoch (headerOf e.frame.hdr)
    let late (q : PortQ) : Bool := q.queue.any mine || match q.lane with
      | .frame e st _ => mine e && decide (st ≥ due)
      | _ => false
    chunkFinished t k ||
      (c.epoch == t.epoch && c.st == .minting && c.fuseLeft == 0 && !c.toMint && (!tVault t.words || c.part.latch.isSome || decide (c.part.caughtUp > 0)) &&
        !(s.ports.any fun q => late q.2.q) && !(s.stalled.any fun e => mine e.2))

def execTillDeadline (till : BitVec 12) (s : State) : Res :=
  .next (match tillAt s till.toNat with
    | none => s
    | some t =>
      match t.cnt.dueAt with
      | none => s
      | some due =>
        if !tTick t.words || !isOpenTill t || endsNow t || s.now < due || leftInTime s till.toNat t due then s
        else lateEpoch s till.toNat)

end Sys2Proof.Machine
end

