-- ==== Sys2Proof/Machine/Words.lean ====
section
/-! DEFINITION. Accumulator words of a chunk (02 R43, R44; 03 Table 3.5) and the bytes of a saved image (03 R94). -/

namespace Sys2Proof.Machine

/-- A word with its CHECK byte. -/
def checkedWord (low : Nat) : W64 := Config.checkByte (BitVec.ofNat 56 low) ++ BitVec.ofNat 56 low

/-- The low 56 bits of a word with a class and a 48-bit value (Table 2.6). -/
def wordBits (c : Cls) (value : Nat) : Nat := clsCode c * 2 ^ 48 + value

/-- The word of one element (Table 2.6). A rank that a child's SUMMARY has still to fix (03 R78) shows as 0 (DESIGN CHOICE, assumption log
54). -/
def accWord (a : Acc) : W64 := checkedWord (wordBits a.cls (if a.cls = Cls.fin then ofInt 48 a.val else a.rank % 16384))

/-- Word h of the two of a PAIR element: bits 47:0 or 95:48 of its value, each with its class (DEDUCED, assumption log 50). -/
def pairWord (a : Acc) (h : Nat) : W64 :=
  checkedWord (wordBits a.cls (if a.cls = Cls.fin then ofInt 96 a.val / 2 ^ (48 * h) % 2 ^ 48 else a.rank % 16384))

/-- Word h of the two of a MAX or MIN element: its value, or its winner rank (R82; DEDUCED, assumption log 50). -/
def winnerWord (a : Acc) (h : Nat) : W64 := if h = 0 then accWord a else checkedWord (a.win % 16384)

/-- A packed word (R44): n fields of b bits from element n * i on, CLASS 0. -/
def packedWord (c : Chunk) (n b i : Nat) (accs : List Acc) : W64 :=
  let field (j : Nat) : Nat :=
    let a := accs.getD (n * i + j) Acc.zero
    if a.cls = Cls.fin then ofInt b a.val else (Config.nanField c i j).toNat % 2 ^ b
  checkedWord (sumNat ((List.range n).map fun j => field j * 2 ^ (j * b)))

/-- The status word of the block that starts at an element (R44): bit 0 NaN, bits 14:1 its attributed rank. -/
def statusWord (accs : List Acc) : W64 :=
  checkedWord (match accs.find? fun a => a.cls == .nan with
    | some a => 1 + 2 * (a.rank % 16384)
    | none => 0)

/-- Two words for each element: of elements of E, element and half that word i holds. -/
def halfOf (e i : Nat) : Nat × Nat := if Config.wordsApart then (i % e, i / e) else (i / 2, i % 2)

/-- Element words in one set of a chunk. -/
def elemWords (w : List W64) : Nat :=
  let e := tChunkBlocks w * tElems w
  if tOp w ≠ 0 then 2 * e else if tFmt w = 5 then ceilDiv e 2 else if tFmt w = 6 then ceilDiv e 3
  else if tPaired w then 2 * e else e

/-- Word i of a set of element words. -/
def elemWord (w : List W64) (c : Chunk) (accs : List Acc) (i : Nat) : W64 :=
  let two := halfOf (max 1 (tChunkBlocks w * tElems w)) i
  let el (j : Nat) : Acc := accs.getD j Acc.zero
  if tOp w ≠ 0 then winnerWord (el two.1) two.2
  else if tPaired w then pairWord (el two.1) two.2
  else if tFmt w = 5 then packedWord c 2 24 i accs
  else if tFmt w = 6 then packedWord c 3 16 i accs
  else accWord (el i)

/-- A word whose CLASS and VALUE are free, 0 while what it records is empty. -/
def freeWord (zero : Bool) (x : BitVec 50) : W64 := checkedWord (if zero then 0 else x.toNat)

/-- Word i of the record of chunk k (Table 3.5). -/
def chunkWord (t : Till) (k i : Nat) : W64 :=
  let w := t.words
  let c := chunkOf t k
  let el := elemWords w
  let status := el + (if tFmt w = 5 ∨ tFmt w = 6 then tChunkBlocks w else 0)
  let scale := status + (if tMode w = 2 then ceilDiv (tChunkBlocks w) 6 else 0)
  let bitmap := scale + ceilDiv (2 * (inputsOf w t.shard).length) 48
  let early := bitmap + (if tEarly w then el else 0)
  let free := Config.otherWord c t.scales i
  if i < el then elemWord w c c.acc i
  else if i < status then statusWord ((c.acc.drop ((i - el) * tElems w)).take (tElems w))
  else if i < scale then freeWord false free
  else if i < bitmap then freeWord c.bitA.isEmpty free
  else if i < early then elemWord w c c.early (i - bitmap)
  else freeWord false free

/-- DESC_DIGEST of a till's descriptor (R94). -/
def descDigest (w : List W64) : W64 := digestLow64 (bytesOf (w.take 16))

/-- The bytes of a till's image: header and records (Table 3.8). -/
def tillImageBytes (n : Nat) (t : Till) : List Byte :=
  let w := t.words
  let words := chunkWords w t.shard
  leBytes 8 (descDigest w).toNat ++ leBytes 2 n ++ [BitVec.ofNat 8 (tJob w), 1] ++ leBytes 4 t.chunks.length ++ leBytes 4 words ++
    List.replicate 44 0 ++
    ((List.range t.chunks.length).map fun k => bytesOf ((List.range words).map (chunkWord t k))).flatten

end Sys2Proof.Machine
end

