-- ==== Sys2Proof/Machine/TillCmds.lean ====
section
/-! DEFINITION. Till commands and what a drain does (03 R87, R88, R92-R96, R101, R102, Tables 3.7, 3.9). -/

namespace Sys2Proof.Machine

/-! ### TILL_OPEN (R64) -/

def execTillOpen (ring : BitVec 6) (d : Desc) (obj : TillObj) (s : State) : Res :=
  let w := obj.words
  .next (accept s ring d 0x10 (some (tJob w)) (tTill w) (if descOk d then tCring w else cringOf d.d0) fun a s =>
    match openRefusal s obj with
    | some st => completeTo s (tCring w) a st
    | none =>
      let t := newTill s obj a
      admitTill (takeFresh s).2 (tTill w) t)

/-- A till that waits, or is admitted and not open yet, is dropped, its TILL_OPEN completed. -/
def dropWaiter (s : State) (n : Nat) (t : Till) (status : Nat) : State :=
  let s := returnSlabs (scratchGive (admitWaited s t) (fuseUse s n t.words)) s.now (tillQuota 1 t.words) t.slabs
  let s := unbind { s with tills := odel s.tills n } t.words
  match t.by_ with
  | some a => completeTo s (tCring t.words) a status
  | none => s

/-- ADMIT = 1 lets a till wait no longer: it has been kept only while the X7 was UNALIGNED (R87, R22, 07 R200). -/
def mayNotWait (s : State) (t : Till) : Bool := tAdmit t.words && !(tTick t.words && s.tick.state == 0)

/-- A waiter of WAIT_ADMIT is granted its slabs in its turn (R87); for a tick-class one pre-emption makes room (R88). One whose region
was dropped, for a stack of it failed to train, is refused (R22, 05 R137), and so is one with ADMIT = 1 that would have to go on waiting. -/
def execAdmissionGrant (till : BitVec 12) (s : State) : Res :=
  let n := till.toNat
  .next (match tillAt s n with
    | none => s
    | some t =>
      if t.st != .waitAdmit then s
      else
        let s := grantEarlier s t.order
        let wait (s : State) : State := if mayNotWait s t then dropWaiter s n t stRefused else s
        if waiterBefore s t.words t.order then wait s
        else if tVault t.words && (regionAt s (tRegion t.words)).isNone then dropWaiter s n t stRefused
        else match grantTill s n t.words t.shard with
          | none => match preemptFor s n t.words t.shard with
            | some s => modTill s n fun t => { t with preempts := true }
            | none => wait s
          | some (s', slabs) => if tilesMissing s n t then dropWaiter s n t stRefused else openTill s' n t slabs)

/-! ### Commands that name a till -/

/-- A command on an existing till; one whose epoch has completed and that only waits to be freed is not named any more. -/
def tillCmd (ring : BitVec 6) (d : Desc) (op : Nat) (s : State) (body : Accept → Nat → Till → State → State) : Res :=
  let n := objOf d
  .next (accept s ring d op ((tillAt s n).map tillJob) n (cringOf d.d0) fun a s =>
    match tillAt s n with
    | some t => if t.ended then complete s a stRefused else body a n t s
    | none => complete s a stRefused)

def addDrain (s : State) (n : Nat) (t : Till) (kind : DrainKind) (by_ : Option Accept) : State :=
  setTill s n { t with drains := t.drains ++ [{ c := s.now, kind := kind, by_ := by_ }] }

/-- Chunks whose work is on the tiles. -/
def chunkBusy (t : Till) : Bool := t.chunks.any fun c => c.st == .filling || c.st == .minting

/-- The epoch not posted has begun. -/
def epochBegun (t : Till) : Bool :=
  let cs := match t.image with
    | some i => t.chunks ++ i.chunks
    | none => t.chunks
  t.sums != [] || cs.any fun c => c.st != .idle && decide (epochsAhead t c.epoch < 32768)

/-- Frames of the till that wait in intake are discarded; a till that remains counts them (R72, Table 3.7). -/
def dropIntake (s : State) (n : Nat) : State :=
  let mine (i : Intake) : Bool :=
    let h := headerOf i.frame.hdr
    (h.type == 1 || (h.type == 3 && !isSummary i.frame)) && h.till.toNat == n
  let k := (s.intake.filter mine).length
  let s := { s with intake := s.intake.filter fun i => !mine i }
  (List.range k).foldl (fun s _ => countDiscard s n) s

/-- Chunks not DONE stop: their unsent frames are taken back and their passes abandoned. -/
def stopChunks (s : State) (n : Nat) : State :=
  match tillAt s n with
  | none => s
  | some t =>
    ((List.range t.chunks.length).filter fun k => (chunkOf t k).st != .done).foldl (fun s k =>
      abandonPass (dropReads (recallFrames s (isChunkFrame n t k (chunkOf t k).epoch)) n k) n t k) s

/-- The till is freed by command, with ABORTED posted where `post` says, once, for the epoch not posted yet, even where chunks of two epochs
are in progress (DESIGN CHOICE, assumption log 54). -/
def freeByCommand (s : State) (n : Nat) (post : Bool) (by_ : Option Accept) : State :=
  let s := modTill (stopChunks s n) n fun t =>
    let cs := match t.image with
      | some i => if t.st = .saved then i.chunks else t.chunks
      | none => t.chunks
    let cnt := { t.cnt with seen := addSeen t.cnt.seen stAborted }
    if post then { t with cnt := cnt, chunks := cs } else t
  let s := if post then postEpoch s n false [] else s
  let s := dropIntake (freeTill s n true) n
  match by_ with
  | some a => complete s a stOk
  | none => s

/-- A close or an abort is under way. -/
def isClosing (t : Till) : Bool := t.drains.any fun d => match d.kind with
  | .close => true
  | .abort => true
  | _ => false

def execTillClose (ring : BitVec 6) (d : Desc) (s : State) : Res :=
  tillCmd ring d 0x11 s fun a n t s =>
    let ok := t.st == .open || t.st == .stopped || t.st == .saved
    if !ok || isClosing t then complete s a stRefused else addDrain s n t .close (some a)

def execTillAbort (ring : BitVec 6) (d : Desc) (s : State) : Res :=
  tillCmd ring d 0x12 s fun a n t s =>
    if t.st = .waitAdmit ∨ t.st = .opening then
      complete (dropWaiter s n t stAborted) a stOk
    else if isClosing t then complete s a stRefused
    else if (t.st == .open && chunkBusy t) || isEnding t || isSaving t || t.st == .draining then addDrain s n t .abort (some a)
    else freeByCommand s n true (some a)

def execTillSave (ring : BitVec 6) (d : Desc) (s : State) : Res :=
  tillCmd ring d 0x13 s fun a n t s =>
    if t.st != .open || isEnding t || isSaving t then complete s a stRefused
    else match beginSave s n t .save (some a) with
      | some s => s
      | none => complete s a stRefused

/-- Every chunk is IDLE. -/
def allIdle (t : Till) : Bool := t.chunks.all fun c => c.st == .idle

/-- The checks of R95 on an image. -/
def imageGood (n : Nat) (t : Till) (img : TillImage) (chk : ReadCheck) : Bool :=
  img.digest == descDigest t.words && img.till == n && img.job == tJob t.words && img.format == 1 && img.checksOk &&
    img.chunks.length == t.chunks.length && chk != .fail

def execTillRestore (ring : BitVec 6) (d : Desc) (img : TillImage) (chk : ReadCheck) (s : State) : Res :=
  tillCmd ring d 0x14 s fun a n t s =>
    let fromHost := bit d.d1.toNat 12
    let own := if t.staging = 0 then none else t.image
    match (if fromHost then some img else own) with
    | none => complete s a stRefused
    | some i =>
      let ok := imageGood n t i (if fromHost then .first else chk)
      if isEnding t || isSaving t || tilesMissing s n t then complete s a stRefused
      else if t.st = .open then
        if allIdle t && !t.chunks.isEmpty then addDrain s n t (.restore i ok) (some a) else complete s a stRefused
      else if t.st = .saved then
        if !ok then complete s a stDetect
        else match grantTill s n t.words t.shard with
          | some (s, slabs) => setTill s n { t with slabs := slabs, loading := some (i, some a) }
          | none => if tAdmit t.words then complete s a stRefused else setTill s n { t with loading := some (i, some a) }
      else complete s a stRefused

def execTillResume (ring : BitVec 6) (d : Desc) (s : State) : Res :=
  tillCmd ring d 0x15 s fun a n t s =>
    if t.st != .stopped || isEnding t || t.resuming.isSome || tilesMissing s n t then complete s a stRefused
    else setTill s n { t with resuming := some a, delta := deltaFor s t.words t.epoch }

/-- TILL_EXCISE. An effect tick that has begun acts at once: the drain runs from acceptance (DESIGN CHOICE, assumption log 54: R96 gives its
cycle for a tick to come). -/
def execTillExcise (ring : BitVec 6) (d : Desc) (s : State) : Res :=
  tillCmd ring d 0x16 s fun a n t s =>
    let slot := fld d.d1 21 12
    let rank := fld d.d1 35 22
    let tk := BitVec.ofNat 48 (fld d.d2 47 0)
    let known := (inputsOf t.words t.shard).contains slot && !t.excised.contains slot
    if t.st != .open || isEnding t || isSaving t || !known then complete s a stRefused
    else if ticksOn s && laterTick s tk then setTill s n { t with excisions := t.excisions ++ [(slot, rank, tk, a)] }
    else addDrain s n t (.excise slot rank) (some a)

/-- A resumed till opens in the cycle after acceptance, all its chunks zeroed (Table 3.9). -/
def resumeTill (s : State) (n : Nat) : State :=
  match tillAt s n with
  | none => s
  | some t =>
    match t.resuming with
    | none => s
    | some a =>
      let cnt : Counts := { discard := t.cnt.discard, resend := t.cnt.resend }
      complete (setTill s n { t with
        st := .open, chunks := t.chunks.map fun _ => blankChunk t.epoch, cnt := cnt, ahead := [], resuming := none }) a stOk

/-! ### The drain cycle D (Table 3.6) -/

/-- A debug halt abandons the till's running passes on the halted tile (04 R127). -/
def haltPasses (s : State) (n : Nat) : State :=
  [false, true].foldl (fun s tick =>
    let key := ctxKey s.tiles.haltTile.toNat tick
    match (ctxAt s key).running with
    | some r => if r.pass.run.isNone && r.pass.till == n then stopRun s key else s
    | none => s) s

/-- A drain of the till reaches D: its running passes are abandoned (04 R127), and a till that is saved is DRAINING (Table 3.9). -/
def drainBegins (s : State) (n : Nat) (t : Till) (d : Drain) : State :=
  if d.kind = .halt then haltPasses s n
  else
    let s := (List.range t.chunks.length).foldl (fun s k => stopRunning s n t k) s
    if d.kind = .save ∨ d.kind = .preempt then
      modTill s n fun t => { t with st := .draining, preempted := decide (d.kind = .preempt) }
    else s

/-- What this cycle brings to tills without a command: slabs return, tills open, drains reach D, and chunks retire. -/
def tillCycle (s : State) : State :=
  let s := openTills s false
  let s := (s.tills.filter fun e => e.2.resuming.isSome).foldl (fun s e => resumeTill s e.1) s
  let s := s.tills.foldl (fun s e =>
    (e.2.drains.filter fun d => drainAt d.c == s.now).foldl (fun s d => drainBegins s e.1 e.2 d) s) s
  let s := (s.tills.filter fun e => e.2.freeNext).foldl (fun s e => freeTill s e.1 false) s
  s.tills.foldl (fun s e => retireTill s e.1) s

/-! ### Actions at D + 4 (Table 3.7) -/

/-- Excision (R96). -/
def exciseTill (s : State) (n slot rank : Nat) (by_ : Option Accept) : State :=
  match tillAt s n with
  | none => s
  | some t =>
    let child := shKind t.shard slot == 1
    let all := List.range t.chunks.length
    let hit := all.filter fun k => (chunkOf t k).st != .done && hasA (chunkOf t k) slot
    let s := hit.foldl (fun s k => resetChunk s n k) s
    let mark (c : Chunk) : Chunk := if c.st = .done ∧ hasA c slot = true then { c with excisedIn := true } else c
    let s := modTill s n fun t =>
      let cnt := { t.cnt with excised := t.cnt.excised + 1, seen := addSeen t.cnt.seen stExcised }
      let t := { t with chunks := t.chunks.map mark, cnt := cnt, issueAt := s.now + 2 }
      if child then { t with gens := sput 0 t.gens slot ((genOf t slot + 1) % 16) }
      else { t with excised := t.excised ++ [slot] }
    match tillAt s n with
    | none => s
    | some t =>
      let s := hit.foldl (fun s k => askResend s n k (requiredOf t k)) s
      let s := if child then sendResend s n t slot t.epoch 0 0 false else s
      let s := toss (postEvent s srcTill 0x01 (tJob t.words) n rank t.epoch.toNat) (tJob t.words) 1
      let s := match by_ with
        | some a => complete s a stOk
        | none => s
      let s := all.foldl (fun s k => tryComplete s n k s.now) s
      let s := if epochBegun t then zeroChunks s n t.epoch s.now else s
      settleTill s n

/-- The status that ended epoch e is posted for it, and with it for those before it that are not complete yet (DESIGN CHOICE, assumption log
54); the till is STOPPED if standing, else freed (R102). -/
def endEpoch (s : State) (n status : Nat) (e : W16) : State :=
  let s := stopChunks s n
  match tillAt s n with
  | none => s
  | some t =>
    let ahead := epochsAhead t e
    let mark (s : State) : State := modTill s n fun t => { t with cnt := { t.cnt with seen := addSeen t.cnt.seen status } }
    let s := if ahead < 32768 then
        let s := (List.range ahead).foldl (fun s _ => postEpoch (mark s) n false []) s
        postEpoch s n false (if tStanding t.words then [] else [.freeSlabs n])
      else s
    let s := modTill s n fun t => if tStanding t.words then { t with st := .stopped } else { t with ended := true }
    dropIntake s n

/-- ACLK cycles in which the tiles of a till read what they hold of it, 4 accumulator words in each (R93). -/
def readCycles (s : State) (n : Nat) (t : Till) : Nat :=
  ((tallyBy ((List.range t.chunks.length).map fun k => (tileOf s n t.words k, chunkWords t.words t.shard))).map
    fun e => ceilDiv e.2 4).foldl max 0

/-- The snapshot begins: what the chunks hold is fixed, and an image for host memory is written out (R93). -/
def snapshot (s : State) (n : Nat) (preempt : Bool) (by_ : Option Accept) : State :=
  match tillAt s n with
  | none => s
  | some t =>
    let img : TillImage := { digest := descDigest t.words, till := n, job := tJob t.words, format := 1, chunks := t.chunks,
                             checksOk := true, epoch := some t.epoch, cnt := t.cnt, ahead := t.ahead, sums := t.sums,
                             excised := t.excised, gens := t.gens }
    let (ids, s) := if tSaveHost t.words then
        let (id, s) := hostWrite s ((t.words.getD 9 0).toNat) (tillImageBytes n t) (.save n)
        ([id], s)
      else ([], s)
    setTill s n { t with st := .draining, image := some img, saveWrites := ids, preempted := preempt, by_ := by_,
                         readBy := aclkAt s.now + 2 * readCycles s n t }

/-- TILL_ABORT posts ABORTED, unless the till's last completion is already posted. -/
def abortPosts (s : State) (n : Nat) : Bool := match tillAt s n with
  | some t => !t.ended
  | none => false

/-- TILL_CLOSE posts ABORTED for an epoch in progress. -/
def closePosts (s : State) (n : Nat) : Bool := match tillAt s n with
  | some t => !t.ended && epochBegun t && t.st != .stopped
  | none => false

/-- The action of a drain. -/
def drainAct (s : State) (n : Nat) (d : Drain) : State :=
  match d.kind with
  | .halt => s
  | .excise slot rank => exciseTill s n slot rank d.by_
  | .abort => freeByCommand s n (abortPosts s n) d.by_
  | .close => freeByCommand s n (closePosts s n) d.by_
  | .ending st e => endEpoch s n st e
  | .save => snapshot s n false d.by_
  | .preempt => snapshot s n true none
  | .restore img ok =>
    match d.by_ with
    | none => s
    | some a =>
      if ok then modTill (dropIntake s n) n fun t => { t with loading := some (img, some a) }
      else complete (dropIntake s n) a stDetect

/-- The first drain of a till reaches D + 4. -/
def execDrainAction (till : BitVec 12) (s : State) : Res :=
  let n := till.toNat
  .next (match tillAt s n with
    | none => s
    | some t =>
      match t.drains with
      | [] => s
      | d :: rest => if s.now < actionAt d.c then s else drainAct (setTill s n { t with drains := rest }) n d)

/-! ### Images written and loaded (R88, R93, R95) -/

def execSnapshotWritten (till : BitVec 12) (s : State) : Res :=
  let n := till.toNat
  .next (match tillAt s n with
    | none => s
    | some t =>
      if t.st != .draining || !t.saveWrites.isEmpty || t.image.isNone || s.now < t.readBy then s
      else
        let s := (List.range t.chunks.length).foldl (fun s k => abandonPass s n t k) s
        let s := returnSlabs s s.now (tillQuota 1 t.words) t.slabs
        let s := setTill s n { t with st := .saved, slabs := [], by_ := none, chunks := t.chunks.map fun c => blankChunk c.epoch }
        let s := dropIntake s n
        match t.by_ with
        | some a => complete s a stOk (imageBytes t)
        | none => s)

/-- Timers of a restored chunk start again from zero (R93). -/
def restoredChunk (s : State) (w : List W64) (c : Chunk) : Chunk :=
  let run := c.st == .filling && !c.bitA.isEmpty
  { c with timerAt := if run && tTimeout w != 0 then some (s.now + tTimeout w) else none, rounds := 0, retire := 0, resetAt := none,
           efAt := if run && tEarly w && !c.earlySent then some (s.now + 64 * tEfTimer w) else none }

/-- The epoch a restored till has not posted: the first that some chunk with something to deliver has not finished. -/
def restoredEpoch (t : Till) (cs : List Chunk) : W16 :=
  let next (c : Chunk) : W16 := if c.st = .done then c.epoch + 1 else c.epoch
  let live := ((List.range cs.length).zip cs).filter fun k => chunkActive t.words t.shard k.1
  match live.map fun k => next k.2 with
  | [] => t.epoch
  | x :: r => r.foldl (fun a e => if (e - a).toNat ≥ 32768 then e else a) x

/-- A chunk of an image whose build slots this X7 does not hold: a pass that has ended runs again, and what it counted with the mint is
undone (05 R151). -/
def withoutPass (c : Chunk) : Chunk := match c.prePart with
  | some p => if c.st = .minting then { c with part := p.1, receipt := p.2, prePart := none } else c
  | none => c

/-- Work of a restored till goes on: passes of its MINTING chunks that have not ended run again, and fused operands are read again. -/
def restartChunks (s : State) (n : Nat) : State :=
  match tillAt s n with
  | none => s
  | some t =>
    ((List.range t.chunks.length).filter fun k => (chunkOf t k).st == .minting).foldl (fun s k =>
      if tVault t.words then
        (if (chunkOf t k).part.latch.isSome || (chunkOf t k).part.caughtUp != 0 then s else pushPass s n t k)
      else if (chunkOf t k).fuseLeft ≠ 0 then fetchFuse s n k else s) s

/-- A till takes an image's epoch, counts, SUMMARY bits, excised slots and generations (R95); one whose own last save the image is has kept
them. The deadline of a tick-class epoch is set anew. -/
def takeLevel (t : Till) (img : TillImage) : Till :=
  let fresh (c : Counts) : Counts := { c with dueAt := none }
  if t.image = some img then t
  else { t with epoch := img.epoch.getD (restoredEpoch t img.chunks), cnt := fresh img.cnt, ahead := img.ahead.map fresh,
                sums := img.sums, excised := img.excised, gens := img.gens }

/-- The image takes the till's place and it is OPEN. -/
def loadImage (s : State) (n : Nat) (t : Till) (img : TillImage) (by_ : Option Accept) : State :=
  let cs := img.chunks.map fun c => restoredChunk s t.words (if t.image = some img then c else withoutPass c)
  let t := takeLevel t img
  let s := if t.staging = 0 then s else giveStaging s (tillQuota 2 t.words) t.staging
  let s := setTill s n { t with st := .open, chunks := cs, image := none, staging := 0, preempted := false,
                                loading := none }
  let s := restartChunks s n
  match by_ with
  | some a => complete s a stOk
  | none => s

def execRestoreLoaded (till : BitVec 12) (s : State) : Res :=
  let n := till.toNat
  .next (match tillAt s n with
    | none => s
    | some t =>
      match t.loading with
      | none => s
      | some (img, by_) =>
        if t.st = .saved ∧ t.slabs = [] ∧ slabNeed s n t.words t.shard ≠ [] then
          match grantTill s n t.words t.shard with
          | some (s, slabs) => loadImage s n { t with slabs := slabs } img by_
          | none => s
        else
          let s := dropIntake s n
          loadImage s n ((tillAt s n).getD t) img by_)

/-- A till saved by pre-emption is restored, lowest number first, once the free pool covers it (R88): one that the pool covers waits for a
lower one that it does not, and slabs that pre-emption frees for a tick-class till go to that till first (DESIGN CHOICE each, assumption log
54). -/
def execPreemptRestore (till : BitVec 12) (s : State) : Res :=
  let n := till.toNat
  .next (match tillAt s n with
    | none => s
    | some t =>
      let turn (e : Nat × Till) : Bool := e.2.st == .saved && e.2.preempted && e.2.loading.isNone
      let before := s.tills.any fun e => turn e && decide (e.1 < n)
      let waiting := s.tills.any fun e => e.2.st == .waitAdmit && e.2.preempts
      if !turn (n, t) || before || waiting || isEnding t then s
      else match t.image, grantTill s n t.words t.shard with
        | some img, some (s, slabs) =>
          let s := recordRaw s oDevice srcPool 0x19 (n + 32768) 0 t.epoch.toNat
          setTill s n { t with slabs := slabs, loading := some (img, none) }
        | _, _ => s)

end Sys2Proof.Machine
end

