-- ==== Sys2Proof/Machine/Engine.lean ====
section
/-! DEFINITION. Tile engines: update passes over a vault (04 R116-R131, 05 R149-R151), standalone runs (04 R128, R129), and the
chunks they finish (03 R76, 05 R151). -/

namespace Sys2Proof.Machine

/-! ### Time (R130, R126, 01 R18) -/

/-- ACLK cycles of a pass of n elements (R130). -/
def passCost (im : List Byte) (n : Nat) : Nat :=
  sumNat ((List.range (ceilDiv n 4096)).map fun i => 8 * issueSlots im * ceilDiv (min 4096 (n - 4096 * i)) 128 + 12)

/-- FCLK cycle in which a pass of c ACLK cycles that starts now ends. -/
def passEnd (s : State) (tile : Nat) (tick : Bool) (c : Nat) : Nat :=
  let a := aclkAt s.now / 2
  2 * (if tick then a + c else bulkEnd (throttleOf s tile) a c)

/-- The bulk context stops while a tick-class pass runs. -/
def delayBulk (s : State) (tile n : Nat) : State :=
  let key := ctxKey tile false
  let c := ctxAt s key
  let f := throttleOf s tile
  let a := aclkAt s.now
  match c.running with
  | some r => setCtx s key { c with running := some { r with endsAt := stretch f f r.endsAt a (a + n) } }
  | none => s

/-- A reading changes the throttle of a die from f to f': each bulk pass that runs there meets the new one from this cycle on, or
from the end of a tick-class pass it waits for. -/
def rethrottle (s : State) (die f f' : Nat) : State :=
  let resume (key : Nat) : Nat := match (ctxAt s (key + 1)).running with
    | some r => max (aclkAt s.now) r.endsAt
    | none => aclkAt s.now
  let one (key : Nat) (c : Ctx) : Ctx := match c.running with
    | some r => if key % 2 = 0 ∧ key / 4096 = die ∧ r.endsAt > s.now then
        { c with running := some { r with endsAt := stretch f f' r.endsAt (resume key) (resume key) } }
      else c
    | none => c
  if f = f' then s else { s with ctxs := canonMap {} (s.ctxs.map fun e => (e.1, one e.1 e.2)) }

/-! ### Order (R126, R149) -/

/-- The order of ready passes: passes of tills by the ACLK cycle of their readiness, TILL and chunk; then runs as accepted. -/
def passBefore (a b : Pass) : Bool :=
  match a.run, b.run with
  | none, some _ => true
  | some _, _ => false
  | none, none => decide (a.readyAt < b.readyAt) || (a.readyAt == b.readyAt && (decide (a.till < b.till) ||
      (a.till == b.till && decide (a.chunk < b.chunk))))

def insertPass (p : Pass) : List Pass → List Pass
  | [] => [p]
  | x :: r => if passBefore p x then p :: x :: r else x :: insertPass p r

def ordered (l : List Pass) : List Pass := l.foldl (fun l p => insertPass p l) []

/-- The version a chunk's pass builds. -/
def passVersion (t : Till) (k : Nat) : W16 := versionOf t (chunkOf t k).epoch

/-- The conditions of R149 hold, and no gather runs (R157). -/
def versionReady (s : State) (t : Till) (k : Nat) : Bool :=
  match regionAt s (tRegion t.words) with
  | none => false
  | some r => r.current + 1 == passVersion t k && !r.prevHeld && r.param.isSome && r.gathers == 0

/-- A pass may be taken: its till is OPEN, its tile is neither halted nor unavailable, and it has been ready for an ACLK cycle. -/
def passLive (s : State) (tile : Nat) (p : Pass) : Bool :=
  !haltedTile s tile && !tileDown s tile && decide (s.now ≥ aclkAt p.readyAt + 2) && match p.run with
    | some _ => true
    | none => match tillAt s p.till with
      | some t => isOpenTill t && !drainedTill s t
      | none => false

/-- A pass whose turn has come and whose version conditions fail is passed over. -/
def passOver (s : State) (key : Nat) (p : Pass) : State :=
  let c := ctxAt s key
  let mark (x : Pass) : Pass := if x = p ∧ x.passedAt = none then { x with passedAt := some s.now } else x
  setCtx s key { c with ready := c.ready.map mark }

/-! ### Start of an update pass (R124, R150) -/

/-- What the mint makes of chunk k, as fed to the CHUNK stream. -/
def chunkMint (t : Till) (k : Nat) : OutChunk :=
  mintRoot t.words t.scales (fuseSlice t k) k (chunkAccs t.words k (chunkOf t k).acc)

/-- The mint's counts and symbols enter the chunk, with what its pass counted. -/
def mintedChunk (c : Chunk) (o : OutChunk) (p : Part) : Chunk :=
  { c with prePart := some (c.part, c.receipt), part := joinPart [] (joinPart [] c.part o.part) p, receipt := receipt c.receipt o.syms }

/-- A published chunk leaves as RESULT frames to PUB_GROUP (R121). -/
def publishChunk (s : State) (n k : Nat) (t : Till) (r : Region) (bytes : List Byte) (ready : Nat → Nat) : State :=
  if !rPubEn r.words then s
  else
    let f := rPubFmt r.words
    let blocks := (List.range (rChunkLen r.words k)).map fun i => (blockAt f (tBlk t.words) bytes i, ([] : List Nat))
    sendResults s n t k (chunkOf t k).epoch f (rPubGroup r.words) false false blocks ready

/-- Catch-up: the version is already stored; its published output is sent again (R150). -/
def catchUp (s : State) (n k : Nat) (t : Till) (r : Region) (u : W16) : State :=
  let v := r.chunks.getD k {}
  let s := publishChunk s n k t r (if u.toNat % 2 = 0 then v.pub0 else v.pub1) fun _ => freeDelay s
  modChunk s n k fun c => mintedChunk c (chunkMint t k) { caughtUp := 1 }

/-- The operands of a chunk slot that a pass reads, each under R144; the command's operand speaks of the first. -/
def readOpnds (s : State) (n chunk : Nat) (l : List Nat) (chk : ReadCheck) : State × Bool × Nat :=
  ((List.range l.length).zip l).foldl (fun x o =>
    let q := detect x.1 n (3 + o.2) chunk 1 (if o.1 = 0 then chk else .first)
    (q.1, x.2.1 && q.2.1, x.2.2 + q.2.2)) (s, true, 0)

/-- Bytes that a pass of n elements moves over FABRIC streams of a direction. -/
def fabricBytes (im : List Byte) (n : Nat) (write : Bool) : Nat :=
  sumNat (((streamsOf im 3).filter fun x => sWrite x == write).map fun x => n * (fmtBits (sFmt x) / 8))

/-! ### FABRIC streams (R119) -/

/-- A running pass with FABRIC streams: its image, elements and cost in ACLK cycles. -/
def streaming (s : State) (c : Ctx) : Option (Running × List Byte × Nat × Nat) :=
  c.running.bind fun r => (tillAt s r.pass.till).bind fun t =>
    let im := tillImage s t.words
    let n := validFrom t.words (chunkFirst t.words r.pass.chunk) (chunkLen t.words r.pass.chunk)
    if r.pass.run.isSome || !tVault t.words || (streamsOf im 3).isEmpty then none else some (r, im, n, passCost im n)

/-- ACLK cycles for which a bulk pass of a cost has issued: those it still takes are counted from now, or from the end of a tick-class pass
that holds the slots. -/
def issuedSlots (s : State) (key : Nat) (r : Running) (cost : Nat) : Option Nat :=
  let f := throttleOf s (key / 2)
  let a := match (ctxAt s (key + 1)).running with
    | some x => max (s.now / 2) (x.endsAt / 2)
    | none => s.now / 2
  let left := if f = 0 then r.endsAt / 2 - a else bulkSlots f (r.endsAt / 2) - bulkSlots f a
  if left ≤ cost then some (cost - left) else none

/-- Groups of 128 elements that have issued whole after x cycles of a pass of n elements and P issue slots (R130). -/
def groupsIssued (P n x : Nat) : Nat := min (ceilDiv n 128) (32 * (x / (256 * P + 12)) + min 32 (x % (256 * P + 12) / (8 * P)))

/-- A group begins after x cycles. -/
def groupStarts (P n x : Nat) : Bool :=
  x % (256 * P + 12) % (8 * P) == 0 && decide (x % (256 * P + 12) < 256 * P) && decide (128 * groupsIssued P n x < n)

/-- The pass stalls at the start of a group whose data has not all arrived, or for which its write buffer of two groups has no room
(DEDUCED, assumption log 54: the first two groups are there as the pass begins, since R131 has no stall for them). -/
def groupWaits (im : List Byte) (n : Nat) (r : Running) (g : Nat) : Bool :=
  decide (r.got < min (fabricBytes im n false) (fabricBytes im 128 false * (g + 1))) ||
    decide (r.put + 2 * fabricBytes im 128 true < fabricBytes im 128 true * (g + 1))

/-- A context loses an ACLK cycle where its pass has to stall. -/
def streamStall (s : State) (e : Nat × Ctx) : State :=
  match streaming s e.2 with
  | none => s
  | some (r, im, n, cost) =>
    match issuedSlots s e.1 r cost with
    | none => s
    | some x =>
      let f := throttleOf s (e.1 / 2)
      let g := groupsIssued (issueSlots im) n x
      if (ctxAt s (e.1 + 1)).running.isSome || !groupStarts (issueSlots im) n x || !groupWaits im n r g then s
      else setCtx s e.1 { e.2 with running := some { r with endsAt := stretch f f r.endsAt s.now (s.now + 2) } }

/-- Bytes that a context reads and writes in an ACLK cycle if the controllers serve it: 32 each way (Table 4.1), up to two groups ahead of its
LD, and what its STs have left in the buffer. -/
def streamNeed (s : State) (e : Nat × Ctx) : Nat × Nat :=
  let old := sumNat (e.2.writing.map fun x => x.2.2)
  match streaming s e.2 with
  | none => (0, min 32 old)
  | some (r, im, n, cost) =>
    let g := groupsIssued (issueSlots im) n ((issuedSlots s e.1 r cost).getD 0)
    (min 32 (min (fabricBytes im n false) (fabricBytes im 128 false * (g + 3)) - r.got),
     min 32 (old + (min (fabricBytes im n true) (fabricBytes im 128 true * g) - r.put)))

/-- Bytes handed over from a list of writes, the oldest first, and what is left of them. -/
def handOver : Nat → List (Nat × Nat × Nat) → Nat × List (Nat × Nat × Nat)
  | b, [] => (b, [])
  | b, x :: l => if x.2.2 ≤ b then handOver (b - x.2.2) l else (0, (x.1, x.2.1, x.2.2 - b) :: l)

/-- A context's bytes are moved: r read and w written. -/
def streamMove (s : State) (key r w : Nat) : State :=
  let c := ctxAt s key
  let (w, l) := handOver w c.writing
  setCtx s key { c with writing := l, running := c.running.map fun x => { x with got := x.got + r, put := x.put + w } }

/-- The controllers of a die serve the tiles one after another, from the one after that served last, until they have moved the 8,192 bytes
of an ACLK cycle; a write into a mirrored region is moved twice (R119, 05 R158). -/
def streamServe : State → Nat → Nat → List (Nat × Ctx) → State
  | s, _, _, [] => s
  | s, die, budget, e :: l =>
    let q := streamNeed s e
    let twice := match e.2.running.bind fun r => (tillAt s r.pass.till).bind fun t => regionAt s (tRegion t.words) with
      | some r => rMirror r.words
      | none => false
    let r := min q.1 budget
    let w := min q.2 ((budget - r) / (if twice then 2 else 1))
    if r + w = 0 then streamServe s die budget l
    else
      let s := streamMove s e.1 r w
      streamServe { s with hbm := { s.hbm with served := s.hbm.served.set die e.1 } } die (budget - r - (if twice then 2 * w else w)) l

/-- An ACLK cycle of the FABRIC streams. -/
def streamCycle (s : State) : State :=
  let busy (e : Nat × Ctx) : Bool := e.1 % 2 == 0 && (e.2.running.isSome || !e.2.writing.isEmpty)
  if s.now % 2 ≠ 0 ∨ !(s.ctxs.any busy) then s
  else
    let s := (s.ctxs.filter busy).foldl streamStall s
    [0, 1].foldl (fun s die =>
      let l := s.ctxs.filter fun e => busy e && e.1 / 4096 == die
      let last := nth s.hbm.served die
      streamServe s die 8192 ((l.filter fun e => decide (e.1 > last)) ++ l.filter fun e => decide (e.1 ≤ last))) s

/-! ### Start of a pass -/

/-- A ready update pass whose conditions hold is taken: it runs, is caught up, or ends the epoch (R150). -/
def startUpdate (s : State) (key : Nat) (p : Pass) (chk : ReadCheck) : State :=
  match tillAt s p.till with
  | none => s
  | some t =>
    match regionAt s (tRegion t.words) with
    | none => s
    | some r =>
      let tile := key / 2
      let tick := key % 2 == 1
      let u := passVersion t p.chunk
      let im := tillImage s t.words
      let c := ctxAt s key
      let s := setCtx s key { c with ready := c.ready.filter fun x => x != p }
      let s := passWaited s (tJob t.words) p
      let stored := (r.chunks.getD p.chunk {}).stored
      if stored = u then catchUp s p.till p.chunk t r u
      else if stored + 1 ≠ u then endTill s p.till stStale (chunkOf t p.chunk).epoch
      else
        let fabric := streamsOf im 3
        let opnds := (fabric.filter fun x => !sWrite x).map sOpnd
        let (s, good, extra) := readOpnds s (tRegion t.words) p.chunk opnds chk
        let (s, goes, stall) := readProgram s tile
        if !good then endTill s p.till stDetect (chunkOf t p.chunk).epoch
        else if !goes then s
        else
          let n := validFrom t.words (chunkFirst t.words p.chunk) (chunkLen t.words p.chunk)
          let cost := passCost im n
          let s := if tick then delayBulk s tile (2 * cost) else s
          let run : Running := { pass := p, started := s.now, endsAt := passEnd s tile tick cost + extra + stall, version := u,
                                 got := fabricBytes im (min n 256) false }
          setCtx s key { ctxAt s key with running := some run }

/-- A pass of a till is passed over: the conditions of R149 do not hold for it now. -/
def mustWait (s : State) (p : Pass) : Bool := match p.run, tillAt s p.till with
  | none, some t => !versionReady s t p.chunk
  | _, _ => false

/-- A ready update pass comes to its turn: it starts when its version conditions hold, or it is passed over (R149). -/
def execUpdatePassStart (till : BitVec 12) (chunk : Nat) (s : State) : Res :=
  let n := till.toNat
  .next (match tillAt s n with
    | none => s
    | some t =>
      let tile := tileOf s n t.words chunk
      let key := ctxKey tile (tTick t.words)
      let c := ctxAt s key
      let l := (ordered c.ready).filter (passLive s tile)
      match l.find? (isPassOf n chunk) with
      | none => s
      | some p =>
        let turn := l.all fun x => x == p || !passBefore x p || mustWait s x
        let held := !tTick t.words && (ctxAt s (ctxKey tile true)).running.isSome
        if c.running.isSome || !turn || held then s
        else if versionReady s t chunk then startUpdate s key p .first
        else passOver s key p)

/-- A run's accesses to fabric memory: its pieces from a board address. -/
def runAccesses (r : RunReq) (addr len : Nat) (write : Bool) : List Access :=
  (pieces (round32 len)).map fun p =>
    { region := baRegion addr, off := baOff addr + p.1, len := p.2, job := r.job, write := write, release := false, version := 0 }

/-- Status of a command for the status of a memory access that failed (05 R135). -/
def accessFails (st : Nat) : Nat := if st = msDetect then stDetect else if st = msStale then stStale else stRefused

/-- The pass of a run begins once its window is filled; a tick-class pass under way goes first. -/
def beginRun (s : State) (tile : Nat) (r : RunReq) : State :=
  let key := ctxKey tile false
  let (s, _, stall) := readProgram s tile
  let c := ctxAt s key
  let im := ((progAt s r.slot).map (·.image)).getD []
  let a := match (ctxAt s (ctxKey tile true)).running with
    | some x => max s.now x.endsAt
    | none => s.now
  let run (p : Pass) : Running := { pass := { p with run := some r }, started := s.now,
                                    endsAt := passEnd { s with now := a } tile false (passCost im r.count) + stall }
  match c.running with
  | some x => setCtx s key { c with running := some (run x.pass) }
  | none => s

/-- A standalone run starts once the tile has room for its window, which it holds from then on (03 R84). Its input is then copied in: what it
carries at once, from fabric memory of this X7 under R144, from that of another X7 by MEM_RD (R128). -/
def startRun (s : State) (key : Nat) (p : Pass) (r : RunReq) (chk : ReadCheck) : State :=
  let tile := key / 2
  let c := ctxAt s key
  if r.window > scratchFree s tile then s
  else
    let run : Running := { pass := p, started := s.now, endsAt := s.now, loading := true }
    let s := setCtx (scratchTake s [(tile, r.window)]) key { c with ready := c.ready.filter fun x => x != p, running := some run }
    match r.src with
    | none => beginRun s tile r
    | some addr =>
      let n := r.data.length
      if baPos addr = ownPos s then
        let l := runAccesses r addr n false
        match (l.map (accessStatus s)).find? fun st => st != msOk with
        | some st => dropRun s tile r (accessFails st)
        | none =>
          let x := accessChecks s l chk
          if x.2.1 then beginRun x.1 tile { r with data := padTo n (l.map fun a => accessRead x.1 a).flatten }
          else dropRun x.1 tile r stDetect
      else
        let ps := pieces (round32 n)
        let (id, s) := takeFresh s
        let x : Xfer := { by_ := r.by_, hostAddr := 0, toHost := false, left := ps.length, status := stOk,
                          data := List.replicate (round32 n) 0, run := some (tile, r) }
        let s := { s with hbm := { s.hbm with xfers := oins s.hbm.xfers id x } }
        ps.foldl (fun s p => sendRequest s (.xfer id) p.1 (addr + p.1) p.2 r.job 3 none false) s

/-- The first pass of the order that may start; those ahead of it are passed over. -/
def startNext : List Pass → State → Nat → ReadCheck → State
  | [], s, _, _ => s
  | p :: l, s, key, chk =>
    match p.run with
    | some r => startRun s key p r chk
    | none =>
      match tillAt s p.till with
      | none => startNext l s key chk
      | some t => if versionReady s t p.chunk then startUpdate s key p chk else startNext l (passOver s key p) key chk

/-- A context that is free takes its next pass; the bulk context holds no issue slot while a tick-class pass runs (R126). -/
def execEnginePassStart (tile : BitVec 12) (tick : Bool) (chk : ReadCheck) (s : State) : Res :=
  let k := tile.toNat
  let key := ctxKey k tick
  let c := ctxAt s key
  .next (if c.running.isSome || (!tick && (ctxAt s (ctxKey k true)).running.isSome) then s
         else startNext ((ordered c.ready).filter (passLive s k)) s key chk)

/-! ### End of an update pass (R104-R121, R151) -/

/-- K0-K11 of a parameter block. -/
def paramWords (l : List Byte) : List W32 := (List.range 12).map fun i => BitVec.ofNat 32 (leAt l (4 * i) 4)

/-- Element e of a read stream of an update pass, widened. -/
def updateRead (t : Till) (v : VChunk) (im : List Byte) (encs : List Nat) (j e : Nat) : W32 :=
  let w := strmOf im j
  if sKind w = 1 then fWiden (tOut t.words) (nth encs e)
  else
    let size := fmtBits (sFmt w) / 8
    fWiden (sFmt w) (leAt (v.ops.getD (sOpnd w) []) (e * size) size)

/-- Bytes that a pass wrote to a stream. -/
def streamBytes (im : List Byte) (j : Nat) (p : PassSt) : List Byte :=
  let f := sFmt (strmOf im j)
  ((outsOf p j).map fun a => leBytes (fmtBits f / 8) (fNarrow f a)).flatten

/-- The build slot after a pass (R150): the operands the program writes. -/
def buildSlot (im : List Byte) (p : PassSt) : List (Option (List Byte)) :=
  (List.range 8).map fun o =>
    match (List.range 8).find? fun j => sKind (strmOf im j) == 3 && sWrite (strmOf im j) && sOpnd (strmOf im j) == o with
    | some j => some (streamBytes im j p)
    | none => none

/-- A published value on its way to the mint (R120). -/
def publishVal (a : W32) : Minted := { v := decodeElem 10 a.toNat, rank := none }

/-- The published bytes of a chunk, and what the mint counts: saturations, and elements that SAT_ERR makes NaN. -/
def publishOut (t : Till) (k : Nat) (im : List Byte) (p : PassSt) : List Byte × Part :=
  match (List.range 8).find? fun j => sKind (strmOf im j) == 4 with
  | none => ([], {})
  | some j =>
    let w := strmOf im j
    let vals := (outsOf p j).map publishVal
    let f := sFmt w
    let one (i : Nat) : OutBlk × Part :=
      let ms := (vals.drop (i * tElems t.words)).take (validFrom t.words (chunkFirst t.words k + i) 1)
      let o := finishBlock f (tSatErr t.words) (if sChosen w then none else some (sScale w)) (tElems t.words) ms
      let made := o.nans.filter fun x => match ms[x.2.2]? with
        | some m => m.v.cls != .nan
        | none => false
      (o, { sat := o.sat, nan := made.length, exc := nanPart ((chunkFirst t.words k + i) * tElems t.words) made })
    let bs := (List.range (chunkLen t.words k)).map one
    (packBlocks f (bs.map fun b => b.1.blk), bs.foldl (fun (q : Part) b => joinPart [] q b.2) {})

/-- An update pass has ended: its writes stand in the build slot and the bank, and its RESULT frames are queued. -/
def endUpdate (s : State) (n k : Nat) (run : Running) : State :=
  match tillAt s n with
  | none => s
  | some t =>
    match regionAt s (tRegion t.words) with
    | none => s
    | some r =>
      let im := tillImage s t.words
      let v := r.chunks.getD k {}
      let o := chunkMint t k
      let encs := (o.blocks.map fun b => b.1.encs).flatten
      let base := chunkFirst t.words k * tElems t.words
      let cnt := validFrom t.words (chunkFirst t.words k) (chunkLen t.words k)
      let x : PassIn := { image := im, k := paramWords (r.param.getD []), base := base }
      let p := runPass x (fun _ => updateRead t v im encs) cnt
      let (bytes, pub) := publishOut t k im p
      let v := { v with build := buildSlot im p }
      let v := if !rPubEn r.words then v else if run.version.toNat % 2 = 0 then { v with pub0 := bytes } else { v with pub1 := bytes }
      let r := { r with chunks := r.chunks.set k v }
      let s := setRegion s (tRegion t.words) r
      let q : Part := { pub with engInvalid := p.invalid, engIndex := p.index, latch := some p.latch }
      let s := modChunk s n k fun c => mintedChunk c o q
      let c := chunkOf t k
      let path (i : Nat) : Nat := max (s.now + 2) (turnaround s c.completeAt (run.endsAt - run.started + c.idle) bytes.length i)
      publishChunk s n k t r bytes path

/-- A context whose pass has ended: what its FABRIC write streams still buffer goes on to the controllers (R119, R124). -/
def endedCtx (s : State) (c : Ctx) (r : Running) : Ctx :=
  match tillAt s r.pass.till with
  | none => { c with running := none }
  | some t =>
    let k := r.pass.chunk
    let n := validFrom t.words (chunkFirst t.words k) (chunkLen t.words k)
    let left := fabricBytes (tillImage s t.words) n true - r.put
    { c with running := none, writing := if left = 0 then c.writing else c.writing ++ [(r.pass.till, k, left)] }

/-- A pass of a context ends. -/
def execEnginePassEnd (tile : BitVec 12) (tick : Bool) (s : State) : Res :=
  let key := ctxKey tile.toNat tick
  let c := ctxAt s key
  .next (match c.running with
    | none => s
    | some r =>
      if r.pass.run.isSome || s.now < r.endsAt || haltedTile s tile.toNat then s
      else endUpdate (setCtx s key (endedCtx s c r)) r.pass.till r.pass.chunk r)

/-! ### Chunks DONE (03 R76, R100; 05 R124, R151) -/

/-- A completion with another status, unless it has gone wrong already. -/
def withStatus (c : Cpl) (st : Nat) : Cpl :=
  let one (e : List W64) : List W64 := match e with
    | x :: r => ((x &&& ~~~(BitVec.ofNat 64 (0xFF * 2 ^ 48))) ||| BitVec.ofNat 64 (st * 2 ^ 48)) :: r
    | [] => []
  { c with entries := c.entries.map one, quiet := false }

/-- Copies of an operand of a region that still run end with STALE_VERSION: a chunk has moved on (05 R157). -/
def spoilGathers (s : State) (n : Nat) : State :=
  let one (c : Cpl) : Cpl := if c.after.contains (.operand n) && !c.waits.isEmpty then withStatus c stStale else c
  { s with host := { s.host with ready := s.host.ready.map one } }

/-- The build slot becomes the chunk slot, with the version built. -/
def keepBuild (s : State) (t : Till) (k : Nat) : State :=
  match regionAt s (tRegion t.words) with
  | none => s
  | some r =>
    let v := r.chunks.getD k {}
    let ops := (List.range 8).map fun o => ((v.build.getD o none).getD (v.ops.getD o []))
    let v := { v with ops := ops, build := [], stored := passVersion t k }
    spoilGathers (setRegion s (tRegion t.words) { r with chunks := r.chunks.set k v }) (tRegion t.words)

/-- What a MINTING chunk waits for has happened: its operand is read, its pass has ended and its frames have left. -/
def chunkLeft (s : State) (n : Nat) (t : Till) (k : Nat) : Bool :=
  let c := chunkOf t k
  c.st == .minting && c.fuseLeft == 0 && !c.toMint && !inFlight s (isChunkFrame n t k c.epoch) &&
    (!tVault t.words || c.part.latch.isSome || decide (c.part.caughtUp > 0)) &&
    !(ctxAt s (ctxKey (tileOf s n t.words k) false)).writing.any fun x => x.1 == n && x.2.1 == k

def execChunkDone (till : BitVec 12) (chunk : Nat) (mismatch : Bool) (s : State) : Res :=
  let n := till.toNat
  .next (match tillAt s n with
    | none => s
    | some t =>
      if !isOpenTill t || chunk ≥ t.chunks.length || (chunkOf t chunk).st != .minting || (chunkOf t chunk).resetAt.isSome then s
      else if mismatch then storeMismatch s n chunk
      else if !chunkLeft s n t chunk then s
      else
        let s := if tVault t.words && (chunkOf t chunk).part.latch.isSome then keepBuild s t chunk else s
        settleTill (modChunk s n chunk fun c => { c with st := .done }) n)

/-! ### Standalone runs (R128, R129) -/

/-- Bytes of an element of a stream. -/
def streamSize (w : W64) : Nat := fmtBits (sFmt w) / 8

/-- A stream of a run lies in its window (R118). -/
def streamFits (window count : Nat) (w : W64) : Bool := decide (32 * sLine w + count * streamSize w ≤ window)

/-- A board address that a run may use. -/
def runAddrOk (s : State) (a : W64) : Bool := boardOk s a.toNat && a.toNat % 32 == 0

/-- The parameters of a run keep R129. -/
def runOk (s : State) (d : Desc) : Bool :=
  let tile := fld d.d1 19 8
  let count := fld d.d1 32 20
  match progAt s (fld d.d1 7 0) with
  | none => false
  | some p =>
    let im := p.image
    let window := 1024 * pgScr im
    let inB := fld d.d6 16 0
    let outB := fld d.d6 33 17
    pgKind im == 0 && decide (tile < logicalTiles s) && !tileDown s tile && decide (1 ≤ count) && decide (count ≤ 4096) &&
      (streamsOf im 2).all (streamFits window count) && decide (inB ≤ window) &&
      decide (32 * fld d.d1 45 35 + outB ≤ window) && decide (window ≤ scratchFree s tile) &&
      (!bit d.d1.toNat 33 || runAddrOk s d.d4) && (!bit d.d1.toNat 34 || runAddrOk s d.d5)

/-- A run becomes ready in the bulk context of its tile. -/
def pushRun (s : State) (tile : Nat) (r : RunReq) : State :=
  let key := ctxKey tile false
  let c := ctxAt s key
  setCtx s key { c with ready := c.ready ++ [{ till := 0, chunk := 0, readyAt := s.now, run := some r }] }

/-- What a run's completion carries of its pass; its lowest index is 0 where nothing was counted (DESIGN CHOICE, assumption log 54). -/
def passResult (p : PassSt) : Option (Nat × Nat × List W32) := some (p.invalid, p.index.getD 0, p.latch)

def execProgRun (ring : BitVec 6) (d : Desc) (params data : List Byte) (s : State) : Res :=
  let slot := fld d.d1 7 0
  .next (accept s ring d 0x22 none slot (cringOf d.d0) fun a s =>
    if !runOk s d then completeRun s a stRefused
    else
      let tile := fld d.d1 19 8
      let im := ((progAt s slot).map (·.image)).getD []
      let inB := fld d.d6 16 0
      let r : RunReq := {
        by_ := a, slot := slot, count := fld d.d1 32 20, idxBase := BitVec.ofNat 32 (fld d.d2 31 0), params := params,
        data := padTo inB data, outDst := bit d.d1.toNat 34, outAddr := d.d5.toNat, outLine := fld d.d1 45 35,
        outBytes := fld d.d6 33 17, job := fld d.d6 41 34, window := 1024 * pgScr im,
        src := if bit d.d1.toNat 33 && inB != 0 then some d.d4.toNat else none }
      pushRun s tile r)

/-- A store of a run applied to its window: the bytes and how many elements each stream has stored. -/
def runStore (im : List Byte) (st : List Byte × List Nat) (o : Nat × W32) : List Byte × List Nat :=
  let w := strmOf im o.1
  let size := streamSize w
  let at_ := 32 * sLine w + nth st.2 o.1 * size
  (st.1.take at_ ++ leBytes size (fNarrow (sFmt w) o.2) ++ st.1.drop (at_ + size), addAt st.2 o.1 1)

/-- The window after a run's stores, newest first in `outs`. -/
def runWindow (im data : List Byte) (outs : List (Nat × W32)) : List Byte :=
  (outs.reverse.foldl (runStore im) (data, List.replicate 8 0)).1

/-- Element e of a SCRATCH stream. -/
def runRead (im data : List Byte) (outs : List (Nat × W32)) (j e : Nat) : W32 :=
  let w := strmOf im j
  fWiden (sFmt w) (leAt (runWindow im data outs) (32 * sLine w + e * streamSize w) (streamSize w))

/-- The pass of a run. -/
def runResult (im : List Byte) (r : RunReq) : PassSt :=
  let x : PassIn := { image := im, k := paramWords r.params, base := r.idxBase.toNat }
  runPass x (runRead im (padTo r.window r.data)) r.count

/-- A run's output is written to fabric memory: here at once, at another X7 by MEM_WR; then it completes. -/
def runOut (s : State) (tile : Nat) (r : RunReq) (status : Nat) (p : PassSt) (data : List Byte) : State :=
  let ps := pieces (round32 r.outBytes)
  if baPos r.outAddr = ownPos s then
    match ((runAccesses r r.outAddr r.outBytes true).map (accessStatus s)).find? fun st => st != msOk with
    | some st => finishRun s tile r (accessFails st) none []
    | none => finishRun (accessWrite s (baRegion r.outAddr) (baOff r.outAddr) (data.take r.outBytes)) tile r status (passResult p) []
  else
    let (id, s) := takeFresh s
    let x : Xfer := { by_ := r.by_, hostAddr := 0, toHost := false, left := ps.length, status := status, data := [],
                      run := some (tile, r), result := passResult p }
    let s := { s with hbm := { s.hbm with xfers := oins s.hbm.xfers id x } }
    ps.foldl (fun s q =>
      sendRequest s (.xfer id) q.1 (r.outAddr + q.1) q.2 r.job 3 (some (padTo q.2 (data.drop q.1))) false) s

/-- A standalone run ends. `detectFail`: a scratchpad line failed both reads. -/
def execProgRunEnd (tile : BitVec 12) (detectFail : Bool) (s : State) : Res :=
  let k := tile.toNat
  let key := ctxKey k false
  let c := ctxAt s key
  .next (match c.running with
    | none => s
    | some run =>
      match run.pass.run with
      | none => s
      | some r =>
        if s.now < run.endsAt || run.loading || haltedTile s k then s
        else
          let s := setCtx s key { c with running := none }
          if detectFail then finishRun (retireLine s k) k r stDetect none []
          else
            let s := if s.faults.lines.contains k then
                rereadLine { s with faults := { s.faults with lines := s.faults.lines.erase k } } k
              else s
            let im := ((progAt s r.slot).map (·.image)).getD []
            let p := runResult im r
            let status := if p.invalid > 0 then stInvalid else stOk
            let window := runWindow im (padTo r.window r.data) p.outs
            let data := slice window (32 * r.outLine) (round32 r.outBytes)
            if r.outBytes = 0 then finishRun s k r status (passResult p) []
            else if r.outDst then runOut s k r status p data
            else
              let (id, s) := hostWrite s r.outAddr (data.take r.outBytes) (.copy r.by_.ring (tagOf r.by_.d0))
              finishRun s k r status (passResult p) [id])

end Sys2Proof.Machine
end

