-- ==== Sys2Proof/Machine/Memory.lean ====
section
/-! DEFINITION. Fabric memory: regions, copies and gathers by command, memory frames and their requests, versions, parameter blocks,
and the stacks (05 R132-R159, R163; 13 Table 13.9). -/

namespace Sys2Proof.Machine

/-! ### Pages (R137, R138, R146, R159) -/

/-- Pages of a stack of 80 GiB, without the 256 MiB kept for the X7's own tables (Table 5.9). -/
def stackPages : Nat := 40960 - 128

/-- Ready stacks. -/
def readyStacks (s : State) : List Nat := (List.range 4).filter fun k => hasStack s k && (s.hbm.stackOf.getD k {}).trained

/-- Free pages of a stack: not of regions or staging buffers. -/
def freePages (s : State) (k : Nat) : Nat :=
  let st := s.hbm.stackOf.getD k {}
  if !hasStack s k || st.failed then 0
  else
    let used := sumNat (s.hbm.regions.map fun e => nth (regionPages s e.2.words) k)
    stackPages - used - nth s.pools.stagingOn k

/-! ### REGION_OPEN and REGION_CLOSE (R136, R137) -/

/-- Reserved bits are 0. -/
def rReservedOk (w : List W64) : Bool :=
  wf w 0 36 0 == 0 && wf w 2 9 0 == 0 && wf w 3 23 0 == 0 && wf w 4 9 0 == 0 && wf w 5 8 0 == 0 &&
    [8, 9, 10, 11, 12, 13, 14, 15].all fun i => wf w i 63 0 == 0

/-- A code allowed for PUBLISH (04 Table 4.8). -/
def pubFormat (f : Nat) : Bool := isScaled f || isFloat f

/-- The fields of a vault. -/
def rVaultOk (s : State) (w : List W64) : Bool :=
  rStacks w == 0 && rBytes w == 0 && hasVault s && decide (1 ≤ rChunkBlocks w) && decide (rChunkBlocks w ≤ 256) &&
    decide (1 ≤ rElements w) && ((List.range 8).all fun k => rOpnd w k == 0 || isFloat (rOpnd w k)) &&
    ((List.range 8).any fun k => rOpnd w k != 0) && (!rPubEn w || pubFormat (rPubFmt w)) &&
    decide (rSpares w 0 ≤ 2048) && decide (rSpares w 1 ≤ 2048) && decide (1 ≤ rParamCount w) && decide (1 ≤ rHolders w) &&
    decide (rHolders w ≤ 16384) && hostAddrOk (w.getD 7 0) 64 && (!rMirror w || (hasStack s 2 && hasStack s 3))

/-- The fields of a plain region. -/
def rPlainOk (s : State) (w : List W64) : Bool :=
  let st := rStacks w
  rBytes w != 0 && rBytes w % pageSize == 0 && decide (rBytes w ≤ 2 ^ 39) && st != 0 &&
    ((List.range 4).all fun k => !bit st k || (hasStack s k && !(s.hbm.stackOf.getD k {}).failed)) &&
    (!rMirror w || (bit st 0 == bit st 2 && bit st 1 == bit st 3))

/-- REGION_OPEN may create the region (R137). -/
def regionOk (s : State) (w : List W64) : Bool :=
  !isN s && rReservedOk w && decide (wf w 0 43 42 ≤ 1) && hostAddrOk (w.getD 6 0) 64 && (regionAt s (rNum w)).isNone &&
    (if rVault w then rVaultOk s w else rPlainOk s w) &&
    (List.range 4).all fun k => decide (nth (regionPages s w) k ≤ freePages s k)

/-- Bytes before operand j in the initial contents: operands in order, each of ELEMENTS elements. -/
def initOpnd (w : List W64) (j : Nat) : Nat := sumNat ((List.range j).map fun i => if rOpnd w i = 0 then 0 else rElements w * fmtBits (rOpnd w i) / 8)

/-- The chunks of a vault from its initial contents. -/
def initChunks (w : List W64) (init : List Byte) : List VChunk :=
  let first (k : Nat) : Nat := k * rChunkBlocks w * blockElems (rBlk w)
  let pubAt (k : Nat) : Nat := sumNat ((List.range k).map (pubBytes w))
  (List.range (rChunks w)).map fun k =>
    let ops := (List.range 8).map fun j => slice init (initOpnd w j + first k * fmtBits (rOpnd w j) / 8) (opndBytes w j k)
    let pub := slice init (initOpnd w 8 + pubAt k) (pubBytes w k)
    let even := (rVersion0 w).toNat % 2 == 0
    { stored := rVersion0 w, ops := ops, pub0 := if even then pub else [], pub1 := if even then [] else pub }

/-- Host address of the parameter block for version u (R153). -/
def paramAddr (w : List W64) (u : W16) : Nat := (w.getD 7 0).toNat + 64 * (u.toNat % rParamCount w)

/-- The descriptor's sixteen words. -/
def regionWords (l : List W64) : List W64 := (l ++ List.replicate 16 0).take 16

def execRegionOpen (ring : BitVec 6) (d : Desc) (words : List W64) (init : List Byte) (param : Option (List Byte)) (s : State) : Res :=
  let w := regionWords words
  let n := rNum w
  .next (accept s ring d 0x28 (some (regJob w)) n (cringOf d.d0) fun a s =>
    if !regionOk s w then complete s a stRefused
    else
      let zero := (w.getD 6 0) == 0
      let s := record s oHost a.ring 0x15 false n [] (sha512Bytes (bytesOf w))
      let wait := awaitsStack s w
      let r : Region := {
        words := w, current := if rVault w then rVersion0 w else 0, chunks := if rVault w then initChunks w (if zero then [] else init) else [],
        param := if rVault w then param.map (padTo 64) else none, paramTries := if rVault w && param.isNone then 1 else 0,
        paramAt := s.now, paramFrom := if rVault w then paramAddr w (rVersion0 w + 1) else 0, waiting := if wait then some a else none }
      let s := setRegion s n r
      let s := if rVault w || zero then s else accessWrite s n 0 (padTo (rBytes w) init)
      let s := if rVault w && param.isNone then setCause s srcHost hbDmaRead 0 else s
      if wait then s else complete s a stOk)

/-- The region's bytes and its number are free again. -/
def dropRegion (s : State) (n : Nat) : State :=
  { s with hbm := { s.hbm with regions := odel s.hbm.regions n, mem := s.hbm.mem.filter fun e => e.1 / 2 ^ 39 != n } }

def execRegionClose (ring : BitVec 6) (d : Desc) (s : State) : Res :=
  let n := objOf d
  .next (accept s ring d 0x29 ((regionAt s n).map fun r => regJob r.words) n (cringOf d.d0) fun a s =>
    match regionAt s n with
    | none => complete s a stRefused
    | some r =>
      if (boundTill s n).isSome || r.transfers != 0 || r.gathers != 0 || r.waiting.isSome || s.hbm.writing.any (fun j => j.region == n) then
        complete s a stRefused
      else
        let s := record s oHost a.ring 0x15 false n (sha512Bytes (bytesOf r.words)) []
        complete (dropRegion s n) a stOk)

/-! ### MEM_CONFIG (R159) -/

/-- n buffers spread evenly over some stacks, what is left over on the lower-numbered (R159). -/
def spread (n : Nat) (on : List Nat) : List Nat :=
  (List.range 4).map fun k =>
    match (List.range on.length).find? fun i => nth on i == k with
    | some i => n / on.length + b2n (decide (i < n % on.length))
    | none => 0

def execMemConfig (ring : BitVec 6) (d : Desc) (s : State) : Res :=
  .next (accept s ring d 0x2B none 0 (cringOf d.d0) fun a s =>
    let n := fld d.d1 15 0
    if isN s || !s.hbm.regions.isEmpty || s.pools.stagingUsed != 0 then complete s a stRefused
    else
      let s := recordRaw s oHost a.ring 0x15 0xFFFF s.pools.staging n
      complete { s with pools := { s.pools with staging := n, stagingOn := spread n (readyStacks s) } } a stOk)

/-! ### MEM_COPY (R134, R135) -/

/-- Status of a command's access to this X7's memory: a vault version that is not held cannot wait here. -/
def localStatus (s : State) (a : Access) : Nat :=
  let st := accessStatus s a
  if st ≠ msOk then st
  else match regionAt s a.region with
    | some r => if rVault r.words && !a.write && !versionHeld r a.version then msStale else msOk
    | none => msProtected

/-- A copy out of a region has begun: one more transfer or gather until its completion is posted. -/
def copyBegun (s : State) (n : Nat) (gather : Bool) : State :=
  match regionAt s n with
  | none => s
  | some r => setRegion s n (if gather then { r with gathers := r.gathers + 1 } else { r with transfers := r.transfers + 1 })

/-- Bytes from the east die's stacks of places of a space of a region, and the first such place: the host interface is on the west die. -/
def eastBytes (s : State) (r : Region) (space : Nat) (places : List Nat) (size : Nat → Nat) : Nat × Nat :=
  let l := places.filter fun i => readStack s r space i % 2 == 1
  (sumNat (l.map size), l.headD 0)

/-- Bytes of a region go to host memory, and the command completes after GO; `east` of them cross the bridge, from a place of a space on (01
R14; class 3, as the memory frames of 05 R135: DESIGN CHOICE, assumption log 56). -/
def copyRegion (s : State) (a : Accept) (n addr : Nat) (data : List Byte) (gather : Bool) (space : Nat) (east : Nat × Nat)
    (more : List After := []) : State :=
  let s := copyBegun s n gather
  let (id, s) := hostWrite s addr data (.copy a.ring (tagOf a.d0))
  let s := addCrossing s { what := .toHost id n space east.2, die := 0, cls := 3, source := 16, rate := stackRate, left := east.1,
                           start := s.now }
  completeTo s (cringOf a.d0) a stOk 0 0 [id] (.copied n gather :: more)

/-- MEM_COPY within this X7. -/
def copyHere (s : State) (a : Accept) (addr host len job : Nat) (out : Bool) (data : List Byte) (chk : ReadCheck) : State :=
  let ps := pieces len
  let acc (p : Nat × Nat) : Access :=
    { region := baRegion addr, off := baOff addr + p.1, len := p.2, job := job, write := !out, release := false, version := 0 }
  match (ps.map fun p => localStatus s (acc p)).find? fun st => st != msOk with
  | some st => complete s a (accessFails st)
  | none =>
    match regionAt s (baRegion addr) with
    | none => complete s a stRefused
    | some r =>
      let space (p : Nat × Nat) : Nat := (accessPlaces r (acc p)).1
      let east := eastBytes s r ((ps.map space).headD 0) (ps.flatMap fun p => accessUnits r (acc p)) fun _ => 32
      if !out then
        let (id, s) := takeFresh s
        let s := addCrossing s { what := .fromHost id, die := 1, cls := 3, source := 16, rate := stackRate, left := east.1, start := s.now }
        complete (accessWrite s (baRegion addr) (baOff addr) (padTo len data)) a stOk
      else
        let got := (ps.map fun p => accessRead s (acc p)).flatten
        let x := accessChecks s (ps.map acc) chk
        if x.2.1 then copyRegion x.1 a (baRegion addr) host got false ((ps.map space).headD 0) east else complete x.1 a stDetect

def execMemCopy (ring : BitVec 6) (d : Desc) (data : List Byte) (chk : ReadCheck) (s : State) : Res :=
  let job := fld d.d4 39 32
  .next (accept s ring d 0x2A (some job) 0 (cringOf d.d0) fun a s =>
    let out := bit d.d1.toNat 0
    let addr := d.d3.toNat
    let len := fld d.d4 31 0
    if len = 0 ∨ len % 32 ≠ 0 ∨ addr % 32 ≠ 0 ∨ boardOk s addr = false then complete s a stRefused
    else if baPos addr = ownPos s then copyHere s a addr d.d2.toNat len job out data chk
    else
      let ps := pieces len
      let (id, s) := takeFresh s
      let x : Xfer := { by_ := a, hostAddr := d.d2.toNat, toHost := out, left := ps.length, status := stOk,
                        data := if out then List.replicate len 0 else [] }
      let s := { s with hbm := { s.hbm with xfers := oins s.hbm.xfers id x } }
      ps.foldl (fun s p =>
        sendRequest s (.xfer id) p.1 (addr + p.1) p.2 job 3 (if out then none else some (padTo p.2 (data.drop p.1))) false) s)

/-! ### VAULT_GATHER and VAULT_QUERY (R154, R157) -/

/-- One operand of a vault, its chunks' slots in order. -/
def gatherOpnd (r : Region) (j : Nat) : List Byte :=
  ((List.range (rChunks r.words)).map fun k => padTo (opndBytes r.words j k) ((r.chunks.getD k {}).ops.getD j [])).flatten

def execVaultGather (ring : BitVec 6) (d : Desc) (chk : ReadCheck) (s : State) : Res :=
  let n := objOf d
  .next (accept s ring d 0x2C ((regionAt s n).map fun r => regJob r.words) n (cringOf d.d0) fun a s =>
    match regionAt s n with
    | none => complete s a stRefused
    | some r =>
      let v := BitVec.ofNat 16 (fld d.d1 27 12)
      let what := fld d.d1 31 28
      let absent := what > 8 || (decide (what ≥ 1) && rOpnd r.words (what - 1) == 0)
      if isN s || !rVault r.words || r.waiting.isSome || absent then complete s a stRefused
      else
        let ok := if what = 0 then versionHeld r v else v == r.current && r.chunks.all fun c => c.stored == r.current
        if !ok then complete s a stStale
        else
          let data := if what = 0 then pubCopy r v else gatherOpnd r (what - 1)
          let (s, good, _) := if what = 0 then detect s n (1 + v.toNat % 2) 0 (ceilDiv data.length 32) chk
                              else detect s n (3 + (what - 1)) 0 (rChunks r.words) chk
          let space := if what = 0 then 1 + v.toNat % 2 else 3 + (what - 1)
          let east := if what = 0 then eastBytes s r space (List.range (ceilDiv data.length 32)) fun _ => 32
                      else eastBytes s r space (List.range (rChunks r.words)) (opndBytes r.words (what - 1))
          if good then copyRegion s a n d.d2.toNat data true space east (if what = 0 then [] else [.operand n]) else complete s a stDetect)

/-- The copy of VAULT_QUERY (13 Table 13.16). -/
def vaultState (r : Region) : List Byte :=
  let flags := b2n r.prevHeld + 2 * b2n r.split + 4 * b2n r.degraded
  let recs := r.records ++ List.replicate (16 - r.records.length) (List.replicate 64 0)
  leBytes 2 r.current.toNat ++ [BitVec.ofNat 8 flags, 0] ++ leBytes 2 (r.current - 1).toNat ++ leBytes 2 r.relPrev.length ++
    leBytes 2 r.relCur.length ++ leBytes 2 (rTill r.words) ++ leBytes 4 r.records.length ++ List.replicate 48 0 ++
    (recs.map (padTo 64)).flatten

def execVaultQuery (ring : BitVec 6) (d : Desc) (s : State) : Res :=
  let n := objOf d
  .next (accept s ring d 0x2D ((regionAt s n).map fun r => regJob r.words) n (cringOf d.d0) fun a s =>
    match regionAt s n with
    | none => complete s a stRefused
    | some r => if isN s || !rVault r.words then complete s a stRefused else copyOut s a d.d2.toNat (vaultState r))

/-! ### Memory frames (R139-R142, R155, R156) -/

/-- A MEM_RD with REL = 1. -/
def isRelease (f : Frame) : Bool := bit (headerOf f.hdr).aux.toNat 9

/-- A MEM_RD is accepted 44 cycles after its header began to arrive, and after every MEM_WR of its source, region and class received
before it (R141, R156). -/
def readTurn (s : State) (f : Frame) : Bool :=
  match firstIdx s.intake.length fun i => decide ((s.intake.map (·.frame)).getD i f = f) with
  | none => true
  | some n =>
    let h := headerOf f.hdr
    let same (i : Intake) : Bool :=
      let g := headerOf i.frame.hdr
      g.type == 7 && g.src == h.src && g.cls == h.cls && bits g.aux.toNat 31 20 == bits h.aux.toNat 31 20
    (s.intake.drop n).head?.all (fun i => decide (i.arrival + 44 ≤ s.now)) && !((s.intake.take n).any same)

/-- A MEM_WR is taken 44 cycles after its header began to arrive, once its bytes have crossed the bridge, and after every one received
before it (R141, Table 5.6, 01 R14). -/
def writeTurn (s : State) (f : Frame) : Bool :=
  match s.intake.find? fun i => (headerOf i.frame.hdr).type == 7 with
  | some i => decide (i.frame ≠ f) && !(s.intake.any fun j => decide (j.frame = f)) ||
      (decide (i.frame = f) && (decide (i.port ≥ selfPort) || decide (i.arrival + 44 ≤ s.now)) && !stillCrosses s f)
  | none => true

def execMemRdReceive (f : Frame) (chk : ReadCheck) (s : State) : Res :=
  .next (
    if !goodFrame f 6 || isRelease f || !readTurn s f then s
    else
      let h := headerOf f.hdr
      let (s, port, arrival) := takeIntake s f
      let a := accessOf h
      let st := accessStatus s a
      match regionAt s a.region with
      | none => memAnswer s h st [] (rspReady s a port arrival h.cls.toNat 0 0)
      | some r =>
        if st = msOk ∧ rVault r.words = true ∧ versionHeld r a.version = false then
          setRegion s a.region { r with parked := r.parked ++ [(f, port)] }
        else if st ≠ msOk then memAnswer s h st [] (rspReady s a port arrival h.cls.toNat 0 0)
        else
          let data := accessRead s a (some (h.src, h.cls.toNat))
          let x := accessCheck s a chk
          let ready := rspReady s a port arrival h.cls.toNat x.2.2 0
          if x.2.1 then memAnswer x.1 h msOk data ready else memAnswer x.1 h msDetect [] ready)

/-- A number added to a list of distinct numbers. -/
def addOnce (l : List Nat) (n : Nat) : List Nat := if l.contains n then l else l ++ [n]

/-- A rank releases a version that is held (R155). -/
def releaseVersion (r : Region) (v : W16) (rank : Nat) : Region :=
  if v = r.current then { r with relCur := addOnce r.relCur rank }
  else settleReleases { r with relPrev := addOnce r.relPrev rank }

def execVersionRelease (f : Frame) (s : State) : Res :=
  .next (
    if !goodFrame f 6 || !isRelease f || !readTurn s f then s
    else
      let h := headerOf f.hdr
      let (s, port, arrival) := takeIntake s f
      let a := accessOf h
      let st := accessStatus s a
      let ready := rspReady s a port arrival h.cls.toNat 0 0
      match regionAt s a.region with
      | none => memAnswer s h st [] ready
      | some r =>
        let s := if st = msOk then setRegion s a.region (releaseVersion r a.version h.rank.toNat) else s
        memAnswer s h st [] ready)

/-- A MEM_WR begins to be written after those received before it: a TC7 one with the fixed latency of R142 is written within its HBM access
of 168 cycles, and those before it by then as well; another takes its own time. -/
def beginWrite (s : State) (h : Header) (a : Access) (data : List Byte) (fixed : Bool) (port arrival : Nat) : State :=
  let end_ := arrival + 212 + 8 * (quietStacks s a).foldl (fun x k => max x (b2n (dieOf port != k % 2))) 0
  let s := if fixed then { s with hbm := { s.hbm with
      writing := s.hbm.writing.map fun j => { j with from_ := min j.from_ end_, doneAt := min j.doneAt end_ } } } else s
  let from_ := s.hbm.writing.foldl (fun m j => max m j.doneAt) s.now
  let doneAt := if fixed then end_ else from_ + Config.writeTime s.fresh
  let j : MemWrite := { src := h.src, cls := h.cls.toNat, region := a.region, off := a.off, data := data, id := s.fresh,
                        from_ := from_, doneAt := doneAt }
  { s with fresh := s.fresh + 1, hbm := { s.hbm with writing := s.hbm.writing ++ [j] } }

/-- The cycle by which every MEM_WR in progress is written. -/
def writesDone (s : State) : Nat := s.hbm.writing.foldl (fun m j => max m j.doneAt) 0

def execMemWrReceive (f : Frame) (s : State) : Res :=
  .next (
    if !goodFrame f 7 || !writeTurn s f then s
    else
      let h := headerOf f.hdr
      let (s, port, arrival) := takeIntake s f
      let a := accessOf h
      let st := accessStatus s a
      if st ≠ msOk then memAnswer s h st [] (rspReady s a port arrival h.cls.toNat 0 f.payload.length)
      else
        let s := beginWrite s h a f.payload (fixedAccess s a port arrival h.cls.toNat 0) port arrival
        memAnswer s h st [] (rspReady s a port arrival h.cls.toNat 0 f.payload.length (writesDone s)))

/-! ### Requests of this X7 (R135) -/

/-- Bytes placed into a run of bytes. -/
def splice (l : List Byte) (a : Nat) (b : List Byte) : List Byte := l.take a ++ b ++ l.drop (a + b.length)

/-- Every request of a command is answered. -/
def finishXfer (s : State) (x : Xfer) : State :=
  match x.run, x.result with
  | some (tile, r), none =>
    if x.status = stOk then beginRun s tile { r with data := x.data.take r.data.length } else dropRun s tile r x.status
  | some (tile, r), some p => finishRun s tile r x.status (some p) []
  | none, _ =>
    if x.toHost && x.status == stOk then copyOut s x.by_ x.hostAddr x.data else complete s x.by_ x.status

/-- One request of a command is answered with a status and data. -/
def xferPart (s : State) (id place st : Nat) (data : List Byte) : State :=
  match ofind s.hbm.xfers id with
  | none => s
  | some x =>
    let x := { x with
      left := x.left - 1,
      status := if st = msOk then x.status else accessFails st,
      data := if st = msOk && x.data.length != 0 then splice x.data place data else x.data }
    if x.left = 0 then finishXfer { s with hbm := { s.hbm with xfers := odel s.hbm.xfers id } } x
    else { s with hbm := { s.hbm with xfers := oins s.hbm.xfers id x } }

/-- One read of a fused operand is answered (03 R84). -/
def fusePart (s : State) (n k place st : Nat) (data : List Byte) : State :=
  match tillAt s n with
  | none => s
  | some t =>
    let c := chunkOf t k
    if c.st ≠ .minting ∨ c.fuseLeft = 0 then s
    else if st ≠ msOk then endTill s n stDetect c.epoch
    else
      let s := modChunk s n k fun c => { c with fuseGot := splice c.fuseGot place data, fuseLeft := c.fuseLeft - 1 }
      if c.fuseLeft = 1 then finishChunk s n k else s

/-- A request is over. -/
def requestOver (s : State) (q : MemReq) (st : Nat) (data : List Byte) : State :=
  match q.for_ with
  | .xfer id => xferPart s id q.place st data
  | .fuse n k => fusePart s n k q.place st data

def execMemRspReceive (f : Frame) (s : State) : Res :=
  .next (
    if !goodFrame f 8 || stillCrosses s f then s
    else
      let h := headerOf f.hdr
      let (s, _, _) := takeIntake s f
      match ofind s.hbm.reqs h.seq.toNat with
      | none => s
      | some q =>
        requestOver { s with hbm := { s.hbm with reqs := odel s.hbm.reqs h.seq.toNat } } q (h.aux.toNat % 256) f.payload)

def execMemRequestTimeout (tag : BitVec 16) (s : State) : Res :=
  .next (match ofind s.hbm.reqs tag.toNat with
    | none => s
    | some q =>
      if s.now < q.sentAt + Config.memTimeout then s
      else if q.again then
        requestOver { s with hbm := { s.hbm with reqs := odel s.hbm.reqs tag.toNat } } q msDetect []
      else
        let new := freeTag s
        let h := { headerOf q.frame.hdr with seq := BitVec.ofNat 16 new }
        let q' : MemReq := { q with frame := mkFrame h q.frame.payload, sentAt := s.now, again := true }
        let s := { s with hbm := { s.hbm with reqs := oins (odel s.hbm.reqs tag.toNat) new q' } }
        sendOwn s h q.frame.payload fun _ => freeDelay s)

/-! ### Versions and parameter blocks (R153, R155) -/

/-- A release of the previous version of a region is accepted by this cycle and still to be applied: it comes first (R155). -/
def releaseWaits (s : State) (n : Nat) (r : Region) : Bool :=
  s.intake.any fun i =>
    let a := accessOf (headerOf i.frame.hdr)
    goodFrame i.frame 6 && isRelease i.frame && a.region == n && a.version + 1 == r.current && decide (i.arrival + 44 ≤ s.now) &&
      accessStatus s a == msOk

def execVersionReclaim (region : BitVec 12) (s : State) : Res :=
  let n := region.toNat
  .next (match regionAt s n with
    | none => s
    | some r =>
      let limit := rHoldLimit r.words
      if !rVault r.words || !r.prevHeld || limit = 0 || s.now < r.prevAt + limit * 65536 || releaseWaits s n r then s
      else
        let s := setRegion s n { r with prevHeld := false }
        let job := regJob r.words
        toss (postEvent s srcRegion 0x01 job n (r.current - 1).toNat r.relPrev.length) job 3)

/-- The parameter block of CURRENT + 1 is due to be read: at first, then at each of the next 16 ticks (R153). -/
def paramDue (s : State) (r : Region) : Bool :=
  rVault r.words && r.param.isNone && decide (r.paramTries < 17) &&
    (r.paramTries == 0 || (if ticksOn s then decide ((r.paramAt : Int) < s.tick.start) else decide (s.now ≥ r.paramAt + 65536)))

def execParamBlockRead (region : BitVec 12) (block : Option (List Byte)) (s : State) : Res :=
  let n := region.toNat
  .next (match regionAt s n with
    | none => s
    | some r =>
      if !paramDue s r then s
      else match block with
        | some b => setRegion s n { r with param := some (padTo 64 b), paramTries := 0, paramFrom := paramAddr r.words (r.current + 1) }
        | none =>
          let s := setRegion s n { r with paramTries := r.paramTries + 1, paramAt := s.now,
                                          paramFrom := paramAddr r.words (r.current + 1) }
          let s := setCause s srcHost hbDmaRead 0
          if r.paramTries = 16 then setCause s srcHost hbParam n (regJob r.words) (r.current + 1).toNat else s)

/-! ### Stacks (R132, R133, R143) -/

def setStack (s : State) (k : Nat) (st : Stack) : State := { s with hbm := { s.hbm with stackOf := s.hbm.stackOf.set k st } }

/-- A waiting region no longer waits: it is complete, or a stack it names has failed (R137). -/
def settleWaiting (s : State) (n : Nat) : State :=
  match regionAt s n with
  | none => s
  | some r =>
    match r.waiting with
    | none => s
    | some a =>
      if (regionStacks s r.words).any fun k => (s.hbm.stackOf.getD k {}).failed then complete (dropRegion s n) a stRefused
      else if awaitsStack s r.words then s
      else complete (setRegion s n { r with waiting := none }) a stOk

def hbTrain : Nat := 4

def execHbmTrainingDone (stack : BitVec 2) (ok : Bool) (s : State) : Res :=
  let k := stack.toNat
  .next (
    let st := s.hbm.stackOf.getD k {}
    if !hasStack s k || !st.training then s
    else
      let s := setStack s k { st with training := false, trained := ok, failed := !ok, refreshAt := s.now }
      let s := if ok then { s with boot := { s.boot with ready := s.boot.ready ||| BitVec.ofNat 32 (2 ^ (24 + k)) } }
               else noteState s (srcHbm k) hbTrain 0
      (s.hbm.regions.map (·.1)).foldl settleWaiting s)

/-- FCLK cycles between refreshes: halved on a hot stack (Table 5.1, R143). -/
def refreshEvery (st : Stack) : Nat := if st.hot then 3120 else 6240

/-- Refreshes owed at this cycle, below 0 those pulled in (Table 5.1). -/
def refreshOwed (s : State) (st : Stack) : Int := st.owed + ((s.now - st.refreshAt) / refreshEvery st : Nat)

/-- A stack after its refreshes have been brought to a number owed. -/
def refreshed (s : State) (st : Stack) (owed : Int) : Stack :=
  { st with owed := owed, refreshAt := st.refreshAt + (s.now - st.refreshAt) / refreshEvery st * refreshEvery st }

/-- A refresh is issued, up to 8 ahead, and never in a quiet window (R143). -/
def execHbmRefresh (stack : BitVec 2) (s : State) : Res :=
  let k := stack.toNat
  .next (
    let st := s.hbm.stackOf.getD k {}
    let owed := refreshOwed s st - 1
    if !st.trained || inQuiet s k || decide (owed < -8) then s else setStack s k (refreshed s st owed))

/-- The tables as they hold in the next cycle: what a set that commits then installs is known to the controllers before (R143). -/
def nextTables (s : State) : State :=
  if !ticksOn s || decide (((s.now + 1 : Nat) : Int) < s.tick.start + tickLen s) then s
  else
    let s := applied s ((s.tables.armed.filter fun a => a.tick == s.tick.num + 1 && !stageBad s a).flatMap (stagedFor s))
    { s with tick := { s.tick with start := (s.now + 1 : Nat) } }

/-- A quiet window of the stack opens in the next cycle: how long it is open, 0 when none does. -/
def windowOpens (s : State) (k : Nat) : Nat :=
  let at_ := ((s.now + 1 : Nat) - s.tick.start : Int) % (max 1 (tickLen s) : Nat) |>.toNat
  if !ticksOn s then 0
  else match (List.range 4).find? fun n => decide ((quietWin s k n).1 = at_) && decide ((quietWin s k n).1 < (quietWin s k n).2) with
    | some n => (quietWin s k n).2 - (quietWin s k n).1
    | none => 0

/-- What the controllers do of themselves: no more than 8 refreshes are postponed, and before a quiet window those that fall due in it are
pulled in, up to 8 (Table 5.1, R143). -/
def refreshCycle (s : State) : State :=
  (List.range 4).foldl (fun s k =>
    let st := s.hbm.stackOf.getD k {}
    let len := windowOpens (nextTables s) k
    let inside := (s.now + 1 + len - st.refreshAt) / refreshEvery st - (s.now - st.refreshAt) / refreshEvery st
    if !st.trained || inQuiet s k then s
    else if len ≠ 0 ∧ refreshOwed s st > -(min 8 inside : Nat) then setStack s k (refreshed s st (-(min 8 inside : Nat)))
    else if refreshOwed s st > 8 then setStack s k (refreshed s st 8)
    else s) s

end Sys2Proof.Machine
end

