-- ==== Sys2Proof/Machine/Relays.lean ====
section
/-! DEFINITION. KV relays (05 R160-R163, 09 R258). -/

namespace Sys2Proof.Machine

def relayAt (s : State) (g : Nat) : Option Relay := ofind s.relays g

/-! ### Staging (R162, R163) -/

/-- Bytes staged. -/
def stagedBytes (r : Relay) : Nat := 32 * sumNat (r.staged.map (·.units))

/-- Buffers of 2 MiB that a number of bytes needs. -/
def buffersFor (bytes : Nat) : Nat := ceilDiv bytes 2097152

/-- Cells of a staging unit on XN7-N. -/
def stageCells : Nat := 8192

/-- One more staging buffer, from the HBM pool, or on XN7-N from the cells of a slice. -/
def takeStage (s : State) (r : Relay) (slice : Nat) : Option (State × Relay) :=
  if r.held.length ≥ r.stageMax then none
  else if isN s then
    let q := quotaIdx 0 r.job r.cls
    if cellsAllowed s slice q stageCells then some (takeCells s slice q stageCells, { r with held := r.held ++ [slice] }) else none
  else (takeStaging s (quotaIdx 2 r.job r.cls) 1).map fun s => (s, { r with held := r.held ++ [slice] })

/-- A staging buffer given back. -/
def giveStage (s : State) (r : Relay) (slice : Nat) : State :=
  if isN s then giveCells s slice (quotaIdx 0 r.job r.cls) stageCells else giveStaging s (quotaIdx 2 r.job r.cls) 1

/-- A change of the count of those who withhold a class's credit on a port. -/
def addWithheld (c : Nat) (up : Bool) (q : PortQ) : PortQ :=
  { q with withheld := q.withheld.set c (if up then nth q.withheld c + 1 else nth q.withheld c - 1) }

/-- Credit of the relay's class is withheld on every port of the sender's port group (R162). -/
def withholdFrom (s : State) (g : Nat) (r : Relay) (port : Nat) : State :=
  let ports := (s.ports.filter fun e => e.2.conf && pgOf e.1 == pgOf port && !r.withheld.contains e.1).map (·.1)
  let s := ports.foldl (fun s p => modQ s p (addWithheld r.cls true)) s
  setRelay s g { r with withheld := r.withheld ++ ports, withheldAt := if r.withheld.isEmpty then s.now else r.withheldAt }

/-- Withholding ends. -/
def releaseCredit (s : State) (r : Relay) : State × Relay :=
  if r.withheld.isEmpty then (s, r)
  else
    let s := r.withheld.foldl (fun s p => modQ s p (addWithheld r.cls false)) s
    (jobWait s r.job 5 (s.now - r.withheldAt), { r with withheld := [] })

/-- Buffers no longer needed are given back. -/
def trimStage : Nat → State → Relay → State × Relay
  | 0, s, r => (s, r)
  | k + 1, s, r =>
    match r.held with
    | [] => (s, r)
    | slice :: l =>
      if r.held.length ≤ buffersFor (stagedBytes r) then (s, r)
      else
        let (s, r) := releaseCredit (giveStage s r slice) { r with held := l }
        trimStage k s r

/-! ### Order (R161) -/

/-- The member whose block receiver j takes at ring distance d. -/
def senderAt (r : Relay) (j d : Nat) : Nat := (j + r.members.length - d) % max 1 r.members.length

/-- The sender and round of the block a receiver takes next. -/
def nextBlockOf (r : Relay) (j : Nat) : Nat × W16 :=
  let v := r.recv.getD j {}
  (senderAt r j v.dist, v.round)

/-- Round a comes before round b: round numbers are compared modulo 65,536 (DEDUCED, assumption log 54). -/
def roundBefore (a b : W16) : Bool := a != b && decide ((b - a).toNat < 32768)

/-- Receiver j still waits for copies of a staged block. -/
def stillWaits (r : Relay) (b : RBlock) (j : Nat) : Bool :=
  let n := r.members.length
  let v := r.recv.getD j {}
  let dist := (j + n - b.sender) % max 1 n
  j != b.sender && (roundBefore v.round b.round || (v.round == b.round && decide (v.dist ≤ dist)))

/-- Staged blocks whose last copy has left are freed. -/
def freeBlocksOf (s : State) (r : Relay) : State × Relay :=
  let r := { r with staged := r.staged.filter fun b => (List.range r.members.length).any (stillWaits r b) }
  trimStage r.held.length s r

/-- The receiver's next frame, if it is staged. -/
def nextFrame (r : Relay) (j : Nat) : Option Frame :=
  let (snd, round) := nextBlockOf r j
  match r.staged.find? fun b => b.sender == snd && b.round == round with
  | none => none
  | some b => b.frames.find? fun f => (headerOf f.hdr).offset.toNat == (r.recv.getD j {}).done

/-- A receiver has come to the end of its block: the next sender in ring order, then the next round. -/
def endBlock (r : Relay) (now : Nat) (v : RRecv) : RRecv :=
  let v := { v with done := 0, lastAt := some now }
  if v.dist + 1 ≥ r.members.length then { v with round := v.round + 1, dist := 1 } else { v with dist := v.dist + 1 }

/-! ### Commands -/

/-- Rank and endpoint of a member entry. -/
def memberOf (w : W64) : Nat × Nat := (fld w 13 0, fld w 33 14)

def execRelayOpen (ring : BitVec 6) (d : Desc) (members : List W64) (s : State) : Res :=
  let job := fld d.d1 23 16
  .next (accept s ring d 0x30 (some job) 0 (cringOf d.d0) fun a s =>
    let g := fld d.d1 15 0
    let n := fld d.d1 36 26
    let l := (members ++ List.replicate n 0).take n
    let units := fld d.d2 24 0
    let stage := fld d.d3 12 0
    let ok := 2 ≤ n && n ≤ 1024 && 1 ≤ units && units ≤ 2 ^ 24 && 1 ≤ fld d.d1 52 37 && 1 ≤ stage && stage ≤ 4096 &&
      1 ≤ fld d.d3 28 13 && (l.all fun w => fld w 63 34 == 0) && distinct (l.map fun w => (memberOf w).1)
    if !ok || (relayAt s g).isSome || groupEn s g then complete s a stRefused
    else
      let r : Relay := {
        job := job, cls := fld d.d1 25 24, units := units, pace := fld d.d2 48 25, depth := fld d.d1 52 37, stageMax := stage,
        rtimeout := fld d.d3 28 13, members := l.map memberOf, recv := List.replicate n {} }
      complete (setRelay s g r) a stOk)

def execRelayClose (ring : BitVec 6) (d : Desc) (s : State) : Res :=
  let g := fld d.d1 15 0
  .next (accept s ring d 0x31 ((relayAt s g).map (·.job)) 0 (cringOf d.d0) fun a s =>
    match relayAt s g with
    | none => complete s a stRefused
    | some r =>
      let (s, r) := releaseCredit s r
      let s := r.held.foldl (fun s slice => giveStage s r slice) s
      complete { s with relays := odel s.relays g } a stOk)

/-! ### Frames (R160-R162) -/

/-- A frame joins its staged block. -/
def stageFrame (r : Relay) (snd : Nat) (round : W16) (units : Nat) (f : Frame) : Relay :=
  if r.staged.any fun b => b.sender == snd && b.round == round then
    { r with staged := r.staged.map fun b =>
        if b.sender = snd ∧ b.round = round then { b with frames := b.frames ++ [f], units := b.units + units } else b }
  else { r with staged := r.staged ++ [{ sender := snd, round := round, frames := [f], units := units }] }

/-- Buffers are taken for a frame; none when a buffer is missing. -/
def stageRoom : Nat → State → Relay → Nat → Nat → Option (State × Relay)
  | 0, _, _, _, _ => none
  | k + 1, s, r, need, slice =>
    if need ≤ r.held.length then some (s, r)
    else match takeStage s r slice with
      | none => none
      | some (s, r) => stageRoom k s r need slice

/-- Units a receiver has taken in the current tick. -/
def pacedNow (s : State) (v : RRecv) : Nat := if v.paceTick = s.tick.num then v.paced else 0

/-- The header of the copy for a receiver: MC = 0, DEST its endpoint, all else unchanged (09 R258). -/
def relayHeader (r : Relay) (j : Nat) (f : Frame) : Header :=
  { headerOf f.hdr with mc := 0, dest := BitVec.ofNat 20 (r.members.getD j (0, 0)).2 }

/-- The receiver is ready: its output queue holds no more than DEPTH cells, and PACE is not reached (R160, R161). -/
def receiverReady (s : State) (r : Relay) (j : Nat) (h : Header) : Bool :=
  let deep := match route s h selfPort with
    | some p => decide (depthOf (portAt s p).q r.cls > r.depth)
    | none => false
  !deep && (r.pace == 0 || !ticksOn s || decide (pacedNow s (r.recv.getD j {}) < r.pace))

/-- A copy for a receiver leaves. -/
def sendCopy (s : State) (r : Relay) (j : Nat) (f : Frame) : State × Relay :=
  let h := relayHeader r j f
  let v := r.recv.getD j {}
  let units := h.len.toNat
  let v := { v with done := v.done + units, paced := pacedNow s v + units, paceTick := s.tick.num }
  let v := if v.done ≥ r.units then endBlock r s.now v else v
  (sendOwn s h f.payload fun _ => freeDelay s, { r with recv := r.recv.set j v })

/-- A frame's copy for receiver j need not wait: it is the next in its order, and the receiver is ready. -/
def goesNow (s : State) (r : Relay) (snd : Nat) (f : Frame) (j : Nat) : Bool :=
  let h := headerOf f.hdr
  decide (nextBlockOf r j = (snd, h.epoch)) && h.offset.toNat == (r.recv.getD j {}).done && receiverReady s r j (relayHeader r j f)

/-- A frame is written to the buffers found for it; while the relay holds STAGE_MAX buffers, or finds none, credit is withheld from its
sender (R162). -/
def stageIn (s : State) (g : Nat) (r : Relay) (snd port : Nat) (f : Frame) : Option (State × Relay) → State
  | none => withholdFrom s g r port
  | some (s, r) =>
    let h := headerOf f.hdr
    let r := stageFrame r snd h.epoch h.len.toNat f
    let s := setRelay (takeIntake s f).1 g r
    if r.held.length ≥ r.stageMax then withholdFrom s g r port else s

/-- A frame is written to staging (R162). -/
def stageIt (s : State) (g : Nat) (r : Relay) (snd port : Nat) (f : Frame) : State :=
  stageIn s g r snd port f (stageRoom 2 s r (buffersFor (stagedBytes r + 32 * (headerOf f.hdr).len.toNat)) (pgOf port))

/-- A RELAY frame at its relay: where no copy of it has to wait they all leave; else it is staged for the receivers that wait for it. -/
def execRelayFrameReceive (port : BitVec 9) (f : Frame) (s : State) : Res :=
  .next (
    let h := headerOf f.hdr
    let g := h.dest.toNat % 65536
    if !goodFrame f 0xC || h.mc == 0 then s
    else match relayAt s g with
      | none => (takeIntake s f).1
      | some r =>
        match firstIdx r.members.length fun i => (r.members.getD i (0, 0)).2 == h.src.toNat with
        | none => (takeIntake s f).1
        | some snd =>
          let b : RBlock := { sender := snd, round := h.epoch, frames := [], units := 0 }
          let wanted := (List.range r.members.length).filter (stillWaits r b)
          if h.job.toNat ≠ r.job ∨ wanted = [] then (takeIntake s f).1
          else if wanted.all (goesNow s r snd f) then
            let (s, r) := wanted.foldl (fun x j => sendCopy x.1 x.2 j f) ((takeIntake s f).1, r)
            let (s, r) := freeBlocksOf s r
            setRelay s g r
          else stageIt s g r snd port.toNat f)

/-- A staged frame's copy for a receiver leaves in its turn. -/
def execRelayCopySend (rgroup : BitVec 16) (receiver : Nat) (s : State) : Res :=
  let g := rgroup.toNat
  .next (match relayAt s g with
    | none => s
    | some r =>
      match nextFrame r receiver with
      | none => s
      | some f =>
        if receiver ≥ r.members.length || !receiverReady s r receiver (relayHeader r receiver f) then s
        else
          let (s, r) := sendCopy s r receiver f
          let (s, r) := freeBlocksOf s r
          setRelay s g r)

/-- A block missing for RTIMEOUT after the previous one in the receiver's order is skipped (R162). -/
def execRelaySkip (rgroup : BitVec 16) (receiver : Nat) (s : State) : Res :=
  let g := rgroup.toNat
  .next (match relayAt s g with
    | none => s
    | some r =>
      let v := r.recv.getD receiver {}
      match v.lastAt with
      | none => s
      | some t =>
        if receiver ≥ r.members.length || (nextFrame r receiver).isSome || s.now < t + r.rtimeout * 65536 then s
        else
          let (snd, round) := nextBlockOf r receiver
          let s := toss (postEvent s srcRelay 0x01 r.job g round.toNat (r.members.getD snd (0, 0)).1) r.job 2
          let (s, r) := freeBlocksOf s { r with recv := r.recv.set receiver (endBlock r s.now v) }
          setRelay s g r)

end Sys2Proof.Machine
end

