-- ==== Sys2Proof/Machine/Tallies.lean ====
section
/-! DEFINITION. Tallies (06 R164-R183): opening and closing, TALLY_OP frames, releases and CARRY, aligned release, deadlines, timers
and excision. -/

namespace Sys2Proof.Machine

/-! ### The descriptor (R164, Table 6.1) -/

def yJob (w : List W64) : Nat := wf w 0 51 44
def yCounter (w : List W64) : Bool := wb w 0 27
def yTick (w : List W64) : Bool := wb w 0 26
def yAlign (w : List W64) : Bool := wb w 0 25
def yKick (w : List W64) : Bool := wb w 0 24
def yInner (w : List W64) : Bool := wf w 0 23 22 == 1
def yCring (w : List W64) : Nat := wf w 0 21 16
def yNotify (w : List W64) : Bool := wb w 0 15
def yThreshold (w : List W64) : Nat := wf w 1 63 32
def yGroup (w : List W64) : Nat := wf w 1 31 16
/-- TIMEOUT in FCLK cycles. -/
def yTimeout (w : List W64) : Nat := wf w 1 15 0 * 1024
def yMargin (w : List W64) : Nat := wf w 2 63 32
def yDeadline (w : List W64) : Nat := wf w 2 31 0
def yParent (w : List W64) : Nat := wf w 3 63 44
def yEntries (w : List W64) : Nat := wf w 3 43 34
/-- CLASS of the tally's frames. -/
def yClass (w : List W64) : Nat := if yTick w then 7 else 6

/-- KIND, RANK and ENDPOINT of an input entry (R165, Table 6.2). -/
def inKind (w : W64) : Nat := fld w 63 62
def inRank (w : W64) : Nat := fld w 61 48
def inEndpoint (w : W64) : Nat := fld w 47 28

/-- The refusals of R166 that do not concern the number. -/
def tallyOk (s : State) (w l : List W64) : Bool :=
  let reserved := wf w 0 14 0 == 0 && wf w 3 33 0 == 0 && [5, 6, 7].all fun i => wf w i 63 0 == 0
  let members := (l.filter fun e => inKind e == 0).map inRank
  let children := (l.filter fun e => inKind e == 1).map inEndpoint
  reserved && decide (wf w 0 23 22 ≤ 1) &&
    (if yCounter w then
      decide (1 ≤ yThreshold w) && decide (yThreshold w < 2 ^ 31) && !yInner w && yEntries w == 0
     else
      yThreshold w == 0 && decide (1 ≤ yEntries w) && decide (yEntries w ≤ (if isN s then 256 else 512)) &&
        hostAddrOk (w.getD 4 0) 8 && (l.all fun e => decide (inKind e ≤ 1) && fld e 27 0 == 0) && distinct members &&
        distinct children) &&
    (!yAlign w || (!yInner w && tickLen s != 0 && decide (56 ≤ yMargin w) && decide (yMargin w < 2 ^ 24))) &&
    (!yTick w || (tickLen s != 0 && decide (yDeadline w < tickLen s)))

/-! ### Generations -/

/-- The tally is open now. -/
def tallyOpenNow (s : State) (v : Tally) : Bool := match v.openAt with
  | some c => decide (c ≤ s.now)
  | none => false

/-- Every required input slot of a barrier has arrived. -/
def allArrived (v : Tally) : Bool :=
  (List.range v.inputs.length).all fun i => v.arrived.contains i || v.excised.contains i

/-- A barrier's bitmap, ALL, YES and timer cleared for the generation g. -/
def newGen (v : Tally) (g : W16) : Tally :=
  { v with gen := g, arrived := [], all := 0, yes := 0, first := none, dueAt := none, timerAt := none, carried := false }

/-- The lowest value COUNT holds (R171). -/
def minCount : Int := -2147483648
def maxCount : Int := 2147483647

/-- The generation after a release, and after LATE as at a release: a counter's COUNT is less its THRESHOLD (R171, R180). -/
def clearGen (v : Tally) : Tally :=
  let v' := newGen v (v.gen + 1)
  if yCounter v.words then { v' with count := max minCount (v.count - (yThreshold v.words : Int)) } else v'

/-- What a release or completion tells (Tables 6.5, 13.14a). -/
structure Told where
  gen : W16
  all : Nat
  yes : Nat
  count : Int
  rtick : BitVec 48
  rofs : Nat
  deriving DecidableEq, Repr

/-- The offset field of what is not aligned. -/
def noOfs : Nat := 0xFFFFFFFF

/-- What a generation tells that ends now without an aligned release. -/
def toldNow (s : State) (v : Tally) (count : Int) : Told :=
  { gen := v.gen, all := v.all, yes := v.yes, count := count, rtick := s.tick.num, rofs := noOfs }

/-- The completion entry (Table 13.14a). -/
def tallyEntry (n : Nat) (v : Tally) (status : Nat) (x : Told) : List W64 :=
  [BitVec.ofNat 64 (0x04 * 2 ^ 56 + status * 2 ^ 48 + n * 2 ^ 34 + yJob v.words * 2 ^ 26 + min v.late 0x3FF * 2 ^ 16 + x.gen.toNat),
   BitVec.ofNat 64 (x.all % 2 ^ 32 * 2 ^ 32 + x.yes % 2 ^ 32),
   BitVec.ofNat 64 (ofInt 32 x.count * 2 ^ 32 + x.rofs),
   BitVec.ofNat 64 (x.rtick.toNat * 2 ^ 16 + min v.discard 0xFFFF)]

/-- A tally completion is posted, unless NOTIFY = 0 and the status is OK; its two counts begin again (R183, 13 R382). -/
def postTally (s : State) (n : Nat) (v : Tally) (status : Nat) (x : Told) : State × Tally :=
  if status = stOk ∧ yNotify v.words = false then (s, v)
  else (ready s { cring := yCring v.words, entries := [tallyEntry n v status x] }, { v with late := 0, discard := 0, excisedMark := false })

/-- Status of a release or CARRY (R181). -/
def genStatus (v : Tally) : Nat := if v.excisedMark then stExcised else stOk

/-- STRAGGLE of the job (R189). -/
def straggle (s : State) (v : Tally) : State := match v.first with
  | some a => jobWait s (yJob v.words) 0 (v.last - a)
  | none => s

/-! ### Release and CARRY (R171-R174) -/

/-- Latency from the completing TALLY_OP to a copy on an output (R173). -/
def tallyReady (at_ port p : Nat) : Nat := at_ + 56 + if port < 512 ∧ dieOf port ≠ dieOf p then 8 else 0

/-- The tick and offset of a cycle (R174). -/
def tickOfCycle (s : State) (c : Nat) : BitVec 48 × Nat :=
  let len : Int := max 1 (tickLen s)
  let d : Int := (c : Int) - s.tick.start
  (s.tick.num + BitVec.ofInt 48 (d / len), (d % len).toNat)

/-- The TALLY_RELEASE payload (Table 6.5). -/
def releaseBytes (x : Told) (aligned : Bool) : List Byte :=
  padTo 32 (leBytes 4 x.all ++ leBytes 4 x.yes ++ leBytes 4 (ofInt 32 x.count) ++ leBytes 6 x.rtick.toNat ++ leBytes 4 x.rofs ++
    leBytes 1 (b2n (decide (2 * x.yes > x.all)) + 2 * b2n aligned))

/-- The tally releases in this cycle: one TALLY_RELEASE to its group, its completion, and the next generation (R171, R174). `at_` is
the arrival cycle and `port` the port of the completing TALLY_OP. With ticks off no release is aligned (07 R202). -/
def releaseTally (s : State) (n : Nat) (v : Tally) (at_ port : Nat) : State :=
  let w := v.words
  let next := { clearGen v with releasedAt := some s.now }
  let r := at_ + yMargin w
  let aligned := yAlign w && tickLen s != 0 && s.tick.running
  let count := if yCounter w then next.count else 0
  let x := toldNow s v count
  let x := if aligned then { x with rtick := (tickOfCycle s r).1, rofs := (tickOfCycle s r).2 } else x
  let h := ownFrame s 5 (yClass w) (yGroup w) (yJob w) n v.gen 0 x.rofs
  let h := { h with mc := 1, xp := if aligned || yTick w then 1 else 0, tick := x.rtick.setWidth 16 }
  let due (p : Nat) : Option (Nat × Nat) := if aligned then some (n, r - (portAt s p).link.delay) else none
  let s := sendGroup s h (releaseBytes x aligned) (tallyReady at_ port) false due
  let (s, v') := postTally (straggle s v) n { next with excisedMark := v.excisedMark } (genStatus v) x
  setTally s n { v' with excisedMark := false }

/-- The inner tally sends its CARRY to the parent, and takes no further input in this generation (R172). Where it carries
MEMBER_EXCISED, which the frame has no field for, it posts a completion. -/
def carryTally (s : State) (n : Nat) (v : Tally) (at_ port : Nat) : State :=
  let w := v.words
  let h := ownFrame s 4 (yClass w) (yParent w) (yJob w) n v.gen 0 (2 * 2 ^ 28)
  let s := sendOwn s h (padTo 32 (leBytes 4 v.all ++ leBytes 4 v.yes)) (tallyReady at_ port)
  let v := { v with carried := true, timerAt := none }
  let (s, v) := if v.excisedMark then postTally (straggle s v) n v stExcised (toldNow s v 0) else (straggle s v, v)
  setTally s n v

/-- The generation is LATE in this cycle: it is posted and cleared without a release, and may fire the kickstand (R180). -/
def lateTally (s : State) (n : Nat) (v : Tally) : State :=
  let next := clearGen v
  let (s, v') := postTally s n { next with excisedMark := v.excisedMark } stLate (toldNow s v (if yCounter v.words then next.count else 0))
  let s := setTally s n v'
  if yKick v.words then kickLate s (yJob v.words) 3 n else s

/-- The deadline cycle of the running generation has come: a ROOT of tick class that has not released (R180). -/
def tallyLate (s : State) (v : Tally) : Bool := yTick v.words && !yInner v.words && match v.dueAt with
  | some c => decide (s.now ≥ c)
  | none => false

/-- The counter may release in this cycle. -/
def counterDue (s : State) (v : Tally) : Bool :=
  yCounter v.words && decide (v.count ≥ (yThreshold v.words : Int)) && v.releasedAt != some s.now

/-- A complete generation releases or carries; at its deadline it is LATE instead (R171, R172, Table 6.7). -/
def settleTally (s : State) (n : Nat) (v : Tally) (at_ port : Nat) : State :=
  if tallyLate s v then lateTally s n v
  else if yCounter v.words then (if counterDue s v then releaseTally s n v at_ port else setTally s n v)
  else if allArrived v && !v.carried then (if yInner v.words then carryTally s n v at_ port else releaseTally s n v at_ port)
  else setTally s n v

/-- Counters that still reach their THRESHOLD release again, once a cycle (R171): done as a cycle begins. -/
def releaseCounters (s : State) : State :=
  (s.tallies.filter fun e => tallyOpenNow s e.2 && counterDue s e.2).foldl (fun s e =>
    match tallyAt s e.1 with
    | some v => settleTally s e.1 v s.now 512
    | none => s) s

/-! ### Opening and closing (R166, R182) -/

/-- A tally opens; its TALLY_OPEN completes. -/
def openTally (s : State) (n : Nat) (v : Tally) (c : Nat) : State :=
  let s := setTally s n { v with openAt := some c, by_ := none }
  match v.by_ with
  | some a => completeTo s (yCring v.words) a stOk
  | none => s

/-- Tallies that waited open: those of tick class as a tick begins, the others once the X7 is aligned (R166, 07 R200). -/
def openWaiting (s : State) (tick : Bool) : State :=
  if s.tick.state = 0 then s
  else (s.tallies.filter fun e => e.2.openAt.isNone && yTick e.2.words == tick).foldl (fun s e => openTally s e.1 e.2 s.now) s

/-- Tallies whose cycle to open has come (R166). -/
def tallyCycle (s : State) : State :=
  (s.tallies.filter fun e => e.2.by_.isSome && tallyOpenNow s e.2).foldl (fun s e => openTally s e.1 e.2 s.now) s

def execTallyOpen (ring : BitVec 6) (d : Desc) (words inputs : List W64) (s : State) : Res :=
  let w := words.take 8
  let n := wf w 0 63 52
  .next (accept s ring d 0x18 (some (yJob w)) n (if descOk d then yCring w else cringOf d.d0) fun a s =>
    let l := if yCounter w then [] else (inputs ++ List.replicate (yEntries w) 0).take (yEntries w)
    if !tallyOk s w l || (tallyAt s n).isSome then completeTo s (yCring w) a stRefused
    else
      let v : Tally := { words := w, inputs := l, openAt := none, by_ := some a, gen := BitVec.ofNat 16 (wf w 0 43 28) }
      setTally s n (if yTick w || (yAlign w && s.tick.state == 0) then v else { v with openAt := some (s.now + 1) }))

/-- TALLY_CLOSE and TALLY_ABORT: an incomplete generation is posted ABORTED, and commands that wait on the tally complete ABORTED. -/
def closeTally (ring : BitVec 6) (d : Desc) (op : Nat) (s : State) : State :=
  let n := objOf d
  accept s ring d op ((tallyAt s n).map fun v => yJob v.words) n (cringOf d.d0) fun a s =>
    match tallyAt s n with
    | none => complete s a stRefused
    | some v =>
      let (s, _) := if v.first.isSome then postTally s n v stAborted (toldNow s v (if yCounter v.words then v.count else 0)) else (s, v)
      let s := match v.by_ with
        | some b => completeTo s (yCring v.words) b stAborted
        | none => s
      let s := v.excisions.foldl (fun s x => complete s x.2.2 stAborted) s
      complete { s with tallies := odel s.tallies n } a stOk

def execTallyClose (ring : BitVec 6) (d : Desc) (s : State) : Res := .next (closeTally ring d 0x19 s)

def execTallyAbort (ring : BitVec 6) (d : Desc) (s : State) : Res := .next (closeTally ring d 0x1A s)

/-! ### Excision (R181) -/

/-- The slot stops being required. -/
def exciseSlot (s : State) (n : Nat) (v : Tally) (slot : Nat) (a : Accept) : State :=
  let v := { v with excised := v.excised ++ [slot], excisedMark := true }
  let s := if tallyOpenNow s v then settleTally s n v s.now 512 else setTally s n v
  complete s a stOk

def execTallyExcise (ring : BitVec 6) (d : Desc) (s : State) : Res :=
  let n := objOf d
  let slot := fld d.d1 21 12
  let tk := BitVec.ofNat 48 (fld d.d2 47 0)
  .next (accept s ring d 0x1B ((tallyAt s n).map fun v => yJob v.words) n (cringOf d.d0) fun a s =>
    match tallyAt s n with
    | none => complete s a stRefused
    | some v =>
      if slot ≥ v.inputs.length then complete s a stRefused
      else if ticksOn s && laterTick s tk then setTally s n { v with excisions := v.excisions ++ [(slot, tk, a)] }
      else exciseSlot s n v slot a)

/-- The effect tick of an excision has come. -/
def execTallyExciseEffect (tally : BitVec 12) (slot : BitVec 10) (s : State) : Res :=
  let n := tally.toNat
  .next (match tallyAt s n with
    | none => s
    | some v =>
      match v.excisions.find? fun x => x.1 == slot.toNat && !(ticksOn s && laterTick s x.2.1) with
      | none => s
      | some x => exciseSlot s n { v with excisions := v.excisions.erase x } slot.toNat x.2.2)

/-! ### TALLY_OP (R168-R171) -/

/-- OP of AUX (Table 6.4). -/
def tallyOpOf (h : Header) : Nat := bits h.aux.toNat 31 28

/-- The input slot a TALLY_OP marks: a member by RANK, a child by SRC. -/
def tallySlot (v : Tally) (h : Header) (carry : Bool) : Option Nat :=
  firstIdx v.inputs.length fun i =>
    let e := v.inputs.getD i 0
    if carry then inKind e == 1 && inEndpoint e == h.src.toNat else inKind e == 0 && inRank e == h.rank.toNat

/-- The generation has an input: its first sets the deadline, and each restarts a barrier's timer (R179, R180). -/
def noteInput (s : State) (v : Tally) (arrival : Nat) : Tally :=
  let start : Int := if (arrival : Int) < s.tick.start then s.tick.start - tickLen s else s.tick.start
  { v with
    first := some (v.first.getD arrival), last := arrival,
    dueAt := if yTick v.words then some (v.dueAt.getD (start + yDeadline v.words).toNat) else none,
    timerAt := if yCounter v.words || yTimeout v.words == 0 then none else some (s.now + yTimeout v.words) }

/-- A TALLY_OP at its tally: discarded and counted, or taken (R170). -/
def tallyInput (s : State) (f : Frame) (take : Tally → Header → Option Tally) : State :=
  let h := headerOf f.hdr
  let n := h.till.toNat
  let (s, port, arrival) := takeIntake s f
  match tallyAt s n with
  | none => s
  | some v =>
    let good := tallyOpenNow s v && h.job.toNat == yJob v.words && h.cls.toNat == yClass v.words
    match (if good then take v h else none) with
    | none => setTally s n { v with discard := satAdd 0xFFFF v.discard 1 }
    | some v' => settleTally s n (noteInput s v' arrival) arrival port

/-- A barrier input: the slot is marked, and ALL and YES are added. -/
def markSlot (v : Tally) (h : Header) (carry : Bool) (all yes : Nat) : Option Tally :=
  match tallySlot v h carry with
  | none => none
  | some i =>
    if yCounter v.words || h.epoch != v.gen || v.arrived.contains i || v.excised.contains i || v.carried then none
    else some { v with arrived := v.arrived ++ [i], all := satAdd Config.sat32 v.all all, yes := satAdd Config.sat32 v.yes yes }

/-- ARRIVE; a TALLY_OP with a reserved OP is discarded here too. -/
def execTallyArrive (f : Frame) (s : State) : Res :=
  let op := tallyOpOf (headerOf f.hdr)
  .next (if !goodFrame f 4 || op == 1 || op == 2 then s
    else tallyInput s f fun v h => if op = 0 then markSlot v h false 1 (b2n (bit h.aux.toNat 0)) else none)

def execTallyCarry (f : Frame) (s : State) : Res :=
  .next (if !goodFrame f 4 || tallyOpOf (headerOf f.hdr) != 2 then s
    else tallyInput s f fun v h => markSlot v h true (leAt f.payload 0 4) (leAt f.payload 4 4))

/-- COUNT after an ADD, and whether it saturated (R171). -/
def addCount (count v : Int) : Int × Bool :=
  let x := count + v
  (max minCount (min maxCount x), decide (x < minCount) || decide (x > maxCount))

def execTallyAdd (f : Frame) (s : State) : Res :=
  let h := headerOf f.hdr
  let add := toInt 24 (bits h.aux.toNat 23 0)
  .next (if !goodFrame f 4 || tallyOpOf h != 1 then s
    else
      let was := tallyAt s h.till.toNat
      let sat := match was with
        | some v => tallyOpenNow s v && h.job.toNat == yJob v.words && h.cls.toNat == yClass v.words && yCounter v.words &&
            (addCount v.count add).2
        | none => false
      let s := if sat then
          postEvent s srcTally 0x03 h.job.toNat h.till.toNat (ofInt 32 (addCount ((was.map (·.count)).getD 0) add).1) 0
        else s
      tallyInput s f fun v _ => if yCounter v.words then some { v with count := (addCount v.count add).1 } else none)

/-! ### Releases that pass (R172, R175) -/

/-- The cycle R of an aligned release, from its TICK and AUX; none when it is not aligned or ticks are off (R174, 07 R202). -/
def releaseCycle (s : State) (h : Header) : Option Nat :=
  if h.aux = 0xFFFFFFFF ∨ ticksOn s = false then none
  else
    let d := toInt 16 (h.tick - s.tick.num.setWidth 16).toNat
    some (s.tick.start + d * tickLen s + h.aux.toNat).toNat

/-- The copies of an aligned release: at once to switches, in cycle R − d to endpoints. -/
def alignedForward (s : State) (p : Nat) (h : Header) (f : Frame) (r : Nat) : State :=
  let (outs, lost) := groupPorts s h p
  let s := lost.foldl (fun s o => countFlush s o h.cls.toNat) s
  if outs.isEmpty then owe s p h.cls.toNat (cellsOf f)
  else
    let g := outgoing f h h
    match admitFrame s p outs h f false with
    | (s, none) => owe s p h.cls.toNat (cellsOf f)
    | (s, some fid) => outs.foldl (fun s o =>
        let wider := dataCycles g (widthOf s p) - dataCycles g (widthOf s o)
        let ready := s.now + 64 + (if dieOf p = dieOf o then 0 else 8) + wider
        forwardCopyAs s fid p o h g ready (some (h.till.toNat, r - (portAt s o).link.delay))) s

/-- A good release that passes advances the inner tally of its job and number (R172). -/
def advanceInner (s : State) (h : Header) : State :=
  let n := h.till.toNat
  match tallyAt s n with
  | none => s
  | some v =>
    if !yInner v.words || yJob v.words != h.job.toNat || !tallyOpenNow s v then s
    else
      let s := if h.epoch = v.gen then s else postEvent s srcTally 0x02 (yJob v.words) n h.epoch.toNat v.gen.toNat
      setTally s n (newGen v (h.epoch + 1))

/-- A TALLY_RELEASE that passes: replicated as it arrived, and snooped if it is good. -/
def execTallyReleasePass (port : BitVec 9) (f : Frame) (s : State) : Res :=
  .next (
    let h := headerOf f.hdr
    let p := port.toNat
    match s.intake.find? fun i => decide (i.frame = f ∧ i.port = p) with
    | none => s
    | some i =>
      if h.type != 5 then s
      else
        let now := s.now
        let s := { s with intake := s.intake.erase i, now := i.arrival }
        let s := match releaseCycle s h with
          | some r => alignedForward s p h f r
          | none => forward s p h h f false
        let s := { s with now := now }
        if frameGood f then advanceInner s h else s)

/-! ### Timer and deadline (R179, R180) -/

def execTallyTimerExpiry (tally : BitVec 12) (s : State) : Res :=
  let n := tally.toNat
  .next (match tallyAt s n with
    | none => s
    | some v =>
      if !dueNow s v.timerAt || allArrived v then s
      else
        let low := (firstIdx v.inputs.length fun i => !v.arrived.contains i && !v.excised.contains i).getD 0
        let s := postEvent s srcTally 0x01 (yJob v.words) n v.all (v.gen.toNat + low * 65536)
        setTally s n { v with timerAt := some (s.now + yTimeout v.words) })

def execTallyDeadline (tally : BitVec 12) (s : State) : Res :=
  let n := tally.toNat
  .next (match tallyAt s n with
    | none => s
    | some v => if tallyLate s v then lateTally s n v else s)

end Sys2Proof.Machine
end

