-- ==== Sys2Proof/Machine/Window.lean ====
section
/-! DEFINITION. The accumulator window and the JTAG debug port (14 R405-R407, 16 R454), and the writing of completions (13 R379,
R384, R385). -/

namespace Sys2Proof.Machine

/-! ### The accumulator window (14 R406, Table 14.12) -/

/-- Word i of the halted tile's accumulator store: a word of a chunk, one of a till's slabs that no chunk of it uses, which TILL_OPEN has
zeroed (02 R43, 03 R86), or one that no slab reserves. -/
def storeWord (s : State) (i : Nat) : W64 :=
  let tile := s.tiles.haltTile.toNat
  let (n, k, j) := Config.storePlace s.tiles.haltAt tile i
  match tillAt s n with
  | none => freeWord false (Config.idleWord s.tiles.haltAt tile i)
  | some t =>
    if k < t.chunks.length ∧ tileOf s n t.words k = tile ∧ j < chunkWords t.words t.shard then chunkWord t k j
    else if t.slabs.any fun b => b.1 == tile / 64 then checkedWord 0
    else freeWord false (Config.idleWord s.tiles.haltAt tile i)

/-- A window read of 4 or 8 bytes at an offset, naturally aligned. -/
def windowRead (s : State) (off size : Nat) : State :=
  if s.boot.phase ≠ .run ∨ (size ≠ 4 ∧ size ≠ 8) ∨ off % size ≠ 0 ∨ off < 0xC0000 ∨ off ≥ 0xC0000 + 8 * Config.storeWords then
    answerRead s 0
  else if haltNow s ≠ 2 then answerRead { s with tiles := { s.tiles with notHalted := true } } 0
  else
    let w := storeWord s ((off - 0xC0000) / 8)
    answerRead s (if size = 8 then w else ((if off % 8 = 0 then lo32 w.toNat else hi32 w.toNat).setWidth 64))

def execAccumulatorWindowRead (_origin : RegOrigin) (offset : BitVec 20) (size : Nat) (s : State) : Res :=
  .next (if offset.toNat < 0xC0000 then s else windowRead s offset.toNat size)

/-- DBGREG reaches every set-up register: a write as the debug port's, or a read. -/
def execDbgreg (write : Bool) (offset : BitVec 20) (size : Nat) (value : W64) (s : State) : Res :=
  let off := offset.toNat
  .next (if write then regWrite s .debugPort off size value
    else if off ≥ 0xC0000 then windowRead s off size
    else regRead s off size)

/-! ### Completions (13 R379, R384, R385) -/

/-- What the posting of a completion brings with it. -/
def runAfter (s : State) : After → State
  | .freeSlabs t => modTill s t fun t => { t with freeNext := true }
  | .current r v => match regionAt s r with
    | none => s
    | some x => setRegion s r { x with next := some v }
  | .operand _ => s
  | .copied r gather =>
    match regionAt s r with
    | none => s
    | some v => setRegion s r (if gather then { v with gathers := v.gathers - 1 } else { v with transfers := v.transfers - 1 })

/-- The command ring that a completion answers has one command fewer under way. -/
def cplFinished (s : State) (c : Cpl) : State := match c.ring with
  | some n => finished s n
  | none => s

/-- KIND and TAG of a completion. -/
def cplKind (c : Cpl) : Nat := fld ((c.entries.headD []).getD 0 0) 63 56
def cplTag (c : Cpl) : Nat := if cplKind c = 1 ∨ cplKind c = 5 then fld ((c.entries.headD []).getD 0 0) 31 0 else 0

/-- STATUS of a completion. -/
def cplStatus (c : Cpl) : Nat := fld ((c.entries.headD []).getD 0 0) 55 48

/-- A completion that goes to its ring now: written, or discarded with NO_CRING where the ring is not enabled. -/
def writeCpl (s : State) (c : Cpl) : State :=
  let r := cplRing s c.cring
  let s :=
    if !ringEn r.ctl then noCring s c.cring (cplKind c) (c.ring.getD 0) (cplTag c)
    else
      let (r, s) := ringPut s (.completion c.cring) r c.entries
      setCplRing s c.cring r
  c.after.foldl runAfter s

/-- The completion may go to its ring: room for its entries, or a ring that takes none. -/
def cplFits (s : State) (c : Cpl) : Bool :=
  let r := cplRing s c.cring
  !ringEn r.ctl || ringRoom s 1 c.cring r c.entries.length

/-- The first waiting completion that may be written; of one ring, none before those that wait already. -/
def nextPending (s : State) : List Cpl → List Nat → Option Cpl
  | [], _ => none
  | c :: r, seen => if !seen.contains c.cring && cplFits s c then some c else nextPending s r (seen ++ [c.cring])

/-- A completion is written when its ring has room, or joins the pending queue, and RING_OVERFLOW is set. -/
def postCpl (s : State) (c : Cpl) : State :=
  let s := cplFinished s c
  if c.quiet && cplStatus c == stOk then c.after.foldl runAfter s
  else if cplFits s c && !(s.host.pending.any fun x => x.cring == c.cring) then writeCpl s c
  else ringOverflow { s with host := { s.host with pending := s.host.pending ++ [c] } } c.cring

/-- The first completion ready that waits for no GO. With the pending queue full, one that would join it waits. -/
def nextReady (s : State) : Option Cpl :=
  s.host.ready.find? fun c => c.waits.isEmpty &&
    (decide (s.host.pending.length < Config.pendingDepth) || (c.quiet && cplStatus c == stOk) ||
      (cplFits s c && !(s.host.pending.any fun x => x.cring == c.cring)))

def execCompletionWrite (s : State) : Res :=
  .next (match nextPending s s.host.pending [] with
    | some c => writeCpl { s with host := { s.host with pending := s.host.pending.erase c } } c
    | none =>
      match nextReady s with
      | some c => postCpl { s with host := { s.host with ready := s.host.ready.erase c } } c
      | none => s)

end Sys2Proof.Machine
end

