-- ==== Sys2Proof/Machine/Tick.lean ====
section
/-! DEFINITION. The tick: its beginning (07 R202), its adoption and declaration (R196, R197), and TICK_OFFER (09 R259). -/

namespace Sys2Proof.Machine

/-! ### The beginning of a tick -/

/-- Excisions whose effect tick begins: the drain of each begins (03 R96). -/
def beginExcisions (s : State) : State :=
  (s.tills.filter fun e => e.2.st == .open && !e.2.excisions.isEmpty).foldl (fun s e =>
    modTill s e.1 fun t =>
      let due := t.excisions.filter fun x => !laterTick s x.2.2.1
      let drains : List Drain := due.map fun x => { c := s.now, kind := .excise x.1 x.2.1, by_ := some x.2.2.2 }
      { t with excisions := t.excisions.filter fun x => laterTick s x.2.2.1, drains := t.drains ++ drains }) s

/-- A tick begins: its number advances, watches begin unmet, and what waited for a tick takes effect. -/
def beginTick (s : State) : State :=
  let s := { s with tick := { s.tick with num := s.tick.num + 1, start := s.tick.start + tickLen s, sampleNow := s.tick.sample } }
  beginExcisions (openWaiting (openTills (tandemTick (clearWatches s false)) true) true)

/-- The first FCLK cycle of the next tick has come. -/
def tickDue (s : State) : Bool := ticksOn s && decide ((s.now : Int) ≥ s.tick.start + tickLen s)

def execTickBegin (s : State) : Res := .next (if tickDue s then beginTick s else s)

/-! ### TICK_OFFER (09 R259, Table 9.5) -/

/-- The tick and offset of the block begun last. -/
def markTick (s : State) : BitVec 48 × Nat :=
  let c : Int := (s.now - s.now % 10 : Nat)
  if !ticksOn s then (s.tick.num, 0)
  else if c ≥ s.tick.start then (s.tick.num, (c - s.tick.start).toNat)
  else (s.tick.num - 1, (c + tickLen s - s.tick.start).toNat)

/-- The payload of a TICK_OFFER on a port. -/
def offerBytes (s : State) (p : Nat) : List Byte :=
  let (num, ofs) := markTick s
  let bsn := bits (laneAt s (nth (portAt s p).lanes 0)).sent.toNat 71 60
  padTo 32 (leBytes 6 num.toNat ++ leBytes 2 bsn ++ leBytes 4 ofs ++ leBytes 1 (ofInt 8 s.tick.residual) ++
    leBytes 1 s.tick.state.toNat)

/-- An aligned or root X7 sends a TICK_OFFER on a carrying port, at least once every 65,536 cycles. -/
def execTickOfferSend (port : BitVec 9) (s : State) : Res :=
  .next (
    let p := port.toNat
    let q := portAt s p
    let rest := match q.lastOffer with
      | none => true
      | some t => decide (s.now ≥ t + 65536)
    if s.tick.state = 0 ∨ q.conf = false ∨ carrying q.link.st = false ∨ rest = false then s
    else
      let h := ownFrame s 0xB 6 (planNeighbour q.plan) 0 0 0 0 0x01000000
      let s := emitTo s p (mkFrame h (offerBytes s p)) (freeDelay s) false none
      modPort s p fun q => { q with lastOffer := some s.now })

/-! ### Adoption (07 R196, R197) -/

/-- The plan's tick ports whose link carries and shows ALIGNED or ROOT, with their place in the plan, in plan order. -/
def tickSources (s : State) : List (Nat × Nat) :=
  ((List.range 4).zip s.boot.tickPorts).filterMap fun e => match e.2 with
    | some p => if carrying (portAt s p).link.st ∧ (portAt s p).link.nbrTstate ≠ 0 then some (e.1, p) else none
    | none => none

/-- Where an offer on port p is taken: SOURCE of TICK_STATUS, none when it is not. -/
def offerTaken (s : State) (p : Nat) : Option Nat :=
  if s.tick.state = 0 then
    match tickSources s with
    | (i, q) :: _ => if q = p then some i else none
    | [] => none
  else if s.tick.state = 2 ∧ s.tick.rootFirst = some (some p) then some 7
  else none

/-- The tick set by an offer: the FCLK cycle nearest to the root's boundary, which lies `b` lane symbols after cycle 0, carried on to
the tick of this cycle. With TICK_LEN = 0 the tick number stays as it is (R202). -/
def adoptTick (s : State) (num : BitVec 48) (b : Int) : Tick :=
  let st : Int := (b + 70) / 140
  let len : Int := tickLen s
  let k : Int := ((s.now : Int) - st) / len
  if tickLen s = 0 then { s.tick with residual := st * 140 - b }
  else { s.tick with num := num + BitVec.ofInt 48 k, start := st + k * len, residual := st * 140 - b, running := true }

/-- A TICK_OFFER: `markArrival` is when the marked block's first bit arrived, in lane symbols from cycle 0. -/
def execTickOfferReceive (port : BitVec 9) (f : Frame) (markArrival : Nat) (s : State) : Res :=
  .next (
    let p := port.toNat
    let h := headerOf f.hdr
    if h.type != 0xB || mgmtSubtype h != 1 || !frameGood f || !carrying (portAt s p).link.st then s
    else
      let (s, _, _) := takeIntake s f
      let b := f.payload
      match offerTaken s p with
      | none => s
      | some src =>
        if leAt b 13 1 % 4 = 0 then s
        else
          let bound : Int := (markArrival : Int) - (portAt s p).link.delaySym - leAt b 8 4 * 140 - toInt 8 (leAt b 12 1)
          let t := adoptTick s (BitVec.ofNat 48 (leAt b 0 6)) bound
          let root := s.tick.state == 2
          let t := { t with sourcePort := port }
          let t := if root then { t with rootFirst := some none } else { t with state := 1, source := BitVec.ofNat 3 src }
          let old := s.tick.num
          let s := openWaiting (clearWatches { s with tick := t } true) false
          recordRaw s oPeer p 0x0B 0 old.toNat t.num.toNat)

end Sys2Proof.Machine
end

