-- ==== Sys2Proof/Machine/Boot.lean ====
section
/-! DEFINITION. Bring-up and resets: cold and warm reset, PLLs, straps and fuses, firmware, wiring plan and equalisation table, and
the steward (07 R193; 14 R400; 15 R408-R423). -/

namespace Sys2Proof.Machine

/-! ### Cold reset (15 R408, Table 12.15, Table 15.2) -/

/-- The X7 in cold reset: only fuses, pins, what the package latches, and the queue of commands remain. -/
def coldState (s : State) (cause : BitVec 2) : State :=
  let b := s.boot
  let power := cause == 0
  { boot := { phase := if cause = 2 then .plls else .reset, cause := cause, fuses := b.fuses, pins := b.pins,
              thermtrip := b.thermtrip && !power, refclkOk := cause != 2 && b.refclkOk,
              temps := if power then List.replicate 6 none else b.temps },
    fresh := s.fresh, pending := s.pending }

def execColdReset (cause : BitVec 2) (s : State) : Res := .next (coldState s cause)

/-- RST_N is sampled high: SYNC_N is driven low and the PLLs start. -/
def execRstNRelease (s : State) : Res :=
  .next (if s.boot.phase = .reset then { s with boot := { s.boot with phase := .plls, syncDriven := true } } else s)

/-- The strap settings hold the boot: reason 0x01 a grade that does not match, 0x02 a reserved STRAP_CXL (15 R413). -/
def strapFault (s : State) : Option Nat :=
  if bits s.boot.strap.toNat 13 12 ≠ grade s ∨ bits s.boot.strap.toNat 13 12 = 0 then some 1
  else if bits s.boot.strap.toNat 11 10 = 3 then some 2
  else none

/-- BOOT_FAIL: the slot or item, and the reason (15 Table 15.11). -/
def bootFail (s : State) (target reason : Nat) : State := recordRaw s oSteward 0 0x0C target 0 reason

/-- The held state is entered. -/
def holdBoot (s : State) : State := { s with boot := { s.boot with held := true } }

/-- Every PLL reports lock: the boot ROM reads the fuses, samples the straps and checks them, and releases SYNC_N. -/
def execPllLock (fuses : Fuses) (pins : BitVec 14) (s : State) : Res :=
  .next (
    if s.boot.phase ≠ .plls ∨ s.boot.refclkOk = false then s
    else
      let strap := pins &&& 0x3FF7
      let s := { s with
        boot := { s.boot with phase := .sync, fuses := fuses, pins := pins, strap := strap, sampled := true, syncDriven := false },
        tick := { s.tick with len := strapTickLen strap } }
      match strapFault s with
      | some r => holdBoot (bootFail s 0 r)
      | none => s)

/-- SYNC_N is sampled high: FCLK cycle 0 begins eight REFCLK cycles later. The X7 is UNALIGNED, and a loss of REFCLK before the
reset is shown. -/
def execSyncNSampleHigh (s : State) : Res :=
  .next (
    if s.boot.phase ≠ .sync then s
    else
      let s := { s with boot := { s.boot with phase := .run }, now := 0 }
      let s := noteState s srcCoreW 7 0
      if s.boot.cause = 2 then setCause s srcSteward stwRefclk 0 else s)

/-! ### Tiles (15 Table 15.2) -/

def readyBits (s : State) (v : Nat) : State := { s with boot := { s.boot with ready := s.boot.ready ||| BitVec.ofNat 32 v } }
def unreadyBits (s : State) (v : Nat) : State := { s with boot := { s.boot with ready := s.boot.ready &&& ~~~(BitVec.ofNat 32 v) } }

/-- Bits 22 and 23 of STAT_READY: the core slices of the grade. -/
def coreBits (s : State) : Nat := 2 ^ 22 + b2n (hasEast s) * 2 ^ 23

/-- The zeroing of every accumulator word has ended. It does not start when the strap check held the boot. -/
def execTilesReady (s : State) : Res :=
  .next (if s.boot.phase ≠ .run ∨ (strapFault s).isSome = true then s
    else readyBits { s with tiles := { s.tiles with ready := true } } (2 ^ 20 + b2n (hasEast s) * 2 ^ 21))

/-! ### The flash directory (15 R416) -/

def dirEntries (l : List Byte) : Nat := leAt l 5 1

/-- One copy of the directory is good. -/
def dirGood (l : List Byte) : Bool :=
  let n := dirEntries l
  leAt l 0 4 == 0x44374E58 && leAt l 4 1 == 1 && decide (1 ≤ n) && decide (n ≤ 16) && decide (16 + 16 * n ≤ l.length) &&
    leAt l 12 4 == crc32 (slice l 0 12 ++ slice l 16 (16 * n))

/-- The copy that is used. -/
def dirOf (d : FlashDir) : Option (List Byte) :=
  if dirGood d.first then some d.first else if dirGood d.second then some d.second else none

/-- LENGTH and ITEM_CRC of the item of a type and index. -/
def dirItem (l : List Byte) (type index : Nat) : Option (Nat × Nat) :=
  (firstIdx (dirEntries l) fun i => leAt l (16 + 16 * i) 1 == type && leAt l (17 + 16 * i) 1 == index).map fun i =>
    (leAt l (16 + 16 * i + 8) 4, leAt l (16 + 16 * i + 12) 4)

/-- An item as read: present and good, absent, or one whose CRC fails. -/
inductive Item where
  | good
  | absent
  | bad
  deriving DecidableEq, Repr

def itemOf (dir : Option (List Byte)) (type index : Nat) (data : List Byte) : Item :=
  match dir with
  | none => .absent
  | some l =>
    match dirItem l type index with
    | none => .absent
    | some (n, crc) => if data.length = n ∧ crc32 data = crc then .good else .bad

/-- FLASH_DETECT for an item whose CRC fails. -/
def noteFlash (s : State) (i : Item) : State := if i = .bad then setCause s srcSteward stwFlash 0 else s

/-! ### Firmware (15 R417-R419) -/

/-- b to the power e modulo n, over the low k bits of e. -/
def expMod (n : Nat) : Nat → Nat → Nat → Nat
  | 0, _, _ => 1 % n
  | k + 1, b, e =>
    let r := expMod n k (b * b % n) (e / 2)
    if e % 2 = 1 then b * r % n else r

/-- MGF1 with SHA-512 (RFC 8017). -/
def mgf1 (seed : List Byte) (n : Nat) : List Byte :=
  (((List.range (ceilDiv n 64)).map fun i => sha512Bytes (seed ++ beBytes 4 i)).flatten).take n

/-- The RSASSA-PSS signature verifies: SHA-512, MGF1 with SHA-512, a salt of 64 bytes (15 R417). `digest` takes the place of the
message's hash. -/
def pssOk (n e sig : Nat) (digest : List Byte) : Bool :=
  let emBits := Nat.log2 n
  let emLen := ceilDiv emBits 8
  let m := expMod n 32 sig e
  let em := beBytes emLen m
  let k := emLen - 65
  let h := slice em k 64
  let top := 8 * emLen - emBits
  let db := List.zipWith (fun a b => a ^^^ b) (em.take k) (mgf1 h k)
  let db0 := BitVec.ofNat 8 ((db.headD 0).toNat % 2 ^ (8 - top))
  let db := db0 :: db.drop 1
  decide (n > 1) && decide (sig < n) && decide (m < 256 ^ emLen) && decide (emLen ≥ 130) && leAt em (emLen - 1) 1 == 0xBC &&
    decide ((em.headD 0).toNat < 2 ^ (8 - top)) && (db.take (k - 65)).all (fun b => b == 0) && leAt db (k - 65) 1 == 1 &&
    sha512Bytes (List.replicate 8 0 ++ digest ++ db.drop (k - 64)) == h

/-- The image digest: header bytes 0-1,023 followed by the body (15 R417). -/
def imageDigest (l : List Byte) : List Byte := sha512Bytes (slice l 0 1024 ++ slice l 1536 (leAt l 12 4))

/-- The reason an image is rejected for, the first check that fails (15 R418). -/
def imageFault (s : State) (l : List Byte) : Option Nat :=
  let body := leAt l 12 4
  let key := leAt l 5 1
  let f := s.boot.fuses
  let zero (a n : Nat) : Bool := (slice l a n).all fun b => b == 0
  let root := sha512 (slice l 64 516)
  if !(leAt l 0 4 == 0x46374E58 && leAt l 4 1 == 1 && decide (leAt l 6 1 < 4) && decide (1 ≤ body) && decide (body ≤ 4192768) &&
      decide (1536 + body ≤ l.length) && zero 16 48 && zero 580 444) then some 5
  else if leAt l 10 2 < f.svn then some 6
  else if key = 0 ∧ f.revoked0 = true then some 7
  else if !((key == 0 && root == f.rootKey0) || (key == 1 && root == f.rootKey1)) then some 8
  else if !pssOk (beNat (slice l 64 512)) (leAt l 576 4) (beNat (slice l 1024 512)) (imageDigest l) then some 9
  else none

/-- Firmware slots that STRAP_BOOT allows, in order: 0 A, 1 B, 2 JTAG (15 Table 15.3). -/
def slotOrder (s : State) : List Nat := match bits s.boot.strap.toNat 9 8 with
  | 0 => [0, 1]
  | 1 => [1, 0]
  | 2 => [0]
  | _ => [2]

/-- A slot's image is rejected; with no slot left the boot is held. -/
def rejectSlot (s : State) (slot reason : Nat) : State :=
  let s := bootFail s slot reason
  let s := { s with boot := { s.boot with tried := s.boot.tried ++ [slot] } }
  if (slotOrder s).all s.boot.tried.contains then holdBoot s else s

/-- The identity chain is checked (15 R423). -/
def checkIdentity (s : State) (dir : Option (List Byte)) (chain : List Byte) (keyOk : Bool) : State :=
  let i := itemOf dir 3 0 chain
  let s := noteFlash s i
  if i = .good then
    let s := { s with boot := { s.boot with certChain := chain, unprovisioned := !keyOk } }
    if keyOk then s else bootFail s 3 0x0B
  else bootFail { s with boot := { s.boot with unprovisioned := true } } 3 0x0B

/-- An accepted image: FIRMWARE is recorded and the steward starts. -/
def startFirmware (s : State) (slot : Nat) (l : List Byte) : State :=
  let flags := leAt l 6 1
  let fw : Firmware := {
    slot := slot, version := BitVec.ofNat 16 (leAt l 8 2), compat := BitVec.ofNat 8 (leAt l 7 1), svn := leAt l 10 2,
    keySlot := leAt l 5 1, commitSvn := bit flags 0, revoke0 := bit flags 1, digest := BitVec.ofNat 512 (beNat (imageDigest l)) }
  let target := fw.version.toNat + fw.compat.toNat * 2 ^ 16 + slot * 2 ^ 24 + fw.svn * 2 ^ 32
  let s := record s oSteward 0 0x03 false target [] (imageDigest l)
  readyBits { s with boot := { s.boot with
    fw := some fw, steward := true, capFw := BitVec.ofNat 32 (2 ^ 31 + fw.compat.toNat * 2 ^ 16 + fw.version.toNat),
    debugBits := if slot = 2 then s.boot.debugBits ||| 4 else s.boot.debugBits } } (2 ^ 31)

/-- The boot ROM waits for firmware: the flash may be read, no image runs and the boot is not held. -/
def awaitsFirmware (s : State) : Bool :=
  s.boot.phase == .run && decide (s.now ≥ 1024) && !s.boot.held && s.boot.fw.isNone

def execFirmwareCheck (dir : FlashDir) (item chain : List Byte) (chainKeyOk : Bool) (s : State) : Res :=
  .next (
    if !awaitsFirmware s then s
    else
      match dirOf dir with
      | none => holdBoot (bootFail (setCause s srcSteward stwFlash 0) 0 3)
      | some l =>
        match (slotOrder s).find? fun x => !s.boot.tried.contains x with
        | none => s
        | some slot =>
          let data := if slot = 2 then s.boot.jtag else some item
          match data with
          | none => s
          | some img =>
            let i := if slot = 2 then .good else itemOf (some l) (slot + 1) 0 img
            let s := noteFlash s i
            if i ≠ .good then rejectSlot s slot 4
            else match imageFault s img with
              | some r => rejectSlot s slot r
              | none => checkIdentity (startFirmware s slot img) (some l) chain chainKeyOk)

/-- STRAP_BOOT = 0b11: an image written through JTAG into steward memory. -/
def execJtagBootLoad (image : List Byte) (s : State) : Res :=
  .next (if s.boot.phase ≠ .run ∨ s.boot.held = true ∨ s.boot.fw.isSome = true ∨ bits s.boot.strap.toNat 9 8 ≠ 3 then s
    else { s with boot := { s.boot with jtag := some image } })

/-! ### The wiring plan (15 R421, Table 15.7) -/

/-- A tick port of the plan header: none when it is not VALID. -/
def planTick (l : List Byte) (i : Nat) : Option Nat :=
  let w := leAt l (10 + 2 * i) 2
  if bit w 15 then some (bits w 8 0) else none

/-- BOARD_EPp of the header. -/
def planBoardEp (l : List Byte) (p : Nat) : Option (BitVec 20) :=
  let w := leAt l (18 + 3 * p) 3
  if bit w 23 then some (BitVec.ofNat 20 w) else none

def planEntry (l : List Byte) (p : Nat) : W64 := BitVec.ofNat 64 (leAt l (64 + 8 * p) 8)

/-- Fields of the header are in range and its reserved bits 0. -/
def planRanges (l : List Byte) : Bool :=
  let ticks := (List.range 4).all fun i => bits (leAt l (10 + 2 * i) 2) 14 9 == 0
  let eps := (List.range 8).all fun p => bits (leAt l (18 + 3 * p) 3) 22 20 == 0
  leAt l 0 1 == 1 && decide (leAt l 1 1 < 8) && decide (leAt l 2 1 < 2) && leAt l 3 1 == 0 && decide (leAt l 4 4 < 0xF0000) &&
    ticks && eps && (slice l 42 22).all fun b => b == 0

/-- The plan passes R421. -/
def planGood (s : State) (l : List Byte) : Bool :=
  let root := leAt l 2 1 == 1
  let bpos := bits s.boot.strap.toNat 2 0
  let ticks := (List.range 4).filterMap (planTick l)
  let eps := (List.range 8).filterMap (planBoardEp l)
  planRanges l && leAt l 1 1 == bpos && (if root then ticks.isEmpty else (planTick l 0).isSome) &&
    (ticks.all fun p => planUsed (planEntry l p) && planX7 (planEntry l p)) &&
    planBoardEp l bpos == some (BitVec.ofNat 20 (leAt l 4 4)) && distinct (eps.map (·.toNat))

/-- An accepted plan is taken over and recorded, and each port group that passes R235 becomes ready. -/
def takePlan (s : State) (l : List Byte) : State :=
  let root := leAt l 2 1 == 1
  let words : Sparse W64 := (List.range 512).foldl (fun m p => sput 0 m p (planEntry l p)) []
  let dg := sha512Bytes l
  let s := { s with boot := { s.boot with
    planOk := true, planId := BitVec.ofNat 16 (leAt l 8 2), tickRoot := root, tickPorts := (List.range 4).map (planTick l),
    boardEp := (List.range 8).map (planBoardEp l), planDigest := BitVec.ofNat 512 (beNat dg), planWords := words,
    capEndpoint := BitVec.ofNat 32 (2 ^ 31 + leAt l 4 4) } }
  let s := { s with tick := if root then { s.tick with state := 2, source := 7 } else s.tick }
  let s := record s oSteward 0 0x05 false (leAt l 8 2) [] dg
  let s := openWaiting s false
  ((List.range 16).filter (hasPg s)).foldl (fun s pg =>
    let (s, ok) := openGroup s pg
    if ok then readyBits s (2 ^ pg) else s) s

/-! ### The equalisation table (08 R233) -/

/-- The words of lane l of a table. -/
def eqLane (t : List Byte) (l : Nat) : List W64 := (List.range 4).map fun i => BitVec.ofNat 64 (leAt t (64 + 32 * l + 8 * i) 8)

/-- FFE tap k of a lane entry. -/
def ffeTap (w : List W64) (k : Nat) : Int := toInt 7 (wf w (1 + k / 8) (63 - 7 * (k % 8)) (57 - 7 * (k % 8)))

/-- A lane entry keeps R233. -/
def eqLaneOk (w : List W64) : Bool :=
  let taps := (toInt 6 (wf w 0 57 52)).natAbs + (toInt 6 (wf w 0 51 46)).natAbs + wf w 0 45 40 + (toInt 6 (wf w 0 39 34)).natAbs
  wf w 0 15 0 == 0 && wf w 1 7 0 == 0 && wf w 2 7 0 == 0 && wf w 3 47 0 == 0 && decide (taps ≤ 63) &&
    decide (ffeTap w (wf w 3 63 60) > 0)

/-- The header of the table at a place of the flash. -/
def eqHeaderOk (t : List Byte) (index : Nat) : Bool :=
  leAt t 0 1 == 1 && leAt t 1 1 == index && leAt t 2 2 == 512 && (slice t 6 58).all fun b => b == 0

/-- The chosen table is checked, its refused lanes are posted, and it is recorded. -/
def takeEq (s : State) (t : List Byte) : State :=
  let index := bits s.boot.strap.toNat 7 6
  if !eqHeaderOk t index then postEvent s (srcPg 0) 0x23 0 0 0 0
  else
    let lanes := if isN s then 256 else 512
    let bad := (List.range lanes).filter fun l => !eqLaneOk (eqLane t l)
    let good := (List.range lanes).filter fun l => eqLaneOk (eqLane t l) && wb (eqLane t l) 0 63
    let s := bad.foldl (fun s l => postEvent s (srcPg (pgOf l)) 0x23 0 l 0 0) s
    let dg := sha512Bytes t
    let s := { s with boot := { s.boot with eq := good.map fun l => (l, eqLane t l), eqDigest := BitVec.ofNat 512 (beNat dg) } }
    record s oSteward 0 0x04 false (index + leAt t 4 2 * 2 ^ 16) [] dg

/-- Lanes stay electrically idle after a trip, without a plan, or without a table that enables one. -/
def settleIdle (s : State) : State :=
  { s with boot := { s.boot with allIdle := s.boot.thermtrip || s.boot.warm || !s.boot.planOk || s.boot.eq.isEmpty } }

def execWiringPlanCheck (dir : FlashDir) (plan eq : List Byte) (s : State) : Res :=
  .next (
    if s.boot.phase ≠ .run ∨ s.boot.steward = false ∨ s.boot.planDone = true then s
    else
      let d := dirOf dir
      let i := itemOf d 5 0 plan
      let s := noteFlash { s with boot := { s.boot with planDone := true } } i
      let s := if i ≠ .good then bootFail s 5 4
               else if plan.length = 4160 ∧ planGood s plan = true then takePlan s plan
               else bootFail s 5 0x0A
      let j := itemOf d 4 (bits s.boot.strap.toNat 7 6) eq
      let s := noteFlash s j
      let s := if j = .good then takeEq s eq else s
      settleIdle (readyBits s (coreBits s)))

/-! ### Fuses and straps (15 R412, R420) -/

/-- SVN is committed, and slot 0 revoked, once the first seal of the boot has completed. -/
def execFuseWrite (s : State) : Res :=
  .next (match s.boot.fw with
    | none => s
    | some fw =>
      if !s.boot.steward || !s.ledger.sealed || !ledgerRoom s then s
      else
        let old := s.boot.fuses.svn
        let s := if fw.commitSvn && decide (fw.svn > old) then
            recordRaw { s with boot := { s.boot with fuses := { s.boot.fuses with svn := fw.svn } } } oSteward 0 0x06 0 old fw.svn
          else s
        if fw.keySlot == 1 && fw.revoke0 && !s.boot.fuses.revoked0 then
          recordRaw { s with boot := { s.boot with fuses := { s.boot.fuses with revoked0 := true } } } oSteward 0 0x06 1 0 1
        else s)

def execStrapChange (pins : BitVec 14) (s : State) : Res :=
  .next (if pins = s.boot.pins then s
    else
      let s := { s with boot := { s.boot with pins := pins } }
      if s.boot.sampled then recordRaw s oStrap 0 0x01 0 (strapValue s).toNat pins.toNat else s)

/-! ### Warm reset (15 R414, Table 12.15) -/

/-- A port under a warm reset: nothing queued or under way, and its link starts again. -/
def warmPort (s : State) (p : Nat) : State :=
  let st := (portAt s p).link.st
  let s := if (portAt s p).conf then toQuiet s p 0 (if st = .down then .down else .quiet) else s
  modPort s p fun q => { q with
    q := { samples := q.q.samples }, kick := { q.kick with pending := [] }, met := List.replicate 4 false, fresh := List.replicate 4 false,
    missed := List.replicate 4 false, lastOffer := none }

/-- A region under a warm reset: reads and transfers under way are lost, and an epoch cut off leaves it SPLIT (05 R152). -/
def warmRegion (r : Region) : Region :=
  { r with parked := [], transfers := 0, gathers := 0,
           chunks := r.chunks.map fun c => { c with build := [] },
           split := r.split || r.chunks.any fun c => c.stored == r.current + 1 }

/-- Everything that a warm reset discards. -/
def warmState (s : State) : State :=
  let s := s.ports.foldl (fun s e => warmPort s e.1) (settleWaits s)
  let hbm := s.hbm
  let idle (r : CmdRing) : CmdRing := { r with outstanding := 0 }
  let s : State := { s with
    frames := [], stalled := [], reorder := [], doneMsgs := [], intake := [], parsing := [], dropping := [], tills := [], tallies := [], relays := [],
    ctxs := [], bridge := {}, progs := s.progs.filter fun e => e.2.loading.isNone,
    faults := { s.faults with slices := [], cells := [], flits := [] },
    tables := { s.tables with staged := [], armed := [] },
    pools := { s.pools with slabs := [], cells := [], sliceUse := [], use := [], stagingUsed := 0, mirror := [],
                             returning := [], cellsFreed := [], stagingFreed := 0 },
    tiles := { s.tiles with scratch := [], haltState := 0, liftedAt := 0 },
    hbm := { hbm with regions := hbm.regions.map (fun e => (e.1, warmRegion e.2)), reqs := [], xfers := [], writing := [] },
    tandem := { s.tandem with own := [], twin := [], forming := [], restore := false },
    host := { s.host with cmd := canonMap {} (s.host.cmd.map fun e => (e.1, idle e.2)), ready := [] },
    spdm := { count := s.spdm.count } }
  s.pools.slabsFenced.foldl (fun s e => setFree s e.1 (carve 4 e.2 (freeBlocks s e.1))) s

/-- WRST_N is sampled low: ignored before STEWARD has first been set, and in the held state (15 R409, R413). -/
def execWarmReset (s : State) : Res :=
  .next (
    if s.boot.phase ≠ .run ∨ s.boot.fw.isNone = true ∨ s.boot.held = true ∨ s.boot.warm = true then s
    else
      let s := recordRaw (hostOff (sealLost s)) oDevice srcSteward 0x08 0 0 0
      let lost := s.tables.armed.map (·.set)
      let s := warmState s
      unreadyBits { s with boot := { s.boot with
        warm := true, steward := false, lostSets := s.boot.lostSets ++ lost, quietNext := true, allIdle := true, coreAt := none } }
        (2 ^ 31 + 2 ^ 22 + 2 ^ 23))

/-- WRST_N is sampled high again: the data path is released, and CORE_W and CORE_E are set 64 cycles later. -/
def execWarmResetRelease (s : State) : Res :=
  .next (if !s.boot.warm then s
    else { s with boot := { s.boot with warm := false, coreAt := some (s.now + 64) } })

/-- CORE_W and CORE_E come back (15 Table 15.4). -/
def coresReturn (s : State) : State := match s.boot.coreAt with
  | some c => if s.now ≥ c then readyBits { s with boot := { s.boot with coreAt := none } } (coreBits s) else s
  | none => s

/-! ### The steward (01 R21, 15 R408, R414) -/

/-- A watchdog or an exception restarts the steward. -/
def execStewardRestart (exception : Bool) (core : BitVec 2) (s : State) : Res :=
  .next (
    if s.boot.phase ≠ .run ∨ s.boot.steward = false then s
    else
      let s := recordRaw (sealLost s) oSteward core.toNat 0x0A (b2n exception) 0 0
      let s := unreadyBits { s with boot := { s.boot with steward := false }, spdm := { count := s.spdm.count } } (2 ^ 31)
      let s := setCause s srcSteward stwReset 0
      if exception then s else setCause s srcSteward stwWatchdog 0)

/-- Sets lost to a warm reset are recorded when the steward returns (07 R220). -/
def recordLost (s : State) : State :=
  let s' := s.boot.lostSets.foldl (fun s x => recordRaw s oDevice srcCoreW 0x13 x.toNat 0 (Config.lostCode x)) s
  { s' with boot := { s'.boot with lostSets := [] } }

/-- Ports enter QUIET after a warm reset. -/
def quietPorts (s : State) : State :=
  (s.ports.filter fun e => e.2.conf && e.2.link.st == .quiet).foldl (fun s e => modLink s e.1 fun l => { l with since := s.now }) s

/-- After a warm reset the image in steward memory no longer matches measurement 2: the held state, in which no PG, CORE or STEWARD bit is
set and every lane stays idle (15 R413, R414). -/
def imageMismatch (s : State) : State :=
  unreadyBits (holdBoot (bootFail { s with boot := { s.boot with quietNext := false, allIdle := true, coreAt := none } } 0 Config.mismatchReason))
    (2 ^ 31 + 2 ^ 22 + 2 ^ 23 + 0xFFFF)

/-- The restarted steward returns, after a warm reset once its image matches measurement 2 (15 R414). -/
def execStewardReturn (s : State) : Res :=
  .next (
    if s.boot.phase ≠ .run ∨ s.boot.steward = true ∨ s.boot.fw.isNone = true ∨ s.boot.held = true ∨ s.boot.warm = true then s
    else if s.boot.quietNext && s.faults.image then imageMismatch s
    else
      let s := readyBits { s with boot := { s.boot with steward := true } } (2 ^ 31)
      let s := recordLost s
      if s.boot.quietNext then settleIdle (quietPorts { s with boot := { s.boot with quietNext := false } }) else s)

/-! ### Sensors and REFCLK (01 R16, R18; 16 R446, R450, R451) -/

/-- 16 f of a die at T degrees (16 R450). -/
def withheldOf (t : Int) : Nat := if t ≥ 105 then min 15 (t - 104).toNat else 0

/-- In-band interrupt on the I3C bus (16 Table 16.6). -/
def raiseIbi (s : State) (b : Byte) : State := { s with boot := { s.boot with i3cIbi := s.boot.i3cIbi ++ [b] } }

/-- A die's reading sets its throttle: an interval begins at 105 degrees, goes on, or ends below 100 with its THROTTLE entry. -/
def throttleDie (s : State) (die : Nat) (t : Int) : State :=
  let put (s : State) (v : Option (Nat × BitVec 48 × Nat × Nat)) : State :=
    { s with boot := { s.boot with throttle := s.boot.throttle.set die v } }
  match s.boot.throttle.getD die none with
  | none =>
    if t ≥ 105 then
      noteState (raiseIbi (put s (some (withheldOf t, s.tick.num, withheldOf t, 1))) 0x01) (srcCore die) 5 die
    else s
  | some (_, start, sum, n) =>
    if t ≥ 100 then put s (some (withheldOf t, start, sum + withheldOf t, n + 1))
    else
      let avg := sum * 4096 / max 1 n
      recordRaw (put s none) oDevice (srcCore die) 0x18 die start.toNat (s.tick.num.toNat + avg % 65536 * 2 ^ 64)

/-- A die's reading sets its throttle and the bulk passes that run there meet it from then on (16 R450). -/
def readDie (s : State) (die : Nat) (t : Int) : State :=
  let s' := throttleDie s die t
  rethrottle s' die (throttleOf s (2048 * die)) (throttleOf s' (2048 * die))

/-- A stack's reading: HOT at 85 degrees and above (12 Table 12.5). -/
def heatStack (s : State) (k : Nat) (t : Int) : State :=
  let hot := decide (t ≥ 85)
  let s := { s with hbm := { s.hbm with stackOf := s.hbm.stackOf.set k { s.hbm.stackOf.getD k {} with hot := hot } } }
  if hot then noteState s (srcHbm k) 5 0 else s

/-- Temperatures read: west die, east die, stacks. -/
def execSensorRead (west east : Int) (stackTemps : List Int) (s : State) : Res :=
  .next (
    if s.boot.phase ≠ .run then s
    else
      let dies : List (Nat × Int) := (0, west) :: (if hasEast s then [(1, east)] else [])
      let hs : List (Nat × Int) := ((List.range 4).zip stackTemps).filter fun e => hasStack s e.1
      let temps := (dies.foldl (fun l e => l.set e.1 (some e.2)) s.boot.temps)
      let temps := hs.foldl (fun l e => l.set (2 + e.1) (some e.2)) temps
      let s := { s with boot := { s.boot with temps := temps } }
      let s := dies.foldl (fun s e => readDie s e.1 e.2) s
      let s := hs.foldl (fun s e => heatStack s e.1 e.2) s
      let near := (dies.any fun e => decide (e.2 ≥ 120)) || hs.any fun e => decide (e.2 ≥ 100)
      let trip := (dies.any fun e => decide (e.2 ≥ 125)) || hs.any fun e => decide (e.2 ≥ 105)
      let s := if near then raiseIbi s 0x02 else s
      if trip then { s with boot := { s.boot with thermtrip := true, allIdle := true } } else s)

/-- REFCLK measured against the internal oscillator: out of range is a cold reset until it returns. -/
def execRefclkMeasure (khz : Nat) (s : State) : Res :=
  .next (
    let ok := decide (99400 ≤ khz) && decide (khz ≤ 100050)
    if ok then { s with boot := { s.boot with refclkOk := true } }
    else if s.boot.phase = .reset then { s with boot := { s.boot with refclkOk := false } }
    else coldState s 2)

end Sys2Proof.Machine
end

