-- ==== Sys2Proof/Machine/Bridge.lean ====
section
/-! DEFINITION. The die-to-die bridge: the bytes it carries in a cycle and how they are granted (01 R13, R14), and flits that cannot be
corrected (12 R337). -/

namespace Sys2Proof.Machine

/-! ### What crosses -/

/-- Entries of a port, queued or on its lane. -/
def entriesOf (q : PortQ) : List Entry := q.queue ++ match q.lane with
  | .frame e _ _ => [e]
  | _ => []

/-- Logical tile that makes or takes the frames of a header: its till's, for the chunk it names. -/
def tileFor (s : State) (h : Header) : Option Nat := (tillAt s h.till.toNat).map fun t =>
  tileOf s h.till.toNat t.words (h.offset.toNat / max 1 (tChunkBlocks t.words))

/-- RESULT and PARTIAL frames are made by a tile, and CONTRIB and PARTIAL frames bound for one. -/
def madeByTile (h : Header) : Bool := h.type == 2 || h.type == 3
def boundForTile (h : Header) : Bool := h.type == 1 || (h.type == 3 && !bit h.aux.toNat 31)

/-- The access whose data a MEM_RSP carries, or that a MEM_WR asks for. -/
def framed (f : Frame) : Access := { accessOf (headerOf f.hdr) with len := f.payload.length, release := false }

/-- The first unit of an access on a stack of the other die than `die`. -/
def farUnit (s : State) (a : Access) (die : Nat) : Option (Nat × Nat) :=
  (regionAt s a.region).bind fun r =>
    let space := (accessPlaces r a).1
    ((accessUnits r a).find? fun i => readStack s r space i % 2 != die).map fun i => (space, i)

/-- The die of the tile or of the host interface (01 Table 1.2) that a request of the X7's own is for. -/
def requestDie (s : State) (tag : Nat) : Option Nat := (ofind s.hbm.reqs tag).bind fun q => match q.for_ with
  | .fuse n k => (tillAt s n).map fun t => tileOf s n t.words k / 2048
  | .xfer id => (ofind s.hbm.xfers id).map fun x => match x.run with
    | some (tile, _) => tile / 2048
    | none => 0

/-- The bytes of a frame of the X7's own come from the other die than `die`: from the tile that made it, the stack that holds them, the host
interface, or a relay's staging; a frame of another kind asks the bridge for nothing (DESIGN CHOICE, assumption log 56). -/
def farOwn (s : State) (e : Entry) (die : Nat) : Bool :=
  let h := headerOf e.frame.hdr
  if madeByTile h then (tileFor s h).any fun t => t / 2048 != die
  else if e.frame.payload.isEmpty then false
  else if h.type = 8 then (farUnit s (framed e.frame) die).isSome
  else if h.type = 7 then (requestDie s h.seq.toNat).any fun d => d != die
  else h.type == 0xC && Config.relayFar e.fid

/-- Bytes in an FCLK cycle of a frame of the X7's own: a tile's port, or a stack's. -/
def ownRate (h : Header) : Nat := if madeByTile h then tileRate else stackRate

/-- The crossing of an entry of port p, if its frame comes from the other die. -/
def entryCrossing (s : State) (p : Nat) (e : Entry) : Option Crossing :=
  let h := headerOf e.frame.hdr
  let die := dieOf p
  match e.inPort with
  | some (ip, _) =>
    if dieOf ip = die then none
    else some { what := .copy e.fid, die := die, cls := e.cls, source := e.src, rate := 32 * widthOf s ip, left := frameBytes e.frame,
                start := e.arrival + 44 }
  | none =>
    if e.src ≠ 16 ∨ e.mirror ≠ none ∨ farOwn s e die = false then none
    else some { what := .result e.fid, die := die, cls := e.cls, source := 16, rate := ownRate h, left := frameBytes e.frame,
                start := e.arrival }

/-- The die a consumed frame is bound for: that of its tile, of the stack it writes, or of the requester of its data. -/
def intakeDie (s : State) (i : Intake) : Option Nat :=
  let h := headerOf i.frame.hdr
  if boundForTile h then (tileFor s h).map fun t => t / 2048
  else if h.type = 7 then if (farUnit s (framed i.frame) (dieOf i.port)).isSome then some (1 - dieOf i.port) else none
  else if h.type = 8 then requestDie s h.seq.toNat
  else none

/-- The crossing of a consumed frame that is bound for the other die. -/
def inputCrossing (s : State) (i : Intake) : Option Crossing :=
  if i.port ≥ selfPort then none
  else match intakeDie s i with
    | none => none
    | some d => if d = dieOf i.port then none
                else some { what := .input i.port i.arrival, die := d, cls := (headerOf i.frame.hdr).cls.toNat, source := pgOf i.port,
                            rate := 32 * widthOf s i.port, left := frameBytes i.frame, start := i.arrival + 44 }

/-- The first operand that the pass of a context reads from a stack of the other die. -/
def farOperand (s : State) (key : Nat) (r : Running) : Option (Region × Nat) :=
  (tillAt s r.pass.till).bind fun t => (regionAt s (tRegion t.words)).bind fun v =>
    ((streamsOf (tillImage s t.words) 3).find? fun x =>
      !sWrite x && readStack s v (3 + sOpnd x) r.pass.chunk % 2 != key / 2 / 2048).map fun x => (v, sOpnd x)

/-- The crossing of the FABRIC streams of an update pass that begins in this cycle, whose operands lie on a stack of the other die. They ask
in class 7 for a tick-class till and in class 4 for another, as its inputs do (DESIGN CHOICE, assumption log 56: R14 gives operands no
class). -/
def operandCrossing (s : State) (e : Nat × Ctx) : Option Crossing :=
  e.2.running.bind fun r => (tillAt s r.pass.till).bind fun t =>
    let im := tillImage s t.words
    let n := validFrom t.words (chunkFirst t.words r.pass.chunk) (chunkLen t.words r.pass.chunk)
    if r.started ≠ s.now || r.pass.run.isSome || (farOperand s e.1 r).isNone then none
    else some { what := .operand e.1, die := e.1 / 2 / 2048, cls := if tTick t.words then 7 else 4, source := 16, rate := tileRate,
                left := fabricBytes im n false + fabricBytes im n true, start := s.now }

/-- What has come up in this cycle joins the bridge's crossings. -/
def joinBridge (s : State) : State :=
  let fresh (e : Entry) : Bool := decide (s.bridge.upTo ≤ e.fid)
  let copies := s.ports.flatMap fun q => ((entriesOf q.2.q).filter fresh).filterMap (entryCrossing s q.1)
  let news := s.intake.filter fun i => !s.bridge.inputs.contains (i.port, i.arrival)
  let all := copies ++ news.filterMap (inputCrossing s) ++ s.ctxs.filterMap (operandCrossing s)
  let ended (x : Crossing) : Bool := match x.what with
    | .operand key => (ctxAt s key).running.isNone
    | _ => false
  let s := all.foldl addCrossing { s with bridge := { s.bridge with crossings := s.bridge.crossings.filter fun x => !ended x } }
  { s with bridge := { s.bridge with upTo := s.fresh, inputs := s.intake.map fun i => (i.port, i.arrival) } }

/-! ### What is granted (R14) -/

/-- Bytes granted to each of a list in turn, of a number that is left. -/
def serve : Nat → List Crossing → List (Crossing × Nat)
  | _, [] => []
  | n, x :: r =>
    let g := min n (min x.rate x.left)
    (x, g) :: serve (n - g) r

/-- The crossings to a die that have bytes in this cycle. -/
def askers (s : State) (die : Nat) : List Crossing :=
  s.bridge.crossings.filter fun x => x.die == die && decide (x.start ≤ s.now)

/-- Those of a class, in round-robin order of their sources after the one last served. -/
def inTurn (s : State) (die c : Nat) : List Crossing :=
  (sourceOrder (nth s.bridge.last (die * 8 + c))).flatMap fun src => (askers s die).filter fun x => x.cls == c && x.source == src

/-- What every crossing to a die is granted: TC7 first, the others from what is not reserved for it, in descending order of class. -/
def granted (s : State) (die : Nat) : List (Crossing × Nat) :=
  let seven := serve Config.bridgeBytes (inTurn s die 7)
  let used := sumNat (seven.map (·.2))
  seven ++ serve (min (Config.bridgeBytes - Config.bridgeExpress) (Config.bridgeBytes - used))
    ([6, 5, 4, 3, 2, 1, 0].flatMap (inTurn s die))

/-- The source of a class that was served last. -/
def lastServed (l : List (Crossing × Nat)) (c old : Nat) : Nat :=
  ((l.filter fun x => x.1.cls == c && x.2 != 0).getLast?.map (·.1.source)).getD old

/-! ### What a shortage delays -/

/-- A frame whose bytes come later may start later; a pass whose operands do ends later. A frame on a lane stands still (`standStill`). -/
def delayed (s : State) (die : Nat) : CrossOf → State
  | .copy fid | .result fid =>
    let later (e : Entry) : Entry := if e.fid = fid then { e with ready := e.ready + 1 } else e
    s.ports.foldl (fun s q =>
      if dieOf q.1 == die && q.2.q.queue.any (fun e => e.fid == fid) then modQ s q.1 fun q => { q with queue := q.queue.map later }
      else s) s
  | .operand key => setCtx s key { ctxAt s key with running := (ctxAt s key).running.map fun r => { r with endsAt := r.endsAt + 1 } }
  | _ => s

/-! ### Flits that cannot be corrected (12 R337) -/

/-- CORE causes of Table 12.5. -/
def coreUncorr : Nat := 3
def coreBridge : Nat := 4

/-- A frame of the X7's own that is queued or on a lane, by its number. -/
def entryNamed (s : State) (fid : Nat) : Option Entry :=
  s.ports.findSome? fun q => (entriesOf q.2.q).find? fun e => e.fid == fid

/-- A copy whose bytes were lost on the bridge leaves stomped. -/
def stompCopy (fid : Nat) (q : PortQ) : PortQ :=
  let mark (e : Entry) : Entry := if e.fid = fid ∧ e.stomp = 0 then { e with stomp := 0x0002 } else e
  { q with queue := q.queue.map mark,
           lane := match q.lane with
             | .frame e st n => if e.fid = fid then .frame { e with frame := stompFrame e.frame 0x0002 } st n else q.lane
             | l => l }

/-- An HBM word that m flits failed in turn is a failed read of its place (R144): the place itself, again, then its twin. -/
def failWord (s : State) (n space place m : Nat) : State × Bool × Nat := readUnit s n space place (min m 2) (decide (m ≥ 3))

/-- The fused operand of a chunk lies at this address from its first byte on. -/
def fuseAddr (w : List W64) (k : Nat) : Nat := (w.getD 8 0).toNat + chunkFirst w k * tElems w * fuseSize w

/-- A frame of the X7's own that could not be read: a result is a tile store mismatch, a memory response has STATUS DETECT_FAIL or comes
later, any other frame is stomped. -/
def ownFails (s : State) (die fid m : Nat) : State :=
  match entryNamed s fid with
  | none => s
  | some e =>
    let h := headerOf e.frame.hdr
    let n := h.till.toNat
    let stomped (s : State) : State := s.ports.foldl (fun s q =>
      if dieOf q.1 == die && (entriesOf q.2.q).any (fun e => e.fid == fid) then modQ s q.1 (stompCopy fid) else s) s
    if madeByTile h then
      match tillAt s n with
      | none => s
      | some t =>
        let k := h.offset.toNat / max 1 (tChunkBlocks t.words)
        storeMismatch (recallFrames s (isChunkFrame n t k h.epoch)) n k
    else if h.type ≠ 8 then stomped s
    else
      let a := framed e.frame
      let q := match farUnit s a die with
        | some u => failWord s a.region u.1 u.2 m
        | none => (s, true, 0)
      let waits := q.1.ports.any fun p => p.2.q.queue.any fun x => x.fid == fid
      let later (x : Entry) : Entry := if x.fid = fid then { x with ready := x.ready + 168 * q.2.2 } else x
      if !waits then if q.2.1 then q.1 else stomped q.1
      else if q.2.1 then q.1.ports.foldl (fun s p => modQ s p.1 fun x => { x with queue := x.queue.map later }) q.1
      else memAnswer (recallFrames q.1 fun g => decide (g = h)) { h with src := h.dest } msDetect [] fun _ => e.ready

/-- What m failed flits of a crossing bring, by what it carried (R337). -/
def flitFails (s : State) (die m : Nat) : CrossOf → State
  | .copy fid => s.ports.foldl (fun s q =>
      if dieOf q.1 == die && (entriesOf q.2.q).any (fun e => e.fid == fid) then modQ s q.1 (stompCopy fid) else s)
      (stompCopies s (fun x => x.1 == fid && dieOf x.2 == die) 0x0002)
  | .input port arrival =>
    let mine (i : Intake) : Bool := i.port == port && i.arrival == arrival
    if s.intake.any mine then countPort { s with intake := s.intake.filter fun i => !mine i } port (rBadTrailer - 1) 1 else s
  | .result fid => ownFails s die fid m
  | .operand key =>
    match (ctxAt s key).running with
    | none => s
    | some r =>
      match farOperand s key r with
      | none => s
      | some (v, o) =>
        let q := failWord s (rNum v.words) (3 + o) r.pass.chunk m
        if q.2.1 then setCtx q.1 key { ctxAt s key with running := some { r with endsAt := r.endsAt + 168 * q.2.2 } }
        else match tillAt s r.pass.till with
          | some t => endTill q.1 r.pass.till stDetect (chunkOf t r.pass.chunk).epoch
          | none => q.1
  | .fused n k =>
    match tillAt s n with
    | none => s
    | some t =>
      let a : Access := { region := baRegion (fuseAddr t.words k), off := baOff (fuseAddr t.words k) / 32 * 32,
                          len := round32 (validFrom t.words (chunkFirst t.words k) (chunkLen t.words k) * fuseSize t.words),
                          job := tJob t.words, write := false, release := false, version := 0 }
      match farUnit s a die with
      | none => s
      | some u =>
        let q := failWord s a.region u.1 u.2 m
        if q.2.1 then q.1
        else endTill (recallFrames q.1 (isChunkFrame n t k (chunkOf t k).epoch)) n stDetect (chunkOf t k).epoch
  | .toHost id n space place =>
    let q := failWord s n space place m
    let one (c : Cpl) : Cpl := if c.waits.contains id then withStatus c stDetect else c
    if q.2.1 then q.1 else { q.1 with host := { q.1.host with ready := q.1.host.ready.map one } }
  | .fromHost _ => s

/-- Failed flits that bear on an HBM word are counted together, as the reads of R144; others one at a time. -/
def takenFlits (s : State) (what : CrossOf) : Nat :=
  let all := (s.faults.flits.filter fun x => x == what).length
  match what with
  | .operand _ | .fused _ _ | .toHost _ _ _ _ => all
  | .result fid => match entryNamed s fid with
    | some e => if (headerOf e.frame.hdr).type = 8 then all else 1
    | none => 1
  | _ => 1

/-- An uncorrectable flit reaches a die; sixteen within 65,536 cycles are reported as lasting. -/
def uncorrectable (s : State) (die : Nat) (what : CrossOf) : State :=
  let m := takenFlits s what
  let s := { s with faults := { s.faults with
      flits := if m = 1 then s.faults.flits.erase what else s.faults.flits.filter fun x => x != what } }
  let s := countBlock (setCause s (srcCore die) coreUncorr 0) (srcCore die) 2 m
  let l := (s.bridge.uncorr.filter fun x => decide (s.now < x.2 + 65536)) ++ List.replicate m (die, s.now)
  let full := decide ((l.filter fun x => x.1 == die).length ≥ 16)
  let s := { s with bridge := { s.bridge with uncorr := if full then l.filter fun x => x.1 != die else l } }
  flitFails (if full then setCause s (srcCore die) coreBridge 0 else s) die m what

/-! ### The cycle -/

/-- Bytes cross to a die for one cycle. -/
def crossTo (s : State) (die : Nat) : State :=
  let l := granted s die
  let got (x : Crossing) : Nat := ((l.find? fun y => y.1 == x).map (·.2)).getD 0
  let short := (l.filter fun x => decide (x.2 < min x.1.rate x.1.left)).map (·.1.what)
  let bad := (l.filter fun x => x.2 != 0 && s.faults.flits.contains x.1.what).map (·.1.what)
  let s := { s with bridge := { s.bridge with
    crossings := (s.bridge.crossings.map fun x => if x.die = die then { x with left := x.left - got x } else x).filter fun x => x.left != 0,
    last := (List.range 8).foldl (fun a c => a.set (die * 8 + c) (lastServed l c (nth s.bridge.last (die * 8 + c)))) s.bridge.last,
    short := s.bridge.short ++ short.map fun w => (w, die) } }
  let s := short.foldl (fun s w => delayed s die w) s
  bad.foldl (fun s w => uncorrectable s die w) s

/-- The bridge's cycle, in both directions. -/
def bridgeCycle (s : State) : State :=
  let s := joinBridge { s with bridge := { s.bridge with short := [] } }
  if s.bridge.crossings.isEmpty then s else crossTo (crossTo s 0) 1

end Sys2Proof.Machine
end

