-- ==== Sys2Proof/Machine/Clock.lean ====
section
/-! DEFINITION. The FCLK cycle that passes while no command waits (assumption log 1): lanes, blocks, stalls, freewheel counters and the
events that a cycle number alone brings (06 R171, R188; 08 R223, R244; 10 R288, R289; 15 Tables 15.2, 15.4). -/

namespace Sys2Proof.Machine

/-! ### Freewheel counters of a port (06 R188, Table 6.9) -/

/-- The lane carries a byte of a frame in this cycle, of a new block or of a replayed copy. -/
def busyNow (s : State) (q : Port) : Bool :=
  if q.link.copying then ((q.link.block.map (·.busy)).getD []).getD (s.now % 10) false
  else q.q.cut.any (fun c => c.1 == s.now) || match q.q.lane with
    | .frame _ st _ => decide (st ≤ s.now) && q.q.stallFrom.isNone
    | .kick _ st _ => decide (st ≤ s.now)
    | _ => false

/-- The link is down, fenced, in replay or in quarantine; or a hold cycle passes (08 R244). -/
def linkBars (q : Port) : Bool :=
  !(q.link.st == .up || q.link.st == .refused) || q.link.fencedAt.isSome || q.link.degrading || q.link.copying ||
    !q.link.resend.isEmpty || q.q.stallFrom.isSome

/-- Number of the counter that this cycle of a port adds to: the first cause of Table 6.9 that holds. -/
def idleCause (s : State) (p : Nat) : Nat :=
  let q := portAt s p
  let waits := q.q.queue.filter fun e => decide (e.ready ≤ s.now)
  let n (e : Entry) : Nat := leaveCycles e (widthOf s p)
  let short (e : Entry) : Bool := !isExempt e && match boundShaper s p e.cls with
    | some k => decide (shaperAt s k s.now < 0)
    | none => false
  let barred (e : Entry) : Bool := !hasCredit s p e || (!isAligned e && (q.q.awaitCred.getD e.cls none).isSome) ||
    (e.src == 16 && drained s e.cls)
  if busyNow s q then 0
  else if linkBars q then 1
  else if waits.any fun e => !isAligned e && heldOff s p (n e) then 2
  else if waits.any fun e => !isExempt e && !gateOpen s p e.cls (n e) then 3
  else if waits.any barred then 4
  else if waits.any short then 5
  else if isEdge s p && waits.any isAligned then 2
  else 6

/-- The cycle is counted once on every configured port, and its depths noted (10 R304); each counter stops at 2^48 - 1. -/
def countCycle (s : State) : State :=
  (s.ports.filter fun e => e.2.conf).foldl (fun s e =>
    let k := idleCause s e.1
    modPort s e.1 fun q => { q with freewheel := q.freewheel.set k (satAdd Config.sat48 (nth q.freewheel k) 1), q := noteDepths q.q }) s

/-! ### Lanes (08 R244, 10 R288) -/

/-- What has left the lane is gone; the last copy of a frame frees its cells. -/
def settleLane (s : State) (p : Nat) : State :=
  let q := (portAt s p).q
  if q.lane = .idle ∨ laneFree q > s.now then s
  else
    let s' := modQ s p clearLane
    match q.lane with
    | .frame e _ _ => dropCopy s' e.fid
    | _ => s'

/-- A frame is taken out of every queue and discarded for want of cells (10 R309). -/
def dropHeld (s : State) (fid : Nat) (h : Held) (port k : Nat) : State :=
  let clear (q : Port) : Port := { q with q := unqueue q.q fun e => e.fid == fid }
  let s := { s with frames := odel s.frames fid, ports := canonMap {} (s.ports.map fun e => (e.1, clear e.2)) }
  setCause (discard (owe s port h.cls k) port rQuota) srcPool 6 (quotaIdx 0 h.job h.cls) h.job

/-- A TC7 frame that missed its express cycle is written to its queue: it takes its cells, for which mirror copies give way, or is discarded;
one of which a copy has started goes on (10 R289, R309). -/
def expressMisses (s : State) : State :=
  (s.frames.filter fun e => e.2.cells == 0 && e.2.credit.isSome).foldl (fun s e =>
    let late (x : Entry) : Bool := x.fid == e.1 && decide (x.ready < s.now)
    match e.2.credit with
    | none => s
    | some (port, k) =>
      if s.ports.any fun q => q.2.q.queue.any late then
        let q := quotaIdx 0 e.2.job e.2.cls
        let s := makeRoom s e.2.slice k
        let write (x : Entry) : Entry := if x.fid = e.1 then { x with express := false } else x
        if cellsAllowed s e.2.slice q k then
          let s := hold (takeCells s e.2.slice q k) e.1 { e.2 with cells := k }
          s.ports.foldl (fun s p => if p.2.q.queue.any fun x => x.fid == e.1 then
            modQ s p.1 fun q => { q with queue := q.queue.map write } else s) s
        else if e.2.started then s
        else dropHeld s e.1 e.2 port k
      else s) s

/-! ### Milestones (15 Table 15.2) -/

/-- Provisional tick 0, from STRAP_TICK (07 Table 7.1). -/
def firstTick (s : State) : State :=
  if tickLen s = 0 then s
  else { s with tick := { s.tick with num := 0, start := s.now, running := true, sampleNow := s.tick.sample } }

/-- HBM4E training begins on every fitted stack, unless the strap check held the boot (15 R413). -/
def startTraining (s : State) : State :=
  let start (k : Nat) (st : Stack) : Stack := if hasStack s k then { st with training := true } else st
  if (strapFault s).isSome then s
  else { s with hbm := { s.hbm with stackOf := ((List.range 4).zip s.hbm.stackOf).map fun e => start e.1 e.2 } }

/-- What happens in the cycle of a cold bring-up that has just begun. -/
def milestone (s : State) : State :=
  if s.now = 64 then recordingBegins s
  else if s.now = 128 then firstTick s
  else if s.now = 1024 then noteState (startTraining s) srcHost hbLinkDown 0
  else s

/-! ### The cycle -/

/-- Something done on every port. -/
def onPorts (s : State) (f : State → Nat → State) : State := (s.ports.map (·.1)).foldl f s

/-- Units freed in a cycle may be granted from the next (10 R314). -/
def freedAt (s : State) : State :=
  let s := settleSlabs s
  { s with pools := { s.pools with cellsFreed := [], stagingFreed := 0 } }

/-- The end of a cycle: what its commands have brought is sent on. Stalled frames get what the cycle's input frames have left (10 R309),
and a queue sample of the cycle has seen the state before them (R303). -/
def endCycle (s : State) : State :=
  let s := retryStalled (releaseCounters (lookUps s))
  let s := (s.ports.filter fun e => e.2.kick.testAt.isSome).foldl (fun s e => kickTest s e.1) s
  let s := countCycle (onPorts (bridgeCycle (beginBlocks (sendState s))) standStill)
  freedAt (onPorts (endBlocks (onPorts s sendCycle)) startLink)

/-- The start of the cycle that `now` names. -/
def startCycle (s : State) : State :=
  let s := onPorts (onPorts (onPorts (dropFlushed (clearsDue s)) settleLane) creditArrives) applyDue
  let s := tableCycle (onPorts (coresReturn (milestone s)) framingTimeout)
  let s := refreshCycle (sealCycle (tallyCycle (tillCycle (versionCycle (landWrites (streamCycle (progCycle s)))))))
  comparePairs (formDue (expressMisses s))

/-- One FCLK cycle passes; before FCLK runs nothing does. -/
def idleCycle (s : State) : State :=
  if s.boot.phase ≠ .run then s else startCycle { endCycle s with now := s.now + 1 }

end Sys2Proof.Machine
end

