-- ==== Sys2Proof/Machine/Dispatch.lean ====
section
/-! DEFINITION. One arm per command: a direct call of its meaning. -/

namespace Sys2Proof.Machine

def exec (i : Instr) (s : State) : Host.Outcome State Fault Refusal :=
  match i with
  | .nop ring d => Sys2Proof.Machine.execNop ring d s
  | .tillOpen ring d obj => Sys2Proof.Machine.execTillOpen ring d obj s
  | .tillClose ring d => Sys2Proof.Machine.execTillClose ring d s
  | .tillAbort ring d => Sys2Proof.Machine.execTillAbort ring d s
  | .tillSave ring d => Sys2Proof.Machine.execTillSave ring d s
  | .tillRestore ring d img chk => Sys2Proof.Machine.execTillRestore ring d img chk s
  | .tillResume ring d => Sys2Proof.Machine.execTillResume ring d s
  | .tillExcise ring d => Sys2Proof.Machine.execTillExcise ring d s
  | .tallyOpen ring d words inputs => Sys2Proof.Machine.execTallyOpen ring d words inputs s
  | .tallyClose ring d => Sys2Proof.Machine.execTallyClose ring d s
  | .tallyAbort ring d => Sys2Proof.Machine.execTallyAbort ring d s
  | .tallyExcise ring d => Sys2Proof.Machine.execTallyExcise ring d s
  | .tallyExciseEffect tally slot => Sys2Proof.Machine.execTallyExciseEffect tally slot s
  | .progLoad ring d image => Sys2Proof.Machine.execProgLoad ring d image s
  | .progUnload ring d => Sys2Proof.Machine.execProgUnload ring d s
  | .progRun ring d params data => Sys2Proof.Machine.execProgRun ring d params data s
  | .regionOpen ring d words init param => Sys2Proof.Machine.execRegionOpen ring d words init param s
  | .regionClose ring d => Sys2Proof.Machine.execRegionClose ring d s
  | .memCopy ring d data chk => Sys2Proof.Machine.execMemCopy ring d data chk s
  | .memConfig ring d => Sys2Proof.Machine.execMemConfig ring d s
  | .vaultGather ring d chk => Sys2Proof.Machine.execVaultGather ring d chk s
  | .vaultQuery ring d => Sys2Proof.Machine.execVaultQuery ring d s
  | .relayOpen ring d members => Sys2Proof.Machine.execRelayOpen ring d members s
  | .relayClose ring d => Sys2Proof.Machine.execRelayClose ring d s
  | .stage ring d image => Sys2Proof.Machine.execStage ring d image s
  | .arm ring d => Sys2Proof.Machine.execArm ring d s
  | .cancel ring d => Sys2Proof.Machine.execCancel ring d s
  | .linkDown ring d => Sys2Proof.Machine.execLinkDown ring d s
  | .linkUp ring d => Sys2Proof.Machine.execLinkUp ring d s
  | .queueRead ring d => Sys2Proof.Machine.execQueueRead ring d s
  | .poolRead ring d => Sys2Proof.Machine.execPoolRead ring d s
  | .counterRead ring d => Sys2Proof.Machine.execCounterRead ring d s
  | .freewheelRead ring d => Sys2Proof.Machine.execFreewheelRead ring d s
  | .receiptRead ring d => Sys2Proof.Machine.execReceiptRead ring d s
  | .tossRead ring d => Sys2Proof.Machine.execTossRead ring d s
  | .ledgerRead ring d => Sys2Proof.Machine.execLedgerRead ring d s
  | .ledgerMirror ring d => Sys2Proof.Machine.execLedgerMirror ring d s
  | .contribReceive f mismatch => Sys2Proof.Machine.execContribReceive f mismatch s
  | .partialReceive f mismatch => Sys2Proof.Machine.execPartialReceive f mismatch s
  | .summaryReceive f => Sys2Proof.Machine.execSummaryReceive f s
  | .resendReqReceive f => Sys2Proof.Machine.execResendReqReceive f s
  | .chunkTimerExpiry till chunk => Sys2Proof.Machine.execChunkTimerExpiry till chunk s
  | .summaryTimerExpiry till slot => Sys2Proof.Machine.execSummaryTimerExpiry till slot s
  | .earlyForwardExpiry till chunk => Sys2Proof.Machine.execEarlyForwardExpiry till chunk s
  | .tillDeadline till => Sys2Proof.Machine.execTillDeadline till s
  | .admissionGrant till => Sys2Proof.Machine.execAdmissionGrant till s
  | .preemptRestore till => Sys2Proof.Machine.execPreemptRestore till s
  | .drainAction till => Sys2Proof.Machine.execDrainAction till s
  | .snapshotWritten till => Sys2Proof.Machine.execSnapshotWritten till s
  | .restoreLoaded till => Sys2Proof.Machine.execRestoreLoaded till s
  | .chunkDone till chunk mismatch => Sys2Proof.Machine.execChunkDone till chunk mismatch s
  | .updatePassStart till chunk => Sys2Proof.Machine.execUpdatePassStart till chunk s
  | .enginePassStart tile tick chk => Sys2Proof.Machine.execEnginePassStart tile tick chk s
  | .enginePassEnd tile tick => Sys2Proof.Machine.execEnginePassEnd tile tick s
  | .progRunEnd tile detectFail => Sys2Proof.Machine.execProgRunEnd tile detectFail s
  | .tallyArrive f => Sys2Proof.Machine.execTallyArrive f s
  | .tallyAdd f => Sys2Proof.Machine.execTallyAdd f s
  | .tallyCarry f => Sys2Proof.Machine.execTallyCarry f s
  | .tallyReleasePass port f => Sys2Proof.Machine.execTallyReleasePass port f s
  | .tallyTimerExpiry tally => Sys2Proof.Machine.execTallyTimerExpiry tally s
  | .tallyDeadline tally => Sys2Proof.Machine.execTallyDeadline tally s
  | .alignedCopySend port => Sys2Proof.Machine.execAlignedCopySend port s
  | .memRdReceive f chk => Sys2Proof.Machine.execMemRdReceive f chk s
  | .versionRelease f => Sys2Proof.Machine.execVersionRelease f s
  | .memWrReceive f => Sys2Proof.Machine.execMemWrReceive f s
  | .memRspReceive f => Sys2Proof.Machine.execMemRspReceive f s
  | .memRequestTimeout tag => Sys2Proof.Machine.execMemRequestTimeout tag s
  | .versionReclaim region => Sys2Proof.Machine.execVersionReclaim region s
  | .paramBlockRead region block => Sys2Proof.Machine.execParamBlockRead region block s
  | .hbmTrainingDone stack ok => Sys2Proof.Machine.execHbmTrainingDone stack ok s
  | .hbmRefresh stack => Sys2Proof.Machine.execHbmRefresh stack s
  | .relayFrameReceive port f => Sys2Proof.Machine.execRelayFrameReceive port f s
  | .relayCopySend rgroup receiver => Sys2Proof.Machine.execRelayCopySend rgroup receiver s
  | .relaySkip rgroup receiver => Sys2Proof.Machine.execRelaySkip rgroup receiver s
  | .frameReceive port f => Sys2Proof.Machine.execFrameReceive port f s
  | .sourceStall port => Sys2Proof.Machine.execSourceStall port s
  | .frameStart port => Sys2Proof.Machine.execFrameStart port s
  | .reorderTimerExpiry pg src job seq => Sys2Proof.Machine.execReorderTimerExpiry pg src job seq s
  | .tickOfferReceive port f markArrival => Sys2Proof.Machine.execTickOfferReceive port f markArrival s
  | .tickOfferSend port => Sys2Proof.Machine.execTickOfferSend port s
  | .tandemRecordReceive f => Sys2Proof.Machine.execTandemRecordReceive f s
  | .tandemWindowExpiry own index => Sys2Proof.Machine.execTandemWindowExpiry own index s
  | .twinLost => Sys2Proof.Machine.execTwinLost s
  | .mgmtReceive port f => Sys2Proof.Machine.execMgmtReceive port f s
  | .laneBlockReceive port blocks => Sys2Proof.Machine.execLaneBlockReceive port blocks s
  | .nakReceive port header => Sys2Proof.Machine.execNakReceive port header s
  | .degradeTimeout port => Sys2Proof.Machine.execDegradeTimeout port s
  | .passbookRotation port bsn arrival => Sys2Proof.Machine.execPassbookRotation port bsn arrival s
  | .linkStateEnd port byLimit => Sys2Proof.Machine.execLinkStateEnd port byLimit s
  | .creditCycleReceive port ret => Sys2Proof.Machine.execCreditCycleReceive port ret s
  | .creditCycleSend port => Sys2Proof.Machine.execCreditCycleSend port s
  | .tickBegin => Sys2Proof.Machine.execTickBegin s
  | .commit => Sys2Proof.Machine.execCommit s
  | .drainStart => Sys2Proof.Machine.execDrainStart s
  | .overflowCopy => Sys2Proof.Machine.execOverflowCopy s
  | .watchDeadline port watch => Sys2Proof.Machine.execWatchDeadline port watch s
  | .kickstandSend port => Sys2Proof.Machine.execKickstandSend port s
  | .kickstandRepeat port => Sys2Proof.Machine.execKickstandRepeat port s
  | .queueSample => Sys2Proof.Machine.execQueueSample s
  | .sensorRead west east stackTemps => Sys2Proof.Machine.execSensorRead west east stackTemps s
  | .refclkMeasure khz => Sys2Proof.Machine.execRefclkMeasure khz s
  | .coldReset cause => Sys2Proof.Machine.execColdReset cause s
  | .syncNSampleHigh => Sys2Proof.Machine.execSyncNSampleHigh s
  | .warmReset => Sys2Proof.Machine.execWarmReset s
  | .warmResetRelease => Sys2Proof.Machine.execWarmResetRelease s
  | .stewardRestart exception core => Sys2Proof.Machine.execStewardRestart exception core s
  | .firmwareCheck dir item chain chainKeyOk => Sys2Proof.Machine.execFirmwareCheck dir item chain chainKeyOk s
  | .wiringPlanCheck dir plan eq => Sys2Proof.Machine.execWiringPlanCheck dir plan eq s
  | .fuseWrite => Sys2Proof.Machine.execFuseWrite s
  | .strapChange pins => Sys2Proof.Machine.execStrapChange pins s
  | .functionLevelReset => Sys2Proof.Machine.execFunctionLevelReset s
  | .conventionalReset => Sys2Proof.Machine.execConventionalReset s
  | .cxlLinkLoss => Sys2Proof.Machine.execCxlLinkLoss s
  | .snoopInvalidate line => Sys2Proof.Machine.execSnoopInvalidate line s
  | .snoopData line => Sys2Proof.Machine.execSnoopData line s
  | .watchLineRead k index => Sys2Proof.Machine.execWatchLineRead k index s
  | .hostReadError which => Sys2Proof.Machine.execHostReadError which s
  | .hostWriteError id => Sys2Proof.Machine.execHostWriteError id s
  | .completionWrite => Sys2Proof.Machine.execCompletionWrite s
  | .coalesceTimerExpiry event ring => Sys2Proof.Machine.execCoalesceTimerExpiry event ring s
  | .registerWrite origin offset size value => Sys2Proof.Machine.execRegisterWrite origin offset size value s
  | .ringEnable origin offset value => Sys2Proof.Machine.execRingEnable origin offset value s
  | .watchDisable origin k value => Sys2Proof.Machine.execWatchDisable origin k value s
  | .statusClear origin offset value => Sys2Proof.Machine.execStatusClear origin offset value s
  | .kickLatchClear origin nn value => Sys2Proof.Machine.execKickLatchClear origin nn value s
  | .refusedClear origin value => Sys2Proof.Machine.execRefusedClear origin value s
  | .pairLoRead origin offset size => Sys2Proof.Machine.execPairLoRead origin offset size s
  | .debugHalt origin value => Sys2Proof.Machine.execDebugHalt origin value s
  | .debugResume origin value => Sys2Proof.Machine.execDebugResume origin value s
  | .dbgKickTest origin value => Sys2Proof.Machine.execDbgKickTest origin value s
  | .accumulatorWindowRead origin offset size => Sys2Proof.Machine.execAccumulatorWindowRead origin offset size s
  | .ledgerChainEntry => Sys2Proof.Machine.execLedgerChainEntry s
  | .ledgerMirrorWrite => Sys2Proof.Machine.execLedgerMirrorWrite s
  | .seal => Sys2Proof.Machine.execSeal s
  | .sealWait => Sys2Proof.Machine.execSealWait s
  | .getVersion => Sys2Proof.Machine.execGetVersion s
  | .getCapabilities => Sys2Proof.Machine.execGetCapabilities s
  | .negotiateAlgorithms => Sys2Proof.Machine.execNegotiateAlgorithms s
  | .getDigests => Sys2Proof.Machine.execGetDigests s
  | .getCertificate slot offset length => Sys2Proof.Machine.execGetCertificate slot offset length s
  | .challenge slot nonce => Sys2Proof.Machine.execChallenge slot nonce s
  | .getMeasurements index sign nonce => Sys2Proof.Machine.execGetMeasurements index sign nonce s
  | .i3cRegisterRead offset => Sys2Proof.Machine.execI3cRegisterRead offset s
  | .i3cDynamicAddress address => Sys2Proof.Machine.execI3cDynamicAddress address s
  | .dbgreg write offset size value => Sys2Proof.Machine.execDbgreg write offset size value s
  | .lossOfSignal port lane => Sys2Proof.Machine.execLossOfSignal port lane s
  | .rstNRelease => Sys2Proof.Machine.execRstNRelease s
  | .pllLock fuses pins => Sys2Proof.Machine.execPllLock fuses pins s
  | .tilesReady => Sys2Proof.Machine.execTilesReady s
  | .cxlLinkUp => Sys2Proof.Machine.execCxlLinkUp s
  | .stewardReturn => Sys2Proof.Machine.execStewardReturn s
  | .hostWriteGo id => Sys2Proof.Machine.execHostWriteGo id s
  | .hostReadData id data => Sys2Proof.Machine.execHostReadData id data s
  | .doeDiscovery index => Sys2Proof.Machine.execDoeDiscovery index s
  | .jtagBootLoad image => Sys2Proof.Machine.execJtagBootLoad image s

end Sys2Proof.Machine
end

