-- ==== Sys2Proof/Safety.lean ====
section
/-! DEFINITION. What counts as a sound state and a safe run, in the terms the statements use. -/

namespace Sys2Proof.Safety

open Sys2Proof.Machine

/-- Fabric memory stands in its one canonical form: addresses strictly rising, no entry equal to what an unlisted address reads
as. -/
abbrev memCanonical (s : State) : Prop := Memory.wf s.hbm.mem = true

/-- The ring and watch registers of the host interface stand in canonical form: numbers strictly rising, none listed that holds its
reset value. -/
abbrev hostMaps (h : HostIf) : Prop :=
  canon {} h.cmd = true ∧ canon {} h.cpl = true ∧ canon {} h.ev = true ∧ canon {} h.watch = true

/-- So do ports, lanes, status blocks, rings, watch entries and engine contexts, and no entry of a commit-set table is listed twice, so
that equal registers are equal data. -/
abbrev mapsCanonical (s : State) : Prop :=
  canon {} s.ports = true ∧ canon {} s.lanes = true ∧ canon {} s.stats = true ∧ hostMaps s.host ∧
    rising s.tables.active = true ∧ canon {} s.ctxs = true

/-- The areas of the state: its fields, with the bytes of fabric memory apart from the rest of State.hbm. -/
inductive Area where
  | now | boot | tick | tables | host | stats | refused | ports | lanes | frames | stalled | reorder | doneMsgs
  | blockCounts | shapers | meters | pools | tandem | dropping | intake | parsing | tills | tallies | progs | ctxs | tiles
  | mem | hbm | faults | bridge | relays | toss | jobFree | ledger | spdm | doe | fresh | pending
  deriving DecidableEq, Repr

/-- An area is the same in two states. -/
def same (s t : State) : Area → Prop
  | .now => t.now = s.now
  | .boot => t.boot = s.boot
  | .tick => t.tick = s.tick
  | .tables => t.tables = s.tables
  | .host => t.host = s.host
  | .stats => t.stats = s.stats
  | .refused => t.refused = s.refused
  | .ports => t.ports = s.ports
  | .lanes => t.lanes = s.lanes
  | .frames => t.frames = s.frames
  | .stalled => t.stalled = s.stalled
  | .reorder => t.reorder = s.reorder
  | .doneMsgs => t.doneMsgs = s.doneMsgs
  | .blockCounts => t.blockCounts = s.blockCounts
  | .shapers => t.shapers = s.shapers
  | .meters => t.meters = s.meters
  | .pools => t.pools = s.pools
  | .tandem => t.tandem = s.tandem
  | .dropping => t.dropping = s.dropping
  | .intake => t.intake = s.intake
  | .parsing => t.parsing = s.parsing
  | .tills => t.tills = s.tills
  | .tallies => t.tallies = s.tallies
  | .progs => t.progs = s.progs
  | .ctxs => t.ctxs = s.ctxs
  | .tiles => t.tiles = s.tiles
  | .mem => t.hbm.mem = s.hbm.mem
  | .hbm => { t.hbm with mem := [] } = { s.hbm with mem := [] }
  | .faults => t.faults = s.faults
  | .bridge => t.bridge = s.bridge
  | .relays => t.relays = s.relays
  | .toss => t.toss = s.toss
  | .jobFree => t.jobFree = s.jobFree
  | .ledger => t.ledger = s.ledger
  | .spdm => t.spdm = s.spdm
  | .doe => t.doe = s.doe
  | .fresh => t.fresh = s.fresh
  | .pending => t.pending = s.pending

/-- Every area that is not listed is the same in both states. -/
def onlyChanges (l : List Area) (s t : State) : Prop := ∀ p, p ∉ l → same s t p

/-- Areas that the lookups of a frame's table entries may change: none while no copy of an entry fails (12 R335). -/
def lookAreas (s : State) : List Area := if s.faults.entries.isEmpty then [] else [.host, .stats, .faults, .fresh]

/-- Areas that the check of the units' state bits may change, the pools apart: none while every bit is right (10 R311). -/
def poolAreas (s : State) : List Area :=
  if s.faults.stuck.isEmpty && s.faults.lost.isEmpty then [] else [.host, .stats, .faults, .fresh]

/-- Areas that the test of packet-buffer cells may change: none while no cell fails (12 R336). -/
def cellAreas (s : State) : List Area :=
  if s.faults.cells.isEmpty then [] else [.host, .stats, .blockCounts, .pools, .faults, .fresh]

/-- Areas that a frame of the X7's own may change on its way to its queue (10 R309). -/
def sendAreas (s : State) : List Area :=
  poolAreas s ++ cellAreas s ++ [.ports, .frames, .stalled, .pools, .intake, .fresh]

/-- The command answers a next state with a property. -/
def leads (c : Instr) (s : State) (P : State → Prop) : Prop := ∃ t, exec c s = .next t ∧ P t

/-- A ring command that nothing keeps from its own effect (13 R371-R375, 15 R430): it stands at the head of its enabled ring with its
FENCE met, the ledger has room for it, its completion ring is enabled, it sets no reserved bit, and the ring's privilege and
restriction allow it. -/
abbrev admitted (s : State) (ring : BitVec 6) (d : Desc) (op cring : Nat) (job : Option Nat) : Prop :=
  atHead s ring.toNat d = true ∧ opcodeOf d = op ∧ (ledgered op = true → ledgerRoom s = true) ∧
    ringEn (cplRing s cring).ctl = true ∧ descOk d = true ∧
    (privileged op = true → bit (cmdRing s ring.toNat).ctl.toNat 30 = true) ∧
    restricted (cmdRing s ring.toNat) job = false

/-- The command's one completion is ready to be posted to a ring (13 R375, Table 13.12); none with QUIET and status OK. -/
def answered (s t : State) (ring : BitVec 6) (d : Desc) (cring obj status d0 d1 : Nat) : Prop :=
  (quietOf d.d0 = true ∧ status = stOk) ∨
    ∃ c ∈ t.host.ready, c.cring = cring ∧ c.ring = some ring.toNat ∧
      c.entries = [cmdEntry (acceptNow s ring.toNat d.d0 obj) status d0 d1]

/-- The completion of an accepted command is ready to be posted to a ring; none with QUIET and status OK. -/
def posted (t : State) (a : Accept) (cring status d0 d1 : Nat) : Prop :=
  (quietOf a.d0 = true ∧ status = stOk) ∨
    ∃ c ∈ t.host.ready, c.cring = cring ∧ c.ring = some a.ring ∧ c.entries = [cmdEntry a status d0 d1]

/-- The completion of a standalone run is ready to be posted; none with QUIET and status OK. -/
def postedRun (t : State) (a : Accept) (status inv index : Nat) (l : List W32) : Prop :=
  (quietOf a.d0 = true ∧ status = stOk) ∨
    ∃ c ∈ t.host.ready, c.cring = cringOf a.d0 ∧ c.ring = some a.ring ∧ c.entries = runEntries a status inv index l

/-- The completion of a tally is ready to be posted. -/
def tallyPosted (t : State) (n : Nat) (v : Tally) (status : Nat) (x : Told) : Prop :=
  ∃ c ∈ t.host.ready, c.cring = yCring v.words ∧ c.ring = none ∧ c.entries = [tallyEntry n v status x]

/-- The completion of the epoch that a till stands in is ready to be posted, with all that its counts `x` tell (03 R77, R102). -/
def epochPosted (s t : State) (n : Nat) (x : Till) : Prop :=
  ∃ c ∈ t.host.ready, c.cring = tCring x.words ∧ c.ring = none ∧
    c.entries = tillEntries n x (topStatus (seenOf (epochTotals s x x.epoch))) (seenOf (epochTotals s x x.epoch)) (epochTotals s x x.epoch)

/-- A frame of the X7's own waits: consumed here when it is for its own endpoint, queued at an output, or stalled for cells. -/
def owned (t : State) (f : Frame) : Prop :=
  (∃ i ∈ t.intake, i.frame = f) ∨ (∃ e ∈ t.stalled, e.2.frame = f) ∨ ∃ p, ∃ e ∈ (portAt t p).q.queue, e.src = 16 ∧ e.frame = f

/-- A frame of a type with this destination, AUX and payload is on its way. -/
def sent (t : State) (type : BitVec 4) (dest : BitVec 20) (aux : BitVec 32) (payload : List Byte) : Prop :=
  ∃ f, owned t f ∧ f.payload = payload ∧ (headerOf f.hdr).type = type ∧ (headerOf f.hdr).dest = dest ∧ (headerOf f.hdr).aux = aux

/-- Unicast frames of the X7's own reach this endpoint: it is its own, or there is a route to it whatever the header. -/
def reaches (s : State) (dest : BitVec 20) : Prop :=
  some dest = ownEndpoint s ∨ ∀ h : Header, h.dest = dest → h.mc = 0 → (routed s h selfPort).isSome = true

/-- An accumuland of a SUM as intake makes it: none yet, finite without a rank, or non-finite with a rank and no value (02 R43, R48). -/
def sumForm (a : Acc) : Prop :=
  a = Acc.zero ∨ (a.empty = false ∧ a.win = 0 ∧ (a.cls = .fin → a.rank = 0) ∧ (a.cls ≠ .fin → a.val = 0))

/-- An accumuland of a MAX or MIN as intake makes it: none yet, finite with its winner rank, or non-finite with one rank in both places
(02 R49, 03 R82). -/
def maxForm (a : Acc) : Prop :=
  a = Acc.zero ∨ (a.empty = false ∧ (a.cls = .fin → a.rank = 0) ∧ (a.cls ≠ .fin → a.val = 0 ∧ a.rank = a.win))

/-- A write of host memory is under way (13 R384). -/
def hostWriting (t : State) (addr : Nat) (data : List Byte) (kind : WriteKind) : Prop :=
  ∃ e ∈ t.host.writes, e.2 = { addr := addr, data := data, kind := kind }

end Sys2Proof.Safety
end

