-- ==== Sys2Proof/WellFormed.lean ====
section
/-! DEFINITION. What a command must be to be one the X7 can meet: list lengths and ranges that the types do not give. -/

namespace Sys2Proof.WellFormed

/-- A frame: at most 256 units of payload (09 R252). -/
def frame (f : Frame) : Bool := decide (f.payload.length ≤ 8192)

/-- A lane block: a lane number and, where the link interface could decode it, 272 symbols of 10 bits (08 Table 8.1, R224). -/
def block (b : LaneBlock) : Bool :=
  decide (b.lane < 512) && match b.decoded with
    | none => true
    | some l => decide (l.length = 272) && l.all fun x => decide (x < 1024)

/-- Words of a list. -/
def words (l : List W64) (n : Nat) : Bool := decide (l.length = n)

/-- The checks of one command. -/
def instr : Instr → Bool
  | .tillOpen _ _ o => words o.words 16 && decide (o.shard.length % 4 = 0)
  | .tallyOpen _ _ w _ => words w 8
  | .regionOpen _ _ w _ _ => words w 16
  | .contribReceive f _ => frame f
  | .partialReceive f _ => frame f
  | .summaryReceive f => frame f
  | .resendReqReceive f => frame f
  | .tallyArrive f => frame f
  | .tallyAdd f => frame f
  | .tallyCarry f => frame f
  | .tallyReleasePass _ f => frame f
  | .memRdReceive f _ => frame f
  | .memWrReceive f => frame f
  | .memRspReceive f => frame f
  | .versionRelease f => frame f
  | .relayFrameReceive _ f => frame f
  | .frameReceive _ f => frame f
  | .tickOfferReceive _ f _ => frame f
  | .tandemRecordReceive f => frame f
  | .mgmtReceive _ f => frame f
  | .laneBlockReceive _ bs => decide (bs.length ≤ 8) && bs.all block
  | .creditCycleReceive _ r => decide (r.length = 8)
  | .pllLock _ pins => !pins.getLsbD 3
  | .strapChange pins => !pins.getLsbD 3
  | .sensorRead _ _ l => decide (l.length = 4)
  | .paramBlockRead _ b => match b with
    | none => true
    | some l => decide (l.length = 64)
  | .registerWrite _ _ n _ => decide (n ≤ 8)
  | .pairLoRead _ _ n => decide (n = 4) || decide (n = 8)
  | .accumulatorWindowRead _ _ n => decide (n = 4) || decide (n = 8)
  | .dbgreg _ _ n _ => decide (n ≤ 8)
  | _ => true

end Sys2Proof.WellFormed
end

