-- ==== Sys2Proof/Certificates/Slice0/Obligations.lean ====
section
/-! DEFINITION. The statements for the provers, family by family. Each command's completion stands in the statement of its family. -/

open Sys2Proof Sys2Proof.Machine Sys2Proof.Safety

/-! ### The step -/

/-- A step runs the front command on the state with the queue's rest (the row's cut; log 1). -/
def Obligations.StepRunsFrontCommand : Prop :=
  ∀ (c : Instr) (rest : List Instr) (s : State),
    step { s with pending := c :: rest } = exec c { s with pending := rest }

/-- On an empty queue one FCLK cycle passes once FCLK runs, and nothing before (model's choice: log 1). -/
def Obligations.EmptyQueuePassesOneCycle : Prop :=
  (∀ s : State, s.pending = [] → s.boot.phase = .run → ∃ t, step s = .next t ∧ t.now = s.now + 1) ∧
  (∀ s : State, s.pending = [] → s.boot.phase ≠ .run → step s = .next s)

/-- No step of this block faults or refuses. A step takes at most the front command from the queue, and no command adds one. -/
def Obligations.EveryStepAnswersInOrder : Prop :=
  (∀ s : State, ∃ t, step s = .next t) ∧
  (∀ s t : State, step s = .next t → t.pending = s.pending.drop 1)

/-- Every step keeps fabric memory in its one canonical form. Every step keeps ports, lanes, status blocks, rings and watch
entries in canonical form. -/
def Obligations.StepKeepsCanonicalForms : Prop :=
  (∀ s t : State, memCanonical s → step s = .next t → memCanonical t) ∧
  (∀ s t : State, mapsCanonical s → step s = .next t → mapsCanonical t)

/-- The memory of reset is canonical. The maps of reset are canonical. -/
def Obligations.ResetHoldsCanonicalForms : Prop :=
  (memCanonical State.reset) ∧
  (mapsCanonical State.reset)

/-! ### Every family completes -/

/-- Each ring command on a till, tally, program, region, vault, relay, commit set, record or link answers a next state with its own effect, under the
conditions of its rule. The rest of what it does and its frame stand in the statement of its family. -/
def Obligations.RingCommandsComplete : Prop :=
  (∀ (s : State) (ring : BitVec 6) (d : Desc),
    let n := objOf d
    let own := fun op job => admitted s ring d op (cringOf d.d0) job
    let done := fun t id => answered s t ring d (cringOf d.d0) id stOk 0 0
    (∀ obj : TillObj, let w := obj.words.take 16
      admitted s ring d 0x10 (tCring obj.words) (some (tJob obj.words)) → openRefusal s obj = none →
      (∀ e ∈ s.tills, e.2.st = .waitAdmit → tillQuota 1 e.2.words ≠ tillQuota 1 w) →
      (∀ m y, tillAt s m = some y → y.st = .waitAdmit → grantTill s m y.words y.shard = none) →
      (grantTill s (tTill obj.words) w (obj.shard.take (4 * tEntries obj.words))).isSome = true →
      leads (.tillOpen ring d obj) s fun t => ∃ x, tillAt t (tTill obj.words) = some x ∧ x.st = .opening ∧ x.words = w) ∧
    (∀ x, tillAt s n = some x → x.ended = false → isEnding x = false → isClosing x = false → isSaving x = false →
      let mine := fun op => own op (some (tillJob x))
      let begun := fun k => { x with drains := x.drains ++ [{ c := s.now, kind := k, by_ := some (acceptNow s ring.toNat d.d0 n) }] }
      (mine 0x11 → x.st = .open → leads (.tillClose ring d) s fun t => tillAt t n = some (begun .close)) ∧
      (mine 0x12 → x.st = .open → chunkBusy x = true → leads (.tillAbort ring d) s fun t => tillAt t n = some (begun .abort)) ∧
      (mine 0x13 → x.st = .open → (beginSave s n x .save none).isSome = true → leads (.tillSave ring d) s fun t =>
        ∃ y, tillAt t n = some y ∧ y.drains = (begun .save).drains) ∧
      (mine 0x16 → x.st = .open → fld d.d1 21 12 ∈ inputsOf x.words x.shard → fld d.d1 21 12 ∉ x.excised → ticksOn s = false →
        leads (.tillExcise ring d) s fun t => tillAt t n = some (begun (.excise (fld d.d1 21 12) (fld d.d1 35 22)))) ∧
      (mine 0x15 → x.st = .stopped → x.resuming = none → tilesMissing s n x = false → leads (.tillResume ring d) s fun t =>
        ∃ y, tillAt t n = some y ∧ y.resuming.isSome = true) ∧
      (∀ img chk u slabs, mine 0x14 → x.st = .saved → tilesMissing s n x = false → bit d.d1.toNat 12 = true → imageGood n x img .first = true →
        grantTill s n x.words x.shard = some (u, slabs) → leads (.tillRestore ring d img chk) s fun t =>
          ∃ y, tillAt t n = some y ∧ y.slabs = slabs ∧ y.loading.isSome = true)) ∧
    (∀ words inputs : List W64,
      let w := words.take 8
      let l := if yCounter w then [] else (inputs ++ List.replicate (yEntries w) 0).take (yEntries w)
      admitted s ring d 0x18 (yCring w) (some (yJob w)) → tallyOk s w l = true → tallyAt s (wf w 0 63 52) = none →
      leads (.tallyOpen ring d words inputs) s fun t => ∃ v, tallyAt t (wf w 0 63 52) = some v ∧ v.words = w ∧ v.inputs = l) ∧
    (∀ v, tallyAt s n = some v →
      (own 0x19 (some (yJob v.words)) → leads (.tallyClose ring d) s fun t => tallyAt t n = none ∧ done t n) ∧
      (own 0x1A (some (yJob v.words)) → leads (.tallyAbort ring d) s fun t => tallyAt t n = none ∧ done t n) ∧
      (own 0x1B (some (yJob v.words)) → fld d.d1 21 12 < v.inputs.length → ticksOn s = true → laterTick s (BitVec.ofNat 48 (fld d.d2 47 0)) = true →
        leads (.tallyExcise ring d) s fun t => ∃ y, tallyAt t n = some y ∧ y.excisions.length = v.excisions.length + 1)) ∧
    (∀ image, let im := padTo (pgBytes image) image
      own 0x20 none → ofind s.progs (fld d.d1 7 0) = none → imageOk s im = true → storeUsed s + pgLen im ≤ Config.progInstrs →
      leads (.progLoad ring d image) s fun t => ∃ p, ofind t.progs (fld d.d1 7 0) = some p ∧ p.image = im) ∧
    (own 0x21 none → (progAt s (fld d.d1 7 0)).isSome = true → slotBusy s (fld d.d1 7 0) = false → leads (.progUnload ring d) s fun t =>
      progAt t (fld d.d1 7 0) = none ∧ done t 0) ∧
    (∀ params data, own 0x22 none → runOk s d = true → bit d.d1.toNat 33 = false → leads (.progRun ring d params data) s fun t =>
      (ctxAt t (ctxKey (fld d.d1 19 8) false)).ready.length = (ctxAt s (ctxKey (fld d.d1 19 8) false)).ready.length + 1) ∧
    (∀ words init param, let w := regionWords words
      admitted s ring d 0x28 (cringOf d.d0) (some (regJob w)) → regionOk s w = true → (rVault w = true → param.isSome = true) →
      leads (.regionOpen ring d words init param) s fun t => ∃ r, regionAt t (rNum w) = some r ∧ r.words = w) ∧
    (∀ r, regionAt s n = some r → r.waiting = none →
      (own 0x29 (some (regJob r.words)) → boundTill s n = none → r.transfers = 0 → r.gathers = 0 → (∀ j ∈ s.hbm.writing, j.region ≠ n) → leads (.regionClose ring d) s fun t =>
        regionAt t n = none ∧ done t n) ∧
      (isN s = false → rVault r.words = true → let v := BitVec.ofNat 16 (fld d.d1 27 12)
        (own 0x2C (some (regJob r.words)) → fld d.d1 31 28 = 0 → versionHeld r v = true → s.faults.units = [] →
          leads (.vaultGather ring d .first) s fun t => hostWriting t d.d2.toNat (pubCopy r v) (.copy ring.toNat (tagOf d.d0))) ∧
        (own 0x2D (some (regJob r.words)) → leads (.vaultQuery ring d) s fun t =>
          hostWriting t d.d2.toNat (vaultState r) (.copy ring.toNat (tagOf d.d0))))) ∧
    (own 0x2B none → isN s = false → s.hbm.regions = [] → s.pools.stagingUsed = 0 → leads (.memConfig ring d) s fun t =>
      t.pools.staging = fld d.d1 15 0 ∧ done t 0) ∧
    (∀ data : List Byte, let a := d.d3.toNat
      let len := fld d.d4 31 0
      own 0x2A (some (fld d.d4 39 32)) → len ≠ 0 → len % 32 = 0 → a % 32 = 0 → boardOk s a = true → baPos a = ownPos s → bit d.d1.toNat 0 = false →
      (∀ p ∈ pieces len, localStatus s { region := baRegion a, off := baOff a + p.1, len := p.2, job := fld d.d4 39 32, write := true,
                                         release := false, version := 0 } = msOk) →
      leads (.memCopy ring d data .first) s fun t => done t 0 ∧
        t.hbm.mem = memWrite (landAll s.hbm.mem s.hbm.writing) (baRegion a * 2 ^ 39 + baOff a) (padTo len data)) ∧
    (∀ members : List W64, let g := fld d.d1 15 0
      own 0x30 (some (fld d.d1 23 16)) → relayAt s g = none → groupEn s g = false → members.length = fld d.d1 36 26 → 2 ≤ members.length →
      members.length ≤ 1024 → 1 ≤ fld d.d2 24 0 → fld d.d2 24 0 ≤ 2 ^ 24 → 1 ≤ fld d.d1 52 37 → 1 ≤ fld d.d3 12 0 → fld d.d3 12 0 ≤ 4096 →
      1 ≤ fld d.d3 28 13 → (∀ w ∈ members, fld w 63 34 = 0) → distinct (members.map fun w => (memberOf w).1) = true →
      leads (.relayOpen ring d members) s fun t => done t 0 ∧ ∃ r, relayAt t g = some r ∧ r.members = members.map memberOf) ∧
    (∀ r, relayAt s (fld d.d1 15 0) = some r → own 0x31 (some r.job) → leads (.relayClose ring d) s fun t =>
      done t 0 ∧ relayAt t (fld d.d1 15 0) = none) ∧
    (∀ image w c m, s.boot.steward = true → own 0x38 none → tableInfo (fld d.d1 22 16) = some (w, c, m) → fld d.d1 42 23 + fld d.d1 62 43 ≤ c →
      (hasTandem s = true ∨ (fld d.d1 22 16 ≠ 0x30 ∧ fld d.d1 22 16 ≠ 0x31)) → fld d.d1 62 43 ≠ 0 →
      namesAbsent s (fld d.d1 22 16) (fld d.d1 42 23) (fld d.d1 62 43) = false →
      (∀ x, stagedOf s (fld d.d1 22 16) = some x → x.set = BitVec.ofNat 16 (fld d.d1 15 0)) → leads (.stage ring d image) s fun t => ∃ y, stagedOf t (fld d.d1 22 16) = some y ∧
        ∀ k < fld d.d1 62 43, entryRefused s (fld d.d1 22 16) (fld d.d1 42 23 + k) (imageEntry image w k) = false →
          ofind y.entries (fld d.d1 42 23 + k) = some (imageEntry image w k)) ∧
    (own 0x39 none → (∀ x ∈ s.tables.armed, x.set ≠ BitVec.ofNat 16 (fld d.d1 15 0)) → s.tables.armed.length < Config.maxArmed →
      s.tick.state ≠ 0 → (ticksOn s = true → laterTick s (BitVec.ofNat 48 (fld d.d2 47 0)) = true ∧
        s.now + Config.armLimit ≤ startOf s (BitVec.ofNat 48 (fld d.d2 47 0))) →
      (∀ x : Armed, x.set = BitVec.ofNat 16 (fld d.d1 15 0) → x.mask = BitVec.ofNat 8 (fld d.d1 23 16) →
        x.tables = (s.tables.staged.filter fun y => y.set == BitVec.ofNat 16 (fld d.d1 15 0)).map (·.tid) → drainBad s x = false) → leads (.arm ring d) s fun t =>
        ∃ x, t.tables.armed = s.tables.armed ++ [x] ∧ x.set = BitVec.ofNat 16 (fld d.d1 15 0)) ∧
    (∀ x, own 0x3A none → s.tables.armed.find? (fun y => y.set == BitVec.ofNat 16 (fld d.d1 15 0)) = some x → ticksOn s = true →
      laterTick s x.tick = true → s.now + Config.armLimit < startOf s x.tick → leads (.cancel ring d) s fun t =>
        t.tables.armed = s.tables.armed.filter (fun y => y.set != x.set) ∧ done t 0) ∧
    (∀ c op, (c, op) ∈ [(Instr.queueRead ring d, 0x48), (.poolRead ring d, 0x49), (.counterRead ring d, 0x4A), (.freewheelRead ring d, 0x4B),
        (.tossRead ring d, 0x4D)] → mapsCanonical s → own op none → (op = 0x4B → fld d.d1 2 1 ≠ 0) → leads c s fun t =>
      done t 0 ∧ ∃ data, hostWriting t d.d2.toNat data (.copy ring.toNat (tagOf d.d0))) ∧
    (∀ v, tillAt s n = some v → own 0x4C (some (tillJob v)) → leads (.receiptRead ring d) s fun t =>
      answered s t ring d (cringOf d.d0) n stOk (receiptChunks v).length 0) ∧
    (own 0x51 none → 6 ≤ fld d.d1 20 16 → fld d.d1 20 16 ≤ 16 → leads (.ledgerMirror ring d) s fun t => done t 0 ∧
      t.ledger.mirrorEn = bit d.d1.toNat 0) ∧
    (∀ k, own 0x50 none → 1 ≤ fld d.d1 32 16 → fld d.d1 32 16 ≤ 65536 → s.ledger.seq - 65536 ≤ k → k < s.ledger.seq →
      k % 65536 = fld d.d1 15 0 → leads (.ledgerRead ring d) s fun t => done t 0) ∧
    (mapsCanonical s → hasPg s (fld d.d1 3 0) = true →
      (own 0x40 none → leads (.linkDown ring d) s fun t => done t 0 ∧ ∀ j < 32, (portAt s (32 * fld d.d1 3 0 + j)).conf = true →
        (portAt t (32 * fld d.d1 3 0 + j)).link.st = .down) ∧
      (s.boot.steward = true → bit s.boot.ready.toNat (fld d.d1 3 0) = true → own 0x41 none → planFault s (fld d.d1 3 0) = none →
        leads (.linkUp ring d) s fun t => done t 0 ∧ ∀ j < 32, planUsed (sget 0 s.boot.planWords (32 * fld d.d1 3 0 + j)) = true →
          (portAt t (32 * fld d.d1 3 0 + j)).link.st = .quiet)))

/-- Frames, timers, drains, images and passes of tills complete with their own effect under the conditions of their rules; the rest stands in the
statements of tills and programs. -/
def Obligations.TillEventsComplete : Prop :=
  (∀ (s : State) (f : Frame) (child : Bool) (x : Till) (i : Nat) (accs : List Acc) (trunc : Nat), frameGood f = true →
    let h := headerOf f.hdr
    let k := h.offset.toNat / max 1 (tChunkBlocks x.words)
    h.type = (if child then 3 else 1) → (child = true → isSummary f = false) → tillAt s h.till.toNat = some x → inputWaits s h.till.toNat x k = false →
    stillCrosses s f = false → inputSlot x h child = some i → isOpenTill x = true → inputOk x h i child f.payload.length = true →
    inputAccs x h i child f.payload = .ok accs trunc → (chunkOf x k).epoch = h.epoch → tTick x.words = false → k < x.chunks.length →
    leads (if child then .partialReceive f false else .contribReceive f false) s fun t => ∃ y, tillAt t h.till.toNat = some y ∧
      (chunkOf y k).bitA = addSlot (chunkOf x k).bitA i ∧ (chunkOf y k).acc =
        addAt_ (tOp x.words) (chunkAccs x.words k (chunkOf x k).acc) ((h.offset.toNat - chunkFirst x.words k) * tElems x.words) accs) ∧
  (∀ (s : State) (f : Frame) (x : Till), frameGood f = true → let h := headerOf f.hdr
    tillAt s h.till.toNat = some x →
    (∀ i, h.type = 3 → isSummary f = true → inputSlot x h true = some i → isOpenTill x = true → summaryOk x h i = true → allDone x = false →
      (∀ c ∈ x.chunks, c.waitSum = []) → leads (.summaryReceive f) s fun t => ∃ y, tillAt t h.till.toNat = some y ∧
        sget 0 y.sums i = ((summaryPart f.payload).exc.map (·.rank)).getD 0 + 1) ∧
    (h.type = 9 → tInner x.words = true → h.job.toNat = tJob x.words → h.src.toNat = tParent x.words → auxNblk h = 0 → bit h.aux.toNat 31 = false →
      leads (.resendReqReceive f) s fun t => tillAt t h.till.toNat = some { x with gen := auxGen h })) ∧
  (∀ (s : State) (till : BitVec 12) (x : Till) (k : Nat), tillAt s till.toNat = some x →
    let now := fun (t : State) (P : Till → Prop) => ∃ y, tillAt t till.toNat = some y ∧ P y
    (isOpenTill x = true → timersStopped s x = false → k < x.chunks.length → (chunkOf x k).st = .filling →
      (dueNow s (chunkOf x k).timerAt = true → (chunkOf x k).rounds < tLimit x.words → leads (.chunkTimerExpiry till k) s fun t =>
        now t fun y => (chunkOf y k).rounds = (chunkOf x k).rounds + 1) ∧
      ((chunkOf x k).earlyOnce = false → (chunkOf x k).resetAt = none → dueNow s (chunkOf x k).efAt = true → haltedTile s (tileOf s till.toNat x.words k) = false →
        leads (.earlyForwardExpiry till k) s fun t => now t fun y => (chunkOf y k).earlySent = true ∧ (chunkOf y k).acc = [])) ∧
    (∀ c rounds, isOpenTill x = true → timersStopped s x = false → x.sumTimers.find? (fun y => y.1 == k) = some (k, c, rounds) → c ≤ s.now →
      rounds < tLimit x.words → leads (.summaryTimerExpiry till k) s fun t =>
        now t fun y => y.sumTimers.find? (fun y => y.1 == k) = some (k, s.now + tTimeout x.words, rounds + 1)) ∧
    (isOpenTill x = true → k < x.chunks.length → chunkLeft s till.toNat x k = true → (chunkOf x k).resetAt = none → tVault x.words = false →
      let z := putChunk x k { chunkOf x k with st := .done }
      allDone z = false → leads (.chunkDone till k false) s fun t => now t fun y => y.chunks = z.chunks) ∧
    (∀ due, isOpenTill x = true → tTick x.words = true → isEnding x = false → x.cnt.dueAt = some due → due ≤ s.now →
      leftInTime s till.toNat x due = false → leads (.tillDeadline till) s fun t => now t fun y => y.epoch = x.epoch + 1) ∧
    (x.st = .waitAdmit → waiterBefore s x.words x.order = false → (grantTill s till.toNat x.words x.shard).isSome = true →
      (∀ m y, tillAt s m = some y → isBefore x.order y = true → grantTill s m y.words y.shard = none) →
      (tVault x.words = true → (regionAt s (tRegion x.words)).isSome = true) →
      (∀ k < tChunks x.words, tileDown s (tileOf s till.toNat x.words k) = false) → leads (.admissionGrant till) s fun t =>
        now t fun y => y.st = .opening) ∧
    (∀ e rest, x.drains = e :: rest → actionAt e.c ≤ s.now → e.kind = .ending stPeerLost x.epoch → tStanding x.words = true →
      leads (.drainAction till) s fun t => now t fun y => y.st = .stopped ∧ y.drains = rest) ∧
    (x.st = .draining → x.saveWrites = [] → x.image.isSome = true → x.readBy ≤ s.now → leads (.snapshotWritten till) s fun t => now t fun y => y.st = .saved) ∧
    (∀ img b, x.loading = some (img, b) → x.st = .saved → x.slabs ≠ [] → (∀ c ∈ img.chunks, c.st ≠ .minting) →
      leads (.restoreLoaded till) s fun t => now t fun y => y.st = .open ∧ y.chunks = img.chunks.map (restoredChunk s x.words)) ∧
    (∀ img u slabs, x.st = .saved → x.preempted = true → x.loading = none → isEnding x = false →
      (∀ e ∈ s.tills, e.2.st = .saved → e.2.preempted = true → e.2.loading = none → till.toNat ≤ e.1) →
      (∀ e ∈ s.tills, e.2.st = .waitAdmit → e.2.preempts = false) → x.image = some img → grantTill s till.toNat x.words x.shard = some (u, slabs) →
      leads (.preemptRestore till) s fun t => tillAt t till.toNat = some { x with slabs := slabs, loading := some (img, none) })) ∧
  (∀ (s : State) (tile : BitVec 12) (tick : Bool), mapsCanonical s → haltedTile s tile.toNat = false →
    let c := ctxAt s (ctxKey tile.toNat tick)
    let idle := fun t => (ctxAt t (ctxKey tile.toNat tick)).running = none
    let live := (ordered c.ready).filter (passLive s tile.toNat)
    (∀ p rest r, tick = false → c.running = none → (ctxAt s (ctxKey tile.toNat true)).running = none → live = p :: rest → p.run = some r →
      r.src = none → r.window ≤ scratchFree s tile.toNat → (∀ y ∈ s.faults.progs, y.1 ≠ tile.toNat) → leads (.enginePassStart tile tick .first) s fun t =>
        ∃ u, (ctxAt t (ctxKey tile.toNat tick)).running = some u ∧ u.pass = p) ∧
    (∀ run r, tick = false → c.running = some run → run.pass.run = some r → run.endsAt ≤ s.now → run.loading = false → r.outBytes = 0 →
      leads (.progRunEnd tile false) s idle) ∧
    (∀ run x g, c.running = some run → run.pass.run = none → run.endsAt ≤ s.now → tillAt s run.pass.till = some x →
      regionAt s (tRegion x.words) = some g → run.pass.chunk < x.chunks.length → run.pass.chunk < g.chunks.length →
      leads (.enginePassEnd tile tick) s fun t => idle t ∧
        ∃ y, tillAt t run.pass.till = some y ∧ (chunkOf y run.pass.chunk).part.latch.isSome = true) ∧
    (∀ p x g, p.till < 4096 → tillAt s p.till = some x → p.run = none → tile.toNat = tileOf s p.till x.words p.chunk → tick = tTick x.words →
      c.running = none → (tick = false → (ctxAt s (ctxKey tile.toNat true)).running = none) → live.find? (isPassOf p.till p.chunk) = some p →
      (∀ y ∈ live, y = p ∨ passBefore y p = false ∨ mustWait s y = true) → regionAt s (tRegion x.words) = some g →
      versionReady s x p.chunk = true → (g.chunks.getD p.chunk {}).stored + 1 = passVersion x p.chunk → streamsOf (tillImage s x.words) 3 = [] →
      (∀ y ∈ s.faults.progs, y.1 ≠ tile.toNat) → leads (.updatePassStart (BitVec.ofNat 12 p.till) p.chunk) s fun t =>
        ∃ u, (ctxAt t (ctxKey tile.toNat tick)).running = some u ∧ u.pass = p))

/-- Frames, timers and events of tallies, regions, HBM stacks and relays complete with their own effect under the conditions of their rules; the
rest stands in the statements of their families. -/
def Obligations.FabricEventsComplete : Prop :=
  (∀ (s : State) (f : Frame) (i : Intake) (v : Tally), frameGood f = true → let h := headerOf f.hdr
    s.intake.find? (fun i => decide (i.frame = f)) = some i → tallyAt s h.till.toNat = some v → tallyOpenNow s v = true →
    h.job.toNat = yJob v.words → h.cls.toNat = yClass v.words → tallyLate s (noteInput s v i.arrival) = false →
    let slot := fun op carry k => h.type = 4 ∧ tallyOpOf h = op ∧ tallySlot v h carry = some k ∧ yCounter v.words = false ∧ h.epoch = v.gen ∧
      k ∉ v.arrived ∧ k ∉ v.excised ∧ v.carried = false ∧ (∃ j < v.inputs.length, j ≠ k ∧ j ∉ v.arrived ∧ j ∉ v.excised)
    let marked := fun k t => ∃ y, tallyAt t h.till.toNat = some y ∧ y.arrived = v.arrived ++ [k]
    (∀ k, slot 0 false k → leads (.tallyArrive f) s (marked k)) ∧ (∀ k, slot 2 true k → leads (.tallyCarry f) s (marked k)) ∧
    (∀ n, n = (addCount v.count (toInt 24 (bits h.aux.toNat 23 0))).1 →
      h.type = 4 → tallyOpOf h = 1 → yCounter v.words = true → n < (yThreshold v.words : Int) → leads (.tallyAdd f) s fun t =>
        ∃ y, tallyAt t h.till.toNat = some y ∧ y.count = n) ∧
    (∀ port : BitVec 9, s.intake.find? (fun i => decide (i.frame = f ∧ i.port = port.toNat)) = some i → h.type = 5 → yInner v.words = true →
      leads (.tallyReleasePass port f) s fun t => tallyAt t h.till.toNat = some (newGen v (h.epoch + 1)))) ∧
  (∀ (s : State) (tally : BitVec 12) (v : Tally), tallyAt s tally.toNat = some v →
    (dueNow s v.timerAt = true → allArrived v = false → leads (.tallyTimerExpiry tally) s fun t =>
      tallyAt t tally.toNat = some { v with timerAt := some (s.now + yTimeout v.words) }) ∧
    (tallyLate s v = true → leads (.tallyDeadline tally) s fun t => ∃ z, tallyAt t tally.toNat = some z ∧ z.gen = v.gen + 1) ∧
    (∀ (slot : BitVec 10) x, v.excisions.find? (fun x => x.1 == slot.toNat && !(ticksOn s && laterTick s x.2.1)) = some x →
      let out := { v with excisions := v.excisions.erase x, excised := v.excised ++ [slot.toNat], excisedMark := true }
      yCounter v.words = false → tallyLate s v = false → allArrived out = false → leads (.tallyExciseEffect tally slot) s fun t =>
        tallyAt t tally.toNat = some out)) ∧
  (∀ (s : State) (f : Frame) (i : Intake) (r : Region), frameGood f = true → s.intake.find? (fun i => decide (i.frame = f)) = some i →
    let h := headerOf f.hdr
    let a := accessOf h
    let back := fun t => sent t 8 h.src (BitVec.ofNat 32 (h.aux.toNat / 1024 * 1024 + msOk))
    reaches s h.src → accessStatus s a = msOk → regionAt s a.region = some r →
    (h.type = 6 → isRelease f = false → readTurn s f = true → s.faults.units = [] → (rVault r.words = true → versionHeld r a.version = true) →
      leads (.memRdReceive f .first) s fun t => back t (accessRead s a (some (h.src, h.cls.toNat)))) ∧
    (h.type = 6 → isRelease f = true → readTurn s f = true → leads (.versionRelease f) s fun t => back t [] ∧
      regionAt t a.region = some (releaseVersion r a.version h.rank.toNat)) ∧
    (h.type = 7 → writeTurn s f = true → leads (.memWrReceive f) s fun t => back t [] ∧
      ∃ j ∈ t.hbm.writing, j.src = h.src ∧ j.region = a.region ∧ j.off = a.off ∧ j.data = f.payload)) ∧
  (∀ (s : State) (tag : BitVec 16) (q : MemReq), ofind s.hbm.reqs tag.toNat = some q →
    (∀ f x id, q.for_ = .xfer id → ofind s.hbm.xfers id = some x → x.run = none → x.toHost = false → 2 ≤ x.left → goodFrame f 8 = true →
      (headerOf f.hdr).seq = tag → leads (.memRspReceive f) s fun t => ofind t.hbm.reqs tag.toNat = none ∧
        ∃ y, ofind t.hbm.xfers id = some y ∧ y.left = x.left - 1) ∧
    (q.again = false → q.sentAt + Config.memTimeout ≤ s.now → leads (.memRequestTimeout tag) s fun t =>
      ∃ new y, ofind t.hbm.reqs new = some y ∧ y.again = true ∧ y.sentAt = s.now ∧ y.for_ = q.for_ ∧ y.frame.payload = q.frame.payload)) ∧
  (∀ (s : State) (region : BitVec 12) (r : Region), regionAt s region.toNat = some r →
    (rVault r.words = true → r.prevHeld = true → rHoldLimit r.words ≠ 0 → r.prevAt + rHoldLimit r.words * 65536 ≤ s.now →
      releaseWaits s region.toNat r = false → leads (.versionReclaim region) s fun t => regionAt t region.toNat = some { r with prevHeld := false }) ∧
    (∀ b, paramDue s r = true → leads (.paramBlockRead region (some b)) s fun t =>
      ∃ y, regionAt t region.toNat = some y ∧ y.param = some (padTo 64 b))) ∧
  (∀ (s : State) (stack : BitVec 2) (st : Stack), s.hbm.stackOf[stack.toNat]? = some st →
    (∀ ok, hasStack s stack.toNat = true → st.training = true → leads (.hbmTrainingDone stack ok) s fun t =>
      ∃ u, t.hbm.stackOf[stack.toNat]? = some u ∧ u.training = false ∧ u.trained = ok ∧ u.failed = !ok) ∧
    (∀ due : Nat, due = (s.now - st.refreshAt) / refreshEvery st →
      st.trained = true → inQuiet s stack.toNat = false → st.owed + due - 1 ≥ -8 → leads (.hbmRefresh stack) s fun t =>
        ∃ u, t.hbm.stackOf[stack.toNat]? = some u ∧ u.owed = st.owed + due - 1)) ∧
  (∀ (s : State) (port : BitVec 9) (f : Frame) (r : Relay) (snd : Nat), let h := headerOf f.hdr
    let wants := fun j => stillWaits r { sender := snd, round := h.epoch, frames := [], units := 0 } j
    goodFrame f 0xC = true → h.mc = 1 → relayAt s (h.dest.toNat % 65536) = some r → h.job.toNat = r.job →
    firstIdx r.members.length (fun i => (r.members.getD i (0, 0)).2 == h.src.toNat) = some snd → (∃ j < r.members.length, wants j = true) →
    (∀ j < r.members.length, wants j = true → goesNow s r snd f j = true) → leads (.relayFrameReceive port f) s fun t =>
      ∀ j < r.members.length, wants j = true → let dest := (relayHeader r j f).dest
        some dest ≠ ownEndpoint s → reaches s dest → sent t h.type dest h.aux f.payload) ∧
  (∀ (s : State) (g : BitVec 16) (j : Nat) (r : Relay), relayAt s g.toNat = some r → j < r.members.length → j < r.recv.length →
    let v := r.recv.getD j {}
    (∀ f, nextFrame r j = some f → receiverReady s r j (relayHeader r j f) = true → v.done + (headerOf f.hdr).len.toNat < r.units →
      leads (.relayCopySend g j) s fun t => ∃ y, relayAt t g.toNat = some y ∧ (y.recv.getD j {}).done = v.done + (headerOf f.hdr).len.toNat) ∧
    (∀ c, v.lastAt = some c → nextFrame r j = none → c + r.rtimeout * 65536 ≤ s.now → leads (.relaySkip g j) s fun t =>
      ∃ y, relayAt t g.toNat = some y ∧ y.recv.getD j {} = endBlock r s.now v))

/-- What the tick, tables, twin, ports, lanes and reorder contexts bring about completes with its own effect under the conditions of its rule; the
rest stands in the statements of their families. -/
def Obligations.PortEventsComplete : Prop :=
  (∀ (s : State) (a : Armed), mapsCanonical s → s.tables.armed = [a] →
    (drainDue s a = true → leads .drainStart s fun t => t.tables.armed = [{ a with draining := true }]) ∧
    (commitDue s a = true → stageBad s a = false → (∀ c < 8, bit a.mask.toNat c = true → classBusy s c = false) → ((stagedFor s a).map (·.tid)).Nodup →
      (∀ x ∈ stagedFor s a, rising x.entries = true ∧ (∀ e ∈ x.entries, e.1 < 2 ^ 20 ∧ bothFail s x.tid e.1 = false) ∧
        (changes s x).length ≤ shadowCap x.tid) → leads .commit s fun t => t.tables.armed = [] ∧
          ∀ x ∈ stagedFor s a, x.tid ≠ 1 → ∀ e ∈ x.entries, activeEntry t x.tid e.1 = e.2)) ∧
  (∀ s : State, mapsCanonical s →
    (∀ k e rest, s.tables.overflow = (k, e) :: rest → s.tables.overflowAt ≠ some s.now → k / 2 ^ 20 ≠ 1 → bothFail s (k / 2 ^ 20) (k % 2 ^ 20) = false →
      leads .overflowCopy s fun t => activeEntry t (k / 2 ^ 20) (k % 2 ^ 20) = e ∧ t.tables.overflow = rest) ∧
    (sampleDue s = true → leads .queueSample s fun t => t.tick.sampledAt = some s.now) ∧
    (tickDue s = true → leads .tickBegin s fun t => t.tick.num = s.tick.num + 1 ∧ t.tick.start = s.tick.start + tickLen s) ∧
    (comparing s = true → s.boot.thermtrip = false →
      (∀ i r, s.tandem.own[i]? = some r → r.at_ + tandemWindow s ≤ s.now → leads (.tandemWindowExpiry true i) s fun t =>
        t.tandem.own = s.tandem.own.erase r) ∧ (twinGone s = true → leads .twinLost s fun t => t.tandem.lost = true)) ∧
    (∀ f i, (headerOf f.hdr).type = 0xB → mgmtSubtype (headerOf f.hdr) = 0x10 → frameGood f = true →
      s.intake.find? (fun x => decide (x.frame = f)) = some i → i.port = tandemPort s → i.arrival + receiveStages ≤ s.now → comparing s = true →
      leAt (slice f.payload 16 16) 0 1 = 0 → leAt (slice f.payload 0 16) 0 1 = 2 → leads (.tandemRecordReceive f) s fun t =>
        t.tandem.stateAt = some s.now ∧ t.tandem.mismatch = (slice f.payload 0 16 != s.tandem.ownState))) ∧
  (∀ (s : State) (port : BitVec 9), mapsCanonical s → (portAt s port.toNat).conf = true → let p := portAt s port.toNat
    (∀ f mark src, (headerOf f.hdr).type = 0xB → mgmtSubtype (headerOf f.hdr) = 1 → frameGood f = true → carrying p.link.st = true → s.tick.state = 0 →
      offerTaken s port.toNat = some src → leAt f.payload 13 1 % 4 ≠ 0 → leads (.tickOfferReceive port f mark) s fun t =>
        t.tick.state = 1 ∧ t.tick.sourcePort = port) ∧
    (∀ f i, (headerOf f.hdr).type = 0xB → mgmtSubtype (headerOf f.hdr) ≠ 1 → mgmtSubtype (headerOf f.hdr) ≠ 0x10 →
      s.intake.find? (fun x => decide (x.frame = f)) = some i → leads (.mgmtReceive port f) s fun t => t.intake = s.intake.erase i) ∧
    (s.tick.state ≠ 0 → carrying p.link.st = true → p.lastOffer = none → leads (.tickOfferSend port) s fun t =>
      (portAt t port.toNat).lastOffer = some s.now) ∧
    (s.boot.thermtrip = false → 0 < tickLen s → s.tick.running = true →
      (∀ w : BitVec 2, dlEn (watchEntry s port.toNat w.toNat) = true → dlCycle (watchEntry s port.toNat w.toNat) ≤ curOfs s →
        p.met.getD w.toNat false = false → p.fresh.getD w.toNat false = false → p.missed = [false, false, false, false] →
        leads (.watchDeadline port w) s fun t => (portAt t port.toNat).missed.getD w.toNat false = true) ∧
      (p.kick.latch = true → kickEn s port.toNat = true → kickRepeat s port.toNat = true → curOfs s = kickRepOfs s port.toNat →
        p.kick.latchTick ≠ s.tick.num → p.kick.sentTick ≠ some s.tick.num → p.kick.repeatTick ≠ some s.tick.num →
        leads (.kickstandRepeat port) s fun t => (portAt t port.toNat).kick.repeatTick = some s.tick.num)) ∧
    (∀ k, kickDue s port.toNat = some k → kickMayGo s port.toNat k = true → p.kick.sentTick ≠ some s.tick.num → kickOnLane p.q = false →
      leads (.kickstandSend port) s fun t => (portAt t port.toNat).kick.sentTick = some s.tick.num) ∧
    (∀ f, p.link.framingLost = none → (headerOf f.hdr).hcrc = hcrcOf (headerBits { headerOf f.hdr with hcrc := 0 }) →
      malformed (headerOf f.hdr) = false →
      (lookupLater s = true → leads (.frameReceive port f) s fun t => t = { s with parsing := s.parsing ++ [(port.toNat, f, s.now)] }) ∧
      (lookupLater s = false → ∀ h, inputCheck s port.toNat (headerOf f.hdr) = .ok h →
        trailerOf f = .good → (∀ m < 16, bit (ew s 0x17 m 0).toNat 63 = false) → (isEdge s port.toNat = true → boundMeter s h.job.toNat h.cls.toNat = none) →
        consumes s h = true → (h.type ≠ 0xC ∨ h.mc ≠ 0) → leads (.frameReceive port f) s fun t =>
          t.intake = s.intake ++ [{ frame := f, port := port.toNat, arrival := s.now }])) ∧
    (∀ e, linkOpen s port.toNat = true → p.q.lane = .idle → (∀ x ∈ p.q.queue, refusedAt s port.toNat x = 0) → p.kick.pending = [] →
      alignedNow s port.toNat = none → candidate s port.toNat 7 = some e → leads (.frameStart port) s fun t =>
        ∃ x n, (portAt t port.toNat).q.lane = .frame x s.now n ∧ x.fid = e.fid) ∧
    (∀ c e st n, p.q.stallFrom = some c → c + 4096 ≤ s.now → p.q.lane = .frame e st n → leads (.sourceStall port) s fun t =>
      (portAt t port.toNat).q.stallFrom = none ∧ t.dropping = s.dropping ++ [e.fid]) ∧
    (∀ ret, carrying p.link.st = true → stillLost s port.toNat = false → leads (.creditCycleReceive port ret) s fun t =>
      ∀ c < 8, nth (portAt t port.toNat).q.coming c = nth p.q.coming c + (ret.getD c 0).toNat) ∧
    (linkOpen s port.toNat = true → p.q.lane = .idle →
      (sumNat (returns s port.toNat) ≠ 0 → p.q.lastCredit = none → urgentAt s port.toNat s.now = false → urgentAt s port.toNat (s.now + 1) = false →
        leads (.creditCycleSend port) s fun t => (portAt t port.toNat).q.lane = .credit s.now) ∧
      (∀ e, isEdge s port.toNat = true → kickTakes s port.toNat = false → (∀ x ∈ p.q.queue, refusedAt s port.toNat x = 0) →
        alignedNow s port.toNat = some e → leads (.alignedCopySend port) s fun t =>
        ∃ x n, (portAt t port.toNat).q.lane = .frame x s.now n ∧ x.fid = e.fid)) ∧
    (∀ x h inv, p.link.started = true → readHeader x = some (h, inv) → hNak h = true → p.link.nakSeen = false → leads (.nakReceive port x) s fun t =>
      (portAt t port.toNat).link.resend = ackUpTo p.link.replay (hAck h)) ∧
    (∀ blocks : List LaneBlock, p.link.started = true → sends p.link.st = true → p.link.waiting = false → blocks ≠ [] → blocks.map (·.lane) = p.lanes →
      p.lanes.Nodup → (∀ b ∈ blocks, b.lane ∈ planLanes port.toNat p.plan) →
      (∀ b ∈ blocks, ∃ h, blockGood s b = some h ∧ hBsn h = p.link.ack + 1 ∧
        (rxBlock p.link.rx (bits h.toNat 28 19) ((inNbrOrder s port.toNat blocks).map (rxBytes s))).2 = false) →
      leads (.laneBlockReceive port blocks) s fun t => (portAt t port.toNat).link.ack = p.link.ack + 1) ∧
    (p.link.st = .quiet → p.link.since + 1024 ≤ s.now → s.boot.allIdle = false → s.boot.steward = true → ∀ byLimit, leads (.linkStateEnd port byLimit) s fun t =>
      (portAt t port.toNat).link = { p.link with st := .train, since := s.now }) ∧
    (∀ lane rest, p.link.st = .check → p.lanes = lane :: rest → (∀ l ∈ lane :: rest, (laneAt s l).bad = false ∧ (laneAt s l).ready = true ∧
        (laneAt s l).bookOk = true) → wiringFault s port.toNat (lane :: rest) = none →
      ∀ bsn arrival, p.link.lastIn = some (bsn, arrival) →
      leads (.passbookRotation port bsn arrival) s fun t => (portAt t port.toNat).link.nbr = (laneAt s lane).rotation) ∧
    (∀ c, p.link.fencedAt = some c → p.link.degrading = true → c + 65536 ≤ s.now → leads (.degradeTimeout port) s fun t =>
      (portAt t port.toNat).link.st = .quiet) ∧
    (∀ lane : BitVec 9, lane.toNat ∈ planLanes port.toNat p.plan → (laneAt s lane.toNat).lock = true → leads (.lossOfSignal port lane) s fun t =>
      (laneAt t lane.toNat).lock = false)) ∧
  (∀ (s : State) (pg : BitVec 4) (src : BitVec 20) (job : BitVec 8) (seq : BitVec 16) (c : Reorder), mapsCanonical s →
    s.reorder.find? (fun x => x.pg == pg.toNat && x.src == src.toNat && x.job == job.toNat && x.seq == seq.toNat) = some c →
    c.timer + clsTimeout s c.cls * 1024 ≤ s.now → leads (.reorderTimerExpiry pg src job seq) s fun t =>
      bit (statAt t (srcPg pg.toNat)).status.toNat 11 = true ∧ ∀ x ∈ t.reorder, sameCtx x c = true → x.held = [])

/-- Each command and event of rings, host link, registers and debug answers a next state with its own effect, under the conditions of its rule on
the state and its operands alone. The rest of what it does and its frame stand in the statement of its family. -/
def Obligations.HostEventsComplete : Prop :=
  (∀ (s : State) (ring : BitVec 6) (d : Desc), admitted s ring d 0x00 (cringOf d.d0) none → leads (.nop ring d) s fun t =>
    answered s t ring d (cringOf d.d0) 0 stOk 0 0) ∧
  (∀ (s : State) (line : BitVec 58) (k : Nat) (w : Watch), watchOfLine s line = some (k, w) →
    leads (.snoopInvalidate line) s (fun t => t.host.snoopRsp = s.host.snoopRsp ++ [if w.held then 1 else 0]) ∧
    leads (.snoopData line) s (fun t => t.host.snoopRsp = s.host.snoopRsp ++ [if w.held then 2 else 0])) ∧
  (∀ (s : State) (k : BitVec 10) (index : W32), (watchAt s k.toNat).reading = true → leads (.watchLineRead k index) s fun t =>
    (watchAt t k.toNat).value = index) ∧
  (∀ (s : State) (id n i : Nat), ofind s.host.reads id = some (.fetch n i) →
    (∀ data, leads (.hostReadData id data) s fun t => ofind t.host.reads id = none) ∧
    leads (.hostReadError (.fetch id)) s fun t => bit (statAt t srcHost).status.toNat hbDmaRead = true) ∧
  (∀ (s : State) (ring : BitVec 6) (d : Desc), readsHost d = true → opcodeOf d ≠ 0x22 →
    admitted s ring d (opcodeOf d) (cringOf d.d0) none → leads (.hostReadError (.object ring d)) s fun t =>
      answered s t ring d (cringOf d.d0) 0 stHostError 0 0) ∧
  (∀ (s : State) (id n g : Nat) (w : HostWrite), ofind s.host.writes id = some w → w.kind = .copy n g →
    leads (.hostWriteGo id) s (fun t => ofind t.host.writes id = none) ∧
    leads (.hostWriteError id) s fun t => bit (statAt t srcHost).status.toNat hbDmaWrite = true) ∧
  (∀ (s : State) (c : Cpl) (e : List W64) (rest : List Cpl), s.host.pending = [] → s.host.ready = c :: rest → c.waits = [] →
    c.quiet = false → c.ring = none → c.after = [] → c.entries = [e] → ringEn (cplRing s c.cring).ctl = true →
    ringRoom s 1 c.cring (cplRing s c.cring) 1 = true → leads .completionWrite s fun t =>
      t.host.ready = rest ∧ (cplRing t c.cring).wi = (cplRing s c.cring).wi + 1) ∧
  (∀ (s : State) (ring : BitVec 6), coalDue s (cplRing s ring.toNat) = true → entryWrites s (.completion ring.toNat) = [] →
    leads (.coalesceTimerExpiry false ring) s fun t => (cplRing t ring.toNat).since = 0) ∧
  (∀ s : State, (∀ c ∈ [Instr.functionLevelReset, .conventionalReset], leads c s fun t =>
      (∀ n, ringEn (cmdRing t n).ctl = false) ∧ t.host.pending = [] ∧ ∃ e ∈ t.ledger.queue, e.kind = 0x09) ∧
    (s.host.cxlUp = true → leads .cxlLinkLoss s fun t => t.host.cxlUp = false ∧ (∀ n, ringEn (cmdRing t n).ctl = false) ∧
      ∃ e ∈ t.ledger.queue, e.kind = 0x09) ∧
    (s.boot.phase = .run → 1024 ≤ s.now → bits s.boot.strap.toNat 11 10 ≠ 2 → leads .cxlLinkUp s fun t => t.host.cxlUp = true)) ∧
  (∀ (s : State) (org : RegOrigin) (v : W32), mapsCanonical s → s.boot.phase = .run → ledgerRoom s = true →
    (∀ x : W64, s.host.evroute ≠ lo32 x.toNat &&& 0x3FFFFF →
      leads (.registerWrite .host 0x5080 4 x) s (fun t => t.host.evroute = lo32 x.toNat &&& 0x3FFFFF) ∧
      leads (.dbgreg true 0x5080 4 x) s (fun t => t.host.evroute = lo32 x.toNat &&& 0x3FFFFF)) ∧
    leads (.pairLoRead org 0x208 4) s (fun t => t.host.readData = (lo32 s.tick.num.toNat).setWidth 64) ∧
    (∀ n, n < 64 → ringEn v = true → 6 ≤ ringLog v → ringLog v ≤ 16 → ringEn (cmdRing s n).ctl = false →
      leads (.ringEnable org (BitVec.ofNat 20 (0x4010 + 32 * n)) v) s fun t => ringEn (cmdRing t n).ctl = true ∧ (cmdRing t n).ci = 0) ∧
    (∀ k : BitVec 10, bit v.toNat 31 = false → bit (watchAt s k.toNat).ctl.toNat 31 = true →
      watchRingEn s (watchAt s k.toNat).ctl = false → leads (.watchDisable org k v) s fun t =>
        bit (watchAt t k.toNat).ctl.toNat 31 = false ∧ (watchAt t k.toNat).held = false) ∧
    (∀ (off : BitVec 20) (src : Nat), statusReg off.toNat = some (src, 0) → blockPresent s src = true →
      leads (.statusClear org off v) s fun t =>
        (statAt t src).clearing = some (s.now, (((statAt s src).clearing.map (·.2)).getD 0) ||| v)) ∧
    (∀ (nn : BitVec 4) (j : Nat), hasPg s nn.toNat = true → j < 32 → bit v.toNat j = true →
      (portAt s (32 * nn.toNat + j)).kick.latch = true → leads (.kickLatchClear org nn v) s fun t =>
        (portAt t (32 * nn.toNat + j)).kick.clearing = some (s.now, org)) ∧
    (bit v.toNat 31 = true → leads (.refusedClear org v) s fun t => t.refused = s.refused &&& 0x3FFFFFFF) ∧
    (bits v.toNat 31 30 = 1 → haltNow s = 0 → bits v.toNat 11 0 < logicalTiles s → tileDown s (bits v.toNat 11 0) = false →
      leads (.debugHalt org v) s fun t => t.tiles.haltState = 1 ∧ t.tiles.haltTile = BitVec.ofNat 12 (bits v.toNat 11 0)) ∧
    (bits v.toNat 31 30 = 2 → haltNow s = 2 → leads (.debugResume org v) s fun t => t.tiles.haltState = 0) ∧
    ((portAt s (bits v.toNat 8 0)).conf = true → kickEn s (bits v.toNat 8 0) = true → s.boot.thermtrip = false →
      leads (.dbgKickTest org v) s fun t => (portAt t (bits v.toNat 8 0)).kick.testAt = some s.now) ∧
    (∀ off : BitVec 20, 0xC0000 ≤ off.toNat → off.toNat < 0xF0000 → off.toNat % 8 = 0 → haltNow s = 2 →
      leads (.accumulatorWindowRead org off 8) s fun t => t.host.readData = storeWord s ((off.toNat - 0xC0000) / 8)))

/-- Each event of bring-up, resets, sensors, ledger, DOE and sideband answers a next state with its own effect, under the conditions of its rule
on the state and its operands alone. The rest of what it does and its frame stand in the statement of its family. -/
def Obligations.BootEventsComplete : Prop :=
  ∀ s : State,
    (∀ cause : BitVec 2, leads (.coldReset cause) s fun t =>
      t.boot.cause = cause ∧ t.boot.phase = (if cause = 2 then .plls else .reset) ∧ t.tills = [] ∧ t.ports = []) ∧
    (∀ khz : Nat, 99400 ≤ khz → khz ≤ 100050 → leads (.refclkMeasure khz) s fun t => t.boot.refclkOk = true) ∧
    (s.boot.phase = .reset → leads .rstNRelease s fun t => t.boot.phase = .plls) ∧
    (s.boot.phase = .plls → s.boot.refclkOk = true → ∀ (fuses : Fuses) (pins : BitVec 14), leads (.pllLock fuses pins) s fun t =>
      t.boot.phase = .sync ∧ t.boot.fuses = fuses ∧ t.boot.strap = pins &&& 0x3FF7) ∧
    (s.boot.phase = .sync → leads .syncNSampleHigh s fun t => t.boot.phase = .run ∧ t.now = 0) ∧
    (∀ pins : BitVec 14, pins ≠ s.boot.pins → leads (.strapChange pins) s fun t => t.boot.pins = pins) ∧
    (∀ (dir : FlashDir) (l item chain : List Byte) (ok : Bool) (slot : Nat), awaitsFirmware s = true → dirOf dir = some l →
      (slotOrder s).find? (fun x => !s.boot.tried.contains x) = some slot → slot ≠ 2 → itemOf (some l) (slot + 1) 0 item = .good →
      imageFault s item = none → leads (.firmwareCheck dir item chain ok) s fun t =>
        t.boot.steward = true ∧ ∃ fw, t.boot.fw = some fw ∧ fw.slot = slot) ∧
    (s.boot.phase = .run →
      (strapFault s = none → leads .tilesReady s fun t => t.tiles.ready = true ∧ bit t.boot.ready.toNat 20 = true) ∧
      (s.boot.steward = true → s.boot.planDone = false → ∀ (dir : FlashDir) (plan eq : List Byte),
        leads (.wiringPlanCheck dir plan eq) s fun t => t.boot.planDone = true ∧ bit t.boot.ready.toNat 22 = true) ∧
      (s.boot.held = false → s.boot.fw = none → bits s.boot.strap.toNat 9 8 = 3 → ∀ image, leads (.jtagBootLoad image) s fun t =>
        t.boot.jtag = some image) ∧
      (s.boot.fw.isSome = true → s.boot.held = false → s.boot.warm = false →
        leads .warmReset s (fun t => t.boot.warm = true ∧ t.tills = [] ∧ t.frames = [] ∧ t.tables.active = s.tables.active) ∧
        (s.boot.steward = false → s.boot.quietNext = false ∨ s.faults.image = false →
          leads .stewardReturn s fun t => t.boot.steward = true)) ∧
      (s.boot.warm = true → leads .warmResetRelease s fun t => t.boot.warm = false ∧ t.boot.coreAt = some (s.now + 64)) ∧
      (s.boot.steward = true → ∀ (exception : Bool) (core : BitVec 2), leads (.stewardRestart exception core) s fun t =>
        t.boot.steward = false ∧ ∃ e ∈ t.ledger.queue, e.kind = 0x0A) ∧
      (s.boot.temps.length = 6 → s.boot.throttle.length = 2 → s.hbm.stackOf.length = 4 → ∀ (west east : Int) (hs : List Int),
        hs.length = 4 → leads (.sensorRead west east hs) s fun t => t.boot.temps.head? = some (some west) ∧
          ∀ k < 4, hasStack s k = true → t.boot.temps.getD (2 + k) none = some (hs.getD k 0))) ∧
    (∀ fw, s.boot.fw = some fw → s.boot.steward = true → s.ledger.sealed = true → ledgerRoom s = true → leads .fuseWrite s fun t =>
      t.boot.fuses.svn = (if fw.commitSvn then max s.boot.fuses.svn fw.svn else s.boot.fuses.svn) ∧
      t.boot.fuses.revoked0 = (s.boot.fuses.revoked0 || (fw.keySlot == 1 && fw.revoke0))) ∧
    (s.boot.phase = .run → leads (.i3cRegisterRead 0x800) s fun t => t.boot.i3cData = statReady s) ∧
    (∀ a, leads (.i3cDynamicAddress a) s fun t => t.boot.i3cAddr = a) ∧
    (∀ (c : Change) (rest : List Change), mapsCanonical s → s.ledger.queue = c :: rest → s.ledger.recording = true →
      (∀ u, s.ledger.lastAt = some u → u + 160 ≤ s.now) → leads .ledgerChainEntry s fun t =>
        t.ledger.seq = s.ledger.seq + 1 ∧ sget [] t.ledger.store (s.ledger.seq % 65536) = entryBytes s.ledger.seq c) ∧
    (s.boot.steward = true → s.ledger.sealing = none → s.ledger.recording = true → ledgerRoom s = true →
      s.ledger.unsealedAt.isSome = true → leads .seal s fun t => t.ledger.sealing.isSome = true ∧ ∃ e ∈ t.ledger.queue, e.kind = 0x30) ∧
    (∀ u, s.ledger.unsealedAt = some u → u + 1600000000 ≤ s.now → leads .sealWait s fun t =>
      bit (statAt t srcSteward).status.toNat stwSealWait = true) ∧
    (s.ledger.mirrorEn = true → s.ledger.seq - 65536 ≤ s.ledger.mirrorNext → s.ledger.mirrorNext < s.ledger.seq →
      leads .ledgerMirrorWrite s fun t => t.ledger.mirrorNext = s.ledger.mirrorNext + 1) ∧
    (s.boot.steward = true → s.boot.held = false →
      leads .getVersion s (fun t => t.spdm.version = true ∧ t.spdm.code = 0x04) ∧
      (s.spdm.version = true → leads .getCapabilities s fun t => t.spdm.caps = true ∧ t.spdm.code = 0x61) ∧
      (s.spdm.caps = true → leads .negotiateAlgorithms s fun t => t.spdm.algs = true ∧ t.spdm.code = 0x63) ∧
      leads (.doeDiscovery 0) s (fun t => t.doe = 0x01000001) ∧
      (s.spdm.algs = true →
        (s.boot.unprovisioned = false →
          leads .getDigests s (fun t => t.spdm.code = 0x01 ∧ t.spdm.response = 0x01 :: sha512Bytes s.boot.certChain) ∧
          ∀ a n, a < s.boot.certChain.length → leads (.getCertificate 0 a n) s fun t =>
            t.spdm.code = 0x02 ∧ t.spdm.response.drop 4 = (s.boot.certChain.drop a).take (min n 65520)) ∧
        (∀ nonce, leads (.challenge 0 nonce) s fun t => t.spdm.code = 0x03 ∧ t.spdm.signed.isSome = true) ∧
        ∀ (i : Byte) (sign : Bool) (nonce : BitVec 256), 1 ≤ i.toNat → i.toNat ≤ 12 → leads (.getMeasurements i sign nonce) s fun t =>
          t.spdm.code = 0x60 ∧ t.spdm.signed.isSome = sign))

/-! ### Ring commands and the host interface (13) -/

/-- NOP completes OK at acceptance, and a reserved opcode is refused: the consumer index rises by 1 unless failed fetches follow, it
is written to CI_ADDR, and nothing but the host interface changes. -/
def Obligations.NopAdvancesRingAndCompletes : Prop :=
  (∀ (s : State) (ring : BitVec 6) (d : Desc), admitted s ring d 0x00 (cringOf d.d0) none →
    leads (.nop ring d) s fun t =>
      onlyChanges [.host, .fresh] s t ∧ answered s t ring d (cringOf d.d0) 0 stOk 0 0 ∧
      ((cmdRing s ring.toNat).slots[1]? ≠ some .failed →
        (cmdRing t ring.toNat).ci = (cmdRing s ring.toNat).ci + 1) ∧
      ((cmdRing s ring.toNat).ciAddr.toNat / 8 ≠ 0 →
        hostWriting t ((cmdRing s ring.toNat).ciAddr.toNat / 8 * 8) (leBytes 4 ((cmdRing s ring.toNat).ci + 1).toNat)
          (.ci ring.toNat))) ∧
  (∀ (s : State) (ring : BitVec 6) (d : Desc), descForm (opcodeOf d) = none → atHead s ring.toNat d = true →
    ringEn (cplRing s (cringOf d.d0)).ctl = true →
    leads (.nop ring d) s fun t => onlyChanges [.host, .fresh] s t ∧ answered s t ring d (cringOf d.d0) 0 stRefused 0 0)

/-- A snoop invalidation is answered at once by the state of the line; one of a watched line in Shared state starts another read
of it, one that comes while a read is outstanding has it read again. A snoop for data is answered and is no doorbell. The
index read from a watched line: it is kept, the line is held unless a snoop came meanwhile, and it becomes the producer index
of a command ring, which an index out of range halts, or the consumer index of a completion or event ring. -/
def Obligations.DoorbellsAct : Prop :=
  (∀ (s : State) (line : BitVec 58),
    (watchOfLine s line = none →
      leads (.snoopInvalidate line) s (fun t => t = answerSnoop s 0) ∧ leads (.snoopData line) s (fun t => t = answerSnoop s 0)) ∧
    (∀ k w, watchOfLine s line = some (k, w) →
      leads (.snoopInvalidate line) s (fun t => onlyChanges [.host] s t ∧
        t.host.snoopRsp = s.host.snoopRsp ++ [if w.held then 1 else 0] ∧
        (w.held = true → watchAt t k = { w with held := false, reading := true }) ∧
        (w.held = false → w.reading = true → watchAt t k = { w with again := true })) ∧
      leads (.snoopData line) s (fun t => t = answerSnoop s (if w.held then 2 else 0)))) ∧
  (∀ (s : State) (k : BitVec 10) (index : W32), (watchAt s k.toNat).reading = true →
    leads (.watchLineRead k index) s fun t =>
      onlyChanges [.host, .stats, .fresh] s t ∧
      (watchAt t k.toNat).value = index ∧ (watchAt t k.toNat).reading = (watchAt s k.toNat).again ∧
      (watchAt t k.toNat).held = !(watchAt s k.toNat).again ∧
      (let n := bits (watchAt s k.toNat).ctl.toNat 28 23
       let kind := bits (watchAt s k.toNat).ctl.toNat 30 29
       (kind = 0 → ringEn (cmdRing s n).ctl = true → (cmdRing t n).pi = index ∧
         ((index - (cmdRing s n).ci).toNat > ringSize (cmdRing s n).ctl → (cmdRing t n).halted = true)) ∧
       (kind = 1 → ringEn (cplRing s n).ctl = true → cplRing t n = { cplRing s n with ci := index }) ∧
       (kind = 2 → ringEn (evRing s n).ctl = true → evRing t n = { evRing s n with ci := index })))

/-- Data of a descriptor fetch become the descriptor of their slot; a failed fetch fails its slot and sets DMA_READ_ERROR. A
command whose object, table or image cannot be read completes with HOST_ERROR and reserves nothing. GO ends a host write:
nothing waits for it any longer. GO-Err does the same, sets DMA_WRITE_ERROR and makes a copy's completion HOST_ERROR. -/
def Obligations.HostReadsAndWritesEnd : Prop :=
  (∀ (s : State) (id n i : Nat) (data : List Byte), ofind s.host.reads id = some (.fetch n i) →
    leads (.hostReadData id data) s (fun t => onlyChanges [.host] s t ∧ ofind t.host.reads id = none ∧
      (ringEn (cmdRing s n).ctl = true → (cmdRing t n).slots =
        (cmdRing s n).slots.map fun x => if x = .reading id then .got (descOf data) else x)) ∧
    leads (.hostReadError (.fetch id)) s (fun t => onlyChanges [.host, .stats, .fresh] s t ∧
      bit (statAt t srcHost).status.toNat hbDmaRead = true)) ∧
  (∀ (s : State) (ring : BitVec 6) (d : Desc), readsHost d = true → opcodeOf d ≠ 0x22 →
    admitted s ring d (opcodeOf d) (cringOf d.d0) none →
    leads (.hostReadError (.object ring d)) s fun t =>
      onlyChanges [.host, .stats, .fresh] s t ∧ answered s t ring d (cringOf d.d0) 0 stHostError 0 0 ∧
      bit (statAt t srcHost).status.toNat hbDmaRead = true) ∧
  (∀ (s : State) (id : Nat) (w : HostWrite), ofind s.host.writes id = some w →
    ((∀ t, w.kind ≠ .save t) → (∀ q, w.kind ≠ .mirror q) →
      leads (.hostWriteGo id) s fun t => onlyChanges [.host] s t ∧ ofind t.host.writes id = none ∧
        t.host.ready = s.host.ready.map (cplOver id)) ∧
    (∀ n g, w.kind = .copy n g →
      leads (.hostWriteError id) s fun t => onlyChanges [.host, .stats, .fresh] s t ∧
        bit (statAt t srcHost).status.toNat hbDmaWrite = true ∧
        t.host.ready = s.host.ready.map fun c => if c.waits.contains id then cplOver id (failCpl c) else cplOver id c))

/-- The first completion that is ready and fits its ring is written there: entries of 32 bytes at the write index, PHASE set, and
the write index rises by their number. A completion that finds its ring without room waits in the pending queue, and
RING_OVERFLOW is set. When the coalescing time of a ring has passed, its vector is raised, at once when every entry has its
GO; one that is masked is pending. -/
def Obligations.CompletionsAreWritten : Prop :=
  (∀ (s : State) (c : Cpl) (e : List W64) (rest : List Cpl), s.host.pending = [] → s.host.ready = c :: rest → c.waits = [] →
    c.quiet = false → c.ring = none → c.after = [] → c.entries = [e] → ringEn (cplRing s c.cring).ctl = true →
    ringRoom s 1 c.cring (cplRing s c.cring) 1 = true →
    leads .completionWrite s fun t =>
      onlyChanges [.host, .fresh] s t ∧ t.host.ready = rest ∧ (cplRing t c.cring).wi = (cplRing s c.cring).wi + 1 ∧
      hostWriting t ((cplRing s c.cring).base.toNat / 4096 * 4096 +
          32 * ((cplRing s c.cring).wi.toNat % ringSize (cplRing s c.cring).ctl))
        (bytesOf (withPhase e (phaseOf (cplRing s c.cring).wi (ringLog (cplRing s c.cring).ctl)))) (.completion c.cring)) ∧
  (∀ (s : State) (c : Cpl) (rest : List Cpl), s.host.pending = [] → s.host.ready = c :: rest → c.waits = [] → c.quiet = false →
    c.ring = none → ringEn (cplRing s c.cring).ctl = true → ringRoom s 1 c.cring (cplRing s c.cring) c.entries.length = false →
    leads .completionWrite s fun t =>
      onlyChanges [.host, .stats, .fresh] s t ∧ t.host.pending = [c] ∧ t.host.ready = rest ∧
      bit (statAt t srcHost).status.toNat hbOverflow = true) ∧
  (∀ (s : State) (ring : BitVec 6),
    (coalDue s (cplRing s ring.toNat) = true → entryWrites s (.completion ring.toNat) = [] →
      leads (.coalesceTimerExpiry false ring) s fun t => onlyChanges [.host] s t ∧
        let v := bits (cplRing s ring.toNat).ctl.toNat 30 25
        let held := (sget {} s.host.msixTable v).masked
        t.host.msix = s.host.msix ++ (if held then [] else [v]) ∧ (held = true → bit t.host.pba.toNat v = true) ∧ (cplRing t ring.toNat).since = 0) ∧
    (coalDue s (evRing s ring.toNat) = true → entryWrites s (.event ring.toNat) = [] →
      leads (.coalesceTimerExpiry true ring) s fun t => onlyChanges [.host] s t ∧
        let v := bits (evRing s ring.toNat).ctl.toNat 30 25
        let held := (sget {} s.host.msixTable v).masked
        t.host.msix = s.host.msix ++ (if held then [] else [v]) ∧ (held = true → bit t.host.pba.toNat v = true) ∧ (evRing t ring.toNat).since = 0))

/-- A function-level reset, a conventional reset and a loss of the CXL link disable every ring and watch entry, discard what was fetched
or pending, return the MSI-X state to reset, and are recorded in the ledger with the number of completions discarded. -/
def Obligations.HostResetsDisableRings : Prop :=
  ∀ (s : State), (∀ c k, (c, k) ∈ [(Instr.functionLevelReset, 0), (Instr.conventionalReset, 1)] ∨
      (c = .cxlLinkLoss ∧ k = 2 ∧ s.host.cxlUp = true) →
    leads c s fun t =>
      onlyChanges [.host, .stats, .pools, .tills, .faults, .ledger, .fresh] s t ∧
      (∀ n, ringEn (cmdRing t n).ctl = false ∧ (cmdRing t n).slots = []) ∧ (∀ n, ringEn (cplRing t n).ctl = false) ∧
      (∀ n, ringEn (evRing t n).ctl = false) ∧ (∀ n, bit (watchAt t n).ctl.toNat 31 = false ∧ (watchAt t n).held = false) ∧
      t.host.pending = [] ∧ t.host.reads = [] ∧ t.host.writes = [] ∧ (k ≠ 2 → t.host.msix = []) ∧
      ∃ e, t.ledger.queue = enqueueChange s e ∧ e.kind = 0x09 ∧ e.target = BitVec.ofNat 64 k ∧
        e.new = padTo 16 (leBytes 16 s.host.pending.length)) ∧
    (s.boot.phase = .run → 1024 ≤ s.now → bits s.boot.strap.toNat 11 10 ≠ 2 →
      leads .cxlLinkUp s fun t => t = { s with host := { s.host with cxlUp := true } })

/-! ### Set-up registers (14, 16) -/

/-- A register write that changes a field takes effect at once and enters the ledger with its origin; DBGREG writes as the debug port,
which is measured. A write of a wrong size or alignment changes nothing but its report in STAT_REFUSED. -/
def Obligations.RegisterWriteTakesEffect : Prop :=
  (∀ (s : State) (v : W64), s.boot.phase = .run → ledgerRoom s = true → s.host.evroute ≠ lo32 v.toNat &&& 0x3FFFFF →
    leads (.registerWrite .host 0x5080 4 v) s (fun t => onlyChanges [.host, .ledger] s t ∧
      t.host = { s.host with evroute := lo32 v.toNat &&& 0x3FFFFF } ∧
      ∃ e, t.ledger.queue = enqueueChange s e ∧ e.kind = 0x07 ∧ e.origin = BitVec.ofNat 8 oReg) ∧
    leads (.dbgreg true 0x5080 4 v) s (fun t => onlyChanges [.boot, .host, .ledger] s t ∧
      t.host = { s.host with evroute := lo32 v.toNat &&& 0x3FFFFF } ∧
      t.boot = { s.boot with debugBits := s.boot.debugBits ||| 1 } ∧
      ∃ e, t.ledger.queue = enqueueChange s e ∧ e.kind = 0x07 ∧ e.origin = BitVec.ofNat 8 oDebug)) ∧
  (∀ (s : State) (off : BitVec 20) (n : Nat) (v : W64), s.boot.phase = .run → (n ≠ 4 ∧ n ≠ 8) ∨ off.toNat % n ≠ 0 →
    leads (.registerWrite .host off n v) s (fun t => onlyChanges [.refused] s t ∧
      (bit s.refused.toNat 31 = false → t.refused = BitVec.ofNat 32 (2 ^ 31 + rsSize * 2 ^ 20 + off.toNat / 4 * 4)) ∧
      (bit s.refused.toNat 31 = true → t.refused = s.refused ||| 0x40000000)))

/-- Reads answer: a register its value, a _LO register also latching what belongs to it, the accumulator window of a halted tile
its word and of any other 0 with NOT_HALTED, the I3C sideband the registers it reaches and the temperature words, and a wrong
size or alignment 0. Setting a dynamic address sets it. CAP_UNITS reads the word of its grade (01 R24). -/
def Obligations.ReadsAnswer : Prop :=
  (∀ (s : State) (org : RegOrigin), s.boot.phase = .run →
    leads (.pairLoRead org 0x208 4) s (fun t => onlyChanges [.host] s t ∧ t.host.readData = (lo32 s.tick.num.toNat).setWidth 64 ∧
      ofind t.host.latch 0x20C = some (hi32 s.tick.num.toNat) ∧ ofind t.host.latch 0x210 = some (lo32 (curOfs s))) ∧
    leads (.dbgreg false 0x5080 4 0) s (fun t => t = answerRead s (s.host.evroute.setWidth 64)) ∧
    (∀ (off : BitVec 20) (n : Nat), off.toNat < 0xC0000 → (n ≠ 4 ∧ n ≠ 8) ∨ off.toNat % n ≠ 0 →
      leads (.pairLoRead org off n) s fun t => t = answerRead s 0) ∧
    (∀ (off : BitVec 20), 0xC0000 ≤ off.toNat → off.toNat < 0xF0000 → off.toNat % 8 = 0 →
      (haltNow s = 2 → leads (.accumulatorWindowRead org off 8) s fun t =>
        t = answerRead s (storeWord s ((off.toNat - 0xC0000) / 8))) ∧
      (haltNow s ≠ 2 → leads (.accumulatorWindowRead org off 8) s fun t => onlyChanges [.host, .tiles] s t ∧
        t.host.readData = 0 ∧ t.tiles = { s.tiles with notHalted := true })) ∧
    (∀ i < 6, leads (.i3cRegisterRead (BitVec.ofNat 16 (0xF000 + 4 * i))) s fun t =>
      t = { s with boot := { s.boot with i3cData := statTemp s i } }) ∧
    leads (.i3cRegisterRead 0x800) s (fun t => t = { s with boot := { s.boot with i3cData := statReady s } }) ∧
    (∀ a, leads (.i3cDynamicAddress a) s fun t => t = { s with boot := { s.boot with i3cAddr := a } })) ∧
  (∀ (s : State), s.boot.phase = .run →
    (∀ g v, (g, v) ∈ [(1, (0x10FFFFFE : W64)), (2, 0x20FFFF3E), (3, 0x3000FF00)] → s.boot.fuses.grade = g →
      leads (.dbgreg false 0x20 4 0) s fun t => onlyChanges [.host] s t ∧ t.host.readData = v))

/-- A ring whose EN goes from 0 to 1 starts at index 0 with the fields written and reads its watched line; a watch entry whose EN
goes to 0 while its ring is off drops its line. A write of 1s to STATUS or to kickstand latches is taken; in the FCLK cycle
after it those bits clear, but for a state cause still present, which keeps its own, and those latches clear whose cause is
over. A tile bit clears, and so do VALID with MULTI of STAT_REFUSED. -/
def Obligations.RegistersEnableAndClear : Prop :=
  ((∀ (s : State) (org : RegOrigin) (n : Nat) (v : W32), n < 64 → s.boot.phase = .run → ledgerRoom s = true →
    ringEn v = true → 6 ≤ ringLog v → ringLog v ≤ 16 →
    (ringEn (cmdRing s n).ctl = false → leads (.ringEnable org (BitVec.ofNat 20 (0x4010 + 32 * n)) v) s fun t =>
      onlyChanges [.boot, .host, .ledger] s t ∧ ringEn (cmdRing t n).ctl = true ∧ ringLog (cmdRing t n).ctl = ringLog v ∧
      bits (cmdRing t n).ctl.toNat 31 21 = bits v.toNat 31 21 ∧ (cmdRing t n).ci = 0 ∧ (cmdRing t n).pi = 0 ∧
      (cmdRing t n).slots = [] ∧ (cmdRing t n).halted = false ∧ (cmdRing t n).base = (cmdRing s n).base) ∧
    (ringEn (cplRing s n).ctl = false → leads (.ringEnable org (BitVec.ofNat 20 (0x4808 + 32 * n)) v) s fun t =>
      onlyChanges [.boot, .host, .ledger] s t ∧ ringEn (cplRing t n).ctl = true ∧ ringLog (cplRing t n).ctl = ringLog v ∧
      bits (cplRing t n).ctl.toNat 31 5 = bits v.toNat 31 5 ∧ (cplRing t n).wi = 0 ∧ (cplRing t n).ci = 0)) ∧
  (∀ (s : State) (org : RegOrigin) (k : BitVec 10) (v : W32), mapsCanonical s → s.boot.phase = .run → ledgerRoom s = true →
    bit v.toNat 31 = false → bit (watchAt s k.toNat).ctl.toNat 31 = true → watchRingEn s (watchAt s k.toNat).ctl = false →
    leads (.watchDisable org k v) s fun t => onlyChanges [.boot, .host, .refused, .ledger] s t ∧
      bit (watchAt t k.toNat).ctl.toNat 31 = false ∧ (watchAt t k.toNat).held = false ∧
      t.host.evicted = s.host.evicted ++
        if (watchAt s k.toNat).held then [(watchAt s k.toNat).addr.extractLsb' 6 58] else [])) ∧
  (∀ (s : State) (org : RegOrigin) (v : W32), mapsCanonical s → s.boot.phase = .run → ledgerRoom s = true →
    (∀ (off : BitVec 20) (src b : Nat), statusReg off.toNat = some (src, 0) → blockPresent s src = true → b < 26 →
      (src ≠ srcHost ∨ b ≠ hbOverflow) →
      leads (.statusClear org off v) s (fun t => onlyChanges [.boot, .stats] s t ∧ statAt t src =
        { statAt s src with clearing := some (s.now, (((statAt s src).clearing.map (·.2)).getD 0) ||| v) }) ∧
      bit (statAt (clearStatus s src v) src).status.toNat b =
        (bit (statAt s src).status.toNat b && (!(bit v.toNat b && bit (causeMask src) b) || stateCause s src b))) ∧
    (∀ src c, (statAt s src).clearing = some (c, v) → c < s.now → (∀ e ∈ s.stats, e.2.clearing.isSome = true → e.1 = src) →
      (∀ e ∈ s.ports, e.2.kick.clearing = none) → clearsDue s = clearStatus s src v) ∧
    (∀ (off : BitVec 20) (src : Nat), statusReg off.toNat = some (src, 3) → blockPresent s src = true →
      leads (.statusClear org off v) s fun t => onlyChanges [.boot, .stats] s t ∧
        (statAt t src).tiles = (statAt s src).tiles &&& ~~~(v.setWidth 64)) ∧
    (∀ (nn : BitVec 4) (j : Nat), hasPg s nn.toNat = true → j < 32 →
      leads (.kickLatchClear org nn v) s (fun t => onlyChanges [.boot, .ports] s t ∧
        (portAt t (32 * nn.toNat + j)).kick = { (portAt s (32 * nn.toNat + j)).kick with
          clearing := if bit v.toNat j = true ∧ (portAt s (32 * nn.toNat + j)).kick.latch = true then some (s.now, org)
            else (portAt s (32 * nn.toNat + j)).kick.clearing }) ∧
      (portAt (clearKick s (32 * nn.toNat + j)) (32 * nn.toNat + j)).kick.latch =
        ((portAt s (32 * nn.toNat + j)).kick.latch && (kickPresent s (32 * nn.toNat + j)).isSome)) ∧
    (bit v.toNat 31 = true → leads (.refusedClear org v) s fun t => onlyChanges [.boot, .refused] s t ∧
      t.refused = s.refused &&& 0x3FFFFFFF) ∧
    (bit v.toNat 31 = false → leads (.refusedClear org v) s fun t => onlyChanges [.boot, .refused] s t ∧
      t.refused = if bit v.toNat 30 then s.refused &&& 0xBFFFFFFF else s.refused))

/-- A halt of a logical tile that can be halted starts draining it and the tills with work on it; a resume ends a halt; a kickstand test
of a configured port whose entry is enabled is taken, and in the FCLK cycle after it latches a kickstand there. -/
def Obligations.DebugWritesAct : Prop :=
  (∀ (s : State) (org : RegOrigin) (v : W32), s.boot.phase = .run → ledgerRoom s = true →
    (bits v.toNat 31 30 = 1 → haltNow s = 0 → bits v.toNat 11 0 < logicalTiles s → tileDown s (bits v.toNat 11 0) = false →
      leads (.debugHalt org v) s fun t => onlyChanges [.boot, .tills, .tiles, .ledger] s t ∧
        t.tiles.haltState = 1 ∧ t.tiles.haltTile = BitVec.ofNat 12 (bits v.toNat 11 0) ∧ t.tiles.haltAt = s.now ∧
        t.tills = s.tills.map fun e => if placesOn s e.2 e.1 (bits v.toNat 11 0) then
          (e.1, { e.2 with drains := e.2.drains ++ [{ c := s.now, kind := .halt, by_ := none }] }) else e) ∧
    (bits v.toNat 31 30 = 2 → haltNow s = 2 → leads (.debugResume org v) s fun t => onlyChanges [.boot, .tiles, .ledger] s t ∧
      t.tiles = { s.tiles with haltState := 0, liftedAt := s.now }) ∧
    (bits v.toNat 31 30 = 2 → haltNow s ≠ 2 → leads (.debugResume org v) s fun t =>
      onlyChanges [.boot, .refused, .ledger] s t ∧ bit t.refused.toNat 31 = true) ∧
    ((portAt s (bits v.toNat 8 0)).conf = true → kickEn s (bits v.toNat 8 0) = true → s.boot.thermtrip = false →
      leads (.dbgKickTest org v) s fun t => onlyChanges [.boot, .ports, .ledger] s t ∧
        (portAt t (bits v.toNat 8 0)).kick.testAt = some s.now)) ∧
  (∀ (s : State) (p c : Nat), mapsCanonical s → (portAt s p).kick.testAt = some c → c < s.now → s.boot.thermtrip = false →
    (portAt (kickTest s p) p).kick.latch = true ∧ (portAt (kickTest s p) p).kick.testAt = none)

/-! ### The SPDM responder and DOE (15 R424, R425) -/

/-- While the steward does not run, or the boot is held, DOE reports Busy and nothing else happens. Negotiation: GET_VERSION,
GET_CAPABILITIES and NEGOTIATE_ALGORITHMS in their order open the connection, and one that comes before its turn gets an
ERROR. DOE discovery lists its two protocols (message codes presumed: log 30). On an open connection the device answers with
its chain unless it is unprovisioned, signs every challenge, and takes measurements fresh: each block as of this cycle, signed
on demand (message codes presumed: log 30). -/
def Obligations.SpdmAnswers : Prop :=
  (∀ (s : State) (c : Instr), (s.boot.steward = false ∨ s.boot.held = true) →
    (c ∈ [Instr.getVersion, .getCapabilities, .negotiateAlgorithms, .getDigests] ∨ (∃ a b n, c = .getCertificate a b n) ∨
      (∃ a n, c = .challenge a n) ∨ (∃ i g n, c = .getMeasurements i g n) ∨ ∃ i, c = .doeDiscovery i) →
    leads c s fun t => t = { s with spdm := { s.spdm with busy := true } }) ∧
  (∀ (s : State), s.boot.steward = true → s.boot.held = false →
    leads .getVersion s (fun t => onlyChanges [.spdm] s t ∧ t.spdm.version = true ∧ t.spdm.caps = false ∧ t.spdm.algs = false ∧
      t.spdm.busy = false ∧ t.spdm.code = 0x04 ∧ t.spdm.response = [0x12]) ∧
    leads .getCapabilities s (fun t => onlyChanges [.spdm] s t ∧ t.spdm.caps = (s.spdm.caps || s.spdm.version) ∧
      t.spdm.code = (if s.spdm.version then 0x61 else 0x7F)) ∧
    leads .negotiateAlgorithms s (fun t => onlyChanges [.spdm] s t ∧ t.spdm.algs = (s.spdm.algs || s.spdm.caps) ∧
      t.spdm.code = (if s.spdm.caps then 0x63 else 0x7F)) ∧
    ∀ i : Byte, leads (.doeDiscovery i) s fun t => onlyChanges [.spdm, .doe] s t ∧ t.spdm.busy = false ∧
      (i = 0 → t.doe = 0x01000001) ∧ (i = 1 → t.doe = 0x00010001) ∧ (1 < i.toNat → t.doe = 0x0000FFFF)) ∧
  (∀ (s : State), s.boot.steward = true → s.boot.held = false → s.spdm.algs = true →
    (∀ n, (s.boot.unprovisioned = true → ∀ c ∈ [Instr.getDigests, .getCertificate 0 0 n], leads c s fun t =>
        onlyChanges [.spdm] s t ∧ t.spdm.code = 0x7F ∧ t.spdm.response = [0x04]) ∧
      (s.boot.unprovisioned = false →
        leads .getDigests s (fun t => onlyChanges [.spdm] s t ∧ t.spdm.code = 0x01 ∧
          t.spdm.response = 0x01 :: sha512Bytes s.boot.certChain) ∧
        ∀ a, a < s.boot.certChain.length → leads (.getCertificate 0 a n) s fun t => onlyChanges [.spdm] s t ∧ t.spdm.code = 0x02 ∧
          t.spdm.response.drop 4 = (s.boot.certChain.drop a).take (min n 65520))) ∧
    (∀ nonce, leads (.challenge 0 nonce) s fun t => onlyChanges [.spdm] s t ∧ t.spdm.code = 0x03 ∧ t.spdm.signed.isSome = true ∧
      t.spdm.response.drop 96 = beBytes 32 nonce.toNat) ∧
    ∀ (i : Byte) (sign : Bool) (nonce : BitVec 256), 1 ≤ i.toNat → i.toNat ≤ 12 → leads (.getMeasurements i sign nonce) s fun t =>
      onlyChanges [.spdm] s t ∧ t.spdm.code = 0x60 ∧ t.spdm.signed.isSome = sign ∧
      (t.spdm.response.drop 2).take (measureBlock s i.toNat).length = measureBlock s i.toNat)

/-! ### The ledger (15 R426-R434) -/

/-- The chain engine takes the next entry of its queue, not sooner than 160 cycles after the last: it gets the next SEQ, is stored
and enters the chain. A SEAL entry is followed at once by sixteen SEAL_SIG entries, and the cycle after the last of them
completes the seal. A seal begins with a SEAL entry whose TARGET is its own SEQ + 1; an entry unsealed for 1 s sets SEAL_WAIT;
the mirror writes each entry in order of SEQ to its place. LEDGER_MIRROR enables or disables the mirror, which starts at the
oldest entry held or LOG2SIZE back. LEDGER_READ copies COUNT entries from FIRST on, 64 zero bytes beyond the head, and is
refused when no entry held matches FIRST. -/
def Obligations.LedgerEnginesProceed : Prop :=
  (∀ (s : State) (c : Change) (rest : List Change), mapsCanonical s → s.ledger.queue = c :: rest → s.ledger.recording = true →
    (∀ u, s.ledger.lastAt = some u → s.now < u + 160 → leads .ledgerChainEntry s fun t => t = s) ∧
    ((∀ u, s.ledger.lastAt = some u → u + 160 ≤ s.now) → leads .ledgerChainEntry s fun t =>
      onlyChanges [.ledger] s t ∧ t.ledger.seq = s.ledger.seq + 1 ∧ t.ledger.lastAt = some s.now ∧
      t.ledger.chain = sha512 (digestBytes s.ledger.chain ++ entryBytes s.ledger.seq c) ∧
      sget [] t.ledger.store (s.ledger.seq % 65536) = entryBytes s.ledger.seq c ∧
      (s.ledger.sealing = none → t.ledger.queue = rest) ∧
      ∀ sn tk x, s.ledger.sealing = some (sn, tk, x) →
        (s.ledger.seq = sn → ∃ sigs, t.ledger.queue = sigs ++ rest ∧ sigs.length = 16 ∧ ∀ e ∈ sigs, e.kind = 0x31) ∧
        (s.ledger.seq = sn + 16 → t.ledger.queue = rest ∧ t.ledger.sealSeq = s.ledger.sealSeq ∧ onlyChanges [.stats, .ledger] t (sealCycle t) ∧
          (sealCycle t).ledger.sealSeq = sn + 1 ∧ (sealCycle t).ledger.sealTick = tk ∧ (sealCycle t).ledger.sealing = none ∧
          (sealCycle t).ledger.unsealedAt = none ∧ bit (statAt (sealCycle t) srcSteward).status.toNat stwSealWait = false))) ∧
  ((∀ (s : State), s.boot.steward = true → s.ledger.sealing = none → s.ledger.recording = true → ledgerRoom s = true →
    s.ledger.unsealedAt.isSome = true → leads .seal s fun t => onlyChanges [.ledger] s t ∧
      (∃ x, t.ledger.sealing = some (s.ledger.seq + s.ledger.queue.length, s.tick.num, x)) ∧
      ∃ e, t.ledger.queue = s.ledger.queue ++ [e] ∧ e.kind = 0x30 ∧
        e.target = BitVec.ofNat 64 (s.ledger.seq + s.ledger.queue.length + 1)) ∧
  (∀ (s : State) (u : Nat), s.ledger.unsealedAt = some u → u + 1600000000 ≤ s.now → leads .sealWait s fun t =>
    onlyChanges [.host, .stats, .fresh] s t ∧ bit (statAt t srcSteward).status.toNat stwSealWait = true) ∧
  (∀ (s : State), s.ledger.mirrorEn = true → s.ledger.seq - 65536 ≤ s.ledger.mirrorNext → s.ledger.mirrorNext < s.ledger.seq →
    leads .ledgerMirrorWrite s fun t => onlyChanges [.host, .ledger, .fresh] s t ∧
      t.ledger.mirrorNext = s.ledger.mirrorNext + 1 ∧
      hostWriting t (s.ledger.mirrorBase + 64 * (s.ledger.mirrorNext % 2 ^ s.ledger.mirrorLog))
        (sget [] s.ledger.store (s.ledger.mirrorNext % 65536)) (.mirror s.ledger.mirrorNext))) ∧
  (∀ (s : State) (ring : BitVec 6) (d : Desc),
    (admitted s ring d 0x51 (cringOf d.d0) none → (bit d.d1.toNat 0 = true → 6 ≤ fld d.d1 20 16 ∧ fld d.d1 20 16 ≤ 16) →
      leads (.ledgerMirror ring d) s fun t => onlyChanges [.host, .ledger, .fresh] s t ∧
        answered s t ring d (cringOf d.d0) 0 stOk 0 0 ∧ t.ledger.mirrorEn = bit d.d1.toNat 0 ∧
        t.ledger.mirrorLog = fld d.d1 20 16 ∧ t.ledger.mirrorBase = d.d2.toNat ∧ t.ledger.mirrorHead = d.d3.toNat ∧
        t.ledger.mirrorNext = max (s.ledger.seq - 65536) (s.ledger.seq - 2 ^ fld d.d1 20 16)) ∧
    (admitted s ring d 0x50 (cringOf d.d0) none → 1 ≤ fld d.d1 32 16 → fld d.d1 32 16 ≤ 65536 →
      (∀ n, s.ledger.seq - 65536 ≤ n → n < s.ledger.seq → n % 65536 = fld d.d1 15 0 →
        leads (.ledgerRead ring d) s fun t => onlyChanges [.host, .fresh] s t ∧
          answered s t ring d (cringOf d.d0) 0 stOk 0 0 ∧
          hostWriting t d.d2.toNat ((List.range (fld d.d1 32 16)).map fun i =>
              if n + i < s.ledger.seq then padTo 64 (sget [] s.ledger.store ((n + i) % 65536)) else List.replicate 64 0).flatten
            (.copy ring.toNat (tagOf d.d0))) ∧
      ((∀ n, s.ledger.seq - 65536 ≤ n → n < s.ledger.seq → n % 65536 ≠ fld d.d1 15 0) →
        leads (.ledgerRead ring d) s fun t => onlyChanges [.host, .fresh] s t ∧
          answered s t ring d (cringOf d.d0) 0 stRefused 0 0)))

/-! ### Bring-up and resets (15 R408-R421) -/

/-- A cold reset leaves every part of the device as at reset, but for its fuses, pins, what the package latches and the queue; a
measured REFCLK out of range is one, and one in range is noted. Bring-up to FCLK: RST_N starts the PLLs; on lock the fuses and
straps are taken, TICK_LEN comes from STRAP_TICK, and a grade that does not match or the reserved STRAP_CXL holds the boot
with a BOOT_FAIL entry; SYNC_N begins cycle 0, UNALIGNED; the end of zeroing sets the TILES bits. -/
def Obligations.BringUpToFclk : Prop :=
  (∀ (s : State),
    (∀ cause : BitVec 2, leads (.coldReset cause) s fun t => onlyChanges [.boot] { State.reset with fresh := s.fresh, pending := s.pending } t ∧
      t.boot = { State.reset.boot with
        phase := if cause = 2 then .plls else .reset, cause := cause, fuses := s.boot.fuses, pins := s.boot.pins,
        thermtrip := s.boot.thermtrip && cause != 0, refclkOk := cause != 2 && s.boot.refclkOk,
        temps := if cause = 0 then State.reset.boot.temps else s.boot.temps }) ∧
    (∀ khz : Nat, (99400 ≤ khz ∧ khz ≤ 100050 → leads (.refclkMeasure khz) s fun t =>
        t = { s with boot := { s.boot with refclkOk := true } }) ∧
      ((khz < 99400 ∨ 100050 < khz) → s.boot.phase ≠ .reset → leads (.refclkMeasure khz) s fun t =>
        exec (.coldReset 2) s = .next t))) ∧
  (∀ (s : State),
    (s.boot.phase = .reset → leads .rstNRelease s fun t => t = { s with boot := { s.boot with phase := .plls, syncDriven := true } }) ∧
    (s.boot.phase = .plls → s.boot.refclkOk = true → ∀ (fuses : Fuses) (pins : BitVec 14), leads (.pllLock fuses pins) s fun t =>
      onlyChanges [.boot, .tick, .ledger] s t ∧ t.boot.phase = .sync ∧ t.boot.fuses = fuses ∧ t.boot.strap = pins &&& 0x3FF7 ∧
      t.boot.sampled = true ∧ t.boot.syncDriven = false ∧ t.tick = { s.tick with len := strapTickLen (pins &&& 0x3FF7) } ∧
      (if bits pins.toNat 13 12 = fuses.grade ∧ bits pins.toNat 13 12 ≠ 0 ∧ bits pins.toNat 11 10 ≠ 3 then
          t.boot.held = s.boot.held ∧ t.ledger = s.ledger
        else t.boot.held = true ∧ ∃ e, t.ledger.queue = enqueueChange s e ∧ e.kind = 0x0C)) ∧
    (s.boot.phase = .sync → leads .syncNSampleHigh s fun t => onlyChanges [.now, .boot, .host, .stats, .fresh] s t ∧
      t.boot = { s.boot with phase := .run } ∧ t.now = 0 ∧ bit (statAt t srcCoreW).status.toNat 7 = true) ∧
    (s.boot.phase = .run → strapFault s = none → leads .tilesReady s fun t => onlyChanges [.boot, .tiles] s t ∧
      t.tiles = { s.tiles with ready := true } ∧ t.boot = { s.boot with ready := t.boot.ready } ∧ bit t.boot.ready.toNat 20 = true ∧
      bit t.boot.ready.toNat 21 = (bit s.boot.ready.toNat 21 || hasEast s)))

/-- Firmware: an image of the slot next in order that passes R418 starts the steward and enters the ledger; the first check that
fails rejects it with its BOOT_FAIL reason, and the boot is held when no slot is left. The wiring plan: one that passes R421
is taken over with its endpoint and entered in the ledger, any other is a BOOT_FAIL; the core bits are set either way. With
STRAP_BOOT 0b11 an image may be written through JTAG. After the first seal of a boot the firmware's SVN is fused when it
commits it, and root key slot 0 revoked when it asks for that from slot 1, each with its ledger entry. A change of the strap
pins after sampling is recorded with the sampled value. -/
def Obligations.FirmwareAndFusesAreChecked : Prop :=
  (∀ (s : State) (dir : FlashDir) (l item chain : List Byte) (ok : Bool) (slot : Nat), awaitsFirmware s = true → dirOf dir = some l →
    (slotOrder s).find? (fun x => !s.boot.tried.contains x) = some slot → slot ≠ 2 → itemOf (some l) (slot + 1) 0 item = .good →
    (imageFault s item = none → leads (.firmwareCheck dir item chain ok) s fun t =>
      onlyChanges [.boot, .host, .stats, .ledger, .fresh] s t ∧ t.boot.steward = true ∧ bit t.boot.ready.toNat 31 = true ∧
      (∃ fw, t.boot.fw = some fw ∧ fw.slot = slot ∧ fw.digest = BitVec.ofNat 512 (beNat (imageDigest item))) ∧
      (∃ e ∈ t.ledger.queue, e.kind = 0x03 ∧ e.new = padTo 16 (imageDigest item)) ∧
      (t.boot.unprovisioned = false ↔ itemOf (some l) 3 0 chain = .good ∧ ok = true)) ∧
    (∀ r, imageFault s item = some r → leads (.firmwareCheck dir item chain ok) s fun t => onlyChanges [.boot, .ledger] s t ∧
      t.boot = { s.boot with tried := s.boot.tried ++ [slot],
                             held := (slotOrder s).all (s.boot.tried ++ [slot]).contains || s.boot.held } ∧
      ∃ e, t.ledger.queue = enqueueChange s e ∧ e.kind = 0x0C ∧ e.target = BitVec.ofNat 64 slot ∧ e.new = padTo 16 (leBytes 16 r))) ∧
  (∀ (s : State), s.boot.phase = .run →
    (s.boot.steward = true → s.boot.planDone = false → ∀ (dir : FlashDir) (plan eq : List Byte),
      leads (.wiringPlanCheck dir plan eq) s fun t =>
        onlyChanges [.boot, .tick, .host, .stats, .ports, .lanes, .stalled, .reorder, .tandem, .dropping, .intake, .tallies, .ledger, .fresh] s t ∧
        t.boot.planDone = true ∧
        bit t.boot.ready.toNat 22 = true ∧ (hasEast s = true → bit t.boot.ready.toNat 23 = true) ∧
        (if itemOf (dirOf dir) 5 0 plan = .good ∧ plan.length = 4160 ∧ planGood s plan = true then
            t.boot.planOk = true ∧ t.boot.capEndpoint = BitVec.ofNat 32 (2 ^ 31 + leAt plan 4 4) ∧
            t.boot.planDigest = BitVec.ofNat 512 (beNat (sha512Bytes plan)) ∧
            ∃ e ∈ t.ledger.queue, e.kind = 0x05 ∧ e.new = padTo 16 (sha512Bytes plan)
          else t.boot.planOk = s.boot.planOk ∧ t.boot.capEndpoint = s.boot.capEndpoint ∧
            ∃ e ∈ t.ledger.queue, e.kind = 0x0C ∧ e.target = 5)) ∧
    (s.boot.held = false → s.boot.fw = none → bits s.boot.strap.toNat 9 8 = 3 → ∀ image, leads (.jtagBootLoad image) s fun t =>
      t = { s with boot := { s.boot with jtag := some image } })) ∧
  ((∀ (s : State) (fw : Firmware), s.boot.fw = some fw → s.boot.steward = true → s.ledger.sealed = true → ledgerRoom s = true →
    leads .fuseWrite s fun t => onlyChanges [.boot, .ledger] s t ∧
      t.boot = { s.boot with fuses := { s.boot.fuses with
        svn := if fw.commitSvn then max s.boot.fuses.svn fw.svn else s.boot.fuses.svn,
        revoked0 := s.boot.fuses.revoked0 || (fw.keySlot == 1 && fw.revoke0) } } ∧
      t.ledger.queue.length = s.ledger.queue.length + b2n (fw.commitSvn && decide (s.boot.fuses.svn < fw.svn)) +
        b2n (fw.keySlot == 1 && fw.revoke0 && !s.boot.fuses.revoked0)) ∧
  (∀ (s : State) (pins : BitVec 14), pins ≠ s.boot.pins → leads (.strapChange pins) s fun t =>
    onlyChanges [.boot, .ledger] s t ∧ t.boot = { s.boot with pins := pins } ∧
    (s.boot.sampled = true → ∃ e, t.ledger.queue = enqueueChange s e ∧ e.kind = 0x01 ∧ e.origin = BitVec.ofNat 8 oStrap ∧
      e.new = padTo 16 (leBytes 16 pins.toNat))))

/-- A warm reset ends everything in the data path and stops the steward, keeps tables, programs and fabric memory, and is
recorded; its release has the core bits set 64 cycles later. A restart of the steward clears STEWARD, is recorded, sets RESET
and, by the watchdog, WATCHDOG, and ends a seal under way; the steward that returns sets STEWARD again. After a warm reset, an
image in steward memory that no longer matches measurement 2 puts the device into the held state instead. -/
def Obligations.WarmResetAndStewardRestart : Prop :=
  (∀ (s : State),
    (s.boot.phase = .run → s.boot.fw.isSome = true → s.boot.held = false → s.boot.warm = false → leads .warmReset s fun t =>
      onlyChanges [.boot, .tables, .host, .stats, .ports, .lanes, .frames, .stalled, .reorder, .doneMsgs, .pools, .tandem, .dropping,
        .intake, .parsing, .tills, .tallies, .progs, .ctxs, .tiles, .hbm, .faults, .bridge, .relays, .jobFree, .ledger, .spdm, .fresh] s t ∧
      t.tills = [] ∧ t.tallies = [] ∧ t.relays = [] ∧ t.frames = [] ∧ t.intake = [] ∧ t.ctxs = [] ∧ t.parsing = [] ∧
      t.bridge = {} ∧ t.hbm.writing = [] ∧ t.progs = s.progs.filter (fun e => e.2.loading.isNone) ∧ t.tables.active = s.tables.active ∧
      t.tables.armed = [] ∧ t.tables.staged = [] ∧ t.boot.warm = true ∧ t.boot.steward = false ∧
      bit t.boot.ready.toNat 31 = false ∧ (∀ n, ringEn (cmdRing t n).ctl = false) ∧ t.host.ready = [] ∧
      ∃ e ∈ t.ledger.queue, e.kind = 0x08 ∧ e.origin = BitVec.ofNat 8 oDevice) ∧
    (s.boot.warm = true → leads .warmResetRelease s fun t =>
      t = { s with boot := { s.boot with warm := false, coreAt := some (s.now + 64) } })) ∧
  (∀ (s : State), s.boot.phase = .run →
    (s.boot.steward = true → ∀ (exception : Bool) (core : BitVec 2), leads (.stewardRestart exception core) s fun t =>
      onlyChanges [.boot, .host, .stats, .ledger, .spdm, .fresh] s t ∧ t.boot = { s.boot with steward := false, ready := t.boot.ready } ∧
      bit t.boot.ready.toNat 31 = false ∧ t.ledger.sealing = none ∧ bit (statAt t srcSteward).status.toNat stwReset = true ∧
      (exception = false → bit (statAt t srcSteward).status.toNat stwWatchdog = true) ∧
      ∃ e ∈ t.ledger.queue, e.kind = 0x0A ∧ e.originId = core.setWidth 16) ∧
    (s.boot.steward = false → s.boot.fw.isSome = true → s.boot.held = false → s.boot.warm = false →
      (s.boot.quietNext = false ∨ s.faults.image = false → leads .stewardReturn s fun t =>
        onlyChanges [.boot, .ports, .ledger] s t ∧ t.boot.steward = true ∧ bit t.boot.ready.toNat 31 = true ∧ t.boot.lostSets = [] ∧
        t.ledger.queue.length = s.ledger.queue.length + s.boot.lostSets.length) ∧
      (s.boot.quietNext = true → s.faults.image = true → leads .stewardReturn s fun t =>
        onlyChanges [.boot, .ledger] s t ∧ t.boot.held = true ∧ t.boot.steward = false ∧ t.boot.allIdle = true ∧
        (∀ k, k < 16 ∨ k = 22 ∨ k = 23 ∨ k = 31 → bit t.boot.ready.toNat k = false) ∧ ∃ e ∈ t.ledger.queue, e.kind = 0x0C)))

/-- Temperatures read are kept. A die at 105 degrees or more begins to throttle, a stack at 85 or more is HOT, and a die at 125 or a
stack at 105 trips the device. -/
def Obligations.SensorsActOnTemperature : Prop :=
  ∀ (s : State) (west east : Int) (hs : List Int), s.boot.phase = .run → s.boot.temps.length = 6 → s.boot.throttle.length = 2 →
    s.hbm.stackOf.length = 4 → hs.length = 4 → leads (.sensorRead west east hs) s fun t =>
      onlyChanges [.boot, .host, .stats, .hbm, .ctxs, .ledger, .fresh] s t ∧ t.boot.temps.head? = some (some west) ∧
      (105 ≤ west → throttled t 0 = true ∧ (throttled s 0 = false → bit (statAt t srcCoreW).status.toNat 5 = true)) ∧
      (west < 100 → throttled t 0 = false) ∧
      (∀ k < 4, hasStack s k = true → t.boot.temps.getD (2 + k) none = some (hs.getD k 0) ∧
        (t.hbm.stackOf.getD k {}).hot = decide (85 ≤ hs.getD k 0)) ∧
      (t.boot.thermtrip = true ↔ s.boot.thermtrip = true ∨ 125 ≤ west ∨ (hasEast s = true ∧ 125 ≤ east) ∨
        ∃ k < 4, hasStack s k = true ∧ 105 ≤ hs.getD k 0)

/-! ### Commands that copy to host memory (06 R190; 10 R304, R312; 11 R321, R322; 12 R343) -/

/-- QUEUE_READ, COUNTER_READ and FREEWHEEL_READ write their records to the host address and complete OK; with CLEAR what they
copied begins again at zero. POOL_READ, TOSS_READ and RECEIPT_READ write their records to the host address and complete OK;
with CLEAR the peaks become what is in use, and the toss counters 0. A RECEIPT_READ of no till is refused. -/
def Obligations.CopiesAreWritten : Prop :=
  (∀ (s : State) (ring : BitVec 6) (d : Desc), mapsCanonical s →
    (admitted s ring d 0x48 (cringOf d.d0) none → leads (.queueRead ring d) s fun t =>
      onlyChanges [.host, .ports, .fresh] s t ∧ answered s t ring d (cringOf d.d0) 0 stOk 0 0 ∧
      hostWriting t d.d2.toNat (tickHeader s.tick.sampleTick ++ ((List.range 512).map fun p => queueRecords (portAt s p)).flatten)
        (.copy ring.toNat (tagOf d.d0)) ∧
      ∀ p, portAt t p = if clears d then clearSamples (portAt s p) else portAt s p) ∧
    (admitted s ring d 0x4A (cringOf d.d0) none → leads (.counterRead ring d) s fun t =>
      onlyChanges [.host, .ports, .blockCounts, .tandem, .fresh] s t ∧ answered s t ring d (cringOf d.d0) 0 stOk 0 0 ∧
      hostWriting t d.d2.toNat (counterCopy s) (.copy ring.toNat (tagOf d.d0)) ∧
      (clears d = false → t.ports = s.ports ∧ t.blockCounts = s.blockCounts ∧ t.tandem = s.tandem) ∧
      (clears d = true → (∀ p, portAt t p = { portAt s p with counters := [] }) ∧ t.blockCounts = [] ∧
        t.tandem = { s.tandem with counts := [] })) ∧
    (admitted s ring d 0x4B (cringOf d.d0) none → fld d.d1 2 1 ≠ 0 → leads (.freewheelRead ring d) s fun t =>
      onlyChanges ([.host, .ports, .jobFree, .fresh] ++ if bit d.d1.toNat 2 then [.tills, .ctxs, .relays] else []) s t ∧
      answered s t ring d (cringOf d.d0) 0 stOk 0 0 ∧
      hostWriting t d.d2.toNat (leBytes 6 s.tick.num.toNat ++ [BitVec.ofNat 8 (fld d.d1 2 1)] ++ List.replicate 9 0 ++
        (if bit d.d1.toNat 1 then ((List.range 512).map fun p => portFree (portAt s p)).flatten else []) ++
        (if bit d.d1.toNat 2 then ((List.range 256).map (jobFreeBytes (settleWaits s))).flatten else [])) (.copy ring.toNat (tagOf d.d0)) ∧
      t.jobFree = (if bit d.d1.toNat 2 then (if clears d then [] else (settleWaits s).jobFree) else s.jobFree) ∧
      ∀ p, (portAt t p).freewheel = if clears d && bit d.d1.toNat 1 then List.replicate 7 0 else (portAt s p).freewheel) ∧
    (∀ n x c, s.tills = [(n, x)] → s.ctxs = [] → s.relays = [] → x.waitAt = some c →
      sget 0 (settleWaits s).jobFree (tJob x.words * 8 + 2) = satAdd Config.sat48 (sget 0 s.jobFree (tJob x.words * 8 + 2)) (s.now - c) ∧
      tillAt (settleWaits s) n = some { x with waitAt := some s.now })) ∧
  (∀ (s : State) (ring : BitVec 6) (d : Desc),
    (admitted s ring d 0x49 (cringOf d.d0) none → leads (.poolRead ring d) s fun t =>
      onlyChanges [.host, .pools, .fresh] s t ∧ answered s t ring d (cringOf d.d0) 0 stOk 0 0 ∧
      (∃ data, hostWriting t d.d2.toNat data (.copy ring.toNat (tagOf d.d0)) ∧
        data.take 48 = poolHeader s 0 ++ poolHeader s 1 ++ poolHeader s 2 ∧ data.length = 48 + 8 * 6144 ∧
        ∀ q < 6144, leAt data (48 + 8 * q) 3 = sget 0 s.pools.use q % 2 ^ 24 ∧
          leAt data (48 + 8 * q + 3) 3 = sget 0 s.pools.peak q % 2 ^ 24) ∧
      t.pools = if clears d then { s.pools with peak := s.pools.use } else s.pools) ∧
    (admitted s ring d 0x4D (cringOf d.d0) none → leads (.tossRead ring d) s fun t =>
      onlyChanges [.host, .toss, .fresh] s t ∧ answered s t ring d (cringOf d.d0) 0 stOk 0 0 ∧
      hostWriting t d.d2.toNat (tickHeader s.tick.num ++ ((List.range 1024).map fun k => leBytes 8 (sget 0 s.toss k)).flatten)
        (.copy ring.toNat (tagOf d.d0)) ∧ t.toss = if clears d then [] else s.toss) ∧
    (∀ v, tillAt s (objOf d) = some v → admitted s ring d 0x4C (cringOf d.d0) (some (tillJob v)) →
      leads (.receiptRead ring d) s fun t => onlyChanges [.host, .fresh] s t ∧
        answered s t ring d (cringOf d.d0) (objOf d) stOk (receiptChunks v).length 0 ∧
        hostWriting t d.d2.toNat (leBytes 2 (objOf d) ++ [BitVec.ofNat 8 (tillJob v), 0] ++ leBytes 4 (receiptChunks v).length ++
          List.replicate 8 0 ++ ((receiptChunks v).map receiptRecord).flatten) (.copy ring.toNat (tagOf d.d0))) ∧
    (tillAt s (objOf d) = none → admitted s ring d 0x4C (cringOf d.d0) none → leads (.receiptRead ring d) s fun t =>
      onlyChanges [.host, .fresh] s t ∧ answered s t ring d (cringOf d.d0) (objOf d) stRefused 0 0))

/-! ### Commit sets (07 R218-R222, 09 R286, R287) -/

/-- STAGE keeps an image's entries for their set, counting those refused and leaving them out, and is recorded with the digest of
the active entries; COUNT 0 discards what a table has staged. A STAGE of a table that does not exist, or that this part has
not, or of entries for ports, lanes or stacks it has not, is refused. ARM adds a set to those armed, to be completed at its
end, or abandons it at once while the X7 is unaligned or the tick has come too near. CANCEL abandons an armed set before its
limit, completing both commands. -/
def Obligations.CommitSetsAreStagedAndArmed : Prop :=
  (∀ (s : State) (ring : BitVec 6) (d : Desc) (image : List W64) (w count cap : Nat), s.boot.steward = true →
    admitted s ring d 0x38 (cringOf d.d0) none → tableInfo (fld d.d1 22 16) = some (w, count, cap) →
    fld d.d1 42 23 + fld d.d1 62 43 ≤ count → (hasTandem s = true ∨ (fld d.d1 22 16 ≠ 0x30 ∧ fld d.d1 22 16 ≠ 0x31)) →
    namesAbsent s (fld d.d1 22 16) (fld d.d1 42 23) (fld d.d1 62 43) = false →
    (∀ x, stagedOf s (fld d.d1 22 16) = some x → x.set = BitVec.ofNat 16 (fld d.d1 15 0)) →
    leads (.stage ring d image) s fun t => onlyChanges [.host, .tables, .ledger, .fresh] s t ∧
      t.tables = { s.tables with staged := t.tables.staged } ∧
      (∃ e, t.ledger.queue = enqueueChange s e ∧ e.kind = 0x10 ∧
        e.old = padTo 16 (activeDigest s (fld d.d1 22 16) (fld d.d1 42 23) (fld d.d1 62 43))) ∧
      (fld d.d1 62 43 = 0 → stagedOf t (fld d.d1 22 16) = none ∧ answered s t ring d (cringOf d.d0) 0 stOk 0 noIndex) ∧
      (fld d.d1 62 43 ≠ 0 → ∃ x, stagedOf t (fld d.d1 22 16) = some x ∧ x.set = BitVec.ofNat 16 (fld d.d1 15 0) ∧
        (∀ k < fld d.d1 62 43, entryRefused s (fld d.d1 22 16) (fld d.d1 42 23 + k) (imageEntry image w k) = false →
          ofind x.entries (fld d.d1 42 23 + k) = some (imageEntry image w k)) ∧
        ∃ bad : List Nat, (∀ k < fld d.d1 62 43, fld d.d1 42 23 + k ∈ bad ↔
            entryRefused s (fld d.d1 22 16) (fld d.d1 42 23 + k) (imageEntry image w k) = true) ∧
          answered s t ring d (cringOf d.d0) 0 stOk bad.length (bad.headD noIndex))) ∧
  (∀ (s : State) (ring : BitVec 6) (d : Desc),
    (∀ image, s.boot.steward = true → admitted s ring d 0x38 (cringOf d.d0) none →
      (tableInfo (fld d.d1 22 16) = none ∨ namesAbsent s (fld d.d1 22 16) (fld d.d1 42 23) (fld d.d1 62 43) = true ∨
        (hasTandem s = false ∧ (fld d.d1 22 16 = 0x30 ∨ fld d.d1 22 16 = 0x31))) →
      leads (.stage ring d image) s fun t => onlyChanges [.host, .fresh] s t ∧
        answered s t ring d (cringOf d.d0) 0 stRefused 0 0) ∧
    (admitted s ring d 0x39 (cringOf d.d0) none → (∀ x ∈ s.tables.armed, x.set ≠ BitVec.ofNat 16 (fld d.d1 15 0)) →
      s.tables.armed.length < Config.maxArmed →
      (s.tick.state = 0 → leads (.arm ring d) s fun t => onlyChanges [.host, .stats, .tables, .ledger, .fresh] s t ∧
        t.tables.armed = s.tables.armed ∧ answered s t ring d (cringOf d.d0) 0 stUnaligned 0 (fld d.d2 47 0)) ∧
      (s.tick.state ≠ 0 → (ticksOn s = true → laterTick s (BitVec.ofNat 48 (fld d.d2 47 0)) = true ∧
          s.now + Config.armLimit ≤ startOf s (BitVec.ofNat 48 (fld d.d2 47 0))) →
        (∀ x : Armed, x.set = BitVec.ofNat 16 (fld d.d1 15 0) → x.mask = BitVec.ofNat 8 (fld d.d1 23 16) →
          x.tables = (s.tables.staged.filter fun y => y.set == BitVec.ofNat 16 (fld d.d1 15 0)).map (·.tid) →
          drainBad s x = false) →
        leads (.arm ring d) s fun t => onlyChanges [.host, .tables, .ledger, .fresh] s t ∧
          (∃ x, t.tables = { s.tables with armed := s.tables.armed ++ [x] } ∧ x.set = BitVec.ofNat 16 (fld d.d1 15 0) ∧
            x.tick = BitVec.ofNat 48 (fld d.d2 47 0) ∧ x.mask = BitVec.ofNat 8 (fld d.d1 23 16) ∧
            x.routeGen = BitVec.ofNat 16 (fld d.d1 39 24) ∧ x.rmapGen = BitVec.ofNat 16 (fld d.d1 55 40) ∧
            x.ring = ring.toNat ∧ x.d0 = d.d0 ∧ x.acceptAt = s.now) ∧
          ∃ e, t.ledger.queue = enqueueChange s e ∧ e.kind = 0x11)) ∧
    (∀ x, admitted s ring d 0x3A (cringOf d.d0) none →
      s.tables.armed.find? (fun y => y.set == BitVec.ofNat 16 (fld d.d1 15 0)) = some x → ticksOn s = true →
      laterTick s x.tick = true → s.now + Config.armLimit < startOf s x.tick →
      leads (.cancel ring d) s fun t => onlyChanges [.host, .stats, .tables, .ledger, .fresh] s t ∧
        t.tables.armed = s.tables.armed.filter (fun y => y.set != x.set) ∧ t.tables.staged = s.tables.staged ∧
        answered s t ring d (cringOf d.d0) 0 stOk 0 0 ∧
        ∃ c ∈ t.host.ready, c.ring = some x.ring ∧ c.cring = cringOf x.d0 ∧
          c.entries = [cmdEntry (armAccept x) stCancel 0 x.tick.toNat]))

/-- At its commit cycle a set that breaks no rule switches every staged entry of its tables at once and leaves the generations of
ARM where it installs them; one that breaks a rule is abandoned and changes no table. Either way its ARM completes. The drain
of a set whose commit is due next begins; an entry beyond the shadow is copied to its table, one a cycle; a queue sample is
taken at its offset, once a tick. -/
def Obligations.CommitSwitchesTables : Prop :=
  (∀ (s : State) (a : Armed), mapsCanonical s → s.tables.armed = [a] → commitDue s a = true →
    (stageBad s a = true → leads .commit s fun t => onlyChanges [.host, .stats, .ports, .tables, .ledger, .fresh] s t ∧
      t.tables.armed = [] ∧ t.tables.active = s.tables.active ∧ t.tables.routeGen = s.tables.routeGen ∧
      ∃ c ∈ t.host.ready, c.ring = some a.ring ∧ c.entries = [cmdEntry (armAccept a) stStage 0 a.tick.toNat]) ∧
    (stageBad s a = false → (∀ c < 8, bit a.mask.toNat c = true → classBusy s c = false) →
      ((stagedFor s a).map (·.tid)).Nodup → (∀ x ∈ stagedFor s a, rising x.entries = true ∧ (∀ e ∈ x.entries, e.1 < 2 ^ 20 ∧ bothFail s x.tid e.1 = false) ∧
        (changes s x).length ≤ shadowCap x.tid) →
      leads .commit s fun t => onlyChanges [.tick, .host, .stats, .ports, .tables, .shapers, .meters, .tandem, .faults, .ledger, .fresh] s t ∧
        t.tables.armed = [] ∧ (∀ x ∈ stagedFor s a, x.tid ≠ 1 → ∀ e ∈ x.entries, activeEntry t x.tid e.1 = e.2) ∧
        (∀ x ∈ stagedFor s a, x.tid = 1 → ∀ w, x.entries = [(0, [w])] → t.tick.len = w.setWidth 32) ∧
        (∀ x ∈ stagedFor s a, stagedOf t x.tid = none) ∧
        t.tables.routeGen = (if installsRoute (stagedFor s a) then a.routeGen else s.tables.routeGen) ∧
        t.tables.rmapGen = (if installsRmap (stagedFor s a) then a.rmapGen else s.tables.rmapGen) ∧
        (∃ e ∈ t.ledger.queue, e.kind = 0x12 ∧ e.target = BitVec.ofNat 64 a.set.toNat) ∧
        ∃ c ∈ t.host.ready, c.ring = some a.ring ∧ c.entries = [cmdEntry (armAccept a) stCommitted 0 a.tick.toNat])) ∧
  ((∀ (s : State) (a : Armed), s.tables.armed = [a] → drainDue s a = true → leads .drainStart s fun t =>
    onlyChanges [.tables] s t ∧ t.tables = { s.tables with armed := [{ a with draining := true }] } ∧
    ∀ c < 8, bit a.mask.toNat c = true → drained t c = true) ∧
  (∀ (s : State) (k : Nat) (e : List W64) (rest : List (Nat × List W64)), mapsCanonical s → s.tables.overflow = (k, e) :: rest →
    s.tables.overflowAt ≠ some s.now → k / 2 ^ 20 ≠ 1 → bothFail s (k / 2 ^ 20) (k % 2 ^ 20) = false →
    leads .overflowCopy s fun t => onlyChanges [.tables, .faults] s t ∧
      activeEntry t (k / 2 ^ 20) (k % 2 ^ 20) = e ∧ t.tables.overflow = rest ∧ t.tables.overflowAt = some s.now ∧
      (rest = [] → t.tables.overflowMask = 0)) ∧
  (∀ s : State, mapsCanonical s → sampleDue s = true → leads .queueSample s fun t => onlyChanges [.ports, .tick] s t ∧
    t.tick = { s.tick with sampledAt := some s.now, sampleTick := s.tick.num } ∧
    ∀ p c, c < 8 → ((portAt t p).q.samples.getD c (0, 0, 0, 0)).1 = min Config.sat32 (depthOf (portAt s p).q c)))

/-! ### The tick and the kickstand (07 R196, R202, R210; 12 R344-R348) -/

/-- A tick begins in its first cycle: its number rises by 1, it begins TICK_LEN after the last, every tick-class till that waited
for it opens, and no watch has been met. An unaligned X7 adopts the tick of the first tick port that shows an aligned
neighbour, is ALIGNED from then on and records it; an aligned or root X7 sends an offer with its tick, and not again for
65,536 cycles. -/
def Obligations.TicksBeginAndAreAdopted : Prop :=
  (∀ s : State, mapsCanonical s → tickDue s = true → leads .tickBegin s fun t =>
    t.tick = { s.tick with num := s.tick.num + 1, start := s.tick.start + tickLen s, sampleNow := s.tick.sample } ∧
    (∀ n v, tillAt t n = some v → v.st ≠ .opening) ∧ (∀ p, (portAt t p).met = [false, false, false, false]) ∧
    onlyChanges [.tick, .host, .ports, .tandem, .tills, .tallies, .jobFree] s t) ∧
  ((∀ (s : State) (port : BitVec 9) (f : Frame) (mark src : Nat), (headerOf f.hdr).type = 0xB → mgmtSubtype (headerOf f.hdr) = 1 →
    frameGood f = true → carrying (portAt s port.toNat).link.st = true → s.tick.state = 0 →
    offerTaken s port.toNat = some src → leAt f.payload 13 1 % 4 ≠ 0 →
    leads (.tickOfferReceive port f mark) s fun t => onlyChanges [.tick, .host, .ports, .intake, .tallies, .ledger] s t ∧
      t.tick.state = 1 ∧ t.tick.source = BitVec.ofNat 3 src ∧
      t.tick.sourcePort = port ∧ t.tick.len = s.tick.len ∧
      ∃ e, e ∈ t.ledger.queue ∧ e.kind = 0x0B ∧ e.origin = BitVec.ofNat 8 oPeer ∧ e.new = padTo 16 (leBytes 16 t.tick.num.toNat)) ∧
  (∀ (s : State) (port : BitVec 9), mapsCanonical s → s.tick.state ≠ 0 → (portAt s port.toNat).conf = true →
    carrying (portAt s port.toNat).link.st = true → (portAt s port.toNat).lastOffer = none →
    leads (.tickOfferSend port) s fun t => onlyChanges (sendAreas s) s t ∧ t.intake = s.intake ∧
      (portAt t port.toNat).lastOffer = some s.now ∧
      leads (.tickOfferSend port) t fun u => u = t))

/-- A watch not met by its deadline is missed: WATCH_MISS is set and counted, and an entry with KICK latches a kickstand on its
port. A latched port with REPEAT detects again at REP_OFS of a later tick. A kickstand whose reaction time is over takes the
lane of a port that may send it, at once or as soon as what is cut allows, with the payload of its entry; none other is sent
in the same tick. -/
def Obligations.KickstandsFireAndLeave : Prop :=
  (∀ (s : State) (port : BitVec 9), mapsCanonical s → s.boot.thermtrip = false → (portAt s port.toNat).conf = true → 0 < tickLen s →
    s.tick.running = true →
    (∀ w : BitVec 2, dlEn (watchEntry s port.toNat w.toNat) = true → dlCycle (watchEntry s port.toNat w.toNat) ≤ curOfs s →
      (portAt s port.toNat).met.getD w.toNat false = false → (portAt s port.toNat).fresh.getD w.toNat false = false →
      (portAt s port.toNat).missed = [false, false, false, false] →
      leads (.watchDeadline port w) s fun t => onlyChanges [.host, .stats, .ports, .fresh] s t ∧
        (portAt t port.toNat).missed.getD w.toNat false = true ∧ bit (statAt t (srcPg (pgOf port.toNat))).status.toNat 12 = true ∧
        (dlKick (watchEntry s port.toNat w.toNat) = true → (portAt t port.toNat).kick.latch = true) ∧
        (dlKick (watchEntry s port.toNat w.toNat) = false → (portAt t port.toNat).kick = (portAt s port.toNat).kick)) ∧
    ((portAt s port.toNat).kick.latch = true → kickEn s port.toNat = true → kickRepeat s port.toNat = true →
      curOfs s = kickRepOfs s port.toNat → (portAt s port.toNat).kick.latchTick ≠ s.tick.num →
      (portAt s port.toNat).kick.sentTick ≠ some s.tick.num → (portAt s port.toNat).kick.repeatTick ≠ some s.tick.num →
      leads (.kickstandRepeat port) s fun t => onlyChanges [.host, .stats, .ports, .fresh] s t ∧
        (portAt t port.toNat).kick.repeatTick = some s.tick.num ∧ (portAt t port.toNat).kick.latch = true ∧
        (portAt t port.toNat).kick.latchAt = s.now)) ∧
  (∀ (s : State) (port : BitVec 9) (k : KickPend), mapsCanonical s → kickDue s port.toNat = some k → kickMayGo s port.toNat k = true →
    (portAt s port.toNat).kick.sentTick ≠ some s.tick.num → kickOnLane (portAt s port.toNat).q = false →
    leads (.kickstandSend port) s fun t => onlyChanges [.ports, .tandem, .dropping] s t ∧
      (portAt t port.toNat).kick.sentTick = some s.tick.num ∧
      (portAt t port.toNat).kick.seq = (portAt s port.toNat).kick.seq + 1 ∧
      (∀ x ∈ (portAt t port.toNat).kick.pending, x.cycle ≠ k.cycle) ∧
      (∃ f n, (portAt t port.toNat).q.lane = .kick f (kickStart s port.toNat) n ∧ (headerOf f.hdr).type = 0xA ∧
        (headerOf f.hdr).cls = 7 ∧ (headerOf f.hdr).dest = BitVec.ofNat 20 (wf k.words 0 39 20) ∧
        f.payload = padTo (32 * wf k.words 0 47 44) (bytesOf (k.words.drop 2)) ∧
        (headerOf f.hdr).aux = BitVec.ofNat 32 (k.cause % 16 * 2 ^ 28 + k.ofs % 2 ^ 28)) ∧
      leads (.kickstandSend port) t fun u => u = t)

/-! ### Tandem (11 R325-R329) -/

/-- A FRAME record from the twin, its header past the receive stages, waits for its pair; one whose pair differs is a MISMATCH,
counted on its slot and reported. A STATE record is compared with the own one. An own record not matched within its window is
a mismatch; when the tandem link is lost the twin is, with a kickstand on every compared port; a MGMT frame of another subtype
is taken in and does nothing more. -/
def Obligations.TwinsAreCompared : Prop :=
  (∀ (s : State) (f : Frame) (i : Intake), mapsCanonical s → (headerOf f.hdr).type = 0xB → mgmtSubtype (headerOf f.hdr) = 0x10 → frameGood f = true →
    s.intake.find? (fun x => decide (x.frame = f)) = some i → i.port = tandemPort s → i.arrival + receiveStages ≤ s.now → comparing s = true →
    leAt (slice f.payload 16 16) 0 1 = 0 → let rec_ := recordOf (i.arrival + receiveStages) (slice f.payload 0 16)
    (leAt (slice f.payload 0 16) 0 1 = 1 →
      ((∀ r ∈ s.tandem.own, ∀ x ∈ s.tandem.twin ++ [rec_], sameKey r x = false) →
        leads (.tandemRecordReceive f) s fun t => onlyChanges [.tandem, .intake] s t ∧ t.intake = s.intake.erase i ∧
          t.tandem = { s.tandem with twin := s.tandem.twin ++ [rec_] }) ∧
      (∀ r, s.tandem.own = [r] → r.at_ ≤ s.now → s.tandem.twin = [] → sameKey r rec_ = true → rec_.crc ≠ r.crc →
        leads (.tandemRecordReceive f) s fun t => onlyChanges [.host, .stats, .ports, .tandem, .intake, .fresh] s t ∧
          t.tandem.own = [] ∧ t.tandem.twin = [] ∧
          sget 0 t.tandem.counts r.slot = satAdd Config.sat32 (sget 0 s.tandem.counts r.slot) 1 ∧
          bit (statAt t srcCoreW).status.toNat 8 = true)) ∧
    (leAt (slice f.payload 0 16) 0 1 = 2 → leads (.tandemRecordReceive f) s fun t =>
      onlyChanges [.host, .stats, .ports, .tandem, .intake, .fresh] s t ∧ t.tandem.stateAt = some s.now ∧
      t.tandem.mismatch = (slice f.payload 0 16 != s.tandem.ownState))) ∧
  (∀ (s : State), mapsCanonical s →
    (comparing s = true → s.boot.thermtrip = false →
      (∀ i r, s.tandem.own[i]? = some r → r.at_ + tandemWindow s ≤ s.now → leads (.tandemWindowExpiry true i) s fun t =>
        onlyChanges [.host, .stats, .ports, .tandem, .fresh] s t ∧ t.tandem.own = s.tandem.own.erase r ∧
        sget 0 t.tandem.counts r.slot = satAdd Config.sat32 (sget 0 s.tandem.counts r.slot) 1 ∧
        bit (statAt t srcCoreW).status.toNat 8 = true ∧ ∀ p, slotPort s r.slot = some p → (portAt t p).kick.latch = true) ∧
      (∀ i r, s.tandem.twin[i]? = some r → r.at_ + tandemWindow s ≤ s.now → leads (.tandemWindowExpiry false i) s fun t =>
        onlyChanges [.host, .stats, .ports, .tandem, .fresh] s t ∧ t.tandem.twin = s.tandem.twin.erase r ∧
        bit (statAt t srcCoreW).status.toNat 8 = true) ∧
      (twinGone s = true → leads .twinLost s fun t => onlyChanges [.host, .stats, .ports, .tandem, .fresh] s t ∧
        t.tandem = { s.tandem with lost := true, restore := false, own := [], twin := [] } ∧
        bit (statAt t srcCoreW).status.toNat 9 = true ∧ ∀ k < 64, ∀ p, slotPort s k = some p → (portAt t p).kick.latch = true)) ∧
    (∀ (port : BitVec 9) (f : Frame), (headerOf f.hdr).type = 0xB → (portAt s port.toNat).conf = true →
      mgmtSubtype (headerOf f.hdr) ≠ 1 → mgmtSubtype (headerOf f.hdr) ≠ 0x10 → leads (.mgmtReceive port f) s fun t =>
        t = { s with intake := t.intake } ∧ ∀ i, s.intake.find? (fun x => decide (x.frame = f)) = some i → t.intake = s.intake.erase i))

/-! ### Frames at the input and output (09 R253-R281, 10 R288-R298) -/

/-- Header and bits are the same thing (09 Table 9.1). -/
def Obligations.HeaderBitsRoundTrip : Prop :=
  (∀ h : Header, headerOf (headerBits h) = h) ∧ ∀ b : HdrBits, headerBits (headerOf b) = b

/-- A frame that fails HCRC or is malformed is discarded as it arrives, and framing is lost. Any other is looked up, at once, or in the cycle
of its lookup where a commit may precede that: one that fails a check of Table 9.6 is discarded, counted under its reason, and its credit
returned; one addressed to the X7 that checks is kept for its block; a unicast frame for elsewhere joins the queue of the port its route
gives, with its cells taken. -/
def Obligations.FramesAreCheckedAndRouted : Prop :=
  ∀ (s : State) (port : BitVec 9) (f : Frame), mapsCanonical s → (portAt s port.toNat).conf = true →
    (portAt s port.toNat).link.framingLost = none →
    let crcBad := (headerOf f.hdr).hcrc ≠ hcrcOf (headerBits { headerOf f.hdr with hcrc := 0 })
    let looked := fun (P : State → Prop) => (lookupLater s = false → leads (.frameReceive port f) s P) ∧
      ((port.toNat, f, s.now) ∉ s.parsing → P (lookUp s (port.toNat, f, s.now)))
    (crcBad ∨ malformed (headerOf f.hdr) = true → leads (.frameReceive port f) s fun t => onlyChanges [.host, .stats, .ports, .fresh] s t ∧
      (portAt t port.toNat).link.framingLost = some (s.now, s.now + cyclesHere s port.toNat f) ∧
      let c := if crcBad then rHcrc else rMalformed
      sget 0 (portAt t port.toNat).counters (c - 1) = satAdd Config.sat32 (sget 0 (portAt s port.toNat).counters (c - 1)) 1) ∧
    (¬crcBad → malformed (headerOf f.hdr) = false →
    (lookupLater s = true → leads (.frameReceive port f) s fun t => t = { s with parsing := s.parsing ++ [(port.toNat, f, s.now)] }) ∧
    (∀ c, inputCheck s port.toNat (headerOf f.hdr) = .error c → looked fun t =>
      onlyChanges (lookAreas s ++ [.host, .stats, .ports, .fresh]) s t ∧
      sget 0 (portAt t port.toNat).counters (c - 1) = satAdd Config.sat32 (sget 0 (portAt s port.toNat).counters (c - 1)) 1 ∧
      (portAt t port.toNat).q.queue = (portAt s port.toNat).q.queue ∧
      (portAt t port.toNat).q.owed = addAt (portAt s port.toNat).q.owed (headerOf f.hdr).cls.toNat (ceilDiv (40 + f.payload.length) 256)) ∧
    (∀ h, inputCheck s port.toNat (headerOf f.hdr) = .ok h → trailerOf f = .good → (∀ m < 16, bit (ew s 0x17 m 0).toNat 63 = false) →
      (isEdge s port.toNat = true → boundMeter s h.job.toNat h.cls.toNat = none) →
      (consumes s h = true → looked fun t => onlyChanges (lookAreas s ++ [.ports, .intake]) s t ∧
        t.intake = (if h.type = 0xC ∧ h.mc = 0 then s.intake else s.intake ++ [{ frame := f, port := port.toNat, arrival := s.now }]) ∧
        (portAt t port.toNat).q.owed = addAt (portAt s port.toNat).q.owed h.cls.toNat (cellsOf f)) ∧
      (consumes s h = false → h.mc = 0 → h.type ≠ 5 →
        let g := (pathed s port.toNat h).1
        (routed s g port.toNat = none → looked fun t =>
          onlyChanges (lookAreas s ++ [.host, .stats, .ports, .fresh]) s t ∧
          sget 0 (portAt t port.toNat).counters (rNoRoute - 1) =
            satAdd Config.sat32 (sget 0 (portAt s port.toNat).counters (rNoRoute - 1)) 1) ∧
        ∀ o, routed s g port.toNat = some o → (h.type ≠ 0 ∨ clsReorder s h.cls.toNat = 0 ∨ routeKind s h.dest.toNat ≠ 1) →
          kickHolds s o h = false → tandemEn s = false → h.cls ≠ 7 →
          cellsAllowed s (pgOf port.toNat) (quotaIdx 0 h.job.toNat h.cls.toNat) (cellsOf f) = true →
          looked fun t =>
            onlyChanges (lookAreas s ++ poolAreas s ++ [.ports, .frames, .pools, .fresh]) s t ∧
            ∃ e b, (portAt t o).q.queue = (portAt s o).q.queue ++ [e] ∧ e.cls = h.cls.toNat ∧ e.src = pgOf port.toNat ∧
              e.arrival = s.now ∧ e.frame.payload = f.payload ∧ ofind t.frames e.fid = some b ∧ b.cells = cellsOf f ∧
              b.copies = 1 ∧ b.credit = some (port.toNat, cellsOf f))))

/-- A frame that may start takes its idle lane, TC7 before a credit cycle that is due, before TC6, before the others: it leaves the queue and
spends its credit. Of TC5 to
TC0 the class whose turn it is goes when its deficit allows, and the highest when none has a quantum. -/
def Obligations.FramesStartInOrder : Prop :=
  ∀ (s : State) (port : BitVec 9) (e : Entry), mapsCanonical s → linkOpen s port.toNat = true → (portAt s port.toNat).q.lane = .idle →
    (∀ x ∈ (portAt s port.toNat).q.queue, refusedAt s port.toNat x = 0) → (portAt s port.toNat).kick.pending = [] →
    alignedNow s port.toNat = none →
    (candidate s port.toNat 7 = none → creditDue s port.toNat = true → leads (.frameStart port) s fun t => t = s) ∧
    ((candidate s port.toNat 7 = some e ∨ (candidate s port.toNat 7 = none ∧ creditDue s port.toNat = false ∧ (candidate s port.toNat 6 = some e ∨
      (candidate s port.toNat 6 = none ∧
        ((quantum s port.toNat (portAt s port.toNat).q.turn ≠ 0 ∧ (portAt s port.toNat).q.turn < 6 ∧
            candidate s port.toNat (portAt s port.toNat).q.turn = some e ∧
            frameBytes e.frame ≤ nth (portAt s port.toNat).q.deficit (portAt s port.toNat).q.turn +
              (if (portAt s port.toNat).q.turnOpen then 0 else quantum s port.toNat (portAt s port.toNat).q.turn * 256)) ∨
          ((∀ c < 6, quantum s port.toNat c = 0) ∧ [5, 4, 3, 2, 1, 0].findSome? (candidate s port.toNat) = some e)))))) →
    leads (.frameStart port) s fun t =>
      onlyChanges [.ports, .frames, .reorder, .doneMsgs, .shapers, .pools, .tandem, .faults, .fresh] s t ∧
      (∃ x n, (portAt t port.toNat).q.lane = .frame x s.now n ∧ x.fid = e.fid ∧ x.cls = e.cls) ∧
      ((∀ c ∈ s.faults.cells, c.fid ≠ e.fid) → (∀ m < 16, bit (ew s 0x17 m 0).toNat 63 = false) →
        (portAt t port.toNat).q.queue = (portAt s port.toNat).q.queue.filter fun x => x.fid != e.fid) ∧
      (portAt t port.toNat).q.credit = (portAt s port.toNat).q.credit.set e.cls
        (nth (portAt s port.toNat).q.credit e.cls - if spendsNone s port.toNat e then 0 else cellsOf e.frame))

/-- A frame whose source has stalled for 4,096 cycles is cut off its lane, with a stomped trailer in its cut cycle when something
of it was sent; a credit cycle received adds to the credit of each class from the next cycle on, and one sent takes the lane
for a cycle with what is owed; an aligned release copy takes the lane of its endpoint port. When the timer of a reorder
context has run, REORDER is set and counted and its held frames are passed on to their port if it takes frames, with none held
after. -/
def Obligations.LaneEventsAct : Prop :=
  (∀ (s : State) (port : BitVec 9), mapsCanonical s →
    (∀ c e st n, (portAt s port.toNat).q.stallFrom = some c → c + 4096 ≤ s.now → (portAt s port.toNat).q.lane = .frame e st n →
      leads (.sourceStall port) s fun t => onlyChanges [.ports, .tandem, .dropping] s t ∧ t.dropping = s.dropping ++ [e.fid] ∧
        (portAt t port.toNat).q.stallFrom = none ∧
        ((portAt s port.toNat).q.done = 0 → (portAt t port.toNat).q.lane = .idle ∧ (portAt t port.toNat).q.cut = none) ∧
        ((portAt s port.toNat).q.done ≠ 0 →
          let f := cutFrame (knownFrame s e) (32 * widthOf s port.toNat * (portAt s port.toNat).q.done - 32) 0x0003
          (portAt t port.toNat).q.lane = .cut (nextCycle s port.toNat) ∧
          (portAt t port.toNat).q.cut = some (nextCycle s port.toNat, trailerBytes f.crc f.status))) ∧
    (∀ ret, (portAt s port.toNat).conf = true → carrying (portAt s port.toNat).link.st = true → stillLost s port.toNat = false →
      leads (.creditCycleReceive port ret) s fun t => onlyChanges [.ports] s t ∧
        (portAt t port.toNat).q.credit = (portAt s port.toNat).q.credit ∧
        ∀ c < 8, nth (portAt t port.toNat).q.coming c = nth (portAt s port.toNat).q.coming c + (ret.getD c 0).toNat) ∧
    (∀ c < 8, nth (portAt (creditArrives s port.toNat) port.toNat).q.credit c =
      nth (portAt s port.toNat).q.credit c + nth (portAt s port.toNat).q.coming c) ∧
    (linkOpen s port.toNat = true → (portAt s port.toNat).q.lane = .idle →
      (sumNat (returns s port.toNat) ≠ 0 → (portAt s port.toNat).q.lastCredit = none → urgentAt s port.toNat s.now = false →
        urgentAt s port.toNat (s.now + 1) = false → leads (.creditCycleSend port) s fun t => onlyChanges [.ports] s t ∧
          (portAt t port.toNat).q.lane = .credit s.now ∧ (portAt t port.toNat).q.lastCredit = some s.now ∧
          ∀ c < 8, nth (portAt t port.toNat).q.owed c = nth (portAt s port.toNat).q.owed c - nth (returns s port.toNat) c) ∧
      (∀ e, isEdge s port.toNat = true → kickTakes s port.toNat = false → (∀ x ∈ (portAt s port.toNat).q.queue, refusedAt s port.toNat x = 0) →
        alignedNow s port.toNat = some e → leads (.alignedCopySend port) s fun t =>
        onlyChanges [.host, .stats, .ports, .frames, .reorder, .doneMsgs, .pools, .tandem, .tallies, .faults, .fresh] s t ∧
        ∃ x n, (portAt t port.toNat).q.lane = .frame x s.now n ∧ x.fid = e.fid))) ∧
  (∀ (s : State) (pg : BitVec 4) (src : BitVec 20) (job : BitVec 8) (seq : BitVec 16) (c : Reorder), mapsCanonical s →
    s.reorder.find? (fun x => x.pg == pg.toNat && x.src == src.toNat && x.job == job.toNat && x.seq == seq.toNat) = some c →
    c.timer + clsTimeout s c.cls * 1024 ≤ s.now → leads (.reorderTimerExpiry pg src job seq) s fun t =>
      onlyChanges [.host, .stats, .ports, .frames, .reorder, .blockCounts, .pools, .dropping, .fresh] s t ∧
      bit (statAt t (srcPg pg.toNat)).status.toNat 11 = true ∧
      sget 0 t.blockCounts (srcPg pg.toNat * 8) = satAdd Config.sat32 (sget 0 s.blockCounts (srcPg pg.toNat * 8)) 1 ∧
      (∀ x ∈ t.reorder, sameCtx x c = true → x.held = [] ∧ x.pass = true) ∧
      ((∀ m < 16, bit (ew s 0x17 m 0).toNat 63 = false) → joins s c.port = true →
        (portAt t c.port).q.queue.length = (portAt s c.port).q.queue.length + c.held.length))

/-! ### Lanes and links (08 R230-R251) -/

/-- LINK_DOWN takes every configured port of the group down, with nothing queued or on its lanes; LINK_UP has the ports of a group
whose plan passes R235 configured, each beginning link-up. Both are recorded. While the steward runs, link-up goes from state
to state on its conditions: QUIET for 1,024 cycles, TRAIN until every enabled lane locks, or for 20,000 cycles, after which an
attempt without a locked lane has failed, MEASURE until four echoes agree, when the delay is fixed. A good rotation in CHECK
brings, in the next cycle, the state that its comparison gives and the neighbour's full credit. A degrading port not back
within 65,536 cycles of its fence goes down and link-up starts again over the lanes it has kept; a lane that loses its signal
has no lock, and one in use sets LOCK_LOSS and takes a carrying port down unless it may narrow. -/
def Obligations.LinksComeUpAndGoDown : Prop :=
  (∀ (s : State) (ring : BitVec 6) (d : Desc), mapsCanonical s → hasPg s (fld d.d1 3 0) = true →
    (admitted s ring d 0x40 (cringOf d.d0) none → leads (.linkDown ring d) s fun t =>
      onlyChanges [.host, .stats, .ports, .lanes, .stalled, .reorder, .tandem, .dropping, .intake, .ledger, .fresh] s t ∧
      answered s t ring d (cringOf d.d0) 0 stOk 0 0 ∧
      (∀ j < 32, (portAt s (32 * fld d.d1 3 0 + j)).conf = true → (portAt t (32 * fld d.d1 3 0 + j)).link.st = .down ∧
        (portAt t (32 * fld d.d1 3 0 + j)).q.queue = [] ∧ (portAt t (32 * fld d.d1 3 0 + j)).q.lane = .idle) ∧
      ∃ e, t.ledger.queue = enqueueChange s e ∧ e.kind = 0x16 ∧ e.target = BitVec.ofNat 64 (0x8000 + fld d.d1 3 0)) ∧
    (s.boot.steward = true → bit s.boot.ready.toNat (fld d.d1 3 0) = true → admitted s ring d 0x41 (cringOf d.d0) none →
      planFault s (fld d.d1 3 0) = none → leads (.linkUp ring d) s fun t =>
        onlyChanges [.host, .stats, .ports, .lanes, .stalled, .reorder, .tandem, .dropping, .intake, .ledger, .fresh] s t ∧
        answered s t ring d (cringOf d.d0) 0 stOk 0 0 ∧
        (∀ j < 32, (portAt t (32 * fld d.d1 3 0 + j)).conf = planUsed (sget 0 s.boot.planWords (32 * fld d.d1 3 0 + j)) ∧
          (planUsed (sget 0 s.boot.planWords (32 * fld d.d1 3 0 + j)) = true →
            (portAt t (32 * fld d.d1 3 0 + j)).link.st = .quiet)) ∧
        ∃ e, t.ledger.queue = enqueueChange s e ∧ e.kind = 0x16)) ∧
  (∀ (s : State) (port : BitVec 9), mapsCanonical s → (portAt s port.toNat).conf = true →
    ((portAt s port.toNat).link.st = .quiet → (portAt s port.toNat).link.since + 1024 ≤ s.now → s.boot.allIdle = false →
      s.boot.steward = true → ∀ byLimit, leads (.linkStateEnd port byLimit) s fun t => onlyChanges [.ports, .lanes] s t ∧
        (portAt t port.toNat).link = { (portAt s port.toNat).link with st := .train, since := s.now }) ∧
    (s.boot.steward = true → (portAt s port.toNat).link.st = .train → (portAt s port.toNat).lanes.filter (laneEn s) ≠ [] →
      (∀ l ∈ (portAt s port.toNat).lanes, laneEn s l = true → (laneAt s l).lock = true ∧ (laneAt s l).rxScr.isSome = true) →
      ∀ byLimit, (byLimit = true → (portAt s port.toNat).link.since + 20000 ≤ s.now) → leads (.linkStateEnd port byLimit) s fun t => onlyChanges [.ports, .lanes] s t ∧
        (portAt t port.toNat).link = { (portAt s port.toNat).link with st := .identify, since := s.now } ∧
        ∀ k ∈ (portAt s port.toNat).lanes, laneEn s k = false → (laneAt t k).bad = true) ∧
    (s.boot.steward = true → (portAt s port.toNat).link.st = .train → (portAt s port.toNat).link.degrading = false →
      (portAt s port.toNat).link.since + 20000 ≤ s.now →
      (∀ l ∈ (portAt s port.toNat).lanes, (laneAt s l).lock = false) → leads (.linkStateEnd port true) s fun t =>
        onlyChanges [.ports, .lanes] s t ∧ (portAt t port.toNat).link.attempts = (portAt s port.toNat).link.attempts + 1 ∧
        (portAt t port.toNat).link.st = if (portAt s port.toNat).link.attempts + 1 ≥ 8 then .down else .quiet) ∧
    (∀ a b c d : Int, s.boot.steward = true → (portAt s port.toNat).link.st = .measure → (portAt s port.toNat).link.echoes = [a, b, c, d] →
      cyclesOf (halfUp a.toNat) ≤ planMaxDelay (portAt s port.toNat).plan → cyclesOf (halfUp a.toNat) ≤ 2000 →
      ∀ byLimit, leads (.linkStateEnd port byLimit) s fun t => onlyChanges [.ports] s t ∧ (portAt t port.toNat).link =
        { (portAt s port.toNat).link with st := .check, since := s.now, rtt := a.toNat, delaySym := halfUp a.toNat,
                                          delay := cyclesOf (halfUp a.toNat) }) ∧
    (∀ lane rest, (portAt s port.toNat).link.st = .check → (portAt s port.toNat).lanes = lane :: rest →
      (∀ l ∈ lane :: rest, (laneAt s l).bad = false ∧ (laneAt s l).ready = true ∧ (laneAt s l).bookOk = true) →
      wiringFault s port.toNat (lane :: rest) = none → ∀ bsn arrival, (portAt s port.toNat).link.lastIn = some (bsn, arrival) →
      leads (.passbookRotation port bsn arrival) s fun t => onlyChanges [.host, .stats, .ports, .lanes, .fresh] s t ∧
        (portAt t port.toNat).link.nbr = (laneAt s lane).rotation ∧
        (portAt t port.toNat).link.due = (portAt s port.toNat).link.due ++
          [(s.now, .state (compareRotation (modLink s port.toNat fun l => { l with nbr := (laneAt s lane).rotation }) port.toNat))] ∧
        ∀ l ∈ lane :: rest, (laneAt t l).ready = false) ∧
    (∀ c k, s.boot.steward = true → (portAt s port.toNat).link.st = .check → (portAt s port.toNat).link.due = [(c, .state k)] → c < s.now →
      (portAt (applyDue s port.toNat) port.toNat).link.st = rowState k ∧
      (portAt (applyDue s port.toNat) port.toNat).link.due = [] ∧
      (portAt (applyDue s port.toNat) port.toNat).q.credit = fullCredit (portAt s port.toNat).link)) ∧
  (∀ (s : State) (port lane : BitVec 9), mapsCanonical s → (portAt s port.toNat).conf = true →
    (∀ c, (portAt s port.toNat).link.fencedAt = some c → (portAt s port.toNat).link.degrading = true → c + 65536 ≤ s.now →
      leads (.degradeTimeout port) s fun t =>
        onlyChanges [.host, .stats, .ports, .lanes, .stalled, .reorder, .tandem, .dropping, .intake, .fresh] s t ∧
        (portAt t port.toNat).link.st = .quiet ∧ (portAt t port.toNat).link.degrading = false ∧ (portAt t port.toNat).q.queue = [] ∧
        (portAt t port.toNat).lanes = (portAt s port.toNat).lanes) ∧
    (lane.toNat ∈ planLanes port.toNat (portAt s port.toNat).plan → (laneAt s lane.toNat).lock = true →
      leads (.lossOfSignal port lane) s fun t =>
        onlyChanges [.host, .stats, .ports, .lanes, .stalled, .reorder, .tandem, .dropping, .intake, .ledger, .fresh] s t ∧
        (laneAt t lane.toNat).lock = false ∧
        (lane.toNat ∈ (portAt s port.toNat).lanes → bit (statAt t (srcPg (pgOf port.toNat))).status.toNat 2 = true ∧
          (carrying (portAt s port.toNat).link.st = true → planDegrade (portAt s port.toNat).plan = false →
            (portAt t port.toNat).link.st = .quiet))))

/-- A block time received whole in order on every active lane is accepted, and one that fails has its block awaited again; a replayed
copy that fails is a lasting fault of its lanes; a NAK has every block kept from ACK + 1 sent again. -/
def Obligations.BlocksAreSequenced : Prop :=
  ∀ (s : State) (port : BitVec 9), mapsCanonical s → (portAt s port.toNat).conf = true → (portAt s port.toNat).link.started = true →
    (sends (portAt s port.toNat).link.st = true → (portAt s port.toNat).link.waiting = false →
      ∀ (blocks : List LaneBlock), blocks ≠ [] → blocks.map (·.lane) = (portAt s port.toNat).lanes → (portAt s port.toNat).lanes.Nodup →
      (∀ b ∈ blocks, b.lane ∈ planLanes port.toNat (portAt s port.toNat).plan) →
      ((∀ b ∈ blocks, ∃ h, blockGood s b = some h ∧ hBsn h = (portAt s port.toNat).link.ack + 1 ∧
          (rxBlock (portAt s port.toNat).link.rx (bits h.toNat 28 19) ((inNbrOrder s port.toNat blocks).map (rxBytes s))).2 = false) →
        leads (.laneBlockReceive port blocks) s fun t => onlyChanges [.host, .stats, .ports, .lanes, .fresh] s t ∧
          (portAt t port.toNat).link.ack = (portAt s port.toNat).link.ack + 1 ∧ (portAt t port.toNat).link.waiting = false) ∧
      ((∀ b ∈ blocks, blockHeader s b ≠ none) → (∃ b ∈ blocks, blockGood s b = none) →
        ((portAt s port.toNat).link.copies = none → (∀ b ∈ blocks, ∀ h, blockHeader s b = some h → hRpl h.1 = false) →
          leads (.laneBlockReceive port blocks) s fun t => onlyChanges [.host, .stats, .ports, .lanes, .fresh] s t ∧
            (portAt t port.toNat).link.ack = (portAt s port.toNat).link.ack ∧ (portAt t port.toNat).link.waiting = true ∧
            (portAt t port.toNat).link.failed = true) ∧
        ((∃ b ∈ blocks, ∃ h, blockHeader s b = some h ∧ hRpl h.1 = true) →
          leads (.laneBlockReceive port blocks) s fun t =>
            onlyChanges [.host, .stats, .ports, .lanes, .stalled, .reorder, .tandem, .dropping, .intake, .ledger, .fresh] s t ∧
            bit (statAt t (srcPg (pgOf port.toNat))).status.toNat 1 = true))) ∧
    (∀ x h inv, readHeader x = some (h, inv) → hNak h = true → (portAt s port.toNat).link.nakSeen = false →
      leads (.nakReceive port x) s fun t => onlyChanges [.ports] s t ∧
        (portAt t port.toNat).link = { (portAt s port.toNat).link with
          replay := ackUpTo (portAt s port.toNat).link.replay (hAck h), nakSeen := true,
          resend := ackUpTo (portAt s port.toNat).link.replay (hAck h) })

/-! ### Tills (03) -/

/-- TILL_OPEN completes with the status of the first check that fails. When none does and no till of its job and class waits, a till that
is granted its slabs, with none to be had for a till that waits, holds them and opens in the next cycle, or with tick class with the next tick, when its TILL_OPEN completes; one that
is not granted them waits, or fails under ADMIT = 1. A waiter that is granted its slabs in its turn, with none to be had for one before it,
opens as well. -/
def Obligations.TillsOpen : Prop :=
  (∀ (s : State) (ring : BitVec 6) (d : Desc) (obj : TillObj), admitted s ring d 0x10 (tCring obj.words) (some (tJob obj.words)) →
    (∀ st, openRefusal s obj = some st → leads (.tillOpen ring d obj) s fun t => onlyChanges [.host, .fresh] s t ∧
      answered s t ring d (tCring obj.words) (tTill obj.words) st 0 0) ∧
    (openRefusal s obj = none →
      (∀ e ∈ s.tills, e.2.st = .waitAdmit → tillQuota 1 e.2.words ≠ tillQuota 1 (obj.words.take 16)) →
      (∀ m y, tillAt s m = some y → y.st = .waitAdmit → grantTill s m y.words y.shard = none) →
      let n := tTill obj.words
      let grant := grantTill s n (obj.words.take 16) (obj.shard.take (4 * tEntries obj.words))
      (grant.isSome = true → leads (.tillOpen ring d obj) s fun t =>
        onlyChanges (poolAreas s ++ [.host, .pools, .tills, .tiles, .fresh]) s t ∧
        ∃ x, tillAt t n = some x ∧ x.st = .opening ∧ x.words = obj.words.take 16 ∧ x.by_ = some (acceptNow s ring.toNat d.d0 n) ∧
          x.epoch = tEpoch0 obj.words ∧ x.chunks = List.replicate (tChunks obj.words) (blankChunk (tEpoch0 obj.words))) ∧
      (grant = none → tTick obj.words = false → tAdmit obj.words = false → leads (.tillOpen ring d obj) s fun t =>
        onlyChanges [.host, .tills, .tiles, .fresh] s t ∧ ∃ x, tillAt t n = some x ∧ x.st = .waitAdmit ∧ x.words = obj.words.take 16) ∧
      (grant = none → tTick obj.words = false → tAdmit obj.words = true → leads (.tillOpen ring d obj) s fun t =>
        onlyChanges [.host, .fresh] s t ∧ answered s t ring d (tCring obj.words) n stRefused 0 0))) ∧
  (∀ (s : State) (till : BitVec 12) (x : Till), tillAt s till.toNat = some x → x.st = .waitAdmit →
    waiterBefore s x.words x.order = false → (grantTill s till.toNat x.words x.shard).isSome = true →
    (∀ m y, tillAt s m = some y → isBefore x.order y = true → grantTill s m y.words y.shard = none) →
    (tVault x.words = true → (regionAt s (tRegion x.words)).isSome = true) →
    (∀ k < tChunks x.words, tileDown s (tileOf s till.toNat x.words k) = false) →
    leads (.admissionGrant till) s fun t => onlyChanges (poolAreas s ++ [.pools, .tills, .jobFree]) s t ∧
      ∃ y, tillAt t till.toNat = some y ∧ y.st = .opening ∧ y.words = x.words ∧ y.by_ = x.by_ ∧ y.waitAt = x.waitAt ∧
        y.chunks = x.chunks) ∧
  (∀ (s : State) (tick : Bool) (n : Nat) (x : Till), rising s.tills = true → tillAt s n = some x → x.st = .opening →
    tTick x.words = tick → tillAt (openTills s tick) n = some { x with st := .open, by_ := none, waitAt := none } ∧
      ∀ a, x.by_ = some a → posted (openTills s tick) a (tCring x.words) stOk 0 0)

/-- TILL_CLOSE, TILL_ABORT, TILL_SAVE and TILL_EXCISE begin a drain of their till, TILL_EXCISE before its tick is kept for it; the abort
of a waiting till drops it; TILL_RESUME has a stopped till open with idle chunks in the next cycle; TILL_RESTORE of a saved till begins
to load the image, or completes DETECT_FAIL when its check fails. -/
def Obligations.TillCommandsAct : Prop :=
  ∀ (s : State) (ring : BitVec 6) (d : Desc) (x : Till), tillAt s (objOf d) = some x → x.ended = false →
    let n := objOf d
    let a := acceptNow s ring.toNat d.d0 n
    let own := fun op => admitted s ring d op (cringOf d.d0) (some (tillJob x))
    let begun := fun (k : DrainKind) => { x with drains := x.drains ++ [{ c := s.now, kind := k, by_ := some a }] }
    (own 0x11 → x.st = .open ∨ x.st = .stopped ∨ x.st = .saved → isClosing x = false → leads (.tillClose ring d) s fun t =>
      onlyChanges [.host, .tills, .fresh] s t ∧ tillAt t n = some (begun .close)) ∧
    (own 0x12 → x.st = .open → isClosing x = false → chunkBusy x = true → leads (.tillAbort ring d) s fun t =>
      onlyChanges [.host, .tills, .fresh] s t ∧ tillAt t n = some (begun .abort)) ∧
    (own 0x12 → x.st = .waitAdmit → tVault x.words = false → leads (.tillAbort ring d) s fun t =>
      onlyChanges [.host, .pools, .tills, .tiles, .jobFree, .fresh] s t ∧ tillAt t n = none ∧ answered s t ring d (cringOf d.d0) n stOk 0 0 ∧
      ∀ b, x.by_ = some b → posted t b (tCring x.words) stAborted 0 0) ∧
    (own 0x13 → x.st = .open → isEnding x = false → isSaving x = false → (beginSave s n x .save none).isSome = true →
      leads (.tillSave ring d) s fun t => onlyChanges (poolAreas s ++ [.host, .pools, .tills, .fresh]) s t ∧
        ∃ y, tillAt t n = some y ∧ y.drains = (begun .save).drains ∧ y.chunks = x.chunks) ∧
    (own 0x16 → x.st = .open → isEnding x = false → isSaving x = false → fld d.d1 21 12 ∈ inputsOf x.words x.shard →
      fld d.d1 21 12 ∉ x.excised → leads (.tillExcise ring d) s fun t => onlyChanges [.host, .tills, .fresh] s t ∧ tillAt t n =
        some (if ticksOn s && laterTick s (BitVec.ofNat 48 (fld d.d2 47 0)) then
          { x with excisions := x.excisions ++ [(fld d.d1 21 12, fld d.d1 35 22, BitVec.ofNat 48 (fld d.d2 47 0), a)] }
          else begun (.excise (fld d.d1 21 12) (fld d.d1 35 22)))) ∧
    (own 0x15 → x.st = .stopped → isEnding x = false → x.resuming = none → tilesMissing s n x = false →
      leads (.tillResume ring d) s fun t => onlyChanges [.host, .tills, .fresh] s t ∧
        tillAt t n = some { x with resuming := some a, delta := deltaFor s x.words x.epoch }) ∧
    (∀ b, x.resuming = some b → posted (resumeTill s n) b (cringOf b.d0) stOk 0 0 ∧
      ∃ y, tillAt (resumeTill s n) n = some y ∧ y.st = .open ∧ y.epoch = x.epoch ∧
        y.chunks = x.chunks.map fun _ => blankChunk x.epoch) ∧
    (own 0x14 → x.st = .saved → isEnding x = false → isSaving x = false → tilesMissing s n x = false → bit d.d1.toNat 12 = true →
      ∀ img chk,
        (imageGood n x img .first = false → leads (.tillRestore ring d img chk) s fun t => onlyChanges [.host, .fresh] s t ∧
          answered s t ring d (cringOf d.d0) n stDetect 0 0) ∧
        (imageGood n x img .first = true → ∀ u slabs, grantTill s n x.words x.shard = some (u, slabs) →
          leads (.tillRestore ring d img chk) s fun t => onlyChanges (poolAreas s ++ [.host, .pools, .tills, .fresh]) s t ∧
            tillAt t n = some { x with slabs := slabs, loading := some (img, some a) }))

/-- At its action cycle a save takes the image and writes it to its host address, a close frees the till and completes, an ending
posts the epoch and stops a standing till, and a debug halt, whose passes went at the drain cycle, leaves the till as it is. A
snapshot whose writes are done leaves the till SAVED without slabs, and its command complete. A loaded image takes the till's
place and it is OPEN. A till saved by pre-emption is granted its slabs in its turn, recorded, and loads its image. -/
def Obligations.DrainsAndImagesAct : Prop :=
  (∀ (s : State) (till : BitVec 12) (x : Till) (e : Drain) (rest : List Drain), tillAt s till.toNat = some x → x.drains = e :: rest →
    actionAt e.c ≤ s.now →
    (e.kind = .save → tSaveHost x.words = true → leads (.drainAction till) s fun t =>
      onlyChanges [.host, .tills, .fresh] s t ∧
      hostWriting t (x.words.getD 9 0).toNat (tillImageBytes till.toNat x) (.save till.toNat) ∧
      ∃ y img, tillAt t till.toNat = some y ∧ y.st = .draining ∧ y.drains = rest ∧ y.by_ = e.by_ ∧ y.saveWrites ≠ [] ∧
        y.image = some img ∧ img.chunks = x.chunks ∧ img.digest = descDigest x.words ∧ img.till = till.toNat) ∧
    (e.kind = .close → epochBegun x = false → leads (.drainAction till) s fun t =>
      onlyChanges (sendAreas s ++ [.host, .stats, .blockCounts, .dropping, .tills, .ctxs, .tiles, .hbm, .faults, .jobFree]) s t ∧
      tillAt t till.toNat = none ∧ ∀ a, e.by_ = some a → posted t a (cringOf a.d0) stOk 0 0) ∧
    (∀ st, e.kind = .ending st x.epoch → tStanding x.words = true → leads (.drainAction till) s fun t =>
      onlyChanges [.host, .ports, .stalled, .dropping, .intake, .tills, .ctxs, .hbm, .jobFree] s t ∧
      epochPosted s t till.toNat x ∧
      ∃ y, tillAt t till.toNat = some y ∧ y.st = .stopped ∧ y.epoch = x.epoch + 1 ∧ y.drains = rest) ∧
    (e.kind = .halt → leads (.drainAction till) s fun t => onlyChanges [.tills] s t ∧
      tillAt t till.toNat = some { x with drains := rest })) ∧
  (∀ (s : State) (till : BitVec 12) (x : Till), tillAt s till.toNat = some x →
    (x.st = .draining → x.saveWrites = [] → x.image.isSome = true → x.readBy ≤ s.now → leads (.snapshotWritten till) s fun t =>
      onlyChanges [.host, .pools, .intake, .tills, .ctxs, .jobFree] s t ∧
      (∀ a, x.by_ = some a → posted t a (cringOf a.d0) stOk (imageBytes x) 0) ∧
      ∃ y, tillAt t till.toNat = some y ∧ y.st = .saved ∧ y.slabs = [] ∧ y.image = x.image ∧
        y.chunks = x.chunks.map fun c => blankChunk c.epoch) ∧
    (∀ img b, x.loading = some (img, b) → x.st = .saved → x.slabs ≠ [] → (∀ c ∈ img.chunks, c.st ≠ .minting) →
      leads (.restoreLoaded till) s fun t =>
        onlyChanges (poolAreas s ++ [.host, .pools, .intake, .tills]) s t ∧
        (∀ a, b = some a → posted t a (cringOf a.d0) stOk 0 0) ∧
        ∃ y, tillAt t till.toNat = some y ∧ y.st = .open ∧ y.epoch = (if x.image = some img then x.epoch else img.epoch.getD (restoredEpoch x img.chunks)) ∧ y.loading = none ∧ y.image = none ∧ y.staging = 0 ∧
          y.chunks = img.chunks.map (restoredChunk s x.words)) ∧
    (∀ img u slabs, x.st = .saved → x.preempted = true → x.loading = none → isEnding x = false →
      (∀ e ∈ s.tills, e.2.st = .saved → e.2.preempted = true → e.2.loading = none → till.toNat ≤ e.1) →
      (∀ e ∈ s.tills, e.2.st = .waitAdmit → e.2.preempts = false) → x.image = some img →
      grantTill s till.toNat x.words x.shard = some (u, slabs) → leads (.preemptRestore till) s fun t =>
        onlyChanges (poolAreas s ++ [.pools, .tills, .ledger]) s t ∧
        tillAt t till.toNat = some { x with slabs := slabs, loading := some (img, none) } ∧
        ∃ e, t.ledger.queue = enqueueChange s e ∧ e.kind = 0x19))

/-- A CONTRIB or PARTIAL that keeps R72 is added to its chunk and sets its bits. One from no input slot, or that R72 forbids, is discarded
and counted. When the last addition of a plain chunk of a ROOT till that has all its inputs retires, the chunk is minted. -/
def Obligations.InputsAreAdded : Prop :=
  (∀ (s : State) (f : Frame) (child : Bool) (x : Till), (headerOf f.hdr).type = (if child then 3 else 1) → frameGood f = true →
    (child = true → isSummary f = false) → tillAt s (headerOf f.hdr).till.toNat = some x →
    let h := headerOf f.hdr
    let c := if child then Instr.partialReceive f false else .contribReceive f false
    let n := h.till.toNat
    let k := h.offset.toNat / max 1 (tChunkBlocks x.words)
    inputWaits s n x k = false → stillCrosses s f = false →
    ((∀ i, inputSlot x h child = some i → isOpenTill x = false ∨ inputOk x h i child f.payload.length = false) → leads c s fun t =>
      onlyChanges [.intake, .tills] s t ∧
      tillAt t n = some { x with cnt := { x.cnt with discard := satAdd Config.sat32 x.cnt.discard 1 } }) ∧
    (∀ i accs trunc, inputSlot x h child = some i → isOpenTill x = true → inputOk x h i child f.payload.length = true →
      inputAccs x h i child f.payload = .ok accs trunc → (chunkOf x k).epoch = h.epoch → tTick x.words = false → k < x.chunks.length →
      let input : Input := { slot := i, epoch := h.epoch, first := h.offset.toNat, accs := accs, trunc := trunc,
                             waits := waitingElems x h i child accs, more := child && auxMore h }
      let z := inputChunk s x k (chunkOf x k) input (takeIntake s f).2.2
      leads c s fun t => onlyChanges [.intake, .tills, .jobFree] s t ∧
        ∃ y, tillAt t n = some y ∧ (∀ j, j ≠ k → chunkOf y j = chunkOf x j) ∧ chunkOf y k = z ∧ z.st = .filling ∧
          z.bitA = addSlot (chunkOf x k).bitA i ∧ z.retire = aclkAt s.now + 10 ∧
          z.acc = addAt_ (tOp x.words) (chunkAccs x.words k (chunkOf x k).acc) ((h.offset.toNat - chunkFirst x.words k) * tElems x.words) accs)) ∧
  (∀ (s : State) (n k : Nat) (x : Till) (z : Chunk), tillAt s n = some x → chunkOf x k = z → isOpenTill x = true → k < x.chunks.length → z.st = .filling → z.retire ≤ s.now →
      z.resetAt = none → haltedTile s (tileOf s n x.words k) = false →
      (∀ j < x.chunks.length, (chunkOf x j).toMint = false ∧ (j ≠ k → (chunkOf x j).resetAt = none ∧
        ((chunkOf x j).st = .filling → (requiredOf x j).all (hasB (chunkOf x j)) = false ∨ s.now < (chunkOf x j).retire))) →
      (∀ e ∈ x.zeroAt, s.now < e.2.1) → chunkActive x.words x.shard k = true → (requiredOf x k).all (hasB z) = true → z.waitSum = [] →
      z.mismatch ≠ 1 → tInner x.words = false → tVault x.words = false → tFused x.words = false →
        onlyChanges (sendAreas s ++ [.tills, .jobFree]) s (retireTill s n) ∧
        ∃ y, tillAt (retireTill s n) n = some y ∧ (∀ j, j ≠ k → chunkOf y j = chunkOf x j) ∧ (chunkOf y k).st = .minting ∧
          (chunkOf y k).acc = z.acc ∧
          (chunkOf y k).receipt = receipt z.receipt (mintRoot x.words x.scales (fuseSlice x k) k (chunkAccs x.words k z.acc)).syms)

/-- A good SUMMARY of a child sets its bit, fixes its rank, adds its counts and ends its timer. A generation notice from the
parent gives an INNER till its generation. A chunk or summary timer that expires below LIMIT asks again and runs again, at
LIMIT the epoch ends PEER_LOST. An early-forward timer sends what the chunk holds, counts it and empties its accumulators. -/
def Obligations.TillFramesAndTimersAct : Prop :=
  (∀ (s : State) (f : Frame) (x : Till), frameGood f = true → tillAt s (headerOf f.hdr).till.toNat = some x →
    let h := headerOf f.hdr
    (∀ i, h.type = 3 → isSummary f = true → inputSlot x h true = some i → isOpenTill x = true → summaryOk x h i = true →
      allDone x = false → (∀ c ∈ x.chunks, c.waitSum = []) → leads (.summaryReceive f) s fun t =>
        onlyChanges [.intake, .tills, .jobFree] s t ∧
        ∃ y, tillAt t h.till.toNat = some y ∧ sget 0 y.sums i = ((summaryPart f.payload).exc.map (·.rank)).getD 0 + 1 ∧
          y.cnt.discard = satAdd Config.sat32 x.cnt.discard (leAt f.payload 14 4) ∧
          y.cnt.resend = satAdd Config.sat32 x.cnt.resend (leAt f.payload 18 4) ∧
          y.cnt.part = joinPart (tillImage s x.words) x.cnt.part (summaryPart f.payload)) ∧
    (h.type = 9 → tInner x.words = true → h.job.toNat = tJob x.words → h.src.toNat = tParent x.words → auxNblk h = 0 →
      bit h.aux.toNat 31 = false → leads (.resendReqReceive f) s fun t => onlyChanges [.intake, .tills] s t ∧
        tillAt t h.till.toNat = some { x with gen := auxGen h })) ∧
  (∀ (s : State) (till : BitVec 12) (x : Till) (k : Nat), tillAt s till.toNat = some x → isOpenTill x = true → timersStopped s x = false →
    let lost := { x with cnt := { x.cnt with seen := addSeen x.cnt.seen stPeerLost },
                         drains := x.drains ++ [{ c := s.now, kind := .ending stPeerLost x.epoch, by_ := none }] }
    (k < x.chunks.length → (chunkOf x k).st = .filling → dueNow s (chunkOf x k).timerAt = true →
      ((chunkOf x k).rounds < tLimit x.words → leads (.chunkTimerExpiry till k) s fun t =>
        onlyChanges (sendAreas s ++ [.tills]) s t ∧
        ∃ y, tillAt t till.toNat = some y ∧ (chunkOf y k).rounds = (chunkOf x k).rounds + 1 ∧
          (chunkOf y k).timerAt = some (s.now + tTimeout x.words) ∧
          ∀ i ∈ requiredOf x k, hasB (chunkOf x k) i = false → (i, s.now) ∈ (chunkOf y k).resendAt) ∧
      (tLimit x.words ≤ (chunkOf x k).rounds → isEnding x = false → (chunkOf x k).epoch = x.epoch → leads (.chunkTimerExpiry till k) s fun t =>
        onlyChanges [.tills] s t ∧ tillAt t till.toNat = some lost)) ∧
    (∀ at_ rounds, x.sumTimers.find? (fun y => y.1 == k) = some (k, at_, rounds) → at_ ≤ s.now →
      (rounds < tLimit x.words → leads (.summaryTimerExpiry till k) s fun t =>
        onlyChanges (sendAreas s ++ [.tills]) s t ∧
        (reaches s (BitVec.ofNat 20 (shEndpoint x.shard k)) → sent t 9 (BitVec.ofNat 20 (shEndpoint x.shard k))
          (BitVec.ofNat 32 (2 ^ 31 + if shKind x.shard k = 1 then genOf x k * 2 ^ 26 else 0)) []) ∧
        ∃ y, tillAt t till.toNat = some y ∧ y.cnt.resend = satAdd Config.sat32 x.cnt.resend 1 ∧
          y.sumTimers.find? (fun y => y.1 == k) = some (k, s.now + tTimeout x.words, rounds + 1)) ∧
      (tLimit x.words ≤ rounds → isEnding x = false → leads (.summaryTimerExpiry till k) s fun t =>
        onlyChanges [.tills] s t ∧ tillAt t till.toNat = some lost)) ∧
    (k < x.chunks.length → (chunkOf x k).st = .filling → (chunkOf x k).earlyOnce = false → (chunkOf x k).resetAt = none →
      dueNow s (chunkOf x k).efAt = true →
      haltedTile s (tileOf s till.toNat x.words k) = false → leads (.earlyForwardExpiry till k) s fun t =>
        onlyChanges (sendAreas s ++ [.tills, .toss]) s t ∧
        sget 0 t.toss (tJob x.words * 4) = satAdd Config.sat48 (sget 0 s.toss (tJob x.words * 4)) 1 ∧
        let accs := partAccs x k (earlyAccs till.toNat k (chunkOf x k).epoch (chunkAccs x.words k (chunkOf x k).acc))
        let own := ownDelivery x.words x.shard k
        (reaches s (BitVec.ofNat 20 (tParent x.words)) → sent t 3 (BitVec.ofNat 20 (tParent x.words))
          (BitVec.ofNat 32 (2 ^ 30 + x.gen % 16 * 2 ^ 26 + own.2))
          (partialBody x.words (partialOut x.words x.scales own.1 own.2 (spanAccs x k accs)))) ∧
        ∃ y, tillAt t till.toNat = some y ∧ (chunkOf y k).earlySent = true ∧ (chunkOf y k).acc = [] ∧ (chunkOf y k).efAt = none ∧
          (chunkOf y k).early = accs))

/-- A minting chunk whose frames have left is DONE; with the last one the epoch of a till that is not standing is posted and the till waits to
be freed. A tick-class till whose chunks have not left in time at its deadline posts LATE: its open chunks go on to the next epoch. -/
def Obligations.EpochsEnd : Prop :=
  ∀ (s : State) (till : BitVec 12) (x : Till), tillAt s till.toNat = some x → isOpenTill x = true →
    (∀ k, k < x.chunks.length → chunkLeft s till.toNat x k = true → (chunkOf x k).resetAt = none → tVault x.words = false →
      let z := putChunk x k { chunkOf x k with st := .done }
      (allDone z = false → leads (.chunkDone till k false) s fun t => onlyChanges [.tills] s t ∧
        ∃ y, tillAt t till.toNat = some y ∧ y.chunks = z.chunks ∧ y.epoch = x.epoch) ∧
      (allDone z = true → isEnding x = false → childrenOf x.words x.shard = [] → tInner x.words = false → tStanding x.words = false →
        leads (.chunkDone till k false) s fun t => onlyChanges [.host, .tills] s t ∧ epochPosted s t till.toNat z ∧
          ∃ y, tillAt t till.toNat = some y ∧ y.chunks = z.chunks ∧ y.epoch = x.epoch + 1 ∧ y.ended = true)) ∧
    (∀ due, tTick x.words = true → isEnding x = false → x.cnt.dueAt = some due → due ≤ s.now →
      leftInTime s till.toNat x due = false → leads (.tillDeadline till) s fun t =>
        onlyChanges [.host, .stats, .ports, .stalled, .dropping, .tills, .ctxs, .hbm, .jobFree, .fresh] s t ∧
        epochPosted s t till.toNat { x with cnt := { x.cnt with seen := addSeen x.cnt.seen stLate } } ∧
        ∃ y, tillAt t till.toNat = some y ∧ y.epoch = x.epoch + 1 ∧ y.ended = !tStanding x.words ∧
          ∀ k < x.chunks.length, chunkOf y k = if (chunkOf x k).epoch = x.epoch ∧ (chunkOf x k).st ≠ .done then blankChunk (x.epoch + 1)
            else chunkOf x k)

/-! ### Programs and tile engines (04) -/

/-- PROG_LOAD begins to load a program that passes its checks into a free slot; once every tile holds it the slot is usable, the
load is recorded and the command completes with its digest. PROG_UNLOAD of a slot that nothing uses frees it and is recorded.
PROG_RUN with data of its own makes a run ready on its tile; the tile's bulk context takes it when it stands first and its
window fits; when it ends its window is given back, its output is written and its completion says what the pass made, or
DETECT_FAIL when a scratchpad line failed. -/
def Obligations.ProgramsAreLoadedAndRun : Prop :=
  (∀ (s : State) (ring : BitVec 6) (d : Desc) (image : List Byte),
    let slot := fld d.d1 7 0
    let im := padTo (pgBytes image) image
    (admitted s ring d 0x20 (cringOf d.d0) none →
      (ofind s.progs slot = none → imageOk s im = true → storeUsed s + pgLen im ≤ Config.progInstrs →
        leads (.progLoad ring d image) s fun t => onlyChanges [.host, .progs, .fresh] s t ∧ progAt t slot = none ∧
        ∃ p at_, ofind t.progs slot = some p ∧ p.image = im ∧ p.digest = BitVec.ofNat 512 (beNat (sha512Bytes im)) ∧
          p.loading = some (at_, acceptNow s ring.toNat d.d0 0) ∧ s.now < at_) ∧
      ((ofind s.progs slot).isSome = true ∨ imageOk s im = false ∨ Config.progInstrs < storeUsed s + pgLen im →
        leads (.progLoad ring d image) s fun t => onlyChanges [.host, .fresh] s t ∧
          answered s t ring d (cringOf d.d0) 0 stRefused 0 0)) ∧
    (∀ p at_ a, rising s.progs = true → ofind s.progs slot = some p → p.loading = some (at_, a) → at_ ≤ s.now →
      progAt (progCycle s) slot = some { p with loading := none } ∧
      posted (progCycle s) a (cringOf a.d0) stOk 0 (digestLow64 p.image).toNat ∧
      ∃ e, e ∈ (progCycle s).ledger.queue ∧ e.kind = 0x14 ∧ e.target = BitVec.ofNat 64 slot ∧ e.new = padTo 16 (sha512Bytes p.image)) ∧
    (admitted s ring d 0x21 (cringOf d.d0) none → (progAt s slot).isSome = true → slotBusy s slot = false →
      leads (.progUnload ring d) s fun t => onlyChanges [.host, .progs, .ledger, .fresh] s t ∧
        answered s t ring d (cringOf d.d0) 0 stOk 0 0 ∧ progAt t slot = none ∧
        ∃ e, t.ledger.queue = enqueueChange s e ∧ e.kind = 0x14 ∧ e.target = BitVec.ofNat 64 (slot + 256))) ∧
  ((∀ (s : State) (ring : BitVec 6) (d : Desc) (params data : List Byte), admitted s ring d 0x22 (cringOf d.d0) none →
    (runOk s d = false → leads (.progRun ring d params data) s fun t => onlyChanges [.host, .fresh] s t ∧
      postedRun t (acceptNow s ring.toNat d.d0 (fld d.d1 7 0)) stRefused 0 0 []) ∧
    (runOk s d = true → bit d.d1.toNat 33 = false → leads (.progRun ring d params data) s fun t =>
      onlyChanges [.host, .ctxs, .fresh] s t ∧
      ∃ r : RunReq, r.by_ = acceptNow s ring.toNat d.d0 (fld d.d1 7 0) ∧ r.slot = fld d.d1 7 0 ∧ r.count = fld d.d1 32 20 ∧
        r.params = params ∧ r.data = padTo (fld d.d6 16 0) data ∧
        ctxAt t (ctxKey (fld d.d1 19 8) false) = { ctxAt s (ctxKey (fld d.d1 19 8) false) with
          ready := (ctxAt s (ctxKey (fld d.d1 19 8) false)).ready ++ [{ till := 0, chunk := 0, readyAt := s.now, run := some r }] })) ∧
  (∀ (s : State) (tile : BitVec 12) (p : Pass) (rest : List Pass) (r : RunReq), (ctxAt s (ctxKey tile.toNat false)).running = none →
    (ctxAt s (ctxKey tile.toNat true)).running = none →
    (ordered (ctxAt s (ctxKey tile.toNat false)).ready).filter (passLive s tile.toNat) = p :: rest → p.run = some r →
    r.src = none → r.window ≤ scratchFree s tile.toNat → (∀ y ∈ s.faults.progs, y.1 ≠ tile.toNat) →
    let ends := passEnd s tile.toNat false (passCost (((progAt s r.slot).map (·.image)).getD []) r.count)
    leads (.enginePassStart tile false .first) s fun t => onlyChanges [.ctxs, .tiles] s t ∧
      (ctxAt t (ctxKey tile.toNat false)).running = some { pass := p, started := s.now, endsAt := ends }) ∧
  (∀ (s : State) (tile : BitVec 12) (run : Running) (r : RunReq), mapsCanonical s →
    (ctxAt s (ctxKey tile.toNat false)).running = some run → run.pass.run = some r → run.endsAt ≤ s.now →
    run.loading = false → haltedTile s tile.toNat = false →
    let im := ((progAt s r.slot).map (·.image)).getD []
    let p := runResult im r
    let status := if p.invalid > 0 then stInvalid else stOk
    (leads (.progRunEnd tile true) s fun t => onlyChanges [.host, .stats, .ctxs, .tiles, .fresh] s t ∧
      (ctxAt t (ctxKey tile.toNat false)).running = none ∧ postedRun t r.by_ stDetect 0 0 [] ∧
      sget 0 t.tiles.retired tile.toNat = sget 0 s.tiles.retired tile.toNat + 1) ∧
    (tile.toNat ∉ s.faults.lines → r.outBytes = 0 → leads (.progRunEnd tile false) s fun t => onlyChanges [.host, .ctxs, .tiles] s t ∧
      (ctxAt t (ctxKey tile.toNat false)).running = none ∧ postedRun t r.by_ status p.invalid (p.index.getD 0) p.latch) ∧
    (tile.toNat ∉ s.faults.lines → r.outBytes ≠ 0 → r.outDst = false → leads (.progRunEnd tile false) s fun t => onlyChanges [.host, .ctxs, .tiles, .fresh] s t ∧
      (ctxAt t (ctxKey tile.toNat false)).running = none ∧
      hostWriting t r.outAddr
        ((slice (runWindow im (padTo r.window r.data) p.outs) (32 * r.outLine) (round32 r.outBytes)).take r.outBytes)
        (.copy r.by_.ring (tagOf r.by_.d0)) ∧
      ∃ c ∈ t.host.ready, c.waits ≠ [] ∧ c.entries = runEntries r.by_ status p.invalid (p.index.getD 0) p.latch)))

/-- An update pass in its turn starts when its version conditions hold, with its end fixed, and is passed over when they do not. The context
that ends it is free, the chunk has its latch, and the vault's build slot holds what the program wrote. -/
def Obligations.UpdatePassesRun : Prop :=
  (∀ (s : State) (x : Till) (g : Region) (p : Pass) (tile : Nat) (c : Instr), mapsCanonical s →
    let key := ctxKey tile (tTick x.words)
    let live := (ordered (ctxAt s key).ready).filter (passLive s tile)
    tillAt s p.till = some x → p.run = none → (ctxAt s key).running = none →
    (tTick x.words = false → (ctxAt s (ctxKey tile true)).running = none) →
    (∃ rest, c = .enginePassStart (BitVec.ofNat 12 tile) (tTick x.words) .first ∧ tile < 4096 ∧ live = p :: rest) ∨
      (c = .updatePassStart (BitVec.ofNat 12 p.till) p.chunk ∧ p.till < 4096 ∧ tile = tileOf s p.till x.words p.chunk ∧
        live.find? (isPassOf p.till p.chunk) = some p ∧ ∀ y ∈ live, y = p ∨ passBefore y p = false ∨ mustWait s y = true) →
    regionAt s (tRegion x.words) = some g →
    (versionReady s x p.chunk = true → (g.chunks.getD p.chunk {}).stored + 1 = passVersion x p.chunk →
      streamsOf (tillImage s x.words) 3 = [] → (∀ y ∈ s.faults.progs, y.1 ≠ tile) →
      let cost := passCost (tillImage s x.words) (validFrom x.words (chunkFirst x.words p.chunk) (chunkLen x.words p.chunk))
      let ends := passEnd s tile (tTick x.words) cost
      leads c s fun t => onlyChanges [.ctxs, .jobFree, .fresh] s t ∧
        (ctxAt t key).running = some { pass := p, started := s.now, endsAt := ends, version := passVersion x p.chunk } ∧
        (ctxAt t key).ready = (ctxAt s key).ready.filter fun y => y != p) ∧
    (versionReady s x p.chunk = false → c = .updatePassStart (BitVec.ofNat 12 p.till) p.chunk → leads c s fun t =>
      onlyChanges [.ctxs] s t ∧ (ctxAt t key).ready =
        (ctxAt s key).ready.map fun y => if y = p ∧ y.passedAt = none then { y with passedAt := some s.now } else y)) ∧
  (∀ (s : State) (tile : BitVec 12) (tick : Bool) (run : Running) (x : Till) (g : Region), mapsCanonical s →
    (ctxAt s (ctxKey tile.toNat tick)).running = some run → run.pass.run = none → run.endsAt ≤ s.now →
    haltedTile s tile.toNat = false → tillAt s run.pass.till = some x → regionAt s (tRegion x.words) = some g → run.pass.chunk < x.chunks.length →
    run.pass.chunk < g.chunks.length →
    let k := run.pass.chunk
    let im := tillImage s x.words
    let v := g.chunks.getD k {}
    let q := runPass { image := im, k := paramWords (g.param.getD []), base := chunkFirst x.words k * tElems x.words }
      (fun _ => updateRead x v im (((chunkMint x k).blocks.map fun b => b.1.encs).flatten))
      (validFrom x.words (chunkFirst x.words k) (chunkLen x.words k))
    leads (.enginePassEnd tile tick) s fun t =>
      onlyChanges (sendAreas s ++ [.tills, .ctxs, .hbm]) s t ∧
      (ctxAt t (ctxKey tile.toNat tick)).running = none ∧
      (∃ y, tillAt t run.pass.till = some y ∧ (chunkOf y k).part.latch.isSome = true) ∧
      ∃ r, regionAt t (tRegion x.words) = some r ∧ (r.chunks.getD k {}).build = buildSlot im q)

/-! ### Tallies (06) -/

/-- TALLY_OPEN refuses what R166 refuses, has a tally open in the next cycle, when the command completes, or has one of tick class or not yet
aligned wait. TALLY_CLOSE and
TALLY_ABORT free the tally and post an incomplete generation ABORTED. TALLY_EXCISE before its tick waits; an excision that leaves the
generation incomplete takes its slot out and completes. -/
def Obligations.TallyCommandsAct : Prop :=
  ∀ (s : State) (ring : BitVec 6) (d : Desc),
    (∀ words inputs : List W64,
      let w := words.take 8
      let n := wf w 0 63 52
      let l := if yCounter w then [] else (inputs ++ List.replicate (yEntries w) 0).take (yEntries w)
      admitted s ring d 0x18 (yCring w) (some (yJob w)) →
      (tallyOk s w l = false ∨ (tallyAt s n).isSome = true → leads (.tallyOpen ring d words inputs) s fun t =>
        onlyChanges [.host, .fresh] s t ∧ answered s t ring d (yCring w) n stRefused 0 0) ∧
      (tallyOk s w l = true → tallyAt s n = none → leads (.tallyOpen ring d words inputs) s fun t =>
        onlyChanges [.host, .tallies, .fresh] s t ∧
        ∃ v, tallyAt t n = some v ∧ v.words = w ∧ v.inputs = l ∧ v.gen = BitVec.ofNat 16 (wf w 0 43 28) ∧ v.arrived = [] ∧
          v.by_ = some (acceptNow s ring.toNat d.d0 n) ∧
          v.openAt = if yTick w = true ∨ (yAlign w = true ∧ s.tick.state = 0) then none else some (s.now + 1))) ∧
    (∀ n v a, rising s.tallies = true → tallyAt s n = some v → v.by_ = some a → tallyOpenNow s v = true →
      tallyAt (tallyCycle s) n = some { v with openAt := some s.now, by_ := none } ∧
      posted (tallyCycle s) a (yCring v.words) stOk 0 0) ∧
    (∀ v, tallyAt s (objOf d) = some v →
      (∀ c op, (c, op) ∈ [(Instr.tallyClose ring d, 0x19), (Instr.tallyAbort ring d, 0x1A)] →
        admitted s ring d op (cringOf d.d0) (some (yJob v.words)) → leads c s fun t =>
          onlyChanges [.host, .tallies, .fresh] s t ∧ tallyAt t (objOf d) = none ∧
          answered s t ring d (cringOf d.d0) (objOf d) stOk 0 0 ∧
          (v.first.isSome = true →
            tallyPosted t (objOf d) v stAborted (toldNow s v (if yCounter v.words then v.count else 0)))) ∧
      (admitted s ring d 0x1B (cringOf d.d0) (some (yJob v.words)) → fld d.d1 21 12 < v.inputs.length →
        let tk := BitVec.ofNat 48 (fld d.d2 47 0)
        let out := { v with excised := v.excised ++ [fld d.d1 21 12], excisedMark := true }
        (ticksOn s = true → laterTick s tk = true → leads (.tallyExcise ring d) s fun t => onlyChanges [.host, .tallies, .fresh] s t ∧
          tallyAt t (objOf d) =
            some { v with excisions := v.excisions ++ [(fld d.d1 21 12, tk, acceptNow s ring.toNat d.d0 (objOf d))] }) ∧
        (ticksOn s = false ∨ laterTick s tk = false → yCounter v.words = false → tallyLate s v = false → allArrived out = false →
          leads (.tallyExcise ring d) s fun t => onlyChanges [.host, .tallies, .fresh] s t ∧ tallyAt t (objOf d) = some out ∧
            answered s t ring d (cringOf d.d0) (objOf d) stOk 0 0))) ∧
    (∀ (tally : BitVec 12) (slot : BitVec 10) (v : Tally) (x : Nat × BitVec 48 × Accept), tallyAt s tally.toNat = some v →
      v.excisions.find? (fun x => x.1 == slot.toNat && !(ticksOn s && laterTick s x.2.1)) = some x →
      let out := { v with excisions := v.excisions.erase x, excised := v.excised ++ [slot.toNat], excisedMark := true }
      yCounter v.words = false → tallyLate s v = false → allArrived out = false → leads (.tallyExciseEffect tally slot) s fun t =>
        onlyChanges [.host, .tallies] s t ∧ tallyAt t tally.toNat = some out ∧
        posted t x.2.2 (cringOf x.2.2.d0) stOk 0 0)

/-- An ARRIVE or CARRY that keeps R170 marks its slot and adds its votes; with the last a ROOT barrier releases and begins its next generation, and
an INNER one sends its votes to its parent. An ADD adds to COUNT, and a counter at its THRESHOLD releases and keeps the rest. A
TALLY_OP of another job is discarded and counted. -/
def Obligations.TallyInputsAreCounted : Prop :=
  ∀ (s : State) (f : Frame) (i : Intake) (v : Tally), frameGood f = true → (headerOf f.hdr).type = 4 →
    s.intake.find? (fun i => decide (i.frame = f)) = some i → tallyAt s (headerOf f.hdr).till.toNat = some v →
    let h := headerOf f.hdr
    let n := h.till.toNat
    (∀ c op, (c, op) ∈ [(Instr.tallyArrive f, 0), (.tallyAdd f, 1), (.tallyCarry f, 2)] → tallyOpOf h = op →
      h.job.toNat ≠ yJob v.words → leads c s fun t => onlyChanges [.intake, .tallies] s t ∧ t.intake = s.intake.erase i ∧
        tallyAt t n = some { v with discard := satAdd 0xFFFF v.discard 1 }) ∧
    (tallyOpenNow s v = true → h.job.toNat = yJob v.words → h.cls.toNat = yClass v.words → tallyLate s (noteInput s v i.arrival) = false →
      (∀ c op carry k all yes, (c, op, carry, all, yes) ∈ [(Instr.tallyArrive f, 0, false, 1, b2n (bit h.aux.toNat 0)),
          (.tallyCarry f, 2, true, leAt f.payload 0 4, leAt f.payload 4 4)] →
        tallyOpOf h = op → tallySlot v h carry = some k → yCounter v.words = false → h.epoch = v.gen → k ∉ v.arrived →
        k ∉ v.excised → v.carried = false →
        let marked : Tally :=
          { v with arrived := v.arrived ++ [k], all := satAdd Config.sat32 v.all all, yes := satAdd Config.sat32 v.yes yes }
        let y := noteInput s marked i.arrival
        (allArrived y = false → leads c s fun t => onlyChanges [.intake, .tallies] s t ∧ t.intake = s.intake.erase i ∧
          tallyAt t n = some y) ∧
        (allArrived y = true → yInner v.words = false → yAlign v.words = false → leads c s fun t =>
          onlyChanges (sendAreas s ++ [.host, .tallies, .jobFree]) s t ∧
          (yNotify v.words = true ∨ v.excisedMark = true → tallyPosted t n y (genStatus y) (toldNow s y 0)) ∧
          ∃ z, tallyAt t n = some z ∧ z.gen = v.gen + 1 ∧ z.arrived = [] ∧ z.all = 0 ∧ z.yes = 0 ∧ z.first = none ∧
            z.releasedAt = some s.now) ∧
        (allArrived y = true → yInner v.words = true → leads c s fun t =>
          onlyChanges (sendAreas s ++ [.host, .tallies, .jobFree]) s t ∧
          (reaches s (BitVec.ofNat 20 (yParent v.words)) → sent t 4 (BitVec.ofNat 20 (yParent v.words)) 0x20000000
            (padTo 32 (leBytes 4 y.all ++ leBytes 4 y.yes))) ∧
          ∃ z, tallyAt t n = some z ∧ z.gen = v.gen ∧ z.arrived = y.arrived ∧ z.carried = true ∧ z.timerAt = none)) ∧
      (tallyOpOf h = 1 → yCounter v.words = true →
        let y := noteInput s { v with count := (addCount v.count (toInt 24 (bits h.aux.toNat 23 0))).1 } i.arrival
        (y.count < (yThreshold v.words : Int) → leads (.tallyAdd f) s fun t =>
          onlyChanges [.host, .stats, .intake, .tallies, .fresh] s t ∧ tallyAt t n = some y) ∧
        ((yThreshold v.words : Int) ≤ y.count → v.releasedAt ≠ some s.now → leads (.tallyAdd f) s fun t =>
          onlyChanges (sendAreas s ++ [.host, .stats, .tallies, .jobFree]) s t ∧
          ∃ z, tallyAt t n = some z ∧ z.gen = v.gen + 1 ∧ z.count = max minCount (y.count - (yThreshold v.words : Int)) ∧
            z.releasedAt = some s.now)))

/-- A good TALLY_RELEASE that passes puts the inner tally it names into the generation after its own. A timer that expires on an incomplete
generation posts its event and runs again. A tick-class ROOT that has not released at its deadline posts LATE and begins its next
generation. -/
def Obligations.TallyGenerationsEnd : Prop :=
  ∀ (s : State) (tally : BitVec 12) (v : Tally), tallyAt s tally.toNat = some v →
    (∀ (port : BitVec 9) (f : Frame) (i : Intake), s.intake.find? (fun i => decide (i.frame = f ∧ i.port = port.toNat)) = some i →
      frameGood f = true → (headerOf f.hdr).type = 5 → (headerOf f.hdr).till = tally → yInner v.words = true →
      (headerOf f.hdr).job.toNat = yJob v.words → tallyOpenNow s v = true → leads (.tallyReleasePass port f) s fun t =>
        onlyChanges [.host, .stats, .ports, .frames, .stalled, .reorder, .doneMsgs, .blockCounts, .pools, .tandem, .dropping, .intake,
          .tallies, .faults, .fresh] s t ∧ tallyAt t tally.toNat = some (newGen v ((headerOf f.hdr).epoch + 1))) ∧
    (dueNow s v.timerAt = true → allArrived v = false → leads (.tallyTimerExpiry tally) s fun t =>
      onlyChanges [.host, .stats, .tallies, .fresh] s t ∧
      tallyAt t tally.toNat = some { v with timerAt := some (s.now + yTimeout v.words) }) ∧
    (tallyLate s v = true → leads (.tallyDeadline tally) s fun t => onlyChanges [.host, .stats, .ports, .tallies, .fresh] s t ∧
      tallyPosted t tally.toNat v stLate (toldNow s v (if yCounter v.words then (clearGen v).count else 0)) ∧
      ∃ z, tallyAt t tally.toNat = some z ∧ z.gen = v.gen + 1 ∧ z.arrived = [] ∧ z.first = none ∧ z.dueAt = none ∧ z.late = 0 ∧
        z.discard = 0 ∧ z.count = (clearGen v).count)

/-! ### Fabric memory (05) -/

/-- REGION_OPEN creates a region that keeps R137, with its initial contents, and is recorded; it waits while a stack of it trains. REGION_CLOSE of
a region that nothing uses or writes to frees its bytes and its number, and is refused otherwise. MEM_CONFIG without regions sets the staging buffers. -/
def Obligations.RegionsOpenAndClose : Prop :=
  ∀ (s : State) (ring : BitVec 6) (d : Desc),
    (∀ (words : List W64) (init : List Byte) (param : Option (List Byte)),
      let w := regionWords words
      admitted s ring d 0x28 (cringOf d.d0) (some (regJob w)) →
      (regionOk s w = false → leads (.regionOpen ring d words init param) s fun t => onlyChanges [.host, .fresh] s t ∧
        answered s t ring d (cringOf d.d0) (rNum w) stRefused 0 0) ∧
      (regionOk s w = true → (rVault w = true → param.isSome = true) → leads (.regionOpen ring d words init param) s fun t =>
        onlyChanges [.host, .mem, .hbm, .ledger, .fresh] s t ∧
        t.hbm.mem = (if rVault w || w.getD 6 0 == 0 then s.hbm.mem
          else memWrite (landAll s.hbm.mem s.hbm.writing) (rNum w * 2 ^ 39) (padTo (rBytes w) init)) ∧
        (awaitsStack s w = false → answered s t ring d (cringOf d.d0) (rNum w) stOk 0 0) ∧
        (∃ r, regionAt t (rNum w) = some r ∧ r.words = w ∧ r.waiting.isSome = awaitsStack s w ∧
          (rVault w = true → r.current = rVersion0 w ∧ r.param = param.map (padTo 64) ∧
            r.chunks = initChunks w (if w.getD 6 0 == 0 then [] else init))) ∧
        ∃ e, t.ledger.queue = enqueueChange s e ∧ e.kind = 0x15 ∧ e.target = BitVec.ofNat 64 (rNum w))) ∧
    (∀ r, regionAt s (objOf d) = some r → admitted s ring d 0x29 (cringOf d.d0) (some (regJob r.words)) →
      (boundTill s (objOf d) = none → r.transfers = 0 → r.gathers = 0 → r.waiting = none → (∀ j ∈ s.hbm.writing, j.region ≠ objOf d) →
        leads (.regionClose ring d) s fun t =>
        onlyChanges [.host, .mem, .hbm, .ledger, .fresh] s t ∧ answered s t ring d (cringOf d.d0) (objOf d) stOk 0 0 ∧
        regionAt t (objOf d) = none ∧ t.hbm.mem = s.hbm.mem.filter (fun e => e.1 / 2 ^ 39 != objOf d) ∧
        ∃ e, t.ledger.queue = enqueueChange s e ∧ e.kind = 0x15 ∧ e.target = BitVec.ofNat 64 (objOf d)) ∧
      ((boundTill s (objOf d)).isSome = true ∨ r.transfers ≠ 0 ∨ r.gathers ≠ 0 ∨ r.waiting.isSome = true ∨ (∃ j ∈ s.hbm.writing, j.region = objOf d) →
        leads (.regionClose ring d) s fun t =>
        onlyChanges [.host, .fresh] s t ∧ answered s t ring d (cringOf d.d0) (objOf d) stRefused 0 0)) ∧
    (admitted s ring d 0x2B (cringOf d.d0) none → isN s = false → s.hbm.regions = [] → s.pools.stagingUsed = 0 →
      leads (.memConfig ring d) s fun t => onlyChanges [.host, .pools, .ledger, .fresh] s t ∧
        answered s t ring d (cringOf d.d0) 0 stOk 0 0 ∧ t.pools = { s.pools with staging := fld d.d1 15 0, stagingOn := spread (fld d.d1 15 0) (readyStacks s) } ∧
        ∃ e, t.ledger.queue = enqueueChange s e ∧ e.kind = 0x15 ∧ e.target = 0xFFFF)

/-- MEM_COPY within the X7 writes the bytes or writes them to host memory, and refuses a length or address that R135 forbids; with another
X7 it begins a transfer of memory frames. VAULT_GATHER copies
a held version or answers STALE_VERSION; VAULT_QUERY copies the vault's state. A copy completes once its write has GO. -/
def Obligations.MemoryIsCopied : Prop :=
  ∀ (s : State) (ring : BitVec 6) (d : Desc),
    let copies := fun (t : State) (addr : Nat) (data : List Byte) =>
      hostWriting t addr data (.copy ring.toNat (tagOf d.d0)) ∧
        ∃ c ∈ t.host.ready, c.ring = some ring.toNat ∧ c.cring = cringOf d.d0 ∧ c.waits ≠ []
    (admitted s ring d 0x2A (cringOf d.d0) (some (fld d.d4 39 32)) → ∀ (data : List Byte) (chk : ReadCheck),
      let len := fld d.d4 31 0
      let addr := d.d3.toNat
      let acc := fun (p : Nat × Nat) =>
        ({ region := baRegion addr, off := baOff addr + p.1, len := p.2, job := fld d.d4 39 32, write := !bit d.d1.toNat 0,
           release := false, version := 0 } : Access)
      (len = 0 ∨ len % 32 ≠ 0 ∨ addr % 32 ≠ 0 ∨ boardOk s addr = false → leads (.memCopy ring d data chk) s fun t =>
        onlyChanges [.host, .fresh] s t ∧ answered s t ring d (cringOf d.d0) 0 stRefused 0 0) ∧
      (len ≠ 0 → len % 32 = 0 → addr % 32 = 0 → boardOk s addr = true → baPos addr ≠ ownPos s → leads (.memCopy ring d data chk) s fun t =>
        onlyChanges (sendAreas s ++ [.host, .hbm]) s t ∧ t.hbm.mem = s.hbm.mem ∧ ∃ id, ofind t.hbm.xfers id = some
          { by_ := acceptNow s ring.toNat d.d0 0, hostAddr := d.d2.toNat, toHost := bit d.d1.toNat 0, left := (pieces len).length,
            status := stOk, data := if bit d.d1.toNat 0 then List.replicate len 0 else [] }) ∧
      (len ≠ 0 → len % 32 = 0 → addr % 32 = 0 → boardOk s addr = true → baPos addr = ownPos s → ∀ st,
        ((pieces len).map fun p => localStatus s (acc p)).find? (fun st => st != msOk) = some st →
        leads (.memCopy ring d data chk) s fun t => onlyChanges [.host, .fresh] s t ∧
          answered s t ring d (cringOf d.d0) 0 (accessFails st) 0 0) ∧
      (len ≠ 0 → len % 32 = 0 → addr % 32 = 0 → boardOk s addr = true → baPos addr = ownPos s →
        (∀ p ∈ pieces len, localStatus s (acc p) = msOk) →
        (bit d.d1.toNat 0 = false → leads (.memCopy ring d data chk) s fun t => onlyChanges [.host, .mem, .hbm, .fresh] s t ∧
          answered s t ring d (cringOf d.d0) 0 stOk 0 0 ∧
          t.hbm.mem = memWrite (landAll s.hbm.mem s.hbm.writing) (baRegion addr * 2 ^ 39 + baOff addr) (padTo len data)) ∧
        (bit d.d1.toNat 0 = true → chk = .fail → leads (.memCopy ring d data chk) s fun t =>
          onlyChanges [.host, .stats, .blockCounts, .hbm, .bridge, .faults, .fresh] s t ∧ answered s t ring d (cringOf d.d0) 0 stDetect 0 0) ∧
        (bit d.d1.toNat 0 = true → chk = .first ∨ chk = .reread → s.faults.units = [] → leads (.memCopy ring d data chk) s fun t =>
          onlyChanges [.host, .stats, .blockCounts, .hbm, .bridge, .faults, .fresh] s t ∧
          copies t d.d2.toNat ((pieces len).map fun p => accessRead s (acc p)).flatten))) ∧
    (∀ r, regionAt s (objOf d) = some r → isN s = false → rVault r.words = true →
      let v := BitVec.ofNat 16 (fld d.d1 27 12)
      (admitted s ring d 0x2C (cringOf d.d0) (some (regJob r.words)) → r.waiting = none → fld d.d1 31 28 = 0 →
        (versionHeld r v = true → leads (.vaultGather ring d .fail) s fun t =>
          onlyChanges [.host, .stats, .blockCounts, .hbm, .bridge, .faults, .fresh] s t ∧ answered s t ring d (cringOf d.d0) (objOf d) stDetect 0 0) ∧
        (versionHeld r v = true → s.faults.units = [] → ∀ chk, chk = .first ∨ chk = .reread → leads (.vaultGather ring d chk) s fun t =>
          onlyChanges [.host, .stats, .blockCounts, .hbm, .bridge, .faults, .fresh] s t ∧
          copies t d.d2.toNat (pubCopy r v) ∧ regionAt t (objOf d) = some { r with gathers := r.gathers + 1 }) ∧
        (versionHeld r v = false → ∀ chk, leads (.vaultGather ring d chk) s fun t => onlyChanges [.host, .fresh] s t ∧
          answered s t ring d (cringOf d.d0) (objOf d) stStale 0 0)) ∧
      (admitted s ring d 0x2D (cringOf d.d0) (some (regJob r.words)) → leads (.vaultQuery ring d) s fun t =>
        onlyChanges [.host, .fresh] s t ∧ copies t d.d2.toNat (vaultState r)))

/-- A memory frame accepted in its turn is answered by MEM_RSP with its status: a read with the bytes of its region or version, a
release after it is counted; a read of a version being built is parked; a write is under way, done no earlier than those
before it, and its bytes stand once its time has come. A response, or a second timeout, ends a request: its command goes on,
or with the last completes with the status found. A first timeout sends the request again under another tag. -/
def Obligations.MemoryFramesAreAnswered : Prop :=
  ((∀ (s : State) (f : Frame) (i : Intake), frameGood f = true → s.intake.find? (fun i => decide (i.frame = f)) = some i →
    let h := headerOf f.hdr
    let a := accessOf h
    let st := accessStatus s a
    let aux := BitVec.ofNat 32 (h.aux.toNat / 1024 * 1024 + st)
    reaches s h.src →
    (h.type = 6 → isRelease f = false → readTurn s f = true →
      (st ≠ msOk → leads (.memRdReceive f .first) s fun t => onlyChanges (sendAreas s) s t ∧ sent t 8 h.src aux []) ∧
      (∀ r, st = msOk → regionAt s a.region = some r → s.faults.units = [] →
        (rVault r.words = true → versionHeld r a.version = true) → leads (.memRdReceive f .first) s fun t =>
          onlyChanges (sendAreas s) s t ∧ sent t 8 h.src aux (accessRead s a (some (h.src, h.cls.toNat)))) ∧
      (∀ r, st = msOk → regionAt s a.region = some r → rVault r.words = true → versionHeld r a.version = false →
        leads (.memRdReceive f .first) s fun t => onlyChanges [.intake, .hbm] s t ∧ t.intake = s.intake.erase i ∧
          regionAt t a.region = some { r with parked := r.parked ++ [(f, i.port)] })) ∧
    (∀ r, h.type = 6 → isRelease f = true → readTurn s f = true → st = msOk → regionAt s a.region = some r →
      leads (.versionRelease f) s fun t => onlyChanges (sendAreas s ++ [.hbm]) s t ∧ sent t 8 h.src aux [] ∧
      regionAt t a.region = some (releaseVersion r a.version h.rank.toNat)) ∧
    (h.type = 7 → writeTurn s f = true → leads (.memWrReceive f) s fun t =>
      onlyChanges (sendAreas s ++ if st = msOk then [.hbm] else []) s t ∧ sent t 8 h.src aux [] ∧
      (st = msOk → ∃ l j, t.hbm.writing = l ++ [j] ∧ j.src = h.src ∧ j.cls = h.cls.toNat ∧ j.region = a.region ∧
        j.off = a.off ∧ j.data = f.payload ∧ s.now ≤ j.from_ ∧ (∀ i ∈ l, i.doneAt ≤ j.doneAt) ∧
        (l.map fun i => { i with from_ := 0, doneAt := 0 }) = s.hbm.writing.map fun i => { i with from_ := 0, doneAt := 0 }))) ∧
  (∀ (s : State) (j : MemWrite), s.hbm.writing = [j] → j.doneAt ≤ s.now →
      (landWrites s).hbm.mem = memWrite s.hbm.mem (j.region * 2 ^ 39 + j.off) j.data ∧ (landWrites s).hbm.writing = [])) ∧
  (∀ (s : State) (tag : BitVec 16) (q : MemReq), ofind s.hbm.reqs tag.toNat = some q →
    (∀ c st data x id, q.for_ = .xfer id → ofind s.hbm.xfers id = some x → x.run = none → x.toHost = false →
      (∃ f, c = Instr.memRspReceive f ∧ goodFrame f 8 = true ∧ (headerOf f.hdr).seq = tag ∧
        st = (headerOf f.hdr).aux.toNat % 256 ∧ data = f.payload) ∨
      (c = .memRequestTimeout tag ∧ q.again = true ∧ q.sentAt + Config.memTimeout ≤ s.now ∧ st = msDetect ∧ data = []) →
      let status := if st = msOk then x.status else accessFails st
      (2 ≤ x.left → leads c s fun t => onlyChanges [.intake, .hbm] s t ∧ ofind t.hbm.reqs tag.toNat = none ∧
        ∃ y, ofind t.hbm.xfers id = some y ∧ y.left = x.left - 1 ∧ y.status = status ∧
          y.data = if st = msOk ∧ x.data ≠ [] then splice x.data q.place data else x.data) ∧
      (x.left = 1 → leads c s fun t => onlyChanges [.host, .intake, .hbm] s t ∧ ofind t.hbm.reqs tag.toNat = none ∧
        ofind t.hbm.xfers id = none ∧ posted t x.by_ (cringOf x.by_.d0) status 0 0)) ∧
    (q.again = false → q.sentAt + Config.memTimeout ≤ s.now → leads (.memRequestTimeout tag) s fun t =>
      onlyChanges (sendAreas s ++ [.hbm]) s t ∧
      ∃ new y, ofind t.hbm.reqs new = some y ∧ y.again = true ∧ y.sentAt = s.now ∧ y.for_ = q.for_ ∧ y.place = q.place ∧
        y.frame.payload = q.frame.payload))

/-- A previous version held past its limit is reclaimed and counted. The parameter block of the next version is kept, or its read is tried again later
with DMA_READ_ERROR. A stack that finishes its training is trained or failed, and a refresh issued lowers what is owed. -/
def Obligations.VersionsAndStacksProceed : Prop :=
  (∀ (s : State) (region : BitVec 12) (r : Region), regionAt s region.toNat = some r →
    (rVault r.words = true → r.prevHeld = true → rHoldLimit r.words ≠ 0 → r.prevAt + rHoldLimit r.words * 65536 ≤ s.now →
      releaseWaits s region.toNat r = false → leads (.versionReclaim region) s fun t => onlyChanges [.host, .stats, .hbm, .toss, .fresh] s t ∧
        regionAt t region.toNat = some { r with prevHeld := false } ∧
        sget 0 t.toss (regJob r.words * 4 + 3) = satAdd Config.sat48 (sget 0 s.toss (regJob r.words * 4 + 3)) 1) ∧
    (paramDue s r = true →
      (∀ b, leads (.paramBlockRead region (some b)) s fun t => onlyChanges [.hbm] s t ∧
        regionAt t region.toNat =
          some { r with param := some (padTo 64 b), paramTries := 0, paramFrom := paramAddr r.words (r.current + 1) }) ∧
      leads (.paramBlockRead region none) s fun t => onlyChanges [.host, .stats, .hbm, .fresh] s t ∧
        regionAt t region.toNat =
          some { r with paramTries := r.paramTries + 1, paramAt := s.now, paramFrom := paramAddr r.words (r.current + 1) } ∧
        bit (statAt t srcHost).status.toNat hbDmaRead = true ∧
        (r.paramTries = 16 → bit (statAt t srcHost).status.toNat hbParam = true))) ∧
  (∀ (s : State) (stack : BitVec 2) (st : Stack), s.hbm.stackOf[stack.toNat]? = some st →
    (∀ ok, hasStack s stack.toNat = true → st.training = true → leads (.hbmTrainingDone stack ok) s fun t =>
      onlyChanges [.boot, .host, .stats, .mem, .hbm, .fresh] s t ∧
      t.hbm.stackOf[stack.toNat]? = some { st with training := false, trained := ok, failed := !ok, refreshAt := s.now } ∧
      (ok = true → bit t.boot.ready.toNat (24 + stack.toNat) = true)) ∧
    (st.trained = true → inQuiet s stack.toNat = false →
      let due := (s.now - st.refreshAt) / refreshEvery st
      st.owed + due - 1 ≥ -8 → leads (.hbmRefresh stack) s fun t => onlyChanges [.hbm] s t ∧
        t.hbm.stackOf[stack.toNat]? = some { st with owed := st.owed + due - 1, refreshAt := st.refreshAt + due * refreshEvery st }))

/-! ### Relays (05 R160-R163) -/

/-- RELAY_OPEN of a free group with fields in range opens a relay; RELAY_CLOSE frees it. A RELAY frame whose copies need not wait leaves at once
to every receiver that wants it, and a staged block that no receiver wants any more is freed; another is staged when its buffers are held, and withholds credit when none can be had or STAGE_MAX is
reached; a ready receiver takes its next frame, and a block that stays missing is skipped and counted. -/
def Obligations.RelaysAct : Prop :=
  (∀ (s : State) (ring : BitVec 6) (d : Desc),
    let g := fld d.d1 15 0
    (∀ members : List W64, admitted s ring d 0x30 (cringOf d.d0) (some (fld d.d1 23 16)) → relayAt s g = none → groupEn s g = false →
      members.length = fld d.d1 36 26 → 2 ≤ members.length → members.length ≤ 1024 → 1 ≤ fld d.d2 24 0 → fld d.d2 24 0 ≤ 2 ^ 24 →
      1 ≤ fld d.d1 52 37 → 1 ≤ fld d.d3 12 0 → fld d.d3 12 0 ≤ 4096 → 1 ≤ fld d.d3 28 13 → (∀ w ∈ members, fld w 63 34 = 0) →
      distinct (members.map fun w => (memberOf w).1) = true → leads (.relayOpen ring d members) s fun t =>
        onlyChanges [.host, .relays, .fresh] s t ∧ answered s t ring d (cringOf d.d0) 0 stOk 0 0 ∧
        ∃ r, relayAt t g = some r ∧ r.job = fld d.d1 23 16 ∧ r.cls = fld d.d1 25 24 ∧ r.units = fld d.d2 24 0 ∧
          r.pace = fld d.d2 48 25 ∧ r.depth = fld d.d1 52 37 ∧ r.stageMax = fld d.d3 12 0 ∧ r.rtimeout = fld d.d3 28 13 ∧
          r.members = members.map memberOf ∧ r.staged = [] ∧ r.recv = List.replicate members.length {}) ∧
    (∀ r, relayAt s g = some r → admitted s ring d 0x31 (cringOf d.d0) (some r.job) → leads (.relayClose ring d) s fun t =>
      onlyChanges (poolAreas s ++ [.host, .ports, .pools, .relays, .jobFree, .fresh]) s t ∧
      answered s t ring d (cringOf d.d0) 0 stOk 0 0 ∧
      relayAt t g = none)) ∧
  (∀ (s : State) (port : BitVec 9) (f : Frame) (r : Relay) (snd : Nat),
    let h := headerOf f.hdr
    let g := h.dest.toNat % 65536
    goodFrame f 0xC = true → h.mc = 1 → relayAt s g = some r → h.job.toNat = r.job →
    firstIdx r.members.length (fun i => (r.members.getD i (0, 0)).2 == h.src.toNat) = some snd →
    let wants := fun j => stillWaits r { sender := snd, round := h.epoch, frames := [], units := 0 } j
    (∃ j < r.members.length, wants j = true) →
    let need := buffersFor (stagedBytes r + 32 * h.len.toNat)
    ((∀ j < r.members.length, wants j = true → goesNow s r snd f j = true) → leads (.relayFrameReceive port f) s fun t =>
      onlyChanges (sendAreas s ++ [.relays, .jobFree]) s t ∧
      (∃ y, relayAt t g = some y ∧ y.staged = r.staged.filter fun b => (List.range r.members.length).any (stillWaits y b)) ∧
      ∀ j < r.members.length, wants j = true → let dest := (relayHeader r j f).dest
        some dest ≠ ownEndpoint s → reaches s dest → sent t h.type dest h.aux f.payload) ∧
    ((∃ j < r.members.length, wants j = true ∧ goesNow s r snd f j = false) → need ≤ r.held.length →
      (r.held.length < r.stageMax → leads (.relayFrameReceive port f) s fun t => onlyChanges [.intake, .relays] s t ∧
        t.intake = (takeIntake s f).1.intake ∧ relayAt t g = some (stageFrame r snd h.epoch h.len.toNat f)) ∧
      (r.stageMax ≤ r.held.length → leads (.relayFrameReceive port f) s fun t => onlyChanges [.intake, .ports, .relays] s t ∧
        ∃ y, relayAt t g = some y ∧ y.staged = (stageFrame r snd h.epoch h.len.toNat f).staged ∧
          ∀ e ∈ s.ports, e.2.conf = true → pgOf e.1 = pgOf port.toNat → e.1 ∈ y.withheld)) ∧
    ((∃ j < r.members.length, wants j = true ∧ goesNow s r snd f j = false) → stageRoom 2 s r need (pgOf port.toNat) = none → leads (.relayFrameReceive port f) s fun t => onlyChanges [.ports, .relays] s t ∧
      ∃ y, relayAt t g = some y ∧ y.staged = r.staged ∧
        ∀ e ∈ s.ports, e.2.conf = true → pgOf e.1 = pgOf port.toNat → e.1 ∈ y.withheld)) ∧
  (∀ (s : State) (rgroup : BitVec 16) (j : Nat) (r : Relay), relayAt s rgroup.toNat = some r → j < r.members.length → j < r.recv.length →
    let v := r.recv.getD j {}
    (∀ f, nextFrame r j = some f →
      let dest := (relayHeader r j f).dest
      let units := (headerOf f.hdr).len.toNat
      let took := { v with done := v.done + units, paced := pacedNow s v + units, paceTick := s.tick.num }
      receiverReady s r j (relayHeader r j f) = true → leads (.relayCopySend rgroup j) s fun t =>
        onlyChanges (sendAreas s ++ [.relays, .jobFree]) s t ∧
        (some dest ≠ ownEndpoint s → reaches s dest → sent t (headerOf f.hdr).type dest (headerOf f.hdr).aux f.payload) ∧
        ∃ y, relayAt t rgroup.toNat = some y ∧
          y.recv.getD j {} = if v.done + units ≥ r.units then endBlock r s.now took else took) ∧
    (∀ c, v.lastAt = some c → nextFrame r j = none → c + r.rtimeout * 65536 ≤ s.now → leads (.relaySkip rgroup j) s fun t =>
      onlyChanges (poolAreas s ++ [.host, .stats, .ports, .pools, .relays, .toss, .jobFree, .fresh]) s t ∧
      sget 0 t.toss (r.job * 4 + 2) = satAdd Config.sat48 (sget 0 s.toss (r.job * 4 + 2)) 1 ∧
      ∃ y, relayAt t rgroup.toNat = some y ∧ y.recv.getD j {} = endBlock r s.now v))

/-! ### Rules of the whole machine -/

/-- Accumulands of a SUM combine as Table 2.9 gives: the classes, the exact sum of finite values, the lowest attributed rank of the non-finite ones
and none for a finite result; and the outcome over a set does not depend on order (02 R48). -/
def Obligations.SumsCombineInAnyOrder : Prop :=
  (∀ a b : Acc, sumForm a → sumForm b → a.empty = false → b.empty = false →
    (combine 0 a b).cls = (match a.cls, b.cls with
      | .fin, .fin => .fin
      | .fin, .pinf => .pinf
      | .fin, .ninf => .ninf
      | .fin, .nan => .nan
      | .pinf, .fin => .pinf
      | .pinf, .pinf => .pinf
      | .pinf, .ninf => .nan
      | .pinf, .nan => .nan
      | .ninf, .fin => .ninf
      | .ninf, .pinf => .nan
      | .ninf, .ninf => .ninf
      | .ninf, .nan => .nan
      | .nan, _ => .nan) ∧
    (a.cls = .fin → b.cls = .fin → (combine 0 a b).val = a.val + b.val ∧ (combine 0 a b).rank = 0) ∧
    (a.cls ≠ .fin → b.cls = .fin → (combine 0 a b).rank = a.rank) ∧ (a.cls = .fin → b.cls ≠ .fin → (combine 0 a b).rank = b.rank) ∧
    (a.cls ≠ .fin → b.cls ≠ .fin → (combine 0 a b).rank = min a.rank b.rank)) ∧
  (∀ l m : List Acc, l.Perm m → (∀ a ∈ l, sumForm a) → l.foldl (combine 0) Acc.zero = m.foldl (combine 0) Acc.zero)

/-- MAX and MIN, with their winner ranks, and a till's receipt do not depend on order either (02 R28, R49; 03 R82; 11 R321). -/
def Obligations.WinnersAndReceiptsInAnyOrder : Prop :=
  (∀ (op : Nat) (l m : List Acc), op = 1 ∨ op = 2 → l.Perm m → (∀ a ∈ l, maxForm a) →
    l.foldl (combine op) Acc.zero = m.foldl (combine op) Acc.zero) ∧
  (∀ (im : List Byte) (n : Counts) (a b : Nat × Chunk), a.2.st = .done → b.2.st = .done →
    (spill im b.1 b.2 (spill im a.1 a.2 n)).recLo = (spill im a.1 a.2 (spill im b.1 b.2 n)).recLo ∧
    (spill im b.1 b.2 (spill im a.1 a.2 n)).recHi = (spill im a.1 a.2 (spill im b.1 b.2 n)).recHi)

/-- An event that finds its ring full or not enabled is dropped; a drop on a full ring sets RING_OVERFLOW and adds 1 to LOST, which the next
record carries and resets; the cause that posts it goes on at once (13 R389). -/
def Obligations.EventsAreNeverDelayed : Prop :=
  ∀ (s : State) (src code job unit d0 d1 : Nat) (more : Option (Nat × Nat × Nat)),
    let e := bits s.host.evroute.toNat (2 * eventClass src + 1) (2 * eventClass src)
    let r := evRing s e
    let rs := eventRecords s r.lost src code job unit d0 d1 more
    (ringEn r.ctl = false → postEvent s src code job unit d0 d1 more = s) ∧
    (ringEn r.ctl = true → ringRoom s 2 e r rs.length = false →
      let h := bits s.host.evroute.toNat (2 * eventClass srcHost + 1) (2 * eventClass srcHost)
      let t := postEvent s src code job unit d0 d1 more
      onlyChanges [.host, .stats, .fresh] s t ∧ (e ≠ h → evRing t e = { r with lost := satAdd 0xFFFF r.lost 1 }) ∧
      (e = h → ringRoom s 2 e r 1 = false → evRing t e = { r with lost := satAdd 0xFFFF (satAdd 0xFFFF r.lost 1) 1 }) ∧
      bit (statAt t srcHost).status.toNat hbOverflow = true) ∧
    (ringEn r.ctl = true → ringRoom s 2 e r rs.length = true →
      let t := postEvent s src code job unit d0 d1 more
      onlyChanges [.host, .fresh] s t ∧ (evRing t e).lost = 0 ∧
      (evRing t e).wi = r.wi + BitVec.ofNat 32 (rs.length + b2n (needsPad r rs.length)) ∧
      (needsPad r rs.length = false → hostWriting t (r.base.toNat / 4096 * 4096 + 32 * (r.wi.toNat % ringSize r.ctl))
        (bytesOf (withPhase (rs.headD []) (phaseOf r.wi (ringLog r.ctl)))) (.event e)) ∧
      ∀ w ∈ s.host.writes, w.1 < s.fresh → w ∈ t.host.writes)

/-- The bridge carries at most 12,288 bytes to a die in a cycle, and at most 11,264 of them in classes other than TC7 (01 R14). A copy of a
table entry that was found to fail is rewritten from the other, or no longer used when it fails again; a frame that needs an entry of which
both fail is discarded with reason 0x12, and a new entry is written to both (12 R335). A cell that failed is tested, and fenced if it fails
again (R336). A flit that cannot be corrected loses the contribution it carried, and sixteen within 65,536 cycles are reported (R337). The
failures stand in the state; no command brings one about (model's choice: log 52). -/
def Obligations.BridgeAndFailuresAct : Prop :=
  (∀ (s : State) (die : Nat), sumNat ((granted s die).map (·.2)) ≤ 12288 ∧
    sumNat (((granted s die).filter fun x => x.1.cls != 7).map (·.2)) ≤ 11264) ∧
  (∀ (s : State) (f : EntryFault) (c : Nat), mapsCanonical s → s.faults.entries = [f] → f.unused = false → f.found = some c → c < s.now →
    let t := tableCycle s
    onlyChanges [.host, .stats, .blockCounts, .faults, .fresh] s t ∧
    (f.hard = false → t.faults.entries = [] ∧ bit (statAt t (srcCore f.die)).status.toNat coreTransient = true) ∧
    (f.hard = true → t.faults.entries = [{ f with unused := true }] ∧ bit (statAt t (srcCore f.die)).status.toNat coreLasting = true)) ∧
  (∀ (s : State) (p : Nat) (h : Header) (e : Nat × Nat), linkAllows (portAt s p).link.st (portAt s p).plan h = true → formOk h = true →
    (isEdge s p = true → x7Only h.type = false ∧ (h.type ≠ 0xC ∨ h.mc ≠ 0)) → (isEdge s p = false → isRankAddr h = false) →
    e ∈ needed s p h → bothFail s e.1 e.2 = true → inputCheck s p h = .error 0x12) ∧
  (∀ (s : State) (tid i : Nat) (e : List W64), (∀ f ∈ s.faults.entries, f.tid = tid → f.idx = i → f.hard = false) →
    ∀ c, copyFails (setActive s tid i e) tid i c = false) ∧
  (∀ (s : State) (b : Held) (c : CellFault), mapsCanonical s →
    (c.hard = true → sget 0 (testCell s b c).pools.cellsFenced b.slice = sget 0 s.pools.cellsFenced b.slice + 1 ∧
      bit (statAt (testCell s b c) (srcPg b.slice)).status.toNat 10 = true) ∧
    (c.hard = false → (testCell s b c).pools = s.pools ∧ bit (statAt (testCell s b c) (srcPg b.slice)).status.toNat 9 = true)) ∧
  (∀ (s : State) (die port arrival : Nat), mapsCanonical s → (∃ i ∈ s.intake, i.port = port ∧ i.arrival = arrival) →
    let t := uncorrectable s die (.input port arrival)
    t.intake = s.intake.filter (fun i => i.port != port || i.arrival != arrival) ∧
    sget 0 (portAt t port).counters (rBadTrailer - 1) = satAdd Config.sat32 (sget 0 (portAt s port).counters (rBadTrailer - 1)) 1 ∧
    bit (statAt t (srcCore die)).status.toNat coreUncorr = true ∧
    (15 ≤ (s.bridge.uncorr.filter fun x => x.1 == die && decide (s.now < x.2 + 65536)).length →
      bit (statAt t (srcCore die)).status.toNat coreBridge = true))

/-- A change of a strap pin after the sample sets CHANGED and writes a STRAPS entry with the sampled value as OLD and the new levels as NEW, and
does nothing else (15 R412). -/
def Obligations.StrapChangeIsRecorded : Prop :=
  ∀ (s : State) (pins : BitVec 14), s.boot.sampled = true → pins ≠ s.boot.pins → leads (.strapChange pins) s fun t =>
    onlyChanges [.boot, .ledger] s t ∧ t.boot = { s.boot with pins := pins } ∧
    (bit (strapPins t).toNat 31 = true ↔ pins ≠ s.boot.strap) ∧ bits (strapPins t).toNat 13 0 = pins.toNat ∧
    ∃ e, t.ledger.queue = enqueueChange s e ∧ e.kind = 0x01 ∧ e.raw = true ∧ e.origin = BitVec.ofNat 8 oStrap ∧
      e.old = padTo 16 (leBytes 16 (strapValue s).toNat) ∧ e.new = padTo 16 (leBytes 16 pins.toNat)

/-- A scale table that holds 0xFF, and a MAX or MIN till with weights, are refused when the till is opened (02 R38, R41). A
command that names a free object, other than one that opens it, completes with ADMISSION_REFUSED and changes nothing (13
R374). -/
def Obligations.BadOpeningsAndFreeObjectsAreRefused : Prop :=
  (∀ (s : State) (ring : BitVec 6) (d : Desc) (obj : TillObj), admitted s ring d 0x10 (tCring obj.words) (some (tJob obj.words)) →
    (tMode obj.words = 2 ∧ (0xFF : Byte) ∈ padTo (tBlocks obj.words) obj.scales) ∨ (tOp obj.words ≠ 0 ∧ tWeighted obj.words = true) →
    leads (.tillOpen ring d obj) s fun t => onlyChanges [.host, .fresh] s t ∧
      answered s t ring d (tCring obj.words) (tTill obj.words) stRefused 0 0) ∧
  (∀ (s : State) (ring : BitVec 6) (d : Desc),
    (∀ c op, (c, op) ∈ [(Instr.tillClose ring d, 0x11), (.tillAbort ring d, 0x12), (.tillSave ring d, 0x13), (.tillResume ring d, 0x15),
        (.tillExcise ring d, 0x16)] →
      tillAt s (objOf d) = none → admitted s ring d op (cringOf d.d0) none → leads c s fun t =>
        onlyChanges [.host, .fresh] s t ∧ answered s t ring d (cringOf d.d0) (objOf d) stRefused 0 0) ∧
    (∀ c op, (c, op) ∈ [(Instr.tallyClose ring d, 0x19), (.tallyAbort ring d, 0x1A), (.tallyExcise ring d, 0x1B)] →
      tallyAt s (objOf d) = none → admitted s ring d op (cringOf d.d0) none → leads c s fun t =>
        onlyChanges [.host, .fresh] s t ∧ answered s t ring d (cringOf d.d0) (objOf d) stRefused 0 0) ∧
    (∀ c op chk, (c, op) ∈ [(Instr.regionClose ring d, 0x29), (.vaultGather ring d chk, 0x2C), (.vaultQuery ring d, 0x2D)] →
      regionAt s (objOf d) = none → admitted s ring d op (cringOf d.d0) none → leads c s fun t =>
        onlyChanges [.host, .fresh] s t ∧ answered s t ring d (cringOf d.d0) (objOf d) stRefused 0 0) ∧
    (relayAt s (fld d.d1 15 0) = none → admitted s ring d 0x31 (cringOf d.d0) none → leads (.relayClose ring d) s fun t =>
      onlyChanges [.host, .fresh] s t ∧ answered s t ring d (cringOf d.d0) 0 stRefused 0 0) ∧
    (progAt s (fld d.d1 7 0) = none → admitted s ring d 0x21 (cringOf d.d0) none → leads (.progUnload ring d) s fun t =>
      onlyChanges [.host, .fresh] s t ∧ answered s t ring d (cringOf d.d0) 0 stRefused 0 0))
end

