-- ==== Sys2Proof/Laws/Memory.lean ====
section
/-! SUPPORT. Sparse maps and fabric memory: a read after a write, and the canonical form that every memory operation keeps. -/

namespace Sys2Proof.Laws

open Sys2Proof.Machine

/-- No key of a map is at or below a bound. -/
def above {α : Type} (k : Nat) (m : Sparse α) : Prop := ∀ e ∈ m, k < e.1

theorem rising_cons {α : Type} {a : Nat} {v : α} {m : Sparse α} : rising ((a, v) :: m) = true ↔ above a m ∧ rising m = true := by
  induction m generalizing a v with
  | nil => simp [rising, above]
  | cons e m ih =>
    obtain ⟨b, w⟩ := e
    simp only [rising, Bool.and_eq_true, decide_eq_true_eq]
    constructor
    · rintro ⟨h, h2⟩
      refine ⟨?_, h2⟩
      intro e he
      rcases List.mem_cons.1 he with rfl | he
      · exact h
      · exact Nat.lt_trans h ((ih.1 h2).1 e he)
    · rintro ⟨h, h2⟩
      exact ⟨h (b, w) (by simp), h2⟩

theorem canon_cons {α : Type} [DecidableEq α] {d : α} {a : Nat} {v : α} {m : Sparse α} :
    canon d ((a, v) :: m) = true ↔ above a m ∧ v ≠ d ∧ canon d m = true := by
  simp only [canon, Bool.and_eq_true, rising_cons, noDefault, List.all_cons, decide_eq_true_eq]
  tauto

theorem above_sput {α : Type} [DecidableEq α] {d : α} {m : Sparse α} {b k : Nat} {v : α} (h : above b m) (hk : b < k) :
    above b (sput d m k v) := by
  induction m with
  | nil => unfold sput; split <;> simp [above, hk]
  | cons e m ih =>
    obtain ⟨a, w⟩ := e
    have hm : above b m := fun e he => h e (by simp [he])
    have ha : b < a := h (a, w) (by simp)
    unfold sput
    split
    · split
      · exact h
      · intro e he; rcases List.mem_cons.1 he with rfl | he
        · exact hk
        · exact h e he
    · split
      · split
        · exact hm
        · intro e he; rcases List.mem_cons.1 he with rfl | he
          · exact hk
          · exact hm e he
      · intro e he; rcases List.mem_cons.1 he with rfl | he
        · exact ha
        · exact ih hm e he

/-- A write keeps keys rising. -/
theorem rising_sput {α : Type} [DecidableEq α] {d : α} {m : Sparse α} {k : Nat} {v : α} (h : rising m = true) :
    rising (sput d m k v) = true := by
  induction m with
  | nil => unfold sput; split <;> rfl
  | cons e m ih =>
    obtain ⟨a, w⟩ := e
    have h' := rising_cons.1 h
    unfold sput
    split
    · next hk =>
      split
      · exact h
      · refine rising_cons.2 ⟨?_, h⟩
        intro e he; rcases List.mem_cons.1 he with rfl | he
        · exact hk
        · exact Nat.lt_trans hk (h'.1 e he)
    · next hk =>
      split
      · next he =>
        split
        · exact h'.2
        · exact rising_cons.2 ⟨he ▸ h'.1, h'.2⟩
      · next he => exact rising_cons.2 ⟨above_sput h'.1 (by omega), ih h'.2⟩

/-- A write keeps the canonical form. -/
theorem canon_sput {α : Type} [DecidableEq α] {d : α} {m : Sparse α} {k : Nat} {v : α} (h : canon d m = true) :
    canon d (sput d m k v) = true := by
  induction m with
  | nil =>
    unfold sput; split
    · rfl
    · next hv => simp [canon, rising, noDefault, hv]
  | cons e m ih =>
    obtain ⟨a, w⟩ := e
    have h' := canon_cons.1 h
    unfold sput
    split
    · next hk =>
      split
      · exact h
      · next hv =>
        refine canon_cons.2 ⟨?_, hv, h⟩
        intro e he; rcases List.mem_cons.1 he with rfl | he
        · exact hk
        · exact Nat.lt_trans hk (h'.1 e he)
    · split
      · next hk =>
        split
        · exact h'.2.2
        · next hv => exact canon_cons.2 ⟨hk ▸ h'.1, hv, h'.2.2⟩
      · next h1 h2 => exact canon_cons.2 ⟨above_sput h'.1 (by omega), h'.2.1, ih h'.2.2⟩

/-- Dropping entries keeps the canonical form. -/
theorem canon_filter {α : Type} [DecidableEq α] {d : α} {m : Sparse α} (p : Nat × α → Bool) (h : canon d m = true) :
    canon d (m.filter p) = true := by
  induction m with
  | nil => rfl
  | cons e m ih =>
    obtain ⟨a, w⟩ := e
    have h' := canon_cons.1 h
    simp only [List.filter_cons]
    split
    · exact canon_cons.2 ⟨fun e he => h'.1 e (List.mem_filter.1 he).1, h'.2.1, ih h'.2.2⟩
    · exact ih h'.2.2

theorem rising_map {α : Type} {m : Sparse α} (f : Nat × α → α) (h : rising m = true) :
    rising (m.map fun e => (e.1, f e)) = true := by
  induction m with
  | nil => rfl
  | cons e m ih =>
    obtain ⟨a, w⟩ := e
    have h' := rising_cons.1 h
    refine rising_cons.2 ⟨?_, ih h'.2⟩
    intro e he
    obtain ⟨x, hx, rfl⟩ := List.mem_map.1 he
    exact h'.1 x hx

theorem rising_filter {α : Type} {m : Sparse α} (p : Nat × α → Bool) (h : rising m = true) : rising (m.filter p) = true := by
  induction m with
  | nil => rfl
  | cons e m ih =>
    obtain ⟨a, w⟩ := e
    have h' := rising_cons.1 h
    simp only [List.filter_cons]
    split
    · exact rising_cons.2 ⟨fun e he => h'.1 e (List.mem_filter.1 he).1, ih h'.2⟩
    · exact ih h'.2

/-- A change of every value, the default then left out, keeps the canonical form. -/
theorem canon_mapVals {α : Type} [DecidableEq α] {d : α} {m : Sparse α} {f : Nat × α → α} (h : canon d m = true) :
    canon d (canonMap d (m.map fun e => (e.1, f e))) = true := by
  simp only [canon, Bool.and_eq_true] at *
  refine ⟨rising_filter _ (rising_map f h.1), ?_⟩
  simp only [noDefault, canonMap, List.all_eq_true, decide_eq_true_eq]
  intro e he
  simpa using (List.mem_filter.1 he).2

/-- Writing bytes keeps fabric memory canonical. -/
theorem memWrite_wf {m : Sparse Byte} {a : Nat} {l : List Byte} (h : Memory.wf m = true) : Memory.wf (memWrite m a l) = true := by
  induction l generalizing m a with
  | nil => exact h
  | cons b l ih => exact ih (canon_sput h)

theorem sget_above {α : Type} {d : α} {m : Sparse α} {k : Nat} (h : above k m) : sget d m k = d := by
  induction m with
  | nil => rfl
  | cons e m ih =>
    obtain ⟨a, w⟩ := e
    have : k < a := h (a, w) (by simp)
    simp only [sget, show ¬(a = k) by omega, if_false]
    exact ih fun e he => h e (by simp [he])

/-- A read after a write to the same key gives the value written, where keys rise. -/
theorem sget_sput_rising {α : Type} [DecidableEq α] {d : α} {m : Sparse α} {k : Nat} {v : α} (h : rising m = true) :
    sget d (sput d m k v) k = v := by
  induction m with
  | nil => unfold sput; split <;> simp_all [sget]
  | cons e m ih =>
    obtain ⟨a, w⟩ := e
    have h' := rising_cons.1 h
    unfold sput
    split
    · next hk =>
      split
      · next hv =>
        rw [hv]; exact sget_above fun e he => by
          rcases List.mem_cons.1 he with rfl | he
          · exact hk
          · exact Nat.lt_trans hk (h'.1 e he)
      · simp [sget]
    · split
      · next hk =>
        split
        · next hv => rw [hv]; exact sget_above (hk ▸ h'.1)
        · simp [sget]
      · next h1 h2 =>
        simp only [sget, show ¬(a = k) by omega, if_false]
        exact ih h'.2

/-- A read after a write to the same key gives the value written. -/
theorem sget_sput_same {α : Type} [DecidableEq α] {d : α} {m : Sparse α} {k : Nat} {v : α} (h : canon d m = true) :
    sget d (sput d m k v) k = v := sget_sput_rising (Bool.and_eq_true_iff.1 h).1

/-- The same for a value that is not the default, in any map. -/
theorem sget_sput_ne {α : Type} [DecidableEq α] {d : α} {m : Sparse α} {k : Nat} {v : α} (hv : v ≠ d) :
    sget d (sput d m k v) k = v := by
  induction m with
  | nil => simp [sput, hv, sget]
  | cons e m ih =>
    obtain ⟨a, w⟩ := e
    unfold sput
    split
    · simp [sget]
    · split
      · simp [sget]
      · next h1 h2 => simp only [sget, show ¬(a = k) by omega, if_false]; exact ih

/-- A write leaves every other key alone. -/
theorem sget_sput_other {α : Type} [DecidableEq α] {d : α} {m : Sparse α} {k j : Nat} {v : α} (hj : j ≠ k) :
    sget d (sput d m k v) j = sget d m j := by
  induction m with
  | nil => unfold sput; split <;> simp [sget, Ne.symm hj]
  | cons e m ih =>
    obtain ⟨a, w⟩ := e
    unfold sput
    split
    · split
      · rfl
      · simp [sget, Ne.symm hj]
    · split
      · next hk =>
        subst hk
        split
        · simp [sget, Ne.symm hj]
        · simp [sget, Ne.symm hj]
      · simp only [sget]
        split
        · rfl
        · exact ih

theorem sget_memWrite_other {m : Sparse Byte} {a j : Nat} {l : List Byte} (hj : j < a ∨ a + l.length ≤ j) :
    sget 0 (memWrite m a l) j = sget 0 m j := by
  induction l generalizing m a with
  | nil => rfl
  | cons b l ih =>
    have hl : (b :: l).length = l.length + 1 := rfl
    rw [memWrite, ih (by omega), sget_sput_other (by omega)]

theorem sget_memWrite_same {m : Sparse Byte} {a i : Nat} {l : List Byte} (h : Memory.wf m = true) (hi : i < l.length) :
    sget 0 (memWrite m a l) (a + i) = l.getD i 0 := by
  induction l generalizing m a i with
  | nil => simp at hi
  | cons b l ih =>
    cases i with
    | zero => rw [Nat.add_zero, memWrite, sget_memWrite_other (by omega), sget_sput_same h]; rfl
    | succ i =>
      rw [memWrite, show a + (i + 1) = (a + 1) + i by omega, ih (canon_sput h) (by simpa using hi)]; rfl

/-- What was written is read back. -/
theorem memRead_memWrite {m : Sparse Byte} {a : Nat} {l : List Byte} (h : Memory.wf m = true) :
    memRead (memWrite m a l) a l.length = l := by
  unfold memRead
  refine List.ext_getElem (by simp) fun i h1 h2 => ?_
  simp only [List.getElem_map, List.getElem_range]
  rw [sget_memWrite_same h h2, List.getD_eq_getElem?_getD, List.getElem?_eq_getElem h2]; rfl

theorem ofind_oins_same {α : Type} (m : Sparse α) (k : Nat) (v : α) : ofind (oins m k v) k = some v := by
  induction m with
  | nil => simp [oins, ofind]
  | cons e m ih =>
    obtain ⟨a, w⟩ := e
    unfold oins
    split
    · simp [ofind]
    · split
      · simp [ofind]
      · next h1 h2 =>
        simp only [ofind, List.find?_cons, show (a == k) = false by simp; omega] at *
        exact ih

theorem ofind_oins_other {α : Type} (m : Sparse α) {k j : Nat} (v : α) (h : j ≠ k) : ofind (oins m k v) j = ofind m j := by
  induction m with
  | nil => simp [oins, ofind, Ne.symm h]
  | cons e m ih =>
    obtain ⟨a, w⟩ := e
    unfold oins
    split
    · simp [ofind, show (k == j) = false by simp; omega]
    · split
      · next hk => subst hk; simp [ofind, show (k == j) = false by simp; omega]
      · simp only [ofind, List.find?_cons] at *
        split
        · rfl
        · exact ih

theorem ofind_odel_same {α : Type} (m : Sparse α) (k : Nat) : ofind (odel m k) k = none := by
  simp [ofind, odel, List.find?_eq_none]

theorem ofind_odel_other {α : Type} (m : Sparse α) {k j : Nat} (h : j ≠ k) : ofind (odel m k) j = ofind m j := by
  simp only [ofind, odel, List.find?_filter]
  congr 1
  induction m with
  | nil => rfl
  | cons e m ih =>
    simp only [List.find?_cons]
    by_cases he : e.1 = j
    · simp [he, h]
    · simpa [beq_eq_false_iff_ne.2 he] using ih

end Sys2Proof.Laws
end

