-- ==== Sys2Proof/Laws/Moves.lean ====
section
/-! SUPPORT. The relation Moves: what a part of the state may change and that fabric memory keeps its canonical form. The files of
Laws/Moves/ prove it once for every operation and every meaning. -/

namespace Sys2Proof.Laws

open Sys2Proof.Machine Sys2Proof.Safety

/-- Every area of the first list is in the second. -/
def sub (l m : List Area) : Bool := l.all fun p => decide (p ∈ m)

theorem sub_trans {l m n : List Area} (h : sub l m = true) (h' : sub m n = true) : sub l n = true := by
  simp only [sub, List.all_eq_true, decide_eq_true_eq] at *
  exact fun p hp => h' p (h p hp)

/-- From s to t only the listed areas may change, and fabric memory and the registers kept in maps stay canonical. -/
structure Moves (l : List Area) (s t : State) : Prop where
  only : onlyChanges l s t
  mem : memCanonical s → memCanonical t
  maps : mapsCanonical s → mapsCanonical t

/-- The command answers a next state, reached by such a change. -/
def Runs (l : List Area) (s : State) (r : Res) : Prop := ∃ t, r = .next t ∧ Moves l s t

theorem same_trans {s t u : State} {p : Area} (h : same s t p) (h' : same t u p) : same s u p := by
  cases p <;> exact Eq.trans h' h

theorem Moves.refl (l : List Area) (s : State) : Moves l s s := ⟨fun p _ => by cases p <;> rfl, id, id⟩

theorem Moves.trans {l m s t u} (h : Moves l s t) (h' : Moves m t u) (hs : sub m l = true) : Moves l s u :=
  ⟨fun p hp => same_trans (h.only p hp)
    (h'.only p (fun hm => hp (by simpa using List.all_eq_true.1 hs p hm))), 
    fun w => h'.mem (h.mem w), fun w => h'.maps (h.maps w)⟩

theorem Runs.next {l s t} (h : Moves l s t) : Runs l s (.next t) := ⟨t, rfl, h⟩

theorem fst_of_eq {β : Type} {l s t} {a : State × β} {b : β} (e : a = (t, b)) (h : Moves l s a.1) : Moves l s t := by
  subst e; exact h

theorem snd_of_eq {β : Type} {l s t} {a : β × State} {b : β} (e : a = (b, t)) (h : Moves l s a.2) : Moves l s t := by
  subst e; exact h

theorem ite_moves {l s a b} {c : Prop} [Decidable c] (ha : c → Moves l s a) (hb : ¬c → Moves l s b) :
    Moves l s (if c then a else b) := by
  by_cases h : c
  · rw [if_pos h]; exact ha h
  · rw [if_neg h]; exact hb h

theorem ite_snd_moves {β : Type} {l s} {a b : β × State} {c : Prop} [Decidable c] (ha : c → Moves l s a.2)
    (hb : ¬c → Moves l s b.2) : Moves l s (if c then a else b).2 := by
  by_cases h : c
  · rw [if_pos h]; exact ha h
  · rw [if_neg h]; exact hb h

theorem ite_fst_moves {β : Type} {l s} {a b : State × β} {c : Prop} [Decidable c] (ha : c → Moves l s a.1)
    (hb : ¬c → Moves l s b.1) : Moves l s (if c then a else b).1 := by
  by_cases h : c
  · rw [if_pos h]; exact ha h
  · rw [if_neg h]; exact hb h

theorem foldl_moves {α : Type} {l : List Area} {s0 : State} {g : State → α → State} {xs : List α} {s : State}
    (h : Moves l s0 s) (hg : ∀ t x, Moves l s0 t → Moves l s0 (g t x)) : Moves l s0 (xs.foldl g s) := by
  induction xs generalizing s with
  | nil => exact h
  | cons x xs ih => exact ih (hg s x h)

theorem foldl_fst_moves {α β : Type} {l : List Area} {s0 : State} {g : State × β → α → State × β} {xs : List α}
    {a : State × β} (h : Moves l s0 a.1) (hg : ∀ t x, Moves l s0 t.1 → Moves l s0 (g t x).1) :
    Moves l s0 (xs.foldl g a).1 := by
  induction xs generalizing a with
  | nil => exact h
  | cons x xs ih => exact ih (hg a x h)

theorem side_hostSame {h k : HostIf} (h1 : k.cmd = h.cmd) (h2 : k.cpl = h.cpl) (h3 : k.ev = h.ev) (h4 : k.watch = h.watch)
    (w : hostMaps h) : hostMaps k := by
  unfold hostMaps at *
  rw [h1, h2, h3, h4]; exact w

theorem side_map {α : Type} [DecidableEq α] {d : α} {m : Sparse α} {f : Nat × α → α} :
    canon d m = true → canon d (canonMap d (m.map fun e => (e.1, f e))) = true := canon_mapVals

theorem side_hostMap {h k : HostIf} {f : Nat × CmdRing → CmdRing} (hc : k.cmd = canonMap {} (h.cmd.map fun e => (e.1, f e)))
    (h2 : k.cpl = h.cpl) (h3 : k.ev = h.ev) (h4 : k.watch = h.watch) (w : hostMaps h) : hostMaps k := by
  unfold hostMaps at *
  rw [hc, h2, h3, h4]; exact ⟨canon_mapVals w.1, w.2⟩

theorem side_host4 {h k : HostIf} {f : Nat × CmdRing → CmdRing} {g g' : Nat × OutRing → OutRing}
    {e : Nat × Watch → Watch}
    (h1 : k.cmd = canonMap {} (h.cmd.map fun x => (x.1, f x))) (h2 : k.cpl = canonMap {} (h.cpl.map fun x => (x.1, g x)))
    (h3 : k.ev = canonMap {} (h.ev.map fun x => (x.1, g' x)))
    (h4 : k.watch = canonMap {} (h.watch.map fun x => (x.1, e x))) (w : hostMaps h) : hostMaps k := by
  unfold hostMaps at *
  rw [h1, h2, h3, h4]
  exact ⟨canon_mapVals w.1, canon_mapVals w.2.1, canon_mapVals w.2.2.1, canon_mapVals w.2.2.2⟩

theorem side_tables {t v : Tables} (e : v.active = t.active) (w : rising t.active = true) : rising v.active = true := by
  rw [e]; exact w

theorem side_nil {α : Type} [DecidableEq α] {d : α} {m : Sparse α} (_ : canon d m = true) : canon d ([] : Sparse α) = true := rfl

theorem upd_blockCounts {l s t} {v_blockCounts} (h : Moves l s t) (hs : sub [.blockCounts] l = true) :
    Moves l s { t with blockCounts := v_blockCounts } :=
  h.trans ⟨fun p hp => by cases p <;> first | rfl | exact absurd (by decide) hp, id, fun w => ⟨w.1, w.2.1, w.2.2.1, w.2.2.2.1, w.2.2.2.2.1, w.2.2.2.2.2⟩⟩ hs

theorem upd_boot {l s t} {v_boot} (h : Moves l s t) (hs : sub [.boot] l = true) :
    Moves l s { t with boot := v_boot } :=
  h.trans ⟨fun p hp => by cases p <;> first | rfl | exact absurd (by decide) hp, id, fun w => ⟨w.1, w.2.1, w.2.2.1, w.2.2.2.1, w.2.2.2.2.1, w.2.2.2.2.2⟩⟩ hs

theorem upd_bridge {l s t} {v_bridge} (h : Moves l s t) (hs : sub [.bridge] l = true) :
    Moves l s { t with bridge := v_bridge } :=
  h.trans ⟨fun p hp => by cases p <;> first | rfl | exact absurd (by decide) hp, id, fun w => ⟨w.1, w.2.1, w.2.2.1, w.2.2.2.1, w.2.2.2.2.1, w.2.2.2.2.2⟩⟩ hs

theorem upd_ctxs {l s t} {v_ctxs} (h : Moves l s t) (hs : sub [.ctxs] l = true) (hctxs : canon {} t.ctxs = true → canon {} v_ctxs = true) :
    Moves l s { t with ctxs := v_ctxs } :=
  h.trans ⟨fun p hp => by cases p <;> first | rfl | exact absurd (by decide) hp, id, fun w => ⟨w.1, w.2.1, w.2.2.1, w.2.2.2.1, w.2.2.2.2.1, hctxs w.2.2.2.2.2⟩⟩ hs

theorem upd_doneMsgs {l s t} {v_doneMsgs} (h : Moves l s t) (hs : sub [.doneMsgs] l = true) :
    Moves l s { t with doneMsgs := v_doneMsgs } :=
  h.trans ⟨fun p hp => by cases p <;> first | rfl | exact absurd (by decide) hp, id, fun w => ⟨w.1, w.2.1, w.2.2.1, w.2.2.2.1, w.2.2.2.2.1, w.2.2.2.2.2⟩⟩ hs

theorem upd_dropping {l s t} {v_dropping} (h : Moves l s t) (hs : sub [.dropping] l = true) :
    Moves l s { t with dropping := v_dropping } :=
  h.trans ⟨fun p hp => by cases p <;> first | rfl | exact absurd (by decide) hp, id, fun w => ⟨w.1, w.2.1, w.2.2.1, w.2.2.2.1, w.2.2.2.2.1, w.2.2.2.2.2⟩⟩ hs

theorem upd_faults {l s t} {v_faults} (h : Moves l s t) (hs : sub [.faults] l = true) :
    Moves l s { t with faults := v_faults } :=
  h.trans ⟨fun p hp => by cases p <;> first | rfl | exact absurd (by decide) hp, id, fun w => ⟨w.1, w.2.1, w.2.2.1, w.2.2.2.1, w.2.2.2.2.1, w.2.2.2.2.2⟩⟩ hs

theorem upd_frames {l s t} {v_frames} (h : Moves l s t) (hs : sub [.frames] l = true) :
    Moves l s { t with frames := v_frames } :=
  h.trans ⟨fun p hp => by cases p <;> first | rfl | exact absurd (by decide) hp, id, fun w => ⟨w.1, w.2.1, w.2.2.1, w.2.2.2.1, w.2.2.2.2.1, w.2.2.2.2.2⟩⟩ hs

theorem upd_fresh {l s t} {v_fresh} (h : Moves l s t) (hs : sub [.fresh] l = true) :
    Moves l s { t with fresh := v_fresh } :=
  h.trans ⟨fun p hp => by cases p <;> first | rfl | exact absurd (by decide) hp, id, fun w => ⟨w.1, w.2.1, w.2.2.1, w.2.2.2.1, w.2.2.2.2.1, w.2.2.2.2.2⟩⟩ hs

theorem upd_hbm {l s t} {v_hbm} (h : Moves l s t) (hs : sub [.hbm] l = true) (hm : v_hbm.mem = t.hbm.mem) :
    Moves l s { t with hbm := v_hbm } :=
  h.trans ⟨fun p hp => by cases p <;> first | rfl | exact absurd (by decide) hp | exact hm, (congrArg (fun m => Memory.wf m = true) hm).mpr, fun w => ⟨w.1, w.2.1, w.2.2.1, w.2.2.2.1, w.2.2.2.2.1, w.2.2.2.2.2⟩⟩ hs

theorem upd_host {l s t} {v_host} (h : Moves l s t) (hs : sub [.host] l = true) (hhost : hostMaps t.host → hostMaps v_host) :
    Moves l s { t with host := v_host } :=
  h.trans ⟨fun p hp => by cases p <;> first | rfl | exact absurd (by decide) hp, id, fun w => ⟨w.1, w.2.1, w.2.2.1, hhost w.2.2.2.1, w.2.2.2.2.1, w.2.2.2.2.2⟩⟩ hs

theorem upd_intake {l s t} {v_intake} (h : Moves l s t) (hs : sub [.intake] l = true) :
    Moves l s { t with intake := v_intake } :=
  h.trans ⟨fun p hp => by cases p <;> first | rfl | exact absurd (by decide) hp, id, fun w => ⟨w.1, w.2.1, w.2.2.1, w.2.2.2.1, w.2.2.2.2.1, w.2.2.2.2.2⟩⟩ hs

theorem upd_jobFree {l s t} {v_jobFree} (h : Moves l s t) (hs : sub [.jobFree] l = true) :
    Moves l s { t with jobFree := v_jobFree } :=
  h.trans ⟨fun p hp => by cases p <;> first | rfl | exact absurd (by decide) hp, id, fun w => ⟨w.1, w.2.1, w.2.2.1, w.2.2.2.1, w.2.2.2.2.1, w.2.2.2.2.2⟩⟩ hs

theorem upd_lanes {l s t} {v_lanes} (h : Moves l s t) (hs : sub [.lanes] l = true) (hlanes : canon {} t.lanes = true → canon {} v_lanes = true) :
    Moves l s { t with lanes := v_lanes } :=
  h.trans ⟨fun p hp => by cases p <;> first | rfl | exact absurd (by decide) hp, id, fun w => ⟨w.1, hlanes w.2.1, w.2.2.1, w.2.2.2.1, w.2.2.2.2.1, w.2.2.2.2.2⟩⟩ hs

theorem upd_ledger {l s t} {v_ledger} (h : Moves l s t) (hs : sub [.ledger] l = true) :
    Moves l s { t with ledger := v_ledger } :=
  h.trans ⟨fun p hp => by cases p <;> first | rfl | exact absurd (by decide) hp, id, fun w => ⟨w.1, w.2.1, w.2.2.1, w.2.2.2.1, w.2.2.2.2.1, w.2.2.2.2.2⟩⟩ hs

theorem upd_meters {l s t} {v_meters} (h : Moves l s t) (hs : sub [.meters] l = true) :
    Moves l s { t with meters := v_meters } :=
  h.trans ⟨fun p hp => by cases p <;> first | rfl | exact absurd (by decide) hp, id, fun w => ⟨w.1, w.2.1, w.2.2.1, w.2.2.2.1, w.2.2.2.2.1, w.2.2.2.2.2⟩⟩ hs

theorem upd_now {l s t} {v_now} (h : Moves l s t) (hs : sub [.now] l = true) :
    Moves l s { t with now := v_now } :=
  h.trans ⟨fun p hp => by cases p <;> first | rfl | exact absurd (by decide) hp, id, fun w => ⟨w.1, w.2.1, w.2.2.1, w.2.2.2.1, w.2.2.2.2.1, w.2.2.2.2.2⟩⟩ hs

theorem upd_parsing {l s t} {v_parsing} (h : Moves l s t) (hs : sub [.parsing] l = true) :
    Moves l s { t with parsing := v_parsing } :=
  h.trans ⟨fun p hp => by cases p <;> first | rfl | exact absurd (by decide) hp, id, fun w => ⟨w.1, w.2.1, w.2.2.1, w.2.2.2.1, w.2.2.2.2.1, w.2.2.2.2.2⟩⟩ hs

theorem upd_pending {l s t} {v_pending} (h : Moves l s t) (hs : sub [.pending] l = true) :
    Moves l s { t with pending := v_pending } :=
  h.trans ⟨fun p hp => by cases p <;> first | rfl | exact absurd (by decide) hp, id, fun w => ⟨w.1, w.2.1, w.2.2.1, w.2.2.2.1, w.2.2.2.2.1, w.2.2.2.2.2⟩⟩ hs

theorem upd_pools {l s t} {v_pools} (h : Moves l s t) (hs : sub [.pools] l = true) :
    Moves l s { t with pools := v_pools } :=
  h.trans ⟨fun p hp => by cases p <;> first | rfl | exact absurd (by decide) hp, id, fun w => ⟨w.1, w.2.1, w.2.2.1, w.2.2.2.1, w.2.2.2.2.1, w.2.2.2.2.2⟩⟩ hs

theorem upd_ports {l s t} {v_ports} (h : Moves l s t) (hs : sub [.ports] l = true) (hports : canon {} t.ports = true → canon {} v_ports = true) :
    Moves l s { t with ports := v_ports } :=
  h.trans ⟨fun p hp => by cases p <;> first | rfl | exact absurd (by decide) hp, id, fun w => ⟨hports w.1, w.2.1, w.2.2.1, w.2.2.2.1, w.2.2.2.2.1, w.2.2.2.2.2⟩⟩ hs

theorem upd_progs {l s t} {v_progs} (h : Moves l s t) (hs : sub [.progs] l = true) :
    Moves l s { t with progs := v_progs } :=
  h.trans ⟨fun p hp => by cases p <;> first | rfl | exact absurd (by decide) hp, id, fun w => ⟨w.1, w.2.1, w.2.2.1, w.2.2.2.1, w.2.2.2.2.1, w.2.2.2.2.2⟩⟩ hs

theorem upd_refused {l s t} {v_refused} (h : Moves l s t) (hs : sub [.refused] l = true) :
    Moves l s { t with refused := v_refused } :=
  h.trans ⟨fun p hp => by cases p <;> first | rfl | exact absurd (by decide) hp, id, fun w => ⟨w.1, w.2.1, w.2.2.1, w.2.2.2.1, w.2.2.2.2.1, w.2.2.2.2.2⟩⟩ hs

theorem upd_relays {l s t} {v_relays} (h : Moves l s t) (hs : sub [.relays] l = true) :
    Moves l s { t with relays := v_relays } :=
  h.trans ⟨fun p hp => by cases p <;> first | rfl | exact absurd (by decide) hp, id, fun w => ⟨w.1, w.2.1, w.2.2.1, w.2.2.2.1, w.2.2.2.2.1, w.2.2.2.2.2⟩⟩ hs

theorem upd_reorder {l s t} {v_reorder} (h : Moves l s t) (hs : sub [.reorder] l = true) :
    Moves l s { t with reorder := v_reorder } :=
  h.trans ⟨fun p hp => by cases p <;> first | rfl | exact absurd (by decide) hp, id, fun w => ⟨w.1, w.2.1, w.2.2.1, w.2.2.2.1, w.2.2.2.2.1, w.2.2.2.2.2⟩⟩ hs

theorem upd_shapers {l s t} {v_shapers} (h : Moves l s t) (hs : sub [.shapers] l = true) :
    Moves l s { t with shapers := v_shapers } :=
  h.trans ⟨fun p hp => by cases p <;> first | rfl | exact absurd (by decide) hp, id, fun w => ⟨w.1, w.2.1, w.2.2.1, w.2.2.2.1, w.2.2.2.2.1, w.2.2.2.2.2⟩⟩ hs

theorem upd_spdm {l s t} {v_spdm} (h : Moves l s t) (hs : sub [.spdm] l = true) :
    Moves l s { t with spdm := v_spdm } :=
  h.trans ⟨fun p hp => by cases p <;> first | rfl | exact absurd (by decide) hp, id, fun w => ⟨w.1, w.2.1, w.2.2.1, w.2.2.2.1, w.2.2.2.2.1, w.2.2.2.2.2⟩⟩ hs

theorem upd_stalled {l s t} {v_stalled} (h : Moves l s t) (hs : sub [.stalled] l = true) :
    Moves l s { t with stalled := v_stalled } :=
  h.trans ⟨fun p hp => by cases p <;> first | rfl | exact absurd (by decide) hp, id, fun w => ⟨w.1, w.2.1, w.2.2.1, w.2.2.2.1, w.2.2.2.2.1, w.2.2.2.2.2⟩⟩ hs

theorem upd_stats {l s t} {v_stats} (h : Moves l s t) (hs : sub [.stats] l = true) (hstats : canon {} t.stats = true → canon {} v_stats = true) :
    Moves l s { t with stats := v_stats } :=
  h.trans ⟨fun p hp => by cases p <;> first | rfl | exact absurd (by decide) hp, id, fun w => ⟨w.1, w.2.1, hstats w.2.2.1, w.2.2.2.1, w.2.2.2.2.1, w.2.2.2.2.2⟩⟩ hs

theorem upd_tables {l s t} {v_tables} (h : Moves l s t) (hs : sub [.tables] l = true) (htables : rising t.tables.active = true → rising v_tables.active = true) :
    Moves l s { t with tables := v_tables } :=
  h.trans ⟨fun p hp => by cases p <;> first | rfl | exact absurd (by decide) hp, id, fun w => ⟨w.1, w.2.1, w.2.2.1, w.2.2.2.1, htables w.2.2.2.2.1, w.2.2.2.2.2⟩⟩ hs

theorem upd_tallies {l s t} {v_tallies} (h : Moves l s t) (hs : sub [.tallies] l = true) :
    Moves l s { t with tallies := v_tallies } :=
  h.trans ⟨fun p hp => by cases p <;> first | rfl | exact absurd (by decide) hp, id, fun w => ⟨w.1, w.2.1, w.2.2.1, w.2.2.2.1, w.2.2.2.2.1, w.2.2.2.2.2⟩⟩ hs

theorem upd_tandem {l s t} {v_tandem} (h : Moves l s t) (hs : sub [.tandem] l = true) :
    Moves l s { t with tandem := v_tandem } :=
  h.trans ⟨fun p hp => by cases p <;> first | rfl | exact absurd (by decide) hp, id, fun w => ⟨w.1, w.2.1, w.2.2.1, w.2.2.2.1, w.2.2.2.2.1, w.2.2.2.2.2⟩⟩ hs

theorem upd_tick {l s t} {v_tick} (h : Moves l s t) (hs : sub [.tick] l = true) :
    Moves l s { t with tick := v_tick } :=
  h.trans ⟨fun p hp => by cases p <;> first | rfl | exact absurd (by decide) hp, id, fun w => ⟨w.1, w.2.1, w.2.2.1, w.2.2.2.1, w.2.2.2.2.1, w.2.2.2.2.2⟩⟩ hs

theorem upd_tiles {l s t} {v_tiles} (h : Moves l s t) (hs : sub [.tiles] l = true) :
    Moves l s { t with tiles := v_tiles } :=
  h.trans ⟨fun p hp => by cases p <;> first | rfl | exact absurd (by decide) hp, id, fun w => ⟨w.1, w.2.1, w.2.2.1, w.2.2.2.1, w.2.2.2.2.1, w.2.2.2.2.2⟩⟩ hs

theorem upd_tills {l s t} {v_tills} (h : Moves l s t) (hs : sub [.tills] l = true) :
    Moves l s { t with tills := v_tills } :=
  h.trans ⟨fun p hp => by cases p <;> first | rfl | exact absurd (by decide) hp, id, fun w => ⟨w.1, w.2.1, w.2.2.1, w.2.2.2.1, w.2.2.2.2.1, w.2.2.2.2.2⟩⟩ hs

theorem upd_toss {l s t} {v_toss} (h : Moves l s t) (hs : sub [.toss] l = true) :
    Moves l s { t with toss := v_toss } :=
  h.trans ⟨fun p hp => by cases p <;> first | rfl | exact absurd (by decide) hp, id, fun w => ⟨w.1, w.2.1, w.2.2.1, w.2.2.2.1, w.2.2.2.2.1, w.2.2.2.2.2⟩⟩ hs

theorem upd_blockCounts_tandem {l s t} {v_blockCounts} {v_tandem} (h : Moves l s t) (hs : sub [.blockCounts, .tandem] l = true) :
    Moves l s { t with blockCounts := v_blockCounts, tandem := v_tandem } :=
  h.trans ⟨fun p hp => by cases p <;> first | rfl | exact absurd (by decide) hp, id, fun w => ⟨w.1, w.2.1, w.2.2.1, w.2.2.2.1, w.2.2.2.2.1, w.2.2.2.2.2⟩⟩ hs

theorem upd_boot_ledger {l s t} {v_boot} {v_ledger} (h : Moves l s t) (hs : sub [.boot, .ledger] l = true) :
    Moves l s { t with boot := v_boot, ledger := v_ledger } :=
  h.trans ⟨fun p hp => by cases p <;> first | rfl | exact absurd (by decide) hp, id, fun w => ⟨w.1, w.2.1, w.2.2.1, w.2.2.2.1, w.2.2.2.2.1, w.2.2.2.2.2⟩⟩ hs

theorem upd_boot_spdm {l s t} {v_boot} {v_spdm} (h : Moves l s t) (hs : sub [.boot, .spdm] l = true) :
    Moves l s { t with boot := v_boot, spdm := v_spdm } :=
  h.trans ⟨fun p hp => by cases p <;> first | rfl | exact absurd (by decide) hp, id, fun w => ⟨w.1, w.2.1, w.2.2.1, w.2.2.2.1, w.2.2.2.2.1, w.2.2.2.2.2⟩⟩ hs

theorem upd_boot_tick {l s t} {v_boot} {v_tick} (h : Moves l s t) (hs : sub [.boot, .tick] l = true) :
    Moves l s { t with boot := v_boot, tick := v_tick } :=
  h.trans ⟨fun p hp => by cases p <;> first | rfl | exact absurd (by decide) hp, id, fun w => ⟨w.1, w.2.1, w.2.2.1, w.2.2.2.1, w.2.2.2.2.1, w.2.2.2.2.2⟩⟩ hs

theorem upd_hbm_fresh {l s t} {v_hbm} {v_fresh} (h : Moves l s t) (hs : sub [.hbm, .fresh] l = true) (hm : v_hbm.mem = t.hbm.mem) :
    Moves l s { t with hbm := v_hbm, fresh := v_fresh } :=
  h.trans ⟨fun p hp => by cases p <;> first | rfl | exact absurd (by decide) hp | exact hm, (congrArg (fun m => Memory.wf m = true) hm).mpr, fun w => ⟨w.1, w.2.1, w.2.2.1, w.2.2.2.1, w.2.2.2.2.1, w.2.2.2.2.2⟩⟩ hs

theorem upd_intake_fresh {l s t} {v_intake} {v_fresh} (h : Moves l s t) (hs : sub [.intake, .fresh] l = true) :
    Moves l s { t with intake := v_intake, fresh := v_fresh } :=
  h.trans ⟨fun p hp => by cases p <;> first | rfl | exact absurd (by decide) hp, id, fun w => ⟨w.1, w.2.1, w.2.2.1, w.2.2.2.1, w.2.2.2.2.1, w.2.2.2.2.2⟩⟩ hs

theorem upd_now_boot {l s t} {v_now} {v_boot} (h : Moves l s t) (hs : sub [.now, .boot] l = true) :
    Moves l s { t with now := v_now, boot := v_boot } :=
  h.trans ⟨fun p hp => by cases p <;> first | rfl | exact absurd (by decide) hp, id, fun w => ⟨w.1, w.2.1, w.2.2.1, w.2.2.2.1, w.2.2.2.2.1, w.2.2.2.2.2⟩⟩ hs

theorem upd_now_intake {l s t} {v_now} {v_intake} (h : Moves l s t) (hs : sub [.now, .intake] l = true) :
    Moves l s { t with now := v_now, intake := v_intake } :=
  h.trans ⟨fun p hp => by cases p <;> first | rfl | exact absurd (by decide) hp, id, fun w => ⟨w.1, w.2.1, w.2.2.1, w.2.2.2.1, w.2.2.2.2.1, w.2.2.2.2.2⟩⟩ hs

theorem upd_now_parsing {l s t} {v_now} {v_parsing} (h : Moves l s t) (hs : sub [.now, .parsing] l = true) :
    Moves l s { t with now := v_now, parsing := v_parsing } :=
  h.trans ⟨fun p hp => by cases p <;> first | rfl | exact absurd (by decide) hp, id, fun w => ⟨w.1, w.2.1, w.2.2.1, w.2.2.2.1, w.2.2.2.2.1, w.2.2.2.2.2⟩⟩ hs

theorem upd_pools_faults {l s t} {v_pools} {v_faults} (h : Moves l s t) (hs : sub [.pools, .faults] l = true) :
    Moves l s { t with pools := v_pools, faults := v_faults } :=
  h.trans ⟨fun p hp => by cases p <;> first | rfl | exact absurd (by decide) hp, id, fun w => ⟨w.1, w.2.1, w.2.2.1, w.2.2.2.1, w.2.2.2.2.1, w.2.2.2.2.2⟩⟩ hs

theorem upd_ports_frames {l s t} {v_ports} {v_frames} (h : Moves l s t) (hs : sub [.ports, .frames] l = true) (hports : canon {} t.ports = true → canon {} v_ports = true) :
    Moves l s { t with ports := v_ports, frames := v_frames } :=
  h.trans ⟨fun p hp => by cases p <;> first | rfl | exact absurd (by decide) hp, id, fun w => ⟨hports w.1, w.2.1, w.2.2.1, w.2.2.2.1, w.2.2.2.2.1, w.2.2.2.2.2⟩⟩ hs

theorem upd_reorder_intake {l s t} {v_reorder} {v_intake} (h : Moves l s t) (hs : sub [.reorder, .intake] l = true) :
    Moves l s { t with reorder := v_reorder, intake := v_intake } :=
  h.trans ⟨fun p hp => by cases p <;> first | rfl | exact absurd (by decide) hp, id, fun w => ⟨w.1, w.2.1, w.2.2.1, w.2.2.2.1, w.2.2.2.2.1, w.2.2.2.2.2⟩⟩ hs

theorem upd_spdm_doe {l s t} {v_spdm} {v_doe} (h : Moves l s t) (hs : sub [.spdm, .doe] l = true) :
    Moves l s { t with spdm := v_spdm, doe := v_doe } :=
  h.trans ⟨fun p hp => by cases p <;> first | rfl | exact absurd (by decide) hp, id, fun w => ⟨w.1, w.2.1, w.2.2.1, w.2.2.2.1, w.2.2.2.2.1, w.2.2.2.2.2⟩⟩ hs

theorem upd_tick_ports {l s t} {v_tick} {v_ports} (h : Moves l s t) (hs : sub [.tick, .ports] l = true) (hports : canon {} t.ports = true → canon {} v_ports = true) :
    Moves l s { t with tick := v_tick, ports := v_ports } :=
  h.trans ⟨fun p hp => by cases p <;> first | rfl | exact absurd (by decide) hp, id, fun w => ⟨hports w.1, w.2.1, w.2.2.1, w.2.2.2.1, w.2.2.2.2.1, w.2.2.2.2.2⟩⟩ hs

theorem upd_tiles_fresh {l s t} {v_tiles} {v_fresh} (h : Moves l s t) (hs : sub [.tiles, .fresh] l = true) :
    Moves l s { t with tiles := v_tiles, fresh := v_fresh } :=
  h.trans ⟨fun p hp => by cases p <;> first | rfl | exact absurd (by decide) hp, id, fun w => ⟨w.1, w.2.1, w.2.2.1, w.2.2.2.1, w.2.2.2.2.1, w.2.2.2.2.2⟩⟩ hs

theorem upd_tables_host_frames_stalled_reorder_doneMsgs_pools_tandem_dropping_intake_parsing_tills_tallies_progs_ctxs_tiles_hbm_faults_bridge_relays_spdm {l s t} {v_tables} {v_host} {v_frames} {v_stalled} {v_reorder} {v_doneMsgs} {v_pools} {v_tandem} {v_dropping} {v_intake} {v_parsing} {v_tills} {v_tallies} {v_progs} {v_ctxs} {v_tiles} {v_hbm} {v_faults} {v_bridge} {v_relays} {v_spdm} (h : Moves l s t) (hs : sub [.tables, .host, .frames, .stalled, .reorder, .doneMsgs, .pools, .tandem, .dropping, .intake, .parsing, .tills, .tallies, .progs, .ctxs, .tiles, .hbm, .faults, .bridge, .relays, .spdm] l = true) (hm : v_hbm.mem = t.hbm.mem) (hctxs : canon {} t.ctxs = true → canon {} v_ctxs = true) (htables : rising t.tables.active = true → rising v_tables.active = true) (hhost : hostMaps t.host → hostMaps v_host) :
    Moves l s { t with tables := v_tables, host := v_host, frames := v_frames, stalled := v_stalled, reorder := v_reorder, doneMsgs := v_doneMsgs, pools := v_pools, tandem := v_tandem, dropping := v_dropping, intake := v_intake, parsing := v_parsing, tills := v_tills, tallies := v_tallies, progs := v_progs, ctxs := v_ctxs, tiles := v_tiles, hbm := v_hbm, faults := v_faults, bridge := v_bridge, relays := v_relays, spdm := v_spdm } :=
  h.trans ⟨fun p hp => by cases p <;> first | rfl | exact absurd (by decide) hp | exact hm, (congrArg (fun m => Memory.wf m = true) hm).mpr, fun w => ⟨w.1, w.2.1, w.2.2.1, hhost w.2.2.2.1, htables w.2.2.2.2.1, hctxs w.2.2.2.2.2⟩⟩ hs

end Sys2Proof.Laws
end

