-- ==== Sys2Proof/Laws/Moves/Ops.lean ====
section
/-! SUPPORT. What the operations of Machine/Ops.lean may change: one lemma each. -/

set_option linter.unusedTactic false
set_option linter.unreachableTactic false
set_option linter.unusedVariables false

namespace Sys2Proof.Laws

open Sys2Proof.Machine Sys2Proof.Safety

theorem setPort_moves {ll ss} {s : State} {p : Nat} {v : Port} (hh : Moves ll ss s) (hsub : sub [.ports] ll = true) : Moves ll ss (setPort s p v) :=
  upd_ports hh hsub fun h => canon_sput h

theorem modPort_moves {ll ss} {s : State} {p : Nat} {f : Port → Port} (hh : Moves ll ss s) (hsub : sub [.ports] ll = true) :
    Moves ll ss (modPort s p f) := by
  refine hh.trans ?_ hsub; unfold modPort
  repeat' (first | with_reducible assumption | with_reducible exact Moves.refl _ _ | with_reducible exact rfl | exact rfl |  (intro _) | with_reducible refine setPort_moves ?_ ?_ | with_reducible refine ite_moves ?_ ?_ | with_reducible refine ite_snd_moves ?_ ?_ | with_reducible refine ite_fst_moves ?_ ?_ | split | refine fst_of_eq (by assumption) ?_ | refine snd_of_eq (by assumption) ?_ | dsimp only)

theorem setLane_moves {ll ss} {s : State} {n : Nat} {v : Lane} (hh : Moves ll ss s) (hsub : sub [.lanes] ll = true) : Moves ll ss (setLane s n v) :=
  upd_lanes hh hsub fun h => canon_sput h

theorem setStat_moves {ll ss} {s : State} {src : Nat} {v : Stat} (hh : Moves ll ss s) (hsub : sub [.stats] ll = true) : Moves ll ss (setStat s src v) :=
  upd_stats hh hsub fun h => canon_sput h

theorem setCmdRing_moves {ll ss} {s : State} {n : Nat} {r : CmdRing} (hh : Moves ll ss s) (hsub : sub [.host] ll = true) : Moves ll ss (setCmdRing s n r) :=
  upd_host hh hsub fun h => ⟨canon_sput h.1, h.2⟩

theorem serveRing_moves {ll ss} {s : State} {n : Nat} {r : CmdRing} (hh : Moves ll ss s) (hsub : sub [.host] ll = true) : Moves ll ss (serveRing s n r) :=
  upd_host hh hsub fun h => ⟨canon_sput h.1, h.2⟩

theorem setCplRing_moves {ll ss} {s : State} {n : Nat} {r : OutRing} (hh : Moves ll ss s) (hsub : sub [.host] ll = true) : Moves ll ss (setCplRing s n r) :=
  upd_host hh hsub fun h => ⟨h.1, canon_sput h.2.1, h.2.2⟩

theorem setEvRing_moves {ll ss} {s : State} {n : Nat} {r : OutRing} (hh : Moves ll ss s) (hsub : sub [.host] ll = true) : Moves ll ss (setEvRing s n r) :=
  upd_host hh hsub fun h => ⟨h.1, h.2.1, canon_sput h.2.2.1, h.2.2.2⟩

theorem setWatch_moves {ll ss} {s : State} {k : Nat} {w : Watch} (hh : Moves ll ss s) (hsub : sub [.host] ll = true) : Moves ll ss (setWatch s k w) :=
  upd_host hh hsub fun h => ⟨h.1, h.2.1, h.2.2.1, canon_sput h.2.2.2⟩

theorem setTill_moves {ll ss} {s : State} {t : Nat} {v : Till} (hh : Moves ll ss s) (hsub : sub [.tills] ll = true) :
    Moves ll ss (setTill s t v) := by
  refine hh.trans ?_ hsub; unfold setTill
  repeat' (first | with_reducible assumption | with_reducible exact Moves.refl _ _ | with_reducible exact rfl | exact rfl |  (intro _) | with_reducible refine ite_moves ?_ ?_ | with_reducible refine ite_snd_moves ?_ ?_ | with_reducible refine ite_fst_moves ?_ ?_ | split | refine fst_of_eq (by assumption) ?_ | refine snd_of_eq (by assumption) ?_ | with_reducible refine upd_tills ?_ ?_ | dsimp only)

theorem setTally_moves {ll ss} {s : State} {t : Nat} {v : Tally} (hh : Moves ll ss s) (hsub : sub [.tallies] ll = true) :
    Moves ll ss (setTally s t v) := by
  refine hh.trans ?_ hsub; unfold setTally
  repeat' (first | with_reducible assumption | with_reducible exact Moves.refl _ _ | with_reducible exact rfl | exact rfl |  (intro _) | with_reducible refine ite_moves ?_ ?_ | with_reducible refine ite_snd_moves ?_ ?_ | with_reducible refine ite_fst_moves ?_ ?_ | split | refine fst_of_eq (by assumption) ?_ | refine snd_of_eq (by assumption) ?_ | with_reducible refine upd_tallies ?_ ?_ | dsimp only)

theorem setRegion_moves {ll ss} {s : State} {r : Nat} {v : Region} (hh : Moves ll ss s) (hsub : sub [.hbm] ll = true) :
    Moves ll ss (setRegion s r v) := by
  refine hh.trans ?_ hsub; unfold setRegion
  repeat' (first | with_reducible assumption | with_reducible exact Moves.refl _ _ | with_reducible exact rfl | exact rfl |  (intro _) | with_reducible refine ite_moves ?_ ?_ | with_reducible refine ite_snd_moves ?_ ?_ | with_reducible refine ite_fst_moves ?_ ?_ | split | refine fst_of_eq (by assumption) ?_ | refine snd_of_eq (by assumption) ?_ | with_reducible refine upd_hbm ?_ ?_ rfl | dsimp only)

theorem setCtx_moves {ll ss} {s : State} {k : Nat} {c : Ctx} (hh : Moves ll ss s) (hsub : sub [.ctxs] ll = true) : Moves ll ss (setCtx s k c) :=
  upd_ctxs hh hsub fun h => canon_sput h

theorem setRelay_moves {ll ss} {s : State} {g : Nat} {r : Relay} (hh : Moves ll ss s) (hsub : sub [.relays] ll = true) :
    Moves ll ss (setRelay s g r) := by
  refine hh.trans ?_ hsub; unfold setRelay
  repeat' (first | with_reducible assumption | with_reducible exact Moves.refl _ _ | with_reducible exact rfl | exact rfl |  (intro _) | with_reducible refine ite_moves ?_ ?_ | with_reducible refine ite_snd_moves ?_ ?_ | with_reducible refine ite_fst_moves ?_ ?_ | split | refine fst_of_eq (by assumption) ?_ | refine snd_of_eq (by assumption) ?_ | with_reducible refine upd_relays ?_ ?_ | dsimp only)

theorem takeFresh_moves {ll ss} {s : State} (hh : Moves ll ss s) (hsub : sub [.fresh] ll = true) :
    Moves ll ss (takeFresh s).2 := by
  refine hh.trans ?_ hsub; unfold takeFresh
  repeat' (first | with_reducible assumption | with_reducible exact Moves.refl _ _ | with_reducible exact rfl | exact rfl |  (intro _) | with_reducible refine ite_moves ?_ ?_ | with_reducible refine ite_snd_moves ?_ ?_ | with_reducible refine ite_fst_moves ?_ ?_ | split | refine fst_of_eq (by assumption) ?_ | refine snd_of_eq (by assumption) ?_ | with_reducible refine upd_fresh ?_ ?_ | dsimp only)

theorem hostWrite_moves {ll ss} {s : State} {addr : Nat} {data : List Byte} {kind : WriteKind} (hh : Moves ll ss s) (hsub : sub [.host, .fresh] ll = true) :
    Moves ll ss (hostWrite s addr data kind).2 := by
  refine hh.trans ?_ hsub; unfold hostWrite
  repeat' (first | with_reducible assumption | with_reducible exact Moves.refl _ _ | with_reducible exact rfl | exact rfl | ((fail_if_success (show Moves _ _ _)); first | exact side_hostSame rfl rfl rfl rfl | exact side_tables rfl | exact side_nil | exact side_map | exact side_hostMap rfl rfl rfl rfl | exact side_host4 rfl rfl rfl rfl) |  (intro _) | with_reducible refine takeFresh_moves ?_ ?_ | with_reducible refine ite_moves ?_ ?_ | with_reducible refine ite_snd_moves ?_ ?_ | with_reducible refine ite_fst_moves ?_ ?_ | split | refine fst_of_eq (by assumption) ?_ | refine snd_of_eq (by assumption) ?_ | with_reducible refine upd_host ?_ ?_ ?_ | dsimp only)

theorem raiseVector_moves {ll ss} {s : State} {v : Nat} (hh : Moves ll ss s) (hsub : sub [.host] ll = true) :
    Moves ll ss (raiseVector s v) := by
  refine hh.trans ?_ hsub; unfold raiseVector
  repeat' (first | with_reducible assumption | with_reducible exact Moves.refl _ _ | with_reducible exact rfl | exact rfl | ((fail_if_success (show Moves _ _ _)); first | exact side_hostSame rfl rfl rfl rfl | exact side_tables rfl | exact side_nil | exact side_map | exact side_hostMap rfl rfl rfl rfl | exact side_host4 rfl rfl rfl rfl) |  (intro _) | with_reducible refine ite_moves ?_ ?_ | with_reducible refine ite_snd_moves ?_ ?_ | with_reducible refine ite_fst_moves ?_ ?_ | split | refine fst_of_eq (by assumption) ?_ | refine snd_of_eq (by assumption) ?_ | with_reducible refine upd_host ?_ ?_ ?_ | dsimp only)

theorem putEntry_moves {ll ss} {s : State} {kind : WriteKind} {r : OutRing} {words : List W64} (hh : Moves ll ss s) (hsub : sub [.host, .fresh] ll = true) :
    Moves ll ss (putEntry s kind r words).2 := by
  refine hh.trans ?_ hsub; unfold putEntry
  repeat' (first | with_reducible assumption | with_reducible exact Moves.refl _ _ | with_reducible exact rfl | exact rfl |  (intro _) | with_reducible refine hostWrite_moves ?_ ?_ | with_reducible refine ite_moves ?_ ?_ | with_reducible refine ite_snd_moves ?_ ?_ | with_reducible refine ite_fst_moves ?_ ?_ | split | refine fst_of_eq (by assumption) ?_ | refine snd_of_eq (by assumption) ?_ | dsimp only)

theorem putEntries_moves {ll ss} {k : WriteKind} {s : State} {r : OutRing} {es : List (List W64)} (hh : Moves ll ss s) (hsub : sub [.host, .fresh] ll = true) : Moves ll ss (putEntries k s r es).2 := by
  refine hh.trans ?_ hsub; clear hh hsub
  suffices H : ∀ s1, Moves [.host, .fresh] s1 s → Moves [.host, .fresh] s1 (putEntries k s r es).2 from H _ (Moves.refl _ _)
  induction es generalizing s r with
  | nil => intro s1 h; exact h
  | cons x xs ih =>
    intro s1 h; unfold putEntries
    repeat' (first | with_reducible assumption | with_reducible exact Moves.refl _ _ | with_reducible exact rfl | exact rfl |  (intro _) | with_reducible apply ih | with_reducible refine putEntry_moves ?_ ?_ | with_reducible refine ite_moves ?_ ?_ | with_reducible refine ite_snd_moves ?_ ?_ | with_reducible refine ite_fst_moves ?_ ?_ | split | refine fst_of_eq (by assumption) ?_ | refine snd_of_eq (by assumption) ?_ | dsimp only)

theorem fireRing_moves {ll ss} {s : State} {kind : WriteKind} {r : OutRing} (hh : Moves ll ss s) (hsub : sub [.host] ll = true) :
    Moves ll ss (fireRing s kind r).2 := by
  refine hh.trans ?_ hsub; unfold fireRing
  repeat' (first | with_reducible assumption | with_reducible exact Moves.refl _ _ | with_reducible exact rfl | exact rfl | ((fail_if_success (show Moves _ _ _)); first | exact side_hostSame rfl rfl rfl rfl | exact side_tables rfl | exact side_nil | exact side_map | exact side_hostMap rfl rfl rfl rfl | exact side_host4 rfl rfl rfl rfl) |  (intro _) | with_reducible refine raiseVector_moves ?_ ?_ | with_reducible refine ite_moves ?_ ?_ | with_reducible refine ite_snd_moves ?_ ?_ | with_reducible refine ite_fst_moves ?_ ?_ | split | refine fst_of_eq (by assumption) ?_ | refine snd_of_eq (by assumption) ?_ | with_reducible refine upd_host ?_ ?_ ?_ | dsimp only)

theorem ringIrq_moves {ll ss} {s : State} {kind : WriteKind} {r : OutRing} (hh : Moves ll ss s) (hsub : sub [.host] ll = true) :
    Moves ll ss (ringIrq s kind r).2 := by
  refine hh.trans ?_ hsub; unfold ringIrq
  repeat' (first | with_reducible assumption | with_reducible exact Moves.refl _ _ | with_reducible exact rfl | exact rfl |  (intro _) | with_reducible refine fireRing_moves ?_ ?_ | with_reducible refine ite_moves ?_ ?_ | with_reducible refine ite_snd_moves ?_ ?_ | with_reducible refine ite_fst_moves ?_ ?_ | split | refine fst_of_eq (by assumption) ?_ | refine snd_of_eq (by assumption) ?_ | dsimp only)

theorem ringPut_moves {ll ss} {s : State} {kind : WriteKind} {r : OutRing} {es : List (List W64)} (hh : Moves ll ss s) (hsub : sub [.host, .fresh] ll = true) :
    Moves ll ss (ringPut s kind r es).2 := by
  refine hh.trans ?_ hsub; unfold ringPut
  repeat' (first | with_reducible assumption | with_reducible exact Moves.refl _ _ | with_reducible exact rfl | exact rfl |  (intro _) | with_reducible refine putEntries_moves ?_ ?_ | with_reducible refine ringIrq_moves ?_ ?_ | with_reducible refine ite_moves ?_ ?_ | with_reducible refine ite_snd_moves ?_ ?_ | with_reducible refine ite_fst_moves ?_ ?_ | split | refine fst_of_eq (by assumption) ?_ | refine snd_of_eq (by assumption) ?_ | dsimp only)

theorem postEventRaw_moves {ll ss} {s : State} {src code job unit d0 d1 : Nat} {more : Option (Nat × Nat × Nat)} (hh : Moves ll ss s) (hsub : sub [.host, .fresh] ll = true) :
    Moves ll ss (postEventRaw s src code job unit d0 d1 more).1 := by
  refine hh.trans ?_ hsub; unfold postEventRaw
  repeat' (first | with_reducible assumption | with_reducible exact Moves.refl _ _ | with_reducible exact rfl | exact rfl |  (intro _) | with_reducible refine ringPut_moves ?_ ?_ | with_reducible refine setEvRing_moves ?_ ?_ | with_reducible refine ite_moves ?_ ?_ | with_reducible refine ite_snd_moves ?_ ?_ | with_reducible refine ite_fst_moves ?_ ?_ | split | refine fst_of_eq (by assumption) ?_ | refine snd_of_eq (by assumption) ?_ | dsimp only)

theorem setBit_moves {ll ss} {s : State} {src b unit : Nat} (hh : Moves ll ss s) (hsub : sub [.host, .stats] ll = true) :
    Moves ll ss (setBit s src b unit) := by
  refine hh.trans ?_ hsub; unfold setBit
  repeat' (first | with_reducible assumption | with_reducible exact Moves.refl _ _ | with_reducible exact rfl | exact rfl |  (intro _) | with_reducible refine setStat_moves ?_ ?_ | with_reducible refine raiseVector_moves ?_ ?_ | with_reducible refine ite_moves ?_ ?_ | with_reducible refine ite_snd_moves ?_ ?_ | with_reducible refine ite_fst_moves ?_ ?_ | split | refine fst_of_eq (by assumption) ?_ | refine snd_of_eq (by assumption) ?_ | dsimp only)

theorem ringOverflow_moves {ll ss} {s : State} {ring : Nat} (hh : Moves ll ss s) (hsub : sub [.host, .stats, .fresh] ll = true) :
    Moves ll ss (ringOverflow s ring) := by
  refine hh.trans ?_ hsub; unfold ringOverflow
  repeat' (first | with_reducible assumption | with_reducible exact Moves.refl _ _ | with_reducible exact rfl | exact rfl |  (intro _) | with_reducible refine postEventRaw_moves ?_ ?_ | with_reducible refine setBit_moves ?_ ?_ | with_reducible refine ite_moves ?_ ?_ | with_reducible refine ite_snd_moves ?_ ?_ | with_reducible refine ite_fst_moves ?_ ?_ | split | refine fst_of_eq (by assumption) ?_ | refine snd_of_eq (by assumption) ?_ | dsimp only)

theorem postEvent_moves {ll ss} {s : State} {src code job unit d0 d1 : Nat} {more : Option (Nat × Nat × Nat)} (hh : Moves ll ss s) (hsub : sub [.host, .stats, .fresh] ll = true) :
    Moves ll ss (postEvent s src code job unit d0 d1 more) := by
  refine hh.trans ?_ hsub; unfold postEvent
  repeat' (first | with_reducible assumption | with_reducible exact Moves.refl _ _ | with_reducible exact rfl | exact rfl |  (intro _) | with_reducible refine postEventRaw_moves ?_ ?_ | with_reducible refine ringOverflow_moves ?_ ?_ | with_reducible refine ite_moves ?_ ?_ | with_reducible refine ite_snd_moves ?_ ?_ | with_reducible refine ite_fst_moves ?_ ?_ | split | refine fst_of_eq (by assumption) ?_ | refine snd_of_eq (by assumption) ?_ | dsimp only)

theorem setCause_moves {ll ss} {s : State} {src b unit : Nat} {job d0 d1 : Nat} {more : Option (Nat × Nat × Nat)} (hh : Moves ll ss s) (hsub : sub [.host, .stats, .fresh] ll = true) :
    Moves ll ss (setCause s src b unit job d0 d1 more) := by
  refine hh.trans ?_ hsub; unfold setCause
  repeat' (first | with_reducible assumption | with_reducible exact Moves.refl _ _ | with_reducible exact rfl | exact rfl |  (intro _) | with_reducible refine postEvent_moves ?_ ?_ | with_reducible refine setBit_moves ?_ ?_ | with_reducible refine ite_moves ?_ ?_ | with_reducible refine ite_snd_moves ?_ ?_ | with_reducible refine ite_fst_moves ?_ ?_ | split | refine fst_of_eq (by assumption) ?_ | refine snd_of_eq (by assumption) ?_ | dsimp only)

theorem countPort_moves {ll ss} {s : State} {p word n : Nat} (hh : Moves ll ss s) (hsub : sub [.ports] ll = true) :
    Moves ll ss (countPort s p word n) := by
  refine hh.trans ?_ hsub; unfold countPort
  repeat' (first | with_reducible assumption | with_reducible exact Moves.refl _ _ | with_reducible exact rfl | exact rfl |  (intro _) | with_reducible refine modPort_moves ?_ ?_ | with_reducible refine ite_moves ?_ ?_ | with_reducible refine ite_snd_moves ?_ ?_ | with_reducible refine ite_fst_moves ?_ ?_ | split | refine fst_of_eq (by assumption) ?_ | refine snd_of_eq (by assumption) ?_ | dsimp only)

theorem countBlock_moves {ll ss} {s : State} {src w : Nat} {n : Nat} (hh : Moves ll ss s) (hsub : sub [.blockCounts] ll = true) :
    Moves ll ss (countBlock s src w n) := by
  refine hh.trans ?_ hsub; unfold countBlock
  repeat' (first | with_reducible assumption | with_reducible exact Moves.refl _ _ | with_reducible exact rfl | exact rfl |  (intro _) | with_reducible refine ite_moves ?_ ?_ | with_reducible refine ite_snd_moves ?_ ?_ | with_reducible refine ite_fst_moves ?_ ?_ | split | refine fst_of_eq (by assumption) ?_ | refine snd_of_eq (by assumption) ?_ | with_reducible refine upd_blockCounts ?_ ?_ | dsimp only)

theorem discard_moves {ll ss} {s : State} {p reason : Nat} (hh : Moves ll ss s) (hsub : sub [.host, .stats, .ports, .fresh] ll = true) :
    Moves ll ss (Machine.discard s p reason) := by
  refine hh.trans ?_ hsub; unfold Machine.discard
  repeat' (first | with_reducible assumption | with_reducible exact Moves.refl _ _ | with_reducible exact rfl | exact rfl |  (intro _) | with_reducible refine countPort_moves ?_ ?_ | with_reducible refine setCause_moves ?_ ?_ | with_reducible refine ite_moves ?_ ?_ | with_reducible refine ite_snd_moves ?_ ?_ | with_reducible refine ite_fst_moves ?_ ?_ | split | refine fst_of_eq (by assumption) ?_ | refine snd_of_eq (by assumption) ?_ | dsimp only)

theorem toss_moves {ll ss} {s : State} {job part : Nat} (hh : Moves ll ss s) (hsub : sub [.toss] ll = true) :
    Moves ll ss (toss s job part) := by
  refine hh.trans ?_ hsub; unfold toss
  repeat' (first | with_reducible assumption | with_reducible exact Moves.refl _ _ | with_reducible exact rfl | exact rfl |  (intro _) | with_reducible refine ite_moves ?_ ?_ | with_reducible refine ite_snd_moves ?_ ?_ | with_reducible refine ite_fst_moves ?_ ?_ | split | refine fst_of_eq (by assumption) ?_ | refine snd_of_eq (by assumption) ?_ | with_reducible refine upd_toss ?_ ?_ | dsimp only)

theorem jobWait_moves {ll ss} {s : State} {job c n : Nat} (hh : Moves ll ss s) (hsub : sub [.jobFree] ll = true) :
    Moves ll ss (jobWait s job c n) := by
  refine hh.trans ?_ hsub; unfold jobWait
  repeat' (first | with_reducible assumption | with_reducible exact Moves.refl _ _ | with_reducible exact rfl | exact rfl |  (intro _) | with_reducible refine ite_moves ?_ ?_ | with_reducible refine ite_snd_moves ?_ ?_ | with_reducible refine ite_fst_moves ?_ ?_ | split | refine fst_of_eq (by assumption) ?_ | refine snd_of_eq (by assumption) ?_ | with_reducible refine upd_jobFree ?_ ?_ | dsimp only)

theorem record_moves {ll ss} {s : State} {origin id kind : Nat} {raw : Bool} {target : Nat} {old new : List Byte} (hh : Moves ll ss s) (hsub : sub [.ledger] ll = true) :
    Moves ll ss (record s origin id kind raw target old new) := by
  refine hh.trans ?_ hsub; unfold record
  repeat' (first | with_reducible assumption | with_reducible exact Moves.refl _ _ | with_reducible exact rfl | exact rfl |  (intro _) | with_reducible refine ite_moves ?_ ?_ | with_reducible refine ite_snd_moves ?_ ?_ | with_reducible refine ite_fst_moves ?_ ?_ | split | refine fst_of_eq (by assumption) ?_ | refine snd_of_eq (by assumption) ?_ | with_reducible refine upd_ledger ?_ ?_ | dsimp only)

theorem recordRaw_moves {ll ss} {s : State} {origin id kind target old new : Nat} (hh : Moves ll ss s) (hsub : sub [.ledger] ll = true) :
    Moves ll ss (recordRaw s origin id kind target old new) := by
  refine hh.trans ?_ hsub; unfold recordRaw
  repeat' (first | with_reducible assumption | with_reducible exact Moves.refl _ _ | with_reducible exact rfl | exact rfl |  (intro _) | with_reducible refine record_moves ?_ ?_ | with_reducible refine ite_moves ?_ ?_ | with_reducible refine ite_snd_moves ?_ ?_ | with_reducible refine ite_fst_moves ?_ ?_ | split | refine fst_of_eq (by assumption) ?_ | refine snd_of_eq (by assumption) ?_ | dsimp only)

theorem ready_moves {ll ss} {s : State} {c : Cpl} (hh : Moves ll ss s) (hsub : sub [.host] ll = true) :
    Moves ll ss (ready s c) := by
  refine hh.trans ?_ hsub; unfold ready
  repeat' (first | with_reducible assumption | with_reducible exact Moves.refl _ _ | with_reducible exact rfl | exact rfl | ((fail_if_success (show Moves _ _ _)); first | exact side_hostSame rfl rfl rfl rfl | exact side_tables rfl | exact side_nil | exact side_map | exact side_hostMap rfl rfl rfl rfl | exact side_host4 rfl rfl rfl rfl) |  (intro _) | with_reducible refine ite_moves ?_ ?_ | with_reducible refine ite_snd_moves ?_ ?_ | with_reducible refine ite_fst_moves ?_ ?_ | split | refine fst_of_eq (by assumption) ?_ | refine snd_of_eq (by assumption) ?_ | with_reducible refine upd_host ?_ ?_ ?_ | dsimp only)

theorem finished_moves {ll ss} {s : State} {ring : Nat} (hh : Moves ll ss s) (hsub : sub [.host] ll = true) :
    Moves ll ss (finished s ring) := by
  refine hh.trans ?_ hsub; unfold finished
  repeat' (first | with_reducible assumption | with_reducible exact Moves.refl _ _ | with_reducible exact rfl | exact rfl |  (intro _) | with_reducible refine setCmdRing_moves ?_ ?_ | with_reducible refine ite_moves ?_ ?_ | with_reducible refine ite_snd_moves ?_ ?_ | with_reducible refine ite_fst_moves ?_ ?_ | split | refine fst_of_eq (by assumption) ?_ | refine snd_of_eq (by assumption) ?_ | dsimp only)

theorem completeTo_moves {ll ss} {s : State} {cring : Nat} {a : Accept} {status : Nat} {d0 d1 : Nat} {waits : List Nat} {after : List After} (hh : Moves ll ss s) (hsub : sub [.host] ll = true) :
    Moves ll ss (completeTo s cring a status d0 d1 waits after) := by
  refine hh.trans ?_ hsub; unfold completeTo
  repeat' (first | with_reducible assumption | with_reducible exact Moves.refl _ _ | with_reducible exact rfl | exact rfl |  (intro _) | with_reducible refine finished_moves ?_ ?_ | with_reducible refine ready_moves ?_ ?_ | with_reducible refine ite_moves ?_ ?_ | with_reducible refine ite_snd_moves ?_ ?_ | with_reducible refine ite_fst_moves ?_ ?_ | split | refine fst_of_eq (by assumption) ?_ | refine snd_of_eq (by assumption) ?_ | dsimp only)

theorem completeRun_moves {ll ss} {s : State} {a : Accept} {status : Nat} {inv index : Nat} {l : List W32} {waits : List Nat} (hh : Moves ll ss s) (hsub : sub [.host] ll = true) :
    Moves ll ss (completeRun s a status inv index l waits) := by
  refine hh.trans ?_ hsub; unfold completeRun
  repeat' (first | with_reducible assumption | with_reducible exact Moves.refl _ _ | with_reducible exact rfl | exact rfl |  (intro _) | with_reducible refine finished_moves ?_ ?_ | with_reducible refine ready_moves ?_ ?_ | with_reducible refine ite_moves ?_ ?_ | with_reducible refine ite_snd_moves ?_ ?_ | with_reducible refine ite_fst_moves ?_ ?_ | split | refine fst_of_eq (by assumption) ?_ | refine snd_of_eq (by assumption) ?_ | dsimp only)

theorem completeAs_moves {ll ss} {s : State} {op cring : Nat} {a : Accept} {status : Nat} (hh : Moves ll ss s) (hsub : sub [.host] ll = true) :
    Moves ll ss (completeAs s op cring a status) := by
  refine hh.trans ?_ hsub; unfold completeAs
  repeat' (first | with_reducible assumption | with_reducible exact Moves.refl _ _ | with_reducible exact rfl | exact rfl |  (intro _) | with_reducible refine completeRun_moves ?_ ?_ | with_reducible refine completeTo_moves ?_ ?_ | with_reducible refine ite_moves ?_ ?_ | with_reducible refine ite_snd_moves ?_ ?_ | with_reducible refine ite_fst_moves ?_ ?_ | split | refine fst_of_eq (by assumption) ?_ | refine snd_of_eq (by assumption) ?_ | dsimp only)

theorem complete_moves {ll ss} {s : State} {a : Accept} {status : Nat} {d0 d1 : Nat} {waits : List Nat} (hh : Moves ll ss s) (hsub : sub [.host] ll = true) :
    Moves ll ss (complete s a status d0 d1 waits) := by
  refine hh.trans ?_ hsub; unfold complete
  repeat' (first | with_reducible assumption | with_reducible exact Moves.refl _ _ | with_reducible exact rfl | exact rfl |  (intro _) | with_reducible refine completeTo_moves ?_ ?_ | with_reducible refine ite_moves ?_ ?_ | with_reducible refine ite_snd_moves ?_ ?_ | with_reducible refine ite_fst_moves ?_ ?_ | split | refine fst_of_eq (by assumption) ?_ | refine snd_of_eq (by assumption) ?_ | dsimp only)

theorem noCring_moves {ll ss} {s : State} {cring kind ring tag : Nat} (hh : Moves ll ss s) (hsub : sub [.host, .stats, .fresh] ll = true) :
    Moves ll ss (noCring s cring kind ring tag) := by
  refine hh.trans ?_ hsub; unfold noCring
  repeat' (first | with_reducible assumption | with_reducible exact Moves.refl _ _ | with_reducible exact rfl | exact rfl |  (intro _) | with_reducible refine postEvent_moves ?_ ?_ | with_reducible refine ite_moves ?_ ?_ | with_reducible refine ite_snd_moves ?_ ?_ | with_reducible refine ite_fst_moves ?_ ?_ | split | refine fst_of_eq (by assumption) ?_ | refine snd_of_eq (by assumption) ?_ | dsimp only)

theorem fetchAhead_moves {ll ss} {k n : Nat} {s : State} (hh : Moves ll ss s) (hsub : sub [.host, .fresh] ll = true) : Moves ll ss (fetchAhead k n s) := by
  refine hh.trans ?_ hsub; clear hh hsub
  suffices H : ∀ s1, Moves [.host, .fresh] s1 s → Moves [.host, .fresh] s1 (fetchAhead k n s) from H _ (Moves.refl _ _)
  induction k generalizing s with
  | zero => intro s1 h; exact h
  | succ k ih =>
    intro s1 h; unfold fetchAhead
    repeat' (first | with_reducible assumption | with_reducible exact Moves.refl _ _ | with_reducible exact rfl | exact rfl | ((fail_if_success (show Moves _ _ _)); first | exact side_hostSame rfl rfl rfl rfl | exact side_tables rfl | exact side_nil | exact side_map | exact side_hostMap rfl rfl rfl rfl | exact side_host4 rfl rfl rfl rfl) |  (intro _) | with_reducible apply ih | with_reducible refine takeFresh_moves ?_ ?_ | with_reducible refine setCmdRing_moves ?_ ?_ | with_reducible refine ite_moves ?_ ?_ | with_reducible refine ite_snd_moves ?_ ?_ | with_reducible refine ite_fst_moves ?_ ?_ | split | refine fst_of_eq (by assumption) ?_ | refine snd_of_eq (by assumption) ?_ | with_reducible refine upd_host ?_ ?_ ?_ | dsimp only)

theorem popHead_moves {ll ss} {s : State} {n : Nat} (hh : Moves ll ss s) (hsub : sub [.host, .fresh] ll = true) :
    Moves ll ss (popHead s n) := by
  refine hh.trans ?_ hsub; unfold popHead
  repeat' (first | with_reducible assumption | with_reducible exact Moves.refl _ _ | with_reducible exact rfl | exact rfl |  (intro _) | with_reducible refine serveRing_moves ?_ ?_ | with_reducible refine hostWrite_moves ?_ ?_ | with_reducible refine fetchAhead_moves ?_ ?_ | with_reducible refine ite_moves ?_ ?_ | with_reducible refine ite_snd_moves ?_ ?_ | with_reducible refine ite_fst_moves ?_ ?_ | split | refine fst_of_eq (by assumption) ?_ | refine snd_of_eq (by assumption) ?_ | dsimp only)

theorem settleFailed_moves {ll ss} {k n : Nat} {s : State} (hh : Moves ll ss s) (hsub : sub [.host, .fresh] ll = true) : Moves ll ss (settleFailed k n s) := by
  refine hh.trans ?_ hsub; clear hh hsub
  suffices H : ∀ s1, Moves [.host, .fresh] s1 s → Moves [.host, .fresh] s1 (settleFailed k n s) from H _ (Moves.refl _ _)
  induction k generalizing s with
  | zero => intro s1 h; exact h
  | succ k ih =>
    intro s1 h; unfold settleFailed
    repeat' (first | with_reducible assumption | with_reducible exact Moves.refl _ _ | with_reducible exact rfl | exact rfl |  (intro _) | with_reducible apply ih | with_reducible refine complete_moves ?_ ?_ | with_reducible refine popHead_moves ?_ ?_ | with_reducible refine ite_moves ?_ ?_ | with_reducible refine ite_snd_moves ?_ ?_ | with_reducible refine ite_fst_moves ?_ ?_ | split | refine fst_of_eq (by assumption) ?_ | refine snd_of_eq (by assumption) ?_ | dsimp only)

theorem noteReads_moves {ll ss} {s : State} {d : Desc} (hh : Moves ll ss s) (hsub : sub [.host] ll = true) :
    Moves ll ss (noteReads s d) := by
  refine hh.trans ?_ hsub; unfold noteReads
  repeat' (first | with_reducible assumption | with_reducible exact Moves.refl _ _ | with_reducible exact rfl | exact rfl | ((fail_if_success (show Moves _ _ _)); first | exact side_hostSame rfl rfl rfl rfl | exact side_tables rfl | exact side_nil | exact side_map | exact side_hostMap rfl rfl rfl rfl | exact side_host4 rfl rfl rfl rfl) |  (intro _) | with_reducible refine ite_moves ?_ ?_ | with_reducible refine ite_snd_moves ?_ ?_ | with_reducible refine ite_fst_moves ?_ ?_ | split | refine fst_of_eq (by assumption) ?_ | refine snd_of_eq (by assumption) ?_ | with_reducible refine upd_host ?_ ?_ ?_ | dsimp only)

theorem accept_moves {l s0} {s : State} {ring : BitVec 6} {d : Desc} {op : Nat} {job : Option Nat} {obj cring : Nat}
    {body : Accept → State → State} (h : Moves l s0 s) (hs : sub [.host, .stats, .fresh] l = true)
    (hb : ∀ a t, Moves l s0 t → Moves l s0 (body a t)) : Moves l s0 (accept s ring d op job obj cring body) := by
  have hu {m : List Area} (hm : sub m [.host, .stats, .fresh] = true) : sub m l = true := sub_trans hm hs
  unfold accept
  dsimp only
  split
  · exact h
  · refine settleFailed_moves ?_ (hu rfl)
    split
    · exact finished_moves (noCring_moves (popHead_moves h (hu rfl)) (hu rfl)) (hu rfl)
    · split
      · exact completeAs_moves (popHead_moves h (hu rfl)) (hu rfl)
      · exact hb _ _ (noteReads_moves (popHead_moves h (hu rfl)) (hu rfl))

end Sys2Proof.Laws
end

