-- ==== Sys2Proof/Laws/Accept.lean ====
section
/-! SUPPORT. What accepting a ring command comes to when nothing keeps it from its effect, and where its completion is found. -/

namespace Sys2Proof.Laws

open Sys2Proof.Machine Sys2Proof.Safety

theorem mem_oins {α : Type} {m : Sparse α} {k : Nat} {v : α} : (k, v) ∈ oins m k v := by
  induction m with
  | nil => simp [oins]
  | cons e m ih => obtain ⟨a, w⟩ := e; unfold oins; split <;> [simp; (split <;> simp [*])]

theorem mem_oins_of_ne {α : Type} {m : Sparse α} {k : Nat} {v : α} {e : Nat × α} (h : e ∈ m) (hk : e.1 ≠ k) : e ∈ oins m k v := by
  induction m with
  | nil => simp at h
  | cons x m ih =>
    obtain ⟨a, w⟩ := x
    unfold oins
    rcases List.mem_cons.1 h with rfl | h'
    · split
      · simp
      · split
        · next h2 => exact absurd h2.symm hk
        · simp
    · split
      · simp [h']
      · split
        · simp [h']
        · simp [ih h']

/-- What taking heads of command rings and settling failed fetches may change of the host interface: ring registers, reads, new
writes, and completions added at the end of those ready. -/
structure RingSide (s t : State) : Prop where
  cpl : t.host.cpl = s.host.cpl
  ev : t.host.ev = s.host.ev
  watch : t.host.watch = s.host.watch
  pending : t.host.pending = s.host.pending
  snoopRsp : t.host.snoopRsp = s.host.snoopRsp
  readData : t.host.readData = s.host.readData
  msix : t.host.msix = s.host.msix
  cxlUp : t.host.cxlUp = s.host.cxlUp
  fresh : s.fresh ≤ t.fresh
  ready : s.host.ready <+: t.host.ready
  writes : ∀ e ∈ s.host.writes, e.1 < s.fresh → e ∈ t.host.writes

theorem RingSide.refl (s : State) : RingSide s s :=
  ⟨rfl, rfl, rfl, rfl, rfl, rfl, rfl, rfl, Nat.le_refl _, List.prefix_refl _, fun _ h _ => h⟩

theorem RingSide.trans {s t u : State} (h : RingSide s t) (g : RingSide t u) : RingSide s u :=
  ⟨g.cpl.trans h.cpl, g.ev.trans h.ev, g.watch.trans h.watch, g.pending.trans h.pending, g.snoopRsp.trans h.snoopRsp,
    g.readData.trans h.readData, g.msix.trans h.msix, g.cxlUp.trans h.cxlUp, h.fresh.trans g.fresh, h.ready.trans g.ready,
    fun e he hk => g.writes e (h.writes e he hk) (Nat.lt_of_lt_of_le hk h.fresh)⟩

theorem setCmdRing_ringSide (s : State) (n : Nat) (r : CmdRing) : RingSide s (setCmdRing s n r) :=
  ⟨rfl, rfl, rfl, rfl, rfl, rfl, rfl, rfl, Nat.le_refl _, List.prefix_refl _, fun _ h _ => h⟩

theorem serveRing_ringSide (s : State) (n : Nat) (r : CmdRing) : RingSide s (serveRing s n r) :=
  ⟨rfl, rfl, rfl, rfl, rfl, rfl, rfl, rfl, Nat.le_refl _, List.prefix_refl _, fun _ h _ => h⟩

/-- Noting the addresses that a command reads changes no ring and nothing that is posted. -/
theorem noteReads_ringSide (s : State) (d : Desc) : RingSide s (noteReads s d) :=
  ⟨rfl, rfl, rfl, rfl, rfl, rfl, rfl, rfl, Nat.le_refl _, List.prefix_refl _, fun _ h _ => h⟩

theorem hostWrite_ringSide (s : State) (a : Nat) (d : List Byte) (k : WriteKind) : RingSide s (hostWrite s a d k).2 :=
  ⟨rfl, rfl, rfl, rfl, rfl, rfl, rfl, rfl, Nat.le_succ _, List.prefix_refl _, fun _ h hk => mem_oins_of_ne h (Nat.ne_of_lt hk)⟩

theorem fetchAhead_ringSide (k n : Nat) (s : State) : RingSide s (fetchAhead k n s) := by
  induction k generalizing s with
  | zero => exact RingSide.refl s
  | succ k ih =>
    unfold fetchAhead
    dsimp only
    split
    · exact RingSide.refl s
    · refine RingSide.trans ?_ (ih _)
      exact ⟨rfl, rfl, rfl, rfl, rfl, rfl, rfl, rfl, Nat.le_succ _, List.prefix_refl _, fun _ h _ => h⟩

theorem popHead_ringSide (s : State) (n : Nat) : RingSide s (popHead s n) := by
  unfold popHead
  dsimp only
  split
  · exact (serveRing_ringSide _ _ _).trans (fetchAhead_ringSide _ _ _)
  · exact ((serveRing_ringSide _ _ _).trans (hostWrite_ringSide _ _ _ _)).trans (fetchAhead_ringSide _ _ _)

theorem finished_ringSide (s : State) (n : Nat) : RingSide s (finished s n) := setCmdRing_ringSide _ _ _

theorem ready_ringSide (s : State) (c : Cpl) : RingSide s (ready s c) :=
  ⟨rfl, rfl, rfl, rfl, rfl, rfl, rfl, rfl, Nat.le_refl _, List.prefix_append _ _, fun _ h _ => h⟩

theorem complete_ringSide (s : State) (a : Accept) (st d0 d1 : Nat) (w : List Nat) : RingSide s (complete s a st d0 d1 w) := by
  unfold complete completeTo
  dsimp only
  split
  · exact finished_ringSide _ _
  · exact ready_ringSide _ _

theorem settleFailed_ringSide (k n : Nat) (s : State) : RingSide s (settleFailed k n s) := by
  induction k generalizing s with
  | zero => exact RingSide.refl s
  | succ k ih =>
    unfold settleFailed
    dsimp only
    split
    · exact ((popHead_ringSide _ _).trans (complete_ringSide _ _ _ _ _ _)).trans (ih _)
    · exact RingSide.refl s

/-- An admitted command pops its ring and has its effect; failed fetches behind it are then settled. -/
theorem accept_runs {s : State} {ring : BitVec 6} {d : Desc} {op cring obj : Nat} {job : Option Nat}
    {body : Accept → State → State} (h : admitted s ring d op cring job) :
    accept s ring d op job obj cring body =
      settleFailed Config.fetchAhead ring.toNat (body (acceptNow s ring.toNat d.d0 obj) (noteReads (popHead s ring.toNat) d)) := by
  obtain ⟨h1, h2, h3, h4, h5, h6, h7⟩ := h
  have hl : (ledgered op && !ledgerRoom s) = false := by
    cases hlo : ledgered op <;> simp [h3, hlo]
  have hp : (privileged op && !bit (cmdRing s ring.toNat).ctl.toNat 30) = false := by
    cases hpo : privileged op <;> simp [h6, hpo]
  have hc : ringEn (cplRing (popHead s ring.toNat) cring).ctl = ringEn (cplRing s cring).ctl := by
    have : (popHead s ring.toNat).host.cpl = s.host.cpl := (popHead_ringSide s ring.toNat).cpl
    simp [cplRing, this]
  unfold accept
  simp only [h1, h2, h5, h7, hl, hp, hc, h4, bne_self_eq_false, Bool.not_true, Bool.or_self, Bool.false_eq_true, if_false]

theorem ne_of_ringEn {r : CmdRing} (h : ringEn r.ctl = true) : r ≠ {} := by
  intro e; rw [e] at h; exact absurd h (by decide)

theorem cmdRing_setCmdRing {s : State} {n : Nat} {r : CmdRing} (h : r ≠ {}) : cmdRing (setCmdRing s n r) n = r := sget_sput_ne h

theorem cmdRing_serveRing {s : State} {n : Nat} {r : CmdRing} (h : r ≠ {}) : cmdRing (serveRing s n r) n = r := sget_sput_ne h

@[simp] theorem cmdRing_noteReads (s : State) (d : Desc) (n : Nat) : cmdRing (noteReads s d) n = cmdRing s n := rfl

/-- Fetching ahead only adds slots being read at the end, and keeps the ring's registers. -/
theorem fetchAhead_ring (k n : Nat) (s : State) : ∃ l, (∀ x ∈ l, ∃ i, x = Slot.reading i) ∧
    cmdRing (fetchAhead k n s) n = { cmdRing s n with slots := (cmdRing s n).slots ++ l } := by
  induction k generalizing s with
  | zero => exact ⟨[], by simp, by simp [fetchAhead]⟩
  | succ k ih =>
    unfold fetchAhead
    dsimp only
    split
    · exact ⟨[], by simp, by simp⟩
    · have key (u : State) (i : Nat)
          (hr : cmdRing u n = { cmdRing s n with slots := (cmdRing s n).slots ++ [.reading i] }) :
          ∃ l, (∀ x ∈ l, ∃ i, x = Slot.reading i) ∧
            cmdRing (fetchAhead k n u) n = { cmdRing s n with slots := (cmdRing s n).slots ++ l } := by
        obtain ⟨l, hl, he⟩ := ih u
        refine ⟨.reading i :: l, ?_, by rw [he, hr]; simp⟩
        intro x hx
        rcases List.mem_cons.1 hx with rfl | hx
        · exact ⟨_, rfl⟩
        · exact hl x hx
      exact key _ _ (cmdRing_setCmdRing (by intro e; have := congrArg CmdRing.slots e; simp at this))

/-- A ring whose head has been taken. -/
def popped (r : CmdRing) : CmdRing := { r with slots := r.slots.drop 1, ci := r.ci + 1, outstanding := r.outstanding + 1 }

theorem popped_ne (r : CmdRing) : popped r ≠ {} := by
  intro e; have := congrArg CmdRing.outstanding e; simp [popped] at this

/-- Taking the head: the consumer index and the commands under way rise by 1, and the slots behind it are followed by slots being
read. -/
theorem popHead_ring (s : State) (n : Nat) : ∃ l, (∀ x ∈ l, ∃ i, x = Slot.reading i) ∧
    cmdRing (popHead s n) n = { popped (cmdRing s n) with slots := (cmdRing s n).slots.drop 1 ++ l } := by
  have key (u : State) (hu : cmdRing u n = popped (cmdRing s n)) : ∃ l, (∀ x ∈ l, ∃ i, x = Slot.reading i) ∧
      cmdRing (fetchAhead Config.fetchAhead n u) n = { popped (cmdRing s n) with slots := (cmdRing s n).slots.drop 1 ++ l } := by
    obtain ⟨l, hl, he⟩ := fetchAhead_ring Config.fetchAhead n u
    exact ⟨l, hl, by rw [he, hu]; rfl⟩
  unfold popHead
  dsimp only
  split
  · exact key _ (cmdRing_serveRing (popped_ne _))
  · exact key _ (cmdRing_serveRing (popped_ne _))

/-- The consumer index is written back to CI_ADDR. -/
theorem popHead_writesBack (s : State) (n : Nat) (h : (cmdRing s n).ciAddr.toNat / 8 ≠ 0) :
    (s.fresh, ({ addr := (cmdRing s n).ciAddr.toNat / 8 * 8, data := leBytes 4 ((cmdRing s n).ci + 1).toNat,
                 kind := .ci n } : HostWrite)) ∈ (popHead s n).host.writes ∧ s.fresh < (popHead s n).fresh := by
  have key (u : State) (e : Nat × HostWrite) (he : e ∈ u.host.writes) (hf : e.1 < u.fresh) :
      e ∈ (fetchAhead Config.fetchAhead n u).host.writes ∧ e.1 < (fetchAhead Config.fetchAhead n u).fresh :=
    ⟨(fetchAhead_ringSide _ _ u).writes e he hf, Nat.lt_of_lt_of_le hf (fetchAhead_ringSide _ _ u).fresh⟩
  unfold popHead
  dsimp only
  rw [if_neg h]
  exact key _ _ mem_oins (Nat.lt_succ_self _)

/-- No failed fetch at the head: nothing to settle. -/
theorem settleFailed_none {k n : Nat} {s : State} (h : (cmdRing s n).slots.head? ≠ some .failed) : settleFailed k n s = s := by
  cases k with
  | zero => rfl
  | succ k =>
    unfold settleFailed
    split
    · next heq => simp [heq] at h
    · rfl

/-- The completion that `completeTo` makes is the answer of the command, also after the ring's failed fetches are settled. -/
theorem answered_complete {s u : State} {ring : BitVec 6} {d : Desc} {cring obj st d0 d1 : Nat} {w : List Nat} {k : Nat}
    {af : List After} :
    answered s (settleFailed k ring.toNat (completeTo u cring (acceptNow s ring.toNat d.d0 obj) st d0 d1 w af)) ring d cring obj st
      d0 d1 := by
  unfold answered
  by_cases h : quietOf d.d0 = true ∧ st = stOk
  · exact .inl h
  · refine .inr ?_
    have hq : (quietOf d.d0 && st == stOk) = false := by
      rw [Bool.eq_false_iff]; simpa using h
    unfold completeTo
    simp only [acceptNow, hq, Bool.false_and, Bool.false_eq_true, if_false]
    refine ⟨_, (settleFailed_ringSide _ _ _).ready.subset (List.mem_append_right _ (List.mem_singleton_self _)), rfl, rfl, rfl⟩

end Sys2Proof.Laws
end

