-- ==== Sys2Proof/Laws/Moves/Tables.lean ====
section
/-! SUPPORT. What the operations of Machine/Tables.lean may change: one lemma each. -/

set_option linter.unusedTactic false
set_option linter.unreachableTactic false
set_option linter.unusedVariables false

namespace Sys2Proof.Laws

open Sys2Proof.Machine Sys2Proof.Safety

theorem setActive_moves {ll ss} {s : State} {tid i : Nat} {e : List W64} (hh : Moves ll ss s) (hsub : sub [.tick, .tables, .faults] ll = true) :
    Moves ll ss (setActive s tid i e) := by
  refine hh.trans ?_ hsub
  have h0 : Moves [.tick, .tables, .faults] s { s with faults := { s.faults with entries := s.faults.entries.filter fun f => f.tid != tid || f.idx != i || f.hard } } :=
    upd_faults (Moves.refl _ _) rfl
  unfold setActive
  dsimp only at h0 ⊢
  split
  · exact upd_tick h0 rfl
  · exact upd_tables h0 rfl fun h => rising_sput h

theorem noteLookup_moves {ll ss} {s : State} {e : Nat × Nat} (hh : Moves ll ss s) (hsub : sub [.host, .stats, .faults, .fresh] ll = true) :
    Moves ll ss (noteLookup s e) := by
  refine hh.trans ?_ hsub; unfold noteLookup
  repeat' (first | with_reducible assumption | with_reducible exact Moves.refl _ _ | with_reducible exact rfl | exact rfl |  (intro _) | with_reducible refine setCause_moves ?_ ?_ | with_reducible refine ite_moves ?_ ?_ | with_reducible refine ite_snd_moves ?_ ?_ | with_reducible refine ite_fst_moves ?_ ?_ | split | refine fst_of_eq (by assumption) ?_ | refine snd_of_eq (by assumption) ?_ | with_reducible refine upd_faults ?_ ?_ | dsimp only)

theorem repairCopy_moves {ll ss} {s : State} {f : EntryFault} (hh : Moves ll ss s) (hsub : sub [.host, .stats, .blockCounts, .faults, .fresh] ll = true) :
    Moves ll ss (repairCopy s f) := by
  refine hh.trans ?_ hsub; unfold repairCopy
  repeat' (first | with_reducible assumption | with_reducible exact Moves.refl _ _ | with_reducible exact rfl | exact rfl |  (intro _) | with_reducible refine countBlock_moves ?_ ?_ | with_reducible refine setCause_moves ?_ ?_ | with_reducible refine ite_moves ?_ ?_ | with_reducible refine ite_snd_moves ?_ ?_ | with_reducible refine ite_fst_moves ?_ ?_ | split | refine fst_of_eq (by assumption) ?_ | refine snd_of_eq (by assumption) ?_ | with_reducible refine upd_faults ?_ ?_ | dsimp only)

theorem settleTickLen_moves {ll ss} {s : State} (hh : Moves ll ss s) (hsub : sub [.tick] ll = true) :
    Moves ll ss (settleTickLen s) := by
  refine hh.trans ?_ hsub; unfold settleTickLen
  repeat' (first | with_reducible assumption | with_reducible exact Moves.refl _ _ | with_reducible exact rfl | exact rfl |  (intro _) | with_reducible refine ite_moves ?_ ?_ | with_reducible refine ite_snd_moves ?_ ?_ | with_reducible refine ite_fst_moves ?_ ?_ | split | refine fst_of_eq (by assumption) ?_ | refine snd_of_eq (by assumption) ?_ | with_reducible refine upd_tick ?_ ?_ | dsimp only)

theorem tableCycle_moves {ll ss} {s : State} (hh : Moves ll ss s) (hsub : sub [.tick, .host, .stats, .blockCounts, .faults, .fresh] ll = true) :
    Moves ll ss (tableCycle s) := by
  refine hh.trans ?_ hsub; unfold tableCycle
  repeat' (first | with_reducible assumption | with_reducible exact Moves.refl _ _ | with_reducible exact rfl | exact rfl |  (intro _) | with_reducible refine repairCopy_moves ?_ ?_ | with_reducible refine noteLookup_moves ?_ ?_ | with_reducible refine settleTickLen_moves ?_ ?_ | with_reducible refine foldl_moves ?_ ?_ | with_reducible refine foldl_fst_moves ?_ ?_ | with_reducible refine ite_moves ?_ ?_ | with_reducible refine ite_snd_moves ?_ ?_ | with_reducible refine ite_fst_moves ?_ ?_ | split | refine fst_of_eq (by assumption) ?_ | refine snd_of_eq (by assumption) ?_ | dsimp only)

end Sys2Proof.Laws
end

