-- ==== Sys2Proof/Laws/Moves/Ports.lean ====
section
/-! SUPPORT. What the operations of Machine/Ports.lean may change: one lemma each. -/

set_option linter.unusedTactic false
set_option linter.unreachableTactic false
set_option linter.unusedVariables false

namespace Sys2Proof.Laws

open Sys2Proof.Machine Sys2Proof.Safety

theorem addUse_moves {ll ss} {s : State} {q k : Nat} (hh : Moves ll ss s) (hsub : sub [.pools] ll = true) :
    Moves ll ss (addUse s q k) := by
  refine hh.trans ?_ hsub; unfold addUse
  repeat' (first | with_reducible assumption | with_reducible exact Moves.refl _ _ | with_reducible exact rfl | exact rfl |  (intro _) | with_reducible refine ite_moves ?_ ?_ | with_reducible refine ite_snd_moves ?_ ?_ | with_reducible refine ite_fst_moves ?_ ?_ | split | refine fst_of_eq (by assumption) ?_ | refine snd_of_eq (by assumption) ?_ | with_reducible refine upd_pools ?_ ?_ | dsimp only)

theorem subUse_moves {ll ss} {s : State} {q k : Nat} (hh : Moves ll ss s) (hsub : sub [.pools] ll = true) :
    Moves ll ss (subUse s q k) := by
  refine hh.trans ?_ hsub; unfold subUse
  repeat' (first | with_reducible assumption | with_reducible exact Moves.refl _ _ | with_reducible exact rfl | exact rfl |  (intro _) | with_reducible refine ite_moves ?_ ?_ | with_reducible refine ite_snd_moves ?_ ?_ | with_reducible refine ite_fst_moves ?_ ?_ | split | refine fst_of_eq (by assumption) ?_ | refine snd_of_eq (by assumption) ?_ | with_reducible refine upd_pools ?_ ?_ | dsimp only)

theorem poolFault_moves {ll ss} {s : State} {fence : Bool} {pool q unit : Nat} (hh : Moves ll ss s) (hsub : sub [.host, .stats, .pools, .fresh] ll = true) :
    Moves ll ss (poolFault s fence pool q unit) := by
  refine hh.trans ?_ hsub; unfold poolFault
  repeat' (first | with_reducible assumption | with_reducible exact Moves.refl _ _ | with_reducible exact rfl | exact rfl |  (intro _) | with_reducible refine setCause_moves ?_ ?_ | with_reducible refine ite_moves ?_ ?_ | with_reducible refine ite_snd_moves ?_ ?_ | with_reducible refine ite_fst_moves ?_ ?_ | split | refine fst_of_eq (by assumption) ?_ | refine snd_of_eq (by assumption) ?_ | with_reducible refine upd_pools ?_ ?_ | dsimp only)

theorem takeStuck_moves {ll ss} {s : State} {pool place q : Nat} (hh : Moves ll ss s) (hsub : sub [.host, .stats, .pools, .faults, .fresh] ll = true) :
    Moves ll ss (takeStuck s pool place q).1 := by
  refine hh.trans ?_ hsub; unfold takeStuck
  repeat' (first | with_reducible assumption | with_reducible exact Moves.refl _ _ | with_reducible exact rfl | exact rfl |  (intro _) | with_reducible refine poolFault_moves ?_ ?_ | with_reducible refine foldl_moves ?_ ?_ | with_reducible refine foldl_fst_moves ?_ ?_ | with_reducible refine ite_moves ?_ ?_ | with_reducible refine ite_snd_moves ?_ ?_ | with_reducible refine ite_fst_moves ?_ ?_ | split | refine fst_of_eq (by assumption) ?_ | refine snd_of_eq (by assumption) ?_ | with_reducible refine upd_faults ?_ ?_ | dsimp only)

theorem giveLost_moves {ll ss} {s : State} {pool place q n : Nat} (hh : Moves ll ss s) (hsub : sub [.host, .stats, .pools, .faults, .fresh] ll = true) :
    Moves ll ss (giveLost s pool place q n).1 := by
  refine hh.trans ?_ hsub; unfold giveLost
  repeat' (first | with_reducible assumption | with_reducible exact Moves.refl _ _ | with_reducible exact rfl | exact rfl |  (intro _) | with_reducible refine poolFault_moves ?_ ?_ | with_reducible refine foldl_moves ?_ ?_ | with_reducible refine foldl_fst_moves ?_ ?_ | with_reducible refine ite_moves ?_ ?_ | with_reducible refine ite_snd_moves ?_ ?_ | with_reducible refine ite_fst_moves ?_ ?_ | split | refine fst_of_eq (by assumption) ?_ | refine snd_of_eq (by assumption) ?_ | with_reducible refine upd_faults ?_ ?_ | dsimp only)

theorem takeStaging_moves {l s0} {s t : State} {q k : Nat} (h : Moves l s0 s) (hs : sub [.host, .stats, .pools, .faults, .fresh] l = true)
    (e : takeStaging s q k = some t) : Moves l s0 t := by
  have hu {m : List Area} (hm : sub m [.host, .stats, .pools, .faults, .fresh] = true) : sub m l = true := sub_trans hm hs
  unfold takeStaging at e
  split at e
  · have hk := takeStuck_moves (pool := 2) (place := 0) (q := q) (addUse_moves (q := q) (k := k) h (hu rfl)) (hu rfl)
    cases e; exact upd_pools hk (hu rfl)
  · cases e

theorem giveStaging_moves {ll ss} {s : State} {q k : Nat} (hh : Moves ll ss s) (hsub : sub [.host, .stats, .pools, .faults, .fresh] ll = true) :
    Moves ll ss (giveStaging s q k) := by
  refine hh.trans ?_ hsub; unfold giveStaging
  repeat' (first | with_reducible assumption | with_reducible exact Moves.refl _ _ | with_reducible exact rfl | exact rfl |  (intro _) | with_reducible refine giveLost_moves ?_ ?_ | with_reducible refine subUse_moves ?_ ?_ | with_reducible refine ite_moves ?_ ?_ | with_reducible refine ite_snd_moves ?_ ?_ | with_reducible refine ite_fst_moves ?_ ?_ | split | refine fst_of_eq (by assumption) ?_ | refine snd_of_eq (by assumption) ?_ | with_reducible refine upd_pools ?_ ?_ | dsimp only)

theorem takeCells_moves {ll ss} {s : State} {slice q k : Nat} (hh : Moves ll ss s) (hsub : sub [.host, .stats, .pools, .faults, .fresh] ll = true) :
    Moves ll ss (takeCells s slice q k) := by
  refine hh.trans ?_ hsub; unfold takeCells
  repeat' (first | with_reducible assumption | with_reducible exact Moves.refl _ _ | with_reducible exact rfl | exact rfl |  (intro _) | with_reducible refine takeStuck_moves ?_ ?_ | with_reducible refine addUse_moves ?_ ?_ | with_reducible refine ite_moves ?_ ?_ | with_reducible refine ite_snd_moves ?_ ?_ | with_reducible refine ite_fst_moves ?_ ?_ | split | refine fst_of_eq (by assumption) ?_ | refine snd_of_eq (by assumption) ?_ | with_reducible refine upd_pools ?_ ?_ | dsimp only)

theorem giveCells_moves {ll ss} {s : State} {slice q k : Nat} (hh : Moves ll ss s) (hsub : sub [.host, .stats, .pools, .faults, .fresh] ll = true) :
    Moves ll ss (giveCells s slice q k) := by
  refine hh.trans ?_ hsub; unfold giveCells
  repeat' (first | with_reducible assumption | with_reducible exact Moves.refl _ _ | with_reducible exact rfl | exact rfl |  (intro _) | with_reducible refine giveLost_moves ?_ ?_ | with_reducible refine subUse_moves ?_ ?_ | with_reducible refine ite_moves ?_ ?_ | with_reducible refine ite_snd_moves ?_ ?_ | with_reducible refine ite_fst_moves ?_ ?_ | split | refine fst_of_eq (by assumption) ?_ | refine snd_of_eq (by assumption) ?_ | with_reducible refine upd_pools ?_ ?_ | dsimp only)

theorem owe_moves {ll ss} {s : State} {p c k : Nat} (hh : Moves ll ss s) (hsub : sub [.ports] ll = true) :
    Moves ll ss (owe s p c k) := by
  refine hh.trans ?_ hsub; unfold owe
  repeat' (first | with_reducible assumption | with_reducible exact Moves.refl _ _ | with_reducible exact rfl | exact rfl |  (intro _) | with_reducible refine modPort_moves ?_ ?_ | with_reducible refine ite_moves ?_ ?_ | with_reducible refine ite_snd_moves ?_ ?_ | with_reducible refine ite_fst_moves ?_ ?_ | split | refine fst_of_eq (by assumption) ?_ | refine snd_of_eq (by assumption) ?_ | dsimp only)

theorem hold_moves {ll ss} {s : State} {fid : Nat} {h : Held} (hh : Moves ll ss s) (hsub : sub [.frames] ll = true) :
    Moves ll ss (hold s fid h) := by
  refine hh.trans ?_ hsub; unfold hold
  repeat' (first | with_reducible assumption | with_reducible exact Moves.refl _ _ | with_reducible exact rfl | exact rfl |  (intro _) | with_reducible refine ite_moves ?_ ?_ | with_reducible refine ite_snd_moves ?_ ?_ | with_reducible refine ite_fst_moves ?_ ?_ | split | refine fst_of_eq (by assumption) ?_ | refine snd_of_eq (by assumption) ?_ | with_reducible refine upd_frames ?_ ?_ | dsimp only)

theorem modLink_moves {ll ss} {s : State} {p : Nat} {f : Link → Link} (hh : Moves ll ss s) (hsub : sub [.ports] ll = true) :
    Moves ll ss (modLink s p f) := by
  refine hh.trans ?_ hsub; unfold modLink
  repeat' (first | with_reducible assumption | with_reducible exact Moves.refl _ _ | with_reducible exact rfl | exact rfl |  (intro _) | with_reducible refine modPort_moves ?_ ?_ | with_reducible refine ite_moves ?_ ?_ | with_reducible refine ite_snd_moves ?_ ?_ | with_reducible refine ite_fst_moves ?_ ?_ | split | refine fst_of_eq (by assumption) ?_ | refine snd_of_eq (by assumption) ?_ | dsimp only)

theorem modQ_moves {ll ss} {s : State} {p : Nat} {f : PortQ → PortQ} (hh : Moves ll ss s) (hsub : sub [.ports] ll = true) :
    Moves ll ss (modQ s p f) := by
  refine hh.trans ?_ hsub; unfold modQ
  repeat' (first | with_reducible assumption | with_reducible exact Moves.refl _ _ | with_reducible exact rfl | exact rfl |  (intro _) | with_reducible refine modPort_moves ?_ ?_ | with_reducible refine ite_moves ?_ ?_ | with_reducible refine ite_snd_moves ?_ ?_ | with_reducible refine ite_fst_moves ?_ ?_ | split | refine fst_of_eq (by assumption) ?_ | refine snd_of_eq (by assumption) ?_ | dsimp only)

theorem modKick_moves {ll ss} {s : State} {p : Nat} {f : Kick → Kick} (hh : Moves ll ss s) (hsub : sub [.ports] ll = true) :
    Moves ll ss (modKick s p f) := by
  refine hh.trans ?_ hsub; unfold modKick
  repeat' (first | with_reducible assumption | with_reducible exact Moves.refl _ _ | with_reducible exact rfl | exact rfl |  (intro _) | with_reducible refine modPort_moves ?_ ?_ | with_reducible refine ite_moves ?_ ?_ | with_reducible refine ite_snd_moves ?_ ?_ | with_reducible refine ite_fst_moves ?_ ?_ | split | refine fst_of_eq (by assumption) ?_ | refine snd_of_eq (by assumption) ?_ | dsimp only)

theorem testCell_moves {ll ss} {s : State} {b : Held} {c : CellFault} (hh : Moves ll ss s) (hsub : sub [.host, .stats, .blockCounts, .pools, .fresh] ll = true) :
    Moves ll ss (testCell s b c) := by
  refine hh.trans ?_ hsub; unfold testCell
  repeat' (first | with_reducible assumption | with_reducible exact Moves.refl _ _ | with_reducible exact rfl | exact rfl |  (intro _) | with_reducible refine poolFault_moves ?_ ?_ | with_reducible refine countBlock_moves ?_ ?_ | with_reducible refine setCause_moves ?_ ?_ | with_reducible refine ite_moves ?_ ?_ | with_reducible refine ite_snd_moves ?_ ?_ | with_reducible refine ite_fst_moves ?_ ?_ | split | refine fst_of_eq (by assumption) ?_ | refine snd_of_eq (by assumption) ?_ | with_reducible refine upd_pools ?_ ?_ | dsimp only)

theorem testCells_moves {ll ss} {s : State} {fid : Nat} {b : Held} (hh : Moves ll ss s) (hsub : sub [.host, .stats, .blockCounts, .pools, .faults, .fresh] ll = true) :
    Moves ll ss (testCells s fid b) := by
  refine hh.trans ?_ hsub; unfold testCells
  repeat' (first | with_reducible assumption | with_reducible exact Moves.refl _ _ | with_reducible exact rfl | exact rfl |  (intro _) | with_reducible refine testCell_moves ?_ ?_ | with_reducible refine foldl_moves ?_ ?_ | with_reducible refine foldl_fst_moves ?_ ?_ | with_reducible refine ite_moves ?_ ?_ | with_reducible refine ite_snd_moves ?_ ?_ | with_reducible refine ite_fst_moves ?_ ?_ | split | refine fst_of_eq (by assumption) ?_ | refine snd_of_eq (by assumption) ?_ | with_reducible refine upd_faults ?_ ?_ | dsimp only)

theorem dropCopy_moves {ll ss} {s : State} {fid : Nat} (hh : Moves ll ss s) (hsub : sub [.host, .stats, .ports, .frames, .blockCounts, .pools, .faults, .fresh] ll = true) :
    Moves ll ss (dropCopy s fid) := by
  refine hh.trans ?_ hsub; unfold dropCopy
  repeat' (first | with_reducible assumption | with_reducible exact Moves.refl _ _ | with_reducible exact rfl | exact rfl |  (intro _) | with_reducible refine testCells_moves ?_ ?_ | with_reducible refine giveCells_moves ?_ ?_ | with_reducible refine owe_moves ?_ ?_ | with_reducible refine ite_moves ?_ ?_ | with_reducible refine ite_snd_moves ?_ ?_ | with_reducible refine ite_fst_moves ?_ ?_ | split | refine fst_of_eq (by assumption) ?_ | refine snd_of_eq (by assumption) ?_ | with_reducible refine upd_frames ?_ ?_ | with_reducible refine upd_pools ?_ ?_ | dsimp only)

theorem dropLater_moves {ll ss} {s : State} {fid : Nat} (hh : Moves ll ss s) (hsub : sub [.dropping] ll = true) :
    Moves ll ss (dropLater s fid) := by
  refine hh.trans ?_ hsub; unfold dropLater
  repeat' (first | with_reducible assumption | with_reducible exact Moves.refl _ _ | with_reducible exact rfl | exact rfl |  (intro _) | with_reducible refine ite_moves ?_ ?_ | with_reducible refine ite_snd_moves ?_ ?_ | with_reducible refine ite_fst_moves ?_ ?_ | split | refine fst_of_eq (by assumption) ?_ | refine snd_of_eq (by assumption) ?_ | with_reducible refine upd_dropping ?_ ?_ | dsimp only)

theorem dropFlushed_moves {ll ss} {s : State} (hh : Moves ll ss s) (hsub : sub [.host, .stats, .ports, .frames, .blockCounts, .pools, .dropping, .faults, .fresh] ll = true) :
    Moves ll ss (dropFlushed s) := by
  refine hh.trans ?_ hsub; unfold dropFlushed
  repeat' (first | with_reducible assumption | with_reducible exact Moves.refl _ _ | with_reducible exact rfl | exact rfl |  (intro _) | with_reducible refine dropCopy_moves ?_ ?_ | with_reducible refine foldl_moves ?_ ?_ | with_reducible refine foldl_fst_moves ?_ ?_ | with_reducible refine ite_moves ?_ ?_ | with_reducible refine ite_snd_moves ?_ ?_ | with_reducible refine ite_fst_moves ?_ ?_ | split | refine fst_of_eq (by assumption) ?_ | refine snd_of_eq (by assumption) ?_ | with_reducible refine upd_dropping ?_ ?_ | dsimp only)

theorem pushEntry_moves {ll ss} {s : State} {p : Nat} {e : Entry} (hh : Moves ll ss s) (hsub : sub [.ports] ll = true) :
    Moves ll ss (pushEntry s p e) := by
  refine hh.trans ?_ hsub; unfold pushEntry
  repeat' (first | with_reducible assumption | with_reducible exact Moves.refl _ _ | with_reducible exact rfl | exact rfl |  (intro _) | with_reducible refine modPort_moves ?_ ?_ | with_reducible refine ite_moves ?_ ?_ | with_reducible refine ite_snd_moves ?_ ?_ | with_reducible refine ite_fst_moves ?_ ?_ | split | refine fst_of_eq (by assumption) ?_ | refine snd_of_eq (by assumption) ?_ | dsimp only)

theorem countFlush_moves {ll ss} {s : State} {p c : Nat} (hh : Moves ll ss s) (hsub : sub [.ports] ll = true) :
    Moves ll ss (countFlush s p c) := by
  refine hh.trans ?_ hsub; unfold countFlush
  repeat' (first | with_reducible assumption | with_reducible exact Moves.refl _ _ | with_reducible exact rfl | exact rfl |  (intro _) | with_reducible refine countPort_moves ?_ ?_ | with_reducible refine ite_moves ?_ ?_ | with_reducible refine ite_snd_moves ?_ ?_ | with_reducible refine ite_fst_moves ?_ ?_ | split | refine fst_of_eq (by assumption) ?_ | refine snd_of_eq (by assumption) ?_ | dsimp only)

theorem evictMirror_moves {ll ss} {s : State} {fid p : Nat} (hh : Moves ll ss s) (hsub : sub [.host, .stats, .ports, .frames, .blockCounts, .pools, .faults, .fresh] ll = true) :
    Moves ll ss (evictMirror s fid p) := by
  refine hh.trans ?_ hsub; unfold evictMirror
  repeat' (first | with_reducible assumption | with_reducible exact Moves.refl _ _ | with_reducible exact rfl | exact rfl |  (intro _) | with_reducible refine dropCopy_moves ?_ ?_ | with_reducible refine modQ_moves ?_ ?_ | with_reducible refine countPort_moves ?_ ?_ | with_reducible refine ite_moves ?_ ?_ | with_reducible refine ite_snd_moves ?_ ?_ | with_reducible refine ite_fst_moves ?_ ?_ | split | refine fst_of_eq (by assumption) ?_ | refine snd_of_eq (by assumption) ?_ | with_reducible refine upd_pools ?_ ?_ | dsimp only)

theorem dropMirrors_moves {ll ss} {n : Nat} {s : State} {slice k : Nat} (hh : Moves ll ss s) (hsub : sub [.host, .stats, .ports, .frames, .blockCounts, .pools, .faults, .fresh] ll = true) : Moves ll ss (dropMirrors n s slice k) := by
  refine hh.trans ?_ hsub; clear hh hsub
  suffices H : ∀ s1, Moves [.host, .stats, .ports, .frames, .blockCounts, .pools, .faults, .fresh] s1 s → Moves [.host, .stats, .ports, .frames, .blockCounts, .pools, .faults, .fresh] s1 (dropMirrors n s slice k) from H _ (Moves.refl _ _)
  induction n generalizing s with
  | zero => intro s1 h; exact h
  | succ k ih =>
    intro s1 h; unfold dropMirrors
    repeat' (first | with_reducible assumption | with_reducible exact Moves.refl _ _ | with_reducible exact rfl | exact rfl |  (intro _) | with_reducible apply ih | with_reducible refine evictMirror_moves ?_ ?_ | with_reducible refine foldl_moves ?_ ?_ | with_reducible refine foldl_fst_moves ?_ ?_ | with_reducible refine ite_moves ?_ ?_ | with_reducible refine ite_snd_moves ?_ ?_ | with_reducible refine ite_fst_moves ?_ ?_ | split | refine fst_of_eq (by assumption) ?_ | refine snd_of_eq (by assumption) ?_ | dsimp only)

theorem makeRoom_moves {ll ss} {s : State} {slice k : Nat} (hh : Moves ll ss s) (hsub : sub [.host, .stats, .ports, .frames, .blockCounts, .pools, .faults, .fresh] ll = true) :
    Moves ll ss (makeRoom s slice k) := by
  refine hh.trans ?_ hsub; unfold makeRoom
  repeat' (first | with_reducible assumption | with_reducible exact Moves.refl _ _ | with_reducible exact rfl | exact rfl |  (intro _) | with_reducible refine dropMirrors_moves ?_ ?_ | with_reducible refine ite_moves ?_ ?_ | with_reducible refine ite_snd_moves ?_ ?_ | with_reducible refine ite_fst_moves ?_ ?_ | split | refine fst_of_eq (by assumption) ?_ | refine snd_of_eq (by assumption) ?_ | dsimp only)

theorem mirrorCopy_moves {ll ss} {s : State} {m p slice : Nat} {e : Entry} {copyOf : Option (Nat × Nat)} (hh : Moves ll ss s) (hsub : sub [.host, .ports, .frames, .pools, .fresh] ll = true) :
    Moves ll ss (mirrorCopy s m p slice e copyOf) := by
  refine hh.trans ?_ hsub; unfold mirrorCopy
  repeat' (first | with_reducible assumption | with_reducible exact Moves.refl _ _ | with_reducible exact rfl | exact rfl |  (intro _) | with_reducible refine ready_moves ?_ ?_ | with_reducible refine countPort_moves ?_ ?_ | with_reducible refine takeFresh_moves ?_ ?_ | with_reducible refine hold_moves ?_ ?_ | with_reducible refine pushEntry_moves ?_ ?_ | with_reducible refine ite_moves ?_ ?_ | with_reducible refine ite_snd_moves ?_ ?_ | with_reducible refine ite_fst_moves ?_ ?_ | split | refine fst_of_eq (by assumption) ?_ | refine snd_of_eq (by assumption) ?_ | with_reducible refine upd_pools ?_ ?_ | dsimp only)

theorem mirrorOut_moves {ll ss} {s : State} {p slice : Nat} {e : Entry} (hh : Moves ll ss s) (hsub : sub [.host, .ports, .frames, .pools, .fresh] ll = true) :
    Moves ll ss (mirrorOut s p slice e) := by
  refine hh.trans ?_ hsub; unfold mirrorOut
  repeat' (first | with_reducible assumption | with_reducible exact Moves.refl _ _ | with_reducible exact rfl | exact rfl |  (intro _) | with_reducible refine mirrorCopy_moves ?_ ?_ | with_reducible refine foldl_moves ?_ ?_ | with_reducible refine foldl_fst_moves ?_ ?_ | with_reducible refine ite_moves ?_ ?_ | with_reducible refine ite_snd_moves ?_ ?_ | with_reducible refine ite_fst_moves ?_ ?_ | split | refine fst_of_eq (by assumption) ?_ | refine snd_of_eq (by assumption) ?_ | dsimp only)

theorem stompCopies_moves {ll ss} {s : State} {of : Nat × Nat → Bool} {reason : W16} (hh : Moves ll ss s) (hsub : sub [.ports] ll = true) :
    Moves ll ss (stompCopies s of reason) := by
  refine hh.trans ?_ hsub; unfold stompCopies
  repeat' (first | with_reducible assumption | with_reducible exact Moves.refl _ _ | with_reducible exact rfl | exact rfl |  (intro _) | with_reducible refine modQ_moves ?_ ?_ | with_reducible refine foldl_moves ?_ ?_ | with_reducible refine foldl_fst_moves ?_ ?_ | with_reducible refine ite_moves ?_ ?_ | with_reducible refine ite_snd_moves ?_ ?_ | with_reducible refine ite_fst_moves ?_ ?_ | split | refine fst_of_eq (by assumption) ?_ | refine snd_of_eq (by assumption) ?_ | dsimp only)

theorem enqueue_moves {ll ss} {s : State} {p : Nat} {e : Entry} (hh : Moves ll ss s) (hsub : sub [.host, .ports, .frames, .pools, .fresh] ll = true) :
    Moves ll ss (enqueue s p e) := by
  refine hh.trans ?_ hsub; unfold enqueue
  repeat' (first | with_reducible assumption | with_reducible exact Moves.refl _ _ | with_reducible exact rfl | exact rfl |  (intro _) | with_reducible refine pushEntry_moves ?_ ?_ | with_reducible refine mirrorOut_moves ?_ ?_ | with_reducible refine ite_moves ?_ ?_ | with_reducible refine ite_snd_moves ?_ ?_ | with_reducible refine ite_fst_moves ?_ ?_ | split | refine fst_of_eq (by assumption) ?_ | refine snd_of_eq (by assumption) ?_ | dsimp only)

theorem takeOwn_moves {l s0} {s t : State} {cs : List (Nat × Entry)} (h : Moves l s0 s) (hs : sub [.host, .stats, .ports, .frames, .blockCounts, .pools, .faults, .fresh] l = true)
    (e : takeOwn s cs = some t) : Moves l s0 t := by
  refine h.trans ?_ hs
  unfold takeOwn at e
  split at e
  · cases e
  · dsimp only at e
    split at e
    · cases e; exact hold_moves (takeCells_moves (makeRoom_moves (Moves.refl _ _) rfl) rfl) rfl
    · cases e

theorem emitAll_moves {ll ss} {s : State} {cs : List (Nat × Entry)} (hh : Moves ll ss s) (hsub : sub [.host, .stats, .ports, .frames, .stalled, .blockCounts, .pools, .faults, .fresh] ll = true) :
    Moves ll ss (emitAll s cs) := by
  refine hh.trans ?_ hsub
  unfold emitAll
  dsimp only
  split
  · exact foldl_moves (Moves.refl _ _) fun _ _ h => enqueue_moves h rfl
  · split
    · exact upd_stalled (Moves.refl _ _) rfl
    · split
      · next heq => exact foldl_moves (takeOwn_moves (Moves.refl _ _) rfl heq) fun _ _ h => enqueue_moves h rfl
      · exact upd_stalled (Moves.refl _ _) rfl

theorem emitTo_moves {ll ss} {s : State} {p : Nat} {f : Frame} {ready : Nat} {prepared : Bool} {aligned : Option (Nat × Nat)} (hh : Moves ll ss s) (hsub : sub [.host, .stats, .ports, .frames, .stalled, .blockCounts, .pools, .faults, .fresh] ll = true) :
    Moves ll ss (emitTo s p f ready prepared aligned) := by
  refine hh.trans ?_ hsub; unfold emitTo
  repeat' (first | with_reducible assumption | with_reducible exact Moves.refl _ _ | with_reducible exact rfl | exact rfl |  (intro _) | with_reducible refine takeFresh_moves ?_ ?_ | with_reducible refine emitAll_moves ?_ ?_ | with_reducible refine ready_moves ?_ ?_ | with_reducible refine ite_moves ?_ ?_ | with_reducible refine ite_snd_moves ?_ ?_ | with_reducible refine ite_fst_moves ?_ ?_ | split | refine fst_of_eq (by assumption) ?_ | refine snd_of_eq (by assumption) ?_ | dsimp only)

theorem retryOne_moves {ll ss} {s : State} {x : Nat × Entry} (hh : Moves ll ss s) (hsub : sub [.host, .stats, .ports, .frames, .stalled, .blockCounts, .pools, .faults, .fresh] ll = true) :
    Moves ll ss (retryOne s x) := by
  refine hh.trans ?_ hsub
  unfold retryOne
  dsimp only
  split
  · split
    · next heq => exact foldl_moves (upd_stalled (takeOwn_moves (Moves.refl _ _) rfl heq) rfl) fun _ _ h => enqueue_moves h rfl
    · exact Moves.refl _ _
  · exact Moves.refl _ _

theorem retryStalled_moves {ll ss} {s : State} (hh : Moves ll ss s) (hsub : sub [.host, .stats, .ports, .frames, .stalled, .blockCounts, .pools, .faults, .fresh] ll = true) :
    Moves ll ss (retryStalled s) := by
  refine hh.trans ?_ hsub; unfold retryStalled
  repeat' (first | with_reducible assumption | with_reducible exact Moves.refl _ _ | with_reducible exact rfl | exact rfl |  (intro _) | with_reducible refine retryOne_moves ?_ ?_ | with_reducible refine foldl_moves ?_ ?_ | with_reducible refine foldl_fst_moves ?_ ?_ | with_reducible refine ite_moves ?_ ?_ | with_reducible refine ite_snd_moves ?_ ?_ | with_reducible refine ite_fst_moves ?_ ?_ | split | refine fst_of_eq (by assumption) ?_ | refine snd_of_eq (by assumption) ?_ | dsimp only)

theorem sendOwn_moves {ll ss} {s : State} {h : Header} {payload : List Byte} {ready : Nat → Nat} (hh : Moves ll ss s) (hsub : sub [.host, .stats, .ports, .frames, .stalled, .blockCounts, .pools, .intake, .faults, .fresh] ll = true) :
    Moves ll ss (sendOwn s h payload ready) := by
  refine hh.trans ?_ hsub; unfold sendOwn
  repeat' (first | with_reducible assumption | with_reducible exact Moves.refl _ _ | with_reducible exact rfl | exact rfl |  (intro _) | with_reducible refine modQ_moves ?_ ?_ | with_reducible refine emitTo_moves ?_ ?_ | with_reducible refine ready_moves ?_ ?_ | with_reducible refine ite_moves ?_ ?_ | with_reducible refine ite_snd_moves ?_ ?_ | with_reducible refine ite_fst_moves ?_ ?_ | split | refine fst_of_eq (by assumption) ?_ | refine snd_of_eq (by assumption) ?_ | with_reducible refine upd_intake_fresh ?_ ?_ | with_reducible refine upd_fresh ?_ ?_ | dsimp only)

theorem sendGroup_moves {ll ss} {s : State} {h : Header} {payload : List Byte} {ready : Nat → Nat} {prepared : Bool} {aligned : Nat → Option (Nat × Nat)} (hh : Moves ll ss s) (hsub : sub [.host, .stats, .ports, .frames, .stalled, .blockCounts, .pools, .faults, .fresh] ll = true) :
    Moves ll ss (sendGroup s h payload ready prepared aligned) := by
  refine hh.trans ?_ hsub; unfold sendGroup
  repeat' (first | with_reducible assumption | with_reducible exact Moves.refl _ _ | with_reducible exact rfl | exact rfl |  (intro _) | with_reducible refine countFlush_moves ?_ ?_ | with_reducible refine takeFresh_moves ?_ ?_ | with_reducible refine emitAll_moves ?_ ?_ | with_reducible refine ready_moves ?_ ?_ | with_reducible refine foldl_moves ?_ ?_ | with_reducible refine foldl_fst_moves ?_ ?_ | with_reducible refine ite_moves ?_ ?_ | with_reducible refine ite_snd_moves ?_ ?_ | with_reducible refine ite_fst_moves ?_ ?_ | split | refine fst_of_eq (by assumption) ?_ | refine snd_of_eq (by assumption) ?_ | with_reducible refine upd_fresh ?_ ?_ | dsimp only)

theorem recallFrames_moves {ll ss} {s : State} {p : Header → Bool} (hh : Moves ll ss s) (hsub : sub [.ports, .stalled, .dropping] ll = true) :
    Moves ll ss (recallFrames s p) := by
  refine hh.trans ?_ hsub; unfold recallFrames
  repeat' (first | with_reducible assumption | with_reducible exact Moves.refl _ _ | with_reducible exact rfl | exact rfl |  (intro _) | with_reducible refine dropLater_moves ?_ ?_ | with_reducible refine setPort_moves ?_ ?_ | with_reducible refine foldl_moves ?_ ?_ | with_reducible refine foldl_fst_moves ?_ ?_ | with_reducible refine ite_moves ?_ ?_ | with_reducible refine ite_snd_moves ?_ ?_ | with_reducible refine ite_fst_moves ?_ ?_ | split | refine fst_of_eq (by assumption) ?_ | refine snd_of_eq (by assumption) ?_ | with_reducible refine upd_stalled ?_ ?_ | dsimp only)

theorem flushQueue_moves {ll ss} {s : State} {p : Nat} (hh : Moves ll ss s) (hsub : sub [.ports, .stalled, .dropping] ll = true) :
    Moves ll ss (flushQueue s p) := by
  refine hh.trans ?_ hsub; unfold flushQueue
  repeat' (first | with_reducible assumption | with_reducible exact Moves.refl _ _ | with_reducible exact rfl | exact rfl |  (intro _) | with_reducible refine modPort_moves ?_ ?_ | with_reducible refine countFlush_moves ?_ ?_ | with_reducible refine dropLater_moves ?_ ?_ | with_reducible refine foldl_moves ?_ ?_ | with_reducible refine foldl_fst_moves ?_ ?_ | with_reducible refine ite_moves ?_ ?_ | with_reducible refine ite_snd_moves ?_ ?_ | with_reducible refine ite_fst_moves ?_ ?_ | split | refine fst_of_eq (by assumption) ?_ | refine snd_of_eq (by assumption) ?_ | with_reducible refine upd_stalled ?_ ?_ | dsimp only)

theorem loseLane_moves {ll ss} {s : State} {p : Nat} (hh : Moves ll ss s) (hsub : sub [.ports, .dropping] ll = true) :
    Moves ll ss (loseLane s p) := by
  refine hh.trans ?_ hsub; unfold loseLane
  repeat' (first | with_reducible assumption | with_reducible exact Moves.refl _ _ | with_reducible exact rfl | exact rfl |  (intro _) | with_reducible refine dropLater_moves ?_ ?_ | with_reducible refine modQ_moves ?_ ?_ | with_reducible refine ite_moves ?_ ?_ | with_reducible refine ite_snd_moves ?_ ?_ | with_reducible refine ite_fst_moves ?_ ?_ | split | refine fst_of_eq (by assumption) ?_ | refine snd_of_eq (by assumption) ?_ | dsimp only)

theorem cutCopies_moves {ll ss} {s : State} {of : Nat × Nat} {sent : Nat} {reason : W16} (hh : Moves ll ss s) (hsub : sub [.ports] ll = true) :
    Moves ll ss (cutCopies s of sent reason) := by
  refine hh.trans ?_ hsub; unfold cutCopies
  repeat' (first | with_reducible assumption | with_reducible exact Moves.refl _ _ | with_reducible exact rfl | exact rfl |  (intro _) | with_reducible refine modQ_moves ?_ ?_ | with_reducible refine foldl_moves ?_ ?_ | with_reducible refine foldl_fst_moves ?_ ?_ | with_reducible refine ite_moves ?_ ?_ | with_reducible refine ite_snd_moves ?_ ?_ | with_reducible refine ite_fst_moves ?_ ?_ | split | refine fst_of_eq (by assumption) ?_ | refine snd_of_eq (by assumption) ?_ | dsimp only)

theorem cutRecords_moves {ll ss} {s : State} {fid p : Nat} {f : Option Frame} (hh : Moves ll ss s) (hsub : sub [.tandem] ll = true) :
    Moves ll ss (cutRecords s fid p f) := by
  refine hh.trans ?_ hsub; unfold cutRecords
  repeat' (first | with_reducible assumption | with_reducible exact Moves.refl _ _ | with_reducible exact rfl | exact rfl |  (intro _) | with_reducible refine ite_moves ?_ ?_ | with_reducible refine ite_snd_moves ?_ ?_ | with_reducible refine ite_fst_moves ?_ ?_ | split | refine fst_of_eq (by assumption) ?_ | refine snd_of_eq (by assumption) ?_ | with_reducible refine upd_tandem ?_ ?_ | dsimp only)

theorem cutLane_moves {ll ss} {s : State} {p : Nat} {reason : W16} (hh : Moves ll ss s) (hsub : sub [.ports, .tandem, .dropping] ll = true) :
    Moves ll ss (cutLane s p reason) := by
  refine hh.trans ?_ hsub; unfold cutLane
  repeat' (first | with_reducible assumption | with_reducible exact Moves.refl _ _ | with_reducible exact rfl | exact rfl |  (intro _) | with_reducible refine cutRecords_moves ?_ ?_ | with_reducible refine modQ_moves ?_ ?_ | with_reducible refine countPort_moves ?_ ?_ | with_reducible refine dropLater_moves ?_ ?_ | with_reducible refine cutCopies_moves ?_ ?_ | with_reducible refine ite_moves ?_ ?_ | with_reducible refine ite_snd_moves ?_ ?_ | with_reducible refine ite_fst_moves ?_ ?_ | split | refine fst_of_eq (by assumption) ?_ | refine snd_of_eq (by assumption) ?_ | dsimp only)

theorem cutInput_moves {ll ss} {s : State} {p : Nat} (hh : Moves ll ss s) (hsub : sub [.ports, .reorder, .tandem, .dropping, .intake] ll = true) :
    Moves ll ss (cutInput s p) := by
  refine hh.trans ?_ hsub; unfold cutInput
  repeat' (first | with_reducible assumption | with_reducible exact Moves.refl _ _ | with_reducible exact rfl | exact rfl |  (intro _) | with_reducible refine cutRecords_moves ?_ ?_ | with_reducible refine modQ_moves ?_ ?_ | with_reducible refine cutLane_moves ?_ ?_ | with_reducible refine foldl_moves ?_ ?_ | with_reducible refine foldl_fst_moves ?_ ?_ | with_reducible refine ite_moves ?_ ?_ | with_reducible refine ite_snd_moves ?_ ?_ | with_reducible refine ite_fst_moves ?_ ?_ | split | refine fst_of_eq (by assumption) ?_ | refine snd_of_eq (by assumption) ?_ | with_reducible refine upd_reorder_intake ?_ ?_ | dsimp only)

theorem kickDetect_moves {ll ss} {s : State} {p cause till : Nat} (hh : Moves ll ss s) (hsub : sub [.host, .stats, .ports, .fresh] ll = true) :
    Moves ll ss (kickDetect s p cause till) := by
  refine hh.trans ?_ hsub; unfold kickDetect
  repeat' (first | with_reducible assumption | with_reducible exact Moves.refl _ _ | with_reducible exact rfl | exact rfl |  (intro _) | with_reducible refine modKick_moves ?_ ?_ | with_reducible refine setCause_moves ?_ ?_ | with_reducible refine countPort_moves ?_ ?_ | with_reducible refine postEvent_moves ?_ ?_ | with_reducible refine ite_moves ?_ ?_ | with_reducible refine ite_snd_moves ?_ ?_ | with_reducible refine ite_fst_moves ?_ ?_ | split | refine fst_of_eq (by assumption) ?_ | refine snd_of_eq (by assumption) ?_ | dsimp only)

theorem kickLate_moves {ll ss} {s : State} {job cause till : Nat} (hh : Moves ll ss s) (hsub : sub [.host, .stats, .ports, .fresh] ll = true) :
    Moves ll ss (kickLate s job cause till) := by
  refine hh.trans ?_ hsub; unfold kickLate
  repeat' (first | with_reducible assumption | with_reducible exact Moves.refl _ _ | with_reducible exact rfl | exact rfl |  (intro _) | with_reducible refine kickDetect_moves ?_ ?_ | with_reducible refine foldl_moves ?_ ?_ | with_reducible refine foldl_fst_moves ?_ ?_ | with_reducible refine ite_moves ?_ ?_ | with_reducible refine ite_snd_moves ?_ ?_ | with_reducible refine ite_fst_moves ?_ ?_ | split | refine fst_of_eq (by assumption) ?_ | refine snd_of_eq (by assumption) ?_ | dsimp only)

theorem kickTest_moves {ll ss} {s : State} {p : Nat} (hh : Moves ll ss s) (hsub : sub [.host, .stats, .ports, .fresh] ll = true) :
    Moves ll ss (kickTest s p) := by
  refine hh.trans ?_ hsub; unfold kickTest
  repeat' (first | with_reducible assumption | with_reducible exact Moves.refl _ _ | with_reducible exact rfl | exact rfl |  (intro _) | with_reducible refine kickDetect_moves ?_ ?_ | with_reducible refine modKick_moves ?_ ?_ | with_reducible refine ite_moves ?_ ?_ | with_reducible refine ite_snd_moves ?_ ?_ | with_reducible refine ite_fst_moves ?_ ?_ | split | refine fst_of_eq (by assumption) ?_ | refine snd_of_eq (by assumption) ?_ | dsimp only)

theorem loseKicks_moves {ll ss} {s : State} {p : Nat} (hh : Moves ll ss s) (hsub : sub [.host, .stats, .ports, .fresh] ll = true) :
    Moves ll ss (loseKicks s p) := by
  refine hh.trans ?_ hsub; unfold loseKicks
  repeat' (first | with_reducible assumption | with_reducible exact Moves.refl _ _ | with_reducible exact rfl | exact rfl |  (intro _) | with_reducible refine modKick_moves ?_ ?_ | with_reducible refine setCause_moves ?_ ?_ | with_reducible refine countPort_moves ?_ ?_ | with_reducible refine foldl_moves ?_ ?_ | with_reducible refine foldl_fst_moves ?_ ?_ | with_reducible refine ite_moves ?_ ?_ | with_reducible refine ite_snd_moves ?_ ?_ | with_reducible refine ite_fst_moves ?_ ?_ | split | refine fst_of_eq (by assumption) ?_ | refine snd_of_eq (by assumption) ?_ | dsimp only)

end Sys2Proof.Laws
end

