-- ==== Sys2Proof/Laws/Moves/Regs.lean ====
section
/-! SUPPORT. What the operations of Machine/Regs.lean may change: one lemma each. -/

set_option linter.unusedTactic false
set_option linter.unreachableTactic false
set_option linter.unusedVariables false

namespace Sys2Proof.Laws

open Sys2Proof.Machine Sys2Proof.Safety

theorem refuseField_moves {ll ss} {s : State} {off lsb reason : Nat} (hh : Moves ll ss s) (hsub : sub [.refused] ll = true) :
    Moves ll ss (refuseField s off lsb reason) := by
  refine hh.trans ?_ hsub; unfold refuseField
  repeat' (first | with_reducible assumption | with_reducible exact Moves.refl _ _ | with_reducible exact rfl | exact rfl |  (intro _) | with_reducible refine ite_moves ?_ ?_ | with_reducible refine ite_snd_moves ?_ ?_ | with_reducible refine ite_fst_moves ?_ ?_ | split | refine fst_of_eq (by assumption) ?_ | refine snd_of_eq (by assumption) ?_ | with_reducible refine upd_refused ?_ ?_ | dsimp only)

theorem setAgain_moves {ll ss} {s : State} {src b : Nat} (hh : Moves ll ss s) (hsub : sub [.host, .stats, .fresh] ll = true) :
    Moves ll ss (setAgain s src b) := by
  refine hh.trans ?_ hsub; unfold setAgain
  repeat' (first | with_reducible assumption | with_reducible exact Moves.refl _ _ | with_reducible exact rfl | exact rfl |  (intro _) | with_reducible refine postEvent_moves ?_ ?_ | with_reducible refine setBit_moves ?_ ?_ | with_reducible refine setCause_moves ?_ ?_ | with_reducible refine ite_moves ?_ ?_ | with_reducible refine ite_snd_moves ?_ ?_ | with_reducible refine ite_fst_moves ?_ ?_ | split | refine fst_of_eq (by assumption) ?_ | refine snd_of_eq (by assumption) ?_ | dsimp only)

theorem clearStatus_moves {ll ss} {s : State} {src : Nat} {v : W32} (hh : Moves ll ss s) (hsub : sub [.host, .stats, .fresh] ll = true) :
    Moves ll ss (clearStatus s src v) := by
  refine hh.trans ?_ hsub; unfold clearStatus
  repeat' (first | with_reducible assumption | with_reducible exact Moves.refl _ _ | with_reducible exact rfl | exact rfl |  (intro _) | with_reducible refine setStat_moves ?_ ?_ | with_reducible refine setAgain_moves ?_ ?_ | with_reducible refine foldl_moves ?_ ?_ | with_reducible refine foldl_fst_moves ?_ ?_ | with_reducible refine ite_moves ?_ ?_ | with_reducible refine ite_snd_moves ?_ ?_ | with_reducible refine ite_fst_moves ?_ ?_ | split | refine fst_of_eq (by assumption) ?_ | refine snd_of_eq (by assumption) ?_ | dsimp only)

theorem writeStatus_moves {ll ss} {s : State} {src : Nat} {v : W32} (hh : Moves ll ss s) (hsub : sub [.stats] ll = true) :
    Moves ll ss (writeStatus s src v) := by
  refine hh.trans ?_ hsub; unfold writeStatus
  repeat' (first | with_reducible assumption | with_reducible exact Moves.refl _ _ | with_reducible exact rfl | exact rfl |  (intro _) | with_reducible refine setStat_moves ?_ ?_ | with_reducible refine ite_moves ?_ ?_ | with_reducible refine ite_snd_moves ?_ ?_ | with_reducible refine ite_fst_moves ?_ ?_ | split | refine fst_of_eq (by assumption) ?_ | refine snd_of_eq (by assumption) ?_ | dsimp only)

theorem writeEnable_moves {ll ss} {s : State} {src : Nat} {en : W32} (hh : Moves ll ss s) (hsub : sub [.host, .stats] ll = true) :
    Moves ll ss (writeEnable s src en) := by
  refine hh.trans ?_ hsub; unfold writeEnable
  repeat' (first | with_reducible assumption | with_reducible exact Moves.refl _ _ | with_reducible exact rfl | exact rfl |  (intro _) | with_reducible refine setStat_moves ?_ ?_ | with_reducible refine raiseVector_moves ?_ ?_ | with_reducible refine ite_moves ?_ ?_ | with_reducible refine ite_snd_moves ?_ ?_ | with_reducible refine ite_fst_moves ?_ ?_ | split | refine fst_of_eq (by assumption) ?_ | refine snd_of_eq (by assumption) ?_ | dsimp only)

theorem noteState_moves {ll ss} {s : State} {src b unit : Nat} (hh : Moves ll ss s) (hsub : sub [.host, .stats, .fresh] ll = true) :
    Moves ll ss (noteState s src b unit) := by
  refine hh.trans ?_ hsub; unfold noteState
  repeat' (first | with_reducible assumption | with_reducible exact Moves.refl _ _ | with_reducible exact rfl | exact rfl |  (intro _) | with_reducible refine setCause_moves ?_ ?_ | with_reducible refine ite_moves ?_ ?_ | with_reducible refine ite_snd_moves ?_ ?_ | with_reducible refine ite_fst_moves ?_ ?_ | split | refine fst_of_eq (by assumption) ?_ | refine snd_of_eq (by assumption) ?_ | dsimp only)

theorem clearKick_moves {ll ss} {s : State} {p : Nat} (hh : Moves ll ss s) (hsub : sub [.host, .stats, .ports, .fresh] ll = true) :
    Moves ll ss (clearKick s p) := by
  refine hh.trans ?_ hsub; unfold clearKick
  repeat' (first | with_reducible assumption | with_reducible exact Moves.refl _ _ | with_reducible exact rfl | exact rfl |  (intro _) | with_reducible refine modKick_moves ?_ ?_ | with_reducible refine setCause_moves ?_ ?_ | with_reducible refine ite_moves ?_ ?_ | with_reducible refine ite_snd_moves ?_ ?_ | with_reducible refine ite_fst_moves ?_ ?_ | split | refine fst_of_eq (by assumption) ?_ | refine snd_of_eq (by assumption) ?_ | dsimp only)

theorem writeLatches_moves {ll ss} {s : State} {org : RegOrigin} {nn : Nat} {v : W32} (hh : Moves ll ss s) (hsub : sub [.ports] ll = true) :
    Moves ll ss (writeLatches s org nn v) := by
  refine hh.trans ?_ hsub; unfold writeLatches
  repeat' (first | with_reducible assumption | with_reducible exact Moves.refl _ _ | with_reducible exact rfl | exact rfl |  (intro _) | with_reducible refine modKick_moves ?_ ?_ | with_reducible refine foldl_moves ?_ ?_ | with_reducible refine foldl_fst_moves ?_ ?_ | with_reducible refine ite_moves ?_ ?_ | with_reducible refine ite_snd_moves ?_ ?_ | with_reducible refine ite_fst_moves ?_ ?_ | split | refine fst_of_eq (by assumption) ?_ | refine snd_of_eq (by assumption) ?_ | dsimp only)

theorem latchReads_moves {ll ss} {s : State} {off : Nat} (hh : Moves ll ss s) (hsub : sub [.host] ll = true) :
    Moves ll ss (latchReads s off) := by
  refine hh.trans ?_ hsub; unfold latchReads
  repeat' (first | with_reducible assumption | with_reducible exact Moves.refl _ _ | with_reducible exact rfl | exact rfl | ((fail_if_success (show Moves _ _ _)); first | exact side_hostSame rfl rfl rfl rfl | exact side_tables rfl | exact side_nil | exact side_map | exact side_hostMap rfl rfl rfl rfl | exact side_host4 rfl rfl rfl rfl) |  (intro _) | with_reducible refine foldl_moves ?_ ?_ | with_reducible refine foldl_fst_moves ?_ ?_ | with_reducible refine ite_moves ?_ ?_ | with_reducible refine ite_snd_moves ?_ ?_ | with_reducible refine ite_fst_moves ?_ ?_ | split | refine fst_of_eq (by assumption) ?_ | refine snd_of_eq (by assumption) ?_ | with_reducible refine upd_host ?_ ?_ ?_ | dsimp only)

theorem recordReg_moves {ll ss} {s : State} {org : RegOrigin} {off old new : Nat} (hh : Moves ll ss s) (hsub : sub [.ledger] ll = true) :
    Moves ll ss (recordReg s org off old new) := by
  refine hh.trans ?_ hsub; unfold recordReg
  repeat' (first | with_reducible assumption | with_reducible exact Moves.refl _ _ | with_reducible exact rfl | exact rfl |  (intro _) | with_reducible refine recordRaw_moves ?_ ?_ | with_reducible refine ite_moves ?_ ?_ | with_reducible refine ite_snd_moves ?_ ?_ | with_reducible refine ite_fst_moves ?_ ?_ | split | refine fst_of_eq (by assumption) ?_ | refine snd_of_eq (by assumption) ?_ | dsimp only)

theorem stageLow_moves {ll ss} {s : State} {off : Nat} {v : W32} (hh : Moves ll ss s) (hsub : sub [.host] ll = true) :
    Moves ll ss (stageLow s off v) := by
  refine hh.trans ?_ hsub; unfold stageLow
  repeat' (first | with_reducible assumption | with_reducible exact Moves.refl _ _ | with_reducible exact rfl | exact rfl | ((fail_if_success (show Moves _ _ _)); first | exact side_hostSame rfl rfl rfl rfl | exact side_tables rfl | exact side_nil | exact side_map | exact side_hostMap rfl rfl rfl rfl | exact side_host4 rfl rfl rfl rfl) |  (intro _) | with_reducible refine ite_moves ?_ ?_ | with_reducible refine ite_snd_moves ?_ ?_ | with_reducible refine ite_fst_moves ?_ ?_ | split | refine fst_of_eq (by assumption) ?_ | refine snd_of_eq (by assumption) ?_ | with_reducible refine upd_host ?_ ?_ ?_ | dsimp only)

theorem clearLow_moves {ll ss} {s : State} {off : Nat} (hh : Moves ll ss s) (hsub : sub [.host] ll = true) :
    Moves ll ss (clearLow s off) := by
  refine hh.trans ?_ hsub; unfold clearLow
  repeat' (first | with_reducible assumption | with_reducible exact Moves.refl _ _ | with_reducible exact rfl | exact rfl | ((fail_if_success (show Moves _ _ _)); first | exact side_hostSame rfl rfl rfl rfl | exact side_tables rfl | exact side_nil | exact side_map | exact side_hostMap rfl rfl rfl rfl | exact side_host4 rfl rfl rfl rfl) |  (intro _) | with_reducible refine ite_moves ?_ ?_ | with_reducible refine ite_snd_moves ?_ ?_ | with_reducible refine ite_fst_moves ?_ ?_ | split | refine fst_of_eq (by assumption) ?_ | refine snd_of_eq (by assumption) ?_ | with_reducible refine upd_host ?_ ?_ ?_ | dsimp only)

theorem refuseAddr_moves {ll ss} {s : State} {wide : Bool} {off lo reason : Nat} (hh : Moves ll ss s) (hsub : sub [.refused] ll = true) :
    Moves ll ss (refuseAddr s wide off lo reason) := by
  refine hh.trans ?_ hsub; unfold refuseAddr
  repeat' (first | with_reducible assumption | with_reducible exact Moves.refl _ _ | with_reducible exact rfl | exact rfl |  (intro _) | with_reducible refine refuseField_moves ?_ ?_ | with_reducible refine ite_moves ?_ ?_ | with_reducible refine ite_snd_moves ?_ ?_ | with_reducible refine ite_fst_moves ?_ ?_ | split | refine fst_of_eq (by assumption) ?_ | refine snd_of_eq (by assumption) ?_ | dsimp only)

theorem addrWrite_moves {ll ss} {s : State} {wide : Bool} {off : Nat} {locked : Bool} {cur : W64} {lo : Nat} {v : W32} (hh : Moves ll ss s) (hsub : sub [.host, .refused] ll = true) :
    Moves ll ss (addrWrite s wide off locked cur lo v).1 := by
  refine hh.trans ?_ hsub; unfold addrWrite
  repeat' (first | with_reducible assumption | with_reducible exact Moves.refl _ _ | with_reducible exact rfl | exact rfl |  (intro _) | with_reducible refine clearLow_moves ?_ ?_ | with_reducible refine refuseAddr_moves ?_ ?_ | with_reducible refine ite_moves ?_ ?_ | with_reducible refine ite_snd_moves ?_ ?_ | with_reducible refine ite_fst_moves ?_ ?_ | split | refine fst_of_eq (by assumption) ?_ | refine snd_of_eq (by assumption) ?_ | dsimp only)

theorem ctlField_moves {l s0} {off : Nat} {locked : Bool} {legal : Nat → Bool} {cur v : W32} {hi lo : Nat} {a : State × Nat}
    (h : Moves l s0 a.1) (hs : sub [.refused] l = true) : Moves l s0 (ctlField off locked legal cur v hi lo a).1 := by
  refine h.trans ?_ hs; unfold ctlField; dsimp only
  repeat' (first | exact refuseField_moves (Moves.refl _ _) rfl | exact Moves.refl _ _ | split)

theorem takeLine_moves {ll ss} {s : State} {kind ring : Nat} (hh : Moves ll ss s) (hsub : sub [.host] ll = true) :
    Moves ll ss (takeLine s kind ring) := by
  refine hh.trans ?_ hsub; unfold takeLine
  repeat' (first | with_reducible assumption | with_reducible exact Moves.refl _ _ | with_reducible exact rfl | exact rfl |  (intro _) | with_reducible refine setWatch_moves ?_ ?_ | with_reducible refine ite_moves ?_ ?_ | with_reducible refine ite_snd_moves ?_ ?_ | with_reducible refine ite_fst_moves ?_ ?_ | split | refine fst_of_eq (by assumption) ?_ | refine snd_of_eq (by assumption) ?_ | dsimp only)

theorem dropPending_moves {ll ss} {s : State} {m : Nat} (hh : Moves ll ss s) (hsub : sub [.host, .stats, .fresh] ll = true) :
    Moves ll ss (dropPending s m) := by
  refine hh.trans ?_ hsub; unfold dropPending
  repeat' (first | with_reducible assumption | with_reducible exact Moves.refl _ _ | with_reducible exact rfl | exact rfl | ((fail_if_success (show Moves _ _ _)); first | exact side_hostSame rfl rfl rfl rfl | exact side_tables rfl | exact side_nil | exact side_map | exact side_hostMap rfl rfl rfl rfl | exact side_host4 rfl rfl rfl rfl) |  (intro _) | with_reducible refine ready_moves ?_ ?_ | with_reducible refine noCring_moves ?_ ?_ | with_reducible refine foldl_moves ?_ ?_ | with_reducible refine foldl_fst_moves ?_ ?_ | with_reducible refine ite_moves ?_ ?_ | with_reducible refine ite_snd_moves ?_ ?_ | with_reducible refine ite_fst_moves ?_ ?_ | split | refine fst_of_eq (by assumption) ?_ | refine snd_of_eq (by assumption) ?_ | with_reducible refine upd_host ?_ ?_ ?_ | dsimp only)

theorem writeCmdCtl_moves {ll ss} {s : State} {org : RegOrigin} {off n : Nat} {v : W32} (hh : Moves ll ss s) (hsub : sub [.host, .refused, .ledger] ll = true) :
    Moves ll ss (writeCmdCtl s org off n v) := by
  refine hh.trans ?_ hsub; unfold writeCmdCtl
  repeat' (first | with_reducible assumption | with_reducible exact Moves.refl _ _ | with_reducible exact rfl | exact rfl |  (intro _) | with_reducible refine ctlField_moves ?_ ?_ | with_reducible refine recordReg_moves ?_ ?_ | with_reducible refine takeLine_moves ?_ ?_ | with_reducible refine setCmdRing_moves ?_ ?_ | with_reducible refine ite_moves ?_ ?_ | with_reducible refine ite_snd_moves ?_ ?_ | with_reducible refine ite_fst_moves ?_ ?_ | split | refine fst_of_eq (by assumption) ?_ | refine snd_of_eq (by assumption) ?_ | dsimp only)

theorem outCtl_moves {ll ss} {s : State} {off : Nat} {r : OutRing} {v : W32} (hh : Moves ll ss s) (hsub : sub [.refused] ll = true) :
    Moves ll ss (outCtl s off r v).1 := by
  refine hh.trans ?_ hsub; unfold outCtl
  repeat' (first | with_reducible assumption | with_reducible exact Moves.refl _ _ | with_reducible exact rfl | exact rfl |  (intro _) | with_reducible refine ctlField_moves ?_ ?_ | with_reducible refine ite_moves ?_ ?_ | with_reducible refine ite_snd_moves ?_ ?_ | with_reducible refine ite_fst_moves ?_ ?_ | split | refine fst_of_eq (by assumption) ?_ | refine snd_of_eq (by assumption) ?_ | dsimp only)

theorem writeCplCtl_moves {ll ss} {s : State} {org : RegOrigin} {off m : Nat} {v : W32} (hh : Moves ll ss s) (hsub : sub [.host, .stats, .refused, .ledger, .fresh] ll = true) :
    Moves ll ss (writeCplCtl s org off m v) := by
  refine hh.trans ?_ hsub; unfold writeCplCtl
  repeat' (first | with_reducible assumption | with_reducible exact Moves.refl _ _ | with_reducible exact rfl | exact rfl |  (intro _) | with_reducible refine outCtl_moves ?_ ?_ | with_reducible refine recordReg_moves ?_ ?_ | with_reducible refine takeLine_moves ?_ ?_ | with_reducible refine setCplRing_moves ?_ ?_ | with_reducible refine dropPending_moves ?_ ?_ | with_reducible refine ite_moves ?_ ?_ | with_reducible refine ite_snd_moves ?_ ?_ | with_reducible refine ite_fst_moves ?_ ?_ | split | refine fst_of_eq (by assumption) ?_ | refine snd_of_eq (by assumption) ?_ | dsimp only)

theorem writeEvCtl_moves {ll ss} {s : State} {org : RegOrigin} {off e : Nat} {v : W32} (hh : Moves ll ss s) (hsub : sub [.host, .refused, .ledger] ll = true) :
    Moves ll ss (writeEvCtl s org off e v) := by
  refine hh.trans ?_ hsub; unfold writeEvCtl
  repeat' (first | with_reducible assumption | with_reducible exact Moves.refl _ _ | with_reducible exact rfl | exact rfl |  (intro _) | with_reducible refine outCtl_moves ?_ ?_ | with_reducible refine recordReg_moves ?_ ?_ | with_reducible refine takeLine_moves ?_ ?_ | with_reducible refine setEvRing_moves ?_ ?_ | with_reducible refine ite_moves ?_ ?_ | with_reducible refine ite_snd_moves ?_ ?_ | with_reducible refine ite_fst_moves ?_ ?_ | split | refine fst_of_eq (by assumption) ?_ | refine snd_of_eq (by assumption) ?_ | dsimp only)

theorem dropLine_moves {ll ss} {s : State} {k : Nat} (hh : Moves ll ss s) (hsub : sub [.host] ll = true) :
    Moves ll ss (dropLine s k) := by
  refine hh.trans ?_ hsub; unfold dropLine
  repeat' (first | with_reducible assumption | with_reducible exact Moves.refl _ _ | with_reducible exact rfl | exact rfl | ((fail_if_success (show Moves _ _ _)); first | exact side_hostSame rfl rfl rfl rfl | exact side_tables rfl | exact side_nil | exact side_map | exact side_hostMap rfl rfl rfl rfl | exact side_host4 rfl rfl rfl rfl) |  (intro _) | with_reducible refine setWatch_moves ?_ ?_ | with_reducible refine ite_moves ?_ ?_ | with_reducible refine ite_snd_moves ?_ ?_ | with_reducible refine ite_fst_moves ?_ ?_ | split | refine fst_of_eq (by assumption) ?_ | refine snd_of_eq (by assumption) ?_ | with_reducible refine upd_host ?_ ?_ ?_ | dsimp only)

theorem writeWatchCtl_moves {ll ss} {s : State} {org : RegOrigin} {off k : Nat} {v : W32} (hh : Moves ll ss s) (hsub : sub [.host, .refused, .ledger] ll = true) :
    Moves ll ss (writeWatchCtl s org off k v) := by
  refine hh.trans ?_ hsub; unfold writeWatchCtl
  repeat' (first | with_reducible assumption | with_reducible exact Moves.refl _ _ | with_reducible exact rfl | exact rfl |  (intro _) | with_reducible refine ctlField_moves ?_ ?_ | with_reducible refine refuseField_moves ?_ ?_ | with_reducible refine setWatch_moves ?_ ?_ | with_reducible refine recordReg_moves ?_ ?_ | with_reducible refine dropLine_moves ?_ ?_ | with_reducible refine ite_moves ?_ ?_ | with_reducible refine ite_snd_moves ?_ ?_ | with_reducible refine ite_fst_moves ?_ ?_ | split | refine fst_of_eq (by assumption) ?_ | refine snd_of_eq (by assumption) ?_ | dsimp only)

theorem writeWatchAddr_moves {ll ss} {s : State} {org : RegOrigin} {wide : Bool} {off k : Nat} {v : W32} (hh : Moves ll ss s) (hsub : sub [.host, .refused, .ledger] ll = true) :
    Moves ll ss (writeWatchAddr s org wide off k v) := by
  refine hh.trans ?_ hsub; unfold writeWatchAddr
  repeat' (first | with_reducible assumption | with_reducible exact Moves.refl _ _ | with_reducible exact rfl | exact rfl |  (intro _) | with_reducible refine addrWrite_moves ?_ ?_ | with_reducible refine refuseAddr_moves ?_ ?_ | with_reducible refine dropLine_moves ?_ ?_ | with_reducible refine setWatch_moves ?_ ?_ | with_reducible refine recordReg_moves ?_ ?_ | with_reducible refine ite_moves ?_ ?_ | with_reducible refine ite_snd_moves ?_ ?_ | with_reducible refine ite_fst_moves ?_ ?_ | split | refine fst_of_eq (by assumption) ?_ | refine snd_of_eq (by assumption) ?_ | dsimp only)

theorem writeHalt_moves {ll ss} {s : State} {org : RegOrigin} {v : W32} (hh : Moves ll ss s) (hsub : sub [.boot, .refused, .tills, .tiles, .ledger] ll = true) :
    Moves ll ss (writeHalt s org v) := by
  refine hh.trans ?_ hsub; unfold writeHalt
  repeat' (first | with_reducible assumption | with_reducible exact Moves.refl _ _ | with_reducible exact rfl | exact rfl |  (intro _) | with_reducible refine recordReg_moves ?_ ?_ | with_reducible refine refuseField_moves ?_ ?_ | with_reducible refine ite_moves ?_ ?_ | with_reducible refine ite_snd_moves ?_ ?_ | with_reducible refine ite_fst_moves ?_ ?_ | split | refine fst_of_eq (by assumption) ?_ | refine snd_of_eq (by assumption) ?_ | with_reducible refine upd_tiles ?_ ?_ | with_reducible refine upd_tills ?_ ?_ | with_reducible refine upd_boot ?_ ?_ | dsimp only)

theorem writeKickTest_moves {ll ss} {s : State} {org : RegOrigin} {v : W32} (hh : Moves ll ss s) (hsub : sub [.refused, .ports, .ledger] ll = true) :
    Moves ll ss (writeKickTest s org v) := by
  refine hh.trans ?_ hsub; unfold writeKickTest
  repeat' (first | with_reducible assumption | with_reducible exact Moves.refl _ _ | with_reducible exact rfl | exact rfl |  (intro _) | with_reducible refine recordReg_moves ?_ ?_ | with_reducible refine modKick_moves ?_ ?_ | with_reducible refine refuseField_moves ?_ ?_ | with_reducible refine ite_moves ?_ ?_ | with_reducible refine ite_snd_moves ?_ ?_ | with_reducible refine ite_fst_moves ?_ ?_ | split | refine fst_of_eq (by assumption) ?_ | refine snd_of_eq (by assumption) ?_ | dsimp only)

theorem writeCmdRing_moves {ll ss} {s : State} {org : RegOrigin} {wide : Bool} {off : Nat} {v : W32} (hh : Moves ll ss s) (hsub : sub [.host, .refused, .ledger] ll = true) :
    Moves ll ss (writeCmdRing s org wide off v) := by
  refine hh.trans ?_ hsub; unfold writeCmdRing
  repeat' (first | with_reducible assumption | with_reducible exact Moves.refl _ _ | with_reducible exact rfl | exact rfl |  (intro _) | with_reducible refine stageLow_moves ?_ ?_ | with_reducible refine addrWrite_moves ?_ ?_ | with_reducible refine setCmdRing_moves ?_ ?_ | with_reducible refine recordReg_moves ?_ ?_ | with_reducible refine writeCmdCtl_moves ?_ ?_ | with_reducible refine ite_moves ?_ ?_ | with_reducible refine ite_snd_moves ?_ ?_ | with_reducible refine ite_fst_moves ?_ ?_ | split | refine fst_of_eq (by assumption) ?_ | refine snd_of_eq (by assumption) ?_ | dsimp only)

theorem writeCplRing_moves {ll ss} {s : State} {org : RegOrigin} {wide : Bool} {off : Nat} {v : W32} (hh : Moves ll ss s) (hsub : sub [.host, .stats, .refused, .ledger, .fresh] ll = true) :
    Moves ll ss (writeCplRing s org wide off v) := by
  refine hh.trans ?_ hsub; unfold writeCplRing
  repeat' (first | with_reducible assumption | with_reducible exact Moves.refl _ _ | with_reducible exact rfl | exact rfl |  (intro _) | with_reducible refine stageLow_moves ?_ ?_ | with_reducible refine addrWrite_moves ?_ ?_ | with_reducible refine setCplRing_moves ?_ ?_ | with_reducible refine recordReg_moves ?_ ?_ | with_reducible refine writeCplCtl_moves ?_ ?_ | with_reducible refine ite_moves ?_ ?_ | with_reducible refine ite_snd_moves ?_ ?_ | with_reducible refine ite_fst_moves ?_ ?_ | split | refine fst_of_eq (by assumption) ?_ | refine snd_of_eq (by assumption) ?_ | dsimp only)

theorem writeEvRing_moves {ll ss} {s : State} {org : RegOrigin} {wide : Bool} {off : Nat} {v : W32} (hh : Moves ll ss s) (hsub : sub [.host, .refused, .ledger] ll = true) :
    Moves ll ss (writeEvRing s org wide off v) := by
  refine hh.trans ?_ hsub; unfold writeEvRing
  repeat' (first | with_reducible assumption | with_reducible exact Moves.refl _ _ | with_reducible exact rfl | exact rfl |  (intro _) | with_reducible refine stageLow_moves ?_ ?_ | with_reducible refine addrWrite_moves ?_ ?_ | with_reducible refine setEvRing_moves ?_ ?_ | with_reducible refine recordReg_moves ?_ ?_ | with_reducible refine writeEvCtl_moves ?_ ?_ | with_reducible refine ite_moves ?_ ?_ | with_reducible refine ite_snd_moves ?_ ?_ | with_reducible refine ite_fst_moves ?_ ?_ | split | refine fst_of_eq (by assumption) ?_ | refine snd_of_eq (by assumption) ?_ | dsimp only)

theorem writeWatch_moves {ll ss} {s : State} {org : RegOrigin} {wide : Bool} {off : Nat} {v : W32} (hh : Moves ll ss s) (hsub : sub [.host, .refused, .ledger] ll = true) :
    Moves ll ss (writeWatch s org wide off v) := by
  refine hh.trans ?_ hsub; unfold writeWatch
  repeat' (first | with_reducible assumption | with_reducible exact Moves.refl _ _ | with_reducible exact rfl | exact rfl |  (intro _) | with_reducible refine stageLow_moves ?_ ?_ | with_reducible refine writeWatchAddr_moves ?_ ?_ | with_reducible refine writeWatchCtl_moves ?_ ?_ | with_reducible refine ite_moves ?_ ?_ | with_reducible refine ite_snd_moves ?_ ?_ | with_reducible refine ite_fst_moves ?_ ?_ | split | refine fst_of_eq (by assumption) ?_ | refine snd_of_eq (by assumption) ?_ | dsimp only)

theorem writeKicks_moves {ll ss} {s : State} {org : RegOrigin} {off : Nat} {v : W32} (hh : Moves ll ss s) (hsub : sub [.ports] ll = true) :
    Moves ll ss (writeKicks s org off v) := by
  refine hh.trans ?_ hsub; unfold writeKicks
  repeat' (first | with_reducible assumption | with_reducible exact Moves.refl _ _ | with_reducible exact rfl | exact rfl |  (intro _) | with_reducible refine writeLatches_moves ?_ ?_ | with_reducible refine ite_moves ?_ ?_ | with_reducible refine ite_snd_moves ?_ ?_ | with_reducible refine ite_fst_moves ?_ ?_ | split | refine fst_of_eq (by assumption) ?_ | refine snd_of_eq (by assumption) ?_ | dsimp only)

theorem clearLatches_moves {ll ss} {s : State} {nn : Nat} (hh : Moves ll ss s) (hsub : sub [.host, .stats, .ports, .ledger, .fresh] ll = true) :
    Moves ll ss (clearLatches s nn) := by
  refine hh.trans ?_ hsub; unfold clearLatches
  repeat' (first | with_reducible assumption | with_reducible exact Moves.refl _ _ | with_reducible exact rfl | exact rfl |  (intro _) | with_reducible refine clearKick_moves ?_ ?_ | with_reducible refine recordReg_moves ?_ ?_ | with_reducible refine foldl_moves ?_ ?_ | with_reducible refine foldl_fst_moves ?_ ?_ | with_reducible refine ite_moves ?_ ?_ | with_reducible refine ite_snd_moves ?_ ?_ | with_reducible refine ite_fst_moves ?_ ?_ | split | refine fst_of_eq (by assumption) ?_ | refine snd_of_eq (by assumption) ?_ | dsimp only)

theorem clearsDue_moves {ll ss} {s : State} (hh : Moves ll ss s) (hsub : sub [.host, .stats, .ports, .ledger, .fresh] ll = true) :
    Moves ll ss (clearsDue s) := by
  refine hh.trans ?_ hsub; unfold clearsDue
  repeat' (first | with_reducible assumption | with_reducible exact Moves.refl _ _ | with_reducible exact rfl | exact rfl |  (intro _) | with_reducible refine clearStatus_moves ?_ ?_ | with_reducible refine clearLatches_moves ?_ ?_ | with_reducible refine foldl_moves ?_ ?_ | with_reducible refine foldl_fst_moves ?_ ?_ | with_reducible refine ite_moves ?_ ?_ | with_reducible refine ite_snd_moves ?_ ?_ | with_reducible refine ite_fst_moves ?_ ?_ | split | refine fst_of_eq (by assumption) ?_ | refine snd_of_eq (by assumption) ?_ | dsimp only)

theorem writeHalf_moves {ll ss} {s : State} {org : RegOrigin} {wide : Bool} {off : Nat} {v : W32} (hh : Moves ll ss s) (hsub : sub [.boot, .tick, .host, .stats, .refused, .ports, .tills, .tiles, .ledger, .fresh] ll = true) :
    Moves ll ss (writeHalf s org wide off v) := by
  refine hh.trans ?_ hsub; unfold writeHalf
  repeat' (first | with_reducible assumption | with_reducible exact Moves.refl _ _ | with_reducible exact rfl | exact rfl | ((fail_if_success (show Moves _ _ _)); first | exact side_hostSame rfl rfl rfl rfl | exact side_tables rfl | exact side_nil | exact side_map | exact side_hostMap rfl rfl rfl rfl | exact side_host4 rfl rfl rfl rfl) |  (intro _) | with_reducible refine recordReg_moves ?_ ?_ | with_reducible refine writeKicks_moves ?_ ?_ | with_reducible refine writeCmdRing_moves ?_ ?_ | with_reducible refine writeCplRing_moves ?_ ?_ | with_reducible refine writeEvRing_moves ?_ ?_ | with_reducible refine writeWatch_moves ?_ ?_ | with_reducible refine writeHalt_moves ?_ ?_ | with_reducible refine writeKickTest_moves ?_ ?_ | with_reducible refine writeStatus_moves ?_ ?_ | with_reducible refine writeEnable_moves ?_ ?_ | with_reducible refine setStat_moves ?_ ?_ | with_reducible refine ite_moves ?_ ?_ | with_reducible refine ite_snd_moves ?_ ?_ | with_reducible refine ite_fst_moves ?_ ?_ | split | refine fst_of_eq (by assumption) ?_ | refine snd_of_eq (by assumption) ?_ | with_reducible refine upd_tiles ?_ ?_ | with_reducible refine upd_host ?_ ?_ ?_ | with_reducible refine upd_tick ?_ ?_ | with_reducible refine upd_refused ?_ ?_ | dsimp only)

theorem regWrite_moves {ll ss} {s : State} {org : RegOrigin} {off size : Nat} {v : W64} (hh : Moves ll ss s) (hsub : sub [.boot, .tick, .host, .stats, .refused, .ports, .tills, .tiles, .ledger, .fresh] ll = true) :
    Moves ll ss (regWrite s org off size v) := by
  refine hh.trans ?_ hsub; unfold regWrite
  repeat' (first | with_reducible assumption | with_reducible exact Moves.refl _ _ | with_reducible exact rfl | exact rfl |  (intro _) | with_reducible refine refuseField_moves ?_ ?_ | with_reducible refine writeHalf_moves ?_ ?_ | with_reducible refine ite_moves ?_ ?_ | with_reducible refine ite_snd_moves ?_ ?_ | with_reducible refine ite_fst_moves ?_ ?_ | split | refine fst_of_eq (by assumption) ?_ | refine snd_of_eq (by assumption) ?_ | with_reducible refine upd_boot ?_ ?_ | dsimp only)

end Sys2Proof.Laws
end

