-- ==== Sys2Proof/Laws/Moves/Host.lean ====
section
/-! SUPPORT. What the operations of Machine/Host.lean may change: one lemma each. -/

set_option linter.unusedTactic false
set_option linter.unreachableTactic false
set_option linter.unusedVariables false

namespace Sys2Proof.Laws

open Sys2Proof.Machine Sys2Proof.Safety

theorem copyOut_moves {ll ss} {s : State} {a : Accept} {addr : Nat} {data : List Byte} {d0 d1 : Nat} (hh : Moves ll ss s) (hsub : sub [.host, .fresh] ll = true) :
    Moves ll ss (copyOut s a addr data d0 d1) := by
  refine hh.trans ?_ hsub; unfold copyOut
  repeat' (first | with_reducible assumption | with_reducible exact Moves.refl _ _ | with_reducible exact rfl | exact rfl |  (intro _) | with_reducible refine hostWrite_moves ?_ ?_ | with_reducible refine complete_moves ?_ ?_ | with_reducible refine ite_moves ?_ ?_ | with_reducible refine ite_snd_moves ?_ ?_ | with_reducible refine ite_fst_moves ?_ ?_ | split | refine fst_of_eq (by assumption) ?_ | refine snd_of_eq (by assumption) ?_ | dsimp only)

theorem execNop_moves {ring : BitVec 6} {d : Desc} {s : State} : Runs [.host, .stats, .fresh] s (execNop ring d s) := by
  unfold execNop
  repeat' (first | with_reducible assumption | with_reducible exact Moves.refl _ _ | with_reducible exact rfl | exact rfl |  (intro _) | with_reducible refine accept_moves ?_ ?_ ?_ | with_reducible refine complete_moves ?_ ?_ | with_reducible refine Runs.next ?_ | with_reducible refine ite_moves ?_ ?_ | with_reducible refine ite_snd_moves ?_ ?_ | with_reducible refine ite_fst_moves ?_ ?_ | split | refine fst_of_eq (by assumption) ?_ | refine snd_of_eq (by assumption) ?_ | dsimp only)

theorem answerSnoop_moves {ll ss} {s : State} {r : BitVec 3} (hh : Moves ll ss s) (hsub : sub [.host] ll = true) :
    Moves ll ss (answerSnoop s r) := by
  refine hh.trans ?_ hsub; unfold answerSnoop
  repeat' (first | with_reducible assumption | with_reducible exact Moves.refl _ _ | with_reducible exact rfl | exact rfl | ((fail_if_success (show Moves _ _ _)); first | exact side_hostSame rfl rfl rfl rfl | exact side_tables rfl | exact side_nil | exact side_map | exact side_hostMap rfl rfl rfl rfl | exact side_host4 rfl rfl rfl rfl) |  (intro _) | with_reducible refine ite_moves ?_ ?_ | with_reducible refine ite_snd_moves ?_ ?_ | with_reducible refine ite_fst_moves ?_ ?_ | split | refine fst_of_eq (by assumption) ?_ | refine snd_of_eq (by assumption) ?_ | with_reducible refine upd_host ?_ ?_ ?_ | dsimp only)

theorem doorbell_moves {ll ss} {s : State} {k : Nat} {w : Watch} (hh : Moves ll ss s) (hsub : sub [.host] ll = true) :
    Moves ll ss (doorbell s k w) := by
  refine hh.trans ?_ hsub; unfold doorbell
  repeat' (first | with_reducible assumption | with_reducible exact Moves.refl _ _ | with_reducible exact rfl | exact rfl |  (intro _) | with_reducible refine setWatch_moves ?_ ?_ | with_reducible refine ite_moves ?_ ?_ | with_reducible refine ite_snd_moves ?_ ?_ | with_reducible refine ite_fst_moves ?_ ?_ | split | refine fst_of_eq (by assumption) ?_ | refine snd_of_eq (by assumption) ?_ | dsimp only)

theorem execSnoopInvalidate_moves {line : BitVec 58} {s : State} : Runs [.host] s (execSnoopInvalidate line s) := by
  unfold execSnoopInvalidate
  repeat' (first | with_reducible assumption | with_reducible exact Moves.refl _ _ | with_reducible exact rfl | exact rfl |  (intro _) | with_reducible refine answerSnoop_moves ?_ ?_ | with_reducible refine doorbell_moves ?_ ?_ | with_reducible refine Runs.next ?_ | with_reducible refine ite_moves ?_ ?_ | with_reducible refine ite_snd_moves ?_ ?_ | with_reducible refine ite_fst_moves ?_ ?_ | split | refine fst_of_eq (by assumption) ?_ | refine snd_of_eq (by assumption) ?_ | dsimp only)

theorem execSnoopData_moves {line : BitVec 58} {s : State} : Runs [.host] s (execSnoopData line s) := by
  unfold execSnoopData
  repeat' (first | with_reducible assumption | with_reducible exact Moves.refl _ _ | with_reducible exact rfl | exact rfl |  (intro _) | with_reducible refine answerSnoop_moves ?_ ?_ | with_reducible refine Runs.next ?_ | with_reducible refine ite_moves ?_ ?_ | with_reducible refine ite_snd_moves ?_ ?_ | with_reducible refine ite_fst_moves ?_ ?_ | split | refine fst_of_eq (by assumption) ?_ | refine snd_of_eq (by assumption) ?_ | dsimp only)

theorem indexRead_moves {ll ss} {s : State} {n : Nat} {index : W32} (hh : Moves ll ss s) (hsub : sub [.host, .stats, .fresh] ll = true) :
    Moves ll ss (indexRead s n index) := by
  refine hh.trans ?_ hsub; unfold indexRead
  repeat' (first | with_reducible assumption | with_reducible exact Moves.refl _ _ | with_reducible exact rfl | exact rfl |  (intro _) | with_reducible refine setCmdRing_moves ?_ ?_ | with_reducible refine postEvent_moves ?_ ?_ | with_reducible refine fetchAhead_moves ?_ ?_ | with_reducible refine ite_moves ?_ ?_ | with_reducible refine ite_snd_moves ?_ ?_ | with_reducible refine ite_fst_moves ?_ ?_ | split | refine fst_of_eq (by assumption) ?_ | refine snd_of_eq (by assumption) ?_ | dsimp only)

theorem execWatchLineRead_moves {k : BitVec 10} {index : W32} {s : State} : Runs [.host, .stats, .fresh] s (execWatchLineRead k index s) := by
  unfold execWatchLineRead
  repeat' (first | with_reducible assumption | with_reducible exact Moves.refl _ _ | with_reducible exact rfl | exact rfl |  (intro _) | with_reducible refine setWatch_moves ?_ ?_ | with_reducible refine indexRead_moves ?_ ?_ | with_reducible refine setCplRing_moves ?_ ?_ | with_reducible refine setEvRing_moves ?_ ?_ | with_reducible refine Runs.next ?_ | with_reducible refine ite_moves ?_ ?_ | with_reducible refine ite_snd_moves ?_ ?_ | with_reducible refine ite_fst_moves ?_ ?_ | split | refine fst_of_eq (by assumption) ?_ | refine snd_of_eq (by assumption) ?_ | dsimp only)

theorem settleSlot_moves {ll ss} {s : State} {id n : Nat} {v : Slot} (hh : Moves ll ss s) (hsub : sub [.host] ll = true) :
    Moves ll ss (settleSlot s id n v) := by
  refine hh.trans ?_ hsub; unfold settleSlot
  repeat' (first | with_reducible assumption | with_reducible exact Moves.refl _ _ | with_reducible exact rfl | exact rfl | ((fail_if_success (show Moves _ _ _)); first | exact side_hostSame rfl rfl rfl rfl | exact side_tables rfl | exact side_nil | exact side_map | exact side_hostMap rfl rfl rfl rfl | exact side_host4 rfl rfl rfl rfl) |  (intro _) | with_reducible refine setCmdRing_moves ?_ ?_ | with_reducible refine ite_moves ?_ ?_ | with_reducible refine ite_snd_moves ?_ ?_ | with_reducible refine ite_fst_moves ?_ ?_ | split | refine fst_of_eq (by assumption) ?_ | refine snd_of_eq (by assumption) ?_ | with_reducible refine upd_host ?_ ?_ ?_ | dsimp only)

theorem execHostReadData_moves {id : Nat} {data : List Byte} {s : State} : Runs [.host] s (execHostReadData id data s) := by
  unfold execHostReadData
  repeat' (first | with_reducible assumption | with_reducible exact Moves.refl _ _ | with_reducible exact rfl | exact rfl |  (intro _) | with_reducible refine settleSlot_moves ?_ ?_ | with_reducible refine Runs.next ?_ | with_reducible refine ite_moves ?_ ?_ | with_reducible refine ite_snd_moves ?_ ?_ | with_reducible refine ite_fst_moves ?_ ?_ | split | refine fst_of_eq (by assumption) ?_ | refine snd_of_eq (by assumption) ?_ | dsimp only)

theorem execHostReadError_moves {which : ReadFault} {s : State} : Runs [.host, .stats, .fresh] s (execHostReadError which s) := by
  unfold execHostReadError
  repeat' (first | with_reducible assumption | with_reducible exact Moves.refl _ _ | with_reducible exact rfl | exact rfl |  (intro _) | with_reducible refine settleFailed_moves ?_ ?_ | with_reducible refine settleSlot_moves ?_ ?_ | with_reducible refine setCause_moves ?_ ?_ | with_reducible refine accept_moves ?_ ?_ ?_ | with_reducible refine completeAs_moves ?_ ?_ | with_reducible refine setWatch_moves ?_ ?_ | with_reducible refine Runs.next ?_ | with_reducible refine ite_moves ?_ ?_ | with_reducible refine ite_snd_moves ?_ ?_ | with_reducible refine ite_fst_moves ?_ ?_ | split | refine fst_of_eq (by assumption) ?_ | refine snd_of_eq (by assumption) ?_ | dsimp only)

theorem writeOver_moves {ll ss} {s : State} {id : Nat} (hh : Moves ll ss s) (hsub : sub [.host] ll = true) :
    Moves ll ss (writeOver s id) := by
  refine hh.trans ?_ hsub; unfold writeOver
  repeat' (first | with_reducible assumption | with_reducible exact Moves.refl _ _ | with_reducible exact rfl | exact rfl | ((fail_if_success (show Moves _ _ _)); first | exact side_hostSame rfl rfl rfl rfl | exact side_tables rfl | exact side_nil | exact side_map | exact side_hostMap rfl rfl rfl rfl | exact side_host4 rfl rfl rfl rfl) |  (intro _) | with_reducible refine ready_moves ?_ ?_ | with_reducible refine raiseVector_moves ?_ ?_ | with_reducible refine foldl_moves ?_ ?_ | with_reducible refine foldl_fst_moves ?_ ?_ | with_reducible refine ite_moves ?_ ?_ | with_reducible refine ite_snd_moves ?_ ?_ | with_reducible refine ite_fst_moves ?_ ?_ | split | refine fst_of_eq (by assumption) ?_ | refine snd_of_eq (by assumption) ?_ | with_reducible refine upd_host ?_ ?_ ?_ | dsimp only)

theorem saveOver_moves {ll ss} {s : State} {t id : Nat} (hh : Moves ll ss s) (hsub : sub [.tills] ll = true) :
    Moves ll ss (saveOver s t id) := by
  refine hh.trans ?_ hsub; unfold saveOver
  repeat' (first | with_reducible assumption | with_reducible exact Moves.refl _ _ | with_reducible exact rfl | exact rfl |  (intro _) | with_reducible refine setTill_moves ?_ ?_ | with_reducible refine ite_moves ?_ ?_ | with_reducible refine ite_snd_moves ?_ ?_ | with_reducible refine ite_fst_moves ?_ ?_ | split | refine fst_of_eq (by assumption) ?_ | refine snd_of_eq (by assumption) ?_ | dsimp only)

theorem execHostWriteGo_moves {id : Nat} {s : State} : Runs [.host, .tills, .fresh] s (execHostWriteGo id s) := by
  unfold execHostWriteGo
  repeat' (first | with_reducible assumption | with_reducible exact Moves.refl _ _ | with_reducible exact rfl | exact rfl |  (intro _) | with_reducible refine writeOver_moves ?_ ?_ | with_reducible refine saveOver_moves ?_ ?_ | with_reducible refine hostWrite_moves ?_ ?_ | with_reducible refine Runs.next ?_ | with_reducible refine ite_moves ?_ ?_ | with_reducible refine ite_snd_moves ?_ ?_ | with_reducible refine ite_fst_moves ?_ ?_ | split | refine fst_of_eq (by assumption) ?_ | refine snd_of_eq (by assumption) ?_ | dsimp only)

theorem saveFailed_moves {ll ss} {s : State} {t : Nat} (hh : Moves ll ss s) (hsub : sub [.host, .stats, .pools, .tills, .faults, .fresh] ll = true) :
    Moves ll ss (saveFailed s t) := by
  refine hh.trans ?_ hsub; unfold saveFailed
  repeat' (first | with_reducible assumption | with_reducible exact Moves.refl _ _ | with_reducible exact rfl | exact rfl | ((fail_if_success (show Moves _ _ _)); first | exact side_hostSame rfl rfl rfl rfl | exact side_tables rfl | exact side_nil | exact side_map | exact side_hostMap rfl rfl rfl rfl | exact side_host4 rfl rfl rfl rfl) |  (intro _) | with_reducible refine giveStaging_moves ?_ ?_ | with_reducible refine setTill_moves ?_ ?_ | with_reducible refine complete_moves ?_ ?_ | with_reducible refine ite_moves ?_ ?_ | with_reducible refine ite_snd_moves ?_ ?_ | with_reducible refine ite_fst_moves ?_ ?_ | split | refine fst_of_eq (by assumption) ?_ | refine snd_of_eq (by assumption) ?_ | with_reducible refine upd_host ?_ ?_ ?_ | dsimp only)

theorem mirrorOff_moves {ll ss} {s : State} (hh : Moves ll ss s) (hsub : sub [.ledger] ll = true) :
    Moves ll ss (mirrorOff s) := by
  refine hh.trans ?_ hsub; unfold mirrorOff
  repeat' (first | with_reducible assumption | with_reducible exact Moves.refl _ _ | with_reducible exact rfl | exact rfl |  (intro _) | with_reducible refine ite_moves ?_ ?_ | with_reducible refine ite_snd_moves ?_ ?_ | with_reducible refine ite_fst_moves ?_ ?_ | split | refine fst_of_eq (by assumption) ?_ | refine snd_of_eq (by assumption) ?_ | with_reducible refine upd_ledger ?_ ?_ | dsimp only)

theorem execHostWriteError_moves {id : Nat} {s : State} : Runs [.host, .stats, .pools, .tills, .faults, .ledger, .fresh] s (execHostWriteError id s) := by
  unfold execHostWriteError
  repeat' (first | with_reducible assumption | with_reducible exact Moves.refl _ _ | with_reducible exact rfl | exact rfl | ((fail_if_success (show Moves _ _ _)); first | exact side_hostSame rfl rfl rfl rfl | exact side_tables rfl | exact side_nil | exact side_map | exact side_hostMap rfl rfl rfl rfl | exact side_host4 rfl rfl rfl rfl) |  (intro _) | with_reducible refine ready_moves ?_ ?_ | with_reducible refine writeOver_moves ?_ ?_ | with_reducible refine saveFailed_moves ?_ ?_ | with_reducible refine setCause_moves ?_ ?_ | with_reducible refine mirrorOff_moves ?_ ?_ | with_reducible refine Runs.next ?_ | with_reducible refine ite_moves ?_ ?_ | with_reducible refine ite_snd_moves ?_ ?_ | with_reducible refine ite_fst_moves ?_ ?_ | split | refine fst_of_eq (by assumption) ?_ | refine snd_of_eq (by assumption) ?_ | with_reducible refine upd_host ?_ ?_ ?_ | dsimp only)

theorem execCoalesceTimerExpiry_moves {event : Bool} {ring : BitVec 6} {s : State} : Runs [.host] s (execCoalesceTimerExpiry event ring s) := by
  unfold execCoalesceTimerExpiry
  repeat' (first | with_reducible assumption | with_reducible exact Moves.refl _ _ | with_reducible exact rfl | exact rfl |  (intro _) | with_reducible refine fireRing_moves ?_ ?_ | with_reducible refine setEvRing_moves ?_ ?_ | with_reducible refine setCplRing_moves ?_ ?_ | with_reducible refine Runs.next ?_ | with_reducible refine ite_moves ?_ ?_ | with_reducible refine ite_snd_moves ?_ ?_ | with_reducible refine ite_fst_moves ?_ ?_ | split | refine fst_of_eq (by assumption) ?_ | refine snd_of_eq (by assumption) ?_ | dsimp only)

theorem hostOff_moves {ll ss} {s : State} (hh : Moves ll ss s) (hsub : sub [.host, .stats, .pools, .tills, .faults, .ledger, .fresh] ll = true) :
    Moves ll ss (hostOff s) := by
  refine hh.trans ?_ hsub; unfold hostOff
  repeat' (first | with_reducible assumption | with_reducible exact Moves.refl _ _ | with_reducible exact rfl | exact rfl | ((fail_if_success (show Moves _ _ _)); first | exact side_hostSame rfl rfl rfl rfl | exact side_tables rfl | exact side_nil | exact side_map | exact side_hostMap rfl rfl rfl rfl | exact side_host4 rfl rfl rfl rfl) |  (intro _) | with_reducible refine saveFailed_moves ?_ ?_ | with_reducible refine mirrorOff_moves ?_ ?_ | with_reducible refine ready_moves ?_ ?_ | with_reducible refine foldl_moves ?_ ?_ | with_reducible refine foldl_fst_moves ?_ ?_ | with_reducible refine ite_moves ?_ ?_ | with_reducible refine ite_snd_moves ?_ ?_ | with_reducible refine ite_fst_moves ?_ ?_ | split | refine fst_of_eq (by assumption) ?_ | refine snd_of_eq (by assumption) ?_ | with_reducible refine upd_host ?_ ?_ ?_ | dsimp only)

theorem hostReset_moves {ll ss} {s : State} {cause : Nat} (hh : Moves ll ss s) (hsub : sub [.host, .stats, .pools, .tills, .faults, .ledger, .fresh] ll = true) :
    Moves ll ss (hostReset s cause) := by
  refine hh.trans ?_ hsub; unfold hostReset
  repeat' (first | with_reducible assumption | with_reducible exact Moves.refl _ _ | with_reducible exact rfl | exact rfl |  (intro _) | with_reducible refine hostOff_moves ?_ ?_ | with_reducible refine recordRaw_moves ?_ ?_ | with_reducible refine ite_moves ?_ ?_ | with_reducible refine ite_snd_moves ?_ ?_ | with_reducible refine ite_fst_moves ?_ ?_ | split | refine fst_of_eq (by assumption) ?_ | refine snd_of_eq (by assumption) ?_ | dsimp only)

theorem execFunctionLevelReset_moves {s : State} : Runs [.host, .stats, .pools, .tills, .faults, .ledger, .fresh] s (execFunctionLevelReset s) := by
  unfold execFunctionLevelReset
  repeat' (first | with_reducible assumption | with_reducible exact Moves.refl _ _ | with_reducible exact rfl | exact rfl |  (intro _) | with_reducible refine hostReset_moves ?_ ?_ | with_reducible refine Runs.next ?_ | with_reducible refine ite_moves ?_ ?_ | with_reducible refine ite_snd_moves ?_ ?_ | with_reducible refine ite_fst_moves ?_ ?_ | split | refine fst_of_eq (by assumption) ?_ | refine snd_of_eq (by assumption) ?_ | dsimp only)

theorem execConventionalReset_moves {s : State} : Runs [.host, .stats, .pools, .tills, .faults, .ledger, .fresh] s (execConventionalReset s) := by
  unfold execConventionalReset
  repeat' (first | with_reducible assumption | with_reducible exact Moves.refl _ _ | with_reducible exact rfl | exact rfl |  (intro _) | with_reducible refine hostReset_moves ?_ ?_ | with_reducible refine Runs.next ?_ | with_reducible refine ite_moves ?_ ?_ | with_reducible refine ite_snd_moves ?_ ?_ | with_reducible refine ite_fst_moves ?_ ?_ | split | refine fst_of_eq (by assumption) ?_ | refine snd_of_eq (by assumption) ?_ | dsimp only)

theorem execCxlLinkLoss_moves {s : State} : Runs [.host, .stats, .pools, .tills, .faults, .ledger, .fresh] s (execCxlLinkLoss s) := by
  unfold execCxlLinkLoss
  repeat' (first | with_reducible assumption | with_reducible exact Moves.refl _ _ | with_reducible exact rfl | exact rfl | ((fail_if_success (show Moves _ _ _)); first | exact side_hostSame rfl rfl rfl rfl | exact side_tables rfl | exact side_nil | exact side_map | exact side_hostMap rfl rfl rfl rfl | exact side_host4 rfl rfl rfl rfl) |  (intro _) | with_reducible refine noteState_moves ?_ ?_ | with_reducible refine hostReset_moves ?_ ?_ | with_reducible refine Runs.next ?_ | with_reducible refine ite_moves ?_ ?_ | with_reducible refine ite_snd_moves ?_ ?_ | with_reducible refine ite_fst_moves ?_ ?_ | split | refine fst_of_eq (by assumption) ?_ | refine snd_of_eq (by assumption) ?_ | with_reducible refine upd_host ?_ ?_ ?_ | dsimp only)

theorem execCxlLinkUp_moves {s : State} : Runs [.host] s (execCxlLinkUp s) := by
  unfold execCxlLinkUp
  repeat' (first | with_reducible assumption | with_reducible exact Moves.refl _ _ | with_reducible exact rfl | exact rfl | ((fail_if_success (show Moves _ _ _)); first | exact side_hostSame rfl rfl rfl rfl | exact side_tables rfl | exact side_nil | exact side_map | exact side_hostMap rfl rfl rfl rfl | exact side_host4 rfl rfl rfl rfl) |  (intro _) | with_reducible refine Runs.next ?_ | with_reducible refine ite_moves ?_ ?_ | with_reducible refine ite_snd_moves ?_ ?_ | with_reducible refine ite_fst_moves ?_ ?_ | split | refine fst_of_eq (by assumption) ?_ | refine snd_of_eq (by assumption) ?_ | with_reducible refine upd_host ?_ ?_ ?_ | dsimp only)

end Sys2Proof.Laws
end

