-- ==== Sys2Proof/Laws/Moves/Ledger.lean ====
section
/-! SUPPORT. What the operations of Machine/Ledger.lean may change: one lemma each. -/

set_option linter.unusedTactic false
set_option linter.unreachableTactic false
set_option linter.unusedVariables false

namespace Sys2Proof.Laws

open Sys2Proof.Machine Sys2Proof.Safety

theorem sealStep_moves {ll ss} {s : State} {n : Nat} (hh : Moves ll ss s) (hsub : sub [.ledger] ll = true) :
    Moves ll ss (sealStep s n) := by
  refine hh.trans ?_ hsub; unfold sealStep
  repeat' (first | with_reducible assumption | with_reducible exact Moves.refl _ _ | with_reducible exact rfl | exact rfl |  (intro _) | with_reducible refine ite_moves ?_ ?_ | with_reducible refine ite_snd_moves ?_ ?_ | with_reducible refine ite_fst_moves ?_ ?_ | split | refine fst_of_eq (by assumption) ?_ | refine snd_of_eq (by assumption) ?_ | with_reducible refine upd_ledger ?_ ?_ | dsimp only)

theorem sealCycle_moves {ll ss} {s : State} (hh : Moves ll ss s) (hsub : sub [.stats, .ledger] ll = true) :
    Moves ll ss (sealCycle s) := by
  refine hh.trans ?_ hsub; unfold sealCycle
  repeat' (first | with_reducible assumption | with_reducible exact Moves.refl _ _ | with_reducible exact rfl | exact rfl |  (intro _) | with_reducible refine setStat_moves ?_ ?_ | with_reducible refine ite_moves ?_ ?_ | with_reducible refine ite_snd_moves ?_ ?_ | with_reducible refine ite_fst_moves ?_ ?_ | split | refine fst_of_eq (by assumption) ?_ | refine snd_of_eq (by assumption) ?_ | with_reducible refine upd_ledger ?_ ?_ | dsimp only)

theorem execLedgerChainEntry_moves {s : State} : Runs [.ledger] s (execLedgerChainEntry s) := by
  unfold execLedgerChainEntry
  repeat' (first | with_reducible assumption | with_reducible exact Moves.refl _ _ | with_reducible exact rfl | exact rfl |  (intro _) | with_reducible refine sealStep_moves ?_ ?_ | with_reducible refine Runs.next ?_ | with_reducible refine ite_moves ?_ ?_ | with_reducible refine ite_snd_moves ?_ ?_ | with_reducible refine ite_fst_moves ?_ ?_ | split | refine fst_of_eq (by assumption) ?_ | refine snd_of_eq (by assumption) ?_ | with_reducible refine upd_ledger ?_ ?_ | dsimp only)

theorem execSeal_moves {s : State} : Runs [.ledger] s (execSeal s) := by
  unfold execSeal
  repeat' (first | with_reducible assumption | with_reducible exact Moves.refl _ _ | with_reducible exact rfl | exact rfl |  (intro _) | with_reducible refine recordRaw_moves ?_ ?_ | with_reducible refine Runs.next ?_ | with_reducible refine ite_moves ?_ ?_ | with_reducible refine ite_snd_moves ?_ ?_ | with_reducible refine ite_fst_moves ?_ ?_ | split | refine fst_of_eq (by assumption) ?_ | refine snd_of_eq (by assumption) ?_ | with_reducible refine upd_ledger ?_ ?_ | dsimp only)

theorem sealLost_moves {ll ss} {s : State} (hh : Moves ll ss s) (hsub : sub [.stats, .ledger] ll = true) :
    Moves ll ss (sealLost s) := by
  refine hh.trans ?_ hsub; unfold sealLost
  repeat' (first | with_reducible assumption | with_reducible exact Moves.refl _ _ | with_reducible exact rfl | exact rfl |  (intro _) | with_reducible refine sealCycle_moves ?_ ?_ | with_reducible refine ite_moves ?_ ?_ | with_reducible refine ite_snd_moves ?_ ?_ | with_reducible refine ite_fst_moves ?_ ?_ | split | refine fst_of_eq (by assumption) ?_ | refine snd_of_eq (by assumption) ?_ | with_reducible refine upd_ledger ?_ ?_ | dsimp only)

theorem execSealWait_moves {s : State} : Runs [.host, .stats, .fresh] s (execSealWait s) := by
  unfold execSealWait
  repeat' (first | with_reducible assumption | with_reducible exact Moves.refl _ _ | with_reducible exact rfl | exact rfl |  (intro _) | with_reducible refine noteState_moves ?_ ?_ | with_reducible refine Runs.next ?_ | with_reducible refine ite_moves ?_ ?_ | with_reducible refine ite_snd_moves ?_ ?_ | with_reducible refine ite_fst_moves ?_ ?_ | split | refine fst_of_eq (by assumption) ?_ | refine snd_of_eq (by assumption) ?_ | dsimp only)

theorem execLedgerMirror_moves {ring : BitVec 6} {d : Desc} {s : State} : Runs [.host, .stats, .ledger, .fresh] s (execLedgerMirror ring d s) := by
  unfold execLedgerMirror
  repeat' (first | with_reducible assumption | with_reducible exact Moves.refl _ _ | with_reducible exact rfl | exact rfl |  (intro _) | with_reducible refine accept_moves ?_ ?_ ?_ | with_reducible refine complete_moves ?_ ?_ | with_reducible refine Runs.next ?_ | with_reducible refine ite_moves ?_ ?_ | with_reducible refine ite_snd_moves ?_ ?_ | with_reducible refine ite_fst_moves ?_ ?_ | split | refine fst_of_eq (by assumption) ?_ | refine snd_of_eq (by assumption) ?_ | with_reducible refine upd_ledger ?_ ?_ | dsimp only)

theorem execLedgerMirrorWrite_moves {s : State} : Runs [.host, .ledger, .fresh] s (execLedgerMirrorWrite s) := by
  unfold execLedgerMirrorWrite
  repeat' (first | with_reducible assumption | with_reducible exact Moves.refl _ _ | with_reducible exact rfl | exact rfl |  (intro _) | with_reducible refine hostWrite_moves ?_ ?_ | with_reducible refine Runs.next ?_ | with_reducible refine ite_moves ?_ ?_ | with_reducible refine ite_snd_moves ?_ ?_ | with_reducible refine ite_fst_moves ?_ ?_ | split | refine fst_of_eq (by assumption) ?_ | refine snd_of_eq (by assumption) ?_ | with_reducible refine upd_ledger ?_ ?_ | dsimp only)

theorem execLedgerRead_moves {ring : BitVec 6} {d : Desc} {s : State} : Runs [.host, .stats, .fresh] s (execLedgerRead ring d s) := by
  unfold execLedgerRead
  repeat' (first | with_reducible assumption | with_reducible exact Moves.refl _ _ | with_reducible exact rfl | exact rfl |  (intro _) | with_reducible refine accept_moves ?_ ?_ ?_ | with_reducible refine complete_moves ?_ ?_ | with_reducible refine copyOut_moves ?_ ?_ | with_reducible refine Runs.next ?_ | with_reducible refine ite_moves ?_ ?_ | with_reducible refine ite_snd_moves ?_ ?_ | with_reducible refine ite_fst_moves ?_ ?_ | split | refine fst_of_eq (by assumption) ?_ | refine snd_of_eq (by assumption) ?_ | dsimp only)

theorem recordingBegins_moves {ll ss} {s : State} (hh : Moves ll ss s) (hsub : sub [.boot, .host, .ledger] ll = true) :
    Moves ll ss (recordingBegins s) := by
  refine hh.trans ?_ hsub; unfold recordingBegins
  repeat' (first | with_reducible assumption | with_reducible exact Moves.refl _ _ | with_reducible exact rfl | exact rfl |  (intro _) | with_reducible refine recordRaw_moves ?_ ?_ | with_reducible refine record_moves ?_ ?_ | with_reducible refine ready_moves ?_ ?_ | with_reducible refine ite_moves ?_ ?_ | with_reducible refine ite_snd_moves ?_ ?_ | with_reducible refine ite_fst_moves ?_ ?_ | split | refine fst_of_eq (by assumption) ?_ | refine snd_of_eq (by assumption) ?_ | with_reducible refine upd_boot_ledger ?_ ?_ | with_reducible refine upd_ledger ?_ ?_ | dsimp only)

end Sys2Proof.Laws
end

