-- ==== Sys2Proof/Laws/Moves/Links.lean ====
section
/-! SUPPORT. What the operations of Machine/Links.lean may change: one lemma each. -/

set_option linter.unusedTactic false
set_option linter.unreachableTactic false
set_option linter.unusedVariables false

namespace Sys2Proof.Laws

open Sys2Proof.Machine Sys2Proof.Safety

theorem freshLanes_moves {ll ss} {s : State} {ls : List Nat} (hh : Moves ll ss s) (hsub : sub [.lanes] ll = true) :
    Moves ll ss (freshLanes s ls) := by
  refine hh.trans ?_ hsub; unfold freshLanes
  repeat' (first | with_reducible assumption | with_reducible exact Moves.refl _ _ | with_reducible exact rfl | exact rfl |  (intro _) | with_reducible refine setLane_moves ?_ ?_ | with_reducible refine foldl_moves ?_ ?_ | with_reducible refine foldl_fst_moves ?_ ?_ | with_reducible refine ite_moves ?_ ?_ | with_reducible refine ite_snd_moves ?_ ?_ | with_reducible refine ite_fst_moves ?_ ?_ | split | refine fst_of_eq (by assumption) ?_ | refine snd_of_eq (by assumption) ?_ | dsimp only)

theorem silence_moves {ll ss} {s : State} {ls : List Nat} (hh : Moves ll ss s) (hsub : sub [.lanes] ll = true) :
    Moves ll ss (silence s ls) := by
  refine hh.trans ?_ hsub; unfold silence
  repeat' (first | with_reducible assumption | with_reducible exact Moves.refl _ _ | with_reducible exact rfl | exact rfl |  (intro _) | with_reducible refine setLane_moves ?_ ?_ | with_reducible refine foldl_moves ?_ ?_ | with_reducible refine foldl_fst_moves ?_ ?_ | with_reducible refine ite_moves ?_ ?_ | with_reducible refine ite_snd_moves ?_ ?_ | with_reducible refine ite_fst_moves ?_ ?_ | split | refine fst_of_eq (by assumption) ?_ | refine snd_of_eq (by assumption) ?_ | dsimp only)

theorem countAnew_moves {ll ss} {s : State} {ls : List Nat} (hh : Moves ll ss s) (hsub : sub [.host, .lanes] ll = true) :
    Moves ll ss (countAnew s ls) := by
  refine hh.trans ?_ hsub; unfold countAnew
  repeat' (first | with_reducible assumption | with_reducible exact Moves.refl _ _ | with_reducible exact rfl | exact rfl |  (intro _) | with_reducible refine setLane_moves ?_ ?_ | with_reducible refine ready_moves ?_ ?_ | with_reducible refine foldl_moves ?_ ?_ | with_reducible refine foldl_fst_moves ?_ ?_ | with_reducible refine ite_moves ?_ ?_ | with_reducible refine ite_snd_moves ?_ ?_ | with_reducible refine ite_fst_moves ?_ ?_ | split | refine fst_of_eq (by assumption) ?_ | refine snd_of_eq (by assumption) ?_ | dsimp only)

theorem toQuiet_moves {ll ss} {s : State} {p attempts : Nat} {st : LinkSt} (hh : Moves ll ss s) (hsub : sub [.ports, .lanes] ll = true) :
    Moves ll ss (toQuiet s p attempts st) := by
  refine hh.trans ?_ hsub; unfold toQuiet
  repeat' (first | with_reducible assumption | with_reducible exact Moves.refl _ _ | with_reducible exact rfl | exact rfl |  (intro _) | with_reducible refine silence_moves ?_ ?_ | with_reducible refine freshLanes_moves ?_ ?_ | with_reducible refine modPort_moves ?_ ?_ | with_reducible refine ite_moves ?_ ?_ | with_reducible refine ite_snd_moves ?_ ?_ | with_reducible refine ite_fst_moves ?_ ?_ | split | refine fst_of_eq (by assumption) ?_ | refine snd_of_eq (by assumption) ?_ | dsimp only)

theorem widen_moves {ll ss} {s : State} {p : Nat} (hh : Moves ll ss s) (hsub : sub [.ports] ll = true) :
    Moves ll ss (widen s p) := by
  refine hh.trans ?_ hsub; unfold widen
  repeat' (first | with_reducible assumption | with_reducible exact Moves.refl _ _ | with_reducible exact rfl | exact rfl |  (intro _) | with_reducible refine modPort_moves ?_ ?_ | with_reducible refine ite_moves ?_ ?_ | with_reducible refine ite_snd_moves ?_ ?_ | with_reducible refine ite_fst_moves ?_ ?_ | split | refine fst_of_eq (by assumption) ?_ | refine snd_of_eq (by assumption) ?_ | dsimp only)

theorem fenceDown_moves {ll ss} {s : State} {p : Nat} (hh : Moves ll ss s) (hsub : sub [.host, .stats, .ports, .stalled, .reorder, .tandem, .dropping, .intake, .fresh] ll = true) :
    Moves ll ss (fenceDown s p) := by
  refine hh.trans ?_ hsub; unfold fenceDown
  repeat' (first | with_reducible assumption | with_reducible exact Moves.refl _ _ | with_reducible exact rfl | exact rfl |  (intro _) | with_reducible refine setCause_moves ?_ ?_ | with_reducible refine countPort_moves ?_ ?_ | with_reducible refine loseKicks_moves ?_ ?_ | with_reducible refine cutInput_moves ?_ ?_ | with_reducible refine loseLane_moves ?_ ?_ | with_reducible refine flushQueue_moves ?_ ?_ | with_reducible refine modQ_moves ?_ ?_ | with_reducible refine ite_moves ?_ ?_ | with_reducible refine ite_snd_moves ?_ ?_ | with_reducible refine ite_fst_moves ?_ ?_ | split | refine fst_of_eq (by assumption) ?_ | refine snd_of_eq (by assumption) ?_ | dsimp only)

theorem portDown_moves {ll ss} {s : State} {p : Nat} (hh : Moves ll ss s) (hsub : sub [.host, .stats, .ports, .lanes, .stalled, .reorder, .tandem, .dropping, .intake, .fresh] ll = true) :
    Moves ll ss (portDown s p) := by
  refine hh.trans ?_ hsub; unfold portDown
  repeat' (first | with_reducible assumption | with_reducible exact Moves.refl _ _ | with_reducible exact rfl | exact rfl |  (intro _) | with_reducible refine toQuiet_moves ?_ ?_ | with_reducible refine fenceDown_moves ?_ ?_ | with_reducible refine ite_moves ?_ ?_ | with_reducible refine ite_snd_moves ?_ ?_ | with_reducible refine ite_fst_moves ?_ ?_ | split | refine fst_of_eq (by assumption) ?_ | refine snd_of_eq (by assumption) ?_ | dsimp only)

theorem narrow_moves {ll ss} {s : State} {p base v : Nat} {st : LinkSt} (hh : Moves ll ss s) (hsub : sub [.host, .stats, .ports, .lanes, .ledger, .fresh] ll = true) :
    Moves ll ss (narrow s p base v st) := by
  refine hh.trans ?_ hsub; unfold narrow
  repeat' (first | with_reducible assumption | with_reducible exact Moves.refl _ _ | with_reducible exact rfl | exact rfl |  (intro _) | with_reducible refine countPort_moves ?_ ?_ | with_reducible refine setCause_moves ?_ ?_ | with_reducible refine recordRaw_moves ?_ ?_ | with_reducible refine silence_moves ?_ ?_ | with_reducible refine countAnew_moves ?_ ?_ | with_reducible refine modPort_moves ?_ ?_ | with_reducible refine ite_moves ?_ ?_ | with_reducible refine ite_snd_moves ?_ ?_ | with_reducible refine ite_fst_moves ?_ ?_ | split | refine fst_of_eq (by assumption) ?_ | refine snd_of_eq (by assumption) ?_ | dsimp only)

theorem keepKick_moves {ll ss} {s : State} {p : Nat} (hh : Moves ll ss s) (hsub : sub [.ports] ll = true) :
    Moves ll ss (keepKick s p) := by
  refine hh.trans ?_ hsub; unfold keepKick
  repeat' (first | with_reducible assumption | with_reducible exact Moves.refl _ _ | with_reducible exact rfl | exact rfl |  (intro _) | with_reducible refine modKick_moves ?_ ?_ | with_reducible refine ite_moves ?_ ?_ | with_reducible refine ite_snd_moves ?_ ?_ | with_reducible refine ite_fst_moves ?_ ?_ | split | refine fst_of_eq (by assumption) ?_ | refine snd_of_eq (by assumption) ?_ | dsimp only)

theorem portLoss_moves {ll ss} {s : State} {p : Nat} (hh : Moves ll ss s) (hsub : sub [.host, .stats, .ports, .lanes, .stalled, .reorder, .tandem, .dropping, .intake, .ledger, .fresh] ll = true) :
    Moves ll ss (portLoss s p) := by
  refine hh.trans ?_ hsub; unfold portLoss
  repeat' (first | with_reducible assumption | with_reducible exact Moves.refl _ _ | with_reducible exact rfl | exact rfl |  (intro _) | with_reducible refine portDown_moves ?_ ?_ | with_reducible refine narrow_moves ?_ ?_ | with_reducible refine cutInput_moves ?_ ?_ | with_reducible refine loseLane_moves ?_ ?_ | with_reducible refine keepKick_moves ?_ ?_ | with_reducible refine modLink_moves ?_ ?_ | with_reducible refine ite_moves ?_ ?_ | with_reducible refine ite_snd_moves ?_ ?_ | with_reducible refine ite_fst_moves ?_ ?_ | split | refine fst_of_eq (by assumption) ?_ | refine snd_of_eq (by assumption) ?_ | dsimp only)

theorem lockLost_moves {ll ss} {s : State} {p : Nat} (hh : Moves ll ss s) (hsub : sub [.host, .stats, .ports, .lanes, .stalled, .reorder, .tandem, .dropping, .intake, .ledger, .fresh] ll = true) :
    Moves ll ss (lockLost s p) := by
  refine hh.trans ?_ hsub; unfold lockLost
  repeat' (first | with_reducible assumption | with_reducible exact Moves.refl _ _ | with_reducible exact rfl | exact rfl |  (intro _) | with_reducible refine setCause_moves ?_ ?_ | with_reducible refine countPort_moves ?_ ?_ | with_reducible refine portLoss_moves ?_ ?_ | with_reducible refine portDown_moves ?_ ?_ | with_reducible refine ite_moves ?_ ?_ | with_reducible refine ite_snd_moves ?_ ?_ | with_reducible refine ite_fst_moves ?_ ?_ | split | refine fst_of_eq (by assumption) ?_ | refine snd_of_eq (by assumption) ?_ | dsimp only)

theorem blockLock_moves {ll ss} {s : State} {st : LinkSt} {b : LaneBlock} {skew : Nat} {h : Option (BitVec 80 × Bool)} (hh : Moves ll ss s) (hsub : sub [.host, .stats, .lanes, .fresh] ll = true) :
    Moves ll ss (blockLock s st b skew h).1 := by
  refine hh.trans ?_ hsub; unfold blockLock
  repeat' (first | with_reducible assumption | with_reducible exact Moves.refl _ _ | with_reducible exact rfl | exact rfl |  (intro _) | with_reducible refine setLane_moves ?_ ?_ | with_reducible refine postEvent_moves ?_ ?_ | with_reducible refine ite_moves ?_ ?_ | with_reducible refine ite_snd_moves ?_ ?_ | with_reducible refine ite_fst_moves ?_ ?_ | split | refine fst_of_eq (by assumption) ?_ | refine snd_of_eq (by assumption) ?_ | dsimp only)

theorem acceptBlocks_moves {ll ss} {s : State} {p arrival : Nat} {whole : Bool} {hs : List (Nat × BitVec 80)} (hh : Moves ll ss s) (hsub : sub [.host, .stats, .ports, .lanes, .fresh] ll = true) :
    Moves ll ss (acceptBlocks s p arrival whole hs) := by
  refine hh.trans ?_ hsub; unfold acceptBlocks
  repeat' (first | with_reducible assumption | with_reducible exact Moves.refl _ _ | with_reducible exact rfl | exact rfl |  (intro _) | with_reducible refine setLane_moves ?_ ?_ | with_reducible refine setCause_moves ?_ ?_ | with_reducible refine countPort_moves ?_ ?_ | with_reducible refine modLink_moves ?_ ?_ | with_reducible refine foldl_moves ?_ ?_ | with_reducible refine foldl_fst_moves ?_ ?_ | with_reducible refine ite_moves ?_ ?_ | with_reducible refine ite_snd_moves ?_ ?_ | with_reducible refine ite_fst_moves ?_ ?_ | split | refine fst_of_eq (by assumption) ?_ | refine snd_of_eq (by assumption) ?_ | dsimp only)

theorem lasting_moves {ll ss} {s : State} {p : Nat} {bad : List Nat} (hh : Moves ll ss s) (hsub : sub [.host, .stats, .ports, .lanes, .stalled, .reorder, .tandem, .dropping, .intake, .ledger, .fresh] ll = true) :
    Moves ll ss (lasting s p bad) := by
  refine hh.trans ?_ hsub; unfold lasting
  repeat' (first | with_reducible assumption | with_reducible exact Moves.refl _ _ | with_reducible exact rfl | exact rfl |  (intro _) | with_reducible refine setLane_moves ?_ ?_ | with_reducible refine setCause_moves ?_ ?_ | with_reducible refine countPort_moves ?_ ?_ | with_reducible refine portLoss_moves ?_ ?_ | with_reducible refine foldl_moves ?_ ?_ | with_reducible refine foldl_fst_moves ?_ ?_ | with_reducible refine ite_moves ?_ ?_ | with_reducible refine ite_snd_moves ?_ ?_ | with_reducible refine ite_fst_moves ?_ ?_ | split | refine fst_of_eq (by assumption) ?_ | refine snd_of_eq (by assumption) ?_ | dsimp only)

theorem sequence_moves {ll ss} {s : State} {p arrival : Nat} {pos : RxPos} {heads good : List (Nat × BitVec 80)} {bad : List Nat} (hh : Moves ll ss s) (hsub : sub [.host, .stats, .ports, .lanes, .stalled, .reorder, .tandem, .dropping, .intake, .ledger, .fresh] ll = true) :
    Moves ll ss (Machine.sequence s p arrival pos heads good bad) := by
  refine hh.trans ?_ hsub; unfold Machine.sequence
  repeat' (first | with_reducible assumption | with_reducible exact Moves.refl _ _ | with_reducible exact rfl | exact rfl |  (intro _) | with_reducible refine modLink_moves ?_ ?_ | with_reducible refine acceptBlocks_moves ?_ ?_ | with_reducible refine lasting_moves ?_ ?_ | with_reducible refine ite_moves ?_ ?_ | with_reducible refine ite_snd_moves ?_ ?_ | with_reducible refine ite_fst_moves ?_ ?_ | split | refine fst_of_eq (by assumption) ?_ | refine snd_of_eq (by assumption) ?_ | dsimp only)

theorem missedLanes_moves {ll ss} {s : State} {ls : List Nat} (hh : Moves ll ss s) (hsub : sub [.lanes] ll = true) :
    Moves ll ss (missedLanes s ls) := by
  refine hh.trans ?_ hsub; unfold missedLanes
  repeat' (first | with_reducible assumption | with_reducible exact Moves.refl _ _ | with_reducible exact rfl | exact rfl |  (intro _) | with_reducible refine setLane_moves ?_ ?_ | with_reducible refine foldl_moves ?_ ?_ | with_reducible refine foldl_fst_moves ?_ ?_ | with_reducible refine ite_moves ?_ ?_ | with_reducible refine ite_snd_moves ?_ ?_ | with_reducible refine ite_fst_moves ?_ ?_ | split | refine fst_of_eq (by assumption) ?_ | refine snd_of_eq (by assumption) ?_ | dsimp only)

theorem execLaneBlockReceive_moves {port : BitVec 9} {blocks : List LaneBlock} {s : State} : Runs [.host, .stats, .ports, .lanes, .stalled, .reorder, .tandem, .dropping, .intake, .ledger, .fresh] s (execLaneBlockReceive port blocks s) := by
  unfold execLaneBlockReceive
  repeat' (first | with_reducible assumption | with_reducible exact Moves.refl _ _ | with_reducible exact rfl | exact rfl |  (intro _) | with_reducible refine blockLock_moves ?_ ?_ | with_reducible refine missedLanes_moves ?_ ?_ | with_reducible refine countPort_moves ?_ ?_ | with_reducible refine lockLost_moves ?_ ?_ | with_reducible refine modLink_moves ?_ ?_ | with_reducible refine sequence_moves ?_ ?_ | with_reducible refine acceptBlocks_moves ?_ ?_ | with_reducible refine foldl_moves ?_ ?_ | with_reducible refine foldl_fst_moves ?_ ?_ | with_reducible refine Runs.next ?_ | with_reducible refine ite_moves ?_ ?_ | with_reducible refine ite_snd_moves ?_ ?_ | with_reducible refine ite_fst_moves ?_ ?_ | split | refine fst_of_eq (by assumption) ?_ | refine snd_of_eq (by assumption) ?_ | dsimp only)

theorem execNakReceive_moves {port : BitVec 9} {header : BitVec 80} {s : State} : Runs [.ports] s (execNakReceive port header s) := by
  unfold execNakReceive
  repeat' (first | with_reducible assumption | with_reducible exact Moves.refl _ _ | with_reducible exact rfl | exact rfl |  (intro _) | with_reducible refine modLink_moves ?_ ?_ | with_reducible refine Runs.next ?_ | with_reducible refine ite_moves ?_ ?_ | with_reducible refine ite_snd_moves ?_ ?_ | with_reducible refine ite_fst_moves ?_ ?_ | split | refine fst_of_eq (by assumption) ?_ | refine snd_of_eq (by assumption) ?_ | dsimp only)

theorem execLossOfSignal_moves {port lane : BitVec 9} {s : State} : Runs [.host, .stats, .ports, .lanes, .stalled, .reorder, .tandem, .dropping, .intake, .ledger, .fresh] s (execLossOfSignal port lane s) := by
  unfold execLossOfSignal
  repeat' (first | with_reducible assumption | with_reducible exact Moves.refl _ _ | with_reducible exact rfl | exact rfl |  (intro _) | with_reducible refine setLane_moves ?_ ?_ | with_reducible refine lockLost_moves ?_ ?_ | with_reducible refine Runs.next ?_ | with_reducible refine ite_moves ?_ ?_ | with_reducible refine ite_snd_moves ?_ ?_ | with_reducible refine ite_fst_moves ?_ ?_ | split | refine fst_of_eq (by assumption) ?_ | refine snd_of_eq (by assumption) ?_ | dsimp only)

theorem execDegradeTimeout_moves {port : BitVec 9} {s : State} : Runs [.host, .stats, .ports, .lanes, .stalled, .reorder, .tandem, .dropping, .intake, .fresh] s (execDegradeTimeout port s) := by
  unfold execDegradeTimeout
  repeat' (first | with_reducible assumption | with_reducible exact Moves.refl _ _ | with_reducible exact rfl | exact rfl |  (intro _) | with_reducible refine portDown_moves ?_ ?_ | with_reducible refine Runs.next ?_ | with_reducible refine ite_moves ?_ ?_ | with_reducible refine ite_snd_moves ?_ ?_ | with_reducible refine ite_fst_moves ?_ ?_ | split | refine fst_of_eq (by assumption) ?_ | refine snd_of_eq (by assumption) ?_ | dsimp only)

theorem holdLink_moves {ll ss} {s : State} {p reason lane : Nat} (hh : Moves ll ss s) (hsub : sub [.host, .stats, .ports, .stalled, .dropping, .fresh] ll = true) :
    Moves ll ss (holdLink s p reason lane) := by
  refine hh.trans ?_ hsub; unfold holdLink
  repeat' (first | with_reducible assumption | with_reducible exact Moves.refl _ _ | with_reducible exact rfl | exact rfl |  (intro _) | with_reducible refine loseKicks_moves ?_ ?_ | with_reducible refine flushQueue_moves ?_ ?_ | with_reducible refine modLink_moves ?_ ?_ | with_reducible refine postEvent_moves ?_ ?_ | with_reducible refine setBit_moves ?_ ?_ | with_reducible refine ite_moves ?_ ?_ | with_reducible refine ite_snd_moves ?_ ?_ | with_reducible refine ite_fst_moves ?_ ?_ | split | refine fst_of_eq (by assumption) ?_ | refine snd_of_eq (by assumption) ?_ | dsimp only)

theorem settleCred_moves {ll ss} {s : State} {p : Nat} (hh : Moves ll ss s) (hsub : sub [.ports] ll = true) :
    Moves ll ss (settleCred s p) := by
  refine hh.trans ?_ hsub; unfold settleCred
  repeat' (first | with_reducible assumption | with_reducible exact Moves.refl _ _ | with_reducible exact rfl | exact rfl |  (intro _) | with_reducible refine modQ_moves ?_ ?_ | with_reducible refine foldl_moves ?_ ?_ | with_reducible refine foldl_fst_moves ?_ ?_ | with_reducible refine ite_moves ?_ ?_ | with_reducible refine ite_snd_moves ?_ ?_ | with_reducible refine ite_fst_moves ?_ ?_ | split | refine fst_of_eq (by assumption) ?_ | refine snd_of_eq (by assumption) ?_ | dsimp only)

theorem enterState_moves {ll ss} {s : State} {p k : Nat} (hh : Moves ll ss s) (hsub : sub [.tick, .host, .stats, .ports, .fresh] ll = true) :
    Moves ll ss (enterState s p k) := by
  refine hh.trans ?_ hsub; unfold enterState
  repeat' (first | with_reducible assumption | with_reducible exact Moves.refl _ _ | with_reducible exact rfl | exact rfl |  (intro _) | with_reducible refine modQ_moves ?_ ?_ | with_reducible refine modLink_moves ?_ ?_ | with_reducible refine noteState_moves ?_ ?_ | with_reducible refine ite_moves ?_ ?_ | with_reducible refine ite_snd_moves ?_ ?_ | with_reducible refine ite_fst_moves ?_ ?_ | split | refine fst_of_eq (by assumption) ?_ | refine snd_of_eq (by assumption) ?_ | with_reducible refine upd_tick ?_ ?_ | dsimp only)

theorem goodRotation_moves {ll ss} {s : State} {p : Nat} (hh : Moves ll ss s) (hsub : sub [.host, .stats, .ports, .fresh] ll = true) :
    Moves ll ss (goodRotation s p) := by
  refine hh.trans ?_ hsub; unfold goodRotation
  repeat' (first | with_reducible assumption | with_reducible exact Moves.refl _ _ | with_reducible exact rfl | exact rfl |  (intro _) | with_reducible refine modLink_moves ?_ ?_ | with_reducible refine postEvent_moves ?_ ?_ | with_reducible refine settleCred_moves ?_ ?_ | with_reducible refine ite_moves ?_ ?_ | with_reducible refine ite_snd_moves ?_ ?_ | with_reducible refine ite_fst_moves ?_ ?_ | split | refine fst_of_eq (by assumption) ?_ | refine snd_of_eq (by assumption) ?_ | dsimp only)

theorem execPassbookRotation_moves {port : BitVec 9} {bsn : BitVec 12} {arrival : Nat} {s : State} : Runs [.host, .stats, .ports, .lanes, .fresh] s (execPassbookRotation port bsn arrival s) := by
  unfold execPassbookRotation
  repeat' (first | with_reducible assumption | with_reducible exact Moves.refl _ _ | with_reducible exact rfl | exact rfl |  (intro _) | with_reducible refine ready_moves ?_ ?_ | with_reducible refine goodRotation_moves ?_ ?_ | with_reducible refine modLink_moves ?_ ?_ | with_reducible refine setLane_moves ?_ ?_ | with_reducible refine foldl_moves ?_ ?_ | with_reducible refine foldl_fst_moves ?_ ?_ | with_reducible refine Runs.next ?_ | with_reducible refine ite_moves ?_ ?_ | with_reducible refine ite_snd_moves ?_ ?_ | with_reducible refine ite_fst_moves ?_ ?_ | split | refine fst_of_eq (by assumption) ?_ | refine snd_of_eq (by assumption) ?_ | dsimp only)

theorem applyVerdict_moves {ll ss} {s : State} {p : Nat} {v : Verdict} (hh : Moves ll ss s) (hsub : sub [.tick, .host, .stats, .ports, .lanes, .stalled, .reorder, .tandem, .dropping, .intake, .fresh] ll = true) :
    Moves ll ss (applyVerdict s p v) := by
  refine hh.trans ?_ hsub; unfold applyVerdict
  repeat' (first | with_reducible assumption | with_reducible exact Moves.refl _ _ | with_reducible exact rfl | exact rfl |  (intro _) | with_reducible refine enterState_moves ?_ ?_ | with_reducible refine holdLink_moves ?_ ?_ | with_reducible refine portDown_moves ?_ ?_ | with_reducible refine ite_moves ?_ ?_ | with_reducible refine ite_snd_moves ?_ ?_ | with_reducible refine ite_fst_moves ?_ ?_ | split | refine fst_of_eq (by assumption) ?_ | refine snd_of_eq (by assumption) ?_ | dsimp only)

theorem applyDue_moves {ll ss} {s : State} {p : Nat} (hh : Moves ll ss s) (hsub : sub [.tick, .host, .stats, .ports, .lanes, .stalled, .reorder, .tandem, .dropping, .intake, .fresh] ll = true) :
    Moves ll ss (applyDue s p) := by
  refine hh.trans ?_ hsub; unfold applyDue
  repeat' (first | with_reducible assumption | with_reducible exact Moves.refl _ _ | with_reducible exact rfl | exact rfl |  (intro _) | with_reducible refine modLink_moves ?_ ?_ | with_reducible refine applyVerdict_moves ?_ ?_ | with_reducible refine foldl_moves ?_ ?_ | with_reducible refine foldl_fst_moves ?_ ?_ | with_reducible refine ite_moves ?_ ?_ | with_reducible refine ite_snd_moves ?_ ?_ | with_reducible refine ite_fst_moves ?_ ?_ | split | refine fst_of_eq (by assumption) ?_ | refine snd_of_eq (by assumption) ?_ | dsimp only)

theorem startLink_moves {ll ss} {s : State} {p : Nat} (hh : Moves ll ss s) (hsub : sub [.ports] ll = true) :
    Moves ll ss (startLink s p) := by
  refine hh.trans ?_ hsub; unfold startLink
  repeat' (first | with_reducible assumption | with_reducible exact Moves.refl _ _ | with_reducible exact rfl | exact rfl |  (intro _) | with_reducible refine modLink_moves ?_ ?_ | with_reducible refine ite_moves ?_ ?_ | with_reducible refine ite_snd_moves ?_ ?_ | with_reducible refine ite_fst_moves ?_ ?_ | split | refine fst_of_eq (by assumption) ?_ | refine snd_of_eq (by assumption) ?_ | dsimp only)

theorem attemptFails_moves {ll ss} {s : State} {p : Nat} (hh : Moves ll ss s) (hsub : sub [.host, .stats, .ports, .lanes, .stalled, .reorder, .tandem, .dropping, .intake, .fresh] ll = true) :
    Moves ll ss (attemptFails s p) := by
  refine hh.trans ?_ hsub; unfold attemptFails
  repeat' (first | with_reducible assumption | with_reducible exact Moves.refl _ _ | with_reducible exact rfl | exact rfl |  (intro _) | with_reducible refine portDown_moves ?_ ?_ | with_reducible refine toQuiet_moves ?_ ?_ | with_reducible refine ite_moves ?_ ?_ | with_reducible refine ite_snd_moves ?_ ?_ | with_reducible refine ite_fst_moves ?_ ?_ | split | refine fst_of_eq (by assumption) ?_ | refine snd_of_eq (by assumption) ?_ | dsimp only)

theorem linkTo_moves {ll ss} {s : State} {p : Nat} {st : LinkSt} (hh : Moves ll ss s) (hsub : sub [.ports] ll = true) :
    Moves ll ss (linkTo s p st) := by
  refine hh.trans ?_ hsub; unfold linkTo
  repeat' (first | with_reducible assumption | with_reducible exact Moves.refl _ _ | with_reducible exact rfl | exact rfl |  (intro _) | with_reducible refine modLink_moves ?_ ?_ | with_reducible refine ite_moves ?_ ?_ | with_reducible refine ite_snd_moves ?_ ?_ | with_reducible refine ite_fst_moves ?_ ?_ | split | refine fst_of_eq (by assumption) ?_ | refine snd_of_eq (by assumption) ?_ | dsimp only)

theorem identifyEnds_moves {ll ss} {s : State} {p : Nat} (hh : Moves ll ss s) (hsub : sub [.host, .stats, .ports, .lanes, .stalled, .reorder, .tandem, .dropping, .intake, .ledger, .fresh] ll = true) :
    Moves ll ss (identifyEnds s p) := by
  refine hh.trans ?_ hsub; unfold identifyEnds
  repeat' (first | with_reducible assumption | with_reducible exact Moves.refl _ _ | with_reducible exact rfl | exact rfl |  (intro _) | with_reducible refine setLane_moves ?_ ?_ | with_reducible refine attemptFails_moves ?_ ?_ | with_reducible refine holdLink_moves ?_ ?_ | with_reducible refine postEvent_moves ?_ ?_ | with_reducible refine modLink_moves ?_ ?_ | with_reducible refine linkTo_moves ?_ ?_ | with_reducible refine narrow_moves ?_ ?_ | with_reducible refine foldl_moves ?_ ?_ | with_reducible refine foldl_fst_moves ?_ ?_ | with_reducible refine ite_moves ?_ ?_ | with_reducible refine ite_snd_moves ?_ ?_ | with_reducible refine ite_fst_moves ?_ ?_ | split | refine fst_of_eq (by assumption) ?_ | refine snd_of_eq (by assumption) ?_ | dsimp only)

theorem measureEnds_moves {ll ss} {s : State} {p : Nat} {byLimit : Bool} (hh : Moves ll ss s) (hsub : sub [.host, .stats, .ports, .stalled, .dropping, .fresh] ll = true) :
    Moves ll ss (measureEnds s p byLimit) := by
  refine hh.trans ?_ hsub; unfold measureEnds
  repeat' (first | with_reducible assumption | with_reducible exact Moves.refl _ _ | with_reducible exact rfl | exact rfl |  (intro _) | with_reducible refine modLink_moves ?_ ?_ | with_reducible refine holdLink_moves ?_ ?_ | with_reducible refine linkTo_moves ?_ ?_ | with_reducible refine ite_moves ?_ ?_ | with_reducible refine ite_snd_moves ?_ ?_ | with_reducible refine ite_fst_moves ?_ ?_ | split | refine fst_of_eq (by assumption) ?_ | refine snd_of_eq (by assumption) ?_ | dsimp only)

theorem checkEnds_moves {ll ss} {s : State} {p : Nat} (hh : Moves ll ss s) (hsub : sub [.tick, .host, .stats, .ports, .lanes, .stalled, .reorder, .tandem, .dropping, .intake, .fresh] ll = true) :
    Moves ll ss (checkEnds s p) := by
  refine hh.trans ?_ hsub; unfold checkEnds
  repeat' (first | with_reducible assumption | with_reducible exact Moves.refl _ _ | with_reducible exact rfl | exact rfl |  (intro _) | with_reducible refine portDown_moves ?_ ?_ | with_reducible refine enterState_moves ?_ ?_ | with_reducible refine ite_moves ?_ ?_ | with_reducible refine ite_snd_moves ?_ ?_ | with_reducible refine ite_fst_moves ?_ ?_ | split | refine fst_of_eq (by assumption) ?_ | refine snd_of_eq (by assumption) ?_ | dsimp only)

theorem execLinkStateEnd_moves {port : BitVec 9} {byLimit : Bool} {s : State} : Runs [.tick, .host, .stats, .ports, .lanes, .stalled, .reorder, .tandem, .dropping, .intake, .ledger, .fresh] s (execLinkStateEnd port byLimit s) := by
  unfold execLinkStateEnd
  repeat' (first | with_reducible assumption | with_reducible exact Moves.refl _ _ | with_reducible exact rfl | exact rfl |  (intro _) | with_reducible refine linkTo_moves ?_ ?_ | with_reducible refine freshLanes_moves ?_ ?_ | with_reducible refine attemptFails_moves ?_ ?_ | with_reducible refine setLane_moves ?_ ?_ | with_reducible refine countAnew_moves ?_ ?_ | with_reducible refine identifyEnds_moves ?_ ?_ | with_reducible refine measureEnds_moves ?_ ?_ | with_reducible refine checkEnds_moves ?_ ?_ | with_reducible refine foldl_moves ?_ ?_ | with_reducible refine foldl_fst_moves ?_ ?_ | with_reducible refine Runs.next ?_ | with_reducible refine ite_moves ?_ ?_ | with_reducible refine ite_snd_moves ?_ ?_ | with_reducible refine ite_fst_moves ?_ ?_ | split | refine fst_of_eq (by assumption) ?_ | refine snd_of_eq (by assumption) ?_ | dsimp only)

theorem raiseGroup_moves {ll ss} {s : State} {pg : Nat} (hh : Moves ll ss s) (hsub : sub [.host, .stats, .ports, .lanes, .stalled, .reorder, .tandem, .dropping, .intake, .fresh] ll = true) :
    Moves ll ss (raiseGroup s pg) := by
  refine hh.trans ?_ hsub; unfold raiseGroup
  repeat' (first | with_reducible assumption | with_reducible exact Moves.refl _ _ | with_reducible exact rfl | exact rfl |  (intro _) | with_reducible refine fenceDown_moves ?_ ?_ | with_reducible refine toQuiet_moves ?_ ?_ | with_reducible refine widen_moves ?_ ?_ | with_reducible refine modPort_moves ?_ ?_ | with_reducible refine foldl_moves ?_ ?_ | with_reducible refine foldl_fst_moves ?_ ?_ | with_reducible refine ite_moves ?_ ?_ | with_reducible refine ite_snd_moves ?_ ?_ | with_reducible refine ite_fst_moves ?_ ?_ | split | refine fst_of_eq (by assumption) ?_ | refine snd_of_eq (by assumption) ?_ | dsimp only)

theorem openGroup_moves {ll ss} {s : State} {pg : Nat} (hh : Moves ll ss s) (hsub : sub [.host, .stats, .ports, .lanes, .stalled, .reorder, .tandem, .dropping, .intake, .fresh] ll = true) :
    Moves ll ss (openGroup s pg).1 := by
  refine hh.trans ?_ hsub; unfold openGroup
  repeat' (first | with_reducible assumption | with_reducible exact Moves.refl _ _ | with_reducible exact rfl | exact rfl |  (intro _) | with_reducible refine postEvent_moves ?_ ?_ | with_reducible refine raiseGroup_moves ?_ ?_ | with_reducible refine ite_moves ?_ ?_ | with_reducible refine ite_snd_moves ?_ ?_ | with_reducible refine ite_fst_moves ?_ ?_ | split | refine fst_of_eq (by assumption) ?_ | refine snd_of_eq (by assumption) ?_ | dsimp only)

theorem execLinkDown_moves {ring : BitVec 6} {d : Desc} {s : State} : Runs [.host, .stats, .ports, .lanes, .stalled, .reorder, .tandem, .dropping, .intake, .ledger, .fresh] s (execLinkDown ring d s) := by
  unfold execLinkDown
  repeat' (first | with_reducible assumption | with_reducible exact Moves.refl _ _ | with_reducible exact rfl | exact rfl |  (intro _) | with_reducible refine accept_moves ?_ ?_ ?_ | with_reducible refine complete_moves ?_ ?_ | with_reducible refine recordRaw_moves ?_ ?_ | with_reducible refine toQuiet_moves ?_ ?_ | with_reducible refine widen_moves ?_ ?_ | with_reducible refine fenceDown_moves ?_ ?_ | with_reducible refine foldl_moves ?_ ?_ | with_reducible refine foldl_fst_moves ?_ ?_ | with_reducible refine Runs.next ?_ | with_reducible refine ite_moves ?_ ?_ | with_reducible refine ite_snd_moves ?_ ?_ | with_reducible refine ite_fst_moves ?_ ?_ | split | refine fst_of_eq (by assumption) ?_ | refine snd_of_eq (by assumption) ?_ | dsimp only)

theorem execLinkUp_moves {ring : BitVec 6} {d : Desc} {s : State} : Runs [.host, .stats, .ports, .lanes, .stalled, .reorder, .tandem, .dropping, .intake, .ledger, .fresh] s (execLinkUp ring d s) := by
  unfold execLinkUp
  repeat' (first | with_reducible assumption | with_reducible exact Moves.refl _ _ | with_reducible exact rfl | exact rfl |  (intro _) | with_reducible refine accept_moves ?_ ?_ ?_ | with_reducible refine complete_moves ?_ ?_ | with_reducible refine recordRaw_moves ?_ ?_ | with_reducible refine openGroup_moves ?_ ?_ | with_reducible refine Runs.next ?_ | with_reducible refine ite_moves ?_ ?_ | with_reducible refine ite_snd_moves ?_ ?_ | with_reducible refine ite_fst_moves ?_ ?_ | split | refine fst_of_eq (by assumption) ?_ | refine snd_of_eq (by assumption) ?_ | dsimp only)

end Sys2Proof.Laws
end

