-- ==== Sys2Proof/Laws/Moves/Frames.lean ====
section
/-! SUPPORT. What the operations of Machine/Frames.lean may change: one lemma each. -/

set_option linter.unusedTactic false
set_option linter.unreachableTactic false
set_option linter.unusedVariables false

namespace Sys2Proof.Laws

open Sys2Proof.Machine Sys2Proof.Safety

theorem tandemMismatch_moves {ll ss} {s : State} {r : TandemRec} {cause own twin : Nat} (hh : Moves ll ss s) (hsub : sub [.host, .stats, .ports, .tandem, .fresh] ll = true) :
    Moves ll ss (tandemMismatch s r cause own twin) := by
  refine hh.trans ?_ hsub; unfold tandemMismatch
  repeat' (first | with_reducible assumption | with_reducible exact Moves.refl _ _ | with_reducible exact rfl | exact rfl |  (intro _) | with_reducible refine setCause_moves ?_ ?_ | with_reducible refine kickDetect_moves ?_ ?_ | with_reducible refine ite_moves ?_ ?_ | with_reducible refine ite_snd_moves ?_ ?_ | with_reducible refine ite_fst_moves ?_ ?_ | split | refine fst_of_eq (by assumption) ?_ | refine snd_of_eq (by assumption) ?_ | with_reducible refine upd_tandem ?_ ?_ | dsimp only)

theorem sendRecord_moves {ll ss} {s : State} {bytes : List Byte} {ready : Nat} (hh : Moves ll ss s) (hsub : sub [.host, .stats, .ports, .frames, .stalled, .blockCounts, .pools, .faults, .fresh] ll = true) :
    Moves ll ss (sendRecord s bytes ready) := by
  refine hh.trans ?_ hsub; unfold sendRecord
  repeat' (first | with_reducible assumption | with_reducible exact Moves.refl _ _ | with_reducible exact rfl | exact rfl |  (intro _) | with_reducible refine emitTo_moves ?_ ?_ | with_reducible refine ready_moves ?_ ?_ | with_reducible refine ite_moves ?_ ?_ | with_reducible refine ite_snd_moves ?_ ?_ | with_reducible refine ite_fst_moves ?_ ?_ | split | refine fst_of_eq (by assumption) ?_ | refine snd_of_eq (by assumption) ?_ | dsimp only)

theorem ownRecord_moves {ll ss} {s : State} {r : TandemRec} (hh : Moves ll ss s) (hsub : sub [.host, .stats, .ports, .frames, .stalled, .blockCounts, .pools, .tandem, .faults, .fresh] ll = true) :
    Moves ll ss (ownRecord s r) := by
  refine hh.trans ?_ hsub; unfold ownRecord
  repeat' (first | with_reducible assumption | with_reducible exact Moves.refl _ _ | with_reducible exact rfl | exact rfl |  (intro _) | with_reducible refine sendRecord_moves ?_ ?_ | with_reducible refine ite_moves ?_ ?_ | with_reducible refine ite_snd_moves ?_ ?_ | with_reducible refine ite_fst_moves ?_ ?_ | split | refine fst_of_eq (by assumption) ?_ | refine snd_of_eq (by assumption) ?_ | with_reducible refine upd_tandem ?_ ?_ | dsimp only)

theorem formDue_moves {ll ss} {s : State} (hh : Moves ll ss s) (hsub : sub [.host, .stats, .ports, .frames, .stalled, .blockCounts, .pools, .tandem, .faults, .fresh] ll = true) :
    Moves ll ss (formDue s) := by
  refine hh.trans ?_ hsub; unfold formDue
  repeat' (first | with_reducible assumption | with_reducible exact Moves.refl _ _ | with_reducible exact rfl | exact rfl |  (intro _) | with_reducible refine ownRecord_moves ?_ ?_ | with_reducible refine foldl_moves ?_ ?_ | with_reducible refine foldl_fst_moves ?_ ?_ | with_reducible refine ite_moves ?_ ?_ | with_reducible refine ite_snd_moves ?_ ?_ | with_reducible refine ite_fst_moves ?_ ?_ | split | refine fst_of_eq (by assumption) ?_ | refine snd_of_eq (by assumption) ?_ | with_reducible refine upd_tandem ?_ ?_ | dsimp only)

theorem comparePairs_moves {ll ss} {s : State} (hh : Moves ll ss s) (hsub : sub [.host, .stats, .ports, .tandem, .fresh] ll = true) :
    Moves ll ss (comparePairs s) := by
  refine hh.trans ?_ hsub; unfold comparePairs
  repeat' (first | with_reducible assumption | with_reducible exact Moves.refl _ _ | with_reducible exact rfl | exact rfl |  (intro _) | with_reducible refine tandemMismatch_moves ?_ ?_ | with_reducible refine foldl_moves ?_ ?_ | with_reducible refine foldl_fst_moves ?_ ?_ | with_reducible refine ite_moves ?_ ?_ | with_reducible refine ite_snd_moves ?_ ?_ | with_reducible refine ite_fst_moves ?_ ?_ | split | refine fst_of_eq (by assumption) ?_ | refine snd_of_eq (by assumption) ?_ | with_reducible refine upd_tandem ?_ ?_ | dsimp only)

theorem formRecords_moves {ll ss} {s : State} {fid p : Nat} {f : Frame} {at_ : Nat} (hh : Moves ll ss s) (hsub : sub [.tandem] ll = true) :
    Moves ll ss (formRecords s fid p f at_) := by
  refine hh.trans ?_ hsub; unfold formRecords
  repeat' (first | with_reducible assumption | with_reducible exact Moves.refl _ _ | with_reducible exact rfl | exact rfl |  (intro _) | with_reducible refine ite_moves ?_ ?_ | with_reducible refine ite_snd_moves ?_ ?_ | with_reducible refine ite_fst_moves ?_ ?_ | split | refine fst_of_eq (by assumption) ?_ | refine snd_of_eq (by assumption) ?_ | with_reducible refine upd_tandem ?_ ?_ | dsimp only)

theorem countHeld_moves {ll ss} {s : State} {p : Nat} (hh : Moves ll ss s) (hsub : sub [.tandem] ll = true) :
    Moves ll ss (countHeld s p) := by
  refine hh.trans ?_ hsub; unfold countHeld
  repeat' (first | with_reducible assumption | with_reducible exact Moves.refl _ _ | with_reducible exact rfl | exact rfl |  (intro _) | with_reducible refine foldl_moves ?_ ?_ | with_reducible refine foldl_fst_moves ?_ ?_ | with_reducible refine ite_moves ?_ ?_ | with_reducible refine ite_snd_moves ?_ ?_ | with_reducible refine ite_fst_moves ?_ ?_ | split | refine fst_of_eq (by assumption) ?_ | refine snd_of_eq (by assumption) ?_ | with_reducible refine upd_tandem ?_ ?_ | dsimp only)

theorem colour_moves {ll ss} {s : State} {job cls b : Nat} (hh : Moves ll ss s) (hsub : sub [.meters] ll = true) :
    Moves ll ss (colour s job cls b).2 := by
  refine hh.trans ?_ hsub; unfold colour
  repeat' (first | with_reducible assumption | with_reducible exact Moves.refl _ _ | with_reducible exact rfl | exact rfl |  (intro _) | with_reducible refine ite_moves ?_ ?_ | with_reducible refine ite_snd_moves ?_ ?_ | with_reducible refine ite_fst_moves ?_ ?_ | split | refine fst_of_eq (by assumption) ?_ | refine snd_of_eq (by assumption) ?_ | with_reducible refine upd_meters ?_ ?_ | dsimp only)

theorem mirrorIn_moves {ll ss} {s : State} {p : Nat} {h : Header} {f : Frame} (hh : Moves ll ss s) (hsub : sub [.host, .ports, .frames, .pools, .fresh] ll = true) :
    Moves ll ss (mirrorIn s p h f) := by
  refine hh.trans ?_ hsub; unfold mirrorIn
  repeat' (first | with_reducible assumption | with_reducible exact Moves.refl _ _ | with_reducible exact rfl | exact rfl |  (intro _) | with_reducible refine ready_moves ?_ ?_ | with_reducible refine mirrorCopy_moves ?_ ?_ | with_reducible refine foldl_moves ?_ ?_ | with_reducible refine foldl_fst_moves ?_ ?_ | with_reducible refine ite_moves ?_ ?_ | with_reducible refine ite_snd_moves ?_ ?_ | with_reducible refine ite_fst_moves ?_ ?_ | split | refine fst_of_eq (by assumption) ?_ | refine snd_of_eq (by assumption) ?_ | dsimp only)

theorem forwardCopyAs_moves {ll ss} {s : State} {fid inPort out : Nat} {h : Header} {f : Frame} {ready : Nat} {aligned : Option (Nat × Nat)} (hh : Moves ll ss s) (hsub : sub [.host, .ports, .frames, .pools, .tandem, .dropping, .fresh] ll = true) :
    Moves ll ss (forwardCopyAs s fid inPort out h f ready aligned) := by
  refine hh.trans ?_ hsub; unfold forwardCopyAs
  repeat' (first | with_reducible assumption | with_reducible exact Moves.refl _ _ | with_reducible exact rfl | exact rfl |  (intro _) | with_reducible refine countPort_moves ?_ ?_ | with_reducible refine dropLater_moves ?_ ?_ | with_reducible refine countHeld_moves ?_ ?_ | with_reducible refine formRecords_moves ?_ ?_ | with_reducible refine enqueue_moves ?_ ?_ | with_reducible refine ready_moves ?_ ?_ | with_reducible refine ite_moves ?_ ?_ | with_reducible refine ite_snd_moves ?_ ?_ | with_reducible refine ite_fst_moves ?_ ?_ | split | refine fst_of_eq (by assumption) ?_ | refine snd_of_eq (by assumption) ?_ | dsimp only)

theorem forwardCopy_moves {ll ss} {s : State} {fid inPort out : Nat} {h : Header} {f : Frame} (hh : Moves ll ss s) (hsub : sub [.host, .ports, .frames, .pools, .tandem, .dropping, .fresh] ll = true) :
    Moves ll ss (forwardCopy s fid inPort out h f) := by
  refine hh.trans ?_ hsub; unfold forwardCopy
  repeat' (first | with_reducible assumption | with_reducible exact Moves.refl _ _ | with_reducible exact rfl | exact rfl |  (intro _) | with_reducible refine forwardCopyAs_moves ?_ ?_ | with_reducible refine ite_moves ?_ ?_ | with_reducible refine ite_snd_moves ?_ ?_ | with_reducible refine ite_fst_moves ?_ ?_ | split | refine fst_of_eq (by assumption) ?_ | refine snd_of_eq (by assumption) ?_ | dsimp only)

theorem admitFrame_moves {ll ss} {s : State} {inPort : Nat} {outs : List Nat} {h : Header} {f : Frame} {yellow : Bool} (hh : Moves ll ss s) (hsub : sub [.host, .stats, .ports, .frames, .blockCounts, .pools, .faults, .fresh] ll = true) :
    Moves ll ss (admitFrame s inPort outs h f yellow).1 := by
  refine hh.trans ?_ hsub; unfold admitFrame
  repeat' (first | with_reducible assumption | with_reducible exact Moves.refl _ _ | with_reducible exact rfl | exact rfl |  (intro _) | with_reducible refine takeFresh_moves ?_ ?_ | with_reducible refine hold_moves ?_ ?_ | with_reducible refine makeRoom_moves ?_ ?_ | with_reducible refine discard_moves ?_ ?_ | with_reducible refine setCause_moves ?_ ?_ | with_reducible refine takeCells_moves ?_ ?_ | with_reducible refine ite_moves ?_ ?_ | with_reducible refine ite_snd_moves ?_ ?_ | with_reducible refine ite_fst_moves ?_ ?_ | split | refine fst_of_eq (by assumption) ?_ | refine snd_of_eq (by assumption) ?_ | dsimp only)

theorem dropIn_moves {ll ss} {s : State} {p reason : Nat} {h : Header} {f : Frame} (hh : Moves ll ss s) (hsub : sub [.host, .stats, .ports, .fresh] ll = true) :
    Moves ll ss (dropIn s p reason h f) := by
  refine hh.trans ?_ hsub; unfold dropIn
  repeat' (first | with_reducible assumption | with_reducible exact Moves.refl _ _ | with_reducible exact rfl | exact rfl |  (intro _) | with_reducible refine owe_moves ?_ ?_ | with_reducible refine discard_moves ?_ ?_ | with_reducible refine ite_moves ?_ ?_ | with_reducible refine ite_snd_moves ?_ ?_ | with_reducible refine ite_fst_moves ?_ ?_ | split | refine fst_of_eq (by assumption) ?_ | refine snd_of_eq (by assumption) ?_ | dsimp only)

theorem putCtx_moves {ll ss} {s : State} {c : Reorder} (hh : Moves ll ss s) (hsub : sub [.reorder] ll = true) :
    Moves ll ss (putCtx s c) := by
  refine hh.trans ?_ hsub; unfold putCtx
  repeat' (first | with_reducible assumption | with_reducible exact Moves.refl _ _ | with_reducible exact rfl | exact rfl |  (intro _) | with_reducible refine ite_moves ?_ ?_ | with_reducible refine ite_snd_moves ?_ ?_ | with_reducible refine ite_fst_moves ?_ ?_ | split | refine fst_of_eq (by assumption) ?_ | refine snd_of_eq (by assumption) ?_ | with_reducible refine upd_reorder ?_ ?_ | dsimp only)

theorem dropCtx_moves {ll ss} {s : State} {c : Reorder} (hh : Moves ll ss s) (hsub : sub [.reorder] ll = true) :
    Moves ll ss (dropCtx s c) := by
  refine hh.trans ?_ hsub; unfold dropCtx
  repeat' (first | with_reducible assumption | with_reducible exact Moves.refl _ _ | with_reducible exact rfl | exact rfl |  (intro _) | with_reducible refine ite_moves ?_ ?_ | with_reducible refine ite_snd_moves ?_ ?_ | with_reducible refine ite_fst_moves ?_ ?_ | split | refine fst_of_eq (by assumption) ?_ | refine snd_of_eq (by assumption) ?_ | with_reducible refine upd_reorder ?_ ?_ | dsimp only)

theorem finishCtx_moves {ll ss} {s : State} {c : Reorder} (hh : Moves ll ss s) (hsub : sub [.reorder, .doneMsgs] ll = true) :
    Moves ll ss (finishCtx s c) := by
  refine hh.trans ?_ hsub; unfold finishCtx
  repeat' (first | with_reducible assumption | with_reducible exact Moves.refl _ _ | with_reducible exact rfl | exact rfl |  (intro _) | with_reducible refine dropCtx_moves ?_ ?_ | with_reducible refine ite_moves ?_ ?_ | with_reducible refine ite_snd_moves ?_ ?_ | with_reducible refine ite_fst_moves ?_ ?_ | split | refine fst_of_eq (by assumption) ?_ | refine snd_of_eq (by assumption) ?_ | with_reducible refine upd_doneMsgs ?_ ?_ | dsimp only)

theorem endCtx_moves {ll ss} {s : State} {fid : Nat} (hh : Moves ll ss s) (hsub : sub [.reorder, .doneMsgs] ll = true) :
    Moves ll ss (endCtx s fid) := by
  refine hh.trans ?_ hsub; unfold endCtx
  repeat' (first | with_reducible assumption | with_reducible exact Moves.refl _ _ | with_reducible exact rfl | exact rfl |  (intro _) | with_reducible refine finishCtx_moves ?_ ?_ | with_reducible refine ite_moves ?_ ?_ | with_reducible refine ite_snd_moves ?_ ?_ | with_reducible refine ite_fst_moves ?_ ?_ | split | refine fst_of_eq (by assumption) ?_ | refine snd_of_eq (by assumption) ?_ | dsimp only)

theorem release_moves {ll ss} {s : State} {p : Nat} {e : Entry} (hh : Moves ll ss s) (hsub : sub [.host, .ports, .frames, .pools, .dropping, .fresh] ll = true) :
    Moves ll ss (release s p e) := by
  refine hh.trans ?_ hsub; unfold release
  repeat' (first | with_reducible assumption | with_reducible exact Moves.refl _ _ | with_reducible exact rfl | exact rfl |  (intro _) | with_reducible refine enqueue_moves ?_ ?_ | with_reducible refine countFlush_moves ?_ ?_ | with_reducible refine dropLater_moves ?_ ?_ | with_reducible refine ite_moves ?_ ?_ | with_reducible refine ite_snd_moves ?_ ?_ | with_reducible refine ite_fst_moves ?_ ?_ | split | refine fst_of_eq (by assumption) ?_ | refine snd_of_eq (by assumption) ?_ | dsimp only)

theorem releaseHeld_moves {ll ss} {n : Nat} {s : State} {c : Reorder} {src : Nat} {last : Option Nat} (hh : Moves ll ss s) (hsub : sub [.host, .ports, .frames, .pools, .dropping, .fresh] ll = true) : Moves ll ss (releaseHeld n s c src last).1 := by
  refine hh.trans ?_ hsub; clear hh hsub
  suffices H : ∀ s1, Moves [.host, .ports, .frames, .pools, .dropping, .fresh] s1 s → Moves [.host, .ports, .frames, .pools, .dropping, .fresh] s1 (releaseHeld n s c src last).1 from H _ (Moves.refl _ _)
  induction n generalizing s c last with
  | zero => intro s1 h; exact h
  | succ k ih =>
    intro s1 h; unfold releaseHeld
    repeat' (first | with_reducible assumption | with_reducible exact Moves.refl _ _ | with_reducible exact rfl | exact rfl |  (intro _) | with_reducible apply ih | with_reducible refine release_moves ?_ ?_ | with_reducible refine ite_moves ?_ ?_ | with_reducible refine ite_snd_moves ?_ ?_ | with_reducible refine ite_fst_moves ?_ ?_ | split | refine fst_of_eq (by assumption) ?_ | refine snd_of_eq (by assumption) ?_ | dsimp only)

theorem lastGoes_moves {ll ss} {s : State} {c : Reorder} {fid : Nat} (hh : Moves ll ss s) (hsub : sub [.host, .ports, .frames, .reorder, .pools, .dropping, .fresh] ll = true) :
    Moves ll ss (lastGoes s c fid) := by
  refine hh.trans ?_ hsub; unfold lastGoes
  repeat' (first | with_reducible assumption | with_reducible exact Moves.refl _ _ | with_reducible exact rfl | exact rfl |  (intro _) | with_reducible refine putCtx_moves ?_ ?_ | with_reducible refine release_moves ?_ ?_ | with_reducible refine foldl_moves ?_ ?_ | with_reducible refine foldl_fst_moves ?_ ?_ | with_reducible refine ite_moves ?_ ?_ | with_reducible refine ite_snd_moves ?_ ?_ | with_reducible refine ite_fst_moves ?_ ?_ | split | refine fst_of_eq (by assumption) ?_ | refine snd_of_eq (by assumption) ?_ | dsimp only)

theorem settleCtx_moves {ll ss} {s : State} {c : Reorder} {src : Nat} {last : Option Nat} (hh : Moves ll ss s) (hsub : sub [.host, .ports, .frames, .reorder, .pools, .dropping, .fresh] ll = true) :
    Moves ll ss (settleCtx s c src last) := by
  refine hh.trans ?_ hsub; unfold settleCtx
  repeat' (first | with_reducible assumption | with_reducible exact Moves.refl _ _ | with_reducible exact rfl | exact rfl |  (intro _) | with_reducible refine releaseHeld_moves ?_ ?_ | with_reducible refine lastGoes_moves ?_ ?_ | with_reducible refine putCtx_moves ?_ ?_ | with_reducible refine ite_moves ?_ ?_ | with_reducible refine ite_snd_moves ?_ ?_ | with_reducible refine ite_fst_moves ?_ ?_ | split | refine fst_of_eq (by assumption) ?_ | refine snd_of_eq (by assumption) ?_ | dsimp only)

theorem expireCtx_moves {ll ss} {s : State} {c : Reorder} (hh : Moves ll ss s) (hsub : sub [.host, .stats, .ports, .frames, .reorder, .blockCounts, .pools, .dropping, .fresh] ll = true) :
    Moves ll ss (expireCtx s c) := by
  refine hh.trans ?_ hsub; unfold expireCtx
  repeat' (first | with_reducible assumption | with_reducible exact Moves.refl _ _ | with_reducible exact rfl | exact rfl |  (intro _) | with_reducible refine setCause_moves ?_ ?_ | with_reducible refine countBlock_moves ?_ ?_ | with_reducible refine release_moves ?_ ?_ | with_reducible refine lastGoes_moves ?_ ?_ | with_reducible refine dropCtx_moves ?_ ?_ | with_reducible refine putCtx_moves ?_ ?_ | with_reducible refine foldl_moves ?_ ?_ | with_reducible refine foldl_fst_moves ?_ ?_ | with_reducible refine ite_moves ?_ ?_ | with_reducible refine ite_snd_moves ?_ ?_ | with_reducible refine ite_fst_moves ?_ ?_ | split | refine fst_of_eq (by assumption) ?_ | refine snd_of_eq (by assumption) ?_ | dsimp only)

theorem openCtx_moves {ll ss} {s : State} {pg port : Nat} {h : Header} (hh : Moves ll ss s) (hsub : sub [.host, .stats, .ports, .frames, .reorder, .blockCounts, .pools, .dropping, .fresh] ll = true) :
    Moves ll ss (openCtx s pg port h).1 := by
  refine hh.trans ?_ hsub; unfold openCtx
  repeat' (first | with_reducible assumption | with_reducible exact Moves.refl _ _ | with_reducible exact rfl | exact rfl |  (intro _) | with_reducible refine expireCtx_moves ?_ ?_ | with_reducible refine ite_moves ?_ ?_ | with_reducible refine ite_snd_moves ?_ ?_ | with_reducible refine ite_fst_moves ?_ ?_ | split | refine fst_of_eq (by assumption) ?_ | refine snd_of_eq (by assumption) ?_ | with_reducible refine upd_reorder ?_ ?_ | dsimp only)

theorem deliver_moves {ll ss} {s : State} {inPort out : Nat} {h : Header} {f : Frame} {yellow : Bool} (hh : Moves ll ss s) (hsub : sub [.host, .stats, .ports, .frames, .blockCounts, .pools, .tandem, .dropping, .faults, .fresh] ll = true) :
    Moves ll ss (deliver s inPort out h f yellow).1 := by
  refine hh.trans ?_ hsub; unfold deliver
  repeat' (first | with_reducible assumption | with_reducible exact Moves.refl _ _ | with_reducible exact rfl | exact rfl |  (intro _) | with_reducible refine admitFrame_moves ?_ ?_ | with_reducible refine owe_moves ?_ ?_ | with_reducible refine forwardCopy_moves ?_ ?_ | with_reducible refine ite_moves ?_ ?_ | with_reducible refine ite_snd_moves ?_ ?_ | with_reducible refine ite_fst_moves ?_ ?_ | split | refine fst_of_eq (by assumption) ?_ | refine snd_of_eq (by assumption) ?_ | dsimp only)

theorem holdFrame_moves {ll ss} {s : State} {c : Reorder} {inPort out : Nat} {h : Header} {f : Frame} {yellow : Bool} (hh : Moves ll ss s) (hsub : sub [.host, .stats, .ports, .frames, .reorder, .fresh] ll = true) :
    Moves ll ss (holdFrame s c inPort out h f yellow) := by
  refine hh.trans ?_ hsub; unfold holdFrame
  repeat' (first | with_reducible assumption | with_reducible exact Moves.refl _ _ | with_reducible exact rfl | exact rfl |  (intro _) | with_reducible refine dropIn_moves ?_ ?_ | with_reducible refine takeFresh_moves ?_ ?_ | with_reducible refine ready_moves ?_ ?_ | with_reducible refine putCtx_moves ?_ ?_ | with_reducible refine hold_moves ?_ ?_ | with_reducible refine ite_moves ?_ ?_ | with_reducible refine ite_snd_moves ?_ ?_ | with_reducible refine ite_fst_moves ?_ ?_ | split | refine fst_of_eq (by assumption) ?_ | refine snd_of_eq (by assumption) ?_ | dsimp only)

theorem reorderIn_moves {ll ss} {s : State} {inPort out : Nat} {h : Header} {f : Frame} {yellow : Bool} (hh : Moves ll ss s) (hsub : sub [.host, .stats, .ports, .frames, .reorder, .blockCounts, .pools, .tandem, .dropping, .faults, .fresh] ll = true) :
    Moves ll ss (reorderIn s inPort out h f yellow) := by
  refine hh.trans ?_ hsub; unfold reorderIn
  repeat' (first | with_reducible assumption | with_reducible exact Moves.refl _ _ | with_reducible exact rfl | exact rfl |  (intro _) | with_reducible refine countBlock_moves ?_ ?_ | with_reducible refine deliver_moves ?_ ?_ | with_reducible refine lastGoes_moves ?_ ?_ | with_reducible refine putCtx_moves ?_ ?_ | with_reducible refine openCtx_moves ?_ ?_ | with_reducible refine settleCtx_moves ?_ ?_ | with_reducible refine holdFrame_moves ?_ ?_ | with_reducible refine expireCtx_moves ?_ ?_ | with_reducible refine ite_moves ?_ ?_ | with_reducible refine ite_snd_moves ?_ ?_ | with_reducible refine ite_fst_moves ?_ ?_ | split | refine fst_of_eq (by assumption) ?_ | refine snd_of_eq (by assumption) ?_ | dsimp only)

theorem execReorderTimerExpiry_moves {pg : BitVec 4} {src : BitVec 20} {job : BitVec 8} {seq : BitVec 16} {s : State} : Runs [.host, .stats, .ports, .frames, .reorder, .blockCounts, .pools, .dropping, .fresh] s (execReorderTimerExpiry pg src job seq s) := by
  unfold execReorderTimerExpiry
  repeat' (first | with_reducible assumption | with_reducible exact Moves.refl _ _ | with_reducible exact rfl | exact rfl |  (intro _) | with_reducible refine expireCtx_moves ?_ ?_ | with_reducible refine Runs.next ?_ | with_reducible refine ite_moves ?_ ?_ | with_reducible refine ite_snd_moves ?_ ?_ | with_reducible refine ite_fst_moves ?_ ?_ | split | refine fst_of_eq (by assumption) ?_ | refine snd_of_eq (by assumption) ?_ | dsimp only)

theorem lookEntries_moves {ll ss} {s : State} {p : Nat} {h : Header} (hh : Moves ll ss s) (hsub : sub [.host, .stats, .faults, .fresh] ll = true) :
    Moves ll ss (lookEntries s p h) := by
  refine hh.trans ?_ hsub; unfold lookEntries
  repeat' (first | with_reducible assumption | with_reducible exact Moves.refl _ _ | with_reducible exact rfl | exact rfl |  (intro _) | with_reducible refine noteLookup_moves ?_ ?_ | with_reducible refine foldl_moves ?_ ?_ | with_reducible refine foldl_fst_moves ?_ ?_ | with_reducible refine ite_moves ?_ ?_ | with_reducible refine ite_snd_moves ?_ ?_ | with_reducible refine ite_fst_moves ?_ ?_ | split | refine fst_of_eq (by assumption) ?_ | refine snd_of_eq (by assumption) ?_ | dsimp only)

theorem noteStomp_moves {ll ss} {s : State} {p : Nat} {f : Frame} (hh : Moves ll ss s) (hsub : sub [.host, .stats, .ports, .fresh] ll = true) :
    Moves ll ss (noteStomp s p f) := by
  refine hh.trans ?_ hsub; unfold noteStomp
  repeat' (first | with_reducible assumption | with_reducible exact Moves.refl _ _ | with_reducible exact rfl | exact rfl |  (intro _) | with_reducible refine setCause_moves ?_ ?_ | with_reducible refine countPort_moves ?_ ?_ | with_reducible refine ite_moves ?_ ?_ | with_reducible refine ite_snd_moves ?_ ?_ | with_reducible refine ite_fst_moves ?_ ?_ | split | refine fst_of_eq (by assumption) ?_ | refine snd_of_eq (by assumption) ?_ | dsimp only)

theorem consume_moves {ll ss} {s : State} {p : Nat} {h : Header} {f : Frame} (hh : Moves ll ss s) (hsub : sub [.ports, .intake] ll = true) :
    Moves ll ss (consume s p h f) := by
  refine hh.trans ?_ hsub; unfold consume
  repeat' (first | with_reducible assumption | with_reducible exact Moves.refl _ _ | with_reducible exact rfl | exact rfl |  (intro _) | with_reducible refine owe_moves ?_ ?_ | with_reducible refine countPort_moves ?_ ?_ | with_reducible refine ite_moves ?_ ?_ | with_reducible refine ite_snd_moves ?_ ?_ | with_reducible refine ite_fst_moves ?_ ?_ | split | refine fst_of_eq (by assumption) ?_ | refine snd_of_eq (by assumption) ?_ | with_reducible refine upd_intake ?_ ?_ | dsimp only)

theorem forward_moves {ll ss} {s : State} {p : Nat} {old h : Header} {f : Frame} {yellow : Bool} (hh : Moves ll ss s) (hsub : sub [.host, .stats, .ports, .frames, .reorder, .blockCounts, .pools, .tandem, .dropping, .faults, .fresh] ll = true) :
    Moves ll ss (forward s p old h f yellow) := by
  refine hh.trans ?_ hsub; unfold forward
  repeat' (first | with_reducible assumption | with_reducible exact Moves.refl _ _ | with_reducible exact rfl | exact rfl |  (intro _) | with_reducible refine countFlush_moves ?_ ?_ | with_reducible refine owe_moves ?_ ?_ | with_reducible refine admitFrame_moves ?_ ?_ | with_reducible refine forwardCopy_moves ?_ ?_ | with_reducible refine dropIn_moves ?_ ?_ | with_reducible refine modQ_moves ?_ ?_ | with_reducible refine reorderIn_moves ?_ ?_ | with_reducible refine deliver_moves ?_ ?_ | with_reducible refine foldl_moves ?_ ?_ | with_reducible refine foldl_fst_moves ?_ ?_ | with_reducible refine ite_moves ?_ ?_ | with_reducible refine ite_snd_moves ?_ ?_ | with_reducible refine ite_fst_moves ?_ ?_ | split | refine fst_of_eq (by assumption) ?_ | refine snd_of_eq (by assumption) ?_ | dsimp only)

theorem passed_moves {ll ss} {s : State} {p : Nat} {old h : Header} {f : Frame} (hh : Moves ll ss s) (hsub : sub [.host, .stats, .ports, .frames, .reorder, .blockCounts, .meters, .pools, .tandem, .dropping, .intake, .faults, .fresh] ll = true) :
    Moves ll ss (passed s p old h f) := by
  refine hh.trans ?_ hsub; unfold passed
  repeat' (first | with_reducible assumption | with_reducible exact Moves.refl _ _ | with_reducible exact rfl | exact rfl |  (intro _) | with_reducible refine dropIn_moves ?_ ?_ | with_reducible refine noteStomp_moves ?_ ?_ | with_reducible refine colour_moves ?_ ?_ | with_reducible refine mirrorIn_moves ?_ ?_ | with_reducible refine consume_moves ?_ ?_ | with_reducible refine forward_moves ?_ ?_ | with_reducible refine ite_moves ?_ ?_ | with_reducible refine ite_snd_moves ?_ ?_ | with_reducible refine ite_fst_moves ?_ ?_ | split | refine fst_of_eq (by assumption) ?_ | refine snd_of_eq (by assumption) ?_ | with_reducible refine upd_intake ?_ ?_ | dsimp only)

theorem framingLoss_moves {ll ss} {s : State} {p n : Nat} (hh : Moves ll ss s) (hsub : sub [.ports] ll = true) :
    Moves ll ss (framingLoss s p n) := by
  refine hh.trans ?_ hsub; unfold framingLoss
  repeat' (first | with_reducible assumption | with_reducible exact Moves.refl _ _ | with_reducible exact rfl | exact rfl |  (intro _) | with_reducible refine modLink_moves ?_ ?_ | with_reducible refine ite_moves ?_ ?_ | with_reducible refine ite_snd_moves ?_ ?_ | with_reducible refine ite_fst_moves ?_ ?_ | split | refine fst_of_eq (by assumption) ?_ | refine snd_of_eq (by assumption) ?_ | dsimp only)

theorem framingTimeout_moves {ll ss} {s : State} {p : Nat} (hh : Moves ll ss s) (hsub : sub [.host, .stats, .ports, .lanes, .stalled, .reorder, .tandem, .dropping, .intake, .ledger, .fresh] ll = true) :
    Moves ll ss (framingTimeout s p) := by
  refine hh.trans ?_ hsub; unfold framingTimeout
  repeat' (first | with_reducible assumption | with_reducible exact Moves.refl _ _ | with_reducible exact rfl | exact rfl |  (intro _) | with_reducible refine lockLost_moves ?_ ?_ | with_reducible refine modLink_moves ?_ ?_ | with_reducible refine ite_moves ?_ ?_ | with_reducible refine ite_snd_moves ?_ ?_ | with_reducible refine ite_fst_moves ?_ ?_ | split | refine fst_of_eq (by assumption) ?_ | refine snd_of_eq (by assumption) ?_ | dsimp only)

theorem checkFrame_moves {ll ss} {s : State} {p : Nat} {f : Frame} (hh : Moves ll ss s) (hsub : sub [.host, .stats, .ports, .frames, .reorder, .blockCounts, .meters, .pools, .tandem, .dropping, .intake, .faults, .fresh] ll = true) :
    Moves ll ss (checkFrame s p f) := by
  refine hh.trans ?_ hsub; unfold checkFrame
  repeat' (first | with_reducible assumption | with_reducible exact Moves.refl _ _ | with_reducible exact rfl | exact rfl |  (intro _) | with_reducible refine lookEntries_moves ?_ ?_ | with_reducible refine dropIn_moves ?_ ?_ | with_reducible refine passed_moves ?_ ?_ | with_reducible refine ite_moves ?_ ?_ | with_reducible refine ite_snd_moves ?_ ?_ | with_reducible refine ite_fst_moves ?_ ?_ | split | refine fst_of_eq (by assumption) ?_ | refine snd_of_eq (by assumption) ?_ | dsimp only)

theorem execFrameReceive_moves {port : BitVec 9} {f : Frame} {s : State} : Runs [.host, .stats, .ports, .frames, .reorder, .blockCounts, .meters, .pools, .tandem, .dropping, .intake, .parsing, .faults, .fresh] s (execFrameReceive port f s) := by
  unfold execFrameReceive
  repeat' (first | with_reducible assumption | with_reducible exact Moves.refl _ _ | with_reducible exact rfl | exact rfl |  (intro _) | with_reducible refine framingLoss_moves ?_ ?_ | with_reducible refine modLink_moves ?_ ?_ | with_reducible refine dropIn_moves ?_ ?_ | with_reducible refine checkFrame_moves ?_ ?_ | with_reducible refine Runs.next ?_ | with_reducible refine ite_moves ?_ ?_ | with_reducible refine ite_snd_moves ?_ ?_ | with_reducible refine ite_fst_moves ?_ ?_ | split | refine fst_of_eq (by assumption) ?_ | refine snd_of_eq (by assumption) ?_ | with_reducible refine upd_parsing ?_ ?_ | dsimp only)

theorem lookUp_moves {ll ss} {s : State} {x : Nat × Frame × Nat} (hh : Moves ll ss s) (hsub : sub [.now, .host, .stats, .ports, .frames, .reorder, .blockCounts, .meters, .pools, .tandem, .dropping, .intake, .parsing, .faults, .fresh] ll = true) :
    Moves ll ss (lookUp s x) := by
  refine hh.trans ?_ hsub; unfold lookUp
  repeat' (first | with_reducible assumption | with_reducible exact Moves.refl _ _ | with_reducible exact rfl | exact rfl |  (intro _) | with_reducible refine checkFrame_moves ?_ ?_ | with_reducible refine ite_moves ?_ ?_ | with_reducible refine ite_snd_moves ?_ ?_ | with_reducible refine ite_fst_moves ?_ ?_ | split | refine fst_of_eq (by assumption) ?_ | refine snd_of_eq (by assumption) ?_ | with_reducible refine upd_now_parsing ?_ ?_ | with_reducible refine upd_now ?_ ?_ | dsimp only)

theorem lookUps_moves {ll ss} {s : State} (hh : Moves ll ss s) (hsub : sub [.now, .host, .stats, .ports, .frames, .reorder, .blockCounts, .meters, .pools, .tandem, .dropping, .intake, .parsing, .faults, .fresh] ll = true) :
    Moves ll ss (lookUps s) := by
  refine hh.trans ?_ hsub; unfold lookUps
  repeat' (first | with_reducible assumption | with_reducible exact Moves.refl _ _ | with_reducible exact rfl | exact rfl |  (intro _) | with_reducible refine lookUp_moves ?_ ?_ | with_reducible refine foldl_moves ?_ ?_ | with_reducible refine foldl_fst_moves ?_ ?_ | with_reducible refine ite_moves ?_ ?_ | with_reducible refine ite_snd_moves ?_ ?_ | with_reducible refine ite_fst_moves ?_ ?_ | split | refine fst_of_eq (by assumption) ?_ | refine snd_of_eq (by assumption) ?_ | dsimp only)

theorem takeIntake_moves {ll ss} {s : State} {f : Frame} (hh : Moves ll ss s) (hsub : sub [.intake] ll = true) :
    Moves ll ss (takeIntake s f).1 := by
  refine hh.trans ?_ hsub; unfold takeIntake
  repeat' (first | with_reducible assumption | with_reducible exact Moves.refl _ _ | with_reducible exact rfl | exact rfl |  (intro _) | with_reducible refine ite_moves ?_ ?_ | with_reducible refine ite_snd_moves ?_ ?_ | with_reducible refine ite_fst_moves ?_ ?_ | split | refine fst_of_eq (by assumption) ?_ | refine snd_of_eq (by assumption) ?_ | with_reducible refine upd_intake ?_ ?_ | dsimp only)

end Sys2Proof.Laws
end

