-- ==== Sys2Proof/Laws/Moves/Sched.lean ====
section
/-! SUPPORT. What the operations of Machine/Sched.lean may change: one lemma each. -/

set_option linter.unusedTactic false
set_option linter.unreachableTactic false
set_option linter.unusedVariables false

namespace Sys2Proof.Laws

open Sys2Proof.Machine Sys2Proof.Safety

theorem purge_moves {ll ss} {n : Nat} {s : State} {p : Nat} (hh : Moves ll ss s) (hsub : sub [.host, .stats, .ports, .tandem, .dropping, .fresh] ll = true) : Moves ll ss (purge n s p) := by
  refine hh.trans ?_ hsub; clear hh hsub
  suffices H : ∀ s1, Moves [.host, .stats, .ports, .tandem, .dropping, .fresh] s1 s → Moves [.host, .stats, .ports, .tandem, .dropping, .fresh] s1 (purge n s p) from H _ (Moves.refl _ _)
  induction n generalizing s with
  | zero => intro s1 h; exact h
  | succ k ih =>
    intro s1 h; unfold purge
    repeat' (first | with_reducible assumption | with_reducible exact Moves.refl _ _ | with_reducible exact rfl | exact rfl |  (intro _) | with_reducible apply ih | with_reducible refine dropLater_moves ?_ ?_ | with_reducible refine modQ_moves ?_ ?_ | with_reducible refine discard_moves ?_ ?_ | with_reducible refine countPort_moves ?_ ?_ | with_reducible refine countHeld_moves ?_ ?_ | with_reducible refine ite_moves ?_ ?_ | with_reducible refine ite_snd_moves ?_ ?_ | with_reducible refine ite_fst_moves ?_ ?_ | split | refine fst_of_eq (by assumption) ?_ | refine snd_of_eq (by assumption) ?_ | dsimp only)

theorem meetWatches_moves {ll ss} {s : State} {p : Nat} {h : Header} (hh : Moves ll ss s) (hsub : sub [.ports] ll = true) :
    Moves ll ss (meetWatches s p h) := by
  refine hh.trans ?_ hsub; unfold meetWatches
  repeat' (first | with_reducible assumption | with_reducible exact Moves.refl _ _ | with_reducible exact rfl | exact rfl |  (intro _) | with_reducible refine modPort_moves ?_ ?_ | with_reducible refine ite_moves ?_ ?_ | with_reducible refine ite_snd_moves ?_ ?_ | with_reducible refine ite_fst_moves ?_ ?_ | split | refine fst_of_eq (by assumption) ?_ | refine snd_of_eq (by assumption) ?_ | dsimp only)

theorem spendTokens_moves {ll ss} {s : State} {p : Nat} {e : Entry} (hh : Moves ll ss s) (hsub : sub [.shapers] ll = true) :
    Moves ll ss (spendTokens s p e) := by
  refine hh.trans ?_ hsub; unfold spendTokens
  repeat' (first | with_reducible assumption | with_reducible exact Moves.refl _ _ | with_reducible exact rfl | exact rfl |  (intro _) | with_reducible refine ite_moves ?_ ?_ | with_reducible refine ite_snd_moves ?_ ?_ | with_reducible refine ite_fst_moves ?_ ?_ | split | refine fst_of_eq (by assumption) ?_ | refine snd_of_eq (by assumption) ?_ | with_reducible refine upd_shapers ?_ ?_ | dsimp only)

theorem noteStart_moves {ll ss} {s : State} {fid : Nat} (hh : Moves ll ss s) (hsub : sub [.frames] ll = true) :
    Moves ll ss (noteStart s fid) := by
  refine hh.trans ?_ hsub; unfold noteStart
  repeat' (first | with_reducible assumption | with_reducible exact Moves.refl _ _ | with_reducible exact rfl | exact rfl |  (intro _) | with_reducible refine hold_moves ?_ ?_ | with_reducible refine ite_moves ?_ ?_ | with_reducible refine ite_snd_moves ?_ ?_ | with_reducible refine ite_fst_moves ?_ ?_ | split | refine fst_of_eq (by assumption) ?_ | refine snd_of_eq (by assumption) ?_ | dsimp only)

theorem startFrame_moves {ll ss} {s : State} {p : Nat} {e : Entry} (hh : Moves ll ss s) (hsub : sub [.host, .ports, .frames, .reorder, .doneMsgs, .shapers, .pools, .tandem, .faults, .fresh] ll = true) :
    Moves ll ss (startFrame s p e) := by
  refine hh.trans ?_ hsub; unfold startFrame
  repeat' (first | with_reducible assumption | with_reducible exact Moves.refl _ _ | with_reducible exact rfl | exact rfl |  (intro _) | with_reducible refine stompCopies_moves ?_ ?_ | with_reducible refine spendTokens_moves ?_ ?_ | with_reducible refine modQ_moves ?_ ?_ | with_reducible refine countPort_moves ?_ ?_ | with_reducible refine formRecords_moves ?_ ?_ | with_reducible refine endCtx_moves ?_ ?_ | with_reducible refine noteStart_moves ?_ ?_ | with_reducible refine mirrorOut_moves ?_ ?_ | with_reducible refine meetWatches_moves ?_ ?_ | with_reducible refine ite_moves ?_ ?_ | with_reducible refine ite_snd_moves ?_ ?_ | with_reducible refine ite_fst_moves ?_ ?_ | split | refine fst_of_eq (by assumption) ?_ | refine snd_of_eq (by assumption) ?_ | with_reducible refine upd_faults ?_ ?_ | dsimp only)

theorem drr_moves {ll ss} {n : Nat} {s : State} {p : Nat} (hh : Moves ll ss s) (hsub : sub [.host, .ports, .frames, .reorder, .doneMsgs, .shapers, .pools, .tandem, .faults, .fresh] ll = true) : Moves ll ss (drr n s p) := by
  refine hh.trans ?_ hsub; clear hh hsub
  suffices H : ∀ s1, Moves [.host, .ports, .frames, .reorder, .doneMsgs, .shapers, .pools, .tandem, .faults, .fresh] s1 s → Moves [.host, .ports, .frames, .reorder, .doneMsgs, .shapers, .pools, .tandem, .faults, .fresh] s1 (drr n s p) from H _ (Moves.refl _ _)
  induction n generalizing s with
  | zero => intro s1 h; exact h
  | succ k ih =>
    intro s1 h; unfold drr
    repeat' (first | with_reducible assumption | with_reducible exact Moves.refl _ _ | with_reducible exact rfl | exact rfl |  (intro _) | with_reducible apply ih | with_reducible refine modQ_moves ?_ ?_ | with_reducible refine startFrame_moves ?_ ?_ | with_reducible refine ite_moves ?_ ?_ | with_reducible refine ite_snd_moves ?_ ?_ | with_reducible refine ite_fst_moves ?_ ?_ | split | refine fst_of_eq (by assumption) ?_ | refine snd_of_eq (by assumption) ?_ | dsimp only)

theorem startBulk_moves {ll ss} {s : State} {p : Nat} (hh : Moves ll ss s) (hsub : sub [.host, .ports, .frames, .reorder, .doneMsgs, .shapers, .pools, .tandem, .faults, .fresh] ll = true) :
    Moves ll ss (startBulk s p) := by
  refine hh.trans ?_ hsub; unfold startBulk
  repeat' (first | with_reducible assumption | with_reducible exact Moves.refl _ _ | with_reducible exact rfl | exact rfl |  (intro _) | with_reducible refine drr_moves ?_ ?_ | with_reducible refine startFrame_moves ?_ ?_ | with_reducible refine ite_moves ?_ ?_ | with_reducible refine ite_snd_moves ?_ ?_ | with_reducible refine ite_fst_moves ?_ ?_ | split | refine fst_of_eq (by assumption) ?_ | refine snd_of_eq (by assumption) ?_ | dsimp only)

theorem execFrameStart_moves {port : BitVec 9} {s : State} : Runs [.host, .stats, .ports, .frames, .reorder, .doneMsgs, .shapers, .pools, .tandem, .dropping, .faults, .fresh] s (execFrameStart port s) := by
  unfold execFrameStart
  repeat' (first | with_reducible assumption | with_reducible exact Moves.refl _ _ | with_reducible exact rfl | exact rfl |  (intro _) | with_reducible refine purge_moves ?_ ?_ | with_reducible refine startFrame_moves ?_ ?_ | with_reducible refine startBulk_moves ?_ ?_ | with_reducible refine Runs.next ?_ | with_reducible refine ite_moves ?_ ?_ | with_reducible refine ite_snd_moves ?_ ?_ | with_reducible refine ite_fst_moves ?_ ?_ | split | refine fst_of_eq (by assumption) ?_ | refine snd_of_eq (by assumption) ?_ | dsimp only)

theorem execSourceStall_moves {port : BitVec 9} {s : State} : Runs [.ports, .tandem, .dropping] s (execSourceStall port s) := by
  unfold execSourceStall
  repeat' (first | with_reducible assumption | with_reducible exact Moves.refl _ _ | with_reducible exact rfl | exact rfl |  (intro _) | with_reducible refine cutLane_moves ?_ ?_ | with_reducible refine Runs.next ?_ | with_reducible refine ite_moves ?_ ?_ | with_reducible refine ite_snd_moves ?_ ?_ | with_reducible refine ite_fst_moves ?_ ?_ | split | refine fst_of_eq (by assumption) ?_ | refine snd_of_eq (by assumption) ?_ | dsimp only)

theorem execCreditCycleReceive_moves {port : BitVec 9} {ret : List (BitVec 16)} {s : State} : Runs [.ports] s (execCreditCycleReceive port ret s) := by
  unfold execCreditCycleReceive
  repeat' (first | with_reducible assumption | with_reducible exact Moves.refl _ _ | with_reducible exact rfl | exact rfl |  (intro _) | with_reducible refine framingLoss_moves ?_ ?_ | with_reducible refine modQ_moves ?_ ?_ | with_reducible refine Runs.next ?_ | with_reducible refine ite_moves ?_ ?_ | with_reducible refine ite_snd_moves ?_ ?_ | with_reducible refine ite_fst_moves ?_ ?_ | split | refine fst_of_eq (by assumption) ?_ | refine snd_of_eq (by assumption) ?_ | dsimp only)

theorem creditArrives_moves {ll ss} {s : State} {p : Nat} (hh : Moves ll ss s) (hsub : sub [.ports] ll = true) :
    Moves ll ss (creditArrives s p) := by
  refine hh.trans ?_ hsub; unfold creditArrives
  repeat' (first | with_reducible assumption | with_reducible exact Moves.refl _ _ | with_reducible exact rfl | exact rfl |  (intro _) | with_reducible refine modQ_moves ?_ ?_ | with_reducible refine ite_moves ?_ ?_ | with_reducible refine ite_snd_moves ?_ ?_ | with_reducible refine ite_fst_moves ?_ ?_ | split | refine fst_of_eq (by assumption) ?_ | refine snd_of_eq (by assumption) ?_ | dsimp only)

theorem execCreditCycleSend_moves {port : BitVec 9} {s : State} : Runs [.ports] s (execCreditCycleSend port s) := by
  unfold execCreditCycleSend
  repeat' (first | with_reducible assumption | with_reducible exact Moves.refl _ _ | with_reducible exact rfl | exact rfl |  (intro _) | with_reducible refine modQ_moves ?_ ?_ | with_reducible refine Runs.next ?_ | with_reducible refine ite_moves ?_ ?_ | with_reducible refine ite_snd_moves ?_ ?_ | with_reducible refine ite_fst_moves ?_ ?_ | split | refine fst_of_eq (by assumption) ?_ | refine snd_of_eq (by assumption) ?_ | dsimp only)

theorem noteLate_moves {ll ss} {s : State} {p : Nat} {e : Entry} (hh : Moves ll ss s) (hsub : sub [.host, .stats, .tallies, .fresh] ll = true) :
    Moves ll ss (noteLate s p e) := by
  refine hh.trans ?_ hsub; unfold noteLate
  repeat' (first | with_reducible assumption | with_reducible exact Moves.refl _ _ | with_reducible exact rfl | exact rfl |  (intro _) | with_reducible refine setTally_moves ?_ ?_ | with_reducible refine postEvent_moves ?_ ?_ | with_reducible refine ite_moves ?_ ?_ | with_reducible refine ite_snd_moves ?_ ?_ | with_reducible refine ite_fst_moves ?_ ?_ | split | refine fst_of_eq (by assumption) ?_ | refine snd_of_eq (by assumption) ?_ | dsimp only)

theorem execAlignedCopySend_moves {port : BitVec 9} {s : State} : Runs [.host, .stats, .ports, .frames, .reorder, .doneMsgs, .shapers, .pools, .tandem, .dropping, .tallies, .faults, .fresh] s (execAlignedCopySend port s) := by
  unfold execAlignedCopySend
  repeat' (first | with_reducible assumption | with_reducible exact Moves.refl _ _ | with_reducible exact rfl | exact rfl |  (intro _) | with_reducible refine purge_moves ?_ ?_ | with_reducible refine startFrame_moves ?_ ?_ | with_reducible refine noteLate_moves ?_ ?_ | with_reducible refine Runs.next ?_ | with_reducible refine ite_moves ?_ ?_ | with_reducible refine ite_snd_moves ?_ ?_ | with_reducible refine ite_fst_moves ?_ ?_ | split | refine fst_of_eq (by assumption) ?_ | refine snd_of_eq (by assumption) ?_ | dsimp only)

theorem dropReplay_moves {ll ss} {s : State} {p c : Nat} {under : Option (List Byte)} (hh : Moves ll ss s) (hsub : sub [.ports, .dropping] ll = true) :
    Moves ll ss (dropReplay s p c under) := by
  refine hh.trans ?_ hsub; unfold dropReplay
  repeat' (first | with_reducible assumption | with_reducible exact Moves.refl _ _ | with_reducible exact rfl | exact rfl |  (intro _) | with_reducible refine loseLane_moves ?_ ?_ | with_reducible refine modQ_moves ?_ ?_ | with_reducible refine countPort_moves ?_ ?_ | with_reducible refine ite_moves ?_ ?_ | with_reducible refine ite_snd_moves ?_ ?_ | with_reducible refine ite_fst_moves ?_ ?_ | split | refine fst_of_eq (by assumption) ?_ | refine snd_of_eq (by assumption) ?_ | dsimp only)

theorem sendKick_moves {ll ss} {s : State} {p : Nat} {k : KickPend} (hh : Moves ll ss s) (hsub : sub [.ports, .tandem, .dropping] ll = true) :
    Moves ll ss (sendKick s p k) := by
  refine hh.trans ?_ hsub; unfold sendKick
  repeat' (first | with_reducible assumption | with_reducible exact Moves.refl _ _ | with_reducible exact rfl | exact rfl |  (intro _) | with_reducible refine cutLane_moves ?_ ?_ | with_reducible refine dropReplay_moves ?_ ?_ | with_reducible refine modLink_moves ?_ ?_ | with_reducible refine modQ_moves ?_ ?_ | with_reducible refine modKick_moves ?_ ?_ | with_reducible refine countPort_moves ?_ ?_ | with_reducible refine ite_moves ?_ ?_ | with_reducible refine ite_snd_moves ?_ ?_ | with_reducible refine ite_fst_moves ?_ ?_ | split | refine fst_of_eq (by assumption) ?_ | refine snd_of_eq (by assumption) ?_ | dsimp only)

theorem kickWaits_moves {ll ss} {s : State} {p : Nat} {k : KickPend} (hh : Moves ll ss s) (hsub : sub [.host, .stats, .ports, .fresh] ll = true) :
    Moves ll ss (kickWaits s p k) := by
  refine hh.trans ?_ hsub; unfold kickWaits
  repeat' (first | with_reducible assumption | with_reducible exact Moves.refl _ _ | with_reducible exact rfl | exact rfl |  (intro _) | with_reducible refine modKick_moves ?_ ?_ | with_reducible refine setCause_moves ?_ ?_ | with_reducible refine countPort_moves ?_ ?_ | with_reducible refine ite_moves ?_ ?_ | with_reducible refine ite_snd_moves ?_ ?_ | with_reducible refine ite_fst_moves ?_ ?_ | split | refine fst_of_eq (by assumption) ?_ | refine snd_of_eq (by assumption) ?_ | dsimp only)

theorem execKickstandSend_moves {port : BitVec 9} {s : State} : Runs [.host, .stats, .ports, .tandem, .dropping, .fresh] s (execKickstandSend port s) := by
  unfold execKickstandSend
  repeat' (first | with_reducible assumption | with_reducible exact Moves.refl _ _ | with_reducible exact rfl | exact rfl |  (intro _) | with_reducible refine sendKick_moves ?_ ?_ | with_reducible refine kickWaits_moves ?_ ?_ | with_reducible refine Runs.next ?_ | with_reducible refine ite_moves ?_ ?_ | with_reducible refine ite_snd_moves ?_ ?_ | with_reducible refine ite_fst_moves ?_ ?_ | split | refine fst_of_eq (by assumption) ?_ | refine snd_of_eq (by assumption) ?_ | dsimp only)

theorem execKickstandRepeat_moves {port : BitVec 9} {s : State} : Runs [.host, .stats, .ports, .fresh] s (execKickstandRepeat port s) := by
  unfold execKickstandRepeat
  repeat' (first | with_reducible assumption | with_reducible exact Moves.refl _ _ | with_reducible exact rfl | exact rfl |  (intro _) | with_reducible refine kickDetect_moves ?_ ?_ | with_reducible refine modKick_moves ?_ ?_ | with_reducible refine Runs.next ?_ | with_reducible refine ite_moves ?_ ?_ | with_reducible refine ite_snd_moves ?_ ?_ | with_reducible refine ite_fst_moves ?_ ?_ | split | refine fst_of_eq (by assumption) ?_ | refine snd_of_eq (by assumption) ?_ | dsimp only)

theorem execWatchDeadline_moves {port : BitVec 9} {watch : BitVec 2} {s : State} : Runs [.host, .stats, .ports, .fresh] s (execWatchDeadline port watch s) := by
  unfold execWatchDeadline
  repeat' (first | with_reducible assumption | with_reducible exact Moves.refl _ _ | with_reducible exact rfl | exact rfl |  (intro _) | with_reducible refine modPort_moves ?_ ?_ | with_reducible refine setCause_moves ?_ ?_ | with_reducible refine countPort_moves ?_ ?_ | with_reducible refine kickDetect_moves ?_ ?_ | with_reducible refine Runs.next ?_ | with_reducible refine ite_moves ?_ ?_ | with_reducible refine ite_snd_moves ?_ ?_ | with_reducible refine ite_fst_moves ?_ ?_ | split | refine fst_of_eq (by assumption) ?_ | refine snd_of_eq (by assumption) ?_ | dsimp only)

theorem execQueueSample_moves {s : State} : Runs [.tick, .ports] s (execQueueSample s) := by
  unfold execQueueSample
  repeat' (first | with_reducible assumption | with_reducible exact Moves.refl _ _ | with_reducible exact rfl | exact rfl | ((fail_if_success (show Moves _ _ _)); first | exact side_hostSame rfl rfl rfl rfl | exact side_tables rfl | exact side_nil | exact side_map | exact side_hostMap rfl rfl rfl rfl | exact side_host4 rfl rfl rfl rfl) |  (intro _) | with_reducible refine Runs.next ?_ | with_reducible refine ite_moves ?_ ?_ | with_reducible refine ite_snd_moves ?_ ?_ | with_reducible refine ite_fst_moves ?_ ?_ | split | refine fst_of_eq (by assumption) ?_ | refine snd_of_eq (by assumption) ?_ | with_reducible refine upd_tick_ports ?_ ?_ ?_ | dsimp only)

theorem execMgmtReceive_moves {port : BitVec 9} {f : Frame} {s : State} : Runs [.intake] s (execMgmtReceive port f s) := by
  unfold execMgmtReceive
  repeat' (first | with_reducible assumption | with_reducible exact Moves.refl _ _ | with_reducible exact rfl | exact rfl |  (intro _) | with_reducible refine takeIntake_moves ?_ ?_ | with_reducible refine Runs.next ?_ | with_reducible refine ite_moves ?_ ?_ | with_reducible refine ite_snd_moves ?_ ?_ | with_reducible refine ite_fst_moves ?_ ?_ | split | refine fst_of_eq (by assumption) ?_ | refine snd_of_eq (by assumption) ?_ | dsimp only)

end Sys2Proof.Laws
end

