-- ==== Sys2Proof/Laws/Moves/Blocks.lean ====
section
/-! SUPPORT. What the operations of Machine/Blocks.lean may change: one lemma each. -/

set_option linter.unusedTactic false
set_option linter.unreachableTactic false
set_option linter.unusedVariables false

namespace Sys2Proof.Laws

open Sys2Proof.Machine Sys2Proof.Safety

theorem sendCycle_moves {ll ss} {s : State} {p : Nat} (hh : Moves ll ss s) (hsub : sub [.ports] ll = true) :
    Moves ll ss (sendCycle s p) := by
  refine hh.trans ?_ hsub; unfold sendCycle
  repeat' (first | with_reducible assumption | with_reducible exact Moves.refl _ _ | with_reducible exact rfl | exact rfl |  (intro _) | with_reducible refine modPort_moves ?_ ?_ | with_reducible refine ite_moves ?_ ?_ | with_reducible refine ite_snd_moves ?_ ?_ | with_reducible refine ite_fst_moves ?_ ?_ | split | refine fst_of_eq (by assumption) ?_ | refine snd_of_eq (by assumption) ?_ | dsimp only)

theorem standStill_moves {ll ss} {s : State} {p : Nat} (hh : Moves ll ss s) (hsub : sub [.host, .ports] ll = true) :
    Moves ll ss (standStill s p) := by
  refine hh.trans ?_ hsub; unfold standStill
  repeat' (first | with_reducible assumption | with_reducible exact Moves.refl _ _ | with_reducible exact rfl | exact rfl |  (intro _) | with_reducible refine ready_moves ?_ ?_ | with_reducible refine modQ_moves ?_ ?_ | with_reducible refine ite_moves ?_ ?_ | with_reducible refine ite_snd_moves ?_ ?_ | with_reducible refine ite_fst_moves ?_ ?_ | split | refine fst_of_eq (by assumption) ?_ | refine snd_of_eq (by assumption) ?_ | dsimp only)

theorem endTxBlock_moves {ll ss} {s : State} {p : Nat} (hh : Moves ll ss s) (hsub : sub [.ports, .lanes] ll = true) :
    Moves ll ss (endTxBlock s p) := by
  refine hh.trans ?_ hsub; unfold endTxBlock
  repeat' (first | with_reducible assumption | with_reducible exact Moves.refl _ _ | with_reducible exact rfl | exact rfl |  (intro _) | with_reducible refine setLane_moves ?_ ?_ | with_reducible refine modLink_moves ?_ ?_ | with_reducible refine foldl_moves ?_ ?_ | with_reducible refine foldl_fst_moves ?_ ?_ | with_reducible refine ite_moves ?_ ?_ | with_reducible refine ite_snd_moves ?_ ?_ | with_reducible refine ite_fst_moves ?_ ?_ | split | refine fst_of_eq (by assumption) ?_ | refine snd_of_eq (by assumption) ?_ | dsimp only)

theorem beginBlock_moves {ll ss} {s : State} {p : Nat} (hh : Moves ll ss s) (hsub : sub [.host, .stats, .ports, .lanes, .stalled, .reorder, .tandem, .dropping, .intake, .ledger, .fresh] ll = true) :
    Moves ll ss (beginBlock s p) := by
  refine hh.trans ?_ hsub; unfold beginBlock
  repeat' (first | with_reducible assumption | with_reducible exact Moves.refl _ _ | with_reducible exact rfl | exact rfl |  (intro _) | with_reducible refine lockLost_moves ?_ ?_ | with_reducible refine setLane_moves ?_ ?_ | with_reducible refine modLink_moves ?_ ?_ | with_reducible refine foldl_moves ?_ ?_ | with_reducible refine foldl_fst_moves ?_ ?_ | with_reducible refine ite_moves ?_ ?_ | with_reducible refine ite_snd_moves ?_ ?_ | with_reducible refine ite_fst_moves ?_ ?_ | split | refine fst_of_eq (by assumption) ?_ | refine snd_of_eq (by assumption) ?_ | dsimp only)

theorem beginBlocks_moves {ll ss} {s : State} (hh : Moves ll ss s) (hsub : sub [.host, .stats, .ports, .lanes, .stalled, .reorder, .tandem, .dropping, .intake, .ledger, .fresh] ll = true) :
    Moves ll ss (beginBlocks s) := by
  refine hh.trans ?_ hsub; unfold beginBlocks
  repeat' (first | with_reducible assumption | with_reducible exact Moves.refl _ _ | with_reducible exact rfl | exact rfl |  (intro _) | with_reducible refine beginBlock_moves ?_ ?_ | with_reducible refine foldl_moves ?_ ?_ | with_reducible refine foldl_fst_moves ?_ ?_ | with_reducible refine ite_moves ?_ ?_ | with_reducible refine ite_snd_moves ?_ ?_ | with_reducible refine ite_fst_moves ?_ ?_ | split | refine fst_of_eq (by assumption) ?_ | refine snd_of_eq (by assumption) ?_ | dsimp only)

theorem endBlocks_moves {ll ss} {s : State} (hh : Moves ll ss s) (hsub : sub [.ports, .lanes] ll = true) :
    Moves ll ss (endBlocks s) := by
  refine hh.trans ?_ hsub; unfold endBlocks
  repeat' (first | with_reducible assumption | with_reducible exact Moves.refl _ _ | with_reducible exact rfl | exact rfl |  (intro _) | with_reducible refine endTxBlock_moves ?_ ?_ | with_reducible refine foldl_moves ?_ ?_ | with_reducible refine foldl_fst_moves ?_ ?_ | with_reducible refine ite_moves ?_ ?_ | with_reducible refine ite_snd_moves ?_ ?_ | with_reducible refine ite_fst_moves ?_ ?_ | split | refine fst_of_eq (by assumption) ?_ | refine snd_of_eq (by assumption) ?_ | dsimp only)

end Sys2Proof.Laws
end

