-- ==== Sys2Proof/Laws/Moves/Spdm.lean ====
section
/-! SUPPORT. What the operations of Machine/Spdm.lean may change: one lemma each. -/

set_option linter.unusedTactic false
set_option linter.unreachableTactic false
set_option linter.unusedVariables false

namespace Sys2Proof.Laws

open Sys2Proof.Machine Sys2Proof.Safety

theorem respond_moves {ll ss} {s : State} {code : Byte} {content : List Byte} {signed : Bool} (hh : Moves ll ss s) (hsub : sub [.spdm] ll = true) :
    Moves ll ss (respond s code content signed) := by
  refine hh.trans ?_ hsub; unfold respond
  repeat' (first | with_reducible assumption | with_reducible exact Moves.refl _ _ | with_reducible exact rfl | exact rfl |  (intro _) | with_reducible refine ite_moves ?_ ?_ | with_reducible refine ite_snd_moves ?_ ?_ | with_reducible refine ite_fst_moves ?_ ?_ | split | refine fst_of_eq (by assumption) ?_ | refine snd_of_eq (by assumption) ?_ | with_reducible refine upd_spdm ?_ ?_ | dsimp only)

theorem respondError_moves {ll ss} {s : State} {e : Byte} (hh : Moves ll ss s) (hsub : sub [.spdm] ll = true) :
    Moves ll ss (respondError s e) := by
  refine hh.trans ?_ hsub; unfold respondError
  repeat' (first | with_reducible assumption | with_reducible exact Moves.refl _ _ | with_reducible exact rfl | exact rfl |  (intro _) | with_reducible refine respond_moves ?_ ?_ | with_reducible refine ite_moves ?_ ?_ | with_reducible refine ite_snd_moves ?_ ?_ | with_reducible refine ite_fst_moves ?_ ?_ | split | refine fst_of_eq (by assumption) ?_ | refine snd_of_eq (by assumption) ?_ | dsimp only)

theorem spdmRequest_moves {l s0} {s : State} {body : State → State} (h : Moves l s0 s) (hs : sub [.spdm] l = true)
    (hb : ∀ t, Moves l s0 t → Moves l s0 (body t)) : Moves l s0 (spdmRequest s body) := by
  unfold spdmRequest
  split
  · exact upd_spdm h hs
  · exact hb _ h

theorem spdmConnected_moves {l s0} {s : State} {body : State → State} (h : Moves l s0 s) (hs : sub [.spdm] l = true)
    (hb : ∀ t, Moves l s0 t → Moves l s0 (body t)) : Moves l s0 (spdmConnected s body) := by
  unfold spdmConnected
  refine spdmRequest_moves h hs fun t ht => ?_
  split
  · exact hb _ ht
  · exact respondError_moves ht hs

theorem execGetVersion_moves {s : State} : Runs [.spdm] s (execGetVersion s) := by
  unfold execGetVersion
  repeat' (first | with_reducible assumption | with_reducible exact Moves.refl _ _ | with_reducible exact rfl | exact rfl |  (intro _) | with_reducible refine spdmRequest_moves ?_ ?_ ?_ | with_reducible refine respond_moves ?_ ?_ | with_reducible refine Runs.next ?_ | with_reducible refine ite_moves ?_ ?_ | with_reducible refine ite_snd_moves ?_ ?_ | with_reducible refine ite_fst_moves ?_ ?_ | split | refine fst_of_eq (by assumption) ?_ | refine snd_of_eq (by assumption) ?_ | with_reducible refine upd_spdm ?_ ?_ | dsimp only)

theorem execGetCapabilities_moves {s : State} : Runs [.spdm] s (execGetCapabilities s) := by
  unfold execGetCapabilities
  repeat' (first | with_reducible assumption | with_reducible exact Moves.refl _ _ | with_reducible exact rfl | exact rfl |  (intro _) | with_reducible refine spdmRequest_moves ?_ ?_ ?_ | with_reducible refine respondError_moves ?_ ?_ | with_reducible refine respond_moves ?_ ?_ | with_reducible refine Runs.next ?_ | with_reducible refine ite_moves ?_ ?_ | with_reducible refine ite_snd_moves ?_ ?_ | with_reducible refine ite_fst_moves ?_ ?_ | split | refine fst_of_eq (by assumption) ?_ | refine snd_of_eq (by assumption) ?_ | with_reducible refine upd_spdm ?_ ?_ | dsimp only)

theorem execNegotiateAlgorithms_moves {s : State} : Runs [.spdm] s (execNegotiateAlgorithms s) := by
  unfold execNegotiateAlgorithms
  repeat' (first | with_reducible assumption | with_reducible exact Moves.refl _ _ | with_reducible exact rfl | exact rfl |  (intro _) | with_reducible refine spdmRequest_moves ?_ ?_ ?_ | with_reducible refine respondError_moves ?_ ?_ | with_reducible refine respond_moves ?_ ?_ | with_reducible refine Runs.next ?_ | with_reducible refine ite_moves ?_ ?_ | with_reducible refine ite_snd_moves ?_ ?_ | with_reducible refine ite_fst_moves ?_ ?_ | split | refine fst_of_eq (by assumption) ?_ | refine snd_of_eq (by assumption) ?_ | with_reducible refine upd_spdm ?_ ?_ | dsimp only)

theorem execGetDigests_moves {s : State} : Runs [.spdm] s (execGetDigests s) := by
  unfold execGetDigests
  repeat' (first | with_reducible assumption | with_reducible exact Moves.refl _ _ | with_reducible exact rfl | exact rfl |  (intro _) | with_reducible refine spdmConnected_moves ?_ ?_ ?_ | with_reducible refine respondError_moves ?_ ?_ | with_reducible refine respond_moves ?_ ?_ | with_reducible refine Runs.next ?_ | with_reducible refine ite_moves ?_ ?_ | with_reducible refine ite_snd_moves ?_ ?_ | with_reducible refine ite_fst_moves ?_ ?_ | split | refine fst_of_eq (by assumption) ?_ | refine snd_of_eq (by assumption) ?_ | dsimp only)

theorem execGetCertificate_moves {slot offset length : Nat} {s : State} : Runs [.spdm] s (execGetCertificate slot offset length s) := by
  unfold execGetCertificate
  repeat' (first | with_reducible assumption | with_reducible exact Moves.refl _ _ | with_reducible exact rfl | exact rfl |  (intro _) | with_reducible refine spdmConnected_moves ?_ ?_ ?_ | with_reducible refine respondError_moves ?_ ?_ | with_reducible refine respond_moves ?_ ?_ | with_reducible refine Runs.next ?_ | with_reducible refine ite_moves ?_ ?_ | with_reducible refine ite_snd_moves ?_ ?_ | with_reducible refine ite_fst_moves ?_ ?_ | split | refine fst_of_eq (by assumption) ?_ | refine snd_of_eq (by assumption) ?_ | dsimp only)

theorem execChallenge_moves {slot : Nat} {nonce : BitVec 256} {s : State} : Runs [.spdm] s (execChallenge slot nonce s) := by
  unfold execChallenge
  repeat' (first | with_reducible assumption | with_reducible exact Moves.refl _ _ | with_reducible exact rfl | exact rfl |  (intro _) | with_reducible refine spdmConnected_moves ?_ ?_ ?_ | with_reducible refine respondError_moves ?_ ?_ | with_reducible refine respond_moves ?_ ?_ | with_reducible refine Runs.next ?_ | with_reducible refine ite_moves ?_ ?_ | with_reducible refine ite_snd_moves ?_ ?_ | with_reducible refine ite_fst_moves ?_ ?_ | split | refine fst_of_eq (by assumption) ?_ | refine snd_of_eq (by assumption) ?_ | dsimp only)

theorem execGetMeasurements_moves {index : Byte} {sign : Bool} {nonce : BitVec 256} {s : State} : Runs [.spdm] s (execGetMeasurements index sign nonce s) := by
  unfold execGetMeasurements
  repeat' (first | with_reducible assumption | with_reducible exact Moves.refl _ _ | with_reducible exact rfl | exact rfl |  (intro _) | with_reducible refine spdmConnected_moves ?_ ?_ ?_ | with_reducible refine respond_moves ?_ ?_ | with_reducible refine respondError_moves ?_ ?_ | with_reducible refine Runs.next ?_ | with_reducible refine ite_moves ?_ ?_ | with_reducible refine ite_snd_moves ?_ ?_ | with_reducible refine ite_fst_moves ?_ ?_ | split | refine fst_of_eq (by assumption) ?_ | refine snd_of_eq (by assumption) ?_ | dsimp only)

theorem execDoeDiscovery_moves {index : Byte} {s : State} : Runs [.spdm, .doe] s (execDoeDiscovery index s) := by
  unfold execDoeDiscovery
  repeat' (first | with_reducible assumption | with_reducible exact Moves.refl _ _ | with_reducible exact rfl | exact rfl |  (intro _) | with_reducible refine Runs.next ?_ | with_reducible refine ite_moves ?_ ?_ | with_reducible refine ite_snd_moves ?_ ?_ | with_reducible refine ite_fst_moves ?_ ?_ | split | refine fst_of_eq (by assumption) ?_ | refine snd_of_eq (by assumption) ?_ | with_reducible refine upd_spdm_doe ?_ ?_ | with_reducible refine upd_spdm ?_ ?_ | dsimp only)

end Sys2Proof.Laws
end

