-- ==== Sys2Proof/Laws/Moves/RegCmds.lean ====
section
/-! SUPPORT. What the operations of Machine/RegCmds.lean may change: one lemma each. -/

set_option linter.unusedTactic false
set_option linter.unreachableTactic false
set_option linter.unusedVariables false

namespace Sys2Proof.Laws

open Sys2Proof.Machine Sys2Proof.Safety

theorem execRegisterWrite_moves {origin : RegOrigin} {offset : BitVec 20} {size : Nat} {value : W64} {s : State} : Runs [.boot, .tick, .host, .stats, .refused, .ports, .tills, .tiles, .ledger, .fresh] s (execRegisterWrite origin offset size value s) := by
  unfold execRegisterWrite
  repeat' (first | with_reducible assumption | with_reducible exact Moves.refl _ _ | with_reducible exact rfl | exact rfl |  (intro _) | with_reducible refine regWrite_moves ?_ ?_ | with_reducible refine Runs.next ?_ | with_reducible refine ite_moves ?_ ?_ | with_reducible refine ite_snd_moves ?_ ?_ | with_reducible refine ite_fst_moves ?_ ?_ | split | refine fst_of_eq (by assumption) ?_ | refine snd_of_eq (by assumption) ?_ | dsimp only)

theorem execRingEnable_moves {origin : RegOrigin} {offset : BitVec 20} {value : W32} {s : State} : Runs [.boot, .tick, .host, .stats, .refused, .ports, .tills, .tiles, .ledger, .fresh] s (execRingEnable origin offset value s) := by
  unfold execRingEnable
  repeat' (first | with_reducible assumption | with_reducible exact Moves.refl _ _ | with_reducible exact rfl | exact rfl |  (intro _) | with_reducible refine regWrite_moves ?_ ?_ | with_reducible refine Runs.next ?_ | with_reducible refine ite_moves ?_ ?_ | with_reducible refine ite_snd_moves ?_ ?_ | with_reducible refine ite_fst_moves ?_ ?_ | split | refine fst_of_eq (by assumption) ?_ | refine snd_of_eq (by assumption) ?_ | dsimp only)

theorem execWatchDisable_moves {origin : RegOrigin} {k : BitVec 10} {value : W32} {s : State} : Runs [.boot, .tick, .host, .stats, .refused, .ports, .tills, .tiles, .ledger, .fresh] s (execWatchDisable origin k value s) := by
  unfold execWatchDisable
  repeat' (first | with_reducible assumption | with_reducible exact Moves.refl _ _ | with_reducible exact rfl | exact rfl |  (intro _) | with_reducible refine regWrite_moves ?_ ?_ | with_reducible refine Runs.next ?_ | with_reducible refine ite_moves ?_ ?_ | with_reducible refine ite_snd_moves ?_ ?_ | with_reducible refine ite_fst_moves ?_ ?_ | split | refine fst_of_eq (by assumption) ?_ | refine snd_of_eq (by assumption) ?_ | dsimp only)

theorem execStatusClear_moves {origin : RegOrigin} {offset : BitVec 20} {value : W32} {s : State} : Runs [.boot, .tick, .host, .stats, .refused, .ports, .tills, .tiles, .ledger, .fresh] s (execStatusClear origin offset value s) := by
  unfold execStatusClear
  repeat' (first | with_reducible assumption | with_reducible exact Moves.refl _ _ | with_reducible exact rfl | exact rfl |  (intro _) | with_reducible refine regWrite_moves ?_ ?_ | with_reducible refine Runs.next ?_ | with_reducible refine ite_moves ?_ ?_ | with_reducible refine ite_snd_moves ?_ ?_ | with_reducible refine ite_fst_moves ?_ ?_ | split | refine fst_of_eq (by assumption) ?_ | refine snd_of_eq (by assumption) ?_ | dsimp only)

theorem execKickLatchClear_moves {origin : RegOrigin} {nn : BitVec 4} {value : W32} {s : State} : Runs [.boot, .tick, .host, .stats, .refused, .ports, .tills, .tiles, .ledger, .fresh] s (execKickLatchClear origin nn value s) := by
  unfold execKickLatchClear
  repeat' (first | with_reducible assumption | with_reducible exact Moves.refl _ _ | with_reducible exact rfl | exact rfl |  (intro _) | with_reducible refine regWrite_moves ?_ ?_ | with_reducible refine Runs.next ?_ | with_reducible refine ite_moves ?_ ?_ | with_reducible refine ite_snd_moves ?_ ?_ | with_reducible refine ite_fst_moves ?_ ?_ | split | refine fst_of_eq (by assumption) ?_ | refine snd_of_eq (by assumption) ?_ | dsimp only)

theorem execRefusedClear_moves {origin : RegOrigin} {value : W32} {s : State} : Runs [.boot, .tick, .host, .stats, .refused, .ports, .tills, .tiles, .ledger, .fresh] s (execRefusedClear origin value s) := by
  unfold execRefusedClear
  repeat' (first | with_reducible assumption | with_reducible exact Moves.refl _ _ | with_reducible exact rfl | exact rfl |  (intro _) | with_reducible refine regWrite_moves ?_ ?_ | with_reducible refine Runs.next ?_ | with_reducible refine ite_moves ?_ ?_ | with_reducible refine ite_snd_moves ?_ ?_ | with_reducible refine ite_fst_moves ?_ ?_ | split | refine fst_of_eq (by assumption) ?_ | refine snd_of_eq (by assumption) ?_ | dsimp only)

theorem execDebugHalt_moves {origin : RegOrigin} {value : W32} {s : State} : Runs [.boot, .tick, .host, .stats, .refused, .ports, .tills, .tiles, .ledger, .fresh] s (execDebugHalt origin value s) := by
  unfold execDebugHalt
  repeat' (first | with_reducible assumption | with_reducible exact Moves.refl _ _ | with_reducible exact rfl | exact rfl |  (intro _) | with_reducible refine regWrite_moves ?_ ?_ | with_reducible refine Runs.next ?_ | with_reducible refine ite_moves ?_ ?_ | with_reducible refine ite_snd_moves ?_ ?_ | with_reducible refine ite_fst_moves ?_ ?_ | split | refine fst_of_eq (by assumption) ?_ | refine snd_of_eq (by assumption) ?_ | dsimp only)

theorem execDebugResume_moves {origin : RegOrigin} {value : W32} {s : State} : Runs [.boot, .tick, .host, .stats, .refused, .ports, .tills, .tiles, .ledger, .fresh] s (execDebugResume origin value s) := by
  unfold execDebugResume
  repeat' (first | with_reducible assumption | with_reducible exact Moves.refl _ _ | with_reducible exact rfl | exact rfl |  (intro _) | with_reducible refine regWrite_moves ?_ ?_ | with_reducible refine Runs.next ?_ | with_reducible refine ite_moves ?_ ?_ | with_reducible refine ite_snd_moves ?_ ?_ | with_reducible refine ite_fst_moves ?_ ?_ | split | refine fst_of_eq (by assumption) ?_ | refine snd_of_eq (by assumption) ?_ | dsimp only)

theorem execDbgKickTest_moves {origin : RegOrigin} {value : W32} {s : State} : Runs [.boot, .tick, .host, .stats, .refused, .ports, .tills, .tiles, .ledger, .fresh] s (execDbgKickTest origin value s) := by
  unfold execDbgKickTest
  repeat' (first | with_reducible assumption | with_reducible exact Moves.refl _ _ | with_reducible exact rfl | exact rfl |  (intro _) | with_reducible refine regWrite_moves ?_ ?_ | with_reducible refine Runs.next ?_ | with_reducible refine ite_moves ?_ ?_ | with_reducible refine ite_snd_moves ?_ ?_ | with_reducible refine ite_fst_moves ?_ ?_ | split | refine fst_of_eq (by assumption) ?_ | refine snd_of_eq (by assumption) ?_ | dsimp only)

theorem answerRead_moves {ll ss} {s : State} {v : W64} (hh : Moves ll ss s) (hsub : sub [.host] ll = true) :
    Moves ll ss (answerRead s v) := by
  refine hh.trans ?_ hsub; unfold answerRead
  repeat' (first | with_reducible assumption | with_reducible exact Moves.refl _ _ | with_reducible exact rfl | exact rfl | ((fail_if_success (show Moves _ _ _)); first | exact side_hostSame rfl rfl rfl rfl | exact side_tables rfl | exact side_nil | exact side_map | exact side_hostMap rfl rfl rfl rfl | exact side_host4 rfl rfl rfl rfl) |  (intro _) | with_reducible refine ite_moves ?_ ?_ | with_reducible refine ite_snd_moves ?_ ?_ | with_reducible refine ite_fst_moves ?_ ?_ | split | refine fst_of_eq (by assumption) ?_ | refine snd_of_eq (by assumption) ?_ | with_reducible refine upd_host ?_ ?_ ?_ | dsimp only)

theorem regRead_moves {ll ss} {s : State} {off size : Nat} (hh : Moves ll ss s) (hsub : sub [.host] ll = true) :
    Moves ll ss (regRead s off size) := by
  refine hh.trans ?_ hsub; unfold regRead
  repeat' (first | with_reducible assumption | with_reducible exact Moves.refl _ _ | with_reducible exact rfl | exact rfl |  (intro _) | with_reducible refine answerRead_moves ?_ ?_ | with_reducible refine latchReads_moves ?_ ?_ | with_reducible refine ite_moves ?_ ?_ | with_reducible refine ite_snd_moves ?_ ?_ | with_reducible refine ite_fst_moves ?_ ?_ | split | refine fst_of_eq (by assumption) ?_ | refine snd_of_eq (by assumption) ?_ | dsimp only)

theorem execPairLoRead_moves {_origin : RegOrigin} {offset : BitVec 20} {size : Nat} {s : State} : Runs [.host] s (execPairLoRead _origin offset size s) := by
  unfold execPairLoRead
  repeat' (first | with_reducible assumption | with_reducible exact Moves.refl _ _ | with_reducible exact rfl | exact rfl |  (intro _) | with_reducible refine regRead_moves ?_ ?_ | with_reducible refine Runs.next ?_ | with_reducible refine ite_moves ?_ ?_ | with_reducible refine ite_snd_moves ?_ ?_ | with_reducible refine ite_fst_moves ?_ ?_ | split | refine fst_of_eq (by assumption) ?_ | refine snd_of_eq (by assumption) ?_ | dsimp only)

theorem execI3cRegisterRead_moves {offset : BitVec 16} {s : State} : Runs [.boot] s (execI3cRegisterRead offset s) := by
  unfold execI3cRegisterRead
  repeat' (first | with_reducible assumption | with_reducible exact Moves.refl _ _ | with_reducible exact rfl | exact rfl |  (intro _) | with_reducible refine Runs.next ?_ | with_reducible refine ite_moves ?_ ?_ | with_reducible refine ite_snd_moves ?_ ?_ | with_reducible refine ite_fst_moves ?_ ?_ | split | refine fst_of_eq (by assumption) ?_ | refine snd_of_eq (by assumption) ?_ | with_reducible refine upd_boot ?_ ?_ | dsimp only)

theorem execI3cDynamicAddress_moves {address : BitVec 7} {s : State} : Runs [.boot] s (execI3cDynamicAddress address s) := by
  unfold execI3cDynamicAddress
  repeat' (first | with_reducible assumption | with_reducible exact Moves.refl _ _ | with_reducible exact rfl | exact rfl |  (intro _) | with_reducible refine Runs.next ?_ | with_reducible refine ite_moves ?_ ?_ | with_reducible refine ite_snd_moves ?_ ?_ | with_reducible refine ite_fst_moves ?_ ?_ | split | refine fst_of_eq (by assumption) ?_ | refine snd_of_eq (by assumption) ?_ | with_reducible refine upd_boot ?_ ?_ | dsimp only)

end Sys2Proof.Laws
end

