-- ==== Sys2Proof/Laws/Moves/Commit.lean ====
section
/-! SUPPORT. What the operations of Machine/Commit.lean may change: one lemma each. -/

set_option linter.unusedTactic false
set_option linter.unreachableTactic false
set_option linter.unusedVariables false

namespace Sys2Proof.Laws

open Sys2Proof.Machine Sys2Proof.Safety

theorem putStaged_moves {ll ss} {s : State} {t : Staged} (hh : Moves ll ss s) (hsub : sub [.tables] ll = true) :
    Moves ll ss (putStaged s t) := by
  refine hh.trans ?_ hsub; unfold putStaged
  repeat' (first | with_reducible assumption | with_reducible exact Moves.refl _ _ | with_reducible exact rfl | exact rfl | ((fail_if_success (show Moves _ _ _)); first | exact side_hostSame rfl rfl rfl rfl | exact side_tables rfl | exact side_nil | exact side_map | exact side_hostMap rfl rfl rfl rfl | exact side_host4 rfl rfl rfl rfl) |  (intro _) | with_reducible refine ite_moves ?_ ?_ | with_reducible refine ite_snd_moves ?_ ?_ | with_reducible refine ite_fst_moves ?_ ?_ | split | refine fst_of_eq (by assumption) ?_ | refine snd_of_eq (by assumption) ?_ | with_reducible refine upd_tables ?_ ?_ ?_ | dsimp only)

theorem dropStaged_moves {ll ss} {s : State} {tid : Nat} (hh : Moves ll ss s) (hsub : sub [.tables] ll = true) :
    Moves ll ss (dropStaged s tid) := by
  refine hh.trans ?_ hsub; unfold dropStaged
  repeat' (first | with_reducible assumption | with_reducible exact Moves.refl _ _ | with_reducible exact rfl | exact rfl | ((fail_if_success (show Moves _ _ _)); first | exact side_hostSame rfl rfl rfl rfl | exact side_tables rfl | exact side_nil | exact side_map | exact side_hostMap rfl rfl rfl rfl | exact side_host4 rfl rfl rfl rfl) |  (intro _) | with_reducible refine ite_moves ?_ ?_ | with_reducible refine ite_snd_moves ?_ ?_ | with_reducible refine ite_fst_moves ?_ ?_ | split | refine fst_of_eq (by assumption) ?_ | refine snd_of_eq (by assumption) ?_ | with_reducible refine upd_tables ?_ ?_ ?_ | dsimp only)

theorem execStage_moves {ring : BitVec 6} {d : Desc} {image : List W64} {s : State} : Runs [.tables, .host, .stats, .ledger, .fresh] s (execStage ring d image s) := by
  unfold execStage
  repeat' (first | with_reducible assumption | with_reducible exact Moves.refl _ _ | with_reducible exact rfl | exact rfl |  (intro _) | with_reducible refine accept_moves ?_ ?_ ?_ | with_reducible refine complete_moves ?_ ?_ | with_reducible refine record_moves ?_ ?_ | with_reducible refine dropStaged_moves ?_ ?_ | with_reducible refine putStaged_moves ?_ ?_ | with_reducible refine Runs.next ?_ | with_reducible refine ite_moves ?_ ?_ | with_reducible refine ite_snd_moves ?_ ?_ | with_reducible refine ite_fst_moves ?_ ?_ | split | refine fst_of_eq (by assumption) ?_ | refine snd_of_eq (by assumption) ?_ | dsimp only)

theorem applied_moves {ll ss} {s : State} {ts : List Staged} (hh : Moves ll ss s) (hsub : sub [.tick, .tables, .faults] ll = true) :
    Moves ll ss (applied s ts) := by
  refine hh.trans ?_ hsub; unfold applied
  repeat' (first | with_reducible assumption | with_reducible exact Moves.refl _ _ | with_reducible exact rfl | exact rfl |  (intro _) | with_reducible refine setActive_moves ?_ ?_ | with_reducible refine foldl_moves ?_ ?_ | with_reducible refine foldl_fst_moves ?_ ?_ | with_reducible refine ite_moves ?_ ?_ | with_reducible refine ite_snd_moves ?_ ?_ | with_reducible refine ite_fst_moves ?_ ?_ | split | refine fst_of_eq (by assumption) ?_ | refine snd_of_eq (by assumption) ?_ | dsimp only)

theorem resumeAfter_moves {ll ss} {s : State} {a : Armed} (hh : Moves ll ss s) (hsub : sub [.tables] ll = true) :
    Moves ll ss (resumeAfter s a) := by
  refine hh.trans ?_ hsub; unfold resumeAfter
  repeat' (first | with_reducible assumption | with_reducible exact Moves.refl _ _ | with_reducible exact rfl | exact rfl | ((fail_if_success (show Moves _ _ _)); first | exact side_hostSame rfl rfl rfl rfl | exact side_tables rfl | exact side_nil | exact side_map | exact side_hostMap rfl rfl rfl rfl | exact side_host4 rfl rfl rfl rfl) |  (intro _) | with_reducible refine ite_moves ?_ ?_ | with_reducible refine ite_snd_moves ?_ ?_ | with_reducible refine ite_fst_moves ?_ ?_ | split | refine fst_of_eq (by assumption) ?_ | refine snd_of_eq (by assumption) ?_ | with_reducible refine upd_tables ?_ ?_ ?_ | dsimp only)

theorem dropArmed_moves {ll ss} {s : State} {a : Armed} (hh : Moves ll ss s) (hsub : sub [.tables] ll = true) :
    Moves ll ss (dropArmed s a) := by
  refine hh.trans ?_ hsub; unfold dropArmed
  repeat' (first | with_reducible assumption | with_reducible exact Moves.refl _ _ | with_reducible exact rfl | exact rfl | ((fail_if_success (show Moves _ _ _)); first | exact side_hostSame rfl rfl rfl rfl | exact side_tables rfl | exact side_nil | exact side_map | exact side_hostMap rfl rfl rfl rfl | exact side_host4 rfl rfl rfl rfl) |  (intro _) | with_reducible refine ite_moves ?_ ?_ | with_reducible refine ite_snd_moves ?_ ?_ | with_reducible refine ite_fst_moves ?_ ?_ | split | refine fst_of_eq (by assumption) ?_ | refine snd_of_eq (by assumption) ?_ | with_reducible refine upd_tables ?_ ?_ ?_ | dsimp only)

theorem abandon_moves {ll ss} {s : State} {a : Armed} {outcome : Nat} (hh : Moves ll ss s) (hsub : sub [.tables, .host, .stats, .ledger, .fresh] ll = true) :
    Moves ll ss (abandon s a outcome) := by
  refine hh.trans ?_ hsub; unfold abandon
  repeat' (first | with_reducible assumption | with_reducible exact Moves.refl _ _ | with_reducible exact rfl | exact rfl |  (intro _) | with_reducible refine resumeAfter_moves ?_ ?_ | with_reducible refine dropArmed_moves ?_ ?_ | with_reducible refine recordRaw_moves ?_ ?_ | with_reducible refine setCause_moves ?_ ?_ | with_reducible refine complete_moves ?_ ?_ | with_reducible refine ite_moves ?_ ?_ | with_reducible refine ite_snd_moves ?_ ?_ | with_reducible refine ite_fst_moves ?_ ?_ | split | refine fst_of_eq (by assumption) ?_ | refine snd_of_eq (by assumption) ?_ | dsimp only)

theorem execArm_moves {ring : BitVec 6} {d : Desc} {s : State} : Runs [.tables, .host, .stats, .ledger, .fresh] s (execArm ring d s) := by
  unfold execArm
  repeat' (first | with_reducible assumption | with_reducible exact Moves.refl _ _ | with_reducible exact rfl | exact rfl | ((fail_if_success (show Moves _ _ _)); first | exact side_hostSame rfl rfl rfl rfl | exact side_tables rfl | exact side_nil | exact side_map | exact side_hostMap rfl rfl rfl rfl | exact side_host4 rfl rfl rfl rfl) |  (intro _) | with_reducible refine accept_moves ?_ ?_ ?_ | with_reducible refine complete_moves ?_ ?_ | with_reducible refine recordRaw_moves ?_ ?_ | with_reducible refine abandon_moves ?_ ?_ | with_reducible refine Runs.next ?_ | with_reducible refine ite_moves ?_ ?_ | with_reducible refine ite_snd_moves ?_ ?_ | with_reducible refine ite_fst_moves ?_ ?_ | split | refine fst_of_eq (by assumption) ?_ | refine snd_of_eq (by assumption) ?_ | with_reducible refine upd_tables ?_ ?_ ?_ | dsimp only)

theorem execCancel_moves {ring : BitVec 6} {d : Desc} {s : State} : Runs [.tables, .host, .stats, .ledger, .fresh] s (execCancel ring d s) := by
  unfold execCancel
  repeat' (first | with_reducible assumption | with_reducible exact Moves.refl _ _ | with_reducible exact rfl | exact rfl |  (intro _) | with_reducible refine accept_moves ?_ ?_ ?_ | with_reducible refine complete_moves ?_ ?_ | with_reducible refine abandon_moves ?_ ?_ | with_reducible refine Runs.next ?_ | with_reducible refine ite_moves ?_ ?_ | with_reducible refine ite_snd_moves ?_ ?_ | with_reducible refine ite_fst_moves ?_ ?_ | split | refine fst_of_eq (by assumption) ?_ | refine snd_of_eq (by assumption) ?_ | dsimp only)

theorem execDrainStart_moves {s : State} : Runs [.tables] s (execDrainStart s) := by
  unfold execDrainStart
  repeat' (first | with_reducible assumption | with_reducible exact Moves.refl _ _ | with_reducible exact rfl | exact rfl | ((fail_if_success (show Moves _ _ _)); first | exact side_hostSame rfl rfl rfl rfl | exact side_tables rfl | exact side_nil | exact side_map | exact side_hostMap rfl rfl rfl rfl | exact side_host4 rfl rfl rfl rfl) |  (intro _) | with_reducible refine Runs.next ?_ | with_reducible refine ite_moves ?_ ?_ | with_reducible refine ite_snd_moves ?_ ?_ | with_reducible refine ite_fst_moves ?_ ?_ | split | refine fst_of_eq (by assumption) ?_ | refine snd_of_eq (by assumption) ?_ | with_reducible refine upd_tables ?_ ?_ ?_ | dsimp only)

theorem settleTokens_moves {ll ss} {s : State} {ts : List Staged} (hh : Moves ll ss s) (hsub : sub [.now, .shapers, .meters] ll = true) :
    Moves ll ss (settleTokens s ts) := by
  refine hh.trans ?_ hsub; unfold settleTokens
  repeat' (first | with_reducible assumption | with_reducible exact Moves.refl _ _ | with_reducible exact rfl | exact rfl |  (intro _) | with_reducible refine foldl_moves ?_ ?_ | with_reducible refine foldl_fst_moves ?_ ?_ | with_reducible refine ite_moves ?_ ?_ | with_reducible refine ite_snd_moves ?_ ?_ | with_reducible refine ite_fst_moves ?_ ?_ | split | refine fst_of_eq (by assumption) ?_ | refine snd_of_eq (by assumption) ?_ | with_reducible refine upd_shapers ?_ ?_ | with_reducible refine upd_meters ?_ ?_ | with_reducible refine upd_now ?_ ?_ | dsimp only)

theorem switchTable_moves {ll ss} {s : State} {a : Armed} {t : Staged} (hh : Moves ll ss s) (hsub : sub [.tick, .tables, .faults] ll = true) :
    Moves ll ss (switchTable s a t) := by
  refine hh.trans ?_ hsub; unfold switchTable
  repeat' (first | with_reducible assumption | with_reducible exact Moves.refl _ _ | with_reducible exact rfl | exact rfl | ((fail_if_success (show Moves _ _ _)); first | exact side_hostSame rfl rfl rfl rfl | exact side_tables rfl | exact side_nil | exact side_map | exact side_hostMap rfl rfl rfl rfl | exact side_host4 rfl rfl rfl rfl) |  (intro _) | with_reducible refine setActive_moves ?_ ?_ | with_reducible refine dropStaged_moves ?_ ?_ | with_reducible refine foldl_moves ?_ ?_ | with_reducible refine foldl_fst_moves ?_ ?_ | with_reducible refine ite_moves ?_ ?_ | with_reducible refine ite_snd_moves ?_ ?_ | with_reducible refine ite_fst_moves ?_ ?_ | split | refine fst_of_eq (by assumption) ?_ | refine snd_of_eq (by assumption) ?_ | with_reducible refine upd_tables ?_ ?_ ?_ | dsimp only)

theorem creditChange_moves {ll ss} {old s : State} {ts : List Staged} (hh : Moves ll ss s) (hsub : sub [.ports] ll = true) :
    Moves ll ss (creditChange old s ts) := by
  refine hh.trans ?_ hsub; unfold creditChange
  repeat' (first | with_reducible assumption | with_reducible exact Moves.refl _ _ | with_reducible exact rfl | exact rfl |  (intro _) | with_reducible refine modQ_moves ?_ ?_ | with_reducible refine foldl_moves ?_ ?_ | with_reducible refine foldl_fst_moves ?_ ?_ | with_reducible refine ite_moves ?_ ?_ | with_reducible refine ite_snd_moves ?_ ?_ | with_reducible refine ite_fst_moves ?_ ?_ | split | refine fst_of_eq (by assumption) ?_ | refine snd_of_eq (by assumption) ?_ | dsimp only)

theorem awaitCredit_moves {ll ss} {old s : State} {a : Armed} (hh : Moves ll ss s) (hsub : sub [.ports] ll = true) :
    Moves ll ss (awaitCredit old s a) := by
  refine hh.trans ?_ hsub; unfold awaitCredit
  repeat' (first | with_reducible assumption | with_reducible exact Moves.refl _ _ | with_reducible exact rfl | exact rfl |  (intro _) | with_reducible refine modQ_moves ?_ ?_ | with_reducible refine foldl_moves ?_ ?_ | with_reducible refine foldl_fst_moves ?_ ?_ | with_reducible refine ite_moves ?_ ?_ | with_reducible refine ite_snd_moves ?_ ?_ | with_reducible refine ite_fst_moves ?_ ?_ | split | refine fst_of_eq (by assumption) ?_ | refine snd_of_eq (by assumption) ?_ | dsimp only)

theorem freshWatches_moves {ll ss} {old s : State} {ts : List Staged} (hh : Moves ll ss s) (hsub : sub [.ports] ll = true) :
    Moves ll ss (freshWatches old s ts) := by
  refine hh.trans ?_ hsub; unfold freshWatches
  repeat' (first | with_reducible assumption | with_reducible exact Moves.refl _ _ | with_reducible exact rfl | exact rfl |  (intro _) | with_reducible refine modPort_moves ?_ ?_ | with_reducible refine foldl_moves ?_ ?_ | with_reducible refine foldl_fst_moves ?_ ?_ | with_reducible refine ite_moves ?_ ?_ | with_reducible refine ite_snd_moves ?_ ?_ | with_reducible refine ite_fst_moves ?_ ?_ | split | refine fst_of_eq (by assumption) ?_ | refine snd_of_eq (by assumption) ?_ | dsimp only)

theorem clearWatches_moves {ll ss} {s : State} {keepFresh : Bool} (hh : Moves ll ss s) (hsub : sub [.ports] ll = true) :
    Moves ll ss (clearWatches s keepFresh) := by
  refine hh.trans ?_ hsub; unfold clearWatches
  repeat' (first | with_reducible assumption | with_reducible exact Moves.refl _ _ | with_reducible exact rfl | exact rfl | ((fail_if_success (show Moves _ _ _)); first | exact side_hostSame rfl rfl rfl rfl | exact side_tables rfl | exact side_nil | exact side_map | exact side_hostMap rfl rfl rfl rfl | exact side_host4 rfl rfl rfl rfl) |  (intro _) | with_reducible refine ite_moves ?_ ?_ | with_reducible refine ite_snd_moves ?_ ?_ | with_reducible refine ite_fst_moves ?_ ?_ | split | refine fst_of_eq (by assumption) ?_ | refine snd_of_eq (by assumption) ?_ | with_reducible refine upd_ports ?_ ?_ ?_ | dsimp only)

theorem tickChange_moves {ll ss} {old s : State} (hh : Moves ll ss s) (hsub : sub [.tick, .ports] ll = true) :
    Moves ll ss (tickChange old s) := by
  refine hh.trans ?_ hsub; unfold tickChange
  repeat' (first | with_reducible assumption | with_reducible exact Moves.refl _ _ | with_reducible exact rfl | exact rfl |  (intro _) | with_reducible refine clearWatches_moves ?_ ?_ | with_reducible refine ite_moves ?_ ?_ | with_reducible refine ite_snd_moves ?_ ?_ | with_reducible refine ite_fst_moves ?_ ?_ | split | refine fst_of_eq (by assumption) ?_ | refine snd_of_eq (by assumption) ?_ | with_reducible refine upd_tick ?_ ?_ | dsimp only)

theorem linksAfter_moves {ll ss} {s : State} (hh : Moves ll ss s) (hsub : sub [.ports] ll = true) :
    Moves ll ss (linksAfter s) := by
  refine hh.trans ?_ hsub; unfold linksAfter
  repeat' (first | with_reducible assumption | with_reducible exact Moves.refl _ _ | with_reducible exact rfl | exact rfl |  (intro _) | with_reducible refine modLink_moves ?_ ?_ | with_reducible refine foldl_moves ?_ ?_ | with_reducible refine foldl_fst_moves ?_ ?_ | with_reducible refine ite_moves ?_ ?_ | with_reducible refine ite_snd_moves ?_ ?_ | with_reducible refine ite_fst_moves ?_ ?_ | split | refine fst_of_eq (by assumption) ?_ | refine snd_of_eq (by assumption) ?_ | dsimp only)

theorem linksRefused_moves {ll ss} {s : State} {a : Armed} (hh : Moves ll ss s) (hsub : sub [.host, .stats, .ports, .fresh] ll = true) :
    Moves ll ss (linksRefused s a) := by
  refine hh.trans ?_ hsub; unfold linksRefused
  repeat' (first | with_reducible assumption | with_reducible exact Moves.refl _ _ | with_reducible exact rfl | exact rfl |  (intro _) | with_reducible refine modLink_moves ?_ ?_ | with_reducible refine noteState_moves ?_ ?_ | with_reducible refine foldl_moves ?_ ?_ | with_reducible refine foldl_fst_moves ?_ ?_ | with_reducible refine ite_moves ?_ ?_ | with_reducible refine ite_snd_moves ?_ ?_ | with_reducible refine ite_fst_moves ?_ ?_ | split | refine fst_of_eq (by assumption) ?_ | refine snd_of_eq (by assumption) ?_ | dsimp only)

theorem tandemStart_moves {ll ss} {old s : State} (hh : Moves ll ss s) (hsub : sub [.tandem] ll = true) :
    Moves ll ss (tandemStart old s) := by
  refine hh.trans ?_ hsub; unfold tandemStart
  repeat' (first | with_reducible assumption | with_reducible exact Moves.refl _ _ | with_reducible exact rfl | exact rfl |  (intro _) | with_reducible refine ite_moves ?_ ?_ | with_reducible refine ite_snd_moves ?_ ?_ | with_reducible refine ite_fst_moves ?_ ?_ | split | refine fst_of_eq (by assumption) ?_ | refine snd_of_eq (by assumption) ?_ | with_reducible refine upd_tandem ?_ ?_ | dsimp only)

theorem commitSet_moves {ll ss} {s : State} {a : Armed} (hh : Moves ll ss s) (hsub : sub [.now, .tick, .tables, .host, .stats, .ports, .shapers, .meters, .tandem, .faults, .ledger, .fresh] ll = true) :
    Moves ll ss (commitSet s a) := by
  refine hh.trans ?_ hsub; unfold commitSet
  repeat' (first | with_reducible assumption | with_reducible exact Moves.refl _ _ | with_reducible exact rfl | exact rfl | ((fail_if_success (show Moves _ _ _)); first | exact side_hostSame rfl rfl rfl rfl | exact side_tables rfl | exact side_nil | exact side_map | exact side_hostMap rfl rfl rfl rfl | exact side_host4 rfl rfl rfl rfl) |  (intro _) | with_reducible refine settleTokens_moves ?_ ?_ | with_reducible refine resumeAfter_moves ?_ ?_ | with_reducible refine dropArmed_moves ?_ ?_ | with_reducible refine switchTable_moves ?_ ?_ | with_reducible refine tandemStart_moves ?_ ?_ | with_reducible refine freshWatches_moves ?_ ?_ | with_reducible refine awaitCredit_moves ?_ ?_ | with_reducible refine creditChange_moves ?_ ?_ | with_reducible refine tickChange_moves ?_ ?_ | with_reducible refine recordRaw_moves ?_ ?_ | with_reducible refine complete_moves ?_ ?_ | with_reducible refine linksAfter_moves ?_ ?_ | with_reducible refine abandon_moves ?_ ?_ | with_reducible refine foldl_moves ?_ ?_ | with_reducible refine foldl_fst_moves ?_ ?_ | with_reducible refine ite_moves ?_ ?_ | with_reducible refine ite_snd_moves ?_ ?_ | with_reducible refine ite_fst_moves ?_ ?_ | split | refine fst_of_eq (by assumption) ?_ | refine snd_of_eq (by assumption) ?_ | with_reducible refine upd_tables ?_ ?_ ?_ | dsimp only)

theorem endSet_moves {ll ss} {s : State} {a : Armed} (hh : Moves ll ss s) (hsub : sub [.now, .tick, .tables, .host, .stats, .ports, .shapers, .meters, .tandem, .faults, .ledger, .fresh] ll = true) :
    Moves ll ss (endSet s a) := by
  refine hh.trans ?_ hsub; unfold endSet
  repeat' (first | with_reducible assumption | with_reducible exact Moves.refl _ _ | with_reducible exact rfl | exact rfl |  (intro _) | with_reducible refine linksRefused_moves ?_ ?_ | with_reducible refine abandon_moves ?_ ?_ | with_reducible refine commitSet_moves ?_ ?_ | with_reducible refine ite_moves ?_ ?_ | with_reducible refine ite_snd_moves ?_ ?_ | with_reducible refine ite_fst_moves ?_ ?_ | split | refine fst_of_eq (by assumption) ?_ | refine snd_of_eq (by assumption) ?_ | dsimp only)

theorem execCommit_moves {s : State} : Runs [.now, .tick, .tables, .host, .stats, .ports, .shapers, .meters, .tandem, .faults, .ledger, .fresh] s (execCommit s) := by
  unfold execCommit
  repeat' (first | with_reducible assumption | with_reducible exact Moves.refl _ _ | with_reducible exact rfl | exact rfl |  (intro _) | with_reducible refine endSet_moves ?_ ?_ | with_reducible refine foldl_moves ?_ ?_ | with_reducible refine foldl_fst_moves ?_ ?_ | with_reducible refine Runs.next ?_ | with_reducible refine ite_moves ?_ ?_ | with_reducible refine ite_snd_moves ?_ ?_ | with_reducible refine ite_fst_moves ?_ ?_ | split | refine fst_of_eq (by assumption) ?_ | refine snd_of_eq (by assumption) ?_ | dsimp only)

theorem execOverflowCopy_moves {s : State} : Runs [.tick, .tables, .faults] s (execOverflowCopy s) := by
  unfold execOverflowCopy
  repeat' (first | with_reducible assumption | with_reducible exact Moves.refl _ _ | with_reducible exact rfl | exact rfl | ((fail_if_success (show Moves _ _ _)); first | exact side_hostSame rfl rfl rfl rfl | exact side_tables rfl | exact side_nil | exact side_map | exact side_hostMap rfl rfl rfl rfl | exact side_host4 rfl rfl rfl rfl) |  (intro _) | with_reducible refine setActive_moves ?_ ?_ | with_reducible refine Runs.next ?_ | with_reducible refine ite_moves ?_ ?_ | with_reducible refine ite_snd_moves ?_ ?_ | with_reducible refine ite_fst_moves ?_ ?_ | split | refine fst_of_eq (by assumption) ?_ | refine snd_of_eq (by assumption) ?_ | with_reducible refine upd_tables ?_ ?_ ?_ | dsimp only)

end Sys2Proof.Laws
end

