-- ==== Sys2Proof/Laws/Moves/Tandem.lean ====
section
/-! SUPPORT. What the operations of Machine/Tandem.lean may change: one lemma each. -/

set_option linter.unusedTactic false
set_option linter.unreachableTactic false
set_option linter.unusedVariables false

namespace Sys2Proof.Laws

open Sys2Proof.Machine Sys2Proof.Safety

theorem sendState_moves {ll ss} {s : State} (hh : Moves ll ss s) (hsub : sub [.host, .stats, .ports, .frames, .stalled, .blockCounts, .pools, .tandem, .faults, .fresh] ll = true) :
    Moves ll ss (sendState s) := by
  refine hh.trans ?_ hsub; unfold sendState
  repeat' (first | with_reducible assumption | with_reducible exact Moves.refl _ _ | with_reducible exact rfl | exact rfl |  (intro _) | with_reducible refine sendRecord_moves ?_ ?_ | with_reducible refine ite_moves ?_ ?_ | with_reducible refine ite_snd_moves ?_ ?_ | with_reducible refine ite_fst_moves ?_ ?_ | split | refine fst_of_eq (by assumption) ?_ | refine snd_of_eq (by assumption) ?_ | with_reducible refine upd_tandem ?_ ?_ | dsimp only)

theorem kickSlots_moves {ll ss} {s : State} {cause : Nat} (hh : Moves ll ss s) (hsub : sub [.host, .stats, .ports, .fresh] ll = true) :
    Moves ll ss (kickSlots s cause) := by
  refine hh.trans ?_ hsub; unfold kickSlots
  repeat' (first | with_reducible assumption | with_reducible exact Moves.refl _ _ | with_reducible exact rfl | exact rfl |  (intro _) | with_reducible refine kickDetect_moves ?_ ?_ | with_reducible refine foldl_moves ?_ ?_ | with_reducible refine foldl_fst_moves ?_ ?_ | with_reducible refine ite_moves ?_ ?_ | with_reducible refine ite_snd_moves ?_ ?_ | with_reducible refine ite_fst_moves ?_ ?_ | split | refine fst_of_eq (by assumption) ?_ | refine snd_of_eq (by assumption) ?_ | dsimp only)

theorem holdState_moves {ll ss} {s : State} {l : List Byte} (hh : Moves ll ss s) (hsub : sub [.host, .stats, .ports, .tandem, .fresh] ll = true) :
    Moves ll ss (holdState s l) := by
  refine hh.trans ?_ hsub; unfold holdState
  repeat' (first | with_reducible assumption | with_reducible exact Moves.refl _ _ | with_reducible exact rfl | exact rfl |  (intro _) | with_reducible refine kickSlots_moves ?_ ?_ | with_reducible refine ite_moves ?_ ?_ | with_reducible refine ite_snd_moves ?_ ?_ | with_reducible refine ite_fst_moves ?_ ?_ | split | refine fst_of_eq (by assumption) ?_ | refine snd_of_eq (by assumption) ?_ | with_reducible refine upd_tandem ?_ ?_ | dsimp only)

theorem holdRecord_moves {ll ss} {s : State} {at_ : Nat} {l : List Byte} (hh : Moves ll ss s) (hsub : sub [.host, .stats, .ports, .tandem, .fresh] ll = true) :
    Moves ll ss (holdRecord s at_ l) := by
  refine hh.trans ?_ hsub; unfold holdRecord
  repeat' (first | with_reducible assumption | with_reducible exact Moves.refl _ _ | with_reducible exact rfl | exact rfl |  (intro _) | with_reducible refine comparePairs_moves ?_ ?_ | with_reducible refine holdState_moves ?_ ?_ | with_reducible refine ite_moves ?_ ?_ | with_reducible refine ite_snd_moves ?_ ?_ | with_reducible refine ite_fst_moves ?_ ?_ | split | refine fst_of_eq (by assumption) ?_ | refine snd_of_eq (by assumption) ?_ | with_reducible refine upd_tandem ?_ ?_ | dsimp only)

theorem execTandemRecordReceive_moves {f : Frame} {s : State} : Runs [.host, .stats, .ports, .tandem, .intake, .fresh] s (execTandemRecordReceive f s) := by
  unfold execTandemRecordReceive
  repeat' (first | with_reducible assumption | with_reducible exact Moves.refl _ _ | with_reducible exact rfl | exact rfl |  (intro _) | with_reducible refine takeIntake_moves ?_ ?_ | with_reducible refine holdRecord_moves ?_ ?_ | with_reducible refine Runs.next ?_ | with_reducible refine ite_moves ?_ ?_ | with_reducible refine ite_snd_moves ?_ ?_ | with_reducible refine ite_fst_moves ?_ ?_ | split | refine fst_of_eq (by assumption) ?_ | refine snd_of_eq (by assumption) ?_ | dsimp only)

theorem execTandemWindowExpiry_moves {own : Bool} {index : Nat} {s : State} : Runs [.host, .stats, .ports, .tandem, .fresh] s (execTandemWindowExpiry own index s) := by
  unfold execTandemWindowExpiry
  repeat' (first | with_reducible assumption | with_reducible exact Moves.refl _ _ | with_reducible exact rfl | exact rfl |  (intro _) | with_reducible refine tandemMismatch_moves ?_ ?_ | with_reducible refine Runs.next ?_ | with_reducible refine ite_moves ?_ ?_ | with_reducible refine ite_snd_moves ?_ ?_ | with_reducible refine ite_fst_moves ?_ ?_ | split | refine fst_of_eq (by assumption) ?_ | refine snd_of_eq (by assumption) ?_ | with_reducible refine upd_tandem ?_ ?_ | dsimp only)

theorem execTwinLost_moves {s : State} : Runs [.host, .stats, .ports, .tandem, .fresh] s (execTwinLost s) := by
  unfold execTwinLost
  repeat' (first | with_reducible assumption | with_reducible exact Moves.refl _ _ | with_reducible exact rfl | exact rfl |  (intro _) | with_reducible refine kickSlots_moves ?_ ?_ | with_reducible refine setCause_moves ?_ ?_ | with_reducible refine Runs.next ?_ | with_reducible refine ite_moves ?_ ?_ | with_reducible refine ite_snd_moves ?_ ?_ | with_reducible refine ite_fst_moves ?_ ?_ | split | refine fst_of_eq (by assumption) ?_ | refine snd_of_eq (by assumption) ?_ | with_reducible refine upd_tandem ?_ ?_ | dsimp only)

theorem tandemTick_moves {ll ss} {s : State} (hh : Moves ll ss s) (hsub : sub [.tandem] ll = true) :
    Moves ll ss (tandemTick s) := by
  refine hh.trans ?_ hsub; unfold tandemTick
  repeat' (first | with_reducible assumption | with_reducible exact Moves.refl _ _ | with_reducible exact rfl | exact rfl |  (intro _) | with_reducible refine ite_moves ?_ ?_ | with_reducible refine ite_snd_moves ?_ ?_ | with_reducible refine ite_fst_moves ?_ ?_ | split | refine fst_of_eq (by assumption) ?_ | refine snd_of_eq (by assumption) ?_ | with_reducible refine upd_tandem ?_ ?_ | dsimp only)

end Sys2Proof.Laws
end

