-- ==== Sys2Proof/Laws/Moves/Queries.lean ====
section
/-! SUPPORT. What the operations of Machine/Queries.lean may change: one lemma each. -/

set_option linter.unusedTactic false
set_option linter.unreachableTactic false
set_option linter.unusedVariables false

namespace Sys2Proof.Laws

open Sys2Proof.Machine Sys2Proof.Safety

theorem mapPorts_moves {ll ss} {s : State} {f : Port → Port} (hh : Moves ll ss s) (hsub : sub [.ports] ll = true) :
    Moves ll ss (mapPorts s f) := by
  refine hh.trans ?_ hsub; unfold mapPorts
  repeat' (first | with_reducible assumption | with_reducible exact Moves.refl _ _ | with_reducible exact rfl | exact rfl | ((fail_if_success (show Moves _ _ _)); first | exact side_hostSame rfl rfl rfl rfl | exact side_tables rfl | exact side_nil | exact side_map | exact side_hostMap rfl rfl rfl rfl | exact side_host4 rfl rfl rfl rfl) |  (intro _) | with_reducible refine ite_moves ?_ ?_ | with_reducible refine ite_snd_moves ?_ ?_ | with_reducible refine ite_fst_moves ?_ ?_ | split | refine fst_of_eq (by assumption) ?_ | refine snd_of_eq (by assumption) ?_ | with_reducible refine upd_ports ?_ ?_ ?_ | dsimp only)

theorem execQueueRead_moves {ring : BitVec 6} {d : Desc} {s : State} : Runs [.host, .stats, .ports, .fresh] s (execQueueRead ring d s) := by
  unfold execQueueRead
  repeat' (first | with_reducible assumption | with_reducible exact Moves.refl _ _ | with_reducible exact rfl | exact rfl |  (intro _) | with_reducible refine accept_moves ?_ ?_ ?_ | with_reducible refine copyOut_moves ?_ ?_ | with_reducible refine mapPorts_moves ?_ ?_ | with_reducible refine Runs.next ?_ | with_reducible refine ite_moves ?_ ?_ | with_reducible refine ite_snd_moves ?_ ?_ | with_reducible refine ite_fst_moves ?_ ?_ | split | refine fst_of_eq (by assumption) ?_ | refine snd_of_eq (by assumption) ?_ | dsimp only)

theorem execPoolRead_moves {ring : BitVec 6} {d : Desc} {s : State} : Runs [.host, .stats, .pools, .fresh] s (execPoolRead ring d s) := by
  unfold execPoolRead
  repeat' (first | with_reducible assumption | with_reducible exact Moves.refl _ _ | with_reducible exact rfl | exact rfl |  (intro _) | with_reducible refine accept_moves ?_ ?_ ?_ | with_reducible refine copyOut_moves ?_ ?_ | with_reducible refine Runs.next ?_ | with_reducible refine ite_moves ?_ ?_ | with_reducible refine ite_snd_moves ?_ ?_ | with_reducible refine ite_fst_moves ?_ ?_ | split | refine fst_of_eq (by assumption) ?_ | refine snd_of_eq (by assumption) ?_ | with_reducible refine upd_pools ?_ ?_ | dsimp only)

theorem clearCounters_moves {ll ss} {s : State} (hh : Moves ll ss s) (hsub : sub [.ports, .blockCounts, .tandem] ll = true) :
    Moves ll ss (clearCounters s) := by
  refine hh.trans ?_ hsub; unfold clearCounters
  repeat' (first | with_reducible assumption | with_reducible exact Moves.refl _ _ | with_reducible exact rfl | exact rfl |  (intro _) | with_reducible refine mapPorts_moves ?_ ?_ | with_reducible refine ite_moves ?_ ?_ | with_reducible refine ite_snd_moves ?_ ?_ | with_reducible refine ite_fst_moves ?_ ?_ | split | refine fst_of_eq (by assumption) ?_ | refine snd_of_eq (by assumption) ?_ | with_reducible refine upd_blockCounts_tandem ?_ ?_ | dsimp only)

theorem execCounterRead_moves {ring : BitVec 6} {d : Desc} {s : State} : Runs [.host, .stats, .ports, .blockCounts, .tandem, .fresh] s (execCounterRead ring d s) := by
  unfold execCounterRead
  repeat' (first | with_reducible assumption | with_reducible exact Moves.refl _ _ | with_reducible exact rfl | exact rfl |  (intro _) | with_reducible refine accept_moves ?_ ?_ ?_ | with_reducible refine copyOut_moves ?_ ?_ | with_reducible refine clearCounters_moves ?_ ?_ | with_reducible refine Runs.next ?_ | with_reducible refine ite_moves ?_ ?_ | with_reducible refine ite_snd_moves ?_ ?_ | with_reducible refine ite_fst_moves ?_ ?_ | split | refine fst_of_eq (by assumption) ?_ | refine snd_of_eq (by assumption) ?_ | dsimp only)

theorem settleWaits_moves {ll ss} {s : State} (hh : Moves ll ss s) (hsub : sub [.host, .stats, .ports, .frames, .reorder, .blockCounts, .meters, .pools, .tandem, .dropping, .intake, .tills, .ctxs, .faults, .relays, .jobFree, .fresh] ll = true) :
    Moves ll ss (settleWaits s) := by
  refine hh.trans ?_ hsub; unfold settleWaits
  repeat' (first | with_reducible assumption | with_reducible exact Moves.refl _ _ | with_reducible exact rfl | exact rfl |  (intro _) | with_reducible refine setTill_moves ?_ ?_ | with_reducible refine jobWait_moves ?_ ?_ | with_reducible refine passed_moves ?_ ?_ | with_reducible refine setCtx_moves ?_ ?_ | with_reducible refine ready_moves ?_ ?_ | with_reducible refine setRelay_moves ?_ ?_ | with_reducible refine foldl_moves ?_ ?_ | with_reducible refine foldl_fst_moves ?_ ?_ | with_reducible refine ite_moves ?_ ?_ | with_reducible refine ite_snd_moves ?_ ?_ | with_reducible refine ite_fst_moves ?_ ?_ | split | refine fst_of_eq (by assumption) ?_ | refine snd_of_eq (by assumption) ?_ | dsimp only)

theorem execFreewheelRead_moves {ring : BitVec 6} {d : Desc} {s : State} : Runs [.host, .stats, .ports, .frames, .reorder, .blockCounts, .meters, .pools, .tandem, .dropping, .intake, .tills, .ctxs, .faults, .relays, .jobFree, .fresh] s (execFreewheelRead ring d s) := by
  unfold execFreewheelRead
  repeat' (first | with_reducible assumption | with_reducible exact Moves.refl _ _ | with_reducible exact rfl | exact rfl |  (intro _) | with_reducible refine accept_moves ?_ ?_ ?_ | with_reducible refine complete_moves ?_ ?_ | with_reducible refine settleWaits_moves ?_ ?_ | with_reducible refine mapPorts_moves ?_ ?_ | with_reducible refine copyOut_moves ?_ ?_ | with_reducible refine Runs.next ?_ | with_reducible refine ite_moves ?_ ?_ | with_reducible refine ite_snd_moves ?_ ?_ | with_reducible refine ite_fst_moves ?_ ?_ | split | refine fst_of_eq (by assumption) ?_ | refine snd_of_eq (by assumption) ?_ | with_reducible refine upd_jobFree ?_ ?_ | dsimp only)

theorem execTossRead_moves {ring : BitVec 6} {d : Desc} {s : State} : Runs [.host, .stats, .toss, .fresh] s (execTossRead ring d s) := by
  unfold execTossRead
  repeat' (first | with_reducible assumption | with_reducible exact Moves.refl _ _ | with_reducible exact rfl | exact rfl |  (intro _) | with_reducible refine accept_moves ?_ ?_ ?_ | with_reducible refine copyOut_moves ?_ ?_ | with_reducible refine toss_moves ?_ ?_ | with_reducible refine Runs.next ?_ | with_reducible refine ite_moves ?_ ?_ | with_reducible refine ite_snd_moves ?_ ?_ | with_reducible refine ite_fst_moves ?_ ?_ | split | refine fst_of_eq (by assumption) ?_ | refine snd_of_eq (by assumption) ?_ | with_reducible refine upd_toss ?_ ?_ | dsimp only)

theorem execReceiptRead_moves {ring : BitVec 6} {d : Desc} {s : State} : Runs [.host, .stats, .fresh] s (execReceiptRead ring d s) := by
  unfold execReceiptRead
  repeat' (first | with_reducible assumption | with_reducible exact Moves.refl _ _ | with_reducible exact rfl | exact rfl |  (intro _) | with_reducible refine accept_moves ?_ ?_ ?_ | with_reducible refine complete_moves ?_ ?_ | with_reducible refine copyOut_moves ?_ ?_ | with_reducible refine Runs.next ?_ | with_reducible refine ite_moves ?_ ?_ | with_reducible refine ite_snd_moves ?_ ?_ | with_reducible refine ite_fst_moves ?_ ?_ | split | refine fst_of_eq (by assumption) ?_ | refine snd_of_eq (by assumption) ?_ | dsimp only)

end Sys2Proof.Laws
end

