-- ==== Sys2Proof/Laws/Moves/Slabs.lean ====
section
/-! SUPPORT. What the operations of Machine/Slabs.lean may change: one lemma each. -/

set_option linter.unusedTactic false
set_option linter.unreachableTactic false
set_option linter.unusedVariables false

namespace Sys2Proof.Laws

open Sys2Proof.Machine Sys2Proof.Safety

theorem setFree_moves {ll ss} {s : State} {c : Nat} {free : List Block} (hh : Moves ll ss s) (hsub : sub [.pools] ll = true) :
    Moves ll ss (setFree s c free) := by
  refine hh.trans ?_ hsub; unfold setFree
  repeat' (first | with_reducible assumption | with_reducible exact Moves.refl _ _ | with_reducible exact rfl | exact rfl |  (intro _) | with_reducible refine ite_moves ?_ ?_ | with_reducible refine ite_snd_moves ?_ ?_ | with_reducible refine ite_fst_moves ?_ ?_ | split | refine fst_of_eq (by assumption) ?_ | refine snd_of_eq (by assumption) ?_ | with_reducible refine upd_pools ?_ ?_ | dsimp only)

theorem fenceSlab_moves {ll ss} {s : State} {q c : Nat} {b : Block} (hh : Moves ll ss s) (hsub : sub [.host, .stats, .pools, .faults, .fresh] ll = true) :
    Moves ll ss (fenceSlab s q c b) := by
  refine hh.trans ?_ hsub; unfold fenceSlab
  repeat' (first | with_reducible assumption | with_reducible exact Moves.refl _ _ | with_reducible exact rfl | exact rfl |  (intro _) | with_reducible refine poolFault_moves ?_ ?_ | with_reducible refine ite_moves ?_ ?_ | with_reducible refine ite_snd_moves ?_ ?_ | with_reducible refine ite_fst_moves ?_ ?_ | split | refine fst_of_eq (by assumption) ?_ | refine snd_of_eq (by assumption) ?_ | with_reducible refine upd_pools_faults ?_ ?_ | dsimp only)

theorem takeSlab_moves {l s0} {k q c z : Nat} {s t : State} {b : Block} (h : Moves l s0 s)
    (hs : sub [.host, .stats, .pools, .faults, .fresh] l = true) (e : takeSlab k s q c z = some (t, b)) : Moves l s0 t := by
  have hu {m : List Area} (hm : sub m [.host, .stats, .pools, .faults, .fresh] = true) : sub m l = true := sub_trans hm hs
  induction k generalizing s with
  | zero => cases e
  | succ k ih =>
    unfold takeSlab at e
    split at e
    · cases e
    · dsimp only at e
      split at e
      · cases e; exact setFree_moves h (hu rfl)
      · exact ih (fenceSlab_moves (setFree_moves h (hu rfl)) (hu rfl)) e

theorem takeSlabs_moves {l s0} {q : Nat} {s t : State} {n : List (Nat × Nat)} {r : List (Nat × Block)} (h : Moves l s0 s)
    (hs : sub [.host, .stats, .pools, .faults, .fresh] l = true) (e : takeSlabs q s n = some (t, r)) : Moves l s0 t := by
  induction n generalizing s r with
  | nil => cases e; exact h
  | cons x n ih =>
    unfold takeSlabs at e
    split at e
    · cases e
    · next h1 =>
      split at e
      · cases e
      · next h2 => cases e; exact ih (takeSlab_moves h hs h1) h2

theorem grantSlabs_moves {l s0} {s t : State} {q : Nat} {n : List (Nat × Nat)} {r : List (Nat × Block)} (h : Moves l s0 s)
    (hs : sub [.host, .stats, .pools, .faults, .fresh] l = true) (e : grantSlabs s q n = some (t, r)) : Moves l s0 t := by
  unfold grantSlabs at e
  dsimp only at e
  split at e
  · obtain ⟨x, hx, hy⟩ := Option.map_eq_some_iff.1 e
    cases hy; exact addUse_moves (takeSlabs_moves h hs hx) (sub_trans rfl hs)
  · cases e

theorem giveSlab_moves {ll ss} {s : State} {q : Nat} {e : Nat × Block} (hh : Moves ll ss s) (hsub : sub [.host, .stats, .pools, .faults, .fresh] ll = true) :
    Moves ll ss (giveSlab s q e) := by
  refine hh.trans ?_ hsub; unfold giveSlab
  repeat' (first | with_reducible assumption | with_reducible exact Moves.refl _ _ | with_reducible exact rfl | exact rfl |  (intro _) | with_reducible refine poolFault_moves ?_ ?_ | with_reducible refine setFree_moves ?_ ?_ | with_reducible refine subUse_moves ?_ ?_ | with_reducible refine ite_moves ?_ ?_ | with_reducible refine ite_snd_moves ?_ ?_ | with_reducible refine ite_fst_moves ?_ ?_ | split | refine fst_of_eq (by assumption) ?_ | refine snd_of_eq (by assumption) ?_ | with_reducible refine upd_faults ?_ ?_ | dsimp only)

theorem freeSlabs_moves {ll ss} {s : State} {q : Nat} {l : List (Nat × Block)} (hh : Moves ll ss s) (hsub : sub [.host, .stats, .pools, .faults, .fresh] ll = true) :
    Moves ll ss (freeSlabs s q l) := by
  refine hh.trans ?_ hsub; unfold freeSlabs
  repeat' (first | with_reducible assumption | with_reducible exact Moves.refl _ _ | with_reducible exact rfl | exact rfl |  (intro _) | with_reducible refine giveSlab_moves ?_ ?_ | with_reducible refine foldl_moves ?_ ?_ | with_reducible refine foldl_fst_moves ?_ ?_ | with_reducible refine ite_moves ?_ ?_ | with_reducible refine ite_snd_moves ?_ ?_ | with_reducible refine ite_fst_moves ?_ ?_ | split | refine fst_of_eq (by assumption) ?_ | refine snd_of_eq (by assumption) ?_ | dsimp only)

end Sys2Proof.Laws
end

