-- ==== Sys2Proof/Laws/Moves/Fabric.lean ====
section
/-! SUPPORT. What the operations of Machine/Fabric.lean may change: one lemma each. -/

set_option linter.unusedTactic false
set_option linter.unreachableTactic false
set_option linter.unusedVariables false

namespace Sys2Proof.Laws

open Sys2Proof.Machine Sys2Proof.Safety

theorem addCrossing_moves {ll ss} {s : State} {x : Crossing} (hh : Moves ll ss s) (hsub : sub [.bridge] ll = true) :
    Moves ll ss (addCrossing s x) := by
  refine hh.trans ?_ hsub; unfold addCrossing
  repeat' (first | with_reducible assumption | with_reducible exact Moves.refl _ _ | with_reducible exact rfl | exact rfl |  (intro _) | with_reducible refine ite_moves ?_ ?_ | with_reducible refine ite_snd_moves ?_ ?_ | with_reducible refine ite_fst_moves ?_ ?_ | split | refine fst_of_eq (by assumption) ?_ | refine snd_of_eq (by assumption) ?_ | with_reducible refine upd_bridge ?_ ?_ | dsimp only)

theorem clearFault_moves {ll ss} {s : State} {k n space place : Nat} (hh : Moves ll ss s) (hsub : sub [.faults] ll = true) :
    Moves ll ss (clearFault s k n space place) := by
  refine hh.trans ?_ hsub; unfold clearFault
  repeat' (first | with_reducible assumption | with_reducible exact Moves.refl _ _ | with_reducible exact rfl | exact rfl |  (intro _) | with_reducible refine ite_moves ?_ ?_ | with_reducible refine ite_snd_moves ?_ ?_ | with_reducible refine ite_fst_moves ?_ ?_ | split | refine fst_of_eq (by assumption) ?_ | refine snd_of_eq (by assumption) ?_ | with_reducible refine upd_faults ?_ ?_ | dsimp only)

theorem lastingFault_moves {ll ss} {s : State} {n : Nat} {r : Region} {k page i : Nat} {twin : Bool} (hh : Moves ll ss s) (hsub : sub [.host, .stats, .blockCounts, .hbm, .fresh] ll = true) :
    Moves ll ss (lastingFault s n r k page i twin) := by
  refine hh.trans ?_ hsub; unfold lastingFault
  repeat' (first | with_reducible assumption | with_reducible exact Moves.refl _ _ | with_reducible exact rfl | exact rfl |  (intro _) | with_reducible refine countBlock_moves ?_ ?_ | with_reducible refine setCause_moves ?_ ?_ | with_reducible refine setRegion_moves ?_ ?_ | with_reducible refine postEvent_moves ?_ ?_ | with_reducible refine ite_moves ?_ ?_ | with_reducible refine ite_snd_moves ?_ ?_ | with_reducible refine ite_fst_moves ?_ ?_ | split | refine fst_of_eq (by assumption) ?_ | refine snd_of_eq (by assumption) ?_ | dsimp only)

theorem readUnit_moves {ll ss} {s : State} {n space place kind : Nat} {twinBad : Bool} (hh : Moves ll ss s) (hsub : sub [.host, .stats, .blockCounts, .hbm, .faults, .fresh] ll = true) :
    Moves ll ss (readUnit s n space place kind twinBad).1 := by
  refine hh.trans ?_ hsub; unfold readUnit
  repeat' (first | with_reducible assumption | with_reducible exact Moves.refl _ _ | with_reducible exact rfl | exact rfl |  (intro _) | with_reducible refine countBlock_moves ?_ ?_ | with_reducible refine setCause_moves ?_ ?_ | with_reducible refine clearFault_moves ?_ ?_ | with_reducible refine lastingFault_moves ?_ ?_ | with_reducible refine ite_moves ?_ ?_ | with_reducible refine ite_snd_moves ?_ ?_ | with_reducible refine ite_fst_moves ?_ ?_ | split | refine fst_of_eq (by assumption) ?_ | refine snd_of_eq (by assumption) ?_ | dsimp only)

theorem detect_moves {ll ss} {s : State} {n space first count : Nat} {chk : ReadCheck} (hh : Moves ll ss s) (hsub : sub [.host, .stats, .blockCounts, .hbm, .faults, .fresh] ll = true) :
    Moves ll ss (detect s n space first count chk).1 := by
  refine hh.trans ?_ hsub; unfold detect
  repeat' (first | with_reducible assumption | with_reducible exact Moves.refl _ _ | with_reducible exact rfl | exact rfl |  (intro _) | with_reducible refine readUnit_moves ?_ ?_ | with_reducible refine foldl_moves ?_ ?_ | with_reducible refine foldl_fst_moves ?_ ?_ | with_reducible refine ite_moves ?_ ?_ | with_reducible refine ite_snd_moves ?_ ?_ | with_reducible refine ite_fst_moves ?_ ?_ | split | refine fst_of_eq (by assumption) ?_ | refine snd_of_eq (by assumption) ?_ | dsimp only)

theorem accessCheck_moves {ll ss} {s : State} {a : Access} {chk : ReadCheck} (hh : Moves ll ss s) (hsub : sub [.host, .stats, .blockCounts, .hbm, .faults, .fresh] ll = true) :
    Moves ll ss (accessCheck s a chk).1 := by
  refine hh.trans ?_ hsub; unfold accessCheck
  repeat' (first | with_reducible assumption | with_reducible exact Moves.refl _ _ | with_reducible exact rfl | exact rfl |  (intro _) | with_reducible refine detect_moves ?_ ?_ | with_reducible refine ite_moves ?_ ?_ | with_reducible refine ite_snd_moves ?_ ?_ | with_reducible refine ite_fst_moves ?_ ?_ | split | refine fst_of_eq (by assumption) ?_ | refine snd_of_eq (by assumption) ?_ | dsimp only)

theorem accessChecks_moves {ll ss} {s : State} {l : List Access} {chk : ReadCheck} (hh : Moves ll ss s) (hsub : sub [.host, .stats, .blockCounts, .hbm, .faults, .fresh] ll = true) :
    Moves ll ss (accessChecks s l chk).1 := by
  refine hh.trans ?_ hsub; unfold accessChecks
  repeat' (first | with_reducible assumption | with_reducible exact Moves.refl _ _ | with_reducible exact rfl | exact rfl |  (intro _) | with_reducible refine accessCheck_moves ?_ ?_ | with_reducible refine foldl_moves ?_ ?_ | with_reducible refine foldl_fst_moves ?_ ?_ | with_reducible refine ite_moves ?_ ?_ | with_reducible refine ite_snd_moves ?_ ?_ | with_reducible refine ite_fst_moves ?_ ?_ | split | refine fst_of_eq (by assumption) ?_ | refine snd_of_eq (by assumption) ?_ | dsimp only)

theorem landAll_wf {m : Sparse Byte} {l : List MemWrite} (h : Memory.wf m = true) : Memory.wf (landAll m l) = true := by
  unfold landAll
  induction l generalizing m with
  | nil => exact h
  | cons j l ih => exact ih (memWrite_wf h)

theorem landWrites_moves {ll ss} {s : State} (hh : Moves ll ss s) (hsub : sub [.mem, .hbm] ll = true) :
    Moves ll ss (landWrites s) := by
  refine hh.trans ?_ hsub; unfold landWrites
  dsimp only
  split
  · exact Moves.refl _ _
  · exact ⟨fun p hp => by cases p <;> first | rfl | exact absurd (by decide) hp, landAll_wf, id⟩

theorem accessWrite_moves {ll ss} {s : State} {region off : Nat} {data : List Byte} (hh : Moves ll ss s)
    (hsub : sub [.mem, .hbm] ll = true) : Moves ll ss (accessWrite s region off data) :=
  hh.trans ⟨fun p hp => by cases p <;> first | rfl | exact absurd (by decide) hp, fun h => memWrite_wf (landAll_wf h), id⟩ hsub

theorem memAnswer_moves {ll ss} {s : State} {h : Header} {status : Nat} {data : List Byte} {ready : Nat → Nat} (hh : Moves ll ss s) (hsub : sub [.host, .stats, .ports, .frames, .stalled, .blockCounts, .pools, .intake, .faults, .fresh] ll = true) :
    Moves ll ss (memAnswer s h status data ready) := by
  refine hh.trans ?_ hsub; unfold memAnswer
  repeat' (first | with_reducible assumption | with_reducible exact Moves.refl _ _ | with_reducible exact rfl | exact rfl |  (intro _) | with_reducible refine sendOwn_moves ?_ ?_ | with_reducible refine ready_moves ?_ ?_ | with_reducible refine ite_moves ?_ ?_ | with_reducible refine ite_snd_moves ?_ ?_ | with_reducible refine ite_fst_moves ?_ ?_ | split | refine fst_of_eq (by assumption) ?_ | refine snd_of_eq (by assumption) ?_ | dsimp only)

theorem answerParked_moves {ll ss} {s : State} {n : Nat} {status : Nat} (hh : Moves ll ss s) (hsub : sub [.host, .stats, .ports, .frames, .stalled, .blockCounts, .pools, .intake, .hbm, .faults, .fresh] ll = true) :
    Moves ll ss (answerParked s n status) := by
  refine hh.trans ?_ hsub; unfold answerParked
  repeat' (first | with_reducible assumption | with_reducible exact Moves.refl _ _ | with_reducible exact rfl | exact rfl |  (intro _) | with_reducible refine setRegion_moves ?_ ?_ | with_reducible refine memAnswer_moves ?_ ?_ | with_reducible refine accessCheck_moves ?_ ?_ | with_reducible refine foldl_moves ?_ ?_ | with_reducible refine foldl_fst_moves ?_ ?_ | with_reducible refine ite_moves ?_ ?_ | with_reducible refine ite_snd_moves ?_ ?_ | with_reducible refine ite_fst_moves ?_ ?_ | split | refine fst_of_eq (by assumption) ?_ | refine snd_of_eq (by assumption) ?_ | dsimp only)

theorem makeCurrent_moves {ll ss} {s : State} {n : Nat} {v : W16} (hh : Moves ll ss s) (hsub : sub [.host, .stats, .ports, .frames, .stalled, .blockCounts, .pools, .intake, .hbm, .faults, .fresh] ll = true) :
    Moves ll ss (makeCurrent s n v) := by
  refine hh.trans ?_ hsub; unfold makeCurrent
  repeat' (first | with_reducible assumption | with_reducible exact Moves.refl _ _ | with_reducible exact rfl | exact rfl |  (intro _) | with_reducible refine answerParked_moves ?_ ?_ | with_reducible refine setRegion_moves ?_ ?_ | with_reducible refine ite_moves ?_ ?_ | with_reducible refine ite_snd_moves ?_ ?_ | with_reducible refine ite_fst_moves ?_ ?_ | split | refine fst_of_eq (by assumption) ?_ | refine snd_of_eq (by assumption) ?_ | dsimp only)

theorem versionCycle_moves {ll ss} {s : State} (hh : Moves ll ss s) (hsub : sub [.host, .stats, .ports, .frames, .stalled, .blockCounts, .pools, .intake, .hbm, .faults, .fresh] ll = true) :
    Moves ll ss (versionCycle s) := by
  refine hh.trans ?_ hsub; unfold versionCycle
  repeat' (first | with_reducible assumption | with_reducible exact Moves.refl _ _ | with_reducible exact rfl | exact rfl |  (intro _) | with_reducible refine makeCurrent_moves ?_ ?_ | with_reducible refine setRegion_moves ?_ ?_ | with_reducible refine foldl_moves ?_ ?_ | with_reducible refine foldl_fst_moves ?_ ?_ | with_reducible refine ite_moves ?_ ?_ | with_reducible refine ite_snd_moves ?_ ?_ | with_reducible refine ite_fst_moves ?_ ?_ | split | refine fst_of_eq (by assumption) ?_ | refine snd_of_eq (by assumption) ?_ | dsimp only)

theorem unbind_moves {ll ss} {s : State} {w : List W64} (hh : Moves ll ss s) (hsub : sub [.host, .stats, .ports, .frames, .stalled, .blockCounts, .pools, .intake, .hbm, .faults, .fresh] ll = true) :
    Moves ll ss (unbind s w) := by
  refine hh.trans ?_ hsub; unfold unbind
  repeat' (first | with_reducible assumption | with_reducible exact Moves.refl _ _ | with_reducible exact rfl | exact rfl |  (intro _) | with_reducible refine answerParked_moves ?_ ?_ | with_reducible refine ite_moves ?_ ?_ | with_reducible refine ite_snd_moves ?_ ?_ | with_reducible refine ite_fst_moves ?_ ?_ | split | refine fst_of_eq (by assumption) ?_ | refine snd_of_eq (by assumption) ?_ | dsimp only)

theorem sendRequest_moves {ll ss} {s : State} {for_ : MemFor} {place a len job cls : Nat} {data : Option (List Byte)} {again : Bool} (hh : Moves ll ss s) (hsub : sub [.host, .stats, .ports, .frames, .stalled, .blockCounts, .pools, .intake, .hbm, .faults, .fresh] ll = true) :
    Moves ll ss (sendRequest s for_ place a len job cls data again) := by
  refine hh.trans ?_ hsub; unfold sendRequest
  repeat' (first | with_reducible assumption | with_reducible exact Moves.refl _ _ | with_reducible exact rfl | exact rfl |  (intro _) | with_reducible refine sendOwn_moves ?_ ?_ | with_reducible refine ite_moves ?_ ?_ | with_reducible refine ite_snd_moves ?_ ?_ | with_reducible refine ite_fst_moves ?_ ?_ | split | refine fst_of_eq (by assumption) ?_ | refine snd_of_eq (by assumption) ?_ | with_reducible refine upd_hbm ?_ ?_ rfl | dsimp only)

end Sys2Proof.Laws
end

