-- ==== Sys2Proof/Laws/Moves/Programs.lean ====
section
/-! SUPPORT. What the operations of Machine/Programs.lean may change: one lemma each. -/

set_option linter.unusedTactic false
set_option linter.unreachableTactic false
set_option linter.unusedVariables false

namespace Sys2Proof.Laws

open Sys2Proof.Machine Sys2Proof.Safety

theorem execProgLoad_moves {ring : BitVec 6} {d : Desc} {image : List Byte} {s : State} : Runs [.host, .stats, .progs, .fresh] s (execProgLoad ring d image s) := by
  unfold execProgLoad
  repeat' (first | with_reducible assumption | with_reducible exact Moves.refl _ _ | with_reducible exact rfl | exact rfl |  (intro _) | with_reducible refine accept_moves ?_ ?_ ?_ | with_reducible refine complete_moves ?_ ?_ | with_reducible refine takeFresh_moves ?_ ?_ | with_reducible refine Runs.next ?_ | with_reducible refine ite_moves ?_ ?_ | with_reducible refine ite_snd_moves ?_ ?_ | with_reducible refine ite_fst_moves ?_ ?_ | split | refine fst_of_eq (by assumption) ?_ | refine snd_of_eq (by assumption) ?_ | with_reducible refine upd_progs ?_ ?_ | dsimp only)

theorem progCycle_moves {ll ss} {s : State} (hh : Moves ll ss s) (hsub : sub [.host, .progs, .ledger] ll = true) :
    Moves ll ss (progCycle s) := by
  refine hh.trans ?_ hsub; unfold progCycle
  repeat' (first | with_reducible assumption | with_reducible exact Moves.refl _ _ | with_reducible exact rfl | exact rfl |  (intro _) | with_reducible refine record_moves ?_ ?_ | with_reducible refine complete_moves ?_ ?_ | with_reducible refine foldl_moves ?_ ?_ | with_reducible refine foldl_fst_moves ?_ ?_ | with_reducible refine ite_moves ?_ ?_ | with_reducible refine ite_snd_moves ?_ ?_ | with_reducible refine ite_fst_moves ?_ ?_ | split | refine fst_of_eq (by assumption) ?_ | refine snd_of_eq (by assumption) ?_ | with_reducible refine upd_progs ?_ ?_ | dsimp only)

theorem execProgUnload_moves {ring : BitVec 6} {d : Desc} {s : State} : Runs [.host, .stats, .progs, .ledger, .fresh] s (execProgUnload ring d s) := by
  unfold execProgUnload
  repeat' (first | with_reducible assumption | with_reducible exact Moves.refl _ _ | with_reducible exact rfl | exact rfl |  (intro _) | with_reducible refine accept_moves ?_ ?_ ?_ | with_reducible refine complete_moves ?_ ?_ | with_reducible refine record_moves ?_ ?_ | with_reducible refine Runs.next ?_ | with_reducible refine ite_moves ?_ ?_ | with_reducible refine ite_snd_moves ?_ ?_ | with_reducible refine ite_fst_moves ?_ ?_ | split | refine fst_of_eq (by assumption) ?_ | refine snd_of_eq (by assumption) ?_ | with_reducible refine upd_progs ?_ ?_ | dsimp only)

end Sys2Proof.Laws
end

