-- ==== Sys2Proof/Laws/Moves/TillCheck.lean ====
section
/-! SUPPORT. What the operations of Machine/TillCheck.lean may change: one lemma each. -/

set_option linter.unusedTactic false
set_option linter.unreachableTactic false
set_option linter.unusedVariables false

namespace Sys2Proof.Laws

open Sys2Proof.Machine Sys2Proof.Safety

theorem scratchTake_moves {ll ss} {s : State} {l : List (Nat × Nat)} (hh : Moves ll ss s) (hsub : sub [.tiles] ll = true) :
    Moves ll ss (scratchTake s l) := by
  refine hh.trans ?_ hsub; unfold scratchTake
  repeat' (first | with_reducible assumption | with_reducible exact Moves.refl _ _ | with_reducible exact rfl | exact rfl |  (intro _) | with_reducible refine foldl_moves ?_ ?_ | with_reducible refine foldl_fst_moves ?_ ?_ | with_reducible refine ite_moves ?_ ?_ | with_reducible refine ite_snd_moves ?_ ?_ | with_reducible refine ite_fst_moves ?_ ?_ | split | refine fst_of_eq (by assumption) ?_ | refine snd_of_eq (by assumption) ?_ | with_reducible refine upd_tiles ?_ ?_ | dsimp only)

theorem scratchGive_moves {ll ss} {s : State} {l : List (Nat × Nat)} (hh : Moves ll ss s) (hsub : sub [.tiles] ll = true) :
    Moves ll ss (scratchGive s l) := by
  refine hh.trans ?_ hsub; unfold scratchGive
  repeat' (first | with_reducible assumption | with_reducible exact Moves.refl _ _ | with_reducible exact rfl | exact rfl |  (intro _) | with_reducible refine foldl_moves ?_ ?_ | with_reducible refine foldl_fst_moves ?_ ?_ | with_reducible refine ite_moves ?_ ?_ | with_reducible refine ite_snd_moves ?_ ?_ | with_reducible refine ite_fst_moves ?_ ?_ | split | refine fst_of_eq (by assumption) ?_ | refine snd_of_eq (by assumption) ?_ | with_reducible refine upd_tiles ?_ ?_ | dsimp only)

end Sys2Proof.Laws
end

