-- ==== Sys2Proof/Laws/Moves/Tills.lean ====
section
/-! SUPPORT. What the operations of Machine/Tills.lean may change: one lemma each. -/

set_option linter.unusedTactic false
set_option linter.unreachableTactic false
set_option linter.unusedVariables false

namespace Sys2Proof.Laws

open Sys2Proof.Machine Sys2Proof.Safety

theorem modTill_moves {ll ss} {s : State} {n : Nat} {f : Till → Till} (hh : Moves ll ss s) (hsub : sub [.tills] ll = true) :
    Moves ll ss (modTill s n f) := by
  refine hh.trans ?_ hsub; unfold modTill
  repeat' (first | with_reducible assumption | with_reducible exact Moves.refl _ _ | with_reducible exact rfl | exact rfl |  (intro _) | with_reducible refine setTill_moves ?_ ?_ | with_reducible refine ite_moves ?_ ?_ | with_reducible refine ite_snd_moves ?_ ?_ | with_reducible refine ite_fst_moves ?_ ?_ | split | refine fst_of_eq (by assumption) ?_ | refine snd_of_eq (by assumption) ?_ | dsimp only)

theorem modChunk_moves {ll ss} {s : State} {n k : Nat} {f : Chunk → Chunk} (hh : Moves ll ss s) (hsub : sub [.tills] ll = true) :
    Moves ll ss (modChunk s n k f) := by
  refine hh.trans ?_ hsub; unfold modChunk
  repeat' (first | with_reducible assumption | with_reducible exact Moves.refl _ _ | with_reducible exact rfl | exact rfl |  (intro _) | with_reducible refine modTill_moves ?_ ?_ | with_reducible refine ite_moves ?_ ?_ | with_reducible refine ite_snd_moves ?_ ?_ | with_reducible refine ite_fst_moves ?_ ?_ | split | refine fst_of_eq (by assumption) ?_ | refine snd_of_eq (by assumption) ?_ | dsimp only)

theorem returnSlots_moves {ll ss} {s : State} {key : Nat} {r : Running} (hh : Moves ll ss s) (hsub : sub [.ctxs] ll = true) :
    Moves ll ss (returnSlots s key r) := by
  refine hh.trans ?_ hsub; unfold returnSlots
  repeat' (first | with_reducible assumption | with_reducible exact Moves.refl _ _ | with_reducible exact rfl | exact rfl |  (intro _) | with_reducible refine setCtx_moves ?_ ?_ | with_reducible refine ite_moves ?_ ?_ | with_reducible refine ite_snd_moves ?_ ?_ | with_reducible refine ite_fst_moves ?_ ?_ | split | refine fst_of_eq (by assumption) ?_ | refine snd_of_eq (by assumption) ?_ | dsimp only)

theorem stopRun_moves {ll ss} {s : State} {key : Nat} (hh : Moves ll ss s) (hsub : sub [.ctxs] ll = true) :
    Moves ll ss (stopRun s key) := by
  refine hh.trans ?_ hsub; unfold stopRun
  repeat' (first | with_reducible assumption | with_reducible exact Moves.refl _ _ | with_reducible exact rfl | exact rfl |  (intro _) | with_reducible refine returnSlots_moves ?_ ?_ | with_reducible refine setCtx_moves ?_ ?_ | with_reducible refine ite_moves ?_ ?_ | with_reducible refine ite_snd_moves ?_ ?_ | with_reducible refine ite_fst_moves ?_ ?_ | split | refine fst_of_eq (by assumption) ?_ | refine snd_of_eq (by assumption) ?_ | dsimp only)

theorem stopRunning_moves {ll ss} {s : State} {n : Nat} {t : Till} {k : Nat} (hh : Moves ll ss s) (hsub : sub [.ctxs] ll = true) :
    Moves ll ss (stopRunning s n t k) := by
  refine hh.trans ?_ hsub; unfold stopRunning
  repeat' (first | with_reducible assumption | with_reducible exact Moves.refl _ _ | with_reducible exact rfl | exact rfl |  (intro _) | with_reducible refine stopRun_moves ?_ ?_ | with_reducible refine ite_moves ?_ ?_ | with_reducible refine ite_snd_moves ?_ ?_ | with_reducible refine ite_fst_moves ?_ ?_ | split | refine fst_of_eq (by assumption) ?_ | refine snd_of_eq (by assumption) ?_ | dsimp only)

theorem passWaited_moves {ll ss} {s : State} {job : Nat} {p : Pass} (hh : Moves ll ss s) (hsub : sub [.jobFree] ll = true) :
    Moves ll ss (passWaited s job p) := by
  refine hh.trans ?_ hsub; unfold passWaited
  repeat' (first | with_reducible assumption | with_reducible exact Moves.refl _ _ | with_reducible exact rfl | exact rfl |  (intro _) | with_reducible refine jobWait_moves ?_ ?_ | with_reducible refine ite_moves ?_ ?_ | with_reducible refine ite_snd_moves ?_ ?_ | with_reducible refine ite_fst_moves ?_ ?_ | split | refine fst_of_eq (by assumption) ?_ | refine snd_of_eq (by assumption) ?_ | dsimp only)

theorem abandonPass_moves {ll ss} {s : State} {n : Nat} {t : Till} {k : Nat} (hh : Moves ll ss s) (hsub : sub [.host, .ctxs, .jobFree] ll = true) :
    Moves ll ss (abandonPass s n t k) := by
  refine hh.trans ?_ hsub; unfold abandonPass
  repeat' (first | with_reducible assumption | with_reducible exact Moves.refl _ _ | with_reducible exact rfl | exact rfl |  (intro _) | with_reducible refine stopRunning_moves ?_ ?_ | with_reducible refine passWaited_moves ?_ ?_ | with_reducible refine setCtx_moves ?_ ?_ | with_reducible refine ready_moves ?_ ?_ | with_reducible refine foldl_moves ?_ ?_ | with_reducible refine foldl_fst_moves ?_ ?_ | with_reducible refine ite_moves ?_ ?_ | with_reducible refine ite_snd_moves ?_ ?_ | with_reducible refine ite_fst_moves ?_ ?_ | split | refine fst_of_eq (by assumption) ?_ | refine snd_of_eq (by assumption) ?_ | dsimp only)

theorem pushPass_moves {ll ss} {s : State} {n : Nat} {t : Till} {k : Nat} (hh : Moves ll ss s) (hsub : sub [.host, .ctxs] ll = true) :
    Moves ll ss (pushPass s n t k) := by
  refine hh.trans ?_ hsub; unfold pushPass
  repeat' (first | with_reducible assumption | with_reducible exact Moves.refl _ _ | with_reducible exact rfl | exact rfl |  (intro _) | with_reducible refine setCtx_moves ?_ ?_ | with_reducible refine ready_moves ?_ ?_ | with_reducible refine ite_moves ?_ ?_ | with_reducible refine ite_snd_moves ?_ ?_ | with_reducible refine ite_fst_moves ?_ ?_ | split | refine fst_of_eq (by assumption) ?_ | refine snd_of_eq (by assumption) ?_ | dsimp only)

theorem sendResults_moves {ll ss} {s : State} {n : Nat} {t : Till} {k : Nat} {e : W16} {f group : Nat} {ranks scatter : Bool} {blocks : List (Blk × List Nat)} {ready : Nat → Nat} (hh : Moves ll ss s) (hsub : sub [.host, .stats, .ports, .frames, .stalled, .blockCounts, .pools, .intake, .faults, .fresh] ll = true) :
    Moves ll ss (sendResults s n t k e f group ranks scatter blocks ready) := by
  refine hh.trans ?_ hsub; unfold sendResults
  repeat' (first | with_reducible assumption | with_reducible exact Moves.refl _ _ | with_reducible exact rfl | exact rfl |  (intro _) | with_reducible refine sendGroup_moves ?_ ?_ | with_reducible refine ready_moves ?_ ?_ | with_reducible refine sendOwn_moves ?_ ?_ | with_reducible refine foldl_moves ?_ ?_ | with_reducible refine foldl_fst_moves ?_ ?_ | with_reducible refine ite_moves ?_ ?_ | with_reducible refine ite_snd_moves ?_ ?_ | with_reducible refine ite_fst_moves ?_ ?_ | split | refine fst_of_eq (by assumption) ?_ | refine snd_of_eq (by assumption) ?_ | dsimp only)

theorem sendResend_moves {ll ss} {s : State} {n : Nat} {t : Till} {i : Nat} {e : W16} {offset nblk : Nat} {summary : Bool} (hh : Moves ll ss s) (hsub : sub [.host, .stats, .ports, .frames, .stalled, .blockCounts, .pools, .intake, .faults, .fresh] ll = true) :
    Moves ll ss (sendResend s n t i e offset nblk summary) := by
  refine hh.trans ?_ hsub; unfold sendResend
  repeat' (first | with_reducible assumption | with_reducible exact Moves.refl _ _ | with_reducible exact rfl | exact rfl |  (intro _) | with_reducible refine sendOwn_moves ?_ ?_ | with_reducible refine ite_moves ?_ ?_ | with_reducible refine ite_snd_moves ?_ ?_ | with_reducible refine ite_fst_moves ?_ ?_ | split | refine fst_of_eq (by assumption) ?_ | refine snd_of_eq (by assumption) ?_ | dsimp only)

theorem askResend_moves {ll ss} {s : State} {n k : Nat} {slots : List Nat} (hh : Moves ll ss s) (hsub : sub [.host, .stats, .ports, .frames, .stalled, .blockCounts, .pools, .intake, .tills, .faults, .fresh] ll = true) :
    Moves ll ss (askResend s n k slots) := by
  refine hh.trans ?_ hsub; unfold askResend
  repeat' (first | with_reducible assumption | with_reducible exact Moves.refl _ _ | with_reducible exact rfl | exact rfl |  (intro _) | with_reducible refine sendResend_moves ?_ ?_ | with_reducible refine modTill_moves ?_ ?_ | with_reducible refine foldl_moves ?_ ?_ | with_reducible refine foldl_fst_moves ?_ ?_ | with_reducible refine ite_moves ?_ ?_ | with_reducible refine ite_snd_moves ?_ ?_ | with_reducible refine ite_fst_moves ?_ ?_ | split | refine fst_of_eq (by assumption) ?_ | refine snd_of_eq (by assumption) ?_ | dsimp only)

theorem dropReads_moves {ll ss} {s : State} {n k : Nat} (hh : Moves ll ss s) (hsub : sub [.hbm] ll = true) :
    Moves ll ss (dropReads s n k) := by
  refine hh.trans ?_ hsub; unfold dropReads
  repeat' (first | with_reducible assumption | with_reducible exact Moves.refl _ _ | with_reducible exact rfl | exact rfl |  (intro _) | with_reducible refine ite_moves ?_ ?_ | with_reducible refine ite_snd_moves ?_ ?_ | with_reducible refine ite_fst_moves ?_ ?_ | split | refine fst_of_eq (by assumption) ?_ | refine snd_of_eq (by assumption) ?_ | with_reducible refine upd_hbm ?_ ?_ rfl | dsimp only)

theorem resetChunk_moves {ll ss} {s : State} {n k : Nat} (hh : Moves ll ss s) (hsub : sub [.host, .ports, .stalled, .dropping, .tills, .ctxs, .hbm, .jobFree] ll = true) :
    Moves ll ss (resetChunk s n k) := by
  refine hh.trans ?_ hsub; unfold resetChunk
  repeat' (first | with_reducible assumption | with_reducible exact Moves.refl _ _ | with_reducible exact rfl | exact rfl |  (intro _) | with_reducible refine dropReads_moves ?_ ?_ | with_reducible refine recallFrames_moves ?_ ?_ | with_reducible refine abandonPass_moves ?_ ?_ | with_reducible refine setTill_moves ?_ ?_ | with_reducible refine ite_moves ?_ ?_ | with_reducible refine ite_snd_moves ?_ ?_ | with_reducible refine ite_fst_moves ?_ ?_ | split | refine fst_of_eq (by assumption) ?_ | refine snd_of_eq (by assumption) ?_ | dsimp only)

theorem dropCommands_moves {ll ss} {s : State} {t : Till} (hh : Moves ll ss s) (hsub : sub [.host] ll = true) :
    Moves ll ss (dropCommands s t) := by
  refine hh.trans ?_ hsub; unfold dropCommands
  repeat' (first | with_reducible assumption | with_reducible exact Moves.refl _ _ | with_reducible exact rfl | exact rfl |  (intro _) | with_reducible refine complete_moves ?_ ?_ | with_reducible refine foldl_moves ?_ ?_ | with_reducible refine foldl_fst_moves ?_ ?_ | with_reducible refine ite_moves ?_ ?_ | with_reducible refine ite_snd_moves ?_ ?_ | with_reducible refine ite_fst_moves ?_ ?_ | split | refine fst_of_eq (by assumption) ?_ | refine snd_of_eq (by assumption) ?_ | dsimp only)

theorem returnSlabs_moves {ll ss} {s : State} {due q : Nat} {l : List (Nat × Block)} (hh : Moves ll ss s) (hsub : sub [.pools] ll = true) :
    Moves ll ss (returnSlabs s due q l) := by
  refine hh.trans ?_ hsub; unfold returnSlabs
  repeat' (first | with_reducible assumption | with_reducible exact Moves.refl _ _ | with_reducible exact rfl | exact rfl |  (intro _) | with_reducible refine ite_moves ?_ ?_ | with_reducible refine ite_snd_moves ?_ ?_ | with_reducible refine ite_fst_moves ?_ ?_ | split | refine fst_of_eq (by assumption) ?_ | refine snd_of_eq (by assumption) ?_ | with_reducible refine upd_pools ?_ ?_ | dsimp only)

theorem settleSlabs_moves {ll ss} {s : State} (hh : Moves ll ss s) (hsub : sub [.host, .stats, .pools, .faults, .fresh] ll = true) :
    Moves ll ss (settleSlabs s) := by
  refine hh.trans ?_ hsub; unfold settleSlabs
  repeat' (first | with_reducible assumption | with_reducible exact Moves.refl _ _ | with_reducible exact rfl | exact rfl |  (intro _) | with_reducible refine freeSlabs_moves ?_ ?_ | with_reducible refine foldl_moves ?_ ?_ | with_reducible refine foldl_fst_moves ?_ ?_ | with_reducible refine ite_moves ?_ ?_ | with_reducible refine ite_snd_moves ?_ ?_ | with_reducible refine ite_fst_moves ?_ ?_ | split | refine fst_of_eq (by assumption) ?_ | refine snd_of_eq (by assumption) ?_ | with_reducible refine upd_pools ?_ ?_ | dsimp only)

theorem dropBuilds_moves {ll ss} {s : State} {w : List W64} (hh : Moves ll ss s) (hsub : sub [.hbm] ll = true) :
    Moves ll ss (dropBuilds s w) := by
  refine hh.trans ?_ hsub; unfold dropBuilds
  repeat' (first | with_reducible assumption | with_reducible exact Moves.refl _ _ | with_reducible exact rfl | exact rfl |  (intro _) | with_reducible refine setRegion_moves ?_ ?_ | with_reducible refine ite_moves ?_ ?_ | with_reducible refine ite_snd_moves ?_ ?_ | with_reducible refine ite_fst_moves ?_ ?_ | split | refine fst_of_eq (by assumption) ?_ | refine snd_of_eq (by assumption) ?_ | dsimp only)

theorem freeTill_moves {ll ss} {s : State} {n : Nat} {wait : Bool} (hh : Moves ll ss s) (hsub : sub [.host, .stats, .ports, .frames, .stalled, .blockCounts, .pools, .intake, .tills, .ctxs, .tiles, .hbm, .faults, .jobFree, .fresh] ll = true) :
    Moves ll ss (freeTill s n wait) := by
  refine hh.trans ?_ hsub; unfold freeTill
  repeat' (first | with_reducible assumption | with_reducible exact Moves.refl _ _ | with_reducible exact rfl | exact rfl | ((fail_if_success (show Moves _ _ _)); first | exact side_hostSame rfl rfl rfl rfl | exact side_tables rfl | exact side_nil | exact side_map | exact side_hostMap rfl rfl rfl rfl | exact side_host4 rfl rfl rfl rfl) |  (intro _) | with_reducible refine dropReads_moves ?_ ?_ | with_reducible refine abandonPass_moves ?_ ?_ | with_reducible refine returnSlabs_moves ?_ ?_ | with_reducible refine giveStaging_moves ?_ ?_ | with_reducible refine dropBuilds_moves ?_ ?_ | with_reducible refine scratchGive_moves ?_ ?_ | with_reducible refine dropCommands_moves ?_ ?_ | with_reducible refine unbind_moves ?_ ?_ | with_reducible refine foldl_moves ?_ ?_ | with_reducible refine foldl_fst_moves ?_ ?_ | with_reducible refine ite_moves ?_ ?_ | with_reducible refine ite_snd_moves ?_ ?_ | with_reducible refine ite_fst_moves ?_ ?_ | split | refine fst_of_eq (by assumption) ?_ | refine snd_of_eq (by assumption) ?_ | with_reducible refine upd_host ?_ ?_ ?_ | with_reducible refine upd_tills ?_ ?_ | dsimp only)

theorem recordEpoch_moves {ll ss} {s : State} {t : Till} {status : Nat} {whole : Bool} {p : Part} (hh : Moves ll ss s) (hsub : sub [.hbm] ll = true) :
    Moves ll ss (recordEpoch s t status whole p) := by
  refine hh.trans ?_ hsub; unfold recordEpoch
  repeat' (first | with_reducible assumption | with_reducible exact Moves.refl _ _ | with_reducible exact rfl | exact rfl |  (intro _) | with_reducible refine setRegion_moves ?_ ?_ | with_reducible refine ite_moves ?_ ?_ | with_reducible refine ite_snd_moves ?_ ?_ | with_reducible refine ite_fst_moves ?_ ?_ | split | refine fst_of_eq (by assumption) ?_ | refine snd_of_eq (by assumption) ?_ | dsimp only)

theorem postEpoch_moves {ll ss} {s : State} {n : Nat} {whole : Bool} {after : List After} (hh : Moves ll ss s) (hsub : sub [.host, .tills, .hbm] ll = true) :
    Moves ll ss (postEpoch s n whole after) := by
  refine hh.trans ?_ hsub; unfold postEpoch
  repeat' (first | with_reducible assumption | with_reducible exact Moves.refl _ _ | with_reducible exact rfl | exact rfl |  (intro _) | with_reducible refine recordEpoch_moves ?_ ?_ | with_reducible refine ready_moves ?_ ?_ | with_reducible refine setTill_moves ?_ ?_ | with_reducible refine ite_moves ?_ ?_ | with_reducible refine ite_snd_moves ?_ ?_ | with_reducible refine ite_fst_moves ?_ ?_ | split | refine fst_of_eq (by assumption) ?_ | refine snd_of_eq (by assumption) ?_ | dsimp only)

theorem settleEpoch_moves {ll ss} {k : Nat} {s : State} {n : Nat} (hh : Moves ll ss s) (hsub : sub [.host, .stats, .ports, .frames, .stalled, .blockCounts, .pools, .intake, .tills, .hbm, .faults, .fresh] ll = true) : Moves ll ss (settleEpoch k s n) := by
  refine hh.trans ?_ hsub; clear hh hsub
  suffices H : ∀ s1, Moves [.host, .stats, .ports, .frames, .stalled, .blockCounts, .pools, .intake, .tills, .hbm, .faults, .fresh] s1 s → Moves [.host, .stats, .ports, .frames, .stalled, .blockCounts, .pools, .intake, .tills, .hbm, .faults, .fresh] s1 (settleEpoch k s n) from H _ (Moves.refl _ _)
  induction k generalizing s with
  | zero => intro s1 h; exact h
  | succ k ih =>
    intro s1 h; unfold settleEpoch
    repeat' (first | with_reducible assumption | with_reducible exact Moves.refl _ _ | with_reducible exact rfl | exact rfl |  (intro _) | with_reducible apply ih | with_reducible refine modTill_moves ?_ ?_ | with_reducible refine sendOwn_moves ?_ ?_ | with_reducible refine postEpoch_moves ?_ ?_ | with_reducible refine freeSlabs_moves ?_ ?_ | with_reducible refine ite_moves ?_ ?_ | with_reducible refine ite_snd_moves ?_ ?_ | with_reducible refine ite_fst_moves ?_ ?_ | split | refine fst_of_eq (by assumption) ?_ | refine snd_of_eq (by assumption) ?_ | dsimp only)

theorem sumTimer_moves {ll ss} {s : State} {n : Nat} (hh : Moves ll ss s) (hsub : sub [.tills] ll = true) :
    Moves ll ss (sumTimer s n) := by
  refine hh.trans ?_ hsub; unfold sumTimer
  repeat' (first | with_reducible assumption | with_reducible exact Moves.refl _ _ | with_reducible exact rfl | exact rfl |  (intro _) | with_reducible refine modTill_moves ?_ ?_ | with_reducible refine ite_moves ?_ ?_ | with_reducible refine ite_snd_moves ?_ ?_ | with_reducible refine ite_fst_moves ?_ ?_ | split | refine fst_of_eq (by assumption) ?_ | refine snd_of_eq (by assumption) ?_ | dsimp only)

theorem settleTill_moves {ll ss} {s : State} {n : Nat} (hh : Moves ll ss s) (hsub : sub [.host, .stats, .ports, .frames, .stalled, .blockCounts, .pools, .intake, .tills, .hbm, .faults, .fresh] ll = true) :
    Moves ll ss (settleTill s n) := by
  refine hh.trans ?_ hsub; unfold settleTill
  repeat' (first | with_reducible assumption | with_reducible exact Moves.refl _ _ | with_reducible exact rfl | exact rfl |  (intro _) | with_reducible refine sumTimer_moves ?_ ?_ | with_reducible refine settleEpoch_moves ?_ ?_ | with_reducible refine ite_moves ?_ ?_ | with_reducible refine ite_snd_moves ?_ ?_ | with_reducible refine ite_fst_moves ?_ ?_ | split | refine fst_of_eq (by assumption) ?_ | refine snd_of_eq (by assumption) ?_ | dsimp only)

theorem endTill_moves {ll ss} {s : State} {n status : Nat} {e : W16} (hh : Moves ll ss s) (hsub : sub [.tills] ll = true) :
    Moves ll ss (endTill s n status e) := by
  refine hh.trans ?_ hsub; unfold endTill
  repeat' (first | with_reducible assumption | with_reducible exact Moves.refl _ _ | with_reducible exact rfl | exact rfl |  (intro _) | with_reducible refine modTill_moves ?_ ?_ | with_reducible refine ite_moves ?_ ?_ | with_reducible refine ite_snd_moves ?_ ?_ | with_reducible refine ite_fst_moves ?_ ?_ | split | refine fst_of_eq (by assumption) ?_ | refine snd_of_eq (by assumption) ?_ | dsimp only)

theorem grantTill_moves {l s0} {s t : State} {n : Nat} {w sh : List W64} {r : List (Nat × Block)} (h : Moves l s0 s)
    (hs : sub [.host, .stats, .pools, .faults, .fresh] l = true) (e : grantTill s n w sh = some (t, r)) : Moves l s0 t := by
  unfold grantTill at e
  split at e
  · cases e
  · exact grantSlabs_moves h hs e

theorem grantTill_if_moves {l s0} {c : Prop} [Decidable c] {s t : State} {n : Nat} {w sh : List W64} {r : List (Nat × Block)}
    (h : Moves l s0 s) (hs : sub [.host, .stats, .pools, .faults, .fresh] l = true) (e : (if c then grantTill s n w sh else none) = some (t, r)) : Moves l s0 t := by
  split at e
  · exact grantTill_moves h hs e
  · cases e

theorem admitWaited_moves {ll ss} {s : State} {t : Till} (hh : Moves ll ss s) (hsub : sub [.jobFree] ll = true) :
    Moves ll ss (admitWaited s t) := by
  refine hh.trans ?_ hsub; unfold admitWaited
  repeat' (first | with_reducible assumption | with_reducible exact Moves.refl _ _ | with_reducible exact rfl | exact rfl |  (intro _) | with_reducible refine jobWait_moves ?_ ?_ | with_reducible refine ite_moves ?_ ?_ | with_reducible refine ite_snd_moves ?_ ?_ | with_reducible refine ite_fst_moves ?_ ?_ | split | refine fst_of_eq (by assumption) ?_ | refine snd_of_eq (by assumption) ?_ | dsimp only)

theorem openTill_moves {ll ss} {s : State} {n : Nat} {t : Till} {slabs : List (Nat × Block)} (hh : Moves ll ss s) (hsub : sub [.tills] ll = true) :
    Moves ll ss (openTill s n t slabs) := by
  refine hh.trans ?_ hsub; unfold openTill
  repeat' (first | with_reducible assumption | with_reducible exact Moves.refl _ _ | with_reducible exact rfl | exact rfl |  (intro _) | with_reducible refine setTill_moves ?_ ?_ | with_reducible refine ite_moves ?_ ?_ | with_reducible refine ite_snd_moves ?_ ?_ | with_reducible refine ite_fst_moves ?_ ?_ | split | refine fst_of_eq (by assumption) ?_ | refine snd_of_eq (by assumption) ?_ | dsimp only)

theorem openTills_moves {ll ss} {s : State} {tick : Bool} (hh : Moves ll ss s) (hsub : sub [.host, .tills, .jobFree] ll = true) :
    Moves ll ss (openTills s tick) := by
  refine hh.trans ?_ hsub; unfold openTills
  repeat' (first | with_reducible assumption | with_reducible exact Moves.refl _ _ | with_reducible exact rfl | exact rfl |  (intro _) | with_reducible refine setTill_moves ?_ ?_ | with_reducible refine admitWaited_moves ?_ ?_ | with_reducible refine completeTo_moves ?_ ?_ | with_reducible refine foldl_moves ?_ ?_ | with_reducible refine foldl_fst_moves ?_ ?_ | with_reducible refine ite_moves ?_ ?_ | with_reducible refine ite_snd_moves ?_ ?_ | with_reducible refine ite_fst_moves ?_ ?_ | split | refine fst_of_eq (by assumption) ?_ | refine snd_of_eq (by assumption) ?_ | dsimp only)

theorem beginSave_moves {l s0} {s u : State} {n : Nat} {t : Till} {k : DrainKind} {b : Option Accept} (h : Moves l s0 s)
    (hs : sub [.host, .stats, .pools, .tills, .faults, .fresh] l = true) (e : beginSave s n t k b = some u) : Moves l s0 u := by
  have hu {m : List Area} (hm : sub m [.host, .stats, .pools, .tills, .faults, .fresh] = true) : sub m l = true := sub_trans hm hs
  unfold beginSave at e
  dsimp only at e
  split at e
  · cases e; exact setTill_moves h (hu rfl)
  · split at e
    · cases e
    · obtain ⟨x, hx, hy⟩ := Option.map_eq_some_iff.1 e
      cases hy; exact setTill_moves (takeStaging_moves h (hu rfl) hx) (hu rfl)

theorem afterSaves_moves {ll ss} {s : State} (hh : Moves ll ss s) (hsub : sub [.host, .stats, .pools, .faults, .fresh] ll = true) :
    Moves ll ss (afterSaves s) := by
  refine hh.trans ?_ hsub; unfold afterSaves
  repeat' (first | with_reducible assumption | with_reducible exact Moves.refl _ _ | with_reducible exact rfl | exact rfl |  (intro _) | with_reducible refine freeSlabs_moves ?_ ?_ | with_reducible refine foldl_moves ?_ ?_ | with_reducible refine foldl_fst_moves ?_ ?_ | with_reducible refine ite_moves ?_ ?_ | with_reducible refine ite_snd_moves ?_ ?_ | with_reducible refine ite_fst_moves ?_ ?_ | split | refine fst_of_eq (by assumption) ?_ | refine snd_of_eq (by assumption) ?_ | dsimp only)

theorem saveVictims_moves {l s0} {n : Nat} {w sh : List W64} {vs : List Nat} {s after u : State} (h : Moves l s0 s)
    (hs : sub [.host, .stats, .pools, .tills, .faults, .ledger, .fresh] l = true) (e : saveVictims n w sh vs s after = some u) : Moves l s0 u := by
  have hu {m : List Area} (hm : sub m [.host, .stats, .pools, .tills, .faults, .ledger, .fresh] = true) : sub m l = true := sub_trans hm hs
  induction vs generalizing s after with
  | nil => cases e
  | cons v vs ih =>
    unfold saveVictims at e
    split at e
    · exact ih h e
    · split at e
      · exact ih h e
      · next hb =>
        dsimp only at e
        split at e
        · cases e; exact recordRaw_moves (beginSave_moves h (hu rfl) hb) (hu rfl)
        · exact ih (recordRaw_moves (beginSave_moves h (hu rfl) hb) (hu rfl)) e

theorem preemptFor_moves {l s0} {n : Nat} {w sh : List W64} {s u : State} (h : Moves l s0 s)
    (hs : sub [.host, .stats, .pools, .tills, .faults, .ledger, .fresh] l = true) (e : preemptFor s n w sh = some u) : Moves l s0 u := by
  unfold preemptFor at e
  dsimp only at e
  split at e
  · cases e
  · split at e
    · cases e; exact h
    · exact saveVictims_moves h hs e

theorem preemptFor_if_moves {l s0} {c : Prop} [Decidable c] {s u : State} {n : Nat} {w sh : List W64} (h : Moves l s0 s)
    (hs : sub [.host, .stats, .pools, .tills, .faults, .ledger, .fresh] l = true) (e : (if c then preemptFor s n w sh else none) = some u) : Moves l s0 u := by
  split at e
  · exact preemptFor_moves h hs e
  · cases e

theorem grantWaiter_moves {ll ss} {order : Nat} {s : State} {n : Nat} (hh : Moves ll ss s) (hsub : sub [.host, .stats, .pools, .tills, .faults, .fresh] ll = true) :
    Moves ll ss (grantWaiter order s n) := by
  refine hh.trans ?_ hsub; unfold grantWaiter
  repeat' (first | with_reducible assumption | with_reducible exact Moves.refl _ _ | with_reducible exact rfl | exact rfl |  (intro _) | with_reducible refine grantTill_moves ?_ ?_ (by assumption) | with_reducible refine openTill_moves ?_ ?_ | with_reducible refine ite_moves ?_ ?_ | with_reducible refine ite_snd_moves ?_ ?_ | with_reducible refine ite_fst_moves ?_ ?_ | split | refine fst_of_eq (by assumption) ?_ | refine snd_of_eq (by assumption) ?_ | dsimp only)

theorem grantEarlier_moves {ll ss} {s : State} {order : Nat} (hh : Moves ll ss s) (hsub : sub [.host, .stats, .pools, .tills, .faults, .fresh] ll = true) :
    Moves ll ss (grantEarlier s order) := by
  refine hh.trans ?_ hsub; unfold grantEarlier
  repeat' (first | with_reducible assumption | with_reducible exact Moves.refl _ _ | with_reducible exact rfl | exact rfl |  (intro _) | with_reducible refine grantWaiter_moves ?_ ?_ | with_reducible refine foldl_moves ?_ ?_ | with_reducible refine foldl_fst_moves ?_ ?_ | with_reducible refine ite_moves ?_ ?_ | with_reducible refine ite_snd_moves ?_ ?_ | with_reducible refine ite_fst_moves ?_ ?_ | split | refine fst_of_eq (by assumption) ?_ | refine snd_of_eq (by assumption) ?_ | dsimp only)

theorem admitTill_moves {ll ss} {s : State} {n : Nat} {t : Till} (hh : Moves ll ss s) (hsub : sub [.host, .stats, .pools, .tills, .tiles, .faults, .ledger, .fresh] ll = true) :
    Moves ll ss (admitTill s n t) := by
  refine hh.trans ?_ hsub; unfold admitTill
  repeat' (first | with_reducible assumption | with_reducible exact Moves.refl _ _ | with_reducible exact rfl | exact rfl |  (intro _) | with_reducible refine grantEarlier_moves ?_ ?_ | with_reducible refine scratchTake_moves ?_ ?_ | with_reducible refine grantTill_moves ?_ ?_ (by assumption) | with_reducible refine openTill_moves ?_ ?_ | with_reducible refine setTill_moves ?_ ?_ | with_reducible refine preemptFor_moves ?_ ?_ (by assumption) | with_reducible refine completeTo_moves ?_ ?_ | with_reducible refine grantTill_if_moves ?_ ?_ (by assumption) | with_reducible refine preemptFor_if_moves ?_ ?_ (by assumption) | with_reducible refine ite_moves ?_ ?_ | with_reducible refine ite_snd_moves ?_ ?_ | with_reducible refine ite_fst_moves ?_ ?_ | split | refine fst_of_eq (by assumption) ?_ | refine snd_of_eq (by assumption) ?_ | dsimp only)

end Sys2Proof.Laws
end

