-- ==== Sys2Proof/Laws/Moves/Chunks.lean ====
section
/-! SUPPORT. What the operations of Machine/Chunks.lean may change: one lemma each. -/

set_option linter.unusedTactic false
set_option linter.unreachableTactic false
set_option linter.unusedVariables false

namespace Sys2Proof.Laws

open Sys2Proof.Machine Sys2Proof.Safety

theorem emitPartial_moves {ll ss} {s : State} {t : Till} {k : Nat} {accs : List Acc} {more : Bool} {ready : Nat → Nat → Nat} (hh : Moves ll ss s) (hsub : sub [.host, .stats, .ports, .frames, .stalled, .blockCounts, .pools, .intake, .faults, .fresh] ll = true) :
    Moves ll ss (emitPartial s t k accs more ready).1 := by
  refine hh.trans ?_ hsub; unfold emitPartial
  repeat' (first | with_reducible assumption | with_reducible exact Moves.refl _ _ | with_reducible exact rfl | exact rfl |  (intro _) | with_reducible refine sendOwn_moves ?_ ?_ | with_reducible refine ready_moves ?_ ?_ | with_reducible refine ite_moves ?_ ?_ | with_reducible refine ite_snd_moves ?_ ?_ | with_reducible refine ite_fst_moves ?_ ?_ | split | refine fst_of_eq (by assumption) ?_ | refine snd_of_eq (by assumption) ?_ | dsimp only)

theorem finishChunk_moves {ll ss} {s : State} {n k : Nat} (hh : Moves ll ss s) (hsub : sub [.host, .stats, .ports, .frames, .stalled, .blockCounts, .pools, .intake, .tills, .ctxs, .faults, .fresh] ll = true) :
    Moves ll ss (finishChunk s n k) := by
  refine hh.trans ?_ hsub; unfold finishChunk
  repeat' (first | with_reducible assumption | with_reducible exact Moves.refl _ _ | with_reducible exact rfl | exact rfl |  (intro _) | with_reducible refine setTill_moves ?_ ?_ | with_reducible refine emitPartial_moves ?_ ?_ | with_reducible refine modChunk_moves ?_ ?_ | with_reducible refine pushPass_moves ?_ ?_ | with_reducible refine ready_moves ?_ ?_ | with_reducible refine sendResults_moves ?_ ?_ | with_reducible refine ite_moves ?_ ?_ | with_reducible refine ite_snd_moves ?_ ?_ | with_reducible refine ite_fst_moves ?_ ?_ | split | refine fst_of_eq (by assumption) ?_ | refine snd_of_eq (by assumption) ?_ | dsimp only)

theorem fetchFuse_moves {ll ss} {s : State} {n k : Nat} (hh : Moves ll ss s) (hsub : sub [.host, .stats, .ports, .frames, .stalled, .blockCounts, .pools, .dropping, .intake, .tills, .ctxs, .hbm, .faults, .bridge, .fresh] ll = true) :
    Moves ll ss (fetchFuse s n k) := by
  refine hh.trans ?_ hsub; unfold fetchFuse
  repeat' (first | with_reducible assumption | with_reducible exact Moves.refl _ _ | with_reducible exact rfl | exact rfl |  (intro _) | with_reducible refine release_moves ?_ ?_ | with_reducible refine accessChecks_moves ?_ ?_ | with_reducible refine addCrossing_moves ?_ ?_ | with_reducible refine finishChunk_moves ?_ ?_ | with_reducible refine modChunk_moves ?_ ?_ | with_reducible refine endTill_moves ?_ ?_ | with_reducible refine sendRequest_moves ?_ ?_ | with_reducible refine foldl_moves ?_ ?_ | with_reducible refine foldl_fst_moves ?_ ?_ | with_reducible refine ite_moves ?_ ?_ | with_reducible refine ite_snd_moves ?_ ?_ | with_reducible refine ite_fst_moves ?_ ?_ | split | refine fst_of_eq (by assumption) ?_ | refine snd_of_eq (by assumption) ?_ | dsimp only)

theorem tileCause_moves {ll ss} {s : State} {tile b : Nat} (hh : Moves ll ss s) (hsub : sub [.host, .stats, .fresh] ll = true) :
    Moves ll ss (tileCause s tile b) := by
  refine hh.trans ?_ hsub; unfold tileCause
  repeat' (first | with_reducible assumption | with_reducible exact Moves.refl _ _ | with_reducible exact rfl | exact rfl |  (intro _) | with_reducible refine setCause_moves ?_ ?_ | with_reducible refine setStat_moves ?_ ?_ | with_reducible refine ite_moves ?_ ?_ | with_reducible refine ite_snd_moves ?_ ?_ | with_reducible refine ite_fst_moves ?_ ?_ | split | refine fst_of_eq (by assumption) ?_ | refine snd_of_eq (by assumption) ?_ | dsimp only)

theorem rereadLine_moves {ll ss} {s : State} {tile : Nat} (hh : Moves ll ss s) (hsub : sub [.host, .stats, .blockCounts, .fresh] ll = true) :
    Moves ll ss (rereadLine s tile) := by
  refine hh.trans ?_ hsub; unfold rereadLine
  repeat' (first | with_reducible assumption | with_reducible exact Moves.refl _ _ | with_reducible exact rfl | exact rfl |  (intro _) | with_reducible refine countBlock_moves ?_ ?_ | with_reducible refine tileCause_moves ?_ ?_ | with_reducible refine ite_moves ?_ ?_ | with_reducible refine ite_snd_moves ?_ ?_ | with_reducible refine ite_fst_moves ?_ ?_ | split | refine fst_of_eq (by assumption) ?_ | refine snd_of_eq (by assumption) ?_ | dsimp only)

theorem retireLine_moves {ll ss} {s : State} {tile : Nat} (hh : Moves ll ss s) (hsub : sub [.host, .stats, .tiles, .fresh] ll = true) :
    Moves ll ss (retireLine s tile) := by
  refine hh.trans ?_ hsub; unfold retireLine
  repeat' (first | with_reducible assumption | with_reducible exact Moves.refl _ _ | with_reducible exact rfl | exact rfl |  (intro _) | with_reducible refine setCause_moves ?_ ?_ | with_reducible refine setStat_moves ?_ ?_ | with_reducible refine ite_moves ?_ ?_ | with_reducible refine ite_snd_moves ?_ ?_ | with_reducible refine ite_fst_moves ?_ ?_ | split | refine fst_of_eq (by assumption) ?_ | refine snd_of_eq (by assumption) ?_ | with_reducible refine upd_tiles_fresh ?_ ?_ | dsimp only)

theorem readSlice_moves {ll ss} {s : State} {n k : Nat} (hh : Moves ll ss s) (hsub : sub [.host, .stats, .ports, .frames, .stalled, .blockCounts, .pools, .intake, .tills, .ctxs, .tiles, .faults, .fresh] ll = true) :
    Moves ll ss (readSlice s n k) := by
  refine hh.trans ?_ hsub; unfold readSlice
  repeat' (first | with_reducible assumption | with_reducible exact Moves.refl _ _ | with_reducible exact rfl | exact rfl |  (intro _) | with_reducible refine finishChunk_moves ?_ ?_ | with_reducible refine endTill_moves ?_ ?_ | with_reducible refine retireLine_moves ?_ ?_ | with_reducible refine modChunk_moves ?_ ?_ | with_reducible refine rereadLine_moves ?_ ?_ | with_reducible refine ite_moves ?_ ?_ | with_reducible refine ite_snd_moves ?_ ?_ | with_reducible refine ite_fst_moves ?_ ?_ | split | refine fst_of_eq (by assumption) ?_ | refine snd_of_eq (by assumption) ?_ | with_reducible refine upd_faults ?_ ?_ | dsimp only)

theorem mismatchOver_moves {ll ss} {s : State} {n k : Nat} (hh : Moves ll ss s) (hsub : sub [.host, .stats, .blockCounts, .tills, .fresh] ll = true) :
    Moves ll ss (mismatchOver s n k) := by
  refine hh.trans ?_ hsub; unfold mismatchOver
  repeat' (first | with_reducible assumption | with_reducible exact Moves.refl _ _ | with_reducible exact rfl | exact rfl |  (intro _) | with_reducible refine countBlock_moves ?_ ?_ | with_reducible refine tileCause_moves ?_ ?_ | with_reducible refine modChunk_moves ?_ ?_ | with_reducible refine ite_moves ?_ ?_ | with_reducible refine ite_snd_moves ?_ ?_ | with_reducible refine ite_fst_moves ?_ ?_ | split | refine fst_of_eq (by assumption) ?_ | refine snd_of_eq (by assumption) ?_ | dsimp only)

theorem tryComplete_moves {ll ss} {s : State} {n k arrival : Nat} (hh : Moves ll ss s) (hsub : sub [.host, .stats, .ports, .frames, .stalled, .blockCounts, .pools, .dropping, .intake, .tills, .ctxs, .tiles, .hbm, .faults, .bridge, .jobFree, .fresh] ll = true) :
    Moves ll ss (tryComplete s n k arrival) := by
  refine hh.trans ?_ hsub; unfold tryComplete
  repeat' (first | with_reducible assumption | with_reducible exact Moves.refl _ _ | with_reducible exact rfl | exact rfl |  (intro _) | with_reducible refine jobWait_moves ?_ ?_ | with_reducible refine setTill_moves ?_ ?_ | with_reducible refine mismatchOver_moves ?_ ?_ | with_reducible refine finishChunk_moves ?_ ?_ | with_reducible refine fetchFuse_moves ?_ ?_ | with_reducible refine readSlice_moves ?_ ?_ | with_reducible refine ite_moves ?_ ?_ | with_reducible refine ite_snd_moves ?_ ?_ | with_reducible refine ite_fst_moves ?_ ?_ | split | refine fst_of_eq (by assumption) ?_ | refine snd_of_eq (by assumption) ?_ | dsimp only)

theorem zeroChunks_moves {ll ss} {s : State} {n : Nat} {e : W16} {arrival : Nat} (hh : Moves ll ss s) (hsub : sub [.host, .stats, .ports, .frames, .stalled, .blockCounts, .pools, .dropping, .intake, .tills, .ctxs, .tiles, .hbm, .faults, .bridge, .jobFree, .fresh] ll = true) :
    Moves ll ss (zeroChunks s n e arrival) := by
  refine hh.trans ?_ hsub; unfold zeroChunks
  repeat' (first | with_reducible assumption | with_reducible exact Moves.refl _ _ | with_reducible exact rfl | exact rfl |  (intro _) | with_reducible refine modTill_moves ?_ ?_ | with_reducible refine tryComplete_moves ?_ ?_ | with_reducible refine setTill_moves ?_ ?_ | with_reducible refine foldl_moves ?_ ?_ | with_reducible refine foldl_fst_moves ?_ ?_ | with_reducible refine ite_moves ?_ ?_ | with_reducible refine ite_snd_moves ?_ ?_ | with_reducible refine ite_fst_moves ?_ ?_ | split | refine fst_of_eq (by assumption) ?_ | refine snd_of_eq (by assumption) ?_ | dsimp only)

theorem recompute_moves {ll ss} {s : State} {n k : Nat} (hh : Moves ll ss s) (hsub : sub [.host, .stats, .ports, .frames, .stalled, .blockCounts, .pools, .dropping, .intake, .tills, .ctxs, .tiles, .hbm, .faults, .bridge, .jobFree, .fresh] ll = true) :
    Moves ll ss (recompute s n k) := by
  refine hh.trans ?_ hsub; unfold recompute
  repeat' (first | with_reducible assumption | with_reducible exact Moves.refl _ _ | with_reducible exact rfl | exact rfl |  (intro _) | with_reducible refine resetChunk_moves ?_ ?_ | with_reducible refine tryComplete_moves ?_ ?_ | with_reducible refine askResend_moves ?_ ?_ | with_reducible refine ite_moves ?_ ?_ | with_reducible refine ite_snd_moves ?_ ?_ | with_reducible refine ite_fst_moves ?_ ?_ | split | refine fst_of_eq (by assumption) ?_ | refine snd_of_eq (by assumption) ?_ | dsimp only)

theorem resetSoon_moves {ll ss} {s : State} {n k : Nat} (hh : Moves ll ss s) (hsub : sub [.tills] ll = true) :
    Moves ll ss (resetSoon s n k) := by
  refine hh.trans ?_ hsub; unfold resetSoon
  repeat' (first | with_reducible assumption | with_reducible exact Moves.refl _ _ | with_reducible exact rfl | exact rfl |  (intro _) | with_reducible refine modChunk_moves ?_ ?_ | with_reducible refine ite_moves ?_ ?_ | with_reducible refine ite_snd_moves ?_ ?_ | with_reducible refine ite_fst_moves ?_ ?_ | split | refine fst_of_eq (by assumption) ?_ | refine snd_of_eq (by assumption) ?_ | dsimp only)

theorem finishRun_moves {ll ss} {s : State} {tile : Nat} {r : RunReq} {status : Nat} {p : Option (Nat × Nat × List W32)} {waits : List Nat} (hh : Moves ll ss s) (hsub : sub [.host, .tiles] ll = true) :
    Moves ll ss (finishRun s tile r status p waits) := by
  refine hh.trans ?_ hsub; unfold finishRun
  repeat' (first | with_reducible assumption | with_reducible exact Moves.refl _ _ | with_reducible exact rfl | exact rfl |  (intro _) | with_reducible refine scratchGive_moves ?_ ?_ | with_reducible refine completeRun_moves ?_ ?_ | with_reducible refine ite_moves ?_ ?_ | with_reducible refine ite_snd_moves ?_ ?_ | with_reducible refine ite_fst_moves ?_ ?_ | split | refine fst_of_eq (by assumption) ?_ | refine snd_of_eq (by assumption) ?_ | dsimp only)

theorem dropRun_moves {ll ss} {s : State} {tile : Nat} {r : RunReq} {status : Nat} (hh : Moves ll ss s) (hsub : sub [.host, .ctxs, .tiles] ll = true) :
    Moves ll ss (dropRun s tile r status) := by
  refine hh.trans ?_ hsub; unfold dropRun
  repeat' (first | with_reducible assumption | with_reducible exact Moves.refl _ _ | with_reducible exact rfl | exact rfl |  (intro _) | with_reducible refine finishRun_moves ?_ ?_ | with_reducible refine setCtx_moves ?_ ?_ | with_reducible refine ite_moves ?_ ?_ | with_reducible refine ite_snd_moves ?_ ?_ | with_reducible refine ite_fst_moves ?_ ?_ | split | refine fst_of_eq (by assumption) ?_ | refine snd_of_eq (by assumption) ?_ | dsimp only)

theorem fenceRuns_moves {ll ss} {s : State} {tile : Nat} {lost : Bool} (hh : Moves ll ss s) (hsub : sub [.host, .ctxs, .tiles, .hbm] ll = true) :
    Moves ll ss (fenceRuns s tile lost) := by
  refine hh.trans ?_ hsub; unfold fenceRuns
  repeat' (first | with_reducible assumption | with_reducible exact Moves.refl _ _ | with_reducible exact rfl | exact rfl |  (intro _) | with_reducible refine dropRun_moves ?_ ?_ | with_reducible refine setCtx_moves ?_ ?_ | with_reducible refine ready_moves ?_ ?_ | with_reducible refine completeRun_moves ?_ ?_ | with_reducible refine foldl_moves ?_ ?_ | with_reducible refine foldl_fst_moves ?_ ?_ | with_reducible refine ite_moves ?_ ?_ | with_reducible refine ite_snd_moves ?_ ?_ | with_reducible refine ite_fst_moves ?_ ?_ | split | refine fst_of_eq (by assumption) ?_ | refine snd_of_eq (by assumption) ?_ | with_reducible refine upd_hbm ?_ ?_ rfl | dsimp only)

theorem fenceTile_moves {ll ss} {s : State} {tile cause : Nat} {spare : Option (Nat × Nat)} (hh : Moves ll ss s) (hsub : sub [.host, .stats, .refused, .blockCounts, .tills, .ctxs, .tiles, .hbm, .ledger, .fresh] ll = true) :
    Moves ll ss (fenceTile s tile cause spare) := by
  refine hh.trans ?_ hsub; unfold fenceTile
  repeat' (first | with_reducible assumption | with_reducible exact Moves.refl _ _ | with_reducible exact rfl | exact rfl |  (intro _) | with_reducible refine countBlock_moves ?_ ?_ | with_reducible refine tileCause_moves ?_ ?_ | with_reducible refine refuseField_moves ?_ ?_ | with_reducible refine recordRaw_moves ?_ ?_ | with_reducible refine resetSoon_moves ?_ ?_ | with_reducible refine fenceRuns_moves ?_ ?_ | with_reducible refine endTill_moves ?_ ?_ | with_reducible refine foldl_moves ?_ ?_ | with_reducible refine foldl_fst_moves ?_ ?_ | with_reducible refine ite_moves ?_ ?_ | with_reducible refine ite_snd_moves ?_ ?_ | with_reducible refine ite_fst_moves ?_ ?_ | split | refine fst_of_eq (by assumption) ?_ | refine snd_of_eq (by assumption) ?_ | with_reducible refine upd_tiles ?_ ?_ | dsimp only)

theorem readProgram_moves {ll ss} {s : State} {tile : Nat} (hh : Moves ll ss s) (hsub : sub [.host, .stats, .refused, .blockCounts, .tills, .ctxs, .tiles, .hbm, .faults, .ledger, .fresh] ll = true) :
    Moves ll ss (readProgram s tile).1 := by
  refine hh.trans ?_ hsub; unfold readProgram
  repeat' (first | with_reducible assumption | with_reducible exact Moves.refl _ _ | with_reducible exact rfl | exact rfl |  (intro _) | with_reducible refine fenceTile_moves ?_ ?_ | with_reducible refine takeFresh_moves ?_ ?_ | with_reducible refine countBlock_moves ?_ ?_ | with_reducible refine tileCause_moves ?_ ?_ | with_reducible refine ite_moves ?_ ?_ | with_reducible refine ite_snd_moves ?_ ?_ | with_reducible refine ite_fst_moves ?_ ?_ | split | refine fst_of_eq (by assumption) ?_ | refine snd_of_eq (by assumption) ?_ | with_reducible refine upd_faults ?_ ?_ | dsimp only)

theorem storeMismatch_moves {ll ss} {s : State} {n k : Nat} (hh : Moves ll ss s) (hsub : sub [.host, .stats, .refused, .blockCounts, .tills, .ctxs, .tiles, .hbm, .ledger, .fresh] ll = true) :
    Moves ll ss (storeMismatch s n k) := by
  refine hh.trans ?_ hsub; unfold storeMismatch
  repeat' (first | with_reducible assumption | with_reducible exact Moves.refl _ _ | with_reducible exact rfl | exact rfl |  (intro _) | with_reducible refine resetSoon_moves ?_ ?_ | with_reducible refine setTill_moves ?_ ?_ | with_reducible refine endTill_moves ?_ ?_ | with_reducible refine fenceTile_moves ?_ ?_ | with_reducible refine ite_moves ?_ ?_ | with_reducible refine ite_snd_moves ?_ ?_ | with_reducible refine ite_fst_moves ?_ ?_ | split | refine fst_of_eq (by assumption) ?_ | refine snd_of_eq (by assumption) ?_ | dsimp only)

theorem lateEpoch_moves {ll ss} {s : State} {n : Nat} (hh : Moves ll ss s) (hsub : sub [.host, .stats, .ports, .stalled, .pools, .dropping, .tills, .ctxs, .hbm, .faults, .jobFree, .fresh] ll = true) :
    Moves ll ss (lateEpoch s n) := by
  refine hh.trans ?_ hsub; unfold lateEpoch
  repeat' (first | with_reducible assumption | with_reducible exact Moves.refl _ _ | with_reducible exact rfl | exact rfl |  (intro _) | with_reducible refine abandonPass_moves ?_ ?_ | with_reducible refine dropReads_moves ?_ ?_ | with_reducible refine recallFrames_moves ?_ ?_ | with_reducible refine modTill_moves ?_ ?_ | with_reducible refine postEpoch_moves ?_ ?_ | with_reducible refine freeSlabs_moves ?_ ?_ | with_reducible refine modChunk_moves ?_ ?_ | with_reducible refine kickLate_moves ?_ ?_ | with_reducible refine foldl_moves ?_ ?_ | with_reducible refine foldl_fst_moves ?_ ?_ | with_reducible refine ite_moves ?_ ?_ | with_reducible refine ite_snd_moves ?_ ?_ | with_reducible refine ite_fst_moves ?_ ?_ | split | refine fst_of_eq (by assumption) ?_ | refine snd_of_eq (by assumption) ?_ | dsimp only)

theorem applyInput_moves {ll ss} {s : State} {n k : Nat} {x : Input} {arrival : Nat} {mismatch : Bool} (hh : Moves ll ss s) (hsub : sub [.host, .stats, .refused, .ports, .stalled, .blockCounts, .pools, .dropping, .tills, .ctxs, .tiles, .hbm, .faults, .jobFree, .ledger, .fresh] ll = true) :
    Moves ll ss (applyInput s n k x arrival mismatch) := by
  refine hh.trans ?_ hsub; unfold applyInput
  repeat' (first | with_reducible assumption | with_reducible exact Moves.refl _ _ | with_reducible exact rfl | exact rfl |  (intro _) | with_reducible refine jobWait_moves ?_ ?_ | with_reducible refine setTill_moves ?_ ?_ | with_reducible refine storeMismatch_moves ?_ ?_ | with_reducible refine lateEpoch_moves ?_ ?_ | with_reducible refine sumTimer_moves ?_ ?_ | with_reducible refine foldl_moves ?_ ?_ | with_reducible refine foldl_fst_moves ?_ ?_ | with_reducible refine ite_moves ?_ ?_ | with_reducible refine ite_snd_moves ?_ ?_ | with_reducible refine ite_fst_moves ?_ ?_ | split | refine fst_of_eq (by assumption) ?_ | refine snd_of_eq (by assumption) ?_ | dsimp only)

theorem retireTill_moves {ll ss} {s : State} {n : Nat} (hh : Moves ll ss s) (hsub : sub [.host, .stats, .ports, .frames, .stalled, .blockCounts, .pools, .dropping, .intake, .tills, .ctxs, .tiles, .hbm, .faults, .bridge, .jobFree, .fresh] ll = true) :
    Moves ll ss (retireTill s n) := by
  refine hh.trans ?_ hsub; unfold retireTill
  repeat' (first | with_reducible assumption | with_reducible exact Moves.refl _ _ | with_reducible exact rfl | exact rfl |  (intro _) | with_reducible refine recompute_moves ?_ ?_ | with_reducible refine tryComplete_moves ?_ ?_ | with_reducible refine finishChunk_moves ?_ ?_ | with_reducible refine modTill_moves ?_ ?_ | with_reducible refine sumTimer_moves ?_ ?_ | with_reducible refine zeroChunks_moves ?_ ?_ | with_reducible refine foldl_moves ?_ ?_ | with_reducible refine foldl_fst_moves ?_ ?_ | with_reducible refine ite_moves ?_ ?_ | with_reducible refine ite_snd_moves ?_ ?_ | with_reducible refine ite_fst_moves ?_ ?_ | split | refine fst_of_eq (by assumption) ?_ | refine snd_of_eq (by assumption) ?_ | dsimp only)

end Sys2Proof.Laws
end

