-- ==== Sys2Proof/Laws/Moves/Intake.lean ====
section
/-! SUPPORT. What the operations of Machine/Intake.lean may change: one lemma each. -/

set_option linter.unusedTactic false
set_option linter.unreachableTactic false
set_option linter.unusedVariables false

namespace Sys2Proof.Laws

open Sys2Proof.Machine Sys2Proof.Safety

theorem countDiscard_moves {ll ss} {s : State} {n : Nat} (hh : Moves ll ss s) (hsub : sub [.host, .stats, .ports, .tills, .fresh] ll = true) :
    Moves ll ss (countDiscard s n) := by
  refine hh.trans ?_ hsub; unfold countDiscard
  repeat' (first | with_reducible assumption | with_reducible exact Moves.refl _ _ | with_reducible exact rfl | exact rfl |  (intro _) | with_reducible refine modTill_moves ?_ ?_ | with_reducible refine discard_moves ?_ ?_ | with_reducible refine ite_moves ?_ ?_ | with_reducible refine ite_snd_moves ?_ ?_ | with_reducible refine ite_fst_moves ?_ ?_ | split | refine fst_of_eq (by assumption) ?_ | refine snd_of_eq (by assumption) ?_ | dsimp only)

theorem inputFrame_moves {ll ss} {s : State} {f : Frame} {child mismatch : Bool} (hh : Moves ll ss s) (hsub : sub [.host, .stats, .refused, .ports, .stalled, .blockCounts, .pools, .dropping, .intake, .tills, .ctxs, .tiles, .hbm, .faults, .jobFree, .ledger, .fresh] ll = true) :
    Moves ll ss (inputFrame s f child mismatch) := by
  refine hh.trans ?_ hsub; unfold inputFrame
  repeat' (first | with_reducible assumption | with_reducible exact Moves.refl _ _ | with_reducible exact rfl | exact rfl |  (intro _) | with_reducible refine takeIntake_moves ?_ ?_ | with_reducible refine countDiscard_moves ?_ ?_ | with_reducible refine endTill_moves ?_ ?_ | with_reducible refine applyInput_moves ?_ ?_ | with_reducible refine ite_moves ?_ ?_ | with_reducible refine ite_snd_moves ?_ ?_ | with_reducible refine ite_fst_moves ?_ ?_ | split | refine fst_of_eq (by assumption) ?_ | refine snd_of_eq (by assumption) ?_ | dsimp only)

theorem execContribReceive_moves {f : Frame} {mismatch : Bool} {s : State} : Runs [.host, .stats, .refused, .ports, .stalled, .blockCounts, .pools, .dropping, .intake, .tills, .ctxs, .tiles, .hbm, .faults, .jobFree, .ledger, .fresh] s (execContribReceive f mismatch s) := by
  unfold execContribReceive
  repeat' (first | with_reducible assumption | with_reducible exact Moves.refl _ _ | with_reducible exact rfl | exact rfl |  (intro _) | with_reducible refine inputFrame_moves ?_ ?_ | with_reducible refine Runs.next ?_ | with_reducible refine ite_moves ?_ ?_ | with_reducible refine ite_snd_moves ?_ ?_ | with_reducible refine ite_fst_moves ?_ ?_ | split | refine fst_of_eq (by assumption) ?_ | refine snd_of_eq (by assumption) ?_ | dsimp only)

theorem execPartialReceive_moves {f : Frame} {mismatch : Bool} {s : State} : Runs [.host, .stats, .refused, .ports, .stalled, .blockCounts, .pools, .dropping, .intake, .tills, .ctxs, .tiles, .hbm, .faults, .jobFree, .ledger, .fresh] s (execPartialReceive f mismatch s) := by
  unfold execPartialReceive
  repeat' (first | with_reducible assumption | with_reducible exact Moves.refl _ _ | with_reducible exact rfl | exact rfl |  (intro _) | with_reducible refine inputFrame_moves ?_ ?_ | with_reducible refine Runs.next ?_ | with_reducible refine ite_moves ?_ ?_ | with_reducible refine ite_snd_moves ?_ ?_ | with_reducible refine ite_fst_moves ?_ ?_ | split | refine fst_of_eq (by assumption) ?_ | refine snd_of_eq (by assumption) ?_ | dsimp only)

theorem execSummaryReceive_moves {f : Frame} {s : State} : Runs [.host, .stats, .ports, .frames, .stalled, .blockCounts, .pools, .dropping, .intake, .tills, .ctxs, .tiles, .hbm, .faults, .bridge, .jobFree, .fresh] s (execSummaryReceive f s) := by
  unfold execSummaryReceive
  repeat' (first | with_reducible assumption | with_reducible exact Moves.refl _ _ | with_reducible exact rfl | exact rfl |  (intro _) | with_reducible refine takeIntake_moves ?_ ?_ | with_reducible refine countDiscard_moves ?_ ?_ | with_reducible refine jobWait_moves ?_ ?_ | with_reducible refine setTill_moves ?_ ?_ | with_reducible refine tryComplete_moves ?_ ?_ | with_reducible refine settleTill_moves ?_ ?_ | with_reducible refine foldl_moves ?_ ?_ | with_reducible refine foldl_fst_moves ?_ ?_ | with_reducible refine Runs.next ?_ | with_reducible refine ite_moves ?_ ?_ | with_reducible refine ite_snd_moves ?_ ?_ | with_reducible refine ite_fst_moves ?_ ?_ | split | refine fst_of_eq (by assumption) ?_ | refine snd_of_eq (by assumption) ?_ | dsimp only)

theorem resendPartials_moves {ll ss} {s : State} {t : Till} {k : Nat} (hh : Moves ll ss s) (hsub : sub [.host, .stats, .ports, .frames, .stalled, .blockCounts, .pools, .intake, .faults, .fresh] ll = true) :
    Moves ll ss (resendPartials s t k) := by
  refine hh.trans ?_ hsub; unfold resendPartials
  repeat' (first | with_reducible assumption | with_reducible exact Moves.refl _ _ | with_reducible exact rfl | exact rfl |  (intro _) | with_reducible refine sendOwn_moves ?_ ?_ | with_reducible refine ite_moves ?_ ?_ | with_reducible refine ite_snd_moves ?_ ?_ | with_reducible refine ite_fst_moves ?_ ?_ | split | refine fst_of_eq (by assumption) ?_ | refine snd_of_eq (by assumption) ?_ | dsimp only)

theorem execResendReqReceive_moves {f : Frame} {s : State} : Runs [.host, .stats, .ports, .frames, .stalled, .blockCounts, .pools, .intake, .tills, .faults, .fresh] s (execResendReqReceive f s) := by
  unfold execResendReqReceive
  repeat' (first | with_reducible assumption | with_reducible exact Moves.refl _ _ | with_reducible exact rfl | exact rfl |  (intro _) | with_reducible refine takeIntake_moves ?_ ?_ | with_reducible refine setTill_moves ?_ ?_ | with_reducible refine resendPartials_moves ?_ ?_ | with_reducible refine sendOwn_moves ?_ ?_ | with_reducible refine Runs.next ?_ | with_reducible refine ite_moves ?_ ?_ | with_reducible refine ite_snd_moves ?_ ?_ | with_reducible refine ite_fst_moves ?_ ?_ | split | refine fst_of_eq (by assumption) ?_ | refine snd_of_eq (by assumption) ?_ | dsimp only)

theorem execChunkTimerExpiry_moves {till : BitVec 12} {chunk : Nat} {s : State} : Runs [.host, .stats, .ports, .frames, .stalled, .blockCounts, .pools, .intake, .tills, .faults, .fresh] s (execChunkTimerExpiry till chunk s) := by
  unfold execChunkTimerExpiry
  repeat' (first | with_reducible assumption | with_reducible exact Moves.refl _ _ | with_reducible exact rfl | exact rfl |  (intro _) | with_reducible refine endTill_moves ?_ ?_ | with_reducible refine askResend_moves ?_ ?_ | with_reducible refine modChunk_moves ?_ ?_ | with_reducible refine Runs.next ?_ | with_reducible refine ite_moves ?_ ?_ | with_reducible refine ite_snd_moves ?_ ?_ | with_reducible refine ite_fst_moves ?_ ?_ | split | refine fst_of_eq (by assumption) ?_ | refine snd_of_eq (by assumption) ?_ | dsimp only)

theorem execSummaryTimerExpiry_moves {till : BitVec 12} {slot : Nat} {s : State} : Runs [.host, .stats, .ports, .frames, .stalled, .blockCounts, .pools, .intake, .tills, .faults, .fresh] s (execSummaryTimerExpiry till slot s) := by
  unfold execSummaryTimerExpiry
  repeat' (first | with_reducible assumption | with_reducible exact Moves.refl _ _ | with_reducible exact rfl | exact rfl |  (intro _) | with_reducible refine endTill_moves ?_ ?_ | with_reducible refine sendResend_moves ?_ ?_ | with_reducible refine modTill_moves ?_ ?_ | with_reducible refine Runs.next ?_ | with_reducible refine ite_moves ?_ ?_ | with_reducible refine ite_snd_moves ?_ ?_ | with_reducible refine ite_fst_moves ?_ ?_ | split | refine fst_of_eq (by assumption) ?_ | refine snd_of_eq (by assumption) ?_ | dsimp only)

theorem execEarlyForwardExpiry_moves {till : BitVec 12} {chunk : Nat} {s : State} : Runs [.host, .stats, .ports, .frames, .stalled, .blockCounts, .pools, .intake, .tills, .faults, .toss, .fresh] s (execEarlyForwardExpiry till chunk s) := by
  unfold execEarlyForwardExpiry
  repeat' (first | with_reducible assumption | with_reducible exact Moves.refl _ _ | with_reducible exact rfl | exact rfl |  (intro _) | with_reducible refine emitPartial_moves ?_ ?_ | with_reducible refine toss_moves ?_ ?_ | with_reducible refine modChunk_moves ?_ ?_ | with_reducible refine Runs.next ?_ | with_reducible refine ite_moves ?_ ?_ | with_reducible refine ite_snd_moves ?_ ?_ | with_reducible refine ite_fst_moves ?_ ?_ | split | refine fst_of_eq (by assumption) ?_ | refine snd_of_eq (by assumption) ?_ | dsimp only)

theorem execTillDeadline_moves {till : BitVec 12} {s : State} : Runs [.host, .stats, .ports, .stalled, .pools, .dropping, .tills, .ctxs, .hbm, .faults, .jobFree, .fresh] s (execTillDeadline till s) := by
  unfold execTillDeadline
  repeat' (first | with_reducible assumption | with_reducible exact Moves.refl _ _ | with_reducible exact rfl | exact rfl |  (intro _) | with_reducible refine lateEpoch_moves ?_ ?_ | with_reducible refine Runs.next ?_ | with_reducible refine ite_moves ?_ ?_ | with_reducible refine ite_snd_moves ?_ ?_ | with_reducible refine ite_fst_moves ?_ ?_ | split | refine fst_of_eq (by assumption) ?_ | refine snd_of_eq (by assumption) ?_ | dsimp only)

end Sys2Proof.Laws
end

