-- ==== Sys2Proof/Laws/Moves/TillCmds.lean ====
section
/-! SUPPORT. What the operations of Machine/TillCmds.lean may change: one lemma each. -/

set_option linter.unusedTactic false
set_option linter.unreachableTactic false
set_option linter.unusedVariables false

namespace Sys2Proof.Laws

open Sys2Proof.Machine Sys2Proof.Safety

theorem execTillOpen_moves {ring : BitVec 6} {d : Desc} {obj : TillObj} {s : State} : Runs [.host, .stats, .pools, .tills, .tiles, .faults, .ledger, .fresh] s (execTillOpen ring d obj s) := by
  unfold execTillOpen
  repeat' (first | with_reducible assumption | with_reducible exact Moves.refl _ _ | with_reducible exact rfl | exact rfl |  (intro _) | with_reducible refine accept_moves ?_ ?_ ?_ | with_reducible refine completeTo_moves ?_ ?_ | with_reducible refine admitTill_moves ?_ ?_ | with_reducible refine takeFresh_moves ?_ ?_ | with_reducible refine Runs.next ?_ | with_reducible refine ite_moves ?_ ?_ | with_reducible refine ite_snd_moves ?_ ?_ | with_reducible refine ite_fst_moves ?_ ?_ | split | refine fst_of_eq (by assumption) ?_ | refine snd_of_eq (by assumption) ?_ | dsimp only)

theorem dropWaiter_moves {ll ss} {s : State} {n : Nat} {t : Till} {status : Nat} (hh : Moves ll ss s) (hsub : sub [.host, .stats, .ports, .frames, .stalled, .blockCounts, .pools, .intake, .tills, .tiles, .hbm, .faults, .jobFree, .fresh] ll = true) :
    Moves ll ss (dropWaiter s n t status) := by
  refine hh.trans ?_ hsub; unfold dropWaiter
  repeat' (first | with_reducible assumption | with_reducible exact Moves.refl _ _ | with_reducible exact rfl | exact rfl |  (intro _) | with_reducible refine returnSlabs_moves ?_ ?_ | with_reducible refine scratchGive_moves ?_ ?_ | with_reducible refine admitWaited_moves ?_ ?_ | with_reducible refine unbind_moves ?_ ?_ | with_reducible refine completeTo_moves ?_ ?_ | with_reducible refine ite_moves ?_ ?_ | with_reducible refine ite_snd_moves ?_ ?_ | with_reducible refine ite_fst_moves ?_ ?_ | split | refine fst_of_eq (by assumption) ?_ | refine snd_of_eq (by assumption) ?_ | with_reducible refine upd_tills ?_ ?_ | dsimp only)

theorem execAdmissionGrant_moves {till : BitVec 12} {s : State} : Runs [.host, .stats, .ports, .frames, .stalled, .blockCounts, .pools, .intake, .tills, .tiles, .hbm, .faults, .jobFree, .ledger, .fresh] s (execAdmissionGrant till s) := by
  unfold execAdmissionGrant
  repeat' (first | with_reducible assumption | with_reducible exact Moves.refl _ _ | with_reducible exact rfl | exact rfl |  (intro _) | with_reducible refine grantEarlier_moves ?_ ?_ | with_reducible refine dropWaiter_moves ?_ ?_ | with_reducible refine grantTill_moves ?_ ?_ (by assumption) | with_reducible refine preemptFor_moves ?_ ?_ (by assumption) | with_reducible refine modTill_moves ?_ ?_ | with_reducible refine openTill_moves ?_ ?_ | with_reducible refine Runs.next ?_ | with_reducible refine ite_moves ?_ ?_ | with_reducible refine ite_snd_moves ?_ ?_ | with_reducible refine ite_fst_moves ?_ ?_ | split | refine fst_of_eq (by assumption) ?_ | refine snd_of_eq (by assumption) ?_ | dsimp only)

theorem tillCmd_moves {l : List Area} {ring : BitVec 6} {d : Desc} {op : Nat} {s : State}
    {body : Accept → Nat → Till → State → State} (hs : sub [.host, .stats, .fresh] l = true)
    (hb : ∀ a n t u, Moves l s u → Moves l s (body a n t u)) : Runs l s (tillCmd ring d op s body) := by
  have hu {m : List Area} (hm : sub m [.host, .stats, .fresh] = true) : sub m l = true := sub_trans hm hs
  refine Runs.next (accept_moves (Moves.refl _ _) (hu rfl) fun a u h => ?_)
  split
  · split
    · exact complete_moves h (hu rfl)
    · exact hb _ _ _ _ h
  · exact complete_moves h (hu rfl)

theorem addDrain_moves {ll ss} {s : State} {n : Nat} {t : Till} {kind : DrainKind} {by_ : Option Accept} (hh : Moves ll ss s) (hsub : sub [.tills] ll = true) :
    Moves ll ss (addDrain s n t kind by_) := by
  refine hh.trans ?_ hsub; unfold addDrain
  repeat' (first | with_reducible assumption | with_reducible exact Moves.refl _ _ | with_reducible exact rfl | exact rfl |  (intro _) | with_reducible refine setTill_moves ?_ ?_ | with_reducible refine ite_moves ?_ ?_ | with_reducible refine ite_snd_moves ?_ ?_ | with_reducible refine ite_fst_moves ?_ ?_ | split | refine fst_of_eq (by assumption) ?_ | refine snd_of_eq (by assumption) ?_ | dsimp only)

theorem dropIntake_moves {ll ss} {s : State} {n : Nat} (hh : Moves ll ss s) (hsub : sub [.host, .stats, .ports, .intake, .tills, .fresh] ll = true) :
    Moves ll ss (dropIntake s n) := by
  refine hh.trans ?_ hsub; unfold dropIntake
  repeat' (first | with_reducible assumption | with_reducible exact Moves.refl _ _ | with_reducible exact rfl | exact rfl |  (intro _) | with_reducible refine countDiscard_moves ?_ ?_ | with_reducible refine foldl_moves ?_ ?_ | with_reducible refine foldl_fst_moves ?_ ?_ | with_reducible refine ite_moves ?_ ?_ | with_reducible refine ite_snd_moves ?_ ?_ | with_reducible refine ite_fst_moves ?_ ?_ | split | refine fst_of_eq (by assumption) ?_ | refine snd_of_eq (by assumption) ?_ | with_reducible refine upd_intake ?_ ?_ | dsimp only)

theorem stopChunks_moves {ll ss} {s : State} {n : Nat} (hh : Moves ll ss s) (hsub : sub [.host, .ports, .stalled, .dropping, .ctxs, .hbm, .jobFree] ll = true) :
    Moves ll ss (stopChunks s n) := by
  refine hh.trans ?_ hsub; unfold stopChunks
  repeat' (first | with_reducible assumption | with_reducible exact Moves.refl _ _ | with_reducible exact rfl | exact rfl |  (intro _) | with_reducible refine abandonPass_moves ?_ ?_ | with_reducible refine dropReads_moves ?_ ?_ | with_reducible refine recallFrames_moves ?_ ?_ | with_reducible refine foldl_moves ?_ ?_ | with_reducible refine foldl_fst_moves ?_ ?_ | with_reducible refine ite_moves ?_ ?_ | with_reducible refine ite_snd_moves ?_ ?_ | with_reducible refine ite_fst_moves ?_ ?_ | split | refine fst_of_eq (by assumption) ?_ | refine snd_of_eq (by assumption) ?_ | dsimp only)

theorem freeByCommand_moves {ll ss} {s : State} {n : Nat} {post : Bool} {by_ : Option Accept} (hh : Moves ll ss s) (hsub : sub [.host, .stats, .ports, .frames, .stalled, .blockCounts, .pools, .dropping, .intake, .tills, .ctxs, .tiles, .hbm, .faults, .jobFree, .fresh] ll = true) :
    Moves ll ss (freeByCommand s n post by_) := by
  refine hh.trans ?_ hsub; unfold freeByCommand
  repeat' (first | with_reducible assumption | with_reducible exact Moves.refl _ _ | with_reducible exact rfl | exact rfl |  (intro _) | with_reducible refine modTill_moves ?_ ?_ | with_reducible refine stopChunks_moves ?_ ?_ | with_reducible refine postEpoch_moves ?_ ?_ | with_reducible refine dropIntake_moves ?_ ?_ | with_reducible refine freeTill_moves ?_ ?_ | with_reducible refine complete_moves ?_ ?_ | with_reducible refine ite_moves ?_ ?_ | with_reducible refine ite_snd_moves ?_ ?_ | with_reducible refine ite_fst_moves ?_ ?_ | split | refine fst_of_eq (by assumption) ?_ | refine snd_of_eq (by assumption) ?_ | dsimp only)

theorem execTillClose_moves {ring : BitVec 6} {d : Desc} {s : State} : Runs [.host, .stats, .tills, .fresh] s (execTillClose ring d s) := by
  unfold execTillClose
  repeat' (first | with_reducible assumption | with_reducible exact Moves.refl _ _ | with_reducible exact rfl | exact rfl |  (intro _) | with_reducible refine tillCmd_moves ?_ ?_ | with_reducible refine complete_moves ?_ ?_ | with_reducible refine addDrain_moves ?_ ?_ | with_reducible refine Runs.next ?_ | with_reducible refine ite_moves ?_ ?_ | with_reducible refine ite_snd_moves ?_ ?_ | with_reducible refine ite_fst_moves ?_ ?_ | split | refine fst_of_eq (by assumption) ?_ | refine snd_of_eq (by assumption) ?_ | dsimp only)

theorem execTillAbort_moves {ring : BitVec 6} {d : Desc} {s : State} : Runs [.host, .stats, .ports, .frames, .stalled, .blockCounts, .pools, .dropping, .intake, .tills, .ctxs, .tiles, .hbm, .faults, .jobFree, .fresh] s (execTillAbort ring d s) := by
  unfold execTillAbort
  repeat' (first | with_reducible assumption | with_reducible exact Moves.refl _ _ | with_reducible exact rfl | exact rfl |  (intro _) | with_reducible refine tillCmd_moves ?_ ?_ | with_reducible refine complete_moves ?_ ?_ | with_reducible refine dropWaiter_moves ?_ ?_ | with_reducible refine addDrain_moves ?_ ?_ | with_reducible refine freeByCommand_moves ?_ ?_ | with_reducible refine Runs.next ?_ | with_reducible refine ite_moves ?_ ?_ | with_reducible refine ite_snd_moves ?_ ?_ | with_reducible refine ite_fst_moves ?_ ?_ | split | refine fst_of_eq (by assumption) ?_ | refine snd_of_eq (by assumption) ?_ | dsimp only)

theorem execTillSave_moves {ring : BitVec 6} {d : Desc} {s : State} : Runs [.host, .stats, .pools, .tills, .faults, .fresh] s (execTillSave ring d s) := by
  unfold execTillSave
  repeat' (first | with_reducible assumption | with_reducible exact Moves.refl _ _ | with_reducible exact rfl | exact rfl |  (intro _) | with_reducible refine tillCmd_moves ?_ ?_ | with_reducible refine complete_moves ?_ ?_ | with_reducible refine beginSave_moves ?_ ?_ (by assumption) | with_reducible refine Runs.next ?_ | with_reducible refine ite_moves ?_ ?_ | with_reducible refine ite_snd_moves ?_ ?_ | with_reducible refine ite_fst_moves ?_ ?_ | split | refine fst_of_eq (by assumption) ?_ | refine snd_of_eq (by assumption) ?_ | dsimp only)

theorem execTillRestore_moves {ring : BitVec 6} {d : Desc} {img : TillImage} {chk : ReadCheck} {s : State} : Runs [.host, .stats, .pools, .tills, .faults, .fresh] s (execTillRestore ring d img chk s) := by
  unfold execTillRestore
  repeat' (first | with_reducible assumption | with_reducible exact Moves.refl _ _ | with_reducible exact rfl | exact rfl |  (intro _) | with_reducible refine tillCmd_moves ?_ ?_ | with_reducible refine complete_moves ?_ ?_ | with_reducible refine addDrain_moves ?_ ?_ | with_reducible refine grantTill_moves ?_ ?_ (by assumption) | with_reducible refine setTill_moves ?_ ?_ | with_reducible refine Runs.next ?_ | with_reducible refine ite_moves ?_ ?_ | with_reducible refine ite_snd_moves ?_ ?_ | with_reducible refine ite_fst_moves ?_ ?_ | split | refine fst_of_eq (by assumption) ?_ | refine snd_of_eq (by assumption) ?_ | dsimp only)

theorem execTillResume_moves {ring : BitVec 6} {d : Desc} {s : State} : Runs [.host, .stats, .tills, .fresh] s (execTillResume ring d s) := by
  unfold execTillResume
  repeat' (first | with_reducible assumption | with_reducible exact Moves.refl _ _ | with_reducible exact rfl | exact rfl |  (intro _) | with_reducible refine tillCmd_moves ?_ ?_ | with_reducible refine complete_moves ?_ ?_ | with_reducible refine setTill_moves ?_ ?_ | with_reducible refine Runs.next ?_ | with_reducible refine ite_moves ?_ ?_ | with_reducible refine ite_snd_moves ?_ ?_ | with_reducible refine ite_fst_moves ?_ ?_ | split | refine fst_of_eq (by assumption) ?_ | refine snd_of_eq (by assumption) ?_ | dsimp only)

theorem execTillExcise_moves {ring : BitVec 6} {d : Desc} {s : State} : Runs [.host, .stats, .tills, .fresh] s (execTillExcise ring d s) := by
  unfold execTillExcise
  repeat' (first | with_reducible assumption | with_reducible exact Moves.refl _ _ | with_reducible exact rfl | exact rfl |  (intro _) | with_reducible refine tillCmd_moves ?_ ?_ | with_reducible refine complete_moves ?_ ?_ | with_reducible refine setTill_moves ?_ ?_ | with_reducible refine addDrain_moves ?_ ?_ | with_reducible refine Runs.next ?_ | with_reducible refine ite_moves ?_ ?_ | with_reducible refine ite_snd_moves ?_ ?_ | with_reducible refine ite_fst_moves ?_ ?_ | split | refine fst_of_eq (by assumption) ?_ | refine snd_of_eq (by assumption) ?_ | dsimp only)

theorem resumeTill_moves {ll ss} {s : State} {n : Nat} (hh : Moves ll ss s) (hsub : sub [.host, .stats, .ports, .tills, .fresh] ll = true) :
    Moves ll ss (resumeTill s n) := by
  refine hh.trans ?_ hsub; unfold resumeTill
  repeat' (first | with_reducible assumption | with_reducible exact Moves.refl _ _ | with_reducible exact rfl | exact rfl |  (intro _) | with_reducible refine discard_moves ?_ ?_ | with_reducible refine complete_moves ?_ ?_ | with_reducible refine setTill_moves ?_ ?_ | with_reducible refine ite_moves ?_ ?_ | with_reducible refine ite_snd_moves ?_ ?_ | with_reducible refine ite_fst_moves ?_ ?_ | split | refine fst_of_eq (by assumption) ?_ | refine snd_of_eq (by assumption) ?_ | dsimp only)

theorem haltPasses_moves {ll ss} {s : State} {n : Nat} (hh : Moves ll ss s) (hsub : sub [.ctxs] ll = true) :
    Moves ll ss (haltPasses s n) := by
  refine hh.trans ?_ hsub; unfold haltPasses
  repeat' (first | with_reducible assumption | with_reducible exact Moves.refl _ _ | with_reducible exact rfl | exact rfl |  (intro _) | with_reducible refine stopRun_moves ?_ ?_ | with_reducible refine foldl_moves ?_ ?_ | with_reducible refine foldl_fst_moves ?_ ?_ | with_reducible refine ite_moves ?_ ?_ | with_reducible refine ite_snd_moves ?_ ?_ | with_reducible refine ite_fst_moves ?_ ?_ | split | refine fst_of_eq (by assumption) ?_ | refine snd_of_eq (by assumption) ?_ | dsimp only)

theorem drainBegins_moves {ll ss} {s : State} {n : Nat} {t : Till} {d : Drain} (hh : Moves ll ss s) (hsub : sub [.tills, .ctxs] ll = true) :
    Moves ll ss (drainBegins s n t d) := by
  refine hh.trans ?_ hsub; unfold drainBegins
  repeat' (first | with_reducible assumption | with_reducible exact Moves.refl _ _ | with_reducible exact rfl | exact rfl |  (intro _) | with_reducible refine haltPasses_moves ?_ ?_ | with_reducible refine stopRunning_moves ?_ ?_ | with_reducible refine modTill_moves ?_ ?_ | with_reducible refine foldl_moves ?_ ?_ | with_reducible refine foldl_fst_moves ?_ ?_ | with_reducible refine ite_moves ?_ ?_ | with_reducible refine ite_snd_moves ?_ ?_ | with_reducible refine ite_fst_moves ?_ ?_ | split | refine fst_of_eq (by assumption) ?_ | refine snd_of_eq (by assumption) ?_ | dsimp only)

theorem tillCycle_moves {ll ss} {s : State} (hh : Moves ll ss s) (hsub : sub [.host, .stats, .ports, .frames, .stalled, .blockCounts, .pools, .dropping, .intake, .tills, .ctxs, .tiles, .hbm, .faults, .bridge, .jobFree, .fresh] ll = true) :
    Moves ll ss (tillCycle s) := by
  refine hh.trans ?_ hsub; unfold tillCycle
  repeat' (first | with_reducible assumption | with_reducible exact Moves.refl _ _ | with_reducible exact rfl | exact rfl |  (intro _) | with_reducible refine openTills_moves ?_ ?_ | with_reducible refine resumeTill_moves ?_ ?_ | with_reducible refine drainBegins_moves ?_ ?_ | with_reducible refine freeTill_moves ?_ ?_ | with_reducible refine retireTill_moves ?_ ?_ | with_reducible refine foldl_moves ?_ ?_ | with_reducible refine foldl_fst_moves ?_ ?_ | with_reducible refine ite_moves ?_ ?_ | with_reducible refine ite_snd_moves ?_ ?_ | with_reducible refine ite_fst_moves ?_ ?_ | split | refine fst_of_eq (by assumption) ?_ | refine snd_of_eq (by assumption) ?_ | dsimp only)

theorem exciseTill_moves {ll ss} {s : State} {n slot rank : Nat} {by_ : Option Accept} (hh : Moves ll ss s) (hsub : sub [.host, .stats, .ports, .frames, .stalled, .blockCounts, .pools, .dropping, .intake, .tills, .ctxs, .tiles, .hbm, .faults, .bridge, .toss, .jobFree, .fresh] ll = true) :
    Moves ll ss (exciseTill s n slot rank by_) := by
  refine hh.trans ?_ hsub; unfold exciseTill
  repeat' (first | with_reducible assumption | with_reducible exact Moves.refl _ _ | with_reducible exact rfl | exact rfl |  (intro _) | with_reducible refine resetChunk_moves ?_ ?_ | with_reducible refine modTill_moves ?_ ?_ | with_reducible refine askResend_moves ?_ ?_ | with_reducible refine sendResend_moves ?_ ?_ | with_reducible refine toss_moves ?_ ?_ | with_reducible refine postEvent_moves ?_ ?_ | with_reducible refine complete_moves ?_ ?_ | with_reducible refine tryComplete_moves ?_ ?_ | with_reducible refine zeroChunks_moves ?_ ?_ | with_reducible refine settleTill_moves ?_ ?_ | with_reducible refine foldl_moves ?_ ?_ | with_reducible refine foldl_fst_moves ?_ ?_ | with_reducible refine ite_moves ?_ ?_ | with_reducible refine ite_snd_moves ?_ ?_ | with_reducible refine ite_fst_moves ?_ ?_ | split | refine fst_of_eq (by assumption) ?_ | refine snd_of_eq (by assumption) ?_ | dsimp only)

theorem endEpoch_moves {ll ss} {s : State} {n status : Nat} {e : W16} (hh : Moves ll ss s) (hsub : sub [.host, .stats, .ports, .stalled, .pools, .dropping, .intake, .tills, .ctxs, .hbm, .faults, .jobFree, .fresh] ll = true) :
    Moves ll ss (endEpoch s n status e) := by
  refine hh.trans ?_ hsub; unfold endEpoch
  repeat' (first | with_reducible assumption | with_reducible exact Moves.refl _ _ | with_reducible exact rfl | exact rfl |  (intro _) | with_reducible refine stopChunks_moves ?_ ?_ | with_reducible refine modTill_moves ?_ ?_ | with_reducible refine postEpoch_moves ?_ ?_ | with_reducible refine freeSlabs_moves ?_ ?_ | with_reducible refine dropIntake_moves ?_ ?_ | with_reducible refine foldl_moves ?_ ?_ | with_reducible refine foldl_fst_moves ?_ ?_ | with_reducible refine ite_moves ?_ ?_ | with_reducible refine ite_snd_moves ?_ ?_ | with_reducible refine ite_fst_moves ?_ ?_ | split | refine fst_of_eq (by assumption) ?_ | refine snd_of_eq (by assumption) ?_ | dsimp only)

theorem snapshot_moves {ll ss} {s : State} {n : Nat} {preempt : Bool} {by_ : Option Accept} (hh : Moves ll ss s) (hsub : sub [.host, .tills, .fresh] ll = true) :
    Moves ll ss (snapshot s n preempt by_) := by
  refine hh.trans ?_ hsub; unfold snapshot
  repeat' (first | with_reducible assumption | with_reducible exact Moves.refl _ _ | with_reducible exact rfl | exact rfl |  (intro _) | with_reducible refine hostWrite_moves ?_ ?_ | with_reducible refine setTill_moves ?_ ?_ | with_reducible refine ite_moves ?_ ?_ | with_reducible refine ite_snd_moves ?_ ?_ | with_reducible refine ite_fst_moves ?_ ?_ | split | refine fst_of_eq (by assumption) ?_ | refine snd_of_eq (by assumption) ?_ | dsimp only)

theorem drainAct_moves {ll ss} {s : State} {n : Nat} {d : Drain} (hh : Moves ll ss s) (hsub : sub [.host, .stats, .ports, .frames, .stalled, .blockCounts, .pools, .dropping, .intake, .tills, .ctxs, .tiles, .hbm, .faults, .bridge, .toss, .jobFree, .fresh] ll = true) :
    Moves ll ss (drainAct s n d) := by
  refine hh.trans ?_ hsub; unfold drainAct
  repeat' (first | with_reducible assumption | with_reducible exact Moves.refl _ _ | with_reducible exact rfl | exact rfl |  (intro _) | with_reducible refine exciseTill_moves ?_ ?_ | with_reducible refine freeByCommand_moves ?_ ?_ | with_reducible refine endEpoch_moves ?_ ?_ | with_reducible refine snapshot_moves ?_ ?_ | with_reducible refine modTill_moves ?_ ?_ | with_reducible refine dropIntake_moves ?_ ?_ | with_reducible refine complete_moves ?_ ?_ | with_reducible refine ite_moves ?_ ?_ | with_reducible refine ite_snd_moves ?_ ?_ | with_reducible refine ite_fst_moves ?_ ?_ | split | refine fst_of_eq (by assumption) ?_ | refine snd_of_eq (by assumption) ?_ | dsimp only)

theorem execDrainAction_moves {till : BitVec 12} {s : State} : Runs [.host, .stats, .ports, .frames, .stalled, .blockCounts, .pools, .dropping, .intake, .tills, .ctxs, .tiles, .hbm, .faults, .bridge, .toss, .jobFree, .fresh] s (execDrainAction till s) := by
  unfold execDrainAction
  repeat' (first | with_reducible assumption | with_reducible exact Moves.refl _ _ | with_reducible exact rfl | exact rfl |  (intro _) | with_reducible refine drainAct_moves ?_ ?_ | with_reducible refine setTill_moves ?_ ?_ | with_reducible refine Runs.next ?_ | with_reducible refine ite_moves ?_ ?_ | with_reducible refine ite_snd_moves ?_ ?_ | with_reducible refine ite_fst_moves ?_ ?_ | split | refine fst_of_eq (by assumption) ?_ | refine snd_of_eq (by assumption) ?_ | dsimp only)

theorem execSnapshotWritten_moves {till : BitVec 12} {s : State} : Runs [.host, .stats, .ports, .pools, .intake, .tills, .ctxs, .jobFree, .fresh] s (execSnapshotWritten till s) := by
  unfold execSnapshotWritten
  repeat' (first | with_reducible assumption | with_reducible exact Moves.refl _ _ | with_reducible exact rfl | exact rfl |  (intro _) | with_reducible refine abandonPass_moves ?_ ?_ | with_reducible refine returnSlabs_moves ?_ ?_ | with_reducible refine setTill_moves ?_ ?_ | with_reducible refine dropIntake_moves ?_ ?_ | with_reducible refine complete_moves ?_ ?_ | with_reducible refine foldl_moves ?_ ?_ | with_reducible refine foldl_fst_moves ?_ ?_ | with_reducible refine Runs.next ?_ | with_reducible refine ite_moves ?_ ?_ | with_reducible refine ite_snd_moves ?_ ?_ | with_reducible refine ite_fst_moves ?_ ?_ | split | refine fst_of_eq (by assumption) ?_ | refine snd_of_eq (by assumption) ?_ | dsimp only)

theorem restartChunks_moves {ll ss} {s : State} {n : Nat} (hh : Moves ll ss s) (hsub : sub [.host, .stats, .ports, .frames, .stalled, .blockCounts, .pools, .dropping, .intake, .tills, .ctxs, .hbm, .faults, .bridge, .fresh] ll = true) :
    Moves ll ss (restartChunks s n) := by
  refine hh.trans ?_ hsub; unfold restartChunks
  repeat' (first | with_reducible assumption | with_reducible exact Moves.refl _ _ | with_reducible exact rfl | exact rfl |  (intro _) | with_reducible refine pushPass_moves ?_ ?_ | with_reducible refine fetchFuse_moves ?_ ?_ | with_reducible refine foldl_moves ?_ ?_ | with_reducible refine foldl_fst_moves ?_ ?_ | with_reducible refine ite_moves ?_ ?_ | with_reducible refine ite_snd_moves ?_ ?_ | with_reducible refine ite_fst_moves ?_ ?_ | split | refine fst_of_eq (by assumption) ?_ | refine snd_of_eq (by assumption) ?_ | dsimp only)

theorem loadImage_moves {ll ss} {s : State} {n : Nat} {t : Till} {img : TillImage} {by_ : Option Accept} (hh : Moves ll ss s) (hsub : sub [.host, .stats, .ports, .frames, .stalled, .blockCounts, .pools, .dropping, .intake, .tills, .ctxs, .hbm, .faults, .bridge, .fresh] ll = true) :
    Moves ll ss (loadImage s n t img by_) := by
  refine hh.trans ?_ hsub; unfold loadImage
  repeat' (first | with_reducible assumption | with_reducible exact Moves.refl _ _ | with_reducible exact rfl | exact rfl |  (intro _) | with_reducible refine giveStaging_moves ?_ ?_ | with_reducible refine setTill_moves ?_ ?_ | with_reducible refine restartChunks_moves ?_ ?_ | with_reducible refine complete_moves ?_ ?_ | with_reducible refine ite_moves ?_ ?_ | with_reducible refine ite_snd_moves ?_ ?_ | with_reducible refine ite_fst_moves ?_ ?_ | split | refine fst_of_eq (by assumption) ?_ | refine snd_of_eq (by assumption) ?_ | dsimp only)

theorem execRestoreLoaded_moves {till : BitVec 12} {s : State} : Runs [.host, .stats, .ports, .frames, .stalled, .blockCounts, .pools, .dropping, .intake, .tills, .ctxs, .hbm, .faults, .bridge, .fresh] s (execRestoreLoaded till s) := by
  unfold execRestoreLoaded
  repeat' (first | with_reducible assumption | with_reducible exact Moves.refl _ _ | with_reducible exact rfl | exact rfl |  (intro _) | with_reducible refine grantTill_moves ?_ ?_ (by assumption) | with_reducible refine loadImage_moves ?_ ?_ | with_reducible refine dropIntake_moves ?_ ?_ | with_reducible refine Runs.next ?_ | with_reducible refine ite_moves ?_ ?_ | with_reducible refine ite_snd_moves ?_ ?_ | with_reducible refine ite_fst_moves ?_ ?_ | split | refine fst_of_eq (by assumption) ?_ | refine snd_of_eq (by assumption) ?_ | dsimp only)

theorem execPreemptRestore_moves {till : BitVec 12} {s : State} : Runs [.host, .stats, .pools, .tills, .faults, .ledger, .fresh] s (execPreemptRestore till s) := by
  unfold execPreemptRestore
  repeat' (first | with_reducible assumption | with_reducible exact Moves.refl _ _ | with_reducible exact rfl | exact rfl |  (intro _) | with_reducible refine grantTill_moves ?_ ?_ (by assumption) | with_reducible refine recordRaw_moves ?_ ?_ | with_reducible refine setTill_moves ?_ ?_ | with_reducible refine Runs.next ?_ | with_reducible refine ite_moves ?_ ?_ | with_reducible refine ite_snd_moves ?_ ?_ | with_reducible refine ite_fst_moves ?_ ?_ | split | refine fst_of_eq (by assumption) ?_ | refine snd_of_eq (by assumption) ?_ | dsimp only)

end Sys2Proof.Laws
end

