-- ==== Sys2Proof/Laws/Moves/Engine.lean ====
section
/-! SUPPORT. What the operations of Machine/Engine.lean may change: one lemma each. -/

set_option linter.unusedTactic false
set_option linter.unreachableTactic false
set_option linter.unusedVariables false

namespace Sys2Proof.Laws

open Sys2Proof.Machine Sys2Proof.Safety

theorem delayBulk_moves {ll ss} {s : State} {tile n : Nat} (hh : Moves ll ss s) (hsub : sub [.ctxs] ll = true) :
    Moves ll ss (delayBulk s tile n) := by
  refine hh.trans ?_ hsub; unfold delayBulk
  repeat' (first | with_reducible assumption | with_reducible exact Moves.refl _ _ | with_reducible exact rfl | exact rfl |  (intro _) | with_reducible refine setCtx_moves ?_ ?_ | with_reducible refine ite_moves ?_ ?_ | with_reducible refine ite_snd_moves ?_ ?_ | with_reducible refine ite_fst_moves ?_ ?_ | split | refine fst_of_eq (by assumption) ?_ | refine snd_of_eq (by assumption) ?_ | dsimp only)

theorem rethrottle_moves {ll ss} {s : State} {die f f' : Nat} (hh : Moves ll ss s) (hsub : sub [.ctxs] ll = true) :
    Moves ll ss (rethrottle s die f f') := by
  refine hh.trans ?_ hsub; unfold rethrottle
  repeat' (first | with_reducible assumption | with_reducible exact Moves.refl _ _ | with_reducible exact rfl | exact rfl | ((fail_if_success (show Moves _ _ _)); first | exact side_hostSame rfl rfl rfl rfl | exact side_tables rfl | exact side_nil | exact side_map | exact side_hostMap rfl rfl rfl rfl | exact side_host4 rfl rfl rfl rfl) |  (intro _) | with_reducible refine ite_moves ?_ ?_ | with_reducible refine ite_snd_moves ?_ ?_ | with_reducible refine ite_fst_moves ?_ ?_ | split | refine fst_of_eq (by assumption) ?_ | refine snd_of_eq (by assumption) ?_ | with_reducible refine upd_ctxs ?_ ?_ ?_ | dsimp only)

theorem passOver_moves {ll ss} {s : State} {key : Nat} {p : Pass} (hh : Moves ll ss s) (hsub : sub [.host, .ctxs] ll = true) :
    Moves ll ss (passOver s key p) := by
  refine hh.trans ?_ hsub; unfold passOver
  repeat' (first | with_reducible assumption | with_reducible exact Moves.refl _ _ | with_reducible exact rfl | exact rfl |  (intro _) | with_reducible refine setCtx_moves ?_ ?_ | with_reducible refine ready_moves ?_ ?_ | with_reducible refine ite_moves ?_ ?_ | with_reducible refine ite_snd_moves ?_ ?_ | with_reducible refine ite_fst_moves ?_ ?_ | split | refine fst_of_eq (by assumption) ?_ | refine snd_of_eq (by assumption) ?_ | dsimp only)

theorem publishChunk_moves {ll ss} {s : State} {n k : Nat} {t : Till} {r : Region} {bytes : List Byte} {ready : Nat → Nat} (hh : Moves ll ss s) (hsub : sub [.host, .stats, .ports, .frames, .stalled, .blockCounts, .pools, .intake, .faults, .fresh] ll = true) :
    Moves ll ss (publishChunk s n k t r bytes ready) := by
  refine hh.trans ?_ hsub; unfold publishChunk
  repeat' (first | with_reducible assumption | with_reducible exact Moves.refl _ _ | with_reducible exact rfl | exact rfl |  (intro _) | with_reducible refine sendResults_moves ?_ ?_ | with_reducible refine ready_moves ?_ ?_ | with_reducible refine ite_moves ?_ ?_ | with_reducible refine ite_snd_moves ?_ ?_ | with_reducible refine ite_fst_moves ?_ ?_ | split | refine fst_of_eq (by assumption) ?_ | refine snd_of_eq (by assumption) ?_ | dsimp only)

theorem catchUp_moves {ll ss} {s : State} {n k : Nat} {t : Till} {r : Region} {u : W16} (hh : Moves ll ss s) (hsub : sub [.host, .stats, .ports, .frames, .stalled, .blockCounts, .pools, .intake, .tills, .faults, .fresh] ll = true) :
    Moves ll ss (catchUp s n k t r u) := by
  refine hh.trans ?_ hsub; unfold catchUp
  repeat' (first | with_reducible assumption | with_reducible exact Moves.refl _ _ | with_reducible exact rfl | exact rfl |  (intro _) | with_reducible refine publishChunk_moves ?_ ?_ | with_reducible refine modChunk_moves ?_ ?_ | with_reducible refine ite_moves ?_ ?_ | with_reducible refine ite_snd_moves ?_ ?_ | with_reducible refine ite_fst_moves ?_ ?_ | split | refine fst_of_eq (by assumption) ?_ | refine snd_of_eq (by assumption) ?_ | dsimp only)

theorem readOpnds_moves {ll ss} {s : State} {n chunk : Nat} {l : List Nat} {chk : ReadCheck} (hh : Moves ll ss s) (hsub : sub [.host, .stats, .blockCounts, .hbm, .faults, .fresh] ll = true) :
    Moves ll ss (readOpnds s n chunk l chk).1 := by
  refine hh.trans ?_ hsub; unfold readOpnds
  repeat' (first | with_reducible assumption | with_reducible exact Moves.refl _ _ | with_reducible exact rfl | exact rfl |  (intro _) | with_reducible refine detect_moves ?_ ?_ | with_reducible refine foldl_moves ?_ ?_ | with_reducible refine foldl_fst_moves ?_ ?_ | with_reducible refine ite_moves ?_ ?_ | with_reducible refine ite_snd_moves ?_ ?_ | with_reducible refine ite_fst_moves ?_ ?_ | split | refine fst_of_eq (by assumption) ?_ | refine snd_of_eq (by assumption) ?_ | dsimp only)

theorem streamStall_moves {ll ss} {s : State} {e : Nat × Ctx} (hh : Moves ll ss s) (hsub : sub [.ctxs] ll = true) :
    Moves ll ss (streamStall s e) := by
  refine hh.trans ?_ hsub; unfold streamStall
  repeat' (first | with_reducible assumption | with_reducible exact Moves.refl _ _ | with_reducible exact rfl | exact rfl |  (intro _) | with_reducible refine setCtx_moves ?_ ?_ | with_reducible refine ite_moves ?_ ?_ | with_reducible refine ite_snd_moves ?_ ?_ | with_reducible refine ite_fst_moves ?_ ?_ | split | refine fst_of_eq (by assumption) ?_ | refine snd_of_eq (by assumption) ?_ | dsimp only)

theorem streamMove_moves {ll ss} {s : State} {key r w : Nat} (hh : Moves ll ss s) (hsub : sub [.ctxs] ll = true) :
    Moves ll ss (streamMove s key r w) := by
  refine hh.trans ?_ hsub; unfold streamMove
  repeat' (first | with_reducible assumption | with_reducible exact Moves.refl _ _ | with_reducible exact rfl | exact rfl |  (intro _) | with_reducible refine setCtx_moves ?_ ?_ | with_reducible refine ite_moves ?_ ?_ | with_reducible refine ite_snd_moves ?_ ?_ | with_reducible refine ite_fst_moves ?_ ?_ | split | refine fst_of_eq (by assumption) ?_ | refine snd_of_eq (by assumption) ?_ | dsimp only)

theorem streamServe_moves {ll ss} {s : State} {die budget : Nat} {l : List (Nat × Ctx)} (hh : Moves ll ss s) (hsub : sub [.ctxs, .hbm] ll = true) : Moves ll ss (streamServe s die budget l) := by
  refine hh.trans ?_ hsub; clear hh hsub
  suffices H : ∀ s1, Moves [.ctxs, .hbm] s1 s → Moves [.ctxs, .hbm] s1 (streamServe s die budget l) from H _ (Moves.refl _ _)
  induction l generalizing s budget with
  | nil => intro s1 h; exact h
  | cons x xs ih =>
    intro s1 h; unfold streamServe
    repeat' (first | with_reducible assumption | with_reducible exact Moves.refl _ _ | with_reducible exact rfl | exact rfl |  (intro _) | with_reducible apply ih | with_reducible refine streamMove_moves ?_ ?_ | with_reducible refine ite_moves ?_ ?_ | with_reducible refine ite_snd_moves ?_ ?_ | with_reducible refine ite_fst_moves ?_ ?_ | split | refine fst_of_eq (by assumption) ?_ | refine snd_of_eq (by assumption) ?_ | with_reducible refine upd_hbm ?_ ?_ rfl | dsimp only)

theorem streamCycle_moves {ll ss} {s : State} (hh : Moves ll ss s) (hsub : sub [.ctxs, .hbm] ll = true) :
    Moves ll ss (streamCycle s) := by
  refine hh.trans ?_ hsub; unfold streamCycle
  repeat' (first | with_reducible assumption | with_reducible exact Moves.refl _ _ | with_reducible exact rfl | exact rfl |  (intro _) | with_reducible refine streamStall_moves ?_ ?_ | with_reducible refine streamServe_moves ?_ ?_ | with_reducible refine foldl_moves ?_ ?_ | with_reducible refine foldl_fst_moves ?_ ?_ | with_reducible refine ite_moves ?_ ?_ | with_reducible refine ite_snd_moves ?_ ?_ | with_reducible refine ite_fst_moves ?_ ?_ | split | refine fst_of_eq (by assumption) ?_ | refine snd_of_eq (by assumption) ?_ | dsimp only)

theorem startUpdate_moves {ll ss} {s : State} {key : Nat} {p : Pass} {chk : ReadCheck} (hh : Moves ll ss s) (hsub : sub [.host, .stats, .refused, .ports, .frames, .stalled, .blockCounts, .pools, .intake, .tills, .ctxs, .tiles, .hbm, .faults, .jobFree, .ledger, .fresh] ll = true) :
    Moves ll ss (startUpdate s key p chk) := by
  refine hh.trans ?_ hsub; unfold startUpdate
  repeat' (first | with_reducible assumption | with_reducible exact Moves.refl _ _ | with_reducible exact rfl | exact rfl |  (intro _) | with_reducible refine setCtx_moves ?_ ?_ | with_reducible refine ready_moves ?_ ?_ | with_reducible refine passWaited_moves ?_ ?_ | with_reducible refine catchUp_moves ?_ ?_ | with_reducible refine endTill_moves ?_ ?_ | with_reducible refine readOpnds_moves ?_ ?_ | with_reducible refine readProgram_moves ?_ ?_ | with_reducible refine delayBulk_moves ?_ ?_ | with_reducible refine ite_moves ?_ ?_ | with_reducible refine ite_snd_moves ?_ ?_ | with_reducible refine ite_fst_moves ?_ ?_ | split | refine fst_of_eq (by assumption) ?_ | refine snd_of_eq (by assumption) ?_ | dsimp only)

theorem execUpdatePassStart_moves {till : BitVec 12} {chunk : Nat} {s : State} : Runs [.host, .stats, .refused, .ports, .frames, .stalled, .blockCounts, .pools, .intake, .tills, .ctxs, .tiles, .hbm, .faults, .jobFree, .ledger, .fresh] s (execUpdatePassStart till chunk s) := by
  unfold execUpdatePassStart
  repeat' (first | with_reducible assumption | with_reducible exact Moves.refl _ _ | with_reducible exact rfl | exact rfl |  (intro _) | with_reducible refine startUpdate_moves ?_ ?_ | with_reducible refine passOver_moves ?_ ?_ | with_reducible refine Runs.next ?_ | with_reducible refine ite_moves ?_ ?_ | with_reducible refine ite_snd_moves ?_ ?_ | with_reducible refine ite_fst_moves ?_ ?_ | split | refine fst_of_eq (by assumption) ?_ | refine snd_of_eq (by assumption) ?_ | dsimp only)

theorem beginRun_moves {ll ss} {s : State} {tile : Nat} {r : RunReq} (hh : Moves ll ss s) (hsub : sub [.now, .host, .stats, .refused, .blockCounts, .tills, .ctxs, .tiles, .hbm, .faults, .ledger, .fresh] ll = true) :
    Moves ll ss (beginRun s tile r) := by
  refine hh.trans ?_ hsub; unfold beginRun
  repeat' (first | with_reducible assumption | with_reducible exact Moves.refl _ _ | with_reducible exact rfl | exact rfl |  (intro _) | with_reducible refine readProgram_moves ?_ ?_ | with_reducible refine setCtx_moves ?_ ?_ | with_reducible refine ite_moves ?_ ?_ | with_reducible refine ite_snd_moves ?_ ?_ | with_reducible refine ite_fst_moves ?_ ?_ | split | refine fst_of_eq (by assumption) ?_ | refine snd_of_eq (by assumption) ?_ | with_reducible refine upd_now ?_ ?_ | dsimp only)

theorem startRun_moves {ll ss} {s : State} {key : Nat} {p : Pass} {r : RunReq} {chk : ReadCheck} (hh : Moves ll ss s) (hsub : sub [.now, .host, .stats, .refused, .ports, .frames, .stalled, .blockCounts, .pools, .intake, .tills, .ctxs, .tiles, .hbm, .faults, .ledger, .fresh] ll = true) :
    Moves ll ss (startRun s key p r chk) := by
  refine hh.trans ?_ hsub; unfold startRun
  repeat' (first | with_reducible assumption | with_reducible exact Moves.refl _ _ | with_reducible exact rfl | exact rfl |  (intro _) | with_reducible refine setCtx_moves ?_ ?_ | with_reducible refine scratchTake_moves ?_ ?_ | with_reducible refine ready_moves ?_ ?_ | with_reducible refine beginRun_moves ?_ ?_ | with_reducible refine dropRun_moves ?_ ?_ | with_reducible refine accessChecks_moves ?_ ?_ | with_reducible refine takeFresh_moves ?_ ?_ | with_reducible refine sendRequest_moves ?_ ?_ | with_reducible refine foldl_moves ?_ ?_ | with_reducible refine foldl_fst_moves ?_ ?_ | with_reducible refine ite_moves ?_ ?_ | with_reducible refine ite_snd_moves ?_ ?_ | with_reducible refine ite_fst_moves ?_ ?_ | split | refine fst_of_eq (by assumption) ?_ | refine snd_of_eq (by assumption) ?_ | with_reducible refine upd_hbm ?_ ?_ rfl | dsimp only)

theorem startNext_moves {ll ss} {ps : List Pass} {s : State} {key : Nat} {chk : ReadCheck} (hh : Moves ll ss s) (hsub : sub [.now, .host, .stats, .refused, .ports, .frames, .stalled, .blockCounts, .pools, .intake, .tills, .ctxs, .tiles, .hbm, .faults, .jobFree, .ledger, .fresh] ll = true) : Moves ll ss (startNext ps s key chk) := by
  refine hh.trans ?_ hsub; clear hh hsub
  suffices H : ∀ s1, Moves [.now, .host, .stats, .refused, .ports, .frames, .stalled, .blockCounts, .pools, .intake, .tills, .ctxs, .tiles, .hbm, .faults, .jobFree, .ledger, .fresh] s1 s → Moves [.now, .host, .stats, .refused, .ports, .frames, .stalled, .blockCounts, .pools, .intake, .tills, .ctxs, .tiles, .hbm, .faults, .jobFree, .ledger, .fresh] s1 (startNext ps s key chk) from H _ (Moves.refl _ _)
  induction ps generalizing s with
  | nil => intro s1 h; exact h
  | cons x xs ih =>
    intro s1 h; unfold startNext
    repeat' (first | with_reducible assumption | with_reducible exact Moves.refl _ _ | with_reducible exact rfl | exact rfl |  (intro _) | with_reducible apply ih | with_reducible refine startRun_moves ?_ ?_ | with_reducible refine startUpdate_moves ?_ ?_ | with_reducible refine passOver_moves ?_ ?_ | with_reducible refine ite_moves ?_ ?_ | with_reducible refine ite_snd_moves ?_ ?_ | with_reducible refine ite_fst_moves ?_ ?_ | split | refine fst_of_eq (by assumption) ?_ | refine snd_of_eq (by assumption) ?_ | dsimp only)

theorem execEnginePassStart_moves {tile : BitVec 12} {tick : Bool} {chk : ReadCheck} {s : State} : Runs [.now, .host, .stats, .refused, .ports, .frames, .stalled, .blockCounts, .pools, .intake, .tills, .ctxs, .tiles, .hbm, .faults, .jobFree, .ledger, .fresh] s (execEnginePassStart tile tick chk s) := by
  unfold execEnginePassStart
  repeat' (first | with_reducible assumption | with_reducible exact Moves.refl _ _ | with_reducible exact rfl | exact rfl |  (intro _) | with_reducible refine startNext_moves ?_ ?_ | with_reducible refine Runs.next ?_ | with_reducible refine ite_moves ?_ ?_ | with_reducible refine ite_snd_moves ?_ ?_ | with_reducible refine ite_fst_moves ?_ ?_ | split | refine fst_of_eq (by assumption) ?_ | refine snd_of_eq (by assumption) ?_ | dsimp only)

theorem endUpdate_moves {ll ss} {s : State} {n k : Nat} {run : Running} (hh : Moves ll ss s) (hsub : sub [.host, .stats, .ports, .frames, .stalled, .blockCounts, .pools, .intake, .tills, .hbm, .faults, .fresh] ll = true) :
    Moves ll ss (endUpdate s n k run) := by
  refine hh.trans ?_ hsub; unfold endUpdate
  repeat' (first | with_reducible assumption | with_reducible exact Moves.refl _ _ | with_reducible exact rfl | exact rfl |  (intro _) | with_reducible refine setRegion_moves ?_ ?_ | with_reducible refine modChunk_moves ?_ ?_ | with_reducible refine publishChunk_moves ?_ ?_ | with_reducible refine ite_moves ?_ ?_ | with_reducible refine ite_snd_moves ?_ ?_ | with_reducible refine ite_fst_moves ?_ ?_ | split | refine fst_of_eq (by assumption) ?_ | refine snd_of_eq (by assumption) ?_ | dsimp only)

theorem execEnginePassEnd_moves {tile : BitVec 12} {tick : Bool} {s : State} : Runs [.host, .stats, .ports, .frames, .stalled, .blockCounts, .pools, .intake, .tills, .ctxs, .hbm, .faults, .fresh] s (execEnginePassEnd tile tick s) := by
  unfold execEnginePassEnd
  repeat' (first | with_reducible assumption | with_reducible exact Moves.refl _ _ | with_reducible exact rfl | exact rfl |  (intro _) | with_reducible refine endUpdate_moves ?_ ?_ | with_reducible refine setCtx_moves ?_ ?_ | with_reducible refine Runs.next ?_ | with_reducible refine ite_moves ?_ ?_ | with_reducible refine ite_snd_moves ?_ ?_ | with_reducible refine ite_fst_moves ?_ ?_ | split | refine fst_of_eq (by assumption) ?_ | refine snd_of_eq (by assumption) ?_ | dsimp only)

theorem spoilGathers_moves {ll ss} {s : State} {n : Nat} (hh : Moves ll ss s) (hsub : sub [.host] ll = true) :
    Moves ll ss (spoilGathers s n) := by
  refine hh.trans ?_ hsub; unfold spoilGathers
  repeat' (first | with_reducible assumption | with_reducible exact Moves.refl _ _ | with_reducible exact rfl | exact rfl | ((fail_if_success (show Moves _ _ _)); first | exact side_hostSame rfl rfl rfl rfl | exact side_tables rfl | exact side_nil | exact side_map | exact side_hostMap rfl rfl rfl rfl | exact side_host4 rfl rfl rfl rfl) |  (intro _) | with_reducible refine ready_moves ?_ ?_ | with_reducible refine ite_moves ?_ ?_ | with_reducible refine ite_snd_moves ?_ ?_ | with_reducible refine ite_fst_moves ?_ ?_ | split | refine fst_of_eq (by assumption) ?_ | refine snd_of_eq (by assumption) ?_ | with_reducible refine upd_host ?_ ?_ ?_ | dsimp only)

theorem keepBuild_moves {ll ss} {s : State} {t : Till} {k : Nat} (hh : Moves ll ss s) (hsub : sub [.host, .hbm] ll = true) :
    Moves ll ss (keepBuild s t k) := by
  refine hh.trans ?_ hsub; unfold keepBuild
  repeat' (first | with_reducible assumption | with_reducible exact Moves.refl _ _ | with_reducible exact rfl | exact rfl |  (intro _) | with_reducible refine spoilGathers_moves ?_ ?_ | with_reducible refine setRegion_moves ?_ ?_ | with_reducible refine ite_moves ?_ ?_ | with_reducible refine ite_snd_moves ?_ ?_ | with_reducible refine ite_fst_moves ?_ ?_ | split | refine fst_of_eq (by assumption) ?_ | refine snd_of_eq (by assumption) ?_ | dsimp only)

theorem execChunkDone_moves {till : BitVec 12} {chunk : Nat} {mismatch : Bool} {s : State} : Runs [.host, .stats, .refused, .ports, .frames, .stalled, .blockCounts, .pools, .intake, .tills, .ctxs, .tiles, .hbm, .faults, .ledger, .fresh] s (execChunkDone till chunk mismatch s) := by
  unfold execChunkDone
  repeat' (first | with_reducible assumption | with_reducible exact Moves.refl _ _ | with_reducible exact rfl | exact rfl |  (intro _) | with_reducible refine storeMismatch_moves ?_ ?_ | with_reducible refine keepBuild_moves ?_ ?_ | with_reducible refine settleTill_moves ?_ ?_ | with_reducible refine modChunk_moves ?_ ?_ | with_reducible refine Runs.next ?_ | with_reducible refine ite_moves ?_ ?_ | with_reducible refine ite_snd_moves ?_ ?_ | with_reducible refine ite_fst_moves ?_ ?_ | split | refine fst_of_eq (by assumption) ?_ | refine snd_of_eq (by assumption) ?_ | dsimp only)

theorem pushRun_moves {ll ss} {s : State} {tile : Nat} {r : RunReq} (hh : Moves ll ss s) (hsub : sub [.host, .ctxs] ll = true) :
    Moves ll ss (pushRun s tile r) := by
  refine hh.trans ?_ hsub; unfold pushRun
  repeat' (first | with_reducible assumption | with_reducible exact Moves.refl _ _ | with_reducible exact rfl | exact rfl |  (intro _) | with_reducible refine setCtx_moves ?_ ?_ | with_reducible refine ready_moves ?_ ?_ | with_reducible refine ite_moves ?_ ?_ | with_reducible refine ite_snd_moves ?_ ?_ | with_reducible refine ite_fst_moves ?_ ?_ | split | refine fst_of_eq (by assumption) ?_ | refine snd_of_eq (by assumption) ?_ | dsimp only)

theorem execProgRun_moves {ring : BitVec 6} {d : Desc} {params data : List Byte} {s : State} : Runs [.host, .stats, .ctxs, .fresh] s (execProgRun ring d params data s) := by
  unfold execProgRun
  repeat' (first | with_reducible assumption | with_reducible exact Moves.refl _ _ | with_reducible exact rfl | exact rfl |  (intro _) | with_reducible refine accept_moves ?_ ?_ ?_ | with_reducible refine completeRun_moves ?_ ?_ | with_reducible refine pushRun_moves ?_ ?_ | with_reducible refine Runs.next ?_ | with_reducible refine ite_moves ?_ ?_ | with_reducible refine ite_snd_moves ?_ ?_ | with_reducible refine ite_fst_moves ?_ ?_ | split | refine fst_of_eq (by assumption) ?_ | refine snd_of_eq (by assumption) ?_ | dsimp only)

theorem runOut_moves {ll ss} {s : State} {tile : Nat} {r : RunReq} {status : Nat} {p : PassSt} {data : List Byte} (hh : Moves ll ss s) (hsub : sub [.host, .stats, .ports, .frames, .stalled, .blockCounts, .pools, .intake, .tiles, .mem, .hbm, .faults, .fresh] ll = true) :
    Moves ll ss (runOut s tile r status p data) := by
  refine hh.trans ?_ hsub; unfold runOut
  repeat' (first | with_reducible assumption | with_reducible exact Moves.refl _ _ | with_reducible exact rfl | exact rfl |  (intro _) | with_reducible refine finishRun_moves ?_ ?_ | with_reducible refine accessWrite_moves ?_ ?_ | with_reducible refine takeFresh_moves ?_ ?_ | with_reducible refine sendRequest_moves ?_ ?_ | with_reducible refine foldl_moves ?_ ?_ | with_reducible refine foldl_fst_moves ?_ ?_ | with_reducible refine ite_moves ?_ ?_ | with_reducible refine ite_snd_moves ?_ ?_ | with_reducible refine ite_fst_moves ?_ ?_ | split | refine fst_of_eq (by assumption) ?_ | refine snd_of_eq (by assumption) ?_ | with_reducible refine upd_hbm ?_ ?_ rfl | dsimp only)

theorem execProgRunEnd_moves {tile : BitVec 12} {detectFail : Bool} {s : State} : Runs [.host, .stats, .ports, .frames, .stalled, .blockCounts, .pools, .intake, .ctxs, .tiles, .mem, .hbm, .faults, .fresh] s (execProgRunEnd tile detectFail s) := by
  unfold execProgRunEnd
  repeat' (first | with_reducible assumption | with_reducible exact Moves.refl _ _ | with_reducible exact rfl | exact rfl |  (intro _) | with_reducible refine setCtx_moves ?_ ?_ | with_reducible refine finishRun_moves ?_ ?_ | with_reducible refine retireLine_moves ?_ ?_ | with_reducible refine rereadLine_moves ?_ ?_ | with_reducible refine runOut_moves ?_ ?_ | with_reducible refine hostWrite_moves ?_ ?_ | with_reducible refine Runs.next ?_ | with_reducible refine ite_moves ?_ ?_ | with_reducible refine ite_snd_moves ?_ ?_ | with_reducible refine ite_fst_moves ?_ ?_ | split | refine fst_of_eq (by assumption) ?_ | refine snd_of_eq (by assumption) ?_ | with_reducible refine upd_faults ?_ ?_ | dsimp only)

end Sys2Proof.Laws
end

