-- ==== Sys2Proof/Laws/Moves/Memory.lean ====
section
/-! SUPPORT. What the operations of Machine/Memory.lean may change: one lemma each. -/

set_option linter.unusedTactic false
set_option linter.unreachableTactic false
set_option linter.unusedVariables false

namespace Sys2Proof.Laws

open Sys2Proof.Machine Sys2Proof.Safety

theorem execRegionOpen_moves {ring : BitVec 6} {d : Desc} {words : List W64} {init : List Byte} {param : Option (List Byte)} {s : State} : Runs [.host, .stats, .mem, .hbm, .ledger, .fresh] s (execRegionOpen ring d words init param s) := by
  unfold execRegionOpen
  repeat' (first | with_reducible assumption | with_reducible exact Moves.refl _ _ | with_reducible exact rfl | exact rfl |  (intro _) | with_reducible refine accept_moves ?_ ?_ ?_ | with_reducible refine complete_moves ?_ ?_ | with_reducible refine record_moves ?_ ?_ | with_reducible refine setRegion_moves ?_ ?_ | with_reducible refine accessWrite_moves ?_ ?_ | with_reducible refine setCause_moves ?_ ?_ | with_reducible refine Runs.next ?_ | with_reducible refine ite_moves ?_ ?_ | with_reducible refine ite_snd_moves ?_ ?_ | with_reducible refine ite_fst_moves ?_ ?_ | split | refine fst_of_eq (by assumption) ?_ | refine snd_of_eq (by assumption) ?_ | dsimp only)

theorem dropRegion_moves {ll ss} {s : State} {n : Nat} (hh : Moves ll ss s) (hsub : sub [.mem, .hbm] ll = true) :
    Moves ll ss (dropRegion s n) :=
  hh.trans ⟨fun p hp => by cases p <;> first | rfl | exact absurd (by decide) hp, canon_filter _, id⟩ hsub

theorem execRegionClose_moves {ring : BitVec 6} {d : Desc} {s : State} : Runs [.host, .stats, .mem, .hbm, .ledger, .fresh] s (execRegionClose ring d s) := by
  unfold execRegionClose
  repeat' (first | with_reducible assumption | with_reducible exact Moves.refl _ _ | with_reducible exact rfl | exact rfl |  (intro _) | with_reducible refine accept_moves ?_ ?_ ?_ | with_reducible refine complete_moves ?_ ?_ | with_reducible refine record_moves ?_ ?_ | with_reducible refine dropRegion_moves ?_ ?_ | with_reducible refine Runs.next ?_ | with_reducible refine ite_moves ?_ ?_ | with_reducible refine ite_snd_moves ?_ ?_ | with_reducible refine ite_fst_moves ?_ ?_ | split | refine fst_of_eq (by assumption) ?_ | refine snd_of_eq (by assumption) ?_ | dsimp only)

theorem execMemConfig_moves {ring : BitVec 6} {d : Desc} {s : State} : Runs [.host, .stats, .pools, .ledger, .fresh] s (execMemConfig ring d s) := by
  unfold execMemConfig
  repeat' (first | with_reducible assumption | with_reducible exact Moves.refl _ _ | with_reducible exact rfl | exact rfl |  (intro _) | with_reducible refine accept_moves ?_ ?_ ?_ | with_reducible refine complete_moves ?_ ?_ | with_reducible refine recordRaw_moves ?_ ?_ | with_reducible refine Runs.next ?_ | with_reducible refine ite_moves ?_ ?_ | with_reducible refine ite_snd_moves ?_ ?_ | with_reducible refine ite_fst_moves ?_ ?_ | split | refine fst_of_eq (by assumption) ?_ | refine snd_of_eq (by assumption) ?_ | with_reducible refine upd_pools ?_ ?_ | dsimp only)

theorem copyBegun_moves {ll ss} {s : State} {n : Nat} {gather : Bool} (hh : Moves ll ss s) (hsub : sub [.hbm] ll = true) :
    Moves ll ss (copyBegun s n gather) := by
  refine hh.trans ?_ hsub; unfold copyBegun
  repeat' (first | with_reducible assumption | with_reducible exact Moves.refl _ _ | with_reducible exact rfl | exact rfl |  (intro _) | with_reducible refine setRegion_moves ?_ ?_ | with_reducible refine ite_moves ?_ ?_ | with_reducible refine ite_snd_moves ?_ ?_ | with_reducible refine ite_fst_moves ?_ ?_ | split | refine fst_of_eq (by assumption) ?_ | refine snd_of_eq (by assumption) ?_ | dsimp only)

theorem copyRegion_moves {ll ss} {s : State} {a : Accept} {n addr : Nat} {data : List Byte} {gather : Bool} {space : Nat} {east : Nat × Nat} {more : List After} (hh : Moves ll ss s) (hsub : sub [.host, .hbm, .bridge, .fresh] ll = true) :
    Moves ll ss (copyRegion s a n addr data gather space east more) := by
  refine hh.trans ?_ hsub; unfold copyRegion
  repeat' (first | with_reducible assumption | with_reducible exact Moves.refl _ _ | with_reducible exact rfl | exact rfl |  (intro _) | with_reducible refine copyBegun_moves ?_ ?_ | with_reducible refine hostWrite_moves ?_ ?_ | with_reducible refine addCrossing_moves ?_ ?_ | with_reducible refine completeTo_moves ?_ ?_ | with_reducible refine ite_moves ?_ ?_ | with_reducible refine ite_snd_moves ?_ ?_ | with_reducible refine ite_fst_moves ?_ ?_ | split | refine fst_of_eq (by assumption) ?_ | refine snd_of_eq (by assumption) ?_ | dsimp only)

theorem copyHere_moves {ll ss} {s : State} {a : Accept} {addr host len job : Nat} {out : Bool} {data : List Byte} {chk : ReadCheck} (hh : Moves ll ss s) (hsub : sub [.host, .stats, .ports, .frames, .blockCounts, .pools, .dropping, .mem, .hbm, .faults, .bridge, .fresh] ll = true) :
    Moves ll ss (copyHere s a addr host len job out data chk) := by
  refine hh.trans ?_ hsub; unfold copyHere
  repeat' (first | with_reducible assumption | with_reducible exact Moves.refl _ _ | with_reducible exact rfl | exact rfl |  (intro _) | with_reducible refine release_moves ?_ ?_ | with_reducible refine complete_moves ?_ ?_ | with_reducible refine takeFresh_moves ?_ ?_ | with_reducible refine addCrossing_moves ?_ ?_ | with_reducible refine accessWrite_moves ?_ ?_ | with_reducible refine accessChecks_moves ?_ ?_ | with_reducible refine copyRegion_moves ?_ ?_ | with_reducible refine ite_moves ?_ ?_ | with_reducible refine ite_snd_moves ?_ ?_ | with_reducible refine ite_fst_moves ?_ ?_ | split | refine fst_of_eq (by assumption) ?_ | refine snd_of_eq (by assumption) ?_ | dsimp only)

theorem execMemCopy_moves {ring : BitVec 6} {d : Desc} {data : List Byte} {chk : ReadCheck} {s : State} : Runs [.host, .stats, .ports, .frames, .stalled, .blockCounts, .pools, .dropping, .intake, .mem, .hbm, .faults, .bridge, .fresh] s (execMemCopy ring d data chk s) := by
  unfold execMemCopy
  repeat' (first | with_reducible assumption | with_reducible exact Moves.refl _ _ | with_reducible exact rfl | exact rfl |  (intro _) | with_reducible refine accept_moves ?_ ?_ ?_ | with_reducible refine complete_moves ?_ ?_ | with_reducible refine copyHere_moves ?_ ?_ | with_reducible refine takeFresh_moves ?_ ?_ | with_reducible refine sendRequest_moves ?_ ?_ | with_reducible refine foldl_moves ?_ ?_ | with_reducible refine foldl_fst_moves ?_ ?_ | with_reducible refine Runs.next ?_ | with_reducible refine ite_moves ?_ ?_ | with_reducible refine ite_snd_moves ?_ ?_ | with_reducible refine ite_fst_moves ?_ ?_ | split | refine fst_of_eq (by assumption) ?_ | refine snd_of_eq (by assumption) ?_ | with_reducible refine upd_hbm ?_ ?_ rfl | dsimp only)

theorem execVaultGather_moves {ring : BitVec 6} {d : Desc} {chk : ReadCheck} {s : State} : Runs [.host, .stats, .blockCounts, .hbm, .faults, .bridge, .fresh] s (execVaultGather ring d chk s) := by
  unfold execVaultGather
  repeat' (first | with_reducible assumption | with_reducible exact Moves.refl _ _ | with_reducible exact rfl | exact rfl |  (intro _) | with_reducible refine accept_moves ?_ ?_ ?_ | with_reducible refine complete_moves ?_ ?_ | with_reducible refine detect_moves ?_ ?_ | with_reducible refine copyRegion_moves ?_ ?_ | with_reducible refine Runs.next ?_ | with_reducible refine ite_moves ?_ ?_ | with_reducible refine ite_snd_moves ?_ ?_ | with_reducible refine ite_fst_moves ?_ ?_ | split | refine fst_of_eq (by assumption) ?_ | refine snd_of_eq (by assumption) ?_ | dsimp only)

theorem execVaultQuery_moves {ring : BitVec 6} {d : Desc} {s : State} : Runs [.host, .stats, .fresh] s (execVaultQuery ring d s) := by
  unfold execVaultQuery
  repeat' (first | with_reducible assumption | with_reducible exact Moves.refl _ _ | with_reducible exact rfl | exact rfl |  (intro _) | with_reducible refine accept_moves ?_ ?_ ?_ | with_reducible refine complete_moves ?_ ?_ | with_reducible refine copyOut_moves ?_ ?_ | with_reducible refine Runs.next ?_ | with_reducible refine ite_moves ?_ ?_ | with_reducible refine ite_snd_moves ?_ ?_ | with_reducible refine ite_fst_moves ?_ ?_ | split | refine fst_of_eq (by assumption) ?_ | refine snd_of_eq (by assumption) ?_ | dsimp only)

theorem execMemRdReceive_moves {f : Frame} {chk : ReadCheck} {s : State} : Runs [.host, .stats, .ports, .frames, .stalled, .blockCounts, .pools, .intake, .hbm, .faults, .fresh] s (execMemRdReceive f chk s) := by
  unfold execMemRdReceive
  repeat' (first | with_reducible assumption | with_reducible exact Moves.refl _ _ | with_reducible exact rfl | exact rfl |  (intro _) | with_reducible refine takeIntake_moves ?_ ?_ | with_reducible refine memAnswer_moves ?_ ?_ | with_reducible refine setRegion_moves ?_ ?_ | with_reducible refine accessCheck_moves ?_ ?_ | with_reducible refine ready_moves ?_ ?_ | with_reducible refine Runs.next ?_ | with_reducible refine ite_moves ?_ ?_ | with_reducible refine ite_snd_moves ?_ ?_ | with_reducible refine ite_fst_moves ?_ ?_ | split | refine fst_of_eq (by assumption) ?_ | refine snd_of_eq (by assumption) ?_ | dsimp only)

theorem execVersionRelease_moves {f : Frame} {s : State} : Runs [.host, .stats, .ports, .frames, .stalled, .blockCounts, .pools, .intake, .hbm, .faults, .fresh] s (execVersionRelease f s) := by
  unfold execVersionRelease
  repeat' (first | with_reducible assumption | with_reducible exact Moves.refl _ _ | with_reducible exact rfl | exact rfl |  (intro _) | with_reducible refine takeIntake_moves ?_ ?_ | with_reducible refine ready_moves ?_ ?_ | with_reducible refine memAnswer_moves ?_ ?_ | with_reducible refine setRegion_moves ?_ ?_ | with_reducible refine Runs.next ?_ | with_reducible refine ite_moves ?_ ?_ | with_reducible refine ite_snd_moves ?_ ?_ | with_reducible refine ite_fst_moves ?_ ?_ | split | refine fst_of_eq (by assumption) ?_ | refine snd_of_eq (by assumption) ?_ | dsimp only)

theorem beginWrite_moves {ll ss} {s : State} {h : Header} {a : Access} {data : List Byte} {fixed : Bool} {port arrival : Nat} (hh : Moves ll ss s) (hsub : sub [.hbm, .fresh] ll = true) :
    Moves ll ss (beginWrite s h a data fixed port arrival) := by
  refine hh.trans ?_ hsub; unfold beginWrite
  repeat' (first | with_reducible assumption | with_reducible exact Moves.refl _ _ | with_reducible exact rfl | exact rfl |  (intro _) | with_reducible refine foldl_moves ?_ ?_ | with_reducible refine foldl_fst_moves ?_ ?_ | with_reducible refine ite_moves ?_ ?_ | with_reducible refine ite_snd_moves ?_ ?_ | with_reducible refine ite_fst_moves ?_ ?_ | split | refine fst_of_eq (by assumption) ?_ | refine snd_of_eq (by assumption) ?_ | with_reducible refine upd_hbm_fresh ?_ ?_ rfl | with_reducible refine upd_hbm ?_ ?_ rfl | dsimp only)

theorem execMemWrReceive_moves {f : Frame} {s : State} : Runs [.host, .stats, .ports, .frames, .stalled, .blockCounts, .pools, .intake, .hbm, .faults, .fresh] s (execMemWrReceive f s) := by
  unfold execMemWrReceive
  repeat' (first | with_reducible assumption | with_reducible exact Moves.refl _ _ | with_reducible exact rfl | exact rfl |  (intro _) | with_reducible refine takeIntake_moves ?_ ?_ | with_reducible refine memAnswer_moves ?_ ?_ | with_reducible refine beginWrite_moves ?_ ?_ | with_reducible refine Runs.next ?_ | with_reducible refine ite_moves ?_ ?_ | with_reducible refine ite_snd_moves ?_ ?_ | with_reducible refine ite_fst_moves ?_ ?_ | split | refine fst_of_eq (by assumption) ?_ | refine snd_of_eq (by assumption) ?_ | dsimp only)

theorem finishXfer_moves {ll ss} {s : State} {x : Xfer} (hh : Moves ll ss s) (hsub : sub [.now, .host, .stats, .refused, .blockCounts, .tills, .ctxs, .tiles, .hbm, .faults, .ledger, .fresh] ll = true) :
    Moves ll ss (finishXfer s x) := by
  refine hh.trans ?_ hsub; unfold finishXfer
  repeat' (first | with_reducible assumption | with_reducible exact Moves.refl _ _ | with_reducible exact rfl | exact rfl |  (intro _) | with_reducible refine beginRun_moves ?_ ?_ | with_reducible refine dropRun_moves ?_ ?_ | with_reducible refine finishRun_moves ?_ ?_ | with_reducible refine copyOut_moves ?_ ?_ | with_reducible refine complete_moves ?_ ?_ | with_reducible refine ite_moves ?_ ?_ | with_reducible refine ite_snd_moves ?_ ?_ | with_reducible refine ite_fst_moves ?_ ?_ | split | refine fst_of_eq (by assumption) ?_ | refine snd_of_eq (by assumption) ?_ | dsimp only)

theorem xferPart_moves {ll ss} {s : State} {id place st : Nat} {data : List Byte} (hh : Moves ll ss s) (hsub : sub [.now, .host, .stats, .refused, .blockCounts, .tills, .ctxs, .tiles, .hbm, .faults, .ledger, .fresh] ll = true) :
    Moves ll ss (xferPart s id place st data) := by
  refine hh.trans ?_ hsub; unfold xferPart
  repeat' (first | with_reducible assumption | with_reducible exact Moves.refl _ _ | with_reducible exact rfl | exact rfl |  (intro _) | with_reducible refine finishXfer_moves ?_ ?_ | with_reducible refine ite_moves ?_ ?_ | with_reducible refine ite_snd_moves ?_ ?_ | with_reducible refine ite_fst_moves ?_ ?_ | split | refine fst_of_eq (by assumption) ?_ | refine snd_of_eq (by assumption) ?_ | with_reducible refine upd_hbm ?_ ?_ rfl | dsimp only)

theorem fusePart_moves {ll ss} {s : State} {n k place st : Nat} {data : List Byte} (hh : Moves ll ss s) (hsub : sub [.host, .stats, .ports, .frames, .stalled, .blockCounts, .pools, .intake, .tills, .ctxs, .faults, .fresh] ll = true) :
    Moves ll ss (fusePart s n k place st data) := by
  refine hh.trans ?_ hsub; unfold fusePart
  repeat' (first | with_reducible assumption | with_reducible exact Moves.refl _ _ | with_reducible exact rfl | exact rfl |  (intro _) | with_reducible refine endTill_moves ?_ ?_ | with_reducible refine modChunk_moves ?_ ?_ | with_reducible refine finishChunk_moves ?_ ?_ | with_reducible refine ite_moves ?_ ?_ | with_reducible refine ite_snd_moves ?_ ?_ | with_reducible refine ite_fst_moves ?_ ?_ | split | refine fst_of_eq (by assumption) ?_ | refine snd_of_eq (by assumption) ?_ | dsimp only)

theorem requestOver_moves {ll ss} {s : State} {q : MemReq} {st : Nat} {data : List Byte} (hh : Moves ll ss s) (hsub : sub [.now, .host, .stats, .refused, .ports, .frames, .stalled, .blockCounts, .pools, .intake, .tills, .ctxs, .tiles, .hbm, .faults, .ledger, .fresh] ll = true) :
    Moves ll ss (requestOver s q st data) := by
  refine hh.trans ?_ hsub; unfold requestOver
  repeat' (first | with_reducible assumption | with_reducible exact Moves.refl _ _ | with_reducible exact rfl | exact rfl |  (intro _) | with_reducible refine xferPart_moves ?_ ?_ | with_reducible refine fusePart_moves ?_ ?_ | with_reducible refine ite_moves ?_ ?_ | with_reducible refine ite_snd_moves ?_ ?_ | with_reducible refine ite_fst_moves ?_ ?_ | split | refine fst_of_eq (by assumption) ?_ | refine snd_of_eq (by assumption) ?_ | dsimp only)

theorem execMemRspReceive_moves {f : Frame} {s : State} : Runs [.now, .host, .stats, .refused, .ports, .frames, .stalled, .blockCounts, .pools, .intake, .tills, .ctxs, .tiles, .hbm, .faults, .ledger, .fresh] s (execMemRspReceive f s) := by
  unfold execMemRspReceive
  repeat' (first | with_reducible assumption | with_reducible exact Moves.refl _ _ | with_reducible exact rfl | exact rfl |  (intro _) | with_reducible refine takeIntake_moves ?_ ?_ | with_reducible refine requestOver_moves ?_ ?_ | with_reducible refine Runs.next ?_ | with_reducible refine ite_moves ?_ ?_ | with_reducible refine ite_snd_moves ?_ ?_ | with_reducible refine ite_fst_moves ?_ ?_ | split | refine fst_of_eq (by assumption) ?_ | refine snd_of_eq (by assumption) ?_ | with_reducible refine upd_hbm ?_ ?_ rfl | dsimp only)

theorem execMemRequestTimeout_moves {tag : BitVec 16} {s : State} : Runs [.now, .host, .stats, .refused, .ports, .frames, .stalled, .blockCounts, .pools, .intake, .tills, .ctxs, .tiles, .hbm, .faults, .ledger, .fresh] s (execMemRequestTimeout tag s) := by
  unfold execMemRequestTimeout
  repeat' (first | with_reducible assumption | with_reducible exact Moves.refl _ _ | with_reducible exact rfl | exact rfl |  (intro _) | with_reducible refine requestOver_moves ?_ ?_ | with_reducible refine sendOwn_moves ?_ ?_ | with_reducible refine Runs.next ?_ | with_reducible refine ite_moves ?_ ?_ | with_reducible refine ite_snd_moves ?_ ?_ | with_reducible refine ite_fst_moves ?_ ?_ | split | refine fst_of_eq (by assumption) ?_ | refine snd_of_eq (by assumption) ?_ | with_reducible refine upd_hbm ?_ ?_ rfl | dsimp only)

theorem execVersionReclaim_moves {region : BitVec 12} {s : State} : Runs [.host, .stats, .hbm, .toss, .fresh] s (execVersionReclaim region s) := by
  unfold execVersionReclaim
  repeat' (first | with_reducible assumption | with_reducible exact Moves.refl _ _ | with_reducible exact rfl | exact rfl |  (intro _) | with_reducible refine setRegion_moves ?_ ?_ | with_reducible refine toss_moves ?_ ?_ | with_reducible refine postEvent_moves ?_ ?_ | with_reducible refine Runs.next ?_ | with_reducible refine ite_moves ?_ ?_ | with_reducible refine ite_snd_moves ?_ ?_ | with_reducible refine ite_fst_moves ?_ ?_ | split | refine fst_of_eq (by assumption) ?_ | refine snd_of_eq (by assumption) ?_ | dsimp only)

theorem execParamBlockRead_moves {region : BitVec 12} {block : Option (List Byte)} {s : State} : Runs [.host, .stats, .hbm, .fresh] s (execParamBlockRead region block s) := by
  unfold execParamBlockRead
  repeat' (first | with_reducible assumption | with_reducible exact Moves.refl _ _ | with_reducible exact rfl | exact rfl |  (intro _) | with_reducible refine setRegion_moves ?_ ?_ | with_reducible refine setCause_moves ?_ ?_ | with_reducible refine Runs.next ?_ | with_reducible refine ite_moves ?_ ?_ | with_reducible refine ite_snd_moves ?_ ?_ | with_reducible refine ite_fst_moves ?_ ?_ | split | refine fst_of_eq (by assumption) ?_ | refine snd_of_eq (by assumption) ?_ | dsimp only)

theorem setStack_moves {ll ss} {s : State} {k : Nat} {st : Stack} (hh : Moves ll ss s) (hsub : sub [.hbm] ll = true) :
    Moves ll ss (setStack s k st) := by
  refine hh.trans ?_ hsub; unfold setStack
  repeat' (first | with_reducible assumption | with_reducible exact Moves.refl _ _ | with_reducible exact rfl | exact rfl |  (intro _) | with_reducible refine ite_moves ?_ ?_ | with_reducible refine ite_snd_moves ?_ ?_ | with_reducible refine ite_fst_moves ?_ ?_ | split | refine fst_of_eq (by assumption) ?_ | refine snd_of_eq (by assumption) ?_ | with_reducible refine upd_hbm ?_ ?_ rfl | dsimp only)

theorem settleWaiting_moves {ll ss} {s : State} {n : Nat} (hh : Moves ll ss s) (hsub : sub [.host, .mem, .hbm] ll = true) :
    Moves ll ss (settleWaiting s n) := by
  refine hh.trans ?_ hsub; unfold settleWaiting
  repeat' (first | with_reducible assumption | with_reducible exact Moves.refl _ _ | with_reducible exact rfl | exact rfl |  (intro _) | with_reducible refine complete_moves ?_ ?_ | with_reducible refine dropRegion_moves ?_ ?_ | with_reducible refine setRegion_moves ?_ ?_ | with_reducible refine ite_moves ?_ ?_ | with_reducible refine ite_snd_moves ?_ ?_ | with_reducible refine ite_fst_moves ?_ ?_ | split | refine fst_of_eq (by assumption) ?_ | refine snd_of_eq (by assumption) ?_ | dsimp only)

theorem execHbmTrainingDone_moves {stack : BitVec 2} {ok : Bool} {s : State} : Runs [.boot, .host, .stats, .mem, .hbm, .fresh] s (execHbmTrainingDone stack ok s) := by
  unfold execHbmTrainingDone
  repeat' (first | with_reducible assumption | with_reducible exact Moves.refl _ _ | with_reducible exact rfl | exact rfl |  (intro _) | with_reducible refine setStack_moves ?_ ?_ | with_reducible refine ready_moves ?_ ?_ | with_reducible refine noteState_moves ?_ ?_ | with_reducible refine settleWaiting_moves ?_ ?_ | with_reducible refine foldl_moves ?_ ?_ | with_reducible refine foldl_fst_moves ?_ ?_ | with_reducible refine Runs.next ?_ | with_reducible refine ite_moves ?_ ?_ | with_reducible refine ite_snd_moves ?_ ?_ | with_reducible refine ite_fst_moves ?_ ?_ | split | refine fst_of_eq (by assumption) ?_ | refine snd_of_eq (by assumption) ?_ | with_reducible refine upd_boot ?_ ?_ | dsimp only)

theorem execHbmRefresh_moves {stack : BitVec 2} {s : State} : Runs [.hbm] s (execHbmRefresh stack s) := by
  unfold execHbmRefresh
  repeat' (first | with_reducible assumption | with_reducible exact Moves.refl _ _ | with_reducible exact rfl | exact rfl |  (intro _) | with_reducible refine setStack_moves ?_ ?_ | with_reducible refine Runs.next ?_ | with_reducible refine ite_moves ?_ ?_ | with_reducible refine ite_snd_moves ?_ ?_ | with_reducible refine ite_fst_moves ?_ ?_ | split | refine fst_of_eq (by assumption) ?_ | refine snd_of_eq (by assumption) ?_ | dsimp only)

theorem nextTables_moves {ll ss} {s : State} (hh : Moves ll ss s) (hsub : sub [.tick, .tables, .faults] ll = true) :
    Moves ll ss (nextTables s) := by
  refine hh.trans ?_ hsub; unfold nextTables
  repeat' (first | with_reducible assumption | with_reducible exact Moves.refl _ _ | with_reducible exact rfl | exact rfl |  (intro _) | with_reducible refine applied_moves ?_ ?_ | with_reducible refine ite_moves ?_ ?_ | with_reducible refine ite_snd_moves ?_ ?_ | with_reducible refine ite_fst_moves ?_ ?_ | split | refine fst_of_eq (by assumption) ?_ | refine snd_of_eq (by assumption) ?_ | with_reducible refine upd_tick ?_ ?_ | dsimp only)

theorem refreshCycle_moves {ll ss} {s : State} (hh : Moves ll ss s) (hsub : sub [.tick, .tables, .hbm, .faults] ll = true) :
    Moves ll ss (refreshCycle s) := by
  refine hh.trans ?_ hsub; unfold refreshCycle
  repeat' (first | with_reducible assumption | with_reducible exact Moves.refl _ _ | with_reducible exact rfl | exact rfl |  (intro _) | with_reducible refine nextTables_moves ?_ ?_ | with_reducible refine setStack_moves ?_ ?_ | with_reducible refine foldl_moves ?_ ?_ | with_reducible refine foldl_fst_moves ?_ ?_ | with_reducible refine ite_moves ?_ ?_ | with_reducible refine ite_snd_moves ?_ ?_ | with_reducible refine ite_fst_moves ?_ ?_ | split | refine fst_of_eq (by assumption) ?_ | refine snd_of_eq (by assumption) ?_ | dsimp only)

end Sys2Proof.Laws
end

