-- ==== Sys2Proof/Laws/Moves/Relays.lean ====
section
/-! SUPPORT. What the operations of Machine/Relays.lean may change: one lemma each. -/

set_option linter.unusedTactic false
set_option linter.unreachableTactic false
set_option linter.unusedVariables false

namespace Sys2Proof.Laws

open Sys2Proof.Machine Sys2Proof.Safety

theorem takeStage_moves {l s0} {s t : State} {r r' : Relay} {slice : Nat} (h : Moves l s0 s) (hs : sub [.host, .stats, .pools, .faults, .fresh] l = true)
    (e : takeStage s r slice = some (t, r')) : Moves l s0 t := by
  unfold takeStage at e
  split at e
  · cases e
  · split at e
    · dsimp only at e
      split at e
      · cases e; exact takeCells_moves h (sub_trans rfl hs)
      · cases e
    · obtain ⟨x, hx, hy⟩ := Option.map_eq_some_iff.1 e
      cases hy; exact takeStaging_moves h (sub_trans rfl hs) hx

theorem giveStage_moves {ll ss} {s : State} {r : Relay} {slice : Nat} (hh : Moves ll ss s) (hsub : sub [.host, .stats, .pools, .faults, .fresh] ll = true) :
    Moves ll ss (giveStage s r slice) := by
  refine hh.trans ?_ hsub; unfold giveStage
  repeat' (first | with_reducible assumption | with_reducible exact Moves.refl _ _ | with_reducible exact rfl | exact rfl |  (intro _) | with_reducible refine giveCells_moves ?_ ?_ | with_reducible refine giveStaging_moves ?_ ?_ | with_reducible refine ite_moves ?_ ?_ | with_reducible refine ite_snd_moves ?_ ?_ | with_reducible refine ite_fst_moves ?_ ?_ | split | refine fst_of_eq (by assumption) ?_ | refine snd_of_eq (by assumption) ?_ | dsimp only)

theorem withholdFrom_moves {ll ss} {s : State} {g : Nat} {r : Relay} {port : Nat} (hh : Moves ll ss s) (hsub : sub [.ports, .relays] ll = true) :
    Moves ll ss (withholdFrom s g r port) := by
  refine hh.trans ?_ hsub; unfold withholdFrom
  repeat' (first | with_reducible assumption | with_reducible exact Moves.refl _ _ | with_reducible exact rfl | exact rfl |  (intro _) | with_reducible refine modQ_moves ?_ ?_ | with_reducible refine setRelay_moves ?_ ?_ | with_reducible refine foldl_moves ?_ ?_ | with_reducible refine foldl_fst_moves ?_ ?_ | with_reducible refine ite_moves ?_ ?_ | with_reducible refine ite_snd_moves ?_ ?_ | with_reducible refine ite_fst_moves ?_ ?_ | split | refine fst_of_eq (by assumption) ?_ | refine snd_of_eq (by assumption) ?_ | dsimp only)

theorem releaseCredit_moves {ll ss} {s : State} {r : Relay} (hh : Moves ll ss s) (hsub : sub [.ports, .jobFree] ll = true) :
    Moves ll ss (releaseCredit s r).1 := by
  refine hh.trans ?_ hsub; unfold releaseCredit
  repeat' (first | with_reducible assumption | with_reducible exact Moves.refl _ _ | with_reducible exact rfl | exact rfl |  (intro _) | with_reducible refine modQ_moves ?_ ?_ | with_reducible refine jobWait_moves ?_ ?_ | with_reducible refine foldl_moves ?_ ?_ | with_reducible refine foldl_fst_moves ?_ ?_ | with_reducible refine ite_moves ?_ ?_ | with_reducible refine ite_snd_moves ?_ ?_ | with_reducible refine ite_fst_moves ?_ ?_ | split | refine fst_of_eq (by assumption) ?_ | refine snd_of_eq (by assumption) ?_ | dsimp only)

theorem trimStage_moves {ll ss} {k : Nat} {s : State} {r : Relay} (hh : Moves ll ss s) (hsub : sub [.host, .stats, .ports, .pools, .faults, .jobFree, .fresh] ll = true) : Moves ll ss (trimStage k s r).1 := by
  refine hh.trans ?_ hsub; clear hh hsub
  suffices H : ∀ s1, Moves [.host, .stats, .ports, .pools, .faults, .jobFree, .fresh] s1 s → Moves [.host, .stats, .ports, .pools, .faults, .jobFree, .fresh] s1 (trimStage k s r).1 from H _ (Moves.refl _ _)
  induction k generalizing s r with
  | zero => intro s1 h; exact h
  | succ k ih =>
    intro s1 h; unfold trimStage
    repeat' (first | with_reducible assumption | with_reducible exact Moves.refl _ _ | with_reducible exact rfl | exact rfl |  (intro _) | with_reducible apply ih | with_reducible refine releaseCredit_moves ?_ ?_ | with_reducible refine giveStage_moves ?_ ?_ | with_reducible refine ite_moves ?_ ?_ | with_reducible refine ite_snd_moves ?_ ?_ | with_reducible refine ite_fst_moves ?_ ?_ | split | refine fst_of_eq (by assumption) ?_ | refine snd_of_eq (by assumption) ?_ | dsimp only)

theorem freeBlocksOf_moves {ll ss} {s : State} {r : Relay} (hh : Moves ll ss s) (hsub : sub [.host, .stats, .ports, .pools, .faults, .jobFree, .fresh] ll = true) :
    Moves ll ss (freeBlocksOf s r).1 := by
  refine hh.trans ?_ hsub; unfold freeBlocksOf
  repeat' (first | with_reducible assumption | with_reducible exact Moves.refl _ _ | with_reducible exact rfl | exact rfl |  (intro _) | with_reducible refine trimStage_moves ?_ ?_ | with_reducible refine ite_moves ?_ ?_ | with_reducible refine ite_snd_moves ?_ ?_ | with_reducible refine ite_fst_moves ?_ ?_ | split | refine fst_of_eq (by assumption) ?_ | refine snd_of_eq (by assumption) ?_ | dsimp only)

theorem execRelayOpen_moves {ring : BitVec 6} {d : Desc} {members : List W64} {s : State} : Runs [.host, .stats, .relays, .fresh] s (execRelayOpen ring d members s) := by
  unfold execRelayOpen
  repeat' (first | with_reducible assumption | with_reducible exact Moves.refl _ _ | with_reducible exact rfl | exact rfl |  (intro _) | with_reducible refine accept_moves ?_ ?_ ?_ | with_reducible refine complete_moves ?_ ?_ | with_reducible refine setRelay_moves ?_ ?_ | with_reducible refine Runs.next ?_ | with_reducible refine ite_moves ?_ ?_ | with_reducible refine ite_snd_moves ?_ ?_ | with_reducible refine ite_fst_moves ?_ ?_ | split | refine fst_of_eq (by assumption) ?_ | refine snd_of_eq (by assumption) ?_ | dsimp only)

theorem execRelayClose_moves {ring : BitVec 6} {d : Desc} {s : State} : Runs [.host, .stats, .ports, .pools, .faults, .relays, .jobFree, .fresh] s (execRelayClose ring d s) := by
  unfold execRelayClose
  repeat' (first | with_reducible assumption | with_reducible exact Moves.refl _ _ | with_reducible exact rfl | exact rfl |  (intro _) | with_reducible refine accept_moves ?_ ?_ ?_ | with_reducible refine complete_moves ?_ ?_ | with_reducible refine releaseCredit_moves ?_ ?_ | with_reducible refine giveStage_moves ?_ ?_ | with_reducible refine foldl_moves ?_ ?_ | with_reducible refine foldl_fst_moves ?_ ?_ | with_reducible refine Runs.next ?_ | with_reducible refine ite_moves ?_ ?_ | with_reducible refine ite_snd_moves ?_ ?_ | with_reducible refine ite_fst_moves ?_ ?_ | split | refine fst_of_eq (by assumption) ?_ | refine snd_of_eq (by assumption) ?_ | with_reducible refine upd_relays ?_ ?_ | dsimp only)

theorem stageRoom_moves {l s0} {k : Nat} {s t : State} {r r' : Relay} {need slice : Nat} (h : Moves l s0 s)
    (hs : sub [.host, .stats, .pools, .faults, .fresh] l = true) (e : stageRoom k s r need slice = some (t, r')) : Moves l s0 t := by
  induction k generalizing s r with
  | zero => cases e
  | succ k ih =>
    unfold stageRoom at e
    split at e
    · cases e; exact h
    · split at e
      · cases e
      · next h2 => exact ih (takeStage_moves h hs h2) e

theorem sendCopy_moves {ll ss} {s : State} {r : Relay} {j : Nat} {f : Frame} (hh : Moves ll ss s) (hsub : sub [.host, .stats, .ports, .frames, .stalled, .blockCounts, .pools, .intake, .faults, .fresh] ll = true) :
    Moves ll ss (sendCopy s r j f).1 := by
  refine hh.trans ?_ hsub; unfold sendCopy
  repeat' (first | with_reducible assumption | with_reducible exact Moves.refl _ _ | with_reducible exact rfl | exact rfl |  (intro _) | with_reducible refine sendOwn_moves ?_ ?_ | with_reducible refine ite_moves ?_ ?_ | with_reducible refine ite_snd_moves ?_ ?_ | with_reducible refine ite_fst_moves ?_ ?_ | split | refine fst_of_eq (by assumption) ?_ | refine snd_of_eq (by assumption) ?_ | dsimp only)

theorem stageIt_moves {ll ss} {s : State} {g : Nat} {r : Relay} {snd port : Nat} {f : Frame} (hh : Moves ll ss s) (hsub : sub [.host, .stats, .ports, .pools, .intake, .faults, .relays, .fresh] ll = true) :
    Moves ll ss (stageIt s g r snd port f) := by
  refine hh.trans ?_ hsub; unfold stageIt
  generalize he : stageRoom 2 s r _ _ = o
  match o, he with
  | none, _ => exact withholdFrom_moves (Moves.refl _ _) rfl
  | some (u, r'), he =>
    have h : Moves [.host, .stats, .ports, .pools, .intake, .faults, .relays, .fresh] s (setRelay (takeIntake u f).1 g (stageFrame r' snd (headerOf f.hdr).epoch (headerOf f.hdr).len.toNat f)) :=
      setRelay_moves (takeIntake_moves (stageRoom_moves (Moves.refl _ _) rfl he) rfl) rfl
    exact ite_moves (fun _ => withholdFrom_moves h rfl) fun _ => h

theorem execRelayFrameReceive_moves {port : BitVec 9} {f : Frame} {s : State} : Runs [.host, .stats, .ports, .frames, .stalled, .blockCounts, .pools, .intake, .faults, .relays, .jobFree, .fresh] s (execRelayFrameReceive port f s) := by
  unfold execRelayFrameReceive
  refine Runs.next ?_
  dsimp only
  refine ite_moves (fun _ => Moves.refl _ _) fun _ => ?_
  split
  · exact takeIntake_moves (Moves.refl _ _) rfl
  split
  · exact takeIntake_moves (Moves.refl _ _) rfl
  refine ite_moves (fun _ => takeIntake_moves (Moves.refl _ _) rfl) fun _ => ?_
  refine ite_moves (fun _ => ?_) fun _ => stageIt_moves (Moves.refl _ _) rfl
  refine setRelay_moves ?_ rfl
  exact freeBlocksOf_moves (foldl_fst_moves (takeIntake_moves (Moves.refl _ _) rfl) fun t x h => sendCopy_moves h rfl) rfl

theorem execRelayCopySend_moves {rgroup : BitVec 16} {receiver : Nat} {s : State} : Runs [.host, .stats, .ports, .frames, .stalled, .blockCounts, .pools, .intake, .faults, .relays, .jobFree, .fresh] s (execRelayCopySend rgroup receiver s) := by
  unfold execRelayCopySend
  repeat' (first | with_reducible assumption | with_reducible exact Moves.refl _ _ | with_reducible exact rfl | exact rfl |  (intro _) | with_reducible refine sendCopy_moves ?_ ?_ | with_reducible refine freeBlocksOf_moves ?_ ?_ | with_reducible refine setRelay_moves ?_ ?_ | with_reducible refine Runs.next ?_ | with_reducible refine ite_moves ?_ ?_ | with_reducible refine ite_snd_moves ?_ ?_ | with_reducible refine ite_fst_moves ?_ ?_ | split | refine fst_of_eq (by assumption) ?_ | refine snd_of_eq (by assumption) ?_ | dsimp only)

theorem execRelaySkip_moves {rgroup : BitVec 16} {receiver : Nat} {s : State} : Runs [.host, .stats, .ports, .pools, .faults, .relays, .toss, .jobFree, .fresh] s (execRelaySkip rgroup receiver s) := by
  unfold execRelaySkip
  repeat' (first | with_reducible assumption | with_reducible exact Moves.refl _ _ | with_reducible exact rfl | exact rfl |  (intro _) | with_reducible refine toss_moves ?_ ?_ | with_reducible refine postEvent_moves ?_ ?_ | with_reducible refine freeBlocksOf_moves ?_ ?_ | with_reducible refine setRelay_moves ?_ ?_ | with_reducible refine Runs.next ?_ | with_reducible refine ite_moves ?_ ?_ | with_reducible refine ite_snd_moves ?_ ?_ | with_reducible refine ite_fst_moves ?_ ?_ | split | refine fst_of_eq (by assumption) ?_ | refine snd_of_eq (by assumption) ?_ | dsimp only)

end Sys2Proof.Laws
end

