-- ==== Sys2Proof/Laws/Moves/Tallies.lean ====
section
/-! SUPPORT. What the operations of Machine/Tallies.lean may change: one lemma each. -/

set_option linter.unusedTactic false
set_option linter.unreachableTactic false
set_option linter.unusedVariables false

namespace Sys2Proof.Laws

open Sys2Proof.Machine Sys2Proof.Safety

theorem postTally_moves {ll ss} {s : State} {n : Nat} {v : Tally} {status : Nat} {x : Told} (hh : Moves ll ss s) (hsub : sub [.host, .stats, .ports, .fresh] ll = true) :
    Moves ll ss (postTally s n v status x).1 := by
  refine hh.trans ?_ hsub; unfold postTally
  repeat' (first | with_reducible assumption | with_reducible exact Moves.refl _ _ | with_reducible exact rfl | exact rfl |  (intro _) | with_reducible refine ready_moves ?_ ?_ | with_reducible refine discard_moves ?_ ?_ | with_reducible refine ite_moves ?_ ?_ | with_reducible refine ite_snd_moves ?_ ?_ | with_reducible refine ite_fst_moves ?_ ?_ | split | refine fst_of_eq (by assumption) ?_ | refine snd_of_eq (by assumption) ?_ | dsimp only)

theorem straggle_moves {ll ss} {s : State} {v : Tally} (hh : Moves ll ss s) (hsub : sub [.jobFree] ll = true) :
    Moves ll ss (straggle s v) := by
  refine hh.trans ?_ hsub; unfold straggle
  repeat' (first | with_reducible assumption | with_reducible exact Moves.refl _ _ | with_reducible exact rfl | exact rfl |  (intro _) | with_reducible refine jobWait_moves ?_ ?_ | with_reducible refine ite_moves ?_ ?_ | with_reducible refine ite_snd_moves ?_ ?_ | with_reducible refine ite_fst_moves ?_ ?_ | split | refine fst_of_eq (by assumption) ?_ | refine snd_of_eq (by assumption) ?_ | dsimp only)

theorem releaseTally_moves {ll ss} {s : State} {n : Nat} {v : Tally} {at_ port : Nat} (hh : Moves ll ss s) (hsub : sub [.host, .stats, .ports, .frames, .stalled, .blockCounts, .pools, .tallies, .faults, .jobFree, .fresh] ll = true) :
    Moves ll ss (releaseTally s n v at_ port) := by
  refine hh.trans ?_ hsub; unfold releaseTally
  repeat' (first | with_reducible assumption | with_reducible exact Moves.refl _ _ | with_reducible exact rfl | exact rfl |  (intro _) | with_reducible refine sendGroup_moves ?_ ?_ | with_reducible refine postTally_moves ?_ ?_ | with_reducible refine straggle_moves ?_ ?_ | with_reducible refine setTally_moves ?_ ?_ | with_reducible refine ite_moves ?_ ?_ | with_reducible refine ite_snd_moves ?_ ?_ | with_reducible refine ite_fst_moves ?_ ?_ | split | refine fst_of_eq (by assumption) ?_ | refine snd_of_eq (by assumption) ?_ | dsimp only)

theorem carryTally_moves {ll ss} {s : State} {n : Nat} {v : Tally} {at_ port : Nat} (hh : Moves ll ss s) (hsub : sub [.host, .stats, .ports, .frames, .stalled, .blockCounts, .pools, .intake, .tallies, .faults, .jobFree, .fresh] ll = true) :
    Moves ll ss (carryTally s n v at_ port) := by
  refine hh.trans ?_ hsub; unfold carryTally
  repeat' (first | with_reducible assumption | with_reducible exact Moves.refl _ _ | with_reducible exact rfl | exact rfl |  (intro _) | with_reducible refine sendOwn_moves ?_ ?_ | with_reducible refine postTally_moves ?_ ?_ | with_reducible refine straggle_moves ?_ ?_ | with_reducible refine setTally_moves ?_ ?_ | with_reducible refine ite_moves ?_ ?_ | with_reducible refine ite_snd_moves ?_ ?_ | with_reducible refine ite_fst_moves ?_ ?_ | split | refine fst_of_eq (by assumption) ?_ | refine snd_of_eq (by assumption) ?_ | dsimp only)

theorem lateTally_moves {ll ss} {s : State} {n : Nat} {v : Tally} (hh : Moves ll ss s) (hsub : sub [.host, .stats, .ports, .tallies, .fresh] ll = true) :
    Moves ll ss (lateTally s n v) := by
  refine hh.trans ?_ hsub; unfold lateTally
  repeat' (first | with_reducible assumption | with_reducible exact Moves.refl _ _ | with_reducible exact rfl | exact rfl |  (intro _) | with_reducible refine postTally_moves ?_ ?_ | with_reducible refine setTally_moves ?_ ?_ | with_reducible refine kickLate_moves ?_ ?_ | with_reducible refine ite_moves ?_ ?_ | with_reducible refine ite_snd_moves ?_ ?_ | with_reducible refine ite_fst_moves ?_ ?_ | split | refine fst_of_eq (by assumption) ?_ | refine snd_of_eq (by assumption) ?_ | dsimp only)

theorem settleTally_moves {ll ss} {s : State} {n : Nat} {v : Tally} {at_ port : Nat} (hh : Moves ll ss s) (hsub : sub [.host, .stats, .ports, .frames, .stalled, .blockCounts, .pools, .intake, .tallies, .faults, .jobFree, .fresh] ll = true) :
    Moves ll ss (settleTally s n v at_ port) := by
  refine hh.trans ?_ hsub; unfold settleTally
  repeat' (first | with_reducible assumption | with_reducible exact Moves.refl _ _ | with_reducible exact rfl | exact rfl |  (intro _) | with_reducible refine lateTally_moves ?_ ?_ | with_reducible refine releaseTally_moves ?_ ?_ | with_reducible refine setTally_moves ?_ ?_ | with_reducible refine carryTally_moves ?_ ?_ | with_reducible refine ite_moves ?_ ?_ | with_reducible refine ite_snd_moves ?_ ?_ | with_reducible refine ite_fst_moves ?_ ?_ | split | refine fst_of_eq (by assumption) ?_ | refine snd_of_eq (by assumption) ?_ | dsimp only)

theorem releaseCounters_moves {ll ss} {s : State} (hh : Moves ll ss s) (hsub : sub [.host, .stats, .ports, .frames, .stalled, .blockCounts, .pools, .intake, .tallies, .faults, .jobFree, .fresh] ll = true) :
    Moves ll ss (releaseCounters s) := by
  refine hh.trans ?_ hsub; unfold releaseCounters
  repeat' (first | with_reducible assumption | with_reducible exact Moves.refl _ _ | with_reducible exact rfl | exact rfl |  (intro _) | with_reducible refine settleTally_moves ?_ ?_ | with_reducible refine foldl_moves ?_ ?_ | with_reducible refine foldl_fst_moves ?_ ?_ | with_reducible refine ite_moves ?_ ?_ | with_reducible refine ite_snd_moves ?_ ?_ | with_reducible refine ite_fst_moves ?_ ?_ | split | refine fst_of_eq (by assumption) ?_ | refine snd_of_eq (by assumption) ?_ | dsimp only)

theorem openTally_moves {ll ss} {s : State} {n : Nat} {v : Tally} {c : Nat} (hh : Moves ll ss s) (hsub : sub [.host, .tallies] ll = true) :
    Moves ll ss (openTally s n v c) := by
  refine hh.trans ?_ hsub; unfold openTally
  repeat' (first | with_reducible assumption | with_reducible exact Moves.refl _ _ | with_reducible exact rfl | exact rfl |  (intro _) | with_reducible refine setTally_moves ?_ ?_ | with_reducible refine completeTo_moves ?_ ?_ | with_reducible refine ite_moves ?_ ?_ | with_reducible refine ite_snd_moves ?_ ?_ | with_reducible refine ite_fst_moves ?_ ?_ | split | refine fst_of_eq (by assumption) ?_ | refine snd_of_eq (by assumption) ?_ | dsimp only)

theorem openWaiting_moves {ll ss} {s : State} {tick : Bool} (hh : Moves ll ss s) (hsub : sub [.host, .tallies] ll = true) :
    Moves ll ss (openWaiting s tick) := by
  refine hh.trans ?_ hsub; unfold openWaiting
  repeat' (first | with_reducible assumption | with_reducible exact Moves.refl _ _ | with_reducible exact rfl | exact rfl |  (intro _) | with_reducible refine openTally_moves ?_ ?_ | with_reducible refine foldl_moves ?_ ?_ | with_reducible refine foldl_fst_moves ?_ ?_ | with_reducible refine ite_moves ?_ ?_ | with_reducible refine ite_snd_moves ?_ ?_ | with_reducible refine ite_fst_moves ?_ ?_ | split | refine fst_of_eq (by assumption) ?_ | refine snd_of_eq (by assumption) ?_ | dsimp only)

theorem tallyCycle_moves {ll ss} {s : State} (hh : Moves ll ss s) (hsub : sub [.host, .tallies] ll = true) :
    Moves ll ss (tallyCycle s) := by
  refine hh.trans ?_ hsub; unfold tallyCycle
  repeat' (first | with_reducible assumption | with_reducible exact Moves.refl _ _ | with_reducible exact rfl | exact rfl |  (intro _) | with_reducible refine openTally_moves ?_ ?_ | with_reducible refine foldl_moves ?_ ?_ | with_reducible refine foldl_fst_moves ?_ ?_ | with_reducible refine ite_moves ?_ ?_ | with_reducible refine ite_snd_moves ?_ ?_ | with_reducible refine ite_fst_moves ?_ ?_ | split | refine fst_of_eq (by assumption) ?_ | refine snd_of_eq (by assumption) ?_ | dsimp only)

theorem execTallyOpen_moves {ring : BitVec 6} {d : Desc} {words inputs : List W64} {s : State} : Runs [.host, .stats, .tallies, .fresh] s (execTallyOpen ring d words inputs s) := by
  unfold execTallyOpen
  repeat' (first | with_reducible assumption | with_reducible exact Moves.refl _ _ | with_reducible exact rfl | exact rfl |  (intro _) | with_reducible refine accept_moves ?_ ?_ ?_ | with_reducible refine completeTo_moves ?_ ?_ | with_reducible refine setTally_moves ?_ ?_ | with_reducible refine Runs.next ?_ | with_reducible refine ite_moves ?_ ?_ | with_reducible refine ite_snd_moves ?_ ?_ | with_reducible refine ite_fst_moves ?_ ?_ | split | refine fst_of_eq (by assumption) ?_ | refine snd_of_eq (by assumption) ?_ | dsimp only)

theorem closeTally_moves {ll ss} {ring : BitVec 6} {d : Desc} {op : Nat} {s : State} (hh : Moves ll ss s) (hsub : sub [.host, .stats, .ports, .tallies, .fresh] ll = true) :
    Moves ll ss (closeTally ring d op s) := by
  refine hh.trans ?_ hsub; unfold closeTally
  repeat' (first | with_reducible assumption | with_reducible exact Moves.refl _ _ | with_reducible exact rfl | exact rfl |  (intro _) | with_reducible refine accept_moves ?_ ?_ ?_ | with_reducible refine complete_moves ?_ ?_ | with_reducible refine postTally_moves ?_ ?_ | with_reducible refine completeTo_moves ?_ ?_ | with_reducible refine foldl_moves ?_ ?_ | with_reducible refine foldl_fst_moves ?_ ?_ | with_reducible refine ite_moves ?_ ?_ | with_reducible refine ite_snd_moves ?_ ?_ | with_reducible refine ite_fst_moves ?_ ?_ | split | refine fst_of_eq (by assumption) ?_ | refine snd_of_eq (by assumption) ?_ | with_reducible refine upd_tallies ?_ ?_ | dsimp only)

theorem execTallyClose_moves {ring : BitVec 6} {d : Desc} {s : State} : Runs [.host, .stats, .ports, .tallies, .fresh] s (execTallyClose ring d s) := by
  unfold execTallyClose
  repeat' (first | with_reducible assumption | with_reducible exact Moves.refl _ _ | with_reducible exact rfl | exact rfl |  (intro _) | with_reducible refine closeTally_moves ?_ ?_ | with_reducible refine Runs.next ?_ | with_reducible refine ite_moves ?_ ?_ | with_reducible refine ite_snd_moves ?_ ?_ | with_reducible refine ite_fst_moves ?_ ?_ | split | refine fst_of_eq (by assumption) ?_ | refine snd_of_eq (by assumption) ?_ | dsimp only)

theorem execTallyAbort_moves {ring : BitVec 6} {d : Desc} {s : State} : Runs [.host, .stats, .ports, .tallies, .fresh] s (execTallyAbort ring d s) := by
  unfold execTallyAbort
  repeat' (first | with_reducible assumption | with_reducible exact Moves.refl _ _ | with_reducible exact rfl | exact rfl |  (intro _) | with_reducible refine closeTally_moves ?_ ?_ | with_reducible refine Runs.next ?_ | with_reducible refine ite_moves ?_ ?_ | with_reducible refine ite_snd_moves ?_ ?_ | with_reducible refine ite_fst_moves ?_ ?_ | split | refine fst_of_eq (by assumption) ?_ | refine snd_of_eq (by assumption) ?_ | dsimp only)

theorem exciseSlot_moves {ll ss} {s : State} {n : Nat} {v : Tally} {slot : Nat} {a : Accept} (hh : Moves ll ss s) (hsub : sub [.host, .stats, .ports, .frames, .stalled, .blockCounts, .pools, .intake, .tallies, .faults, .jobFree, .fresh] ll = true) :
    Moves ll ss (exciseSlot s n v slot a) := by
  refine hh.trans ?_ hsub; unfold exciseSlot
  repeat' (first | with_reducible assumption | with_reducible exact Moves.refl _ _ | with_reducible exact rfl | exact rfl |  (intro _) | with_reducible refine settleTally_moves ?_ ?_ | with_reducible refine setTally_moves ?_ ?_ | with_reducible refine complete_moves ?_ ?_ | with_reducible refine ite_moves ?_ ?_ | with_reducible refine ite_snd_moves ?_ ?_ | with_reducible refine ite_fst_moves ?_ ?_ | split | refine fst_of_eq (by assumption) ?_ | refine snd_of_eq (by assumption) ?_ | dsimp only)

theorem execTallyExcise_moves {ring : BitVec 6} {d : Desc} {s : State} : Runs [.host, .stats, .ports, .frames, .stalled, .blockCounts, .pools, .intake, .tallies, .faults, .jobFree, .fresh] s (execTallyExcise ring d s) := by
  unfold execTallyExcise
  repeat' (first | with_reducible assumption | with_reducible exact Moves.refl _ _ | with_reducible exact rfl | exact rfl |  (intro _) | with_reducible refine accept_moves ?_ ?_ ?_ | with_reducible refine complete_moves ?_ ?_ | with_reducible refine setTally_moves ?_ ?_ | with_reducible refine exciseSlot_moves ?_ ?_ | with_reducible refine Runs.next ?_ | with_reducible refine ite_moves ?_ ?_ | with_reducible refine ite_snd_moves ?_ ?_ | with_reducible refine ite_fst_moves ?_ ?_ | split | refine fst_of_eq (by assumption) ?_ | refine snd_of_eq (by assumption) ?_ | dsimp only)

theorem execTallyExciseEffect_moves {tally : BitVec 12} {slot : BitVec 10} {s : State} : Runs [.host, .stats, .ports, .frames, .stalled, .blockCounts, .pools, .intake, .tallies, .faults, .jobFree, .fresh] s (execTallyExciseEffect tally slot s) := by
  unfold execTallyExciseEffect
  repeat' (first | with_reducible assumption | with_reducible exact Moves.refl _ _ | with_reducible exact rfl | exact rfl |  (intro _) | with_reducible refine exciseSlot_moves ?_ ?_ | with_reducible refine Runs.next ?_ | with_reducible refine ite_moves ?_ ?_ | with_reducible refine ite_snd_moves ?_ ?_ | with_reducible refine ite_fst_moves ?_ ?_ | split | refine fst_of_eq (by assumption) ?_ | refine snd_of_eq (by assumption) ?_ | dsimp only)

theorem tallyInput_moves {ll ss} {s : State} {f : Frame} {take : Tally → Header → Option Tally} (hh : Moves ll ss s) (hsub : sub [.host, .stats, .ports, .frames, .stalled, .blockCounts, .pools, .intake, .tallies, .faults, .jobFree, .fresh] ll = true) :
    Moves ll ss (tallyInput s f take) := by
  refine hh.trans ?_ hsub; unfold tallyInput
  repeat' (first | with_reducible assumption | with_reducible exact Moves.refl _ _ | with_reducible exact rfl | exact rfl |  (intro _) | with_reducible refine takeIntake_moves ?_ ?_ | with_reducible refine setTally_moves ?_ ?_ | with_reducible refine discard_moves ?_ ?_ | with_reducible refine settleTally_moves ?_ ?_ | with_reducible refine ite_moves ?_ ?_ | with_reducible refine ite_snd_moves ?_ ?_ | with_reducible refine ite_fst_moves ?_ ?_ | split | refine fst_of_eq (by assumption) ?_ | refine snd_of_eq (by assumption) ?_ | dsimp only)

theorem execTallyArrive_moves {f : Frame} {s : State} : Runs [.host, .stats, .ports, .frames, .stalled, .blockCounts, .pools, .intake, .tallies, .faults, .jobFree, .fresh] s (execTallyArrive f s) := by
  unfold execTallyArrive
  repeat' (first | with_reducible assumption | with_reducible exact Moves.refl _ _ | with_reducible exact rfl | exact rfl |  (intro _) | with_reducible refine tallyInput_moves ?_ ?_ | with_reducible refine Runs.next ?_ | with_reducible refine ite_moves ?_ ?_ | with_reducible refine ite_snd_moves ?_ ?_ | with_reducible refine ite_fst_moves ?_ ?_ | split | refine fst_of_eq (by assumption) ?_ | refine snd_of_eq (by assumption) ?_ | dsimp only)

theorem execTallyCarry_moves {f : Frame} {s : State} : Runs [.host, .stats, .ports, .frames, .stalled, .blockCounts, .pools, .intake, .tallies, .faults, .jobFree, .fresh] s (execTallyCarry f s) := by
  unfold execTallyCarry
  repeat' (first | with_reducible assumption | with_reducible exact Moves.refl _ _ | with_reducible exact rfl | exact rfl |  (intro _) | with_reducible refine tallyInput_moves ?_ ?_ | with_reducible refine Runs.next ?_ | with_reducible refine ite_moves ?_ ?_ | with_reducible refine ite_snd_moves ?_ ?_ | with_reducible refine ite_fst_moves ?_ ?_ | split | refine fst_of_eq (by assumption) ?_ | refine snd_of_eq (by assumption) ?_ | dsimp only)

theorem execTallyAdd_moves {f : Frame} {s : State} : Runs [.host, .stats, .ports, .frames, .stalled, .blockCounts, .pools, .intake, .tallies, .faults, .jobFree, .fresh] s (execTallyAdd f s) := by
  unfold execTallyAdd
  repeat' (first | with_reducible assumption | with_reducible exact Moves.refl _ _ | with_reducible exact rfl | exact rfl |  (intro _) | with_reducible refine postEvent_moves ?_ ?_ | with_reducible refine tallyInput_moves ?_ ?_ | with_reducible refine Runs.next ?_ | with_reducible refine ite_moves ?_ ?_ | with_reducible refine ite_snd_moves ?_ ?_ | with_reducible refine ite_fst_moves ?_ ?_ | split | refine fst_of_eq (by assumption) ?_ | refine snd_of_eq (by assumption) ?_ | dsimp only)

theorem alignedForward_moves {ll ss} {s : State} {p : Nat} {h : Header} {f : Frame} {r : Nat} (hh : Moves ll ss s) (hsub : sub [.host, .stats, .ports, .frames, .blockCounts, .pools, .tandem, .dropping, .faults, .fresh] ll = true) :
    Moves ll ss (alignedForward s p h f r) := by
  refine hh.trans ?_ hsub; unfold alignedForward
  repeat' (first | with_reducible assumption | with_reducible exact Moves.refl _ _ | with_reducible exact rfl | exact rfl |  (intro _) | with_reducible refine countFlush_moves ?_ ?_ | with_reducible refine owe_moves ?_ ?_ | with_reducible refine admitFrame_moves ?_ ?_ | with_reducible refine ready_moves ?_ ?_ | with_reducible refine forwardCopyAs_moves ?_ ?_ | with_reducible refine foldl_moves ?_ ?_ | with_reducible refine foldl_fst_moves ?_ ?_ | with_reducible refine ite_moves ?_ ?_ | with_reducible refine ite_snd_moves ?_ ?_ | with_reducible refine ite_fst_moves ?_ ?_ | split | refine fst_of_eq (by assumption) ?_ | refine snd_of_eq (by assumption) ?_ | dsimp only)

theorem advanceInner_moves {ll ss} {s : State} {h : Header} (hh : Moves ll ss s) (hsub : sub [.host, .stats, .tallies, .fresh] ll = true) :
    Moves ll ss (advanceInner s h) := by
  refine hh.trans ?_ hsub; unfold advanceInner
  repeat' (first | with_reducible assumption | with_reducible exact Moves.refl _ _ | with_reducible exact rfl | exact rfl |  (intro _) | with_reducible refine postEvent_moves ?_ ?_ | with_reducible refine setTally_moves ?_ ?_ | with_reducible refine ite_moves ?_ ?_ | with_reducible refine ite_snd_moves ?_ ?_ | with_reducible refine ite_fst_moves ?_ ?_ | split | refine fst_of_eq (by assumption) ?_ | refine snd_of_eq (by assumption) ?_ | dsimp only)

theorem execTallyReleasePass_moves {port : BitVec 9} {f : Frame} {s : State} : Runs [.now, .host, .stats, .ports, .frames, .reorder, .blockCounts, .pools, .tandem, .dropping, .intake, .tallies, .faults, .fresh] s (execTallyReleasePass port f s) := by
  unfold execTallyReleasePass
  repeat' (first | with_reducible assumption | with_reducible exact Moves.refl _ _ | with_reducible exact rfl | exact rfl |  (intro _) | with_reducible refine alignedForward_moves ?_ ?_ | with_reducible refine forward_moves ?_ ?_ | with_reducible refine advanceInner_moves ?_ ?_ | with_reducible refine Runs.next ?_ | with_reducible refine ite_moves ?_ ?_ | with_reducible refine ite_snd_moves ?_ ?_ | with_reducible refine ite_fst_moves ?_ ?_ | split | refine fst_of_eq (by assumption) ?_ | refine snd_of_eq (by assumption) ?_ | with_reducible refine upd_now_intake ?_ ?_ | with_reducible refine upd_now ?_ ?_ | dsimp only)

theorem execTallyTimerExpiry_moves {tally : BitVec 12} {s : State} : Runs [.host, .stats, .tallies, .fresh] s (execTallyTimerExpiry tally s) := by
  unfold execTallyTimerExpiry
  repeat' (first | with_reducible assumption | with_reducible exact Moves.refl _ _ | with_reducible exact rfl | exact rfl |  (intro _) | with_reducible refine postEvent_moves ?_ ?_ | with_reducible refine setTally_moves ?_ ?_ | with_reducible refine Runs.next ?_ | with_reducible refine ite_moves ?_ ?_ | with_reducible refine ite_snd_moves ?_ ?_ | with_reducible refine ite_fst_moves ?_ ?_ | split | refine fst_of_eq (by assumption) ?_ | refine snd_of_eq (by assumption) ?_ | dsimp only)

theorem execTallyDeadline_moves {tally : BitVec 12} {s : State} : Runs [.host, .stats, .ports, .tallies, .fresh] s (execTallyDeadline tally s) := by
  unfold execTallyDeadline
  repeat' (first | with_reducible assumption | with_reducible exact Moves.refl _ _ | with_reducible exact rfl | exact rfl |  (intro _) | with_reducible refine lateTally_moves ?_ ?_ | with_reducible refine Runs.next ?_ | with_reducible refine ite_moves ?_ ?_ | with_reducible refine ite_snd_moves ?_ ?_ | with_reducible refine ite_fst_moves ?_ ?_ | split | refine fst_of_eq (by assumption) ?_ | refine snd_of_eq (by assumption) ?_ | dsimp only)

end Sys2Proof.Laws
end

