-- ==== Sys2Proof/Laws/Moves/Window.lean ====
section
/-! SUPPORT. What the operations of Machine/Window.lean may change: one lemma each. -/

set_option linter.unusedTactic false
set_option linter.unreachableTactic false
set_option linter.unusedVariables false

namespace Sys2Proof.Laws

open Sys2Proof.Machine Sys2Proof.Safety

theorem windowRead_moves {ll ss} {s : State} {off size : Nat} (hh : Moves ll ss s) (hsub : sub [.host, .tiles] ll = true) :
    Moves ll ss (windowRead s off size) := by
  refine hh.trans ?_ hsub; unfold windowRead
  repeat' (first | with_reducible assumption | with_reducible exact Moves.refl _ _ | with_reducible exact rfl | exact rfl |  (intro _) | with_reducible refine answerRead_moves ?_ ?_ | with_reducible refine ite_moves ?_ ?_ | with_reducible refine ite_snd_moves ?_ ?_ | with_reducible refine ite_fst_moves ?_ ?_ | split | refine fst_of_eq (by assumption) ?_ | refine snd_of_eq (by assumption) ?_ | with_reducible refine upd_tiles ?_ ?_ | dsimp only)

theorem execAccumulatorWindowRead_moves {_origin : RegOrigin} {offset : BitVec 20} {size : Nat} {s : State} : Runs [.host, .tiles] s (execAccumulatorWindowRead _origin offset size s) := by
  unfold execAccumulatorWindowRead
  repeat' (first | with_reducible assumption | with_reducible exact Moves.refl _ _ | with_reducible exact rfl | exact rfl |  (intro _) | with_reducible refine windowRead_moves ?_ ?_ | with_reducible refine Runs.next ?_ | with_reducible refine ite_moves ?_ ?_ | with_reducible refine ite_snd_moves ?_ ?_ | with_reducible refine ite_fst_moves ?_ ?_ | split | refine fst_of_eq (by assumption) ?_ | refine snd_of_eq (by assumption) ?_ | dsimp only)

theorem execDbgreg_moves {write : Bool} {offset : BitVec 20} {size : Nat} {value : W64} {s : State} : Runs [.boot, .tick, .host, .stats, .refused, .ports, .tills, .tiles, .ledger, .fresh] s (execDbgreg write offset size value s) := by
  unfold execDbgreg
  repeat' (first | with_reducible assumption | with_reducible exact Moves.refl _ _ | with_reducible exact rfl | exact rfl |  (intro _) | with_reducible refine regWrite_moves ?_ ?_ | with_reducible refine windowRead_moves ?_ ?_ | with_reducible refine regRead_moves ?_ ?_ | with_reducible refine Runs.next ?_ | with_reducible refine ite_moves ?_ ?_ | with_reducible refine ite_snd_moves ?_ ?_ | with_reducible refine ite_fst_moves ?_ ?_ | split | refine fst_of_eq (by assumption) ?_ | refine snd_of_eq (by assumption) ?_ | dsimp only)

theorem runAfter_moves {l s0} {s : State} {a : After} (h : Moves l s0 s) (hs : sub [.host, .stats, .pools, .tills, .hbm, .faults, .fresh] l = true) :
    Moves l s0 (runAfter s a) := by
  refine h.trans ?_ hs
  unfold runAfter
  repeat' (first | exact modTill_moves (Moves.refl _ _) rfl | exact freeTill_moves (Moves.refl _ _) rfl | exact makeCurrent_moves (Moves.refl _ _) rfl |
    exact setRegion_moves (Moves.refl _ _) rfl | exact Moves.refl _ _ | split)

theorem cplFinished_moves {ll ss} {s : State} {c : Cpl} (hh : Moves ll ss s) (hsub : sub [.host] ll = true) :
    Moves ll ss (cplFinished s c) := by
  refine hh.trans ?_ hsub; unfold cplFinished
  repeat' (first | with_reducible assumption | with_reducible exact Moves.refl _ _ | with_reducible exact rfl | exact rfl |  (intro _) | with_reducible refine finished_moves ?_ ?_ | with_reducible refine ite_moves ?_ ?_ | with_reducible refine ite_snd_moves ?_ ?_ | with_reducible refine ite_fst_moves ?_ ?_ | split | refine fst_of_eq (by assumption) ?_ | refine snd_of_eq (by assumption) ?_ | dsimp only)

theorem writeCpl_moves {ll ss} {s : State} {c : Cpl} (hh : Moves ll ss s) (hsub : sub [.host, .stats, .pools, .tills, .hbm, .faults, .fresh] ll = true) :
    Moves ll ss (writeCpl s c) := by
  refine hh.trans ?_ hsub; unfold writeCpl
  repeat' (first | with_reducible assumption | with_reducible exact Moves.refl _ _ | with_reducible exact rfl | exact rfl |  (intro _) | with_reducible refine noCring_moves ?_ ?_ | with_reducible refine ringPut_moves ?_ ?_ | with_reducible refine setCplRing_moves ?_ ?_ | with_reducible refine runAfter_moves ?_ ?_ | with_reducible refine foldl_moves ?_ ?_ | with_reducible refine foldl_fst_moves ?_ ?_ | with_reducible refine ite_moves ?_ ?_ | with_reducible refine ite_snd_moves ?_ ?_ | with_reducible refine ite_fst_moves ?_ ?_ | split | refine fst_of_eq (by assumption) ?_ | refine snd_of_eq (by assumption) ?_ | dsimp only)

theorem postCpl_moves {ll ss} {s : State} {c : Cpl} (hh : Moves ll ss s) (hsub : sub [.host, .stats, .pools, .tills, .hbm, .faults, .fresh] ll = true) :
    Moves ll ss (postCpl s c) := by
  refine hh.trans ?_ hsub; unfold postCpl
  repeat' (first | with_reducible assumption | with_reducible exact Moves.refl _ _ | with_reducible exact rfl | exact rfl | ((fail_if_success (show Moves _ _ _)); first | exact side_hostSame rfl rfl rfl rfl | exact side_tables rfl | exact side_nil | exact side_map | exact side_hostMap rfl rfl rfl rfl | exact side_host4 rfl rfl rfl rfl) |  (intro _) | with_reducible refine cplFinished_moves ?_ ?_ | with_reducible refine runAfter_moves ?_ ?_ | with_reducible refine writeCpl_moves ?_ ?_ | with_reducible refine ringOverflow_moves ?_ ?_ | with_reducible refine foldl_moves ?_ ?_ | with_reducible refine foldl_fst_moves ?_ ?_ | with_reducible refine ite_moves ?_ ?_ | with_reducible refine ite_snd_moves ?_ ?_ | with_reducible refine ite_fst_moves ?_ ?_ | split | refine fst_of_eq (by assumption) ?_ | refine snd_of_eq (by assumption) ?_ | with_reducible refine upd_host ?_ ?_ ?_ | dsimp only)

theorem execCompletionWrite_moves {s : State} : Runs [.host, .stats, .pools, .tills, .hbm, .faults, .fresh] s (execCompletionWrite s) := by
  unfold execCompletionWrite
  repeat' (first | with_reducible assumption | with_reducible exact Moves.refl _ _ | with_reducible exact rfl | exact rfl | ((fail_if_success (show Moves _ _ _)); first | exact side_hostSame rfl rfl rfl rfl | exact side_tables rfl | exact side_nil | exact side_map | exact side_hostMap rfl rfl rfl rfl | exact side_host4 rfl rfl rfl rfl) |  (intro _) | with_reducible refine writeCpl_moves ?_ ?_ | with_reducible refine postCpl_moves ?_ ?_ | with_reducible refine ready_moves ?_ ?_ | with_reducible refine Runs.next ?_ | with_reducible refine ite_moves ?_ ?_ | with_reducible refine ite_snd_moves ?_ ?_ | with_reducible refine ite_fst_moves ?_ ?_ | split | refine fst_of_eq (by assumption) ?_ | refine snd_of_eq (by assumption) ?_ | with_reducible refine upd_host ?_ ?_ ?_ | dsimp only)

end Sys2Proof.Laws
end

