-- ==== Sys2Proof/Laws/Moves/Tick.lean ====
section
/-! SUPPORT. What the operations of Machine/Tick.lean may change: one lemma each. -/

set_option linter.unusedTactic false
set_option linter.unreachableTactic false
set_option linter.unusedVariables false

namespace Sys2Proof.Laws

open Sys2Proof.Machine Sys2Proof.Safety

theorem beginExcisions_moves {ll ss} {s : State} (hh : Moves ll ss s) (hsub : sub [.tills] ll = true) :
    Moves ll ss (beginExcisions s) := by
  refine hh.trans ?_ hsub; unfold beginExcisions
  repeat' (first | with_reducible assumption | with_reducible exact Moves.refl _ _ | with_reducible exact rfl | exact rfl |  (intro _) | with_reducible refine modTill_moves ?_ ?_ | with_reducible refine foldl_moves ?_ ?_ | with_reducible refine foldl_fst_moves ?_ ?_ | with_reducible refine ite_moves ?_ ?_ | with_reducible refine ite_snd_moves ?_ ?_ | with_reducible refine ite_fst_moves ?_ ?_ | split | refine fst_of_eq (by assumption) ?_ | refine snd_of_eq (by assumption) ?_ | dsimp only)

theorem beginTick_moves {ll ss} {s : State} (hh : Moves ll ss s) (hsub : sub [.tick, .host, .ports, .tandem, .tills, .tallies, .jobFree] ll = true) :
    Moves ll ss (beginTick s) := by
  refine hh.trans ?_ hsub; unfold beginTick
  repeat' (first | with_reducible assumption | with_reducible exact Moves.refl _ _ | with_reducible exact rfl | exact rfl |  (intro _) | with_reducible refine beginExcisions_moves ?_ ?_ | with_reducible refine openWaiting_moves ?_ ?_ | with_reducible refine openTills_moves ?_ ?_ | with_reducible refine tandemTick_moves ?_ ?_ | with_reducible refine clearWatches_moves ?_ ?_ | with_reducible refine ite_moves ?_ ?_ | with_reducible refine ite_snd_moves ?_ ?_ | with_reducible refine ite_fst_moves ?_ ?_ | split | refine fst_of_eq (by assumption) ?_ | refine snd_of_eq (by assumption) ?_ | with_reducible refine upd_tick ?_ ?_ | dsimp only)

theorem execTickBegin_moves {s : State} : Runs [.tick, .host, .ports, .tandem, .tills, .tallies, .jobFree] s (execTickBegin s) := by
  unfold execTickBegin
  repeat' (first | with_reducible assumption | with_reducible exact Moves.refl _ _ | with_reducible exact rfl | exact rfl |  (intro _) | with_reducible refine beginTick_moves ?_ ?_ | with_reducible refine Runs.next ?_ | with_reducible refine ite_moves ?_ ?_ | with_reducible refine ite_snd_moves ?_ ?_ | with_reducible refine ite_fst_moves ?_ ?_ | split | refine fst_of_eq (by assumption) ?_ | refine snd_of_eq (by assumption) ?_ | dsimp only)

theorem execTickOfferSend_moves {port : BitVec 9} {s : State} : Runs [.host, .stats, .ports, .frames, .stalled, .blockCounts, .pools, .faults, .fresh] s (execTickOfferSend port s) := by
  unfold execTickOfferSend
  repeat' (first | with_reducible assumption | with_reducible exact Moves.refl _ _ | with_reducible exact rfl | exact rfl |  (intro _) | with_reducible refine emitTo_moves ?_ ?_ | with_reducible refine modPort_moves ?_ ?_ | with_reducible refine Runs.next ?_ | with_reducible refine ite_moves ?_ ?_ | with_reducible refine ite_snd_moves ?_ ?_ | with_reducible refine ite_fst_moves ?_ ?_ | split | refine fst_of_eq (by assumption) ?_ | refine snd_of_eq (by assumption) ?_ | dsimp only)

theorem execTickOfferReceive_moves {port : BitVec 9} {f : Frame} {markArrival : Nat} {s : State} : Runs [.tick, .host, .ports, .intake, .tallies, .ledger] s (execTickOfferReceive port f markArrival s) := by
  unfold execTickOfferReceive
  repeat' (first | with_reducible assumption | with_reducible exact Moves.refl _ _ | with_reducible exact rfl | exact rfl |  (intro _) | with_reducible refine takeIntake_moves ?_ ?_ | with_reducible refine openWaiting_moves ?_ ?_ | with_reducible refine clearWatches_moves ?_ ?_ | with_reducible refine recordRaw_moves ?_ ?_ | with_reducible refine Runs.next ?_ | with_reducible refine ite_moves ?_ ?_ | with_reducible refine ite_snd_moves ?_ ?_ | with_reducible refine ite_fst_moves ?_ ?_ | split | refine fst_of_eq (by assumption) ?_ | refine snd_of_eq (by assumption) ?_ | with_reducible refine upd_tick ?_ ?_ | dsimp only)

end Sys2Proof.Laws
end

