-- ==== Sys2Proof/Laws/Moves/Boot.lean ====
section
/-! SUPPORT. What the operations of Machine/Boot.lean may change: one lemma each. -/

set_option linter.unusedTactic false
set_option linter.unreachableTactic false
set_option linter.unusedVariables false

namespace Sys2Proof.Laws

open Sys2Proof.Machine Sys2Proof.Safety

theorem coldState_moves {ll ss} {s : State} {cause : BitVec 2} (hh : Moves ll ss s) (hsub : sub [.now, .boot, .tick, .tables, .host, .stats, .refused, .ports, .lanes, .frames, .stalled, .reorder, .doneMsgs, .blockCounts, .shapers, .meters, .pools, .tandem, .dropping, .intake, .parsing, .tills, .tallies, .progs, .ctxs, .tiles, .mem, .hbm, .faults, .bridge, .relays, .toss, .jobFree, .ledger, .spdm, .doe] ll = true) :
    Moves ll ss (coldState s cause) :=
  hh.trans ⟨fun p hp => by cases p <;> first | rfl | exact absurd (by decide) hp, fun _ => rfl, fun _ => ⟨rfl, rfl, rfl, ⟨rfl, rfl, rfl, rfl⟩, rfl, rfl⟩⟩ hsub

theorem execColdReset_moves {cause : BitVec 2} {s : State} : Runs [.now, .boot, .tick, .tables, .host, .stats, .refused, .ports, .lanes, .frames, .stalled, .reorder, .doneMsgs, .blockCounts, .shapers, .meters, .pools, .tandem, .dropping, .intake, .parsing, .tills, .tallies, .progs, .ctxs, .tiles, .mem, .hbm, .faults, .bridge, .relays, .toss, .jobFree, .ledger, .spdm, .doe] s (execColdReset cause s) := by
  unfold execColdReset
  repeat' (first | with_reducible assumption | with_reducible exact Moves.refl _ _ | with_reducible exact rfl | exact rfl |  (intro _) | with_reducible refine coldState_moves ?_ ?_ | with_reducible refine Runs.next ?_ | with_reducible refine ite_moves ?_ ?_ | with_reducible refine ite_snd_moves ?_ ?_ | with_reducible refine ite_fst_moves ?_ ?_ | split | refine fst_of_eq (by assumption) ?_ | refine snd_of_eq (by assumption) ?_ | dsimp only)

theorem execRstNRelease_moves {s : State} : Runs [.boot] s (execRstNRelease s) := by
  unfold execRstNRelease
  repeat' (first | with_reducible assumption | with_reducible exact Moves.refl _ _ | with_reducible exact rfl | exact rfl |  (intro _) | with_reducible refine Runs.next ?_ | with_reducible refine ite_moves ?_ ?_ | with_reducible refine ite_snd_moves ?_ ?_ | with_reducible refine ite_fst_moves ?_ ?_ | split | refine fst_of_eq (by assumption) ?_ | refine snd_of_eq (by assumption) ?_ | with_reducible refine upd_boot ?_ ?_ | dsimp only)

theorem bootFail_moves {ll ss} {s : State} {target reason : Nat} (hh : Moves ll ss s) (hsub : sub [.ledger] ll = true) :
    Moves ll ss (bootFail s target reason) := by
  refine hh.trans ?_ hsub; unfold bootFail
  repeat' (first | with_reducible assumption | with_reducible exact Moves.refl _ _ | with_reducible exact rfl | exact rfl |  (intro _) | with_reducible refine recordRaw_moves ?_ ?_ | with_reducible refine ite_moves ?_ ?_ | with_reducible refine ite_snd_moves ?_ ?_ | with_reducible refine ite_fst_moves ?_ ?_ | split | refine fst_of_eq (by assumption) ?_ | refine snd_of_eq (by assumption) ?_ | dsimp only)

theorem holdBoot_moves {ll ss} {s : State} (hh : Moves ll ss s) (hsub : sub [.boot] ll = true) :
    Moves ll ss (holdBoot s) := by
  refine hh.trans ?_ hsub; unfold holdBoot
  repeat' (first | with_reducible assumption | with_reducible exact Moves.refl _ _ | with_reducible exact rfl | exact rfl |  (intro _) | with_reducible refine ite_moves ?_ ?_ | with_reducible refine ite_snd_moves ?_ ?_ | with_reducible refine ite_fst_moves ?_ ?_ | split | refine fst_of_eq (by assumption) ?_ | refine snd_of_eq (by assumption) ?_ | with_reducible refine upd_boot ?_ ?_ | dsimp only)

theorem execPllLock_moves {fuses : Fuses} {pins : BitVec 14} {s : State} : Runs [.boot, .tick, .ledger] s (execPllLock fuses pins s) := by
  unfold execPllLock
  repeat' (first | with_reducible assumption | with_reducible exact Moves.refl _ _ | with_reducible exact rfl | exact rfl |  (intro _) | with_reducible refine holdBoot_moves ?_ ?_ | with_reducible refine bootFail_moves ?_ ?_ | with_reducible refine Runs.next ?_ | with_reducible refine ite_moves ?_ ?_ | with_reducible refine ite_snd_moves ?_ ?_ | with_reducible refine ite_fst_moves ?_ ?_ | split | refine fst_of_eq (by assumption) ?_ | refine snd_of_eq (by assumption) ?_ | with_reducible refine upd_boot_tick ?_ ?_ | dsimp only)

theorem execSyncNSampleHigh_moves {s : State} : Runs [.now, .boot, .host, .stats, .fresh] s (execSyncNSampleHigh s) := by
  unfold execSyncNSampleHigh
  repeat' (first | with_reducible assumption | with_reducible exact Moves.refl _ _ | with_reducible exact rfl | exact rfl |  (intro _) | with_reducible refine noteState_moves ?_ ?_ | with_reducible refine setCause_moves ?_ ?_ | with_reducible refine Runs.next ?_ | with_reducible refine ite_moves ?_ ?_ | with_reducible refine ite_snd_moves ?_ ?_ | with_reducible refine ite_fst_moves ?_ ?_ | split | refine fst_of_eq (by assumption) ?_ | refine snd_of_eq (by assumption) ?_ | with_reducible refine upd_now_boot ?_ ?_ | dsimp only)

theorem readyBits_moves {ll ss} {s : State} {v : Nat} (hh : Moves ll ss s) (hsub : sub [.boot, .host] ll = true) :
    Moves ll ss (readyBits s v) := by
  refine hh.trans ?_ hsub; unfold readyBits
  repeat' (first | with_reducible assumption | with_reducible exact Moves.refl _ _ | with_reducible exact rfl | exact rfl |  (intro _) | with_reducible refine ready_moves ?_ ?_ | with_reducible refine ite_moves ?_ ?_ | with_reducible refine ite_snd_moves ?_ ?_ | with_reducible refine ite_fst_moves ?_ ?_ | split | refine fst_of_eq (by assumption) ?_ | refine snd_of_eq (by assumption) ?_ | with_reducible refine upd_boot ?_ ?_ | dsimp only)

theorem unreadyBits_moves {ll ss} {s : State} {v : Nat} (hh : Moves ll ss s) (hsub : sub [.boot, .host] ll = true) :
    Moves ll ss (unreadyBits s v) := by
  refine hh.trans ?_ hsub; unfold unreadyBits
  repeat' (first | with_reducible assumption | with_reducible exact Moves.refl _ _ | with_reducible exact rfl | exact rfl |  (intro _) | with_reducible refine ready_moves ?_ ?_ | with_reducible refine ite_moves ?_ ?_ | with_reducible refine ite_snd_moves ?_ ?_ | with_reducible refine ite_fst_moves ?_ ?_ | split | refine fst_of_eq (by assumption) ?_ | refine snd_of_eq (by assumption) ?_ | with_reducible refine upd_boot ?_ ?_ | dsimp only)

theorem execTilesReady_moves {s : State} : Runs [.boot, .host, .tiles] s (execTilesReady s) := by
  unfold execTilesReady
  repeat' (first | with_reducible assumption | with_reducible exact Moves.refl _ _ | with_reducible exact rfl | exact rfl |  (intro _) | with_reducible refine readyBits_moves ?_ ?_ | with_reducible refine ready_moves ?_ ?_ | with_reducible refine Runs.next ?_ | with_reducible refine ite_moves ?_ ?_ | with_reducible refine ite_snd_moves ?_ ?_ | with_reducible refine ite_fst_moves ?_ ?_ | split | refine fst_of_eq (by assumption) ?_ | refine snd_of_eq (by assumption) ?_ | with_reducible refine upd_tiles ?_ ?_ | dsimp only)

theorem noteFlash_moves {ll ss} {s : State} {i : Item} (hh : Moves ll ss s) (hsub : sub [.host, .stats, .fresh] ll = true) :
    Moves ll ss (noteFlash s i) := by
  refine hh.trans ?_ hsub; unfold noteFlash
  repeat' (first | with_reducible assumption | with_reducible exact Moves.refl _ _ | with_reducible exact rfl | exact rfl |  (intro _) | with_reducible refine setCause_moves ?_ ?_ | with_reducible refine ite_moves ?_ ?_ | with_reducible refine ite_snd_moves ?_ ?_ | with_reducible refine ite_fst_moves ?_ ?_ | split | refine fst_of_eq (by assumption) ?_ | refine snd_of_eq (by assumption) ?_ | dsimp only)

theorem rejectSlot_moves {ll ss} {s : State} {slot reason : Nat} (hh : Moves ll ss s) (hsub : sub [.boot, .ledger] ll = true) :
    Moves ll ss (rejectSlot s slot reason) := by
  refine hh.trans ?_ hsub; unfold rejectSlot
  repeat' (first | with_reducible assumption | with_reducible exact Moves.refl _ _ | with_reducible exact rfl | exact rfl |  (intro _) | with_reducible refine bootFail_moves ?_ ?_ | with_reducible refine holdBoot_moves ?_ ?_ | with_reducible refine ite_moves ?_ ?_ | with_reducible refine ite_snd_moves ?_ ?_ | with_reducible refine ite_fst_moves ?_ ?_ | split | refine fst_of_eq (by assumption) ?_ | refine snd_of_eq (by assumption) ?_ | with_reducible refine upd_boot ?_ ?_ | dsimp only)

theorem checkIdentity_moves {ll ss} {s : State} {dir : Option (List Byte)} {chain : List Byte} {keyOk : Bool} (hh : Moves ll ss s) (hsub : sub [.boot, .host, .stats, .ledger, .fresh] ll = true) :
    Moves ll ss (checkIdentity s dir chain keyOk) := by
  refine hh.trans ?_ hsub; unfold checkIdentity
  repeat' (first | with_reducible assumption | with_reducible exact Moves.refl _ _ | with_reducible exact rfl | exact rfl |  (intro _) | with_reducible refine noteFlash_moves ?_ ?_ | with_reducible refine bootFail_moves ?_ ?_ | with_reducible refine ite_moves ?_ ?_ | with_reducible refine ite_snd_moves ?_ ?_ | with_reducible refine ite_fst_moves ?_ ?_ | split | refine fst_of_eq (by assumption) ?_ | refine snd_of_eq (by assumption) ?_ | with_reducible refine upd_boot ?_ ?_ | dsimp only)

theorem startFirmware_moves {ll ss} {s : State} {slot : Nat} {l : List Byte} (hh : Moves ll ss s) (hsub : sub [.boot, .host, .ledger] ll = true) :
    Moves ll ss (startFirmware s slot l) := by
  refine hh.trans ?_ hsub; unfold startFirmware
  repeat' (first | with_reducible assumption | with_reducible exact Moves.refl _ _ | with_reducible exact rfl | exact rfl |  (intro _) | with_reducible refine record_moves ?_ ?_ | with_reducible refine readyBits_moves ?_ ?_ | with_reducible refine ite_moves ?_ ?_ | with_reducible refine ite_snd_moves ?_ ?_ | with_reducible refine ite_fst_moves ?_ ?_ | split | refine fst_of_eq (by assumption) ?_ | refine snd_of_eq (by assumption) ?_ | with_reducible refine upd_boot ?_ ?_ | dsimp only)

theorem execFirmwareCheck_moves {dir : FlashDir} {item chain : List Byte} {chainKeyOk : Bool} {s : State} : Runs [.boot, .host, .stats, .ledger, .fresh] s (execFirmwareCheck dir item chain chainKeyOk s) := by
  unfold execFirmwareCheck
  repeat' (first | with_reducible assumption | with_reducible exact Moves.refl _ _ | with_reducible exact rfl | exact rfl |  (intro _) | with_reducible refine holdBoot_moves ?_ ?_ | with_reducible refine bootFail_moves ?_ ?_ | with_reducible refine setCause_moves ?_ ?_ | with_reducible refine noteFlash_moves ?_ ?_ | with_reducible refine rejectSlot_moves ?_ ?_ | with_reducible refine checkIdentity_moves ?_ ?_ | with_reducible refine startFirmware_moves ?_ ?_ | with_reducible refine Runs.next ?_ | with_reducible refine ite_moves ?_ ?_ | with_reducible refine ite_snd_moves ?_ ?_ | with_reducible refine ite_fst_moves ?_ ?_ | split | refine fst_of_eq (by assumption) ?_ | refine snd_of_eq (by assumption) ?_ | dsimp only)

theorem execJtagBootLoad_moves {image : List Byte} {s : State} : Runs [.boot] s (execJtagBootLoad image s) := by
  unfold execJtagBootLoad
  repeat' (first | with_reducible assumption | with_reducible exact Moves.refl _ _ | with_reducible exact rfl | exact rfl |  (intro _) | with_reducible refine Runs.next ?_ | with_reducible refine ite_moves ?_ ?_ | with_reducible refine ite_snd_moves ?_ ?_ | with_reducible refine ite_fst_moves ?_ ?_ | split | refine fst_of_eq (by assumption) ?_ | refine snd_of_eq (by assumption) ?_ | with_reducible refine upd_boot ?_ ?_ | dsimp only)

theorem takePlan_moves {ll ss} {s : State} {l : List Byte} (hh : Moves ll ss s) (hsub : sub [.boot, .tick, .host, .stats, .ports, .lanes, .stalled, .reorder, .tandem, .dropping, .intake, .tallies, .ledger, .fresh] ll = true) :
    Moves ll ss (takePlan s l) := by
  refine hh.trans ?_ hsub; unfold takePlan
  repeat' (first | with_reducible assumption | with_reducible exact Moves.refl _ _ | with_reducible exact rfl | exact rfl |  (intro _) | with_reducible refine record_moves ?_ ?_ | with_reducible refine openWaiting_moves ?_ ?_ | with_reducible refine openGroup_moves ?_ ?_ | with_reducible refine readyBits_moves ?_ ?_ | with_reducible refine foldl_moves ?_ ?_ | with_reducible refine foldl_fst_moves ?_ ?_ | with_reducible refine ite_moves ?_ ?_ | with_reducible refine ite_snd_moves ?_ ?_ | with_reducible refine ite_fst_moves ?_ ?_ | split | refine fst_of_eq (by assumption) ?_ | refine snd_of_eq (by assumption) ?_ | with_reducible refine upd_tick ?_ ?_ | with_reducible refine upd_boot ?_ ?_ | dsimp only)

theorem takeEq_moves {ll ss} {s : State} {t : List Byte} (hh : Moves ll ss s) (hsub : sub [.boot, .host, .stats, .ledger, .fresh] ll = true) :
    Moves ll ss (takeEq s t) := by
  refine hh.trans ?_ hsub; unfold takeEq
  repeat' (first | with_reducible assumption | with_reducible exact Moves.refl _ _ | with_reducible exact rfl | exact rfl |  (intro _) | with_reducible refine postEvent_moves ?_ ?_ | with_reducible refine record_moves ?_ ?_ | with_reducible refine foldl_moves ?_ ?_ | with_reducible refine foldl_fst_moves ?_ ?_ | with_reducible refine ite_moves ?_ ?_ | with_reducible refine ite_snd_moves ?_ ?_ | with_reducible refine ite_fst_moves ?_ ?_ | split | refine fst_of_eq (by assumption) ?_ | refine snd_of_eq (by assumption) ?_ | with_reducible refine upd_boot ?_ ?_ | dsimp only)

theorem settleIdle_moves {ll ss} {s : State} (hh : Moves ll ss s) (hsub : sub [.boot] ll = true) :
    Moves ll ss (settleIdle s) := by
  refine hh.trans ?_ hsub; unfold settleIdle
  repeat' (first | with_reducible assumption | with_reducible exact Moves.refl _ _ | with_reducible exact rfl | exact rfl |  (intro _) | with_reducible refine ite_moves ?_ ?_ | with_reducible refine ite_snd_moves ?_ ?_ | with_reducible refine ite_fst_moves ?_ ?_ | split | refine fst_of_eq (by assumption) ?_ | refine snd_of_eq (by assumption) ?_ | with_reducible refine upd_boot ?_ ?_ | dsimp only)

theorem execWiringPlanCheck_moves {dir : FlashDir} {plan eq : List Byte} {s : State} : Runs [.boot, .tick, .host, .stats, .ports, .lanes, .stalled, .reorder, .tandem, .dropping, .intake, .tallies, .ledger, .fresh] s (execWiringPlanCheck dir plan eq s) := by
  unfold execWiringPlanCheck
  repeat' (first | with_reducible assumption | with_reducible exact Moves.refl _ _ | with_reducible exact rfl | exact rfl |  (intro _) | with_reducible refine noteFlash_moves ?_ ?_ | with_reducible refine bootFail_moves ?_ ?_ | with_reducible refine takePlan_moves ?_ ?_ | with_reducible refine takeEq_moves ?_ ?_ | with_reducible refine settleIdle_moves ?_ ?_ | with_reducible refine readyBits_moves ?_ ?_ | with_reducible refine Runs.next ?_ | with_reducible refine ite_moves ?_ ?_ | with_reducible refine ite_snd_moves ?_ ?_ | with_reducible refine ite_fst_moves ?_ ?_ | split | refine fst_of_eq (by assumption) ?_ | refine snd_of_eq (by assumption) ?_ | with_reducible refine upd_boot ?_ ?_ | dsimp only)

theorem execFuseWrite_moves {s : State} : Runs [.boot, .ledger] s (execFuseWrite s) := by
  unfold execFuseWrite
  repeat' (first | with_reducible assumption | with_reducible exact Moves.refl _ _ | with_reducible exact rfl | exact rfl |  (intro _) | with_reducible refine recordRaw_moves ?_ ?_ | with_reducible refine Runs.next ?_ | with_reducible refine ite_moves ?_ ?_ | with_reducible refine ite_snd_moves ?_ ?_ | with_reducible refine ite_fst_moves ?_ ?_ | split | refine fst_of_eq (by assumption) ?_ | refine snd_of_eq (by assumption) ?_ | with_reducible refine upd_boot ?_ ?_ | dsimp only)

theorem execStrapChange_moves {pins : BitVec 14} {s : State} : Runs [.boot, .ledger] s (execStrapChange pins s) := by
  unfold execStrapChange
  repeat' (first | with_reducible assumption | with_reducible exact Moves.refl _ _ | with_reducible exact rfl | exact rfl |  (intro _) | with_reducible refine recordRaw_moves ?_ ?_ | with_reducible refine Runs.next ?_ | with_reducible refine ite_moves ?_ ?_ | with_reducible refine ite_snd_moves ?_ ?_ | with_reducible refine ite_fst_moves ?_ ?_ | split | refine fst_of_eq (by assumption) ?_ | refine snd_of_eq (by assumption) ?_ | with_reducible refine upd_boot ?_ ?_ | dsimp only)

theorem warmPort_moves {ll ss} {s : State} {p : Nat} (hh : Moves ll ss s) (hsub : sub [.ports, .lanes] ll = true) :
    Moves ll ss (warmPort s p) := by
  refine hh.trans ?_ hsub; unfold warmPort
  repeat' (first | with_reducible assumption | with_reducible exact Moves.refl _ _ | with_reducible exact rfl | exact rfl |  (intro _) | with_reducible refine toQuiet_moves ?_ ?_ | with_reducible refine modPort_moves ?_ ?_ | with_reducible refine ite_moves ?_ ?_ | with_reducible refine ite_snd_moves ?_ ?_ | with_reducible refine ite_fst_moves ?_ ?_ | split | refine fst_of_eq (by assumption) ?_ | refine snd_of_eq (by assumption) ?_ | dsimp only)

theorem warmState_moves {ll ss} {s : State} (hh : Moves ll ss s) (hsub : sub [.tables, .host, .stats, .ports, .lanes, .frames, .stalled, .reorder, .doneMsgs, .blockCounts, .meters, .pools, .tandem, .dropping, .intake, .parsing, .tills, .tallies, .progs, .ctxs, .tiles, .hbm, .faults, .bridge, .relays, .jobFree, .spdm, .fresh] ll = true) :
    Moves ll ss (warmState s) := by
  refine hh.trans ?_ hsub; unfold warmState
  repeat' (first | with_reducible assumption | with_reducible exact Moves.refl _ _ | with_reducible exact rfl | exact rfl | ((fail_if_success (show Moves _ _ _)); first | exact side_hostSame rfl rfl rfl rfl | exact side_tables rfl | exact side_nil | exact side_map | exact side_hostMap rfl rfl rfl rfl | exact side_host4 rfl rfl rfl rfl) |  (intro _) | with_reducible refine warmPort_moves ?_ ?_ | with_reducible refine settleWaits_moves ?_ ?_ | with_reducible refine ready_moves ?_ ?_ | with_reducible refine setFree_moves ?_ ?_ | with_reducible refine foldl_moves ?_ ?_ | with_reducible refine foldl_fst_moves ?_ ?_ | with_reducible refine ite_moves ?_ ?_ | with_reducible refine ite_snd_moves ?_ ?_ | with_reducible refine ite_fst_moves ?_ ?_ | split | refine fst_of_eq (by assumption) ?_ | refine snd_of_eq (by assumption) ?_ | with_reducible refine upd_tables_host_frames_stalled_reorder_doneMsgs_pools_tandem_dropping_intake_parsing_tills_tallies_progs_ctxs_tiles_hbm_faults_bridge_relays_spdm ?_ ?_ rfl ?_ ?_ ?_ | dsimp only)

theorem execWarmReset_moves {s : State} : Runs [.boot, .tables, .host, .stats, .ports, .lanes, .frames, .stalled, .reorder, .doneMsgs, .blockCounts, .meters, .pools, .tandem, .dropping, .intake, .parsing, .tills, .tallies, .progs, .ctxs, .tiles, .hbm, .faults, .bridge, .relays, .jobFree, .ledger, .spdm, .fresh] s (execWarmReset s) := by
  unfold execWarmReset
  repeat' (first | with_reducible assumption | with_reducible exact Moves.refl _ _ | with_reducible exact rfl | exact rfl |  (intro _) | with_reducible refine recordRaw_moves ?_ ?_ | with_reducible refine hostOff_moves ?_ ?_ | with_reducible refine sealLost_moves ?_ ?_ | with_reducible refine warmState_moves ?_ ?_ | with_reducible refine unreadyBits_moves ?_ ?_ | with_reducible refine Runs.next ?_ | with_reducible refine ite_moves ?_ ?_ | with_reducible refine ite_snd_moves ?_ ?_ | with_reducible refine ite_fst_moves ?_ ?_ | split | refine fst_of_eq (by assumption) ?_ | refine snd_of_eq (by assumption) ?_ | with_reducible refine upd_boot ?_ ?_ | dsimp only)

theorem execWarmResetRelease_moves {s : State} : Runs [.boot] s (execWarmResetRelease s) := by
  unfold execWarmResetRelease
  repeat' (first | with_reducible assumption | with_reducible exact Moves.refl _ _ | with_reducible exact rfl | exact rfl |  (intro _) | with_reducible refine Runs.next ?_ | with_reducible refine ite_moves ?_ ?_ | with_reducible refine ite_snd_moves ?_ ?_ | with_reducible refine ite_fst_moves ?_ ?_ | split | refine fst_of_eq (by assumption) ?_ | refine snd_of_eq (by assumption) ?_ | with_reducible refine upd_boot ?_ ?_ | dsimp only)

theorem coresReturn_moves {ll ss} {s : State} (hh : Moves ll ss s) (hsub : sub [.boot, .host] ll = true) :
    Moves ll ss (coresReturn s) := by
  refine hh.trans ?_ hsub; unfold coresReturn
  repeat' (first | with_reducible assumption | with_reducible exact Moves.refl _ _ | with_reducible exact rfl | exact rfl |  (intro _) | with_reducible refine readyBits_moves ?_ ?_ | with_reducible refine ite_moves ?_ ?_ | with_reducible refine ite_snd_moves ?_ ?_ | with_reducible refine ite_fst_moves ?_ ?_ | split | refine fst_of_eq (by assumption) ?_ | refine snd_of_eq (by assumption) ?_ | with_reducible refine upd_boot ?_ ?_ | dsimp only)

theorem execStewardRestart_moves {exception : Bool} {core : BitVec 2} {s : State} : Runs [.boot, .host, .stats, .ledger, .spdm, .fresh] s (execStewardRestart exception core s) := by
  unfold execStewardRestart
  repeat' (first | with_reducible assumption | with_reducible exact Moves.refl _ _ | with_reducible exact rfl | exact rfl |  (intro _) | with_reducible refine recordRaw_moves ?_ ?_ | with_reducible refine sealLost_moves ?_ ?_ | with_reducible refine unreadyBits_moves ?_ ?_ | with_reducible refine setCause_moves ?_ ?_ | with_reducible refine Runs.next ?_ | with_reducible refine ite_moves ?_ ?_ | with_reducible refine ite_snd_moves ?_ ?_ | with_reducible refine ite_fst_moves ?_ ?_ | split | refine fst_of_eq (by assumption) ?_ | refine snd_of_eq (by assumption) ?_ | with_reducible refine upd_boot_spdm ?_ ?_ | dsimp only)

theorem recordLost_moves {ll ss} {s : State} (hh : Moves ll ss s) (hsub : sub [.boot, .ledger] ll = true) :
    Moves ll ss (recordLost s) := by
  refine hh.trans ?_ hsub; unfold recordLost
  repeat' (first | with_reducible assumption | with_reducible exact Moves.refl _ _ | with_reducible exact rfl | exact rfl |  (intro _) | with_reducible refine recordRaw_moves ?_ ?_ | with_reducible refine foldl_moves ?_ ?_ | with_reducible refine foldl_fst_moves ?_ ?_ | with_reducible refine ite_moves ?_ ?_ | with_reducible refine ite_snd_moves ?_ ?_ | with_reducible refine ite_fst_moves ?_ ?_ | split | refine fst_of_eq (by assumption) ?_ | refine snd_of_eq (by assumption) ?_ | with_reducible refine upd_boot ?_ ?_ | dsimp only)

theorem quietPorts_moves {ll ss} {s : State} (hh : Moves ll ss s) (hsub : sub [.ports] ll = true) :
    Moves ll ss (quietPorts s) := by
  refine hh.trans ?_ hsub; unfold quietPorts
  repeat' (first | with_reducible assumption | with_reducible exact Moves.refl _ _ | with_reducible exact rfl | exact rfl |  (intro _) | with_reducible refine modLink_moves ?_ ?_ | with_reducible refine foldl_moves ?_ ?_ | with_reducible refine foldl_fst_moves ?_ ?_ | with_reducible refine ite_moves ?_ ?_ | with_reducible refine ite_snd_moves ?_ ?_ | with_reducible refine ite_fst_moves ?_ ?_ | split | refine fst_of_eq (by assumption) ?_ | refine snd_of_eq (by assumption) ?_ | dsimp only)

theorem imageMismatch_moves {ll ss} {s : State} (hh : Moves ll ss s) (hsub : sub [.boot, .host, .ledger] ll = true) :
    Moves ll ss (imageMismatch s) := by
  refine hh.trans ?_ hsub; unfold imageMismatch
  repeat' (first | with_reducible assumption | with_reducible exact Moves.refl _ _ | with_reducible exact rfl | exact rfl |  (intro _) | with_reducible refine unreadyBits_moves ?_ ?_ | with_reducible refine holdBoot_moves ?_ ?_ | with_reducible refine bootFail_moves ?_ ?_ | with_reducible refine ite_moves ?_ ?_ | with_reducible refine ite_snd_moves ?_ ?_ | with_reducible refine ite_fst_moves ?_ ?_ | split | refine fst_of_eq (by assumption) ?_ | refine snd_of_eq (by assumption) ?_ | with_reducible refine upd_boot ?_ ?_ | dsimp only)

theorem execStewardReturn_moves {s : State} : Runs [.boot, .host, .ports, .ledger] s (execStewardReturn s) := by
  unfold execStewardReturn
  repeat' (first | with_reducible assumption | with_reducible exact Moves.refl _ _ | with_reducible exact rfl | exact rfl |  (intro _) | with_reducible refine imageMismatch_moves ?_ ?_ | with_reducible refine readyBits_moves ?_ ?_ | with_reducible refine recordLost_moves ?_ ?_ | with_reducible refine settleIdle_moves ?_ ?_ | with_reducible refine quietPorts_moves ?_ ?_ | with_reducible refine Runs.next ?_ | with_reducible refine ite_moves ?_ ?_ | with_reducible refine ite_snd_moves ?_ ?_ | with_reducible refine ite_fst_moves ?_ ?_ | split | refine fst_of_eq (by assumption) ?_ | refine snd_of_eq (by assumption) ?_ | with_reducible refine upd_boot ?_ ?_ | dsimp only)

theorem raiseIbi_moves {ll ss} {s : State} {b : Byte} (hh : Moves ll ss s) (hsub : sub [.boot] ll = true) :
    Moves ll ss (raiseIbi s b) := by
  refine hh.trans ?_ hsub; unfold raiseIbi
  repeat' (first | with_reducible assumption | with_reducible exact Moves.refl _ _ | with_reducible exact rfl | exact rfl |  (intro _) | with_reducible refine ite_moves ?_ ?_ | with_reducible refine ite_snd_moves ?_ ?_ | with_reducible refine ite_fst_moves ?_ ?_ | split | refine fst_of_eq (by assumption) ?_ | refine snd_of_eq (by assumption) ?_ | with_reducible refine upd_boot ?_ ?_ | dsimp only)

theorem throttleDie_moves {ll ss} {s : State} {die : Nat} {t : Int} (hh : Moves ll ss s) (hsub : sub [.boot, .host, .stats, .ledger, .fresh] ll = true) :
    Moves ll ss (throttleDie s die t) := by
  refine hh.trans ?_ hsub; unfold throttleDie
  repeat' (first | with_reducible assumption | with_reducible exact Moves.refl _ _ | with_reducible exact rfl | exact rfl |  (intro _) | with_reducible refine noteState_moves ?_ ?_ | with_reducible refine raiseIbi_moves ?_ ?_ | with_reducible refine recordRaw_moves ?_ ?_ | with_reducible refine ite_moves ?_ ?_ | with_reducible refine ite_snd_moves ?_ ?_ | with_reducible refine ite_fst_moves ?_ ?_ | split | refine fst_of_eq (by assumption) ?_ | refine snd_of_eq (by assumption) ?_ | with_reducible refine upd_boot ?_ ?_ | dsimp only)

theorem readDie_moves {ll ss} {s : State} {die : Nat} {t : Int} (hh : Moves ll ss s) (hsub : sub [.boot, .host, .stats, .ctxs, .ledger, .fresh] ll = true) :
    Moves ll ss (readDie s die t) := by
  refine hh.trans ?_ hsub; unfold readDie
  repeat' (first | with_reducible assumption | with_reducible exact Moves.refl _ _ | with_reducible exact rfl | exact rfl |  (intro _) | with_reducible refine throttleDie_moves ?_ ?_ | with_reducible refine rethrottle_moves ?_ ?_ | with_reducible refine ite_moves ?_ ?_ | with_reducible refine ite_snd_moves ?_ ?_ | with_reducible refine ite_fst_moves ?_ ?_ | split | refine fst_of_eq (by assumption) ?_ | refine snd_of_eq (by assumption) ?_ | dsimp only)

theorem heatStack_moves {ll ss} {s : State} {k : Nat} {t : Int} (hh : Moves ll ss s) (hsub : sub [.host, .stats, .hbm, .fresh] ll = true) :
    Moves ll ss (heatStack s k t) := by
  refine hh.trans ?_ hsub; unfold heatStack
  repeat' (first | with_reducible assumption | with_reducible exact Moves.refl _ _ | with_reducible exact rfl | exact rfl |  (intro _) | with_reducible refine noteState_moves ?_ ?_ | with_reducible refine ite_moves ?_ ?_ | with_reducible refine ite_snd_moves ?_ ?_ | with_reducible refine ite_fst_moves ?_ ?_ | split | refine fst_of_eq (by assumption) ?_ | refine snd_of_eq (by assumption) ?_ | with_reducible refine upd_hbm ?_ ?_ rfl | dsimp only)

theorem execSensorRead_moves {west east : Int} {stackTemps : List Int} {s : State} : Runs [.boot, .host, .stats, .ctxs, .hbm, .ledger, .fresh] s (execSensorRead west east stackTemps s) := by
  unfold execSensorRead
  repeat' (first | with_reducible assumption | with_reducible exact Moves.refl _ _ | with_reducible exact rfl | exact rfl |  (intro _) | with_reducible refine readDie_moves ?_ ?_ | with_reducible refine heatStack_moves ?_ ?_ | with_reducible refine raiseIbi_moves ?_ ?_ | with_reducible refine foldl_moves ?_ ?_ | with_reducible refine foldl_fst_moves ?_ ?_ | with_reducible refine Runs.next ?_ | with_reducible refine ite_moves ?_ ?_ | with_reducible refine ite_snd_moves ?_ ?_ | with_reducible refine ite_fst_moves ?_ ?_ | split | refine fst_of_eq (by assumption) ?_ | refine snd_of_eq (by assumption) ?_ | with_reducible refine upd_boot ?_ ?_ | dsimp only)

theorem execRefclkMeasure_moves {khz : Nat} {s : State} : Runs [.now, .boot, .tick, .tables, .host, .stats, .refused, .ports, .lanes, .frames, .stalled, .reorder, .doneMsgs, .blockCounts, .shapers, .meters, .pools, .tandem, .dropping, .intake, .parsing, .tills, .tallies, .progs, .ctxs, .tiles, .mem, .hbm, .faults, .bridge, .relays, .toss, .jobFree, .ledger, .spdm, .doe] s (execRefclkMeasure khz s) := by
  unfold execRefclkMeasure
  repeat' (first | with_reducible assumption | with_reducible exact Moves.refl _ _ | with_reducible exact rfl | exact rfl |  (intro _) | with_reducible refine coldState_moves ?_ ?_ | with_reducible refine Runs.next ?_ | with_reducible refine ite_moves ?_ ?_ | with_reducible refine ite_snd_moves ?_ ?_ | with_reducible refine ite_fst_moves ?_ ?_ | split | refine fst_of_eq (by assumption) ?_ | refine snd_of_eq (by assumption) ?_ | with_reducible refine upd_boot ?_ ?_ | dsimp only)

end Sys2Proof.Laws
end

