-- ==== Sys2Proof/Laws/Moves/Bridge.lean ====
section
/-! SUPPORT. What the operations of Machine/Bridge.lean may change: one lemma each. -/

set_option linter.unusedTactic false
set_option linter.unreachableTactic false
set_option linter.unusedVariables false

namespace Sys2Proof.Laws

open Sys2Proof.Machine Sys2Proof.Safety

theorem joinBridge_moves {ll ss} {s : State} (hh : Moves ll ss s) (hsub : sub [.bridge] ll = true) :
    Moves ll ss (joinBridge s) := by
  refine hh.trans ?_ hsub; unfold joinBridge
  repeat' (first | with_reducible assumption | with_reducible exact Moves.refl _ _ | with_reducible exact rfl | exact rfl |  (intro _) | with_reducible refine addCrossing_moves ?_ ?_ | with_reducible refine foldl_moves ?_ ?_ | with_reducible refine foldl_fst_moves ?_ ?_ | with_reducible refine ite_moves ?_ ?_ | with_reducible refine ite_snd_moves ?_ ?_ | with_reducible refine ite_fst_moves ?_ ?_ | split | refine fst_of_eq (by assumption) ?_ | refine snd_of_eq (by assumption) ?_ | with_reducible refine upd_bridge ?_ ?_ | dsimp only)

theorem delayed_moves {ll ss} {s : State} {die : Nat} {c : CrossOf} (hh : Moves ll ss s) (hsub : sub [.host, .ports, .ctxs] ll = true) :
    Moves ll ss (delayed s die c) := by
  refine hh.trans ?_ hsub
  unfold delayed
  repeat' (first | exact Moves.refl _ _ | (intro _) | with_reducible assumption |
    refine setCtx_moves (Moves.refl _ _) rfl | refine foldl_moves ?_ ?_ | refine ite_moves ?_ ?_ | refine modQ_moves ?_ rfl | split | dsimp only)

theorem failWord_moves {ll ss} {s : State} {n space place m : Nat} (hh : Moves ll ss s) (hsub : sub [.host, .stats, .blockCounts, .hbm, .faults, .fresh] ll = true) :
    Moves ll ss (failWord s n space place m).1 := by
  refine hh.trans ?_ hsub; unfold failWord
  repeat' (first | with_reducible assumption | with_reducible exact Moves.refl _ _ | with_reducible exact rfl | exact rfl |  (intro _) | with_reducible refine readUnit_moves ?_ ?_ | with_reducible refine ite_moves ?_ ?_ | with_reducible refine ite_snd_moves ?_ ?_ | with_reducible refine ite_fst_moves ?_ ?_ | split | refine fst_of_eq (by assumption) ?_ | refine snd_of_eq (by assumption) ?_ | dsimp only)

theorem ownFails_moves {ll ss} {s : State} {die fid m : Nat} (hh : Moves ll ss s) (hsub : sub [.host, .stats, .refused, .ports, .frames, .stalled, .blockCounts, .pools, .dropping, .intake, .tills, .ctxs, .tiles, .hbm, .faults, .ledger, .fresh] ll = true) :
    Moves ll ss (ownFails s die fid m) := by
  refine hh.trans ?_ hsub; unfold ownFails
  repeat' (first | with_reducible assumption | with_reducible exact Moves.refl _ _ | with_reducible exact rfl | exact rfl |  (intro _) | with_reducible refine modQ_moves ?_ ?_ | with_reducible refine storeMismatch_moves ?_ ?_ | with_reducible refine recallFrames_moves ?_ ?_ | with_reducible refine failWord_moves ?_ ?_ | with_reducible refine ready_moves ?_ ?_ | with_reducible refine memAnswer_moves ?_ ?_ | with_reducible refine foldl_moves ?_ ?_ | with_reducible refine foldl_fst_moves ?_ ?_ | with_reducible refine ite_moves ?_ ?_ | with_reducible refine ite_snd_moves ?_ ?_ | with_reducible refine ite_fst_moves ?_ ?_ | split | refine fst_of_eq (by assumption) ?_ | refine snd_of_eq (by assumption) ?_ | dsimp only)

theorem flitFails_moves {ll ss} {s : State} {die m : Nat} {c : CrossOf} (hh : Moves ll ss s) (hsub : sub [.host, .stats, .refused, .ports, .frames, .stalled, .blockCounts, .pools, .dropping, .intake, .tills, .ctxs, .tiles, .hbm, .faults, .ledger, .fresh] ll = true) :
    Moves ll ss (flitFails s die m c) := by
  refine hh.trans ?_ hsub
  have hq (r x y : Nat) : Moves [.host, .stats, .refused, .ports, .frames, .stalled, .blockCounts, .pools, .dropping, .intake, .tills, .ctxs, .tiles, .hbm, .faults, .ledger, .fresh] s (failWord s r x y m).1 := failWord_moves (Moves.refl _ _) rfl
  unfold flitFails
  split
  · refine foldl_moves (stompCopies_moves (Moves.refl _ _) rfl) fun t x h => ?_
    exact ite_moves (fun _ => modQ_moves h rfl) fun _ => h
  · exact ite_moves (fun _ => countPort_moves (upd_intake (Moves.refl _ _) rfl) rfl) fun _ => Moves.refl _ _
  · exact ownFails_moves (Moves.refl _ _) rfl
  · split
    · exact Moves.refl _ _
    · split
      · exact Moves.refl _ _
      · refine ite_moves (fun _ => setCtx_moves (hq _ _ _) rfl) fun _ => ?_
        split
        · exact endTill_moves (hq _ _ _) rfl
        · exact hq _ _ _
  · split
    · exact Moves.refl _ _
    · dsimp only
      split
      · exact Moves.refl _ _
      · refine ite_moves (fun _ => hq _ _ _) fun _ => ?_
        exact endTill_moves (recallFrames_moves (hq _ _ _) rfl) rfl
  · dsimp only
    refine ite_moves (fun _ => hq _ _ _) fun _ => ?_
    exact upd_host (hq _ _ _) rfl fun h => h
  · exact Moves.refl _ _

theorem uncorrectable_moves {ll ss} {s : State} {die : Nat} {what : CrossOf} (hh : Moves ll ss s) (hsub : sub [.host, .stats, .refused, .ports, .frames, .stalled, .blockCounts, .pools, .dropping, .intake, .tills, .ctxs, .tiles, .hbm, .faults, .bridge, .ledger, .fresh] ll = true) :
    Moves ll ss (uncorrectable s die what) := by
  refine hh.trans ?_ hsub; unfold uncorrectable
  repeat' (first | with_reducible assumption | with_reducible exact Moves.refl _ _ | with_reducible exact rfl | exact rfl |  (intro _) | with_reducible refine countBlock_moves ?_ ?_ | with_reducible refine setCause_moves ?_ ?_ | with_reducible refine flitFails_moves ?_ ?_ | with_reducible refine ite_moves ?_ ?_ | with_reducible refine ite_snd_moves ?_ ?_ | with_reducible refine ite_fst_moves ?_ ?_ | split | refine fst_of_eq (by assumption) ?_ | refine snd_of_eq (by assumption) ?_ | with_reducible refine upd_bridge ?_ ?_ | with_reducible refine upd_faults ?_ ?_ | dsimp only)

theorem crossTo_moves {ll ss} {s : State} {die : Nat} (hh : Moves ll ss s) (hsub : sub [.host, .stats, .refused, .ports, .frames, .stalled, .blockCounts, .pools, .dropping, .intake, .tills, .ctxs, .tiles, .hbm, .faults, .bridge, .ledger, .fresh] ll = true) :
    Moves ll ss (crossTo s die) := by
  refine hh.trans ?_ hsub; unfold crossTo
  repeat' (first | with_reducible assumption | with_reducible exact Moves.refl _ _ | with_reducible exact rfl | exact rfl |  (intro _) | with_reducible refine delayed_moves ?_ ?_ | with_reducible refine uncorrectable_moves ?_ ?_ | with_reducible refine foldl_moves ?_ ?_ | with_reducible refine foldl_fst_moves ?_ ?_ | with_reducible refine ite_moves ?_ ?_ | with_reducible refine ite_snd_moves ?_ ?_ | with_reducible refine ite_fst_moves ?_ ?_ | split | refine fst_of_eq (by assumption) ?_ | refine snd_of_eq (by assumption) ?_ | with_reducible refine upd_bridge ?_ ?_ | dsimp only)

theorem bridgeCycle_moves {ll ss} {s : State} (hh : Moves ll ss s) (hsub : sub [.host, .stats, .refused, .ports, .frames, .stalled, .blockCounts, .pools, .dropping, .intake, .tills, .ctxs, .tiles, .hbm, .faults, .bridge, .ledger, .fresh] ll = true) :
    Moves ll ss (bridgeCycle s) := by
  refine hh.trans ?_ hsub; unfold bridgeCycle
  repeat' (first | with_reducible assumption | with_reducible exact Moves.refl _ _ | with_reducible exact rfl | exact rfl |  (intro _) | with_reducible refine joinBridge_moves ?_ ?_ | with_reducible refine crossTo_moves ?_ ?_ | with_reducible refine ite_moves ?_ ?_ | with_reducible refine ite_snd_moves ?_ ?_ | with_reducible refine ite_fst_moves ?_ ?_ | split | refine fst_of_eq (by assumption) ?_ | refine snd_of_eq (by assumption) ?_ | with_reducible refine upd_bridge ?_ ?_ | dsimp only)

end Sys2Proof.Laws
end

