-- ==== Sys2Proof/Laws/Moves/Clock.lean ====
section
/-! SUPPORT. What the operations of Machine/Clock.lean may change: one lemma each. -/

set_option linter.unusedTactic false
set_option linter.unreachableTactic false
set_option linter.unusedVariables false

namespace Sys2Proof.Laws

open Sys2Proof.Machine Sys2Proof.Safety

theorem countCycle_moves {ll ss} {s : State} (hh : Moves ll ss s) (hsub : sub [.ports] ll = true) :
    Moves ll ss (countCycle s) := by
  refine hh.trans ?_ hsub; unfold countCycle
  repeat' (first | with_reducible assumption | with_reducible exact Moves.refl _ _ | with_reducible exact rfl | exact rfl |  (intro _) | with_reducible refine modPort_moves ?_ ?_ | with_reducible refine foldl_moves ?_ ?_ | with_reducible refine foldl_fst_moves ?_ ?_ | with_reducible refine ite_moves ?_ ?_ | with_reducible refine ite_snd_moves ?_ ?_ | with_reducible refine ite_fst_moves ?_ ?_ | split | refine fst_of_eq (by assumption) ?_ | refine snd_of_eq (by assumption) ?_ | dsimp only)

theorem settleLane_moves {ll ss} {s : State} {p : Nat} (hh : Moves ll ss s) (hsub : sub [.host, .stats, .ports, .frames, .blockCounts, .pools, .faults, .fresh] ll = true) :
    Moves ll ss (settleLane s p) := by
  refine hh.trans ?_ hsub; unfold settleLane
  repeat' (first | with_reducible assumption | with_reducible exact Moves.refl _ _ | with_reducible exact rfl | exact rfl |  (intro _) | with_reducible refine modQ_moves ?_ ?_ | with_reducible refine dropCopy_moves ?_ ?_ | with_reducible refine ite_moves ?_ ?_ | with_reducible refine ite_snd_moves ?_ ?_ | with_reducible refine ite_fst_moves ?_ ?_ | split | refine fst_of_eq (by assumption) ?_ | refine snd_of_eq (by assumption) ?_ | dsimp only)

theorem dropHeld_moves {ll ss} {s : State} {fid : Nat} {h : Held} {port k : Nat} (hh : Moves ll ss s) (hsub : sub [.host, .stats, .ports, .frames, .fresh] ll = true) :
    Moves ll ss (dropHeld s fid h port k) := by
  refine hh.trans ?_ hsub; unfold dropHeld
  repeat' (first | with_reducible assumption | with_reducible exact Moves.refl _ _ | with_reducible exact rfl | exact rfl | ((fail_if_success (show Moves _ _ _)); first | exact side_hostSame rfl rfl rfl rfl | exact side_tables rfl | exact side_nil | exact side_map | exact side_hostMap rfl rfl rfl rfl | exact side_host4 rfl rfl rfl rfl) |  (intro _) | with_reducible refine setCause_moves ?_ ?_ | with_reducible refine discard_moves ?_ ?_ | with_reducible refine owe_moves ?_ ?_ | with_reducible refine ite_moves ?_ ?_ | with_reducible refine ite_snd_moves ?_ ?_ | with_reducible refine ite_fst_moves ?_ ?_ | split | refine fst_of_eq (by assumption) ?_ | refine snd_of_eq (by assumption) ?_ | with_reducible refine upd_ports_frames ?_ ?_ ?_ | dsimp only)

theorem expressMisses_moves {ll ss} {s : State} (hh : Moves ll ss s) (hsub : sub [.host, .stats, .ports, .frames, .blockCounts, .pools, .faults, .fresh] ll = true) :
    Moves ll ss (expressMisses s) := by
  refine hh.trans ?_ hsub; unfold expressMisses
  repeat' (first | with_reducible assumption | with_reducible exact Moves.refl _ _ | with_reducible exact rfl | exact rfl |  (intro _) | with_reducible refine makeRoom_moves ?_ ?_ | with_reducible refine hold_moves ?_ ?_ | with_reducible refine takeCells_moves ?_ ?_ | with_reducible refine modQ_moves ?_ ?_ | with_reducible refine dropHeld_moves ?_ ?_ | with_reducible refine foldl_moves ?_ ?_ | with_reducible refine foldl_fst_moves ?_ ?_ | with_reducible refine ite_moves ?_ ?_ | with_reducible refine ite_snd_moves ?_ ?_ | with_reducible refine ite_fst_moves ?_ ?_ | split | refine fst_of_eq (by assumption) ?_ | refine snd_of_eq (by assumption) ?_ | dsimp only)

theorem firstTick_moves {ll ss} {s : State} (hh : Moves ll ss s) (hsub : sub [.tick] ll = true) :
    Moves ll ss (firstTick s) := by
  refine hh.trans ?_ hsub; unfold firstTick
  repeat' (first | with_reducible assumption | with_reducible exact Moves.refl _ _ | with_reducible exact rfl | exact rfl |  (intro _) | with_reducible refine ite_moves ?_ ?_ | with_reducible refine ite_snd_moves ?_ ?_ | with_reducible refine ite_fst_moves ?_ ?_ | split | refine fst_of_eq (by assumption) ?_ | refine snd_of_eq (by assumption) ?_ | with_reducible refine upd_tick ?_ ?_ | dsimp only)

theorem startTraining_moves {ll ss} {s : State} (hh : Moves ll ss s) (hsub : sub [.hbm] ll = true) :
    Moves ll ss (startTraining s) := by
  refine hh.trans ?_ hsub; unfold startTraining
  repeat' (first | with_reducible assumption | with_reducible exact Moves.refl _ _ | with_reducible exact rfl | exact rfl |  (intro _) | with_reducible refine ite_moves ?_ ?_ | with_reducible refine ite_snd_moves ?_ ?_ | with_reducible refine ite_fst_moves ?_ ?_ | split | refine fst_of_eq (by assumption) ?_ | refine snd_of_eq (by assumption) ?_ | with_reducible refine upd_hbm ?_ ?_ rfl | dsimp only)

theorem milestone_moves {ll ss} {s : State} (hh : Moves ll ss s) (hsub : sub [.boot, .tick, .host, .stats, .hbm, .ledger, .fresh] ll = true) :
    Moves ll ss (milestone s) := by
  refine hh.trans ?_ hsub; unfold milestone
  repeat' (first | with_reducible assumption | with_reducible exact Moves.refl _ _ | with_reducible exact rfl | exact rfl |  (intro _) | with_reducible refine recordingBegins_moves ?_ ?_ | with_reducible refine firstTick_moves ?_ ?_ | with_reducible refine noteState_moves ?_ ?_ | with_reducible refine startTraining_moves ?_ ?_ | with_reducible refine ite_moves ?_ ?_ | with_reducible refine ite_snd_moves ?_ ?_ | with_reducible refine ite_fst_moves ?_ ?_ | split | refine fst_of_eq (by assumption) ?_ | refine snd_of_eq (by assumption) ?_ | dsimp only)

theorem onPorts_moves {l s0} {s : State} {f : State → Nat → State} (h : Moves l s0 s)
    (hf : ∀ t p, Moves l s0 t → Moves l s0 (f t p)) : Moves l s0 (onPorts s f) := by
  unfold onPorts
  exact foldl_moves h hf

theorem freedAt_moves {ll ss} {s : State} (hh : Moves ll ss s) (hsub : sub [.host, .stats, .pools, .faults, .fresh] ll = true) :
    Moves ll ss (freedAt s) := by
  refine hh.trans ?_ hsub; unfold freedAt
  repeat' (first | with_reducible assumption | with_reducible exact Moves.refl _ _ | with_reducible exact rfl | exact rfl |  (intro _) | with_reducible refine settleSlabs_moves ?_ ?_ | with_reducible refine ite_moves ?_ ?_ | with_reducible refine ite_snd_moves ?_ ?_ | with_reducible refine ite_fst_moves ?_ ?_ | split | refine fst_of_eq (by assumption) ?_ | refine snd_of_eq (by assumption) ?_ | with_reducible refine upd_pools ?_ ?_ | dsimp only)

theorem endCycle_moves {ll ss} {s : State} (hh : Moves ll ss s) (hsub : sub [.now, .host, .stats, .refused, .ports, .lanes, .frames, .stalled, .reorder, .blockCounts, .meters, .pools, .tandem, .dropping, .intake, .parsing, .tills, .tallies, .ctxs, .tiles, .hbm, .faults, .bridge, .jobFree, .ledger, .fresh] ll = true) :
    Moves ll ss (endCycle s) := by
  refine hh.trans ?_ hsub; unfold endCycle
  repeat' (first | with_reducible assumption | with_reducible exact Moves.refl _ _ | with_reducible exact rfl | exact rfl |  (intro _) | with_reducible refine retryStalled_moves ?_ ?_ | with_reducible refine releaseCounters_moves ?_ ?_ | with_reducible refine lookUps_moves ?_ ?_ | with_reducible refine kickTest_moves ?_ ?_ | with_reducible refine countCycle_moves ?_ ?_ | with_reducible refine onPorts_moves ?_ ?_ | with_reducible refine bridgeCycle_moves ?_ ?_ | with_reducible refine beginBlocks_moves ?_ ?_ | with_reducible refine sendState_moves ?_ ?_ | with_reducible refine standStill_moves ?_ ?_ | with_reducible refine freedAt_moves ?_ ?_ | with_reducible refine endBlocks_moves ?_ ?_ | with_reducible refine sendCycle_moves ?_ ?_ | with_reducible refine startLink_moves ?_ ?_ | with_reducible refine foldl_moves ?_ ?_ | with_reducible refine foldl_fst_moves ?_ ?_ | with_reducible refine ite_moves ?_ ?_ | with_reducible refine ite_snd_moves ?_ ?_ | with_reducible refine ite_fst_moves ?_ ?_ | split | refine fst_of_eq (by assumption) ?_ | refine snd_of_eq (by assumption) ?_ | dsimp only)

theorem startCycle_moves {ll ss} {s : State} (hh : Moves ll ss s) (hsub : sub [.boot, .tick, .tables, .host, .stats, .ports, .lanes, .frames, .stalled, .reorder, .blockCounts, .pools, .tandem, .dropping, .intake, .tills, .tallies, .progs, .ctxs, .tiles, .mem, .hbm, .faults, .bridge, .jobFree, .ledger, .fresh] ll = true) :
    Moves ll ss (startCycle s) := by
  refine hh.trans ?_ hsub; unfold startCycle
  repeat' (first | with_reducible assumption | with_reducible exact Moves.refl _ _ | with_reducible exact rfl | exact rfl |  (intro _) | with_reducible refine onPorts_moves ?_ ?_ | with_reducible refine dropFlushed_moves ?_ ?_ | with_reducible refine clearsDue_moves ?_ ?_ | with_reducible refine settleLane_moves ?_ ?_ | with_reducible refine creditArrives_moves ?_ ?_ | with_reducible refine applyDue_moves ?_ ?_ | with_reducible refine tableCycle_moves ?_ ?_ | with_reducible refine coresReturn_moves ?_ ?_ | with_reducible refine milestone_moves ?_ ?_ | with_reducible refine framingTimeout_moves ?_ ?_ | with_reducible refine refreshCycle_moves ?_ ?_ | with_reducible refine sealCycle_moves ?_ ?_ | with_reducible refine tallyCycle_moves ?_ ?_ | with_reducible refine tillCycle_moves ?_ ?_ | with_reducible refine versionCycle_moves ?_ ?_ | with_reducible refine landWrites_moves ?_ ?_ | with_reducible refine streamCycle_moves ?_ ?_ | with_reducible refine progCycle_moves ?_ ?_ | with_reducible refine comparePairs_moves ?_ ?_ | with_reducible refine formDue_moves ?_ ?_ | with_reducible refine expressMisses_moves ?_ ?_ | with_reducible refine ite_moves ?_ ?_ | with_reducible refine ite_snd_moves ?_ ?_ | with_reducible refine ite_fst_moves ?_ ?_ | split | refine fst_of_eq (by assumption) ?_ | refine snd_of_eq (by assumption) ?_ | dsimp only)

theorem idleCycle_moves {ll ss} {s : State} (hh : Moves ll ss s) (hsub : sub [.now, .boot, .tick, .tables, .host, .stats, .refused, .ports, .lanes, .frames, .stalled, .reorder, .blockCounts, .meters, .pools, .tandem, .dropping, .intake, .parsing, .tills, .tallies, .progs, .ctxs, .tiles, .mem, .hbm, .faults, .bridge, .jobFree, .ledger, .fresh] ll = true) :
    Moves ll ss (idleCycle s) := by
  refine hh.trans ?_ hsub; unfold idleCycle
  repeat' (first | with_reducible assumption | with_reducible exact Moves.refl _ _ | with_reducible exact rfl | exact rfl |  (intro _) | with_reducible refine startCycle_moves ?_ ?_ | with_reducible refine endCycle_moves ?_ ?_ | with_reducible refine ite_moves ?_ ?_ | with_reducible refine ite_snd_moves ?_ ?_ | with_reducible refine ite_fst_moves ?_ ?_ | split | refine fst_of_eq (by assumption) ?_ | refine snd_of_eq (by assumption) ?_ | with_reducible refine upd_now ?_ ?_ | dsimp only)

end Sys2Proof.Laws
end

