-- ==== Sys2Proof/Laws/State.lean ====
section
/-! SUPPORT. What each named update of the state leaves alone, field by field, and what it makes of its own field. -/

namespace Sys2Proof.Laws

open Sys2Proof.Machine

@[simp] theorem setPort_now (s : State) (p : Nat) (v : Port) : (Machine.setPort s p v).now = s.now := rfl
@[simp] theorem setPort_boot (s : State) (p : Nat) (v : Port) : (Machine.setPort s p v).boot = s.boot := rfl
@[simp] theorem setPort_tick (s : State) (p : Nat) (v : Port) : (Machine.setPort s p v).tick = s.tick := rfl
@[simp] theorem setPort_tables (s : State) (p : Nat) (v : Port) : (Machine.setPort s p v).tables = s.tables := rfl
@[simp] theorem setPort_host (s : State) (p : Nat) (v : Port) : (Machine.setPort s p v).host = s.host := rfl
@[simp] theorem setPort_stats (s : State) (p : Nat) (v : Port) : (Machine.setPort s p v).stats = s.stats := rfl
@[simp] theorem setPort_refused (s : State) (p : Nat) (v : Port) : (Machine.setPort s p v).refused = s.refused := rfl
@[simp] theorem setPort_lanes (s : State) (p : Nat) (v : Port) : (Machine.setPort s p v).lanes = s.lanes := rfl
@[simp] theorem setPort_frames (s : State) (p : Nat) (v : Port) : (Machine.setPort s p v).frames = s.frames := rfl
@[simp] theorem setPort_stalled (s : State) (p : Nat) (v : Port) : (Machine.setPort s p v).stalled = s.stalled := rfl
@[simp] theorem setPort_reorder (s : State) (p : Nat) (v : Port) : (Machine.setPort s p v).reorder = s.reorder := rfl
@[simp] theorem setPort_doneMsgs (s : State) (p : Nat) (v : Port) : (Machine.setPort s p v).doneMsgs = s.doneMsgs := rfl
@[simp] theorem setPort_blockCounts (s : State) (p : Nat) (v : Port) : (Machine.setPort s p v).blockCounts = s.blockCounts := rfl
@[simp] theorem setPort_shapers (s : State) (p : Nat) (v : Port) : (Machine.setPort s p v).shapers = s.shapers := rfl
@[simp] theorem setPort_meters (s : State) (p : Nat) (v : Port) : (Machine.setPort s p v).meters = s.meters := rfl
@[simp] theorem setPort_pools (s : State) (p : Nat) (v : Port) : (Machine.setPort s p v).pools = s.pools := rfl
@[simp] theorem setPort_tandem (s : State) (p : Nat) (v : Port) : (Machine.setPort s p v).tandem = s.tandem := rfl
@[simp] theorem setPort_dropping (s : State) (p : Nat) (v : Port) : (Machine.setPort s p v).dropping = s.dropping := rfl
@[simp] theorem setPort_intake (s : State) (p : Nat) (v : Port) : (Machine.setPort s p v).intake = s.intake := rfl
@[simp] theorem setPort_parsing (s : State) (p : Nat) (v : Port) : (Machine.setPort s p v).parsing = s.parsing := rfl
@[simp] theorem setPort_tills (s : State) (p : Nat) (v : Port) : (Machine.setPort s p v).tills = s.tills := rfl
@[simp] theorem setPort_tallies (s : State) (p : Nat) (v : Port) : (Machine.setPort s p v).tallies = s.tallies := rfl
@[simp] theorem setPort_progs (s : State) (p : Nat) (v : Port) : (Machine.setPort s p v).progs = s.progs := rfl
@[simp] theorem setPort_ctxs (s : State) (p : Nat) (v : Port) : (Machine.setPort s p v).ctxs = s.ctxs := rfl
@[simp] theorem setPort_tiles (s : State) (p : Nat) (v : Port) : (Machine.setPort s p v).tiles = s.tiles := rfl
@[simp] theorem setPort_hbm (s : State) (p : Nat) (v : Port) : (Machine.setPort s p v).hbm = s.hbm := rfl
@[simp] theorem setPort_faults (s : State) (p : Nat) (v : Port) : (Machine.setPort s p v).faults = s.faults := rfl
@[simp] theorem setPort_bridge (s : State) (p : Nat) (v : Port) : (Machine.setPort s p v).bridge = s.bridge := rfl
@[simp] theorem setPort_relays (s : State) (p : Nat) (v : Port) : (Machine.setPort s p v).relays = s.relays := rfl
@[simp] theorem setPort_toss (s : State) (p : Nat) (v : Port) : (Machine.setPort s p v).toss = s.toss := rfl
@[simp] theorem setPort_jobFree (s : State) (p : Nat) (v : Port) : (Machine.setPort s p v).jobFree = s.jobFree := rfl
@[simp] theorem setPort_ledger (s : State) (p : Nat) (v : Port) : (Machine.setPort s p v).ledger = s.ledger := rfl
@[simp] theorem setPort_spdm (s : State) (p : Nat) (v : Port) : (Machine.setPort s p v).spdm = s.spdm := rfl
@[simp] theorem setPort_doe (s : State) (p : Nat) (v : Port) : (Machine.setPort s p v).doe = s.doe := rfl
@[simp] theorem setPort_fresh (s : State) (p : Nat) (v : Port) : (Machine.setPort s p v).fresh = s.fresh := rfl
@[simp] theorem setPort_pending (s : State) (p : Nat) (v : Port) : (Machine.setPort s p v).pending = s.pending := rfl
@[simp] theorem setPort_ports (s : State) (p : Nat) (v : Port) : (Machine.setPort s p v).ports = sput {} s.ports p v := rfl

@[simp] theorem setLane_now (s : State) (l : Nat) (v : Lane) : (Machine.setLane s l v).now = s.now := rfl
@[simp] theorem setLane_boot (s : State) (l : Nat) (v : Lane) : (Machine.setLane s l v).boot = s.boot := rfl
@[simp] theorem setLane_tick (s : State) (l : Nat) (v : Lane) : (Machine.setLane s l v).tick = s.tick := rfl
@[simp] theorem setLane_tables (s : State) (l : Nat) (v : Lane) : (Machine.setLane s l v).tables = s.tables := rfl
@[simp] theorem setLane_host (s : State) (l : Nat) (v : Lane) : (Machine.setLane s l v).host = s.host := rfl
@[simp] theorem setLane_stats (s : State) (l : Nat) (v : Lane) : (Machine.setLane s l v).stats = s.stats := rfl
@[simp] theorem setLane_refused (s : State) (l : Nat) (v : Lane) : (Machine.setLane s l v).refused = s.refused := rfl
@[simp] theorem setLane_ports (s : State) (l : Nat) (v : Lane) : (Machine.setLane s l v).ports = s.ports := rfl
@[simp] theorem setLane_frames (s : State) (l : Nat) (v : Lane) : (Machine.setLane s l v).frames = s.frames := rfl
@[simp] theorem setLane_stalled (s : State) (l : Nat) (v : Lane) : (Machine.setLane s l v).stalled = s.stalled := rfl
@[simp] theorem setLane_reorder (s : State) (l : Nat) (v : Lane) : (Machine.setLane s l v).reorder = s.reorder := rfl
@[simp] theorem setLane_doneMsgs (s : State) (l : Nat) (v : Lane) : (Machine.setLane s l v).doneMsgs = s.doneMsgs := rfl
@[simp] theorem setLane_blockCounts (s : State) (l : Nat) (v : Lane) : (Machine.setLane s l v).blockCounts = s.blockCounts := rfl
@[simp] theorem setLane_shapers (s : State) (l : Nat) (v : Lane) : (Machine.setLane s l v).shapers = s.shapers := rfl
@[simp] theorem setLane_meters (s : State) (l : Nat) (v : Lane) : (Machine.setLane s l v).meters = s.meters := rfl
@[simp] theorem setLane_pools (s : State) (l : Nat) (v : Lane) : (Machine.setLane s l v).pools = s.pools := rfl
@[simp] theorem setLane_tandem (s : State) (l : Nat) (v : Lane) : (Machine.setLane s l v).tandem = s.tandem := rfl
@[simp] theorem setLane_dropping (s : State) (l : Nat) (v : Lane) : (Machine.setLane s l v).dropping = s.dropping := rfl
@[simp] theorem setLane_intake (s : State) (l : Nat) (v : Lane) : (Machine.setLane s l v).intake = s.intake := rfl
@[simp] theorem setLane_parsing (s : State) (l : Nat) (v : Lane) : (Machine.setLane s l v).parsing = s.parsing := rfl
@[simp] theorem setLane_tills (s : State) (l : Nat) (v : Lane) : (Machine.setLane s l v).tills = s.tills := rfl
@[simp] theorem setLane_tallies (s : State) (l : Nat) (v : Lane) : (Machine.setLane s l v).tallies = s.tallies := rfl
@[simp] theorem setLane_progs (s : State) (l : Nat) (v : Lane) : (Machine.setLane s l v).progs = s.progs := rfl
@[simp] theorem setLane_ctxs (s : State) (l : Nat) (v : Lane) : (Machine.setLane s l v).ctxs = s.ctxs := rfl
@[simp] theorem setLane_tiles (s : State) (l : Nat) (v : Lane) : (Machine.setLane s l v).tiles = s.tiles := rfl
@[simp] theorem setLane_hbm (s : State) (l : Nat) (v : Lane) : (Machine.setLane s l v).hbm = s.hbm := rfl
@[simp] theorem setLane_faults (s : State) (l : Nat) (v : Lane) : (Machine.setLane s l v).faults = s.faults := rfl
@[simp] theorem setLane_bridge (s : State) (l : Nat) (v : Lane) : (Machine.setLane s l v).bridge = s.bridge := rfl
@[simp] theorem setLane_relays (s : State) (l : Nat) (v : Lane) : (Machine.setLane s l v).relays = s.relays := rfl
@[simp] theorem setLane_toss (s : State) (l : Nat) (v : Lane) : (Machine.setLane s l v).toss = s.toss := rfl
@[simp] theorem setLane_jobFree (s : State) (l : Nat) (v : Lane) : (Machine.setLane s l v).jobFree = s.jobFree := rfl
@[simp] theorem setLane_ledger (s : State) (l : Nat) (v : Lane) : (Machine.setLane s l v).ledger = s.ledger := rfl
@[simp] theorem setLane_spdm (s : State) (l : Nat) (v : Lane) : (Machine.setLane s l v).spdm = s.spdm := rfl
@[simp] theorem setLane_doe (s : State) (l : Nat) (v : Lane) : (Machine.setLane s l v).doe = s.doe := rfl
@[simp] theorem setLane_fresh (s : State) (l : Nat) (v : Lane) : (Machine.setLane s l v).fresh = s.fresh := rfl
@[simp] theorem setLane_pending (s : State) (l : Nat) (v : Lane) : (Machine.setLane s l v).pending = s.pending := rfl
@[simp] theorem setLane_lanes (s : State) (l : Nat) (v : Lane) : (Machine.setLane s l v).lanes = sput {} s.lanes l v := rfl

@[simp] theorem setStat_now (s : State) (src : Nat) (v : Stat) : (Machine.setStat s src v).now = s.now := rfl
@[simp] theorem setStat_boot (s : State) (src : Nat) (v : Stat) : (Machine.setStat s src v).boot = s.boot := rfl
@[simp] theorem setStat_tick (s : State) (src : Nat) (v : Stat) : (Machine.setStat s src v).tick = s.tick := rfl
@[simp] theorem setStat_tables (s : State) (src : Nat) (v : Stat) : (Machine.setStat s src v).tables = s.tables := rfl
@[simp] theorem setStat_host (s : State) (src : Nat) (v : Stat) : (Machine.setStat s src v).host = s.host := rfl
@[simp] theorem setStat_refused (s : State) (src : Nat) (v : Stat) : (Machine.setStat s src v).refused = s.refused := rfl
@[simp] theorem setStat_ports (s : State) (src : Nat) (v : Stat) : (Machine.setStat s src v).ports = s.ports := rfl
@[simp] theorem setStat_lanes (s : State) (src : Nat) (v : Stat) : (Machine.setStat s src v).lanes = s.lanes := rfl
@[simp] theorem setStat_frames (s : State) (src : Nat) (v : Stat) : (Machine.setStat s src v).frames = s.frames := rfl
@[simp] theorem setStat_stalled (s : State) (src : Nat) (v : Stat) : (Machine.setStat s src v).stalled = s.stalled := rfl
@[simp] theorem setStat_reorder (s : State) (src : Nat) (v : Stat) : (Machine.setStat s src v).reorder = s.reorder := rfl
@[simp] theorem setStat_doneMsgs (s : State) (src : Nat) (v : Stat) : (Machine.setStat s src v).doneMsgs = s.doneMsgs := rfl
@[simp] theorem setStat_blockCounts (s : State) (src : Nat) (v : Stat) : (Machine.setStat s src v).blockCounts = s.blockCounts := rfl
@[simp] theorem setStat_shapers (s : State) (src : Nat) (v : Stat) : (Machine.setStat s src v).shapers = s.shapers := rfl
@[simp] theorem setStat_meters (s : State) (src : Nat) (v : Stat) : (Machine.setStat s src v).meters = s.meters := rfl
@[simp] theorem setStat_pools (s : State) (src : Nat) (v : Stat) : (Machine.setStat s src v).pools = s.pools := rfl
@[simp] theorem setStat_tandem (s : State) (src : Nat) (v : Stat) : (Machine.setStat s src v).tandem = s.tandem := rfl
@[simp] theorem setStat_dropping (s : State) (src : Nat) (v : Stat) : (Machine.setStat s src v).dropping = s.dropping := rfl
@[simp] theorem setStat_intake (s : State) (src : Nat) (v : Stat) : (Machine.setStat s src v).intake = s.intake := rfl
@[simp] theorem setStat_parsing (s : State) (src : Nat) (v : Stat) : (Machine.setStat s src v).parsing = s.parsing := rfl
@[simp] theorem setStat_tills (s : State) (src : Nat) (v : Stat) : (Machine.setStat s src v).tills = s.tills := rfl
@[simp] theorem setStat_tallies (s : State) (src : Nat) (v : Stat) : (Machine.setStat s src v).tallies = s.tallies := rfl
@[simp] theorem setStat_progs (s : State) (src : Nat) (v : Stat) : (Machine.setStat s src v).progs = s.progs := rfl
@[simp] theorem setStat_ctxs (s : State) (src : Nat) (v : Stat) : (Machine.setStat s src v).ctxs = s.ctxs := rfl
@[simp] theorem setStat_tiles (s : State) (src : Nat) (v : Stat) : (Machine.setStat s src v).tiles = s.tiles := rfl
@[simp] theorem setStat_hbm (s : State) (src : Nat) (v : Stat) : (Machine.setStat s src v).hbm = s.hbm := rfl
@[simp] theorem setStat_faults (s : State) (src : Nat) (v : Stat) : (Machine.setStat s src v).faults = s.faults := rfl
@[simp] theorem setStat_bridge (s : State) (src : Nat) (v : Stat) : (Machine.setStat s src v).bridge = s.bridge := rfl
@[simp] theorem setStat_relays (s : State) (src : Nat) (v : Stat) : (Machine.setStat s src v).relays = s.relays := rfl
@[simp] theorem setStat_toss (s : State) (src : Nat) (v : Stat) : (Machine.setStat s src v).toss = s.toss := rfl
@[simp] theorem setStat_jobFree (s : State) (src : Nat) (v : Stat) : (Machine.setStat s src v).jobFree = s.jobFree := rfl
@[simp] theorem setStat_ledger (s : State) (src : Nat) (v : Stat) : (Machine.setStat s src v).ledger = s.ledger := rfl
@[simp] theorem setStat_spdm (s : State) (src : Nat) (v : Stat) : (Machine.setStat s src v).spdm = s.spdm := rfl
@[simp] theorem setStat_doe (s : State) (src : Nat) (v : Stat) : (Machine.setStat s src v).doe = s.doe := rfl
@[simp] theorem setStat_fresh (s : State) (src : Nat) (v : Stat) : (Machine.setStat s src v).fresh = s.fresh := rfl
@[simp] theorem setStat_pending (s : State) (src : Nat) (v : Stat) : (Machine.setStat s src v).pending = s.pending := rfl
@[simp] theorem setStat_stats (s : State) (src : Nat) (v : Stat) : (Machine.setStat s src v).stats = sput {} s.stats src v := rfl

@[simp] theorem setCmdRing_now (s : State) (n : Nat) (r : CmdRing) : (Machine.setCmdRing s n r).now = s.now := rfl
@[simp] theorem setCmdRing_boot (s : State) (n : Nat) (r : CmdRing) : (Machine.setCmdRing s n r).boot = s.boot := rfl
@[simp] theorem setCmdRing_tick (s : State) (n : Nat) (r : CmdRing) : (Machine.setCmdRing s n r).tick = s.tick := rfl
@[simp] theorem setCmdRing_tables (s : State) (n : Nat) (r : CmdRing) : (Machine.setCmdRing s n r).tables = s.tables := rfl
@[simp] theorem setCmdRing_stats (s : State) (n : Nat) (r : CmdRing) : (Machine.setCmdRing s n r).stats = s.stats := rfl
@[simp] theorem setCmdRing_refused (s : State) (n : Nat) (r : CmdRing) : (Machine.setCmdRing s n r).refused = s.refused := rfl
@[simp] theorem setCmdRing_ports (s : State) (n : Nat) (r : CmdRing) : (Machine.setCmdRing s n r).ports = s.ports := rfl
@[simp] theorem setCmdRing_lanes (s : State) (n : Nat) (r : CmdRing) : (Machine.setCmdRing s n r).lanes = s.lanes := rfl
@[simp] theorem setCmdRing_frames (s : State) (n : Nat) (r : CmdRing) : (Machine.setCmdRing s n r).frames = s.frames := rfl
@[simp] theorem setCmdRing_stalled (s : State) (n : Nat) (r : CmdRing) : (Machine.setCmdRing s n r).stalled = s.stalled := rfl
@[simp] theorem setCmdRing_reorder (s : State) (n : Nat) (r : CmdRing) : (Machine.setCmdRing s n r).reorder = s.reorder := rfl
@[simp] theorem setCmdRing_doneMsgs (s : State) (n : Nat) (r : CmdRing) : (Machine.setCmdRing s n r).doneMsgs = s.doneMsgs := rfl
@[simp] theorem setCmdRing_blockCounts (s : State) (n : Nat) (r : CmdRing) : (Machine.setCmdRing s n r).blockCounts = s.blockCounts := rfl
@[simp] theorem setCmdRing_shapers (s : State) (n : Nat) (r : CmdRing) : (Machine.setCmdRing s n r).shapers = s.shapers := rfl
@[simp] theorem setCmdRing_meters (s : State) (n : Nat) (r : CmdRing) : (Machine.setCmdRing s n r).meters = s.meters := rfl
@[simp] theorem setCmdRing_pools (s : State) (n : Nat) (r : CmdRing) : (Machine.setCmdRing s n r).pools = s.pools := rfl
@[simp] theorem setCmdRing_tandem (s : State) (n : Nat) (r : CmdRing) : (Machine.setCmdRing s n r).tandem = s.tandem := rfl
@[simp] theorem setCmdRing_dropping (s : State) (n : Nat) (r : CmdRing) : (Machine.setCmdRing s n r).dropping = s.dropping := rfl
@[simp] theorem setCmdRing_intake (s : State) (n : Nat) (r : CmdRing) : (Machine.setCmdRing s n r).intake = s.intake := rfl
@[simp] theorem setCmdRing_parsing (s : State) (n : Nat) (r : CmdRing) : (Machine.setCmdRing s n r).parsing = s.parsing := rfl
@[simp] theorem setCmdRing_tills (s : State) (n : Nat) (r : CmdRing) : (Machine.setCmdRing s n r).tills = s.tills := rfl
@[simp] theorem setCmdRing_tallies (s : State) (n : Nat) (r : CmdRing) : (Machine.setCmdRing s n r).tallies = s.tallies := rfl
@[simp] theorem setCmdRing_progs (s : State) (n : Nat) (r : CmdRing) : (Machine.setCmdRing s n r).progs = s.progs := rfl
@[simp] theorem setCmdRing_ctxs (s : State) (n : Nat) (r : CmdRing) : (Machine.setCmdRing s n r).ctxs = s.ctxs := rfl
@[simp] theorem setCmdRing_tiles (s : State) (n : Nat) (r : CmdRing) : (Machine.setCmdRing s n r).tiles = s.tiles := rfl
@[simp] theorem setCmdRing_hbm (s : State) (n : Nat) (r : CmdRing) : (Machine.setCmdRing s n r).hbm = s.hbm := rfl
@[simp] theorem setCmdRing_faults (s : State) (n : Nat) (r : CmdRing) : (Machine.setCmdRing s n r).faults = s.faults := rfl
@[simp] theorem setCmdRing_bridge (s : State) (n : Nat) (r : CmdRing) : (Machine.setCmdRing s n r).bridge = s.bridge := rfl
@[simp] theorem setCmdRing_relays (s : State) (n : Nat) (r : CmdRing) : (Machine.setCmdRing s n r).relays = s.relays := rfl
@[simp] theorem setCmdRing_toss (s : State) (n : Nat) (r : CmdRing) : (Machine.setCmdRing s n r).toss = s.toss := rfl
@[simp] theorem setCmdRing_jobFree (s : State) (n : Nat) (r : CmdRing) : (Machine.setCmdRing s n r).jobFree = s.jobFree := rfl
@[simp] theorem setCmdRing_ledger (s : State) (n : Nat) (r : CmdRing) : (Machine.setCmdRing s n r).ledger = s.ledger := rfl
@[simp] theorem setCmdRing_spdm (s : State) (n : Nat) (r : CmdRing) : (Machine.setCmdRing s n r).spdm = s.spdm := rfl
@[simp] theorem setCmdRing_doe (s : State) (n : Nat) (r : CmdRing) : (Machine.setCmdRing s n r).doe = s.doe := rfl
@[simp] theorem setCmdRing_fresh (s : State) (n : Nat) (r : CmdRing) : (Machine.setCmdRing s n r).fresh = s.fresh := rfl
@[simp] theorem setCmdRing_pending (s : State) (n : Nat) (r : CmdRing) : (Machine.setCmdRing s n r).pending = s.pending := rfl
@[simp] theorem setCmdRing_host_cmd (s : State) (n : Nat) (r : CmdRing) : (Machine.setCmdRing s n r).host.cmd = sput {} s.host.cmd n r := rfl
@[simp] theorem setCmdRing_host_cpl (s : State) (n : Nat) (r : CmdRing) : (Machine.setCmdRing s n r).host.cpl = s.host.cpl := rfl
@[simp] theorem setCmdRing_host_ev (s : State) (n : Nat) (r : CmdRing) : (Machine.setCmdRing s n r).host.ev = s.host.ev := rfl
@[simp] theorem setCmdRing_host_watch (s : State) (n : Nat) (r : CmdRing) : (Machine.setCmdRing s n r).host.watch = s.host.watch := rfl
@[simp] theorem setCmdRing_host_reads (s : State) (n : Nat) (r : CmdRing) : (Machine.setCmdRing s n r).host.reads = s.host.reads := rfl
@[simp] theorem setCmdRing_host_writes (s : State) (n : Nat) (r : CmdRing) : (Machine.setCmdRing s n r).host.writes = s.host.writes := rfl
@[simp] theorem setCmdRing_host_ready (s : State) (n : Nat) (r : CmdRing) : (Machine.setCmdRing s n r).host.ready = s.host.ready := rfl
@[simp] theorem setCmdRing_host_pending (s : State) (n : Nat) (r : CmdRing) : (Machine.setCmdRing s n r).host.pending = s.host.pending := rfl
@[simp] theorem setCmdRing_host_msix (s : State) (n : Nat) (r : CmdRing) : (Machine.setCmdRing s n r).host.msix = s.host.msix := rfl
@[simp] theorem setCmdRing_host_irqs (s : State) (n : Nat) (r : CmdRing) : (Machine.setCmdRing s n r).host.irqs = s.host.irqs := rfl
@[simp] theorem setCmdRing_host_evroute (s : State) (n : Nat) (r : CmdRing) : (Machine.setCmdRing s n r).host.evroute = s.host.evroute := rfl
@[simp] theorem setCmdRing_host_msixTable (s : State) (n : Nat) (r : CmdRing) : (Machine.setCmdRing s n r).host.msixTable = s.host.msixTable := rfl
@[simp] theorem setCmdRing_host_pba (s : State) (n : Nat) (r : CmdRing) : (Machine.setCmdRing s n r).host.pba = s.host.pba := rfl
@[simp] theorem setCmdRing_host_pci (s : State) (n : Nat) (r : CmdRing) : (Machine.setCmdRing s n r).host.pci = s.host.pci := rfl
@[simp] theorem setCmdRing_host_rdCurr (s : State) (n : Nat) (r : CmdRing) : (Machine.setCmdRing s n r).host.rdCurr = s.host.rdCurr := rfl
@[simp] theorem setCmdRing_host_served (s : State) (n : Nat) (r : CmdRing) : (Machine.setCmdRing s n r).host.served = s.host.served := rfl
@[simp] theorem setCmdRing_host_servedAt (s : State) (n : Nat) (r : CmdRing) : (Machine.setCmdRing s n r).host.servedAt = s.host.servedAt := rfl

@[simp] theorem serveRing_now (s : State) (n : Nat) (r : CmdRing) : (Machine.serveRing s n r).now = s.now := rfl
@[simp] theorem serveRing_boot (s : State) (n : Nat) (r : CmdRing) : (Machine.serveRing s n r).boot = s.boot := rfl
@[simp] theorem serveRing_tick (s : State) (n : Nat) (r : CmdRing) : (Machine.serveRing s n r).tick = s.tick := rfl
@[simp] theorem serveRing_tables (s : State) (n : Nat) (r : CmdRing) : (Machine.serveRing s n r).tables = s.tables := rfl
@[simp] theorem serveRing_stats (s : State) (n : Nat) (r : CmdRing) : (Machine.serveRing s n r).stats = s.stats := rfl
@[simp] theorem serveRing_refused (s : State) (n : Nat) (r : CmdRing) : (Machine.serveRing s n r).refused = s.refused := rfl
@[simp] theorem serveRing_ports (s : State) (n : Nat) (r : CmdRing) : (Machine.serveRing s n r).ports = s.ports := rfl
@[simp] theorem serveRing_lanes (s : State) (n : Nat) (r : CmdRing) : (Machine.serveRing s n r).lanes = s.lanes := rfl
@[simp] theorem serveRing_frames (s : State) (n : Nat) (r : CmdRing) : (Machine.serveRing s n r).frames = s.frames := rfl
@[simp] theorem serveRing_stalled (s : State) (n : Nat) (r : CmdRing) : (Machine.serveRing s n r).stalled = s.stalled := rfl
@[simp] theorem serveRing_reorder (s : State) (n : Nat) (r : CmdRing) : (Machine.serveRing s n r).reorder = s.reorder := rfl
@[simp] theorem serveRing_doneMsgs (s : State) (n : Nat) (r : CmdRing) : (Machine.serveRing s n r).doneMsgs = s.doneMsgs := rfl
@[simp] theorem serveRing_blockCounts (s : State) (n : Nat) (r : CmdRing) : (Machine.serveRing s n r).blockCounts = s.blockCounts := rfl
@[simp] theorem serveRing_shapers (s : State) (n : Nat) (r : CmdRing) : (Machine.serveRing s n r).shapers = s.shapers := rfl
@[simp] theorem serveRing_meters (s : State) (n : Nat) (r : CmdRing) : (Machine.serveRing s n r).meters = s.meters := rfl
@[simp] theorem serveRing_pools (s : State) (n : Nat) (r : CmdRing) : (Machine.serveRing s n r).pools = s.pools := rfl
@[simp] theorem serveRing_tandem (s : State) (n : Nat) (r : CmdRing) : (Machine.serveRing s n r).tandem = s.tandem := rfl
@[simp] theorem serveRing_dropping (s : State) (n : Nat) (r : CmdRing) : (Machine.serveRing s n r).dropping = s.dropping := rfl
@[simp] theorem serveRing_intake (s : State) (n : Nat) (r : CmdRing) : (Machine.serveRing s n r).intake = s.intake := rfl
@[simp] theorem serveRing_parsing (s : State) (n : Nat) (r : CmdRing) : (Machine.serveRing s n r).parsing = s.parsing := rfl
@[simp] theorem serveRing_tills (s : State) (n : Nat) (r : CmdRing) : (Machine.serveRing s n r).tills = s.tills := rfl
@[simp] theorem serveRing_tallies (s : State) (n : Nat) (r : CmdRing) : (Machine.serveRing s n r).tallies = s.tallies := rfl
@[simp] theorem serveRing_progs (s : State) (n : Nat) (r : CmdRing) : (Machine.serveRing s n r).progs = s.progs := rfl
@[simp] theorem serveRing_ctxs (s : State) (n : Nat) (r : CmdRing) : (Machine.serveRing s n r).ctxs = s.ctxs := rfl
@[simp] theorem serveRing_tiles (s : State) (n : Nat) (r : CmdRing) : (Machine.serveRing s n r).tiles = s.tiles := rfl
@[simp] theorem serveRing_hbm (s : State) (n : Nat) (r : CmdRing) : (Machine.serveRing s n r).hbm = s.hbm := rfl
@[simp] theorem serveRing_faults (s : State) (n : Nat) (r : CmdRing) : (Machine.serveRing s n r).faults = s.faults := rfl
@[simp] theorem serveRing_bridge (s : State) (n : Nat) (r : CmdRing) : (Machine.serveRing s n r).bridge = s.bridge := rfl
@[simp] theorem serveRing_relays (s : State) (n : Nat) (r : CmdRing) : (Machine.serveRing s n r).relays = s.relays := rfl
@[simp] theorem serveRing_toss (s : State) (n : Nat) (r : CmdRing) : (Machine.serveRing s n r).toss = s.toss := rfl
@[simp] theorem serveRing_jobFree (s : State) (n : Nat) (r : CmdRing) : (Machine.serveRing s n r).jobFree = s.jobFree := rfl
@[simp] theorem serveRing_ledger (s : State) (n : Nat) (r : CmdRing) : (Machine.serveRing s n r).ledger = s.ledger := rfl
@[simp] theorem serveRing_spdm (s : State) (n : Nat) (r : CmdRing) : (Machine.serveRing s n r).spdm = s.spdm := rfl
@[simp] theorem serveRing_doe (s : State) (n : Nat) (r : CmdRing) : (Machine.serveRing s n r).doe = s.doe := rfl
@[simp] theorem serveRing_fresh (s : State) (n : Nat) (r : CmdRing) : (Machine.serveRing s n r).fresh = s.fresh := rfl
@[simp] theorem serveRing_pending (s : State) (n : Nat) (r : CmdRing) : (Machine.serveRing s n r).pending = s.pending := rfl
@[simp] theorem serveRing_host_cmd (s : State) (n : Nat) (r : CmdRing) : (Machine.serveRing s n r).host.cmd = sput {} s.host.cmd n r := rfl
@[simp] theorem serveRing_host_cpl (s : State) (n : Nat) (r : CmdRing) : (Machine.serveRing s n r).host.cpl = s.host.cpl := rfl
@[simp] theorem serveRing_host_ev (s : State) (n : Nat) (r : CmdRing) : (Machine.serveRing s n r).host.ev = s.host.ev := rfl
@[simp] theorem serveRing_host_watch (s : State) (n : Nat) (r : CmdRing) : (Machine.serveRing s n r).host.watch = s.host.watch := rfl
@[simp] theorem serveRing_host_reads (s : State) (n : Nat) (r : CmdRing) : (Machine.serveRing s n r).host.reads = s.host.reads := rfl
@[simp] theorem serveRing_host_writes (s : State) (n : Nat) (r : CmdRing) : (Machine.serveRing s n r).host.writes = s.host.writes := rfl
@[simp] theorem serveRing_host_ready (s : State) (n : Nat) (r : CmdRing) : (Machine.serveRing s n r).host.ready = s.host.ready := rfl
@[simp] theorem serveRing_host_pending (s : State) (n : Nat) (r : CmdRing) : (Machine.serveRing s n r).host.pending = s.host.pending := rfl
@[simp] theorem serveRing_host_msix (s : State) (n : Nat) (r : CmdRing) : (Machine.serveRing s n r).host.msix = s.host.msix := rfl
@[simp] theorem serveRing_host_irqs (s : State) (n : Nat) (r : CmdRing) : (Machine.serveRing s n r).host.irqs = s.host.irqs := rfl
@[simp] theorem serveRing_host_evroute (s : State) (n : Nat) (r : CmdRing) : (Machine.serveRing s n r).host.evroute = s.host.evroute := rfl
@[simp] theorem serveRing_host_msixTable (s : State) (n : Nat) (r : CmdRing) : (Machine.serveRing s n r).host.msixTable = s.host.msixTable := rfl
@[simp] theorem serveRing_host_pba (s : State) (n : Nat) (r : CmdRing) : (Machine.serveRing s n r).host.pba = s.host.pba := rfl
@[simp] theorem serveRing_host_pci (s : State) (n : Nat) (r : CmdRing) : (Machine.serveRing s n r).host.pci = s.host.pci := rfl
@[simp] theorem serveRing_host_rdCurr (s : State) (n : Nat) (r : CmdRing) : (Machine.serveRing s n r).host.rdCurr = s.host.rdCurr := rfl

@[simp] theorem noteReads_now (s : State) (d : Desc) : (Machine.noteReads s d).now = s.now := rfl
@[simp] theorem noteReads_boot (s : State) (d : Desc) : (Machine.noteReads s d).boot = s.boot := rfl
@[simp] theorem noteReads_tick (s : State) (d : Desc) : (Machine.noteReads s d).tick = s.tick := rfl
@[simp] theorem noteReads_tables (s : State) (d : Desc) : (Machine.noteReads s d).tables = s.tables := rfl
@[simp] theorem noteReads_stats (s : State) (d : Desc) : (Machine.noteReads s d).stats = s.stats := rfl
@[simp] theorem noteReads_refused (s : State) (d : Desc) : (Machine.noteReads s d).refused = s.refused := rfl
@[simp] theorem noteReads_ports (s : State) (d : Desc) : (Machine.noteReads s d).ports = s.ports := rfl
@[simp] theorem noteReads_lanes (s : State) (d : Desc) : (Machine.noteReads s d).lanes = s.lanes := rfl
@[simp] theorem noteReads_frames (s : State) (d : Desc) : (Machine.noteReads s d).frames = s.frames := rfl
@[simp] theorem noteReads_stalled (s : State) (d : Desc) : (Machine.noteReads s d).stalled = s.stalled := rfl
@[simp] theorem noteReads_reorder (s : State) (d : Desc) : (Machine.noteReads s d).reorder = s.reorder := rfl
@[simp] theorem noteReads_doneMsgs (s : State) (d : Desc) : (Machine.noteReads s d).doneMsgs = s.doneMsgs := rfl
@[simp] theorem noteReads_blockCounts (s : State) (d : Desc) : (Machine.noteReads s d).blockCounts = s.blockCounts := rfl
@[simp] theorem noteReads_shapers (s : State) (d : Desc) : (Machine.noteReads s d).shapers = s.shapers := rfl
@[simp] theorem noteReads_meters (s : State) (d : Desc) : (Machine.noteReads s d).meters = s.meters := rfl
@[simp] theorem noteReads_pools (s : State) (d : Desc) : (Machine.noteReads s d).pools = s.pools := rfl
@[simp] theorem noteReads_tandem (s : State) (d : Desc) : (Machine.noteReads s d).tandem = s.tandem := rfl
@[simp] theorem noteReads_dropping (s : State) (d : Desc) : (Machine.noteReads s d).dropping = s.dropping := rfl
@[simp] theorem noteReads_intake (s : State) (d : Desc) : (Machine.noteReads s d).intake = s.intake := rfl
@[simp] theorem noteReads_parsing (s : State) (d : Desc) : (Machine.noteReads s d).parsing = s.parsing := rfl
@[simp] theorem noteReads_tills (s : State) (d : Desc) : (Machine.noteReads s d).tills = s.tills := rfl
@[simp] theorem noteReads_tallies (s : State) (d : Desc) : (Machine.noteReads s d).tallies = s.tallies := rfl
@[simp] theorem noteReads_progs (s : State) (d : Desc) : (Machine.noteReads s d).progs = s.progs := rfl
@[simp] theorem noteReads_ctxs (s : State) (d : Desc) : (Machine.noteReads s d).ctxs = s.ctxs := rfl
@[simp] theorem noteReads_tiles (s : State) (d : Desc) : (Machine.noteReads s d).tiles = s.tiles := rfl
@[simp] theorem noteReads_hbm (s : State) (d : Desc) : (Machine.noteReads s d).hbm = s.hbm := rfl
@[simp] theorem noteReads_faults (s : State) (d : Desc) : (Machine.noteReads s d).faults = s.faults := rfl
@[simp] theorem noteReads_bridge (s : State) (d : Desc) : (Machine.noteReads s d).bridge = s.bridge := rfl
@[simp] theorem noteReads_relays (s : State) (d : Desc) : (Machine.noteReads s d).relays = s.relays := rfl
@[simp] theorem noteReads_toss (s : State) (d : Desc) : (Machine.noteReads s d).toss = s.toss := rfl
@[simp] theorem noteReads_jobFree (s : State) (d : Desc) : (Machine.noteReads s d).jobFree = s.jobFree := rfl
@[simp] theorem noteReads_ledger (s : State) (d : Desc) : (Machine.noteReads s d).ledger = s.ledger := rfl
@[simp] theorem noteReads_spdm (s : State) (d : Desc) : (Machine.noteReads s d).spdm = s.spdm := rfl
@[simp] theorem noteReads_doe (s : State) (d : Desc) : (Machine.noteReads s d).doe = s.doe := rfl
@[simp] theorem noteReads_fresh (s : State) (d : Desc) : (Machine.noteReads s d).fresh = s.fresh := rfl
@[simp] theorem noteReads_pending (s : State) (d : Desc) : (Machine.noteReads s d).pending = s.pending := rfl
@[simp] theorem noteReads_host_rdCurr (s : State) (d : Desc) : (Machine.noteReads s d).host.rdCurr = s.host.rdCurr ++ hostSources d := rfl
@[simp] theorem noteReads_host_cmd (s : State) (d : Desc) : (Machine.noteReads s d).host.cmd = s.host.cmd := rfl
@[simp] theorem noteReads_host_cpl (s : State) (d : Desc) : (Machine.noteReads s d).host.cpl = s.host.cpl := rfl
@[simp] theorem noteReads_host_ev (s : State) (d : Desc) : (Machine.noteReads s d).host.ev = s.host.ev := rfl
@[simp] theorem noteReads_host_watch (s : State) (d : Desc) : (Machine.noteReads s d).host.watch = s.host.watch := rfl
@[simp] theorem noteReads_host_reads (s : State) (d : Desc) : (Machine.noteReads s d).host.reads = s.host.reads := rfl
@[simp] theorem noteReads_host_writes (s : State) (d : Desc) : (Machine.noteReads s d).host.writes = s.host.writes := rfl
@[simp] theorem noteReads_host_ready (s : State) (d : Desc) : (Machine.noteReads s d).host.ready = s.host.ready := rfl
@[simp] theorem noteReads_host_pending (s : State) (d : Desc) : (Machine.noteReads s d).host.pending = s.host.pending := rfl
@[simp] theorem noteReads_host_msix (s : State) (d : Desc) : (Machine.noteReads s d).host.msix = s.host.msix := rfl
@[simp] theorem noteReads_host_irqs (s : State) (d : Desc) : (Machine.noteReads s d).host.irqs = s.host.irqs := rfl
@[simp] theorem noteReads_host_evroute (s : State) (d : Desc) : (Machine.noteReads s d).host.evroute = s.host.evroute := rfl
@[simp] theorem noteReads_host_msixTable (s : State) (d : Desc) : (Machine.noteReads s d).host.msixTable = s.host.msixTable := rfl
@[simp] theorem noteReads_host_pba (s : State) (d : Desc) : (Machine.noteReads s d).host.pba = s.host.pba := rfl
@[simp] theorem noteReads_host_pci (s : State) (d : Desc) : (Machine.noteReads s d).host.pci = s.host.pci := rfl
@[simp] theorem noteReads_host_served (s : State) (d : Desc) : (Machine.noteReads s d).host.served = s.host.served := rfl
@[simp] theorem noteReads_host_servedAt (s : State) (d : Desc) : (Machine.noteReads s d).host.servedAt = s.host.servedAt := rfl

@[simp] theorem setCplRing_now (s : State) (n : Nat) (r : OutRing) : (Machine.setCplRing s n r).now = s.now := rfl
@[simp] theorem setCplRing_boot (s : State) (n : Nat) (r : OutRing) : (Machine.setCplRing s n r).boot = s.boot := rfl
@[simp] theorem setCplRing_tick (s : State) (n : Nat) (r : OutRing) : (Machine.setCplRing s n r).tick = s.tick := rfl
@[simp] theorem setCplRing_tables (s : State) (n : Nat) (r : OutRing) : (Machine.setCplRing s n r).tables = s.tables := rfl
@[simp] theorem setCplRing_stats (s : State) (n : Nat) (r : OutRing) : (Machine.setCplRing s n r).stats = s.stats := rfl
@[simp] theorem setCplRing_refused (s : State) (n : Nat) (r : OutRing) : (Machine.setCplRing s n r).refused = s.refused := rfl
@[simp] theorem setCplRing_ports (s : State) (n : Nat) (r : OutRing) : (Machine.setCplRing s n r).ports = s.ports := rfl
@[simp] theorem setCplRing_lanes (s : State) (n : Nat) (r : OutRing) : (Machine.setCplRing s n r).lanes = s.lanes := rfl
@[simp] theorem setCplRing_frames (s : State) (n : Nat) (r : OutRing) : (Machine.setCplRing s n r).frames = s.frames := rfl
@[simp] theorem setCplRing_stalled (s : State) (n : Nat) (r : OutRing) : (Machine.setCplRing s n r).stalled = s.stalled := rfl
@[simp] theorem setCplRing_reorder (s : State) (n : Nat) (r : OutRing) : (Machine.setCplRing s n r).reorder = s.reorder := rfl
@[simp] theorem setCplRing_doneMsgs (s : State) (n : Nat) (r : OutRing) : (Machine.setCplRing s n r).doneMsgs = s.doneMsgs := rfl
@[simp] theorem setCplRing_blockCounts (s : State) (n : Nat) (r : OutRing) : (Machine.setCplRing s n r).blockCounts = s.blockCounts := rfl
@[simp] theorem setCplRing_shapers (s : State) (n : Nat) (r : OutRing) : (Machine.setCplRing s n r).shapers = s.shapers := rfl
@[simp] theorem setCplRing_meters (s : State) (n : Nat) (r : OutRing) : (Machine.setCplRing s n r).meters = s.meters := rfl
@[simp] theorem setCplRing_pools (s : State) (n : Nat) (r : OutRing) : (Machine.setCplRing s n r).pools = s.pools := rfl
@[simp] theorem setCplRing_tandem (s : State) (n : Nat) (r : OutRing) : (Machine.setCplRing s n r).tandem = s.tandem := rfl
@[simp] theorem setCplRing_dropping (s : State) (n : Nat) (r : OutRing) : (Machine.setCplRing s n r).dropping = s.dropping := rfl
@[simp] theorem setCplRing_intake (s : State) (n : Nat) (r : OutRing) : (Machine.setCplRing s n r).intake = s.intake := rfl
@[simp] theorem setCplRing_parsing (s : State) (n : Nat) (r : OutRing) : (Machine.setCplRing s n r).parsing = s.parsing := rfl
@[simp] theorem setCplRing_tills (s : State) (n : Nat) (r : OutRing) : (Machine.setCplRing s n r).tills = s.tills := rfl
@[simp] theorem setCplRing_tallies (s : State) (n : Nat) (r : OutRing) : (Machine.setCplRing s n r).tallies = s.tallies := rfl
@[simp] theorem setCplRing_progs (s : State) (n : Nat) (r : OutRing) : (Machine.setCplRing s n r).progs = s.progs := rfl
@[simp] theorem setCplRing_ctxs (s : State) (n : Nat) (r : OutRing) : (Machine.setCplRing s n r).ctxs = s.ctxs := rfl
@[simp] theorem setCplRing_tiles (s : State) (n : Nat) (r : OutRing) : (Machine.setCplRing s n r).tiles = s.tiles := rfl
@[simp] theorem setCplRing_hbm (s : State) (n : Nat) (r : OutRing) : (Machine.setCplRing s n r).hbm = s.hbm := rfl
@[simp] theorem setCplRing_faults (s : State) (n : Nat) (r : OutRing) : (Machine.setCplRing s n r).faults = s.faults := rfl
@[simp] theorem setCplRing_bridge (s : State) (n : Nat) (r : OutRing) : (Machine.setCplRing s n r).bridge = s.bridge := rfl
@[simp] theorem setCplRing_relays (s : State) (n : Nat) (r : OutRing) : (Machine.setCplRing s n r).relays = s.relays := rfl
@[simp] theorem setCplRing_toss (s : State) (n : Nat) (r : OutRing) : (Machine.setCplRing s n r).toss = s.toss := rfl
@[simp] theorem setCplRing_jobFree (s : State) (n : Nat) (r : OutRing) : (Machine.setCplRing s n r).jobFree = s.jobFree := rfl
@[simp] theorem setCplRing_ledger (s : State) (n : Nat) (r : OutRing) : (Machine.setCplRing s n r).ledger = s.ledger := rfl
@[simp] theorem setCplRing_spdm (s : State) (n : Nat) (r : OutRing) : (Machine.setCplRing s n r).spdm = s.spdm := rfl
@[simp] theorem setCplRing_doe (s : State) (n : Nat) (r : OutRing) : (Machine.setCplRing s n r).doe = s.doe := rfl
@[simp] theorem setCplRing_fresh (s : State) (n : Nat) (r : OutRing) : (Machine.setCplRing s n r).fresh = s.fresh := rfl
@[simp] theorem setCplRing_pending (s : State) (n : Nat) (r : OutRing) : (Machine.setCplRing s n r).pending = s.pending := rfl
@[simp] theorem setCplRing_host_cpl (s : State) (n : Nat) (r : OutRing) : (Machine.setCplRing s n r).host.cpl = sput {} s.host.cpl n r := rfl
@[simp] theorem setCplRing_host_cmd (s : State) (n : Nat) (r : OutRing) : (Machine.setCplRing s n r).host.cmd = s.host.cmd := rfl
@[simp] theorem setCplRing_host_ev (s : State) (n : Nat) (r : OutRing) : (Machine.setCplRing s n r).host.ev = s.host.ev := rfl
@[simp] theorem setCplRing_host_watch (s : State) (n : Nat) (r : OutRing) : (Machine.setCplRing s n r).host.watch = s.host.watch := rfl
@[simp] theorem setCplRing_host_reads (s : State) (n : Nat) (r : OutRing) : (Machine.setCplRing s n r).host.reads = s.host.reads := rfl
@[simp] theorem setCplRing_host_writes (s : State) (n : Nat) (r : OutRing) : (Machine.setCplRing s n r).host.writes = s.host.writes := rfl
@[simp] theorem setCplRing_host_ready (s : State) (n : Nat) (r : OutRing) : (Machine.setCplRing s n r).host.ready = s.host.ready := rfl
@[simp] theorem setCplRing_host_pending (s : State) (n : Nat) (r : OutRing) : (Machine.setCplRing s n r).host.pending = s.host.pending := rfl
@[simp] theorem setCplRing_host_msix (s : State) (n : Nat) (r : OutRing) : (Machine.setCplRing s n r).host.msix = s.host.msix := rfl
@[simp] theorem setCplRing_host_irqs (s : State) (n : Nat) (r : OutRing) : (Machine.setCplRing s n r).host.irqs = s.host.irqs := rfl
@[simp] theorem setCplRing_host_evroute (s : State) (n : Nat) (r : OutRing) : (Machine.setCplRing s n r).host.evroute = s.host.evroute := rfl
@[simp] theorem setCplRing_host_msixTable (s : State) (n : Nat) (r : OutRing) : (Machine.setCplRing s n r).host.msixTable = s.host.msixTable := rfl
@[simp] theorem setCplRing_host_pba (s : State) (n : Nat) (r : OutRing) : (Machine.setCplRing s n r).host.pba = s.host.pba := rfl
@[simp] theorem setCplRing_host_pci (s : State) (n : Nat) (r : OutRing) : (Machine.setCplRing s n r).host.pci = s.host.pci := rfl
@[simp] theorem setCplRing_host_rdCurr (s : State) (n : Nat) (r : OutRing) : (Machine.setCplRing s n r).host.rdCurr = s.host.rdCurr := rfl
@[simp] theorem setCplRing_host_served (s : State) (n : Nat) (r : OutRing) : (Machine.setCplRing s n r).host.served = s.host.served := rfl
@[simp] theorem setCplRing_host_servedAt (s : State) (n : Nat) (r : OutRing) : (Machine.setCplRing s n r).host.servedAt = s.host.servedAt := rfl

@[simp] theorem setEvRing_now (s : State) (n : Nat) (r : OutRing) : (Machine.setEvRing s n r).now = s.now := rfl
@[simp] theorem setEvRing_boot (s : State) (n : Nat) (r : OutRing) : (Machine.setEvRing s n r).boot = s.boot := rfl
@[simp] theorem setEvRing_tick (s : State) (n : Nat) (r : OutRing) : (Machine.setEvRing s n r).tick = s.tick := rfl
@[simp] theorem setEvRing_tables (s : State) (n : Nat) (r : OutRing) : (Machine.setEvRing s n r).tables = s.tables := rfl
@[simp] theorem setEvRing_stats (s : State) (n : Nat) (r : OutRing) : (Machine.setEvRing s n r).stats = s.stats := rfl
@[simp] theorem setEvRing_refused (s : State) (n : Nat) (r : OutRing) : (Machine.setEvRing s n r).refused = s.refused := rfl
@[simp] theorem setEvRing_ports (s : State) (n : Nat) (r : OutRing) : (Machine.setEvRing s n r).ports = s.ports := rfl
@[simp] theorem setEvRing_lanes (s : State) (n : Nat) (r : OutRing) : (Machine.setEvRing s n r).lanes = s.lanes := rfl
@[simp] theorem setEvRing_frames (s : State) (n : Nat) (r : OutRing) : (Machine.setEvRing s n r).frames = s.frames := rfl
@[simp] theorem setEvRing_stalled (s : State) (n : Nat) (r : OutRing) : (Machine.setEvRing s n r).stalled = s.stalled := rfl
@[simp] theorem setEvRing_reorder (s : State) (n : Nat) (r : OutRing) : (Machine.setEvRing s n r).reorder = s.reorder := rfl
@[simp] theorem setEvRing_doneMsgs (s : State) (n : Nat) (r : OutRing) : (Machine.setEvRing s n r).doneMsgs = s.doneMsgs := rfl
@[simp] theorem setEvRing_blockCounts (s : State) (n : Nat) (r : OutRing) : (Machine.setEvRing s n r).blockCounts = s.blockCounts := rfl
@[simp] theorem setEvRing_shapers (s : State) (n : Nat) (r : OutRing) : (Machine.setEvRing s n r).shapers = s.shapers := rfl
@[simp] theorem setEvRing_meters (s : State) (n : Nat) (r : OutRing) : (Machine.setEvRing s n r).meters = s.meters := rfl
@[simp] theorem setEvRing_pools (s : State) (n : Nat) (r : OutRing) : (Machine.setEvRing s n r).pools = s.pools := rfl
@[simp] theorem setEvRing_tandem (s : State) (n : Nat) (r : OutRing) : (Machine.setEvRing s n r).tandem = s.tandem := rfl
@[simp] theorem setEvRing_dropping (s : State) (n : Nat) (r : OutRing) : (Machine.setEvRing s n r).dropping = s.dropping := rfl
@[simp] theorem setEvRing_intake (s : State) (n : Nat) (r : OutRing) : (Machine.setEvRing s n r).intake = s.intake := rfl
@[simp] theorem setEvRing_parsing (s : State) (n : Nat) (r : OutRing) : (Machine.setEvRing s n r).parsing = s.parsing := rfl
@[simp] theorem setEvRing_tills (s : State) (n : Nat) (r : OutRing) : (Machine.setEvRing s n r).tills = s.tills := rfl
@[simp] theorem setEvRing_tallies (s : State) (n : Nat) (r : OutRing) : (Machine.setEvRing s n r).tallies = s.tallies := rfl
@[simp] theorem setEvRing_progs (s : State) (n : Nat) (r : OutRing) : (Machine.setEvRing s n r).progs = s.progs := rfl
@[simp] theorem setEvRing_ctxs (s : State) (n : Nat) (r : OutRing) : (Machine.setEvRing s n r).ctxs = s.ctxs := rfl
@[simp] theorem setEvRing_tiles (s : State) (n : Nat) (r : OutRing) : (Machine.setEvRing s n r).tiles = s.tiles := rfl
@[simp] theorem setEvRing_hbm (s : State) (n : Nat) (r : OutRing) : (Machine.setEvRing s n r).hbm = s.hbm := rfl
@[simp] theorem setEvRing_faults (s : State) (n : Nat) (r : OutRing) : (Machine.setEvRing s n r).faults = s.faults := rfl
@[simp] theorem setEvRing_bridge (s : State) (n : Nat) (r : OutRing) : (Machine.setEvRing s n r).bridge = s.bridge := rfl
@[simp] theorem setEvRing_relays (s : State) (n : Nat) (r : OutRing) : (Machine.setEvRing s n r).relays = s.relays := rfl
@[simp] theorem setEvRing_toss (s : State) (n : Nat) (r : OutRing) : (Machine.setEvRing s n r).toss = s.toss := rfl
@[simp] theorem setEvRing_jobFree (s : State) (n : Nat) (r : OutRing) : (Machine.setEvRing s n r).jobFree = s.jobFree := rfl
@[simp] theorem setEvRing_ledger (s : State) (n : Nat) (r : OutRing) : (Machine.setEvRing s n r).ledger = s.ledger := rfl
@[simp] theorem setEvRing_spdm (s : State) (n : Nat) (r : OutRing) : (Machine.setEvRing s n r).spdm = s.spdm := rfl
@[simp] theorem setEvRing_doe (s : State) (n : Nat) (r : OutRing) : (Machine.setEvRing s n r).doe = s.doe := rfl
@[simp] theorem setEvRing_fresh (s : State) (n : Nat) (r : OutRing) : (Machine.setEvRing s n r).fresh = s.fresh := rfl
@[simp] theorem setEvRing_pending (s : State) (n : Nat) (r : OutRing) : (Machine.setEvRing s n r).pending = s.pending := rfl
@[simp] theorem setEvRing_host_ev (s : State) (n : Nat) (r : OutRing) : (Machine.setEvRing s n r).host.ev = sput {} s.host.ev n r := rfl
@[simp] theorem setEvRing_host_cmd (s : State) (n : Nat) (r : OutRing) : (Machine.setEvRing s n r).host.cmd = s.host.cmd := rfl
@[simp] theorem setEvRing_host_cpl (s : State) (n : Nat) (r : OutRing) : (Machine.setEvRing s n r).host.cpl = s.host.cpl := rfl
@[simp] theorem setEvRing_host_watch (s : State) (n : Nat) (r : OutRing) : (Machine.setEvRing s n r).host.watch = s.host.watch := rfl
@[simp] theorem setEvRing_host_reads (s : State) (n : Nat) (r : OutRing) : (Machine.setEvRing s n r).host.reads = s.host.reads := rfl
@[simp] theorem setEvRing_host_writes (s : State) (n : Nat) (r : OutRing) : (Machine.setEvRing s n r).host.writes = s.host.writes := rfl
@[simp] theorem setEvRing_host_ready (s : State) (n : Nat) (r : OutRing) : (Machine.setEvRing s n r).host.ready = s.host.ready := rfl
@[simp] theorem setEvRing_host_pending (s : State) (n : Nat) (r : OutRing) : (Machine.setEvRing s n r).host.pending = s.host.pending := rfl
@[simp] theorem setEvRing_host_msix (s : State) (n : Nat) (r : OutRing) : (Machine.setEvRing s n r).host.msix = s.host.msix := rfl
@[simp] theorem setEvRing_host_irqs (s : State) (n : Nat) (r : OutRing) : (Machine.setEvRing s n r).host.irqs = s.host.irqs := rfl
@[simp] theorem setEvRing_host_evroute (s : State) (n : Nat) (r : OutRing) : (Machine.setEvRing s n r).host.evroute = s.host.evroute := rfl
@[simp] theorem setEvRing_host_msixTable (s : State) (n : Nat) (r : OutRing) : (Machine.setEvRing s n r).host.msixTable = s.host.msixTable := rfl
@[simp] theorem setEvRing_host_pba (s : State) (n : Nat) (r : OutRing) : (Machine.setEvRing s n r).host.pba = s.host.pba := rfl
@[simp] theorem setEvRing_host_pci (s : State) (n : Nat) (r : OutRing) : (Machine.setEvRing s n r).host.pci = s.host.pci := rfl
@[simp] theorem setEvRing_host_rdCurr (s : State) (n : Nat) (r : OutRing) : (Machine.setEvRing s n r).host.rdCurr = s.host.rdCurr := rfl
@[simp] theorem setEvRing_host_served (s : State) (n : Nat) (r : OutRing) : (Machine.setEvRing s n r).host.served = s.host.served := rfl
@[simp] theorem setEvRing_host_servedAt (s : State) (n : Nat) (r : OutRing) : (Machine.setEvRing s n r).host.servedAt = s.host.servedAt := rfl

@[simp] theorem setWatch_now (s : State) (k : Nat) (w : Watch) : (Machine.setWatch s k w).now = s.now := rfl
@[simp] theorem setWatch_boot (s : State) (k : Nat) (w : Watch) : (Machine.setWatch s k w).boot = s.boot := rfl
@[simp] theorem setWatch_tick (s : State) (k : Nat) (w : Watch) : (Machine.setWatch s k w).tick = s.tick := rfl
@[simp] theorem setWatch_tables (s : State) (k : Nat) (w : Watch) : (Machine.setWatch s k w).tables = s.tables := rfl
@[simp] theorem setWatch_stats (s : State) (k : Nat) (w : Watch) : (Machine.setWatch s k w).stats = s.stats := rfl
@[simp] theorem setWatch_refused (s : State) (k : Nat) (w : Watch) : (Machine.setWatch s k w).refused = s.refused := rfl
@[simp] theorem setWatch_ports (s : State) (k : Nat) (w : Watch) : (Machine.setWatch s k w).ports = s.ports := rfl
@[simp] theorem setWatch_lanes (s : State) (k : Nat) (w : Watch) : (Machine.setWatch s k w).lanes = s.lanes := rfl
@[simp] theorem setWatch_frames (s : State) (k : Nat) (w : Watch) : (Machine.setWatch s k w).frames = s.frames := rfl
@[simp] theorem setWatch_stalled (s : State) (k : Nat) (w : Watch) : (Machine.setWatch s k w).stalled = s.stalled := rfl
@[simp] theorem setWatch_reorder (s : State) (k : Nat) (w : Watch) : (Machine.setWatch s k w).reorder = s.reorder := rfl
@[simp] theorem setWatch_doneMsgs (s : State) (k : Nat) (w : Watch) : (Machine.setWatch s k w).doneMsgs = s.doneMsgs := rfl
@[simp] theorem setWatch_blockCounts (s : State) (k : Nat) (w : Watch) : (Machine.setWatch s k w).blockCounts = s.blockCounts := rfl
@[simp] theorem setWatch_shapers (s : State) (k : Nat) (w : Watch) : (Machine.setWatch s k w).shapers = s.shapers := rfl
@[simp] theorem setWatch_meters (s : State) (k : Nat) (w : Watch) : (Machine.setWatch s k w).meters = s.meters := rfl
@[simp] theorem setWatch_pools (s : State) (k : Nat) (w : Watch) : (Machine.setWatch s k w).pools = s.pools := rfl
@[simp] theorem setWatch_tandem (s : State) (k : Nat) (w : Watch) : (Machine.setWatch s k w).tandem = s.tandem := rfl
@[simp] theorem setWatch_dropping (s : State) (k : Nat) (w : Watch) : (Machine.setWatch s k w).dropping = s.dropping := rfl
@[simp] theorem setWatch_intake (s : State) (k : Nat) (w : Watch) : (Machine.setWatch s k w).intake = s.intake := rfl
@[simp] theorem setWatch_parsing (s : State) (k : Nat) (w : Watch) : (Machine.setWatch s k w).parsing = s.parsing := rfl
@[simp] theorem setWatch_tills (s : State) (k : Nat) (w : Watch) : (Machine.setWatch s k w).tills = s.tills := rfl
@[simp] theorem setWatch_tallies (s : State) (k : Nat) (w : Watch) : (Machine.setWatch s k w).tallies = s.tallies := rfl
@[simp] theorem setWatch_progs (s : State) (k : Nat) (w : Watch) : (Machine.setWatch s k w).progs = s.progs := rfl
@[simp] theorem setWatch_ctxs (s : State) (k : Nat) (w : Watch) : (Machine.setWatch s k w).ctxs = s.ctxs := rfl
@[simp] theorem setWatch_tiles (s : State) (k : Nat) (w : Watch) : (Machine.setWatch s k w).tiles = s.tiles := rfl
@[simp] theorem setWatch_hbm (s : State) (k : Nat) (w : Watch) : (Machine.setWatch s k w).hbm = s.hbm := rfl
@[simp] theorem setWatch_faults (s : State) (k : Nat) (w : Watch) : (Machine.setWatch s k w).faults = s.faults := rfl
@[simp] theorem setWatch_bridge (s : State) (k : Nat) (w : Watch) : (Machine.setWatch s k w).bridge = s.bridge := rfl
@[simp] theorem setWatch_relays (s : State) (k : Nat) (w : Watch) : (Machine.setWatch s k w).relays = s.relays := rfl
@[simp] theorem setWatch_toss (s : State) (k : Nat) (w : Watch) : (Machine.setWatch s k w).toss = s.toss := rfl
@[simp] theorem setWatch_jobFree (s : State) (k : Nat) (w : Watch) : (Machine.setWatch s k w).jobFree = s.jobFree := rfl
@[simp] theorem setWatch_ledger (s : State) (k : Nat) (w : Watch) : (Machine.setWatch s k w).ledger = s.ledger := rfl
@[simp] theorem setWatch_spdm (s : State) (k : Nat) (w : Watch) : (Machine.setWatch s k w).spdm = s.spdm := rfl
@[simp] theorem setWatch_doe (s : State) (k : Nat) (w : Watch) : (Machine.setWatch s k w).doe = s.doe := rfl
@[simp] theorem setWatch_fresh (s : State) (k : Nat) (w : Watch) : (Machine.setWatch s k w).fresh = s.fresh := rfl
@[simp] theorem setWatch_pending (s : State) (k : Nat) (w : Watch) : (Machine.setWatch s k w).pending = s.pending := rfl
@[simp] theorem setWatch_host_watch (s : State) (k : Nat) (w : Watch) : (Machine.setWatch s k w).host.watch = sput {} s.host.watch k w := rfl
@[simp] theorem setWatch_host_cmd (s : State) (k : Nat) (w : Watch) : (Machine.setWatch s k w).host.cmd = s.host.cmd := rfl
@[simp] theorem setWatch_host_cpl (s : State) (k : Nat) (w : Watch) : (Machine.setWatch s k w).host.cpl = s.host.cpl := rfl
@[simp] theorem setWatch_host_ev (s : State) (k : Nat) (w : Watch) : (Machine.setWatch s k w).host.ev = s.host.ev := rfl
@[simp] theorem setWatch_host_reads (s : State) (k : Nat) (w : Watch) : (Machine.setWatch s k w).host.reads = s.host.reads := rfl
@[simp] theorem setWatch_host_writes (s : State) (k : Nat) (w : Watch) : (Machine.setWatch s k w).host.writes = s.host.writes := rfl
@[simp] theorem setWatch_host_ready (s : State) (k : Nat) (w : Watch) : (Machine.setWatch s k w).host.ready = s.host.ready := rfl
@[simp] theorem setWatch_host_pending (s : State) (k : Nat) (w : Watch) : (Machine.setWatch s k w).host.pending = s.host.pending := rfl
@[simp] theorem setWatch_host_msix (s : State) (k : Nat) (w : Watch) : (Machine.setWatch s k w).host.msix = s.host.msix := rfl
@[simp] theorem setWatch_host_irqs (s : State) (k : Nat) (w : Watch) : (Machine.setWatch s k w).host.irqs = s.host.irqs := rfl
@[simp] theorem setWatch_host_evroute (s : State) (k : Nat) (w : Watch) : (Machine.setWatch s k w).host.evroute = s.host.evroute := rfl
@[simp] theorem setWatch_host_msixTable (s : State) (k : Nat) (w : Watch) : (Machine.setWatch s k w).host.msixTable = s.host.msixTable := rfl
@[simp] theorem setWatch_host_pba (s : State) (k : Nat) (w : Watch) : (Machine.setWatch s k w).host.pba = s.host.pba := rfl
@[simp] theorem setWatch_host_pci (s : State) (k : Nat) (w : Watch) : (Machine.setWatch s k w).host.pci = s.host.pci := rfl
@[simp] theorem setWatch_host_rdCurr (s : State) (k : Nat) (w : Watch) : (Machine.setWatch s k w).host.rdCurr = s.host.rdCurr := rfl
@[simp] theorem setWatch_host_served (s : State) (k : Nat) (w : Watch) : (Machine.setWatch s k w).host.served = s.host.served := rfl
@[simp] theorem setWatch_host_servedAt (s : State) (k : Nat) (w : Watch) : (Machine.setWatch s k w).host.servedAt = s.host.servedAt := rfl

@[simp] theorem raiseVector_now (s : State) (v : Nat) : (Machine.raiseVector s v).now = s.now := rfl
@[simp] theorem raiseVector_boot (s : State) (v : Nat) : (Machine.raiseVector s v).boot = s.boot := rfl
@[simp] theorem raiseVector_tick (s : State) (v : Nat) : (Machine.raiseVector s v).tick = s.tick := rfl
@[simp] theorem raiseVector_tables (s : State) (v : Nat) : (Machine.raiseVector s v).tables = s.tables := rfl
@[simp] theorem raiseVector_stats (s : State) (v : Nat) : (Machine.raiseVector s v).stats = s.stats := rfl
@[simp] theorem raiseVector_refused (s : State) (v : Nat) : (Machine.raiseVector s v).refused = s.refused := rfl
@[simp] theorem raiseVector_ports (s : State) (v : Nat) : (Machine.raiseVector s v).ports = s.ports := rfl
@[simp] theorem raiseVector_lanes (s : State) (v : Nat) : (Machine.raiseVector s v).lanes = s.lanes := rfl
@[simp] theorem raiseVector_frames (s : State) (v : Nat) : (Machine.raiseVector s v).frames = s.frames := rfl
@[simp] theorem raiseVector_stalled (s : State) (v : Nat) : (Machine.raiseVector s v).stalled = s.stalled := rfl
@[simp] theorem raiseVector_reorder (s : State) (v : Nat) : (Machine.raiseVector s v).reorder = s.reorder := rfl
@[simp] theorem raiseVector_doneMsgs (s : State) (v : Nat) : (Machine.raiseVector s v).doneMsgs = s.doneMsgs := rfl
@[simp] theorem raiseVector_blockCounts (s : State) (v : Nat) : (Machine.raiseVector s v).blockCounts = s.blockCounts := rfl
@[simp] theorem raiseVector_shapers (s : State) (v : Nat) : (Machine.raiseVector s v).shapers = s.shapers := rfl
@[simp] theorem raiseVector_meters (s : State) (v : Nat) : (Machine.raiseVector s v).meters = s.meters := rfl
@[simp] theorem raiseVector_pools (s : State) (v : Nat) : (Machine.raiseVector s v).pools = s.pools := rfl
@[simp] theorem raiseVector_tandem (s : State) (v : Nat) : (Machine.raiseVector s v).tandem = s.tandem := rfl
@[simp] theorem raiseVector_dropping (s : State) (v : Nat) : (Machine.raiseVector s v).dropping = s.dropping := rfl
@[simp] theorem raiseVector_intake (s : State) (v : Nat) : (Machine.raiseVector s v).intake = s.intake := rfl
@[simp] theorem raiseVector_parsing (s : State) (v : Nat) : (Machine.raiseVector s v).parsing = s.parsing := rfl
@[simp] theorem raiseVector_tills (s : State) (v : Nat) : (Machine.raiseVector s v).tills = s.tills := rfl
@[simp] theorem raiseVector_tallies (s : State) (v : Nat) : (Machine.raiseVector s v).tallies = s.tallies := rfl
@[simp] theorem raiseVector_progs (s : State) (v : Nat) : (Machine.raiseVector s v).progs = s.progs := rfl
@[simp] theorem raiseVector_ctxs (s : State) (v : Nat) : (Machine.raiseVector s v).ctxs = s.ctxs := rfl
@[simp] theorem raiseVector_tiles (s : State) (v : Nat) : (Machine.raiseVector s v).tiles = s.tiles := rfl
@[simp] theorem raiseVector_hbm (s : State) (v : Nat) : (Machine.raiseVector s v).hbm = s.hbm := rfl
@[simp] theorem raiseVector_faults (s : State) (v : Nat) : (Machine.raiseVector s v).faults = s.faults := rfl
@[simp] theorem raiseVector_bridge (s : State) (v : Nat) : (Machine.raiseVector s v).bridge = s.bridge := rfl
@[simp] theorem raiseVector_relays (s : State) (v : Nat) : (Machine.raiseVector s v).relays = s.relays := rfl
@[simp] theorem raiseVector_toss (s : State) (v : Nat) : (Machine.raiseVector s v).toss = s.toss := rfl
@[simp] theorem raiseVector_jobFree (s : State) (v : Nat) : (Machine.raiseVector s v).jobFree = s.jobFree := rfl
@[simp] theorem raiseVector_ledger (s : State) (v : Nat) : (Machine.raiseVector s v).ledger = s.ledger := rfl
@[simp] theorem raiseVector_spdm (s : State) (v : Nat) : (Machine.raiseVector s v).spdm = s.spdm := rfl
@[simp] theorem raiseVector_doe (s : State) (v : Nat) : (Machine.raiseVector s v).doe = s.doe := rfl
@[simp] theorem raiseVector_fresh (s : State) (v : Nat) : (Machine.raiseVector s v).fresh = s.fresh := rfl
@[simp] theorem raiseVector_pending (s : State) (v : Nat) : (Machine.raiseVector s v).pending = s.pending := rfl
@[simp] theorem raiseVector_host_cmd (s : State) (v : Nat) : (Machine.raiseVector s v).host.cmd = s.host.cmd := rfl
@[simp] theorem raiseVector_host_cpl (s : State) (v : Nat) : (Machine.raiseVector s v).host.cpl = s.host.cpl := rfl
@[simp] theorem raiseVector_host_ev (s : State) (v : Nat) : (Machine.raiseVector s v).host.ev = s.host.ev := rfl
@[simp] theorem raiseVector_host_watch (s : State) (v : Nat) : (Machine.raiseVector s v).host.watch = s.host.watch := rfl
@[simp] theorem raiseVector_host_reads (s : State) (v : Nat) : (Machine.raiseVector s v).host.reads = s.host.reads := rfl
@[simp] theorem raiseVector_host_writes (s : State) (v : Nat) : (Machine.raiseVector s v).host.writes = s.host.writes := rfl
@[simp] theorem raiseVector_host_ready (s : State) (v : Nat) : (Machine.raiseVector s v).host.ready = s.host.ready := rfl
@[simp] theorem raiseVector_host_pending (s : State) (v : Nat) : (Machine.raiseVector s v).host.pending = s.host.pending := rfl
@[simp] theorem raiseVector_host_irqs (s : State) (v : Nat) : (Machine.raiseVector s v).host.irqs = s.host.irqs := rfl
@[simp] theorem raiseVector_host_evroute (s : State) (v : Nat) : (Machine.raiseVector s v).host.evroute = s.host.evroute := rfl
@[simp] theorem raiseVector_host_msixTable (s : State) (v : Nat) : (Machine.raiseVector s v).host.msixTable = s.host.msixTable := rfl
@[simp] theorem raiseVector_host_pci (s : State) (v : Nat) : (Machine.raiseVector s v).host.pci = s.host.pci := rfl
@[simp] theorem raiseVector_host_rdCurr (s : State) (v : Nat) : (Machine.raiseVector s v).host.rdCurr = s.host.rdCurr := rfl
@[simp] theorem raiseVector_host_served (s : State) (v : Nat) : (Machine.raiseVector s v).host.served = s.host.served := rfl
@[simp] theorem raiseVector_host_servedAt (s : State) (v : Nat) : (Machine.raiseVector s v).host.servedAt = s.host.servedAt := rfl

@[simp] theorem ready_now (s : State) (c : Cpl) : (Machine.ready s c).now = s.now := rfl
@[simp] theorem ready_boot (s : State) (c : Cpl) : (Machine.ready s c).boot = s.boot := rfl
@[simp] theorem ready_tick (s : State) (c : Cpl) : (Machine.ready s c).tick = s.tick := rfl
@[simp] theorem ready_tables (s : State) (c : Cpl) : (Machine.ready s c).tables = s.tables := rfl
@[simp] theorem ready_stats (s : State) (c : Cpl) : (Machine.ready s c).stats = s.stats := rfl
@[simp] theorem ready_refused (s : State) (c : Cpl) : (Machine.ready s c).refused = s.refused := rfl
@[simp] theorem ready_ports (s : State) (c : Cpl) : (Machine.ready s c).ports = s.ports := rfl
@[simp] theorem ready_lanes (s : State) (c : Cpl) : (Machine.ready s c).lanes = s.lanes := rfl
@[simp] theorem ready_frames (s : State) (c : Cpl) : (Machine.ready s c).frames = s.frames := rfl
@[simp] theorem ready_stalled (s : State) (c : Cpl) : (Machine.ready s c).stalled = s.stalled := rfl
@[simp] theorem ready_reorder (s : State) (c : Cpl) : (Machine.ready s c).reorder = s.reorder := rfl
@[simp] theorem ready_doneMsgs (s : State) (c : Cpl) : (Machine.ready s c).doneMsgs = s.doneMsgs := rfl
@[simp] theorem ready_blockCounts (s : State) (c : Cpl) : (Machine.ready s c).blockCounts = s.blockCounts := rfl
@[simp] theorem ready_shapers (s : State) (c : Cpl) : (Machine.ready s c).shapers = s.shapers := rfl
@[simp] theorem ready_meters (s : State) (c : Cpl) : (Machine.ready s c).meters = s.meters := rfl
@[simp] theorem ready_pools (s : State) (c : Cpl) : (Machine.ready s c).pools = s.pools := rfl
@[simp] theorem ready_tandem (s : State) (c : Cpl) : (Machine.ready s c).tandem = s.tandem := rfl
@[simp] theorem ready_dropping (s : State) (c : Cpl) : (Machine.ready s c).dropping = s.dropping := rfl
@[simp] theorem ready_intake (s : State) (c : Cpl) : (Machine.ready s c).intake = s.intake := rfl
@[simp] theorem ready_parsing (s : State) (c : Cpl) : (Machine.ready s c).parsing = s.parsing := rfl
@[simp] theorem ready_tills (s : State) (c : Cpl) : (Machine.ready s c).tills = s.tills := rfl
@[simp] theorem ready_tallies (s : State) (c : Cpl) : (Machine.ready s c).tallies = s.tallies := rfl
@[simp] theorem ready_progs (s : State) (c : Cpl) : (Machine.ready s c).progs = s.progs := rfl
@[simp] theorem ready_ctxs (s : State) (c : Cpl) : (Machine.ready s c).ctxs = s.ctxs := rfl
@[simp] theorem ready_tiles (s : State) (c : Cpl) : (Machine.ready s c).tiles = s.tiles := rfl
@[simp] theorem ready_hbm (s : State) (c : Cpl) : (Machine.ready s c).hbm = s.hbm := rfl
@[simp] theorem ready_faults (s : State) (c : Cpl) : (Machine.ready s c).faults = s.faults := rfl
@[simp] theorem ready_bridge (s : State) (c : Cpl) : (Machine.ready s c).bridge = s.bridge := rfl
@[simp] theorem ready_relays (s : State) (c : Cpl) : (Machine.ready s c).relays = s.relays := rfl
@[simp] theorem ready_toss (s : State) (c : Cpl) : (Machine.ready s c).toss = s.toss := rfl
@[simp] theorem ready_jobFree (s : State) (c : Cpl) : (Machine.ready s c).jobFree = s.jobFree := rfl
@[simp] theorem ready_ledger (s : State) (c : Cpl) : (Machine.ready s c).ledger = s.ledger := rfl
@[simp] theorem ready_spdm (s : State) (c : Cpl) : (Machine.ready s c).spdm = s.spdm := rfl
@[simp] theorem ready_doe (s : State) (c : Cpl) : (Machine.ready s c).doe = s.doe := rfl
@[simp] theorem ready_fresh (s : State) (c : Cpl) : (Machine.ready s c).fresh = s.fresh := rfl
@[simp] theorem ready_pending (s : State) (c : Cpl) : (Machine.ready s c).pending = s.pending := rfl
@[simp] theorem ready_host_ready (s : State) (c : Cpl) : (Machine.ready s c).host.ready = s.host.ready ++ [c] := rfl
@[simp] theorem ready_host_cmd (s : State) (c : Cpl) : (Machine.ready s c).host.cmd = s.host.cmd := rfl
@[simp] theorem ready_host_cpl (s : State) (c : Cpl) : (Machine.ready s c).host.cpl = s.host.cpl := rfl
@[simp] theorem ready_host_ev (s : State) (c : Cpl) : (Machine.ready s c).host.ev = s.host.ev := rfl
@[simp] theorem ready_host_watch (s : State) (c : Cpl) : (Machine.ready s c).host.watch = s.host.watch := rfl
@[simp] theorem ready_host_reads (s : State) (c : Cpl) : (Machine.ready s c).host.reads = s.host.reads := rfl
@[simp] theorem ready_host_writes (s : State) (c : Cpl) : (Machine.ready s c).host.writes = s.host.writes := rfl
@[simp] theorem ready_host_pending (s : State) (c : Cpl) : (Machine.ready s c).host.pending = s.host.pending := rfl
@[simp] theorem ready_host_msix (s : State) (c : Cpl) : (Machine.ready s c).host.msix = s.host.msix := rfl
@[simp] theorem ready_host_irqs (s : State) (c : Cpl) : (Machine.ready s c).host.irqs = s.host.irqs := rfl
@[simp] theorem ready_host_evroute (s : State) (c : Cpl) : (Machine.ready s c).host.evroute = s.host.evroute := rfl
@[simp] theorem ready_host_msixTable (s : State) (c : Cpl) : (Machine.ready s c).host.msixTable = s.host.msixTable := rfl
@[simp] theorem ready_host_pba (s : State) (c : Cpl) : (Machine.ready s c).host.pba = s.host.pba := rfl
@[simp] theorem ready_host_pci (s : State) (c : Cpl) : (Machine.ready s c).host.pci = s.host.pci := rfl
@[simp] theorem ready_host_rdCurr (s : State) (c : Cpl) : (Machine.ready s c).host.rdCurr = s.host.rdCurr := rfl
@[simp] theorem ready_host_served (s : State) (c : Cpl) : (Machine.ready s c).host.served = s.host.served := rfl
@[simp] theorem ready_host_servedAt (s : State) (c : Cpl) : (Machine.ready s c).host.servedAt = s.host.servedAt := rfl

@[simp] theorem setTill_now (s : State) (n : Nat) (v : Till) : (Machine.setTill s n v).now = s.now := rfl
@[simp] theorem setTill_boot (s : State) (n : Nat) (v : Till) : (Machine.setTill s n v).boot = s.boot := rfl
@[simp] theorem setTill_tick (s : State) (n : Nat) (v : Till) : (Machine.setTill s n v).tick = s.tick := rfl
@[simp] theorem setTill_tables (s : State) (n : Nat) (v : Till) : (Machine.setTill s n v).tables = s.tables := rfl
@[simp] theorem setTill_host (s : State) (n : Nat) (v : Till) : (Machine.setTill s n v).host = s.host := rfl
@[simp] theorem setTill_stats (s : State) (n : Nat) (v : Till) : (Machine.setTill s n v).stats = s.stats := rfl
@[simp] theorem setTill_refused (s : State) (n : Nat) (v : Till) : (Machine.setTill s n v).refused = s.refused := rfl
@[simp] theorem setTill_ports (s : State) (n : Nat) (v : Till) : (Machine.setTill s n v).ports = s.ports := rfl
@[simp] theorem setTill_lanes (s : State) (n : Nat) (v : Till) : (Machine.setTill s n v).lanes = s.lanes := rfl
@[simp] theorem setTill_frames (s : State) (n : Nat) (v : Till) : (Machine.setTill s n v).frames = s.frames := rfl
@[simp] theorem setTill_stalled (s : State) (n : Nat) (v : Till) : (Machine.setTill s n v).stalled = s.stalled := rfl
@[simp] theorem setTill_reorder (s : State) (n : Nat) (v : Till) : (Machine.setTill s n v).reorder = s.reorder := rfl
@[simp] theorem setTill_doneMsgs (s : State) (n : Nat) (v : Till) : (Machine.setTill s n v).doneMsgs = s.doneMsgs := rfl
@[simp] theorem setTill_blockCounts (s : State) (n : Nat) (v : Till) : (Machine.setTill s n v).blockCounts = s.blockCounts := rfl
@[simp] theorem setTill_shapers (s : State) (n : Nat) (v : Till) : (Machine.setTill s n v).shapers = s.shapers := rfl
@[simp] theorem setTill_meters (s : State) (n : Nat) (v : Till) : (Machine.setTill s n v).meters = s.meters := rfl
@[simp] theorem setTill_pools (s : State) (n : Nat) (v : Till) : (Machine.setTill s n v).pools = s.pools := rfl
@[simp] theorem setTill_tandem (s : State) (n : Nat) (v : Till) : (Machine.setTill s n v).tandem = s.tandem := rfl
@[simp] theorem setTill_dropping (s : State) (n : Nat) (v : Till) : (Machine.setTill s n v).dropping = s.dropping := rfl
@[simp] theorem setTill_intake (s : State) (n : Nat) (v : Till) : (Machine.setTill s n v).intake = s.intake := rfl
@[simp] theorem setTill_parsing (s : State) (n : Nat) (v : Till) : (Machine.setTill s n v).parsing = s.parsing := rfl
@[simp] theorem setTill_tallies (s : State) (n : Nat) (v : Till) : (Machine.setTill s n v).tallies = s.tallies := rfl
@[simp] theorem setTill_progs (s : State) (n : Nat) (v : Till) : (Machine.setTill s n v).progs = s.progs := rfl
@[simp] theorem setTill_ctxs (s : State) (n : Nat) (v : Till) : (Machine.setTill s n v).ctxs = s.ctxs := rfl
@[simp] theorem setTill_tiles (s : State) (n : Nat) (v : Till) : (Machine.setTill s n v).tiles = s.tiles := rfl
@[simp] theorem setTill_hbm (s : State) (n : Nat) (v : Till) : (Machine.setTill s n v).hbm = s.hbm := rfl
@[simp] theorem setTill_faults (s : State) (n : Nat) (v : Till) : (Machine.setTill s n v).faults = s.faults := rfl
@[simp] theorem setTill_bridge (s : State) (n : Nat) (v : Till) : (Machine.setTill s n v).bridge = s.bridge := rfl
@[simp] theorem setTill_relays (s : State) (n : Nat) (v : Till) : (Machine.setTill s n v).relays = s.relays := rfl
@[simp] theorem setTill_toss (s : State) (n : Nat) (v : Till) : (Machine.setTill s n v).toss = s.toss := rfl
@[simp] theorem setTill_jobFree (s : State) (n : Nat) (v : Till) : (Machine.setTill s n v).jobFree = s.jobFree := rfl
@[simp] theorem setTill_ledger (s : State) (n : Nat) (v : Till) : (Machine.setTill s n v).ledger = s.ledger := rfl
@[simp] theorem setTill_spdm (s : State) (n : Nat) (v : Till) : (Machine.setTill s n v).spdm = s.spdm := rfl
@[simp] theorem setTill_doe (s : State) (n : Nat) (v : Till) : (Machine.setTill s n v).doe = s.doe := rfl
@[simp] theorem setTill_fresh (s : State) (n : Nat) (v : Till) : (Machine.setTill s n v).fresh = s.fresh := rfl
@[simp] theorem setTill_pending (s : State) (n : Nat) (v : Till) : (Machine.setTill s n v).pending = s.pending := rfl
@[simp] theorem setTill_tills (s : State) (n : Nat) (v : Till) : (Machine.setTill s n v).tills = oins s.tills n v := rfl

@[simp] theorem setTally_now (s : State) (n : Nat) (v : Tally) : (Machine.setTally s n v).now = s.now := rfl
@[simp] theorem setTally_boot (s : State) (n : Nat) (v : Tally) : (Machine.setTally s n v).boot = s.boot := rfl
@[simp] theorem setTally_tick (s : State) (n : Nat) (v : Tally) : (Machine.setTally s n v).tick = s.tick := rfl
@[simp] theorem setTally_tables (s : State) (n : Nat) (v : Tally) : (Machine.setTally s n v).tables = s.tables := rfl
@[simp] theorem setTally_host (s : State) (n : Nat) (v : Tally) : (Machine.setTally s n v).host = s.host := rfl
@[simp] theorem setTally_stats (s : State) (n : Nat) (v : Tally) : (Machine.setTally s n v).stats = s.stats := rfl
@[simp] theorem setTally_refused (s : State) (n : Nat) (v : Tally) : (Machine.setTally s n v).refused = s.refused := rfl
@[simp] theorem setTally_ports (s : State) (n : Nat) (v : Tally) : (Machine.setTally s n v).ports = s.ports := rfl
@[simp] theorem setTally_lanes (s : State) (n : Nat) (v : Tally) : (Machine.setTally s n v).lanes = s.lanes := rfl
@[simp] theorem setTally_frames (s : State) (n : Nat) (v : Tally) : (Machine.setTally s n v).frames = s.frames := rfl
@[simp] theorem setTally_stalled (s : State) (n : Nat) (v : Tally) : (Machine.setTally s n v).stalled = s.stalled := rfl
@[simp] theorem setTally_reorder (s : State) (n : Nat) (v : Tally) : (Machine.setTally s n v).reorder = s.reorder := rfl
@[simp] theorem setTally_doneMsgs (s : State) (n : Nat) (v : Tally) : (Machine.setTally s n v).doneMsgs = s.doneMsgs := rfl
@[simp] theorem setTally_blockCounts (s : State) (n : Nat) (v : Tally) : (Machine.setTally s n v).blockCounts = s.blockCounts := rfl
@[simp] theorem setTally_shapers (s : State) (n : Nat) (v : Tally) : (Machine.setTally s n v).shapers = s.shapers := rfl
@[simp] theorem setTally_meters (s : State) (n : Nat) (v : Tally) : (Machine.setTally s n v).meters = s.meters := rfl
@[simp] theorem setTally_pools (s : State) (n : Nat) (v : Tally) : (Machine.setTally s n v).pools = s.pools := rfl
@[simp] theorem setTally_tandem (s : State) (n : Nat) (v : Tally) : (Machine.setTally s n v).tandem = s.tandem := rfl
@[simp] theorem setTally_dropping (s : State) (n : Nat) (v : Tally) : (Machine.setTally s n v).dropping = s.dropping := rfl
@[simp] theorem setTally_intake (s : State) (n : Nat) (v : Tally) : (Machine.setTally s n v).intake = s.intake := rfl
@[simp] theorem setTally_parsing (s : State) (n : Nat) (v : Tally) : (Machine.setTally s n v).parsing = s.parsing := rfl
@[simp] theorem setTally_tills (s : State) (n : Nat) (v : Tally) : (Machine.setTally s n v).tills = s.tills := rfl
@[simp] theorem setTally_progs (s : State) (n : Nat) (v : Tally) : (Machine.setTally s n v).progs = s.progs := rfl
@[simp] theorem setTally_ctxs (s : State) (n : Nat) (v : Tally) : (Machine.setTally s n v).ctxs = s.ctxs := rfl
@[simp] theorem setTally_tiles (s : State) (n : Nat) (v : Tally) : (Machine.setTally s n v).tiles = s.tiles := rfl
@[simp] theorem setTally_hbm (s : State) (n : Nat) (v : Tally) : (Machine.setTally s n v).hbm = s.hbm := rfl
@[simp] theorem setTally_faults (s : State) (n : Nat) (v : Tally) : (Machine.setTally s n v).faults = s.faults := rfl
@[simp] theorem setTally_bridge (s : State) (n : Nat) (v : Tally) : (Machine.setTally s n v).bridge = s.bridge := rfl
@[simp] theorem setTally_relays (s : State) (n : Nat) (v : Tally) : (Machine.setTally s n v).relays = s.relays := rfl
@[simp] theorem setTally_toss (s : State) (n : Nat) (v : Tally) : (Machine.setTally s n v).toss = s.toss := rfl
@[simp] theorem setTally_jobFree (s : State) (n : Nat) (v : Tally) : (Machine.setTally s n v).jobFree = s.jobFree := rfl
@[simp] theorem setTally_ledger (s : State) (n : Nat) (v : Tally) : (Machine.setTally s n v).ledger = s.ledger := rfl
@[simp] theorem setTally_spdm (s : State) (n : Nat) (v : Tally) : (Machine.setTally s n v).spdm = s.spdm := rfl
@[simp] theorem setTally_doe (s : State) (n : Nat) (v : Tally) : (Machine.setTally s n v).doe = s.doe := rfl
@[simp] theorem setTally_fresh (s : State) (n : Nat) (v : Tally) : (Machine.setTally s n v).fresh = s.fresh := rfl
@[simp] theorem setTally_pending (s : State) (n : Nat) (v : Tally) : (Machine.setTally s n v).pending = s.pending := rfl
@[simp] theorem setTally_tallies (s : State) (n : Nat) (v : Tally) : (Machine.setTally s n v).tallies = oins s.tallies n v := rfl

@[simp] theorem setRegion_now (s : State) (n : Nat) (v : Region) : (Machine.setRegion s n v).now = s.now := rfl
@[simp] theorem setRegion_boot (s : State) (n : Nat) (v : Region) : (Machine.setRegion s n v).boot = s.boot := rfl
@[simp] theorem setRegion_tick (s : State) (n : Nat) (v : Region) : (Machine.setRegion s n v).tick = s.tick := rfl
@[simp] theorem setRegion_tables (s : State) (n : Nat) (v : Region) : (Machine.setRegion s n v).tables = s.tables := rfl
@[simp] theorem setRegion_host (s : State) (n : Nat) (v : Region) : (Machine.setRegion s n v).host = s.host := rfl
@[simp] theorem setRegion_stats (s : State) (n : Nat) (v : Region) : (Machine.setRegion s n v).stats = s.stats := rfl
@[simp] theorem setRegion_refused (s : State) (n : Nat) (v : Region) : (Machine.setRegion s n v).refused = s.refused := rfl
@[simp] theorem setRegion_ports (s : State) (n : Nat) (v : Region) : (Machine.setRegion s n v).ports = s.ports := rfl
@[simp] theorem setRegion_lanes (s : State) (n : Nat) (v : Region) : (Machine.setRegion s n v).lanes = s.lanes := rfl
@[simp] theorem setRegion_frames (s : State) (n : Nat) (v : Region) : (Machine.setRegion s n v).frames = s.frames := rfl
@[simp] theorem setRegion_stalled (s : State) (n : Nat) (v : Region) : (Machine.setRegion s n v).stalled = s.stalled := rfl
@[simp] theorem setRegion_reorder (s : State) (n : Nat) (v : Region) : (Machine.setRegion s n v).reorder = s.reorder := rfl
@[simp] theorem setRegion_doneMsgs (s : State) (n : Nat) (v : Region) : (Machine.setRegion s n v).doneMsgs = s.doneMsgs := rfl
@[simp] theorem setRegion_blockCounts (s : State) (n : Nat) (v : Region) : (Machine.setRegion s n v).blockCounts = s.blockCounts := rfl
@[simp] theorem setRegion_shapers (s : State) (n : Nat) (v : Region) : (Machine.setRegion s n v).shapers = s.shapers := rfl
@[simp] theorem setRegion_meters (s : State) (n : Nat) (v : Region) : (Machine.setRegion s n v).meters = s.meters := rfl
@[simp] theorem setRegion_pools (s : State) (n : Nat) (v : Region) : (Machine.setRegion s n v).pools = s.pools := rfl
@[simp] theorem setRegion_tandem (s : State) (n : Nat) (v : Region) : (Machine.setRegion s n v).tandem = s.tandem := rfl
@[simp] theorem setRegion_dropping (s : State) (n : Nat) (v : Region) : (Machine.setRegion s n v).dropping = s.dropping := rfl
@[simp] theorem setRegion_intake (s : State) (n : Nat) (v : Region) : (Machine.setRegion s n v).intake = s.intake := rfl
@[simp] theorem setRegion_parsing (s : State) (n : Nat) (v : Region) : (Machine.setRegion s n v).parsing = s.parsing := rfl
@[simp] theorem setRegion_tills (s : State) (n : Nat) (v : Region) : (Machine.setRegion s n v).tills = s.tills := rfl
@[simp] theorem setRegion_tallies (s : State) (n : Nat) (v : Region) : (Machine.setRegion s n v).tallies = s.tallies := rfl
@[simp] theorem setRegion_progs (s : State) (n : Nat) (v : Region) : (Machine.setRegion s n v).progs = s.progs := rfl
@[simp] theorem setRegion_ctxs (s : State) (n : Nat) (v : Region) : (Machine.setRegion s n v).ctxs = s.ctxs := rfl
@[simp] theorem setRegion_tiles (s : State) (n : Nat) (v : Region) : (Machine.setRegion s n v).tiles = s.tiles := rfl
@[simp] theorem setRegion_faults (s : State) (n : Nat) (v : Region) : (Machine.setRegion s n v).faults = s.faults := rfl
@[simp] theorem setRegion_bridge (s : State) (n : Nat) (v : Region) : (Machine.setRegion s n v).bridge = s.bridge := rfl
@[simp] theorem setRegion_relays (s : State) (n : Nat) (v : Region) : (Machine.setRegion s n v).relays = s.relays := rfl
@[simp] theorem setRegion_toss (s : State) (n : Nat) (v : Region) : (Machine.setRegion s n v).toss = s.toss := rfl
@[simp] theorem setRegion_jobFree (s : State) (n : Nat) (v : Region) : (Machine.setRegion s n v).jobFree = s.jobFree := rfl
@[simp] theorem setRegion_ledger (s : State) (n : Nat) (v : Region) : (Machine.setRegion s n v).ledger = s.ledger := rfl
@[simp] theorem setRegion_spdm (s : State) (n : Nat) (v : Region) : (Machine.setRegion s n v).spdm = s.spdm := rfl
@[simp] theorem setRegion_doe (s : State) (n : Nat) (v : Region) : (Machine.setRegion s n v).doe = s.doe := rfl
@[simp] theorem setRegion_fresh (s : State) (n : Nat) (v : Region) : (Machine.setRegion s n v).fresh = s.fresh := rfl
@[simp] theorem setRegion_pending (s : State) (n : Nat) (v : Region) : (Machine.setRegion s n v).pending = s.pending := rfl
@[simp] theorem setRegion_hbm_regions (s : State) (n : Nat) (v : Region) : (Machine.setRegion s n v).hbm.regions = oins s.hbm.regions n v := rfl
@[simp] theorem setRegion_hbm_mem (s : State) (n : Nat) (v : Region) : (Machine.setRegion s n v).hbm.mem = s.hbm.mem := rfl

@[simp] theorem setCtx_now (s : State) (k : Nat) (c : Ctx) : (Machine.setCtx s k c).now = s.now := rfl
@[simp] theorem setCtx_boot (s : State) (k : Nat) (c : Ctx) : (Machine.setCtx s k c).boot = s.boot := rfl
@[simp] theorem setCtx_tick (s : State) (k : Nat) (c : Ctx) : (Machine.setCtx s k c).tick = s.tick := rfl
@[simp] theorem setCtx_tables (s : State) (k : Nat) (c : Ctx) : (Machine.setCtx s k c).tables = s.tables := rfl
@[simp] theorem setCtx_host (s : State) (k : Nat) (c : Ctx) : (Machine.setCtx s k c).host = s.host := rfl
@[simp] theorem setCtx_stats (s : State) (k : Nat) (c : Ctx) : (Machine.setCtx s k c).stats = s.stats := rfl
@[simp] theorem setCtx_refused (s : State) (k : Nat) (c : Ctx) : (Machine.setCtx s k c).refused = s.refused := rfl
@[simp] theorem setCtx_ports (s : State) (k : Nat) (c : Ctx) : (Machine.setCtx s k c).ports = s.ports := rfl
@[simp] theorem setCtx_lanes (s : State) (k : Nat) (c : Ctx) : (Machine.setCtx s k c).lanes = s.lanes := rfl
@[simp] theorem setCtx_frames (s : State) (k : Nat) (c : Ctx) : (Machine.setCtx s k c).frames = s.frames := rfl
@[simp] theorem setCtx_stalled (s : State) (k : Nat) (c : Ctx) : (Machine.setCtx s k c).stalled = s.stalled := rfl
@[simp] theorem setCtx_reorder (s : State) (k : Nat) (c : Ctx) : (Machine.setCtx s k c).reorder = s.reorder := rfl
@[simp] theorem setCtx_doneMsgs (s : State) (k : Nat) (c : Ctx) : (Machine.setCtx s k c).doneMsgs = s.doneMsgs := rfl
@[simp] theorem setCtx_blockCounts (s : State) (k : Nat) (c : Ctx) : (Machine.setCtx s k c).blockCounts = s.blockCounts := rfl
@[simp] theorem setCtx_shapers (s : State) (k : Nat) (c : Ctx) : (Machine.setCtx s k c).shapers = s.shapers := rfl
@[simp] theorem setCtx_meters (s : State) (k : Nat) (c : Ctx) : (Machine.setCtx s k c).meters = s.meters := rfl
@[simp] theorem setCtx_pools (s : State) (k : Nat) (c : Ctx) : (Machine.setCtx s k c).pools = s.pools := rfl
@[simp] theorem setCtx_tandem (s : State) (k : Nat) (c : Ctx) : (Machine.setCtx s k c).tandem = s.tandem := rfl
@[simp] theorem setCtx_dropping (s : State) (k : Nat) (c : Ctx) : (Machine.setCtx s k c).dropping = s.dropping := rfl
@[simp] theorem setCtx_intake (s : State) (k : Nat) (c : Ctx) : (Machine.setCtx s k c).intake = s.intake := rfl
@[simp] theorem setCtx_parsing (s : State) (k : Nat) (c : Ctx) : (Machine.setCtx s k c).parsing = s.parsing := rfl
@[simp] theorem setCtx_tills (s : State) (k : Nat) (c : Ctx) : (Machine.setCtx s k c).tills = s.tills := rfl
@[simp] theorem setCtx_tallies (s : State) (k : Nat) (c : Ctx) : (Machine.setCtx s k c).tallies = s.tallies := rfl
@[simp] theorem setCtx_progs (s : State) (k : Nat) (c : Ctx) : (Machine.setCtx s k c).progs = s.progs := rfl
@[simp] theorem setCtx_tiles (s : State) (k : Nat) (c : Ctx) : (Machine.setCtx s k c).tiles = s.tiles := rfl
@[simp] theorem setCtx_hbm (s : State) (k : Nat) (c : Ctx) : (Machine.setCtx s k c).hbm = s.hbm := rfl
@[simp] theorem setCtx_faults (s : State) (k : Nat) (c : Ctx) : (Machine.setCtx s k c).faults = s.faults := rfl
@[simp] theorem setCtx_bridge (s : State) (k : Nat) (c : Ctx) : (Machine.setCtx s k c).bridge = s.bridge := rfl
@[simp] theorem setCtx_relays (s : State) (k : Nat) (c : Ctx) : (Machine.setCtx s k c).relays = s.relays := rfl
@[simp] theorem setCtx_toss (s : State) (k : Nat) (c : Ctx) : (Machine.setCtx s k c).toss = s.toss := rfl
@[simp] theorem setCtx_jobFree (s : State) (k : Nat) (c : Ctx) : (Machine.setCtx s k c).jobFree = s.jobFree := rfl
@[simp] theorem setCtx_ledger (s : State) (k : Nat) (c : Ctx) : (Machine.setCtx s k c).ledger = s.ledger := rfl
@[simp] theorem setCtx_spdm (s : State) (k : Nat) (c : Ctx) : (Machine.setCtx s k c).spdm = s.spdm := rfl
@[simp] theorem setCtx_doe (s : State) (k : Nat) (c : Ctx) : (Machine.setCtx s k c).doe = s.doe := rfl
@[simp] theorem setCtx_fresh (s : State) (k : Nat) (c : Ctx) : (Machine.setCtx s k c).fresh = s.fresh := rfl
@[simp] theorem setCtx_pending (s : State) (k : Nat) (c : Ctx) : (Machine.setCtx s k c).pending = s.pending := rfl
@[simp] theorem setCtx_ctxs (s : State) (k : Nat) (c : Ctx) : (Machine.setCtx s k c).ctxs = sput {} s.ctxs k c := rfl

@[simp] theorem countBlock_now (s : State) (src w n : Nat) : (Machine.countBlock s src w n).now = s.now := rfl
@[simp] theorem countBlock_boot (s : State) (src w n : Nat) : (Machine.countBlock s src w n).boot = s.boot := rfl
@[simp] theorem countBlock_tick (s : State) (src w n : Nat) : (Machine.countBlock s src w n).tick = s.tick := rfl
@[simp] theorem countBlock_tables (s : State) (src w n : Nat) : (Machine.countBlock s src w n).tables = s.tables := rfl
@[simp] theorem countBlock_host (s : State) (src w n : Nat) : (Machine.countBlock s src w n).host = s.host := rfl
@[simp] theorem countBlock_stats (s : State) (src w n : Nat) : (Machine.countBlock s src w n).stats = s.stats := rfl
@[simp] theorem countBlock_refused (s : State) (src w n : Nat) : (Machine.countBlock s src w n).refused = s.refused := rfl
@[simp] theorem countBlock_ports (s : State) (src w n : Nat) : (Machine.countBlock s src w n).ports = s.ports := rfl
@[simp] theorem countBlock_lanes (s : State) (src w n : Nat) : (Machine.countBlock s src w n).lanes = s.lanes := rfl
@[simp] theorem countBlock_frames (s : State) (src w n : Nat) : (Machine.countBlock s src w n).frames = s.frames := rfl
@[simp] theorem countBlock_stalled (s : State) (src w n : Nat) : (Machine.countBlock s src w n).stalled = s.stalled := rfl
@[simp] theorem countBlock_reorder (s : State) (src w n : Nat) : (Machine.countBlock s src w n).reorder = s.reorder := rfl
@[simp] theorem countBlock_doneMsgs (s : State) (src w n : Nat) : (Machine.countBlock s src w n).doneMsgs = s.doneMsgs := rfl
@[simp] theorem countBlock_shapers (s : State) (src w n : Nat) : (Machine.countBlock s src w n).shapers = s.shapers := rfl
@[simp] theorem countBlock_meters (s : State) (src w n : Nat) : (Machine.countBlock s src w n).meters = s.meters := rfl
@[simp] theorem countBlock_pools (s : State) (src w n : Nat) : (Machine.countBlock s src w n).pools = s.pools := rfl
@[simp] theorem countBlock_tandem (s : State) (src w n : Nat) : (Machine.countBlock s src w n).tandem = s.tandem := rfl
@[simp] theorem countBlock_dropping (s : State) (src w n : Nat) : (Machine.countBlock s src w n).dropping = s.dropping := rfl
@[simp] theorem countBlock_intake (s : State) (src w n : Nat) : (Machine.countBlock s src w n).intake = s.intake := rfl
@[simp] theorem countBlock_parsing (s : State) (src w n : Nat) : (Machine.countBlock s src w n).parsing = s.parsing := rfl
@[simp] theorem countBlock_tills (s : State) (src w n : Nat) : (Machine.countBlock s src w n).tills = s.tills := rfl
@[simp] theorem countBlock_tallies (s : State) (src w n : Nat) : (Machine.countBlock s src w n).tallies = s.tallies := rfl
@[simp] theorem countBlock_progs (s : State) (src w n : Nat) : (Machine.countBlock s src w n).progs = s.progs := rfl
@[simp] theorem countBlock_ctxs (s : State) (src w n : Nat) : (Machine.countBlock s src w n).ctxs = s.ctxs := rfl
@[simp] theorem countBlock_tiles (s : State) (src w n : Nat) : (Machine.countBlock s src w n).tiles = s.tiles := rfl
@[simp] theorem countBlock_hbm (s : State) (src w n : Nat) : (Machine.countBlock s src w n).hbm = s.hbm := rfl
@[simp] theorem countBlock_faults (s : State) (src w n : Nat) : (Machine.countBlock s src w n).faults = s.faults := rfl
@[simp] theorem countBlock_bridge (s : State) (src w n : Nat) : (Machine.countBlock s src w n).bridge = s.bridge := rfl
@[simp] theorem countBlock_relays (s : State) (src w n : Nat) : (Machine.countBlock s src w n).relays = s.relays := rfl
@[simp] theorem countBlock_toss (s : State) (src w n : Nat) : (Machine.countBlock s src w n).toss = s.toss := rfl
@[simp] theorem countBlock_jobFree (s : State) (src w n : Nat) : (Machine.countBlock s src w n).jobFree = s.jobFree := rfl
@[simp] theorem countBlock_ledger (s : State) (src w n : Nat) : (Machine.countBlock s src w n).ledger = s.ledger := rfl
@[simp] theorem countBlock_spdm (s : State) (src w n : Nat) : (Machine.countBlock s src w n).spdm = s.spdm := rfl
@[simp] theorem countBlock_doe (s : State) (src w n : Nat) : (Machine.countBlock s src w n).doe = s.doe := rfl
@[simp] theorem countBlock_fresh (s : State) (src w n : Nat) : (Machine.countBlock s src w n).fresh = s.fresh := rfl
@[simp] theorem countBlock_pending (s : State) (src w n : Nat) : (Machine.countBlock s src w n).pending = s.pending := rfl

@[simp] theorem toss_now (s : State) (job part : Nat) : (Machine.toss s job part).now = s.now := rfl
@[simp] theorem toss_boot (s : State) (job part : Nat) : (Machine.toss s job part).boot = s.boot := rfl
@[simp] theorem toss_tick (s : State) (job part : Nat) : (Machine.toss s job part).tick = s.tick := rfl
@[simp] theorem toss_tables (s : State) (job part : Nat) : (Machine.toss s job part).tables = s.tables := rfl
@[simp] theorem toss_host (s : State) (job part : Nat) : (Machine.toss s job part).host = s.host := rfl
@[simp] theorem toss_stats (s : State) (job part : Nat) : (Machine.toss s job part).stats = s.stats := rfl
@[simp] theorem toss_refused (s : State) (job part : Nat) : (Machine.toss s job part).refused = s.refused := rfl
@[simp] theorem toss_ports (s : State) (job part : Nat) : (Machine.toss s job part).ports = s.ports := rfl
@[simp] theorem toss_lanes (s : State) (job part : Nat) : (Machine.toss s job part).lanes = s.lanes := rfl
@[simp] theorem toss_frames (s : State) (job part : Nat) : (Machine.toss s job part).frames = s.frames := rfl
@[simp] theorem toss_stalled (s : State) (job part : Nat) : (Machine.toss s job part).stalled = s.stalled := rfl
@[simp] theorem toss_reorder (s : State) (job part : Nat) : (Machine.toss s job part).reorder = s.reorder := rfl
@[simp] theorem toss_doneMsgs (s : State) (job part : Nat) : (Machine.toss s job part).doneMsgs = s.doneMsgs := rfl
@[simp] theorem toss_blockCounts (s : State) (job part : Nat) : (Machine.toss s job part).blockCounts = s.blockCounts := rfl
@[simp] theorem toss_shapers (s : State) (job part : Nat) : (Machine.toss s job part).shapers = s.shapers := rfl
@[simp] theorem toss_meters (s : State) (job part : Nat) : (Machine.toss s job part).meters = s.meters := rfl
@[simp] theorem toss_pools (s : State) (job part : Nat) : (Machine.toss s job part).pools = s.pools := rfl
@[simp] theorem toss_tandem (s : State) (job part : Nat) : (Machine.toss s job part).tandem = s.tandem := rfl
@[simp] theorem toss_dropping (s : State) (job part : Nat) : (Machine.toss s job part).dropping = s.dropping := rfl
@[simp] theorem toss_intake (s : State) (job part : Nat) : (Machine.toss s job part).intake = s.intake := rfl
@[simp] theorem toss_parsing (s : State) (job part : Nat) : (Machine.toss s job part).parsing = s.parsing := rfl
@[simp] theorem toss_tills (s : State) (job part : Nat) : (Machine.toss s job part).tills = s.tills := rfl
@[simp] theorem toss_tallies (s : State) (job part : Nat) : (Machine.toss s job part).tallies = s.tallies := rfl
@[simp] theorem toss_progs (s : State) (job part : Nat) : (Machine.toss s job part).progs = s.progs := rfl
@[simp] theorem toss_ctxs (s : State) (job part : Nat) : (Machine.toss s job part).ctxs = s.ctxs := rfl
@[simp] theorem toss_tiles (s : State) (job part : Nat) : (Machine.toss s job part).tiles = s.tiles := rfl
@[simp] theorem toss_hbm (s : State) (job part : Nat) : (Machine.toss s job part).hbm = s.hbm := rfl
@[simp] theorem toss_faults (s : State) (job part : Nat) : (Machine.toss s job part).faults = s.faults := rfl
@[simp] theorem toss_bridge (s : State) (job part : Nat) : (Machine.toss s job part).bridge = s.bridge := rfl
@[simp] theorem toss_relays (s : State) (job part : Nat) : (Machine.toss s job part).relays = s.relays := rfl
@[simp] theorem toss_jobFree (s : State) (job part : Nat) : (Machine.toss s job part).jobFree = s.jobFree := rfl
@[simp] theorem toss_ledger (s : State) (job part : Nat) : (Machine.toss s job part).ledger = s.ledger := rfl
@[simp] theorem toss_spdm (s : State) (job part : Nat) : (Machine.toss s job part).spdm = s.spdm := rfl
@[simp] theorem toss_doe (s : State) (job part : Nat) : (Machine.toss s job part).doe = s.doe := rfl
@[simp] theorem toss_fresh (s : State) (job part : Nat) : (Machine.toss s job part).fresh = s.fresh := rfl
@[simp] theorem toss_pending (s : State) (job part : Nat) : (Machine.toss s job part).pending = s.pending := rfl

@[simp] theorem jobWait_now (s : State) (job c n : Nat) : (Machine.jobWait s job c n).now = s.now := rfl
@[simp] theorem jobWait_boot (s : State) (job c n : Nat) : (Machine.jobWait s job c n).boot = s.boot := rfl
@[simp] theorem jobWait_tick (s : State) (job c n : Nat) : (Machine.jobWait s job c n).tick = s.tick := rfl
@[simp] theorem jobWait_tables (s : State) (job c n : Nat) : (Machine.jobWait s job c n).tables = s.tables := rfl
@[simp] theorem jobWait_host (s : State) (job c n : Nat) : (Machine.jobWait s job c n).host = s.host := rfl
@[simp] theorem jobWait_stats (s : State) (job c n : Nat) : (Machine.jobWait s job c n).stats = s.stats := rfl
@[simp] theorem jobWait_refused (s : State) (job c n : Nat) : (Machine.jobWait s job c n).refused = s.refused := rfl
@[simp] theorem jobWait_ports (s : State) (job c n : Nat) : (Machine.jobWait s job c n).ports = s.ports := rfl
@[simp] theorem jobWait_lanes (s : State) (job c n : Nat) : (Machine.jobWait s job c n).lanes = s.lanes := rfl
@[simp] theorem jobWait_frames (s : State) (job c n : Nat) : (Machine.jobWait s job c n).frames = s.frames := rfl
@[simp] theorem jobWait_stalled (s : State) (job c n : Nat) : (Machine.jobWait s job c n).stalled = s.stalled := rfl
@[simp] theorem jobWait_reorder (s : State) (job c n : Nat) : (Machine.jobWait s job c n).reorder = s.reorder := rfl
@[simp] theorem jobWait_doneMsgs (s : State) (job c n : Nat) : (Machine.jobWait s job c n).doneMsgs = s.doneMsgs := rfl
@[simp] theorem jobWait_blockCounts (s : State) (job c n : Nat) : (Machine.jobWait s job c n).blockCounts = s.blockCounts := rfl
@[simp] theorem jobWait_shapers (s : State) (job c n : Nat) : (Machine.jobWait s job c n).shapers = s.shapers := rfl
@[simp] theorem jobWait_meters (s : State) (job c n : Nat) : (Machine.jobWait s job c n).meters = s.meters := rfl
@[simp] theorem jobWait_pools (s : State) (job c n : Nat) : (Machine.jobWait s job c n).pools = s.pools := rfl
@[simp] theorem jobWait_tandem (s : State) (job c n : Nat) : (Machine.jobWait s job c n).tandem = s.tandem := rfl
@[simp] theorem jobWait_dropping (s : State) (job c n : Nat) : (Machine.jobWait s job c n).dropping = s.dropping := rfl
@[simp] theorem jobWait_intake (s : State) (job c n : Nat) : (Machine.jobWait s job c n).intake = s.intake := rfl
@[simp] theorem jobWait_parsing (s : State) (job c n : Nat) : (Machine.jobWait s job c n).parsing = s.parsing := rfl
@[simp] theorem jobWait_tills (s : State) (job c n : Nat) : (Machine.jobWait s job c n).tills = s.tills := rfl
@[simp] theorem jobWait_tallies (s : State) (job c n : Nat) : (Machine.jobWait s job c n).tallies = s.tallies := rfl
@[simp] theorem jobWait_progs (s : State) (job c n : Nat) : (Machine.jobWait s job c n).progs = s.progs := rfl
@[simp] theorem jobWait_ctxs (s : State) (job c n : Nat) : (Machine.jobWait s job c n).ctxs = s.ctxs := rfl
@[simp] theorem jobWait_tiles (s : State) (job c n : Nat) : (Machine.jobWait s job c n).tiles = s.tiles := rfl
@[simp] theorem jobWait_hbm (s : State) (job c n : Nat) : (Machine.jobWait s job c n).hbm = s.hbm := rfl
@[simp] theorem jobWait_faults (s : State) (job c n : Nat) : (Machine.jobWait s job c n).faults = s.faults := rfl
@[simp] theorem jobWait_bridge (s : State) (job c n : Nat) : (Machine.jobWait s job c n).bridge = s.bridge := rfl
@[simp] theorem jobWait_relays (s : State) (job c n : Nat) : (Machine.jobWait s job c n).relays = s.relays := rfl
@[simp] theorem jobWait_toss (s : State) (job c n : Nat) : (Machine.jobWait s job c n).toss = s.toss := rfl
@[simp] theorem jobWait_ledger (s : State) (job c n : Nat) : (Machine.jobWait s job c n).ledger = s.ledger := rfl
@[simp] theorem jobWait_spdm (s : State) (job c n : Nat) : (Machine.jobWait s job c n).spdm = s.spdm := rfl
@[simp] theorem jobWait_doe (s : State) (job c n : Nat) : (Machine.jobWait s job c n).doe = s.doe := rfl
@[simp] theorem jobWait_fresh (s : State) (job c n : Nat) : (Machine.jobWait s job c n).fresh = s.fresh := rfl
@[simp] theorem jobWait_pending (s : State) (job c n : Nat) : (Machine.jobWait s job c n).pending = s.pending := rfl

@[simp] theorem record_now (s : State) (origin id kind : Nat) (raw : Bool) (target : Nat) (old new : List Byte) : (Machine.record s origin id kind raw target old new).now = s.now := rfl
@[simp] theorem record_boot (s : State) (origin id kind : Nat) (raw : Bool) (target : Nat) (old new : List Byte) : (Machine.record s origin id kind raw target old new).boot = s.boot := rfl
@[simp] theorem record_tick (s : State) (origin id kind : Nat) (raw : Bool) (target : Nat) (old new : List Byte) : (Machine.record s origin id kind raw target old new).tick = s.tick := rfl
@[simp] theorem record_tables (s : State) (origin id kind : Nat) (raw : Bool) (target : Nat) (old new : List Byte) : (Machine.record s origin id kind raw target old new).tables = s.tables := rfl
@[simp] theorem record_host (s : State) (origin id kind : Nat) (raw : Bool) (target : Nat) (old new : List Byte) : (Machine.record s origin id kind raw target old new).host = s.host := rfl
@[simp] theorem record_stats (s : State) (origin id kind : Nat) (raw : Bool) (target : Nat) (old new : List Byte) : (Machine.record s origin id kind raw target old new).stats = s.stats := rfl
@[simp] theorem record_refused (s : State) (origin id kind : Nat) (raw : Bool) (target : Nat) (old new : List Byte) : (Machine.record s origin id kind raw target old new).refused = s.refused := rfl
@[simp] theorem record_ports (s : State) (origin id kind : Nat) (raw : Bool) (target : Nat) (old new : List Byte) : (Machine.record s origin id kind raw target old new).ports = s.ports := rfl
@[simp] theorem record_lanes (s : State) (origin id kind : Nat) (raw : Bool) (target : Nat) (old new : List Byte) : (Machine.record s origin id kind raw target old new).lanes = s.lanes := rfl
@[simp] theorem record_frames (s : State) (origin id kind : Nat) (raw : Bool) (target : Nat) (old new : List Byte) : (Machine.record s origin id kind raw target old new).frames = s.frames := rfl
@[simp] theorem record_stalled (s : State) (origin id kind : Nat) (raw : Bool) (target : Nat) (old new : List Byte) : (Machine.record s origin id kind raw target old new).stalled = s.stalled := rfl
@[simp] theorem record_reorder (s : State) (origin id kind : Nat) (raw : Bool) (target : Nat) (old new : List Byte) : (Machine.record s origin id kind raw target old new).reorder = s.reorder := rfl
@[simp] theorem record_doneMsgs (s : State) (origin id kind : Nat) (raw : Bool) (target : Nat) (old new : List Byte) : (Machine.record s origin id kind raw target old new).doneMsgs = s.doneMsgs := rfl
@[simp] theorem record_blockCounts (s : State) (origin id kind : Nat) (raw : Bool) (target : Nat) (old new : List Byte) : (Machine.record s origin id kind raw target old new).blockCounts = s.blockCounts := rfl
@[simp] theorem record_shapers (s : State) (origin id kind : Nat) (raw : Bool) (target : Nat) (old new : List Byte) : (Machine.record s origin id kind raw target old new).shapers = s.shapers := rfl
@[simp] theorem record_meters (s : State) (origin id kind : Nat) (raw : Bool) (target : Nat) (old new : List Byte) : (Machine.record s origin id kind raw target old new).meters = s.meters := rfl
@[simp] theorem record_pools (s : State) (origin id kind : Nat) (raw : Bool) (target : Nat) (old new : List Byte) : (Machine.record s origin id kind raw target old new).pools = s.pools := rfl
@[simp] theorem record_tandem (s : State) (origin id kind : Nat) (raw : Bool) (target : Nat) (old new : List Byte) : (Machine.record s origin id kind raw target old new).tandem = s.tandem := rfl
@[simp] theorem record_dropping (s : State) (origin id kind : Nat) (raw : Bool) (target : Nat) (old new : List Byte) : (Machine.record s origin id kind raw target old new).dropping = s.dropping := rfl
@[simp] theorem record_intake (s : State) (origin id kind : Nat) (raw : Bool) (target : Nat) (old new : List Byte) : (Machine.record s origin id kind raw target old new).intake = s.intake := rfl
@[simp] theorem record_parsing (s : State) (origin id kind : Nat) (raw : Bool) (target : Nat) (old new : List Byte) : (Machine.record s origin id kind raw target old new).parsing = s.parsing := rfl
@[simp] theorem record_tills (s : State) (origin id kind : Nat) (raw : Bool) (target : Nat) (old new : List Byte) : (Machine.record s origin id kind raw target old new).tills = s.tills := rfl
@[simp] theorem record_tallies (s : State) (origin id kind : Nat) (raw : Bool) (target : Nat) (old new : List Byte) : (Machine.record s origin id kind raw target old new).tallies = s.tallies := rfl
@[simp] theorem record_progs (s : State) (origin id kind : Nat) (raw : Bool) (target : Nat) (old new : List Byte) : (Machine.record s origin id kind raw target old new).progs = s.progs := rfl
@[simp] theorem record_ctxs (s : State) (origin id kind : Nat) (raw : Bool) (target : Nat) (old new : List Byte) : (Machine.record s origin id kind raw target old new).ctxs = s.ctxs := rfl
@[simp] theorem record_tiles (s : State) (origin id kind : Nat) (raw : Bool) (target : Nat) (old new : List Byte) : (Machine.record s origin id kind raw target old new).tiles = s.tiles := rfl
@[simp] theorem record_hbm (s : State) (origin id kind : Nat) (raw : Bool) (target : Nat) (old new : List Byte) : (Machine.record s origin id kind raw target old new).hbm = s.hbm := rfl
@[simp] theorem record_faults (s : State) (origin id kind : Nat) (raw : Bool) (target : Nat) (old new : List Byte) : (Machine.record s origin id kind raw target old new).faults = s.faults := rfl
@[simp] theorem record_bridge (s : State) (origin id kind : Nat) (raw : Bool) (target : Nat) (old new : List Byte) : (Machine.record s origin id kind raw target old new).bridge = s.bridge := rfl
@[simp] theorem record_relays (s : State) (origin id kind : Nat) (raw : Bool) (target : Nat) (old new : List Byte) : (Machine.record s origin id kind raw target old new).relays = s.relays := rfl
@[simp] theorem record_toss (s : State) (origin id kind : Nat) (raw : Bool) (target : Nat) (old new : List Byte) : (Machine.record s origin id kind raw target old new).toss = s.toss := rfl
@[simp] theorem record_jobFree (s : State) (origin id kind : Nat) (raw : Bool) (target : Nat) (old new : List Byte) : (Machine.record s origin id kind raw target old new).jobFree = s.jobFree := rfl
@[simp] theorem record_spdm (s : State) (origin id kind : Nat) (raw : Bool) (target : Nat) (old new : List Byte) : (Machine.record s origin id kind raw target old new).spdm = s.spdm := rfl
@[simp] theorem record_doe (s : State) (origin id kind : Nat) (raw : Bool) (target : Nat) (old new : List Byte) : (Machine.record s origin id kind raw target old new).doe = s.doe := rfl
@[simp] theorem record_fresh (s : State) (origin id kind : Nat) (raw : Bool) (target : Nat) (old new : List Byte) : (Machine.record s origin id kind raw target old new).fresh = s.fresh := rfl
@[simp] theorem record_pending (s : State) (origin id kind : Nat) (raw : Bool) (target : Nat) (old new : List Byte) : (Machine.record s origin id kind raw target old new).pending = s.pending := rfl

/-- A vector whose entry is not masked is raised; a masked one is left pending (13 R390). -/
theorem raiseVector_unmasked {s : State} {v : Nat} (h : (sget {} s.host.msixTable v).masked = false) :
    (raiseVector s v).host.msix = s.host.msix ++ [v] := by simp only [raiseVector, h, Bool.false_eq_true, if_false]

theorem raiseVector_masked {s : State} {v : Nat} (h : (sget {} s.host.msixTable v).masked = true) :
    (raiseVector s v).host.msix = s.host.msix ∧ (raiseVector s v).host.pba = s.host.pba ||| BitVec.ofNat 64 (2 ^ v) := by
  constructor <;> simp only [raiseVector, h, if_true]

/-- What a setter wrote is what its reader finds, and no other key is disturbed. -/
theorem portAt_setPort (s : State) (p q : Nat) (v : Port) (h : canon {} s.ports = true) :
    portAt (setPort s p v) q = if q = p then v else portAt s q := by
  by_cases e : q = p
  · subst e; simpa [portAt, setPort] using sget_sput_same h
  · simpa [portAt, setPort, e] using sget_sput_other e

theorem tillAt_setTill (s : State) (n m : Nat) (v : Till) :
    tillAt (setTill s n v) m = if m = n then some v else tillAt s m := by
  by_cases e : m = n
  · subst e; simpa [tillAt, setTill] using ofind_oins_same s.tills m v
  · simpa [tillAt, setTill, e] using ofind_oins_other s.tills v e

theorem tallyAt_setTally (s : State) (n m : Nat) (v : Tally) :
    tallyAt (setTally s n v) m = if m = n then some v else tallyAt s m := by
  by_cases e : m = n
  · subst e; simpa [tallyAt, setTally] using ofind_oins_same s.tallies m v
  · simpa [tallyAt, setTally, e] using ofind_oins_other s.tallies v e

theorem regionAt_setRegion (s : State) (n m : Nat) (v : Region) :
    regionAt (setRegion s n v) m = if m = n then some v else regionAt s m := by
  by_cases e : m = n
  · subst e; simpa [regionAt, setRegion] using ofind_oins_same s.hbm.regions m v
  · simpa [regionAt, setRegion, e] using ofind_oins_other s.hbm.regions v e

end Sys2Proof.Laws
end

