-- ==== Sys2Proof/Tests/Slice0.lean ====
section
/-! SUPPORT. The model's own tests: terms that WellFormed refuses, the spec's worked examples, and for every clause of every statement
a state and operands that meet its hypotheses together. -/

namespace Sys2Proof.Tests

open Sys2Proof.Machine Sys2Proof.Safety

set_option Elab.async false

/-- The command of a statement answers a next state. -/
theorem next_of {c : Instr} {s : State} {P : State → Prop} (h : leads c s P) : ∃ t, exec c s = .next t :=
  let ⟨t, h, _⟩ := h
  ⟨t, h⟩

/-- No till waits where there is none. -/
theorem no_till {s : State} (e : s.tills = []) : ∀ m y, tillAt s m = some y → y.st = .waitAdmit → grantTill s m y.words y.shard = none :=
  fun m y h => by simp [tillAt, ofind, e] at h

/-- The only till is not before itself. -/
theorem only_till {s : State} {n : Nat} {x : Till} (e : s.tills = [(n, x)]) :
    ∀ m y, tillAt s m = some y → isBefore x.order y = true → grantTill s m y.words y.shard = none := by
  intro m y h b
  by_cases k : n = m <;> simp [tillAt, ofind, e, k] at h
  subst h
  simp [isBefore] at b

theorem of_not {b : Bool} (h : (!b) = true) : b = false := by
  cases b
  · rfl
  · cases h

theorem test_reset_memory : Memory.wf State.reset.hbm.mem = true := by decide

/-! ### States and operands -/

/-- FCLK runs, nothing else has happened. -/
def sRun : State := { State.reset with boot := { State.reset.boot with phase := .run } }

/-- A descriptor by its opcode and D1-D4. -/
def dOf (op : Nat) (d1 d2 d3 d4 : W64 := 0) : Desc :=
  { d0 := BitVec.ofNat 64 (op * 2 ^ 56), d1 := d1, d2 := d2, d3 := d3, d4 := d4, d5 := 0, d6 := 0, d7 := 0 }

/-- The command stands at the head of ring 0, a privileged ring, and completion ring 0 is enabled. -/
def onRing (s : State) (d : Desc) : State :=
  { s with host := { s.host with cmd := [(0, { ctl := 0xC0000006, pi := 1, slots := [.got d] })], cpl := [(0, { ctl := 0x80000006 })] } }

def sCmd (d : Desc) : State := onRing sRun d

/-- A host interface with a watched line, rings, a read and a write under way. -/
def sHost : State :=
  { sRun with now := 50000, host := { sRun.host with
      cmd := [(0, { ctl := 0x80000006, slots := [.reading 3] })],
      cpl := [(1, { ctl := 0x85000106, wi := 1, since := 1, firstAt := some 0 })],
      ev := [(2, { ctl := 0x85000106, since := 1, firstAt := some 0 })],
      watch := [(0, { addr := 0x40, ctl := 0x80000000, held := true }), (1, { addr := 0x80, ctl := 0x80000000, reading := true }),
        (2, { addr := 0xC0, ctl := 0xA0800000, reading := true }), (3, { addr := 0x100, ctl := 0xC1000000, reading := true })],
      reads := [(3, .fetch 0 0)], writes := [(4, { addr := 0, data := [], kind := .copy 0 0 }), (5, { addr := 0, data := [], kind := .ci 0 })],
      ready := [{ cring := 1, entries := [[0, 0, 0, 0]] }], cxlUp := true } }

/-- A completion ready for a ring that nothing watches. -/
def sNoRoom : State :=
  { sRun with host := { sRun.host with cpl := [(0, { ctl := 0x80000006 })], ready := [{ cring := 0, entries := [[0, 0, 0, 0]] }] } }

/-- A NOP on a ring that has a CI_ADDR, and a failed fetch behind it. -/
def sCi : State :=
  { sRun with host := { sRun.host with
      cpl := [(0, { ctl := 0x80000006 })],
      cmd := [(0, { ctl := 0xC0000006, ciAddr := 0x2000, pi := 2, slots := [.got (dOf 0), .failed] })] } }

/-- A die with a halted tile, status bits set, a kickstand latch set and a write refused. -/
def sRegs : State :=
  { sRun with now := 100, refused := 0xC0012340, tiles := { sRun.tiles with ready := true, haltState := 1, haltTile := 5 },
              stats := [(0, { status := 5, enable := 1 }), (16, { status := 1, tiles := 3 })],
              host := { sRun.host with watch := [(3, { addr := 0x1000, ctl := 0x80000000, held := true })] },
              ports := [(2, { conf := true, kick := { latch := true } })] }

/-- A write to STATUS whose bits clear in this cycle. -/
def sClears : State := { sRegs with stats := [(0, { status := 5, enable := 1, clearing := some (99, 4) })] }

/-- Port 2 with its kickstand entry enabled. -/
def sKickOn : State := { sRegs with tables := { sRegs.tables with active := [(tkey 0x38 2, [0x8000000000000000])] } }
/-- The steward runs. -/
def sStw : State := { sRun with now := 2000, boot := { sRun.boot with steward := true } }

/-- An open SPDM connection, with a chain. -/
def sSpdm : State :=
  { sStw with boot := { sStw.boot with certChain := [1, 2, 3, 4, 5] }, spdm := { version := true, caps := true, algs := true } }

/-- An entry for the ledger. -/
def chg (kind : Byte) : Change :=
  { tick := 0, ofs := 0, origin := 2, originId := 0, kind := kind, raw := true, target := 1, old := [], new := [] }

/-- A ledger with one entry waiting, and the last taken long ago. -/
def sLdg : State :=
  { sStw with ledger := { recording := true, queue := [chg 7], lastAt := some 1840, unsealedAt := some 5, mirrorEn := true, mirrorLog := 6,
                          seq := 1, store := [(0, List.replicate 64 7)] } }

/-- The same when the SEAL entry comes out, and when its last signature does. -/
def sSeal : State := { sLdg with ledger := { sLdg.ledger with sealing := some (1, 0, 0), queue := [chg 0x30] } }
def sSig : State :=
  { sLdg with stats := [(srcSteward, { status := 8 })],
              ledger := { sLdg.ledger with sealing := some (1, 0, 0), seq := 17, queue := [chg 0x31] } }

/-- A ledger command at the head of ring 0. -/
def sLc (d : Desc) : State := onRing sLdg d

/-- The flash directory, and an item, of the smallest form. -/
def dirBytes (items : List (Nat × Nat × List Byte)) : List Byte :=
  let es := (items.map fun x => [BitVec.ofNat 8 x.1, BitVec.ofNat 8 x.2.1] ++ List.replicate 6 0 ++ leBytes 4 x.2.2.length ++
    leBytes 4 (crc32 x.2.2)).flatten
  let h := leBytes 4 0x44374E58 ++ [1, BitVec.ofNat 8 items.length] ++ List.replicate 6 0
  h ++ leBytes 4 (crc32 (h ++ es)) ++ es

/-- Cycle 0 onwards, before firmware. -/
def sFw : State := { sRun with now := 2000 }
def fItem : List Byte := [1, 2, 3]
def fDir : FlashDir := { first := dirBytes [(1, 0, fItem)], second := [] }

/-- Firmware with both fuse flags, sealed. -/
def sFuse : State :=
  { sLdg with
      boot := { sLdg.boot with fw := some ⟨0, 1, 1, 3, 1, true, true, 0⟩ },
      ledger := { sLdg.ledger with sealed := true } }

/-- The same when nothing is fused. -/
def sFuse0 : State :=
  { sFuse with boot := { sFuse.boot with fw := sFuse.boot.fw.map fun f => { f with commitSvn := false, keySlot := 0 } } }

/-- RST_N high, and SYNC_N released. -/
def sPll : State := { State.reset with boot := { State.reset.boot with phase := .plls } }
def sSync : State := { State.reset with boot := { State.reset.boot with phase := .sync } }
def fuses1 : Fuses := State.reset.boot.fuses
/-- Straps of an XN7-F sampled. -/
def sTiles : State := { sRun with boot := { sRun.boot with strap := 0x1000, sampled := true } }
/-- The same with the steward lost, or under a warm reset. -/
def sGone : State :=
  { sFuse with boot := { sFuse.boot with steward := false, lostSets := [3] }, ledger := { sFuse.ledger with sealing := some (1, 0, 0) } }
def sBadImage : State :=
  { sGone with boot := { sGone.boot with quietNext := true, ready := 0xFFFFFFFF }, faults := { sGone.faults with image := true } }
def sWarm : State := { sGone with boot := { sGone.boot with warm := true } }
/-- A device hot already. -/
def sHot : State := { sRun with now := 100 }
def sStwHeld : State := { sStw with boot := { sStw.boot with held := true } }
def sUnprov : State := { sSpdm with boot := { sSpdm.boot with unprovisioned := true } }
def sLdgEarly : State := { sLdg with now := 1999 }
def sUnsealed : State := { sLdg with now := 1600000005 }
def dMirror : Desc := dOf 0x51 0x60001 0x4000 0x8000
def dLread : Desc := dOf 0x50 0x20000 0x4000
def dLreadNo : Desc := dOf 0x50 0x10001 0x4000
def sJtag : State := { sRun with boot := { sRun.boot with strap := 0x300 } }
def noDir : FlashDir := { first := [], second := [] }
def fwFuse : Firmware := ⟨0, 1, 1, 3, 1, true, true, 0⟩
def sSealing : State := { sFuse with ledger := { sFuse.ledger with sealing := some (1, 0, 0) } }
/-- An edge port with its link up. -/
def pEdge : Port :=
  { conf := true, plan := 0x2000000000000000 ||| (0x200 <<< 36) ||| (0x7FF <<< 16), lanes := [0],
    link := { st := .up, started := true }, q := { credit := [64, 64, 64, 64, 64, 64, 64, 64] } }
/-- A switch port with its link up: the tandem port. -/
def pSwitch : Port := { pEdge with plan := 0x2100000000000000 ||| (0x300 <<< 36) ||| (0x7FF <<< 16), lanes := [32] }
/-- An entry of a table. -/
def ent (tid i : Nat) (l : List W64) : Nat × List W64 := (tkey tid i, l)
def kickWords : List W64 := [0xA000100020000000, 0x6400000000] ++ List.replicate 32 7
/-- An aligned X7 with endpoint 0x100, an edge port 0 that leads to endpoint 0x200 and a switch port 32. -/
def sNet : State :=
  { sStw with
      boot := { sStw.boot with capEndpoint := 0x80000100, allIdle := false },
      tick := { num := 5, start := 1900, running := true, len := 8000, state := 1 },
      ports := [(0, pEdge), (32, pSwitch)],
      tables := { sStw.tables with active := [ent 0x12 2 [0x40000000], ent 0x13 0 [0x8000]] } }
/-- The same with its kickstand, a watch, and tandem. -/
def sKs : State :=
  { sNet with
      tables := { sNet.tables with active := [ent 0x12 2 [0x40000000], ent 0x13 0 [0x8000], ent 0x28 0 [0xE000000000000064, 0, 0, 0],
        ent 0x38 0 kickWords] } }
/-- The latch set in an earlier tick, and a kickstand due. -/
def pend : KickPend := { cause := 7, till := 0, cycle := 1900, tick := 5, ofs := 100, words := kickWords }
def sDue : State :=
  { sKs with ports := [(0, { pEdge with kick := { latch := true, pending := [pend] } }), (32, pSwitch)] }
def entTandem : List (Nat × List W64) := [ent 0x30 0 [0x840000001400 ||| 0x84000000140000C8]]
/-- Tandem with slot 0 on port 0. -/
def sTan : State :=
  { sKs with
      tables := { sKs.tables with active := [ent 0x12 2 [0x40000000], ent 0x13 0 [0x8000], ent 0x30 0 [0x8400000014000000 + 200],
        ent 0x31 0 [0x8000], ent 0x38 0 kickWords] },
      tandem := { stateAt := some 1900 } }
/-- A ring command on sNet. -/
def sN (d : Desc) : State := onRing sNet d
def dHost (op : Nat) (d1 : W64) : Desc := dOf op d1 0x4000
/-- A table staged for a set, and the set armed. -/
def aSet : Armed :=
  { set := 3, tables := [0x24], tick := 5, routeGen := 7, rmapGen := 8, mask := 0, ring := 0, d0 := 0, acceptTick := 4, acceptOfs := 0,
    acceptAt := 100 }
def stg : Staged := { tid := 0x24, set := 3, entries := [(4, [0x8001])], refused := 0 }
def sArmed : State :=
  { sNet with host := { sNet.host with cpl := [(0, { ctl := 0x80000006 })] },
              tables := { sNet.tables with staged := [stg], armed := [aSet] } }
def sArmedBad : State := { sArmed with tables := { sArmed.tables with staged := [{ stg with refused := 1 }] } }
def aRoute : Armed := { aSet with tables := [0x12], mask := 0xFF }
def stgRoute : Staged := { tid := 0x12, set := 3, entries := [(2, [0x40000000]), (3, [0x40000000])], refused := 0 }
def sRoute : State := { sArmed with tables := { sArmed.tables with staged := [stgRoute], armed := [aRoute] } }
def aLen : Armed := { aSet with tables := [1] }
def stgLen : Staged := { tid := 1, set := 3, entries := [(0, [16000])], refused := 0 }
def sLen : State := { sArmed with tables := { sArmed.tables with staged := [stgLen], armed := [aLen] } }
def aDrain : Armed := { aSet with mask := 0x10, tick := 6 }
def sDrain : State := { sArmed with tables := { sArmed.tables with armed := [aDrain] } }
def sOver : State :=
  { sNet with tables := { sNet.tables with overflow := [ent 0x11 9 [0x80000005]], overflowMask := 1 } }
def sSample : State := { sNet with tick := { sNet.tick with sampleNow := 100 } }
/-- Set 3 armed for a tick far ahead. -/
def sCan (d : Desc) : State := onRing { sNet with tables := { sNet.tables with armed := [{ aSet with tick := 9 }] } } d
def sUna (d : Desc) : State := onRing { sNet with tick := { sNet.tick with state := 0 } } d
/-- The tick is over. -/
def sTickEnd : State := { sNet with now := 9900 }
/-- An unaligned X7 with tick port 32. -/
def sOffer : State :=
  { sNet with
      boot := { sNet.boot with tickPorts := [some 32, none, none, none] }, tick := { len := 8000 },
      ports := [(0, pEdge), (32, { pSwitch with link := { pSwitch.link with nbrTstate := 2 } })] }
def offerH : Header := { blankHeader with type := 0xB, cls := 6, dest := 0x100, src := 0x300, aux := 0x01000000 }
def fOffer : Frame := mkFrame offerH (padTo 32 (leBytes 6 77 ++ leBytes 2 0 ++ leBytes 4 100 ++ [0, 2]))
def recB (kind crc : Nat) : List Byte := [BitVec.ofNat 8 kind, 0] ++ leBytes 3 0x200 ++ leBytes 2 9 ++ leBytes 3 0 ++ leBytes 2 5 ++ leBytes 4 crc
def fRec (kind crc : Nat) : Frame := mkFrame { offerH with aux := 0x10000000 } (recB kind crc ++ List.replicate 16 0)
def ownRec : TandemRec := { slot := 0, src := 0x200, seq := 9, offset := 0, tick := 5, crc := 55, at_ := 1900 }
def inRec (kind crc : Nat) : Intake := { frame := fRec kind crc, port := 32, arrival := 1950 }
def sTwin (kind crc : Nat) (own : List TandemRec) : State :=
  { sTan with intake := [inRec kind crc], tandem := { sTan.tandem with own := own } }
def sExp : State := { sTan with now := 2100, tandem := { sTan.tandem with own := [ownRec], twin := [ownRec] } }
def sGoneTwin : State := { sTan with ports := [(0, pEdge), (32, { pSwitch with link := { pSwitch.link with st := .quiet } })] }
def fMgmt : Frame := mkFrame { offerH with aux := 0x20000000 } []
def iMgmt : Intake := { frame := fMgmt, port := 0, arrival := 1 }
def sMgmt : State := { sNet with intake := [iMgmt] }
def dStage : Desc := dOf 0x38 (0x240003 + (4 <<< 23) + (2 <<< 43)) 0x4000
def dStageNo : Desc := dOf 0x38 (0x7F0003 + (1 <<< 43)) 0x4000
def dStageT : Desc := dOf 0x38 (0x300003 + (1 <<< 43)) 0x4000
def sNoTandem (d : Desc) : State :=
  let s := sN d
  { s with boot := { s.boot with fuses := { s.boot.fuses with grade := 3 } } }
def dStage0 : Desc := dOf 0x38 (0x240003 + (4 <<< 23)) 0x4000
def dArm : Desc := dOf 0x39 (3 + (7 <<< 24)) 8
def dCancel : Desc := dOf 0x3A 3
/-- What the neighbour's rotation says: endpoint id16 0x200 on port 0, routing generations 0, TICK_LEN 8000, four units of credit. -/
def rotBytes (id nsl : Nat) : List Byte :=
  let b := [0, BitVec.ofNat 8 nsl] ++ beBytes 2 0 ++ beBytes 2 id ++ beBytes 2 0 ++ beBytes 2 0 ++ beBytes 4 8000 ++ beBytes 4 0 ++ beBytes 2 0 ++
    [0, 0x60] ++ beBytes 3 0 ++ [1] ++ List.replicate 11 0 ++ List.replicate 8 4 ++ List.replicate 17 0
  b ++ beBytes 2 (pbCrc b)
def edgeLink : Link := { pEdge.link with nbr := rotBytes 0x200 0, nbrTstate := 1, delay := 3 }
/-- An edge port whose neighbour has shown itself. -/
def sFr : State :=
  { sNet with
      ports := [(0, { pEdge with link := edgeLink }), (32, pSwitch)],
      tables := { sNet.tables with active := [ent 0x10 9 [0x8000000000000000], ent 0x12 2 [0x40000000], ent 0x12 3 [0x40000001],
        ent 0x13 0 [0x8000], ent 0x13 256 [0x8020]] } }
def sFrLater : State := { sFr with parsing := [(0, fMgmt, 1990)] }
def dataH : Header := { blankHeader with type := 0, cls := 3, dest := 0x300, src := 0x200, job := 9, last := 1 }
def fData : Frame := mkFrame dataH (List.replicate 64 5)
def hData : Header := headerOf fData.hdr
def fBadCrc : Frame := { fData with hdr := fData.hdr ^^^ 1 }
def fMalformed : Frame := mkFrame { dataH with dest := 0xFFFFF, rsv1 := 1 } []
def fLost : Frame := mkFrame { dataH with dest := 0x500 } []
def fOwn : Frame := mkFrame { dataH with dest := 0x100, type := 6 } []
def fWrong : Frame := mkFrame { dataH with src := 0x201 } []
/-- Frames queued at port 32. -/
def qEnt (fid c : Nat) : Entry :=
  { fid := fid, frame := mkFrame { dataH with cls := BitVec.ofNat 3 c, xp := if c = 7 then 1 else 0 } [], cls := c, src := 0, arrival := 1900, ready := 1990 }
def held1 (c : Nat) : Held := { slice := 0, cells := 1, job := 9, cls := c, copies := 1, credit := some (0, 1) }
def sQ (c : Nat) (quanta : W64) : State :=
  { sFr with
      ports := [(0, { pEdge with link := edgeLink }), (32, { pSwitch with q := { pSwitch.q with queue := [qEnt 1 c], turn := 5 } })],
      frames := [(1, held1 c)], fresh := 5,
      tables := { sFr.tables with active := sFr.tables.active ++ [ent 0x20 32 [quanta]] } }
def sCutL : State :=
  { sFr with
      ports := [(0, { pEdge with link := edgeLink }),
                (32, { pSwitch with q := { pSwitch.q with lane := .frame (qEnt 1 3) 1980 9, stallFrom := some 1990 } })],
      frames := [(1, held1 3)], now := 6086 }
def sOwed : State :=
  { sFr with ports := [(0, { pEdge with link := edgeLink, q := { pEdge.q with owed := [3, 0, 0, 70000, 0, 0, 0, 0] } }), (32, pSwitch)] }
def sComing : State := { sFr with ports := [(0, pEdge), (32, { pSwitch with q := { pSwitch.q with coming := List.replicate 8 3 } })] }
def aEnt : Entry := { qEnt 1 6 with aligned := some (4, 2000), ready := 1990, src := 16 }
def sAl : State :=
  { sFr with ports := [(0, { pEdge with link := edgeLink, q := { pEdge.q with queue := [aEnt] } }), (32, pSwitch)], fresh := 5 }
def rctx : Reorder :=
  { pg := 1, src := 0x200, job := 9, seq := 7, port := 32, cls := 3, expect := 0, held := [qEnt 1 3], timer := 500, pass := false }
def sReo : State := { sFr with reorder := [rctx], frames := [(1, held1 3)] }
/-- Links. -/
def sLd (op : Nat) : State :=
  onRing { sFr with
    boot := { sFr.boot with ready := 1, planWords := [(0, pEdge.plan)] }, ledger := { recording := true },
    ports := [(0, { pEdge with link := edgeLink, q := { pEdge.q with queue := [qEnt 1 3] } }), (32, pSwitch)],
    frames := [(1, held1 3)] } (dOf op 0)
def sUpDown : State :=
  onRing { sFr with
    boot := { sFr.boot with ready := 1, planWords := [(0, pEdge.plan)] },
    ports := [(32, pSwitch)] } (dOf 0x41 0)
/-- A block with data of zeroes, or with twenty symbols of it changed, scrambled from a state that its lane holds. -/
def lbOf (h : BitVec 80) (bad : Bool) : LaneBlock :=
  { lane := 0, arrival := 279000, raw := wireBlock h 0 0x7FFFFFFF false ^^^ (if bad then (2 ^ 200 - 1) * 2 ^ 900 else 0), decoded := none }
def lb (bsn : BitVec 12) (bad : Bool) : LaneBlock := lbOf (laneHeader sFr 0 0 bsn) bad
def lbAgain : LaneBlock := lbOf (copyHeader edgeLink (laneHeader sFr 0 0 9)) true
def blk (l : Link) : State :=
  { sFr with ports := [(0, { pEdge with link := l }), (32, pSwitch)], lanes := [(0, { lock := true, rxScr := some 0x7FFFFFFF })] }
def sBlk : State := blk { edgeLink with ack := 8 }
def nakH : BitVec 80 := laneHeader (blk { edgeLink with ack := 20, waiting := true }) 0 0 5
def sNak : State := blk { edgeLink with replay := [19, 20, 21, 22].map fun n => { bsn := n, heads := [0], data := [0] } }
def lane0 : Lane := { lock := true, rotation := rotBytes 0x200 0, ready := true, bookOk := true, rxScr := some 0x7FFFFFFF }
def linkAs (l : Link) : State := { blk l with lanes := [(0, lane0)], boot := { sFr.boot with eq := [(0, [0, 0, 0, 0])] } }
def sQuiet : State := linkAs { st := .quiet, since := 976 }
def sTrain : State := linkAs { st := .train, since := 1500 }
def sMeas : State := linkAs { st := .measure, since := 1500, echoes := [400, 401, 402, 400] }
def sTrainLate : State := { linkAs { st := .train, since := 1500 } with now := 21500, lanes := [] }
def sCheck : State := linkAs { st := .check, since := 1500, delay := 1, nbrTstate := 1, lastIn := some (63, 270000) }
def sCheckDue : State := linkAs { st := .check, since := 1500, delay := 1, due := [(1990, .state 0)] }
def sDeg : State := { linkAs { edgeLink with degrading := true, fencedAt := some 1000 } with now := 66536 }
/-- Words of the small tills used here: two chunks of one block of FP32, two members. -/
def tW0 (standing tick adm : Nat) : W64 :=
  BitVec.ofNat 64 (2 ^ 52 + 9 * 2 ^ 44 + 3 * 2 ^ 28 + standing * 2 ^ 27 + tick * 2 ^ 26 + adm * 2 ^ 25)
def tWordsOf (w0 : W64) : List W64 :=
  [w0, BitVec.ofNat 64 (10 * 2 ^ 59 + 30 * 2 ^ 24 + 2 * 2 ^ 8), BitVec.ofNat 64 (10 * 2 ^ 59 + 2 ^ 49 + 2 ^ 21 + 2 ^ 13 + 2 * 2 ^ 10),
    BitVec.ofNat 64 (32 * 2 ^ 32 + 2 ^ 23 + 2 * 2 ^ 12), BitVec.ofNat 64 (2 ^ 48 + 1), BitVec.ofNat 64 (1000 * 2 ^ 32 + 2 ^ 16), 0, 0, 0, 0x8000,
    0, 0, 0, 0, 0, 0]
def shEnt (kind rank ep child first count : Nat) : List W64 :=
  [BitVec.ofNat 64 (kind * 2 ^ 62 + rank * 2 ^ 48 + ep * 2 ^ 28 + child * 2 ^ 16), BitVec.ofNat 64 (first * 2 ^ 22),
    BitVec.ofNat 64 (count * 2 ^ 40), 0]
def twoMembers : List W64 := shEnt 0 5 0x200 0 0 2 ++ shEnt 0 6 0x201 0 0 2
def tObj (standing tick adm : Nat) : TillObj :=
  { words := tWordsOf (tW0 standing tick adm), shard := twoMembers, scales := [], fuse := [] }
def objBad : TillObj := { tObj 0 0 0 with words := [] }
/-- A MAX till with weights, and a scale table that is not one. -/
def objWeighted : TillObj :=
  { tObj 1 0 0 with words := (tWordsOf (tW0 1 0 0)).set 1 (BitVec.ofNat 64 (10 * 2 ^ 59 + 30 * 2 ^ 24 + 2 * 2 ^ 8 + 2 ^ 56 + 2 ^ 7)) }
def objScale : TillObj :=
  { tObj 1 0 0 with words := (tWordsOf (tW0 1 0 0)).set 1 (BitVec.ofNat 64 (10 * 2 ^ 59 + 2 * 2 ^ 54 + 30 * 2 ^ 24 + 2 * 2 ^ 8)), scales := [0xFF] }
/-- TILL_OPEN on an X7 whose tiles are ready, and on one whose tiles are not. -/
def dOpen : Desc := dOf 0x10 0x4000
def sReady : State := { sNet with tiles := { sNet.tiles with ready := true } }
def sOpen : State := onRing sReady dOpen
def sNotYet : State := onRing sNet dOpen
/-- An open till 1. -/
def mkT (standing tick : Nat) : Till :=
  { st := .open, words := tWordsOf (tW0 standing tick 0), shard := twoMembers, scales := [], fuse := [],
    chunks := [blankChunk 3, blankChunk 3], epoch := 3, order := 0 }
def tOpen : Till := mkT 1 0
def sTill (x : Till) : State := { sReady with tills := [(1, x)], fresh := 5 }
def acc0 : Accept := { ring := 0, d0 := 0, tick := 5, ofs := 0, obj := 1 }
def tOpening : Till := { tOpen with st := .opening, by_ := some acc0 }
def tWait : Till := { tOpen with st := .waitAdmit, by_ := some acc0, waitAt := some 1900 }
def tWaiting : Till := { tOpen with waitAt := some 1000 }
def tWaitT : Till := { mkT 1 1 with st := .waitAdmit, by_ := some acc0, waitAt := some 1900 }
def sT (x : Till) (d : Desc) : State := onRing (sTill x) d
def dT (op : Nat) : Desc := dOf op 1
def tFill : Till := { tOpen with chunks := [{ blankChunk 3 with st := .filling, bitA := [0], bitB := [0] }, blankChunk 3] }
def cRetire : Chunk := { blankChunk 3 with st := .filling, bitA := [0, 1], bitB := [0, 1], retire := 1990 }
def tRetire : Till := { tOpen with chunks := [cRetire, blankChunk 3] }
def tSave : Till := { tOpen with st := .open }
def dExc : Desc := dOf 0x16 (1 + 2 ^ 12) 5
def dExcLater : Desc := dOf 0x16 (1 + 2 ^ 12) 6
def tStop : Till := { tOpen with st := .stopped }
def noTick (s : State) : State := { s with tick := { s.tick with len := 0 } }
def tResuming : Till := { tStop with resuming := some acc0 }
def tSaved : Till := { tOpen with st := .saved }
def imgOf (x : Till) : TillImage :=
  { digest := descDigest x.words, till := 1, job := 9, format := 1, chunks := x.chunks, checksOk := true }
def dRest : Desc := dOf 0x14 (1 + 2 ^ 12) 0x8000
def slabsOf (s : State) (x : Till) : List (Nat × Block) := ((grantTill s 1 x.words x.shard).map (·.2)).getD []
def uOf (s : State) (x : Till) : State := ((grantTill s 1 x.words x.shard).map (·.1)).getD s
def drn (k : DrainKind) : Drain := { c := 1900, kind := k, by_ := some acc0 }
def tDrain (k : DrainKind) : Till := { tOpen with drains := [drn k] }
def tWrit : Till := { tOpen with st := .draining, image := some (imgOf tFill), by_ := some acc0, drains := [] }
def tLoad : Till := { tSaved with loading := some (imgOf tFill, some acc0), slabs := slabsOf sReady tSaved }
def tPre : Till := { tSaved with preempted := true, image := some (imgOf tFill) }
/-- A contribution. -/
def cH (rank job off : Nat) : Header :=
  { blankHeader with type := 1, cls := 4, dest := 0x100, src := 0x200, job := BitVec.ofNat 8 job, till := 1, epoch := 3,
                     rank := BitVec.ofNat 14 rank, fmt := 10, offset := BitVec.ofNat 24 off, aux := 1 }
def fContrib (rank job off : Nat) : Frame := mkFrame (cH rank job off) (List.replicate 64 0)
def sIn (x : Till) (f : Frame) : State := { sTill x with intake := [{ frame := f, port := 0, arrival := 1990 }] }
/-- An INNER till with a child, W48 partials. -/
def tInnerW : List W64 :=
  (tWordsOf (tW0 1 0 0 ||| 0x400000)).set 1 (BitVec.ofNat 64 (10 * 2 ^ 59 + 30 * 2 ^ 24 + 2 * 2 ^ 8 + 16 * 2))
    |>.set 4 (BitVec.ofNat 64 (2 ^ 48 + 0x200 * 2 ^ 28 + 7 * 2 ^ 16 + 1)) |>.set 5 (BitVec.ofNat 64 (5 * 2 ^ 16))
def tInn : Till :=
  { tOpen with words := tInnerW, shard := shEnt 0 5 0x200 0 0 2 ++ shEnt 1 0 0x201 4 0 2 }
def fPartial : Frame :=
  mkFrame { cH 0 9 0 with type := 3, src := 0x201, fmt := 16 } (List.replicate 128 0)
def fSummary : Frame :=
  mkFrame { cH 0 9 0 with type := 3, src := 0x201, fmt := 16, aux := 0x80000000 } (List.replicate 32 1)
def fResend : Frame :=
  mkFrame { cH 0 9 0 with type := 9, cls := 6, aux := 0x14000000 } []
/-- Timers that have run out. -/
def tTimer (rounds : Nat) : Till :=
  { tOpen with chunks := [{ blankChunk 3 with st := .filling, bitA := [0], bitB := [0], timerAt := some 1999, rounds := rounds }, blankChunk 3] }
def tSumT (rounds : Nat) : Till := { tInn with sumTimers := [(1, 1999, rounds)] }
def tEarlyT : Till :=
  { tInn with words := tInnerW.set 0 (tW0 1 0 0 ||| 0x1400000),
              chunks := [{ blankChunk 3 with st := .filling, bitA := [0], bitB := [0], efAt := some 1999 }, blankChunk 3] }
/-- Chunks that have left. -/
def tMint (standing : Nat) : Till := { mkT standing 0 with chunks := [{ blankChunk 3 with st := .minting }, { blankChunk 3 with st := .done }] }
def tMint2 : Till := { mkT 0 0 with chunks := [{ blankChunk 3 with st := .minting }, { blankChunk 3 with st := .filling }] }
def tLate : Till :=
  { mkT 1 1 with chunks := [{ blankChunk 3 with st := .filling }, { blankChunk 3 with st := .done }], cnt := { dueAt := some 1999 } }
/-- Programs: a general one that copies elements of the window, and an update program that publishes its chunk. -/
def word8 (l : List Nat) : List Byte := leBytes 8 (l.foldl (· + ·) 0)
def ldst (st : Nat) : List Byte := word8 [1 * 2 ^ 56, 0x1E * 2 ^ 47, 0x1E * 2 ^ 42, 0x1E * 2 ^ 37] ++
  word8 [2 * 2 ^ 56, 0x1E * 2 ^ 42, 0x1E * 2 ^ 37, st * 2 ^ 34]
def progOf (kind scr : Nat) (streams : List Byte) : List Byte :=
  padTo 64 ([1, BitVec.ofNat 8 kind, 2, 0, BitVec.ofNat 8 scr]) ++ padTo 64 streams ++ ldst 1
def genIm : List Byte := progOf 0 1 (word8 [2 * 2 ^ 61, 10 * 2 ^ 55] ++ word8 [2 * 2 ^ 61, 2 ^ 60, 10 * 2 ^ 55, 8 * 2 ^ 41])
def updIm : List Byte := progOf 1 0 (word8 [1 * 2 ^ 61, 10 * 2 ^ 55] ++ word8 [4 * 2 ^ 61, 2 ^ 60, 10 * 2 ^ 55])
/-- All stacks trained, programs 2 (update) and 3 (general), a plain region 3 and a vault 4. -/
def st1 : Stack := { trained := true }
def plainWords : List W64 := [BitVec.ofNat 64 (3 * 2 ^ 52 + 9 * 2 ^ 44 + 2 ^ 37), 2097152, 0, 0, 0, 0, 0, 0, 0, 0, 0, 0, 0, 0, 0, 0]
def vaultWords : List W64 :=
  [BitVec.ofNat 64 (4 * 2 ^ 52 + 9 * 2 ^ 44 + 2 ^ 42), 0, BitVec.ofNat 64 (2 ^ 52 + 2 ^ 43 + 32 * 2 ^ 10), BitVec.ofNat 64 (10 * 2 ^ 59),
    BitVec.ofNat 64 (10 * 2 ^ 59 + 2 ^ 58 + 7 * 2 ^ 26 + 2 * 2 ^ 10), BitVec.ofNat 64 (2 ^ 24 + 2 ^ 9), 0, 0x9000, 0, 0, 0, 0, 0, 0, 0, 0]
def initBytes : List Byte := List.replicate 256 3
def rgPlain : Region := { words := plainWords }
def rgVault : Region := { words := vaultWords, current := 7, chunks := initChunks vaultWords initBytes, param := some (List.replicate 64 0) }
def sHb : State :=
  { sReady with
      hbm := { sReady.hbm with stackOf := [st1, st1, st1, st1], regions := [(3, rgPlain), (4, rgVault)] },
      progs := [(2, { image := updIm, digest := 0 }), (3, { image := genIm, digest := 0 })], fresh := 5 }
def sBare : State := { sHb with hbm := { sHb.hbm with regions := [] } }
def sLoading : State := { sBare with progs := [(7, { image := genIm, digest := 0, loading := some (1990, acc0) })] }
def dPl (op : Nat) (d1 : W64) : Desc := dOf op d1 0x4000
def sHbC (d : Desc) : State := onRing sHb d
/-- PROG_RUN of 16 elements of program 3 on tile 5, 64 bytes in, 64 bytes out from line 8. -/
def dRunOf (inB outB : Nat) : Desc :=
  { dOf 0x22 (BitVec.ofNat 64 (3 + 5 * 2 ^ 8 + 16 * 2 ^ 20 + 8 * 2 ^ 35)) 0 0 0 with d6 := BitVec.ofNat 64 (inB + outB * 2 ^ 17 + 9 * 2 ^ 34) }
def dRun : Desc := dRunOf 64 64
def dRunBad : Desc := dOf 0x22 (BitVec.ofNat 64 (9 + 5 * 2 ^ 8 + 16 * 2 ^ 20))
def rr (outB : Nat) : RunReq :=
  { by_ := acc0, slot := 3, count := 16, idxBase := 0, params := [], data := List.replicate 64 0x41, outDst := false, outAddr := 0x7000, outLine := 8,
    outBytes := outB, job := 9, window := 1024 }
def psRun (outB : Nat) : Pass := { till := 0, chunk := 0, readyAt := 1900, run := some (rr outB) }
def sRunReady : State := { sHb with ctxs := [(10, { ready := [psRun 64] })] }
def runningOf (outB : Nat) : Running := { pass := psRun outB, endsAt := 1990, started := 1950 }
def sRunning (outB : Nat) : State :=
  { sHb with ctxs := [(10, { running := some (runningOf outB) })], tiles := { sHb.tiles with scratch := [(5, 1024)] } }
/-- A vault till 1 with chunk 0 minting, its epoch 3 and version 8. -/
def vWords : List W64 := ((tWordsOf (tW0 1 0 0)).set 2 (BitVec.ofNat 64 (10 * 2 ^ 59 + 2 ^ 49 + 2 * 2 ^ 15 + 2 ^ 13 + 2 * 2 ^ 10))).set 10
  (BitVec.ofNat 64 (4 * 2 ^ 48 + 2 * 2 ^ 32))
def ckFull : Chunk := { blankChunk 3 with st := .minting, acc := List.replicate 16 ⟨.fin, 0, 0, 0, false⟩, bitA := [0, 1], bitB := [0, 1] }
def tVault1 : Till := { mkT 1 0 with words := vWords, chunks := [ckFull, blankChunk 3], delta := 5 }
def psUpd : Pass := { till := 1, chunk := 0, readyAt := 1900 }
def vTile : Nat := tileOf sHb 1 vWords 0
def sUpd (x : Till) : State := { sHb with tills := [(1, x)], ctxs := [(ctxKey vTile false, { ready := [psUpd] })] }
def sUpdNot : State := { sUpd { tVault1 with delta := 6 } with fresh := 6 }
def runUpd : Running := { pass := psUpd, endsAt := 1990, started := 1950, version := 8 }
def sUpdEnd : State := { sHb with tills := [(1, tVault1)], ctxs := [(ctxKey vTile false, { running := some runUpd })] }
/-- Tallies: a ROOT barrier of two members 5 and 6, an INNER one, a counter. -/
def yW (role counter tick align notify : Nat) (t1 t2 t3 : Nat) : List W64 :=
  [BitVec.ofNat 64 (2 * 2 ^ 52 + 9 * 2 ^ 44 + 3 * 2 ^ 28 + counter * 2 ^ 27 + tick * 2 ^ 26 + align * 2 ^ 25 + role * 2 ^ 22 + notify * 2 ^ 15),
    BitVec.ofNat 64 t1, BitVec.ofNat 64 t2, BitVec.ofNat 64 t3, 0x5000, 0, 0, 0]
def yIns : List W64 := [BitVec.ofNat 64 (5 * 2 ^ 48 + 0x200 * 2 ^ 28), BitVec.ofNat 64 (6 * 2 ^ 48 + 0x201 * 2 ^ 28)]
def yChild : List W64 := [BitVec.ofNat 64 (5 * 2 ^ 48 + 0x200 * 2 ^ 28), BitVec.ofNat 64 (2 ^ 62 + 0x201 * 2 ^ 28)]
def yRootW : List W64 := yW 0 0 0 0 1 1 0 (2 * 2 ^ 34)
def yInnW : List W64 := yW 1 0 0 0 1 1 0 (0x100 * 2 ^ 44 + 2 * 2 ^ 34)
def yCtrW : List W64 := yW 0 1 0 0 1 (3 * 2 ^ 32) 0 0
def yTickW : List W64 := yW 0 0 1 0 1 0 4000 (2 * 2 ^ 34)
def mkY (w l : List W64) : Tally := { words := w, inputs := l, openAt := some 1000, by_ := none, gen := 3 }
def sYs (v : Tally) : State := { sReady with tallies := [(2, v)], fresh := 5 }
def exc1 : Nat × BitVec 48 × Accept := (1, 5, acc0)
def yRoot : Tally := mkY yRootW yIns
def yInnNone : Tally := mkY yInnW yChild
def yExcised : Tally := { yRoot with excisions := [exc1] }
def yOpening : Tally := { yRoot with by_ := some acc0 }
def yMid : Tally := { yRoot with arrived := [0], all := 1, yes := 1, first := some 1950, last := 1950, timerAt := some 1999 }
def sYc (v : Tally) (d : Desc) : State := onRing (sYs v) d
def dY (op : Nat) : Desc := dOf op 2
def dYEx : Desc := dOf 0x1B (2 + 2 ^ 12) 5
def dYExL : Desc := dOf 0x1B (2 + 2 ^ 12) 6
def dYO : Desc := dOf 0x18 0x4000
def sYo (s : State) : State := onRing s dYO
def yH (rank op v : Nat) : Header :=
  { blankHeader with type := 4, cls := 6, dest := 0x100, src := 0x201, job := 9, till := 2, epoch := 3, rank := BitVec.ofNat 14 rank,
                     aux := BitVec.ofNat 32 (op * 2 ^ 28 + v) }
def fArr (rank job : Nat) : Frame := mkFrame { yH rank 0 1 with job := BitVec.ofNat 8 job } []
def fPlus (v : Nat) : Frame := mkFrame (yH 5 1 v) []
def fCar : Frame := mkFrame (yH 5 2 0) (padTo 32 (leBytes 4 4 ++ leBytes 4 3))
def sYi (v : Tally) (f : Frame) : State := { sYs v with intake := [{ frame := f, port := 0, arrival := 1990 }] }
def yInn : Tally := { mkY yInnW yChild with arrived := [0], all := 1, yes := 1, first := some 1950 }
def yCtr (n : Int) : Tally := { mkY yCtrW [] with count := n }
def fRel : Frame := mkFrame { yH 0 0 0 with type := 5, dest := 7, mc := 1, aux := 0xFFFFFFFF } (List.replicate 32 0)
def yTickV : Tally := { mkY yTickW yIns with first := some 1950, dueAt := some 1999, arrived := [0], all := 1 }
/-- Region commands. -/
def dRo : Desc := dOf 0x28 0x4000
def sRo : State := onRing sBare dRo
def sRoTrain : State := onRing { sBare with hbm := { sBare.hbm with stackOf := [{ training := true }, st1, st1, st1] } } dRo
def dRc (n : W64) : Desc := dOf 0x29 n
def sRcBound : State := onRing (sUpd tVault1) (dRc 4)
def dMc : Desc := dOf 0x2B 12
def dCpy (out len region : Nat) : Desc :=
  dOf 0x2A (BitVec.ofNat 64 out) 0x6000 (BitVec.ofNat 64 (region * 2 ^ 39)) (BitVec.ofNat 64 (9 * 2 ^ 32 + len))
/-- A board on which another X7 stands at position 1. -/
def sFar (d : Desc) : State := { sHbC d with boot := { (sHbC d).boot with boardEp := [none, some 0x345] } }
def dGat (v : Nat) : Desc := dOf 0x2C (BitVec.ofNat 64 (4 + v * 2 ^ 12)) 0x6000
def dQry : Desc := dOf 0x2D 4 0x6000
/-- Memory frames. -/
def mH (type region len rel off ep : Nat) : Header :=
  { blankHeader with type := BitVec.ofNat 4 type, cls := 3, dest := 0x100, src := 0x100, job := 9, epoch := BitVec.ofNat 16 ep,
                     rank := 4, offset := BitVec.ofNat 24 off, aux := BitVec.ofNat 32 (region * 2 ^ 20 + rel * 2 ^ 9 + len) }
def fMrd (region len rel off ep : Nat) : Frame := mkFrame (mH 6 region len rel off ep) []
def fMwr (off : Nat) : Frame := mkFrame (mH 7 3 0 0 off 0) (List.replicate 64 0xAA)
def sMf (f : Frame) : State := { sHb with intake := [{ frame := f, port := 0, arrival := 1900 }] }
def sMfB (f : Frame) : State := { sUpd tVault1 with intake := [{ frame := f, port := 0, arrival := 1900 }] }
def jLand : MemWrite := { src := 0x200, cls := 3, region := 3, off := 32, data := [0xAA], id := 1, from_ := 1900, doneAt := 1950 }
def sLand : State := { sHb with hbm := { sHb.hbm with writing := [jLand] } }
def rqst (again : Bool) (n : Nat) : MemReq :=
  { frame := fMrd 3 2 0 0 0, sentAt := if again then 0 else 0, again := again, for_ := .xfer n, place := 0 }
def xfr (left : Nat) : Xfer := { by_ := acc0, hostAddr := 0, toHost := false, left := left, status := 0, data := [] }
def sRq (again : Bool) (left now : Nat) : State :=
  { sHb with now := now, hbm := { sHb.hbm with reqs := [(77, rqst again 4)], xfers := [(4, xfr left)] } }
def fRsp (st : Nat) : Frame := mkFrame { mH 8 3 0 0 0 0 with seq := 77, aux := BitVec.ofNat 32 (3 * 2 ^ 20 + st) } (List.replicate 64 1)
def sRsp (left st : Nat) : State := { sRq false left 2000 with intake := [{ frame := fRsp st, port := 0, arrival := 1990 }] }
def rgHeld : Region := { rgVault with prevHeld := true, prevAt := 0 }
def rgNoPar (n : Nat) : Region := { rgVault with param := none, paramTries := n }
def sRg (r : Region) (now : Nat) : State := { sHb with now := now, hbm := { sHb.hbm with regions := [(3, rgPlain), (4, r)] } }
def sTrainH : State := { sHb with hbm := { sHb.hbm with stackOf := [{ training := true }, st1, st1, st1] } }
/-- Relays. -/
def dRel : Desc := dOf 0x30 (BitVec.ofNat 64 (6 + 9 * 2 ^ 16 + 2 * 2 ^ 24 + 2 * 2 ^ 26 + 100 * 2 ^ 37)) 4 (BitVec.ofNat 64 (2 + 3 * 2 ^ 13))
def rMem : List W64 := [BitVec.ofNat 64 (5 + 0x200 * 2 ^ 14), BitVec.ofNat 64 (6 + 0x100 * 2 ^ 14)]
def rly : Relay :=
  { job := 9, cls := 2, units := 4, pace := 0, depth := 100, stageMax := 2, rtimeout := 1, members := [(5, 0x200), (6, 0x100)], recv := [{}, {}] }
def dRelC : Desc := dOf 0x31 6
def rlH (off : Nat) : Header :=
  { blankHeader with type := 0xC, cls := 2, mc := 1, dest := 6, src := 0x200, job := 9, epoch := 0, offset := BitVec.ofNat 24 off }
def fRl : Frame := mkFrame (rlH 0) (List.replicate 64 7)
def sRl (r : Relay) : State :=
  { sHb with relays := [(6, r)], intake := [{ frame := fRl, port := 0, arrival := 1990 }], pools := { sHb.pools with staging := 4 } }
def rlHeld : Relay := { rly with held := [0] }
def rlFull : Relay := { rly with stageMax := 0 }
def rlMax : Relay := { rlHeld with stageMax := 1 }
def fRl2 : Frame := mkFrame (rlH 2) (List.replicate 64 7)
def sRl2 (r : Relay) : State :=
  { sHb with relays := [(6, r)], intake := [{ frame := fRl2, port := 0, arrival := 1990 }], pools := { sHb.pools with staging := 4 } }
def rlStaged : Relay := { rlHeld with staged := [{ sender := 0, round := 0, frames := [fRl], units := 2 }] }
def rlSkip : Relay := { rly with recv := [{}, { lastAt := some 100 }] }
def sSkip : State := { sRl rlSkip with now := 70000 }
/-- Events. -/
def sEv (en room : Bool) : State :=
  { sRun with host := { sRun.host with
      ev := if en then [(0, { ctl := 0x80000106, wi := if room then 1 else 64, lost := 3 })] else [] } }
def sEvMany : State := { sRun with host := { sRun.host with evroute := 0xFFFFFFFC, ev := [(0, { ctl := 0x80000106, wi := 64 }), (3, { ctl := 0x80000106, wi := 64 })] } }
def sStrap : State := { sRun with boot := { sRun.boot with sampled := true, strap := 0x1000 } }
def sGrade (g : Nat) : State := { sRun with boot := { sRun.boot with fuses := { sRun.boot.fuses with grade := g } } }
def tScale : TillObj :=
  { tObj 1 0 0 with words := (tWordsOf (tW0 1 0 0)).set 1 (BitVec.ofNat 64 (10 * 2 ^ 59 + 30 * 2 ^ 24 + 2 * 2 ^ 8)), scales := [0xFF, 0] }
def sFree (d : Desc) : State := onRing sBare d
def evWatch : Sparse Watch := [(1, { ctl := 0xC0000000 })]
def sEvOk : State := { sEv true true with host := { (sEv true true).host with watch := evWatch } }
def sEvPad : State := { sEvOk with host := { sEvOk.host with ev := [(0, { ctl := 0x80000106, wi := 63, ci := 60, lost := 3 })] } }
/-- A firmware image that R418 accepts: SVN 1 of key slot 0 with exponent 1, so that its signature is the encoded message. -/
def fwHead : List Byte :=
  padTo 1024 (leBytes 4 0x46374E58 ++ [1, 0, 3, 1] ++ leBytes 2 7 ++ leBytes 2 1 ++ leBytes 4 1 ++ List.replicate 48 0 ++
    beBytes 512 (2 ^ 1040 + 1) ++ leBytes 4 1)
def fwSig : Nat :=
  176734216426173569214870181974607227523376279644389310300577649993810240584882163349061396140530518233110456023078919027109542327145042968483630543907506055767744983168583355101632721885939958550383734656938696244360614604794329369999827770390394190473866947554387847531721663267418620385104430137253501077382076
def fwImg : List Byte := fwHead ++ beBytes 512 fwSig ++ [0xAB]
def fwDir : List Byte := dirBytes [(1, 0, fwImg)]
/-- The fuses hold the SHA-512 digest of its key. -/
def sFwGood : State :=
  { sFw with boot := { sFw.boot with fuses := { sFw.boot.fuses with
      rootKey0 := 5067902985207954464951262757262341875092060449518487994879309241075016850034217254213478978449701477480821231084345538768574018735900374959291842249221740 } } }
/-- A wiring plan of a tick root with endpoint 0x100 and no port. -/
def planBytes : List Byte := padTo 4160 ([1, 0, 1, 0] ++ leBytes 4 0x100 ++ leBytes 2 5 ++ List.replicate 8 0 ++ leBytes 3 (2 ^ 23 + 0x100))
def planDir : FlashDir := { first := dirBytes [(5, 0, planBytes)], second := [] }

/-! ### Worked examples of the spec -/

/-- 02 Table 2.12: a B8E4 till of aligned scale 0x7C with two extension bits, whose mint chooses the scale. -/
def exW : List W64 := [0, BitVec.ofNat 64 (2 ^ 54 + 0x7C * 2 ^ 46 + 2 * 2 ^ 41), BitVec.ofNat 64 (2 ^ 58 + 2 ^ 49)]
def exAcc (v : Int) : Acc := Acc.ofVal .fin v 0 0

theorem test_example_intake :
    takeElem exW 0 0x3C 0x7C 0x7C 65536 false 0 = some (exAcc 3072, false) ∧
    takeElem exW 0 0xB5 0x7C 0x7C 65536 false 1 = some (exAcc (-1664), false) ∧
    takeElem exW 0 0x0B 0x79 0x7C 65536 false 2 = some (exAcc 5, true) ∧
    takeElem exW 0 0x38 0x7C 0x7C (weightOf 0x5556) false 3 = some (exAcc 682, false) := by decide +kernel

/-- 02: the sum 2,095 leaves as 0x78 with scale 0x74. -/
theorem test_example_mint :
    (mintBlock exW 0x7C none (exAcc 2095 :: List.replicate 15 (exAcc 0))).1.blk.scale = 0x74 ∧
    (mintBlock exW 0x7C none (exAcc 2095 :: List.replicate 15 (exAcc 0))).1.blk.encs.headD 0 = 0x78 := by decide +kernel

/-- 02 Table 2.14: W48 slots, and a compact partial of 2,051 at scale 0x7F. -/
theorem test_example_partials :
    accSlot 16 (exAcc 2051) = 0x803 ∧ accSlot 16 (exAcc (-2045)) = 0x0000FFFFFFFFF803 ∧
    (compactBlock [0, BitVec.ofNat 64 (0x7F * 2 ^ 46), 0] 0x7F [exAcc 2051]).blk.encs.headD 0 = 0x48 := by decide +kernel

/-- 02: an infinity at weight 0 is a NaN of its rank. -/
theorem test_example_zero_weight :
    takeElem [0, BitVec.ofNat 64 (2 ^ 59 + 2 ^ 58 + 0x7F * 2 ^ 46), 0] 1 0x7C 0x7F 0x7F 0 false 12 = some (Acc.ofVal .nan 0 12 12, false) := by
  decide +kernel

/-- 04: the FP32 product of the scaled average, and its BF16 publication. -/
theorem test_example_average :
    aluResult 0x12 0x3FFA0000 0x3E2AAAAB 0 = 0x3EA6AAAB ∧ fNarrow 8 0x3EA6AAAB = 0x3EA7 := by decide +kernel

/-- 04: the instruction words of the scaled average are well-formed. -/
theorem test_example_words : [(0x010F7BC000000000 : W64), 0x120043C000000000, 0x02007BC400000000].all insOk = true := by decide +kernel

/-- 09 Table 9.3: the header of a CONTRIB. -/
def exHeader : Header :=
  { blankHeader with type := 1, cls := 4, dest := 0x4100, src := 0x2025, job := 0x12, seq := 5, offset := 64, len := 33, till := 300,
                     epoch := 7, rank := 37, fmt := 0, blk := 1, tick := 0x1388, aux := 32 }
theorem test_example_header :
    (hdrBytes (headerBits exHeader)).take 27 =
      [0x11, 0x80, 0x04, 0x10, 0x00, 0x20, 0x25, 0x12, 0x00, 0x05, 0x00, 0x00, 0x40, 0x10, 0x80, 0x12, 0xC0, 0x00, 0x70, 0x09, 0x41, 0x13,
       0x88, 0x00, 0x00, 0x00, 0x20] := by decide +kernel

/-- 13: the completion of TILL_OPEN, and the two entries of an epoch behind a PAD. -/
theorem test_example_completion :
    (cmdEntry { acc0 with ring := 3, d0 := 0x1005000000000A01 } 0 0 0).headD 0 = 0x0100031000000A01 ∧ phaseOf 0x7FD 10 = false ∧
    needsPad { ctl := 0x8000000A, wi := 0x7FF } 2 = true ∧ needsPad { ctl := 0x8000000A, wi := 0x7FE } 2 = false := by decide +kernel

def exTill : Till := { tOpen with words := [BitVec.ofNat 64 (300 * 2 ^ 52 + 0x12 * 2 ^ 44 + 0x17)], epoch := 5 }
theorem test_example_epoch :
    (withPhase ((tillEntries 300 exTill 0 1 {}).headD []) (phaseOf 0x800 10)).headD 0 = 0x0200C4B048000017 ∧
    (withPhase ((tillEntries 300 exTill 0 1 {}).getD 1 []) (phaseOf 0x801 10)).headD 0 = 0x0300800000000000 := by decide +kernel

/-- 14 Table 14.14, steps 7 and 8. -/
def exRing : State := { sRun with host := { sRun.host with cmd := [(3, { base := 0x4120000000, ctl := 0x8 })] } }
def afterWrite (s : State) (o : BitVec 20) (v : W64) : State := match exec (.registerWrite .host o 4 v) s with
  | .next t => t
  | _ => s
theorem test_example_refused :
    (cmdRing (afterWrite exRing 0x4070 0x80000011) 3).ctl = 0x80000008 ∧ (afterWrite exRing 0x4070 0x80000011).refused = 0x80104070 ∧
    (afterWrite (afterWrite exRing 0x4070 0x80000011) 0x4070 0x80000009).refused = 0xC0104070 := by decide +kernel

/-- 15 Table 15.14: the bytes of a ledger entry. -/
theorem test_example_entry :
    (entryBytes 4105 { tick := 0x12CC8, ofs := 12345, origin := 1, originId := 0, kind := 7, raw := true, target := 0x4070, old := [],
                       new := [] }).take 32 =
      [0x09, 0x10, 0, 0, 0, 0, 0, 0, 0xC8, 0x2C, 1, 0, 0, 0, 0x39, 0x30, 0, 0, 1, 0, 0, 7, 1, 0, 0x70, 0x40, 0, 0, 0, 0, 0, 0] := by
  decide +kernel

/-- 16: a die at 108 °C withholds 4 of 16 slots. -/
theorem test_example_throttle : withheldOf 108 = 4 ∧ withheldOf 104 = 0 := by decide

/-! ### Commands that are not well-formed -/

def fLong : Frame := { fData with payload := List.replicate 8193 0 }
theorem test_wellformed_objects :
    [Instr.tillOpen 0 dOpen objBad, .tillOpen 0 dOpen { tObj 1 0 0 with shard := [0] }, .tallyOpen 0 dYO [] [], .regionOpen 0 dRo [] [] none,
      .paramBlockRead 1 (some [])].all (fun c => !WellFormed.instr c) = true := by decide +kernel
theorem test_wellformed_frames :
    [Instr.contribReceive fLong false, .partialReceive fLong false, .summaryReceive fLong, .resendReqReceive fLong, .tallyArrive fLong,
      .tallyAdd fLong, .tallyCarry fLong, .tallyReleasePass 0 fLong, .memRdReceive fLong .first, .memWrReceive fLong, .memRspReceive fLong,
      .versionRelease fLong, .relayFrameReceive 0 fLong, .frameReceive 0 fLong, .tickOfferReceive 0 fLong 0, .tandemRecordReceive fLong,
      .mgmtReceive 0 fLong].all (fun c => !WellFormed.instr c) = true := by decide +kernel
theorem test_wellformed_lanes :
    [Instr.laneBlockReceive 0 (List.replicate 9 (lb 9 false)), .laneBlockReceive 0 [{ lb 9 false with decoded := some [] }],
      .laneBlockReceive 0 [{ lb 9 false with lane := 512 }],
      .laneBlockReceive 0 [{ lb 9 false with decoded := some (List.replicate 272 1024) }], .creditCycleReceive 0 [], .pllLock fuses1 8, .strapChange 8].all (fun c => !WellFormed.instr c) = true := by decide +kernel
theorem test_wellformed_sizes :
    [Instr.sensorRead 0 0 [], .registerWrite .host 0 9 0, .pairLoRead .host 0 5, .accumulatorWindowRead .host 0 5, .dbgreg false 0 9 0].all
      (fun c => !WellFormed.instr c) = true := by decide +kernel
theorem test_wellformed_ok : WellFormed.instr (.contribReceive (fContrib 5 9 0) false) = true := by decide +kernel
theorem test_no_word : ∀ n w, decodeTableWord n w = none := fun _ _ => rfl

/-! ### Witnesses of the statements about steps, snoops, headers, events and accumulands -/

def sQueued : State := { sHb with pending := [Instr.hbmRefresh 0] }
theorem test_step (h : Obligations.StepRunsFrontCommand) : step sQueued = exec (.hbmRefresh 0) { sQueued with pending := [] } :=
  h (.hbmRefresh 0) [] sQueued
theorem test_idle_run (h : Obligations.EmptyQueuePassesOneCycle) : ∃ t, step sRun = .next t ∧ t.now = sRun.now + 1 := h.1 sRun rfl rfl
theorem test_idle_reset (h : Obligations.EmptyQueuePassesOneCycle) : step State.reset = .next State.reset := h.2 State.reset rfl nofun
theorem test_queue (h : Obligations.EveryStepAnswersInOrder) : ∃ t, step sQueued = .next t ∧ t.pending = [] :=
  let ⟨t, e⟩ := h.1 sQueued
  ⟨t, e, h.2 sQueued t e⟩
theorem test_canonical (h : Obligations.StepKeepsCanonicalForms) (g : Obligations.EveryStepAnswersInOrder) :
    ∃ t, step sQueued = .next t ∧ memCanonical t ∧ mapsCanonical t :=
  let ⟨t, e⟩ := g.1 sQueued
  ⟨t, e, h.1 sQueued t (by decide +kernel) e, h.2 sQueued t (by decide +kernel) e⟩
theorem test_snoop_none (h : Obligations.DoorbellsAct) : ∃ t, exec (.snoopInvalidate 1) sRun = .next t :=
  next_of ((h.1 sRun 1).1 (by decide +kernel)).1
theorem test_snoop_held (h : Obligations.DoorbellsAct) : ∃ t, exec (.snoopInvalidate 1) sHost = .next t :=
  next_of ((h.1 sHost 1).2 0 { addr := 0x40, ctl := 0x80000000, held := true } (by decide +kernel)).1
theorem test_snoop_data (h : Obligations.DoorbellsAct) : ∃ t, exec (.snoopData 2) sHost = .next t :=
  next_of ((h.1 sHost 2).2 1 { addr := 0x80, ctl := 0x80000000, reading := true } (by decide +kernel)).2
theorem test_header (h : Obligations.HeaderBitsRoundTrip) : headerOf (headerBits exHeader) = exHeader := h.1 exHeader
theorem test_ev_off (h : Obligations.EventsAreNeverDelayed) :
    postEvent (sEv false true) 0x41 1 9 2 3 4 none = sEv false true := (h (sEv false true) 0x41 1 9 2 3 4 none).1 (by decide +kernel)
theorem test_ev_full (h : Obligations.EventsAreNeverDelayed) :
    bit (statAt (postEvent sEvMany 0x41 1 9 2 3 4 none) srcHost).status.toNat hbOverflow = true :=
  ((h sEvMany 0x41 1 9 2 3 4 none).2.1 (by decide +kernel) (by decide +kernel)).2.2.2
def sEvTwo : State := { sEvMany with host := { sEvMany.host with evroute := 0xC } }
theorem test_ev_lost (h : Obligations.EventsAreNeverDelayed) : (evRing (postEvent sEvTwo 0x41 1 9 2 3 4 none) 3).lost = 1 :=
  congrArg OutRing.lost (((h sEvTwo 0x41 1 9 2 3 4 none).2.1 (by decide +kernel) (by decide +kernel)).2.1 (by decide +kernel))
theorem test_ev_lost_twice (h : Obligations.EventsAreNeverDelayed) :
    (evRing (postEvent (sEv true false) 0x41 1 9 2 3 4 none) 0).lost = 5 :=
  congrArg OutRing.lost (((h (sEv true false) 0x41 1 9 2 3 4 none).2.1 (by decide +kernel) (by decide +kernel)).2.2.1 (by decide +kernel)
    (by decide +kernel))
theorem test_ev_ok (h : Obligations.EventsAreNeverDelayed) : (evRing (postEvent sEvOk 0x41 1 9 2 3 4 none) 0).lost = 0 :=
  ((h sEvOk 0x41 1 9 2 3 4 none).2.2 (by decide +kernel) (by decide +kernel)).2.1
theorem test_ev_pad (h : Obligations.EventsAreNeverDelayed) : (evRing (postEvent sEvPad 0x41 1 9 2 3 4 (some (1, 2, 3))) 0).lost = 0 :=
  ((h sEvPad 0x41 1 9 2 3 4 (some (1, 2, 3))).2.2 (by decide +kernel) (by decide +kernel)).2.1
theorem test_sum (h : Obligations.SumsCombineInAnyOrder) :
    (combine 0 (Acc.ofVal .pinf 0 7 0) (Acc.ofVal .ninf 0 3 0)).cls = .nan :=
  (h.1 (Acc.ofVal .pinf 0 7 0) (Acc.ofVal .ninf 0 3 0) (by unfold sumForm; decide) (by unfold sumForm; decide) rfl rfl).1
theorem test_sum_order (h : Obligations.SumsCombineInAnyOrder) :
    [exAcc 5, Acc.ofVal .nan 0 9 0].foldl (combine 0) Acc.zero = [Acc.ofVal .nan 0 9 0, exAcc 5].foldl (combine 0) Acc.zero :=
  h.2 _ _ (List.Perm.swap _ _ _) (by unfold sumForm; decide)
theorem test_max_order (h : Obligations.WinnersAndReceiptsInAnyOrder) :
    [Acc.ofVal .fin 5 0 4, Acc.ofVal .fin 5 0 3].foldl (combine 1) Acc.zero =
      [Acc.ofVal .fin 5 0 3, Acc.ofVal .fin 5 0 4].foldl (combine 1) Acc.zero :=
  h.1 1 _ _ (.inl rfl) (List.Perm.swap _ _ _) (by unfold maxForm; decide)
theorem test_receipt_order (h : Obligations.WinnersAndReceiptsInAnyOrder) :
    (spill [] 1 { blankChunk 3 with st := .done, receipt := 8 } (spill [] 0 { blankChunk 3 with st := .done, receipt := 7 } {})).recLo =
      (spill [] 0 { blankChunk 3 with st := .done, receipt := 7 } (spill [] 1 { blankChunk 3 with st := .done, receipt := 8 } {})).recLo :=
  (h.2 [] {} (0, { blankChunk 3 with st := .done, receipt := 7 }) (1, { blankChunk 3 with st := .done, receipt := 8 }) rfl rfl).1

/-! ### NopAdvancesRingAndCompletes -/

theorem test_nop (h : Obligations.NopAdvancesRingAndCompletes) : ∃ t, exec (Instr.nop 0 (dOf 0)) (sCmd (dOf 0)) = .next t :=
  next_of (h.1 (sCmd (dOf 0)) 0 (dOf 0) (by decide +kernel))
theorem test_reserved (h : Obligations.NopAdvancesRingAndCompletes) : ∃ t, exec (Instr.nop 0 (dOf 127)) (sCmd (dOf 127)) = .next t := by
  refine next_of (h.2 (sCmd (dOf 0x7F)) 0 (dOf 0x7F) ?_ ?_ ?_) <;> decide +kernel
theorem test_nop_ci (h : Obligations.NopAdvancesRingAndCompletes) : ∃ t, exec (Instr.nop 0 (dOf 0)) sCi = .next t :=
  next_of (h.1 sCi 0 (dOf 0) (by decide +kernel))

/-! ### DoorbellsAct -/

theorem test_watch_cmd (h : Obligations.DoorbellsAct) : ∃ t, exec (Instr.watchLineRead 1 100) sHost = .next t :=
  next_of (h.2 sHost 1 100 (by decide +kernel))
theorem test_watch_cpl (h : Obligations.DoorbellsAct) : ∃ t, exec (Instr.watchLineRead 2 1) sHost = .next t :=
  next_of (h.2 sHost 2 1 (by decide +kernel))
theorem test_watch_ev (h : Obligations.DoorbellsAct) : ∃ t, exec (Instr.watchLineRead 3 1) sHost = .next t :=
  next_of (h.2 sHost 3 1 (by decide +kernel))

/-! ### HostReadsAndWritesEnd -/

theorem test_read_data (h : Obligations.HostReadsAndWritesEnd) : ∃ t, exec (Instr.hostReadData 3 []) sHost = .next t :=
  next_of ((h.1 sHost 3 0 0 ([]) (by decide +kernel)).1)
theorem test_read_error (h : Obligations.HostReadsAndWritesEnd) : ∃ t, exec (Instr.hostReadError (ReadFault.fetch 3)) sHost = .next t :=
  next_of ((h.1 sHost 3 0 0 ([]) (by decide +kernel)).2)
theorem test_object_error (h : Obligations.HostReadsAndWritesEnd) : ∃ t, exec (Instr.hostReadError (ReadFault.object 0 (dOf 16))) (sCmd
    (dOf 16)) = .next t := by
  refine next_of ((h.2).1 (sCmd (dOf 0x10)) 0 (dOf 0x10) ?_ ?_ ?_) <;> decide +kernel
theorem test_go (h : Obligations.HostReadsAndWritesEnd) : ∃ t, exec (Instr.hostWriteGo 5) sHost = .next t :=
  next_of (((h.2).2 sHost 5 ({ addr := 0, data := [], kind := .ci 0 }) (by decide +kernel)).1 (by nofun) (by nofun))
theorem test_go_err (h : Obligations.HostReadsAndWritesEnd) : ∃ t, exec (Instr.hostWriteError 4) sHost = .next t := by
  refine next_of (((h.2).2 sHost 4 ({ addr := 0, data := [], kind := .copy 0 0 }) ?_).2 0 0 ?_) <;> decide +kernel

/-! ### CompletionsAreWritten -/

theorem test_written (h : Obligations.CompletionsAreWritten) : ∃ t, exec (Instr.completionWrite) sHost = .next t := by
  refine next_of (h.1 sHost ({ cring := 1, entries := [[0, 0, 0, 0]] }) ([0, 0, 0, 0]) ([]) ?_ ?_ ?_ ?_ ?_ ?_ ?_ ?_ ?_) <;> decide +kernel
theorem test_no_room (h : Obligations.CompletionsAreWritten) : ∃ t, exec (Instr.completionWrite) sNoRoom = .next t := by
  refine next_of ((h.2).1 sNoRoom ({ cring := 0, entries := [[0, 0, 0, 0]] }) ([]) ?_ ?_ ?_ ?_ ?_ ?_ ?_) <;> decide +kernel
theorem test_coal_cpl (h : Obligations.CompletionsAreWritten) : ∃ t, exec (Instr.coalesceTimerExpiry false 1) sHost = .next t := by
  refine next_of (((h.2).2 sHost 1).1 ?_ ?_) <;> decide +kernel
theorem test_coal_ev (h : Obligations.CompletionsAreWritten) : ∃ t, exec (Instr.coalesceTimerExpiry true 2) sHost = .next t := by
  refine next_of (((h.2).2 sHost 2).2 ?_ ?_) <;> decide +kernel

/-! ### HostResetsDisableRings -/

theorem test_flr (h : Obligations.HostResetsDisableRings) : ∃ t, exec (Instr.functionLevelReset) sHost = .next t :=
  next_of ((h sHost).1 (Instr.functionLevelReset) 0 (by decide +kernel))
theorem test_conv (h : Obligations.HostResetsDisableRings) : ∃ t, exec (Instr.conventionalReset) sHost = .next t :=
  next_of ((h sHost).1 (Instr.conventionalReset) 1 (by decide +kernel))
theorem test_link_loss (h : Obligations.HostResetsDisableRings) : ∃ t, exec (Instr.cxlLinkLoss) sHost = .next t :=
  next_of ((h sHost).1 (Instr.cxlLinkLoss) 2 (by decide +kernel))
theorem test_link_up (h : Obligations.HostResetsDisableRings) : ∃ t, exec (Instr.cxlLinkUp) sHost = .next t := by
  refine next_of ((h sHost).2 ?_ ?_ ?_) <;> decide +kernel

/-! ### RegisterWriteTakesEffect -/

theorem test_write (h : Obligations.RegisterWriteTakesEffect) : ∃ t, exec (Instr.registerWrite RegOrigin.host 20608 4 1) sRun = .next t := by
  refine next_of ((h.1 sRun 1 ?_ ?_ ?_).1) <;> decide +kernel
theorem test_dbg_write (h : Obligations.RegisterWriteTakesEffect) : ∃ t, exec (Instr.dbgreg true 20608 4 1) sRun = .next t := by
  refine next_of ((h.1 sRun 1 ?_ ?_ ?_).2) <;> decide +kernel
theorem test_bad_size (h : Obligations.RegisterWriteTakesEffect) : ∃ t, exec (Instr.registerWrite RegOrigin.host 20608 3 1) sRun = .next t
    := by
  refine next_of (h.2 sRun 0x5080 3 1 ?_ ?_) <;> decide +kernel
theorem test_bad_align (h : Obligations.RegisterWriteTakesEffect) : ∃ t, exec (Instr.registerWrite RegOrigin.host 20610 4 1) sRegs = .next
    t := by
  refine next_of (h.2 sRegs 0x5082 4 1 ?_ ?_) <;> decide +kernel

/-! ### ReadsAnswer -/

theorem test_pair (h : Obligations.ReadsAnswer) : ∃ t, exec (Instr.pairLoRead RegOrigin.host 520 4) sRun = .next t :=
  next_of ((h.1 sRun (RegOrigin.host) (by decide +kernel)).1)
theorem test_dbg_read (h : Obligations.ReadsAnswer) : ∃ t, exec (Instr.dbgreg false 20608 4 0) sRun = .next t :=
  next_of (((h.1 sRun (RegOrigin.host) (by decide +kernel)).2).1)
theorem test_read_bad (h : Obligations.ReadsAnswer) : ∃ t, exec (Instr.pairLoRead RegOrigin.host 522 4) sRun = .next t := by
  refine next_of ((((h.1 sRun (RegOrigin.host) ?_).2).2).1 0x20A 4 ?_ ?_) <;> decide +kernel
theorem test_window (h : Obligations.ReadsAnswer) : ∃ t, exec (Instr.accumulatorWindowRead RegOrigin.host 786432 8) sRegs = .next t := by
  refine next_of ((((((h.1 sRegs (RegOrigin.host) ?_).2).2).2).1 0xC0000 ?_ ?_ ?_).1 ?_) <;> decide +kernel
theorem test_window_run (h : Obligations.ReadsAnswer) : ∃ t, exec (Instr.accumulatorWindowRead RegOrigin.host 983032 8) sRun = .next t := by
  refine next_of ((((((h.1 sRun (RegOrigin.host) ?_).2).2).2).1 0xEFFF8 ?_ ?_ ?_).2 ?_) <;> decide +kernel
theorem test_i3c_temp (h : Obligations.ReadsAnswer) : ∃ t, exec (Instr.i3cRegisterRead (BitVec.ofNat 16 (61440 + 4 * 5))) sRun = .next t
    := by
  refine next_of ((((((h.1 sRun (RegOrigin.host) ?_).2).2).2).2).1 5 ?_) <;> decide +kernel
theorem test_i3c_ready (h : Obligations.ReadsAnswer) : ∃ t, exec (Instr.i3cRegisterRead 2048) sRun = .next t :=
  next_of (((((((h.1 sRun (RegOrigin.host) (by decide +kernel)).2).2).2).2).2).1)
theorem test_i3c_addr (h : Obligations.ReadsAnswer) : ∃ t, exec (Instr.i3cDynamicAddress 9) sRun = .next t :=
  next_of (((((((h.1 sRun (RegOrigin.host) (by decide +kernel)).2).2).2).2).2).2 9)
theorem test_cap1 (h : Obligations.ReadsAnswer) : ∃ t, exec (Instr.dbgreg false 32 4 0) (sGrade 1) = .next t := by
  refine next_of (h.2 (sGrade 1) ?_ 1 0x10FFFFFE ?_ ?_) <;> decide +kernel
theorem test_cap2 (h : Obligations.ReadsAnswer) : ∃ t, exec (Instr.dbgreg false 32 4 0) (sGrade 2) = .next t := by
  refine next_of (h.2 (sGrade 2) ?_ 2 0x20FFFF3E ?_ ?_) <;> decide +kernel
theorem test_cap3 (h : Obligations.ReadsAnswer) : ∃ t, exec (Instr.dbgreg false 32 4 0) (sGrade 3) = .next t := by
  refine next_of (h.2 (sGrade 3) ?_ 3 0x3000FF00 ?_ ?_) <;> decide +kernel

/-! ### RegistersEnableAndClear -/

theorem test_ring_cmd (h : Obligations.RegistersEnableAndClear) : ∃ t, exec (Instr.ringEnable RegOrigin.host (BitVec.ofNat 20 (16400 + 32
    * 63)) 2147483664) sRun = .next t := by
  refine next_of (((h.1).1 sRun (RegOrigin.host) 63 0x80000010 ?_ ?_ ?_ ?_ ?_ ?_).1 ?_) <;> decide +kernel
theorem test_ring_cpl (h : Obligations.RegistersEnableAndClear) : ∃ t, exec (Instr.ringEnable RegOrigin.debugPort (BitVec.ofNat 20 (18440
    + 32 * 0)) 2147483654) sRun = .next t := by
  refine next_of (((h.1).1 sRun (RegOrigin.debugPort) 0 0x80000006 ?_ ?_ ?_ ?_ ?_ ?_).2 ?_) <;> decide +kernel
theorem test_watch_off (h : Obligations.RegistersEnableAndClear) : ∃ t, exec (Instr.watchDisable RegOrigin.host 3 0) sRegs = .next t := by
  refine next_of ((h.1).2 sRegs (RegOrigin.host) 3 0 ?_ ?_ ?_ ?_ ?_ ?_) <;> decide +kernel
theorem test_status_w1c (h : Obligations.RegistersEnableAndClear) : ∃ t, exec (Instr.statusClear RegOrigin.host 4096 4) sRegs = .next t := by
  refine next_of ((h.2 sRegs (RegOrigin.host) 4 ?_ ?_ ?_).1 0x1000 0 2 ?_ ?_ ?_ ?_).1 <;> decide +kernel
theorem test_status_keep (h : Obligations.RegistersEnableAndClear) : ∃ t, exec (Instr.statusClear RegOrigin.host 4096 4) sRegs = .next t
    := by
  refine next_of ((h.2 sRegs (RegOrigin.host) 4 ?_ ?_ ?_).1 0x1000 0 0 ?_ ?_ ?_ ?_).1 <;> decide +kernel
theorem test_status_due (h : Obligations.RegistersEnableAndClear) : clearsDue sClears = clearStatus sClears 0 4 := by
  refine (h.2 sClears RegOrigin.host 4 ?_ ?_ ?_).2.1 0 99 ?_ ?_ ?_ ?_ <;> decide +kernel
theorem test_status_tile (h : Obligations.RegistersEnableAndClear) : ∃ t, exec (Instr.statusClear RegOrigin.host 4620 1) sRegs = .next t
    := by
  refine next_of ((h.2 sRegs (RegOrigin.host) 1 ?_ ?_ ?_).2.2.1 0x120C 16 ?_ ?_) <;> decide +kernel
theorem test_kick_clear (h : Obligations.RegistersEnableAndClear) : ∃ t, exec (Instr.kickLatchClear RegOrigin.host 0 4) sRegs = .next t := by
  refine next_of ((h.2 sRegs (RegOrigin.host) 4 ?_ ?_ ?_).2.2.2.1 0 2 ?_ ?_).1 <;> decide +kernel
theorem test_kick_keep (h : Obligations.RegistersEnableAndClear) : ∃ t, exec (Instr.kickLatchClear RegOrigin.host 0 2) sRegs = .next t := by
  refine next_of ((h.2 sRegs (RegOrigin.host) 2 ?_ ?_ ?_).2.2.2.1 0 2 ?_ ?_).1 <;> decide +kernel
theorem test_refused (h : Obligations.RegistersEnableAndClear) : ∃ t, exec (Instr.refusedClear RegOrigin.host 2147483648) sRegs = .next t
    := by
  refine next_of ((h.2 sRegs (RegOrigin.host) 0x80000000 ?_ ?_ ?_).2.2.2.2.1 ?_) <;> decide +kernel
theorem test_refused_multi (h : Obligations.RegistersEnableAndClear) : ∃ t, exec (Instr.refusedClear RegOrigin.host 0x40000000) sRegs = .next t
    := by
  refine next_of ((h.2 sRegs (RegOrigin.host) 0x40000000 ?_ ?_ ?_).2.2.2.2.2 ?_) <;> decide +kernel

/-! ### DebugWritesAct -/

theorem test_halt (h : Obligations.DebugWritesAct) : ∃ t, exec (Instr.debugHalt RegOrigin.host 1073741831) sRun = .next t := by
  refine next_of ((h.1 sRun (RegOrigin.host) 0x40000007 ?_ ?_).1 ?_ ?_ ?_ ?_) <;> decide +kernel
theorem test_resume (h : Obligations.DebugWritesAct) : ∃ t, exec (Instr.debugResume RegOrigin.host 2147483648) sRegs = .next t := by
  refine next_of (((h.1 sRegs (RegOrigin.host) 0x80000000 ?_ ?_).2).1 ?_ ?_) <;> decide +kernel
theorem test_resume_not (h : Obligations.DebugWritesAct) : ∃ t, exec (Instr.debugResume RegOrigin.host 2147483648) sRun = .next t := by
  refine next_of ((((h.1 sRun (RegOrigin.host) 0x80000000 ?_ ?_).2).2).1 ?_ ?_) <;> decide +kernel
theorem test_kick_test (h : Obligations.DebugWritesAct) : ∃ t, exec (Instr.dbgKickTest RegOrigin.debugPort 2) sKickOn = .next t := by
  refine next_of ((((h.1 sKickOn (RegOrigin.debugPort) 2 ?_ ?_).2).2).2 ?_ ?_ ?_) <;> decide +kernel
theorem test_kick_test_next (h : Obligations.DebugWritesAct) :
    (portAt (kickTest (modKick { sKickOn with now := 6 } 2 fun k => { k with testAt := some 5 }) 2) 2).kick.latch = true :=
  (h.2 _ 2 5 (by decide +kernel) (by decide +kernel) (by decide +kernel) (by decide +kernel)).1

/-! ### SpdmAnswers -/

theorem test_spdm_busy (h : Obligations.SpdmAnswers) : ∃ t, exec (Instr.getVersion) sRun = .next t :=
  next_of (h.1 sRun Instr.getVersion (by decide +kernel) (.inl (by decide +kernel)))
theorem test_spdm_busy2 (h : Obligations.SpdmAnswers) : ∃ t, exec (Instr.getMeasurements 1 true 5) sStwHeld = .next t :=
  next_of (h.1 sStwHeld (Instr.getMeasurements 1 true 5) (by decide +kernel) (.inr (.inr (.inr (.inl ⟨_, _, _, rfl⟩)))))
theorem test_version (h : Obligations.SpdmAnswers) : ∃ t, exec (Instr.getVersion) sStw = .next t := by
  refine next_of (((h.2).1 sStw ?_ ?_).1) <;> decide +kernel
theorem test_caps (h : Obligations.SpdmAnswers) : ∃ t, exec (Instr.getCapabilities) sStw = .next t := by
  refine next_of ((((h.2).1 sStw ?_ ?_).2).1) <;> decide +kernel
theorem test_caps2 (h : Obligations.SpdmAnswers) : ∃ t, exec (Instr.getCapabilities) sSpdm = .next t := by
  refine next_of ((((h.2).1 sSpdm ?_ ?_).2).1) <;> decide +kernel
theorem test_algs (h : Obligations.SpdmAnswers) : ∃ t, exec (Instr.negotiateAlgorithms) sStw = .next t := by
  refine next_of (((((h.2).1 sStw ?_ ?_).2).2).1) <;> decide +kernel
theorem test_algs2 (h : Obligations.SpdmAnswers) : ∃ t, exec (Instr.negotiateAlgorithms) sSpdm = .next t := by
  refine next_of (((((h.2).1 sSpdm ?_ ?_).2).2).1) <;> decide +kernel
theorem test_doe0 (h : Obligations.SpdmAnswers) : ∃ t, exec (Instr.doeDiscovery 0) sStw = .next t := by
  refine next_of (((((h.2).1 sStw ?_ ?_).2).2).2 0) <;> decide +kernel
theorem test_doe1 (h : Obligations.SpdmAnswers) : ∃ t, exec (Instr.doeDiscovery 1) sStw = .next t := by
  refine next_of (((((h.2).1 sStw ?_ ?_).2).2).2 1) <;> decide +kernel
theorem test_doe2 (h : Obligations.SpdmAnswers) : ∃ t, exec (Instr.doeDiscovery 2) sStw = .next t := by
  refine next_of (((((h.2).1 sStw ?_ ?_).2).2).2 2) <;> decide +kernel
theorem test_unprov (h : Obligations.SpdmAnswers) : ∃ t, exec (Instr.getCertificate 0 0 8) sUnprov = .next t := by
  refine next_of ((((h.2).2 sUnprov ?_ ?_ ?_).1 8).1 ?_ (Instr.getCertificate 0 0 8) ?_) <;> decide +kernel
theorem test_digests (h : Obligations.SpdmAnswers) : ∃ t, exec (Instr.getDigests) sSpdm = .next t := by
  refine next_of (((((h.2).2 sSpdm ?_ ?_ ?_).1 8).2 ?_).1) <;> decide +kernel
theorem test_cert (h : Obligations.SpdmAnswers) : ∃ t, exec (Instr.getCertificate 0 4 8) sSpdm = .next t := by
  refine next_of (((((h.2).2 sSpdm ?_ ?_ ?_).1 8).2 ?_).2 4 ?_) <;> decide +kernel
theorem test_cert0 (h : Obligations.SpdmAnswers) : ∃ t, exec (Instr.getCertificate 0 0 0) sSpdm = .next t := by
  refine next_of (((((h.2).2 sSpdm ?_ ?_ ?_).1 0).2 ?_).2 0 ?_) <;> decide +kernel
theorem test_challenge (h : Obligations.SpdmAnswers) : ∃ t, exec (Instr.challenge 0 77) sSpdm = .next t := by
  refine next_of ((((h.2).2 sSpdm ?_ ?_ ?_).2).1 77) <;> decide +kernel
theorem test_meas1 (h : Obligations.SpdmAnswers) : ∃ t, exec (Instr.getMeasurements 2 true 77) sSpdm = .next t := by
  refine next_of ((((h.2).2 sSpdm ?_ ?_ ?_).2).2 2 true 77 ?_ ?_) <;> decide +kernel
theorem test_meas2 (h : Obligations.SpdmAnswers) : ∃ t, exec (Instr.getMeasurements 12 false 77) sSpdm = .next t := by
  refine next_of ((((h.2).2 sSpdm ?_ ?_ ?_).2).2 12 false 77 ?_ ?_) <;> decide +kernel

/-! ### LedgerEnginesProceed -/

theorem test_chain_early (h : Obligations.LedgerEnginesProceed) : ∃ t, exec (Instr.ledgerChainEntry) sLdgEarly = .next t := by
  refine next_of ((h.1 sLdgEarly (chg 7) ([]) ?_ ?_ ?_).1 1840 ?_ ?_) <;> decide +kernel
theorem test_chain (h : Obligations.LedgerEnginesProceed) : ∃ t, exec (Instr.ledgerChainEntry) sLdg = .next t := by
  refine next_of ((h.1 sLdg (chg 7) ([]) ?_ ?_ ?_).2 ?_) <;> decide +kernel
theorem test_chain_seal (h : Obligations.LedgerEnginesProceed) : ∃ t, exec (Instr.ledgerChainEntry) sSeal = .next t := by
  refine next_of ((h.1 sSeal (chg 0x30) ([]) ?_ ?_ ?_).2 ?_) <;> decide +kernel
theorem test_chain_sig (h : Obligations.LedgerEnginesProceed) : ∃ t, exec (Instr.ledgerChainEntry) sSig = .next t := by
  refine next_of ((h.1 sSig (chg 0x31) ([]) ?_ ?_ ?_).2 ?_) <;> decide +kernel
theorem test_seal (h : Obligations.LedgerEnginesProceed) : ∃ t, exec (Instr.seal) sLdg = .next t := by
  refine next_of (h.2.1.1 sLdg ?_ ?_ ?_ ?_ ?_) <;> decide +kernel
theorem test_seal_wait (h : Obligations.LedgerEnginesProceed) : ∃ t, exec (Instr.sealWait) sUnsealed = .next t := by
  refine next_of (h.2.1.2.1 sUnsealed 5 ?_ ?_) <;> decide +kernel
theorem test_mirror (h : Obligations.LedgerEnginesProceed) : ∃ t, exec (Instr.ledgerMirrorWrite) sLdg = .next t := by
  refine next_of (h.2.1.2.2 sLdg ?_ ?_ ?_) <;> decide +kernel

theorem test_mirror_cmd (h : Obligations.LedgerEnginesProceed) : ∃ t, exec (Instr.ledgerMirror 0 dMirror) (sLc dMirror) = .next t := by
  refine next_of ((h.2.2 (sLc dMirror) 0 dMirror).1 ?_ ?_) <;> decide +kernel
theorem test_mirror_off (h : Obligations.LedgerEnginesProceed) : ∃ t, exec (Instr.ledgerMirror 0 (dOf 81)) (sLc (dOf 81)) = .next t := by
  refine next_of ((h.2.2 (sLc (dOf 0x51)) 0 (dOf 0x51)).1 ?_ ?_) <;> decide +kernel
theorem test_ledger_read (h : Obligations.LedgerEnginesProceed) : ∃ t, exec (Instr.ledgerRead 0 dLread) (sLc dLread) = .next t := by
  refine next_of (((h.2.2 (sLc dLread) 0 dLread).2 ?_ ?_ ?_).1 0 ?_ ?_ ?_) <;> decide +kernel
theorem test_ledger_read_no (h : Obligations.LedgerEnginesProceed) : ∃ t, exec (Instr.ledgerRead 0 dLreadNo) (sLc dLreadNo) = .next t := by
  refine next_of (((h.2.2 (sLc dLreadNo) 0 dLreadNo).2 ?_ ?_ ?_).2 ?_) <;> decide +kernel

/-! ### BringUpToFclk -/

theorem test_cold (h : Obligations.BringUpToFclk) : ∃ t, exec (Instr.coldReset 0) sGone = .next t :=
  next_of ((h.1 sGone).1 0)
theorem test_cold1 (h : Obligations.BringUpToFclk) : ∃ t, exec (Instr.coldReset 1) sGone = .next t :=
  next_of ((h.1 sGone).1 1)
theorem test_cold2 (h : Obligations.BringUpToFclk) : ∃ t, exec (Instr.coldReset 2) sGone = .next t :=
  next_of ((h.1 sGone).1 2)
theorem test_refclk (h : Obligations.BringUpToFclk) : ∃ t, exec (Instr.refclkMeasure 99400) sGone = .next t :=
  next_of (((h.1 sGone).2 99400).1 (by decide +kernel))
theorem test_refclk_hi (h : Obligations.BringUpToFclk) : ∃ t, exec (Instr.refclkMeasure 100050) sGone = .next t :=
  next_of (((h.1 sGone).2 100050).1 (by decide +kernel))
theorem test_refclk_out (h : Obligations.BringUpToFclk) : ∃ t, exec (Instr.refclkMeasure 100051) sGone = .next t := by
  refine next_of (((h.1 sGone).2 100051).2 ?_ ?_) <;> decide +kernel
theorem test_refclk_low (h : Obligations.BringUpToFclk) : ∃ t, exec (Instr.refclkMeasure 99399) sGone = .next t := by
  refine next_of (((h.1 sGone).2 99399).2 ?_ ?_) <;> decide +kernel
theorem test_rst (h : Obligations.BringUpToFclk) : ∃ t, exec (Instr.rstNRelease) State.reset = .next t :=
  next_of ((h.2 State.reset).1 (by decide +kernel))
theorem test_pll (h : Obligations.BringUpToFclk) : ∃ t, exec (Instr.pllLock fuses1 4128) sPll = .next t := by
  refine next_of (((h.2 sPll).2).1 ?_ ?_ fuses1 0x1020) <;> decide +kernel
theorem test_pll_held (h : Obligations.BringUpToFclk) : ∃ t, exec (Instr.pllLock fuses1 7200) sPll = .next t := by
  refine next_of (((h.2 sPll).2).1 ?_ ?_ fuses1 0x1C20) <;> decide +kernel
theorem test_sync (h : Obligations.BringUpToFclk) : ∃ t, exec (Instr.syncNSampleHigh) sSync = .next t :=
  next_of ((((h.2 sSync).2).2).1 (by decide +kernel))
theorem test_tiles (h : Obligations.BringUpToFclk) : ∃ t, exec (Instr.tilesReady) sTiles = .next t := by
  refine next_of ((((h.2 sTiles).2).2).2 ?_ ?_) <;> decide +kernel

/-! ### FirmwareAndFusesAreChecked -/

theorem test_fw_bad (h : Obligations.FirmwareAndFusesAreChecked) : ∃ t, exec (Instr.firmwareCheck fDir fItem [] false) sFw = .next t := by
  refine next_of ((h.1 sFw fDir (fDir.first) fItem ([]) false 0 ?_ ?_ ?_ ?_ ?_).2 5 ?_) <;> decide +kernel
theorem test_fuse (h : Obligations.FirmwareAndFusesAreChecked) : ∃ t, exec (Instr.fuseWrite) sFuse = .next t := by
  refine next_of (h.2.2.1 sFuse fwFuse ?_ ?_ ?_ ?_) <;> decide +kernel
theorem test_fuse0 (h : Obligations.FirmwareAndFusesAreChecked) : ∃ t, exec (Instr.fuseWrite) sFuse0 = .next t := by
  refine next_of (h.2.2.1 sFuse0 ({ fwFuse with commitSvn := false, keySlot := 0 }) ?_ ?_ ?_ ?_) <;> decide +kernel
theorem test_strap (h : Obligations.FirmwareAndFusesAreChecked) : ∃ t, exec (Instr.strapChange 4097) sTiles = .next t :=
  next_of (h.2.2.2 sTiles 0x1001 (by decide +kernel))
theorem test_fw_good (h : Obligations.FirmwareAndFusesAreChecked) : ∃ t, exec (Instr.firmwareCheck { first := fwDir, second := [] } fwImg
    [] false) sFwGood = .next t := by
  refine next_of ((h.1 sFwGood ({ first := fwDir, second := [] }) fwDir fwImg ([]) false 0 ?_ ?_ ?_ ?_ ?_).1 ?_) <;> decide +kernel

theorem test_jtag (h : Obligations.FirmwareAndFusesAreChecked) : ∃ t, exec (Instr.jtagBootLoad [1, 2]) sJtag = .next t := by
  refine next_of ((h.2.1 sJtag ?_).2 ?_ ?_ ?_ ([1, 2])) <;> decide +kernel
theorem test_plan_bad (h : Obligations.FirmwareAndFusesAreChecked) : ∃ t, exec (Instr.wiringPlanCheck noDir [] []) sStw = .next t := by
  refine next_of ((h.2.1 sStw ?_).1 ?_ ?_ noDir ([]) ([])) <;> decide +kernel
theorem test_plan_good (h : Obligations.FirmwareAndFusesAreChecked) : ∃ t, exec (Instr.wiringPlanCheck planDir planBytes []) sStw = .next t := by
  refine next_of ((h.2.1 sStw ?_).1 ?_ ?_ planDir planBytes ([])) <;> decide +kernel

/-! ### WarmResetAndStewardRestart -/

theorem test_warm (h : Obligations.WarmResetAndStewardRestart) : ∃ t, exec (Instr.warmReset) sFuse = .next t := by
  refine next_of ((h.1 sFuse).1 ?_ ?_ ?_ ?_) <;> decide +kernel
theorem test_warm_rel (h : Obligations.WarmResetAndStewardRestart) : ∃ t, exec (Instr.warmResetRelease) sWarm = .next t :=
  next_of ((h.1 sWarm).2 (by decide +kernel))
theorem test_stw_dog (h : Obligations.WarmResetAndStewardRestart) : ∃ t, exec (Instr.stewardRestart false 2) sFuse = .next t := by
  refine next_of ((h.2 sFuse ?_).1 ?_ false 2) <;> decide +kernel
theorem test_stw_exc (h : Obligations.WarmResetAndStewardRestart) : ∃ t, exec (Instr.stewardRestart true 1) sSealing = .next t := by
  refine next_of ((h.2 sSealing ?_).1 ?_ true 1) <;> decide +kernel
theorem test_stw_ret (h : Obligations.WarmResetAndStewardRestart) : ∃ t, exec (Instr.stewardReturn) sGone = .next t := by
  refine next_of (((h.2 sGone ?_).2 ?_ ?_ ?_ ?_).1 ?_) <;> decide +kernel
theorem test_stw_bad (h : Obligations.WarmResetAndStewardRestart) : ∃ t, exec (Instr.stewardReturn) sBadImage = .next t := by
  refine next_of (((h.2 sBadImage ?_).2 ?_ ?_ ?_ ?_).2 ?_ ?_) <;> decide +kernel

/-! ### SensorsActOnTemperature -/

theorem test_temp105 (h : Obligations.SensorsActOnTemperature) : ∃ t, exec (Instr.sensorRead 105 104 [85, 84, 20, 20]) sHot = .next t := by
  refine next_of (h sHot 105 104 ([85, 84, 20, 20]) ?_ ?_ ?_ ?_ ?_) <;> decide +kernel
theorem test_temp125 (h : Obligations.SensorsActOnTemperature) : ∃ t, exec (Instr.sensorRead 20 125 [20, 20, 20, 20]) sHot = .next t := by
  refine next_of (h sHot 20 125 ([20, 20, 20, 20]) ?_ ?_ ?_ ?_ ?_) <;> decide +kernel
theorem test_temp124 (h : Obligations.SensorsActOnTemperature) : ∃ t, exec (Instr.sensorRead 124 124 [104, 20, 20, 20]) sHot = .next t := by
  refine next_of (h sHot 124 124 ([104, 20, 20, 20]) ?_ ?_ ?_ ?_ ?_) <;> decide +kernel
theorem test_temps (h : Obligations.SensorsActOnTemperature) : ∃ t, exec (Instr.sensorRead 20 20 [20, 20, 20, 105]) sHot = .next t := by
  refine next_of (h sHot 20 20 ([20, 20, 20, 105]) ?_ ?_ ?_ ?_ ?_) <;> decide +kernel
theorem test_tempw (h : Obligations.SensorsActOnTemperature) : ∃ t, exec (Instr.sensorRead 125 20 [20, 20, 20, 20]) sHot = .next t := by
  refine next_of (h sHot 125 20 ([20, 20, 20, 20]) ?_ ?_ ?_ ?_ ?_) <;> decide +kernel

/-! ### CopiesAreWritten -/

theorem test_queue_read (h : Obligations.CopiesAreWritten) : ∃ t, exec (Instr.queueRead 0 (dHost 72 0)) (sN (dHost 72 0)) = .next t := by
  refine next_of ((h.1 (sN (dHost 0x48 0)) 0 (dHost 0x48 0) ?_).1 ?_) <;> decide +kernel
theorem test_queue_clear (h : Obligations.CopiesAreWritten) : ∃ t, exec (Instr.queueRead 0 (dHost 72 1)) (sN (dHost 72 1)) = .next t := by
  refine next_of ((h.1 (sN (dHost 0x48 1)) 0 (dHost 0x48 1) ?_).1 ?_) <;> decide +kernel
theorem test_counter_read (h : Obligations.CopiesAreWritten) : ∃ t, exec (Instr.counterRead 0 (dHost 74 0)) (sN (dHost 74 0)) = .next t := by
  refine next_of (((h.1 (sN (dHost 0x4A 0)) 0 (dHost 0x4A 0) ?_).2).1 ?_) <;> decide +kernel
theorem test_counter_clear (h : Obligations.CopiesAreWritten) : ∃ t, exec (Instr.counterRead 0 (dHost 74 1)) (sN (dHost 74 1)) = .next t
    := by
  refine next_of (((h.1 (sN (dHost 0x4A 1)) 0 (dHost 0x4A 1) ?_).2).1 ?_) <;> decide +kernel
theorem test_free_read (h : Obligations.CopiesAreWritten) : ∃ t, exec (Instr.freewheelRead 0 (dHost 75 7)) (sN (dHost 75 7)) = .next t := by
  refine next_of ((h.1 (sN (dHost 0x4B 7)) 0 (dHost 0x4B 7) ?_).2.2.1 ?_ ?_) <;> decide +kernel
theorem test_free_read2 (h : Obligations.CopiesAreWritten) : ∃ t, exec (Instr.freewheelRead 0 (dHost 75 2)) (sN (dHost 75 2)) = .next t := by
  refine next_of ((h.1 (sN (dHost 0x4B 2)) 0 (dHost 0x4B 2) ?_).2.2.1 ?_ ?_) <;> decide +kernel
theorem test_waits (h : Obligations.CopiesAreWritten) :
    ∃ c, sget 0 (settleWaits (sTill tWaiting)).jobFree (tJob tWaiting.words * 8 + 2) = satAdd Config.sat48 c 1000 := by
  refine ⟨_, ((h.1 (sTill tWaiting) 0 (dOf 0) ?_).2.2.2 1 tWaiting 1000 ?_ ?_ ?_ ?_).1⟩ <;> decide +kernel
theorem test_toss_read (h : Obligations.CopiesAreWritten) : ∃ t, exec (Instr.tossRead 0 (dHost 77 1)) (sN (dHost 77 1)) = .next t :=
  next_of (((h.2 (sN (dHost 0x4D 1)) 0 (dHost 0x4D 1)).2).1 (by decide +kernel))
theorem test_receipt_no (h : Obligations.CopiesAreWritten) : ∃ t, exec (Instr.receiptRead 0 (dHost 76 1)) (sN (dHost 76 1)) = .next t := by
  refine next_of ((((h.2 (sN (dHost 0x4C 1)) 0 (dHost 0x4C 1)).2).2).2 ?_ ?_) <;> decide +kernel

/-! ### CommitSetsAreStagedAndArmed -/

theorem test_stage (h : Obligations.CommitSetsAreStagedAndArmed) : ∃ t, exec (Instr.stage 0 dStage [32769, 32770]) (sN dStage) = .next t
    := by
  refine next_of (h.1 (sN dStage) 0 dStage ([0x8001, 0x8002]) 1 2048 2048 ?_ ?_ ?_ ?_ ?_ ?_ ?_) <;> decide +kernel
theorem test_stage0 (h : Obligations.CommitSetsAreStagedAndArmed) : ∃ t, exec (Instr.stage 0 dStage0 []) (sN dStage0) = .next t := by
  refine next_of (h.1 (sN dStage0) 0 dStage0 ([]) 1 2048 2048 ?_ ?_ ?_ ?_ ?_ ?_ ?_) <;> decide +kernel
theorem test_stage_none (h : Obligations.CommitSetsAreStagedAndArmed) : ∃ t, exec (Instr.stage 0 dStageNo []) (sN dStageNo) = .next t := by
  refine next_of ((h.2 (sN dStageNo) 0 dStageNo).1 ([]) ?_ ?_ ?_) <;> decide +kernel
theorem test_stage_part (h : Obligations.CommitSetsAreStagedAndArmed) : ∃ t, exec (Instr.stage 0 dStageT []) (sNoTandem dStageT) = .next t := by
  refine next_of ((h.2 (sNoTandem dStageT) 0 dStageT).1 ([]) ?_ ?_ ?_) <;> decide +kernel
theorem test_arm_unaligned (h : Obligations.CommitSetsAreStagedAndArmed) : ∃ t, exec (Instr.arm 0 dArm) (sUna dArm) = .next t := by
  refine next_of (((h.2 (sUna dArm) 0 dArm).2.1 ?_ ?_ ?_).1 ?_) <;> decide +kernel
theorem test_arm (h : Obligations.CommitSetsAreStagedAndArmed) : ∃ t, exec (Instr.arm 0 dArm) (sN dArm) = .next t := by
  refine next_of (((h.2 (sN dArm) 0 dArm).2.1 ?_ ?_ ?_).2 ?_ ?_ (by rintro ⟨⟩ rfl rfl rfl; rfl)) <;> decide +kernel
theorem test_cancel (h : Obligations.CommitSetsAreStagedAndArmed) : ∃ t, exec (Instr.cancel 0 dCancel) (sCan dCancel) = .next t := by
  refine next_of ((h.2 (sCan dCancel) 0 dCancel).2.2 ({ aSet with tick := 9 }) ?_ ?_ ?_ ?_ ?_) <;> decide +kernel

/-! ### CommitSwitchesTables -/

theorem test_commit (h : Obligations.CommitSwitchesTables) : ∃ t, exec (Instr.commit) sArmed = .next t := by
  refine next_of ((h.1 sArmed aSet ?_ ?_ ?_).2 ?_ ?_ ?_ ?_) <;> decide +kernel
theorem test_commit_bad (h : Obligations.CommitSwitchesTables) : ∃ t, exec (Instr.commit) sArmedBad = .next t := by
  refine next_of ((h.1 sArmedBad aSet ?_ ?_ ?_).1 ?_) <;> decide +kernel
theorem test_commit_route (h : Obligations.CommitSwitchesTables) : ∃ t, exec (Instr.commit) sRoute = .next t := by
  refine next_of ((h.1 sRoute aRoute ?_ ?_ ?_).2 ?_ ?_ ?_ ?_) <;> decide +kernel
theorem test_commit_len (h : Obligations.CommitSwitchesTables) : ∃ t, exec (Instr.commit) sLen = .next t := by
  refine next_of ((h.1 sLen aLen ?_ ?_ ?_).2 ?_ ?_ ?_ ?_) <;> decide +kernel
theorem test_drain_start (h : Obligations.CommitSwitchesTables) : ∃ t, exec (Instr.drainStart) sDrain = .next t := by
  refine next_of ((h.2).1 sDrain aDrain ?_ ?_) <;> decide +kernel
theorem test_overflow (h : Obligations.CommitSwitchesTables) : ∃ t, exec (Instr.overflowCopy) sOver = .next t := by
  refine next_of (((h.2).2).1 sOver (tkey 0x11 9) ([0x80000005]) ([]) ?_ ?_ ?_ ?_ ?_) <;> decide +kernel
theorem test_sample (h : Obligations.CommitSwitchesTables) : ∃ t, exec (Instr.queueSample) sSample = .next t := by
  refine next_of (((h.2).2).2 sSample ?_ ?_) <;> decide +kernel

/-! ### TicksBeginAndAreAdopted -/

theorem test_tick (h : Obligations.TicksBeginAndAreAdopted) : ∃ t, exec (Instr.tickBegin) sTickEnd = .next t := by
  refine next_of (h.1 sTickEnd ?_ ?_) <;> decide +kernel
theorem test_offer (h : Obligations.TicksBeginAndAreAdopted) : ∃ t, exec (Instr.tickOfferReceive 32 fOffer 280000) sOffer = .next t := by
  refine next_of ((h.2).1 sOffer 32 fOffer 280000 0 ?_ ?_ ?_ ?_ ?_ ?_ ?_) <;> decide +kernel
theorem test_offer_send (h : Obligations.TicksBeginAndAreAdopted) : ∃ t, exec (Instr.tickOfferSend 32) sNet = .next t := by
  refine next_of ((h.2).2 sNet 32 ?_ ?_ ?_ ?_ ?_) <;> decide +kernel

/-! ### KickstandsFireAndLeave -/

theorem test_watch (h : Obligations.KickstandsFireAndLeave) : ∃ t, exec (Instr.watchDeadline 0 0) sKs = .next t := by
  refine next_of ((h.1 sKs 0 ?_ ?_ ?_ ?_ ?_).1 0 ?_ ?_ ?_ ?_ ?_) <;> decide +kernel
theorem test_repeat (h : Obligations.KickstandsFireAndLeave) : ∃ t, exec (Instr.kickstandRepeat 0) sDue = .next t := by
  refine next_of ((h.1 sDue 0 ?_ ?_ ?_ ?_ ?_).2 ?_ ?_ ?_ ?_ ?_ ?_ ?_) <;> decide +kernel
theorem test_kick_send (h : Obligations.KickstandsFireAndLeave) : ∃ t, exec (Instr.kickstandSend 0) sDue = .next t := by
  refine next_of (h.2 sDue 0 pend ?_ ?_ ?_ ?_ ?_) <;> decide +kernel

/-! ### TwinsAreCompared -/

theorem test_twin_hold (h : Obligations.TwinsAreCompared) : ∃ t, exec (Instr.tandemRecordReceive (fRec 1 66)) (sTwin 1 66 []) = .next t := by
  refine next_of (((h.1 (sTwin 1 66 []) (fRec 1 66) (inRec 1 66) ?_ ?_ ?_ ?_ ?_ ?_ ?_ ?_ ?_).1 ?_).1 ?_) <;> decide +kernel
theorem test_twin_mis (h : Obligations.TwinsAreCompared) : ∃ t, exec (Instr.tandemRecordReceive (fRec 1 66)) (sTwin 1 66 [ownRec]) = .next
    t := by
  refine next_of (((h.1 (sTwin 1 66 [ownRec]) (fRec 1 66) (inRec 1 66) ?_ ?_ ?_ ?_ ?_ ?_ ?_ ?_ ?_).1 ?_).2 ownRec ?_ ?_ ?_ ?_ ?_) <;>
    decide +kernel
theorem test_twin_state (h : Obligations.TwinsAreCompared) : ∃ t, exec (Instr.tandemRecordReceive (fRec 2 66)) (sTwin 2 66 []) = .next t
    := by
  refine next_of ((h.1 (sTwin 2 66 []) (fRec 2 66) (inRec 2 66) ?_ ?_ ?_ ?_ ?_ ?_ ?_ ?_ ?_).2 ?_) <;> decide +kernel
theorem test_win_own (h : Obligations.TwinsAreCompared) : ∃ t, exec (Instr.tandemWindowExpiry true 0) sExp = .next t := by
  refine next_of (((h.2 sExp ?_).1 ?_ ?_).1 0 ownRec ?_ ?_) <;> decide +kernel
theorem test_win_twin (h : Obligations.TwinsAreCompared) : ∃ t, exec (Instr.tandemWindowExpiry false 0) sExp = .next t := by
  refine next_of ((((h.2 sExp ?_).1 ?_ ?_).2).1 0 ownRec ?_ ?_) <;> decide +kernel
theorem test_twin_lost (h : Obligations.TwinsAreCompared) : ∃ t, exec (Instr.twinLost) sGoneTwin = .next t := by
  refine next_of ((((h.2 sGoneTwin ?_).1 ?_ ?_).2).2 ?_) <;> decide +kernel
theorem test_mgmt (h : Obligations.TwinsAreCompared) : ∃ t, exec (Instr.mgmtReceive 0 fMgmt) sMgmt = .next t := by
  refine next_of ((h.2 sMgmt ?_).2 0 fMgmt ?_ ?_ ?_ ?_) <;> decide +kernel

/-! ### FramesAreCheckedAndRouted -/

theorem test_frame_crc (h : Obligations.FramesAreCheckedAndRouted) : ∃ t, exec (.frameReceive 0 fBadCrc) sFr = .next t := by
  refine next_of ((h sFr 0 fBadCrc ?_ ?_ ?_).1 ?_) <;> decide +kernel
theorem test_frame_form (h : Obligations.FramesAreCheckedAndRouted) : ∃ t, exec (.frameReceive 0 fMalformed) sFr = .next t := by
  refine next_of ((h sFr 0 fMalformed ?_ ?_ ?_).1 ?_) <;> decide +kernel
theorem test_frame_later (h : Obligations.FramesAreCheckedAndRouted) : ∃ t, exec (.frameReceive 0 fWrong) sFrLater = .next t := by
  refine next_of (((h sFrLater 0 fWrong ?_ ?_ ?_).2 ?_ ?_).1 ?_) <;> decide +kernel
theorem test_frame_bad (h : Obligations.FramesAreCheckedAndRouted) : ∃ t, exec (.frameReceive 0 fWrong) sFr = .next t := by
  refine next_of ((((h sFr 0 fWrong ?_ ?_ ?_).2 ?_ ?_).2.1 7 ?_).1 ?_) <;> decide +kernel
theorem test_frame_own (h : Obligations.FramesAreCheckedAndRouted) : ∃ t, exec (.frameReceive 0 fOwn) sFr = .next t := by
  refine next_of (((((h sFr 0 fOwn ?_ ?_ ?_).2 ?_ ?_).2.2 (headerOf fOwn.hdr) ?_ ?_ ?_ ?_).1 ?_).1 ?_) <;> decide +kernel
theorem test_frame_lost (h : Obligations.FramesAreCheckedAndRouted) : ∃ t, exec (.frameReceive 0 fLost) sFr = .next t := by
  refine next_of ((((((h sFr 0 fLost ?_ ?_ ?_).2 ?_ ?_).2.2 (headerOf fLost.hdr) ?_ ?_ ?_ ?_).2 ?_ ?_ ?_).1 ?_).1 ?_) <;> decide +kernel
theorem test_frame_fwd (h : Obligations.FramesAreCheckedAndRouted) : ∃ t, exec (.frameReceive 0 fData) sFr = .next t := by
  refine next_of ((((((h sFr 0 fData ?_ ?_ ?_).2 ?_ ?_).2.2 hData ?_ ?_ ?_ ?_).2 ?_ ?_ ?_).2 32 ?_ ?_ ?_ ?_ ?_ ?_).1 ?_) <;> decide +kernel

/-! ### FramesStartInOrder -/

theorem test_start_credit (h : Obligations.FramesStartInOrder) : ∃ t, exec (.frameStart 0) sOwed = .next t := by
  refine next_of ((h sOwed 0 (qEnt 1 7) ?_ ?_ ?_ ?_ ?_ ?_).1 ?_ ?_) <;> decide +kernel
theorem test_start7 (h : Obligations.FramesStartInOrder) : ∃ t, exec (.frameStart 32) (sQ 7 0) = .next t := by
  refine next_of ((h (sQ 7 0) 32 (qEnt 1 7) ?_ ?_ ?_ ?_ ?_ ?_).2 ?_) <;> decide +kernel
theorem test_start6 (h : Obligations.FramesStartInOrder) : ∃ t, exec (.frameStart 32) (sQ 6 0) = .next t := by
  refine next_of ((h (sQ 6 0) 32 (qEnt 1 6) ?_ ?_ ?_ ?_ ?_ ?_).2 ?_) <;> decide +kernel
theorem test_start5 (h : Obligations.FramesStartInOrder) : ∃ t, exec (.frameStart 32) (sQ 5 0xFFFFFFFFFFFF) = .next t := by
  refine next_of ((h (sQ 5 0xFFFFFFFFFFFF) 32 (qEnt 1 5) ?_ ?_ ?_ ?_ ?_ ?_).2 ?_) <;> decide +kernel
theorem test_start3 (h : Obligations.FramesStartInOrder) : ∃ t, exec (.frameStart 32) (sQ 3 0) = .next t := by
  refine next_of ((h (sQ 3 0) 32 (qEnt 1 3) ?_ ?_ ?_ ?_ ?_ ?_).2 ?_) <;> decide +kernel

/-! ### LaneEventsAct -/

theorem test_stall (h : Obligations.LaneEventsAct) : ∃ t, exec (Instr.sourceStall 32) sCutL = .next t := by
  refine next_of ((h.1 sCutL 32 ?_).1 1990 (qEnt 1 3) 1980 9 ?_ ?_ ?_) <;> decide +kernel
theorem test_cred_rx (h : Obligations.LaneEventsAct) : ∃ t, exec (Instr.creditCycleReceive 32 [1, 2, 3, 4, 5, 6, 7, 65535]) sFr = .next t
    := by
  refine next_of (((h.1 sFr 32 ?_).2).1 ([1, 2, 3, 4, 5, 6, 7, 0xFFFF]) ?_ ?_ ?_) <;> decide +kernel
theorem test_cred_due (h : Obligations.LaneEventsAct) :
    nth (portAt (creditArrives sComing 32) 32).q.credit 7 = nth (portAt sComing 32).q.credit 7 + nth (portAt sComing 32).q.coming 7 :=
  (h.1 sComing 32 (by decide +kernel)).2.2.1 7 (by decide)
theorem test_cred_tx (h : Obligations.LaneEventsAct) : ∃ t, exec (Instr.creditCycleSend 0) sOwed = .next t := by
  refine next_of ((((h.1 sOwed 0 ?_).2).2.2 ?_ ?_).1 ?_ ?_ ?_ ?_) <;> decide +kernel
theorem test_aligned (h : Obligations.LaneEventsAct) : ∃ t, exec (Instr.alignedCopySend 0) sAl = .next t := by
  refine next_of ((((h.1 sAl 0 ?_).2).2.2 ?_ ?_).2 aEnt ?_ ?_ ?_ ?_) <;> decide +kernel
theorem test_reorder (h : Obligations.LaneEventsAct) : ∃ t, exec (Instr.reorderTimerExpiry 1 512 9 7) sReo = .next t := by
  refine next_of (h.2 sReo 1 0x200 9 7 rctx ?_ ?_ ?_) <;> decide +kernel

/-! ### BlocksAreSequenced -/

theorem rpl_lb_all : (blockHeader sBlk (lb 9 true)).all (fun x => !hRpl x.1) = true := by decide +kernel
theorem rpl_lb : ∀ b ∈ [lb 9 true], ∀ x, blockHeader sBlk b = some x → hRpl x.1 = false := by
  rw [List.forall_mem_singleton]
  intro x e
  have a := rpl_lb_all
  rw [e] at a
  exact of_not a
theorem test_block (h : Obligations.BlocksAreSequenced) : ∃ t, exec (Instr.laneBlockReceive 0 [lb 9 false]) sBlk = .next t := by
  refine next_of (((h sBlk 0 ?_ ?_ ?_).1 ?_ ?_ ([lb 9 false]) ?_ ?_ ?_ ?_).1
    (List.forall_mem_singleton.2 ⟨(blockGood sBlk (lb 9 false)).getD 0, by decide +kernel, by decide +kernel, by decide +kernel⟩)) <;> decide +kernel
theorem test_block_bad (h : Obligations.BlocksAreSequenced) : ∃ t, exec (Instr.laneBlockReceive 0 [lb 9 true]) sBlk = .next t := by
  refine next_of ((((h sBlk 0 ?_ ?_ ?_).1 ?_ ?_ ([lb 9 true]) ?_ ?_ ?_ ?_).2 ?_ ?_).1 ?_
    rpl_lb) <;> decide +kernel
theorem test_block_again (h : Obligations.BlocksAreSequenced) : ∃ t, exec (Instr.laneBlockReceive 0 [lbAgain]) sBlk = .next t := by
  refine next_of ((((h sBlk 0 ?_ ?_ ?_).1 ?_ ?_ ([lbAgain]) ?_ ?_ ?_ ?_).2 ?_ ?_).2 ⟨lbAgain, ?_,
    (blockHeader sBlk lbAgain).getD (0, false), ?_, ?_⟩) <;> decide +kernel
theorem test_nak (h : Obligations.BlocksAreSequenced) : ∃ t, exec (Instr.nakReceive 0 nakH) sNak = .next t := by
  refine next_of ((h sNak 0 ?_ ?_ ?_).2 nakH nakH false ?_ ?_ ?_) <;> decide +kernel

/-! ### LinksComeUpAndGoDown -/

theorem test_link_down (h : Obligations.LinksComeUpAndGoDown) : ∃ t, exec (Instr.linkDown 0 (dOf 64)) (sLd 64) = .next t := by
  refine next_of ((h.1 (sLd 0x40) 0 (dOf 0x40 0) ?_ ?_).1 ?_) <;> decide +kernel
theorem test_link_up_ports (h : Obligations.LinksComeUpAndGoDown) : ∃ t, exec (Instr.linkUp 0 (dOf 65)) (sLd 65) = .next
    t := by
  refine next_of ((h.1 (sLd 0x41) 0 (dOf 0x41 0) ?_ ?_).2 ?_ ?_ ?_ ?_) <;> decide +kernel
theorem test_link_up2 (h : Obligations.LinksComeUpAndGoDown) : ∃ t, exec (Instr.linkUp 0 (dOf 65)) sUpDown = .next t := by
  refine next_of ((h.1 sUpDown 0 (dOf 0x41 0) ?_ ?_).2 ?_ ?_ ?_ ?_) <;> decide +kernel
theorem test_quiet (h : Obligations.LinksComeUpAndGoDown) : ∃ t, exec (Instr.linkStateEnd 0 true) sQuiet = .next t := by
  refine next_of (((h.2).1 sQuiet 0 ?_ ?_).1 ?_ ?_ ?_ ?_ true) <;> decide +kernel
theorem test_train (h : Obligations.LinksComeUpAndGoDown) : ∃ t, exec (Instr.linkStateEnd 0 false) sTrain = .next t := by
  refine next_of ((((h.2).1 sTrain 0 ?_ ?_).2).1 ?_ ?_ ?_ ?_ false ?_) <;> decide +kernel
theorem test_train_limit (h : Obligations.LinksComeUpAndGoDown) : ∃ t, exec (Instr.linkStateEnd 0 true) sTrainLate = .next t := by
  refine next_of (((h.2).1 sTrainLate 0 ?_ ?_).2.2.1 ?_ ?_ ?_ ?_ ?_) <;> decide +kernel
theorem test_measure (h : Obligations.LinksComeUpAndGoDown) : ∃ t, exec (Instr.linkStateEnd 0 false) sMeas = .next t := by
  refine next_of (((h.2).1 sMeas 0 ?_ ?_).2.2.2.1 400 401 402 400 ?_ ?_ ?_ ?_ ?_ false) <;> decide +kernel
theorem test_check (h : Obligations.LinksComeUpAndGoDown) : ∃ t, exec (Instr.passbookRotation 0 63 270000) sCheck = .next t := by
  refine next_of (((h.2).1 sCheck 0 ?_ ?_).2.2.2.2.1 0 ([]) ?_ ?_ ?_ ?_ 63 270000 ?_) <;> decide +kernel
theorem test_check_due (h : Obligations.LinksComeUpAndGoDown) : (portAt (applyDue sCheckDue 0) 0).link.st = rowState 0 :=
  (((h.2).1 sCheckDue 0 (by decide +kernel) (by decide +kernel)).2.2.2.2.2 1990 0 (by decide +kernel) (by decide +kernel) (by decide +kernel) (by decide +kernel)).1
theorem test_degrade (h : Obligations.LinksComeUpAndGoDown) : ∃ t, exec (Instr.degradeTimeout 0) sDeg = .next t := by
  refine next_of ((((h.2).2) sDeg 0 0 ?_ ?_).1 1000 ?_ ?_ ?_) <;> decide +kernel
theorem test_los (h : Obligations.LinksComeUpAndGoDown) : ∃ t, exec (Instr.lossOfSignal 0 0) (linkAs edgeLink) = .next t := by
  refine next_of ((((h.2).2) (linkAs edgeLink) 0 0 ?_ ?_).2 ?_ ?_) <;> decide +kernel

/-! ### TillsOpen -/

theorem test_open_no (h : Obligations.TillsOpen) : ∃ t, exec (Instr.tillOpen 0 dOpen objBad) sOpen = .next t := by
  refine next_of ((h.1 sOpen 0 dOpen objBad ?_).1 stRefused ?_) <;> decide +kernel
theorem test_open (h : Obligations.TillsOpen) : ∃ t, exec (Instr.tillOpen 0 dOpen (tObj 1 0 0)) sOpen = .next t := by
  refine next_of (((h.1 sOpen 0 dOpen (tObj 1 0 0) ?_).2 ?_ ?_ (no_till rfl)).1 ?_) <;> decide +kernel
theorem test_open_tick (h : Obligations.TillsOpen) : ∃ t, exec (Instr.tillOpen 0 dOpen (tObj 1 1 0)) sOpen = .next t := by
  refine next_of (((h.1 sOpen 0 dOpen (tObj 1 1 0) ?_).2 ?_ ?_ (no_till rfl)).1 ?_) <;> decide +kernel
theorem test_open_wait (h : Obligations.TillsOpen) : ∃ t, exec (Instr.tillOpen 0 dOpen (tObj 1 0 0)) sNotYet = .next t := by
  refine next_of ((((h.1 sNotYet 0 dOpen (tObj 1 0 0) ?_).2 ?_ ?_ (no_till rfl)).2).1 ?_ ?_ ?_) <;> decide +kernel
theorem test_open_admit (h : Obligations.TillsOpen) : ∃ t, exec (Instr.tillOpen 0 dOpen (tObj 1 0 1)) sNotYet = .next t := by
  refine next_of ((((h.1 sNotYet 0 dOpen (tObj 1 0 1) ?_).2 ?_ ?_ (no_till rfl)).2).2 ?_ ?_ ?_) <;> decide +kernel
theorem test_till_opens (h : Obligations.TillsOpen) :
    tillAt (openTills (sTill tOpening) false) 1 = some { tOpening with st := .open, by_ := none } :=
  (h.2.2 (sTill tOpening) false 1 tOpening (by decide +kernel) (by decide +kernel) (by decide +kernel) (by decide +kernel)).1
theorem test_grant (h : Obligations.TillsOpen) : ∃ t, exec (Instr.admissionGrant 1) (sTill tWait) = .next t := by
  refine next_of (h.2.1 (sTill tWait) 1 tWait ?_ ?_ ?_ ?_ (only_till rfl) ?_ ?_) <;> decide +kernel
theorem test_grant_tick (h : Obligations.TillsOpen) : ∃ t, exec (Instr.admissionGrant 1) (sTill tWaitT) = .next t := by
  refine next_of (h.2.1 (sTill tWaitT) 1 tWaitT ?_ ?_ ?_ ?_ (only_till rfl) ?_ ?_) <;> decide +kernel

/-! ### TillCommandsAct -/

theorem test_close (h : Obligations.TillCommandsAct) : ∃ t, exec (Instr.tillClose 0 (dT 17)) (sT tOpen (dT 17)) = .next t := by
  refine next_of ((h (sT tOpen (dT 0x11)) 0 (dT 0x11) tOpen ?_ ?_).1 ?_ ?_ ?_) <;> decide +kernel
theorem test_abort (h : Obligations.TillCommandsAct) : ∃ t, exec (Instr.tillAbort 0 (dT 18)) (sT tFill (dT 18)) = .next t := by
  refine next_of (((h (sT tFill (dT 0x12)) 0 (dT 0x12) tFill ?_ ?_).2).1 ?_ ?_ ?_ ?_) <;> decide +kernel
theorem test_abort_wait (h : Obligations.TillCommandsAct) : ∃ t, exec (Instr.tillAbort 0 (dT 18)) (sT tWait (dT 18)) = .next t := by
  refine next_of ((((h (sT tWait (dT 0x12)) 0 (dT 0x12) tWait ?_ ?_).2).2).1 ?_ ?_ ?_) <;> decide +kernel
theorem test_save (h : Obligations.TillCommandsAct) : ∃ t, exec (Instr.tillSave 0 (dT 19)) (sT tFill (dT 19)) = .next t := by
  refine next_of (((((h (sT tFill (dT 0x13)) 0 (dT 0x13) tFill ?_ ?_).2).2).2).1 ?_ ?_ ?_ ?_ ?_) <;> decide +kernel
theorem test_excise (h : Obligations.TillCommandsAct) : ∃ t, exec (Instr.tillExcise 0 dExc) (sT tFill dExc) = .next t := by
  refine next_of ((((((h (sT tFill dExc) 0 dExc tFill ?_ ?_).2).2).2).2).1 ?_ ?_ ?_ ?_ ?_ ?_) <;> decide +kernel
theorem test_excise_later (h : Obligations.TillCommandsAct) : ∃ t, exec (Instr.tillExcise 0 dExcLater) (sT tFill dExcLater) = .next t := by
  refine next_of ((((((h (sT tFill dExcLater) 0 dExcLater tFill ?_ ?_).2).2).2).2).1 ?_ ?_ ?_ ?_ ?_ ?_) <;> decide +kernel
theorem test_resume_TillCommandsAct (h : Obligations.TillCommandsAct) : ∃ t, exec (Instr.tillResume 0 (dT 21)) (sT tStop (dT 21)) = .next
    t := by
  refine next_of (((((((h (sT tStop (dT 0x15)) 0 (dT 0x15) tStop ?_ ?_).2).2).2).2).2).1 ?_ ?_ ?_ ?_ ?_) <;> decide +kernel
theorem test_resume_next (h : Obligations.TillCommandsAct) :
    posted (resumeTill (sT tResuming (dT 0x15)) 1) acc0 (cringOf acc0.d0) stOk 0 0 :=
  ((h (sT tResuming (dT 0x15)) 0 (dT 0x15) tResuming (by decide +kernel) (by decide +kernel)).2.2.2.2.2.2.1 acc0 (by decide +kernel)).1
theorem test_restore (h : Obligations.TillCommandsAct) : ∃ t, exec (Instr.tillRestore 0 dRest (imgOf tFill) ReadCheck.first) (sT tSaved
    dRest) = .next t := by
  refine next_of ((((((((h (sT tSaved dRest) 0 dRest tSaved ?_ ?_).2).2).2).2).2).2.2 ?_ ?_ ?_ ?_ ?_ ?_ (imgOf tFill) (ReadCheck.first)).2
    ?_ (uOf (sT tSaved dRest) tSaved) (slabsOf sReady tSaved) ?_) <;> decide +kernel
theorem test_restore_bad (h : Obligations.TillCommandsAct) : ∃ t, exec (Instr.tillRestore 0 dRest { imgOf tFill with checksOk := false } ReadCheck.first) (sT tSaved dRest) = .next t := by
  refine next_of ((((((((h (sT tSaved dRest) 0 dRest tSaved ?_ ?_).2).2).2).2).2).2.2 ?_ ?_ ?_ ?_ ?_ ?_
    ({ imgOf tFill with checksOk := false }) (ReadCheck.first)).1 ?_) <;> decide +kernel

/-! ### DrainsAndImagesAct -/

theorem test_d_save (h : Obligations.DrainsAndImagesAct) : ∃ t, exec (Instr.drainAction 1) (sTill (tDrain DrainKind.save)) = .next t := by
  refine next_of ((h.1 (sTill (tDrain .save)) 1 (tDrain .save) (drn .save) ([]) ?_ ?_ ?_).1 ?_ ?_) <;> decide +kernel
theorem test_d_close (h : Obligations.DrainsAndImagesAct) : ∃ t, exec (Instr.drainAction 1) (sTill (tDrain DrainKind.close)) = .next t := by
  refine next_of (((h.1 (sTill (tDrain .close)) 1 (tDrain .close) (drn .close) ([]) ?_ ?_ ?_).2).1 ?_ ?_) <;> decide +kernel
theorem test_d_end (h : Obligations.DrainsAndImagesAct) : ∃ t, exec (Instr.drainAction 1) (sTill (tDrain (DrainKind.ending 5 3))) = .next t
    := by
  refine next_of ((((h.1 (sTill (tDrain (.ending 5 3))) 1 (tDrain (.ending 5 3)) (drn (.ending 5 3)) ([]) ?_ ?_ ?_).2).2).1 5 ?_ ?_) <;>
    decide +kernel
theorem test_d_halt (h : Obligations.DrainsAndImagesAct) : ∃ t, exec (Instr.drainAction 1) (sTill (tDrain DrainKind.halt)) = .next t := by
  refine next_of ((((h.1 (sTill (tDrain .halt)) 1 (tDrain .halt) (drn .halt) ([]) ?_ ?_ ?_).2).2).2 ?_) <;> decide +kernel
theorem test_written_s (h : Obligations.DrainsAndImagesAct) : ∃ t, exec (Instr.snapshotWritten 1) (sTill tWrit) = .next t := by
  refine next_of ((h.2 (sTill tWrit) 1 tWrit ?_).1 ?_ ?_ ?_ ?_) <;> decide +kernel
theorem test_loaded (h : Obligations.DrainsAndImagesAct) : ∃ t, exec (Instr.restoreLoaded 1) (sTill tLoad) = .next t := by
  refine next_of (((h.2 (sTill tLoad) 1 tLoad ?_).2).1 (imgOf tFill) (some acc0) ?_ ?_ ?_ ?_) <;> decide +kernel
theorem test_preempt (h : Obligations.DrainsAndImagesAct) : ∃ t, exec (Instr.preemptRestore 1) (sTill tPre) = .next t := by
  refine next_of (((h.2 (sTill tPre) 1 tPre ?_).2).2 (imgOf tFill) (uOf (sTill tPre) tPre) (slabsOf sReady tPre) ?_ ?_ ?_ ?_ ?_ ?_ ?_ ?_)
    <;> decide +kernel

/-! ### InputsAreAdded -/

theorem test_in_no (h : Obligations.InputsAreAdded) : ∃ t, exec (if false = true then Instr.partialReceive (fContrib 7 9 0) false else
    Instr.contribReceive (fContrib 7 9 0) false) (sIn tOpen (fContrib 7 9 0)) = .next t := by
  refine next_of ((h.1 (sIn tOpen (fContrib 7 9 0)) (fContrib 7 9 0) false tOpen ?_ ?_ ?_ ?_ ?_ ?_).1 ?_) <;> decide +kernel
theorem test_in_fmt (h : Obligations.InputsAreAdded) : ∃ t, exec (if false = true then Instr.partialReceive (fContrib 5 8 0) false else
    Instr.contribReceive (fContrib 5 8 0) false) (sIn tOpen (fContrib 5 8 0)) = .next t := by
  refine next_of ((h.1 (sIn tOpen (fContrib 5 8 0)) (fContrib 5 8 0) false tOpen ?_ ?_ ?_ ?_ ?_ ?_).1 ?_) <;> decide +kernel
theorem test_in_one (h : Obligations.InputsAreAdded) : ∃ t, exec (if false = true then Instr.partialReceive (fContrib 5 9 1) false else
    Instr.contribReceive (fContrib 5 9 1) false) (sIn tOpen (fContrib 5 9 1)) = .next t := by
  refine next_of ((h.1 (sIn tOpen (fContrib 5 9 1)) (fContrib 5 9 1) false tOpen ?_ ?_ ?_ ?_ ?_ ?_).2 0 (List.replicate 16
    ⟨.fin, 0, 0, 0, false⟩) 0 ?_ ?_ ?_ ?_ ?_ ?_ ?_) <;> decide +kernel
theorem test_in_last (h : Obligations.InputsAreAdded) : ∃ t, exec (if false = true then Instr.partialReceive (fContrib 6 9 0) false else
    Instr.contribReceive (fContrib 6 9 0) false) (sIn tFill (fContrib 6 9 0)) = .next t := by
  refine next_of ((h.1 (sIn tFill (fContrib 6 9 0)) (fContrib 6 9 0) false tFill ?_ ?_ ?_ ?_ ?_ ?_).2 1 (List.replicate 16
    ⟨.fin, 0, 0, 0, false⟩) 0 ?_ ?_ ?_ ?_ ?_ ?_ ?_) <;> decide +kernel
theorem test_in_part (h : Obligations.InputsAreAdded) : ∃ t, exec (if true = true then Instr.partialReceive fPartial false else
    Instr.contribReceive fPartial false) (sIn tInn fPartial) = .next t := by
  refine next_of ((h.1 (sIn tInn fPartial) fPartial true tInn ?_ ?_ ?_ ?_ ?_ ?_).2 1 (List.replicate 16 ⟨.fin, 0, 0, 0, false⟩) 0 ?_ ?_ ?_ ?_
    ?_ ?_ ?_) <;> decide +kernel
theorem test_retire (h : Obligations.InputsAreAdded) : ∃ y, tillAt (retireTill (sTill tRetire) 1) 1 = some y ∧ (chunkOf y 0).st = .minting := by
  refine Exists.imp (fun _ a => ⟨a.1, a.2.2.1⟩) (h.2 (sTill tRetire) 1 0 tRetire cRetire ?_ ?_ ?_ ?_ ?_ ?_ ?_ ?_
    ?_ ?_ ?_ ?_ ?_ ?_ ?_ ?_ ?_).2 <;> decide +kernel

/-! ### TillFramesAndTimersAct -/

theorem test_summary (h : Obligations.TillFramesAndTimersAct) : ∃ t, exec (Instr.summaryReceive fSummary) (sIn tInn fSummary) = .next t := by
  refine next_of ((h.1 (sIn tInn fSummary) fSummary tInn ?_ ?_).1 1 ?_ ?_ ?_ ?_ ?_ ?_ ?_) <;> decide +kernel
theorem test_resend (h : Obligations.TillFramesAndTimersAct) : ∃ t, exec (Instr.resendReqReceive fResend) (sIn tInn fResend) = .next t := by
  refine next_of ((h.1 (sIn tInn fResend) fResend tInn ?_ ?_).2 ?_ ?_ ?_ ?_ ?_ ?_) <;> decide +kernel
theorem test_chunk_timer (h : Obligations.TillFramesAndTimersAct) : ∃ t, exec (Instr.chunkTimerExpiry 1 0) (sTill (tTimer 1)) = .next t := by
  refine next_of (((h.2 (sTill (tTimer 1)) 1 (tTimer 1) 0 ?_ ?_ ?_).1 ?_ ?_ ?_).1 ?_) <;> decide +kernel
theorem test_chunk_lost (h : Obligations.TillFramesAndTimersAct) : ∃ t, exec (Instr.chunkTimerExpiry 1 0) (sTill (tTimer 2)) = .next t := by
  refine next_of (((h.2 (sTill (tTimer 2)) 1 (tTimer 2) 0 ?_ ?_ ?_).1 ?_ ?_ ?_).2 ?_ ?_ ?_) <;> decide +kernel
theorem test_sum_timer (h : Obligations.TillFramesAndTimersAct) : ∃ t, exec (Instr.summaryTimerExpiry 1 1) (sTill (tSumT 1)) = .next t := by
  refine next_of ((((h.2 (sTill (tSumT 1)) 1 (tSumT 1) 1 ?_ ?_ ?_).2).1 1999 1 ?_ ?_).1 ?_) <;> decide +kernel
theorem test_sum_lost (h : Obligations.TillFramesAndTimersAct) : ∃ t, exec (Instr.summaryTimerExpiry 1 1) (sTill (tSumT 2)) = .next t := by
  refine next_of ((((h.2 (sTill (tSumT 2)) 1 (tSumT 2) 1 ?_ ?_ ?_).2).1 1999 2 ?_ ?_).2 ?_ ?_) <;> decide +kernel
theorem test_early (h : Obligations.TillFramesAndTimersAct) : ∃ t, exec (Instr.earlyForwardExpiry 1 0) (sTill tEarlyT) = .next t := by
  refine next_of (((h.2 (sTill tEarlyT) 1 tEarlyT 0 ?_ ?_ ?_).2).2 ?_ ?_ ?_ ?_ ?_ ?_) <;> decide +kernel

/-! ### EpochsEnd -/

theorem test_chunk_done (h : Obligations.EpochsEnd) : ∃ t, exec (Instr.chunkDone 1 0 false) (sTill tMint2) = .next t := by
  refine next_of (((h (sTill tMint2) 1 tMint2 ?_ ?_).1 0 ?_ ?_ ?_ ?_).1 ?_) <;> decide +kernel
theorem test_epoch_done (h : Obligations.EpochsEnd) : ∃ t, exec (Instr.chunkDone 1 0 false) (sTill (tMint 0)) = .next t := by
  refine next_of (((h (sTill (tMint 0)) 1 (tMint 0) ?_ ?_).1 0 ?_ ?_ ?_ ?_).2 ?_ ?_ ?_ ?_ ?_) <;> decide +kernel
theorem test_late (h : Obligations.EpochsEnd) : ∃ t, exec (Instr.tillDeadline 1) (sTill tLate) = .next t := by
  refine next_of ((h (sTill tLate) 1 tLate ?_ ?_).2 1999 ?_ ?_ ?_ ?_ ?_) <;> decide +kernel

/-! ### ProgramsAreLoadedAndRun -/

theorem test_load (h : Obligations.ProgramsAreLoadedAndRun) : ∃ t, exec (Instr.progLoad 0 (dOf 32 7) genIm) (onRing sBare (dOf 32 7)) = .next t
    := by
  refine next_of (((h.1 (onRing sBare (dOf 0x20 7)) 0 (dOf 0x20 7) genIm).1 ?_).1 ?_ ?_ ?_) <;> decide +kernel
theorem test_load_upd (h : Obligations.ProgramsAreLoadedAndRun) : ∃ t, exec (Instr.progLoad 0 (dOf 32 7) updIm) (onRing sBare (dOf 32 7)) =
    .next t := by
  refine next_of (((h.1 (onRing sBare (dOf 0x20 7)) 0 (dOf 0x20 7) updIm).1 ?_).1 ?_ ?_ ?_) <;> decide +kernel
theorem test_load_no (h : Obligations.ProgramsAreLoadedAndRun) : ∃ t, exec (Instr.progLoad 0 (dOf 32 3) genIm) (onRing sBare (dOf 32 3)) = .next
    t := by
  refine next_of (((h.1 (onRing sBare (dOf 0x20 3)) 0 (dOf 0x20 3) genIm).1 ?_).2 ?_) <;> decide +kernel
theorem test_load_ready (h : Obligations.ProgramsAreLoadedAndRun) :
    posted (progCycle sLoading) acc0 (cringOf acc0.d0) stOk 0 (digestLow64 genIm).toNat :=
  ((h.1 sLoading 0 (dOf 0x20 7) []).2.1 { image := genIm, digest := 0, loading := some (1990, acc0) } 1990 acc0 (by decide +kernel)
    (by decide +kernel) rfl (by decide +kernel)).2.1
theorem test_unload (h : Obligations.ProgramsAreLoadedAndRun) : ∃ t, exec (Instr.progUnload 0 (dOf 33 3)) (onRing sBare (dOf 33 3)) = .next t := by
  refine next_of ((h.1 (onRing sBare (dOf 0x21 3)) 0 (dOf 0x21 3) ([])).2.2 ?_ ?_ ?_) <;> decide +kernel
theorem test_run_no (h : Obligations.ProgramsAreLoadedAndRun) : ∃ t, exec (Instr.progRun 0 dRunBad [] []) (sHbC dRunBad) = .next t := by
  refine next_of (((h.2).1 (sHbC dRunBad) 0 dRunBad ([]) ([]) ?_).1 ?_) <;> decide +kernel
theorem test_run (h : Obligations.ProgramsAreLoadedAndRun) : ∃ t, exec (Instr.progRun 0 dRun [] [5]) (sHbC dRun) = .next t := by
  refine next_of (((h.2).1 (sHbC dRun) 0 dRun ([]) ([5]) ?_).2 ?_ ?_) <;> decide +kernel
theorem test_run_start (h : Obligations.ProgramsAreLoadedAndRun) : ∃ t, exec (Instr.enginePassStart 5 false ReadCheck.first) sRunReady = .next t := by
  refine next_of (((h.2).2).1 sRunReady 5 (psRun 64) ([]) (rr 64) ?_ ?_ ?_ ?_ ?_ ?_ ?_) <;> decide +kernel
theorem test_run_fail (h : Obligations.ProgramsAreLoadedAndRun) : ∃ t, exec (Instr.progRunEnd 5 true) (sRunning 64) = .next t := by
  refine next_of ((((h.2).2).2 (sRunning 64) 5 (runningOf 64) (rr 64) ?_ ?_ ?_ ?_ ?_ ?_).1) <;> decide +kernel
theorem test_run_end0 (h : Obligations.ProgramsAreLoadedAndRun) : ∃ t, exec (Instr.progRunEnd 5 false) (sRunning 0) = .next t := by
  refine next_of (((((h.2).2).2 (sRunning 0) 5 (runningOf 0) (rr 0) ?_ ?_ ?_ ?_ ?_ ?_).2).1 ?_ ?_) <;> decide +kernel
theorem test_run_end (h : Obligations.ProgramsAreLoadedAndRun) : ∃ t, exec (Instr.progRunEnd 5 false) (sRunning 64) = .next t := by
  refine next_of (((((h.2).2).2 (sRunning 64) 5 (runningOf 64) (rr 64) ?_ ?_ ?_ ?_ ?_ ?_).2).2 ?_ ?_ ?_) <;> decide +kernel

/-! ### UpdatePassesRun -/

theorem test_upd_start (h : Obligations.UpdatePassesRun) : ∃ t, exec (Instr.updatePassStart 1 0) (sUpd tVault1) = .next t := by
  refine next_of ((h.1 (sUpd tVault1) tVault1 rgVault psUpd vTile (.updatePassStart 1 0) ?_ ?_ ?_ ?_ ?_
    (.inr ⟨rfl, by decide +kernel, by decide +kernel, by decide +kernel, by decide +kernel⟩) ?_).1 ?_ ?_ ?_ ?_) <;> decide +kernel
theorem test_upd_first (h : Obligations.UpdatePassesRun) : ∃ t, exec (Instr.enginePassStart (BitVec.ofNat 12 vTile) (tTick tVault1.words)
    ReadCheck.first) (sUpd tVault1) = .next t := by
  refine next_of ((h.1 (sUpd tVault1) tVault1 rgVault psUpd vTile (.enginePassStart (BitVec.ofNat 12 vTile) (tTick tVault1.words) .first)
    ?_ ?_ ?_ ?_ ?_ (.inl ⟨[], rfl, by decide +kernel, by decide +kernel⟩) ?_).1 ?_ ?_ ?_ ?_) <;> decide +kernel
theorem test_upd_over (h : Obligations.UpdatePassesRun) : ∃ t, exec (Instr.updatePassStart 1 0) sUpdNot = .next t := by
  refine next_of ((h.1 sUpdNot ({ tVault1 with delta := 6 }) rgVault psUpd vTile (.updatePassStart 1 0) ?_ ?_ ?_ ?_ ?_
    (.inr ⟨rfl, by decide +kernel, by decide +kernel, by decide +kernel, by decide +kernel⟩) ?_).2 ?_ ?_) <;> decide +kernel
theorem test_upd_end (h : Obligations.UpdatePassesRun) : ∃ t, exec (Instr.enginePassEnd (BitVec.ofNat 12 vTile) false) sUpdEnd = .next t
    := by
  refine next_of (h.2 sUpdEnd (BitVec.ofNat 12 vTile) false runUpd tVault1 rgVault ?_ ?_ ?_ ?_ ?_ ?_ ?_ ?_ ?_) <;> decide +kernel

/-! ### TallyCommandsAct -/

theorem test_y_no (h : Obligations.TallyCommandsAct) : ∃ t, exec (Instr.tallyOpen 0 dYO yRootW yIns) (sYo (sYs yRoot)) = .next t := by
  refine next_of (((h (sYo (sYs yRoot)) 0 dYO).1 yRootW yIns ?_).1 ?_) <;> decide +kernel
theorem test_y_open (h : Obligations.TallyCommandsAct) : ∃ t, exec (Instr.tallyOpen 0 dYO yRootW yIns) (sYo sReady) = .next t := by
  refine next_of (((h (sYo sReady) 0 dYO).1 yRootW yIns ?_).2 ?_ ?_) <;> decide +kernel
theorem test_y_ctr (h : Obligations.TallyCommandsAct) : ∃ t, exec (Instr.tallyOpen 0 dYO yCtrW []) (sYo sReady) = .next t := by
  refine next_of (((h (sYo sReady) 0 dYO).1 yCtrW ([]) ?_).2 ?_ ?_) <;> decide +kernel
theorem test_y_tick (h : Obligations.TallyCommandsAct) : ∃ t, exec (Instr.tallyOpen 0 dYO yTickW yIns) (sYo sReady) = .next t := by
  refine next_of (((h (sYo sReady) 0 dYO).1 yTickW yIns ?_).2 ?_ ?_) <;> decide +kernel
theorem test_y_close (h : Obligations.TallyCommandsAct) : ∃ t, exec (Instr.tallyClose 0 (dY 25)) (sYc yMid (dY 25)) = .next t := by
  refine next_of ((((h (sYc yMid (dY 0x19)) 0 (dY 0x19)).2).2.1 yMid ?_).1 (.tallyClose 0 (dY 0x19)) 0x19 ?_ ?_) <;> decide +kernel
theorem test_y_abort (h : Obligations.TallyCommandsAct) : ∃ t, exec (Instr.tallyAbort 0 (dY 26)) (sYc yMid (dY 26)) = .next t := by
  refine next_of ((((h (sYc yMid (dY 0x1A)) 0 (dY 0x1A)).2).2.1 yMid ?_).1 (.tallyAbort 0 (dY 0x1A)) 0x1A ?_ ?_) <;> decide +kernel
theorem test_y_exc_later (h : Obligations.TallyCommandsAct) : ∃ t, exec (Instr.tallyExcise 0 dYExL) (sYc yRoot dYExL) = .next t := by
  refine next_of (((((h (sYc yRoot dYExL) 0 dYExL).2).2.1 yRoot ?_).2 ?_ ?_).1 ?_ ?_) <;> decide +kernel
theorem test_y_exc (h : Obligations.TallyCommandsAct) : ∃ t, exec (Instr.tallyExcise 0 dYEx) (sYc yRoot dYEx) = .next t := by
  refine next_of (((((h (sYc yRoot dYEx) 0 dYEx).2).2.1 yRoot ?_).2 ?_ ?_).2 ?_ ?_ ?_ ?_) <;> decide +kernel
theorem test_y_exc_eff (h : Obligations.TallyCommandsAct) : ∃ t, exec (Instr.tallyExciseEffect 2 1) (sYs { yRoot with excisions := [exc1] })
    = .next t := by
  refine next_of (((h (sYs { yRoot with excisions := [exc1] }) 0 dYEx).2).2.2 2 1 ({ yRoot with excisions := [exc1] }) exc1 ?_ ?_ ?_ ?_ ?_)
    <;> decide +kernel
theorem test_y_opens (h : Obligations.TallyCommandsAct) : posted (tallyCycle (sYs yOpening)) acc0 (yCring yOpening.words) stOk 0 0 :=
  ((h (sYs yOpening) 0 dYEx).2.1 2 yOpening acc0 (by decide +kernel) (by decide +kernel) (by decide +kernel) (by decide +kernel)).2

/-! ### TallyInputsAreCounted -/

theorem test_y_bad (h : Obligations.TallyInputsAreCounted) : ∃ t, exec (Instr.tallyArrive (fArr 5 8)) (sYi yRoot (fArr 5 8)) = .next t := by
  refine next_of ((h (sYi yRoot (fArr 5 8)) (fArr 5 8) ({ frame := fArr 5 8, port := 0, arrival := 1990 }) yRoot ?_ ?_ ?_ ?_).1
    (.tallyArrive (fArr 5 8)) 0 ?_ ?_ ?_) <;> decide +kernel
theorem test_y_arr (h : Obligations.TallyInputsAreCounted) : ∃ t, exec (Instr.tallyArrive (fArr 5 9)) (sYi yRoot (fArr 5 9)) = .next t := by
  refine next_of ((((h (sYi yRoot (fArr 5 9)) (fArr 5 9) ({ frame := fArr 5 9, port := 0, arrival := 1990 }) yRoot ?_ ?_ ?_ ?_).2 ?_ ?_ ?_
    ?_).1 (.tallyArrive (fArr 5 9)) 0 false 0 1 1 ?_ ?_ ?_ ?_ ?_ ?_ ?_ ?_).1 ?_) <;> decide +kernel
theorem test_y_last (h : Obligations.TallyInputsAreCounted) : ∃ t, exec (Instr.tallyArrive (fArr 6 9)) (sYi yMid (fArr 6 9)) = .next t := by
  refine next_of (((((h (sYi yMid (fArr 6 9)) (fArr 6 9) ({ frame := fArr 6 9, port := 0, arrival := 1990 }) yMid ?_ ?_ ?_ ?_).2 ?_ ?_ ?_
    ?_).1 (.tallyArrive (fArr 6 9)) 0 false 1 1 1 ?_ ?_ ?_ ?_ ?_ ?_ ?_ ?_).2).1 ?_ ?_ ?_) <;> decide +kernel
theorem test_y_carry (h : Obligations.TallyInputsAreCounted) : ∃ t, exec (Instr.tallyCarry fCar) (sYi yInn fCar) = .next t := by
  refine next_of (((((h (sYi yInn fCar) fCar ({ frame := fCar, port := 0, arrival := 1990 }) yInn ?_ ?_ ?_ ?_).2 ?_ ?_ ?_ ?_).1
    (.tallyCarry fCar) 2 true 1 4 3 ?_ ?_ ?_ ?_ ?_ ?_ ?_ ?_).2).2 ?_ ?_) <;> decide +kernel
theorem test_y_add (h : Obligations.TallyInputsAreCounted) : ∃ t, exec (Instr.tallyAdd (fPlus 2)) (sYi (yCtr 0) (fPlus 2)) = .next t := by
  refine next_of ((((h (sYi (yCtr 0) (fPlus 2)) (fPlus 2) ({ frame := fPlus 2, port := 0, arrival := 1990 }) (yCtr 0) ?_ ?_ ?_ ?_).2 ?_ ?_
    ?_ ?_).2 ?_ ?_).1 ?_) <;> decide +kernel
theorem test_y_add_rel (h : Obligations.TallyInputsAreCounted) : ∃ t, exec (Instr.tallyAdd (fPlus 4)) (sYi (yCtr 2) (fPlus 4)) = .next t
    := by
  refine next_of ((((h (sYi (yCtr 2) (fPlus 4)) (fPlus 4) ({ frame := fPlus 4, port := 0, arrival := 1990 }) (yCtr 2) ?_ ?_ ?_ ?_).2 ?_ ?_
    ?_ ?_).2 ?_ ?_).2 ?_ ?_) <;> decide +kernel

/-! ### TallyGenerationsEnd -/

theorem test_y_rel (h : Obligations.TallyGenerationsEnd) : ∃ t, exec (Instr.tallyReleasePass 0 fRel) (sYi yInn fRel) = .next t := by
  refine next_of ((h (sYi yInn fRel) 2 yInn ?_).1 0 fRel ({ frame := fRel, port := 0, arrival := 1990 }) ?_ ?_ ?_ ?_ ?_ ?_ ?_) <;>
    decide +kernel
theorem test_y_timer (h : Obligations.TallyGenerationsEnd) : ∃ t, exec (Instr.tallyTimerExpiry 2) (sYs yMid) = .next t := by
  refine next_of (((h (sYs yMid) 2 yMid ?_).2).1 ?_ ?_) <;> decide +kernel
theorem test_y_late (h : Obligations.TallyGenerationsEnd) : ∃ t, exec (Instr.tallyDeadline 2) (sYs yTickV) = .next t := by
  refine next_of (((h (sYs yTickV) 2 yTickV ?_).2).2 ?_) <;> decide +kernel

/-! ### RegionsOpenAndClose -/

theorem test_rg_no (h : Obligations.RegionsOpenAndClose) : ∃ t, exec (Instr.regionOpen 0 dRo plainWords [] none) (onRing sHb dRo) = .next
    t := by
  refine next_of (((h (onRing sHb dRo) 0 dRo).1 plainWords ([]) none ?_).1 ?_) <;> decide +kernel
theorem test_rg_plain (h : Obligations.RegionsOpenAndClose) : ∃ t, exec (Instr.regionOpen 0 dRo plainWords [] none) sRo = .next t := by
  refine next_of (((h sRo 0 dRo).1 plainWords ([]) none ?_).2 ?_ ?_) <;> decide +kernel
theorem test_rg_vault (h : Obligations.RegionsOpenAndClose) : ∃ t, exec (Instr.regionOpen 0 dRo vaultWords [] (some [])) sRo = .next t := by
  refine next_of (((h sRo 0 dRo).1 vaultWords ([]) (some []) ?_).2 ?_ ?_) <;> decide +kernel
theorem test_rg_train (h : Obligations.RegionsOpenAndClose) : ∃ t, exec (Instr.regionOpen 0 dRo plainWords [] none) sRoTrain = .next t := by
  refine next_of (((h sRoTrain 0 dRo).1 plainWords ([]) none ?_).2 ?_ ?_) <;> decide +kernel
theorem test_rg_close (h : Obligations.RegionsOpenAndClose) : ∃ t, exec (Instr.regionClose 0 (dRc 3)) (sHbC (dRc 3)) = .next t := by
  refine next_of ((((h (sHbC (dRc 3)) 0 (dRc 3)).2).1 rgPlain ?_ ?_).1 ?_ ?_ ?_ ?_ ?_) <;> decide +kernel
theorem test_rg_bound (h : Obligations.RegionsOpenAndClose) : ∃ t, exec (Instr.regionClose 0 (dRc 4)) sRcBound = .next t := by
  refine next_of ((((h sRcBound 0 (dRc 4)).2).1 rgVault ?_ ?_).2 ?_) <;> decide +kernel
theorem test_mem_conf (h : Obligations.RegionsOpenAndClose) : ∃ t, exec (Instr.memConfig 0 dMc) (onRing sBare dMc) = .next t := by
  refine next_of (((h (onRing sBare dMc) 0 dMc).2).2 ?_ ?_ ?_ ?_) <;> decide +kernel

/-! ### MemoryIsCopied -/

theorem test_cp_no (h : Obligations.MemoryIsCopied) : ∃ t, exec (Instr.memCopy 0 (dCpy 0 33 3) [] ReadCheck.first) (sHbC (dCpy 0 33 3)) =
    .next t := by
  refine next_of (((h (sHbC (dCpy 0 33 3)) 0 (dCpy 0 33 3)).1 ?_ ([]) .first).1 ?_) <;> decide +kernel
theorem test_cp_in (h : Obligations.MemoryIsCopied) : ∃ t, exec (Instr.memCopy 0 (dCpy 0 64 3) [1, 2] ReadCheck.first) (sHbC (dCpy 0 64
    3)) = .next t := by
  refine next_of ((((h (sHbC (dCpy 0 64 3)) 0 (dCpy 0 64 3)).1 ?_ ([1, 2]) .first).2.2.2 ?_ ?_ ?_ ?_ ?_ ?_).1 ?_) <;> decide +kernel
theorem test_cp_out (h : Obligations.MemoryIsCopied) : ∃ t, exec (Instr.memCopy 0 (dCpy 1 64 3) [] ReadCheck.first) (sHbC (dCpy 1 64 3)) =
    .next t := by
  refine next_of ((((h (sHbC (dCpy 1 64 3)) 0 (dCpy 1 64 3)).1 ?_ ([]) .first).2.2.2 ?_ ?_ ?_ ?_ ?_ ?_).2.2 ?_ ?_ ?_) <;> decide +kernel
theorem test_cp_fail (h : Obligations.MemoryIsCopied) : ∃ t, exec (Instr.memCopy 0 (dCpy 1 64 3) [] ReadCheck.fail) (sHbC (dCpy 1 64 3)) =
    .next t := by
  refine next_of ((((h (sHbC (dCpy 1 64 3)) 0 (dCpy 1 64 3)).1 ?_ ([]) .fail).2.2.2 ?_ ?_ ?_ ?_ ?_ ?_).2.1 ?_ ?_) <;> decide +kernel
theorem test_cp_bound (h : Obligations.MemoryIsCopied) : ∃ t, exec (Instr.memCopy 0 (dCpy 1 64 9) [] ReadCheck.first) (sHbC (dCpy 1 64 9)) =
    .next t := by
  refine next_of (((h (sHbC (dCpy 1 64 9)) 0 (dCpy 1 64 9)).1 ?_ ([]) .first).2.2.1 ?_ ?_ ?_ ?_ ?_ msProtected ?_) <;> decide +kernel
theorem test_cp_far (h : Obligations.MemoryIsCopied) : ∃ t, exec (Instr.memCopy 0 (dCpy 0 64 4099) [1] ReadCheck.first)
    (sFar (dCpy 0 64 4099)) = .next t := by
  refine next_of (((h (sFar (dCpy 0 64 4099)) 0 (dCpy 0 64 4099)).1 ?_ ([1]) .first).2.1 ?_ ?_ ?_ ?_ ?_) <;> decide +kernel
theorem test_gat (h : Obligations.MemoryIsCopied) : ∃ t, exec (Instr.vaultGather 0 (dGat 7) ReadCheck.first) (sHbC (dGat 7)) = .next t := by
  refine next_of ((((h (sHbC (dGat 7)) 0 (dGat 7)).2 rgVault ?_ ?_ ?_).1 ?_ ?_ ?_).2.1 ?_ ?_ .first ?_) <;> decide +kernel
theorem test_gat_fail (h : Obligations.MemoryIsCopied) : ∃ t, exec (Instr.vaultGather 0 (dGat 7) ReadCheck.fail) (sHbC (dGat 7)) = .next t := by
  refine next_of ((((h (sHbC (dGat 7)) 0 (dGat 7)).2 rgVault ?_ ?_ ?_).1 ?_ ?_ ?_).1 ?_) <;> decide +kernel
theorem test_gat_no (h : Obligations.MemoryIsCopied) : ∃ t, exec (Instr.vaultGather 0 (dGat 8) ReadCheck.first) (sHbC (dGat 8)) = .next t
    := by
  refine next_of ((((h (sHbC (dGat 8)) 0 (dGat 8)).2 rgVault ?_ ?_ ?_).1 ?_ ?_ ?_).2.2 ?_ .first) <;> decide +kernel
theorem test_qry (h : Obligations.MemoryIsCopied) : ∃ t, exec (Instr.vaultQuery 0 dQry) (sHbC dQry) = .next t := by
  refine next_of (((h (sHbC dQry) 0 dQry).2 rgVault ?_ ?_ ?_).2 ?_) <;> decide +kernel

/-! ### MemoryFramesAreAnswered -/

theorem test_mrd_st (h : Obligations.MemoryFramesAreAnswered) : ∃ t, exec (Instr.memRdReceive (fMrd 9 2 0 0 0) ReadCheck.first) (sMf (fMrd
    9 2 0 0 0)) = .next t := by
  refine next_of (((h.1.1 (sMf (fMrd 9 2 0 0 0)) (fMrd 9 2 0 0 0) ({ frame := fMrd 9 2 0 0 0, port := 0, arrival := 1900 }) ?_ ?_
    (.inl (by decide +kernel))).1 ?_ ?_ ?_).1 ?_) <;> decide +kernel
theorem test_mrd (h : Obligations.MemoryFramesAreAnswered) : ∃ t, exec (Instr.memRdReceive (fMrd 3 2 0 0 0) ReadCheck.first) (sMf (fMrd 3
    2 0 0 0)) = .next t := by
  refine next_of ((((h.1.1 (sMf (fMrd 3 2 0 0 0)) (fMrd 3 2 0 0 0) ({ frame := fMrd 3 2 0 0 0, port := 0, arrival := 1900 }) ?_ ?_
    (.inl (by decide +kernel))).1 ?_ ?_ ?_).2).1 rgPlain ?_ ?_ ?_ ?_) <;> decide +kernel
theorem test_mrd_v (h : Obligations.MemoryFramesAreAnswered) : ∃ t, exec (Instr.memRdReceive (fMrd 4 2 0 0 7) ReadCheck.first) (sMf (fMrd
    4 2 0 0 7)) = .next t := by
  refine next_of ((((h.1.1 (sMf (fMrd 4 2 0 0 7)) (fMrd 4 2 0 0 7) ({ frame := fMrd 4 2 0 0 7, port := 0, arrival := 1900 }) ?_ ?_
    (.inl (by decide +kernel))).1 ?_ ?_ ?_).2).1 rgVault ?_ ?_ ?_ ?_) <;> decide +kernel
theorem test_mrd_park (h : Obligations.MemoryFramesAreAnswered) : ∃ t, exec (Instr.memRdReceive (fMrd 4 2 0 0 8) ReadCheck.first) (sMfB
    (fMrd 4 2 0 0 8)) = .next t := by
  refine next_of ((((h.1.1 (sMfB (fMrd 4 2 0 0 8)) (fMrd 4 2 0 0 8) ({ frame := fMrd 4 2 0 0 8, port := 0, arrival := 1900 }) ?_ ?_
    (.inl (by decide +kernel))).1 ?_ ?_ ?_).2).2 rgVault ?_ ?_ ?_ ?_) <;> decide +kernel
theorem test_mrel (h : Obligations.MemoryFramesAreAnswered) : ∃ t, exec (Instr.versionRelease (fMrd 4 0 1 0 7)) (sMf (fMrd 4 0 1 0 7)) =
    .next t := by
  refine next_of (((h.1.1 (sMf (fMrd 4 0 1 0 7)) (fMrd 4 0 1 0 7) ({ frame := fMrd 4 0 1 0 7, port := 0, arrival := 1900 }) ?_ ?_
    (.inl (by decide +kernel))).2).1 rgVault ?_ ?_ ?_ ?_ ?_) <;> decide +kernel
theorem test_mwr (h : Obligations.MemoryFramesAreAnswered) : ∃ t, exec (Instr.memWrReceive (fMwr 1)) (sMf (fMwr 1)) = .next t := by
  refine next_of (((h.1.1 (sMf (fMwr 1)) (fMwr 1) ({ frame := fMwr 1, port := 0, arrival := 1900 }) ?_ ?_ (.inl (by decide +kernel))).2).2
    ?_ ?_) <;> decide +kernel
theorem test_mwr_no (h : Obligations.MemoryFramesAreAnswered) : ∃ t, exec (Instr.memWrReceive (fMwr 65535)) (sMf (fMwr 65535)) = .next t
    := by
  refine next_of (((h.1.1 (sMf (fMwr 65535)) (fMwr 65535) ({ frame := fMwr 65535, port := 0, arrival := 1900 }) ?_ ?_
    (.inl (by decide +kernel))).2).2 ?_ ?_) <;> decide +kernel
theorem test_mwr_lands (h : Obligations.MemoryFramesAreAnswered) : (landWrites sLand).hbm.writing = [] :=
  (h.1.2 sLand jLand (by decide +kernel) (by decide +kernel)).2
theorem test_rsp (h : Obligations.MemoryFramesAreAnswered) : ∃ t, exec (Instr.memRspReceive (fRsp 0)) (sRsp 2 0) = .next t := by
  refine next_of (((h.2 (sRsp 2 0) 77 (rqst false 4) ?_).1 (.memRspReceive (fRsp 0)) 0 (List.replicate 64 1) (xfr 2) 4 ?_ ?_ ?_ ?_
    (.inl ⟨_, rfl, by decide +kernel, by decide +kernel, by decide +kernel, by decide +kernel⟩)).1 ?_) <;> decide +kernel
theorem test_rsp_last (h : Obligations.MemoryFramesAreAnswered) : ∃ t, exec (Instr.memRspReceive (fRsp 3)) (sRsp 1 3) = .next t := by
  refine next_of (((h.2 (sRsp 1 3) 77 (rqst false 4) ?_).1 (.memRspReceive (fRsp 3)) 3 (List.replicate 64 1) (xfr 1) 4 ?_ ?_ ?_ ?_
    (.inl ⟨_, rfl, by decide +kernel, by decide +kernel, by decide +kernel, by decide +kernel⟩)).2 ?_) <;> decide +kernel
theorem test_tmo_last (h : Obligations.MemoryFramesAreAnswered) : ∃ t, exec (Instr.memRequestTimeout 77) (sRq true 1 100000000) = .next t
    := by
  refine next_of (((h.2 (sRq true 1 100000000) 77 (rqst true 4) ?_).1 (.memRequestTimeout 77) 5 ([]) (xfr 1) 4 ?_ ?_ ?_ ?_
    (.inr ⟨rfl, by decide +kernel, by decide +kernel, rfl, rfl⟩)).2 ?_) <;> decide +kernel
theorem test_tmo (h : Obligations.MemoryFramesAreAnswered) : ∃ t, exec (Instr.memRequestTimeout 77) (sRq false 1 100000000) = .next t := by
  refine next_of ((h.2 (sRq false 1 100000000) 77 (rqst false 4) ?_).2 ?_ ?_) <;> decide +kernel

/-! ### VersionsAndStacksProceed -/

theorem test_reclaim (h : Obligations.VersionsAndStacksProceed) : ∃ t, exec (Instr.versionReclaim 4) (sRg rgHeld 131072) = .next t := by
  refine next_of ((h.1 (sRg rgHeld 131072) 4 rgHeld ?_).1 ?_ ?_ ?_ ?_ ?_) <;> decide +kernel
theorem test_param (h : Obligations.VersionsAndStacksProceed) : ∃ t, exec (Instr.paramBlockRead 4 (some [1])) (sRg (rgNoPar 0) 2000) =
    .next t := by
  refine next_of (((h.1 (sRg (rgNoPar 0) 2000) 4 (rgNoPar 0) ?_).2 ?_).1 ([1])) <;> decide +kernel
theorem test_param_no (h : Obligations.VersionsAndStacksProceed) : ∃ t, exec (Instr.paramBlockRead 4 none) (sRg (rgNoPar 16) 2000) = .next
    t := by
  refine next_of (((h.1 (sRg (rgNoPar 16) 2000) 4 (rgNoPar 16) ?_).2 ?_).2) <;> decide +kernel
theorem test_train_VersionsAndStacksProceed (h : Obligations.VersionsAndStacksProceed) : ∃ t, exec (Instr.hbmTrainingDone 0 true) sTrainH
    = .next t := by
  refine next_of ((h.2 sTrainH 0 ({ training := true }) ?_).1 true ?_ ?_) <;> decide +kernel
theorem test_train_no (h : Obligations.VersionsAndStacksProceed) : ∃ t, exec (Instr.hbmTrainingDone 0 false) sTrainH = .next t := by
  refine next_of ((h.2 sTrainH 0 ({ training := true }) ?_).1 false ?_ ?_) <;> decide +kernel
theorem test_refresh (h : Obligations.VersionsAndStacksProceed) : ∃ t, exec (Instr.hbmRefresh 1) { sHb with now := 7000 }
    = .next t := by
  refine next_of ((h.2 ({ sHb with now := 7000 }) 1 st1 ?_).2 ?_ ?_ ?_) <;> decide +kernel

/-! ### RelaysAct -/

theorem test_rl_open (h : Obligations.RelaysAct) : ∃ t, exec (Instr.relayOpen 0 dRel rMem) (sHbC dRel) = .next t := by
  refine next_of ((h.1 (sHbC dRel) 0 dRel).1 rMem ?_ ?_ ?_ ?_ ?_ ?_ ?_ ?_ ?_ ?_ ?_ ?_
    (by rintro _ (_ | ⟨_, _ | ⟨_, ⟨⟩⟩⟩) <;> decide +kernel) ?_) <;> decide +kernel
theorem test_rl_close (h : Obligations.RelaysAct) : ∃ t, exec (Instr.relayClose 0 dRelC) (onRing (sRl rlStaged) dRelC) = .next t := by
  refine next_of ((h.1 (onRing (sRl rlStaged) dRelC) 0 dRelC).2 rlStaged ?_ ?_) <;> decide +kernel
theorem test_rl_now (h : Obligations.RelaysAct) : ∃ t, exec (Instr.relayFrameReceive 0 fRl) (sRl rlHeld) = .next t := by
  refine next_of (((h.2).1 (sRl rlHeld) 0 fRl rlHeld 0 ?_ ?_ ?_ ?_ ?_ ?_).1 ?_) <;> decide +kernel
theorem test_rl_stage (h : Obligations.RelaysAct) : ∃ t, exec (Instr.relayFrameReceive 0 fRl2) (sRl2 rlHeld) = .next t := by
  refine next_of ((((h.2).1 (sRl2 rlHeld) 0 fRl2 rlHeld 0 ?_ ?_ ?_ ?_ ?_ ?_).2.1 ?_ ?_).1 ?_) <;> decide +kernel
theorem test_rl_max (h : Obligations.RelaysAct) : ∃ t, exec (Instr.relayFrameReceive 0 fRl2) (sRl2 rlMax) = .next t := by
  refine next_of ((((h.2).1 (sRl2 rlMax) 0 fRl2 rlMax 0 ?_ ?_ ?_ ?_ ?_ ?_).2.1 ?_ ?_).2 ?_) <;> decide +kernel
theorem test_rl_full (h : Obligations.RelaysAct) : ∃ t, exec (Instr.relayFrameReceive 0 fRl2) (sRl2 rlFull) = .next t := by
  refine next_of (((h.2).1 (sRl2 rlFull) 0 fRl2 rlFull 0 ?_ ?_ ?_ ?_ ?_ ?_).2.2 ?_ ?_) <;> decide +kernel
theorem test_rl_send (h : Obligations.RelaysAct) : ∃ t, exec (Instr.relayCopySend 6 1) (sRl rlStaged) = .next t := by
  refine next_of (((h.2).2 (sRl rlStaged) 6 1 rlStaged ?_ ?_ ?_).1 fRl ?_ ?_) <;> decide +kernel
theorem test_rl_skip (h : Obligations.RelaysAct) : ∃ t, exec (Instr.relaySkip 6 1) sSkip = .next t := by
  refine next_of (((h.2).2 sSkip 6 1 rlSkip ?_ ?_ ?_).2 100 ?_ ?_ ?_) <;> decide +kernel

/-! ### StrapChangeIsRecorded -/

theorem test_strap_StrapChangeIsRecorded (h : Obligations.StrapChangeIsRecorded) : ∃ t, exec (Instr.strapChange 4097) sStrap = .next t := by
  refine next_of (h sStrap 0x1001 ?_ ?_) <;> decide +kernel

/-! ### BadOpeningsAndFreeObjectsAreRefused -/

theorem test_fr1 (h : Obligations.BadOpeningsAndFreeObjectsAreRefused) : ∃ t, exec (Instr.tillClose 0 (dOf 17 1)) (sFree (dOf 17 1)) = .next t := by
  refine next_of ((h.2 (sFree (dOf 0x11 1)) 0 (dOf 0x11 1)).1 (.tillClose 0 (dOf 0x11 1)) 0x11 ?_ ?_ ?_) <;> decide +kernel
theorem test_fr2 (h : Obligations.BadOpeningsAndFreeObjectsAreRefused) : ∃ t, exec (Instr.tallyAbort 0 (dOf 26 1)) (sFree (dOf 26 1)) = .next t := by
  refine next_of (((h.2 (sFree (dOf 0x1A 1)) 0 (dOf 0x1A 1)).2).1 (.tallyAbort 0 (dOf 0x1A 1)) 0x1A ?_ ?_ ?_) <;> decide +kernel
theorem test_fr3 (h : Obligations.BadOpeningsAndFreeObjectsAreRefused) : ∃ t, exec (Instr.vaultGather 0 (dOf 44 1) ReadCheck.first) (sFree (dOf 44 1)) =
    .next t := by
  refine next_of ((((h.2 (sFree (dOf 0x2C 1)) 0 (dOf 0x2C 1)).2).2).1 (.vaultGather 0 (dOf 0x2C 1) .first) 0x2C .first ?_ ?_ ?_) <;> decide +kernel
theorem test_fr4 (h : Obligations.BadOpeningsAndFreeObjectsAreRefused) : ∃ t, exec (Instr.relayClose 0 (dOf 49 1)) (sFree (dOf 49 1)) = .next t := by
  refine next_of (((((h.2 (sFree (dOf 0x31 1)) 0 (dOf 0x31 1)).2).2).2).1 ?_ ?_) <;> decide +kernel
theorem test_fr5 (h : Obligations.BadOpeningsAndFreeObjectsAreRefused) : ∃ t, exec (Instr.progUnload 0 (dOf 33 1)) (sFree (dOf 33 1)) = .next t := by
  refine next_of (((((h.2 (sFree (dOf 0x21 1)) 0 (dOf 0x21 1)).2).2).2).2 ?_ ?_) <;> decide +kernel
theorem test_wt (h : Obligations.BadOpeningsAndFreeObjectsAreRefused) : ∃ t, exec (Instr.tillOpen 0 dOpen objWeighted)
    sOpen = .next t := by
  refine next_of (h.1 sOpen 0 dOpen
    objWeighted
    ?_ ?_) <;> decide +kernel
theorem test_sc (h : Obligations.BadOpeningsAndFreeObjectsAreRefused) : ∃ t, exec (Instr.tillOpen 0 dOpen objScale)
    sOpen = .next t := by
  refine next_of (h.1 sOpen 0 dOpen
    objScale
    ?_ ?_) <;> decide +kernel

/-! ### BridgeAndFailuresAct -/

def eFault (copy : Nat) (hard : Bool) : EntryFault := { tid := 0x12, idx := 3, copy := copy, die := 0, hard := hard, found := some 1990 }
def sFault (l : List EntryFault) : State := { sFr with faults := { entries := l } }
theorem test_repair (h : Obligations.BridgeAndFailuresAct) : (tableCycle (sFault [eFault 1 false])).faults.entries = [] :=
  ((h.2.1 (sFault [eFault 1 false]) (eFault 1 false) 1990 (by decide +kernel) rfl rfl rfl (by decide +kernel)).2.1 rfl).1
theorem test_unused (h : Obligations.BridgeAndFailuresAct) :
    (tableCycle (sFault [eFault 1 true])).faults.entries = [{ eFault 1 true with unused := true }] :=
  ((h.2.1 (sFault [eFault 1 true]) (eFault 1 true) 1990 (by decide +kernel) rfl rfl rfl (by decide +kernel)).2.2 rfl).1
theorem test_table_detect (h : Obligations.BridgeAndFailuresAct) : inputCheck (sFault [eFault 0 true, eFault 1 false]) 0 hData = .error 0x12 := by
  refine h.2.2.1 (sFault [eFault 0 true, eFault 1 false]) 0 hData (0x12, 3) ?_ ?_ ?_ ?_ ?_ ?_ <;> decide +kernel
theorem test_rewritten (h : Obligations.BridgeAndFailuresAct) : copyFails (setActive (sFault [eFault 0 false]) 0x12 3 [5]) 0x12 3 0 = false :=
  h.2.2.2.1 (sFault [eFault 0 false]) 0x12 3 [5] (by decide +kernel) 0
theorem test_fenced (h : Obligations.BridgeAndFailuresAct) : sget 0 (testCell sFr (held1 3) { fid := 1, cell := 7, hard := true }).pools.cellsFenced 0 = 1 :=
  ((h.2.2.2.2.1 sFr (held1 3) { fid := 1, cell := 7, hard := true } (by decide +kernel)).1 rfl).1
theorem test_cell_good (h : Obligations.BridgeAndFailuresAct) : (testCell sFr (held1 3) { fid := 1, cell := 7, hard := false }).pools = sFr.pools :=
  ((h.2.2.2.2.1 sFr (held1 3) { fid := 1, cell := 7, hard := false } (by decide +kernel)).2 rfl).1
def sFlits : State := { sMf (fMwr 1) with bridge := { uncorr := List.replicate 15 (1, 1900) } }
theorem test_flit (h : Obligations.BridgeAndFailuresAct) :
    bit (statAt (uncorrectable sFlits 1 (.input 0 1900)) (srcCore 1)).status.toNat coreBridge = true :=
  (h.2.2.2.2.2 sFlits 1 0 1900 (by decide +kernel) (by decide +kernel)).2.2.2 (by decide +kernel)

/-! ### Every family completes -/

theorem rMem_fit : ∀ w ∈ rMem, fld w 63 34 = 0 := by
  rintro _ (_ | ⟨_, _ | ⟨_, ⟨⟩⟩⟩) <;> decide +kernel
theorem test_ring_open (h : Obligations.RingCommandsComplete) : ∃ t, exec (.tillOpen 0 dOpen (tObj 1 0 0)) sOpen = .next t := by
  refine next_of ((h sOpen 0 dOpen).1 (tObj 1 0 0) ?_ ?_ ?_ (no_till rfl) ?_) <;> decide +kernel
theorem test_ring_close (h : Obligations.RingCommandsComplete) : ∃ t, exec (.tillClose 0 (dT 0x11)) (sT tOpen (dT 0x11)) = .next t := by
  refine next_of (((h (sT tOpen (dT 0x11)) 0 (dT 0x11)).2.1 tOpen ?_ ?_ ?_ ?_ ?_).1 ?_ ?_) <;> decide +kernel
theorem test_ring_abort (h : Obligations.RingCommandsComplete) : ∃ t, exec (.tillAbort 0 (dT 0x12)) (sT tFill (dT 0x12)) = .next t := by
  refine next_of (((h (sT tFill (dT 0x12)) 0 (dT 0x12)).2.1 tFill ?_ ?_ ?_ ?_ ?_).2.1 ?_ ?_ ?_) <;> decide +kernel
theorem test_ring_save (h : Obligations.RingCommandsComplete) : ∃ t, exec (.tillSave 0 (dT 0x13)) (sT tFill (dT 0x13)) = .next t := by
  refine next_of (((h (sT tFill (dT 0x13)) 0 (dT 0x13)).2.1 tFill ?_ ?_ ?_ ?_ ?_).2.2.1 ?_ ?_ ?_) <;> decide +kernel
theorem test_ring_excise (h : Obligations.RingCommandsComplete) : ∃ t, exec (.tillExcise 0 dExc) (noTick (sT tFill dExc)) = .next t := by
  refine next_of (((h (noTick (sT tFill dExc)) 0 dExc).2.1 tFill ?_ ?_ ?_ ?_ ?_).2.2.2.1 ?_ ?_ ?_ ?_ ?_) <;> decide +kernel
theorem test_ring_resume (h : Obligations.RingCommandsComplete) : ∃ t, exec (.tillResume 0 (dT 0x15)) (sT tStop (dT 0x15)) = .next t := by
  refine next_of (((h (sT tStop (dT 0x15)) 0 (dT 0x15)).2.1 tStop ?_ ?_ ?_ ?_ ?_).2.2.2.2.1 ?_ ?_ ?_ ?_) <;> decide +kernel
theorem test_ring_restore (h : Obligations.RingCommandsComplete) : ∃ t, exec (.tillRestore 0 dRest (imgOf tFill) .first) (sT tSaved
    dRest) = .next t := by
  refine next_of (((h (sT tSaved dRest) 0 dRest).2.1 tSaved ?_ ?_ ?_ ?_ ?_).2.2.2.2.2 (imgOf tFill) .first (uOf (sT tSaved dRest) tSaved)
    (slabsOf sReady tSaved) ?_ ?_ ?_ ?_ ?_ ?_) <;> decide +kernel
theorem test_ring_tally (h : Obligations.RingCommandsComplete) : ∃ t, exec (.tallyOpen 0 dYO yRootW yIns) (sYo sReady) = .next t := by
  refine next_of ((h (sYo sReady) 0 dYO).2.2.1 yRootW yIns ?_ ?_ ?_) <;> decide +kernel
theorem test_ring_tclose (h : Obligations.RingCommandsComplete) : ∃ t, exec (.tallyClose 0 (dY 0x19)) (sYc yMid (dY 0x19)) = .next t := by
  refine next_of (((h (sYc yMid (dY 0x19)) 0 (dY 0x19)).2.2.2.1 yMid ?_).1 ?_) <;> decide +kernel
theorem test_ring_tabort (h : Obligations.RingCommandsComplete) : ∃ t, exec (.tallyAbort 0 (dY 0x1A)) (sYc yMid (dY 0x1A)) = .next t := by
  refine next_of (((h (sYc yMid (dY 0x1A)) 0 (dY 0x1A)).2.2.2.1 yMid ?_).2.1 ?_) <;> decide +kernel
theorem test_ring_texcise (h : Obligations.RingCommandsComplete) : ∃ t, exec (.tallyExcise 0 dYExL) (sYc yRoot dYExL) = .next t := by
  refine next_of (((h (sYc yRoot dYExL) 0 dYExL).2.2.2.1 yRoot ?_).2.2 ?_ ?_ ?_ ?_) <;> decide +kernel
theorem test_ring_load (h : Obligations.RingCommandsComplete) : ∃ t, exec (.progLoad 0 (dOf 0x20 7) genIm) (onRing sBare (dOf 0x20 7)) =
    .next t := by
  refine next_of ((h (onRing sBare (dOf 0x20 7)) 0 (dOf 0x20 7)).2.2.2.2.1 genIm ?_ ?_ ?_ ?_) <;> decide +kernel
theorem test_ring_unload (h : Obligations.RingCommandsComplete) : ∃ t, exec (.progUnload 0 (dOf 0x21 3)) (onRing sBare (dOf 0x21 3)) =
    .next t := by
  refine next_of ((h (onRing sBare (dOf 0x21 3)) 0 (dOf 0x21 3)).2.2.2.2.2.1 ?_ ?_ ?_) <;> decide +kernel
theorem test_ring_run (h : Obligations.RingCommandsComplete) : ∃ t, exec (.progRun 0 dRun [] [5]) (sHbC dRun) = .next t := by
  refine next_of ((h (sHbC dRun) 0 dRun).2.2.2.2.2.2.1 [] [5] ?_ ?_ ?_) <;> decide +kernel
theorem test_ring_region (h : Obligations.RingCommandsComplete) : ∃ t, exec (.regionOpen 0 dRo vaultWords [] (some [])) sRo = .next t := by
  refine next_of ((h sRo 0 dRo).2.2.2.2.2.2.2.1 vaultWords [] (some []) ?_ ?_ ?_) <;> decide +kernel
theorem test_ring_rclose (h : Obligations.RingCommandsComplete) : ∃ t, exec (.regionClose 0 (dRc 3)) (sHbC (dRc 3)) = .next t := by
  refine next_of (((h (sHbC (dRc 3)) 0 (dRc 3)).2.2.2.2.2.2.2.2.1 rgPlain ?_ ?_).1 ?_ ?_ ?_ ?_ ?_) <;> decide +kernel
theorem test_ring_gather (h : Obligations.RingCommandsComplete) : ∃ t, exec (.vaultGather 0 (dGat 7) .first) (sHbC (dGat 7)) = .next t := by
  refine next_of ((((h (sHbC (dGat 7)) 0 (dGat 7)).2.2.2.2.2.2.2.2.1 rgVault ?_ ?_).2 ?_ ?_).1 ?_ ?_ ?_ ?_) <;> decide +kernel
theorem test_ring_query (h : Obligations.RingCommandsComplete) : ∃ t, exec (.vaultQuery 0 dQry) (sHbC dQry) = .next t := by
  refine next_of ((((h (sHbC dQry) 0 dQry).2.2.2.2.2.2.2.2.1 rgVault ?_ ?_).2 ?_ ?_).2 ?_) <;> decide +kernel
theorem test_ring_conf (h : Obligations.RingCommandsComplete) : ∃ t, exec (.memConfig 0 dMc) (onRing sBare dMc) = .next t := by
  refine next_of ((h (onRing sBare dMc) 0 dMc).2.2.2.2.2.2.2.2.2.1 ?_ ?_ ?_ ?_) <;> decide +kernel
theorem test_ring_copy (h : Obligations.RingCommandsComplete) : ∃ t, exec (.memCopy 0 (dCpy 0 64 3) [1, 2] .first) (sHbC (dCpy 0 64 3)) =
    .next t := by
  refine next_of ((h (sHbC (dCpy 0 64 3)) 0 (dCpy 0 64 3)).2.2.2.2.2.2.2.2.2.2.1 [1, 2] ?_ ?_ ?_ ?_ ?_ ?_ ?_ ?_) <;> decide +kernel
theorem test_ring_ropen (h : Obligations.RingCommandsComplete) : ∃ t, exec (.relayOpen 0 dRel rMem) (sHbC dRel) = .next t := by
  refine next_of ((h (sHbC dRel) 0 dRel).2.2.2.2.2.2.2.2.2.2.2.1 rMem ?_ ?_ ?_ ?_ ?_ ?_ ?_ ?_ ?_ ?_ ?_ ?_ rMem_fit ?_) <;> decide +kernel
theorem test_ring_rlclose (h : Obligations.RingCommandsComplete) : ∃ t, exec (.relayClose 0 dRelC) (onRing (sRl rlStaged) dRelC) = .next
    t := by
  refine next_of ((h (onRing (sRl rlStaged) dRelC) 0 dRelC).2.2.2.2.2.2.2.2.2.2.2.2.1 rlStaged ?_ ?_) <;> decide +kernel
theorem test_ring_stage (h : Obligations.RingCommandsComplete) : ∃ t, exec (.stage 0 dStage [0x8001, 0x8002]) (sN dStage) = .next t := by
  refine next_of ((h (sN dStage) 0 dStage).2.2.2.2.2.2.2.2.2.2.2.2.2.1 [0x8001, 0x8002] 1 2048 2048 ?_ ?_ ?_ ?_ ?_ ?_ ?_ ?_) <;>
    decide +kernel
theorem test_ring_arm (h : Obligations.RingCommandsComplete) : ∃ t, exec (.arm 0 dArm) (sN dArm) = .next t := by
  refine next_of ((h (sN dArm) 0 dArm).2.2.2.2.2.2.2.2.2.2.2.2.2.2.1 ?_ ?_ ?_ ?_ ?_ (by rintro ⟨⟩ rfl rfl rfl; rfl)) <;> decide +kernel
theorem test_ring_cancel (h : Obligations.RingCommandsComplete) : ∃ t, exec (.cancel 0 dCancel) (sCan dCancel) = .next t := by
  refine next_of ((h (sCan dCancel) 0 dCancel).2.2.2.2.2.2.2.2.2.2.2.2.2.2.2.1 { aSet with tick := 9 } ?_ ?_ ?_ ?_ ?_) <;> decide +kernel
theorem test_ring_queue (h : Obligations.RingCommandsComplete) : ∃ t, exec (.queueRead 0 (dHost 0x48 1)) (sN (dHost 0x48 1)) = .next t := by
  refine next_of ((h (sN (dHost 0x48 1)) 0 (dHost 0x48 1)).2.2.2.2.2.2.2.2.2.2.2.2.2.2.2.2.1 (.queueRead 0 (dHost 0x48 1)) 0x48 ?_ ?_ ?_
    ?_) <;> decide +kernel
theorem test_ring_pool (h : Obligations.RingCommandsComplete) : ∃ t, exec (.poolRead 0 (dHost 0x49 1)) (sN (dHost 0x49 1)) = .next t := by
  refine next_of ((h (sN (dHost 0x49 1)) 0 (dHost 0x49 1)).2.2.2.2.2.2.2.2.2.2.2.2.2.2.2.2.1 (.poolRead 0 (dHost 0x49 1)) 0x49 ?_ ?_ ?_
    ?_) <;> decide +kernel
theorem test_ring_counter (h : Obligations.RingCommandsComplete) : ∃ t, exec (.counterRead 0 (dHost 0x4A 1)) (sN (dHost 0x4A 1)) = .next
    t := by
  refine next_of ((h (sN (dHost 0x4A 1)) 0 (dHost 0x4A 1)).2.2.2.2.2.2.2.2.2.2.2.2.2.2.2.2.1 (.counterRead 0 (dHost 0x4A 1)) 0x4A ?_ ?_
    ?_ ?_) <;> decide +kernel
theorem test_ring_free (h : Obligations.RingCommandsComplete) : ∃ t, exec (.freewheelRead 0 (dHost 0x4B 7)) (sN (dHost 0x4B 7)) = .next t
    := by
  refine next_of ((h (sN (dHost 0x4B 7)) 0 (dHost 0x4B 7)).2.2.2.2.2.2.2.2.2.2.2.2.2.2.2.2.1 (.freewheelRead 0 (dHost 0x4B 7)) 0x4B ?_ ?_
    ?_ ?_) <;> decide +kernel
theorem test_ring_toss (h : Obligations.RingCommandsComplete) : ∃ t, exec (.tossRead 0 (dHost 0x4D 1)) (sN (dHost 0x4D 1)) = .next t := by
  refine next_of ((h (sN (dHost 0x4D 1)) 0 (dHost 0x4D 1)).2.2.2.2.2.2.2.2.2.2.2.2.2.2.2.2.1 (.tossRead 0 (dHost 0x4D 1)) 0x4D ?_ ?_ ?_
    ?_) <;> decide +kernel
theorem test_ring_receipt (h : Obligations.RingCommandsComplete) : ∃ t, exec (.receiptRead 0 (dT 0x4C)) (sT tOpen (dT 0x4C)) = .next t := by
  refine next_of ((h (sT tOpen (dT 0x4C)) 0 (dT 0x4C)).2.2.2.2.2.2.2.2.2.2.2.2.2.2.2.2.2.1 tOpen ?_ ?_) <;> decide +kernel
theorem test_ring_mirror (h : Obligations.RingCommandsComplete) : ∃ t, exec (.ledgerMirror 0 dMirror) (sLc dMirror) = .next t := by
  refine next_of ((h (sLc dMirror) 0 dMirror).2.2.2.2.2.2.2.2.2.2.2.2.2.2.2.2.2.2.1 ?_ ?_ ?_) <;> decide +kernel
theorem test_ring_lread (h : Obligations.RingCommandsComplete) : ∃ t, exec (.ledgerRead 0 dLread) (sLc dLread) = .next t := by
  refine next_of ((h (sLc dLread) 0 dLread).2.2.2.2.2.2.2.2.2.2.2.2.2.2.2.2.2.2.2.1 0 ?_ ?_ ?_ ?_ ?_ ?_) <;> decide +kernel
theorem test_ring_down (h : Obligations.RingCommandsComplete) : ∃ t, exec (.linkDown 0 (dOf 0x40 0)) (sLd 0x40) = .next t := by
  refine next_of (((h (sLd 0x40) 0 (dOf 0x40 0)).2.2.2.2.2.2.2.2.2.2.2.2.2.2.2.2.2.2.2.2 ?_ ?_).1 ?_) <;> decide +kernel
theorem test_ring_up (h : Obligations.RingCommandsComplete) : ∃ t, exec (.linkUp 0 (dOf 0x41 0)) (sLd 0x41) = .next t := by
  refine next_of (((h (sLd 0x41) 0 (dOf 0x41 0)).2.2.2.2.2.2.2.2.2.2.2.2.2.2.2.2.2.2.2.2 ?_ ?_).2 ?_ ?_ ?_ ?_) <;> decide +kernel

theorem test_tev_in (h : Obligations.TillEventsComplete) : ∃ t, exec (if false = true then .partialReceive (fContrib 5 9 1) false else
    .contribReceive (fContrib 5 9 1) false) (sIn tOpen (fContrib 5 9 1)) = .next t := by
  refine next_of (h.1 (sIn tOpen (fContrib 5 9 1)) (fContrib 5 9 1) false tOpen 0 (List.replicate 16 ⟨.fin, 0, 0, 0, false⟩) 0 ?_ ?_ ?_
    ?_ ?_ ?_ ?_ ?_ ?_ ?_ ?_ ?_ ?_) <;> decide +kernel
theorem test_tev_part (h : Obligations.TillEventsComplete) : ∃ t, exec (if true = true then .partialReceive fPartial false else
    .contribReceive fPartial false) (sIn tInn fPartial) = .next t := by
  refine next_of (h.1 (sIn tInn fPartial) fPartial true tInn 1 (List.replicate 16 ⟨.fin, 0, 0, 0, false⟩) 0 ?_ ?_ ?_ ?_ ?_ ?_ ?_ ?_ ?_ ?_
    ?_ ?_ ?_) <;> decide +kernel
theorem test_tev_summary (h : Obligations.TillEventsComplete) : ∃ t, exec (.summaryReceive fSummary) (sIn tInn fSummary) = .next t := by
  refine next_of ((h.2.1 (sIn tInn fSummary) fSummary tInn ?_ ?_).1 1 ?_ ?_ ?_ ?_ ?_ ?_ ?_) <;> decide +kernel
theorem test_tev_resend (h : Obligations.TillEventsComplete) : ∃ t, exec (.resendReqReceive fResend) (sIn tInn fResend) = .next t := by
  refine next_of ((h.2.1 (sIn tInn fResend) fResend tInn ?_ ?_).2 ?_ ?_ ?_ ?_ ?_ ?_) <;> decide +kernel
theorem test_tev_timer (h : Obligations.TillEventsComplete) : ∃ t, exec (.chunkTimerExpiry 1 0) (sTill (tTimer 1)) = .next t := by
  refine next_of (((h.2.2.1 (sTill (tTimer 1)) 1 (tTimer 1) 0 ?_).1 ?_ ?_ ?_ ?_).1 ?_ ?_) <;> decide +kernel
theorem test_tev_early (h : Obligations.TillEventsComplete) : ∃ t, exec (.earlyForwardExpiry 1 0) (sTill tEarlyT) = .next t := by
  refine next_of (((h.2.2.1 (sTill tEarlyT) 1 tEarlyT 0 ?_).1 ?_ ?_ ?_ ?_).2 ?_ ?_ ?_ ?_) <;> decide +kernel
theorem test_tev_sumt (h : Obligations.TillEventsComplete) : ∃ t, exec (.summaryTimerExpiry 1 1) (sTill (tSumT 1)) = .next t := by
  refine next_of ((h.2.2.1 (sTill (tSumT 1)) 1 (tSumT 1) 1 ?_).2.1 1999 1 ?_ ?_ ?_ ?_ ?_) <;> decide +kernel
theorem test_tev_done (h : Obligations.TillEventsComplete) : ∃ t, exec (.chunkDone 1 0 false) (sTill tMint2) = .next t := by
  refine next_of ((h.2.2.1 (sTill tMint2) 1 tMint2 0 ?_).2.2.1 ?_ ?_ ?_ ?_ ?_ ?_) <;> decide +kernel
theorem test_tev_late (h : Obligations.TillEventsComplete) : ∃ t, exec (.tillDeadline 1) (sTill tLate) = .next t := by
  refine next_of ((h.2.2.1 (sTill tLate) 1 tLate 0 ?_).2.2.2.1 1999 ?_ ?_ ?_ ?_ ?_ ?_) <;> decide +kernel
theorem test_tev_grant (h : Obligations.TillEventsComplete) : ∃ t, exec (.admissionGrant 1) (sTill tWait) = .next t := by
  refine next_of ((h.2.2.1 (sTill tWait) 1 tWait 0 ?_).2.2.2.2.1 ?_ ?_ ?_ (only_till rfl) ?_ ?_) <;> decide +kernel
theorem test_tev_drain (h : Obligations.TillEventsComplete) : ∃ t, exec (.drainAction 1) (sTill (tDrain (.ending stPeerLost 3))) = .next
    t := by
  refine next_of ((h.2.2.1 (sTill (tDrain (.ending stPeerLost 3))) 1 (tDrain (.ending stPeerLost 3)) 0 ?_).2.2.2.2.2.1 (drn (.ending
    stPeerLost 3)) [] ?_ ?_ ?_ ?_) <;> decide +kernel
theorem test_tev_written (h : Obligations.TillEventsComplete) : ∃ t, exec (.snapshotWritten 1) (sTill tWrit) = .next t := by
  refine next_of ((h.2.2.1 (sTill tWrit) 1 tWrit 0 ?_).2.2.2.2.2.2.1 ?_ ?_ ?_ ?_) <;> decide +kernel
theorem test_tev_loaded (h : Obligations.TillEventsComplete) : ∃ t, exec (.restoreLoaded 1) (sTill tLoad) = .next t := by
  refine next_of ((h.2.2.1 (sTill tLoad) 1 tLoad 0 ?_).2.2.2.2.2.2.2.1 (imgOf tFill) (some acc0) ?_ ?_ ?_ ?_) <;> decide +kernel
theorem test_tev_pre (h : Obligations.TillEventsComplete) : ∃ t, exec (.preemptRestore 1) (sTill tPre) = .next t := by
  refine next_of ((h.2.2.1 (sTill tPre) 1 tPre 0 ?_).2.2.2.2.2.2.2.2 (imgOf tFill) (uOf (sTill tPre) tPre) (slabsOf sReady tPre) ?_ ?_ ?_
    ?_ ?_ ?_ ?_ ?_) <;> decide +kernel
theorem test_tev_start (h : Obligations.TillEventsComplete) : ∃ t, exec (.enginePassStart 5 false .first) sRunReady = .next t := by
  refine next_of ((h.2.2.2 sRunReady 5 false ?_ ?_).1 (psRun 64) [] (rr 64) ?_ ?_ ?_ ?_ ?_ ?_ ?_ ?_) <;> decide +kernel
theorem test_tev_runend (h : Obligations.TillEventsComplete) : ∃ t, exec (.progRunEnd 5 false) (sRunning 0) = .next t := by
  refine next_of ((h.2.2.2 (sRunning 0) 5 false ?_ ?_).2.1 (runningOf 0) (rr 0) ?_ ?_ ?_ ?_ ?_ ?_) <;> decide +kernel
theorem test_tev_passend (h : Obligations.TillEventsComplete) : ∃ t, exec (.enginePassEnd (BitVec.ofNat 12 vTile) false) sUpdEnd = .next
    t := by
  refine next_of ((h.2.2.2 sUpdEnd (BitVec.ofNat 12 vTile) false ?_ ?_).2.2.1 runUpd tVault1 rgVault ?_ ?_ ?_ ?_ ?_ ?_ ?_) <;>
    decide +kernel
theorem test_tev_upd (h : Obligations.TillEventsComplete) : ∃ t, exec (.updatePassStart 1 0) (sUpd tVault1) = .next t := by
  refine next_of ((h.2.2.2 (sUpd tVault1) (BitVec.ofNat 12 vTile) false ?_ ?_).2.2.2 psUpd tVault1 rgVault ?_ ?_ ?_ ?_ ?_ ?_ ?_ ?_ ?_ ?_
    ?_ ?_ ?_ ?_) <;> decide +kernel

theorem test_fev_arrive (h : Obligations.FabricEventsComplete) : ∃ t, exec (.tallyArrive (fArr 5 9)) (sYi yRoot (fArr 5 9)) = .next t := by
  refine next_of ((h.1 (sYi yRoot (fArr 5 9)) (fArr 5 9) { frame := (fArr 5 9), port := 0, arrival := 1990 } yRoot ?_ ?_ ?_ ?_ ?_ ?_
    ?_).1 0 ?_) <;> decide +kernel
theorem test_fev_carry (h : Obligations.FabricEventsComplete) : ∃ t, exec (.tallyCarry fCar) (sYi yInnNone fCar) = .next t := by
  refine next_of ((h.1 (sYi yInnNone fCar) fCar { frame := fCar, port := 0, arrival := 1990 } yInnNone ?_ ?_ ?_ ?_ ?_ ?_ ?_).2.1 1 ?_)
    <;> decide +kernel
theorem test_fev_add (h : Obligations.FabricEventsComplete) : ∃ t, exec (.tallyAdd (fPlus 2)) (sYi (yCtr 0) (fPlus 2)) = .next t := by
  refine next_of ((h.1 (sYi (yCtr 0) (fPlus 2)) (fPlus 2) { frame := (fPlus 2), port := 0, arrival := 1990 } (yCtr 0) ?_ ?_ ?_ ?_ ?_ ?_
    ?_).2.2.1 2 ?_ ?_ ?_ ?_ ?_) <;> decide +kernel
theorem test_fev_rel (h : Obligations.FabricEventsComplete) : ∃ t, exec (.tallyReleasePass 0 fRel) (sYi yInn fRel) = .next t := by
  refine next_of ((h.1 (sYi yInn fRel) fRel { frame := fRel, port := 0, arrival := 1990 } yInn ?_ ?_ ?_ ?_ ?_ ?_ ?_).2.2.2 0 ?_ ?_ ?_)
    <;> decide +kernel
theorem test_fev_timer (h : Obligations.FabricEventsComplete) : ∃ t, exec (.tallyTimerExpiry 2) (sYs yMid) = .next t := by
  refine next_of ((h.2.1 (sYs yMid) 2 yMid ?_).1 ?_ ?_) <;> decide +kernel
theorem test_fev_late (h : Obligations.FabricEventsComplete) : ∃ t, exec (.tallyDeadline 2) (sYs yTickV) = .next t := by
  refine next_of ((h.2.1 (sYs yTickV) 2 yTickV ?_).2.1 ?_) <;> decide +kernel
theorem test_fev_exc (h : Obligations.FabricEventsComplete) : ∃ t, exec (.tallyExciseEffect 2 1) (sYs yExcised) = .next t := by
  refine next_of ((h.2.1 (sYs yExcised) 2 yExcised ?_).2.2 1 exc1 ?_ ?_ ?_ ?_) <;> decide +kernel
theorem test_fev_read (h : Obligations.FabricEventsComplete) : ∃ t, exec (.memRdReceive (fMrd 4 2 0 0 7) .first) (sMf (fMrd 4 2 0 0 7)) =
    .next t := by
  refine next_of ((h.2.2.1 (sMf (fMrd 4 2 0 0 7)) (fMrd 4 2 0 0 7) { frame := (fMrd 4 2 0 0 7), port := 0, arrival := 1900 } rgVault ?_
    ?_ (.inl (by decide +kernel)) ?_ ?_).1 ?_ ?_ ?_ ?_ ?_) <;> decide +kernel
theorem test_fev_release (h : Obligations.FabricEventsComplete) : ∃ t, exec (.versionRelease (fMrd 4 0 1 0 7)) (sMf (fMrd 4 0 1 0 7)) =
    .next t := by
  refine next_of ((h.2.2.1 (sMf (fMrd 4 0 1 0 7)) (fMrd 4 0 1 0 7) { frame := (fMrd 4 0 1 0 7), port := 0, arrival := 1900 } rgVault ?_
    ?_ (.inl (by decide +kernel)) ?_ ?_).2.1 ?_ ?_ ?_) <;> decide +kernel
theorem test_fev_write (h : Obligations.FabricEventsComplete) : ∃ t, exec (.memWrReceive (fMwr 1)) (sMf (fMwr 1)) = .next t := by
  refine next_of ((h.2.2.1 (sMf (fMwr 1)) (fMwr 1) { frame := (fMwr 1), port := 0, arrival := 1900 } rgPlain ?_ ?_ (.inl (by
    decide +kernel)) ?_ ?_).2.2 ?_ ?_) <;> decide +kernel
theorem test_fev_rsp (h : Obligations.FabricEventsComplete) : ∃ t, exec (.memRspReceive (fRsp 0)) (sRsp 2 0) = .next t := by
  refine next_of ((h.2.2.2.1 (sRsp 2 0) 77 (rqst false 4) ?_).1 (fRsp 0) (xfr 2) 4 ?_ ?_ ?_ ?_ ?_ ?_ ?_) <;> decide +kernel
theorem test_fev_tmo (h : Obligations.FabricEventsComplete) : ∃ t, exec (.memRequestTimeout 77) (sRq false 1 100000000) = .next t := by
  refine next_of ((h.2.2.2.1 (sRq false 1 100000000) 77 (rqst false 4) ?_).2 ?_ ?_) <;> decide +kernel
theorem test_fev_reclaim (h : Obligations.FabricEventsComplete) : ∃ t, exec (.versionReclaim 4) (sRg rgHeld 131072) = .next t := by
  refine next_of ((h.2.2.2.2.1 (sRg rgHeld 131072) 4 rgHeld ?_).1 ?_ ?_ ?_ ?_ ?_) <;> decide +kernel
theorem test_fev_param (h : Obligations.FabricEventsComplete) : ∃ t, exec (.paramBlockRead 4 (some [1])) (sRg (rgNoPar 0) 2000) = .next t
    := by
  refine next_of ((h.2.2.2.2.1 (sRg (rgNoPar 0) 2000) 4 (rgNoPar 0) ?_).2 [1] ?_) <;> decide +kernel
theorem test_fev_train (h : Obligations.FabricEventsComplete) : ∃ t, exec (.hbmTrainingDone 0 true) sTrainH = .next t := by
  refine next_of ((h.2.2.2.2.2.1 sTrainH 0 { training := true } ?_).1 true ?_ ?_) <;> decide +kernel
theorem test_fev_refresh (h : Obligations.FabricEventsComplete) : ∃ t, exec (.hbmRefresh 1) { sHb with now := 7000 } = .next t := by
  refine next_of ((h.2.2.2.2.2.1 { sHb with now := 7000 } 1 st1 ?_).2 1 ?_ ?_ ?_ ?_) <;> decide +kernel
theorem test_fev_relay (h : Obligations.FabricEventsComplete) : ∃ t, exec (.relayFrameReceive 0 fRl) (sRl rlHeld) = .next t := by
  refine next_of (h.2.2.2.2.2.2.1 (sRl rlHeld) 0 fRl rlHeld 0 ?_ ?_ ?_ ?_ ?_ ?_ ?_) <;> decide +kernel
theorem test_fev_copy (h : Obligations.FabricEventsComplete) : ∃ t, exec (.relayCopySend 6 1) (sRl rlStaged) = .next t := by
  refine next_of ((h.2.2.2.2.2.2.2 (sRl rlStaged) 6 1 rlStaged ?_ ?_ ?_).1 fRl ?_ ?_ ?_) <;> decide +kernel
theorem test_fev_skip (h : Obligations.FabricEventsComplete) : ∃ t, exec (.relaySkip 6 1) sSkip = .next t := by
  refine next_of ((h.2.2.2.2.2.2.2 sSkip 6 1 rlSkip ?_ ?_ ?_).2 100 ?_ ?_ ?_) <;> decide +kernel

theorem test_pev_drain (h : Obligations.PortEventsComplete) : ∃ t, exec (.drainStart) sDrain = .next t := by
  refine next_of ((h.1 sDrain aDrain ?_ ?_).1 ?_) <;> decide +kernel
theorem test_pev_commit (h : Obligations.PortEventsComplete) : ∃ t, exec (.commit) sRoute = .next t := by
  refine next_of ((h.1 sRoute aRoute ?_ ?_).2 ?_ ?_ ?_ ?_ ?_) <;> decide +kernel
theorem test_pev_over (h : Obligations.PortEventsComplete) : ∃ t, exec (.overflowCopy) sOver = .next t := by
  refine next_of ((h.2.1 sOver ?_).1 (tkey 0x11 9) [0x80000005] [] ?_ ?_ ?_ ?_) <;> decide +kernel
theorem test_pev_sample (h : Obligations.PortEventsComplete) : ∃ t, exec (.queueSample) sSample = .next t := by
  refine next_of ((h.2.1 sSample ?_).2.1 ?_) <;> decide +kernel
theorem test_pev_tick (h : Obligations.PortEventsComplete) : ∃ t, exec (.tickBegin) sTickEnd = .next t := by
  refine next_of ((h.2.1 sTickEnd ?_).2.2.1 ?_) <;> decide +kernel
theorem test_pev_window (h : Obligations.PortEventsComplete) : ∃ t, exec (.tandemWindowExpiry true 0) sExp = .next t := by
  refine next_of (((h.2.1 sExp ?_).2.2.2.1 ?_ ?_).1 0 ownRec ?_ ?_) <;> decide +kernel
theorem test_pev_lost (h : Obligations.PortEventsComplete) : ∃ t, exec (.twinLost) sGoneTwin = .next t := by
  refine next_of (((h.2.1 sGoneTwin ?_).2.2.2.1 ?_ ?_).2 ?_) <;> decide +kernel
theorem test_pev_rec (h : Obligations.PortEventsComplete) : ∃ t, exec (.tandemRecordReceive (fRec 2 66)) (sTwin 2 66 []) = .next t := by
  refine next_of ((h.2.1 (sTwin 2 66 []) ?_).2.2.2.2 (fRec 2 66) (inRec 2 66) ?_ ?_ ?_ ?_ ?_ ?_ ?_ ?_ ?_) <;> decide +kernel
theorem test_pev_offer (h : Obligations.PortEventsComplete) : ∃ t, exec (.tickOfferReceive 32 fOffer 280000) sOffer = .next t := by
  refine next_of ((h.2.2.1 sOffer 32 ?_ ?_).1 fOffer 280000 0 ?_ ?_ ?_ ?_ ?_ ?_ ?_) <;> decide +kernel
theorem test_pev_mgmt (h : Obligations.PortEventsComplete) : ∃ t, exec (.mgmtReceive 0 fMgmt) sMgmt = .next t := by
  refine next_of ((h.2.2.1 sMgmt 0 ?_ ?_).2.1 fMgmt iMgmt ?_ ?_ ?_ ?_) <;> decide +kernel
theorem test_pev_send (h : Obligations.PortEventsComplete) : ∃ t, exec (.tickOfferSend 32) sNet = .next t := by
  refine next_of ((h.2.2.1 sNet 32 ?_ ?_).2.2.1 ?_ ?_ ?_) <;> decide +kernel
theorem test_pev_watch (h : Obligations.PortEventsComplete) : ∃ t, exec (.watchDeadline 0 0) sKs = .next t := by
  refine next_of (((h.2.2.1 sKs 0 ?_ ?_).2.2.2.1 ?_ ?_ ?_).1 0 ?_ ?_ ?_ ?_ ?_) <;> decide +kernel
theorem test_pev_repeat (h : Obligations.PortEventsComplete) : ∃ t, exec (.kickstandRepeat 0) sDue = .next t := by
  refine next_of (((h.2.2.1 sDue 0 ?_ ?_).2.2.2.1 ?_ ?_ ?_).2 ?_ ?_ ?_ ?_ ?_ ?_ ?_) <;> decide +kernel
theorem test_pev_kick (h : Obligations.PortEventsComplete) : ∃ t, exec (.kickstandSend 0) sDue = .next t := by
  refine next_of ((h.2.2.1 sDue 0 ?_ ?_).2.2.2.2.1 pend ?_ ?_ ?_ ?_) <;> decide +kernel
theorem test_pev_later (h : Obligations.PortEventsComplete) : ∃ t, exec (.frameReceive 0 fWrong) sFrLater = .next t := by
  refine next_of (((h.2.2.1 sFrLater 0 ?_ ?_).2.2.2.2.2.1 fWrong ?_ ?_ ?_).1 ?_) <;> decide +kernel
theorem test_pev_frame (h : Obligations.PortEventsComplete) : ∃ t, exec (.frameReceive 0 fOwn) sFr = .next t := by
  refine next_of (((h.2.2.1 sFr 0 ?_ ?_).2.2.2.2.2.1 fOwn ?_ ?_ ?_).2 ?_ (headerOf fOwn.hdr) ?_ ?_ ?_ ?_ ?_ ?_) <;> decide +kernel
theorem test_pev_start (h : Obligations.PortEventsComplete) : ∃ t, exec (.frameStart 32) (sQ 7 0) = .next t := by
  refine next_of ((h.2.2.1 (sQ 7 0) 32 ?_ ?_).2.2.2.2.2.2.1 (qEnt 1 7) ?_ ?_ ?_ ?_ ?_ ?_) <;> decide +kernel
theorem test_pev_stall (h : Obligations.PortEventsComplete) : ∃ t, exec (.sourceStall 32) sCutL = .next t := by
  refine next_of ((h.2.2.1 sCutL 32 ?_ ?_).2.2.2.2.2.2.2.1 1990 (qEnt 1 3) 1980 9 ?_ ?_ ?_) <;> decide +kernel
theorem test_pev_credrx (h : Obligations.PortEventsComplete) : ∃ t, exec (.creditCycleReceive 32 [1, 2, 3, 4, 5, 6, 7, 0xFFFF]) sFr =
    .next t := by
  refine next_of ((h.2.2.1 sFr 32 ?_ ?_).2.2.2.2.2.2.2.2.1 [1, 2, 3, 4, 5, 6, 7, 0xFFFF] ?_ ?_) <;> decide +kernel
theorem test_pev_credtx (h : Obligations.PortEventsComplete) : ∃ t, exec (.creditCycleSend 0) sOwed = .next t := by
  refine next_of (((h.2.2.1 sOwed 0 ?_ ?_).2.2.2.2.2.2.2.2.2.1 ?_ ?_).1 ?_ ?_ ?_ ?_) <;> decide +kernel
theorem test_pev_aligned (h : Obligations.PortEventsComplete) : ∃ t, exec (.alignedCopySend 0) sAl = .next t := by
  refine next_of (((h.2.2.1 sAl 0 ?_ ?_).2.2.2.2.2.2.2.2.2.1 ?_ ?_).2 aEnt ?_ ?_ ?_ ?_) <;> decide +kernel
theorem test_pev_nak (h : Obligations.PortEventsComplete) : ∃ t, exec (.nakReceive 0 nakH) sNak = .next t := by
  refine next_of ((h.2.2.1 sNak 0 ?_ ?_).2.2.2.2.2.2.2.2.2.2.1 nakH nakH false ?_ ?_ ?_ ?_) <;> decide +kernel
theorem test_pev_block (h : Obligations.PortEventsComplete) : ∃ t, exec (.laneBlockReceive 0 [lb 9 false]) sBlk = .next t := by
  refine next_of ((h.2.2.1 sBlk 0 ?_ ?_).2.2.2.2.2.2.2.2.2.2.2.1 [lb 9 false] ?_ ?_ ?_ ?_ ?_ ?_ ?_
    (List.forall_mem_singleton.2 ⟨(blockGood sBlk (lb 9 false)).getD 0, by decide +kernel, by decide +kernel, by decide +kernel⟩)) <;>
    decide +kernel
theorem test_pev_quiet (h : Obligations.PortEventsComplete) : ∃ t, exec (.linkStateEnd 0 false) sQuiet = .next t := by
  refine next_of ((h.2.2.1 sQuiet 0 ?_ ?_).2.2.2.2.2.2.2.2.2.2.2.2.1 ?_ ?_ ?_ ?_ false) <;> decide +kernel
theorem test_pev_check (h : Obligations.PortEventsComplete) : ∃ t, exec (.passbookRotation 0 63 270000) sCheck = .next t := by
  refine next_of ((h.2.2.1 sCheck 0 ?_ ?_).2.2.2.2.2.2.2.2.2.2.2.2.2.1 0 [] ?_ ?_ ?_ ?_ 63 270000 ?_) <;> decide +kernel
theorem test_pev_degrade (h : Obligations.PortEventsComplete) : ∃ t, exec (.degradeTimeout 0) sDeg = .next t := by
  refine next_of ((h.2.2.1 sDeg 0 ?_ ?_).2.2.2.2.2.2.2.2.2.2.2.2.2.2.1 1000 ?_ ?_ ?_) <;> decide +kernel
theorem test_pev_los (h : Obligations.PortEventsComplete) : ∃ t, exec (.lossOfSignal 0 0) (linkAs edgeLink) = .next t := by
  refine next_of ((h.2.2.1 (linkAs edgeLink) 0 ?_ ?_).2.2.2.2.2.2.2.2.2.2.2.2.2.2.2 0 ?_ ?_) <;> decide +kernel
theorem test_pev_reorder (h : Obligations.PortEventsComplete) : ∃ t, exec (.reorderTimerExpiry 1 512 9 7) sReo = .next t := by
  refine next_of (h.2.2.2 sReo 1 0x200 9 7 rctx ?_ ?_ ?_) <;> decide +kernel

theorem test_hev_nop (h : Obligations.HostEventsComplete) : ∃ t, exec (.nop 0 (dOf 0)) (sCmd (dOf 0)) = .next t :=
  next_of (h.1 (sCmd (dOf 0)) 0 (dOf 0) (by decide +kernel))
theorem test_hev_snoop (h : Obligations.HostEventsComplete) : ∃ t, exec (.snoopInvalidate 1) sHost = .next t :=
  next_of ((h.2.1 sHost 1 0 (watchAt sHost 0) (by decide +kernel)).1)
theorem test_hev_data (h : Obligations.HostEventsComplete) : ∃ t, exec (.snoopData 1) sHost = .next t :=
  next_of ((h.2.1 sHost 1 0 (watchAt sHost 0) (by decide +kernel)).2)
theorem test_hev_line (h : Obligations.HostEventsComplete) : ∃ t, exec (.watchLineRead 1 100) sHost = .next t :=
  next_of (h.2.2.1 sHost 1 100 (by decide +kernel))
theorem test_hev_read (h : Obligations.HostEventsComplete) : ∃ t, exec (.hostReadData 3 []) sHost = .next t :=
  next_of ((h.2.2.2.1 sHost 3 0 0 (by decide +kernel)).1 [])
theorem test_hev_rderr (h : Obligations.HostEventsComplete) : ∃ t, exec (.hostReadError (.fetch 3)) sHost = .next t :=
  next_of ((h.2.2.2.1 sHost 3 0 0 (by decide +kernel)).2)
theorem test_hev_object (h : Obligations.HostEventsComplete) : ∃ t, exec (.hostReadError (.object 0 (dOf 0x10))) (sCmd (dOf 0x10)) =
    .next t := by
  refine next_of (h.2.2.2.2.1 (sCmd (dOf 0x10)) 0 (dOf 0x10) ?_ ?_ ?_) <;> decide +kernel
theorem test_hev_go (h : Obligations.HostEventsComplete) : ∃ t, exec (.hostWriteGo 4) sHost = .next t := by
  refine next_of ((h.2.2.2.2.2.1 sHost 4 0 0 ({ addr := 0, data := [], kind := .copy 0 0 }) ?_ ?_).1) <;> decide +kernel
theorem test_hev_goerr (h : Obligations.HostEventsComplete) : ∃ t, exec (.hostWriteError 4) sHost = .next t := by
  refine next_of ((h.2.2.2.2.2.1 sHost 4 0 0 ({ addr := 0, data := [], kind := .copy 0 0 }) ?_ ?_).2) <;> decide +kernel
theorem test_hev_cpl (h : Obligations.HostEventsComplete) : ∃ t, exec (.completionWrite) sHost = .next t := by
  refine next_of (h.2.2.2.2.2.2.1 sHost { cring := 1, entries := [[0, 0, 0, 0]] } [0, 0, 0, 0] [] ?_ ?_ ?_ ?_ ?_ ?_ ?_ ?_ ?_) <;>
    decide +kernel
theorem test_hev_coal (h : Obligations.HostEventsComplete) : ∃ t, exec (.coalesceTimerExpiry false 1) sHost = .next t := by
  refine next_of (h.2.2.2.2.2.2.2.1 sHost 1 ?_ ?_) <;> decide +kernel
theorem test_hev_flr (h : Obligations.HostEventsComplete) : ∃ t, exec (.functionLevelReset) sHost = .next t :=
  next_of ((h.2.2.2.2.2.2.2.2.1 sHost).1 .functionLevelReset (by decide +kernel))
theorem test_hev_conv (h : Obligations.HostEventsComplete) : ∃ t, exec (.conventionalReset) sHost = .next t :=
  next_of ((h.2.2.2.2.2.2.2.2.1 sHost).1 .conventionalReset (by decide +kernel))
theorem test_hev_loss (h : Obligations.HostEventsComplete) : ∃ t, exec (.cxlLinkLoss) sHost = .next t :=
  next_of ((h.2.2.2.2.2.2.2.2.1 sHost).2.1 (by decide +kernel))
theorem test_hev_up (h : Obligations.HostEventsComplete) : ∃ t, exec (.cxlLinkUp) sHost = .next t := by
  refine next_of ((h.2.2.2.2.2.2.2.2.1 sHost).2.2 ?_ ?_ ?_) <;> decide +kernel
theorem test_hev_write (h : Obligations.HostEventsComplete) : ∃ t, exec (.registerWrite .host 0x5080 4 1) sRun = .next t := by
  refine next_of (((h.2.2.2.2.2.2.2.2.2 sRun .host 0 ?_ ?_ ?_).1 1 ?_).1) <;> decide +kernel
theorem test_hev_dbg (h : Obligations.HostEventsComplete) : ∃ t, exec (.dbgreg true 0x5080 4 1) sRun = .next t := by
  refine next_of (((h.2.2.2.2.2.2.2.2.2 sRun .host 0 ?_ ?_ ?_).1 1 ?_).2) <;> decide +kernel
theorem test_hev_pair (h : Obligations.HostEventsComplete) : ∃ t, exec (.pairLoRead .host 0x208 4) sRun = .next t := by
  refine next_of (((h.2.2.2.2.2.2.2.2.2 sRun .host 0 ?_ ?_ ?_).2.1)) <;> decide +kernel
theorem test_hev_ring (h : Obligations.HostEventsComplete) : ∃ t, exec (.ringEnable .host (BitVec.ofNat 20 (0x4010 + 32 * 63))
    0x80000010) sRun = .next t := by
  refine next_of (((h.2.2.2.2.2.2.2.2.2 sRun .host 0x80000010 ?_ ?_ ?_).2.2.1 63 ?_ ?_ ?_ ?_ ?_)) <;> decide +kernel
theorem test_hev_off (h : Obligations.HostEventsComplete) : ∃ t, exec (.watchDisable .host 3 0) sRegs = .next t := by
  refine next_of (((h.2.2.2.2.2.2.2.2.2 sRegs .host 0 ?_ ?_ ?_).2.2.2.1 3 ?_ ?_ ?_)) <;> decide +kernel
theorem test_hev_status (h : Obligations.HostEventsComplete) : ∃ t, exec (.statusClear .host 0x1000 4) sRegs = .next t := by
  refine next_of (((h.2.2.2.2.2.2.2.2.2 sRegs .host 4 ?_ ?_ ?_).2.2.2.2.1 0x1000 0 ?_ ?_)) <;> decide +kernel
theorem test_hev_kick (h : Obligations.HostEventsComplete) : ∃ t, exec (.kickLatchClear .host 0 4) sRegs = .next t := by
  refine next_of (((h.2.2.2.2.2.2.2.2.2 sRegs .host 4 ?_ ?_ ?_).2.2.2.2.2.1 0 2 ?_ ?_ ?_ ?_)) <;> decide +kernel
theorem test_hev_refused (h : Obligations.HostEventsComplete) : ∃ t, exec (.refusedClear .host 0x80000000) sRegs = .next t := by
  refine next_of (((h.2.2.2.2.2.2.2.2.2 sRegs .host 0x80000000 ?_ ?_ ?_).2.2.2.2.2.2.1 ?_)) <;> decide +kernel
theorem test_hev_halt (h : Obligations.HostEventsComplete) : ∃ t, exec (.debugHalt .host 0x40000007) sRun = .next t := by
  refine next_of (((h.2.2.2.2.2.2.2.2.2 sRun .host 0x40000007 ?_ ?_ ?_).2.2.2.2.2.2.2.1 ?_ ?_ ?_ ?_)) <;> decide +kernel
theorem test_hev_resume (h : Obligations.HostEventsComplete) : ∃ t, exec (.debugResume .host 0x80000000) sRegs = .next t := by
  refine next_of (((h.2.2.2.2.2.2.2.2.2 sRegs .host 0x80000000 ?_ ?_ ?_).2.2.2.2.2.2.2.2.1 ?_ ?_)) <;> decide +kernel
theorem test_hev_test (h : Obligations.HostEventsComplete) : ∃ t, exec (.dbgKickTest .host 2) sKickOn = .next t := by
  refine next_of (((h.2.2.2.2.2.2.2.2.2 sKickOn .host 2 ?_ ?_ ?_).2.2.2.2.2.2.2.2.2.1 ?_ ?_ ?_)) <;> decide +kernel
theorem test_hev_window (h : Obligations.HostEventsComplete) : ∃ t, exec (.accumulatorWindowRead .host 0xC0000 8) sRegs = .next t := by
  refine next_of (((h.2.2.2.2.2.2.2.2.2 sRegs .host 0 ?_ ?_ ?_).2.2.2.2.2.2.2.2.2.2 0xC0000 ?_ ?_ ?_ ?_)) <;> decide +kernel

theorem test_bev_cold (h : Obligations.BootEventsComplete) : ∃ t, exec (.coldReset 1) sFuse = .next t :=
  next_of ((h sFuse).1 1)
theorem test_bev_ref (h : Obligations.BootEventsComplete) : ∃ t, exec (.refclkMeasure 100000) sGone = .next t := by
  refine next_of ((h sGone).2.1 100000 ?_ ?_) <;> decide +kernel
theorem test_bev_rst (h : Obligations.BootEventsComplete) : ∃ t, exec (.rstNRelease) State.reset = .next t :=
  next_of ((h State.reset).2.2.1 (by decide +kernel))
theorem test_bev_pll (h : Obligations.BootEventsComplete) : ∃ t, exec (.pllLock fuses1 0x1020) sPll = .next t := by
  refine next_of ((h sPll).2.2.2.1 ?_ ?_ fuses1 0x1020) <;> decide +kernel
theorem test_bev_sync (h : Obligations.BootEventsComplete) : ∃ t, exec (.syncNSampleHigh) sSync = .next t :=
  next_of ((h sSync).2.2.2.2.1 (by decide +kernel))
theorem test_bev_strap (h : Obligations.BootEventsComplete) : ∃ t, exec (.strapChange 0x1001) sTiles = .next t :=
  next_of ((h sTiles).2.2.2.2.2.1 0x1001 (by decide +kernel))
theorem test_bev_fw (h : Obligations.BootEventsComplete) : ∃ t, exec (.firmwareCheck { first := fwDir, second := [] } fwImg [] false)
    sFwGood = .next t := by
  refine next_of ((h sFwGood).2.2.2.2.2.2.1 { first := fwDir, second := [] } fwDir fwImg [] false 0 ?_ ?_ ?_ ?_ ?_ ?_) <;> decide +kernel
theorem test_bev_tiles (h : Obligations.BootEventsComplete) : ∃ t, exec (.tilesReady) sTiles = .next t := by
  refine next_of (((h sTiles).2.2.2.2.2.2.2.1 ?_).1 ?_) <;> decide +kernel
theorem test_bev_plan (h : Obligations.BootEventsComplete) : ∃ t, exec (.wiringPlanCheck noDir [] []) sStw = .next t := by
  refine next_of (((h sStw).2.2.2.2.2.2.2.1 ?_).2.1 ?_ ?_ noDir [] []) <;> decide +kernel
theorem test_bev_jtag (h : Obligations.BootEventsComplete) : ∃ t, exec (.jtagBootLoad [1, 2]) sJtag = .next t := by
  refine next_of (((h sJtag).2.2.2.2.2.2.2.1 ?_).2.2.1 ?_ ?_ ?_ [1, 2]) <;> decide +kernel
theorem test_bev_warm (h : Obligations.BootEventsComplete) : ∃ t, exec (.warmReset) sFuse = .next t := by
  refine next_of ((((h sFuse).2.2.2.2.2.2.2.1 ?_).2.2.2.1 ?_ ?_ ?_).1) <;> decide +kernel
theorem test_bev_return (h : Obligations.BootEventsComplete) : ∃ t, exec (.stewardReturn) sGone = .next t := by
  refine next_of ((((h sGone).2.2.2.2.2.2.2.1 ?_).2.2.2.1 ?_ ?_ ?_).2 ?_ ?_) <;> decide +kernel
theorem test_bev_release (h : Obligations.BootEventsComplete) : ∃ t, exec (.warmResetRelease) sWarm = .next t := by
  refine next_of (((h sWarm).2.2.2.2.2.2.2.1 ?_).2.2.2.2.1 ?_) <;> decide +kernel
theorem test_bev_restart (h : Obligations.BootEventsComplete) : ∃ t, exec (.stewardRestart false 2) sFuse = .next t := by
  refine next_of (((h sFuse).2.2.2.2.2.2.2.1 ?_).2.2.2.2.2.1 ?_ false 2) <;> decide +kernel
theorem test_bev_sensor (h : Obligations.BootEventsComplete) : ∃ t, exec (.sensorRead 105 104 [85, 84, 20, 20]) sHot = .next t := by
  refine next_of (((h sHot).2.2.2.2.2.2.2.1 ?_).2.2.2.2.2.2 ?_ ?_ ?_ 105 104 [85, 84, 20, 20] ?_) <;> decide +kernel
theorem test_bev_fuse (h : Obligations.BootEventsComplete) : ∃ t, exec (.fuseWrite) sFuse = .next t := by
  refine next_of ((h sFuse).2.2.2.2.2.2.2.2.1 fwFuse ?_ ?_ ?_ ?_) <;> decide +kernel
theorem test_bev_i3c (h : Obligations.BootEventsComplete) : ∃ t, exec (.i3cRegisterRead 0x800) sRun = .next t :=
  next_of ((h sRun).2.2.2.2.2.2.2.2.2.1 (by decide +kernel))
theorem test_bev_addr (h : Obligations.BootEventsComplete) : ∃ t, exec (.i3cDynamicAddress 9) sRun = .next t :=
  next_of ((h sRun).2.2.2.2.2.2.2.2.2.2.1 9)
theorem test_bev_chain (h : Obligations.BootEventsComplete) : ∃ t, exec (.ledgerChainEntry) sLdg = .next t := by
  refine next_of ((h sLdg).2.2.2.2.2.2.2.2.2.2.2.1 (chg 7) [] ?_ ?_ ?_ ?_) <;> decide +kernel
theorem test_bev_seal (h : Obligations.BootEventsComplete) : ∃ t, exec (.seal) sLdg = .next t := by
  refine next_of ((h sLdg).2.2.2.2.2.2.2.2.2.2.2.2.1 ?_ ?_ ?_ ?_ ?_) <;> decide +kernel
theorem test_bev_wait (h : Obligations.BootEventsComplete) : ∃ t, exec (.sealWait) sUnsealed = .next t := by
  refine next_of ((h sUnsealed).2.2.2.2.2.2.2.2.2.2.2.2.2.1 5 ?_ ?_) <;> decide +kernel
theorem test_bev_mirror (h : Obligations.BootEventsComplete) : ∃ t, exec (.ledgerMirrorWrite) sLdg = .next t := by
  refine next_of ((h sLdg).2.2.2.2.2.2.2.2.2.2.2.2.2.2.1 ?_ ?_ ?_) <;> decide +kernel
theorem test_bev_version (h : Obligations.BootEventsComplete) : ∃ t, exec (.getVersion) sStw = .next t := by
  refine next_of (((h sStw).2.2.2.2.2.2.2.2.2.2.2.2.2.2.2 ?_ ?_).1) <;> decide +kernel
theorem test_bev_caps (h : Obligations.BootEventsComplete) : ∃ t, exec (.getCapabilities) sSpdm = .next t := by
  refine next_of (((h sSpdm).2.2.2.2.2.2.2.2.2.2.2.2.2.2.2 ?_ ?_).2.1 ?_) <;> decide +kernel
theorem test_bev_algs (h : Obligations.BootEventsComplete) : ∃ t, exec (.negotiateAlgorithms) sSpdm = .next t := by
  refine next_of (((h sSpdm).2.2.2.2.2.2.2.2.2.2.2.2.2.2.2 ?_ ?_).2.2.1 ?_) <;> decide +kernel
theorem test_bev_doe (h : Obligations.BootEventsComplete) : ∃ t, exec (.doeDiscovery 0) sStw = .next t := by
  refine next_of (((h sStw).2.2.2.2.2.2.2.2.2.2.2.2.2.2.2 ?_ ?_).2.2.2.1) <;> decide +kernel
theorem test_bev_digests (h : Obligations.BootEventsComplete) : ∃ t, exec (.getDigests) sSpdm = .next t := by
  refine next_of (((((h sSpdm).2.2.2.2.2.2.2.2.2.2.2.2.2.2.2 ?_ ?_).2.2.2.2 ?_).1 ?_).1) <;> decide +kernel
theorem test_bev_cert (h : Obligations.BootEventsComplete) : ∃ t, exec (.getCertificate 0 4 8) sSpdm = .next t := by
  refine next_of (((((h sSpdm).2.2.2.2.2.2.2.2.2.2.2.2.2.2.2 ?_ ?_).2.2.2.2 ?_).1 ?_).2 4 8 ?_) <;> decide +kernel
theorem test_bev_challenge (h : Obligations.BootEventsComplete) : ∃ t, exec (.challenge 0 77) sSpdm = .next t := by
  refine next_of ((((h sSpdm).2.2.2.2.2.2.2.2.2.2.2.2.2.2.2 ?_ ?_).2.2.2.2 ?_).2.1 77) <;> decide +kernel
theorem test_bev_meas (h : Obligations.BootEventsComplete) : ∃ t, exec (.getMeasurements 2 true 77) sSpdm = .next t := by
  refine next_of ((((h sSpdm).2.2.2.2.2.2.2.2.2.2.2.2.2.2.2 ?_ ?_).2.2.2.2 ?_).2.2 2 true 77 ?_ ?_) <;> decide +kernel

end Sys2Proof.Tests
end

/-! PROOFS. Sums in any order (O55): SUM is a product of three commutative monoids, on classes, finite values and attributed ranks. -/

namespace Sys2Proof.Proofs

open Sys2Proof.Machine Sys2Proof.Safety

/-! ### The class of a sum (02 Table 2.9) -/

theorem sumCls_comm (a b : Cls) : sumCls a b = sumCls b a := by
  cases a <;> cases b <;> rfl

theorem sumCls_right_comm (a b c : Cls) : sumCls (sumCls a b) c = sumCls (sumCls a c) b := by
  cases a <;> cases b <;> cases c <;> rfl

@[simp] theorem sumCls_eq_fin_iff {a b : Cls} : sumCls a b = .fin ↔ a = .fin ∧ b = .fin := by
  cases a <;> cases b <;> simp [sumCls]

/-! ### Value and rank of a sum (R27, R48) -/

@[simp] theorem addAcc_cls (a b : Acc) : (addAcc a b).cls = sumCls a.cls b.cls := rfl

@[simp] theorem addAcc_empty (a b : Acc) : (addAcc a b).empty = false := rfl

theorem addAcc_val_of_fin {a b : Acc} (ha : a.cls = .fin) (hb : b.cls = .fin) : (addAcc a b).val = a.val + b.val := by
  simp [addAcc, ha, hb]

theorem addAcc_val_of_not_fin {a b : Acc} (h : sumCls a.cls b.cls ≠ .fin) : (addAcc a b).val = 0 := if_neg h

theorem addAcc_rank_of_fin {a b : Acc} (ha : a.cls = .fin) (hb : b.cls = .fin) : (addAcc a b).rank = 0 := by
  simp [addAcc, ha, hb]

theorem addAcc_rank_of_fin_right {a b : Acc} (ha : a.cls ≠ .fin) (hb : b.cls = .fin) : (addAcc a b).rank = a.rank := by
  simp [addAcc, ha, hb]

theorem addAcc_rank_of_fin_left {a b : Acc} (ha : a.cls = .fin) (hb : b.cls ≠ .fin) : (addAcc a b).rank = b.rank := by
  simp [addAcc, ha, hb]

theorem addAcc_rank_of_not_fin {a b : Acc} (ha : a.cls ≠ .fin) (hb : b.cls ≠ .fin) :
    (addAcc a b).rank = min a.rank b.rank := by
  simp [addAcc, ha, hb]

/-- The attributed rank of an accumuland; a finite one carries none, which is above every rank. -/
def attributed (a : Acc) : WithTop ℕ := if a.cls = .fin then ⊤ else .some a.rank

theorem attributed_addAcc (a b : Acc) : attributed (addAcc a b) = min (attributed a) (attributed b) := by
  by_cases ha : a.cls = .fin <;> by_cases hb : b.cls = .fin
  · simp [attributed, ha, hb]
  · simp [attributed, ha, hb, addAcc_rank_of_fin_left ha hb]
  · simp [attributed, ha, hb, addAcc_rank_of_fin_right ha hb]
  · simp [attributed, ha, hb, addAcc_rank_of_not_fin ha hb]

/-- A sum is fixed by its class, by its value where it is finite, and by its attributed rank. -/
theorem addAcc_eq {a b c d : Acc} (hcls : sumCls a.cls b.cls = sumCls c.cls d.cls)
    (hval : sumCls a.cls b.cls = .fin → (addAcc a b).val = (addAcc c d).val)
    (hrank : attributed (addAcc a b) = attributed (addAcc c d)) : addAcc a b = addAcc c d := by
  by_cases hfin : sumCls a.cls b.cls = .fin
  · have hfin' := hcls ▸ hfin
    have hr : (addAcc a b).rank = (addAcc c d).rank := by
      rw [sumCls_eq_fin_iff] at hfin hfin'
      rw [addAcc_rank_of_fin hfin.1 hfin.2, addAcc_rank_of_fin hfin'.1 hfin'.2]
    exact (Acc.mk.injEq ..).mpr ⟨hcls, hval hfin, hr, rfl, rfl⟩
  · have hfin' := hcls ▸ hfin
    have hv : (addAcc a b).val = (addAcc c d).val := by rw [addAcc_val_of_not_fin hfin, addAcc_val_of_not_fin hfin']
    have hr : (addAcc a b).rank = (addAcc c d).rank := by
      simpa only [attributed, addAcc_cls, hfin, hfin', if_false, WithTop.coe_inj] using hrank
    exact (Acc.mk.injEq ..).mpr ⟨hcls, hv, hr, rfl, rfl⟩

theorem addAcc_comm (a b : Acc) : addAcc a b = addAcc b a := by
  refine addAcc_eq (sumCls_comm ..) (fun hfin => ?_) ?_
  · obtain ⟨ha, hb⟩ := sumCls_eq_fin_iff.1 hfin
    rw [addAcc_val_of_fin ha hb, addAcc_val_of_fin hb ha, Int.add_comm]
  · rw [attributed_addAcc, attributed_addAcc, min_comm]

theorem addAcc_right_comm (a b c : Acc) : addAcc (addAcc a b) c = addAcc (addAcc a c) b := by
  refine addAcc_eq (sumCls_right_comm ..) (fun hfin => ?_) ?_
  · obtain ⟨hab, hc⟩ := sumCls_eq_fin_iff.1 hfin
    obtain ⟨ha, hb⟩ := sumCls_eq_fin_iff.1 hab
    have hac : (addAcc a c).cls = .fin := sumCls_eq_fin_iff.2 ⟨ha, hc⟩
    rw [addAcc_val_of_fin hab hc, addAcc_val_of_fin ha hb, addAcc_val_of_fin hac hb, addAcc_val_of_fin ha hc, Int.add_right_comm]
  · simp only [attributed_addAcc, min_right_comm]

/-! ### Combining under SUM -/

theorem combine_empty_left {op : Nat} {a b : Acc} (ha : a.empty = true) : combine op a b = b := if_pos ha

theorem combine_empty_right {op : Nat} {a b : Acc} (ha : a.empty = false) (hb : b.empty = true) : combine op a b = a := by
  simp [combine, ha, hb]

theorem combine_sum {a b : Acc} (ha : a.empty = false) (hb : b.empty = false) : combine 0 a b = addAcc a b := by
  simp [combine, ha, hb]

theorem sumForm_eq_zero_of_empty {a : Acc} (h : sumForm a) (he : a.empty = true) : a = Acc.zero := by
  rcases h with rfl | ⟨hne, -⟩
  · rfl
  · simp [hne] at he

theorem combine_sum_comm {a b : Acc} (ha : sumForm a) (hb : sumForm b) : combine 0 a b = combine 0 b a := by
  cases hae : a.empty <;> cases hbe : b.empty
  · rw [combine_sum hae hbe, combine_sum hbe hae, addAcc_comm]
  · rw [combine_empty_left hbe, combine_empty_right hae hbe]
  · rw [combine_empty_left hae, combine_empty_right hbe hae]
  · rw [sumForm_eq_zero_of_empty ha hae, sumForm_eq_zero_of_empty hb hbe]

/-- Two accumulands may join what has been summed before them in either order. -/
theorem combine_sum_right_comm {a b : Acc} (ha : sumForm a) (hb : sumForm b) (z : Acc) :
    combine 0 (combine 0 z a) b = combine 0 (combine 0 z b) a := by
  cases hz : z.empty
  · cases hae : a.empty <;> cases hbe : b.empty
    · rw [combine_sum hz hae, combine_sum hz hbe, combine_sum rfl hbe, combine_sum rfl hae, addAcc_right_comm]
    · rw [combine_sum hz hae, combine_empty_right hz hbe, combine_sum hz hae, combine_empty_right rfl hbe]
    · rw [combine_empty_right hz hae, combine_sum hz hbe, combine_empty_right rfl hae]
    · rw [combine_empty_right hz hae, combine_empty_right hz hbe, combine_empty_right hz hae]
  · rw [combine_empty_left hz, combine_empty_left hz, combine_sum_comm ha hb]

/-- The sum of a set of accumulands does not depend on the order in which they come. -/
theorem foldl_combine_sum_perm {l m : List Acc} (h : l.Perm m) (hl : ∀ a ∈ l, sumForm a) (z : Acc) :
    l.foldl (combine 0) z = m.foldl (combine 0) z :=
  h.foldl_eq' (fun a ha b hb y => combine_sum_right_comm (hl a ha) (hl b hb) y) z

/-- Settles O55: SUM adds classes, finite values and attributed ranks each by a commutative and associative operation. -/
theorem sumsCombineInAnyOrder : Obligations.SumsCombineInAnyOrder := by
  unfold Obligations.SumsCombineInAnyOrder
  refine ⟨fun a b _ _ hae hbe => ?_, fun l m h hl => foldl_combine_sum_perm h hl _⟩
  rw [combine_sum hae hbe]
  refine ⟨?_, fun ha hb => ⟨addAcc_val_of_fin ha hb, addAcc_rank_of_fin ha hb⟩, addAcc_rank_of_fin_right,
    addAcc_rank_of_fin_left, addAcc_rank_of_not_fin⟩
  rw [addAcc_cls]
  cases a.cls <;> cases b.cls <;> rfl

end Sys2Proof.Proofs

/-! PROOFS. Refusals at acceptance (O60): a command whose meaning at its acceptance comes to a refusal changes only the host interface. -/

namespace Sys2Proof.Proofs

open Sys2Proof.Machine Sys2Proof.Safety Sys2Proof.Laws

/-! ### The state in which a ring command acts -/

/-- The state that an accepted command acts on: its ring's head is taken, and the addresses it reads are noted. -/
def headTaken (s : State) (ring : BitVec 6) (d : Desc) : State := noteReads (popHead s ring.toNat) d

theorem headTaken_moves (s : State) (ring : BitVec 6) (d : Desc) : Moves [.host, .fresh] s (headTaken s ring d) :=
  noteReads_moves (popHead_moves (Moves.refl _ _) rfl) rfl

@[simp] theorem tillAt_headTaken (s : State) (ring : BitVec 6) (d : Desc) (n : Nat) :
    tillAt (headTaken s ring d) n = tillAt s n :=
  congrArg (ofind · n) ((headTaken_moves s ring d).only .tills (by decide))

@[simp] theorem tallyAt_headTaken (s : State) (ring : BitVec 6) (d : Desc) (n : Nat) :
    tallyAt (headTaken s ring d) n = tallyAt s n :=
  congrArg (ofind · n) ((headTaken_moves s ring d).only .tallies (by decide))

@[simp] theorem regionAt_headTaken (s : State) (ring : BitVec 6) (d : Desc) (n : Nat) :
    regionAt (headTaken s ring d) n = regionAt s n :=
  have hhbm : { (headTaken s ring d).hbm with mem := [] } = { s.hbm with mem := [] } :=
    (headTaken_moves s ring d).only .hbm (by decide)
  congrArg (ofind · n) (congrArg Hbm.regions hhbm :)

@[simp] theorem relayAt_headTaken (s : State) (ring : BitVec 6) (d : Desc) (n : Nat) :
    relayAt (headTaken s ring d) n = relayAt s n :=
  congrArg (ofind · n) ((headTaken_moves s ring d).only .relays (by decide))

@[simp] theorem progAt_headTaken (s : State) (ring : BitVec 6) (d : Desc) (n : Nat) :
    progAt (headTaken s ring d) n = progAt s n :=
  congrArg (fun m => (ofind m n).filter fun p : Prog => p.loading.isNone) ((headTaken_moves s ring d).only .progs (by decide))

theorem descOk_of_admitted {s : State} {ring : BitVec 6} {d : Desc} {op cring : Nat} {job : Option Nat}
    (h : admitted s ring d op cring job) : descOk d = true := by
  obtain ⟨-, -, -, -, hdesc, -, -⟩ := h
  exact hdesc

/-! ### Completion with a status and no other effect (13 R374, R375) -/

/-- The command completes with a status, and changes nothing but the host interface. -/
def completesOnly (c : Instr) (s : State) (ring : BitVec 6) (d : Desc) (cring obj st : Nat) : Prop :=
  leads c s fun t => onlyChanges [.host, .fresh] s t ∧ answered s t ring d cring obj st 0 0

/-- An admitted command whose effect at its acceptance is a completion has no other effect. -/
theorem leads_completed {c : Instr} {s : State} {ring : BitVec 6} {d : Desc} {op cring cring' obj st : Nat} {job job' : Option Nat}
    {r : Res} {body : Accept → State → State} (hadm : admitted s ring d op cring job) (hexec : exec c s = r)
    (hr : r = .next (accept s ring d op job' obj cring' body)) (hjob : job' = job) (hcring : cring' = cring)
    (hbody : body (acceptNow s ring.toNat d.d0 obj) (headTaken s ring d) =
      completeTo (headTaken s ring d) cring (acceptNow s ring.toNat d.d0 obj) st) :
    completesOnly c s ring d cring obj st := by
  subst hjob hcring
  refine ⟨_, hexec.trans hr, ?_⟩
  rw [accept_runs hadm, ← headTaken, hbody]
  exact ⟨(settleFailed_moves (completeTo_moves (headTaken_moves s ring d) rfl) rfl).only, answered_complete⟩

/-- The same for a refusal that completes to D0 CRING. -/
theorem leads_refused {c : Instr} {s : State} {ring : BitVec 6} {d : Desc} {op obj : Nat} {job : Option Nat} {r : Res}
    {body : Accept → State → State} (hadm : admitted s ring d op (cringOf d.d0) none) (hexec : exec c s = r)
    (hr : r = .next (accept s ring d op job obj (cringOf d.d0) body)) (hjob : job = none)
    (hbody : ∀ a, body a (headTaken s ring d) = complete (headTaken s ring d) a stRefused) :
    completesOnly c s ring d (cringOf d.d0) obj stRefused :=
  leads_completed hadm hexec hr hjob rfl (hbody _)

/-! ### Openings with a bad scale table or with weights (02 R38, R41) -/

theorem scalesOk_eq_false {w : List W64} {scales : List Byte} (hmode : tMode w = 2)
    (hff : (0xFF : Byte) ∈ padTo (tBlocks w) scales) : scalesOk w scales = false := by
  have hall : ((padTo (tBlocks w) scales).all fun b => b != 0xFF) = false :=
    List.all_eq_false.2 ⟨_, hff, by decide⟩
  simp only [scalesOk, hmode, hall, bne_self_eq_false, Bool.or_false]

theorem tFieldsOk_eq_false_of_weighted {s : State} {w : List W64} (hop : tOp w ≠ 0) (hw : tWeighted w = true) :
    tFieldsOk s w = false := by
  have harith : tArithOk w = false := by simp [tArithOk, hop, hw]
  simp [tFieldsOk, harith]

/-- An opening that fails the check of its fields or of its scale table is refused, whatever the state. -/
theorem openRefusal_eq_refused {s : State} {o : TillObj} (h : tFieldsOk s o.words = false ∨ scalesOk o.words o.scales = false) :
    openRefusal s o = some stRefused := by
  unfold openRefusal
  refine if_pos ?_
  rcases h with h | h <;> simp [h]

theorem openRefusal_of_badScales_or_weighted (s : State) {o : TillObj}
    (h : (tMode o.words = 2 ∧ (0xFF : Byte) ∈ padTo (tBlocks o.words) o.scales) ∨
      (tOp o.words ≠ 0 ∧ tWeighted o.words = true)) : openRefusal s o = some stRefused := by
  rcases h with ⟨hmode, hff⟩ | ⟨hop, hw⟩
  · exact openRefusal_eq_refused (.inr (scalesOk_eq_false hmode hff))
  · exact openRefusal_eq_refused (.inl (tFieldsOk_eq_false_of_weighted hop hw))

theorem leads_tillOpen_refused {s : State} {ring : BitVec 6} {d : Desc} {obj : TillObj} {st : Nat}
    (hadm : admitted s ring d 0x10 (tCring obj.words) (some (tJob obj.words)))
    (hrefused : openRefusal (headTaken s ring d) obj = some st) :
    completesOnly (.tillOpen ring d obj) s ring d (tCring obj.words) (tTill obj.words) st := by
  refine leads_completed hadm (r := execTillOpen ring d obj s) rfl rfl rfl (if_pos (descOk_of_admitted hadm)) ?_
  simp only [hrefused]

/-! ### Commands on free objects (13 R374) -/

theorem leads_tillCmd_free {c : Instr} {s : State} {ring : BitVec 6} {d : Desc} {op : Nat} {r : Res}
    {body : Accept → Nat → Till → State → State} (hfree : tillAt s (objOf d) = none)
    (hadm : admitted s ring d op (cringOf d.d0) none) (hexec : exec c s = r) (hr : r = tillCmd ring d op s body) :
    completesOnly c s ring d (cringOf d.d0) (objOf d) stRefused :=
  leads_refused hadm hexec hr (Option.map_eq_none_iff.2 hfree) fun _ => by simp only [tillAt_headTaken, hfree]

theorem leads_closeTally_free {c : Instr} {s : State} {ring : BitVec 6} {d : Desc} {op : Nat} (hfree : tallyAt s (objOf d) = none)
    (hadm : admitted s ring d op (cringOf d.d0) none) (hexec : exec c s = .next (closeTally ring d op s)) :
    completesOnly c s ring d (cringOf d.d0) (objOf d) stRefused := by
  unfold closeTally at hexec
  exact leads_refused hadm hexec rfl (Option.map_eq_none_iff.2 hfree) fun _ => by simp only [tallyAt_headTaken, hfree]

/-- Settles O60: the check of an opening refuses it, and the meaning of a command on a free object is its refusal. -/
theorem badOpeningsAndFreeObjectsAreRefused : Obligations.BadOpeningsAndFreeObjectsAreRefused := by
  unfold Obligations.BadOpeningsAndFreeObjectsAreRefused
  refine ⟨fun s ring d obj hadm hbad => leads_tillOpen_refused hadm (openRefusal_of_badScales_or_weighted _ hbad),
    fun s ring d => ⟨?tills, ?tallies, ?regions, ?relay, ?program⟩⟩
  case tills =>
    intro c op hmem hfree hadm
    simp only [List.mem_cons, List.not_mem_nil, or_false, Prod.mk.injEq] at hmem
    obtain ⟨rfl, rfl⟩ | ⟨rfl, rfl⟩ | ⟨rfl, rfl⟩ | ⟨rfl, rfl⟩ | ⟨rfl, rfl⟩ := hmem
    · exact leads_tillCmd_free hfree hadm (r := execTillClose ring d s) rfl rfl
    · exact leads_tillCmd_free hfree hadm (r := execTillAbort ring d s) rfl rfl
    · exact leads_tillCmd_free hfree hadm (r := execTillSave ring d s) rfl rfl
    · exact leads_tillCmd_free hfree hadm (r := execTillResume ring d s) rfl rfl
    · exact leads_tillCmd_free hfree hadm (r := execTillExcise ring d s) rfl rfl
  case tallies =>
    intro c op hmem hfree hadm
    simp only [List.mem_cons, List.not_mem_nil, or_false, Prod.mk.injEq] at hmem
    obtain ⟨rfl, rfl⟩ | ⟨rfl, rfl⟩ | ⟨rfl, rfl⟩ := hmem
    · exact leads_closeTally_free hfree hadm rfl
    · exact leads_closeTally_free hfree hadm rfl
    · exact leads_refused hadm (r := execTallyExcise ring d s) rfl rfl (Option.map_eq_none_iff.2 hfree)
        fun _ => by simp only [tallyAt_headTaken, hfree]
  case regions =>
    intro c op chk hmem hfree hadm
    have hjob : (regionAt s (objOf d)).map (fun r => regJob r.words) = none := Option.map_eq_none_iff.2 hfree
    simp only [List.mem_cons, List.not_mem_nil, or_false, Prod.mk.injEq] at hmem
    obtain ⟨rfl, rfl⟩ | ⟨rfl, rfl⟩ | ⟨rfl, rfl⟩ := hmem
    · exact leads_refused hadm (r := execRegionClose ring d s) rfl rfl hjob fun _ => by simp only [regionAt_headTaken, hfree]
    · exact leads_refused hadm (r := execVaultGather ring d chk s) rfl rfl hjob fun _ => by simp only [regionAt_headTaken, hfree]
    · exact leads_refused hadm (r := execVaultQuery ring d s) rfl rfl hjob fun _ => by simp only [regionAt_headTaken, hfree]
  case relay =>
    exact fun hfree hadm => leads_refused hadm (r := execRelayClose ring d s) rfl rfl (Option.map_eq_none_iff.2 hfree)
      fun _ => by simp only [relayAt_headTaken, hfree]
  case program =>
    exact fun hfree hadm => leads_refused hadm (r := execProgUnload ring d s) rfl rfl rfl
      fun _ => by simp only [progAt_headTaken, hfree]

end Sys2Proof.Proofs

/-! PROOFS. Events and their rings (O57): an event is written, dropped, or dropped with RING_OVERFLOW, in the step that posts it. -/

namespace Sys2Proof.Proofs

open Sys2Proof.Machine Sys2Proof.Safety Sys2Proof.Laws

/-! ### Event rings of the host interface -/

theorem evRing_setEvRing_same {s : State} {e : Nat} {r : OutRing} (h : ringEn r.ctl = true) : evRing (setEvRing s e r) e = r :=
  sget_sput_ne fun he => absurd (he ▸ h) (by decide)

theorem evRing_setEvRing_other {s : State} {e j : Nat} {r : OutRing} (h : j ≠ e) : evRing (setEvRing s e r) j = evRing s j :=
  sget_sput_other h

theorem evRing_congr {s t : State} (h : t.host.ev = s.host.ev) (e : Nat) : evRing t e = evRing s e := by
  rw [evRing, h, evRing]

/-! ### Entries written to a ring (13 R365, R379, R390) -/

theorem putEntry_ringSide (s : State) (k : WriteKind) (r : OutRing) (w : List W64) : RingSide s (putEntry s k r w).2 :=
  hostWrite_ringSide ..

theorem putEntries_ringSide (k : WriteKind) (s : State) (r : OutRing) (es : List (List W64)) :
    RingSide s (putEntries k s r es).2 := by
  induction es generalizing s r with
  | nil => exact RingSide.refl s
  | cons w es ih => exact (putEntry_ringSide s k r w).trans (ih ..)

/-- What writing entries leaves of a ring's registers, and where its write index comes to stand. -/
structure RingAdvanced (n : Nat) (r r' : OutRing) : Prop where
  ctl : r'.ctl = r.ctl
  lost : r'.lost = r.lost
  wi : r'.wi = r.wi + BitVec.ofNat 32 n

theorem putEntries_advanced (k : WriteKind) (s : State) (r : OutRing) (es : List (List W64)) :
    RingAdvanced es.length r (putEntries k s r es).1 := by
  induction es generalizing s r with
  | nil => exact ⟨rfl, rfl, (BitVec.add_zero r.wi).symm⟩
  | cons w es ih =>
    obtain ⟨hctl, hlost, hwi⟩ := ih (putEntry s k r w).2 (putEntry s k r w).1
    refine ⟨hctl, hlost, hwi.trans ?_⟩
    change r.wi + 1 + BitVec.ofNat 32 es.length = r.wi + BitVec.ofNat 32 (es.length + 1)
    rw [BitVec.ofNat_add, BitVec.add_assoc, BitVec.add_comm 1]
    rfl

/-- The first entry is written at the write index, with the PHASE of that index. -/
theorem hostWriting_putEntries (k : WriteKind) (s : State) (r : OutRing) (w : List W64) (es : List (List W64)) :
    hostWriting (putEntries k s r (w :: es)).2 (r.base.toNat / 4096 * 4096 + 32 * (r.wi.toNat % ringSize r.ctl))
      (bytesOf (withPhase w (phaseOf r.wi (ringLog r.ctl)))) k :=
  have later : RingSide (putEntry s k r w).2 (putEntries k s r (w :: es)).2 := putEntries_ringSide ..
  ⟨_, later.writes _ mem_oins (Nat.lt_succ_self s.fresh), rfl⟩

/-- The interrupt of a ring raises or queues a vector, and leaves the rings and the writes under way. -/
theorem ringIrq_keeps (s : State) (k : WriteKind) (r : OutRing) :
    RingAdvanced 0 r (ringIrq s k r).1 ∧ (ringIrq s k r).2.host.ev = s.host.ev ∧
      (ringIrq s k r).2.host.writes = s.host.writes := by
  unfold ringIrq fireRing
  split
  · refine ⟨⟨rfl, rfl, (BitVec.add_zero r.wi).symm⟩, ?_⟩
    dsimp only
    split <;> exact ⟨rfl, rfl⟩
  · exact ⟨⟨rfl, rfl, (BitVec.add_zero r.wi).symm⟩, rfl, rfl⟩

/-- The entries that `ringPut` writes: the PAD first where it is needed. -/
def padded (r : OutRing) (es : List (List W64)) : List (List W64) := if needsPad r es.length then [[0, 0, 0, 0]] ++ es else es

theorem padded_length (r : OutRing) (es : List (List W64)) : (padded r es).length = es.length + b2n (needsPad r es.length) := by
  unfold padded b2n
  split <;> simp [Nat.add_comm]

theorem ringPut_eq (s : State) (k : WriteKind) (r : OutRing) (es : List (List W64)) :
    ringPut s k r es = ringIrq (putEntries k s r (padded r es)).2 k (putEntries k s r (padded r es)).1 := rfl

theorem ringPut_advanced (s : State) (k : WriteKind) (r : OutRing) (es : List (List W64)) :
    RingAdvanced (es.length + b2n (needsPad r es.length)) r (ringPut s k r es).1 := by
  obtain ⟨hctl, hlost, hwi⟩ := padded_length r es ▸ putEntries_advanced k s r (padded r es)
  obtain ⟨⟨hctl', hlost', hwi'⟩, -, -⟩ := ringIrq_keeps (putEntries k s r (padded r es)).2 k (putEntries k s r (padded r es)).1
  rw [ringPut_eq]
  exact ⟨hctl'.trans hctl, hlost'.trans hlost, hwi'.trans ((BitVec.add_zero _).trans hwi)⟩

theorem ringPut_host_ev (s : State) (k : WriteKind) (r : OutRing) (es : List (List W64)) :
    (ringPut s k r es).2.host.ev = s.host.ev :=
  (ringIrq_keeps ..).2.1.trans (putEntries_ringSide ..).ev

theorem ringPut_host_writes (s : State) (k : WriteKind) (r : OutRing) (es : List (List W64)) :
    (ringPut s k r es).2.host.writes = (putEntries k s r (padded r es)).2.host.writes :=
  (ringIrq_keeps ..).2.2

/-- Writes of host memory under way stay so: a new one takes a new number. -/
theorem mem_ringPut_writes {s : State} {k : WriteKind} {r : OutRing} {es : List (List W64)} {w : Nat × HostWrite}
    (hw : w ∈ s.host.writes) (hold : w.1 < s.fresh) : w ∈ (ringPut s k r es).2.host.writes :=
  ringPut_host_writes s k r es ▸ (putEntries_ringSide ..).writes w hw hold

theorem hostWriting_ringPut {s : State} {k : WriteKind} {r : OutRing} {w : List W64} {es : List (List W64)}
    (hpad : needsPad r (w :: es).length = false) :
    hostWriting (ringPut s k r (w :: es)).2 (r.base.toNat / 4096 * 4096 + 32 * (r.wi.toNat % ringSize r.ctl))
      (bytesOf (withPhase w (phaseOf r.wi (ringLog r.ctl)))) k := by
  have hes : padded r (w :: es) = w :: es := if_neg (Bool.not_eq_true _ ▸ hpad)
  unfold hostWriting
  rw [ringPut_host_writes, hes]
  exact hostWriting_putEntries k s r w es

/-! ### Cause bits (12 R341) -/

/-- Of the host interface, a cause changes only what its vector does. -/
theorem setBit_host_eq (s : State) (src b unit : Nat) :
    ∃ msix pba, (setBit s src b unit).host = { s.host with msix := msix, pba := pba } := by
  unfold setBit
  dsimp only
  split <;> exact ⟨_, _, rfl⟩

@[simp] theorem setBit_host_ev (s : State) (src b unit : Nat) : (setBit s src b unit).host.ev = s.host.ev := by
  obtain ⟨_, _, h⟩ := setBit_host_eq s src b unit
  rw [h]

@[simp] theorem setBit_host_watch (s : State) (src b unit : Nat) : (setBit s src b unit).host.watch = s.host.watch := by
  obtain ⟨_, _, h⟩ := setBit_host_eq s src b unit
  rw [h]

@[simp] theorem setBit_host_evroute (s : State) (src b unit : Nat) : (setBit s src b unit).host.evroute = s.host.evroute := by
  obtain ⟨_, _, h⟩ := setBit_host_eq s src b unit
  rw [h]

theorem bit_eq_testBit (n b : Nat) : bit n b = n.testBit b := by
  rw [bit, Nat.testBit_eq_decide_div_mod_eq]
  rfl

theorem bit_or_twoPow {w b : Nat} (x : BitVec w) (hb : b < w) : bit (x ||| BitVec.ofNat w (2 ^ b)).toNat b = true := by
  rw [bit_eq_testBit, BitVec.testBit_toNat, BitVec.getLsbD_or, BitVec.getLsbD_ofNat, Nat.testBit_two_pow_self]
  simp [hb]

theorem bit_statAt_setBit (s : State) (src unit : Nat) {b : Nat} (hb : b < 32) :
    bit (statAt (setBit s src b unit) src).status.toNat b = true := by
  have hnew := bit_or_twoPow (statAt s src).status hb
  have key (v : Stat) (hv : bit v.status.toNat b = true) : bit (statAt (setStat s src v) src).status.toNat b = true := by
    have hsame : statAt (setStat s src v) src = v := sget_sput_ne fun he => by simp [he, bit] at hv
    rwa [hsame]
  unfold setBit
  dsimp only
  split <;> exact key _ hnew

/-! ### The three ends of an event (13 R388, R389) -/

/-- The event ring that RING_EVROUTE gives to the class of a source. -/
def eventRoute (s : State) (src : Nat) : Nat := bits s.host.evroute.toNat (2 * eventClass src + 1) (2 * eventClass src)

/-- That ring. -/
def routedRing (s : State) (src : Nat) : OutRing := evRing s (eventRoute s src)

/-- The records of an event, which tell the LOST count of its ring. -/
def recordsOf (s : State) (src code job unit d0 d1 : Nat) (more : Option (Nat × Nat × Nat)) : List (List W64) :=
  eventRecords s (routedRing s src).lost src code job unit d0 d1 more

/-- The ring of a source has room for n records. -/
def hasRoom (s : State) (src n : Nat) : Bool := ringRoom s 2 (eventRoute s src) (routedRing s src) n

/-- A ring that has dropped one more event. -/
def lostOneMore (r : OutRing) : OutRing := { r with lost := satAdd 0xFFFF r.lost 1 }

/-- An event of a source is dropped by its ring. -/
def eventDropped (s : State) (src : Nat) : State := setEvRing s (eventRoute s src) (lostOneMore (routedRing s src))

theorem evRing_eventDropped {s : State} {src : Nat} (hen : ringEn (routedRing s src).ctl = true) :
    evRing (eventDropped s src) (eventRoute s src) = lostOneMore (routedRing s src) :=
  evRing_setEvRing_same hen

/-- The records of an event written to its ring, which has carried its LOST count. -/
def eventWritten (s : State) (e : Nat) (es : List (List W64)) : State :=
  let (r, t) := ringPut s (.event e) { evRing s e with lost := 0 } es
  setEvRing t e r

theorem evRing_eventWritten_other {s : State} {e j : Nat} (es : List (List W64)) (hj : j ≠ e) :
    evRing (eventWritten s e es) j = evRing s j :=
  (evRing_setEvRing_other hj).trans (evRing_congr (ringPut_host_ev ..) j)

theorem evRing_eventWritten_same {s : State} {e : Nat} (es : List (List W64)) (hen : ringEn (evRing s e).ctl = true) :
    RingAdvanced (es.length + b2n (needsPad (evRing s e) es.length)) { evRing s e with lost := 0 } (evRing (eventWritten s e es) e) := by
  have hadv := ringPut_advanced s (.event e) { evRing s e with lost := 0 } es
  have hput : evRing (eventWritten s e es) e = (ringPut s (.event e) { evRing s e with lost := 0 } es).1 :=
    evRing_setEvRing_same (hadv.ctl ▸ hen)
  exact hput ▸ hadv

theorem eventRecords_eq_cons (s : State) (lost src code job unit d0 d1 : Nat) (more : Option (Nat × Nat × Nat)) :
    ∃ w es, eventRecords s lost src code job unit d0 d1 more = w :: es := by
  cases more <;> exact ⟨_, _, rfl⟩

section Posting

variable {s : State} {src code job unit d0 d1 : Nat} {more : Option (Nat × Nat × Nat)}

theorem postEventRaw_off (hen : ringEn (routedRing s src).ctl = false) : postEventRaw s src code job unit d0 d1 more = (s, false) :=
  if_pos (congrArg not hen)

theorem postEventRaw_on (hen : ringEn (routedRing s src).ctl = true) :
    postEventRaw s src code job unit d0 d1 more =
      if hasRoom s src (recordsOf s src code job unit d0 d1 more).length
      then (eventWritten s (eventRoute s src) (recordsOf s src code job unit d0 d1 more), false) else (eventDropped s src, true) :=
  if_neg (ne_true_of_eq_false (congrArg not hen))

theorem postEventRaw_full (hen : ringEn (routedRing s src).ctl = true)
    (hfull : hasRoom s src (recordsOf s src code job unit d0 d1 more).length = false) :
    postEventRaw s src code job unit d0 d1 more = (eventDropped s src, true) := by
  simp [postEventRaw_on hen, hfull]

theorem postEventRaw_room (hen : ringEn (routedRing s src).ctl = true)
    (hroom : hasRoom s src (recordsOf s src code job unit d0 d1 more).length = true) :
    postEventRaw s src code job unit d0 d1 more =
      (eventWritten s (eventRoute s src) (recordsOf s src code job unit d0 d1 more), false) := by
  simp [postEventRaw_on hen, hroom]

/-- An event leaves every ring but its own. -/
theorem evRing_postEventRaw_other {j : Nat} (hj : j ≠ eventRoute s src) :
    evRing (postEventRaw s src code job unit d0 d1 more).1 j = evRing s j := by
  cases hen : ringEn (routedRing s src).ctl with
  | false => rw [postEventRaw_off hen]
  | true =>
    rw [postEventRaw_on hen]
    split
    · exact evRing_eventWritten_other _ hj
    · exact evRing_setEvRing_other hj

theorem postEvent_off (hen : ringEn (routedRing s src).ctl = false) : postEvent s src code job unit d0 d1 more = s := by
  rw [postEvent, postEventRaw_off hen]
  rfl

theorem postEvent_full (hen : ringEn (routedRing s src).ctl = true)
    (hfull : hasRoom s src (recordsOf s src code job unit d0 d1 more).length = false) :
    postEvent s src code job unit d0 d1 more = ringOverflow (eventDropped s src) (eventRoute s src) := by
  rw [postEvent, postEventRaw_full hen hfull]
  rfl

theorem postEvent_room (hen : ringEn (routedRing s src).ctl = true)
    (hroom : hasRoom s src (recordsOf s src code job unit d0 d1 more).length = true) :
    postEvent s src code job unit d0 d1 more =
      eventWritten s (eventRoute s src) (recordsOf s src code job unit d0 d1 more) := by
  rw [postEvent, postEventRaw_room hen hroom]
  rfl

end Posting

/-! ### RING_OVERFLOW and its own event (12 R341, 13 R389) -/

theorem eventRoute_setBit (s : State) (b unit src : Nat) : eventRoute (setBit s srcHost b unit) src = eventRoute s src := by
  simp [eventRoute]

theorem routedRing_setBit (s : State) (b unit src : Nat) : routedRing (setBit s srcHost b unit) src = routedRing s src := by
  rw [routedRing, eventRoute_setBit]
  exact evRing_congr (setBit_host_ev ..) _

theorem hasRoom_setBit (s : State) (b unit src n : Nat) : hasRoom (setBit s srcHost b unit) src n = hasRoom s src n := by
  simp [hasRoom, ringRoom, watched, eventRoute_setBit, routedRing_setBit]

theorem evRing_ringOverflow_other {s : State} {e : Nat} (ring : Nat) (he : e ≠ eventRoute s srcHost) :
    evRing (ringOverflow s ring) e = evRing s e :=
  (evRing_postEventRaw_other (eventRoute_setBit s hbOverflow ring srcHost ▸ he)).trans (evRing_congr (setBit_host_ev ..) e)

/-- The event of RING_OVERFLOW is dropped in turn where its ring is full. -/
theorem evRing_ringOverflow_full {s : State} (ring : Nat) (hen : ringEn (routedRing s srcHost).ctl = true)
    (hfull : hasRoom s srcHost 1 = false) :
    evRing (ringOverflow s ring) (eventRoute s srcHost) = lostOneMore (routedRing s srcHost) := by
  have hen' : ringEn (routedRing (setBit s srcHost hbOverflow ring) srcHost).ctl = true := by rwa [routedRing_setBit]
  have hfull' : hasRoom (setBit s srcHost hbOverflow ring) srcHost 1 = false := by rwa [hasRoom_setBit]
  have hdrop := evRing_eventDropped hen'
  rw [eventRoute_setBit, routedRing_setBit] at hdrop
  have hraw : postEventRaw (setBit s srcHost hbOverflow ring) srcHost hbOverflow 0 ring 0 0 none =
      (eventDropped (setBit s srcHost hbOverflow ring) srcHost, true) := postEventRaw_full hen' hfull'
  rw [ringOverflow, hraw]
  exact hdrop

theorem bit_statAt_ringOverflow (s : State) (ring : Nat) :
    bit (statAt (ringOverflow s ring) srcHost).status.toNat hbOverflow = true := by
  have hstats : (ringOverflow s ring).stats = (setBit s srcHost hbOverflow ring).stats :=
    (postEventRaw_moves (Moves.refl [.host, .fresh] _) rfl).only .stats (by decide)
  rw [statAt, hstats]
  exact bit_statAt_setBit s srcHost ring (by decide)

/-! ### What a drop and a record leave behind (13 R389) -/

section Outcomes

variable {s : State} {src code job unit d0 d1 : Nat} {more : Option (Nat × Nat × Nat)}

theorem evRing_postEvent_full (hen : ringEn (routedRing s src).ctl = true)
    (hfull : hasRoom s src (recordsOf s src code job unit d0 d1 more).length = false)
    (hne : eventRoute s src ≠ eventRoute s srcHost) :
    evRing (postEvent s src code job unit d0 d1 more) (eventRoute s src) = lostOneMore (routedRing s src) := by
  have hkept : evRing (ringOverflow (eventDropped s src) (eventRoute s src)) (eventRoute s src) =
      evRing (eventDropped s src) (eventRoute s src) := evRing_ringOverflow_other _ hne
  rw [postEvent_full hen hfull, hkept, evRing_eventDropped hen]

/-- A ring that is also the ring of the host's own events drops the event of RING_OVERFLOW too. -/
theorem evRing_postEvent_full_twice (hen : ringEn (routedRing s src).ctl = true)
    (hfull : hasRoom s src (recordsOf s src code job unit d0 d1 more).length = false)
    (heq : eventRoute s src = eventRoute s srcHost) (hfull1 : hasRoom s src 1 = false) :
    evRing (postEvent s src code job unit d0 d1 more) (eventRoute s src) = lostOneMore (lostOneMore (routedRing s src)) := by
  have hroute : eventRoute (eventDropped s src) srcHost = eventRoute s src := heq.symm
  have hring : routedRing (eventDropped s src) srcHost = lostOneMore (routedRing s src) := by
    rw [routedRing, hroute, evRing_eventDropped hen]
  have hroom : hasRoom (eventDropped s src) srcHost 1 = false := by rwa [hasRoom, hroute, hring]
  have htwice := evRing_ringOverflow_full (eventRoute s src) (hring ▸ hen) hroom
  rw [hroute, hring] at htwice
  rw [postEvent_full hen hfull, htwice]

theorem bit_statAt_postEvent_full (hen : ringEn (routedRing s src).ctl = true)
    (hfull : hasRoom s src (recordsOf s src code job unit d0 d1 more).length = false) :
    bit (statAt (postEvent s src code job unit d0 d1 more) srcHost).status.toNat hbOverflow = true := by
  rw [postEvent_full hen hfull]
  exact bit_statAt_ringOverflow ..

theorem postEvent_room_moves (hen : ringEn (routedRing s src).ctl = true)
    (hroom : hasRoom s src (recordsOf s src code job unit d0 d1 more).length = true) :
    Moves [.host, .fresh] s (postEvent s src code job unit d0 d1 more) := by
  have hraw := postEventRaw_moves (src := src) (code := code) (job := job) (unit := unit) (d0 := d0) (d1 := d1) (more := more)
    (Moves.refl [.host, .fresh] s) rfl
  rwa [postEventRaw_room hen hroom, ← postEvent_room hen hroom] at hraw

theorem evRing_postEvent_room (hen : ringEn (routedRing s src).ctl = true)
    (hroom : hasRoom s src (recordsOf s src code job unit d0 d1 more).length = true) :
    RingAdvanced ((recordsOf s src code job unit d0 d1 more).length +
        b2n (needsPad (routedRing s src) (recordsOf s src code job unit d0 d1 more).length))
      { routedRing s src with lost := 0 } (evRing (postEvent s src code job unit d0 d1 more) (eventRoute s src)) := by
  rw [postEvent_room hen hroom]
  exact evRing_eventWritten_same _ hen

/-- Where no PAD goes first, the first record is written at the write index. -/
theorem hostWriting_postEvent_room (hen : ringEn (routedRing s src).ctl = true)
    (hroom : hasRoom s src (recordsOf s src code job unit d0 d1 more).length = true)
    (hpad : needsPad (routedRing s src) (recordsOf s src code job unit d0 d1 more).length = false) :
    hostWriting (postEvent s src code job unit d0 d1 more)
      ((routedRing s src).base.toNat / 4096 * 4096 + 32 * ((routedRing s src).wi.toNat % ringSize (routedRing s src).ctl))
      (bytesOf (withPhase ((recordsOf s src code job unit d0 d1 more).headD [])
        (phaseOf (routedRing s src).wi (ringLog (routedRing s src).ctl)))) (.event (eventRoute s src)) := by
  rw [postEvent_room hen hroom]
  obtain ⟨w, es, hrecords⟩ : ∃ w es, recordsOf s src code job unit d0 d1 more = w :: es := eventRecords_eq_cons ..
  rw [hrecords] at hpad ⊢
  exact hostWriting_ringPut (r := { routedRing s src with lost := 0 }) hpad

theorem mem_postEvent_room_writes (hen : ringEn (routedRing s src).ctl = true)
    (hroom : hasRoom s src (recordsOf s src code job unit d0 d1 more).length = true) {w : Nat × HostWrite}
    (hw : w ∈ s.host.writes) (hold : w.1 < s.fresh) : w ∈ (postEvent s src code job unit d0 d1 more).host.writes := by
  rw [postEvent_room hen hroom]
  exact mem_ringPut_writes hw hold

end Outcomes

/-- Settles O57: `postEvent` leaves its ring off, full, or with the records written, and returns in the same step. -/
theorem eventsAreNeverDelayed : Obligations.EventsAreNeverDelayed := by
  unfold Obligations.EventsAreNeverDelayed
  refine fun s src code job unit d0 d1 more => ⟨postEvent_off, fun hen hfull => ⟨?only, ?once, ?twice, ?overflow⟩,
    fun hen hroom => ⟨?moved, ?lost, ?index, ?first, ?kept⟩⟩
  case only => exact (postEvent_moves (Moves.refl _ s) rfl).only
  case once => exact evRing_postEvent_full hen hfull
  case twice => exact evRing_postEvent_full_twice hen hfull
  case overflow => exact bit_statAt_postEvent_full hen hfull
  case moved => exact (postEvent_room_moves hen hroom).only
  case lost => exact (evRing_postEvent_room hen hroom).lost
  case index => exact (evRing_postEvent_room hen hroom).wi
  case first => exact hostWriting_postEvent_room hen hroom
  case kept => exact fun w hw hold => mem_postEvent_room_writes hen hroom hw hold

end Sys2Proof.Proofs

/-! PROOFS. Strap pins (O59): a change after the sample is told by STRAP_PINS and by one STRAPS entry. -/

namespace Sys2Proof.Proofs

open Sys2Proof.Machine Sys2Proof.Safety Sys2Proof.Laws

/-! ### A raw entry of the ledger (15 Table 15.10) -/

/-- The entry told by `recordRaw` enters the queue with the origin, kind, OLD and NEW that the caller gives. -/
theorem recordRaw_enqueues (s : State) (origin id kind target old new : Nat) :
    ∃ e, (recordRaw s origin id kind target old new).ledger.queue = enqueueChange s e ∧ e.kind = BitVec.ofNat 8 kind ∧
      e.raw = true ∧ e.origin = BitVec.ofNat 8 origin ∧ e.old = padTo 16 (leBytes 16 old) ∧ e.new = padTo 16 (leBytes 16 new) :=
  ⟨_, rfl, rfl, rfl, rfl, rfl, rfl⟩

@[simp] theorem recordRaw_boot (s : State) (origin id kind target old new : Nat) :
    (recordRaw s origin id kind target old new).boot = s.boot := rfl

/-! ### The fields of STRAP_PINS (14 R400) -/

theorem b2n_le_one (b : Bool) : b2n b ≤ 1 := by
  cases b <;> decide

/-- Whether the pins differ from the sample, which is CHANGED. -/
def pinsChanged (s : State) : Bool := s.boot.sampled && s.boot.pins != s.boot.strap

theorem strapPins_toNat (s : State) : (strapPins s).toNat = b2n (pinsChanged s) * 2 ^ 31 + s.boot.pins.toNat := by
  have hpins : s.boot.pins.toNat < 2 ^ 14 := s.boot.pins.isLt
  have hchanged := b2n_le_one (pinsChanged s)
  rw [strapPins, ← pinsChanged, BitVec.toNat_ofNat]
  omega

theorem bit_strapPins_changed (s : State) : bit (strapPins s).toNat 31 = pinsChanged s := by
  have hpins : s.boot.pins.toNat < 2 ^ 31 := s.boot.pins.isLt.trans (by decide)
  have hfield : (b2n (pinsChanged s) * 2 ^ 31 + s.boot.pins.toNat) / 2 ^ 31 = b2n (pinsChanged s) := by omega
  rw [strapPins_toNat, bit, hfield]
  cases pinsChanged s <;> rfl

theorem bits_strapPins_levels (s : State) : bits (strapPins s).toNat 13 0 = s.boot.pins.toNat := by
  have hpins : s.boot.pins.toNat < 2 ^ 14 := s.boot.pins.isLt
  rw [strapPins_toNat, bits]
  omega

/-! ### A change of the pins after the sample (15 R412) -/

/-- The state with other levels on its strap pins. -/
def withPins (s : State) (pins : BitVec 14) : State := { s with boot := { s.boot with pins := pins } }

@[simp] theorem withPins_boot (s : State) (pins : BitVec 14) : (withPins s pins).boot = { s.boot with pins := pins } := rfl

/-- STRAP_VALUE keeps what was sampled. -/
@[simp] theorem strapValue_withPins (s : State) (pins : BitVec 14) : strapValue (withPins s pins) = strapValue s := rfl

@[simp] theorem enqueueChange_withPins (s : State) (pins : BitVec 14) (e : Change) :
    enqueueChange (withPins s pins) e = enqueueChange s e := rfl

/-- The new levels on the pins, and the STRAPS entry that tells them. -/
def strapsRecorded (s : State) (pins : BitVec 14) : State :=
  recordRaw (withPins s pins) oStrap 0 0x01 0 (strapValue s).toNat pins.toNat

@[simp] theorem strapsRecorded_boot (s : State) (pins : BitVec 14) :
    (strapsRecorded s pins).boot = { s.boot with pins := pins } := by
  simp [strapsRecorded]

theorem exec_strapChange_sampled {s : State} {pins : BitVec 14} (hsampled : s.boot.sampled = true) (hpins : pins ≠ s.boot.pins) :
    exec (.strapChange pins) s = .next (strapsRecorded s pins) := by
  have hexec : exec (.strapChange pins) s = execStrapChange pins s := rfl
  rw [hexec, execStrapChange, if_neg hpins, strapsRecorded, ← strapValue_withPins s pins]
  exact congrArg Host.Outcome.next (if_pos hsampled)

theorem strapsRecorded_moves (s : State) (pins : BitVec 14) : Moves [.boot, .ledger] s (strapsRecorded s pins) :=
  recordRaw_moves (upd_boot (Moves.refl _ s) rfl) rfl

theorem strapsRecorded_enqueues (s : State) (pins : BitVec 14) :
    ∃ e, (strapsRecorded s pins).ledger.queue = enqueueChange s e ∧ e.kind = 0x01 ∧ e.raw = true ∧
      e.origin = BitVec.ofNat 8 oStrap ∧ e.old = padTo 16 (leBytes 16 (strapValue s).toNat) ∧
      e.new = padTo 16 (leBytes 16 pins.toNat) := by
  rw [strapsRecorded]
  simpa using recordRaw_enqueues (withPins s pins) oStrap 0 0x01 0 (strapValue s).toNat pins.toNat

/-- Settles O59: the change comes to the new pins and one raw entry, and STRAP_PINS compares the pins with the sample. -/
theorem strapChangeIsRecorded : Obligations.StrapChangeIsRecorded := by
  unfold Obligations.StrapChangeIsRecorded
  refine fun s pins hsampled hpins => ⟨strapsRecorded s pins, exec_strapChange_sampled hsampled hpins,
    (strapsRecorded_moves s pins).only, strapsRecorded_boot s pins, ?changed, ?levels, strapsRecorded_enqueues s pins⟩
  case changed => simp [bit_strapPins_changed, pinsChanged, hsampled]
  case levels => simp [bits_strapPins_levels]

end Sys2Proof.Proofs

/-! PROOFS. What one step may change (95_what_each_step_holds): every command answers a next state, takes nothing from the queue and keeps every
canonical form. The lemmas of Laws/Moves say it of each meaning. -/

namespace Sys2Proof.Proofs

open Sys2Proof.Machine Sys2Proof.Safety Sys2Proof.Laws

/-- Every area but the queue of waiting commands. -/
def allButQueue : List Area :=
  [.now, .boot, .tick, .tables, .host, .stats, .refused, .ports, .lanes, .frames, .stalled, .reorder, .doneMsgs, .blockCounts, .shapers,
    .meters, .pools, .tandem, .dropping, .intake, .parsing, .tills, .tallies, .progs, .ctxs, .tiles, .mem, .hbm, .faults, .bridge, .relays,
    .toss, .jobFree, .ledger, .spdm, .doe, .fresh]

theorem runs_widen {l m : List Area} {s : State} {r : Res} (h : Runs l s r) (hs : sub l m = true) : Runs m s r := by
  obtain ⟨t, ht, hm⟩ := h
  exact ⟨t, ht, (Moves.refl m s).trans hm hs⟩


theorem exec_runs (c : Instr) (s : State) : Runs allButQueue s (exec c s) := by
  cases c
  case nop => exact runs_widen execNop_moves rfl
  case tillOpen => exact runs_widen execTillOpen_moves rfl
  case tillClose => exact runs_widen execTillClose_moves rfl
  case tillAbort => exact runs_widen execTillAbort_moves rfl
  case tillSave => exact runs_widen execTillSave_moves rfl
  case tillRestore => exact runs_widen execTillRestore_moves rfl
  case tillResume => exact runs_widen execTillResume_moves rfl
  case tillExcise => exact runs_widen execTillExcise_moves rfl
  case tallyOpen => exact runs_widen execTallyOpen_moves rfl
  case tallyClose => exact runs_widen execTallyClose_moves rfl
  case tallyAbort => exact runs_widen execTallyAbort_moves rfl
  case tallyExcise => exact runs_widen execTallyExcise_moves rfl
  case tallyExciseEffect => exact runs_widen execTallyExciseEffect_moves rfl
  case progLoad => exact runs_widen execProgLoad_moves rfl
  case progUnload => exact runs_widen execProgUnload_moves rfl
  case progRun => exact runs_widen execProgRun_moves rfl
  case regionOpen => exact runs_widen execRegionOpen_moves rfl
  case regionClose => exact runs_widen execRegionClose_moves rfl
  case memCopy => exact runs_widen execMemCopy_moves rfl
  case memConfig => exact runs_widen execMemConfig_moves rfl
  case vaultGather => exact runs_widen execVaultGather_moves rfl
  case vaultQuery => exact runs_widen execVaultQuery_moves rfl
  case relayOpen => exact runs_widen execRelayOpen_moves rfl
  case relayClose => exact runs_widen execRelayClose_moves rfl
  case stage => exact runs_widen execStage_moves rfl
  case arm => exact runs_widen execArm_moves rfl
  case cancel => exact runs_widen execCancel_moves rfl
  case linkDown => exact runs_widen execLinkDown_moves rfl
  case linkUp => exact runs_widen execLinkUp_moves rfl
  case queueRead => exact runs_widen execQueueRead_moves rfl
  case poolRead => exact runs_widen execPoolRead_moves rfl
  case counterRead => exact runs_widen execCounterRead_moves rfl
  case freewheelRead => exact runs_widen execFreewheelRead_moves rfl
  case receiptRead => exact runs_widen execReceiptRead_moves rfl
  case tossRead => exact runs_widen execTossRead_moves rfl
  case ledgerRead => exact runs_widen execLedgerRead_moves rfl
  case ledgerMirror => exact runs_widen execLedgerMirror_moves rfl
  case contribReceive => exact runs_widen execContribReceive_moves rfl
  case partialReceive => exact runs_widen execPartialReceive_moves rfl
  case summaryReceive => exact runs_widen execSummaryReceive_moves rfl
  case resendReqReceive => exact runs_widen execResendReqReceive_moves rfl
  case chunkTimerExpiry => exact runs_widen execChunkTimerExpiry_moves rfl
  case summaryTimerExpiry => exact runs_widen execSummaryTimerExpiry_moves rfl
  case earlyForwardExpiry => exact runs_widen execEarlyForwardExpiry_moves rfl
  case tillDeadline => exact runs_widen execTillDeadline_moves rfl
  case admissionGrant => exact runs_widen execAdmissionGrant_moves rfl
  case preemptRestore => exact runs_widen execPreemptRestore_moves rfl
  case drainAction => exact runs_widen execDrainAction_moves rfl
  case snapshotWritten => exact runs_widen execSnapshotWritten_moves rfl
  case restoreLoaded => exact runs_widen execRestoreLoaded_moves rfl
  case chunkDone => exact runs_widen execChunkDone_moves rfl
  case updatePassStart => exact runs_widen execUpdatePassStart_moves rfl
  case enginePassStart => exact runs_widen execEnginePassStart_moves rfl
  case enginePassEnd => exact runs_widen execEnginePassEnd_moves rfl
  case progRunEnd => exact runs_widen execProgRunEnd_moves rfl
  case tallyArrive => exact runs_widen execTallyArrive_moves rfl
  case tallyAdd => exact runs_widen execTallyAdd_moves rfl
  case tallyCarry => exact runs_widen execTallyCarry_moves rfl
  case tallyReleasePass => exact runs_widen execTallyReleasePass_moves rfl
  case tallyTimerExpiry => exact runs_widen execTallyTimerExpiry_moves rfl
  case tallyDeadline => exact runs_widen execTallyDeadline_moves rfl
  case alignedCopySend => exact runs_widen execAlignedCopySend_moves rfl
  case memRdReceive => exact runs_widen execMemRdReceive_moves rfl
  case versionRelease => exact runs_widen execVersionRelease_moves rfl
  case memWrReceive => exact runs_widen execMemWrReceive_moves rfl
  case memRspReceive => exact runs_widen execMemRspReceive_moves rfl
  case memRequestTimeout => exact runs_widen execMemRequestTimeout_moves rfl
  case versionReclaim => exact runs_widen execVersionReclaim_moves rfl
  case paramBlockRead => exact runs_widen execParamBlockRead_moves rfl
  case hbmTrainingDone => exact runs_widen execHbmTrainingDone_moves rfl
  case hbmRefresh => exact runs_widen execHbmRefresh_moves rfl
  case relayFrameReceive => exact runs_widen execRelayFrameReceive_moves rfl
  case relayCopySend => exact runs_widen execRelayCopySend_moves rfl
  case relaySkip => exact runs_widen execRelaySkip_moves rfl
  case frameReceive => exact runs_widen execFrameReceive_moves rfl
  case sourceStall => exact runs_widen execSourceStall_moves rfl
  case frameStart => exact runs_widen execFrameStart_moves rfl
  case reorderTimerExpiry => exact runs_widen execReorderTimerExpiry_moves rfl
  case tickOfferReceive => exact runs_widen execTickOfferReceive_moves rfl
  case tickOfferSend => exact runs_widen execTickOfferSend_moves rfl
  case tandemRecordReceive => exact runs_widen execTandemRecordReceive_moves rfl
  case tandemWindowExpiry => exact runs_widen execTandemWindowExpiry_moves rfl
  case twinLost => exact runs_widen execTwinLost_moves rfl
  case mgmtReceive => exact runs_widen execMgmtReceive_moves rfl
  case laneBlockReceive => exact runs_widen execLaneBlockReceive_moves rfl
  case nakReceive => exact runs_widen execNakReceive_moves rfl
  case degradeTimeout => exact runs_widen execDegradeTimeout_moves rfl
  case passbookRotation => exact runs_widen execPassbookRotation_moves rfl
  case linkStateEnd => exact runs_widen execLinkStateEnd_moves rfl
  case creditCycleReceive => exact runs_widen execCreditCycleReceive_moves rfl
  case creditCycleSend => exact runs_widen execCreditCycleSend_moves rfl
  case tickBegin => exact runs_widen execTickBegin_moves rfl
  case commit => exact runs_widen execCommit_moves rfl
  case drainStart => exact runs_widen execDrainStart_moves rfl
  case overflowCopy => exact runs_widen execOverflowCopy_moves rfl
  case watchDeadline => exact runs_widen execWatchDeadline_moves rfl
  case kickstandSend => exact runs_widen execKickstandSend_moves rfl
  case kickstandRepeat => exact runs_widen execKickstandRepeat_moves rfl
  case queueSample => exact runs_widen execQueueSample_moves rfl
  case sensorRead => exact runs_widen execSensorRead_moves rfl
  case refclkMeasure => exact runs_widen execRefclkMeasure_moves rfl
  case coldReset => exact runs_widen execColdReset_moves rfl
  case syncNSampleHigh => exact runs_widen execSyncNSampleHigh_moves rfl
  case warmReset => exact runs_widen execWarmReset_moves rfl
  case warmResetRelease => exact runs_widen execWarmResetRelease_moves rfl
  case stewardRestart => exact runs_widen execStewardRestart_moves rfl
  case firmwareCheck => exact runs_widen execFirmwareCheck_moves rfl
  case wiringPlanCheck => exact runs_widen execWiringPlanCheck_moves rfl
  case fuseWrite => exact runs_widen execFuseWrite_moves rfl
  case strapChange => exact runs_widen execStrapChange_moves rfl
  case functionLevelReset => exact runs_widen execFunctionLevelReset_moves rfl
  case conventionalReset => exact runs_widen execConventionalReset_moves rfl
  case cxlLinkLoss => exact runs_widen execCxlLinkLoss_moves rfl
  case snoopInvalidate => exact runs_widen execSnoopInvalidate_moves rfl
  case snoopData => exact runs_widen execSnoopData_moves rfl
  case watchLineRead => exact runs_widen execWatchLineRead_moves rfl
  case hostReadError => exact runs_widen execHostReadError_moves rfl
  case hostWriteError => exact runs_widen execHostWriteError_moves rfl
  case completionWrite => exact runs_widen execCompletionWrite_moves rfl
  case coalesceTimerExpiry => exact runs_widen execCoalesceTimerExpiry_moves rfl
  case registerWrite => exact runs_widen execRegisterWrite_moves rfl
  case ringEnable => exact runs_widen execRingEnable_moves rfl
  case watchDisable => exact runs_widen execWatchDisable_moves rfl
  case statusClear => exact runs_widen execStatusClear_moves rfl
  case kickLatchClear => exact runs_widen execKickLatchClear_moves rfl
  case refusedClear => exact runs_widen execRefusedClear_moves rfl
  case pairLoRead origin _ _ => exact runs_widen (execPairLoRead_moves (_origin := origin)) rfl
  case debugHalt => exact runs_widen execDebugHalt_moves rfl
  case debugResume => exact runs_widen execDebugResume_moves rfl
  case dbgKickTest => exact runs_widen execDbgKickTest_moves rfl
  case accumulatorWindowRead origin _ _ => exact runs_widen (execAccumulatorWindowRead_moves (_origin := origin)) rfl
  case ledgerChainEntry => exact runs_widen execLedgerChainEntry_moves rfl
  case ledgerMirrorWrite => exact runs_widen execLedgerMirrorWrite_moves rfl
  case sealWait => exact runs_widen execSealWait_moves rfl
  case getVersion => exact runs_widen execGetVersion_moves rfl
  case getCapabilities => exact runs_widen execGetCapabilities_moves rfl
  case negotiateAlgorithms => exact runs_widen execNegotiateAlgorithms_moves rfl
  case getDigests => exact runs_widen execGetDigests_moves rfl
  case getCertificate => exact runs_widen execGetCertificate_moves rfl
  case challenge => exact runs_widen execChallenge_moves rfl
  case getMeasurements => exact runs_widen execGetMeasurements_moves rfl
  case i3cRegisterRead => exact runs_widen execI3cRegisterRead_moves rfl
  case i3cDynamicAddress => exact runs_widen execI3cDynamicAddress_moves rfl
  case dbgreg => exact runs_widen execDbgreg_moves rfl
  case lossOfSignal => exact runs_widen execLossOfSignal_moves rfl
  case rstNRelease => exact runs_widen execRstNRelease_moves rfl
  case pllLock => exact runs_widen execPllLock_moves rfl
  case tilesReady => exact runs_widen execTilesReady_moves rfl
  case cxlLinkUp => exact runs_widen execCxlLinkUp_moves rfl
  case stewardReturn => exact runs_widen execStewardReturn_moves rfl
  case hostWriteGo => exact runs_widen execHostWriteGo_moves rfl
  case hostReadData => exact runs_widen execHostReadData_moves rfl
  case doeDiscovery => exact runs_widen execDoeDiscovery_moves rfl
  case jtagBootLoad => exact runs_widen execJtagBootLoad_moves rfl
  -- The seal, whose constructor's name is a keyword.
  · exact runs_widen execSeal_moves rfl

/-- Outside the queue, a step moves what its command, or the cycle that passes, may move. -/
theorem step_moves (s : State) :
    ∃ t, step s = .next t ∧ Moves allButQueue { s with pending := s.pending.drop 1 } t := by
  cases hq : s.pending with
  | nil =>
    have hsame : { s with pending := [] } = s := by rw [← hq]
    refine ⟨idleCycle s, by simp [step, hq], ?_⟩
    rw [List.drop_nil, hsame]
    exact idleCycle_moves (Moves.refl _ _) rfl
  | cons c rest =>
    obtain ⟨t, ht, hm⟩ := exec_runs c { s with pending := rest }
    exact ⟨t, by simpa [step, hq] using ht, hm⟩

theorem step_next_moves {s t : State} (h : step s = .next t) : Moves allButQueue { s with pending := s.pending.drop 1 } t := by
  obtain ⟨u, hu, hm⟩ := step_moves s
  obtain rfl : u = t := by simpa [hu] using h
  exact hm

/-- Areas that the start of a cycle may move: not the cycle's number. -/
def startAreas : List Area :=
  [.boot, .tick, .tables, .host, .stats, .ports, .lanes, .frames, .stalled, .reorder, .blockCounts, .pools, .tandem, .dropping, .intake,
    .tills, .tallies, .progs, .ctxs, .tiles, .mem, .hbm, .faults, .bridge, .jobFree, .ledger, .fresh]

theorem startCycle_now (s : State) : (startCycle s).now = s.now :=
  (startCycle_moves (Moves.refl startAreas s) rfl).only .now (by decide)

theorem idleCycle_now {s : State} (hrun : s.boot.phase = .run) : (idleCycle s).now = s.now + 1 := by
  have hidle : idleCycle s = startCycle { endCycle s with now := s.now + 1 } := if_neg (not_not_intro hrun)
  rw [hidle, startCycle_now]

/-- Settles O1: a step on a queue that is not empty is its front command. -/
theorem stepRunsFrontCommand : Obligations.StepRunsFrontCommand := by
  unfold Obligations.StepRunsFrontCommand
  intro c rest s
  rfl

/-- Settles O3: each meaning answers a next state and leaves the queue alone. -/
theorem everyStepAnswersInOrder : Obligations.EveryStepAnswersInOrder := by
  unfold Obligations.EveryStepAnswersInOrder
  constructor
  · intro s
    obtain ⟨t, ht, -⟩ := step_moves s
    exact ⟨t, ht⟩
  · intro s t h
    exact (step_next_moves h).only .pending (by decide)

/-- Settles O4: each meaning, and the cycle that passes, keeps the canonical forms; the queue is no part of them. -/
theorem stepKeepsCanonicalForms : Obligations.StepKeepsCanonicalForms := by
  unfold Obligations.StepKeepsCanonicalForms
  exact ⟨fun s t hmem h => (step_next_moves h).mem hmem, fun s t hmaps h => (step_next_moves h).maps hmaps⟩

/-- Settles O5: at reset fabric memory holds no byte and no register holds but its reset value. -/
theorem resetHoldsCanonicalForms : Obligations.ResetHoldsCanonicalForms := by
  unfold Obligations.ResetHoldsCanonicalForms
  exact ⟨rfl, rfl, rfl, rfl, ⟨rfl, rfl, rfl, rfl⟩, rfl, rfl⟩

/-- Settles O2: the cycle that passes names the next cycle, and nothing in its start names another. -/
theorem emptyQueuePassesOneCycle : Obligations.EmptyQueuePassesOneCycle := by
  unfold Obligations.EmptyQueuePassesOneCycle
  have hstep (s : State) (hq : s.pending = []) : step s = .next (idleCycle s) := by rw [step, hq]
  constructor
  · intro s hq hrun
    exact ⟨idleCycle s, hstep s hq, idleCycle_now hrun⟩
  · intro s hq hrun
    rw [hstep s hq, idleCycle, if_pos hrun]

end Sys2Proof.Proofs

/-! PROOFS. MAX and MIN choose the accumuland of the least key, and a receipt is a sum (02 R28, R49; 03 R82; 11 R321). -/

namespace Sys2Proof.Proofs

open Sys2Proof.Machine Sys2Proof.Safety

/-! ### The order that MAX and MIN choose by (02 R49, 03 R82) -/

/-- Place of a class among those that win: NaN before all, then the infinity that the operation looks for. -/
def classKey (op : Nat) : Cls → Int
  | .nan => -2
  | .pinf => if op = 1 then -1 else 1
  | .fin => 0
  | .ninf => if op = 1 then 1 else -1

/-- Class, then value, then winner rank: the least of these wins. -/
def winKey (op : Nat) (a : Acc) : ℤ ×ₗ ℤ ×ₗ ℕ :=
  toLex (classKey op a.cls, toLex (if op = 1 then -a.val else a.val, a.win))

/-- An accumuland of a MAX or MIN that holds something. -/
def holds (a : Acc) : Prop := maxForm a ∧ a.empty = false

theorem winKey_le_iff {op : Nat} {a b : Acc} : winKey op a ≤ winKey op b ↔
    classKey op a.cls < classKey op b.cls ∨ classKey op a.cls = classKey op b.cls ∧
      ((if op = 1 then -a.val else a.val) < (if op = 1 then -b.val else b.val) ∨
        (if op = 1 then -a.val else a.val) = (if op = 1 then -b.val else b.val) ∧ a.win ≤ b.win) := by
  simp [winKey, Prod.Lex.le_iff]

theorem holds_iff {a : Acc} : holds a ↔
    a.empty = false ∧ (a.cls = .fin → a.rank = 0) ∧ (a.cls ≠ .fin → a.val = 0 ∧ a.rank = a.win) := by
  constructor
  · rintro ⟨rfl | h, he⟩
    · simp [Acc.zero] at he
    · exact h
  · exact fun h => ⟨.inr h, h.1⟩

theorem winKey_inj {op : Nat} {a b : Acc} (ha : holds a) (hb : holds b) (hop : op = 1 ∨ op = 2)
    (h : winKey op a = winKey op b) : a = b := by
  obtain ⟨ac, av, ar, aw, ae⟩ := a
  obtain ⟨bc, bv, br, bw, be⟩ := b
  rw [holds_iff] at ha hb
  simp only [winKey, EmbeddingLike.apply_eq_iff_eq, Prod.mk.injEq] at h
  obtain ⟨hc, hv, hw⟩ := h
  have hcls : ac = bc := by
    rcases hop with rfl | rfl <;> cases ac <;> cases bc <;> simp [classKey] at hc ⊢
  have hval : av = bv := by
    rcases hop with rfl | rfl <;> simpa using hv
  subst hcls hval
  by_cases hfin : ac = .fin <;> simp_all

theorem beats_iff {op : Nat} {a b : Acc} (ha : a.cls ≠ .nan) (hb : b.cls ≠ .nan) (hop : op = 1 ∨ op = 2) :
    beats op a b = true ↔ classKey op a.cls < classKey op b.cls ∨ classKey op a.cls = classKey op b.cls ∧
      (if op = 1 then -a.val else a.val) < (if op = 1 then -b.val else b.val) := by
  obtain ⟨ac, av, ar, aw, ae⟩ := a
  obtain ⟨bc, bv, br, bw, be⟩ := b
  rcases hop with rfl | rfl <;> cases ac <;> cases bc <;> simp [beats, classKey] at ha hb ⊢

theorem classKey_nan_lt {op : Nat} {c : Cls} (h : c ≠ .nan) : classKey op .nan < classKey op c := by
  cases c <;> grind [classKey]

/-- Of two accumulands of which one is NaN, the NaN of the lowest rank stands. -/
theorem maxAcc_nan {op : Nat} {a b : Acc} (ha : holds a) (hb : holds b) (hnan : a.cls = .nan ∨ b.cls = .nan) :
    maxAcc op a b = if winKey op a ≤ winKey op b then a else b := by
  obtain ⟨ac, av, ar, aw, ae⟩ := a
  obtain ⟨bc, bv, br, bw, be⟩ := b
  rw [holds_iff] at ha hb
  simp only [maxAcc, if_pos hnan, winKey_le_iff]
  by_cases hac : ac = .nan <;> by_cases hbc : bc = .nan
  · subst hac hbc
    obtain ⟨rfl, -, rfl, rfl⟩ : ae = false ∧ True ∧ av = 0 ∧ ar = aw := by simpa using ha
    obtain ⟨rfl, -, rfl, rfl⟩ : be = false ∧ True ∧ bv = 0 ∧ br = bw := by simpa using hb
    rcases Nat.le_total ar br with h | h
    · simp [h]
    · rcases Nat.eq_or_lt_of_le h with rfl | h'
      · simp
      · simp [Nat.not_le.2 h', h]
  · subst hac
    have hlt := classKey_nan_lt (op := op) hbc
    obtain ⟨rfl, -, rfl, rfl⟩ : ae = false ∧ True ∧ av = 0 ∧ ar = aw := by simpa using ha
    simp [hbc, hlt]
  · subst hbc
    have hlt := classKey_nan_lt (op := op) hac
    obtain ⟨rfl, -, rfl, rfl⟩ : be = false ∧ True ∧ bv = 0 ∧ br = bw := by simpa using hb
    simp [hac, hlt.not_gt, hlt.ne']
  · simp [hac, hbc] at hnan

/-- MAX and MIN choose the accumuland of the lesser key. -/
theorem maxAcc_eq {op : Nat} {a b : Acc} (ha : holds a) (hb : holds b) (hop : op = 1 ∨ op = 2) :
    maxAcc op a b = if winKey op a ≤ winKey op b then a else b := by
  by_cases hnan : a.cls = .nan ∨ b.cls = .nan
  · exact maxAcc_nan ha hb hnan
  · obtain ⟨hac, hbc⟩ := not_or.1 hnan
    have hab := beats_iff hac hbc hop
    have hba := beats_iff hbc hac hop
    simp only [maxAcc, if_neg hnan, winKey_le_iff, hab, hba]
    split_ifs <;> first | rfl | omega

theorem holds_maxAcc {op : Nat} {a b : Acc} (ha : holds a) (hb : holds b) (hop : op = 1 ∨ op = 2) : holds (maxAcc op a b) := by
  rw [maxAcc_eq ha hb hop]
  split
  · exact ha
  · exact hb

/-- The key of a choice is the lesser of the two keys. -/
theorem winKey_maxAcc {op : Nat} {a b : Acc} (ha : holds a) (hb : holds b) (hop : op = 1 ∨ op = 2) :
    winKey op (maxAcc op a b) = min (winKey op a) (winKey op b) := by
  rw [maxAcc_eq ha hb hop, min_def]
  split <;> rfl

theorem maxAcc_comm {op : Nat} {a b : Acc} (ha : holds a) (hb : holds b) (hop : op = 1 ∨ op = 2) :
    maxAcc op a b = maxAcc op b a := by
  refine winKey_inj (holds_maxAcc ha hb hop) (holds_maxAcc hb ha hop) hop ?_
  rw [winKey_maxAcc ha hb hop, winKey_maxAcc hb ha hop, min_comm]

theorem maxAcc_right_comm {op : Nat} {a b c : Acc} (ha : holds a) (hb : holds b) (hc : holds c) (hop : op = 1 ∨ op = 2) :
    maxAcc op (maxAcc op a b) c = maxAcc op (maxAcc op a c) b := by
  have hab := holds_maxAcc ha hb hop
  have hac := holds_maxAcc ha hc hop
  refine winKey_inj (holds_maxAcc hab hc hop) (holds_maxAcc hac hb hop) hop ?_
  rw [winKey_maxAcc hab hc hop, winKey_maxAcc hac hb hop, winKey_maxAcc ha hb hop, winKey_maxAcc ha hc hop, min_right_comm]

/-! ### Combining under MAX or MIN -/

theorem combine_max {op : Nat} {a b : Acc} (ha : holds a) (hb : holds b) (hop : op = 1 ∨ op = 2) :
    combine op a b = maxAcc op a b := by
  have h0 : op ≠ 0 := by omega
  simp [combine, ha.2, hb.2, h0]

theorem maxForm_combine {op : Nat} {a b : Acc} (ha : maxForm a) (hb : maxForm b) (hop : op = 1 ∨ op = 2) :
    maxForm (combine op a b) := by
  cases hae : a.empty <;> cases hbe : b.empty
  · rw [combine_max ⟨ha, hae⟩ ⟨hb, hbe⟩ hop]
    exact (holds_maxAcc ⟨ha, hae⟩ ⟨hb, hbe⟩ hop).1
  · rwa [combine_empty_right hae hbe]
  · rwa [combine_empty_left hae]
  · rwa [combine_empty_left hae]

theorem maxForm_eq_zero_of_empty {a : Acc} (h : maxForm a) (he : a.empty = true) : a = Acc.zero := by
  rcases h with rfl | ⟨hne, -⟩
  · rfl
  · simp [hne] at he

theorem combine_max_comm {op : Nat} {a b : Acc} (ha : maxForm a) (hb : maxForm b) (hop : op = 1 ∨ op = 2) :
    combine op a b = combine op b a := by
  cases hae : a.empty <;> cases hbe : b.empty
  · rw [combine_max ⟨ha, hae⟩ ⟨hb, hbe⟩ hop, combine_max ⟨hb, hbe⟩ ⟨ha, hae⟩ hop, maxAcc_comm ⟨ha, hae⟩ ⟨hb, hbe⟩ hop]
  · rw [combine_empty_left hbe, combine_empty_right hae hbe]
  · rw [combine_empty_left hae, combine_empty_right hbe hae]
  · rw [maxForm_eq_zero_of_empty ha hae, maxForm_eq_zero_of_empty hb hbe]

/-- Two accumulands may join what has been combined before them in either order. -/
theorem combine_max_right_comm {op : Nat} {z a b : Acc} (hz : maxForm z) (ha : maxForm a) (hb : maxForm b) (hop : op = 1 ∨ op = 2) :
    combine op (combine op z a) b = combine op (combine op z b) a := by
  cases hze : z.empty
  · cases hae : a.empty <;> cases hbe : b.empty
    · have hza := holds_maxAcc ⟨hz, hze⟩ ⟨ha, hae⟩ hop
      have hzb := holds_maxAcc ⟨hz, hze⟩ ⟨hb, hbe⟩ hop
      rw [combine_max ⟨hz, hze⟩ ⟨ha, hae⟩ hop, combine_max ⟨hz, hze⟩ ⟨hb, hbe⟩ hop, combine_max hza ⟨hb, hbe⟩ hop,
        combine_max hzb ⟨ha, hae⟩ hop, maxAcc_right_comm ⟨hz, hze⟩ ⟨ha, hae⟩ ⟨hb, hbe⟩ hop]
    · rw [combine_empty_right hze hbe, combine_empty_right ?_ hbe]
      rw [combine_max ⟨hz, hze⟩ ⟨ha, hae⟩ hop]
      exact (holds_maxAcc ⟨hz, hze⟩ ⟨ha, hae⟩ hop).2
    · rw [combine_empty_right hze hae, combine_empty_right ?_ hae]
      rw [combine_max ⟨hz, hze⟩ ⟨hb, hbe⟩ hop]
      exact (holds_maxAcc ⟨hz, hze⟩ ⟨hb, hbe⟩ hop).2
    · rw [combine_empty_right hze hae, combine_empty_right hze hbe, combine_empty_right hze hae]
  · rw [combine_empty_left hze, combine_empty_left hze, combine_max_comm ha hb hop]

/-- What wins of a set of accumulands does not depend on the order in which they come. -/
theorem foldl_combine_max_perm {op : Nat} {l m : List Acc} (h : l.Perm m) (hl : ∀ a ∈ l, maxForm a) (hop : op = 1 ∨ op = 2)
    {z : Acc} (hz : maxForm z) : l.foldl (combine op) z = m.foldl (combine op) z := by
  induction h generalizing z with
  | nil => rfl
  | cons x _ ih =>
    rw [List.forall_mem_cons] at hl
    exact ih hl.2 (maxForm_combine hz hl.1 hop)
  | swap x y l =>
    simp only [List.forall_mem_cons] at hl
    obtain ⟨hy, hx, -⟩ := hl
    simp only [List.foldl_cons]
    rw [combine_max_right_comm hz hy hx hop]
  | trans h _ ih ih' => exact (ih hl hz).trans (ih' (fun a ha => hl a (h.mem_iff.2 ha)) hz)

/-! ### The receipt of a till (11 R321) -/

theorem spill_receipt_of_done {im : List Byte} {k : Nat} {c : Chunk} {n : Counts} (h : c.st = .done) :
    (spill im k c n).recLo = (n.recLo + receiptTerm recLo k c.receipt) % recP ∧
    (spill im k c n).recHi = (n.recHi + receiptTerm recHi k c.receipt) % recP := by
  simp [spill, h]

theorem add_mod_right_comm (n a b p : Nat) : ((n + a) % p + b) % p = ((n + b) % p + a) % p := by
  rw [Nat.mod_add_mod, Nat.mod_add_mod, Nat.add_right_comm]

/-- Settles O56: MAX and MIN take the least of a total order that tells accumulands apart, and the receipt adds its terms. -/
theorem winnersAndReceiptsInAnyOrder : Obligations.WinnersAndReceiptsInAnyOrder := by
  unfold Obligations.WinnersAndReceiptsInAnyOrder
  refine ⟨fun op l m hop h hl => foldl_combine_max_perm h hl hop (.inl rfl), fun im n a b ha hb => ?_⟩
  obtain ⟨hloA, hhiA⟩ := spill_receipt_of_done (im := im) (k := a.1) (n := n) ha
  obtain ⟨hloB, hhiB⟩ := spill_receipt_of_done (im := im) (k := b.1) (n := n) hb
  obtain ⟨hloAB, hhiAB⟩ := spill_receipt_of_done (im := im) (k := b.1) (n := spill im a.1 a.2 n) hb
  obtain ⟨hloBA, hhiBA⟩ := spill_receipt_of_done (im := im) (k := a.1) (n := spill im b.1 b.2 n) ha
  exact ⟨by rw [hloAB, hloA, hloBA, hloB, add_mod_right_comm], by rw [hhiAB, hhiA, hhiBA, hhiB, add_mod_right_comm]⟩

end Sys2Proof.Proofs

/-! PROOFS. Ring commands in general (13 R371-R375): the state in which an admitted command acts, what follows its effect, and what of its effect
stays. -/

namespace Sys2Proof.Proofs

open Sys2Proof.Machine Sys2Proof.Safety Sys2Proof.Laws

/-! ### States that differ in the host interface alone -/

/-- The memory subsystem is the same when neither fabric memory nor the rest of it may change. -/
theorem hbm_eq_of_moves {l : List Area} {s t : State} (h : Moves l s t) (hmem : Area.mem ∉ l) (hrest : Area.hbm ∉ l) : t.hbm = s.hbm := by
  have hm : t.hbm.mem = s.hbm.mem := h.only .mem hmem
  have hr : { t.hbm with mem := [] } = { s.hbm with mem := [] } := h.only .hbm hrest
  have hput : { ({ t.hbm with mem := [] } : Hbm) with mem := t.hbm.mem } = { ({ s.hbm with mem := [] } : Hbm) with mem := s.hbm.mem } := by
    rw [hr, hm]
  exact hput

/-- A change of the host interface and the numbering alone. -/
theorem eq_of_moves_host {s t : State} (h : Moves [.host, .fresh] s t) : t = { s with host := t.host, fresh := t.fresh } := by
  have hhbm : t.hbm = s.hbm := hbm_eq_of_moves h (by decide) (by decide)
  exact (State.mk.injEq ..).mpr ⟨h.only .now (by decide), h.only .boot (by decide), h.only .tick (by decide), h.only .tables (by decide), rfl,
    h.only .stats (by decide), h.only .refused (by decide), h.only .ports (by decide), h.only .lanes (by decide), h.only .frames (by decide),
    h.only .stalled (by decide), h.only .reorder (by decide), h.only .doneMsgs (by decide), h.only .blockCounts (by decide),
    h.only .shapers (by decide), h.only .meters (by decide), h.only .pools (by decide), h.only .tandem (by decide),
    h.only .dropping (by decide), h.only .intake (by decide), h.only .parsing (by decide), h.only .tills (by decide),
    h.only .tallies (by decide), h.only .progs (by decide), h.only .ctxs (by decide), h.only .tiles (by decide), hhbm,
    h.only .faults (by decide), h.only .bridge (by decide), h.only .relays (by decide), h.only .toss (by decide),
    h.only .jobFree (by decide), h.only .ledger (by decide), h.only .spdm (by decide), h.only .doe (by decide), rfl,
    h.only .pending (by decide)⟩

/-- What the queue of a command ring may do before and after the effect of a command: the host interface moves, completions and writes only
join those there are. -/
structure RingStep (s t : State) : Prop where
  moves : Moves [.host, .fresh] s t
  side : RingSide s t

namespace RingStep

variable {s t u : State}

theorem trans (h : RingStep s t) (g : RingStep t u) : RingStep s u := ⟨h.moves.trans g.moves rfl, h.side.trans g.side⟩

theorem refl (s : State) : RingStep s s := ⟨Moves.refl _ s, RingSide.refl s⟩

theorem eq (h : RingStep s t) : t = { s with host := t.host, fresh := t.fresh } := eq_of_moves_host h.moves

/-- Such a step is a state with another host interface. -/
theorem exists_eq (h : RingStep s t) : ∃ host fresh, t = { s with host := host, fresh := fresh } := ⟨_, _, h.eq⟩

theorem now (h : RingStep s t) : t.now = s.now := h.moves.only .now (by decide)
theorem boot (h : RingStep s t) : t.boot = s.boot := h.moves.only .boot (by decide)
theorem tick (h : RingStep s t) : t.tick = s.tick := h.moves.only .tick (by decide)
theorem tables (h : RingStep s t) : t.tables = s.tables := h.moves.only .tables (by decide)
theorem stats (h : RingStep s t) : t.stats = s.stats := h.moves.only .stats (by decide)
theorem ports (h : RingStep s t) : t.ports = s.ports := h.moves.only .ports (by decide)
theorem tills (h : RingStep s t) : t.tills = s.tills := h.moves.only .tills (by decide)
theorem tallies (h : RingStep s t) : t.tallies = s.tallies := h.moves.only .tallies (by decide)
theorem pools (h : RingStep s t) : t.pools = s.pools := h.moves.only .pools (by decide)
theorem progs (h : RingStep s t) : t.progs = s.progs := h.moves.only .progs (by decide)
theorem ctxs (h : RingStep s t) : t.ctxs = s.ctxs := h.moves.only .ctxs (by decide)
theorem relays (h : RingStep s t) : t.relays = s.relays := h.moves.only .relays (by decide)
theorem faults (h : RingStep s t) : t.faults = s.faults := h.moves.only .faults (by decide)
theorem ledger (h : RingStep s t) : t.ledger = s.ledger := h.moves.only .ledger (by decide)
theorem hbm (h : RingStep s t) : t.hbm = s.hbm := by rw [h.eq]

theorem portAt (h : RingStep s t) (p : Nat) : Machine.portAt t p = Machine.portAt s p := by rw [Machine.portAt, h.ports, Machine.portAt]
theorem tillAt (h : RingStep s t) (n : Nat) : Machine.tillAt t n = Machine.tillAt s n := congrArg (ofind · n) h.tills
theorem tallyAt (h : RingStep s t) (n : Nat) : Machine.tallyAt t n = Machine.tallyAt s n := congrArg (ofind · n) h.tallies
theorem regionAt (h : RingStep s t) (n : Nat) : Machine.regionAt t n = Machine.regionAt s n :=
  congrArg (fun b : Hbm => ofind b.regions n) h.hbm
theorem relayAt (h : RingStep s t) (n : Nat) : Machine.relayAt t n = Machine.relayAt s n := congrArg (ofind · n) h.relays
theorem ctxAt (h : RingStep s t) (n : Nat) : Machine.ctxAt t n = Machine.ctxAt s n := by rw [Machine.ctxAt, h.ctxs, Machine.ctxAt]
theorem progAt (h : RingStep s t) (n : Nat) : Machine.progAt t n = Machine.progAt s n :=
  congrArg (fun m => (ofind m n).filter fun p : Prog => p.loading.isNone) h.progs
theorem statAt (h : RingStep s t) (n : Nat) : Machine.statAt t n = Machine.statAt s n := by rw [Machine.statAt, h.stats, Machine.statAt]
theorem cplRing (h : RingStep s t) (n : Nat) : Machine.cplRing t n = Machine.cplRing s n := by rw [Machine.cplRing, h.side.cpl, Machine.cplRing]

end RingStep

theorem popHead_ringStep (s : State) (n : Nat) : RingStep s (popHead s n) := ⟨popHead_moves (Moves.refl _ _) rfl, popHead_ringSide s n⟩

theorem headTaken_ringStep (s : State) (ring : BitVec 6) (d : Desc) : RingStep s (headTaken s ring d) :=
  ⟨headTaken_moves s ring d, (popHead_ringSide s ring.toNat).trans (noteReads_ringSide _ d)⟩

theorem settleFailed_ringStep (k n : Nat) (s : State) : RingStep s (settleFailed k n s) :=
  ⟨settleFailed_moves (Moves.refl _ _) rfl, settleFailed_ringSide k n s⟩

theorem hostWrite_ringStep (s : State) (a : Nat) (data : List Byte) (k : WriteKind) : RingStep s (hostWrite s a data k).2 :=
  ⟨hostWrite_moves (Moves.refl _ _) rfl, hostWrite_ringSide s a data k⟩

theorem completeTo_ringSide (s : State) (cring : Nat) (a : Accept) (st d0 d1 : Nat) (w : List Nat) (af : List After) :
    RingSide s (completeTo s cring a st d0 d1 w af) := by
  unfold completeTo
  dsimp only
  split
  · exact finished_ringSide _ _
  · exact ready_ringSide _ _

theorem completeTo_ringStep (s : State) (cring : Nat) (a : Accept) (st d0 d1 : Nat) (w : List Nat) (af : List After) :
    RingStep s (completeTo s cring a st d0 d1 w af) :=
  ⟨completeTo_moves (Moves.refl _ _) rfl, completeTo_ringSide s cring a st d0 d1 w af⟩

theorem complete_ringStep (s : State) (a : Accept) (st d0 d1 : Nat) (w : List Nat) : RingStep s (complete s a st d0 d1 w) :=
  completeTo_ringStep s _ a st d0 d1 w []

/-! ### An admitted command (13 R371-R375) -/

/-- An admitted command leads to whatever its effect and the settling of failed fetches bring about. -/
theorem leads_accepted {c : Instr} {s : State} {ring : BitVec 6} {d : Desc} {op cring cring' obj : Nat} {job job' : Option Nat}
    {body : Accept → State → State} {P : State → Prop} (hadm : admitted s ring d op cring job)
    (hexec : exec c s = .next (accept s ring d op job' obj cring' body)) (hjob : job' = job) (hcring : cring' = cring)
    (hP : ∀ u t, RingStep s u → RingStep (body (acceptNow s ring.toNat d.d0 obj) u) t → P t) : leads c s P := by
  subst hjob hcring
  refine ⟨_, hexec, ?_⟩
  rw [accept_runs hadm]
  exact hP _ _ (headTaken_ringStep s ring d) (settleFailed_ringStep _ _ _)

/-! ### What stays of its effect -/

section Stays

variable {s u t : State} {ring : BitVec 6} {d : Desc} {cring obj st d0 d1 : Nat}

theorem answered_of_ready (hready : u.host.ready ⊆ t.host.ready) (h : answered s u ring d cring obj st d0 d1) :
    answered s t ring d cring obj st d0 d1 :=
  h.imp_right fun ⟨c, hc, hrest⟩ => ⟨c, hready hc, hrest⟩

theorem RingStep.answered (h : RingStep u t) (ha : answered s u ring d cring obj st d0 d1) : answered s t ring d cring obj st d0 d1 :=
  answered_of_ready h.side.ready.subset ha

theorem RingStep.posted {a : Accept} (h : RingStep u t) (ha : posted u a cring st d0 d1) : posted t a cring st d0 d1 :=
  ha.imp_right fun ⟨c, hc, hrest⟩ => ⟨c, h.side.ready.subset hc, hrest⟩

/-- The completion of a command answers it. -/
theorem answered_completeTo (u : State) (w : List Nat) (af : List After) :
    answered s (completeTo u cring (acceptNow s ring.toNat d.d0 obj) st d0 d1 w af) ring d cring obj st d0 d1 :=
  answered_complete (k := 0)

theorem posted_completeTo (u : State) (a : Accept) (w : List Nat) (af : List After) :
    posted (completeTo u cring a st d0 d1 w af) a cring st d0 d1 := by
  by_cases h : quietOf a.d0 = true ∧ st = stOk
  · exact .inl h
  · have hq : (quietOf a.d0 && st == stOk) = false := by
      rw [Bool.eq_false_iff]; simpa using h
    have hready : completeTo u cring a st d0 d1 w af = ready u
        { cring := cring, entries := [cmdEntry a st d0 d1], waits := w, after := af, ring := some a.ring, quiet := false } := by
      simp [completeTo, hq]
    rw [hready]
    exact .inr ⟨_, List.mem_append_right _ (List.mem_singleton_self _), rfl, rfl, rfl⟩

end Stays

/-- A write of host memory is under way, with a number already given. -/
def writeIssued (t : State) (addr : Nat) (data : List Byte) (kind : WriteKind) : Prop :=
  ∃ e ∈ t.host.writes, e.1 < t.fresh ∧ e.2 = { addr := addr, data := data, kind := kind }

theorem writeIssued.writing {t : State} {addr : Nat} {data : List Byte} {kind : WriteKind} (h : writeIssued t addr data kind) :
    hostWriting t addr data kind := by
  obtain ⟨e, he, -, heq⟩ := h
  exact ⟨e, he, heq⟩

theorem writeIssued_hostWrite (s : State) (addr : Nat) (data : List Byte) (kind : WriteKind) :
    writeIssued (hostWrite s addr data kind).2 addr data kind := ⟨_, mem_oins, Nat.lt_succ_self _, rfl⟩

theorem RingStep.writeIssued {s t : State} {addr : Nat} {data : List Byte} {kind : WriteKind} (h : RingStep s t)
    (hw : writeIssued s addr data kind) : writeIssued t addr data kind := by
  obtain ⟨e, he, hlt, heq⟩ := hw
  exact ⟨e, h.side.writes e he hlt, Nat.lt_of_lt_of_le hlt h.side.fresh, heq⟩

end Sys2Proof.Proofs

/-! PROOFS. Lengths of what numbers and digests spell in bytes (00_scope.md R5, R459). -/

namespace Sys2Proof.Proofs

open Sys2Proof.Machine

theorem leBytes_length (n v : Nat) : (leBytes n v).length = n := by
  induction n generalizing v with
  | zero => rfl
  | succ n ih => simp [leBytes, ih]

theorem beBytes_length (n v : Nat) : (beBytes n v).length = n := by
  rw [beBytes, List.length_reverse, leBytes_length]

theorem shaRound_length {v : List W64} (h : v.length = 8) (kw : W64) : (shaRound v kw).length = 8 := by
  unfold shaRound
  split
  · rfl
  · exact h

theorem foldl_shaRound_length {v : List W64} (h : v.length = 8) (l : List W64) : (l.foldl shaRound v).length = 8 := by
  induction l generalizing v with
  | nil => exact h
  | cons kw l ih => exact ih (shaRound_length h kw)

theorem shaBlocks_length (n : Nat) {h : List W64} (hh : h.length = 8) (l : List Byte) : (shaBlocks n h l).length = 8 := by
  induction n generalizing h l with
  | zero => exact hh
  | succ n ih => exact ih (by simp [shaBlock, hh, foldl_shaRound_length hh]) _

theorem sha512Bytes_length (l : List Byte) : (sha512Bytes l).length = 64 := by
  have hwords (n : Nat) (p : List Byte) : (shaBlocks n shaInit p).length = 8 := shaBlocks_length n rfl p
  simp [sha512Bytes, List.length_flatten, Function.comp_def, beBytes_length, hwords]

end Sys2Proof.Proofs

/-! PROOFS. Headers and their bits (O33): every field is a run of bits, and the runs stand side by side (09 Table 9.1). -/

namespace Sys2Proof.Proofs

open Sys2Proof.Machine Sys2Proof.Safety

theorem extractLsb'_append_high {v w start len : Nat} (x : BitVec v) (y : BitVec w) (h : w ≤ start) :
    (x ++ y).extractLsb' start len = x.extractLsb' (start - w) len := BitVec.extractLsb'_append_eq_of_le h

theorem extractLsb'_append_low {v w : Nat} (x : BitVec v) (y : BitVec w) : (x ++ y).extractLsb' 0 w = y := by
  rw [BitVec.extractLsb'_append_eq_of_add_le (by omega), BitVec.extractLsb'_eq_self]

/-- Each field is found where it was written: the fields below it are skipped. -/
theorem headerOf_headerBits (h : Header) : headerOf (headerBits h) = h := by
  obtain ⟨⟩ := h
  simp only [headerOf, headerBits, Header.mk.injEq]
  refine ⟨?ver, ?_, ?_, ?_, ?_, ?_, ?_, ?_, ?_, ?_, ?_, ?_, ?_, ?_, ?_, ?_, ?_, ?_, ?_, ?_, ?_, ?_, ?_, ?_⟩
  case ver =>
    repeat rw [extractLsb'_append_high _ _ (by decide)]
    exact BitVec.extractLsb'_eq_self
  all_goals
    repeat rw [extractLsb'_append_high _ _ (by decide)]
    exact extractLsb'_append_low _ _

/-- Neighbouring runs of bits join to one. -/
theorem headerBits_headerOf (b : HdrBits) : headerBits (headerOf b) = b := by
  simp only [headerOf, headerBits]
  repeat rw [BitVec.extractLsb'_append_extractLsb'_eq_extractLsb' (by rfl)]
  exact BitVec.extractLsb'_eq_self

/-- Settles O33: both ways round the header comes back. -/
theorem headerBitsRoundTrip : Obligations.HeaderBitsRoundTrip := by
  unfold Obligations.HeaderBitsRoundTrip
  exact ⟨headerOf_headerBits, headerBits_headerOf⟩

end Sys2Proof.Proofs

/-! PROOFS. The SPDM responder (O21): a request is answered only while DOE is not Busy (15 R424, R425). -/

namespace Sys2Proof.Proofs

open Sys2Proof.Machine Sys2Proof.Safety Sys2Proof.Laws

/-- A command whose next state is known leads there, with the changes that its law allows. -/
theorem leads_moves {c : Instr} {s u : State} {l : List Area} {P : State → Prop} (hexec : exec c s = .next u)
    (hruns : Runs l s (exec c s)) (hP : P u) : leads c s fun t => onlyChanges l s t ∧ P t := by
  obtain ⟨t, ht, hm⟩ := hruns
  obtain rfl : u = t := by simpa [hexec] using ht
  exact ⟨u, hexec, hm.only, hP⟩

/-! ### Requests and the connection -/

/-- DOE takes requests. -/
def doeFree (s : State) : Prop := s.boot.steward = true ∧ s.boot.held = false

theorem doeBusy_of_free {s : State} (h : doeFree s) : doeBusy s = false := by
  simp [doeBusy, h.1, h.2]

theorem doeBusy_of_stopped_or_held {s : State} (h : s.boot.steward = false ∨ s.boot.held = true) : doeBusy s = true := by
  rcases h with h | h <;> simp [doeBusy, h]

/-- The state in which DOE reports Busy. -/
def reportsBusy (s : State) : State := { s with spdm := { s.spdm with busy := true } }

theorem spdmRequest_busy {s : State} {body : State → State} (h : doeBusy s = true) : spdmRequest s body = reportsBusy s := if_pos h

theorem spdmRequest_free {s : State} {body : State → State} (h : doeFree s) : spdmRequest s body = body s :=
  if_neg (by simp [doeBusy_of_free h])

theorem spdmConnected_open {s : State} {body : State → State} (h : doeFree s) (halgs : s.spdm.algs = true) :
    spdmConnected s body = body s := (spdmRequest_free h).trans (if_pos halgs)

/-- Every request of the responder, while DOE is busy, comes to nothing but that report. -/
theorem leads_busy {c : Instr} {s : State} (h : s.boot.steward = false ∨ s.boot.held = true)
    (hc : c ∈ [Instr.getVersion, .getCapabilities, .negotiateAlgorithms, .getDigests] ∨ (∃ a b n, c = .getCertificate a b n) ∨
      (∃ a n, c = .challenge a n) ∨ (∃ i g n, c = .getMeasurements i g n) ∨ ∃ i, c = .doeDiscovery i) :
    leads c s fun t => t = reportsBusy s := by
  have hbusy := doeBusy_of_stopped_or_held h
  have hrequest (body : State → State) : Host.Outcome.next (φ := Fault) (ρ := Refusal) (spdmRequest s body) = .next (reportsBusy s) :=
    congrArg _ (spdmRequest_busy hbusy)
  refine ⟨reportsBusy s, ?_, rfl⟩
  simp only [List.mem_cons, List.not_mem_nil, or_false] at hc
  rcases hc with (rfl | rfl | rfl | rfl) | ⟨a, b, n, rfl⟩ | ⟨a, n, rfl⟩ | ⟨i, g, n, rfl⟩ | ⟨i, rfl⟩
  · exact hrequest _
  · exact hrequest _
  · exact hrequest _
  · exact hrequest _
  · exact hrequest _
  · exact hrequest _
  · exact hrequest _
  · exact congrArg Host.Outcome.next (if_pos hbusy)

/-! ### Responses -/

@[simp] theorem respond_spdm (s : State) (code : Byte) (content : List Byte) (signed : Bool) :
    (respond s code content signed).spdm =
      { s.spdm with busy := false, code := code, response := content, count := s.spdm.count + 1,
                    signed := if signed then some (Config.spdmSign s.spdm.count (code :: content)) else none } := rfl

section Answers

variable {s : State}

theorem exec_getVersion (h : doeFree s) : exec .getVersion s =
    .next (respond { s with spdm := { s.spdm with version := true, caps := false, algs := false } } 0x04 [0x12]) :=
  congrArg Host.Outcome.next (spdmRequest_free h)

theorem exec_getCapabilities (h : doeFree s) : exec .getCapabilities s = .next
    (if !s.spdm.version then respondError s 0x04
      else respond { s with spdm := { s.spdm with caps := true } } 0x61 (14 :: leBytes 4 0x36)) :=
  congrArg Host.Outcome.next (spdmRequest_free h)

theorem exec_negotiateAlgorithms (h : doeFree s) : exec .negotiateAlgorithms s = .next
    (if !s.spdm.caps then respondError s 0x04
      else respond { s with spdm := { s.spdm with algs := true } } 0x63 ([0x01] ++ leBytes 4 0x08 ++ leBytes 4 0x40 ++ leBytes 4 0x04)) :=
  congrArg Host.Outcome.next (spdmRequest_free h)

/-- What DOE discovery answers for an index. -/
def discoveryAnswer (i : Byte) : W32 := if i = 0 then 0x01000001 else if i = 1 then 0x00010001 else 0x0000FFFF

theorem exec_doeDiscovery (h : doeFree s) (i : Byte) : exec (.doeDiscovery i) s =
    .next { s with doe := discoveryAnswer i, spdm := { s.spdm with busy := false } } :=
  congrArg Host.Outcome.next (if_neg (by simp [doeBusy_of_free h]))

theorem exec_getDigests (h : doeFree s) (halgs : s.spdm.algs = true) : exec .getDigests s = .next
    (if s.boot.unprovisioned then respondError s 0x04 else respond s 0x01 (0x01 :: sha512Bytes s.boot.certChain)) :=
  congrArg Host.Outcome.next (spdmConnected_open h halgs)

/-- The portion of the certificate chain that an answer carries. -/
def chainPart (s : State) (a n : Nat) : List Byte := (s.boot.certChain.drop a).take (min n 65520)

theorem exec_getCertificate (h : doeFree s) (halgs : s.spdm.algs = true) (slot a n : Nat) : exec (.getCertificate slot a n) s = .next
    (if s.boot.unprovisioned then respondError s 0x04
      else if slot ≠ 0 ∨ a ≥ s.boot.certChain.length then respondError s 0x01
      else respond s 0x02 (leBytes 2 (chainPart s a n).length ++
        leBytes 2 (s.boot.certChain.length - a - (chainPart s a n).length) ++ chainPart s a n)) :=
  congrArg Host.Outcome.next (spdmConnected_open h halgs)

theorem exec_challenge (h : doeFree s) (halgs : s.spdm.algs = true) (nonce : BitVec 256) : exec (.challenge 0 nonce) s = .next
    (respond s 0x03 (sha512Bytes s.boot.certChain ++ beBytes 32 (Config.spdmNonce s.spdm.count).toNat ++ beBytes 32 nonce.toNat) true) :=
  congrArg Host.Outcome.next (spdmConnected_open h halgs)

/-- What follows the blocks in an answer: the own nonce, and the requester's where the answer is signed. -/
def measurementTail (s : State) (sign : Bool) (nonce : BitVec 256) : List Byte :=
  beBytes 32 (Config.spdmNonce s.spdm.count).toNat ++ if sign then beBytes 32 nonce.toNat else []

theorem exec_getMeasurements_block (h : doeFree s) (halgs : s.spdm.algs = true) {i : Byte} (sign : Bool) (nonce : BitVec 256)
    (h1 : 1 ≤ i.toNat) (h12 : i.toNat ≤ 12) : exec (.getMeasurements i sign nonce) s =
    .next (respond s 0x60 ([0, 1] ++ measureBlock s i.toNat ++ measurementTail s sign nonce) sign) :=
  congrArg Host.Outcome.next ((spdmConnected_open h halgs).trans ((if_neg (by omega)).trans (if_pos h12)))

end Answers

/-- Settles O21: each request by its meaning while DOE is free, and as Busy otherwise. -/
theorem spdmAnswers : Obligations.SpdmAnswers := by
  unfold Obligations.SpdmAnswers
  refine ⟨fun s c h hc => leads_busy h hc, fun s hsteward hheld => ?negotiation, fun s hsteward hheld halgs => ?connected⟩
  case negotiation =>
    have hfree : doeFree s := ⟨hsteward, hheld⟩
    refine ⟨leads_moves (exec_getVersion hfree) execGetVersion_moves (by simp),
      leads_moves (exec_getCapabilities hfree) execGetCapabilities_moves ?_,
      leads_moves (exec_negotiateAlgorithms hfree) execNegotiateAlgorithms_moves ?_, fun i =>
      leads_moves (exec_doeDiscovery hfree i) execDoeDiscovery_moves ?_⟩
    · cases hv : s.spdm.version <;> simp [respondError, hv]
    · cases hc : s.spdm.caps <;> simp [respondError, hc]
    · refine ⟨rfl, ?_, ?_, fun hi => ?_⟩
      · rintro rfl; rfl
      · rintro rfl; rfl
      · have h0 : i ≠ 0 := by rintro rfl; simp at hi
        have h1 : i ≠ 1 := by rintro rfl; simp at hi
        exact (if_neg h0).trans (if_neg h1)
  case connected =>
    have hfree : doeFree s := ⟨hsteward, hheld⟩
    refine ⟨fun n => ⟨fun hun c hc => ?unprovisioned, fun hprov => ⟨?digests, fun a ha => ?certificate⟩⟩, fun nonce => ?challenge,
      fun i sign nonce h1 h12 => ?measurements⟩
    case unprovisioned =>
      simp only [List.mem_cons, List.not_mem_nil, or_false] at hc
      rcases hc with rfl | rfl
      · exact leads_moves (exec_getDigests hfree halgs) execGetDigests_moves (by simp [hun, respondError])
      · exact leads_moves (exec_getCertificate hfree halgs 0 0 n) execGetCertificate_moves (by simp [hun, respondError])
    case digests =>
      exact leads_moves (exec_getDigests hfree halgs) execGetDigests_moves (by simp [hprov])
    case certificate =>
      refine leads_moves (exec_getCertificate hfree halgs 0 a n) execGetCertificate_moves ?_
      have hnot : ¬(0 ≠ 0 ∨ a ≥ s.boot.certChain.length) := by omega
      rw [if_neg (by simp [hprov]), if_neg hnot]
      exact ⟨rfl, List.drop_left' (by simp [leBytes_length])⟩
    case challenge =>
      refine leads_moves (exec_challenge hfree halgs nonce) execChallenge_moves ⟨rfl, rfl, List.drop_left' ?_⟩
      simp [sha512Bytes_length, beBytes_length]
    case measurements =>
      refine leads_moves (exec_getMeasurements_block hfree halgs sign nonce h1 h12) execGetMeasurements_moves ⟨rfl, ?_, ?_⟩
      · cases sign <;> rfl
      · simp

end Sys2Proof.Proofs

/-! PROOFS. What a cause and its event leave of the host interface and of the status blocks (12 R341; 13 R387-R390): they add to event rings,
writes, vectors and bits, and touch nothing else. -/

namespace Sys2Proof.Proofs

open Sys2Proof.Machine Sys2Proof.Safety Sys2Proof.Laws

/-- Events, vectors and status bits added to a state. -/
structure EventStep (s t : State) : Prop where
  moves : Moves [.host, .stats, .fresh] s t
  host : t.host = { s.host with ev := t.host.ev, writes := t.host.writes, msix := t.host.msix, pba := t.host.pba, irqs := t.host.irqs }
  fresh : s.fresh ≤ t.fresh
  writes : ∀ e ∈ s.host.writes, e.1 < s.fresh → e ∈ t.host.writes
  bits : ∀ src b, bit (statAt s src).status.toNat b = true → bit (statAt t src).status.toNat b = true

namespace EventStep

variable {s t u : State}

theorem refl (s : State) : EventStep s s := ⟨Moves.refl _ s, rfl, Nat.le_refl _, fun _ h _ => h, fun _ _ h => h⟩

theorem trans (h : EventStep s t) (g : EventStep t u) : EventStep s u where
  moves := h.moves.trans g.moves rfl
  host := by rw [g.host, h.host]
  fresh := h.fresh.trans g.fresh
  writes e he hlt := g.writes e (h.writes e he hlt) (Nat.lt_of_lt_of_le hlt h.fresh)
  bits src b hb := g.bits src b (h.bits src b hb)

/-- A change of the host interface and the numbering that leaves every status block. -/
theorem of_host (hmoves : Moves [.host, .fresh] s t)
    (hhost : t.host = { s.host with ev := t.host.ev, writes := t.host.writes, msix := t.host.msix, pba := t.host.pba, irqs := t.host.irqs })
    (hfresh : s.fresh ≤ t.fresh) (hwrites : ∀ e ∈ s.host.writes, e.1 < s.fresh → e ∈ t.host.writes) : EventStep s t where
  moves := (Moves.refl _ s).trans hmoves rfl
  host := hhost
  fresh := hfresh
  writes := hwrites
  bits src b hb := by
    have hstats : t.stats = s.stats := hmoves.only .stats (by decide)
    rwa [statAt, hstats]

theorem cmd (h : EventStep s t) : t.host.cmd = s.host.cmd := by rw [h.host]
theorem cpl (h : EventStep s t) : t.host.cpl = s.host.cpl := by rw [h.host]
theorem watch (h : EventStep s t) : t.host.watch = s.host.watch := by rw [h.host]
theorem ready (h : EventStep s t) : t.host.ready = s.host.ready := by rw [h.host]
theorem pending (h : EventStep s t) : t.host.pending = s.host.pending := by rw [h.host]
theorem reads (h : EventStep s t) : t.host.reads = s.host.reads := by rw [h.host]
theorem evroute (h : EventStep s t) : t.host.evroute = s.host.evroute := by rw [h.host]
theorem cxlUp (h : EventStep s t) : t.host.cxlUp = s.host.cxlUp := by rw [h.host]

theorem cmdRing (h : EventStep s t) (n : Nat) : Machine.cmdRing t n = Machine.cmdRing s n := by
  rw [Machine.cmdRing, h.cmd, Machine.cmdRing]
theorem cplRing (h : EventStep s t) (n : Nat) : Machine.cplRing t n = Machine.cplRing s n := by
  rw [Machine.cplRing, h.cpl, Machine.cplRing]
theorem watchAt (h : EventStep s t) (k : Nat) : Machine.watchAt t k = Machine.watchAt s k := by
  rw [Machine.watchAt, h.watch, Machine.watchAt]

theorem now (h : EventStep s t) : t.now = s.now := h.moves.only .now (by decide)
theorem boot (h : EventStep s t) : t.boot = s.boot := h.moves.only .boot (by decide)
theorem tick (h : EventStep s t) : t.tick = s.tick := h.moves.only .tick (by decide)
theorem tables (h : EventStep s t) : t.tables = s.tables := h.moves.only .tables (by decide)
theorem ports (h : EventStep s t) : t.ports = s.ports := h.moves.only .ports (by decide)
theorem lanes (h : EventStep s t) : t.lanes = s.lanes := h.moves.only .lanes (by decide)
theorem tandem (h : EventStep s t) : t.tandem = s.tandem := h.moves.only .tandem (by decide)
theorem pools (h : EventStep s t) : t.pools = s.pools := h.moves.only .pools (by decide)
theorem intake (h : EventStep s t) : t.intake = s.intake := h.moves.only .intake (by decide)
theorem tills (h : EventStep s t) : t.tills = s.tills := h.moves.only .tills (by decide)
theorem tallies (h : EventStep s t) : t.tallies = s.tallies := h.moves.only .tallies (by decide)
theorem blockCounts (h : EventStep s t) : t.blockCounts = s.blockCounts := h.moves.only .blockCounts (by decide)
theorem faults (h : EventStep s t) : t.faults = s.faults := h.moves.only .faults (by decide)
theorem toss (h : EventStep s t) : t.toss = s.toss := h.moves.only .toss (by decide)
theorem ledger (h : EventStep s t) : t.ledger = s.ledger := h.moves.only .ledger (by decide)
theorem tiles (h : EventStep s t) : t.tiles = s.tiles := h.moves.only .tiles (by decide)
theorem hbm (h : EventStep s t) : t.hbm = s.hbm := hbm_eq_of_moves h.moves (by decide) (by decide)
theorem ctxs (h : EventStep s t) : t.ctxs = s.ctxs := h.moves.only .ctxs (by decide)

theorem portAt (h : EventStep s t) (p : Nat) : Machine.portAt t p = Machine.portAt s p := by rw [Machine.portAt, h.ports, Machine.portAt]
theorem tillAt (h : EventStep s t) (n : Nat) : Machine.tillAt t n = Machine.tillAt s n := congrArg (ofind · n) h.tills
theorem tallyAt (h : EventStep s t) (n : Nat) : Machine.tallyAt t n = Machine.tallyAt s n := congrArg (ofind · n) h.tallies

end EventStep

/-! ### Vectors and ring entries -/

theorem raiseVector_eventStep (s : State) (v : Nat) : EventStep s (raiseVector s v) :=
  .of_host (raiseVector_moves (Moves.refl _ _) rfl) rfl (Nat.le_refl _) fun _ h _ => h

theorem hostWrite_eventStep (s : State) (a : Nat) (data : List Byte) (k : WriteKind) : EventStep s (hostWrite s a data k).2 :=
  .of_host (hostWrite_moves (Moves.refl _ _) rfl) rfl (Nat.le_succ _) (hostWrite_ringSide s a data k).writes

theorem putEntries_eventStep (k : WriteKind) (s : State) (r : OutRing) (es : List (List W64)) : EventStep s (putEntries k s r es).2 := by
  induction es generalizing s r with
  | nil => exact .refl s
  | cons e es ih => exact (hostWrite_eventStep s _ _ k).trans (ih _ _)

theorem fireRing_eventStep (s : State) (k : WriteKind) (r : OutRing) : EventStep s (fireRing s k r).2 := by
  unfold fireRing
  dsimp only
  split
  · exact raiseVector_eventStep s _
  · exact .of_host (upd_host (Moves.refl _ _) rfl (side_hostSame rfl rfl rfl rfl)) rfl (Nat.le_refl _) fun _ h _ => h

theorem ringIrq_eventStep (s : State) (k : WriteKind) (r : OutRing) : EventStep s (ringIrq s k r).2 := by
  unfold ringIrq
  split
  · exact fireRing_eventStep s k r
  · exact .refl s

theorem ringPut_eventStep (s : State) (k : WriteKind) (r : OutRing) (es : List (List W64)) : EventStep s (ringPut s k r es).2 :=
  (putEntries_eventStep k s r _).trans (ringIrq_eventStep _ k _)

theorem setEvRing_eventStep (s : State) (e : Nat) (r : OutRing) : EventStep s (setEvRing s e r) :=
  .of_host (setEvRing_moves (Moves.refl _ _) rfl) rfl (Nat.le_refl _) fun _ h _ => h

/-! ### Cause bits -/

/-- A status block replaced by one with more bits. -/
theorem bits_setStat {s : State} {src : Nat} {v : Stat}
    (hv : ∀ b, bit (statAt s src).status.toNat b = true → bit v.status.toNat b = true) (j b : Nat)
    (h : bit (statAt s j).status.toNat b = true) : bit (statAt (setStat s src v) j).status.toNat b = true := by
  by_cases hj : j = src
  · subst hj
    have hne : v ≠ {} := fun he => by simpa [he, bit] using hv b h
    have hsame : statAt (setStat s j v) j = v := sget_sput_ne hne
    rw [hsame]
    exact hv b h
  · have hother : statAt (setStat s src v) j = statAt s j := sget_sput_other hj
    rwa [hother]

theorem bit_or_left {w : Nat} {x y : BitVec w} {b : Nat} (h : bit x.toNat b = true) : bit (x ||| y).toNat b = true := by
  rw [bit_eq_testBit, BitVec.testBit_toNat] at *
  simp [h]

theorem setBit_eventStep (s : State) (src b unit : Nat) : EventStep s (setBit s src b unit) := by
  have hset (v : Stat) (hv : v.status = (statAt s src).status ||| BitVec.ofNat 32 (2 ^ b)) : EventStep s (setStat s src v) :=
    { moves := setStat_moves (Moves.refl _ _) rfl
      host := rfl
      fresh := Nat.le_refl _
      writes := fun _ h _ => h
      bits := bits_setStat fun b h => hv ▸ bit_or_left h }
  unfold setBit
  dsimp only
  split
  · exact (hset _ rfl).trans (raiseVector_eventStep _ _)
  · exact hset _ rfl

/-! ### Events -/

section Posted

variable (s : State) (src code b job unit d0 d1 : Nat) (more : Option (Nat × Nat × Nat))

theorem postEventRaw_eventStep : EventStep s (postEventRaw s src code job unit d0 d1 more).1 := by
  unfold postEventRaw
  dsimp only
  split
  · exact .refl s
  · split
    · exact (ringPut_eventStep s _ _ _).trans (setEvRing_eventStep _ _ _)
    · exact setEvRing_eventStep s _ _

theorem ringOverflow_eventStep (ring : Nat) : EventStep s (ringOverflow s ring) :=
  (setBit_eventStep s _ _ _).trans (postEventRaw_eventStep _ _ _ _ _ _ _ _)

theorem postEvent_eventStep : EventStep s (postEvent s src code job unit d0 d1 more) := by
  have hraw := postEventRaw_eventStep s src code job unit d0 d1 more
  unfold postEvent
  split
  next t full heq =>
    rw [heq] at hraw
    split
    · exact hraw.trans (ringOverflow_eventStep t _)
    · exact hraw

theorem setCause_eventStep : EventStep s (setCause s src b unit job d0 d1 more) :=
  (setBit_eventStep s src b unit).trans (postEvent_eventStep _ _ _ _ _ _ _ _)

theorem noteState_eventStep : EventStep s (noteState s src b unit) := by
  unfold noteState
  split
  · exact .refl s
  · exact setCause_eventStep ..

variable {s src b job unit d0 d1 more}

theorem bit_statAt_setCause (hb : b < 32) : bit (statAt (setCause s src b unit job d0 d1 more) src).status.toNat b = true :=
  (postEvent_eventStep _ _ _ _ _ _ _ _).bits src b (bit_statAt_setBit s src unit hb)

theorem bit_statAt_noteState (hb : b < 32) : bit (statAt (noteState s src b unit) src).status.toNat b = true := by
  unfold noteState
  split
  · assumption
  · exact bit_statAt_setCause hb

end Posted

end Sys2Proof.Proofs

/-! PROOFS. Command rings, doorbells and host reads (O12, O13, O14; 13 R359-R375, R391). -/

namespace Sys2Proof.Proofs

open Sys2Proof.Machine Sys2Proof.Safety Sys2Proof.Laws

/-! ### NOP and reserved opcodes (13 R373, R376) -/

theorem ringEn_of_atHead {s : State} {n : Nat} {d : Desc} (h : atHead s n d = true) : ringEn (cmdRing s n).ctl = true := by
  simp only [atHead, Bool.and_eq_true] at h
  exact h.1.1.1

theorem exec_nop {s : State} {ring : BitVec 6} {d : Desc} (h : descForm (opcodeOf d) = none ∨ opcodeOf d = 0) :
    exec (.nop ring d) s = .next (accept s ring d (opcodeOf d) none 0 (cringOf d.d0) fun a s => complete s a stOk) :=
  congrArg Host.Outcome.next (if_neg (by rcases h with h | h <;> simp [h]))

/-- The ring of an admitted NOP once its head is taken and its completion made: its registers, and the slots that follow the head. -/
theorem cmdRing_complete_headTaken {s : State} {ring : BitVec 6} {d : Desc} (a : Accept) (st : Nat) (ha : a.ring = ring.toNat)
    (hen : ringEn (cmdRing s ring.toNat).ctl = true) : ∃ l, (∀ x ∈ l, ∃ i, x = Slot.reading i) ∧
    (cmdRing (complete (headTaken s ring d) a st) ring.toNat).ci = (cmdRing s ring.toNat).ci + 1 ∧
    (cmdRing (complete (headTaken s ring d) a st) ring.toNat).slots = (cmdRing s ring.toNat).slots.drop 1 ++ l := by
  obtain ⟨l, hl, hring⟩ := popHead_ring s ring.toNat
  have hhead : cmdRing (headTaken s ring d) ring.toNat =
      { popped (cmdRing s ring.toNat) with slots := (cmdRing s ring.toNat).slots.drop 1 ++ l } := hring
  refine ⟨l, hl, ?_⟩
  unfold complete completeTo
  dsimp only
  split
  · rw [finished, ha, cmdRing_setCmdRing (ne_of_ringEn (by rw [hhead]; exact hen)), hhead]
    exact ⟨rfl, rfl⟩
  · have hready (c : Cpl) : cmdRing (ready (headTaken s ring d) c) ring.toNat = cmdRing (headTaken s ring d) ring.toNat := rfl
    rw [hready, hhead]
    exact ⟨rfl, rfl⟩

theorem head?_drop_append_ne_failed {l m : List Slot} (hl : l[1]? ≠ some .failed) (hm : ∀ x ∈ m, ∃ i, x = Slot.reading i) :
    (l.drop 1 ++ m).head? ≠ some .failed := by
  rw [List.head?_append, List.head?_drop]
  cases h : l[1]? with
  | some x => simpa [h] using hl
  | none =>
    cases m with
    | nil => simp
    | cons x m => obtain ⟨i, rfl⟩ := hm x (List.mem_cons_self ..); simp

theorem leads_nop {s : State} {ring : BitVec 6} {d : Desc} (hadm : admitted s ring d 0x00 (cringOf d.d0) none) :
    leads (.nop ring d) s fun t => onlyChanges [.host, .fresh] s t ∧ answered s t ring d (cringOf d.d0) 0 stOk 0 0 ∧
      ((cmdRing s ring.toNat).slots[1]? ≠ some .failed → (cmdRing t ring.toNat).ci = (cmdRing s ring.toNat).ci + 1) ∧
      ((cmdRing s ring.toNat).ciAddr.toNat / 8 ≠ 0 →
        hostWriting t ((cmdRing s ring.toNat).ciAddr.toNat / 8 * 8) (leBytes 4 ((cmdRing s ring.toNat).ci + 1).toNat)
          (.ci ring.toNat)) := by
  obtain ⟨hhead, hop, -⟩ := id hadm
  refine ⟨_, exec_nop (.inr hop), ?_⟩
  rw [hop, accept_runs hadm]
  change onlyChanges _ s (settleFailed _ _ (complete (headTaken s ring d) _ stOk)) ∧ _
  have hdone := complete_ringStep (headTaken s ring d) (acceptNow s ring.toNat d.d0 0) stOk 0 0 []
  have hstep := hdone.trans (settleFailed_ringStep Config.fetchAhead ring.toNat _)
  refine ⟨((headTaken_ringStep s ring d).trans hstep).moves.only, answered_complete, fun hnext => ?_, fun haddr => ?_⟩
  · obtain ⟨l, hl, hci, hslots⟩ := cmdRing_complete_headTaken (d := d) (acceptNow s ring.toNat d.d0 0) stOk rfl (ringEn_of_atHead hhead)
    have hfirst := head?_drop_append_ne_failed hnext hl
    rw [← hslots] at hfirst
    exact (congrArg (fun t => (cmdRing t ring.toNat).ci) (settleFailed_none hfirst)).trans hci
  · obtain ⟨hmem, hlt⟩ := popHead_writesBack s ring.toNat haddr
    exact (hstep.writeIssued (s := headTaken s ring d) ⟨_, hmem, hlt, rfl⟩).writing

/-- A reserved opcode has no form of descriptor, so acceptance refuses it. -/
theorem accept_reserved {s : State} {ring : BitVec 6} {d : Desc} {body : Accept → State → State}
    (hform : descForm (opcodeOf d) = none) (hhead : atHead s ring.toNat d = true)
    (hcring : ringEn (cplRing s (cringOf d.d0)).ctl = true) :
    accept s ring d (opcodeOf d) none 0 (cringOf d.d0) body =
      settleFailed Config.fetchAhead ring.toNat
        (completeTo (popHead s ring.toNat) (cringOf d.d0) (acceptNow s ring.toNat d.d0 0) stRefused) := by
  have hledgered : ledgered (opcodeOf d) = false := by
    rw [Bool.eq_false_iff]
    intro h
    simp only [ledgered, List.contains_eq_mem, List.mem_cons, List.not_mem_nil, or_false, decide_eq_true_eq] at h
    rcases h with h | h | h | h | h | h | h | h | h <;> rw [h] at hform <;> cases hform
  have hrun : opcodeOf d ≠ 0x22 := by
    intro h
    rw [h] at hform
    cases hform
  have hdesc : descOk d = false := by simp [descOk, hform]
  have hpop : ringEn (cplRing (popHead s ring.toNat) (cringOf d.d0)).ctl = true := by
    rw [(popHead_ringStep s ring.toNat).cplRing, hcring]
  unfold accept
  simp only [hhead, hledgered, hdesc, hpop, hrun, completeAs, bne_self_eq_false, Bool.not_true, Bool.false_and, Bool.or_self,
    Bool.false_eq_true, if_false, Bool.not_false, Bool.true_or, if_true]

theorem leads_reserved {s : State} {ring : BitVec 6} {d : Desc} (hform : descForm (opcodeOf d) = none)
    (hhead : atHead s ring.toNat d = true) (hcring : ringEn (cplRing s (cringOf d.d0)).ctl = true) :
    completesOnly (.nop ring d) s ring d (cringOf d.d0) 0 stRefused := by
  refine ⟨_, exec_nop (.inl hform), ?_⟩
  rw [accept_reserved hform hhead hcring]
  exact ⟨((popHead_ringStep s ring.toNat).trans ((completeTo_ringStep _ _ _ _ _ _ _ _).trans (settleFailed_ringStep _ _ _))).moves.only,
    answered_complete⟩

/-- Settles O12: NOP by its completion behind the head taken, a reserved opcode by the refusal at acceptance. -/
theorem nopAdvancesRingAndCompletes : Obligations.NopAdvancesRingAndCompletes := by
  unfold Obligations.NopAdvancesRingAndCompletes
  exact ⟨fun s ring d => leads_nop, fun s ring d => leads_reserved⟩

/-! ### Doorbells (13 R359, R367) -/

theorem exec_snoopInvalidate {s : State} {line : BitVec 58} {k : Nat} {w : Watch} (h : watchOfLine s line = some (k, w)) :
    exec (.snoopInvalidate line) s = .next (doorbell (answerSnoop s (if w.held then 1 else 0)) k w) := by
  have hexec : exec (.snoopInvalidate line) s = execSnoopInvalidate line s := rfl
  rw [hexec, execSnoopInvalidate, h]

theorem exec_snoopData {s : State} {line : BitVec 58} {k : Nat} {w : Watch} (h : watchOfLine s line = some (k, w)) :
    exec (.snoopData line) s = .next (answerSnoop s (if w.held then 2 else 0)) := by
  have hexec : exec (.snoopData line) s = execSnoopData line s := rfl
  rw [hexec, execSnoopData, h]

theorem leads_snoop_unwatched {s : State} {line : BitVec 58} (h : watchOfLine s line = none) :
    leads (.snoopInvalidate line) s (fun t => t = answerSnoop s 0) ∧ leads (.snoopData line) s (fun t => t = answerSnoop s 0) := by
  have hinv : exec (.snoopInvalidate line) s = execSnoopInvalidate line s := rfl
  have hdata : exec (.snoopData line) s = execSnoopData line s := rfl
  exact ⟨⟨_, by rw [hinv, execSnoopInvalidate, h], rfl⟩, ⟨_, by rw [hdata, execSnoopData, h], rfl⟩⟩

theorem watchAt_setWatch {s : State} {k : Nat} {w : Watch} (h : w ≠ {}) : watchAt (setWatch s k w) k = w := sget_sput_ne h

theorem doorbell_held {s : State} {k : Nat} {w : Watch} (h : w.held = true) :
    doorbell s k w = setWatch s k { w with held := false, reading := true } := if_pos h

theorem doorbell_reading {s : State} {k : Nat} {w : Watch} (h : w.held = false) (hr : w.reading = true) :
    doorbell s k w = setWatch s k { w with again := true } := by
  simp [doorbell, h, hr]

theorem doorbell_snoopRsp (s : State) (k : Nat) (w : Watch) : (doorbell s k w).host.snoopRsp = s.host.snoopRsp := by
  unfold doorbell
  split
  · rfl
  · split
    · rfl
    · split <;> rfl

theorem ne_of_reading {w : Watch} (h : w.reading = true) : w ≠ {} := by
  rintro rfl
  cases h

theorem ne_of_again {w : Watch} (h : w.again = true) : w ≠ {} := by
  rintro rfl
  cases h

theorem leads_snoopInvalidate_watched {s : State} {line : BitVec 58} {k : Nat} {w : Watch} (h : watchOfLine s line = some (k, w)) :
    leads (.snoopInvalidate line) s fun t => onlyChanges [.host] s t ∧
      t.host.snoopRsp = s.host.snoopRsp ++ [if w.held then 1 else 0] ∧
      (w.held = true → watchAt t k = { w with held := false, reading := true }) ∧
      (w.held = false → w.reading = true → watchAt t k = { w with again := true }) := by
  refine leads_moves (exec_snoopInvalidate h) execSnoopInvalidate_moves ⟨doorbell_snoopRsp _ k w, fun hheld => ?_, fun hheld hread => ?_⟩
  · rw [doorbell_held hheld]
    exact watchAt_setWatch (ne_of_reading rfl)
  · rw [doorbell_reading hheld hread]
    exact watchAt_setWatch (ne_of_again rfl)

/-! ### The index read from a watched line (13 R367, R370) -/

/-- A watch entry whose line has been read. -/
def lineRead (w : Watch) (index : W32) : Watch :=
  { w with value := index, reading := w.again, held := !w.again, again := false, retries := 0 }

theorem lineRead_ne (w : Watch) (index : W32) : lineRead w index ≠ {} := by
  intro h
  have hread : w.again = false := congrArg Watch.reading h
  have hheld : (!w.again) = false := congrArg Watch.held h
  simp [hread] at hheld

/-- The state in which the entry of a line holds what was read. -/
def withLineRead (s : State) (k : Nat) (index : W32) : State := setWatch s k (lineRead (watchAt s k) index)

theorem watchAt_withLineRead (s : State) (k : Nat) (index : W32) : watchAt (withLineRead s k index) k = lineRead (watchAt s k) index :=
  watchAt_setWatch (lineRead_ne _ index)

/-- The ring that a watch entry names takes the index. -/
def indexTaken (s : State) (w : Watch) (index : W32) : State :=
  let ring := bits w.ctl.toNat 28 23
  match bits w.ctl.toNat 30 29 with
  | 0 => indexRead s ring index
  | 1 => if ringEn (cplRing s ring).ctl then setCplRing s ring { cplRing s ring with ci := index } else s
  | _ => if ringEn (evRing s ring).ctl then setEvRing s ring { evRing s ring with ci := index } else s

theorem exec_watchLineRead {s : State} {k : BitVec 10} (h : (watchAt s k.toNat).reading = true) (index : W32) :
    exec (.watchLineRead k index) s = .next (indexTaken (withLineRead s k.toNat index) (watchAt s k.toNat) index) := by
  have hexec : exec (.watchLineRead k index) s = execWatchLineRead k index s := rfl
  rw [hexec, execWatchLineRead]
  exact congrArg Host.Outcome.next (if_neg (by simp [h]))

theorem indexRead_watch (s : State) (n : Nat) (index : W32) : (indexRead s n index).host.watch = s.host.watch := by
  unfold indexRead
  dsimp only
  split
  · rfl
  · split
    · split
      · rfl
      · exact (postEvent_eventStep _ _ _ _ _ _ _ _).watch
    · exact (fetchAhead_ringSide _ _ _).watch

theorem indexTaken_watch (s : State) (w : Watch) (index : W32) : (indexTaken s w index).host.watch = s.host.watch := by
  unfold indexTaken
  dsimp only
  split
  · exact indexRead_watch s _ index
  · split <;> rfl
  · split <;> rfl

/-- The producer index of an enabled command ring is the index read; out of range, it halts the ring. -/
theorem cmdRing_indexRead {s : State} {n : Nat} (index : W32) (hen : ringEn (cmdRing s n).ctl = true) :
    (cmdRing (indexRead s n index) n).pi = index ∧
      ((index - (cmdRing s n).ci).toNat > ringSize (cmdRing s n).ctl → (cmdRing (indexRead s n index) n).halted = true) := by
  simp only [indexRead, hen, Bool.not_true, Bool.false_eq_true, if_false]
  split
  · split
    · next hhalted =>
      rw [cmdRing_setCmdRing (ne_of_ringEn ?_)]
      · exact ⟨rfl, fun _ => hhalted⟩
      · exact hen
    · rw [(postEvent_eventStep _ _ _ _ _ _ _ _).cmdRing, cmdRing_setCmdRing (ne_of_ringEn ?_)]
      · exact ⟨rfl, fun _ => rfl⟩
      · exact hen
  · next hrange =>
    obtain ⟨l, -, hring⟩ := fetchAhead_ring Config.fetchAhead n (setCmdRing s n { cmdRing s n with pi := index })
    rw [hring]
    refine ⟨?_, fun h => absurd h hrange⟩
    rw [cmdRing_setCmdRing (ne_of_ringEn ?_)]
    exact hen

theorem ne_of_ringEn_out {r : OutRing} (h : ringEn r.ctl = true) : r ≠ {} := by
  intro e
  rw [e] at h
  exact absurd h (by decide)

theorem cplRing_setCplRing {s : State} {n : Nat} {r : OutRing} (h : ringEn r.ctl = true) : cplRing (setCplRing s n r) n = r :=
  sget_sput_ne (ne_of_ringEn_out h)

theorem leads_watchLineRead {s : State} {k : BitVec 10} (h : (watchAt s k.toNat).reading = true) (index : W32) :
    leads (.watchLineRead k index) s fun t =>
      onlyChanges [.host, .stats, .fresh] s t ∧
      (watchAt t k.toNat).value = index ∧ (watchAt t k.toNat).reading = (watchAt s k.toNat).again ∧
      (watchAt t k.toNat).held = !(watchAt s k.toNat).again ∧
      (let n := bits (watchAt s k.toNat).ctl.toNat 28 23
       let kind := bits (watchAt s k.toNat).ctl.toNat 30 29
       (kind = 0 → ringEn (cmdRing s n).ctl = true → (cmdRing t n).pi = index ∧
         ((index - (cmdRing s n).ci).toNat > ringSize (cmdRing s n).ctl → (cmdRing t n).halted = true)) ∧
       (kind = 1 → ringEn (cplRing s n).ctl = true → cplRing t n = { cplRing s n with ci := index }) ∧
       (kind = 2 → ringEn (evRing s n).ctl = true → evRing t n = { evRing s n with ci := index })) := by
  refine leads_moves (exec_watchLineRead h index) execWatchLineRead_moves ?_
  have hwatch : watchAt (indexTaken (withLineRead s k.toNat index) (watchAt s k.toNat) index) k.toNat = lineRead (watchAt s k.toNat) index := by
    rw [watchAt, indexTaken_watch]
    exact watchAt_withLineRead s k.toNat index
  rw [hwatch]
  refine ⟨rfl, rfl, rfl, fun hkind hen => ?_, fun hkind hen => ?_, fun hkind hen => ?_⟩ <;> simp only [indexTaken, hkind]
  · exact cmdRing_indexRead (s := withLineRead s k.toNat index) index hen
  · have hring : ringEn (cplRing (withLineRead s k.toNat index) (bits (watchAt s k.toNat).ctl.toNat 28 23)).ctl = true := hen
    rw [if_pos hring]
    exact cplRing_setCplRing hen
  · have hring : ringEn (evRing (withLineRead s k.toNat index) (bits (watchAt s k.toNat).ctl.toNat 28 23)).ctl = true := hen
    rw [if_pos hring]
    exact evRing_setEvRing_same hen

/-- Settles O13: snoops by the watch entry of their line, the index read by the kind of ring that the entry names. -/
theorem doorbellsAct : Obligations.DoorbellsAct := by
  unfold Obligations.DoorbellsAct
  refine ⟨fun s line => ⟨leads_snoop_unwatched, fun k w h => ⟨leads_snoopInvalidate_watched h, ⟨_, exec_snoopData h, rfl⟩⟩⟩,
    fun s k index h => leads_watchLineRead h index⟩

end Sys2Proof.Proofs

/-! PROOFS. Host reads and writes that end, completions and host resets (O14, O15, O16; 13 R379-R392). -/

namespace Sys2Proof.Proofs

open Sys2Proof.Machine Sys2Proof.Safety Sys2Proof.Laws

/-! ### Descriptor fetches that end (13 R369, R391) -/

theorem ofind_reads_settleSlot (s : State) (id n : Nat) (v : Slot) : ofind (settleSlot s id n v).host.reads id = none :=
  ofind_odel_same _ _

theorem cmdRing_settleSlot {s : State} {id n : Nat} {v : Slot} (hen : ringEn (cmdRing s n).ctl = true) :
    cmdRing (settleSlot s id n v) n =
      { cmdRing s n with slots := (cmdRing s n).slots.map fun x => if x = .reading id then v else x } := by
  have hset (u : State) (r : CmdRing) (h : ringEn r.ctl = true) : cmdRing (setCmdRing u n r) n = r :=
    cmdRing_setCmdRing (ne_of_ringEn h)
  exact hset _ _ hen

theorem exec_hostReadData {s : State} {id n i : Nat} (h : ofind s.host.reads id = some (.fetch n i)) (data : List Byte) :
    exec (.hostReadData id data) s = .next (settleSlot s id n (.got (descOf data))) := by
  have hexec : exec (.hostReadData id data) s = execHostReadData id data s := rfl
  rw [hexec, execHostReadData, h]

theorem exec_hostReadError_fetch {s : State} {id n i : Nat} (h : ofind s.host.reads id = some (.fetch n i)) :
    exec (.hostReadError (.fetch id)) s =
      .next (settleFailed Config.fetchAhead n (settleSlot (setCause s srcHost hbDmaRead n) id n .failed)) := by
  have hexec : exec (.hostReadError (.fetch id)) s = execHostReadError (.fetch id) s := rfl
  rw [hexec, execHostReadError]
  simp only [h]

theorem settleSlot_stats (s : State) (id n : Nat) (v : Slot) : (settleSlot s id n v).stats = s.stats := rfl

/-- A failed fetch is reported, whatever is settled behind it. -/
theorem leads_hostReadError_fetch {s : State} {id n i : Nat} (h : ofind s.host.reads id = some (.fetch n i)) :
    leads (.hostReadError (.fetch id)) s fun t => onlyChanges [.host, .stats, .fresh] s t ∧
      bit (statAt t srcHost).status.toNat hbDmaRead = true := by
  refine leads_moves (exec_hostReadError_fetch h) (execHostReadError_moves (which := .fetch id)) ?_
  have hslot : statAt (settleSlot (setCause s srcHost hbDmaRead n) id n .failed) srcHost = statAt (setCause s srcHost hbDmaRead n) srcHost := by
    rw [statAt, settleSlot_stats, statAt]
  rw [(settleFailed_ringStep _ _ _).statAt, hslot]
  exact bit_statAt_setCause (by decide)

/-! ### A command whose data cannot be read (13 R391) -/

theorem exec_hostReadError_object {s : State} {ring : BitVec 6} {d : Desc} (hreads : readsHost d = true)
    (hhead : atHead s ring.toNat d = true) :
    exec (.hostReadError (.object ring d)) s = .next (accept s ring d (opcodeOf d) none 0 (cringOf d.d0) fun a s =>
      completeAs (setCause s srcHost hbDmaRead a.ring) (opcodeOf d) (cringOf d.d0) a stHostError) :=
  congrArg Host.Outcome.next (if_neg (by simp [hreads, hhead]))

theorem leads_hostReadError_object {s : State} {ring : BitVec 6} {d : Desc} (hreads : readsHost d = true)
    (hrun : opcodeOf d ≠ 0x22) (hadm : admitted s ring d (opcodeOf d) (cringOf d.d0) none) :
    leads (.hostReadError (.object ring d)) s fun t =>
      onlyChanges [.host, .stats, .fresh] s t ∧ answered s t ring d (cringOf d.d0) 0 stHostError 0 0 ∧
      bit (statAt t srcHost).status.toNat hbDmaRead = true := by
  obtain ⟨hhead, -⟩ := id hadm
  refine leads_accepted hadm (exec_hostReadError_object hreads hhead) rfl rfl fun u t hu ht => ?_
  rw [completeAs, if_neg hrun] at ht
  refine ⟨?_, ht.answered (answered_completeTo _ [] []), ?_⟩
  · have hdone : RingStep (setCause u srcHost hbDmaRead ring.toNat) t := (completeTo_ringStep _ _ _ _ _ _ _ _).trans ht
    have hcaused : Moves [.host, .stats, .fresh] s (setCause u srcHost hbDmaRead ring.toNat) :=
      setCause_moves ((Moves.refl _ s).trans hu.moves rfl) rfl
    exact (hcaused.trans hdone.moves rfl).only
  · rw [ht.statAt, (completeTo_ringStep _ _ _ _ _ _ _ _).statAt]
    exact bit_statAt_setCause (by decide)

/-! ### Host writes that end (13 R384, R391) -/

/-- Interrupts raised one after another leave the completions and the writes. -/
theorem foldl_raiseVector_eventStep (l : List Irq) (s : State) : EventStep s (l.foldl (fun s i => raiseVector s i.vector) s) ∧
    (l.foldl (fun s i => raiseVector s i.vector) s).host.writes = s.host.writes := by
  induction l generalizing s with
  | nil => exact ⟨.refl s, rfl⟩
  | cons i l ih => exact ⟨(raiseVector_eventStep s i.vector).trans (ih _).1, (ih _).2⟩

theorem writeOver_host (s : State) (id : Nat) : (writeOver s id).host.writes = odel s.host.writes id ∧
    (writeOver s id).host.ready = s.host.ready.map (cplOver id) := by
  unfold writeOver
  dsimp only
  obtain ⟨hstep, hwrites⟩ := foldl_raiseVector_eventStep
    ((s.host.irqs.map (irqOver id)).filter fun i => i.waits.isEmpty)
    { s with host := { s.host with writes := odel s.host.writes id, ready := s.host.ready.map (cplOver id),
                                   irqs := (s.host.irqs.map (irqOver id)).filter fun i => !i.waits.isEmpty } }
  exact ⟨hwrites, hstep.ready⟩

theorem leads_hostWriteGo {s : State} {id : Nat} {w : HostWrite} (h : ofind s.host.writes id = some w)
    (hsave : ∀ t, w.kind ≠ .save t) (hmirror : ∀ q, w.kind ≠ .mirror q) :
    leads (.hostWriteGo id) s fun t => onlyChanges [.host] s t ∧ ofind t.host.writes id = none ∧
      t.host.ready = s.host.ready.map (cplOver id) := by
  have hexec : exec (.hostWriteGo id) s = execHostWriteGo id s := rfl
  refine ⟨writeOver s id, ?_, (writeOver_moves (Moves.refl _ s) rfl).only, ?_, (writeOver_host s id).2⟩
  · rw [hexec, execHostWriteGo, h]
    dsimp only
    split
    · next t hk => exact absurd hk (hsave t)
    · next q hk => exact absurd hk (hmirror q)
    · rfl
  · rw [(writeOver_host s id).1, ofind_odel_same]

/-- What a failed write does to the completions that wait for it. -/
def cplFailed (id : Nat) (c : Cpl) : Cpl := if c.waits.contains id then failCpl c else c

theorem exec_hostWriteError_copy {s : State} {id n g : Nat} {w : HostWrite} (h : ofind s.host.writes id = some w)
    (hk : w.kind = .copy n g) : exec (.hostWriteError id) s = .next (setCause
      (writeOver { s with host := { s.host with ready := s.host.ready.map (cplFailed id) } } id) srcHost hbDmaWrite n) := by
  have hexec : exec (.hostWriteError id) s = execHostWriteError id s := rfl
  rw [hexec, execHostWriteError, h]
  simp only [hk]
  rfl

theorem leads_hostWriteError_copy {s : State} {id n g : Nat} {w : HostWrite} (h : ofind s.host.writes id = some w)
    (hk : w.kind = .copy n g) : leads (.hostWriteError id) s fun t => onlyChanges [.host, .stats, .fresh] s t ∧
      bit (statAt t srcHost).status.toNat hbDmaWrite = true ∧
      t.host.ready = s.host.ready.map fun c => if c.waits.contains id then cplOver id (failCpl c) else cplOver id c := by
  refine ⟨_, exec_hostWriteError_copy h hk, ?_, bit_statAt_setCause (by decide), ?_⟩
  · have hmarked : Moves [.host, .stats, .fresh] s { s with host := { s.host with ready := s.host.ready.map (cplFailed id) } } :=
      upd_host (Moves.refl _ s) rfl (side_hostSame rfl rfl rfl rfl)
    exact (setCause_moves (writeOver_moves hmarked rfl) rfl).only
  · rw [(setCause_eventStep _ _ _ _ _ _ _ _).ready, (writeOver_host _ id).2, List.map_map]
    refine List.map_congr_left fun c _ => ?_
    simp only [Function.comp, cplFailed]
    split <;> rfl

/-- Settles O14: fetches, failed reads and ended writes, each by its meaning on what waited for it. -/
theorem hostReadsAndWritesEnd : Obligations.HostReadsAndWritesEnd := by
  unfold Obligations.HostReadsAndWritesEnd
  refine ⟨fun s id n i data h => ⟨?data, leads_hostReadError_fetch h⟩, fun s ring d => leads_hostReadError_object,
    fun s id w h => ⟨leads_hostWriteGo h, fun n g hk => leads_hostWriteError_copy h hk⟩⟩
  case data =>
    refine leads_moves (exec_hostReadData h data) execHostReadData_moves ⟨ofind_reads_settleSlot .., fun hen => ?_⟩
    rw [cmdRing_settleSlot hen]

/-! ### Completions written or waiting (13 R379, R384, R385) -/

section Completions

variable {s : State} {c : Cpl} {rest : List Cpl}

/-- The first completion ready, taken off the list. -/
def takenReady (s : State) (rest : List Cpl) : State := { s with host := { s.host with ready := rest } }

theorem exec_completionWrite (hpending : s.host.pending = []) (hready : s.host.ready = c :: rest) (hwaits : c.waits = []) :
    exec .completionWrite s = .next (postCpl (takenReady s rest) c) := by
  have hexec : exec .completionWrite s = execCompletionWrite s := rfl
  have hnext : nextReady s = some c := by
    simp [nextReady, hready, hwaits, hpending, Config.pendingDepth]
  rw [hexec, execCompletionWrite]
  simp only [hpending, nextPending, hnext, hready, List.erase_cons_head]
  simp only [takenReady, hpending]

theorem postCpl_fits (hquiet : c.quiet = false) (hring : c.ring = none) (hpending : s.host.pending = []) (hfits : cplFits s c = true) :
    postCpl s c = writeCpl s c := by
  simp [postCpl, cplFinished, hring, hquiet, hfits, hpending]

/-- A completion joins the pending queue. -/
def joinPending (s : State) (c : Cpl) : State := { s with host := { s.host with pending := s.host.pending ++ [c] } }

theorem joinPending_moves (s : State) (c : Cpl) : Moves [.host] s (joinPending s c) :=
  upd_host (Moves.refl _ s) rfl (side_hostSame rfl rfl rfl rfl)

theorem takenReady_moves (s : State) (rest : List Cpl) : Moves [.host] s (takenReady s rest) :=
  upd_host (Moves.refl _ s) rfl (side_hostSame rfl rfl rfl rfl)

theorem postCpl_waits (hquiet : c.quiet = false) (hring : c.ring = none) (hfits : cplFits s c = false) :
    postCpl s c = ringOverflow (joinPending s c) c.cring := by
  simp [postCpl, cplFinished, hring, hquiet, hfits, joinPending]

theorem writeCpl_eq (hen : ringEn (cplRing s c.cring).ctl = true) (hafter : c.after = []) :
    writeCpl s c = setCplRing (ringPut s (.completion c.cring) (cplRing s c.cring) c.entries).2 c.cring
      (ringPut s (.completion c.cring) (cplRing s c.cring) c.entries).1 := by
  simp [writeCpl, hen, hafter]

theorem cplRing_takenReady (s : State) (rest : List Cpl) (n : Nat) : cplRing (takenReady s rest) n = cplRing s n := rfl

theorem ringRoom_takenReady (s : State) (rest : List Cpl) (kind n k : Nat) (r : OutRing) :
    ringRoom (takenReady s rest) kind n r k = ringRoom s kind n r k := rfl

theorem leads_completionWrite_fits {e : List W64} (hpending : s.host.pending = []) (hready : s.host.ready = c :: rest)
    (hwaits : c.waits = []) (hquiet : c.quiet = false) (hring : c.ring = none) (hafter : c.after = []) (he : c.entries = [e])
    (hen : ringEn (cplRing s c.cring).ctl = true) (hroom : ringRoom s 1 c.cring (cplRing s c.cring) 1 = true) :
    leads .completionWrite s fun t =>
      onlyChanges [.host, .fresh] s t ∧ t.host.ready = rest ∧ (cplRing t c.cring).wi = (cplRing s c.cring).wi + 1 ∧
      hostWriting t ((cplRing s c.cring).base.toNat / 4096 * 4096 +
          32 * ((cplRing s c.cring).wi.toNat % ringSize (cplRing s c.cring).ctl))
        (bytesOf (withPhase e (phaseOf (cplRing s c.cring).wi (ringLog (cplRing s c.cring).ctl)))) (.completion c.cring) := by
  have hfits : cplFits (takenReady s rest) c = true := by
    simp [cplFits, cplRing_takenReady, ringRoom_takenReady, he, hroom]
  have hpost : postCpl (takenReady s rest) c = _ :=
    (postCpl_fits (s := takenReady s rest) hquiet hring hpending hfits).trans (writeCpl_eq (s := takenReady s rest) hen hafter)
  rw [cplRing_takenReady, he] at hpost
  have hadvanced := ringPut_advanced (takenReady s rest) (.completion c.cring) (cplRing s c.cring) [e]
  have hstep := ringPut_eventStep (takenReady s rest) (.completion c.cring) (cplRing s c.cring) [e]
  have hpad : needsPad (cplRing s c.cring) [e].length = false := by simp [needsPad]
  refine ⟨_, (exec_completionWrite hpending hready hwaits).trans (congrArg _ hpost), ?_, hstep.ready, ?_, ?_⟩
  · have htaken : Moves [.host, .fresh] s (takenReady s rest) := (Moves.refl _ s).trans (takenReady_moves s rest) rfl
    exact (setCplRing_moves (ringPut_moves htaken rfl) rfl).only
  · rw [cplRing_setCplRing (by rw [hadvanced.ctl, hen]), hadvanced.wi, hpad]
    rfl
  · exact hostWriting_ringPut (s := takenReady s rest) (es := []) hpad

theorem leads_completionWrite_full (hpending : s.host.pending = []) (hready : s.host.ready = c :: rest)
    (hwaits : c.waits = []) (hquiet : c.quiet = false) (hring : c.ring = none) (hen : ringEn (cplRing s c.cring).ctl = true)
    (hroom : ringRoom s 1 c.cring (cplRing s c.cring) c.entries.length = false) : leads .completionWrite s fun t =>
      onlyChanges [.host, .stats, .fresh] s t ∧ t.host.pending = [c] ∧ t.host.ready = rest ∧
      bit (statAt t srcHost).status.toNat hbOverflow = true := by
  have hfits : cplFits (takenReady s rest) c = false := by
    simp [cplFits, cplRing_takenReady, ringRoom_takenReady, hen, hroom]
  have hstep := ringOverflow_eventStep (joinPending (takenReady s rest) c) c.cring
  refine ⟨_, (exec_completionWrite hpending hready hwaits).trans (congrArg _ (postCpl_waits hquiet hring hfits)), ?_, ?_, hstep.ready,
    bit_statAt_ringOverflow _ _⟩
  · have hjoined : Moves [.host, .stats, .fresh] s (joinPending (takenReady s rest) c) :=
      ((Moves.refl _ s).trans (takenReady_moves s rest) rfl).trans (joinPending_moves _ c) rfl
    exact (hjoined.trans hstep.moves rfl).only
  · rw [hstep.pending]
    change s.host.pending ++ [c] = [c]
    rw [hpending, List.nil_append]

end Completions

/-! ### Coalescing (13 R390) -/

theorem ne_of_coalDue {s : State} {r r' : OutRing} (h : coalDue s r = true) (hctl : r'.ctl = r.ctl) : r' ≠ {} := by
  rintro rfl
  have hoff : bit r.ctl.toNat 24 = false := by rw [← hctl]; decide
  simp [coalDue, hoff] at h

theorem fireRing_eq {s : State} {k : WriteKind} {r : OutRing} (h : entryWrites s k = []) :
    fireRing s k r = ({ r with since := 0, firstAt := none }, raiseVector s (bits r.ctl.toNat 30 25)) := by
  simp [fireRing, h]

theorem bits_lt (n hi lo : Nat) : bits n hi lo < 2 ^ (hi + 1 - lo) := Nat.mod_lt _ (Nat.two_pow_pos _)

/-- A raised vector that is masked becomes pending. -/
theorem bit_pba_raiseVector {s : State} {v : Nat} (hv : v < 64) (h : (sget {} s.host.msixTable v).masked = true) :
    bit (raiseVector s v).host.pba.toNat v = true := by
  simp only [raiseVector, h, if_true]
  exact bit_or_twoPow _ hv

theorem leads_coalesce_cpl {s : State} {ring : BitVec 6} (hdue : coalDue s (cplRing s ring.toNat) = true)
    (hwrites : entryWrites s (.completion ring.toNat) = []) :
    leads (.coalesceTimerExpiry false ring) s fun t => onlyChanges [.host] s t ∧
      let v := bits (cplRing s ring.toNat).ctl.toNat 30 25
      let held := (sget {} s.host.msixTable v).masked
      t.host.msix = s.host.msix ++ (if held then [] else [v]) ∧ (held = true → bit t.host.pba.toNat v = true) ∧
        (cplRing t ring.toNat).since = 0 := by
  have hexec : exec (.coalesceTimerExpiry false ring) s = .next (setCplRing
      (raiseVector s (bits (cplRing s ring.toNat).ctl.toNat 30 25)) ring.toNat { cplRing s ring.toNat with since := 0, firstAt := none }) := by
    have hcmd : exec (.coalesceTimerExpiry false ring) s = execCoalesceTimerExpiry false ring s := rfl
    rw [hcmd, execCoalesceTimerExpiry]
    simp only [Bool.false_eq_true, if_false, hdue, if_true, fireRing_eq hwrites]
  refine leads_moves hexec execCoalesceTimerExpiry_moves ⟨?_, fun hheld => bit_pba_raiseVector (bits_lt ..) hheld, ?_⟩
  · change (raiseVector s _).host.msix = _
    simp only [raiseVector]
    split <;> simp
  · have hring : cplRing (setCplRing (raiseVector s (bits (cplRing s ring.toNat).ctl.toNat 30 25)) ring.toNat
        { cplRing s ring.toNat with since := 0, firstAt := none }) ring.toNat = { cplRing s ring.toNat with since := 0, firstAt := none } :=
      sget_sput_ne (ne_of_coalDue hdue rfl)
    rw [hring]

theorem leads_coalesce_ev {s : State} {ring : BitVec 6} (hdue : coalDue s (evRing s ring.toNat) = true)
    (hwrites : entryWrites s (.event ring.toNat) = []) :
    leads (.coalesceTimerExpiry true ring) s fun t => onlyChanges [.host] s t ∧
      let v := bits (evRing s ring.toNat).ctl.toNat 30 25
      let held := (sget {} s.host.msixTable v).masked
      t.host.msix = s.host.msix ++ (if held then [] else [v]) ∧ (held = true → bit t.host.pba.toNat v = true) ∧
        (evRing t ring.toNat).since = 0 := by
  have hexec : exec (.coalesceTimerExpiry true ring) s = .next (setEvRing
      (raiseVector s (bits (evRing s ring.toNat).ctl.toNat 30 25)) ring.toNat { evRing s ring.toNat with since := 0, firstAt := none }) := by
    have hcmd : exec (.coalesceTimerExpiry true ring) s = execCoalesceTimerExpiry true ring s := rfl
    rw [hcmd, execCoalesceTimerExpiry]
    simp only [hdue, if_true, fireRing_eq hwrites]
  refine leads_moves hexec execCoalesceTimerExpiry_moves ⟨?_, fun hheld => bit_pba_raiseVector (bits_lt ..) hheld, ?_⟩
  · change (raiseVector s _).host.msix = _
    simp only [raiseVector]
    split <;> simp
  · have hring : evRing (setEvRing (raiseVector s (bits (evRing s ring.toNat).ctl.toNat 30 25)) ring.toNat
        { evRing s ring.toNat with since := 0, firstAt := none }) ring.toNat = { evRing s ring.toNat with since := 0, firstAt := none } :=
      sget_sput_ne (ne_of_coalDue hdue rfl)
    rw [hring]

/-- Settles O15: a completion that fits is put into its ring, one that does not joins the queue, and a due ring fires. -/
theorem completionsAreWritten : Obligations.CompletionsAreWritten := by
  unfold Obligations.CompletionsAreWritten
  exact ⟨fun s c e rest hp hr hw hq hring ha he hen hroom => leads_completionWrite_fits hp hr hw hq hring ha he hen hroom,
    fun s c rest hp hr hw hq hring hen hroom => leads_completionWrite_full hp hr hw hq hring hen hroom,
    fun s ring => ⟨leads_coalesce_cpl, leads_coalesce_ev⟩⟩

/-! ### Resets of the host interface (13 R392) -/

/-- A map whose entries were all replaced reads, at any key, as a replaced entry or as the default. -/
theorem sget_canonMap_map {α : Type} [DecidableEq α] {d : α} {f : α → α} {P : α → Prop} (hd : P d) (hf : ∀ x, P (f x))
    (m : Sparse α) (k : Nat) : P (sget d (canonMap d (m.map fun e => (e.1, f e.2))) k) := by
  induction m with
  | nil => exact hd
  | cons e m ih =>
    rw [List.map_cons, canonMap, List.filter_cons]
    split
    · rw [sget]
      split
      · exact hf e.2
      · exact ih
    · exact ih

theorem ringEn_offBit (ctl : W32) : ringEn (offBit ctl) = false := by
  rw [ringEn, bit_eq_testBit, offBit, BitVec.testBit_toNat, BitVec.getLsbD_and]
  simp

/-- What a reset of the host interface leaves: every ring and watch entry off, nothing under way. -/
structure HostIsOff (h : HostIf) : Prop where
  cmd : ∀ n, ringEn (sget {} h.cmd n).ctl = false ∧ (sget {} h.cmd n).slots = []
  cpl : ∀ n, ringEn (sget {} h.cpl n).ctl = false
  ev : ∀ n, ringEn (sget {} h.ev n).ctl = false
  watch : ∀ n, bit (sget {} h.watch n).ctl.toNat 31 = false ∧ (sget {} h.watch n).held = false
  pending : h.pending = []
  reads : h.reads = []
  writes : h.writes = []

theorem hostOff_isOff (s : State) : HostIsOff (hostOff s).host where
  cmd n := sget_canonMap_map (P := fun r : CmdRing => ringEn r.ctl = false ∧ r.slots = []) (by decide)
    (fun r => ⟨ringEn_offBit r.ctl, rfl⟩) _ n
  cpl n := sget_canonMap_map (P := fun r : OutRing => ringEn r.ctl = false) (by decide) (fun r => ringEn_offBit r.ctl) _ n
  ev n := sget_canonMap_map (P := fun r : OutRing => ringEn r.ctl = false) (by decide) (fun r => ringEn_offBit r.ctl) _ n
  watch n := sget_canonMap_map (P := fun w : Watch => bit w.ctl.toNat 31 = false ∧ w.held = false) (by decide)
    (f := offWatch) (fun w => ⟨ringEn_offBit w.ctl, rfl⟩) _ n
  pending := rfl
  reads := rfl
  writes := rfl

theorem hostOff_msix (s : State) : (hostOff s).host.msix = [] := rfl

/-- Failed saves enter nothing in the ledger, and the mirror stops without an entry. -/
theorem hostOff_ledger (s : State) : (hostOff s).ledger = { s.ledger with mirrorEn := false } := by
  have hsaves (l : List Nat) : (l.foldl saveFailed s).ledger = s.ledger :=
    (foldl_moves (l := [.host, .stats, .pools, .tills, .faults, .fresh]) (Moves.refl _ s) fun _ _ h => saveFailed_moves h rfl).only
      .ledger (by decide)
  change ({ (List.foldl saveFailed s _).ledger with mirrorEn := false } : Ledger) = _
  rw [hsaves]

theorem hostReset_enqueues (s : State) (k : Nat) : ∃ e, (hostReset s k).ledger.queue = enqueueChange s e ∧ e.kind = 0x09 ∧
    e.target = BitVec.ofNat 64 k ∧ e.new = padTo 16 (leBytes 16 s.host.pending.length) := by
  rw [hostReset, hostOff_ledger]
  exact ⟨_, rfl, rfl, rfl, rfl⟩

theorem setCause_off {s : State} {b unit job d0 d1 : Nat} {more : Option (Nat × Nat × Nat)} (h : ∀ n, ringEn (evRing s n).ctl = false) :
    setCause s srcHost b unit job d0 d1 more = setBit s srcHost b unit :=
  postEvent_off (by rw [routedRing_setBit]; exact h _)

theorem HostIsOff.setBit {s : State} (h : HostIsOff s.host) (src b unit : Nat) : HostIsOff (setBit s src b unit).host := by
  obtain ⟨msix, pba, heq⟩ := setBit_host_eq s src b unit
  obtain ⟨hcmd, hcpl, hev, hwatch, hpending, hreads, hwrites⟩ := h
  rw [heq]
  exact ⟨hcmd, hcpl, hev, hwatch, hpending, hreads, hwrites⟩

theorem HostIsOff.noteState {s : State} (h : HostIsOff s.host) (b unit : Nat) : HostIsOff (noteState s srcHost b unit).host := by
  unfold Machine.noteState
  split
  · exact h
  · rw [setCause_off h.ev]
    exact h.setBit _ _ _

/-- The link as lost, before the reset that follows. -/
def linkLost (s : State) : State := { s with host := { s.host with cxlUp := false } }

theorem exec_cxlLinkLoss {s : State} (h : s.host.cxlUp = true) :
    exec .cxlLinkLoss s = .next (noteState (hostReset (linkLost s) 2) srcHost hbLinkDown 0) :=
  congrArg Host.Outcome.next (if_neg (by simp [h]))

theorem exec_cxlLinkUp {s : State} (hrun : s.boot.phase = .run) (hnow : 1024 ≤ s.now) (hstrap : bits s.boot.strap.toNat 11 10 ≠ 2) :
    exec .cxlLinkUp s = .next { s with host := { s.host with cxlUp := true } } :=
  congrArg Host.Outcome.next (if_neg (by simp [hrun, Nat.not_lt.2 hnow, hstrap]))

/-- Settles O16: the reset switches everything off and is recorded; the loss of the link brings its bit besides. -/
theorem hostResetsDisableRings : Obligations.HostResetsDisableRings := by
  unfold Obligations.HostResetsDisableRings
  refine fun s => ⟨fun c k hck => ?resets, fun hrun hnow hstrap => ⟨_, exec_cxlLinkUp hrun hnow hstrap, rfl⟩⟩
  case resets =>
    have hreset (j : Nat) : HostIsOff (hostReset s j).host := hostOff_isOff _
    have hlost : HostIsOff (noteState (hostReset (linkLost s) 2) srcHost hbLinkDown 0).host := (hostOff_isOff _).noteState _ _
    simp only [List.mem_cons, List.not_mem_nil, or_false, Prod.mk.injEq] at hck
    rcases hck with (⟨rfl, rfl⟩ | ⟨rfl, rfl⟩) | ⟨rfl, rfl, hup⟩
    · obtain ⟨hcmd, hcpl, hev, hwatch, hpending, hreads, hwrites⟩ := hreset 0
      exact leads_moves (u := hostReset s 0) rfl execFunctionLevelReset_moves
        ⟨hcmd, hcpl, hev, hwatch, hpending, hreads, hwrites, fun _ => hostOff_msix _, hostReset_enqueues s 0⟩
    · obtain ⟨hcmd, hcpl, hev, hwatch, hpending, hreads, hwrites⟩ := hreset 1
      exact leads_moves (u := hostReset s 1) rfl execConventionalReset_moves
        ⟨hcmd, hcpl, hev, hwatch, hpending, hreads, hwrites, fun _ => hostOff_msix _, hostReset_enqueues s 1⟩
    · obtain ⟨hcmd, hcpl, hev, hwatch, hpending, hreads, hwrites⟩ := hlost
      refine leads_moves (exec_cxlLinkLoss hup) execCxlLinkLoss_moves
        ⟨hcmd, hcpl, hev, hwatch, hpending, hreads, hwrites, fun h => absurd rfl h, ?_⟩
      rw [(noteState_eventStep _ _ _ _).ledger]
      exact hostReset_enqueues (linkLost s) 2

end Sys2Proof.Proofs

/-! PROOFS. Register writes and reads (O17, O18; 14 R393-R398, R405, R406; 16 R453). -/

namespace Sys2Proof.Proofs

open Sys2Proof.Machine Sys2Proof.Safety Sys2Proof.Laws

/-! ### A write through regWrite (14 R393) -/

/-- A write by the debug port is measured. -/
def measured (org : RegOrigin) (s : State) : State := match org with
  | .host => s
  | .debugPort => { s with boot := { s.boot with debugBits := s.boot.debugBits ||| 1 } }

theorem measured_moves {s t : State} {l : List Area} {org : RegOrigin} (h : Moves l s t) (hboot : sub [.boot] l = true) :
    Moves l s (measured org t) := by
  cases org
  · exact h
  · exact upd_boot h hboot

/-- Apart from the block of bring-up, a measured state is the one before. -/
theorem measured_eq (org : RegOrigin) (s : State) : ∃ boot, measured org s = { s with boot := boot } := by
  cases org
  · exact ⟨s.boot, rfl⟩
  · exact ⟨_, rfl⟩

section Written

variable {s : State} {org : RegOrigin} {off : Nat}

/-- A write of one half takes effect while the ledger has room for its entry. -/
theorem regWrite_half (v : W64) (hrun : s.boot.phase = .run) (hroom : ledgerRoom s = true) (halign : off % 4 = 0) :
    regWrite s org off 4 v = measured org (writeHalf s org false off (lo32 v.toNat)) := by
  unfold regWrite measured
  have hsize : ¬(((4 : Nat) ≠ 4 ∧ (4 : Nat) ≠ 8) ∨ off % 4 ≠ 0) := by omega
  simp only [hrun, hroom, if_neg hsize, reduceIte]
  cases org <;> simp

theorem lo32_setWidth (v : W32) : lo32 (v.setWidth 64).toNat = v := by
  apply BitVec.eq_of_toNat_eq
  simpa [lo32] using Nat.mod_eq_of_lt v.isLt

theorem regWrite_word (v : W32) (hrun : s.boot.phase = .run) (hroom : ledgerRoom s = true) (halign : off % 4 = 0) :
    regWrite s org off 4 (v.setWidth 64) = measured org (writeHalf s org false off v) := by
  rw [regWrite_half _ hrun hroom halign, lo32_setWidth]

theorem regWrite_badSize {n : Nat} {v : W64} (hrun : s.boot.phase = .run) (hbad : (n ≠ 4 ∧ n ≠ 8) ∨ off % n ≠ 0) :
    regWrite s .host off n v = refuseField s (off / 4 * 4) 0 rsSize := by
  have hledger : (refuseField s (off / 4 * 4) 0 rsSize).ledger = s.ledger :=
    (refuseField_moves (Moves.refl [.refused] s) rfl).only .ledger (by decide)
  unfold regWrite
  simp only [if_pos hbad, hrun, hledger]
  simp

end Written

/-! ### EVROUTE, and writes refused for their size -/

/-- A new value of EVROUTE, entered in the ledger. -/
def withEvroute (s : State) (org : RegOrigin) (v : W32) : State :=
  { recordReg s org 0x5080 s.host.evroute.toNat v.toNat with host := { s.host with evroute := v } }

theorem recordReg_host (s : State) (org : RegOrigin) (off old new : Nat) : (recordReg s org off old new).host = s.host :=
  (recordReg_moves (Moves.refl [.ledger] s) rfl).only .host (by decide)

theorem writeHalf_evroute {s : State} {org : RegOrigin} {v : W32} (h : s.host.evroute ≠ v &&& 0x3FFFFF) :
    writeHalf s org false 0x5080 v = withEvroute s org (v &&& 0x3FFFFF) := by
  exact if_neg h

theorem withEvroute_moves (s : State) (org : RegOrigin) (v : W32) : Moves [.host, .ledger] s (withEvroute s org v) := by
  refine upd_host (recordReg_moves (Moves.refl _ s) rfl) rfl ?_
  exact side_hostSame rfl rfl rfl rfl

/-- A change of a register is entered with its origin. -/
theorem recordReg_enqueues (s : State) (org : RegOrigin) (off old new : Nat) :
    ∃ e, (recordReg s org off old new).ledger.queue = enqueueChange s e ∧ e.kind = 0x07 ∧
      e.origin = BitVec.ofNat 8 (match org with
        | .host => oReg
        | .debugPort => oDebug) :=
  ⟨_, rfl, rfl, rfl⟩

/-- Settles O17: a change of EVROUTE from either side, and a write of a wrong size. -/
theorem registerWriteTakesEffect : Obligations.RegisterWriteTakesEffect := by
  unfold Obligations.RegisterWriteTakesEffect
  refine ⟨fun s v hrun hroom hne => ?evroute, fun s off n v hrun hbad => ?refused⟩
  case evroute =>
    have hwritten (org : RegOrigin) : regWrite s org 0x5080 4 v = measured org (withEvroute s org (lo32 v.toNat &&& 0x3FFFFF)) := by
      rw [regWrite_half v hrun hroom rfl, writeHalf_evroute hne]
    refine ⟨⟨_, congrArg Host.Outcome.next (hwritten .host), (withEvroute_moves _ _ _).only, rfl, recordReg_enqueues s .host ..⟩,
      ⟨_, congrArg Host.Outcome.next (hwritten .debugPort), ?_, rfl, rfl, recordReg_enqueues s .debugPort ..⟩⟩
    exact (measured_moves (l := [.boot, .host, .ledger]) ((Moves.refl _ s).trans (withEvroute_moves _ _ _) rfl) rfl).only
  case refused =>
    refine ⟨_, congrArg Host.Outcome.next (regWrite_badSize hrun hbad), (refuseField_moves (Moves.refl _ s) rfl).only, fun hv => ?_,
      fun hv => ?_⟩
    · have hlt := off.isLt
      have hoff : off.toNat / 4 * 4 % 1048576 = off.toNat / 4 * 4 := by omega
      simp [refuseField, hv, hoff, rsSize]
    · simp [refuseField, hv]

/-! ### Reads (14 R393, R394) -/

theorem regRead_word {s : State} {off : Nat} (hrun : s.boot.phase = .run) (halign : off % 4 = 0) :
    regRead s off 4 = answerRead (latchReads s off) ((readReg (latchReads s off) off).setWidth 64) := by
  simp [regRead, hrun, halign]

theorem regRead_bad {s : State} {off n : Nat} (hbad : (n ≠ 4 ∧ n ≠ 8) ∨ off % n ≠ 0) : regRead s off n = answerRead s 0 :=
  if_pos (.inr hbad)

/-- A read of TICK_NUM_LO latches the high half and the offset. -/
def tickLatched (s : State) : State :=
  { s with host := { s.host with latch := oins (oins s.host.latch 0x20C (hi32 s.tick.num.toNat)) 0x210 (lo32 (curOfs s)) } }

theorem exec_tickRead {s : State} (org : RegOrigin) (hrun : s.boot.phase = .run) :
    exec (.pairLoRead org 0x208 4) s = .next (answerRead (tickLatched s) ((lo32 s.tick.num.toNat).setWidth 64)) :=
  congrArg Host.Outcome.next (regRead_word (off := 0x208) hrun rfl)

theorem exec_regRead_bad {s : State} (org : RegOrigin) {off : BitVec 20} {n : Nat} (hoff : off.toNat < 0xC0000)
    (hbad : (n ≠ 4 ∧ n ≠ 8) ∨ off.toNat % n ≠ 0) : exec (.pairLoRead org off n) s = .next (answerRead s 0) :=
  congrArg Host.Outcome.next ((if_neg (by omega)).trans (regRead_bad hbad))

/-! ### The accumulator window (14 R406) -/

/-- What keeps a read of the window from an answer. -/
theorem window_inside {s : State} {off : BitVec 20} (hrun : s.boot.phase = .run) (h0 : 0xC0000 ≤ off.toNat) (h1 : off.toNat < 0xF0000)
    (halign : off.toNat % 8 = 0) : ¬(s.boot.phase ≠ .run ∨ ((8 : Nat) ≠ 4 ∧ (8 : Nat) ≠ 8) ∨ off.toNat % 8 ≠ 0 ∨ off.toNat < 0xC0000 ∨
      off.toNat ≥ 0xC0000 + 8 * Config.storeWords) := by
  have hwords : Config.storeWords = 24576 := rfl
  simp only [hrun, hwords, ne_eq, not_true_eq_false, and_false, false_or]
  omega

theorem exec_window {s : State} {off : BitVec 20} (org : RegOrigin) (h0 : 0xC0000 ≤ off.toNat) :
    exec (.accumulatorWindowRead org off 8) s = .next (windowRead s off.toNat 8) :=
  congrArg Host.Outcome.next (if_neg (by omega))

theorem windowRead_halted {s : State} {off : BitVec 20} (hrun : s.boot.phase = .run) (h0 : 0xC0000 ≤ off.toNat)
    (h1 : off.toNat < 0xF0000) (halign : off.toNat % 8 = 0) (hhalt : haltNow s = 2) :
    windowRead s off.toNat 8 = answerRead s (storeWord s ((off.toNat - 0xC0000) / 8)) :=
  (if_neg (window_inside hrun h0 h1 halign)).trans (if_neg (not_not.2 hhalt))

theorem windowRead_running {s : State} {off : BitVec 20} (hrun : s.boot.phase = .run) (h0 : 0xC0000 ≤ off.toNat)
    (h1 : off.toNat < 0xF0000) (halign : off.toNat % 8 = 0) (hhalt : haltNow s ≠ 2) :
    windowRead s off.toNat 8 = answerRead { s with tiles := { s.tiles with notHalted := true } } 0 :=
  (if_neg (window_inside hrun h0 h1 halign)).trans (if_pos hhalt)

/-! ### The I3C sideband (16 R453) -/

theorem exec_i3cTemp {s : State} {i : Nat} (hi : i < 6) : exec (.i3cRegisterRead (BitVec.ofNat 16 (0xF000 + 4 * i))) s =
    .next { s with boot := { s.boot with i3cData := statTemp s i } } := by
  have hoff : (BitVec.ofNat 16 (0xF000 + 4 * i)).toNat = 0xF000 + 4 * i := by
    rw [BitVec.toNat_ofNat]
    omega
  have hin : 0xF000 ≤ 0xF000 + 4 * i ∧ 0xF000 + 4 * i < 0xF018 ∧ (0xF000 + 4 * i) % 4 = 0 := by omega
  have hword : (0xF000 + 4 * i - 0xF000) / 4 = i := by omega
  have hexec : exec (.i3cRegisterRead (BitVec.ofNat 16 (0xF000 + 4 * i))) s = execI3cRegisterRead _ s := rfl
  rw [hexec, execI3cRegisterRead]
  simp only [hoff, if_pos hin, hword]

theorem exec_capUnitsRead {s : State} (hrun : s.boot.phase = .run) :
    exec (.dbgreg false 0x20 4 0) s = .next (answerRead s ((capUnits s).setWidth 64)) :=
  congrArg Host.Outcome.next (regRead_word (off := 0x20) hrun rfl)

theorem capUnits_of_grade {s : State} {g : Nat} {v : W64} (h : (g, v) ∈ [(1, (0x10FFFFFE : W64)), (2, 0x20FFFF3E), (3, 0x3000FF00)])
    (hg : s.boot.fuses.grade = g) : (capUnits s).setWidth 64 = v := by
  simp only [List.mem_cons, List.not_mem_nil, or_false, Prod.mk.injEq] at h
  have hgrade : grade s = g := hg
  rcases h with ⟨rfl, rfl⟩ | ⟨rfl, rfl⟩ | ⟨rfl, rfl⟩ <;> simp [capUnits, hgrade]

/-- Settles O18: each read by the state that answers it. -/
theorem readsAnswer : Obligations.ReadsAnswer := by
  unfold Obligations.ReadsAnswer
  refine ⟨fun s org hrun => ⟨?tick, ?evroute, fun off n hoff hbad => ⟨_, exec_regRead_bad org hoff hbad, rfl⟩,
    fun off h0 h1 halign => ⟨fun hhalt => ?halted, fun hhalt => ?running⟩, fun i hi => ⟨_, exec_i3cTemp hi, rfl⟩, ?ready,
    fun a => ⟨_, rfl, rfl⟩⟩, fun s hrun g v hv hg => ?units⟩
  case tick =>
    refine leads_moves (exec_tickRead org hrun) (execPairLoRead_moves (_origin := org)) ⟨rfl, ?_, ofind_oins_same _ _ _⟩
    exact (ofind_oins_other _ _ (by decide)).trans (ofind_oins_same _ _ _)
  case evroute => exact ⟨_, congrArg Host.Outcome.next (regRead_word (off := 0x5080) hrun rfl), rfl⟩
  case halted => exact ⟨_, (exec_window org h0).trans (congrArg _ (windowRead_halted hrun h0 h1 halign hhalt)), rfl⟩
  case running =>
    refine ⟨_, (exec_window org h0).trans (congrArg _ (windowRead_running hrun h0 h1 halign hhalt)), ?_, rfl, rfl⟩
    exact (answerRead_moves (upd_tiles (Moves.refl _ s) rfl) rfl).only
  case ready => exact ⟨_, rfl, rfl⟩
  case units =>
    refine ⟨_, exec_capUnitsRead hrun, (answerRead_moves (Moves.refl _ s) rfl).only, capUnits_of_grade hv hg⟩

end Sys2Proof.Proofs

/-! PROOFS. Rings enabled and watch entries ended by a write of their registers (O19; 13 R360-R365). -/

namespace Sys2Proof.Proofs

open Sys2Proof.Machine Sys2Proof.Safety Sys2Proof.Laws

/-! ### Fields of a CTL register -/

/-- A field that is not locked takes a legal value. -/
theorem ctlField_taken {off hi lo : Nat} {legal : Nat → Bool} {cur v : W32} {a : State × Nat} (h : legal (bits v.toNat hi lo) = true) :
    ctlField off false legal cur v hi lo a = (a.1, a.2 + bits v.toNat hi lo * 2 ^ lo) := by
  unfold ctlField
  dsimp only
  by_cases heq : bits v.toNat hi lo = bits cur.toNat hi lo
  · rw [if_pos heq, heq]
  · simp [heq, h]

/-- Whatever a write of a field is, it reports at most a refusal. -/
theorem ctlField_moves {off hi lo : Nat} {locked : Bool} {legal : Nat → Bool} {cur v : W32} {s : State} {a : State × Nat}
    (h : Moves [.refused] s a.1) : Moves [.refused] s (ctlField off locked legal cur v hi lo a).1 := by
  unfold ctlField
  dsimp only
  split
  · exact h
  · split
    · exact refuseField_moves h rfl
    · split
      · exact refuseField_moves h rfl
      · exact h

/-- What a field adds to the register stays within its bits. -/
theorem ctlField_bits {off hi lo : Nat} {locked : Bool} {legal : Nat → Bool} {cur v : W32} {a : State × Nat} :
    ∃ x < 2 ^ (hi + 1 - lo), (ctlField off locked legal cur v hi lo a).2 = a.2 + x * 2 ^ lo := by
  unfold ctlField
  dsimp only
  split
  · exact ⟨_, bits_lt _ _ _, rfl⟩
  · split
    · exact ⟨_, bits_lt _ _ _, rfl⟩
    · split
      · exact ⟨_, bits_lt _ _ _, rfl⟩
      · exact ⟨_, bits_lt _ _ _, rfl⟩

theorem b2n_bit (n i : Nat) : b2n (bit n i) = n / 2 ^ i % 2 := by
  have h := Nat.mod_two_eq_zero_or_one (n / 2 ^ i)
  rcases h with h | h <;> simp [b2n, bit, h]

/-! ### The value written to a ring's CTL -/

/-- The CTL of a command ring after a write of all its fields (13 Table 13.4). -/
def cmdCtl (v : W32) : W32 :=
  BitVec.ofNat 32 (0 + bits v.toNat 4 0 * 2 ^ 0 + bits v.toNat 28 21 * 2 ^ 21 + bits v.toNat 29 29 * 2 ^ 29 +
    bits v.toNat 30 30 * 2 ^ 30 + b2n (bit v.toNat 31) * 2 ^ 31)

/-- The CTL of a completion or event ring after a write of all its fields (13 Table 13.5). -/
def cplCtl (v : W32) : W32 :=
  BitVec.ofNat 32 (0 + bits v.toNat 4 0 * 2 ^ 0 + bits v.toNat 15 5 * 2 ^ 5 + bits v.toNat 23 16 * 2 ^ 16 +
    bits v.toNat 24 24 * 2 ^ 24 + bits v.toNat 30 25 * 2 ^ 25 + b2n (bit v.toNat 31) * 2 ^ 31)

theorem cmdCtl_fields (v : W32) : ringEn (cmdCtl v) = ringEn v ∧ ringLog (cmdCtl v) = ringLog v ∧
    bits (cmdCtl v).toNat 31 21 = bits v.toNat 31 21 := by
  have hlt := v.isLt
  have hval : (cmdCtl v).toNat = v.toNat % 32 + v.toNat / 2 ^ 21 * 2 ^ 21 := by
    have h29 : v.toNat / 2 ^ 21 / 2 ^ 8 = v.toNat / 2 ^ 29 := Nat.div_div_eq_div_mul ..
    have h30 : v.toNat / 2 ^ 29 / 2 = v.toNat / 2 ^ 30 := Nat.div_div_eq_div_mul ..
    have h31 : v.toNat / 2 ^ 30 / 2 = v.toNat / 2 ^ 31 := Nat.div_div_eq_div_mul ..
    rw [cmdCtl, BitVec.toNat_ofNat, b2n_bit]
    simp only [bits]
    omega
  simp only [ringEn, ringLog, bits, bit, hval]
  refine ⟨?_, by omega, by omega⟩
  congr 1
  omega

theorem cplCtl_fields (v : W32) : ringEn (cplCtl v) = ringEn v ∧ ringLog (cplCtl v) = ringLog v ∧
    bits (cplCtl v).toNat 31 5 = bits v.toNat 31 5 := by
  have hlt := v.isLt
  have hval : (cplCtl v).toNat = v.toNat := by
    rw [cplCtl, BitVec.toNat_ofNat, b2n_bit]
    simp only [bits]
    omega
  simp only [ringEn, ringLog, hval, and_self]

/-! ### A ring enabled -/

section Enabled

variable {s : State} {org : RegOrigin} {n off : Nat} {v : W32}

/-- A command ring as its first write of EN leaves it. -/
def cmdStarted (r : CmdRing) (v : W32) : CmdRing := { r with ctl := cmdCtl v, ci := 0, pi := 0, slots := [], halted := false }

theorem logLegal_bits (h6 : 6 ≤ ringLog v) (h16 : ringLog v ≤ 16) : logLegal (bits v.toNat 4 0) = true := by
  have hbits : bits v.toNat 4 0 = ringLog v := by simp [bits, ringLog]
  simp [logLegal, hbits, h6, h16]

theorem writeCmdCtl_enable (hoff : ringEn (cmdRing s n).ctl = false) (hen : ringEn v = true) (h6 : 6 ≤ ringLog v) (h16 : ringLog v ≤ 16) :
    writeCmdCtl s org off n v = takeLine
      (setCmdRing (recordReg s org off (cmdRing s n).ctl.toNat (cmdCtl v).toNat) n (cmdStarted (cmdRing s n) v)) 0 n := by
  have hnew : ringEn (cmdCtl v) = true := (cmdCtl_fields v).1.trans hen
  have hne : cmdCtl v ≠ (cmdRing s n).ctl := fun h => by simp [← h, hnew] at hoff
  have hctl : BitVec.ofNat 32 (0 + bits v.toNat 4 0 * 2 ^ 0 + bits v.toNat 28 21 * 2 ^ 21 + bits v.toNat 29 29 * 2 ^ 29 +
      bits v.toNat 30 30 * 2 ^ 30 + b2n (bit v.toNat 31) * 2 ^ 31) = cmdCtl v := rfl
  unfold writeCmdCtl
  simp only [hoff, ctlField_taken (logLegal_bits h6 h16), ctlField_taken (legal := anyVal) rfl, hctl, if_neg hne, hnew]
  rfl

theorem writeCplCtl_enable (hoff : ringEn (cplRing s n).ctl = false) (hen : ringEn v = true) (h6 : 6 ≤ ringLog v) (h16 : ringLog v ≤ 16) :
    writeCplCtl s org off n v = takeLine
      (setCplRing (recordReg s org off (cplRing s n).ctl.toNat (cplCtl v).toNat) n (freshOut (cplRing s n) (cplCtl v))) 1 n := by
  have hnew : ringEn (cplCtl v) = true := (cplCtl_fields v).1.trans hen
  have hne : cplCtl v ≠ (cplRing s n).ctl := fun h => by simp [← h, hnew] at hoff
  have hctl : outCtl s off (cplRing s n) v = (s, cplCtl v) := by
    unfold outCtl
    simp only [hoff, ctlField_taken (logLegal_bits h6 h16), ctlField_taken (legal := anyVal) rfl]
    rfl
  unfold writeCplCtl
  simp only [hctl, if_neg hne, hoff, hnew]
  rfl

theorem takeLine_rings (s : State) (kind ring : Nat) : (takeLine s kind ring).host.cmd = s.host.cmd ∧
    (takeLine s kind ring).host.cpl = s.host.cpl := by
  unfold takeLine
  split <;> exact ⟨rfl, rfl⟩

theorem isRingCtl_cmd (hn : n < 64) : isRingCtl (0x4010 + 32 * n) = true := by
  simp only [isRingCtl, Bool.or_eq_true, Bool.and_eq_true, decide_eq_true_eq, beq_iff_eq]
  omega

theorem isRingCtl_cpl (hn : n < 64) : isRingCtl (0x4808 + 32 * n) = true := by
  simp only [isRingCtl, Bool.or_eq_true, Bool.and_eq_true, decide_eq_true_eq, beq_iff_eq]
  omega

theorem exec_ringEnable (hoff : off < 2 ^ 20) (halign : off % 4 = 0) (hctl : isRingCtl off = true) (hrun : s.boot.phase = .run)
    (hroom : ledgerRoom s = true) (hen : ringEn v = true) :
    exec (.ringEnable org (BitVec.ofNat 20 off) v) s = .next (measured org (writeHalf s org false off v)) := by
  have hnat : (BitVec.ofNat 20 off).toNat = off := by rw [BitVec.toNat_ofNat, Nat.mod_eq_of_lt hoff]
  have hen' : bit v.toNat 31 = true := hen
  have hexec : exec (.ringEnable org (BitVec.ofNat 20 off) v) s = execRingEnable org (BitVec.ofNat 20 off) v s := rfl
  rw [hexec, execRingEnable, hnat, hctl, hen']
  exact congrArg _ (regWrite_word v hrun hroom halign)

theorem writeHalf_cmdCtl (hn : n < 64) : writeHalf s org false (0x4010 + 32 * n) v = writeCmdCtl s org (0x4010 + 32 * n) n v := by
  have hring : (0x4010 + 32 * n - 0x4000) / 32 = n := by omega
  have hword : (0x4010 + 32 * n) % 32 = 16 := by omega
  unfold writeHalf
  rw [if_neg (by omega), if_neg (by omega), if_neg (by omega), if_neg (by omega), if_pos (by omega)]
  simp [writeCmdRing, hring, hword]

theorem writeHalf_cplCtl (hn : n < 64) : writeHalf s org false (0x4808 + 32 * n) v = writeCplCtl s org (0x4808 + 32 * n) n v := by
  have hring : (0x4808 + 32 * n - 0x4800) / 32 = n := by omega
  have hword : (0x4808 + 32 * n) % 32 = 8 := by omega
  unfold writeHalf
  rw [if_neg (by omega), if_neg (by omega), if_neg (by omega), if_neg (by omega), if_neg (by omega), if_pos (by omega)]
  simp [writeCplRing, hring, hword]

theorem cmdStarted_ctl (r : CmdRing) (v : W32) : (cmdStarted r v).ctl = cmdCtl v := rfl

theorem cmdStarted_base (r : CmdRing) (v : W32) : (cmdStarted r v).base = r.base := by
  cases r
  rfl

theorem freshOut_ctl (r : OutRing) (ctl : W32) : (freshOut r ctl).ctl = ctl := rfl

/-- A state that differs in bring-up only has the same rings. -/
theorem measured_rings (org : RegOrigin) (s : State) (n : Nat) : cmdRing (measured org s) n = cmdRing s n ∧
    cplRing (measured org s) n = cplRing s n := by
  cases org <;> exact ⟨rfl, rfl⟩

theorem leads_ringEnable_cmd (hn : n < 64) (hrun : s.boot.phase = .run) (hroom : ledgerRoom s = true) (hen : ringEn v = true)
    (h6 : 6 ≤ ringLog v) (h16 : ringLog v ≤ 16) (hoff : ringEn (cmdRing s n).ctl = false) :
    leads (.ringEnable org (BitVec.ofNat 20 (0x4010 + 32 * n)) v) s fun t => onlyChanges [.boot, .host, .ledger] s t ∧
      cmdRing t n = cmdStarted (cmdRing s n) v := by
  refine ⟨_, exec_ringEnable (by omega) (by omega) (isRingCtl_cmd hn) hrun hroom hen, ?_, ?_⟩
  · rw [writeHalf_cmdCtl hn, writeCmdCtl_enable hoff hen h6 h16]
    exact (measured_moves (takeLine_moves (setCmdRing_moves (recordReg_moves (Moves.refl _ s) rfl) rfl) rfl) rfl).only
  · have hne : cmdStarted (cmdRing s n) v ≠ {} := ne_of_ringEn (r := cmdStarted _ v) ((cmdCtl_fields v).1.trans hen)
    have hline (u : State) : cmdRing (takeLine u 0 n) n = cmdRing u n := by rw [cmdRing, (takeLine_rings u 0 n).1, cmdRing]
    rw [(measured_rings _ _ _).1, writeHalf_cmdCtl hn, writeCmdCtl_enable hoff hen h6 h16, hline, cmdRing_setCmdRing hne]

theorem leads_ringEnable_cpl (hn : n < 64) (hrun : s.boot.phase = .run) (hroom : ledgerRoom s = true) (hen : ringEn v = true)
    (h6 : 6 ≤ ringLog v) (h16 : ringLog v ≤ 16) (hoff : ringEn (cplRing s n).ctl = false) :
    leads (.ringEnable org (BitVec.ofNat 20 (0x4808 + 32 * n)) v) s fun t => onlyChanges [.boot, .host, .ledger] s t ∧
      cplRing t n = freshOut (cplRing s n) (cplCtl v) := by
  refine ⟨_, exec_ringEnable (by omega) (by omega) (isRingCtl_cpl hn) hrun hroom hen, ?_, ?_⟩
  · rw [writeHalf_cplCtl hn, writeCplCtl_enable hoff hen h6 h16]
    exact (measured_moves (takeLine_moves (setCplRing_moves (recordReg_moves (Moves.refl _ s) rfl) rfl) rfl) rfl).only
  · have hline (u : State) : cplRing (takeLine u 1 n) n = cplRing u n := by rw [cplRing, (takeLine_rings u 1 n).2, cplRing]
    rw [(measured_rings _ _ _).2, writeHalf_cplCtl hn, writeCplCtl_enable hoff hen h6 h16, hline,
      cplRing_setCplRing (by rw [freshOut_ctl, (cplCtl_fields v).1, hen])]

end Enabled

/-! ### A watch entry disabled (13 R364) -/

section Unwatched

variable {s : State} {org : RegOrigin} {k : Nat} {v : W32}

/-- What the fields of WATCH_k_CTL other than EN come to: at most a refusal, and a value below bit 31. -/
theorem watchFields {off : Nat} {locked : Bool} {legal legal' : Nat → Bool} {cur : W32} {a : State × Nat}
    (ha : ctlField off locked legal' cur v 30 29 (ctlField off locked legal cur v 28 23 (s, 0)) = a) :
    Moves [.refused] s a.1 ∧ a.2 < 2 ^ 31 := by
  obtain ⟨y, hy, hfirst⟩ := ctlField_bits (off := off) (hi := 28) (lo := 23) (locked := locked) (legal := legal) (cur := cur) (v := v)
    (a := (s, 0))
  obtain ⟨z, hz, hboth⟩ := ctlField_bits (off := off) (hi := 30) (lo := 29) (locked := locked) (legal := legal') (cur := cur) (v := v)
    (a := ctlField off locked legal cur v 28 23 (s, 0))
  rw [ha, hfirst] at hboth
  refine ⟨ha ▸ ctlField_moves (ctlField_moves (Moves.refl _ s)), ?_⟩
  omega

/-- A write of EN = 0 to an enabled entry whose ring is off: refused fields are reported, and the line is dropped. -/
theorem writeWatchCtl_disable {off : Nat} (hv : bit v.toNat 31 = false) (hen : bit (watchAt s k).ctl.toNat 31 = true)
    (hring : watchRingEn s (watchAt s k).ctl = false) : ∃ u new, Moves [.refused] s u ∧ bit new.toNat 31 = false ∧
      writeWatchCtl s org off k v =
        dropLine (setWatch (recordReg u org off (watchAt s k).ctl.toNat new.toNat) k { watchAt s k with ctl := new }) k := by
  have hlocked : watchLocked s (watchAt s k) = false := by simp [watchLocked, hring]
  unfold writeWatchCtl
  simp only [hlocked, hv, hen]
  generalize ha : ctlField off false (fun n => n != 3) (watchAt s k).ctl v 30 29 _ = a
  obtain ⟨hmoves, hx⟩ := watchFields ha
  have hnew : bit (BitVec.ofNat 32 a.2).toNat 31 = false := by
    rw [BitVec.toNat_ofNat, bit]
    simp only [beq_eq_false_iff_ne]
    omega
  have hne : BitVec.ofNat 32 a.2 ≠ (watchAt s k).ctl := fun h => by simp [h, hen] at hnew
  refine ⟨a.1, _, hmoves, hnew, ?_⟩
  simp [b2n, hne]

theorem writeHalf_watchCtl (hk : k < 1024) : writeHalf s org false (0x8008 + 16 * k) v = writeWatchCtl s org (0x8008 + 16 * k) k v := by
  have hentry : (0x8008 + 16 * k - 0x8000) / 16 = k := by omega
  have hword : (0x8008 + 16 * k) % 16 = 8 := by omega
  unfold writeHalf
  rw [if_neg (by omega), if_neg (by omega), if_neg (by omega), if_neg (by omega), if_neg (by omega), if_neg (by omega), if_neg (by omega),
    if_pos (by omega)]
  simp [writeWatch, hentry, hword]

theorem exec_watchDisable {k : BitVec 10} (hv : bit v.toNat 31 = false) (hrun : s.boot.phase = .run) (hroom : ledgerRoom s = true) :
    exec (.watchDisable org k v) s = .next (measured org (writeWatchCtl s org (0x8008 + 16 * k.toNat) k.toNat v)) := by
  have hexec : exec (.watchDisable org k v) s = execWatchDisable org k v s := rfl
  rw [hexec, execWatchDisable, hv, ← writeHalf_watchCtl k.isLt]
  exact congrArg _ (regWrite_word v hrun hroom (by omega))

theorem watchAt_setWatch_canon (w : Watch) (h : canon {} s.host.watch = true) : watchAt (setWatch s k w) k = w := sget_sput_same h

theorem dropLine_watch (h : canon {} s.host.watch = true) : watchAt (dropLine s k) k =
    { watchAt s k with held := false, reading := false, again := false, retries := 0 } := by
  unfold dropLine
  dsimp only
  split
  · exact watchAt_setWatch_canon _ h
  · exact watchAt_setWatch_canon _ h

theorem dropLine_evicted (s : State) (k : Nat) : (dropLine s k).host.evicted = s.host.evicted ++
    if (watchAt s k).held then [(watchAt s k).addr.extractLsb' 6 58] else [] := by
  unfold dropLine
  dsimp only
  split
  · rfl
  · exact (List.append_nil _).symm

theorem leads_watchDisable {k : BitVec 10} (hmaps : mapsCanonical s) (hrun : s.boot.phase = .run) (hroom : ledgerRoom s = true)
    (hv : bit v.toNat 31 = false) (hen : bit (watchAt s k.toNat).ctl.toNat 31 = true)
    (hring : watchRingEn s (watchAt s k.toNat).ctl = false) :
    leads (.watchDisable org k v) s fun t => onlyChanges [.boot, .host, .refused, .ledger] s t ∧
      bit (watchAt t k.toNat).ctl.toNat 31 = false ∧ (watchAt t k.toNat).held = false ∧
      t.host.evicted = s.host.evicted ++
        if (watchAt s k.toNat).held then [(watchAt s k.toNat).addr.extractLsb' 6 58] else [] := by
  obtain ⟨-, -, -, ⟨-, -, -, hwatch⟩, -, -⟩ := hmaps
  obtain ⟨u, new, hmoves, hnew, hwrite⟩ := writeWatchCtl_disable (org := org) (off := 0x8008 + 16 * k.toNat) hv hen hring
  refine ⟨_, exec_watchDisable hv hrun hroom, ?_⟩
  rw [hwrite]
  generalize hset : setWatch _ k.toNat { watchAt s k.toNat with ctl := new } = x
  have hhost : x.host = { s.host with watch := sput {} s.host.watch k.toNat { watchAt s k.toNat with ctl := new } } := by
    rw [← hset, setWatch, recordReg_host, hmoves.only .host (by decide)]
  have hcanon : canon {} x.host.watch = true := by
    rw [hhost]
    exact canon_sput hwatch
  have hx : watchAt x k.toNat = { watchAt s k.toNat with ctl := new } := by
    rw [watchAt, hhost]
    exact sget_sput_same hwatch
  have hmeasured : (measured org (dropLine x k.toNat)).host = (dropLine x k.toNat).host := by cases org <;> rfl
  refine ⟨?_, ?_, ?_, ?_⟩
  · have hs : Moves [.boot, .host, .refused, .ledger] s u := (Moves.refl _ s).trans hmoves rfl
    have hsx : Moves [.boot, .host, .refused, .ledger] s x := hset ▸ setWatch_moves (recordReg_moves hs rfl) rfl
    exact (measured_moves (dropLine_moves hsx rfl) rfl).only
  · rw [watchAt, hmeasured, ← watchAt, dropLine_watch hcanon, hx]
    exact hnew
  · rw [watchAt, hmeasured, ← watchAt, dropLine_watch hcanon]
  · rw [hmeasured, dropLine_evicted, hx, hhost]

end Unwatched

end Sys2Proof.Proofs

/-! PROOFS. Cause bits and latches cleared (O19; 12 R342, R350; 14 R398). -/

namespace Sys2Proof.Proofs

open Sys2Proof.Machine Sys2Proof.Safety Sys2Proof.Laws

/-! ### Writes to status registers -/

section Status

variable {s : State} {org : RegOrigin} {v : W32}

/-- Status registers lie in two ranges, word by word. -/
theorem statusReg_range {off : Nat} {x : Nat × Nat} (h : statusReg off = some x) :
    off % 4 = 0 ∧ ((0x900 ≤ off ∧ off < 0xB00) ∨ (0x1000 ≤ off ∧ off < 0x1800)) := by
  unfold statusReg at h
  dsimp only at h
  by_cases halign : off % 4 ≠ 0
  · simp [halign] at h
  · refine ⟨not_not.1 halign, ?_⟩
    by_contra hout
    rw [if_neg halign, if_neg (by omega), if_neg (by omega), if_neg (by omega), if_neg (by omega), if_neg (by omega), if_neg (by omega),
      if_neg (by omega), if_neg (by omega)] at h
    exact absurd h nofun

theorem writeHalf_status {off src r : Nat} (h : statusReg off = some (src, r)) (hblock : blockPresent s src = true) :
    writeHalf s org false off v = (if r = 0 then writeStatus s src v
      else if r = 1 then
        let en := (v &&& 0xFC000000) ||| (v &&& BitVec.ofNat 32 (causeMask src))
        if en = (statAt s src).enable then s else writeEnable (recordReg s org off (statAt s src).enable.toNat en.toNat) src en
      else if r = 3 then setStat s src { statAt s src with tiles := (statAt s src).tiles &&& ~~~(v.setWidth 64) }
      else if r = 4 then setStat s src { statAt s src with tiles := (statAt s src).tiles &&& ~~~(v.setWidth 64 <<< 32) }
      else s) := by
  obtain ⟨-, hrange⟩ := statusReg_range h
  unfold writeHalf
  rw [if_neg (by omega), if_neg (by omega), if_neg (by omega), if_neg (by omega), if_neg (by omega), if_neg (by omega), if_neg (by omega),
    if_neg (by omega), if_neg (by omega), if_neg (by omega), if_neg (by omega), h]
  simp only [hblock]
  rfl

theorem exec_statusClear {off : BitVec 20} {src r : Nat} (h : statusReg off.toNat = some (src, r)) (hr : r = 0 ∨ r = 3)
    (hrun : s.boot.phase = .run) (hroom : ledgerRoom s = true) :
    exec (.statusClear org off v) s = .next (measured org (writeHalf s org false off.toNat v)) := by
  have hexec : exec (.statusClear org off v) s = execStatusClear org off v s := rfl
  have hwrite := regWrite_word (org := org) v hrun hroom (statusReg_range h).1
  rw [hexec, execStatusClear, h]
  rcases hr with rfl | rfl <;> exact congrArg _ hwrite

theorem statAt_setStat (src : Nat) (x : Stat) (h : canon {} s.stats = true) : statAt (setStat s src x) src = x := sget_sput_same h

theorem leads_statusClear {off : BitVec 20} {src : Nat} (hmaps : mapsCanonical s) (h : statusReg off.toNat = some (src, 0))
    (hblock : blockPresent s src = true) (hrun : s.boot.phase = .run) (hroom : ledgerRoom s = true) :
    leads (.statusClear org off v) s (fun t => onlyChanges [.boot, .stats] s t ∧ statAt t src =
      { statAt s src with clearing := some (s.now, (((statAt s src).clearing.map (·.2)).getD 0) ||| v) }) := by
  obtain ⟨-, -, hstats, -⟩ := hmaps
  have hwrite : writeHalf s org false off.toNat v = writeStatus s src v := writeHalf_status h hblock
  refine ⟨_, exec_statusClear h (.inl rfl) hrun hroom, ?_, ?_⟩
  · rw [hwrite]
    exact (measured_moves (writeStatus_moves (Moves.refl _ s) rfl) rfl).only
  · have hmeasured : statAt (measured org (writeStatus s src v)) src = statAt (writeStatus s src v) src := by cases org <;> rfl
    rw [hwrite, hmeasured]
    exact statAt_setStat src _ hstats

theorem leads_tilesClear {off : BitVec 20} {src : Nat} (hmaps : mapsCanonical s) (h : statusReg off.toNat = some (src, 3))
    (hblock : blockPresent s src = true) (hrun : s.boot.phase = .run) (hroom : ledgerRoom s = true) :
    leads (.statusClear org off v) s (fun t => onlyChanges [.boot, .stats] s t ∧
      (statAt t src).tiles = (statAt s src).tiles &&& ~~~(v.setWidth 64)) := by
  obtain ⟨-, -, hstats, -⟩ := hmaps
  have hwrite := writeHalf_status (org := org) (v := v) h hblock
  refine ⟨_, exec_statusClear h (.inr rfl) hrun hroom, ?_, ?_⟩
  · rw [hwrite]
    exact (measured_moves (setStat_moves (Moves.refl _ s) rfl) rfl).only
  · have hmeasured (u : State) : statAt (measured org u) src = statAt u src := by cases org <;> rfl
    rw [hwrite, hmeasured]
    exact congrArg Stat.tiles (statAt_setStat src _ hstats)

end Status

/-! ### What one event does to a cause bit -/

section CauseBits

variable {s : State} {src b : Nat}

theorem bit_or_twoPow_iff {w : Nat} (x : BitVec w) {i j : Nat} (hj : j < w) :
    bit (x ||| BitVec.ofNat w (2 ^ j)).toNat i = (bit x.toNat i || decide (i = j)) := by
  have htwo : 2 ^ j < 2 ^ w := Nat.pow_lt_pow_right (by decide) hj
  rw [bit_eq_testBit, bit_eq_testBit, BitVec.toNat_or, Nat.testBit_or, BitVec.toNat_ofNat, Nat.mod_eq_of_lt htwo, Nat.testBit_two_pow]
  simp [eq_comm]

theorem raiseVector_stats (s : State) (n : Nat) : (raiseVector s n).stats = s.stats := rfl

theorem setBit_status (s : State) (src b unit : Nat) (hb : b < 32) :
    (statAt (setBit s src b unit) src).status = (statAt s src).status ||| BitVec.ofNat 32 (2 ^ b) := by
  have hset (x : Stat) (hx : x.status = (statAt s src).status ||| BitVec.ofNat 32 (2 ^ b)) :
      (statAt (setStat s src x) src).status = (statAt s src).status ||| BitVec.ofNat 32 (2 ^ b) := by
    have hne : x ≠ {} := fun he => by
      have hbit : bit x.status.toNat b = true := hx ▸ bit_or_twoPow _ hb
      simp [he, bit] at hbit
    have hsame : statAt (setStat s src x) src = x := sget_sput_ne hne
    rw [hsame, hx]
  unfold setBit
  dsimp only
  split
  · rw [statAt, raiseVector_stats, ← statAt, hset _ rfl]
  · exact hset _ rfl

theorem setBit_other (s : State) {src src' : Nat} (b unit : Nat) (h : src ≠ src') : statAt (setBit s src' b unit) src = statAt s src := by
  have hset (x : Stat) : statAt (setStat s src' x) src = statAt s src := sget_sput_other h
  unfold setBit
  dsimp only
  split
  · rw [statAt, raiseVector_stats, ← statAt, hset]
  · exact hset _

theorem bit_setBit (s : State) {b b' : Nat} (src src' unit : Nat) (hb' : b' < 32) :
    bit (statAt (setBit s src' b' unit) src).status.toNat b =
      (bit (statAt s src).status.toNat b || (decide (src = src') && decide (b = b'))) := by
  by_cases hsrc : src = src'
  · subst hsrc
    rw [setBit_status s src b' unit hb', bit_or_twoPow_iff _ hb']
    simp
  · rw [setBit_other s b' unit hsrc]
    simp [hsrc]

theorem postEventRaw_stats (s : State) (src code job unit d0 d1 : Nat) (more : Option (Nat × Nat × Nat)) :
    (postEventRaw s src code job unit d0 d1 more).1.stats = s.stats :=
  (postEventRaw_moves (Moves.refl [.host, .fresh] s) rfl).only .stats (by decide)

/-- An event sets no cause bit but that of an overflow of its ring. -/
theorem bit_postEvent (s : State) (src' code job unit d0 d1 : Nat) (more : Option (Nat × Nat × Nat))
    (hother : src ≠ srcHost ∨ b ≠ hbOverflow) :
    bit (statAt (postEvent s src' code job unit d0 d1 more) src).status.toNat b = bit (statAt s src).status.toNat b := by
  have hraw := postEventRaw_stats s src' code job unit d0 d1 more
  unfold postEvent
  split
  next t full heq =>
    rw [heq] at hraw
    have ht : statAt t src = statAt s src := by rw [statAt, hraw, statAt]
    split
    · have hne : (decide (src = srcHost) && decide (b = hbOverflow)) = false := by
        rcases hother with h | h <;> simp [h]
      rw [ringOverflow, statAt, postEventRaw_stats, ← statAt, bit_setBit t src srcHost _ (by decide), ht, hne, Bool.or_false]
    · rw [ht]

theorem bit_setCause (s : State) (src' unit : Nat) {b' job d0 d1 : Nat} {more : Option (Nat × Nat × Nat)} (hb' : b' < 32)
    (hother : src ≠ srcHost ∨ b ≠ hbOverflow) :
    bit (statAt (setCause s src' b' unit job d0 d1 more) src).status.toNat b =
      (bit (statAt s src).status.toNat b || (decide (src = src') && decide (b = b'))) := by
  rw [setCause, bit_postEvent _ _ _ _ _ _ _ _ hother, bit_setBit s src src' unit hb']

end CauseBits

/-! ### Bits that clear (12 R342) -/

section Cleared

variable {s : State} {src : Nat}

/-- The condition of a state cause does not depend on events and cause bits. -/
theorem EventStep.stateUnit {t : State} (h : EventStep s t) (src b : Nat) : stateUnit t src b = stateUnit s src b := by
  unfold Machine.stateUnit throttled
  rw [h.ports, h.tiles, h.tick, h.tandem, h.ledger, h.cxlUp, h.now, h.hbm, h.boot]

theorem setAgain_eventStep (s : State) (src b : Nat) : EventStep s (setAgain s src b) := by
  unfold setAgain
  split
  · exact .refl s
  · split
    · exact (setBit_eventStep _ _ _ _).trans (postEvent_eventStep _ _ _ _ _ _ _ _)
    · split
      · exact setCause_eventStep ..
      · exact setCause_eventStep ..

/-- A state cause set once more sets its bit while its condition holds. -/
theorem bit_setAgain {b b' : Nat} (hb' : b' < 32) (hother : src ≠ srcHost ∨ b ≠ hbOverflow) :
    bit (statAt (setAgain s src b') src).status.toNat b =
      (bit (statAt s src).status.toNat b || (decide (b = b') && stateCause s src b')) := by
  unfold setAgain
  split
  next hnone => simp [stateCause, hnone]
  next u hsome =>
    have hcause : stateCause s src b' = true := by simp [stateCause, hsome]
    rw [hcause, Bool.and_true]
    split
    · rw [bit_postEvent _ _ _ _ _ _ _ _ hother, bit_setBit s src src _ hb']
      simp
    · split
      · rw [bit_setCause _ _ _ hb' hother]
        simp
      · rw [bit_setCause _ _ _ hb' hother]
        simp

theorem bit_foldl_setAgain {b : Nat} (hother : src ≠ srcHost ∨ b ≠ hbOverflow) (l : List Nat) (hl : ∀ x ∈ l, x < 32)
    (s : State) : bit (statAt (l.foldl (fun s x => setAgain s src x) s) src).status.toNat b =
      (bit (statAt s src).status.toNat b || (decide (b ∈ l) && stateCause s src b)) := by
  induction l generalizing s with
  | nil => simp
  | cons x l ih =>
    have hcause : stateCause (setAgain s src x) src b = stateCause s src b := by
      rw [stateCause, (setAgain_eventStep s src x).stateUnit, stateCause]
    rw [List.foldl_cons, ih (fun y hy => hl y (List.mem_cons_of_mem _ hy)), bit_setAgain (hl x List.mem_cons_self) hother, hcause]
    by_cases hx : b = x
    · subst hx
      cases bit (statAt s src).status.toNat b <;> cases stateCause s src b <;> simp
    · simp [hx]

/-- The bits written clear; a state cause whose condition holds keeps its own (12 R342). -/
theorem bit_clearStatus {b : Nat} {v : W32} (hstats : canon {} s.stats = true) (hb : b < 26) (hother : src ≠ srcHost ∨ b ≠ hbOverflow) :
    bit (statAt (clearStatus s src v) src).status.toNat b =
      (bit (statAt s src).status.toNat b && (!(bit v.toNat b && bit (causeMask src) b) || stateCause s src b)) := by
  have hmask : causeMask src < 2 ^ 32 := by
    unfold causeMask
    split_ifs <;> decide
  have hand (x y : W32) : bit (x &&& y).toNat b = (bit x.toNat b && bit y.toNat b) := by
    simp only [bit_eq_testBit, BitVec.toNat_and, Nat.testBit_and]
  have hnot (x : W32) : bit (~~~x).toNat b = !bit x.toNat b := by
    simp only [bit_eq_testBit, BitVec.testBit_toNat, BitVec.getLsbD_not]
    simp
    omega
  have hhit : bit (BitVec.ofNat 32 (causeMask src)).toNat b = bit (causeMask src) b := by
    rw [BitVec.toNat_ofNat, Nat.mod_eq_of_lt hmask]
  unfold clearStatus
  dsimp only
  generalize hcleared : setStat s src _ = t
  have ht : (statAt t src).status = (statAt s src).status &&& ~~~(v &&& BitVec.ofNat 32 (causeMask src)) := by
    rw [← hcleared, statAt_setStat src _ hstats]
  have hunit : stateCause t src b = stateCause s src b := by rw [← hcleared]; rfl
  rw [bit_foldl_setAgain hother _ (fun x hx => by have := List.mem_range.1 (List.mem_filter.1 hx).1; omega), ht, hunit]
  simp only [hand, hnot, hhit, List.mem_filter, List.mem_range, hb, true_and]
  cases bit (statAt s src).status.toNat b <;> cases bit v.toNat b <;> cases bit (causeMask src) b <;> cases stateCause s src b <;> rfl

/-- One status block of those whose written bits are due. -/
def clearEntry (s : State) (e : Nat × Stat) : State := match e.2.clearing with
  | some (c, v) => if c < s.now then clearStatus s e.1 v else s
  | none => s

theorem foldl_clearEntry_idle (m : Sparse Stat) (h : ∀ e ∈ m, e.2.clearing.isSome = false) (s : State) : m.foldl clearEntry s = s := by
  induction m with
  | nil => rfl
  | cons e m ih =>
    have hnone : e.2.clearing = none := by simpa using h e List.mem_cons_self
    have hentry : clearEntry s e = s := by rw [clearEntry, hnone]
    rw [List.foldl_cons, hentry]
    exact ih fun x hx => h x (List.mem_cons_of_mem _ hx)

/-- When one block alone has bits to clear, they are all that clears. -/
theorem foldl_clearEntry_single {c : Nat} {v : W32} (m : Sparse Stat) (hrising : rising m = true)
    (hfind : (sget {} m src).clearing = some (c, v)) (honly : ∀ e ∈ m, e.2.clearing.isSome = true → e.1 = src) (s : State) (hc : c < s.now) :
    m.foldl clearEntry s = clearStatus s src v := by
  induction m with
  | nil => exact absurd hfind nofun
  | cons e m ih =>
    obtain ⟨k, x⟩ := e
    obtain ⟨habove, hrest⟩ := rising_cons.1 hrising
    rw [List.foldl_cons]
    rw [sget] at hfind
    split at hfind
    next hk =>
      subst hk
      have hentry : clearEntry s (k, x) = clearStatus s k v := by
        rw [clearEntry, hfind]
        exact if_pos hc
      rw [hentry]
      refine foldl_clearEntry_idle m (fun y hy => ?_) _
      by_contra hsome
      have hlt : k < y.1 := habove y hy
      exact absurd (honly y (List.mem_cons_of_mem _ hy) (Bool.not_eq_false _ ▸ hsome)) (by omega)
    next hk =>
      have hnone : x.clearing = none := by
        by_contra hsome
        exact hk (honly (k, x) List.mem_cons_self (Option.isSome_iff_ne_none.2 hsome))
      have hentry : clearEntry s (k, x) = s := by rw [clearEntry, hnone]
      rw [hentry]
      exact ih hrest hfind fun y hy => honly y (List.mem_cons_of_mem _ hy)

theorem clearsDue_single {c : Nat} {v : W32} (hmaps : mapsCanonical s) (hclearing : (statAt s src).clearing = some (c, v)) (hc : c < s.now)
    (honly : ∀ e ∈ s.stats, e.2.clearing.isSome = true → e.1 = src) (hkicks : ∀ e ∈ s.ports, e.2.kick.clearing = none) :
    clearsDue s = clearStatus s src v := by
  obtain ⟨-, -, hstats, -⟩ := hmaps
  have hrising : rising s.stats = true := (Bool.and_eq_true _ _ ▸ hstats).1
  have hfold : s.stats.foldl clearEntry s = clearStatus s src v := foldl_clearEntry_single s.stats hrising hclearing honly s hc
  have hports : (clearStatus s src v).ports = s.ports :=
    (clearStatus_moves (Moves.refl [.host, .stats, .fresh] s) rfl).only .ports (by decide)
  have hidle : ((clearStatus s src v).ports.any fun e => e.2.kick.clearing.isSome) = false := by
    rw [hports, List.any_eq_false]
    intro e he
    simp [hkicks e he]
  have hdue : clearsDue s = if (s.stats.foldl clearEntry s).ports.any fun e => e.2.kick.clearing.isSome
      then (List.range 16).foldl clearLatches (s.stats.foldl clearEntry s) else s.stats.foldl clearEntry s := rfl
  rw [hdue, hfold, hidle]
  rfl

end Cleared

/-! ### Kickstand latches (12 R350) -/

section Latches

variable {s : State} {org : RegOrigin} {v : W32}

theorem modKick_ports_canon {p : Nat} {f : Kick → Kick} (h : canon {} s.ports = true) : canon {} (modKick s p f).ports = true :=
  canon_sput h

theorem kick_modKick {p q : Nat} {f : Kick → Kick} (h : canon {} s.ports = true) :
    (portAt (modKick s p f) q).kick = if q = p then f (portAt s p).kick else (portAt s q).kick := by
  rw [modKick, modPort, portAt_setPort s p q _ h]
  split <;> rfl

/-- A latch written with 1 is noted as to be cleared. -/
def latchWritten (now : Nat) (org : RegOrigin) (b : Bool) (k : Kick) : Kick :=
  { k with clearing := if b = true ∧ k.latch = true then some (now, org) else k.clearing }

theorem latchWritten_twice (now : Nat) (org : RegOrigin) (b : Bool) (k : Kick) :
    latchWritten now org b (latchWritten now org b k) = latchWritten now org b k := by
  unfold latchWritten
  by_cases h : b = true ∧ k.latch = true
  · simp only [if_pos h]
  · simp only [if_neg h]

/-- One latch of a write to STAT_KICKnn. -/
def writeLatch (org : RegOrigin) (nn : Nat) (v : W32) (s : State) (j : Nat) : State :=
  if bit v.toNat j && (portAt s (32 * nn + j)).kick.latch then modKick s (32 * nn + j) fun k => { k with clearing := some (s.now, org) } else s

theorem kick_writeLatch {nn j i : Nat} (h : canon {} s.ports = true) : (portAt (writeLatch org nn v s i) (32 * nn + j)).kick =
    if j = i then latchWritten s.now org (bit v.toNat j) (portAt s (32 * nn + j)).kick else (portAt s (32 * nn + j)).kick := by
  unfold writeLatch
  by_cases hj : j = i
  · subst hj
    by_cases hset : bit v.toNat j = true ∧ (portAt s (32 * nn + j)).kick.latch = true
    · simp [hset, kick_modKick h, latchWritten]
    · have hnot : (bit v.toNat j && (portAt s (32 * nn + j)).kick.latch) = false := by
        rw [Bool.and_eq_false_iff]
        by_cases hbit : bit v.toNat j = true
        · exact .inr (by simpa [hbit] using hset)
        · exact .inl (by simpa using hbit)
      simp [hnot, latchWritten, hset]
  · have hne : 32 * nn + j ≠ 32 * nn + i := by omega
    rw [if_neg hj]
    split
    · rw [kick_modKick h, if_neg hne]
    · rfl

theorem writeLatch_keeps {nn i : Nat} (h : canon {} s.ports = true) : canon {} (writeLatch org nn v s i).ports = true ∧
    (writeLatch org nn v s i).now = s.now := by
  unfold writeLatch
  split
  · exact ⟨modKick_ports_canon h, rfl⟩
  · exact ⟨h, rfl⟩

theorem kick_foldl_writeLatch {nn j : Nat} (l : List Nat) (s : State) (h : canon {} s.ports = true) :
    (portAt (l.foldl (writeLatch org nn v) s) (32 * nn + j)).kick =
      if j ∈ l then latchWritten s.now org (bit v.toNat j) (portAt s (32 * nn + j)).kick else (portAt s (32 * nn + j)).kick := by
  induction l generalizing s with
  | nil => rfl
  | cons i l ih =>
    obtain ⟨hcanon, hnow⟩ := writeLatch_keeps (org := org) (nn := nn) (v := v) (i := i) h
    rw [List.foldl_cons, ih _ hcanon, kick_writeLatch h, hnow]
    by_cases hj : j = i
    · simp [hj, latchWritten_twice]
    · simp [hj]

theorem leads_kickLatchClear {nn : BitVec 4} {j : Nat} (hmaps : mapsCanonical s) (hrun : s.boot.phase = .run) (hroom : ledgerRoom s = true)
    (hpg : hasPg s nn.toNat = true) (hj : j < 32) : leads (.kickLatchClear org nn v) s (fun t => onlyChanges [.boot, .ports] s t ∧
      (portAt t (32 * nn.toNat + j)).kick = latchWritten s.now org (bit v.toNat j) (portAt s (32 * nn.toNat + j)).kick) := by
  have hlt := nn.isLt
  have hgroup : (0x840 + 4 * nn.toNat - 0x840) / 4 = nn.toNat := by omega
  have hwrite : writeHalf s org false (0x840 + 4 * nn.toNat) v = (List.range 32).foldl (writeLatch org nn.toNat v) s := by
    unfold writeHalf
    rw [if_neg (by omega), if_neg (by omega), if_pos (by omega), writeKicks, hgroup]
    simp only [hpg, hroom]
    simp only [Bool.not_true, Bool.and_false, Bool.or_self]
    rfl
  have hexec : exec (.kickLatchClear org nn v) s = .next (measured org ((List.range 32).foldl (writeLatch org nn.toNat v) s)) := by
    rw [← hwrite]
    exact congrArg Host.Outcome.next (regWrite_word v hrun hroom (by omega))
  refine ⟨_, hexec, ?_, ?_⟩
  · have hfold : Moves [.boot, .ports] s ((List.range 32).foldl (writeLatch org nn.toNat v) s) :=
      foldl_moves (Moves.refl _ s) fun u j h => by
        unfold writeLatch
        split
        · exact modKick_moves h rfl
        · exact h
    exact (measured_moves hfold rfl).only
  · have hmeasured (u : State) (p : Nat) : portAt (measured org u) p = portAt u p := by cases org <;> rfl
    rw [hmeasured, kick_foldl_writeLatch _ _ hmaps.1, if_pos (List.mem_range.2 hj)]

theorem kickPresent_modKick (p q : Nat) (f : Kick → Kick) : kickPresent (modKick s q f) p = kickPresent s p := rfl

/-- A latch clears unless its cause is present (12 R350). -/
theorem latch_clearKick {p : Nat} (h : canon {} s.ports = true) :
    (portAt (clearKick s p) p).kick.latch = ((portAt s p).kick.latch && (kickPresent s p).isSome) := by
  have hcanon : canon {} (modKick s p fun k => { k with clearing := none }).ports = true := modKick_ports_canon h
  have hlatch : (portAt (modKick s p fun k => { k with clearing := none }) p).kick.latch = (portAt s p).kick.latch := by
    rw [kick_modKick h, if_pos rfl]
  unfold clearKick
  simp only [hlatch, kickPresent_modKick]
  cases hset : (portAt s p).kick.latch with
  | false => simpa [hset] using hlatch
  | true =>
    cases kickPresent s p with
    | none => simp [kick_modKick hcanon]
    | some c => simp [(setCause_eventStep _ _ _ _ _ _ _ _).portAt, kick_modKick hcanon, hlatch, hset]

/-! ### STAT_REFUSED (14 R398) -/

theorem leads_refusedClear (hrun : s.boot.phase = .run) (hroom : ledgerRoom s = true) :
    leads (.refusedClear org v) s fun t => onlyChanges [.boot, .refused] s t ∧ t.refused = s.refused &&&
      if bit v.toNat 31 then 0x3FFFFFFF else if bit v.toNat 30 then 0xBFFFFFFF else 0xFFFFFFFF := by
  refine ⟨_, congrArg Host.Outcome.next (regWrite_word (off := 0x804) v hrun hroom rfl), ?_, ?_⟩
  · exact (measured_moves (upd_refused (Moves.refl _ s) rfl) rfl).only
  · cases org <;> rfl

end Latches

theorem and_allOnes_word (x : W32) : x &&& 0xFFFFFFFF = x := by
  have hones : (0xFFFFFFFF : W32) = BitVec.allOnes 32 := by decide
  rw [hones, BitVec.and_allOnes]

/-- Settles O19: rings and watch entries by their CTL, bits and latches by what clears them. -/
theorem registersEnableAndClear : Obligations.RegistersEnableAndClear := by
  unfold Obligations.RegistersEnableAndClear
  refine ⟨⟨fun s org n v hn hrun hroom hen h6 h16 => ⟨fun hoff => ?cmd, fun hoff => ?cpl⟩,
    fun s org k v hmaps hrun hroom hv hen hring => leads_watchDisable hmaps hrun hroom hv hen hring⟩,
    fun s org v hmaps hrun hroom => ⟨fun off src b hreg hblock hb hother => ⟨leads_statusClear hmaps hreg hblock hrun hroom,
      bit_clearStatus hmaps.2.2.1 hb hother⟩, fun src c => clearsDue_single hmaps,
      fun off src hreg hblock => leads_tilesClear hmaps hreg hblock hrun hroom,
      fun nn j hpg hj => ⟨leads_kickLatchClear hmaps hrun hroom hpg hj, latch_clearKick hmaps.1⟩, fun hv => ?valid, fun hv => ?multi⟩⟩
  case cmd =>
    obtain ⟨t, ht, honly, hcmd⟩ := leads_ringEnable_cmd (org := org) hn hrun hroom hen h6 h16 hoff
    obtain ⟨hctl, hlog, hbits⟩ := cmdCtl_fields v
    refine ⟨t, ht, honly, ?_⟩
    rw [hcmd, cmdStarted_ctl, hctl, hlog, hbits]
    exact ⟨hen, rfl, rfl, rfl, rfl, rfl, rfl, cmdStarted_base _ v⟩
  case cpl =>
    obtain ⟨t, ht, honly, hcpl⟩ := leads_ringEnable_cpl (org := org) hn hrun hroom hen h6 h16 hoff
    obtain ⟨hctl, hlog, hbits⟩ := cplCtl_fields v
    refine ⟨t, ht, honly, ?_⟩
    rw [hcpl, freshOut_ctl, hctl, hlog, hbits]
    exact ⟨hen, rfl, rfl, rfl, rfl⟩
  case valid =>
    have hleads := leads_refusedClear (org := org) (v := v) hrun hroom
    rwa [if_pos hv] at hleads
  case multi =>
    have hleads := leads_refusedClear (org := org) (v := v) hrun hroom
    have hall := and_allOnes_word s.refused
    rw [if_neg (by simp [hv])] at hleads
    split
    next hmulti => rwa [if_pos hmulti] at hleads
    next hmulti => rwa [if_neg hmulti, hall] at hleads

end Sys2Proof.Proofs

/-! PROOFS. Debug halt and resume, and the kickstand test (O20; 12 R351; 14 R405, R407). -/

namespace Sys2Proof.Proofs

open Sys2Proof.Machine Sys2Proof.Safety Sys2Proof.Laws

section Debug

variable {s : State} {org : RegOrigin} {v : W32}

/-- A write of DBG_HALT is recorded whatever it asks for. -/
def haltWritten (s : State) (org : RegOrigin) (v : W32) : State := recordReg s org 0x80000 0 v.toNat

/-- The tills with work on a tile, each with a drain begun. -/
def drainedFor (s : State) (tile : Nat) : List (Nat × Till) := s.tills.map fun e =>
  if placesOn s e.2 e.1 tile then (e.1, { e.2 with drains := e.2.drains ++ [{ c := s.now, kind := .halt, by_ := none }] }) else e

/-- The state of a halt that begins. -/
def haltBegun (s : State) (org : RegOrigin) (v : W32) : State :=
  let t := haltWritten s org v
  let t := { t with tiles := { t.tiles with haltState := 1, haltTile := BitVec.ofNat 12 (bits v.toNat 11 0), haltAt := t.now } }
  let t := { t with boot := { t.boot with debugBits := t.boot.debugBits ||| 2 } }
  { t with tills := drainedFor s (bits v.toNat 11 0) }

theorem writeHalf_halt : writeHalf s org false 0x80000 v = writeHalt s org v := rfl

theorem writeHalf_kickTest : writeHalf s org false 0x80010 v = writeKickTest s org v := rfl

theorem writeHalt_begins (hop : bits v.toNat 31 30 = 1) (hhalt : haltNow s = 0) (htile : bits v.toNat 11 0 < logicalTiles s)
    (hup : tileDown s (bits v.toNat 11 0) = false) : writeHalt s org v = haltBegun s org v := by
  have hcan : ¬(haltNow (haltWritten s org v) ≠ 0 ∨ bits v.toNat 11 0 ≥ logicalTiles (haltWritten s org v) ∨
      tileDown (haltWritten s org v) (bits v.toNat 11 0) = true) := by
    have h1 : haltNow (haltWritten s org v) = haltNow s := rfl
    have h2 : logicalTiles (haltWritten s org v) = logicalTiles s := rfl
    have h3 : tileDown (haltWritten s org v) (bits v.toNat 11 0) = tileDown s (bits v.toNat 11 0) := rfl
    rw [h1, h2, h3, hhalt, hup]
    simp [htile]
  unfold writeHalt
  dsimp only
  rw [if_pos hop]
  exact if_neg hcan

theorem writeHalt_resumes (hop : bits v.toNat 31 30 = 2) (hhalt : haltNow s = 2) : writeHalt s org v =
    { haltWritten s org v with tiles := { s.tiles with haltState := 0, liftedAt := s.now } } := by
  have hhalt' : haltNow (haltWritten s org v) = 2 := hhalt
  unfold writeHalt
  dsimp only
  rw [if_neg (by omega), if_pos hop]
  exact if_pos hhalt'

theorem writeHalt_refused (hop : bits v.toNat 31 30 = 2) (hhalt : haltNow s ≠ 2) :
    writeHalt s org v = refuseField (haltWritten s org v) 0x80000 30 rsDebug := by
  have hhalt' : haltNow (haltWritten s org v) ≠ 2 := hhalt
  unfold writeHalt
  dsimp only
  rw [if_neg (by omega), if_pos hop]
  exact if_neg hhalt'

theorem writeKickTest_taken (hconf : (portAt s (bits v.toNat 8 0)).conf = true) (hen : kickEn s (bits v.toNat 8 0) = true) :
    writeKickTest s org v = modKick (recordReg s org 0x80010 0 v.toNat) (bits v.toNat 8 0) fun k => { k with testAt := some s.now } := by
  have hconf' : (portAt (recordReg s org 0x80010 0 v.toNat) (bits v.toNat 8 0)).conf = true := hconf
  have hen' : kickEn (recordReg s org 0x80010 0 v.toNat) (bits v.toNat 8 0) = true := hen
  unfold writeKickTest
  dsimp only
  rw [hconf', hen']
  rfl

theorem exec_halt (hrun : s.boot.phase = .run) (hroom : ledgerRoom s = true) (hop : bits v.toNat 31 30 = 1) :
    exec (.debugHalt org v) s = .next (measured org (writeHalt s org v)) :=
  congrArg Host.Outcome.next ((if_pos hop).trans (regWrite_word v hrun hroom rfl))

theorem exec_resume (hrun : s.boot.phase = .run) (hroom : ledgerRoom s = true) (hop : bits v.toNat 31 30 = 2) :
    exec (.debugResume org v) s = .next (measured org (writeHalt s org v)) :=
  congrArg Host.Outcome.next ((if_pos hop).trans (regWrite_word v hrun hroom rfl))

theorem exec_kickTest (hrun : s.boot.phase = .run) (hroom : ledgerRoom s = true) :
    exec (.dbgKickTest org v) s = .next (measured org (writeKickTest s org v)) :=
  congrArg Host.Outcome.next (regWrite_word v hrun hroom rfl)

/-- A refusal is on record afterwards. -/
theorem bit_refuseField {off lsb reason : Nat} : bit (refuseField s off lsb reason).refused.toNat 31 = true := by
  unfold refuseField
  split
  next h => exact bit_or_left h
  next h =>
    have hlsb : lsb % 32 * 2 ^ 25 ≤ 31 * 2 ^ 25 := Nat.mul_le_mul_right _ (by omega)
    have hreason : reason % 32 * 2 ^ 20 ≤ 31 * 2 ^ 20 := Nat.mul_le_mul_right _ (by omega)
    rw [BitVec.toNat_ofNat, bit]
    simp only [beq_iff_eq]
    omega

/-- What a measured write leaves of the state that is not bring-up's. -/
theorem measured_same (org : RegOrigin) (t : State) : (measured org t).tiles = t.tiles ∧ (measured org t).tills = t.tills ∧
    (measured org t).refused = t.refused ∧ (measured org t).ports = t.ports := by
  cases org <;> exact ⟨rfl, rfl, rfl, rfl⟩

theorem canon_of_conf {p : Nat} {f : Kick → Kick} (hconf : (portAt s p).conf = true) : portAt (modKick s p f) p =
    { portAt s p with kick := f (portAt s p).kick } :=
  sget_sput_ne fun h => by
    have hoff : (portAt s p).conf = false := congrArg Port.conf h
    exact absurd hconf (by simp [hoff])

end Debug

/-! ### A test that is due (12 R351) -/

section Detected

variable {s : State} {p : Nat}

theorem portAt_countPort (h : canon {} s.ports = true) (word n : Nat) : (portAt (countPort s p word n) p).kick = (portAt s p).kick := by
  rw [countPort, modPort, portAt_setPort s p p _ h, if_pos rfl]

/-- A kickstand as its detection leaves it: latched in this cycle, whatever is pending after it. -/
def kickLatched (now : Nat) (k k' : Kick) : Prop :=
  k' = { k with latch := true, latchAt := now, latchTick := k'.latchTick, pending := k'.pending }

/-- A kickstand that is detected is latched, wherever it goes from there. -/
theorem kickDetect_kick {cause till : Nat} (hcanon : canon {} s.ports = true) (htrip : s.boot.thermtrip = false) :
    kickLatched s.now (portAt s p).kick (portAt (kickDetect s p cause till) p).kick := by
  unfold kickDetect
  simp only [htrip, Bool.false_eq_true, if_false]
  generalize hcaused : setCause (modKick s p _) _ _ _ _ _ _ = t
  have hct : canon {} t.ports = true := by
    rw [← hcaused, (setCause_eventStep _ _ _ _ _ _ _ _).ports]
    exact modKick_ports_canon hcanon
  have hkick : kickLatched s.now (portAt s p).kick (portAt t p).kick := by
    rw [← hcaused, (setCause_eventStep _ _ _ _ _ _ _ _).portAt, kick_modKick hcanon, if_pos rfl]
    exact rfl
  have hpending (f : Kick → List KickPend) :
      kickLatched s.now (portAt s p).kick (portAt (modKick t p fun k => { k with pending := f k }) p).kick := by
    rw [kick_modKick hct, if_pos rfl, hkick]
    exact rfl
  have hcounted (src b unit job word : Nat) :
      (portAt (setCause (countPort t p word 1) src b unit job) p).kick = (portAt t p).kick := by
    rw [(setCause_eventStep _ _ _ _ _ _ _ _).portAt, portAt_countPort hct]
  split
  · rwa [hcounted]
  · split
    · split
      · exact hpending _
      · exact hkick
    · split
      · rwa [(postEvent_eventStep _ _ _ _ _ _ _ _).portAt, portAt_countPort hct]
      · split
        · rwa [hcounted]
        · exact hpending _

/-- It is latched and no test is left. -/
theorem kickDetect_latches {cause till : Nat} (hcanon : canon {} s.ports = true) (htrip : s.boot.thermtrip = false) :
    (portAt (kickDetect s p cause till) p).kick.latch = true ∧
      (portAt (kickDetect s p cause till) p).kick.testAt = (portAt s p).kick.testAt := by
  rw [kickDetect_kick hcanon htrip]
  exact ⟨rfl, rfl⟩

theorem kickTest_due {c : Nat} (htest : (portAt s p).kick.testAt = some c) (hc : c < s.now) :
    kickTest s p = kickDetect (modKick s p fun k => { k with testAt := none }) p 0xF 0 := by
  unfold kickTest
  rw [htest]
  exact if_pos hc

end Detected

/-- Settles O20: a halt, a resume, and a kickstand test with what the cycle after it brings. -/
theorem debugWritesAct : Obligations.DebugWritesAct := by
  unfold Obligations.DebugWritesAct
  refine ⟨fun s org v hrun hroom => ⟨fun hop hhalt htile hup => ?halt, fun hop hhalt => ?resume, fun hop hhalt => ?refused,
    fun hconf hen htrip => ?test⟩, fun s p c hmaps htest hc htrip => ?due⟩
  case halt =>
    obtain ⟨htiles, htills, -⟩ := measured_same org (haltBegun s org v)
    refine ⟨_, (exec_halt hrun hroom hop).trans (by rw [writeHalt_begins hop hhalt htile hup]), ?_, ?_⟩
    · have hmoves : Moves [.boot, .tills, .tiles, .ledger] s (haltBegun s org v) :=
        upd_tills (upd_boot (upd_tiles (recordReg_moves (Moves.refl _ s) rfl) rfl) rfl) rfl
      exact (measured_moves hmoves rfl).only
    · rw [htiles, htills]
      exact ⟨rfl, rfl, rfl, rfl⟩
  case resume =>
    refine ⟨_, (exec_resume hrun hroom hop).trans (by rw [writeHalt_resumes hop hhalt]), ?_, (measured_same org _).1⟩
    exact (measured_moves (upd_tiles (recordReg_moves (Moves.refl _ s) rfl) rfl) rfl).only
  case refused =>
    refine ⟨_, (exec_resume hrun hroom hop).trans (by rw [writeHalt_refused hop hhalt]), ?_, ?_⟩
    · exact (measured_moves (refuseField_moves (recordReg_moves (Moves.refl _ s) rfl) rfl) rfl).only
    · rw [(measured_same org _).2.2.1]
      exact bit_refuseField
  case test =>
    refine ⟨_, (exec_kickTest hrun hroom).trans (by rw [writeKickTest_taken hconf hen]), ?_, ?_⟩
    · exact (measured_moves (modKick_moves (recordReg_moves (Moves.refl _ s) rfl) rfl) rfl).only
    · have hport (t : State) : portAt (measured org t) (bits v.toNat 8 0) = portAt t (bits v.toNat 8 0) := by
        rw [portAt, (measured_same org t).2.2.2, portAt]
      have hconf' : (portAt (recordReg s org 0x80010 0 v.toNat) (bits v.toNat 8 0)).conf = true := hconf
      rw [hport, canon_of_conf hconf']
  case due =>
    obtain ⟨hports, -⟩ := hmaps
    obtain ⟨hlatch, hnone⟩ := kickDetect_latches (s := modKick s p fun k => { k with testAt := none }) (p := p) (cause := 0xF) (till := 0)
      (modKick_ports_canon hports) htrip
    rw [kickTest_due htest hc]
    refine ⟨hlatch, hnone.trans ?_⟩
    rw [kick_modKick hports, if_pos rfl]

end Sys2Proof.Proofs

/-! PROOFS. The change ledger's engines and commands (O22; 15 R430-R434). -/

namespace Sys2Proof.Proofs

open Sys2Proof.Machine Sys2Proof.Safety Sys2Proof.Laws

/-! ### The chain engine (15 R430) -/

section Chain

variable {s : State} {c : Change} {rest : List Change}

/-- The chain engine is free for another entry. -/
def chainDue (s : State) : Bool := match s.ledger.lastAt with
  | none => true
  | some t => decide (s.now ≥ t + Config.ledgerPace)

/-- One entry taken into the chain. -/
def chained (s : State) (c : Change) (rest : List Change) : State :=
  { s with ledger := { s.ledger with
      queue := rest, seq := s.ledger.seq + 1, lastAt := some s.now,
      chain := sha512 (digestBytes s.ledger.chain ++ entryBytes s.ledger.seq c),
      store := sput [] s.ledger.store (s.ledger.seq % Config.ledgerStore) (entryBytes s.ledger.seq c),
      unsealedAt := if c.kind != kindSeal && c.kind != kindSig then some (s.ledger.unsealedAt.getD s.now) else s.ledger.unsealedAt } }

theorem exec_chainEntry (hq : s.ledger.queue = c :: rest) (hrec : s.ledger.recording = true) :
    exec .ledgerChainEntry s = .next (if chainDue s then sealStep (chained s c rest) s.ledger.seq else s) := by
  have hexec : exec .ledgerChainEntry s = execLedgerChainEntry s := rfl
  rw [hexec, execLedgerChainEntry, hq, hrec]
  change Host.Outcome.next (if (!true || !chainDue s) = true then s else sealStep (chained s c rest) s.ledger.seq) = _
  cases chainDue s <;> rfl

theorem chainDue_of_past (h : ∀ u, s.ledger.lastAt = some u → u + 160 ≤ s.now) : chainDue s = true := by
  unfold chainDue
  split
  · rfl
  next t ht => exact decide_eq_true (h t ht)

theorem not_chainDue {u : Nat} (hu : s.ledger.lastAt = some u) (hnow : s.now < u + 160) : chainDue s = false := by
  have hpace : Config.ledgerPace = 160 := rfl
  unfold chainDue
  rw [hu]
  simp [hpace, hnow]

theorem entryBytes_ne_nil (n : Nat) (c : Change) : entryBytes n c ≠ [] := by
  simp [entryBytes]

/-- The signature entries that follow a SEAL entry. -/
def sealSigs (t : State) : List Change := (List.range 16).map (sealSig t (Config.deviceSign t.ledger.chain))

theorem sealStep_begins {t : State} {n : Nat} {tk : BitVec 48} {x : Nat} (h : t.ledger.sealing = some (n, tk, x)) :
    sealStep t n = { t with ledger := { t.ledger with queue := sealSigs t ++ t.ledger.queue } } := by
  unfold sealStep
  rw [h]
  exact if_pos rfl

theorem sealStep_idle {t : State} {n : Nat} (h : ∀ sn tk x, t.ledger.sealing = some (sn, tk, x) → n ≠ sn) : sealStep t n = t := by
  unfold sealStep
  split
  · rfl
  next sn tk x hs => exact if_neg (h sn tk x hs)

/-- Whatever the seal asks for, it adds to the front of the queue alone. -/
theorem sealStep_eq (t : State) (n : Nat) : ∃ l, sealStep t n = { t with ledger := { t.ledger with queue := l } } := by
  unfold sealStep
  split
  · exact ⟨_, rfl⟩
  · split
    · exact ⟨_, rfl⟩
    · exact ⟨_, rfl⟩

theorem bit_andNot {w b : Nat} (x : BitVec w) (hb : b < w) : bit (x &&& ~~~(BitVec.ofNat w (2 ^ b))).toNat b = false := by
  rw [bit_eq_testBit, BitVec.testBit_toNat, BitVec.getLsbD_and, BitVec.getLsbD_not, BitVec.getLsbD_ofNat, Nat.testBit_two_pow_self]
  simp [hb]

/-- The cycle after the last signature entry makes the seal (15 R431). -/
theorem sealCycle_done {t : State} {sn x : Nat} {tk : BitVec 48} (hstats : canon {} t.stats = true)
    (hsealing : t.ledger.sealing = some (sn, tk, x)) (hseq : t.ledger.seq = sn + 17) :
    onlyChanges [.stats, .ledger] t (sealCycle t) ∧ (sealCycle t).ledger.sealSeq = sn + 1 ∧ (sealCycle t).ledger.sealTick = tk ∧
      (sealCycle t).ledger.sealing = none ∧ (sealCycle t).ledger.unsealedAt = none ∧
      bit (statAt (sealCycle t) srcSteward).status.toNat stwSealWait = false := by
  have hnot : ¬t.ledger.seq ≤ sn + 16 := by omega
  refine ⟨(sealCycle_moves (Moves.refl _ t) rfl).only, ?_⟩
  unfold sealCycle
  rw [hsealing]
  dsimp only
  rw [if_neg hnot]
  refine ⟨rfl, rfl, rfl, rfl, ?_⟩
  rw [statAt_setStat srcSteward _ ?canon]
  · exact bit_andNot _ (by decide)
  · exact hstats

theorem leads_chainEntry (hmaps : mapsCanonical s) (hq : s.ledger.queue = c :: rest) (hrec : s.ledger.recording = true)
    (hpast : ∀ u, s.ledger.lastAt = some u → u + 160 ≤ s.now) : leads .ledgerChainEntry s fun t =>
      onlyChanges [.ledger] s t ∧ t.ledger.seq = s.ledger.seq + 1 ∧ t.ledger.lastAt = some s.now ∧
      t.ledger.chain = sha512 (digestBytes s.ledger.chain ++ entryBytes s.ledger.seq c) ∧
      sget [] t.ledger.store (s.ledger.seq % 65536) = entryBytes s.ledger.seq c ∧
      (s.ledger.sealing = none → t.ledger.queue = rest) ∧
      ∀ sn tk x, s.ledger.sealing = some (sn, tk, x) →
        (s.ledger.seq = sn → ∃ sigs, t.ledger.queue = sigs ++ rest ∧ sigs.length = 16 ∧ ∀ e ∈ sigs, e.kind = 0x31) ∧
        (s.ledger.seq = sn + 16 → t.ledger.queue = rest ∧ t.ledger.sealSeq = s.ledger.sealSeq ∧ onlyChanges [.stats, .ledger] t (sealCycle t) ∧
          (sealCycle t).ledger.sealSeq = sn + 1 ∧ (sealCycle t).ledger.sealTick = tk ∧ (sealCycle t).ledger.sealing = none ∧
          (sealCycle t).ledger.unsealedAt = none ∧ bit (statAt (sealCycle t) srcSteward).status.toNat stwSealWait = false) := by
  have hexec := exec_chainEntry hq hrec
  rw [chainDue_of_past hpast] at hexec
  have hsealing : (chained s c rest).ledger.sealing = s.ledger.sealing := rfl
  refine leads_moves hexec execLedgerChainEntry_moves ?_
  obtain ⟨l, hl⟩ := sealStep_eq (chained s c rest) s.ledger.seq
  refine ⟨by rw [if_pos rfl, hl]; rfl, by rw [if_pos rfl, hl]; rfl, by rw [if_pos rfl, hl]; rfl, ?_, fun hnone => ?_,
    fun sn tk x hsome => ⟨fun hseq => ?_, fun hseq => ?_⟩⟩
  · rw [if_pos rfl, hl]
    exact sget_sput_ne (entryBytes_ne_nil _ _)
  · rw [if_pos rfl, sealStep_idle fun sn tk x h => absurd (hsealing.symm.trans h) (by simp [hnone])]
    rfl
  · subst hseq
    rw [if_pos rfl, sealStep_begins (hsealing.trans hsome)]
    refine ⟨_, rfl, by simp [sealSigs], fun e he => ?_⟩
    obtain ⟨k, -, rfl⟩ := List.mem_map.1 he
    rfl
  · have hidle : sealStep (chained s c rest) s.ledger.seq = chained s c rest := sealStep_idle fun sn' tk' x' h => by
      rw [hsealing, hsome] at h
      simp only [Option.some.injEq, Prod.mk.injEq] at h
      omega
    rw [if_pos rfl, hidle]
    have hnext : (chained s c rest).ledger.seq = sn + 17 := congrArg (· + 1) hseq
    exact ⟨rfl, rfl, sealCycle_done hmaps.2.2.1 (hsealing.trans hsome) hnext⟩

end Chain

/-! ### Seals and the mirror (15 R431-R433) -/

section Seals

variable {s : State}

/-- The ledger with nothing that a new entry may go behind. -/
def settled (s : State) : State := { s with ledger := { s.ledger with recent := 0 } }

/-- The state of a seal begun. -/
def sealBegun (s : State) : State :=
  let sn := s.ledger.seq + s.ledger.queue.length
  let t := recordRaw (settled s) oSteward 0 0x30 (sn + 1) 0 s.tick.num.toNat
  { t with ledger := { t.ledger with sealing := some (sn, s.tick.num, 0), recent := 0 } }

theorem exec_seal (hst : s.boot.steward = true) (hnone : s.ledger.sealing = none) (hrec : s.ledger.recording = true)
    (hroom : ledgerRoom s = true) (hopen : s.ledger.unsealedAt.isSome = true) : exec .seal s = .next (sealBegun s) := by
  have hdo : ¬(!s.boot.steward || s.ledger.sealing.isSome || !s.ledger.recording || !ledgerRoom s ||
      !(s.ledger.unsealedAt.isSome || s.ledger.queue.any fun c => c.kind != kindSeal && c.kind != kindSig)) = true := by
    simp [hst, hnone, hrec, hroom, hopen]
  exact congrArg Host.Outcome.next (if_neg hdo)

theorem enqueueChange_settled (c : Change) : enqueueChange (settled s) c = s.ledger.queue ++ [c] := by
  have hrecent : recentOf (settled s) = 0 := ite_self 0
  rw [enqueueChange, hrecent]
  simp [settled, insertChange]

theorem leads_seal (hst : s.boot.steward = true) (hnone : s.ledger.sealing = none) (hrec : s.ledger.recording = true)
    (hroom : ledgerRoom s = true) (hopen : s.ledger.unsealedAt.isSome = true) : leads .seal s fun t => onlyChanges [.ledger] s t ∧
      (∃ x, t.ledger.sealing = some (s.ledger.seq + s.ledger.queue.length, s.tick.num, x)) ∧
      ∃ e, t.ledger.queue = s.ledger.queue ++ [e] ∧ e.kind = 0x30 ∧
        e.target = BitVec.ofNat 64 (s.ledger.seq + s.ledger.queue.length + 1) :=
  leads_moves (exec_seal hst hnone hrec hroom hopen) execSeal_moves ⟨⟨0, rfl⟩, _, enqueueChange_settled _, rfl, rfl⟩

theorem stateUnit_sealWait (s : State) : stateUnit s srcSteward stwSealWait =
    if s.ledger.unsealedAt.any (fun t => decide (s.now ≥ t + 1600000000)) then some 0 else none := rfl

theorem leads_sealWait {u : Nat} (hu : s.ledger.unsealedAt = some u) (hnow : u + 1600000000 ≤ s.now) : leads .sealWait s fun t =>
    onlyChanges [.host, .stats, .fresh] s t ∧ bit (statAt t srcSteward).status.toNat stwSealWait = true := by
  have hcause : stateCause s srcSteward stwSealWait = true := by
    have hany : s.ledger.unsealedAt.any (fun t => decide (s.now ≥ t + 1600000000)) = true := by
      rw [hu, Option.any_some, decide_eq_true_eq]
      exact hnow
    rw [stateCause, stateUnit_sealWait, hany]
    rfl
  exact ⟨_, congrArg Host.Outcome.next (if_pos hcause), (noteState_eventStep _ _ _ _).moves.only, bit_statAt_noteState (by decide)⟩

theorem leads_mirrorWrite (hen : s.ledger.mirrorEn = true) (hold : s.ledger.seq - 65536 ≤ s.ledger.mirrorNext)
    (hnew : s.ledger.mirrorNext < s.ledger.seq) : leads .ledgerMirrorWrite s fun t => onlyChanges [.host, .ledger, .fresh] s t ∧
      t.ledger.mirrorNext = s.ledger.mirrorNext + 1 ∧
      hostWriting t (s.ledger.mirrorBase + 64 * (s.ledger.mirrorNext % 2 ^ s.ledger.mirrorLog))
        (sget [] s.ledger.store (s.ledger.mirrorNext % 65536)) (.mirror s.ledger.mirrorNext) := by
  have hnext : max s.ledger.mirrorNext (ledgerOldest s) = s.ledger.mirrorNext := Nat.max_eq_left hold
  have hexec : exec .ledgerMirrorWrite s = execLedgerMirrorWrite s := rfl
  have hdo : ¬(!s.ledger.mirrorEn || decide (s.ledger.mirrorNext ≥ s.ledger.seq)) = true := by simp [hen, hnew]
  rw [leads, hexec, execLedgerMirrorWrite]
  simp only [hnext, if_neg hdo]
  exact ⟨_, rfl, (upd_ledger (hostWrite_moves (Moves.refl _ s) rfl) rfl).only, rfl, (writeIssued_hostWrite s _ _ _).writing⟩

end Seals

/-! ### The ledger's commands (15 R433, R434) -/

section Commands

variable {s : State} {ring : BitVec 6} {d : Desc}

/-- The mirror as LEDGER_MIRROR sets it. -/
def mirrorSet (s : State) (d : Desc) : State :=
  { s with ledger := { s.ledger with mirrorEn := bit d.d1.toNat 0, mirrorLog := fld d.d1 20 16, mirrorBase := d.d2.toNat,
                                     mirrorHead := d.d3.toNat,
                                     mirrorNext := max (ledgerOldest s) (s.ledger.seq - 2 ^ fld d.d1 20 16) } }

theorem leads_ledgerMirror (hadm : admitted s ring d 0x51 (cringOf d.d0) none)
    (hlog : bit d.d1.toNat 0 = true → 6 ≤ fld d.d1 20 16 ∧ fld d.d1 20 16 ≤ 16) :
    leads (.ledgerMirror ring d) s fun t => onlyChanges [.host, .ledger, .fresh] s t ∧
      answered s t ring d (cringOf d.d0) 0 stOk 0 0 ∧ t.ledger = (mirrorSet s d).ledger := by
  refine leads_accepted hadm rfl rfl rfl fun u t hu ht => ?_
  have hlegal : (bit d.d1.toNat 0 && !logLegal (fld d.d1 20 16)) = false := by
    cases hb : bit d.d1.toNat 0
    · rfl
    · obtain ⟨h6, h16⟩ := hlog hb
      simp [logLegal, h6, h16]
  simp only [hlegal] at ht
  change RingStep (complete (mirrorSet u d) _ stOk) t at ht
  have hset : Moves [.host, .ledger, .fresh] s (mirrorSet u d) := upd_ledger ((Moves.refl _ s).trans hu.moves rfl) rfl
  refine ⟨(((hset.trans (complete_ringStep _ _ _ _ _ _).moves rfl).trans ht.moves rfl)).only, ht.answered (answered_completeTo _ [] []), ?_⟩
  rw [ht.ledger, (complete_ringStep _ _ _ _ _ _).ledger, mirrorSet, mirrorSet, ledgerOldest, hu.ledger, ← ledgerOldest]

/-- The entry of the ledger that FIRST names. -/
def firstEntry (s : State) (first : Nat) : Nat :=
  ledgerOldest s + (first + Config.ledgerStore - ledgerOldest s % Config.ledgerStore) % Config.ledgerStore

theorem firstEntry_held {n first : Nat} (hold : s.ledger.seq - 65536 ≤ n) (hnew : n < s.ledger.seq) (hn : n % 65536 = first) :
    firstEntry s first = n := by
  have hstore : Config.ledgerStore = 65536 := rfl
  simp only [firstEntry, ledgerOldest, hstore]
  omega

theorem firstEntry_none {first : Nat} (hfirst : first < 65536)
    (h : ∀ n, s.ledger.seq - 65536 ≤ n → n < s.ledger.seq → n % 65536 ≠ first) : s.ledger.seq ≤ firstEntry s first := by
  by_contra hlt
  have hstore : Config.ledgerStore = 65536 := rfl
  refine h (firstEntry s first) ?_ (by omega) ?_
  · simp only [firstEntry, ledgerOldest, hstore]
    omega
  · simp only [firstEntry, ledgerOldest, hstore]
    omega

/-- The bytes that LEDGER_READ copies. -/
def ledgerCopy (s : State) (n count : Nat) : List Byte := ((List.range count).map fun i =>
  if n + i < s.ledger.seq then padTo 64 (sget [] s.ledger.store ((n + i) % 65536)) else List.replicate 64 0).flatten

/-- A copy to the host issues its write and answers its command. -/
theorem copyOut_ringStep (s : State) (a : Accept) (addr : Nat) (data : List Byte) (d0 d1 : Nat) : RingStep s (copyOut s a addr data d0 d1) :=
  (hostWrite_ringStep s _ _ _).trans (complete_ringStep _ _ _ _ _ _)

theorem writeIssued_copyOut (s : State) (a : Accept) (addr : Nat) (data : List Byte) (d0 d1 : Nat) :
    writeIssued (copyOut s a addr data d0 d1) addr data (.copy a.ring (tagOf a.d0)) :=
  (complete_ringStep _ _ _ _ _ _).writeIssued (writeIssued_hostWrite s addr data _)

theorem answered_copyOut (u : State) (obj addr : Nat) (data : List Byte) (d0 d1 : Nat) :
    answered s (copyOut u (acceptNow s ring.toNat d.d0 obj) addr data d0 d1) ring d (cringOf d.d0) obj stOk d0 d1 :=
  answered_completeTo _ _ []

theorem exec_ledgerRead : exec (.ledgerRead ring d) s = .next (accept s ring d 0x50 none 0 (cringOf d.d0) fun a s =>
    if fld d.d1 32 16 = 0 ∨ fld d.d1 32 16 > Config.ledgerStore ∨ firstEntry s (fld d.d1 15 0) ≥ s.ledger.seq then complete s a stRefused
    else copyOut s a d.d2.toNat (ledgerCopy s (firstEntry s (fld d.d1 15 0)) (fld d.d1 32 16))) := rfl

theorem firstEntry_ringStep {u : State} (hu : RingStep s u) (first : Nat) : firstEntry u first = firstEntry s first := by
  rw [firstEntry, ledgerOldest, hu.ledger, ← ledgerOldest, ← firstEntry]

theorem ledgerCopy_ringStep {u : State} (hu : RingStep s u) (n count : Nat) : ledgerCopy u n count = ledgerCopy s n count := by
  rw [ledgerCopy, hu.ledger, ← ledgerCopy]

theorem leads_ledgerRead (hadm : admitted s ring d 0x50 (cringOf d.d0) none) (h1 : 1 ≤ fld d.d1 32 16) (hmax : fld d.d1 32 16 ≤ 65536)
    {n : Nat} (hold : s.ledger.seq - 65536 ≤ n) (hnew : n < s.ledger.seq) (hn : n % 65536 = fld d.d1 15 0) :
    leads (.ledgerRead ring d) s fun t => onlyChanges [.host, .fresh] s t ∧ answered s t ring d (cringOf d.d0) 0 stOk 0 0 ∧
      hostWriting t d.d2.toNat (ledgerCopy s n (fld d.d1 32 16)) (.copy ring.toNat (tagOf d.d0)) := by
  refine leads_accepted hadm exec_ledgerRead rfl rfl fun u t hu ht => ?_
  have hstore : Config.ledgerStore = 65536 := rfl
  rw [firstEntry_ringStep hu, firstEntry_held hold hnew hn, hu.ledger, ledgerCopy_ringStep hu, if_neg (by omega)] at ht
  exact ⟨((hu.trans (copyOut_ringStep _ _ _ _ _ _)).trans ht).moves.only, ht.answered (answered_copyOut _ _ _ _ _ _),
    (ht.writeIssued (writeIssued_copyOut _ _ _ _ _ _)).writing⟩

theorem leads_ledgerRead_none (hadm : admitted s ring d 0x50 (cringOf d.d0) none)
    (h : ∀ n, s.ledger.seq - 65536 ≤ n → n < s.ledger.seq → n % 65536 ≠ fld d.d1 15 0) :
    leads (.ledgerRead ring d) s fun t => onlyChanges [.host, .fresh] s t ∧ answered s t ring d (cringOf d.d0) 0 stRefused 0 0 := by
  refine leads_accepted hadm exec_ledgerRead rfl rfl fun u t hu ht => ?_
  have hfirst : fld d.d1 15 0 < 65536 := bits_lt _ _ _
  rw [firstEntry_ringStep hu, hu.ledger, if_pos (.inr (.inr (firstEntry_none hfirst h)))] at ht
  exact ⟨((hu.trans (complete_ringStep _ _ _ _ _ _)).trans ht).moves.only, ht.answered (answered_completeTo _ [] [])⟩

end Commands

/-- Settles O22: the chain engine, the seal, the mirror and the two commands, each by the state it leaves. -/
theorem ledgerEnginesProceed : Obligations.LedgerEnginesProceed := by
  unfold Obligations.LedgerEnginesProceed
  refine ⟨fun s c rest hmaps hq hrec => ⟨fun u hu hnow => ?idle, leads_chainEntry hmaps hq hrec⟩,
    ⟨fun s => leads_seal, fun s u => leads_sealWait, fun s => leads_mirrorWrite⟩, fun s ring d => ⟨fun hadm hlog => ?mirror,
    fun hadm h1 hmax => ⟨fun n hold hnew hn => leads_ledgerRead hadm h1 hmax hold hnew hn, leads_ledgerRead_none hadm⟩⟩⟩
  case idle =>
    have hexec := exec_chainEntry hq hrec
    rw [not_chainDue hu hnow] at hexec
    exact ⟨s, hexec, rfl⟩
  case mirror =>
    obtain ⟨t, ht, honly, hanswered, hledger⟩ := leads_ledgerMirror hadm hlog
    refine ⟨t, ht, honly, hanswered, ?_⟩
    rw [hledger]
    exact ⟨rfl, rfl, rfl, rfl, rfl⟩

end Sys2Proof.Proofs

/-! PROOFS. From power to FCLK (O23; 15 R408-R413, Table 15.2). -/

namespace Sys2Proof.Proofs

open Sys2Proof.Machine Sys2Proof.Safety Sys2Proof.Laws

/-! ### Bits of STAT_READY -/

theorem bit_or_ofNat {w v b : Nat} (x : BitVec w) (hv : v < 2 ^ w) :
    bit (x ||| BitVec.ofNat w v).toNat b = (bit x.toNat b || v.testBit b) := by
  rw [bit_eq_testBit, bit_eq_testBit, BitVec.toNat_or, Nat.testBit_or, BitVec.toNat_ofNat, Nat.mod_eq_of_lt hv]

theorem bit_ready_readyBits (s : State) {v b : Nat} (hv : v < 2 ^ 32) :
    bit (readyBits s v).boot.ready.toNat b = (bit s.boot.ready.toNat b || v.testBit b) := bit_or_ofNat _ hv

/-- The bits of the tile arrays that the grade has. -/
def tilesBits (s : State) : Nat := 2 ^ 20 + b2n (hasEast s) * 2 ^ 21

theorem tilesBits_testBit (s : State) : tilesBits s < 2 ^ 32 ∧ (tilesBits s).testBit 20 = true ∧ (tilesBits s).testBit 21 = hasEast s := by
  unfold tilesBits
  cases hasEast s <;> decide

/-! ### Cold reset and REFCLK -/

section Cold

variable {s : State}

theorem coldState_boot (s : State) (cause : BitVec 2) : (coldState s cause).boot = { State.reset.boot with
    phase := if cause = 2 then .plls else .reset, cause := cause, fuses := s.boot.fuses, pins := s.boot.pins,
    thermtrip := s.boot.thermtrip && cause != 0, refclkOk := cause != 2 && s.boot.refclkOk,
    temps := if cause = 0 then State.reset.boot.temps else s.boot.temps } := by
  by_cases h : cause = 0
  · subst h
    rfl
  · have hpower : (cause == 0) = false := beq_false_of_ne h
    simp only [coldState, hpower, if_neg h, bne]
    rfl

theorem exec_refclk_good {khz : Nat} (h0 : 99400 ≤ khz) (h1 : khz ≤ 100050) :
    exec (.refclkMeasure khz) s = .next { s with boot := { s.boot with refclkOk := true } } :=
  congrArg Host.Outcome.next (if_pos (by simp [h0, h1]))

theorem exec_refclk_bad {khz : Nat} (h : khz < 99400 ∨ 100050 < khz) (hphase : s.boot.phase ≠ .reset) :
    exec (.refclkMeasure khz) s = .next (coldState s 2) := by
  have hnot : ¬(decide (99400 ≤ khz) && decide (khz ≤ 100050)) = true := by
    rw [Bool.and_eq_true, decide_eq_true_eq, decide_eq_true_eq]
    omega
  exact congrArg Host.Outcome.next ((if_neg hnot).trans (if_neg hphase))

end Cold

/-! ### PLL lock and SYNC_N -/

section Clocks

variable {s : State} {fuses : Fuses} {pins : BitVec 14}

/-- Fuses read and straps sampled. -/
def strapped (s : State) (fuses : Fuses) (pins : BitVec 14) : State :=
  let t := { s with boot := { s.boot with phase := .sync, fuses := fuses, pins := pins, strap := pins &&& 0x3FF7, sampled := true,
                                          syncDriven := false } }
  { t with tick := { t.tick with len := strapTickLen (pins &&& 0x3FF7) } }

theorem exec_pllLock (hphase : s.boot.phase = .plls) (hclk : s.boot.refclkOk = true) : exec (.pllLock fuses pins) s = .next
    (match strapFault (strapped s fuses pins) with
      | some r => holdBoot (bootFail (strapped s fuses pins) 0 r)
      | none => strapped s fuses pins) := by
  have hdo : ¬(s.boot.phase ≠ .plls ∨ s.boot.refclkOk = false) := by simp [hphase, hclk]
  have hexec : exec (.pllLock fuses pins) s = execPllLock fuses pins s := rfl
  rw [hexec, execPllLock, if_neg hdo]
  rfl

/-- The straps that the boot ROM checks are not the one that it ignores. -/
theorem bits_sampled {hi lo : Nat} (hlo : 4 ≤ lo) (hhi : hi ≤ 13) :
    bits (pins &&& 0x3FF7).toNat hi lo = bits pins.toNat hi lo := by
  apply Nat.eq_of_testBit_eq
  intro i
  simp only [bits, Nat.testBit_mod_two_pow, Nat.testBit_div_two_pow, BitVec.toNat_and, Nat.testBit_and]
  by_cases hi' : i < hi + 1 - lo
  · have hmask : (0x3FF7 : Nat).testBit (lo + i) = true := by
      have hall : ∀ k, 4 ≤ k → k ≤ 13 → (0x3FF7 : Nat).testBit k = true := by decide
      exact hall _ (by omega) (by omega)
    simp [hmask, Nat.add_comm]
  · simp [hi']

/-- The straps let the boot go on. -/
def strapsPass (fuses : Fuses) (pins : BitVec 14) : Prop :=
  bits pins.toNat 13 12 = fuses.grade ∧ bits pins.toNat 13 12 ≠ 0 ∧ bits pins.toNat 11 10 ≠ 3

theorem strapFault_strapped : strapFault (strapped s fuses pins) = none ↔ strapsPass fuses pins := by
  have hgrade : grade (strapped s fuses pins) = fuses.grade := rfl
  have hstrap : (strapped s fuses pins).boot.strap = pins &&& 0x3FF7 := rfl
  have h12 := bits_sampled (pins := pins) (hi := 13) (lo := 12) (by omega) (by omega)
  have h10 := bits_sampled (pins := pins) (hi := 11) (lo := 10) (by omega) (by omega)
  rw [strapFault, hgrade, hstrap, h12, h10, strapsPass]
  split_ifs <;> simp <;> tauto

theorem strapped_moves (s : State) (fuses : Fuses) (pins : BitVec 14) : Moves [.boot, .tick, .ledger] s (strapped s fuses pins) :=
  upd_tick (upd_boot (Moves.refl _ s) rfl) rfl

/-- FCLK begins at cycle 0. -/
def clockStarted (s : State) : State := { s with boot := { s.boot with phase := .run }, now := 0 }

/-- The end of SYNC_N's sampling. -/
def synced (s : State) : State :=
  if s.boot.cause = 2 then setCause (noteState (clockStarted s) srcCoreW 7 0) srcSteward stwRefclk 0
  else noteState (clockStarted s) srcCoreW 7 0

theorem exec_syncHigh (hphase : s.boot.phase = .sync) : exec .syncNSampleHigh s = .next (synced s) := by
  have hcause : (noteState (clockStarted s) srcCoreW 7 0).boot.cause = s.boot.cause := by rw [(noteState_eventStep _ _ _ _).boot]; rfl
  have hexec : exec .syncNSampleHigh s = .next (if (noteState (clockStarted s) srcCoreW 7 0).boot.cause = 2
      then setCause (noteState (clockStarted s) srcCoreW 7 0) srcSteward stwRefclk 0
      else noteState (clockStarted s) srcCoreW 7 0) := congrArg Host.Outcome.next (if_neg (not_not.2 hphase))
  rw [hexec, hcause]
  rfl

theorem synced_eventStep (s : State) : EventStep (clockStarted s) (synced s) ∧
    bit (statAt (synced s) srcCoreW).status.toNat 7 = true := by
  have hnoted := noteState_eventStep (clockStarted s) srcCoreW 7 0
  have hbit : bit (statAt (noteState (clockStarted s) srcCoreW 7 0) srcCoreW).status.toNat 7 = true := bit_statAt_noteState (by decide)
  unfold synced
  split
  · have hcaused := setCause_eventStep (noteState (clockStarted s) srcCoreW 7 0) srcSteward stwRefclk 0 0 0 0 none
    exact ⟨hnoted.trans hcaused, hcaused.bits _ _ hbit⟩
  · exact ⟨hnoted, hbit⟩

theorem exec_tilesReady (hphase : s.boot.phase = .run) (hfault : strapFault s = none) :
    exec .tilesReady s = .next (readyBits { s with tiles := { s.tiles with ready := true } } (tilesBits s)) :=
  congrArg Host.Outcome.next (if_neg (by simp [hphase, hfault]))

end Clocks

/-- Settles O23: cold reset, PLL lock, SYNC_N and the tiles, each by the state it leaves. -/
theorem bringUpToFclk : Obligations.BringUpToFclk := by
  unfold Obligations.BringUpToFclk
  refine ⟨fun s => ⟨fun cause => ⟨_, rfl, ?coldOnly, coldState_boot s cause⟩, fun khz => ⟨fun ⟨h0, h1⟩ => ⟨_, exec_refclk_good h0 h1, rfl⟩,
    fun h hphase => ⟨_, exec_refclk_bad h hphase, rfl⟩⟩⟩, fun s => ⟨fun hphase => ?rst, fun hphase hclk fuses pins => ?pll,
    fun hphase => ?sync, fun hphase hfault => ?tiles⟩⟩
  case coldOnly =>
    intro p hp
    cases p
    case boot => exact absurd (List.mem_singleton_self _) hp
    all_goals rfl
  case rst => exact ⟨_, congrArg Host.Outcome.next (if_pos hphase), rfl⟩
  case pll =>
    have hexec := exec_pllLock (fuses := fuses) (pins := pins) hphase hclk
    cases hfault : strapFault (strapped s fuses pins) with
    | none =>
      rw [hfault] at hexec
      refine ⟨_, hexec, (strapped_moves s fuses pins).only, rfl, rfl, rfl, rfl, rfl, rfl, ?_⟩
      exact (if_pos (strapFault_strapped.1 hfault)).mpr ⟨rfl, rfl⟩
    | some r =>
      have hnot : ¬strapsPass fuses pins := fun h => by
        rw [strapFault_strapped.2 h] at hfault
        exact absurd hfault nofun
      rw [hfault] at hexec
      refine ⟨_, hexec, (upd_boot (recordRaw_moves (strapped_moves s fuses pins) rfl) rfl).only, rfl, rfl, rfl, rfl, rfl, rfl, ?_⟩
      exact (if_neg hnot).mpr ⟨rfl, _, rfl, rfl⟩
  case sync =>
    obtain ⟨hstep, hbit⟩ := synced_eventStep s
    refine ⟨_, exec_syncHigh hphase, ?_, hstep.boot, hstep.now, hbit⟩
    have hstarted : Moves [.now, .boot, .host, .stats, .fresh] s (clockStarted s) :=
      upd_now (upd_boot (Moves.refl _ s) rfl) rfl
    exact (hstarted.trans hstep.moves rfl).only
  case tiles =>
    obtain ⟨hlt, h20, h21⟩ := tilesBits_testBit s
    refine ⟨_, exec_tilesReady hphase hfault, ?_, rfl, rfl, ?_, ?_⟩
    · exact (upd_boot (upd_tiles (Moves.refl _ s) rfl) rfl).only
    · rw [bit_ready_readyBits _ hlt, h20, Bool.or_true]
    · rw [bit_ready_readyBits _ hlt, h21]

end Sys2Proof.Proofs

/-! PROOFS. Firmware, the wiring plan, fuses and straps (O24; 15 R412-R423). -/

namespace Sys2Proof.Proofs

open Sys2Proof.Machine Sys2Proof.Safety Sys2Proof.Laws

/-! ### Entries on their way to the chain (15 R428) -/

theorem mem_insertChange {c x : Change} (l : List Change) : x ∈ insertChange c l ↔ x = c ∨ x ∈ l := by
  induction l with
  | nil => simp [insertChange]
  | cons y l ih =>
    rw [insertChange]
    split
    · simp
    · rw [List.mem_cons, ih, List.mem_cons]
      tauto

theorem length_insertChange (c : Change) (l : List Change) : (insertChange c l).length = l.length + 1 := by
  induction l with
  | nil => rfl
  | cons y l ih =>
    rw [insertChange]
    split
    · rfl
    · rw [List.length_cons, ih, List.length_cons]

theorem mem_enqueueChange {s : State} {c x : Change} : x ∈ enqueueChange s c ↔ x = c ∨ x ∈ s.ledger.queue := by
  have hsplit : x ∈ s.ledger.queue ↔ x ∈ s.ledger.queue.take (s.ledger.queue.length - recentOf s) ∨
      x ∈ s.ledger.queue.drop (s.ledger.queue.length - recentOf s) := by
    rw [← List.mem_append, List.take_append_drop]
  rw [enqueueChange, List.mem_append, mem_insertChange, hsplit]
  tauto

theorem length_enqueueChange (s : State) (c : Change) : (enqueueChange s c).length = s.ledger.queue.length + 1 := by
  have hsplit := congrArg List.length (List.take_append_drop (s.ledger.queue.length - recentOf s) s.ledger.queue)
  rw [List.length_append] at hsplit
  rw [enqueueChange, List.length_append, length_insertChange]
  omega

/-- Entries of the queue that stay in it. -/
def entriesStay (s t : State) : Prop := ∀ e ∈ s.ledger.queue, e ∈ t.ledger.queue

theorem entriesStay.trans {s t u : State} (h : entriesStay s t) (g : entriesStay t u) : entriesStay s u := fun e he => g e (h e he)

theorem entriesStay_of_ledger {s t : State} (h : t.ledger = s.ledger) : entriesStay s t := fun e he => by rwa [h]

theorem entriesStay_record (s : State) (origin id kind : Nat) (raw : Bool) (target : Nat) (old new : List Byte) :
    entriesStay s (record s origin id kind raw target old new) := fun _ he => mem_enqueueChange.2 (.inr he)

/-- The entry that `record` tells. -/
theorem record_enqueues (s : State) (origin id kind : Nat) (raw : Bool) (target : Nat) (old new : List Byte) :
    ∃ e, (record s origin id kind raw target old new).ledger.queue = enqueueChange s e ∧ e.kind = BitVec.ofNat 8 kind ∧
      e.origin = BitVec.ofNat 8 origin ∧ e.originId = BitVec.ofNat 16 id ∧ e.target = BitVec.ofNat 64 target ∧
      e.old = padTo 16 old ∧ e.new = padTo 16 new :=
  ⟨_, rfl, rfl, rfl, rfl, rfl, rfl, rfl⟩

/-- The entry that `recordRaw` tells, with its target. -/
theorem recordRaw_entry (s : State) (origin id kind target old new : Nat) :
    ∃ e, (recordRaw s origin id kind target old new).ledger.queue = enqueueChange s e ∧ e.kind = BitVec.ofNat 8 kind ∧
      e.origin = BitVec.ofNat 8 origin ∧ e.originId = BitVec.ofNat 16 id ∧ e.target = BitVec.ofNat 64 target ∧
      e.old = padTo 16 (leBytes 16 old) ∧ e.new = padTo 16 (leBytes 16 new) :=
  record_enqueues ..

theorem length_recordRaw (s : State) (origin id kind target old new : Nat) :
    (recordRaw s origin id kind target old new).ledger.queue.length = s.ledger.queue.length + 1 := length_enqueueChange s _

/-! ### Firmware (15 R417-R419, R423) -/

section Firmware

variable {s : State} {dir : FlashDir} {l item chain : List Byte} {ok : Bool} {slot : Nat}

theorem exec_firmwareCheck (hawaits : awaitsFirmware s = true) (hdir : dirOf dir = some l)
    (hslot : (slotOrder s).find? (fun x => !s.boot.tried.contains x) = some slot) (hne : slot ≠ 2)
    (hitem : itemOf (some l) (slot + 1) 0 item = .good) : exec (.firmwareCheck dir item chain ok) s = .next
      (match imageFault s item with
        | some r => rejectSlot s slot r
        | none => checkIdentity (startFirmware s slot item) (some l) chain ok) := by
  have hexec : exec (.firmwareCheck dir item chain ok) s = execFirmwareCheck dir item chain ok s := rfl
  rw [hexec, execFirmwareCheck, hawaits, hdir, hslot]
  simp only [if_neg hne, hitem]
  have hnoted : noteFlash s .good = s := if_neg (by decide)
  rw [hnoted]
  exact congrArg Host.Outcome.next (if_neg (by decide))

theorem noteFlash_eventStep (s : State) (i : Item) : EventStep s (noteFlash s i) := by
  unfold noteFlash
  split
  · exact setCause_eventStep ..
  · exact .refl s

theorem rejectSlot_boot (s : State) (slot r : Nat) : (rejectSlot s slot r).boot =
    { s.boot with tried := s.boot.tried ++ [slot], held := (slotOrder s).all (s.boot.tried ++ [slot]).contains || s.boot.held } := by
  have horder (u : State) (hu : u.boot.strap = s.boot.strap) : slotOrder u = slotOrder s := by rw [slotOrder, hu, slotOrder]
  unfold rejectSlot
  dsimp only
  rw [horder _ rfl]
  split
  next hall =>
    have hall' : (slotOrder s).all (s.boot.tried ++ [slot]).contains = true := hall
    rw [hall']
    rfl
  next hall =>
    have hall' : (slotOrder s).all (s.boot.tried ++ [slot]).contains = false := Bool.eq_false_of_not_eq_true hall
    rw [hall']
    rfl

theorem rejectSlot_ledger (s : State) (slot r : Nat) : (rejectSlot s slot r).ledger = (bootFail s slot r).ledger := by
  unfold rejectSlot
  dsimp only
  split <;> rfl

/-- An accepted image: what the start of the steward leaves for the check of the identity. -/
structure Started (s : State) (slot : Nat) (item : List Byte) (t : State) : Prop where
  steward : t.boot.steward = true
  ready : bit t.boot.ready.toNat 31 = true
  fw : ∃ fw, t.boot.fw = some fw ∧ fw.slot = slot ∧ fw.digest = BitVec.ofNat 512 (beNat (imageDigest item))
  entry : ∃ e ∈ t.ledger.queue, e.kind = 0x03 ∧ e.new = padTo 16 (imageDigest item)

theorem startFirmware_started (s : State) (slot : Nat) (item : List Byte) : Started s slot item (startFirmware s slot item) where
  steward := rfl
  ready := by
    have hready := bit_or_twoPow (b := 31) s.boot.ready (by decide)
    exact hready
  fw := ⟨_, rfl, rfl, rfl⟩
  entry := by
    obtain ⟨e, hq, hkind, -, -, -, -, hnew⟩ := record_enqueues s oSteward 0 0x03 false
      ((BitVec.ofNat 16 (leAt item 8 2)).toNat + (BitVec.ofNat 8 (leAt item 7 1)).toNat * 2 ^ 16 + slot * 2 ^ 24 + leAt item 10 2 * 2 ^ 32)
      [] (imageDigest item)
    exact ⟨e, hq ▸ mem_enqueueChange.2 (.inl rfl), hkind, hnew⟩

/-- The check of the identity chain changes what it is about alone. -/
theorem checkIdentity_boot (s : State) (dir : Option (List Byte)) (chain : List Byte) (ok : Bool) :
    ∃ certs, (checkIdentity s dir chain ok).boot =
      { s.boot with certChain := certs, unprovisioned := !(decide (itemOf dir 3 0 chain = .good) && ok) } := by
  have hboot := (noteFlash_eventStep s (itemOf dir 3 0 chain)).boot
  unfold checkIdentity
  dsimp only
  generalize noteFlash s (itemOf dir 3 0 chain) = t at hboot ⊢
  rw [← hboot]
  split
  next hgood =>
    rw [decide_eq_true hgood]
    cases ok
    · exact ⟨chain, rfl⟩
    · exact ⟨chain, rfl⟩
  next hbad =>
    rw [decide_eq_false hbad]
    exact ⟨t.boot.certChain, rfl⟩

theorem checkIdentity_entries (s : State) (dir : Option (List Byte)) (chain : List Byte) (ok : Bool) :
    entriesStay s (checkIdentity s dir chain ok) := by
  have hnoted : entriesStay s (noteFlash s (itemOf dir 3 0 chain)) := entriesStay_of_ledger (noteFlash_eventStep s _).ledger
  unfold checkIdentity
  dsimp only
  split
  · split
    · exact hnoted
    · exact hnoted.trans (entriesStay_record _ _ _ _ _ _ _ _)
  · exact hnoted.trans (entriesStay_record _ _ _ _ _ _ _ _)

theorem leads_firmware_started (hawaits : awaitsFirmware s = true) (hdir : dirOf dir = some l)
    (hslot : (slotOrder s).find? (fun x => !s.boot.tried.contains x) = some slot) (hne : slot ≠ 2)
    (hitem : itemOf (some l) (slot + 1) 0 item = .good) (hfault : imageFault s item = none) :
    leads (.firmwareCheck dir item chain ok) s fun t => onlyChanges [.boot, .host, .stats, .ledger, .fresh] s t ∧
      t.boot.steward = true ∧ bit t.boot.ready.toNat 31 = true ∧
      (∃ fw, t.boot.fw = some fw ∧ fw.slot = slot ∧ fw.digest = BitVec.ofNat 512 (beNat (imageDigest item))) ∧
      (∃ e ∈ t.ledger.queue, e.kind = 0x03 ∧ e.new = padTo 16 (imageDigest item)) ∧
      (t.boot.unprovisioned = false ↔ itemOf (some l) 3 0 chain = .good ∧ ok = true) := by
  have hexec := exec_firmwareCheck (chain := chain) (ok := ok) hawaits hdir hslot hne hitem
  rw [hfault] at hexec
  obtain ⟨hsteward, hready, hfw, e, he, hentry⟩ := startFirmware_started s slot item
  obtain ⟨certs, hboot⟩ := checkIdentity_boot (startFirmware s slot item) (some l) chain ok
  refine leads_moves hexec execFirmwareCheck_moves ⟨?_, ?_, ?_, ⟨e, checkIdentity_entries _ _ _ _ e he, hentry⟩, ?_⟩
  · rw [hboot]
    exact hsteward
  · rw [hboot]
    exact hready
  · rw [hboot]
    exact hfw
  · rw [hboot]
    simp

theorem leads_firmware_rejected {r : Nat} (hawaits : awaitsFirmware s = true) (hdir : dirOf dir = some l)
    (hslot : (slotOrder s).find? (fun x => !s.boot.tried.contains x) = some slot) (hne : slot ≠ 2)
    (hitem : itemOf (some l) (slot + 1) 0 item = .good) (hfault : imageFault s item = some r) :
    leads (.firmwareCheck dir item chain ok) s fun t => onlyChanges [.boot, .ledger] s t ∧
      t.boot = { s.boot with tried := s.boot.tried ++ [slot],
                             held := (slotOrder s).all (s.boot.tried ++ [slot]).contains || s.boot.held } ∧
      ∃ e, t.ledger.queue = enqueueChange s e ∧ e.kind = 0x0C ∧ e.target = BitVec.ofNat 64 slot ∧ e.new = padTo 16 (leBytes 16 r) := by
  have hexec := exec_firmwareCheck (chain := chain) (ok := ok) hawaits hdir hslot hne hitem
  rw [hfault] at hexec
  obtain ⟨e, hq, hkind, -, -, htarget, -, hnew⟩ := recordRaw_entry s oSteward 0 0x0C slot 0 r
  refine ⟨_, hexec, (rejectSlot_moves (Moves.refl _ s) rfl).only, rejectSlot_boot s slot r, e, ?_, hkind, htarget, hnew⟩
  rw [rejectSlot_ledger]
  exact hq

end Firmware

/-! ### The wiring plan (15 R421) -/

/-- What the work on tallies, port groups and the equalisation table leaves of the plan that was taken. -/
structure PlanStays (s t : State) : Prop where
  fuses : t.boot.fuses = s.boot.fuses
  done : t.boot.planDone = s.boot.planDone
  ok : t.boot.planOk = s.boot.planOk
  endpoint : t.boot.capEndpoint = s.boot.capEndpoint
  digest : t.boot.planDigest = s.boot.planDigest
  ready : ∀ b, bit s.boot.ready.toNat b = true → bit t.boot.ready.toNat b = true
  entries : entriesStay s t

namespace PlanStays

variable {s t u : State}

theorem trans (h : PlanStays s t) (g : PlanStays t u) : PlanStays s u where
  fuses := g.fuses.trans h.fuses
  done := g.done.trans h.done
  ok := g.ok.trans h.ok
  endpoint := g.endpoint.trans h.endpoint
  digest := g.digest.trans h.digest
  ready b hb := g.ready b (h.ready b hb)
  entries := h.entries.trans g.entries

theorem of_same (hboot : t.boot = s.boot) (hledger : t.ledger = s.ledger) : PlanStays s t where
  fuses := by rw [hboot]
  done := by rw [hboot]
  ok := by rw [hboot]
  endpoint := by rw [hboot]
  digest := by rw [hboot]
  ready b hb := by rwa [hboot]
  entries := entriesStay_of_ledger hledger

theorem refl (s : State) : PlanStays s s := .of_same rfl rfl

end PlanStays

theorem readyBits_planStays (s : State) (v : Nat) : PlanStays s (readyBits s v) where
  fuses := rfl
  done := rfl
  ok := rfl
  endpoint := rfl
  digest := rfl
  ready _ hb := bit_or_left hb
  entries _ he := he

theorem noteFlash_planStays (s : State) (i : Item) : PlanStays s (noteFlash s i) :=
  .of_same (noteFlash_eventStep s i).boot (noteFlash_eventStep s i).ledger

theorem record_planStays (s : State) (origin id kind : Nat) (raw : Bool) (target : Nat) (old new : List Byte) :
    PlanStays s (record s origin id kind raw target old new) where
  fuses := rfl
  done := rfl
  ok := rfl
  endpoint := rfl
  digest := rfl
  ready _ hb := hb
  entries := entriesStay_record _ _ _ _ _ _ _ _

/-- The state that openGroup leaves. -/
theorem openGroup_planStays (s : State) (pg : Nat) : PlanStays s (openGroup s pg).1 := by
  have hmoves : Moves [.host, .stats, .ports, .lanes, .stalled, .reorder, .tandem, .dropping, .intake, .fresh] s (openGroup s pg).1 :=
    openGroup_moves (Moves.refl _ s) rfl
  exact .of_same (hmoves.only .boot (by decide)) (hmoves.only .ledger (by decide))

theorem openWaiting_planStays (s : State) (tick : Bool) : PlanStays s (openWaiting s tick) := by
  have hmoves : Moves [.host, .tallies] s (openWaiting s tick) := openWaiting_moves (Moves.refl _ s) rfl
  exact .of_same (hmoves.only .boot (by decide)) (hmoves.only .ledger (by decide))

theorem foldl_planStays {α : Type} {f : State → α → State} (hf : ∀ s x, PlanStays s (f s x)) (l : List α) (s : State) :
    PlanStays s (l.foldl f s) := by
  induction l generalizing s with
  | nil => exact .refl s
  | cons x l ih => exact (hf s x).trans (ih _)

theorem takeEq_planStays (s : State) (t : List Byte) : PlanStays s (takeEq s t) := by
  have hposted (s : State) (src code unit : Nat) : PlanStays s (postEvent s src code 0 unit 0 0) :=
    .of_same (postEvent_eventStep _ _ _ _ _ _ _ _).boot (postEvent_eventStep _ _ _ _ _ _ _ _).ledger
  unfold takeEq
  dsimp only
  split
  · exact hposted _ _ _ _
  · generalize hbad : List.foldl _ s _ = u
    have hfold : PlanStays s u := hbad ▸ foldl_planStays (f := fun s l => postEvent s (srcPg (pgOf l)) 0x23 0 l 0 0)
      (fun s l => hposted s _ _ _) _ s
    refine (hfold.trans ?_).trans (record_planStays _ _ _ _ _ _ _ _)
    exact { fuses := rfl, done := rfl, ok := rfl, endpoint := rfl, digest := rfl, ready := fun _ hb => hb, entries := fun _ he => he }

theorem settleIdle_planStays (s : State) : PlanStays s (settleIdle s) where
  fuses := rfl
  done := rfl
  ok := rfl
  endpoint := rfl
  digest := rfl
  ready _ hb := hb
  entries _ he := he

section Plan

variable {s : State} {dir : FlashDir} {plan eq : List Byte}

/-- The plan as checked. -/
def planJudged (s : State) (i : Item) (plan : List Byte) : State :=
  if i ≠ .good then bootFail s 5 4 else if plan.length = 4160 ∧ planGood s plan = true then takePlan s plan else bootFail s 5 0x0A

/-- What follows the plan: the equalisation table, the core bits and the lanes. -/
def planFollowed (s : State) (dir : FlashDir) (eq : List Byte) : State :=
  let j := itemOf (dirOf dir) 4 (bits s.boot.strap.toNat 7 6) eq
  let t := if j = .good then takeEq (noteFlash s j) eq else noteFlash s j
  settleIdle (readyBits t (coreBits t))

/-- The plan begun. -/
def planBegun (s : State) : State := { s with boot := { s.boot with planDone := true } }

theorem exec_wiringPlanCheck (hphase : s.boot.phase = .run) (hsteward : s.boot.steward = true) (hdone : s.boot.planDone = false) :
    exec (.wiringPlanCheck dir plan eq) s = .next (planFollowed
      (planJudged (noteFlash (planBegun s) (itemOf (dirOf dir) 5 0 plan)) (itemOf (dirOf dir) 5 0 plan) plan) dir eq) :=
  congrArg Host.Outcome.next (if_neg (by simp [hphase, hsteward, hdone]))

theorem coreBits_testBit (s : State) : coreBits s < 2 ^ 32 ∧ (coreBits s).testBit 22 = true ∧ (coreBits s).testBit 23 = hasEast s := by
  unfold coreBits
  cases hasEast s <;> decide

theorem hasEast_of_fuses {s t : State} (h : t.boot.fuses = s.boot.fuses) : hasEast t = hasEast s := by
  rw [hasEast, capUnits, Machine.grade, h, ← Machine.grade, ← capUnits, ← hasEast]

/-- What follows keeps the plan and sets the core bits. -/
theorem planFollowed_keeps (s : State) (dir : FlashDir) (eq : List Byte) : PlanStays s (planFollowed s dir eq) ∧
    bit (planFollowed s dir eq).boot.ready.toNat 22 = true ∧
    (hasEast s = true → bit (planFollowed s dir eq).boot.ready.toNat 23 = true) := by
  unfold planFollowed
  dsimp only
  generalize ht : (if itemOf (dirOf dir) 4 (bits s.boot.strap.toNat 7 6) eq = .good then _ else _) = t
  have hkeeps : PlanStays s t := by
    rw [← ht]
    split
    · exact (noteFlash_planStays _ _).trans (takeEq_planStays _ _)
    · exact noteFlash_planStays _ _
  obtain ⟨hlt, h22, h23⟩ := coreBits_testBit t
  refine ⟨(hkeeps.trans (readyBits_planStays _ _)).trans (settleIdle_planStays _), ?_, fun heast => ?_⟩
  · exact (bit_ready_readyBits t hlt).trans (by rw [h22, Bool.or_true])
  · exact (bit_ready_readyBits t hlt).trans (by rw [h23, hasEast_of_fuses hkeeps.fuses, heast, Bool.or_true])

/-- An accepted plan is taken over. -/
structure PlanTaken (plan : List Byte) (t : State) : Prop where
  ok : t.boot.planOk = true
  endpoint : t.boot.capEndpoint = BitVec.ofNat 32 (2 ^ 31 + leAt plan 4 4)
  digest : t.boot.planDigest = BitVec.ofNat 512 (beNat (sha512Bytes plan))
  entry : ∃ e ∈ t.ledger.queue, e.kind = 0x05 ∧ e.new = padTo 16 (sha512Bytes plan)

theorem PlanTaken.stays {t u : State} (h : PlanTaken plan t) (g : PlanStays t u) : PlanTaken plan u where
  ok := g.ok.trans h.ok
  endpoint := g.endpoint.trans h.endpoint
  digest := g.digest.trans h.digest
  entry := by
    obtain ⟨e, he, hentry⟩ := h.entry
    exact ⟨e, g.entries e he, hentry⟩

/-- The plan's values in their registers, before it is recorded. -/
def planHeld (s : State) (l : List Byte) : State :=
  let words : Sparse W64 := (List.range 512).foldl (fun m p => sput 0 m p (planEntry l p)) []
  let t := { s with boot := { s.boot with
    planOk := true, planId := BitVec.ofNat 16 (leAt l 8 2), tickRoot := leAt l 2 1 == 1, tickPorts := (List.range 4).map (planTick l),
    boardEp := (List.range 8).map (planBoardEp l), planDigest := BitVec.ofNat 512 (beNat (sha512Bytes l)), planWords := words,
    capEndpoint := BitVec.ofNat 32 (2 ^ 31 + leAt l 4 4) } }
  { t with tick := if leAt l 2 1 == 1 then { t.tick with state := 2, source := 7 } else t.tick }

/-- One port group of a plan taken. -/
def groupOpened (s : State) (pg : Nat) : State := if (openGroup s pg).2 then readyBits (openGroup s pg).1 (2 ^ pg) else (openGroup s pg).1

theorem takePlan_eq (s : State) (l : List Byte) : takePlan s l =
    ((List.range 16).filter (hasPg (openWaiting (record (planHeld s l) oSteward 0 0x05 false (leAt l 8 2) [] (sha512Bytes l)) false))).foldl
      groupOpened (openWaiting (record (planHeld s l) oSteward 0 0x05 false (leAt l 8 2) [] (sha512Bytes l)) false) := rfl

theorem takePlan_taken (s : State) (l : List Byte) : PlanTaken l (takePlan s l) ∧ (takePlan s l).boot.planDone = s.boot.planDone ∧
    (takePlan s l).boot.fuses = s.boot.fuses := by
  rw [takePlan_eq]
  generalize hr : record (planHeld s l) oSteward 0 0x05 false (leAt l 8 2) [] (sha512Bytes l) = r
  have htaken : PlanTaken l r := by
    obtain ⟨e, hq, hkind, -, -, -, -, hnew⟩ := record_enqueues (planHeld s l) oSteward 0 0x05 false (leAt l 8 2) [] (sha512Bytes l)
    rw [hr] at hq
    exact { ok := by rw [← hr]; rfl, endpoint := by rw [← hr]; rfl, digest := by rw [← hr]; rfl,
            entry := ⟨e, hq ▸ mem_enqueueChange.2 (.inl rfl), hkind, hnew⟩ }
  have hgroup (s : State) (pg : Nat) : PlanStays s (groupOpened s pg) := by
    unfold groupOpened
    split
    · exact (openGroup_planStays s pg).trans (readyBits_planStays _ _)
    · exact openGroup_planStays s pg
  have hstays := (openWaiting_planStays r false).trans (foldl_planStays hgroup ((List.range 16).filter (hasPg (openWaiting r false))) _)
  refine ⟨htaken.stays hstays, hstays.done.trans ?_, hstays.fuses.trans ?_⟩
  · rw [← hr]; rfl
  · rw [← hr]; rfl

theorem bootFail_planStays (s : State) (target reason : Nat) : PlanStays s (bootFail s target reason) := record_planStays _ _ _ _ _ _ _ _

theorem bootFail_entry (s : State) (target reason : Nat) : ∃ e ∈ (bootFail s target reason).ledger.queue, e.kind = 0x0C ∧
    e.target = BitVec.ofNat 64 target := by
  obtain ⟨e, hq, hkind, -, -, htarget, -⟩ := recordRaw_entry s oSteward 0 0x0C target 0 reason
  exact ⟨e, (show (bootFail s target reason).ledger.queue = _ from hq) ▸ mem_enqueueChange.2 (.inl rfl), hkind, htarget⟩

theorem planGood_of_strap {s t : State} (h : t.boot.strap = s.boot.strap) (l : List Byte) : planGood t l = planGood s l := by
  rw [planGood, h, ← planGood]

theorem leads_wiringPlanCheck (hphase : s.boot.phase = .run) (hsteward : s.boot.steward = true) (hdone : s.boot.planDone = false) :
    leads (.wiringPlanCheck dir plan eq) s fun t =>
        onlyChanges [.boot, .tick, .host, .stats, .ports, .lanes, .stalled, .reorder, .tandem, .dropping, .intake, .tallies, .ledger, .fresh] s t ∧
        t.boot.planDone = true ∧
        bit t.boot.ready.toNat 22 = true ∧ (hasEast s = true → bit t.boot.ready.toNat 23 = true) ∧
        (if itemOf (dirOf dir) 5 0 plan = .good ∧ plan.length = 4160 ∧ planGood s plan = true then
            t.boot.planOk = true ∧ t.boot.capEndpoint = BitVec.ofNat 32 (2 ^ 31 + leAt plan 4 4) ∧
            t.boot.planDigest = BitVec.ofNat 512 (beNat (sha512Bytes plan)) ∧
            ∃ e ∈ t.ledger.queue, e.kind = 0x05 ∧ e.new = padTo 16 (sha512Bytes plan)
          else t.boot.planOk = s.boot.planOk ∧ t.boot.capEndpoint = s.boot.capEndpoint ∧
            ∃ e ∈ t.ledger.queue, e.kind = 0x0C ∧ e.target = 5) := by
  have hexec := exec_wiringPlanCheck (dir := dir) (plan := plan) (eq := eq) hphase hsteward hdone
  refine leads_moves hexec execWiringPlanCheck_moves ?_
  generalize hu : noteFlash (planBegun s) (itemOf (dirOf dir) 5 0 plan) = u
  have hboot : u.boot = (planBegun s).boot := hu ▸ (noteFlash_eventStep _ _).boot
  have hgood : planGood u plan = planGood s plan := planGood_of_strap (by rw [hboot]; rfl) plan
  generalize hv : planJudged u (itemOf (dirOf dir) 5 0 plan) plan = v
  have hjudged : v.boot.planDone = true ∧ v.boot.fuses = s.boot.fuses ∧
      (if itemOf (dirOf dir) 5 0 plan = .good ∧ plan.length = 4160 ∧ planGood s plan = true then PlanTaken plan v
        else v.boot.planOk = s.boot.planOk ∧ v.boot.capEndpoint = s.boot.capEndpoint ∧
          ∃ e ∈ v.ledger.queue, e.kind = 0x0C ∧ e.target = 5) := by
    have hdoneU : u.boot.planDone = true := by rw [hboot]; rfl
    have hfusesU : u.boot.fuses = s.boot.fuses := by rw [hboot]; rfl
    have hfail (reason : Nat) : (bootFail u 5 reason).boot.planOk = s.boot.planOk ∧
        (bootFail u 5 reason).boot.capEndpoint = s.boot.capEndpoint := by
      rw [(bootFail_planStays u 5 reason).ok, (bootFail_planStays u 5 reason).endpoint, hboot]
      exact ⟨rfl, rfl⟩
    rw [← hv, planJudged, hgood]
    by_cases hitem : itemOf (dirOf dir) 5 0 plan = .good
    · by_cases hplan : plan.length = 4160 ∧ planGood s plan = true
      · obtain ⟨htaken, hdoneT, hfusesT⟩ := takePlan_taken u plan
        rw [if_neg (not_not.2 hitem), if_pos hplan, if_pos ⟨hitem, hplan⟩]
        exact ⟨hdoneT.trans hdoneU, hfusesT.trans hfusesU, htaken⟩
      · obtain ⟨hok, hend⟩ := hfail 0x0A
        rw [if_neg (not_not.2 hitem), if_neg hplan, if_neg fun h => hplan h.2]
        exact ⟨hdoneU, hfusesU, hok, hend, bootFail_entry u 5 0x0A⟩
    · obtain ⟨hok, hend⟩ := hfail 4
      rw [if_pos hitem, if_neg fun h => hitem h.1]
      exact ⟨hdoneU, hfusesU, hok, hend, bootFail_entry u 5 4⟩
  obtain ⟨hdoneV, hfusesV, hend⟩ := hjudged
  obtain ⟨hstays, h22, h23⟩ := planFollowed_keeps v dir eq
  refine ⟨hstays.done.trans hdoneV, h22, fun heast => h23 (by rw [hasEast_of_fuses hfusesV, heast]), ?_⟩
  split at hend
  next hplan =>
    rw [if_pos hplan]
    obtain ⟨hok, hep, hdigest, hentry⟩ := hend.stays hstays
    exact ⟨hok, hep, hdigest, hentry⟩
  next hplan =>
    rw [if_neg hplan]
    obtain ⟨hok, hep, e, he, hentry⟩ := hend
    exact ⟨hstays.ok.trans hok, hstays.endpoint.trans hep, e, hstays.entries e he, hentry⟩

end Plan

/-! ### Fuses and straps (15 R412, R420) -/

section Fuses

variable {s : State} {fw : Firmware}

/-- The security version fused when the firmware commits a higher one. -/
def svnFused (s : State) (fw : Firmware) : State :=
  if fw.commitSvn && decide (fw.svn > s.boot.fuses.svn) then
    recordRaw { s with boot := { s.boot with fuses := { s.boot.fuses with svn := fw.svn } } } oSteward 0 0x06 0 s.boot.fuses.svn fw.svn
  else s

/-- Root key slot 0 revoked when the firmware asks for it from slot 1. -/
def keyRevoked (s : State) (fw : Firmware) : State :=
  if fw.keySlot == 1 && fw.revoke0 && !s.boot.fuses.revoked0 then
    recordRaw { s with boot := { s.boot with fuses := { s.boot.fuses with revoked0 := true } } } oSteward 0 0x06 1 0 1
  else s

theorem exec_fuseWrite (hfw : s.boot.fw = some fw) (hsteward : s.boot.steward = true) (hsealed : s.ledger.sealed = true)
    (hroom : ledgerRoom s = true) : exec .fuseWrite s = .next (keyRevoked (svnFused s fw) fw) := by
  have hdo : ¬(!s.boot.steward || !s.ledger.sealed || !ledgerRoom s) = true := by simp [hsteward, hsealed, hroom]
  have hexec : exec .fuseWrite s = execFuseWrite s := rfl
  rw [hexec, execFuseWrite, hfw]
  exact congrArg Host.Outcome.next (if_neg hdo)

theorem svnFused_eq (s : State) (fw : Firmware) : (svnFused s fw).boot = { s.boot with fuses := { s.boot.fuses with
      svn := if fw.commitSvn then max s.boot.fuses.svn fw.svn else s.boot.fuses.svn } } ∧
    (svnFused s fw).ledger.queue.length = s.ledger.queue.length + b2n (fw.commitSvn && decide (s.boot.fuses.svn < fw.svn)) := by
  unfold svnFused
  cases hcommit : fw.commitSvn
  · exact ⟨rfl, rfl⟩
  · by_cases hlt : s.boot.fuses.svn < fw.svn
    · rw [if_pos (by simpa using hlt), if_pos rfl, Nat.max_eq_right hlt.le, decide_eq_true hlt]
      exact ⟨rfl, length_recordRaw _ _ _ _ _ _ _⟩
    · rw [if_neg (by simpa using hlt), if_pos rfl, Nat.max_eq_left (Nat.not_lt.1 hlt), decide_eq_false hlt]
      exact ⟨rfl, rfl⟩

theorem keyRevoked_eq (s : State) (fw : Firmware) : (keyRevoked s fw).boot = { s.boot with fuses := { s.boot.fuses with
      revoked0 := s.boot.fuses.revoked0 || (fw.keySlot == 1 && fw.revoke0) } } ∧
    (keyRevoked s fw).ledger.queue.length = s.ledger.queue.length + b2n (fw.keySlot == 1 && fw.revoke0 && !s.boot.fuses.revoked0) := by
  unfold keyRevoked
  split
  next h =>
    rw [h]
    simp only [Bool.and_eq_true] at h
    obtain ⟨⟨hslot, hrevoke⟩, -⟩ := h
    refine ⟨?_, length_recordRaw _ _ _ _ _ _ _⟩
    simp only [hslot, hrevoke, Bool.and_self, Bool.or_true]
    rfl
  next h =>
    rw [Bool.eq_false_of_not_eq_true h]
    refine ⟨?_, rfl⟩
    have hsame : (s.boot.fuses.revoked0 || (fw.keySlot == 1 && fw.revoke0)) = s.boot.fuses.revoked0 := by
      cases hr : s.boot.fuses.revoked0
      · simpa [hr] using h
      · rfl
    rw [hsame]

theorem leads_strapChange {pins : BitVec 14} (hpins : pins ≠ s.boot.pins) : leads (.strapChange pins) s fun t =>
    onlyChanges [.boot, .ledger] s t ∧ t.boot = { s.boot with pins := pins } ∧
    (s.boot.sampled = true → ∃ e, t.ledger.queue = enqueueChange s e ∧ e.kind = 0x01 ∧ e.origin = BitVec.ofNat 8 oStrap ∧
      e.new = padTo 16 (leBytes 16 pins.toNat)) := by
  cases hsampled : s.boot.sampled with
  | true =>
    obtain ⟨e, hq, hkind, -, horigin, -, hnew⟩ := strapsRecorded_enqueues s pins
    exact ⟨_, exec_strapChange_sampled hsampled hpins, (strapsRecorded_moves s pins).only, strapsRecorded_boot s pins,
      fun _ => ⟨e, hq, hkind, horigin, hnew⟩⟩
  | false =>
    have hnot : ¬(withPins s pins).boot.sampled = true := by simp [hsampled]
    exact ⟨withPins s pins, congrArg Host.Outcome.next ((if_neg hpins).trans (if_neg hnot)), (upd_boot (Moves.refl [.boot, .ledger] s) rfl).only,
      rfl, nofun⟩

end Fuses

/-- Settles O24: firmware, plan, fuses and straps, each by the state that its check leaves. -/
theorem firmwareAndFusesAreChecked : Obligations.FirmwareAndFusesAreChecked := by
  unfold Obligations.FirmwareAndFusesAreChecked
  refine ⟨fun s dir l item chain ok slot hawaits hdir hslot hne hitem => ⟨leads_firmware_started hawaits hdir hslot hne hitem,
    fun r hfault => leads_firmware_rejected hawaits hdir hslot hne hitem hfault⟩, fun s hphase =>
    ⟨fun hsteward hdone dir plan eq => leads_wiringPlanCheck hphase hsteward hdone, fun hheld hfw hstrap image => ?jtag⟩,
    fun s fw hfw hsteward hsealed hroom => ?fuses, fun s pins hpins => leads_strapChange hpins⟩
  case jtag => exact ⟨_, congrArg Host.Outcome.next (if_neg (by simp [hphase, hheld, hfw, hstrap])), rfl⟩
  case fuses =>
    obtain ⟨hsvn, hcount⟩ := svnFused_eq s fw
    obtain ⟨hkey, hcount'⟩ := keyRevoked_eq (svnFused s fw) fw
    refine leads_moves (exec_fuseWrite hfw hsteward hsealed hroom) execFuseWrite_moves ⟨?_, ?_⟩
    · rw [hkey, hsvn]
    · rw [hcount', hcount, hsvn]

end Sys2Proof.Proofs

/-! PROOFS. Warm reset and restart of the steward (O25; 15 R408, R414). -/

namespace Sys2Proof.Proofs

open Sys2Proof.Machine Sys2Proof.Safety Sys2Proof.Laws

/-! ### Bits of STAT_READY that clear -/

theorem bit_andNot_ofNat {w v b : Nat} (x : BitVec w) (hb : b < w) :
    bit (x &&& ~~~(BitVec.ofNat w v)).toNat b = (bit x.toNat b && !v.testBit b) := by
  rw [bit_eq_testBit, bit_eq_testBit, BitVec.testBit_toNat, BitVec.getLsbD_and, BitVec.getLsbD_not, BitVec.getLsbD_ofNat, BitVec.testBit_toNat]
  simp [hb]

theorem bit_ready_unreadyBits (s : State) {v b : Nat} (hb : b < 32) :
    bit (unreadyBits s v).boot.ready.toNat b = (bit s.boot.ready.toNat b && !v.testBit b) := bit_andNot_ofNat _ hb

/-! ### What a warm reset discards (15 Table 12.15) -/

/-- Waits under way are settled within the tills, passes, relays and wait counters. -/
theorem settleWaits_narrow (s : State) : Moves [.tills, .ctxs, .relays, .jobFree] s (settleWaits s) := by
  unfold settleWaits
  refine foldl_moves (foldl_moves (foldl_moves (Moves.refl _ s) fun u e h => ?_) fun u e h => ?_) fun u e h => ?_
  · dsimp only
    split
    · exact setTill_moves (jobWait_moves h rfl) rfl
    · exact h
  · dsimp only
    refine ite_moves (fun _ => setCtx_moves (foldl_moves h fun v p hv => ?_) rfl) fun _ => h
    split
    · exact jobWait_moves hv rfl
    · exact hv
  · dsimp only
    exact ite_moves (fun _ => h) fun _ => (setRelay_moves (jobWait_moves h rfl) rfl)

section Warm

variable {s : State}

/-- The state before the discarding: the host interface off, the reset recorded. -/
def warmRecorded (s : State) : State := recordRaw (hostOff (sealLost s)) oDevice srcSteward 0x08 0 0 0

/-- The data path held in reset, the steward stopped, and the core bits clear. -/
def heldInReset (t : State) (lost : List W16) : State :=
  unreadyBits { t with boot := { t.boot with warm := true, steward := false, lostSets := t.boot.lostSets ++ lost, quietNext := true,
                                             allIdle := true, coreAt := none } } (2 ^ 31 + 2 ^ 22 + 2 ^ 23)

/-- A warm reset. -/
def warmed (s : State) : State := heldInReset (warmState (warmRecorded s)) ((warmRecorded s).tables.armed.map (·.set))

theorem exec_warmReset (hrun : s.boot.phase = .run) (hfw : s.boot.fw.isSome = true) (hheld : s.boot.held = false)
    (hwarm : s.boot.warm = false) : exec .warmReset s = .next (warmed s) :=
  congrArg Host.Outcome.next (if_neg (by simp [hrun, hheld, hwarm, Option.isSome_iff_ne_none.1 hfw]))

/-- Ports as the reset leaves them, once what waits is settled. -/
def warmPorts (s : State) : State := s.ports.foldl (fun s e => warmPort s e.1) (settleWaits s)

theorem warmPorts_moves (s : State) : Moves [.tills, .ctxs, .relays, .jobFree, .ports, .lanes] s (warmPorts s) := by
  have hsettled : Moves [.tills, .ctxs, .relays, .jobFree, .ports, .lanes] s (settleWaits s) := (Moves.refl _ s).trans (settleWaits_narrow s) rfl
  exact foldl_moves hsettled fun _ _ h => warmPort_moves h rfl

/-- What of the state after a warm reset's discarding its last step, the free slabs, leaves alone. -/
structure Discarded (s t : State) : Prop where
  tills : t.tills = []
  tallies : t.tallies = []
  relays : t.relays = []
  frames : t.frames = []
  intake : t.intake = []
  ctxs : t.ctxs = []
  parsing : t.parsing = []
  bridge : t.bridge = {}
  writing : t.hbm.writing = []
  progs : t.progs = s.progs.filter fun e => e.2.loading.isNone
  active : t.tables.active = s.tables.active
  armed : t.tables.armed = []
  staged : t.tables.staged = []
  cmd : t.host.cmd = canonMap {} (s.host.cmd.map fun e => (e.1, { e.2 with outstanding := 0 }))
  ready : t.host.ready = []
  blockCounts : t.blockCounts = s.blockCounts
  meters : t.meters = s.meters
  boot : t.boot = s.boot
  ledger : t.ledger = s.ledger

/-- The slabs returned at the end leave what has been discarded. -/
theorem Discarded.pools {u t : State} (h : Discarded s u) (hm : Moves [.pools] u t) : Discarded s t where
  tills := (hm.only .tills (by decide)).trans h.tills
  tallies := (hm.only .tallies (by decide)).trans h.tallies
  relays := (hm.only .relays (by decide)).trans h.relays
  frames := (hm.only .frames (by decide)).trans h.frames
  intake := (hm.only .intake (by decide)).trans h.intake
  ctxs := (hm.only .ctxs (by decide)).trans h.ctxs
  parsing := (hm.only .parsing (by decide)).trans h.parsing
  bridge := (hm.only .bridge (by decide)).trans h.bridge
  writing := (congrArg Hbm.writing (hbm_eq_of_moves hm (by decide) (by decide))).trans h.writing
  progs := (hm.only .progs (by decide)).trans h.progs
  active := (congrArg Tables.active (hm.only .tables (by decide))).trans h.active
  armed := (congrArg Tables.armed (hm.only .tables (by decide))).trans h.armed
  staged := (congrArg Tables.staged (hm.only .tables (by decide))).trans h.staged
  cmd := (congrArg HostIf.cmd (hm.only .host (by decide))).trans h.cmd
  ready := (congrArg HostIf.ready (hm.only .host (by decide))).trans h.ready
  blockCounts := (hm.only .blockCounts (by decide)).trans h.blockCounts
  meters := (hm.only .meters (by decide)).trans h.meters
  boot := (hm.only .boot (by decide)).trans h.boot
  ledger := (hm.only .ledger (by decide)).trans h.ledger

theorem warmState_discarded (s : State) : Discarded s (warmState s) := by
  have hports := warmPorts_moves s
  have hprogs : (warmPorts s).progs = s.progs := hports.only .progs (by decide)
  have htables : (warmPorts s).tables = s.tables := hports.only .tables (by decide)
  have hhost : (warmPorts s).host = s.host := hports.only .host (by decide)
  have hfold : ∃ u, Discarded s u ∧ Moves [.pools] u (warmState s) := by
    unfold warmState
    refine ⟨_, ?_, foldl_moves (Moves.refl _ _) fun _ _ h => setFree_moves h rfl⟩
    exact { tills := rfl, tallies := rfl, relays := rfl, frames := rfl, intake := rfl, ctxs := rfl, parsing := rfl, bridge := rfl,
            writing := rfl, progs := congrArg _ hprogs, active := show (warmPorts s).tables.active = _ by rw [htables], armed := rfl, staged := rfl,
            cmd := congrArg (fun h : HostIf => canonMap ({} : CmdRing) (h.cmd.map fun e => (e.1, { e.2 with outstanding := 0 }))) hhost, ready := rfl, blockCounts := hports.only .blockCounts (by decide),
            meters := hports.only .meters (by decide), boot := hports.only .boot (by decide), ledger := hports.only .ledger (by decide) }
  obtain ⟨u, hu, hmoves⟩ := hfold
  exact hu.pools hmoves

/-- The state that a warm reset records itself in keeps tables, programs and what is counted. -/
theorem warmRecorded_moves (s : State) : Moves [.host, .stats, .pools, .tills, .faults, .ledger, .fresh] s (warmRecorded s) :=
  recordRaw_moves (hostOff_moves (sealLost_moves (Moves.refl _ s) rfl) rfl) rfl

theorem sget_of_forall {α : Type} {d : α} {P : α → Prop} {m : Sparse α} (hd : P d) (h : ∀ e ∈ m, P e.2) (k : Nat) : P (sget d m k) := by
  induction m with
  | nil => exact hd
  | cons e m ih =>
    rw [sget]
    split
    · exact h e List.mem_cons_self
    · exact ih fun x hx => h x (List.mem_cons_of_mem _ hx)

/-- Entries of a map whose values were all replaced are replaced values. -/
theorem mem_canonMap_map {α : Type} [DecidableEq α] {d : α} {f : α → α} {m : Sparse α} {e : Nat × α}
    (h : e ∈ canonMap d (m.map fun e => (e.1, f e.2))) : ∃ x ∈ m, e.2 = f x.2 := by
  obtain ⟨x, hx, rfl⟩ := List.mem_map.1 (List.mem_filter.1 h).1
  exact ⟨x, hx, rfl⟩

/-- Every command ring is off in the host interface that a warm reset leaves. -/
theorem ringEn_cmd_discarded {t : State} (hd : Discarded (warmRecorded s) t) (n : Nat) : ringEn (cmdRing t n).ctl = false := by
  refine sget_of_forall (P := fun r : CmdRing => ringEn r.ctl = false) (by decide) (fun e he => ?_) n
  rw [hd.cmd] at he
  obtain ⟨x, hx, hidle⟩ := mem_canonMap_map (f := fun r : CmdRing => { r with outstanding := 0 }) he
  obtain ⟨y, -, hoff⟩ := mem_canonMap_map (f := offCmd) hx
  rw [hidle]
  change ringEn x.2.ctl = false
  rw [hoff]
  exact ringEn_offBit _

theorem warmed_only (hrun : s.boot.phase = .run) (hfw : s.boot.fw.isSome = true) (hheld : s.boot.held = false)
    (hwarm : s.boot.warm = false) :
    onlyChanges [.boot, .tables, .host, .stats, .ports, .lanes, .frames, .stalled, .reorder, .doneMsgs, .pools, .tandem, .dropping,
      .intake, .parsing, .tills, .tallies, .progs, .ctxs, .tiles, .hbm, .faults, .bridge, .relays, .jobFree, .ledger, .spdm, .fresh] s
      (warmed s) := by
  obtain ⟨t, ht, hmoves⟩ := execWarmReset_moves (s := s)
  obtain rfl : warmed s = t := Host.Outcome.next.inj ((exec_warmReset hrun hfw hheld hwarm).symm.trans ht)
  have hd := warmState_discarded (warmRecorded s)
  have hrec := warmRecorded_moves s
  intro p hp
  by_cases hcounts : p = .blockCounts
  · subst hcounts
    exact hd.blockCounts.trans (hrec.only .blockCounts (by decide))
  · by_cases hmeters : p = .meters
    · subst hmeters
      exact hd.meters.trans (hrec.only .meters (by decide))
    · refine hmoves.only p fun h => hp ?_
      simp only [List.mem_cons, List.not_mem_nil, hcounts, hmeters, or_false, false_or] at h ⊢
      exact h

theorem leads_warmReset (hrun : s.boot.phase = .run) (hfw : s.boot.fw.isSome = true) (hheld : s.boot.held = false)
    (hwarm : s.boot.warm = false) : leads .warmReset s fun t =>
      onlyChanges [.boot, .tables, .host, .stats, .ports, .lanes, .frames, .stalled, .reorder, .doneMsgs, .pools, .tandem, .dropping,
        .intake, .parsing, .tills, .tallies, .progs, .ctxs, .tiles, .hbm, .faults, .bridge, .relays, .jobFree, .ledger, .spdm, .fresh] s t ∧
      t.tills = [] ∧ t.tallies = [] ∧ t.relays = [] ∧ t.frames = [] ∧ t.intake = [] ∧ t.ctxs = [] ∧ t.parsing = [] ∧
      t.bridge = {} ∧ t.hbm.writing = [] ∧ t.progs = s.progs.filter (fun e => e.2.loading.isNone) ∧ t.tables.active = s.tables.active ∧
      t.tables.armed = [] ∧ t.tables.staged = [] ∧ t.boot.warm = true ∧ t.boot.steward = false ∧
      bit t.boot.ready.toNat 31 = false ∧ (∀ n, ringEn (cmdRing t n).ctl = false) ∧ t.host.ready = [] ∧
      ∃ e ∈ t.ledger.queue, e.kind = 0x08 ∧ e.origin = BitVec.ofNat 8 oDevice := by
  have honly := warmed_only hrun hfw hheld hwarm
  refine ⟨warmed s, exec_warmReset hrun hfw hheld hwarm, honly, ?_⟩
  have hd := warmState_discarded (warmRecorded s)
  have hrec := warmRecorded_moves s
  obtain ⟨e, hq, hkind, horigin, -⟩ := recordRaw_entry (hostOff (sealLost s)) oDevice srcSteward 0x08 0 0 0
  have hq' : (warmRecorded s).ledger.queue = enqueueChange (hostOff (sealLost s)) e := hq
  rw [warmed]
  generalize warmState (warmRecorded s) = t at hd
  refine ⟨hd.tills, hd.tallies, hd.relays, hd.frames, hd.intake, hd.ctxs, hd.parsing, hd.bridge, hd.writing, ?_, ?_, hd.armed, hd.staged,
    rfl, rfl, ?_, fun n => show ringEn (cmdRing t n).ctl = false from ringEn_cmd_discarded hd n, hd.ready, e, ?_, hkind, horigin⟩
  · exact hd.progs.trans (by rw [hrec.only .progs (by decide)])
  · exact hd.active.trans (congrArg Tables.active (hrec.only .tables (by decide)))
  · exact (bit_ready_unreadyBits _ (by decide)).trans (by rw [Bool.and_eq_false_iff]; exact .inr (by decide))
  · change e ∈ t.ledger.queue
    rw [hd.ledger, hq']
    exact mem_enqueueChange.2 (.inl rfl)

end Warm

/-! ### Restart and return of the steward (15 R408, R414) -/

section Steward

variable {s : State}

theorem sealLost_sealing (s : State) : (sealLost s).ledger.sealing = none := by
  unfold sealLost
  dsimp only
  split
  next h => exact Option.isNone_iff_eq_none.1 h
  · rfl

/-- The steward stopped, its restart recorded. -/
def restarted (s : State) (exception : Bool) (core : BitVec 2) : State :=
  let t := recordRaw (sealLost s) oSteward core.toNat 0x0A (b2n exception) 0 0
  unreadyBits { t with boot := { t.boot with steward := false }, spdm := { count := t.spdm.count } } (2 ^ 31)

theorem exec_stewardRestart (hrun : s.boot.phase = .run) (hsteward : s.boot.steward = true) (exception : Bool) (core : BitVec 2) :
    exec (.stewardRestart exception core) s = .next (
      if exception then setCause (restarted s exception core) srcSteward stwReset 0
      else setCause (setCause (restarted s exception core) srcSteward stwReset 0) srcSteward stwWatchdog 0) :=
  congrArg Host.Outcome.next (if_neg (by simp [hrun, hsteward]))

theorem leads_stewardRestart (hrun : s.boot.phase = .run) (hsteward : s.boot.steward = true) (exception : Bool) (core : BitVec 2) :
    leads (.stewardRestart exception core) s fun t =>
      onlyChanges [.boot, .host, .stats, .ledger, .spdm, .fresh] s t ∧ t.boot = { s.boot with steward := false, ready := t.boot.ready } ∧
      bit t.boot.ready.toNat 31 = false ∧ t.ledger.sealing = none ∧ bit (statAt t srcSteward).status.toNat stwReset = true ∧
      (exception = false → bit (statAt t srcSteward).status.toNat stwWatchdog = true) ∧
      ∃ e ∈ t.ledger.queue, e.kind = 0x0A ∧ e.originId = core.setWidth 16 := by
  refine leads_moves (exec_stewardRestart hrun hsteward exception core) execStewardRestart_moves ?_
  have hreset := setCause_eventStep (restarted s exception core) srcSteward stwReset 0 0 0 0 none
  have hresetBit : bit (statAt (setCause (restarted s exception core) srcSteward stwReset 0) srcSteward).status.toNat stwReset = true :=
    bit_statAt_setCause (by decide)
  generalize ht : (if exception then _ else _) = t
  have hstep : EventStep (restarted s exception core) t ∧ bit (statAt t srcSteward).status.toNat stwReset = true ∧
      (exception = false → bit (statAt t srcSteward).status.toNat stwWatchdog = true) := by
    rw [← ht]
    cases exception with
    | true => exact ⟨hreset, hresetBit, nofun⟩
    | false =>
      have hdog := setCause_eventStep (setCause (restarted s false core) srcSteward stwReset 0) srcSteward stwWatchdog 0 0 0 0 none
      exact ⟨hreset.trans hdog, hdog.bits _ _ hresetBit, fun _ => bit_statAt_setCause (by decide)⟩
  obtain ⟨hevents, hbit, hdogBit⟩ := hstep
  obtain ⟨e, hq, hkind, -, hid, -⟩ := recordRaw_entry (sealLost s) oSteward core.toNat 0x0A (b2n exception) 0 0
  have hboot : (restarted s exception core).boot =
      { s.boot with steward := false, ready := (restarted s exception core).boot.ready } := by
    have hsame : (sealLost s).boot = s.boot := (sealLost_moves (Moves.refl [.stats, .ledger] s) rfl).only .boot (by decide)
    change { (sealLost s).boot with steward := false, ready := (restarted s exception core).boot.ready } = _
    rw [hsame]
  refine ⟨by rw [hevents.boot]; exact hboot, ?_, ?_, hbit, hdogBit, e, ?_, hkind, hid.trans ?_⟩
  · rw [hevents.boot]
    exact (bit_ready_unreadyBits _ (by decide)).trans (by rw [Bool.and_eq_false_iff]; exact .inr (by decide))
  · rw [hevents.ledger]
    exact sealLost_sealing s
  · rw [hevents.ledger]
    exact (show (restarted s exception core).ledger.queue = _ from hq) ▸ mem_enqueueChange.2 (.inl rfl)
  · apply BitVec.eq_of_toNat_eq
    simp

/-- The lost sets recorded one after another. -/
def lostRecorded (l : List W16) (s : State) : State :=
  l.foldl (fun s x => recordRaw s oDevice srcCoreW 0x13 x.toNat 0 (Config.lostCode x)) s

theorem lostRecorded_keeps (l : List W16) (s : State) : (lostRecorded l s).boot = s.boot ∧
    (lostRecorded l s).ledger.queue.length = s.ledger.queue.length + l.length ∧ Moves [.ledger] s (lostRecorded l s) := by
  induction l generalizing s with
  | nil => exact ⟨rfl, rfl, Moves.refl _ s⟩
  | cons x l ih =>
    obtain ⟨hboot, hlength, hmoves⟩ := ih (recordRaw s oDevice srcCoreW 0x13 x.toNat 0 (Config.lostCode x))
    refine ⟨hboot, ?_, (recordRaw_moves (Moves.refl _ s) rfl).trans hmoves rfl⟩
    rw [length_recordRaw] at hlength
    exact hlength.trans (by rw [List.length_cons]; omega)

/-- The steward running again, its lost sets on record. -/
def stewardBack (s : State) : State := recordLost (readyBits { s with boot := { s.boot with steward := true } } (2 ^ 31))

theorem stewardBack_eq (s : State) : (stewardBack s).boot =
      { s.boot with steward := true, ready := s.boot.ready ||| BitVec.ofNat 32 (2 ^ 31), lostSets := [] } ∧
    (stewardBack s).ledger.queue.length = s.ledger.queue.length + s.boot.lostSets.length ∧
    Moves [.boot, .ports, .ledger] s (stewardBack s) := by
  obtain ⟨hboot, hlength, hmoves⟩ := lostRecorded_keeps s.boot.lostSets
    (readyBits { s with boot := { s.boot with steward := true } } (2 ^ 31))
  have hback : stewardBack s = (let u := lostRecorded s.boot.lostSets (readyBits { s with boot := { s.boot with steward := true } } (2 ^ 31))
    { u with boot := { u.boot with lostSets := [] } }) := rfl
  have hready : Moves [.boot, .ports, .ledger] s (readyBits { s with boot := { s.boot with steward := true } } (2 ^ 31)) :=
    upd_boot (upd_boot (Moves.refl _ s) rfl) rfl
  rw [hback]
  refine ⟨?_, hlength, upd_boot (hready.trans hmoves rfl) rfl⟩
  dsimp only
  rw [hboot]
  rfl

/-- After a warm reset the ports start again and the lanes settle. -/
def quietBegun (s : State) : State := settleIdle (quietPorts { s with boot := { s.boot with quietNext := false } })

theorem quietBegun_keeps (s : State) : (quietBegun s).ledger = s.ledger ∧ (∃ idle, (quietBegun s).boot =
    { s.boot with quietNext := false, allIdle := idle }) ∧ Moves [.boot, .ports, .ledger] s (quietBegun s) := by
  have hquiet (u : State) : Moves [.ports] u (quietPorts u) := foldl_moves (Moves.refl _ u) fun _ _ h => modLink_moves h rfl
  have hu := hquiet { s with boot := { s.boot with quietNext := false } }
  have hboot := hu.only .boot (by decide)
  obtain ⟨idle, hidle⟩ : ∃ idle, (quietBegun s).boot =
      { (quietPorts { s with boot := { s.boot with quietNext := false } }).boot with allIdle := idle } := ⟨_, rfl⟩
  refine ⟨hu.only .ledger (by decide), ⟨idle, by rw [hidle, hboot]⟩, ?_⟩
  have hset : Moves [.boot, .ports, .ledger] s { s with boot := { s.boot with quietNext := false } } := upd_boot (Moves.refl _ s) rfl
  exact upd_boot (hset.trans hu rfl) rfl

theorem exec_stewardReturn (hrun : s.boot.phase = .run) (hsteward : s.boot.steward = false) (hfw : s.boot.fw.isSome = true)
    (hheld : s.boot.held = false) (hwarm : s.boot.warm = false) : exec .stewardReturn s = .next (
      if s.boot.quietNext && s.faults.image then imageMismatch s
      else if (stewardBack s).boot.quietNext then quietBegun (stewardBack s) else stewardBack s) :=
  congrArg Host.Outcome.next (if_neg (by simp [hrun, hsteward, hheld, hwarm, Option.isSome_iff_ne_none.1 hfw]))

theorem leads_stewardReturn (hrun : s.boot.phase = .run) (hsteward : s.boot.steward = false) (hfw : s.boot.fw.isSome = true)
    (hheld : s.boot.held = false) (hwarm : s.boot.warm = false) (hmatch : s.boot.quietNext = false ∨ s.faults.image = false) :
    leads .stewardReturn s fun t => onlyChanges [.boot, .ports, .ledger] s t ∧ t.boot.steward = true ∧ bit t.boot.ready.toNat 31 = true ∧
      t.boot.lostSets = [] ∧ t.ledger.queue.length = s.ledger.queue.length + s.boot.lostSets.length := by
  have hexec := exec_stewardReturn hrun hsteward hfw hheld hwarm
  have hnot : (s.boot.quietNext && s.faults.image) = false := by rcases hmatch with h | h <;> simp [h]
  rw [hnot, if_neg Bool.false_ne_true] at hexec
  obtain ⟨hboot, hlength, hmoves⟩ := stewardBack_eq s
  have hready : bit (stewardBack s).boot.ready.toNat 31 = true := by
    rw [hboot]
    exact bit_or_twoPow _ (by decide)
  refine ⟨_, hexec, ?_⟩
  split
  · obtain ⟨hledger, ⟨idle, hboot'⟩, hmoves'⟩ := quietBegun_keeps (stewardBack s)
    refine ⟨(hmoves.trans hmoves' rfl).only, ?_, ?_, ?_, by rw [hledger, hlength]⟩
    · rw [hboot', hboot]
    · rw [hboot']
      exact hready
    · rw [hboot', hboot]
  · exact ⟨hmoves.only, by rw [hboot], hready, by rw [hboot], hlength⟩

theorem imageMismatch_boot (s : State) : (imageMismatch s).boot =
    { s.boot with held := true, quietNext := false, allIdle := true, coreAt := none,
                  ready := s.boot.ready &&& ~~~(BitVec.ofNat 32 (2 ^ 31 + 2 ^ 22 + 2 ^ 23 + 0xFFFF)) } := rfl

theorem leads_stewardMismatch (hrun : s.boot.phase = .run) (hsteward : s.boot.steward = false) (hfw : s.boot.fw.isSome = true)
    (hheld : s.boot.held = false) (hwarm : s.boot.warm = false) (hquiet : s.boot.quietNext = true) (himage : s.faults.image = true) :
    leads .stewardReturn s fun t => onlyChanges [.boot, .ledger] s t ∧ t.boot.held = true ∧ t.boot.steward = false ∧ t.boot.allIdle = true ∧
      (∀ k, k < 16 ∨ k = 22 ∨ k = 23 ∨ k = 31 → bit t.boot.ready.toNat k = false) ∧ ∃ e ∈ t.ledger.queue, e.kind = 0x0C := by
  have hexec := exec_stewardReturn hrun hsteward hfw hheld hwarm
  rw [hquiet, himage, Bool.and_self, if_pos rfl] at hexec
  obtain ⟨e, he, hkind, -⟩ := bootFail_entry { s with boot := { s.boot with quietNext := false, allIdle := true, coreAt := none } } 0
    Config.mismatchReason
  refine ⟨_, hexec, ?_, rfl, hsteward, rfl, fun k hk => ?_, e, he, hkind⟩
  · exact (upd_boot (upd_boot (recordRaw_moves (upd_boot (Moves.refl _ s) rfl) rfl) rfl) rfl).only
  · rw [imageMismatch_boot]
    have hmask : ∀ k < 32, (k < 16 ∨ k = 22 ∨ k = 23 ∨ k = 31) → (2 ^ 31 + 2 ^ 22 + 2 ^ 23 + 0xFFFF : Nat).testBit k = true := by decide
    have hlt : k < 32 := by omega
    exact (bit_andNot_ofNat _ hlt).trans (by rw [hmask k hlt hk, Bool.not_true, Bool.and_false])

end Steward

/-- Settles O25: the warm reset and its release, the restart of the steward and its return. -/
theorem warmResetAndStewardRestart : Obligations.WarmResetAndStewardRestart := by
  unfold Obligations.WarmResetAndStewardRestart
  refine ⟨fun s => ⟨leads_warmReset, fun hwarm => ⟨_, congrArg Host.Outcome.next (if_neg (by simp [hwarm])), rfl⟩⟩, fun s hrun =>
    ⟨fun hsteward exception core => leads_stewardRestart hrun hsteward exception core, fun hsteward hfw hheld hwarm =>
    ⟨leads_stewardReturn hrun hsteward hfw hheld hwarm, leads_stewardMismatch hrun hsteward hfw hheld hwarm⟩⟩⟩

end Sys2Proof.Proofs

/-! PROOFS. What temperatures bring about (O26; 01 R18; 16 R446, R450, R451). -/

namespace Sys2Proof.Proofs

open Sys2Proof.Machine Sys2Proof.Safety Sys2Proof.Laws

/-! ### Lists written entry by entry -/

section Writes

variable {α : Type} {d : α}

theorem set_getD (l : List α) (i : Nat) : l.set i (l.getD i d) = l := by
  by_cases h : i < l.length
  · rw [List.getD_eq_getElem _ _ h]
    exact List.set_getElem_self h
  · exact List.set_eq_of_length_le (Nat.not_lt.1 h)

theorem getD_set_same {l : List α} {i : Nat} (v : α) (h : i < l.length) : (l.set i v).getD i d = v := by
  rw [List.getD_eq_getElem _ _ (by simpa using h), List.getElem_set_self]

theorem getD_set_other {l : List α} {i j : Nat} (v : α) (h : i ≠ j) : (l.set i v).getD j d = l.getD j d := by
  rw [List.getD_eq_getElem?_getD, List.getElem?_set_ne h, ← List.getD_eq_getElem?_getD]

end Writes

/-! ### A die's reading (16 R450) -/

section Dies

/-- The bits there are stay, and so does what a reading is not about. -/
structure ReadStep (s t : State) : Prop where
  temps : t.boot.temps = s.boot.temps
  trip : t.boot.thermtrip = s.boot.thermtrip
  fuses : t.boot.fuses = s.boot.fuses
  bits : ∀ src b, bit (statAt s src).status.toNat b = true → bit (statAt t src).status.toNat b = true

namespace ReadStep

variable {s t u : State}

theorem trans (h : ReadStep s t) (g : ReadStep t u) : ReadStep s u where
  temps := g.temps.trans h.temps
  trip := g.trip.trans h.trip
  fuses := g.fuses.trans h.fuses
  bits src b hb := g.bits src b (h.bits src b hb)

theorem refl (s : State) : ReadStep s s := ⟨rfl, rfl, rfl, fun _ _ hb => hb⟩

theorem of_event (h : EventStep s t) : ReadStep s t := ⟨by rw [h.boot], by rw [h.boot], by rw [h.boot], h.bits⟩

end ReadStep

variable {s : State} {die : Nat} {t : Int}

/-- The throttle of one die set. -/
def throttlePut (s : State) (die : Nat) (v : Option (Nat × BitVec 48 × Nat × Nat)) : State :=
  { s with boot := { s.boot with throttle := s.boot.throttle.set die v } }

/-- What a die's reading leaves: its throttle, begun at 105 degrees and over below 100, and a bit when it begins. -/
structure DieRead (s t : State) (die : Nat) (temp : Int) (v : Option (Nat × BitVec 48 × Nat × Nat)) : Prop where
  step : ReadStep s t
  throttle : t.boot.throttle = s.boot.throttle.set die v
  hbm : t.hbm = s.hbm
  hotter : 105 ≤ temp → v.isSome = true
  cooler : temp < 100 → v = none
  begun : 105 ≤ temp → s.boot.throttle.getD die none = none → bit (statAt t (srcCore die)).status.toNat 5 = true

theorem throttleDie_read (s : State) (die : Nat) (temp : Int) : ∃ v, DieRead s (throttleDie s die temp) die temp v := by
  unfold throttleDie
  dsimp only
  split
  next hnone =>
    split
    next hhot =>
      have hnoted := noteState_eventStep
        (raiseIbi (throttlePut s die (some (withheldOf temp, s.tick.num, withheldOf temp, 1))) 0x01) (srcCore die) 5 die
      refine ⟨some (withheldOf temp, s.tick.num, withheldOf temp, 1), ?_⟩
      exact { step := (ReadStep.mk rfl rfl rfl fun _ _ hb => hb : ReadStep s (raiseIbi (throttlePut s die _) 0x01)).trans (.of_event hnoted)
              throttle := congrArg Boot.throttle hnoted.boot
              hbm := hnoted.hbm
              hotter := fun _ => rfl
              cooler := fun h => absurd h (by omega)
              begun := fun _ _ => bit_statAt_noteState (by decide) }
    next hcold =>
      refine ⟨none, ReadStep.refl s, ?_, rfl, fun h => absurd h hcold, fun _ => rfl, fun h => absurd h hcold⟩
      rw [← hnone, set_getD]
  next x start sum n hsome =>
    split
    next hwarm =>
      exact ⟨_, ReadStep.mk rfl rfl rfl fun _ _ hb => hb, rfl, rfl, fun _ => rfl, fun h => absurd h (by omega),
        fun _ h => absurd (hsome.symm.trans h) nofun⟩
    next hcold =>
      exact ⟨none, ReadStep.mk rfl rfl rfl fun _ _ hb => hb, rfl, rfl, fun h => absurd h (by omega), fun _ => rfl,
        fun h => absurd h (by omega)⟩

theorem readDie_read (s : State) (die : Nat) (temp : Int) : ∃ v, DieRead s (readDie s die temp) die temp v := by
  obtain ⟨v, hstep, hthrottle, hhbm, hhot, hcool, hbegun⟩ := throttleDie_read s die temp
  have hmoves (f f' : Nat) : Moves [.ctxs] (throttleDie s die temp) (rethrottle (throttleDie s die temp) die f f') :=
    rethrottle_moves (Moves.refl _ _) rfl
  have hboot (f f' : Nat) := (hmoves f f').only .boot (by decide)
  have hstats (f f' : Nat) (src : Nat) : statAt (rethrottle (throttleDie s die temp) die f f') src = statAt (throttleDie s die temp) src := by
    rw [statAt, (hmoves f f').only .stats (by decide), statAt]
  have hkeep (f f' : Nat) : ReadStep (throttleDie s die temp) (rethrottle (throttleDie s die temp) die f f') :=
    ⟨by rw [hboot], by rw [hboot], by rw [hboot], fun src b hb => by rwa [hstats]⟩
  refine ⟨v, hstep.trans (hkeep _ _), (congrArg Boot.throttle (hboot _ _)).trans hthrottle,
    (hbm_eq_of_moves (hmoves _ _) (by decide) (by decide)).trans hhbm, hhot, hcool, fun h hn => ?_⟩
  exact (hkeep _ _).bits _ _ (hbegun h hn)

end Dies

/-! ### A stack's reading (12 Table 12.5) -/

section Stacks

/-- One stack's state with its HOT bit. -/
def stackSet (s : State) (k : Nat) (hot : Bool) : List Stack := s.hbm.stackOf.set k { s.hbm.stackOf.getD k {} with hot := hot }

theorem heatStack_read (s : State) (k : Nat) (t : Int) : ReadStep s (heatStack s k t) ∧ (heatStack s k t).boot = s.boot ∧
    (heatStack s k t).hbm.stackOf = stackSet s k (decide (t ≥ 85)) := by
  have hset : ReadStep s { s with hbm := { s.hbm with stackOf := stackSet s k (decide (t ≥ 85)) } } := ⟨rfl, rfl, rfl, fun _ _ hb => hb⟩
  have hnoted := noteState_eventStep { s with hbm := { s.hbm with stackOf := stackSet s k (decide (t ≥ 85)) } } (srcHbm k) 5 0
  unfold heatStack
  dsimp only
  split
  · exact ⟨hset.trans (.of_event hnoted), hnoted.boot, congrArg Hbm.stackOf hnoted.hbm⟩
  · exact ⟨hset, rfl, rfl⟩

/-- Stacks read one after another: each read one has its HOT bit, the others are as before. -/
theorem foldl_heatStack (l : List (Nat × Int)) (hnodup : (l.map Prod.fst).Nodup) (s : State) :
    let t := l.foldl (fun s e => heatStack s e.1 e.2) s
    ReadStep s t ∧ t.boot = s.boot ∧ t.hbm.stackOf.length = s.hbm.stackOf.length ∧
      (∀ k, k ∉ l.map Prod.fst → t.hbm.stackOf.getD k {} = s.hbm.stackOf.getD k {}) ∧
      ∀ e ∈ l, e.1 < s.hbm.stackOf.length → (t.hbm.stackOf.getD e.1 {}).hot = decide (e.2 ≥ 85) := by
  induction l generalizing s with
  | nil => exact ⟨.refl s, rfl, rfl, fun _ _ => rfl, nofun⟩
  | cons e l ih =>
    obtain ⟨hstep, hboot, hstack⟩ := heatStack_read s e.1 e.2
    obtain ⟨hnot, hrest⟩ := List.nodup_cons.1 hnodup
    obtain ⟨gstep, gboot, glength, gother, gread⟩ := ih hrest (heatStack s e.1 e.2)
    have hlength : (heatStack s e.1 e.2).hbm.stackOf.length = s.hbm.stackOf.length := by rw [hstack, stackSet, List.length_set]
    refine ⟨hstep.trans gstep, gboot.trans hboot, glength.trans hlength, fun k hk => ?_, fun x hx hlt => ?_⟩
    · obtain ⟨hne, hk'⟩ : k ≠ e.1 ∧ k ∉ l.map Prod.fst := by simpa using hk
      exact (gother k hk').trans (by rw [hstack, stackSet, getD_set_other _ (Ne.symm hne)])
    · rcases List.mem_cons.1 hx with rfl | hx'
      · rw [List.foldl_cons, gother x.1 hnot, hstack, stackSet, getD_set_same _ hlt]
      · exact gread x hx' (by rw [hlength]; exact hlt)

/-- Temperatures of stacks written one after another. -/
theorem foldl_setTemps (l : List (Nat × Int)) (hnodup : (l.map Prod.fst).Nodup) (m : List (Option Int)) :
    let t := l.foldl (fun m e => m.set (2 + e.1) (some e.2)) m
    t.length = m.length ∧ (∀ i, (∀ e ∈ l, i ≠ 2 + e.1) → t.getD i none = m.getD i none) ∧
      ∀ e ∈ l, 2 + e.1 < m.length → t.getD (2 + e.1) none = some e.2 := by
  induction l generalizing m with
  | nil => exact ⟨rfl, fun _ _ => rfl, nofun⟩
  | cons e l ih =>
    obtain ⟨hnot, hrest⟩ := List.nodup_cons.1 hnodup
    obtain ⟨glength, gother, gread⟩ := ih hrest (m.set (2 + e.1) (some e.2))
    have hlength : (m.set (2 + e.1) (some e.2)).length = m.length := List.length_set
    refine ⟨glength.trans hlength, fun i hi => ?_, fun x hx hlt => ?_⟩
    · exact (gother i fun x hx => hi x (List.mem_cons_of_mem _ hx)).trans (getD_set_other _ (hi e List.mem_cons_self).symm)
    · rcases List.mem_cons.1 hx with rfl | hx'
      · refine (gother _ fun y hy hxy => hnot ?_).trans (getD_set_same _ hlt)
        rw [show x.1 = y.1 by omega]
        exact List.mem_map_of_mem hy
      · exact gread x hx' (by rw [hlength]; exact hlt)

end Stacks

/-! ### A reading of every sensor -/

section Sensors

variable {s : State} {west east : Int} {hs : List Int}

/-- The dies read. -/
def diesRead (s : State) (west east : Int) : List (Nat × Int) := (0, west) :: (if hasEast s then [(1, east)] else [])

/-- The stacks read. -/
def stacksRead (s : State) (hs : List Int) : List (Nat × Int) := ((List.range 4).zip hs).filter fun e => hasStack s e.1

theorem stacksRead_nodup (s : State) (hlen : hs.length = 4) : ((stacksRead s hs).map Prod.fst).Nodup := by
  refine List.Nodup.sublist (List.filter_sublist.map _) ?_
  rw [List.map_fst_zip (by simp [hlen])]
  exact List.nodup_range

theorem mem_stacksRead (hlen : hs.length = 4) {e : Nat × Int} :
    e ∈ stacksRead s hs ↔ e.1 < 4 ∧ hasStack s e.1 = true ∧ e.2 = hs.getD e.1 0 := by
  obtain ⟨a, b, c, d, rfl⟩ : ∃ a b c d, hs = [a, b, c, d] := by
    match hs, hlen with
    | [a, b, c, d], _ => exact ⟨a, b, c, d, rfl⟩
  obtain ⟨k, t⟩ := e
  have hzip : (List.range 4).zip [a, b, c, d] = [(0, a), (1, b), (2, c), (3, d)] := rfl
  rw [stacksRead, List.mem_filter, hzip]
  simp only [List.mem_cons, List.not_mem_nil, or_false, Prod.mk.injEq]
  constructor
  · rintro ⟨(⟨rfl, rfl⟩ | ⟨rfl, rfl⟩ | ⟨rfl, rfl⟩ | ⟨rfl, rfl⟩), hstack⟩ <;> exact ⟨by decide, hstack, rfl⟩
  · rintro ⟨hk, hstack, rfl⟩
    refine ⟨?_, hstack⟩
    interval_cases k <;> simp

/-- Temperatures kept. -/
def tempsRead (s : State) (west east : Int) (hs : List Int) : State :=
  let temps := (diesRead s west east).foldl (fun l e => l.set e.1 (some e.2)) s.boot.temps
  let temps := (stacksRead s hs).foldl (fun l e => l.set (2 + e.1) (some e.2)) temps
  { s with boot := { s.boot with temps := temps } }

/-- Every die's and stack's reading carried out. -/
def sensed (s : State) (west east : Int) (hs : List Int) : State :=
  let t := (diesRead s west east).foldl (fun s e => readDie s e.1 e.2) (tempsRead s west east hs)
  (stacksRead s hs).foldl (fun s e => heatStack s e.1 e.2) t

/-- A reading trips the device. -/
def tripRead (s : State) (west east : Int) (hs : List Int) : Bool :=
  (diesRead s west east).any (fun e => decide (e.2 ≥ 125)) || (stacksRead s hs).any fun e => decide (e.2 ≥ 105)

/-- A reading comes near a trip. -/
def nearRead (s : State) (west east : Int) (hs : List Int) : Bool :=
  (diesRead s west east).any (fun e => decide (e.2 ≥ 120)) || (stacksRead s hs).any fun e => decide (e.2 ≥ 100)

/-- The trip, and the interrupt that goes before it. -/
def tripped (s : State) (near trip : Bool) : State :=
  let t := if near then raiseIbi s 0x02 else s
  if trip then { t with boot := { t.boot with thermtrip := true, allIdle := true } } else t

theorem exec_sensorRead (hrun : s.boot.phase = .run) : exec (.sensorRead west east hs) s =
    .next (tripped (sensed s west east hs) (nearRead s west east hs) (tripRead s west east hs)) :=
  congrArg Host.Outcome.next (if_neg (not_not.2 hrun))

theorem tripped_keeps (s : State) (near trip : Bool) : (tripped s near trip).boot.temps = s.boot.temps ∧
    (tripped s near trip).boot.throttle = s.boot.throttle ∧ (tripped s near trip).stats = s.stats ∧ (tripped s near trip).hbm = s.hbm ∧
    (tripped s near trip).boot.thermtrip = (trip || s.boot.thermtrip) := by
  cases near <;> cases trip <;> exact ⟨rfl, rfl, rfl, rfl, rfl⟩

/-- What the dies' readings leave: the west die's throttle, and everything that the stacks are about. -/
theorem diesRead_west (s u : State) (hthrottle : u.boot.throttle.length = 2) :
    let t := (diesRead s west east).foldl (fun s e => readDie s e.1 e.2) u
    ReadStep u t ∧ t.hbm = u.hbm ∧ (105 ≤ west → throttled t 0 = true ∧
      (throttled u 0 = false → bit (statAt t srcCoreW).status.toNat 5 = true)) ∧ (west < 100 → throttled t 0 = false) := by
  obtain ⟨v, hstep, hset, hhbm, hhot, hcool, hbegun⟩ := readDie_read u 0 west
  have hwest : (readDie u 0 west).boot.throttle.getD 0 none = v := by rw [hset, getD_set_same _ (by omega)]
  have hnone (h : throttled u 0 = false) : u.boot.throttle.getD 0 none = none := by simpa [throttled] using h
  have hfirst : ReadStep u (readDie u 0 west) ∧ (readDie u 0 west).hbm = u.hbm ∧
      (105 ≤ west → throttled (readDie u 0 west) 0 = true ∧
        (throttled u 0 = false → bit (statAt (readDie u 0 west) srcCoreW).status.toNat 5 = true)) ∧
      (west < 100 → throttled (readDie u 0 west) 0 = false) := by
    refine ⟨hstep, hhbm, fun h => ⟨by rw [throttled, hwest, hhot h], fun hn => hbegun h (hnone hn)⟩, fun h => ?_⟩
    rw [throttled, hwest, hcool h]
    rfl
  unfold diesRead
  split
  · obtain ⟨v', hstep', hset', hhbm', -⟩ := readDie_read (readDie u 0 west) 1 east
    have hsame : throttled (readDie (readDie u 0 west) 1 east) 0 = throttled (readDie u 0 west) 0 := by
      rw [throttled, hset', getD_set_other _ (by decide), throttled]
    obtain ⟨-, -, hhigh, hlow⟩ := hfirst
    refine ⟨hstep.trans hstep', hhbm'.trans hhbm, fun h => ⟨hsame.trans (hhigh h).1, fun hn => hstep'.bits _ _ ((hhigh h).2 hn)⟩,
      fun h => hsame.trans (hlow h)⟩
  · exact hfirst

theorem tempsRead_temps (hlen : hs.length = 4) (htemps : s.boot.temps.length = 6) :
    (tempsRead s west east hs).boot.temps.head? = some (some west) ∧
    ∀ k < 4, hasStack s k = true → (tempsRead s west east hs).boot.temps.getD (2 + k) none = some (hs.getD k 0) := by
  have hdies : ((diesRead s west east).foldl (fun l e => l.set e.1 (some e.2)) s.boot.temps).length = 6 ∧
      ((diesRead s west east).foldl (fun l e => l.set e.1 (some e.2)) s.boot.temps).getD 0 none = some west := by
    unfold diesRead
    split
    · refine ⟨by simp [htemps], ?_⟩
      exact (getD_set_other _ Nat.one_ne_zero).trans (getD_set_same _ (by omega))
    · exact ⟨by simp [htemps], getD_set_same _ (by omega)⟩
  obtain ⟨hlength, hwest⟩ := hdies
  obtain ⟨glength, gother, gread⟩ := foldl_setTemps (stacksRead s hs) (stacksRead_nodup s hlen)
    ((diesRead s west east).foldl (fun l e => l.set e.1 (some e.2)) s.boot.temps)
  refine ⟨?_, fun k hk hstack => ?_⟩
  · have hfirst : (tempsRead s west east hs).boot.temps.getD 0 none = some west := (gother 0 fun e _ => by omega).trans hwest
    have hlong : 0 < (tempsRead s west east hs).boot.temps.length := by
      have h6 : (tempsRead s west east hs).boot.temps.length = 6 := glength.trans hlength
      omega
    rw [List.getD_eq_getElem _ _ hlong] at hfirst
    rw [List.head?_eq_getElem?, List.getElem?_eq_getElem hlong, hfirst]
  · exact gread (k, hs.getD k 0) ((mem_stacksRead hlen).2 ⟨hk, hstack, rfl⟩) (by rw [hlength]; change 2 + k < 6; omega)

theorem tripRead_iff (hlen : hs.length = 4) : tripRead s west east hs = true ↔
    125 ≤ west ∨ (hasEast s = true ∧ 125 ≤ east) ∨ ∃ k < 4, hasStack s k = true ∧ 105 ≤ hs.getD k 0 := by
  have hdies : (diesRead s west east).any (fun e => decide (e.2 ≥ 125)) = true ↔ 125 ≤ west ∨ (hasEast s = true ∧ 125 ≤ east) := by
    unfold diesRead
    split
    next h => simp [h]
    next h => simp [h]
  have hstacks : (stacksRead s hs).any (fun e => decide (e.2 ≥ 105)) = true ↔ ∃ k < 4, hasStack s k = true ∧ 105 ≤ hs.getD k 0 := by
    rw [List.any_eq_true]
    constructor
    · rintro ⟨e, he, hhot⟩
      obtain ⟨hk, hstack, ht⟩ := (mem_stacksRead hlen).1 he
      exact ⟨e.1, hk, hstack, ht ▸ of_decide_eq_true hhot⟩
    · rintro ⟨k, hk, hstack, hhot⟩
      exact ⟨(k, hs.getD k 0), (mem_stacksRead hlen).2 ⟨hk, hstack, rfl⟩, decide_eq_true hhot⟩
  rw [tripRead, Bool.or_eq_true, hdies, hstacks, or_assoc]

end Sensors

/-- Settles O26: the temperatures kept, the west die's throttle, the stacks' HOT, and the trip. -/
theorem sensorsActOnTemperature : Obligations.SensorsActOnTemperature := by
  unfold Obligations.SensorsActOnTemperature
  intro s west east hs hrun htemps hthrottle hstacks hlen
  refine leads_moves (exec_sensorRead hrun) (runs_widen execSensorRead_moves rfl) ?_
  obtain ⟨ktemps, kthrottle, kstats, khbm, ktrip⟩ := tripped_keeps (sensed s west east hs) (nearRead s west east hs) (tripRead s west east hs)
  obtain ⟨hhead, htempsStack⟩ := tempsRead_temps (west := west) (east := east) hlen htemps
  obtain ⟨dstep, dhbm, dhot, dcool⟩ := diesRead_west (west := west) (east := east) s (tempsRead s west east hs) hthrottle
  obtain ⟨hstep, hboot, -, -, hread⟩ := foldl_heatStack (stacksRead s hs) (stacksRead_nodup s hlen)
    ((diesRead s west east).foldl (fun s e => readDie s e.1 e.2) (tempsRead s west east hs))
  have htemps' : (sensed s west east hs).boot.temps = (tempsRead s west east hs).boot.temps := (dstep.trans hstep).temps
  have hthrottled : throttled (tripped (sensed s west east hs) (nearRead s west east hs) (tripRead s west east hs)) 0 =
      throttled ((diesRead s west east).foldl (fun s e => readDie s e.1 e.2) (tempsRead s west east hs)) 0 := by
    rw [throttled, kthrottle, show (sensed s west east hs).boot = _ from hboot, throttled]
  refine ⟨by rw [ktemps, htemps', hhead], fun h => ⟨hthrottled.trans (dhot h).1, fun hn => ?_⟩, fun h => hthrottled.trans (dcool h),
    fun k hk hstack => ⟨by rw [ktemps, htemps', htempsStack k hk hstack], ?_⟩, ?_⟩
  · rw [statAt, kstats, ← statAt]
    exact hstep.bits _ _ ((dhot h).2 hn)
  · rw [khbm]
    refine hread (k, hs.getD k 0) ((mem_stacksRead hlen).2 ⟨hk, hstack, rfl⟩) ?_
    rw [dhbm]
    change k < s.hbm.stackOf.length
    omega
  · have hold : (sensed s west east hs).boot.thermtrip = s.boot.thermtrip := (dstep.trans hstep).trip
    rw [ktrip, hold, Bool.or_eq_true, tripRead_iff hlen, or_comm]

end Sys2Proof.Proofs

/-! PROOFS. Commands that copy records to the host (O27; 06 R190). -/

namespace Sys2Proof.Proofs

open Sys2Proof.Machine Sys2Proof.Safety Sys2Proof.Laws

/-- A till of job 0 that began to wait in cycle 0. -/
def waitingTill : Till := { st := .waitAdmit, words := [], shard := [], scales := [], fuse := [], chunks := [], epoch := 0, waitAt := some 0 }

/-- Cycle 0 of a device whose one till waits, and whose wait counters list the same counter twice: the first entry 0, the second 5. No
canonical form is asked of State.jobFree (Safety.mapsCanonical). -/
def listedTwice : State := { State.reset with tills := [(0, waitingTill)], jobFree := [(2, 0), (2, 5)] }

/-- No time has passed, so the counter reads 0 before and is to read 0 after; but an entry that is written 0 leaves the list, and the counter
reads the second one. -/
theorem settleWaits_listedTwice : sget 0 (settleWaits listedTwice).jobFree 2 = 5 ∧
    satAdd Config.sat48 (sget 0 listedTwice.jobFree 2) (listedTwice.now - 0) = 0 := by decide

/-- Refutes O27: the clause on settled waits fails where State.jobFree lists a counter twice, which mapsCanonical allows. -/
theorem not_copiesAreWritten : ¬ Obligations.CopiesAreWritten := by
  unfold Obligations.CopiesAreWritten
  rintro ⟨hclauses, -⟩
  have hmaps : mapsCanonical listedTwice := by decide
  obtain ⟨-, -, -, hsettle⟩ := hclauses listedTwice 0 ⟨0, 0, 0, 0, 0, 0, 0, 0⟩ hmaps
  obtain ⟨hcounter, -⟩ := hsettle 0 waitingTill 0 rfl rfl rfl rfl
  obtain ⟨hafter, hbefore⟩ := settleWaits_listedTwice
  have hjob : tJob waitingTill.words * 8 + 2 = 2 := by decide
  rw [hjob, hafter, hbefore] at hcounter
  exact absurd hcounter (by decide)

end Sys2Proof.Proofs

/-! PROOFS. Commit sets staged, armed and cancelled (O28; 07 R218-R220; 13 R377). -/

namespace Sys2Proof.Proofs

open Sys2Proof.Machine Sys2Proof.Safety Sys2Proof.Laws

/-! ### STAGE (13 R377, Table 13.9) -/

section Stage

variable {s : State} {ring : BitVec 6} {d : Desc} {image : List W64} {w count cap : Nat}

theorem entryRefused_of_ports {t : State} (h : t.ports = s.ports) (tid i : Nat) (e : List W64) :
    entryRefused t tid i e = entryRefused s tid i e := by
  have hport (p : Nat) : isPort t p = isPort s p := by rw [isPort, portAt, h, ← portAt, ← isPort]
  unfold entryRefused
  simp only [hport]

theorem activeEntry_of_same {t : State} (htick : t.tick = s.tick) (htables : t.tables.active = s.tables.active) (hfaults : t.faults = s.faults)
    (tid i : Nat) : activeEntry t tid i = activeEntry s tid i := by
  unfold activeEntry bothFail copyFails
  rw [htick, htables, hfaults]

theorem activeDigest_of_same {t : State} (htick : t.tick = s.tick) (htables : t.tables.active = s.tables.active)
    (hfaults : t.faults = s.faults) (tid first n : Nat) : activeDigest t tid first n = activeDigest s tid first n := by
  unfold activeDigest
  simp only [activeEntry_of_same htick htables hfaults]

/-- One entry of an image staged, or left out. -/
def stageOne (s : State) (tid w first : Nat) (image : List W64) (a : Staged × List Nat) (k : Nat) : Staged × List Nat :=
  if entryRefused s tid (first + k) (imageEntry image w k) then ({ a.1 with refused := a.1.refused + 1 }, a.2 ++ [first + k])
  else ({ a.1 with entries := oins a.1.entries (first + k) (imageEntry image w k) }, a.2)

theorem stageAll_eq (tid first : Nat) (n : Nat) (t : Staged) :
    stageAll s tid w first image n t = (List.range n).foldl (stageOne s tid w first image) (t, []) := rfl

/-- What entries staged one after another come to: those not refused are kept, those refused are listed. -/
structure StagedThrough (s : State) (tid w first : Nat) (image : List W64) (n : Nat) (t : Staged) (a : Staged × List Nat) : Prop where
  sameTid : a.1.tid = t.tid
  sameSet : a.1.set = t.set
  kept : ∀ k < n, entryRefused s tid (first + k) (imageEntry image w k) = false →
    ofind a.1.entries (first + k) = some (imageEntry image w k)
  bad : ∀ i, i ∈ a.2 ↔ ∃ k < n, i = first + k ∧ entryRefused s tid (first + k) (imageEntry image w k) = true

theorem stageAll_through (s : State) (tid w first : Nat) (image : List W64) (n : Nat) (t : Staged) :
    StagedThrough s tid w first image n t (stageAll s tid w first image n t) := by
  rw [stageAll_eq]
  induction n with
  | zero => exact { sameTid := rfl, sameSet := rfl, kept := nofun, bad := fun i => by simp }
  | succ n ih =>
    rw [List.range_succ, List.foldl_append, List.foldl_cons, List.foldl_nil]
    generalize (List.range n).foldl (stageOne s tid w first image) (t, []) = a at ih ⊢
    obtain ⟨htid, hset, hkept, hbad⟩ := ih
    unfold stageOne
    split
    next href =>
      refine ⟨htid, hset, fun k hk hok => hkept k ?_ hok, fun i => ?_⟩
      · have hne : k ≠ n := by
          rintro rfl
          exact absurd href (by simp [hok])
        omega
      · rw [List.mem_append, hbad, List.mem_singleton]
        constructor
        · rintro (⟨k, hk, hi, hr⟩ | rfl)
          · exact ⟨k, by omega, hi, hr⟩
          · exact ⟨n, by omega, rfl, href⟩
        · rintro ⟨k, hk, hi, hr⟩
          by_cases hkn : k = n
          · exact .inr (hkn ▸ hi)
          · exact .inl ⟨k, by omega, hi, hr⟩
    next hok =>
      refine ⟨htid, hset, fun k hk hok' => ?_, fun i => ?_⟩
      · by_cases hkn : k = n
        · subst hkn
          exact ofind_oins_same _ _ _
        · exact (ofind_oins_other _ _ (by omega)).trans (hkept k (by omega) hok')
      · rw [hbad]
        constructor
        · rintro ⟨k, hk, hi, hr⟩
          exact ⟨k, by omega, hi, hr⟩
        · rintro ⟨k, hk, hi, hr⟩
          by_cases hkn : k = n
          · subst hkn
            exact absurd hr hok
          · exact ⟨k, by omega, hi, hr⟩

theorem stagedOf_putStaged (s : State) (t : Staged) : stagedOf (putStaged s t) t.tid = some t := by
  have hnone : (s.tables.staged.filter fun x => x.tid != t.tid).find? (fun x => x.tid == t.tid) = none := by
    rw [List.find?_eq_none]
    intro x hx
    have hne := (List.mem_filter.1 hx).2
    simpa [bne] using hne
  change ((s.tables.staged.filter fun x => x.tid != t.tid) ++ [t]).find? _ = _
  rw [List.find?_append, hnone]
  simp

theorem stagedOf_dropStaged (s : State) (tid : Nat) : stagedOf (dropStaged s tid) tid = none := by
  change (s.tables.staged.filter fun x => x.tid != tid).find? _ = none
  rw [List.find?_eq_none]
  intro x hx
  have hne := (List.mem_filter.1 hx).2
  simpa [bne] using hne

/-- The fields of a STAGE, by name. -/
def stageTid (d : Desc) : Nat := fld d.d1 22 16
def stageFirst (d : Desc) : Nat := fld d.d1 42 23
def stageCount (d : Desc) : Nat := fld d.d1 62 43
def stageSet (d : Desc) : W16 := BitVec.ofNat 16 (fld d.d1 15 0)

/-- What is staged of the table so far. -/
def stagedSoFar (s : State) (d : Desc) : Staged :=
  (stagedOf s (stageTid d)).getD { tid := stageTid d, set := stageSet d, entries := [], refused := 0 }

/-- A STAGE on record. -/
def stageRecorded (s : State) (ring : Nat) (d : Desc) (image : List W64) (w : Nat) : State :=
  record s oHost ring 0x10 false d.d1.toNat (activeDigest s (stageTid d) (stageFirst d) (stageCount d))
    (sha512Bytes ((List.range (stageCount d)).map fun k => bytesOf (imageEntry image w k)).flatten)

/-- The effect of an accepted STAGE that is not refused. -/
def stageDone (a : Accept) (d : Desc) (image : List W64) (w : Nat) (s : State) : State :=
  if stageCount d = 0 then complete (dropStaged s (stageTid d)) a stOk 0 noIndex
  else
    let r := stageAll s (stageTid d) w (stageFirst d) image (stageCount d) (stagedSoFar s d)
    complete (putStaged s r.1) a stOk r.2.length (r.2.headD noIndex)

/-- The effect of an accepted STAGE. -/
def stageBody (d : Desc) (image : List W64) (a : Accept) (s : State) : State :=
  let other := match stagedOf s (stageTid d) with
    | some t => t.set != stageSet d
    | none => false
  match tableInfo (stageTid d) with
  | none => complete s a stRefused
  | some (w, count, _) =>
    if stageFirst d + stageCount d > count || other || namesAbsent s (stageTid d) (stageFirst d) (stageCount d) ||
        (!hasTandem s && (stageTid d == 0x30 || stageTid d == 0x31)) then complete s a stRefused
    else stageDone a d image w (stageRecorded s a.ring d image w)

theorem exec_stage (hsteward : s.boot.steward = true) :
    exec (.stage ring d image) s = .next (accept s ring d 0x38 none 0 (cringOf d.d0) (stageBody d image)) :=
  congrArg Host.Outcome.next (if_neg (by simp [hsteward]))

theorem stageBody_done {a : Accept} (hinfo : tableInfo (stageTid d) = some (w, count, cap)) (hcount : stageFirst d + stageCount d ≤ count)
    (htandem : hasTandem s = true ∨ (stageTid d ≠ 0x30 ∧ stageTid d ≠ 0x31))
    (hnames : namesAbsent s (stageTid d) (stageFirst d) (stageCount d) = false)
    (hset : ∀ x, stagedOf s (stageTid d) = some x → x.set = stageSet d) :
    stageBody d image a s = stageDone a d image w (stageRecorded s a.ring d image w) := by
  have hother : (match stagedOf s (stageTid d) with
      | some t => t.set != stageSet d
      | none => false) = false := by
    split
    next x hx => simp [hset x hx]
    next => rfl
  have hgrade : (!hasTandem s && (stageTid d == 0x30 || stageTid d == 0x31)) = false := by
    rcases htandem with h | ⟨h30, h31⟩
    · simp [h]
    · simp [h30, h31]
  unfold stageBody
  simp only [hinfo, hother, hnames, hgrade, Bool.or_false, decide_eq_true_eq]
  exact if_neg (by omega)

theorem stageBody_refused {a : Accept} (h : tableInfo (stageTid d) = none ∨ namesAbsent s (stageTid d) (stageFirst d) (stageCount d) = true ∨
    (hasTandem s = false ∧ (stageTid d = 0x30 ∨ stageTid d = 0x31))) : stageBody d image a s = complete s a stRefused := by
  unfold stageBody
  dsimp only
  split
  · rfl
  next w count cap hinfo =>
    refine if_pos ?_
    rcases h with h | h | ⟨htandem, htid⟩
    · exact absurd (hinfo.symm.trans h) nofun
    · simp [h]
    · have heq : (stageTid d == 0x30 || stageTid d == 0x31) = true := by simpa using htid
      simp [htandem, heq]

theorem stageRecorded_moves (s : State) (r : Nat) (d : Desc) (image : List W64) (w : Nat) :
    Moves [.ledger] s (stageRecorded s r d image w) := record_moves (Moves.refl _ s) rfl

/-- What a STAGE that is not refused brings about. -/
theorem stageDone_moves {a : Accept} (s : State) : Moves [.host, .tables, .fresh] s (stageDone a d image w s) := by
  have hput (t : Staged) : Moves [.host, .tables, .fresh] s (putStaged s t) := upd_tables (Moves.refl _ s) rfl (side_tables rfl)
  have hdrop : Moves [.host, .tables, .fresh] s (dropStaged s (stageTid d)) := upd_tables (Moves.refl _ s) rfl (side_tables rfl)
  unfold stageDone
  dsimp only
  split
  · exact hdrop.trans (complete_ringStep _ _ _ _ _ _).moves rfl
  · exact (hput _).trans (complete_ringStep _ _ _ _ _ _).moves rfl

theorem stageDone_tables {a : Accept} (s : State) :
    (stageDone a d image w s).tables = { s.tables with staged := (stageDone a d image w s).tables.staged } := by
  unfold stageDone
  dsimp only
  split
  · rw [(complete_ringStep _ _ _ _ _ _).tables]
    rfl
  · rw [(complete_ringStep _ _ _ _ _ _).tables]
    rfl

theorem stagedSoFar_fields (hset : ∀ x, stagedOf s (stageTid d) = some x → x.set = stageSet d) :
    (stagedSoFar s d).tid = stageTid d ∧ (stagedSoFar s d).set = stageSet d := by
  unfold stagedSoFar
  cases hx : stagedOf s (stageTid d) with
  | none => exact ⟨rfl, rfl⟩
  | some x =>
    have htid := List.find?_some hx
    exact ⟨by simpa using htid, hset x hx⟩

theorem RingStep.stagedOf {s t : State} (h : RingStep s t) (tid : Nat) : stagedOf t tid = stagedOf s tid := by
  rw [Machine.stagedOf, h.tables, ← Machine.stagedOf]

/-- What remains of a table that a STAGE of no entries discards. -/
theorem stageDone_discards {a : Accept} (h0 : stageCount d = 0) :
    stagedOf (stageDone a d image w s) (stageTid d) = none ∧ stageDone a d image w s = complete (dropStaged s (stageTid d)) a stOk 0 noIndex := by
  have heq : stageDone a d image w s = complete (dropStaged s (stageTid d)) a stOk 0 noIndex := if_pos h0
  rw [heq, (complete_ringStep _ _ _ _ _ _).stagedOf]
  exact ⟨stagedOf_dropStaged s _, rfl⟩

/-- What a STAGE of entries keeps of them. -/
theorem stageDone_keeps {a : Accept} (hne : stageCount d ≠ 0) (hset : ∀ x, stagedOf s (stageTid d) = some x → x.set = stageSet d) :
    ∃ r, StagedThrough s (stageTid d) w (stageFirst d) image (stageCount d) (stagedSoFar s d) r ∧ r.1.set = stageSet d ∧
      stagedOf (stageDone a d image w s) (stageTid d) = some r.1 ∧
      stageDone a d image w s = complete (putStaged s r.1) a stOk r.2.length (r.2.headD noIndex) := by
  have hthrough := stageAll_through s (stageTid d) w (stageFirst d) image (stageCount d) (stagedSoFar s d)
  obtain ⟨htid, hfield⟩ := stagedSoFar_fields hset
  have heq : stageDone a d image w s = complete (putStaged s (stageAll s (stageTid d) w (stageFirst d) image (stageCount d) (stagedSoFar s d)).1)
    a stOk _ _ := if_neg hne
  refine ⟨_, hthrough, hthrough.sameSet.trans hfield, ?_, heq⟩
  have hput := stagedOf_putStaged s (stageAll s (stageTid d) w (stageFirst d) image (stageCount d) (stagedSoFar s d)).1
  rw [hthrough.sameTid, htid] at hput
  rw [heq, (complete_ringStep _ _ _ _ _ _).stagedOf, hput]

theorem leads_stage (hsteward : s.boot.steward = true) (hadm : admitted s ring d 0x38 (cringOf d.d0) none)
    (hinfo : tableInfo (stageTid d) = some (w, count, cap)) (hcount : stageFirst d + stageCount d ≤ count)
    (htandem : hasTandem s = true ∨ (stageTid d ≠ 0x30 ∧ stageTid d ≠ 0x31))
    (hnames : namesAbsent s (stageTid d) (stageFirst d) (stageCount d) = false)
    (hset : ∀ x, stagedOf s (stageTid d) = some x → x.set = stageSet d) :
    leads (.stage ring d image) s fun t => onlyChanges [.host, .tables, .ledger, .fresh] s t ∧
      t.tables = { s.tables with staged := t.tables.staged } ∧
      (∃ e, t.ledger.queue = enqueueChange s e ∧ e.kind = 0x10 ∧
        e.old = padTo 16 (activeDigest s (stageTid d) (stageFirst d) (stageCount d))) ∧
      (stageCount d = 0 → stagedOf t (stageTid d) = none ∧ answered s t ring d (cringOf d.d0) 0 stOk 0 noIndex) ∧
      (stageCount d ≠ 0 → ∃ x, stagedOf t (stageTid d) = some x ∧ x.set = stageSet d ∧
        (∀ k < stageCount d, entryRefused s (stageTid d) (stageFirst d + k) (imageEntry image w k) = false →
          ofind x.entries (stageFirst d + k) = some (imageEntry image w k)) ∧
        ∃ bad : List Nat, (∀ k < stageCount d, stageFirst d + k ∈ bad ↔
            entryRefused s (stageTid d) (stageFirst d + k) (imageEntry image w k) = true) ∧
          answered s t ring d (cringOf d.d0) 0 stOk bad.length (bad.headD noIndex)) := by
  refine leads_accepted hadm (exec_stage hsteward) rfl rfl fun u t hu ht => ?_
  have hgrade : hasTandem u = hasTandem s := by rw [hasTandem, capUnits, Machine.grade, hu.boot, ← Machine.grade, ← capUnits, ← hasTandem]
  have hnamesU : namesAbsent u (stageTid d) (stageFirst d) (stageCount d) = false := by
    rw [← hnames]
    unfold namesAbsent hasStack isN capUnits Machine.grade
    rw [hu.boot]
  have hsetU : ∀ x, stagedOf u (stageTid d) = some x → x.set = stageSet d := fun x hx => hset x (hu.stagedOf _ ▸ hx)
  rw [stageBody_done hinfo hcount (hgrade ▸ htandem) hnamesU hsetU] at ht
  obtain ⟨e, hq, hkind, -, -, -, hold, -⟩ := record_enqueues u oHost (acceptNow s ring.toNat d.d0 0).ring 0x10 false d.d1.toNat
    (activeDigest u (stageTid d) (stageFirst d) (stageCount d))
    (sha512Bytes ((List.range (stageCount d)).map fun k => bytesOf (imageEntry image w k)).flatten)
  generalize hv : stageRecorded u (acceptNow s ring.toNat d.d0 0).ring d image w = v at ht
  have hqv : v.ledger.queue = enqueueChange u e := hv ▸ hq
  have hrec : Moves [.ledger] u v := hv ▸ stageRecorded_moves u _ d image w
  have htablesV : v.tables = s.tables := (hrec.only .tables (by decide)).trans hu.tables
  have hsetV : ∀ x, stagedOf v (stageTid d) = some x → x.set = stageSet d := fun x hx => hset x (by rwa [stagedOf, htablesV] at hx)
  have hdone := stageDone_moves (d := d) (image := image) (w := w) (a := acceptNow s ring.toNat d.d0 0) v
  have hledger : t.ledger = v.ledger := ht.ledger.trans (hdone.only .ledger (by decide))
  refine ⟨?_, ?_, ⟨e, ?_, hkind, ?_⟩, fun h0 => ?_, fun hne => ?_⟩
  · have hsv : Moves [.host, .tables, .ledger, .fresh] s v := ((Moves.refl _ s).trans hu.moves rfl).trans hrec rfl
    exact ((hsv.trans hdone rfl).trans ht.moves rfl).only
  · rw [ht.tables, stageDone_tables, htablesV]
  · rw [hledger, hqv, enqueueChange, recentOf, hu.ledger, hu.now, ← recentOf, ← enqueueChange]
  · rw [hold, activeDigest_of_same hu.tick (congrArg Tables.active hu.tables) hu.faults]
  · obtain ⟨hnone, heq⟩ := stageDone_discards (image := image) (w := w) (s := v) (a := acceptNow s ring.toNat d.d0 0) h0
    refine ⟨by rw [ht.stagedOf, hnone], ht.answered ?_⟩
    rw [heq]
    exact answered_completeTo _ [] []
  · obtain ⟨r, hthrough, hfield, hstaged, heq⟩ := stageDone_keeps (image := image) (w := w) (s := v)
      (a := acceptNow s ring.toNat d.d0 0) hne hsetV
    have href (k : Nat) : entryRefused v (stageTid d) (stageFirst d + k) (imageEntry image w k) =
        entryRefused s (stageTid d) (stageFirst d + k) (imageEntry image w k) :=
      entryRefused_of_ports ((hrec.only .ports (by decide)).trans hu.ports) _ _ _
    refine ⟨r.1, by rw [ht.stagedOf, hstaged], hfield, fun k hk hok => hthrough.kept k hk ((href k).trans hok), r.2, fun k hk => ?_,
      ht.answered ?_⟩
    · rw [hthrough.bad, ← href k]
      constructor
      · rintro ⟨j, hj, hi, hr⟩
        rwa [show k = j by omega]
      · exact fun hr => ⟨k, hk, rfl, hr⟩
    · rw [heq]
      exact answered_completeTo _ [] []

theorem leads_stage_refused (hsteward : s.boot.steward = true) (hadm : admitted s ring d 0x38 (cringOf d.d0) none)
    (h : tableInfo (stageTid d) = none ∨ namesAbsent s (stageTid d) (stageFirst d) (stageCount d) = true ∨
      (hasTandem s = false ∧ (stageTid d = 0x30 ∨ stageTid d = 0x31))) :
    leads (.stage ring d image) s fun t => onlyChanges [.host, .fresh] s t ∧ answered s t ring d (cringOf d.d0) 0 stRefused 0 0 := by
  refine leads_accepted hadm (exec_stage hsteward) rfl rfl fun u t hu ht => ?_
  have hgrade : hasTandem u = hasTandem s := by rw [hasTandem, capUnits, Machine.grade, hu.boot, ← Machine.grade, ← capUnits, ← hasTandem]
  have hnames : namesAbsent u (stageTid d) (stageFirst d) (stageCount d) = namesAbsent s (stageTid d) (stageFirst d) (stageCount d) := by
    unfold namesAbsent hasStack isN capUnits Machine.grade
    rw [hu.boot]
  rw [stageBody_refused (by rwa [hgrade, hnames])] at ht
  exact ⟨((hu.trans (complete_ringStep _ _ _ _ _ _)).trans ht).moves.only, ht.answered (answered_completeTo _ [] [])⟩

end Stage

/-! ### States with the same tables in force -/

/-- Two states whose active entries and ports are the same. -/
structure Alike (s t : State) : Prop where
  len : t.tick.len = s.tick.len
  entries : t.faults.entries = s.faults.entries
  active : t.tables.active = s.tables.active
  ports : t.ports = s.ports

namespace Alike

variable {s t : State}

theorem bothFail (h : Alike s t) (tid i : Nat) : Machine.bothFail t tid i = Machine.bothFail s tid i := by
  unfold Machine.bothFail copyFails
  rw [h.entries]

theorem activeEntry (h : Alike s t) (tid i : Nat) : Machine.activeEntry t tid i = Machine.activeEntry s tid i := by
  unfold Machine.activeEntry
  rw [h.bothFail, h.len, h.active]

theorem setActive (h : Alike s t) (tid i : Nat) (e : List W64) : Alike (Machine.setActive s tid i e) (Machine.setActive t tid i e) := by
  unfold Machine.setActive
  dsimp only
  split
  · exact { len := rfl, entries := by rw [h.entries], active := h.active, ports := h.ports }
  · exact { len := h.len, entries := by rw [h.entries], active := by rw [h.active], ports := h.ports }

theorem setEntries (h : Alike s t) (tid : Nat) (l : List (Nat × List W64)) :
    Alike (l.foldl (fun s e => Machine.setActive s tid e.1 e.2) s) (l.foldl (fun s e => Machine.setActive s tid e.1 e.2) t) := by
  induction l generalizing s t with
  | nil => exact h
  | cons e l ih => exact ih (h.setActive tid e.1 e.2)

theorem applied (h : Alike s t) (ts : List Staged) : Alike (Machine.applied s ts) (Machine.applied t ts) := by
  unfold Machine.applied
  induction ts generalizing s t with
  | nil => exact h
  | cons x ts ih => exact ih (h.setEntries x.tid x.entries)

theorem changes (h : Alike s t) (x : Staged) : Machine.changes t x = Machine.changes s x := by
  unfold Machine.changes
  simp only [h.activeEntry]

theorem ew (h : Alike s t) (tid i k : Nat) : Machine.ew t tid i k = Machine.ew s tid i k := by
  rw [Machine.ew, h.activeEntry, ← Machine.ew]

theorem drainNeed (h : Alike s t) (ts : List Staged) : Machine.drainNeed t ts = Machine.drainNeed s ts := by
  have happ := h.applied ts
  unfold Machine.drainNeed clsSpread clsReorder creditUnits portAt
  simp only [h.changes, h.ew, happ.ew, h.ports]

end Alike

theorem drainBad_of_alike {s t : State} (h : Alike s t) (hstaged : t.tables.staged = s.tables.staged) (a : Armed) :
    drainBad t a = drainBad s a := by
  have hfor : stagedFor t a = stagedFor s a := by rw [stagedFor, hstaged, ← stagedFor]
  unfold drainBad
  rw [hfor, h.drainNeed]

/-! ### The ends of a set (07 R220) -/

/-- A completion with a status other than OK is ready, whatever the command asked for. -/
theorem ready_completeTo {s : State} {cring : Nat} {a : Accept} {st d0 d1 : Nat} {w : List Nat} {af : List After} (hst : st ≠ stOk) :
    ∃ c ∈ (completeTo s cring a st d0 d1 w af).host.ready, c.cring = cring ∧ c.ring = some a.ring ∧ c.entries = [cmdEntry a st d0 d1] :=
  (posted_completeTo s a w af).resolve_left fun h => hst h.2

section Abandon

variable {s : State} {a : Armed} {outcome : Nat}

/-- A set abandoned, before its ARM completes. -/
def abandoned (s : State) (a : Armed) (outcome : Nat) : State :=
  setCause (recordRaw (resumeAfter (dropArmed s a) a) oDevice srcCoreW 0x13 a.set.toNat 0 outcome) srcCoreW 6 a.set.toNat 0 outcome a.tick.toNat

theorem abandon_eq (s : State) (a : Armed) (outcome : Nat) :
    abandon s a outcome = complete (abandoned s a outcome) (armAccept a) outcome 0 a.tick.toNat := rfl

theorem resumeAfter_tables (s : State) (a : Armed) : (resumeAfter s a).tables.armed = s.tables.armed ∧
    (resumeAfter s a).tables.staged = s.tables.staged ∧ (resumeAfter s a).tables.active = s.tables.active ∧
    (resumeAfter s a).tables.routeGen = s.tables.routeGen ∧ (resumeAfter s a).tables.rmapGen = s.tables.rmapGen := by
  unfold resumeAfter
  split <;> exact ⟨rfl, rfl, rfl, rfl, rfl⟩

theorem abandoned_tables (s : State) (a : Armed) (outcome : Nat) :
    (abandoned s a outcome).tables = (resumeAfter (dropArmed s a) a).tables :=
  (setCause_eventStep _ _ _ _ _ _ _ _).tables

theorem abandon_tables (s : State) (a : Armed) (outcome : Nat) :
    (abandon s a outcome).tables.armed = s.tables.armed.filter (fun x => x.set != a.set) ∧
    (abandon s a outcome).tables.staged = s.tables.staged ∧ (abandon s a outcome).tables.active = s.tables.active ∧
    (abandon s a outcome).tables.routeGen = s.tables.routeGen ∧ (abandon s a outcome).tables.rmapGen = s.tables.rmapGen := by
  obtain ⟨harmed, hstaged, hactive, hroute, hrmap⟩ := resumeAfter_tables (dropArmed s a) a
  rw [abandon_eq, (complete_ringStep _ _ _ _ _ _).tables, abandoned_tables]
  exact ⟨harmed, hstaged, hactive, hroute, hrmap⟩

/-- The ARM of an abandoned set completes. -/
theorem abandon_ready (hne : outcome ≠ stOk) : ∃ c ∈ (abandon s a outcome).host.ready, c.cring = cringOf a.d0 ∧ c.ring = some a.ring ∧
    c.entries = [cmdEntry (armAccept a) outcome 0 a.tick.toNat] := ready_completeTo hne

end Abandon

/-! ### ARM and CANCEL (07 R218-R220) -/

section Arm

variable {s : State} {ring : BitVec 6} {d : Desc}

/-- The set an ARM names, and its tick. -/
def armSet (d : Desc) : W16 := BitVec.ofNat 16 (fld d.d1 15 0)
def armTick (d : Desc) : BitVec 48 := BitVec.ofNat 48 (fld d.d2 47 0)

/-- The set as an ARM arms it. -/
def armedBy (s : State) (a : Accept) (d : Desc) : Armed where
  set := armSet d
  tables := (s.tables.staged.filter fun t => t.set == armSet d).map (·.tid)
  tick := armTick d
  routeGen := BitVec.ofNat 16 (fld d.d1 39 24)
  rmapGen := BitVec.ofNat 16 (fld d.d1 55 40)
  mask := BitVec.ofNat 8 (fld d.d1 23 16)
  ring := a.ring
  d0 := a.d0
  acceptTick := a.tick
  acceptOfs := a.ofs
  acceptAt := s.now

/-- The set armed and on record. -/
def armRecorded (a : Accept) (d : Desc) (s : State) : State :=
  let t := recordRaw s oHost a.ring 0x11 d.d1.toNat 0 (armTick d).toNat
  { t with tables := { t.tables with armed := t.tables.armed ++ [armedBy s a d] } }

/-- An ARM that is not refused. -/
def armDone (a : Accept) (d : Desc) (s : State) : State :=
  let t := armRecorded a d s
  if t.tick.state = 0 then abandon t (armedBy s a d) stUnaligned
  else if ticksOn t && (!laterTick t (armTick d) || decide (t.now + Config.armLimit > startOf t (armTick d))) then
    abandon t (armedBy s a d) stLateArm
  else if drainBad t (armedBy s a d) then abandon t (armedBy s a d) stStage
  else t

theorem exec_arm : exec (.arm ring d) s = .next (accept s ring d 0x39 none 0 (cringOf d.d0) fun a s =>
    if s.tables.armed.any (fun x => x.set == armSet d) || decide (s.tables.armed.length ≥ Config.maxArmed) then
      complete s a stRefused 0 (armTick d).toNat
    else armDone a d s) := rfl

theorem roomForSet_admits (hfree : ∀ x ∈ s.tables.armed, x.set ≠ armSet d) (hroom : s.tables.armed.length < Config.maxArmed) :
    (s.tables.armed.any (fun x => x.set == armSet d) || decide (s.tables.armed.length ≥ Config.maxArmed)) = false := by
  have hany : s.tables.armed.any (fun x => x.set == armSet d) = false := by
    rw [List.any_eq_false]
    intro x hx
    simpa using hfree x hx
  simp [hany, hroom]

theorem armTick_toNat (d : Desc) : (armTick d).toNat = fld d.d2 47 0 := by
  have hlt : fld d.d2 47 0 < 2 ^ 48 := bits_lt _ _ _
  rw [armTick, BitVec.toNat_ofNat, Nat.mod_eq_of_lt hlt]

theorem leads_arm_unaligned (hadm : admitted s ring d 0x39 (cringOf d.d0) none) (hfree : ∀ x ∈ s.tables.armed, x.set ≠ armSet d)
    (hroom : s.tables.armed.length < Config.maxArmed) (hstate : s.tick.state = 0) :
    leads (.arm ring d) s fun t => onlyChanges [.host, .stats, .tables, .ledger, .fresh] s t ∧
      t.tables.armed = s.tables.armed ∧ answered s t ring d (cringOf d.d0) 0 stUnaligned 0 (fld d.d2 47 0) := by
  refine leads_accepted hadm exec_arm rfl rfl fun u t hu ht => ?_
  have hadmits := roomForSet_admits (s := u) (d := d) (by rwa [hu.tables]) (by rwa [hu.tables])
  have hstateU : (armRecorded (acceptNow s ring.toNat d.d0 0) d u).tick.state = 0 := (congrArg Tick.state hu.tick).trans hstate
  rw [hadmits, if_neg Bool.false_ne_true, armDone, if_pos hstateU] at ht
  generalize hv : armRecorded (acceptNow s ring.toNat d.d0 0) d u = v at ht
  have hrec : Moves [.host, .stats, .tables, .ledger, .fresh] s v := by
    rw [← hv]
    exact upd_tables (recordRaw_moves ((Moves.refl _ s).trans hu.moves rfl) rfl) rfl (side_tables rfl)
  obtain ⟨harmed, -⟩ := abandon_tables v (armedBy u (acceptNow s ring.toNat d.d0 0) d) stUnaligned
  refine ⟨((abandon_moves hrec rfl).trans ht.moves rfl).only, ?_, ht.answered ?_⟩
  · have harmedV : v.tables.armed = s.tables.armed ++ [armedBy u (acceptNow s ring.toNat d.d0 0) d] := by
      rw [← hv, ← hu.tables]
      rfl
    have hkeep : s.tables.armed.filter (fun x => x.set != armSet d) = s.tables.armed :=
      List.filter_eq_self.2 fun x hx => by simpa [bne] using hfree x hx
    rw [ht.tables, harmed, harmedV, List.filter_append]
    change s.tables.armed.filter (fun x => x.set != armSet d) ++ _ = _
    rw [hkeep]
    simp
  · have hentry : armAccept (armedBy u (acceptNow s ring.toNat d.d0 0) d) = acceptNow s ring.toNat d.d0 0 := rfl
    rw [abandon_eq, hentry, ← armTick_toNat d]
    exact answered_completeTo _ [] []

theorem leads_arm_armed (hadm : admitted s ring d 0x39 (cringOf d.d0) none) (hfree : ∀ x ∈ s.tables.armed, x.set ≠ armSet d)
    (hroom : s.tables.armed.length < Config.maxArmed) (hstate : s.tick.state ≠ 0)
    (hticks : ticksOn s = true → laterTick s (armTick d) = true ∧ s.now + Config.armLimit ≤ startOf s (armTick d))
    (hdrain : ∀ x : Armed, x.set = armSet d → x.mask = BitVec.ofNat 8 (fld d.d1 23 16) →
      x.tables = (s.tables.staged.filter fun y => y.set == armSet d).map (·.tid) → drainBad s x = false) :
    leads (.arm ring d) s fun t => onlyChanges [.host, .tables, .ledger, .fresh] s t ∧
      (∃ x, t.tables = { s.tables with armed := s.tables.armed ++ [x] } ∧ x.set = armSet d ∧ x.tick = armTick d ∧
        x.mask = BitVec.ofNat 8 (fld d.d1 23 16) ∧ x.routeGen = BitVec.ofNat 16 (fld d.d1 39 24) ∧
        x.rmapGen = BitVec.ofNat 16 (fld d.d1 55 40) ∧ x.ring = ring.toNat ∧ x.d0 = d.d0 ∧ x.acceptAt = s.now) ∧
      ∃ e, t.ledger.queue = enqueueChange s e ∧ e.kind = 0x11 := by
  refine leads_accepted hadm exec_arm rfl rfl fun u t hu ht => ?_
  have hadmits := roomForSet_admits (s := u) (d := d) (by rwa [hu.tables]) (by rwa [hu.tables])
  obtain ⟨e, hq, hkind, -⟩ := recordRaw_entry u oHost (acceptNow s ring.toNat d.d0 0).ring 0x11 d.d1.toNat 0 (armTick d).toNat
  generalize hx : armedBy u (acceptNow s ring.toNat d.d0 0) d = x at ht
  generalize hv : armRecorded (acceptNow s ring.toNat d.d0 0) d u = v at ht
  have htickV : v.tick = s.tick := hv ▸ hu.tick
  have hnowV : v.now = s.now := hv ▸ hu.now
  have htablesV : v.tables = { s.tables with armed := s.tables.armed ++ [x] } := by
    rw [← hv, ← hx, ← hu.tables]
    rfl
  have hqV : v.ledger.queue = enqueueChange u e := hv ▸ hq
  have halike : Alike s v :=
    { len := by rw [htickV], entries := by rw [← hv]; exact congrArg Faults.entries hu.faults, active := by rw [htablesV],
      ports := by rw [← hv]; exact hu.ports }
  have htablesX : x.tables = (s.tables.staged.filter fun y => y.set == armSet d).map (·.tid) := by
    rw [← hx, ← hu.tables]
    rfl
  have hlate : (ticksOn v && (!laterTick v (armTick d) || decide (v.now + Config.armLimit > startOf v (armTick d)))) = false := by
    have hon : ticksOn v = ticksOn s := by rw [ticksOn, tickLen, htickV, ← tickLen, ← ticksOn]
    have hlater : laterTick v (armTick d) = laterTick s (armTick d) := by rw [laterTick, htickV, ← laterTick]
    have hstart : startOf v (armTick d) = startOf s (armTick d) := by rw [startOf, tickLen, htickV, ← tickLen, ← startOf]
    rw [hon, hlater, hstart, hnowV]
    cases hs : ticksOn s with
    | false => rfl
    | true =>
      obtain ⟨hl, hle⟩ := hticks hs
      simp [hl, hle]
  have hbad : drainBad v x = false := by
    rw [drainBad_of_alike halike (by rw [htablesV])]
    exact hdrain x (by rw [← hx]; rfl) (by rw [← hx]; rfl) htablesX
  have hstateV : ¬v.tick.state = 0 := by rwa [htickV]
  have hdone : armDone (acceptNow s ring.toNat d.d0 0) d u = v := by
    unfold armDone
    simp only [hx, hv]
    rw [if_neg hstateV, hlate, hbad]
    rfl
  rw [hadmits, if_neg Bool.false_ne_true, hdone] at ht
  have hrec : Moves [.host, .tables, .ledger, .fresh] s v := by
    rw [← hv]
    exact upd_tables (recordRaw_moves ((Moves.refl _ s).trans hu.moves rfl) rfl) rfl (side_tables rfl)
  refine ⟨(hrec.trans ht.moves rfl).only, ⟨x, ht.tables.trans htablesV, ?_⟩, e, ?_, hkind⟩
  · rw [← hx]
    exact ⟨rfl, rfl, rfl, rfl, rfl, rfl, rfl, hu.now⟩
  · rw [ht.ledger, hqV, enqueueChange, recentOf, hu.ledger, hu.now, ← recentOf, ← enqueueChange]

theorem exec_cancel : exec (.cancel ring d) s = .next (accept s ring d 0x3A none 0 (cringOf d.d0) fun a s =>
    match s.tables.armed.find? fun x => x.set == armSet d with
    | none => complete s a stRefused
    | some x =>
      if ticksOn s && laterTick s x.tick && decide (s.now + Config.armLimit < startOf s x.tick) then complete (abandon s x stCancel) a stOk
      else complete s a stRefused) := rfl

theorem leads_cancel {x : Armed} (hadm : admitted s ring d 0x3A (cringOf d.d0) none)
    (hfind : s.tables.armed.find? (fun y => y.set == armSet d) = some x) (hon : ticksOn s = true) (hlater : laterTick s x.tick = true)
    (hlimit : s.now + Config.armLimit < startOf s x.tick) :
    leads (.cancel ring d) s fun t => onlyChanges [.host, .stats, .tables, .ledger, .fresh] s t ∧
      t.tables.armed = s.tables.armed.filter (fun y => y.set != x.set) ∧ t.tables.staged = s.tables.staged ∧
      answered s t ring d (cringOf d.d0) 0 stOk 0 0 ∧
      ∃ c ∈ t.host.ready, c.ring = some x.ring ∧ c.cring = cringOf x.d0 ∧
        c.entries = [cmdEntry (armAccept x) stCancel 0 x.tick.toNat] := by
  refine leads_accepted hadm exec_cancel rfl rfl fun u t hu ht => ?_
  have hgo : (ticksOn u && laterTick u x.tick && decide (u.now + Config.armLimit < startOf u x.tick)) = true := by
    have honU : ticksOn u = ticksOn s := by rw [ticksOn, tickLen, hu.tick, ← tickLen, ← ticksOn]
    have hlaterU : laterTick u x.tick = laterTick s x.tick := by rw [laterTick, hu.tick, ← laterTick]
    have hstart : startOf u x.tick = startOf s x.tick := by rw [startOf, tickLen, hu.tick, ← tickLen, ← startOf]
    rw [honU, hlaterU, hstart, hu.now, hon, hlater]
    simpa using hlimit
  simp only [hu.tables, hfind, hgo, if_true] at ht
  have hmoves : Moves [.host, .stats, .tables, .ledger, .fresh] s (abandon u x stCancel) :=
    abandon_moves ((Moves.refl _ s).trans hu.moves rfl) rfl
  have hlast := complete_ringStep (abandon u x stCancel) (acceptNow s ring.toNat d.d0 0) stOk 0 0 []
  obtain ⟨harmed, hstaged, -⟩ := abandon_tables u x stCancel
  obtain ⟨c, hc, hcring, hring, hentries⟩ := abandon_ready (s := u) (a := x) (outcome := stCancel) (by decide)
  refine ⟨((hmoves.trans hlast.moves rfl).trans ht.moves rfl).only, ?_, ?_, ht.answered (answered_completeTo _ [] []), c,
    ht.side.ready.subset (hlast.side.ready.subset hc), hring, hcring, hentries⟩
  · rw [ht.tables, hlast.tables, harmed, hu.tables]
  · rw [ht.tables, hlast.tables, hstaged, hu.tables]

end Arm

/-- Settles O28: STAGE, ARM and CANCEL, each by the state that its acceptance leaves. -/
theorem commitSetsAreStagedAndArmed : Obligations.CommitSetsAreStagedAndArmed := by
  unfold Obligations.CommitSetsAreStagedAndArmed
  refine ⟨fun s ring d image w count cap hsteward hadm hinfo hcount htandem hnames hset =>
    leads_stage hsteward hadm hinfo hcount htandem hnames hset, fun s ring d =>
    ⟨fun image hsteward hadm h => leads_stage_refused hsteward hadm h, fun hadm hfree hroom =>
      ⟨leads_arm_unaligned hadm hfree hroom, leads_arm_armed hadm hfree hroom⟩, fun x => leads_cancel⟩⟩

end Sys2Proof.Proofs

/-! PROOFS. A commit switches its tables at once or not at all (O29; 07 R219-R222; 09 R286, R287; 10 R303). -/

namespace Sys2Proof.Proofs

open Sys2Proof.Machine Sys2Proof.Safety Sys2Proof.Laws

/-! ### Entries of the active bank written -/

/-- A write leaves every other key alone, whatever an unlisted key reads as. -/
theorem sget_sput_apart {α : Type} [DecidableEq α] {d d' : α} {m : Sparse α} {k j : Nat} {v : α} (hj : j ≠ k) :
    sget d' (sput d m k v) j = sget d' m j := by
  induction m with
  | nil => unfold sput; split <;> simp [sget, Ne.symm hj]
  | cons e m ih =>
    obtain ⟨a, w⟩ := e
    unfold sput
    split
    · split
      · rfl
      · simp [sget, Ne.symm hj]
    · split
      next hk =>
        subst hk
        split <;> simp [sget, Ne.symm hj]
      next => rw [sget, sget, ih]

theorem tkey_inj {tid i tid' i' : Nat} (hi : i < 2 ^ 20) (hi' : i' < 2 ^ 20) (h : tkey tid i = tkey tid' i') : tid = tid' ∧ i = i' := by
  unfold tkey at h
  omega

section SetActive

variable {s : State} {tid i : Nat} {e : List W64}

theorem setActive_faults (s : State) (tid i : Nat) (e : List W64) : (setActive s tid i e).faults =
    { s.faults with entries := s.faults.entries.filter fun f => f.tid != tid || f.idx != i || f.hard } := by
  unfold setActive
  dsimp only
  split <;> rfl

theorem setActive_tables (htid : tid ≠ 1) : (setActive s tid i e).tables =
    { s.tables with active := sput (entryReset tid) s.tables.active (tkey tid i) e } := by
  unfold setActive
  rw [if_neg htid]

theorem setActive_tick (htid : tid ≠ 1) : (setActive s tid i e).tick = s.tick := by
  unfold setActive
  rw [if_neg htid]

theorem setActive_len : setActive s 1 i e = { s with
    tick := { s.tick with len := (e.getD 0 0).setWidth 32 }, faults := (setActive s 1 i e).faults } := rfl

theorem setActive_rest (s : State) (tid i : Nat) (e : List W64) :
    (setActive s tid i e).tables = { s.tables with active := (setActive s tid i e).tables.active } := by
  unfold setActive
  dsimp only
  split <;> rfl

theorem setActive_rising (s : State) (tid i : Nat) (e : List W64) (h : rising s.tables.active = true) :
    rising (setActive s tid i e).tables.active = true := by
  unfold setActive
  dsimp only
  split
  · exact h
  · exact rising_sput h

theorem copyFails_setActive {tid' i' c : Nat} (h : copyFails (setActive s tid i e) tid' i' c = true) : copyFails s tid' i' c = true := by
  rw [copyFails, setActive_faults] at h
  obtain ⟨f, hf, hmatch⟩ := List.any_eq_true.1 h
  exact List.any_eq_true.2 ⟨f, (List.mem_filter.1 hf).1, hmatch⟩

theorem bothFail_setActive {tid' i' : Nat} (h : bothFail s tid' i' = false) : bothFail (setActive s tid i e) tid' i' = false := by
  rw [Bool.eq_false_iff] at h ⊢
  intro hboth
  obtain ⟨h0, h1⟩ := Bool.and_eq_true_iff.1 hboth
  exact h (Bool.and_eq_true_iff.2 ⟨copyFails_setActive h0, copyFails_setActive h1⟩)

theorem copyFails_setActive_other {tid' i' : Nat} (hne : tid' ≠ tid ∨ i' ≠ i) (c : Nat) :
    copyFails (setActive s tid i e) tid' i' c = copyFails s tid' i' c := by
  rw [copyFails, setActive_faults, List.any_filter, copyFails]
  congr 1
  funext f
  by_cases hf : f.tid = tid' ∧ f.idx = i'
  · obtain ⟨rfl, rfl⟩ := hf
    have hkept : (f.tid != tid || f.idx != i) = true := by simpa using hne
    simp [hkept]
  · have hno : (f.tid == tid' && f.idx == i' && f.copy == c) = false := by
      rw [Bool.eq_false_iff]
      intro h
      exact hf (by simpa using (Bool.and_eq_true_iff.1 h).1)
    rw [hno, Bool.and_false]

theorem bothFail_setActive_other {tid' i' : Nat} (hne : tid' ≠ tid ∨ i' ≠ i) :
    bothFail (setActive s tid i e) tid' i' = bothFail s tid' i' := by
  rw [bothFail, copyFails_setActive_other hne, copyFails_setActive_other hne, ← bothFail]

theorem activeEntry_setActive_same (htid : tid ≠ 1) (hrising : rising s.tables.active = true) (hgood : bothFail s tid i = false) :
    activeEntry (setActive s tid i e) tid i = e := by
  unfold activeEntry
  rw [if_neg htid, if_neg (by simp [bothFail_setActive hgood]), setActive_tables htid]
  exact sget_sput_rising hrising

theorem activeEntry_setActive_other {tid' i' : Nat} (hi : i < 2 ^ 20) (hi' : i' < 2 ^ 20) (hne : tid' ≠ tid ∨ i' ≠ i)
    (hlen : tid' = 1 → tid ≠ 1) : activeEntry (setActive s tid i e) tid' i' = activeEntry s tid' i' := by
  have hkey : tkey tid' i' ≠ tkey tid i := fun h => by
    obtain ⟨htid, hidx⟩ := tkey_inj hi' hi h
    exact hne.elim (absurd htid) (absurd hidx)
  unfold activeEntry
  rw [bothFail_setActive_other hne]
  by_cases htid : tid = 1
  · subst htid
    have htid' : tid' ≠ 1 := fun h => hlen h rfl
    rw [if_neg htid', if_neg htid', setActive_len]
  · rw [setActive_tick htid, setActive_tables htid, sget_sput_apart hkey]

end SetActive

theorem activeEntry_dropStaged (s : State) (k tid i : Nat) : activeEntry (dropStaged s k) tid i = activeEntry s tid i :=
  activeEntry_of_same rfl rfl rfl _ _

/-- A key of a rising map is listed once. -/
theorem eq_of_rising {α : Type} {m : Sparse α} (h : rising m = true) {x y : Nat × α} (hx : x ∈ m) (hy : y ∈ m) (hk : x.1 = y.1) : x = y := by
  induction m with
  | nil => exact absurd hx List.not_mem_nil
  | cons e m ih =>
    obtain ⟨habove, hm⟩ := rising_cons.1 h
    rcases List.mem_cons.1 hx with rfl | hx' <;> rcases List.mem_cons.1 hy with rfl | hy'
    · rfl
    · exact absurd hk (Nat.ne_of_lt (habove y hy'))
    · exact absurd hk (Nat.ne_of_gt (habove x hx'))
    · exact ih hm hx' hy'

/-! ### One table switches (09 R287) -/

/-- What a switch of table tid leaves of the others. -/
structure Beside (tid : Nat) (s t : State) : Prop where
  entry : ∀ tid' i, tid' ≠ tid → i < 2 ^ 20 → activeEntry t tid' i = activeEntry s tid' i
  good : ∀ tid' i, bothFail s tid' i = false → bothFail t tid' i = false
  tick : tid ≠ 1 → t.tick = s.tick
  tables : t.tables = { s.tables with active := t.tables.active, staged := t.tables.staged }
  rising : Machine.rising s.tables.active = true → Machine.rising t.tables.active = true
  staged : ∀ tid', stagedOf s tid' = none → stagedOf t tid' = none

namespace Beside

variable {tid : Nat} {s t u : State}

theorem refl (s : State) : Beside tid s s := ⟨fun _ _ _ _ => rfl, fun _ _ h => h, fun _ => rfl, rfl, id, fun _ h => h⟩

theorem trans (h : Beside tid s t) (g : Beside tid t u) : Beside tid s u where
  entry tid' i hne hi := (g.entry tid' i hne hi).trans (h.entry tid' i hne hi)
  good tid' i hgood := g.good tid' i (h.good tid' i hgood)
  tick hne := (g.tick hne).trans (h.tick hne)
  tables := by rw [g.tables, h.tables]
  rising hr := g.rising (h.rising hr)
  staged tid' hnone := g.staged tid' (h.staged tid' hnone)

theorem setActive (s : State) {i : Nat} (hi : i < 2 ^ 20) (e : List W64) : Beside tid s (Machine.setActive s tid i e) where
  entry _ _ hne hi' := activeEntry_setActive_other hi hi' (.inl hne) fun h1 h2 => hne (h1.trans h2.symm)
  good _ _ := bothFail_setActive
  tick := setActive_tick
  tables := by rw [setActive_rest]
  rising := setActive_rising s tid i e
  staged tid' hnone := by rwa [stagedOf, setActive_rest]

theorem setEntries (s : State) {l : List (Nat × List W64)} (hl : ∀ e ∈ l, e.1 < 2 ^ 20) :
    Beside tid s (l.foldl (fun s e => Machine.setActive s tid e.1 e.2) s) := by
  induction l generalizing s with
  | nil => exact .refl s
  | cons e l ih => exact (setActive s (hl e (by simp)) e.2).trans (ih _ fun x hx => hl x (by simp [hx]))

theorem dropStaged (s : State) : Beside tid s (Machine.dropStaged s tid) where
  entry _ _ _ _ := activeEntry_of_same rfl rfl rfl _ _
  good _ _ h := h
  tick _ := rfl
  tables := rfl
  rising h := h
  staged tid' hnone := by
    rw [stagedOf, List.find?_eq_none] at hnone ⊢
    exact fun x hx => hnone x (List.mem_filter.1 hx).1

end Beside

section Switch

variable {s : State} {tid : Nat} {l : List (Nat × List W64)}

/-- Entries not among those written stand as before. -/
theorem activeEntry_setEntries_other {i : Nat} (htid : tid ≠ 1) (hi : i < 2 ^ 20) (hl : ∀ e ∈ l, e.1 < 2 ^ 20 ∧ e.1 ≠ i) :
    activeEntry (l.foldl (fun s e => setActive s tid e.1 e.2) s) tid i = activeEntry s tid i := by
  induction l generalizing s with
  | nil => rfl
  | cons x l ih =>
    obtain ⟨hx, hne⟩ := hl x (by simp)
    exact (ih fun e he => hl e (by simp [he])).trans (activeEntry_setActive_other hx hi (.inr hne.symm) fun _ => htid)

/-- Entries written one after another, of rising numbers, each stand as written. -/
theorem activeEntry_setEntries (htid : tid ≠ 1) (hl : ∀ e ∈ l, e.1 < 2 ^ 20 ∧ bothFail s tid e.1 = false) (hnum : rising l = true)
    (hrising : rising s.tables.active = true) : ∀ e ∈ l, activeEntry (l.foldl (fun s e => setActive s tid e.1 e.2) s) tid e.1 = e.2 := by
  induction l generalizing s with
  | nil => nofun
  | cons x l ih =>
    obtain ⟨habove, hnum'⟩ := rising_cons.1 hnum
    obtain ⟨hx, hgood⟩ := hl x (by simp)
    have hl' : ∀ e ∈ l, e.1 < 2 ^ 20 ∧ bothFail s tid e.1 = false := fun e he => hl e (by simp [he])
    intro e he
    rcases List.mem_cons.1 he with rfl | he
    · exact (activeEntry_setEntries_other htid hx fun y hy => ⟨(hl' y hy).1, Nat.ne_of_gt (habove y hy)⟩).trans
        (activeEntry_setActive_same htid hrising hgood)
    · exact ih (fun y hy => ⟨(hl' y hy).1, bothFail_setActive (hl' y hy).2⟩) hnum' (setActive_rising s tid _ _ hrising) e he

/-- What the statement asks of a staged table: its entries rise, neither copy of one fails in both, and its changes fit the shadow. -/
structure Switchable (s : State) (x : Staged) : Prop where
  rises : rising x.entries = true
  entries : ∀ e ∈ x.entries, e.1 < 2 ^ 20 ∧ bothFail s x.tid e.1 = false
  fits : (changes s x).length ≤ shadowCap x.tid

/-- A staged table stands switched. -/
structure Switched (s : State) (x : Staged) : Prop where
  active : x.tid ≠ 1 → ∀ e ∈ x.entries, activeEntry s x.tid e.1 = e.2
  len : x.tid = 1 → ∀ w, x.entries = [(0, [w])] → s.tick.len = w.setWidth 32
  staged : stagedOf s x.tid = none

theorem Switchable.changes_of_beside {s t : State} {x : Staged} (h : Switchable s x) (g : Beside tid s t) (hne : x.tid ≠ tid) :
    changes t x = changes s x := by
  unfold changes
  refine List.filter_congr fun e he => ?_
  rw [g.entry x.tid e.1 hne (h.entries e he).1]

theorem Switchable.of_beside {s t : State} {x : Staged} (h : Switchable s x) (g : Beside tid s t) (hne : x.tid ≠ tid) :
    Switchable t x where
  rises := h.rises
  entries e he := ⟨(h.entries e he).1, g.good x.tid e.1 (h.entries e he).2⟩
  fits := by
    rw [h.changes_of_beside g hne]
    exact h.fits

theorem Switched.of_beside {s t : State} {x : Staged} (h : Switched s x) (hidx : ∀ e ∈ x.entries, e.1 < 2 ^ 20) (g : Beside tid s t)
    (hne : x.tid ≠ tid) : Switched t x where
  active h1 e he := (g.entry x.tid e.1 hne (hidx e he)).trans (h.active h1 e he)
  len h1 w hw := by
    rw [g.tick fun h => hne (h1.trans h.symm)]
    exact h.len h1 w hw
  staged := g.staged x.tid h.staged

theorem switchTable_eq (a : Armed) {x : Staged} (h : Switchable s x) :
    switchTable s a x = dropStaged ((changes s x).foldl (fun s e => setActive s x.tid e.1 e.2) s) x.tid := by
  unfold switchTable
  dsimp only
  rw [List.drop_eq_nil_of_le h.fits, List.take_of_length_le h.fits]
  rfl

theorem switchTable_beside (a : Armed) {x : Staged} (h : Switchable s x) : Beside x.tid s (switchTable s a x) := by
  rw [switchTable_eq a h]
  exact (Beside.setEntries s fun e he => (h.entries e (List.mem_filter.1 he).1).1).trans (Beside.dropStaged _)

theorem activeEntry_switchTable (a : Armed) {x : Staged} (h : Switchable s x) (hrising : rising s.tables.active = true) (htid : x.tid ≠ 1) :
    ∀ e ∈ x.entries, activeEntry (switchTable s a x) x.tid e.1 = e.2 := by
  have hch : ∀ e ∈ changes s x, e.1 < 2 ^ 20 ∧ bothFail s x.tid e.1 = false := fun e he => h.entries e (List.mem_filter.1 he).1
  intro e he
  rw [switchTable_eq a h, activeEntry_dropStaged]
  by_cases hsame : activeEntry s x.tid e.1 = e.2
  · refine (activeEntry_setEntries_other htid (h.entries e he).1 fun y hy => ⟨(hch y hy).1, ?_⟩).trans hsame
    intro heq
    obtain ⟨hmem, hdiff⟩ := List.mem_filter.1 hy
    rw [eq_of_rising h.rises hmem he heq] at hdiff
    exact absurd hsame (of_decide_eq_true hdiff)
  · exact activeEntry_setEntries htid hch (rising_filter _ h.rises) hrising e (List.mem_filter.2 ⟨he, by simpa using hsame⟩)

theorem len_switchTable (a : Armed) {x : Staged} (h : Switchable s x) (htid : x.tid = 1) {w : W64} (hx : x.entries = [(0, [w])]) :
    (switchTable s a x).tick.len = w.setWidth 32 := by
  rw [switchTable_eq a h, changes, hx, htid, List.filter_cons]
  split
  · rfl
  next hsame =>
    have hlen : activeEntry s 1 0 = [w] := by simpa using hsame
    have hw : s.tick.len.setWidth 64 = w := (List.cons.inj hlen).1
    rw [← hw]
    change s.tick.len = _
    bv_omega

theorem switchTable_switched (a : Armed) {x : Staged} (h : Switchable s x) (hrising : rising s.tables.active = true) :
    Switched (switchTable s a x) x where
  active := activeEntry_switchTable a h hrising
  len htid _ hx := len_switchTable a h htid hx
  staged := stagedOf_dropStaged _ _

/-- Tables of different numbers switched one after another all stand switched. -/
theorem switchTables_switched (a : Armed) {ts : List Staged} (hts : ∀ x ∈ ts, Switchable s x) (hnodup : (ts.map (·.tid)).Nodup)
    (hrising : rising s.tables.active = true) :
    (∀ x ∈ ts, Switched (ts.foldl (fun s x => switchTable s a x) s) x) ∧
    (ts.foldl (fun s x => switchTable s a x) s).tables = { s.tables with
      active := (ts.foldl (fun s x => switchTable s a x) s).tables.active, staged := (ts.foldl (fun s x => switchTable s a x) s).tables.staged } := by
  suffices H : ∀ (done : List Staged), (∀ x ∈ done, Switched s x ∧ (∀ e ∈ x.entries, e.1 < 2 ^ 20) ∧ x.tid ∉ ts.map (·.tid)) →
      (∀ x ∈ done ++ ts, Switched (ts.foldl (fun s x => switchTable s a x) s) x) ∧
      (ts.foldl (fun s x => switchTable s a x) s).tables = { s.tables with
        active := (ts.foldl (fun s x => switchTable s a x) s).tables.active,
        staged := (ts.foldl (fun s x => switchTable s a x) s).tables.staged } from H [] nofun
  induction ts generalizing s with
  | nil => exact fun done hdone => ⟨fun x hx => (hdone x (by simpa using hx)).1, rfl⟩
  | cons y ts ih =>
    intro done hdone
    have hy := hts y (by simp)
    have hbeside := switchTable_beside a hy
    obtain ⟨hfresh, hnodup'⟩ := List.nodup_cons.1 hnodup
    have hother : ∀ x ∈ ts, x.tid ≠ y.tid := fun x hx h => hfresh (List.mem_map.2 ⟨x, hx, h⟩)
    obtain ⟨hall, htables⟩ := ih (fun x hx => (hts x (by simp [hx])).of_beside hbeside (hother x hx)) hnodup' (hbeside.rising hrising)
      (done ++ [y]) (by
        intro x hx
        rcases List.mem_append.1 hx with hx | hx
        · obtain ⟨hsw, hidx, hnot⟩ := hdone x hx
          rw [List.map_cons, List.mem_cons, not_or] at hnot
          exact ⟨hsw.of_beside hidx hbeside hnot.1, hidx, hnot.2⟩
        · rw [List.mem_singleton.1 hx]
          exact ⟨switchTable_switched a hy hrising, fun e he => (hy.entries e he).1, hfresh⟩)
    refine ⟨fun x hx => hall x (by simpa using hx), ?_⟩
    rw [List.foldl_cons, htables, hbeside.tables]

end Switch

/-! ### A set commits (07 R219-R222) -/

section Commit

variable {s : State} {a : Armed}

/-- Tokens are settled in shapers and meters alone. -/
theorem settleTokens_narrow (s : State) (ts : List Staged) : Moves [.shapers, .meters] s (settleTokens s ts) :=
  foldl_moves (foldl_moves (Moves.refl _ s) fun _ _ h => upd_shapers h rfl) fun _ _ h => upd_meters h rfl

/-- The tables of a set switched, its drained classes resumed and its generations installed. -/
def tablesSwitched (s : State) (a : Armed) : State :=
  let ts := stagedFor s a
  let t := resumeAfter (dropArmed (ts.foldl (fun s t => switchTable s a t) (settleTokens s ts)) a) a
  { t with tables := { t.tables with
      routeGen := if installsRoute ts then a.routeGen else t.tables.routeGen
      rmapGen := if installsRmap ts then a.rmapGen else t.tables.rmapGen } }

/-- What follows the switch at the ports, the twin and the tick. -/
def commitFollowed (s : State) (a : Armed) : State :=
  let ts := stagedFor s a
  let t := tandemStart s (freshWatches s (awaitCredit s (creditChange s (tablesSwitched s a) ts) a) ts)
  if ts.any fun t => t.tid == 1 then tickChange s t else t

/-- The set is on record and its ARM complete. -/
def commitTold (s : State) (a : Armed) : State :=
  complete (recordRaw (commitFollowed s a) oDevice srcCoreW 0x12 a.set.toNat (s.tables.routeGen.toNat + s.tables.rmapGen.toNat * 65536)
    ((tablesSwitched s a).tables.routeGen.toNat + (tablesSwitched s a).tables.rmapGen.toNat * 65536)) (armAccept a) stCommitted 0 a.tick.toNat

theorem commitSet_eq (harmed : (linksAfter (commitTold s a)).tables.armed = []) : commitSet s a = linksAfter (commitTold s a) := by
  change (if ticksOn s && !ticksOn (linksAfter (commitTold s a)) then
      ((linksAfter (commitTold s a)).tables.armed.filter fun x => x.tick != a.tick).foldl (fun s x => abandon s x stLateArm)
        (linksAfter (commitTold s a))
    else linksAfter (commitTold s a)) = _
  rw [harmed]
  exact ite_self _

theorem tablesSwitched_moves (s : State) (a : Armed) : Moves [.tick, .tables, .faults, .shapers, .meters] s (tablesSwitched s a) :=
  have hswitched := foldl_moves (xs := stagedFor s a) ((Moves.refl _ s).trans (settleTokens_narrow s (stagedFor s a)) rfl)
    fun _ x h => switchTable_moves (a := a) (t := x) h rfl
  upd_tables (resumeAfter_moves (dropArmed_moves hswitched rfl) rfl) rfl id

theorem commitFollowed_moves (s : State) (a : Armed) : Moves [.tick, .ports, .tandem] (tablesSwitched s a) (commitFollowed s a) :=
  have hports := freshWatches_moves (awaitCredit_moves (creditChange_moves (Moves.refl [.tick, .ports, .tandem] (tablesSwitched s a)) rfl) rfl) rfl
  ite_moves (fun _ => tickChange_moves (tandemStart_moves hports rfl) rfl) fun _ => tandemStart_moves hports rfl

theorem commitTold_moves (s : State) (a : Armed) : Moves [.host, .ledger, .fresh] (commitFollowed s a) (commitTold s a) :=
  (recordRaw_moves (Moves.refl _ _) rfl).trans (complete_ringStep _ _ _ _ _ _).moves rfl

theorem linksAfter_commitTold_moves (s : State) (a : Armed) :
    Moves [.tick, .host, .stats, .ports, .tables, .shapers, .meters, .tandem, .faults, .ledger, .fresh] s (linksAfter (commitTold s a)) :=
  linksAfter_moves ((((Moves.refl _ s).trans (tablesSwitched_moves s a) rfl).trans (commitFollowed_moves s a) rfl).trans
    (commitTold_moves s a) rfl) rfl

theorem tickChange_len (old s : State) : (tickChange old s).tick.len = s.tick.len := by
  unfold tickChange
  split
  · rfl
  · split <;> rfl

theorem linksAfter_commitTold_tables (s : State) (a : Armed) : (linksAfter (commitTold s a)).tables = (tablesSwitched s a).tables :=
  have hlast : Moves [.tick, .ports, .tandem, .host, .ledger, .fresh] (tablesSwitched s a) (linksAfter (commitTold s a)) :=
    linksAfter_moves (((Moves.refl _ _).trans (commitFollowed_moves s a) rfl).trans (commitTold_moves s a) rfl) rfl
  hlast.only .tables (by decide)

/-- What the last steps of a commit leave of the switched tables. -/
structure FollowsSwitch (u t : State) : Prop where
  active : t.tables.active = u.tables.active
  staged : t.tables.staged = u.tables.staged
  faults : t.faults = u.faults
  len : t.tick.len = u.tick.len

theorem Switched.of_follows {u t : State} {x : Staged} (h : Switched u x) (g : FollowsSwitch u t) : Switched t x where
  active htid e he := by
    have hentry := h.active htid e he
    unfold activeEntry bothFail copyFails at hentry ⊢
    rw [if_neg htid] at hentry ⊢
    rwa [g.faults, g.active]
  len htid w hw := g.len.trans (h.len htid w hw)
  staged := by
    have hnone := h.staged
    rwa [stagedOf, g.staged]

theorem Switchable.of_follows {u t : State} {x : Staged} (h : Switchable u x) (g : FollowsSwitch u t) : Switchable t x where
  rises := h.rises
  entries e he := by
    have hgood := h.entries e he
    unfold bothFail copyFails at hgood ⊢
    rwa [g.faults]
  fits := by
    have hentry (tid i : Nat) : activeEntry t tid i = activeEntry u tid i := by
      unfold activeEntry bothFail copyFails
      rw [g.faults, g.active, g.len]
    have hfits := h.fits
    unfold changes at hfits ⊢
    simpa only [hentry] using hfits

theorem commitFollowed_len (s : State) (a : Armed) : (commitFollowed s a).tick.len = (tablesSwitched s a).tick.len := by
  have hbefore := (tandemStart_moves (freshWatches_moves (awaitCredit_moves (creditChange_moves (old := s) (ts := stagedFor s a)
    (Moves.refl [.ports, .tandem] (tablesSwitched s a)) rfl) rfl (old := s) (a := a)) rfl (old := s) (ts := stagedFor s a)) rfl
    (old := s)).only .tick (by decide)
  unfold commitFollowed
  dsimp only
  split
  · rw [tickChange_len, hbefore]
  · rw [hbefore]

theorem linksAfter_follows (s : State) (a : Armed) : FollowsSwitch (tablesSwitched s a) (linksAfter (commitTold s a)) := by
  have hlast : Moves [.host, .ledger, .fresh, .ports] (commitFollowed s a) (linksAfter (commitTold s a)) :=
    linksAfter_moves ((Moves.refl _ _).trans (commitTold_moves s a) rfl) rfl
  exact {
    active := congrArg Tables.active (linksAfter_commitTold_tables s a)
    staged := congrArg Tables.staged (linksAfter_commitTold_tables s a)
    faults := (hlast.only .faults (by decide)).trans ((commitFollowed_moves s a).only .faults (by decide))
    len := (congrArg Tick.len (hlast.only .tick (by decide))).trans (commitFollowed_len s a) }

/-- The named tables switched, one after another, on the tokens settled. -/
def tablesInForce (s : State) (a : Armed) : State :=
  (stagedFor s a).foldl (fun s t => switchTable s a t) (settleTokens s (stagedFor s a))

theorem tablesSwitched_follows (s : State) (a : Armed) : FollowsSwitch (tablesInForce s a) (tablesSwitched s a) := by
  obtain ⟨-, hstaged, hactive, -, -⟩ := resumeAfter_tables (dropArmed (tablesInForce s a) a) a
  have hrest := (resumeAfter_moves (a := a) (Moves.refl [.tables] (dropArmed (tablesInForce s a) a)) rfl)
  exact {
    active := hactive
    staged := hstaged
    faults := hrest.only .faults (by decide)
    len := congrArg Tick.len (hrest.only .tick (by decide)) }

/-- The switched tables as a commit that breaks no rule leaves them. -/
theorem tablesSwitched_switched (harmed : s.tables.armed = [a]) (hx : ∀ x ∈ stagedFor s a, Switchable s x)
    (hnodup : ((stagedFor s a).map (·.tid)).Nodup) (hrising : rising s.tables.active = true) :
    (∀ x ∈ stagedFor s a, Switched (tablesSwitched s a) x) ∧ (tablesSwitched s a).tables.armed = [] ∧
    (tablesSwitched s a).tables.routeGen = (if installsRoute (stagedFor s a) then a.routeGen else s.tables.routeGen) ∧
    (tablesSwitched s a).tables.rmapGen = (if installsRmap (stagedFor s a) then a.rmapGen else s.tables.rmapGen) := by
  have hsettled := settleTokens_narrow s (stagedFor s a)
  have htables : (settleTokens s (stagedFor s a)).tables = s.tables := hsettled.only .tables (by decide)
  have hbefore : FollowsSwitch s (settleTokens s (stagedFor s a)) := {
    active := congrArg Tables.active htables
    staged := congrArg Tables.staged htables
    faults := hsettled.only .faults (by decide)
    len := congrArg Tick.len (hsettled.only .tick (by decide)) }
  obtain ⟨hall, hrest⟩ := switchTables_switched (s := settleTokens s (stagedFor s a)) a (fun x h => (hx x h).of_follows hbefore) hnodup
    (by rwa [htables])
  rw [htables] at hrest
  obtain ⟨harm, -, -, hroute, hrmap⟩ := resumeAfter_tables (dropArmed (tablesInForce s a) a) a
  refine ⟨fun x h => (hall x h).of_follows (tablesSwitched_follows s a), ?_, ?_, ?_⟩
  · refine harm.trans ?_
    change (tablesInForce s a).tables.armed.filter _ = []
    rw [tablesInForce, hrest, harmed]
    simp
  · change (if _ then a.routeGen else (resumeAfter (dropArmed (tablesInForce s a) a) a).tables.routeGen) = _
    rw [hroute]
    change (if _ then a.routeGen else (tablesInForce s a).tables.routeGen) = _
    rw [tablesInForce, hrest]
  · change (if _ then a.rmapGen else (resumeAfter (dropArmed (tablesInForce s a) a) a).tables.rmapGen) = _
    rw [hrmap]
    change (if _ then a.rmapGen else (tablesInForce s a).tables.rmapGen) = _
    rw [tablesInForce, hrest]

theorem exec_commit (harmed : s.tables.armed = [a]) (hdue : commitDue s a = true) : exec .commit s = .next (endSet s a) := by
  change Host.Outcome.next ((s.tables.armed.filter (commitDue s)).foldl endSet s) = _
  rw [harmed, List.filter_cons, if_pos hdue]
  exact rfl

/-- A set that commits. -/
theorem leads_commit (harmed : s.tables.armed = [a]) (hrising : rising s.tables.active = true) (hdue : commitDue s a = true)
    (hgood : stageBad s a = false) (hidle : ∀ c < 8, bit a.mask.toNat c = true → classBusy s c = false)
    (hnodup : ((stagedFor s a).map (·.tid)).Nodup) (hx : ∀ x ∈ stagedFor s a, Switchable s x) :
    leads .commit s fun t =>
      onlyChanges [.tick, .host, .stats, .ports, .tables, .shapers, .meters, .tandem, .faults, .ledger, .fresh] s t ∧
      t.tables.armed = [] ∧ (∀ x ∈ stagedFor s a, Switched t x) ∧
      t.tables.routeGen = (if installsRoute (stagedFor s a) then a.routeGen else s.tables.routeGen) ∧
      t.tables.rmapGen = (if installsRmap (stagedFor s a) then a.rmapGen else s.tables.rmapGen) ∧
      (∃ e ∈ t.ledger.queue, e.kind = 0x12 ∧ e.target = BitVec.ofNat 64 a.set.toNat) ∧
      ∃ c ∈ t.host.ready, c.ring = some a.ring ∧ c.entries = [cmdEntry (armAccept a) stCommitted 0 a.tick.toNat] := by
  obtain ⟨hswitched, harm, hroute, hrmap⟩ := tablesSwitched_switched harmed hx hnodup hrising
  have htables := linksAfter_commitTold_tables s a
  have hset : endSet s a = linksAfter (commitTold s a) := by
    rw [← commitSet_eq (by rw [htables, harm]), endSet, if_neg (by simp [harmed]), if_neg (by simp [hgood]), if_neg]
    simpa [List.any_eq_true] using hidle
  have hlinks := linksAfter_moves (Moves.refl [.ports] (commitTold s a)) rfl
  have hledger : (linksAfter (commitTold s a)).ledger = (commitTold s a).ledger := hlinks.only .ledger (by decide)
  have hhost : (linksAfter (commitTold s a)).host = (commitTold s a).host := hlinks.only .host (by decide)
  refine ⟨_, exec_commit harmed hdue, ?_⟩
  rw [hset]
  dsimp only
  rw [htables, hledger, hhost]
  refine ⟨(linksAfter_commitTold_moves s a).only, harm, fun x h => (hswitched x h).of_follows (linksAfter_follows s a), hroute, hrmap, ?_, ?_⟩
  · obtain ⟨e, hqueue, hkind, -, -, htarget, -, -⟩ := recordRaw_entry (commitFollowed s a) oDevice srcCoreW 0x12 a.set.toNat
      (s.tables.routeGen.toNat + s.tables.rmapGen.toNat * 65536)
      ((tablesSwitched s a).tables.routeGen.toNat + (tablesSwitched s a).tables.rmapGen.toNat * 65536)
    refine ⟨e, ?_, hkind, htarget⟩
    rw [commitTold, (complete_ringStep _ _ _ _ _ _).ledger, hqueue]
    exact mem_enqueueChange.2 (.inl rfl)
  · obtain ⟨c, hc, -, hring, hentries⟩ := ready_completeTo (cring := cringOf (armAccept a).d0) (by decide : stCommitted ≠ stOk)
    exact ⟨c, hc, hring, hentries⟩

/-- What no step of a fold changes, the fold leaves. -/
theorem foldl_same {α β : Type} {g : State → β} {f : State → α → State} (hf : ∀ s x, g (f s x) = g s) (l : List α) (s : State) :
    g (l.foldl f s) = g s := by
  induction l generalizing s with
  | nil => rfl
  | cons x l ih => exact (ih _).trans (hf s x)

theorem linksRefused_ready (s : State) (a : Armed) : (linksRefused s a).host.ready = s.host.ready := by
  refine foldl_same (g := fun s => s.host.ready) (fun t p => ?_) _ s
  dsimp only
  split
  · split
    · exact (noteState_eventStep _ _ _ _).ready
    · rfl
  · rfl

/-- A set that breaks a rule. -/
theorem leads_commit_bad (harmed : s.tables.armed = [a]) (hdue : commitDue s a = true) (hbad : stageBad s a = true) :
    leads .commit s fun t => onlyChanges [.host, .stats, .ports, .tables, .ledger, .fresh] s t ∧
      t.tables.armed = [] ∧ t.tables.active = s.tables.active ∧ t.tables.routeGen = s.tables.routeGen ∧
      ∃ c ∈ t.host.ready, c.ring = some a.ring ∧ c.entries = [cmdEntry (armAccept a) stStage 0 a.tick.toNat] := by
  have hset : endSet s a = linksRefused (abandon s a stStage) a := by
    rw [endSet, if_neg (by simp [harmed]), if_pos hbad]
  have hlinks := linksRefused_moves (a := a) (Moves.refl [.host, .stats, .ports, .fresh] (abandon s a stStage)) rfl
  have htables : (linksRefused (abandon s a stStage) a).tables = (abandon s a stStage).tables := hlinks.only .tables (by decide)
  obtain ⟨harm, -, hactive, hroute, -⟩ := abandon_tables s a stStage
  refine ⟨_, exec_commit harmed hdue, ?_⟩
  rw [hset]
  dsimp only
  rw [htables, linksRefused_ready]
  refine ⟨(linksRefused_moves (abandon_moves (Moves.refl _ s) rfl) rfl).only, by rw [harm, harmed]; simp, hactive, hroute, ?_⟩
  obtain ⟨c, hc, -, hring, hentries⟩ := abandon_ready (s := s) (a := a) (by decide : stStage ≠ stOk)
  exact ⟨c, hc, hring, hentries⟩

end Commit

/-! ### The drain, the overflow copy and the queue sample (09 R286, R287; 10 R303) -/

section Around

variable {s : State} {a : Armed}

theorem leads_drainStart (harmed : s.tables.armed = [a]) (hdue : drainDue s a = true) : leads .drainStart s fun t =>
    onlyChanges [.tables] s t ∧ t.tables = { s.tables with armed := [{ a with draining := true }] } ∧
    ∀ c < 8, bit a.mask.toNat c = true → drained t c = true := by
  have hexec : exec .drainStart s = .next { s with tables := { s.tables with armed := [{ a with draining := true }] } } := by
    change Host.Outcome.next { s with tables := { s.tables with
      armed := s.tables.armed.map fun x => if drainDue s x then { x with draining := true } else x } } = _
    rw [harmed, List.map_singleton, if_pos hdue]
  refine leads_moves hexec execDrainStart_moves ⟨rfl, fun c _ hbit => ?_⟩
  simp [drained, hbit]

/-- An entry copied from the overflow. -/
def overflowCopied (s : State) (k : Nat) (e : List W64) (rest : List (Nat × List W64)) : State :=
  let t := setActive s (k / 2 ^ 20) (k % 2 ^ 20) e
  { t with tables := { t.tables with overflow := rest, overflowAt := some t.now,
                                     overflowMask := if rest.isEmpty then 0 else t.tables.overflowMask } }

theorem leads_overflowCopy {k : Nat} {e : List W64} {rest : List (Nat × List W64)} (hrising : rising s.tables.active = true)
    (hover : s.tables.overflow = (k, e) :: rest) (hat : s.tables.overflowAt ≠ some s.now) (htid : k / 2 ^ 20 ≠ 1)
    (hgood : bothFail s (k / 2 ^ 20) (k % 2 ^ 20) = false) :
    leads .overflowCopy s fun t => onlyChanges [.tables, .faults] s t ∧
      activeEntry t (k / 2 ^ 20) (k % 2 ^ 20) = e ∧ t.tables.overflow = rest ∧ t.tables.overflowAt = some s.now ∧
      (rest = [] → t.tables.overflowMask = 0) := by
  have hexec : exec .overflowCopy s = .next (overflowCopied s k e rest) := by
    change Host.Outcome.next (match s.tables.overflow with
      | [] => s
      | (k, e) :: r => if s.tables.overflowAt = some s.now then s else overflowCopied s k e r) = _
    rw [hover]
    exact congrArg Host.Outcome.next (if_neg hat)
  have hkey : tkey (k / 2 ^ 20) (k % 2 ^ 20) = k := Nat.div_add_mod' k (2 ^ 20)
  have hmoves : Moves [.tables, .faults] s (overflowCopied s k e rest) := by
    unfold overflowCopied setActive
    rw [if_neg htid]
    exact upd_tables (upd_tables (upd_faults (Moves.refl _ s) rfl) rfl rising_sput) rfl id
  refine ⟨_, hexec, hmoves.only, ?_, rfl, ?_, ?_⟩
  · exact (activeEntry_of_same rfl rfl rfl _ _).trans (activeEntry_setActive_same htid hrising hgood)
  · change some (setActive s (k / 2 ^ 20) (k % 2 ^ 20) e).now = some s.now
    rw [(setActive_moves (Moves.refl [.tick, .tables, .faults] s) rfl).only .now (by decide)]
  · rintro rfl
    rfl

/-- Depth and age of every class sampled. -/
def portSampled (now : Nat) (q : Port) : Port := { q with q := sampleQueue now q.q }

/-- A map whose entries were all replaced: what a key reads stands to what it read before as a replacement does. -/
theorem sget_canonMap_related {α : Type} [DecidableEq α] {d : α} {f : α → α} {R : α → α → Prop} (hd : R d d) (hf : ∀ x, R x (f x))
    {m : Sparse α} (hm : rising m = true) (k : Nat) : R (sget d m k) (sget d (canonMap d (m.map fun e => (e.1, f e.2))) k) := by
  induction m with
  | nil => exact hd
  | cons e m ih =>
    obtain ⟨a, v⟩ := e
    obtain ⟨habove, hm'⟩ := rising_cons.1 hm
    rw [List.map_cons, canonMap, List.filter_cons, sget]
    by_cases hk : a = k
    · subst hk
      rw [if_pos rfl]
      split
      · rw [sget, if_pos rfl]
        exact hf v
      next hdef =>
        have hfd : f v = d := by simpa using hdef
        have hgone : sget d (canonMap d (m.map fun e => (e.1, f e.2))) a = d := by
          refine sget_above fun e he => ?_
          obtain ⟨x, hx, rfl⟩ := List.mem_map.1 (List.mem_filter.1 he).1
          exact habove x hx
        rw [← canonMap, hgone, ← hfd]
        exact hf v
    · rw [if_neg hk]
      split
      · rw [sget, if_neg hk]
        exact ih hm'
      · exact ih hm'

theorem portSampled_depth (now : Nat) (q : Port) {c : Nat} (hc : c < 8) :
    ((portSampled now q).q.samples.getD c (0, 0, 0, 0)).1 = min Config.sat32 (depthOf q.q c) := by
  simp [portSampled, sampleQueue, List.getD_eq_getElem?_getD, hc]

theorem leads_queueSample (hports : canon {} s.ports = true) (hdue : sampleDue s = true) : leads .queueSample s fun t =>
    onlyChanges [.ports, .tick] s t ∧ t.tick = { s.tick with sampledAt := some s.now, sampleTick := s.tick.num } ∧
    ∀ p c, c < 8 → ((portAt t p).q.samples.getD c (0, 0, 0, 0)).1 = min Config.sat32 (depthOf (portAt s p).q c) := by
  have hexec : exec .queueSample s = .next { s with
      ports := canonMap {} (s.ports.map fun e => (e.1, portSampled s.now e.2)),
      tick := { s.tick with sampledAt := some s.now, sampleTick := s.tick.num } } :=
    congrArg Host.Outcome.next (if_neg (by simp [hdue]))
  refine leads_moves hexec (runs_widen execQueueSample_moves rfl) ⟨rfl, fun p c hc => ?_⟩
  refine sget_canonMap_related (R := fun x y : Port => (y.q.samples.getD c (0, 0, 0, 0)).1 = min Config.sat32 (depthOf x.q c)) ?_
    (fun q => portSampled_depth s.now q hc) (Bool.and_eq_true_iff.1 hports).1 p
  have hdefault : ∀ c < 8, ((({} : Port).q.samples).getD c (0, 0, 0, 0)).1 = min Config.sat32 (depthOf ({} : Port).q c) := by decide
  exact hdefault c hc

end Around

/-- Settles O29: a due set, table by table; then the drain, the overflow copy and the queue sample. -/
theorem commitSwitchesTables : Obligations.CommitSwitchesTables := by
  unfold Obligations.CommitSwitchesTables
  refine ⟨fun s a hmaps harmed hdue => ?_, fun s a => leads_drainStart, fun s k e rest hmaps => ?_, fun s hmaps => ?_⟩ <;>
    obtain ⟨hports, -, -, -, hrising, -⟩ := hmaps
  · refine ⟨leads_commit_bad harmed hdue, fun hgood hidle hnodup hx => ?_⟩
    have hx' : ∀ x ∈ stagedFor s a, Switchable s x := fun x h => ⟨(hx x h).1, (hx x h).2.1, (hx x h).2.2⟩
    obtain ⟨t, hexec, honly, harm, hswitched, hrest⟩ := leads_commit harmed hrising hdue hgood hidle hnodup hx'
    exact ⟨t, hexec, honly, harm, fun x h => (hswitched x h).active, fun x h => (hswitched x h).len,
      fun x h => (hswitched x h).staged, hrest⟩
  · exact leads_overflowCopy hrising
  · exact leads_queueSample hports
end Sys2Proof.Proofs

/-! PROOFS. Kickstands are detected and sent (O31; 07 R210; 12 R344-R348). -/

namespace Sys2Proof.Proofs

open Sys2Proof.Machine Sys2Proof.Safety Sys2Proof.Laws

/-! ### What changes of ports leave -/

/-- A reading of the ports that a change leaves: ports in canonical form stay so, and g reads the same at each. -/
def PortsKeep {β : Type} (g : Port → β) (s t : State) : Prop :=
  canon {} s.ports = true → canon {} t.ports = true ∧ ∀ q, g (portAt t q) = g (portAt s q)

namespace PortsKeep

variable {β : Type} {g : Port → β} {s t u : State}

theorem trans (h : PortsKeep g s t) (k : PortsKeep g t u) : PortsKeep g s u := fun hs =>
  ⟨(k (h hs).1).1, fun q => ((k (h hs).1).2 q).trans ((h hs).2 q)⟩

theorem of_ports (h : t.ports = s.ports) : PortsKeep g s t := fun hs => ⟨by rwa [h], fun q => by rw [portAt, h, ← portAt]⟩

theorem refl (s : State) : PortsKeep g s s := of_ports rfl

theorem modPort {f : Port → Port} (hf : ∀ v, g (f v) = g v) (s : State) (p : Nat) : PortsKeep g s (modPort s p f) := fun hs =>
  ⟨canon_sput hs, fun q => by
    rw [Machine.modPort, portAt_setPort s p q _ hs]
    split
    next h => rw [hf, h]
    · rfl⟩

theorem foldl {α : Type} {f : State → α → State} (hf : ∀ s x, PortsKeep g s (f s x)) (l : List α) (s : State) :
    PortsKeep g s (l.foldl f s) := by
  induction l generalizing s with
  | nil => exact refl s
  | cons x l ih => exact (hf s x).trans (ih _)

end PortsKeep

theorem EventStep.portsKeep {β : Type} {g : Port → β} {s t : State} (h : EventStep s t) : PortsKeep g s t := .of_ports h.ports

/-- A reading of a port that neither its queues nor its counters enter. -/
structure OffQueues {β : Type} (g : Port → β) : Prop where
  q : ∀ v x, g { v with q := x } = g v
  counters : ∀ v x, g { v with counters := x } = g v

section Cut

variable {β : Type} {g : Port → β}

theorem cutRecords_ports (s : State) (fid p : Nat) (f : Option Frame) : (cutRecords s fid p f).ports = s.ports :=
  (cutRecords_moves (Moves.refl [.tandem] s) rfl).only .ports (by decide)

theorem cutCopies_portsKeep (hg : OffQueues g) (s : State) (x : Nat × Nat) (sent : Nat) (reason : W16) :
    PortsKeep g s (cutCopies s x sent reason) := by
  unfold cutCopies
  dsimp only
  split
  · exact .foldl (fun s p => .modPort (fun v => hg.q v _) s p) _ s
  · exact .refl s

theorem countPort_portsKeep (hg : OffQueues g) (s : State) (p word n : Nat) : PortsKeep g s (countPort s p word n) :=
  .modPort (fun v => hg.counters v _) s p

theorem modQ_portsKeep (hg : OffQueues g) (s : State) (p : Nat) (f : PortQ → PortQ) : PortsKeep g s (modQ s p f) :=
  .modPort (fun v => hg.q v _) s p

theorem cutLane_portsKeep (hg : OffQueues g) (s : State) (p : Nat) (reason : W16) : PortsKeep g s (cutLane s p reason) := by
  unfold cutLane
  split
  · dsimp only
    generalize hrecords : cutRecords s _ p _ = r
    have hr : PortsKeep g s r := .of_ports (hrecords ▸ cutRecords_ports s _ p _)
    refine .trans (.trans hr ?_) ((cutCopies_portsKeep hg _ _ _ _).trans (.of_ports rfl))
    split
    · exact modQ_portsKeep hg _ p _
    · exact (modQ_portsKeep hg _ p _).trans (countPort_portsKeep hg _ p _ _)
  · exact .refl s

theorem loseLane_portsKeep (hg : OffQueues g) (s : State) (p : Nat) : PortsKeep g s (loseLane s p) := by
  unfold loseLane
  split
  · exact (modQ_portsKeep hg s p clearLane).trans (.of_ports rfl)
  · exact modQ_portsKeep hg s p clearLane

theorem dropReplay_portsKeep (hg : OffQueues g) (s : State) (p c : Nat) (under : Option (List Byte)) :
    PortsKeep g s (dropReplay s p c under) := by
  have hlost (f : PortQ → PortQ) := (modQ_portsKeep hg s p f).trans (loseLane_portsKeep hg _ p)
  unfold dropReplay
  split
  · exact hlost _
  · exact (hlost _).trans ((modQ_portsKeep hg _ p _).trans (countPort_portsKeep hg _ p _ _))

end Cut

/-! ### A kickstand takes the lane (12 R345-R347) -/

section Send

variable {s : State} {p : Nat} {k : KickPend}

/-- The lane freed for a kickstand: what is on it is cut, or a replay ends. -/
def laneFreed (s : State) (p : Nat) : State := match (portAt s p).link.resend with
  | [] => cutLane s p 0x0005
  | b :: _ => dropReplay s p (nextCycle s p) b.under

/-- The queues of a port that a kickstand has taken. -/
def queueTaken (s : State) (p : Nat) (k : KickPend) (q : PortQ) : PortQ :=
  { q with lane := .kick (kickFrame s p k (kickStart s p)) (kickStart s p) (dataCycles (kickFrame s p k (kickStart s p)) (widthOf (modLink (laneFreed s p) p endReplay) p)),
           stallFrom := none, done := 0, credit := q.credit.set 7 (nth q.credit 7 - if isEdge (modLink (laneFreed s p) p endReplay) p then 0 else kickCells k) }

/-- The kickstand of a port that has been sent. -/
def kickSent (tick : BitVec 48) (k : KickPend) (x : Kick) : Kick :=
  { x with pending := x.pending.filter (fun y => y.cycle != k.cycle), seq := x.seq + 1, sentTick := some tick, sending := some k }

theorem laneFreed_keeps {β : Type} {g : Port → β} (hg : OffQueues g) (s : State) (p : Nat) : PortsKeep g s (laneFreed s p) := by
  unfold laneFreed
  split
  · exact cutLane_portsKeep hg s p _
  · exact dropReplay_portsKeep hg s p _ _

theorem laneFreed_tick (s : State) (p : Nat) : (laneFreed s p).tick = s.tick := by
  unfold laneFreed
  split
  · exact (cutLane_moves (Moves.refl [.ports, .tandem, .dropping] s) rfl).only .tick (by decide)
  · exact (dropReplay_moves (Moves.refl [.ports, .dropping] s) rfl).only .tick (by decide)

theorem sendKick_eq (s : State) (p : Nat) (k : KickPend) : sendKick s p k =
    countPort (modKick (modQ (modLink (laneFreed s p) p endReplay) p (queueTaken s p k)) p (kickSent (laneFreed s p).tick.num k)) p cKickSent 1 :=
  rfl

/-- The port that a kickstand has taken. -/
theorem portAt_sendKick (hcanon : canon {} s.ports = true) (k : KickPend) :
    (portAt (sendKick s p k) p).kick = kickSent s.tick.num k (portAt s p).kick ∧
    (portAt (sendKick s p k) p).q.lane = (queueTaken s p k {}).lane := by
  have hfreed := laneFreed_keeps (g := Port.kick) ⟨fun _ _ => rfl, fun _ _ => rfl⟩ s p hcanon
  rw [sendKick_eq, laneFreed_tick]
  generalize laneFreed s p = r at hfreed
  obtain ⟨hr, hkick⟩ := hfreed
  have hlink : canon {} (modLink r p endReplay).ports = true := canon_sput hr
  have hq : canon {} (modQ (modLink r p endReplay) p (queueTaken s p k)).ports = true := canon_sput hlink
  have hk : canon {} (modKick (modQ (modLink r p endReplay) p (queueTaken s p k)) p (kickSent s.tick.num k)).ports = true := canon_sput hq
  rw [countPort, modPort, portAt_setPort _ _ _ _ hk, if_pos rfl, modKick, modPort, portAt_setPort _ _ _ _ hq, if_pos rfl, modQ, modPort,
    portAt_setPort _ _ _ _ hlink, if_pos rfl, modLink, modPort, portAt_setPort _ _ _ _ hr, if_pos rfl]
  exact ⟨congrArg (kickSent s.tick.num k) (hkick p), rfl⟩

theorem headerOf_mkFrame (h : Header) (payload : List Byte) : headerOf (mkFrame h payload).hdr =
    withHcrc { h with ver := 1, len := BitVec.ofNat 9 (payload.length / 32) } := headerBitsRoundTrip.1 _

theorem exec_kickstandSend {port : BitVec 9} (hdue : kickDue s port.toNat = some k) :
    exec (.kickstandSend port) s = .next (
      if (portAt s port.toNat).kick.sentTick = some s.tick.num ∨ kickOnLane (portAt s port.toNat).q = true then s
      else if kickMayGo s port.toNat k then sendKick s port.toNat k else kickWaits s port.toNat k) := by
  change Host.Outcome.next (match kickDue s port.toNat with
    | none => s
    | some k =>
      if (portAt s port.toNat).kick.sentTick = some s.tick.num ∨ kickOnLane (portAt s port.toNat).q = true then s
      else if kickMayGo s port.toNat k then sendKick s port.toNat k else kickWaits s port.toNat k) = _
  rw [hdue]

/-- In a tick in which a kickstand has been sent on a port, none other is. -/
theorem exec_kickstandSend_sent {port : BitVec 9} (hsent : (portAt s port.toNat).kick.sentTick = some s.tick.num) :
    exec (.kickstandSend port) s = .next s := by
  rcases hdue : kickDue s port.toNat with _ | k
  · change Host.Outcome.next (match kickDue s port.toNat with
      | none => s
      | some k => _) = _
    rw [hdue]
  · rw [exec_kickstandSend hdue, if_pos (.inl hsent)]

theorem leads_kickstandSend {port : BitVec 9} (hcanon : canon {} s.ports = true) (hdue : kickDue s port.toNat = some k)
    (hmay : kickMayGo s port.toNat k = true) (hsent : (portAt s port.toNat).kick.sentTick ≠ some s.tick.num)
    (hlane : kickOnLane (portAt s port.toNat).q = false) :
    leads (.kickstandSend port) s fun t => onlyChanges [.ports, .tandem, .dropping] s t ∧
      (portAt t port.toNat).kick.sentTick = some s.tick.num ∧
      (portAt t port.toNat).kick.seq = (portAt s port.toNat).kick.seq + 1 ∧
      (∀ x ∈ (portAt t port.toNat).kick.pending, x.cycle ≠ k.cycle) ∧
      (∃ f n, (portAt t port.toNat).q.lane = .kick f (kickStart s port.toNat) n ∧ (headerOf f.hdr).type = 0xA ∧
        (headerOf f.hdr).cls = 7 ∧ (headerOf f.hdr).dest = BitVec.ofNat 20 (wf k.words 0 39 20) ∧
        f.payload = padTo (32 * wf k.words 0 47 44) (bytesOf (k.words.drop 2)) ∧
        (headerOf f.hdr).aux = BitVec.ofNat 32 (k.cause % 16 * 2 ^ 28 + k.ofs % 2 ^ 28)) ∧
      leads (.kickstandSend port) t fun u => u = t := by
  have hexec : exec (.kickstandSend port) s = .next (sendKick s port.toNat k) := by
    rw [exec_kickstandSend hdue, if_neg (by simp [hsent, hlane]), if_pos hmay]
  have hmoves := sendKick_moves (p := port.toNat) (k := k) (Moves.refl [.ports, .tandem, .dropping] s) rfl
  obtain ⟨hkick, htaken⟩ := portAt_sendKick (p := port.toNat) hcanon k
  have htick : (sendKick s port.toNat k).tick = s.tick := hmoves.only .tick (by decide)
  have hstays : (portAt (sendKick s port.toNat k) port.toNat).kick.sentTick = some s.tick.num := by rw [hkick]; rfl
  refine ⟨_, hexec, hmoves.only, hstays, by rw [hkick]; rfl, fun x hx => ?_, ⟨_, _, htaken, ?_⟩, ?_⟩
  · rw [hkick] at hx
    simpa using (List.mem_filter.1 hx).2
  · rw [kickFrame, headerOf_mkFrame]
    exact ⟨rfl, rfl, rfl, rfl, rfl⟩
  · exact ⟨_, exec_kickstandSend_sent (by rw [hstays, htick]), rfl⟩

end Send

/-! ### Deadline watches and REPEAT (07 R210; 12 R348) -/

section Watch

variable {s : State} {p : Nat}

/-- What holds of a state and the next whatever of a kickstand, its counters, its causes and its events changes, holds of its
detection. -/
theorem kickDetect_steps {R : State → State → Prop} {p : Nat} (hrefl : ∀ s, R s s) (htrans : ∀ {s t u}, R s t → R t u → R s u)
    (hkick : ∀ s f, R s (modKick s p f)) (hcount : ∀ s word, R s (countPort s p word 1)) (hevent : ∀ s t, EventStep s t → R s t)
    (s : State) (cause till : Nat) : R s (kickDetect s p cause till) := by
  unfold kickDetect
  dsimp only
  split
  · exact hrefl s
  · generalize hcaused : setCause (modKick s p _) _ _ _ _ _ _ = t
    refine htrans (t := t) (hcaused ▸ htrans (hkick s _) (hevent _ _ (setCause_eventStep _ _ _ _ _ _ _ _))) ?_
    split
    · exact htrans (hcount t _) (hevent _ _ (setCause_eventStep _ _ _ _ _ _ _ _))
    · split
      · split
        · exact hkick t _
        · exact hrefl t
      · split
        · exact htrans (hcount t _) (hevent _ _ (postEvent_eventStep _ _ _ _ _ _ _ _))
        · split
          · exact htrans (hcount t _) (hevent _ _ (setCause_eventStep _ _ _ _ _ _ _ _))
          · exact hkick t _

/-- A detected kickstand leaves every port, but for its kickstand and its counters. -/
theorem kickDetect_portsKeep {β : Type} {g : Port → β} (hg : OffQueues g) (hkick : ∀ v x, g { v with kick := x } = g v)
    (s : State) (p cause till : Nat) : PortsKeep g s (kickDetect s p cause till) :=
  kickDetect_steps .refl .trans (fun s _ => .modPort (fun v => hkick v _) s p) (fun s word => countPort_portsKeep hg s p word 1)
    (fun _ _ h => h.portsKeep) s cause till

/-- Status bits that stand in s stand in t. -/
def BitsStay (s t : State) : Prop := ∀ src b, bit (statAt s src).status.toNat b = true → bit (statAt t src).status.toNat b = true

theorem kickDetect_bits (s : State) (p cause till : Nat) : BitsStay s (kickDetect s p cause till) :=
  kickDetect_steps (fun _ _ _ h => h) (fun h k src b hb => k src b (h src b hb)) (fun _ _ _ _ h => h) (fun _ _ _ _ h => h)
    (fun _ _ h => h.bits) s cause till

theorem noneMissed (w : BitVec 2) : [false, false, false, false].getD w.toNat false = false ∧
    ([false, false, false, false].set w.toNat true).getD w.toNat false = true := by
  revert w
  decide

/-- A missed watch, before its kickstand. -/
def watchMissed (s : State) (p n : Nat) : State :=
  setCause (countPort (modPort s p fun q => { q with missed := q.missed.set n true }) p cWatchMiss 1) (srcPg (pgOf p)) 12 p
    (dlJob (watchEntry s p n)) n (if dlKick (watchEntry s p n) then n else 0)

theorem exec_watchDeadline {port : BitVec 9} {w : BitVec 2} (hconf : (portAt s port.toNat).conf = true) (hlen : 0 < tickLen s)
    (hrun : s.tick.running = true) (hen : dlEn (watchEntry s port.toNat w.toNat) = true)
    (hcycle : dlCycle (watchEntry s port.toNat w.toNat) ≤ curOfs s) (hmet : (portAt s port.toNat).met.getD w.toNat false = false)
    (hfresh : (portAt s port.toNat).fresh.getD w.toNat false = false) (hmissed : (portAt s port.toNat).missed = [false, false, false, false]) :
    exec (.watchDeadline port w) s = .next (if dlKick (watchEntry s port.toNat w.toNat) then
      kickDetect (watchMissed s port.toNat w.toNat) port.toNat 1 w.toNat else watchMissed s port.toNat w.toNat) := by
  have hnot : (portAt s port.toNat).missed.getD w.toNat false = false := by
    rw [hmissed]
    exact (noneMissed w).1
  have hlen' : tickLen s ≠ 0 := Nat.ne_of_gt hlen
  refine congrArg Host.Outcome.next (if_neg ?_)
  simp [hconf, hen, hrun, hmet, hfresh, hnot, hcycle, hlen', -List.getD_eq_getElem?_getD]

theorem leads_watchDeadline {port : BitVec 9} {w : BitVec 2} (hmaps : mapsCanonical s) (htrip : s.boot.thermtrip = false)
    (hconf : (portAt s port.toNat).conf = true) (hlen : 0 < tickLen s)
    (hrun : s.tick.running = true) (hen : dlEn (watchEntry s port.toNat w.toNat) = true)
    (hcycle : dlCycle (watchEntry s port.toNat w.toNat) ≤ curOfs s) (hmet : (portAt s port.toNat).met.getD w.toNat false = false)
    (hfresh : (portAt s port.toNat).fresh.getD w.toNat false = false) (hmissed : (portAt s port.toNat).missed = [false, false, false, false]) :
    leads (.watchDeadline port w) s fun t => onlyChanges [.host, .stats, .ports, .fresh] s t ∧
      (portAt t port.toNat).missed.getD w.toNat false = true ∧ bit (statAt t (srcPg (pgOf port.toNat))).status.toNat 12 = true ∧
      (dlKick (watchEntry s port.toNat w.toNat) = true → (portAt t port.toNat).kick.latch = true) ∧
      (dlKick (watchEntry s port.toNat w.toNat) = false → (portAt t port.toNat).kick = (portAt s port.toNat).kick) := by
  obtain ⟨hcanon, -⟩ := hmaps
  have hset : canon {} (modPort s port.toNat fun q => { q with missed := q.missed.set w.toNat true }).ports = true := canon_sput hcanon
  have hports : (watchMissed s port.toNat w.toNat).ports =
      (countPort (modPort s port.toNat fun q => { q with missed := q.missed.set w.toNat true }) port.toNat cWatchMiss 1).ports :=
    (setCause_eventStep _ _ _ _ _ _ _ _).ports
  have hcounted : canon {} (watchMissed s port.toNat w.toNat).ports = true := by
    rw [hports]
    exact canon_sput hset
  have hport : (portAt (watchMissed s port.toNat w.toNat) port.toNat).missed = (portAt s port.toNat).missed.set w.toNat true ∧
      (portAt (watchMissed s port.toNat w.toNat) port.toNat).kick = (portAt s port.toNat).kick := by
    rw [portAt, hports, ← portAt, countPort, modPort, portAt_setPort _ _ _ _ hset, if_pos rfl, modPort, portAt_setPort _ _ _ _ hcanon,
      if_pos rfl]
    exact ⟨rfl, rfl⟩
  obtain ⟨hmiss, hkick⟩ := hport
  have hset' : ((portAt s port.toNat).missed.set w.toNat true).getD w.toNat false = true := by
    rw [hmissed]
    exact (noneMissed w).2
  have hbit : bit (statAt (watchMissed s port.toNat w.toNat) (srcPg (pgOf port.toNat))).status.toNat 12 = true :=
    bit_statAt_setCause (by decide)
  refine leads_moves (exec_watchDeadline hconf hlen hrun hen hcycle hmet hfresh hmissed) execWatchDeadline_moves ?_
  split
  next hk =>
    have hdetected := kickDetect_portsKeep (g := Port.missed) ⟨fun _ _ => rfl, fun _ _ => rfl⟩ (fun _ _ => rfl)
      (watchMissed s port.toNat w.toNat) port.toNat 1 w.toNat hcounted
    have htrip' : (watchMissed s port.toNat w.toNat).boot.thermtrip = false := by
      rw [watchMissed, (setCause_eventStep _ _ _ _ _ _ _ _).boot]
      exact htrip
    refine ⟨?_, kickDetect_bits _ _ _ _ _ _ hbit, fun _ => (kickDetect_latches hcounted htrip').1, fun h => absurd hk (by simp [h])⟩
    rw [hdetected.2, hmiss]
    exact hset'
  next hk =>
    refine ⟨?_, hbit, fun h => absurd h hk, fun _ => hkick⟩
    rw [hmiss]
    exact hset'

theorem exec_kickstandRepeat {port : BitVec 9} (hlatch : (portAt s port.toNat).kick.latch = true) (hen : kickEn s port.toNat = true)
    (hrep : kickRepeat s port.toNat = true) (hlen : 0 < tickLen s) (hrun : s.tick.running = true)
    (hofs : curOfs s = kickRepOfs s port.toNat) (hlatched : (portAt s port.toNat).kick.latchTick ≠ s.tick.num)
    (hsent : (portAt s port.toNat).kick.sentTick ≠ some s.tick.num) (hrepeat : (portAt s port.toNat).kick.repeatTick ≠ some s.tick.num) :
    exec (.kickstandRepeat port) s = .next (kickDetect (modKick s port.toNat fun x => { x with repeatTick := some s.tick.num }) port.toNat 7 0) := by
  refine congrArg Host.Outcome.next (if_neg ?_)
  simp [hlatch, hen, hrep, hrun, hofs, hlatched, hsent, hrepeat]
  omega

theorem leads_kickstandRepeat {port : BitVec 9} (hcanon : canon {} s.ports = true) (htrip : s.boot.thermtrip = false)
    (hexec : exec (.kickstandRepeat port) s =
      .next (kickDetect (modKick s port.toNat fun x => { x with repeatTick := some s.tick.num }) port.toNat 7 0)) :
    leads (.kickstandRepeat port) s fun t => onlyChanges [.host, .stats, .ports, .fresh] s t ∧
        (portAt t port.toNat).kick.repeatTick = some s.tick.num ∧ (portAt t port.toNat).kick.latch = true ∧
        (portAt t port.toNat).kick.latchAt = s.now := by
  refine leads_moves hexec execKickstandRepeat_moves ?_
  have hmod : canon {} (modKick s port.toNat fun x => { x with repeatTick := some s.tick.num }).ports = true := modKick_ports_canon hcanon
  rw [kickDetect_kick hmod htrip, kick_modKick hcanon, if_pos rfl]
  exact ⟨rfl, rfl, rfl⟩

end Watch

/-- Settles O31: a missed watch, a repeated kickstand, and one that takes its lane. -/
theorem kickstandsFireAndLeave : Obligations.KickstandsFireAndLeave := by
  unfold Obligations.KickstandsFireAndLeave
  refine ⟨fun s port hmaps htrip hconf hlen hrun => ⟨fun w hen hcycle hmet hfresh hmissed =>
    leads_watchDeadline hmaps htrip hconf hlen hrun hen hcycle hmet hfresh hmissed,
    fun hlatch hen hrep hofs hlatched hsent hrepeat => leads_kickstandRepeat hmaps.1 htrip
      (exec_kickstandRepeat hlatch hen hrep hlen hrun hofs hlatched hsent hrepeat)⟩,
    fun s port k hmaps hdue hmay hsent hlane => leads_kickstandSend hmaps.1 hdue hmay hsent hlane⟩
end Sys2Proof.Proofs

/-! PROOFS. Twins are compared (O32; 11 R325-R329). -/

namespace Sys2Proof.Proofs

open Sys2Proof.Machine Sys2Proof.Safety Sys2Proof.Laws

/-! ### Kickstands of compare slots (11 R329; 12 R345) -/

section Slots

variable {s : State} {p : Nat}

/-- A kickstand detected on a port leaves every other port. -/
theorem kickDetect_other (hcanon : canon {} s.ports = true) (cause till : Nat) :
    canon {} (kickDetect s p cause till).ports = true ∧ ∀ q, q ≠ p → portAt (kickDetect s p cause till) q = portAt s q := by
  refine kickDetect_steps (R := fun s t => canon {} s.ports = true → canon {} t.ports = true ∧ ∀ q, q ≠ p → portAt t q = portAt s q)
    (fun _ h => ⟨h, fun _ _ => rfl⟩) (fun h k hs => ?_) (fun s f hs => ?_) (fun s word hs => ?_) (fun s t h hs => ?_) s cause till hcanon
  · obtain ⟨ht, hst⟩ := h hs
    obtain ⟨hu, htu⟩ := k ht
    exact ⟨hu, fun q hq => (htu q hq).trans (hst q hq)⟩
  · exact ⟨canon_sput hs, fun q hq => by rw [modKick, modPort, portAt_setPort _ _ _ _ hs, if_neg hq]⟩
  · exact ⟨canon_sput hs, fun q hq => by rw [countPort, modPort, portAt_setPort _ _ _ _ hs, if_neg hq]⟩
  · exact ⟨by rwa [h.ports], fun q _ => h.portAt q⟩

/-- Kickstands and causes that came of a step: what else moves, the bits that stand, and the latches that stand. -/
structure KickStep (s t : State) : Prop where
  moves : Moves [.host, .stats, .ports, .fresh] s t
  bits : BitsStay s t
  latches : mapsCanonical s → s.boot.thermtrip = false → ∀ q, (portAt s q).kick.latch = true → (portAt t q).kick.latch = true

namespace KickStep

variable {t u : State}

theorem refl (s : State) : KickStep s s := ⟨Moves.refl _ s, fun _ _ h => h, fun _ _ _ h => h⟩

theorem boot (h : KickStep s t) : t.boot = s.boot := h.moves.only .boot (by decide)
theorem tandem (h : KickStep s t) : t.tandem = s.tandem := h.moves.only .tandem (by decide)
theorem intake (h : KickStep s t) : t.intake = s.intake := h.moves.only .intake (by decide)

theorem slotPort (h : KickStep s t) (k : Nat) : Machine.slotPort t k = Machine.slotPort s k := by
  have htables : t.tables = s.tables := h.moves.only .tables (by decide)
  unfold Machine.slotPort ew
  rw [activeEntry_of_same (h.moves.only .tick (by decide)) (by rw [htables]) (h.moves.only .faults (by decide))]

theorem trans (h : KickStep s t) (k : KickStep t u) : KickStep s u where
  moves := h.moves.trans k.moves rfl
  bits src b hb := k.bits src b (h.bits src b hb)
  latches hmaps htrip q hq := k.latches (h.moves.maps hmaps) (by rwa [h.boot]) q (h.latches hmaps htrip q hq)

end KickStep

theorem EventStep.kickStep {s t : State} (h : EventStep s t) : KickStep s t where
  moves := (Moves.refl _ s).trans h.moves rfl
  bits := h.bits
  latches _ _ q hq := by rwa [h.portAt]

theorem kickDetect_kickStep (s : State) (p cause till : Nat) : KickStep s (kickDetect s p cause till) where
  moves := kickDetect_moves (Moves.refl _ s) rfl
  bits := kickDetect_bits s p cause till
  latches hmaps htrip q hq := by
    by_cases h : q = p
    · subst h
      exact (kickDetect_latches hmaps.1 htrip).1
    · rwa [(kickDetect_other hmaps.1 cause till).2 q h]

theorem foldl_kickDetect (cause : Nat) (l : List Nat) (s : State) :
    KickStep s (l.foldl (fun s p => kickDetect s p cause 0) s) ∧ (mapsCanonical s → s.boot.thermtrip = false →
      ∀ p ∈ l, (portAt (l.foldl (fun s p => kickDetect s p cause 0) s) p).kick.latch = true) := by
  induction l generalizing s with
  | nil => exact ⟨.refl s, nofun⟩
  | cons x l ih =>
    have hstep := kickDetect_kickStep s x cause 0
    obtain ⟨hrest, hall⟩ := ih (kickDetect s x cause 0)
    refine ⟨hstep.trans hrest, fun hmaps htrip p hp => ?_⟩
    have hmaps' := hstep.moves.maps hmaps
    have htrip' : (kickDetect s x cause 0).boot.thermtrip = false := by rwa [hstep.boot]
    rcases List.mem_cons.1 hp with rfl | hp
    · exact hrest.latches hmaps' htrip' p (kickDetect_latches hmaps.1 htrip).1
    · exact hall hmaps' htrip' p hp

theorem kickSlots_kickStep (s : State) (cause : Nat) : KickStep s (kickSlots s cause) := (foldl_kickDetect cause _ s).1

theorem kickSlots_latch {k : Nat} (hmaps : mapsCanonical s) (htrip : s.boot.thermtrip = false) (cause : Nat) (hk : k < 64)
    (hp : slotPort s k = some p) : (portAt (kickSlots s cause) p).kick.latch = true :=
  (foldl_kickDetect cause _ s).2 hmaps htrip p
    (List.mem_eraseDups.2 (List.mem_filterMap.2 ⟨k, List.mem_range.2 hk, hp⟩))

/-! ### A mismatch (11 R326) -/

/-- A mismatch counted on its slot. -/
def mismatchCounted (s : State) (k : Nat) : State :=
  { s with tandem := { s.tandem with counts := sbump Config.sat32 s.tandem.counts k 1 } }

theorem mismatchCounted_count (s : State) (k : Nat) : sget 0 (mismatchCounted s k).tandem.counts k = satAdd Config.sat32 (sget 0 s.tandem.counts k) 1 := by
  refine sget_sput_ne ?_
  have hpos : 0 < Config.sat32 := by decide
  unfold satAdd
  omega

/-- A mismatch: its count is the only change of the twin, MISMATCH stands, and the port of its slot has a kickstand. -/
structure Mismatched (s : State) (k : Nat) (t : State) : Prop where
  step : KickStep (mismatchCounted s k) t
  bit : bit (statAt t srcCoreW).status.toNat 8 = true
  latch : mapsCanonical s → s.boot.thermtrip = false → ∀ p, slotPort s k = some p → (portAt t p).kick.latch = true

/-- A mismatch told, before its kickstand. -/
def mismatchTold (s : State) (r : TandemRec) (cause own twin : Nat) : State :=
  setCause (mismatchCounted s r.slot) srcCoreW 8 r.slot 0 cause (r.src.toNat + r.seq.toNat * 2 ^ 20 + r.tick.toNat * 2 ^ 36)
    (some (r.offset.toNat, own + twin * 2 ^ 32, 0))

theorem tandemMismatch_mismatched (s : State) (r : TandemRec) (cause own twin : Nat) :
    Mismatched s r.slot (tandemMismatch s r cause own twin) := by
  have hcaused : KickStep (mismatchCounted s r.slot) (mismatchTold s r cause own twin) := (setCause_eventStep _ _ _ _ _ _ _ _).kickStep
  have hbit : Machine.bit (statAt (mismatchTold s r cause own twin) srcCoreW).status.toNat 8 = true := bit_statAt_setCause (by decide)
  have hslot := hcaused.slotPort r.slot
  change Mismatched s r.slot (match slotPort (mismatchTold s r cause own twin) r.slot with
    | some p => kickDetect (mismatchTold s r cause own twin) p 4 r.slot
    | none => mismatchTold s r cause own twin)
  generalize mismatchTold s r cause own twin = t at hcaused hbit hslot
  have hsame : slotPort s r.slot = slotPort t r.slot := hslot.symm
  split
  next p hp =>
    refine ⟨hcaused.trans (kickDetect_kickStep t p 4 r.slot), kickDetect_bits t p 4 r.slot _ _ hbit, fun hmaps htrip q hq => ?_⟩
    rw [hsame, hp] at hq
    obtain rfl := Option.some.inj hq
    have hmaps' : mapsCanonical t := hcaused.moves.maps hmaps
    have htrip' : t.boot.thermtrip = false := by rw [hcaused.boot]; exact htrip
    exact (kickDetect_latches hmaps'.1 htrip').1
  next hp =>
    refine ⟨hcaused, hbit, fun _ _ q hq => ?_⟩
    rw [hsame, hp] at hq
    exact absurd hq (by simp)

end Slots

/-! ### Records of the twin (11 R326; Table 11.7) -/

section Records

variable {s : State} {f : Frame} {i : Intake}

/-- A received frame taken in. -/
def takenIn (s : State) (i : Intake) : State := { s with intake := s.intake.erase i }

theorem takeIntake_found (hfind : s.intake.find? (fun x => decide (x.frame = f)) = some i) :
    takeIntake s f = (takenIn s i, i.port, i.arrival) := by
  rw [takeIntake, hfind]
  rfl

theorem tandemPort_ne_self (s : State) : tandemPort s ≠ selfPort := by
  have hlt : tandemPort s < 512 := bits_lt _ _ _
  unfold selfPort
  omega

theorem exec_tandemRecordReceive (htype : (headerOf f.hdr).type = 0xB) (hsub : mgmtSubtype (headerOf f.hdr) = 0x10) (hgood : frameGood f = true)
    (hfind : s.intake.find? (fun x => decide (x.frame = f)) = some i) (hport : i.port = tandemPort s)
    (harrival : i.arrival + receiveStages ≤ s.now) (hcmp : comparing s = true) (hlast : leAt (slice f.payload 16 16) 0 1 = 0) :
    exec (.tandemRecordReceive f) s = .next (holdRecord (takenIn s i) (i.arrival + receiveStages) (slice f.payload 0 16)) := by
  have hen : tandemEn s = true := (Bool.and_eq_true_iff.1 hcmp).1
  have hself : i.port ≠ selfPort := hport ▸ tandemPort_ne_self s
  have hsecond (t : State) (n : Nat) : holdRecord t n (slice f.payload 16 16) = t := by
    unfold holdRecord
    rw [hlast]
    rfl
  change Host.Outcome.next (if (headerOf f.hdr).type != 0xB || mgmtSubtype (headerOf f.hdr) != 0x10 || !frameGood f then s
    else
      let (s', port, arrival) := takeIntake s f
      let at_ := if port = selfPort then s.now else arrival + receiveStages
      if s.now < at_ then s
      else if !tandemEn s || (port != tandemPort s && port != selfPort) then s'
      else holdRecord (holdRecord s' at_ (slice f.payload 0 16)) at_ (slice f.payload 16 16)) = _
  rw [if_neg (by simp [htype, hsub, hgood]), takeIntake_found hfind]
  dsimp only
  rw [if_neg hself, if_neg (by omega), if_neg (by simp [hen, hport]), hsecond]

/-- A FRAME record of the twin held. -/
def twinHeld (s : State) (i : Intake) (l : List Byte) : State :=
  { takenIn s i with tandem := { s.tandem with twin := s.tandem.twin ++ [recordOf (i.arrival + receiveStages) l] } }

theorem holdRecord_frame {l : List Byte} (hcmp : comparing s = true) (hkind : leAt l 0 1 = 1) :
    holdRecord (takenIn s i) (i.arrival + receiveStages) l = comparePairs (twinHeld s i l) := by
  unfold holdRecord
  rw [if_pos hkind, if_pos (show comparing (takenIn s i) = true from hcmp)]
  rfl

/-- One own record compared with what the twin has sent. -/
def compareOne (s : State) (r : TandemRec) : State :=
  match s.tandem.twin.find? (sameKey r) with
  | none => s
  | some t =>
    let s := { s with tandem := { s.tandem with own := s.tandem.own.erase r, twin := s.tandem.twin.erase t } }
    if t.crc = r.crc then s else tandemMismatch s r 1 r.crc.toNat t.crc.toNat

theorem comparePairs_eq (s : State) : comparePairs s = (s.tandem.own.filter fun r => decide (r.at_ ≤ s.now)).foldl compareOne s := rfl

theorem compareOne_unpaired {r : TandemRec} (h : ∀ x ∈ s.tandem.twin, sameKey r x = false) : compareOne s r = s := by
  have hnone : s.tandem.twin.find? (sameKey r) = none := List.find?_eq_none.2 fun x hx => by simp [h x hx]
  rw [compareOne, hnone]

theorem comparePairs_unpaired (h : ∀ r ∈ s.tandem.own, ∀ x ∈ s.tandem.twin, sameKey r x = false) : comparePairs s = s := by
  rw [comparePairs_eq]
  have hall : ∀ r ∈ s.tandem.own.filter fun r => decide (r.at_ ≤ s.now), compareOne s r = s := fun r hr =>
    compareOne_unpaired (h r (List.mem_filter.1 hr).1)
  generalize s.tandem.own.filter (fun r => decide (r.at_ ≤ s.now)) = l at hall
  induction l with
  | nil => rfl
  | cons r l ih =>
    rw [List.foldl_cons, hall r (by simp)]
    exact ih fun x hx => hall x (by simp [hx])

/-- Nothing held of the twin or of the own output. -/
def pairTaken (s : State) : State := { s with tandem := { s.tandem with own := [], twin := [] } }

theorem comparePairs_differing {r x : TandemRec} (hown : s.tandem.own = [r]) (htwin : s.tandem.twin = [x]) (hat : r.at_ ≤ s.now)
    (hsame : sameKey r x = true) (hcrc : x.crc ≠ r.crc) :
    comparePairs s = tandemMismatch (pairTaken s) r 1 r.crc.toNat x.crc.toNat := by
  rw [comparePairs_eq, hown, List.filter_cons, if_pos (by simpa using hat), List.filter_nil, List.foldl_cons, List.foldl_nil, compareOne,
    htwin, List.find?_cons, hsame]
  dsimp only
  rw [if_neg hcrc, hown, List.erase_cons_head, List.erase_cons_head]
  rfl

/-- A STATE record of the twin, and whether it agrees. -/
def stateHeld (s : State) (l : List Byte) : State :=
  { s with tandem := { s.tandem with stateAt := some s.now, restore := s.tandem.restore || l == s.tandem.ownState, mismatch := !(l == s.tandem.ownState) } }

theorem holdRecord_state {l : List Byte} {n : Nat} (hkind : leAt l 0 1 = 2) : KickStep (stateHeld s l) (holdRecord s n l) := by
  unfold holdRecord
  rw [if_neg (by omega), if_pos hkind]
  unfold holdState
  dsimp only
  split
  · exact .refl _
  · exact kickSlots_kickStep _ 5

end Records

/-! ### Records that find no pair, and a twin that is lost (11 R326, R329) -/

section Expiry

variable {s : State}

theorem leads_windowExpiry_own {i : Nat} {r : TandemRec} (hmaps : mapsCanonical s) (hcmp : comparing s = true) (htrip : s.boot.thermtrip = false)
    (hr : s.tandem.own[i]? = some r) (hat : r.at_ + tandemWindow s ≤ s.now) :
    leads (.tandemWindowExpiry true i) s fun t =>
      onlyChanges [.host, .stats, .ports, .tandem, .fresh] s t ∧ t.tandem.own = s.tandem.own.erase r ∧
      sget 0 t.tandem.counts r.slot = satAdd Config.sat32 (sget 0 s.tandem.counts r.slot) 1 ∧
      bit (statAt t srcCoreW).status.toNat 8 = true ∧ ∀ p, slotPort s r.slot = some p → (portAt t p).kick.latch = true := by
  have hexec : exec (.tandemWindowExpiry true i) s = .next (tandemMismatch { s with tandem := { s.tandem with own := s.tandem.own.erase r } } r 2
      r.crc.toNat 0) := by
    change Host.Outcome.next (if !comparing s then s else match s.tandem.own[i]? with
      | none => s
      | some r => if s.now < r.at_ + tandemWindow s then s
        else tandemMismatch { s with tandem := { s.tandem with own := s.tandem.own.erase r } } r 2 r.crc.toNat 0) = _
    rw [if_neg (by simp [hcmp]), hr]
    exact congrArg Host.Outcome.next (if_neg (by omega))
  obtain ⟨hstep, hbit, hlatch⟩ := tandemMismatch_mismatched { s with tandem := { s.tandem with own := s.tandem.own.erase r } } r 2 r.crc.toNat 0
  refine leads_moves hexec execTandemWindowExpiry_moves ⟨?_, ?_, hbit, hlatch hmaps htrip⟩
  · rw [hstep.tandem]
    rfl
  · rw [hstep.tandem]
    exact mismatchCounted_count _ _

theorem leads_windowExpiry_twin {i : Nat} {r : TandemRec} (hcmp : comparing s = true)
    (hr : s.tandem.twin[i]? = some r) (hat : r.at_ + tandemWindow s ≤ s.now) :
    leads (.tandemWindowExpiry false i) s fun t =>
      onlyChanges [.host, .stats, .ports, .tandem, .fresh] s t ∧ t.tandem.twin = s.tandem.twin.erase r ∧
      bit (statAt t srcCoreW).status.toNat 8 = true := by
  have hexec : exec (.tandemWindowExpiry false i) s = .next (tandemMismatch { s with tandem := { s.tandem with twin := s.tandem.twin.erase r } } r 3
      0 r.crc.toNat) := by
    change Host.Outcome.next (if !comparing s then s else match s.tandem.twin[i]? with
      | none => s
      | some r => if s.now < r.at_ + tandemWindow s then s
        else tandemMismatch { s with tandem := { s.tandem with twin := s.tandem.twin.erase r } } r 3 0 r.crc.toNat) = _
    rw [if_neg (by simp [hcmp]), hr]
    exact congrArg Host.Outcome.next (if_neg (by omega))
  obtain ⟨hstep, hbit, -⟩ := tandemMismatch_mismatched { s with tandem := { s.tandem with twin := s.tandem.twin.erase r } } r 3 0 r.crc.toNat
  refine leads_moves hexec execTandemWindowExpiry_moves ⟨?_, hbit⟩
  rw [hstep.tandem]
  rfl

/-- The twin is lost, before its kickstands. -/
def twinGiven (s : State) : State :=
  setCause { s with tandem := { s.tandem with lost := true, restore := false, own := [], twin := [] } } srcCoreW 9 0

theorem leads_twinLost (hmaps : mapsCanonical s) (hcmp : comparing s = true) (htrip : s.boot.thermtrip = false) (hgone : twinGone s = true) :
    leads .twinLost s fun t => onlyChanges [.host, .stats, .ports, .tandem, .fresh] s t ∧
      t.tandem = { s.tandem with lost := true, restore := false, own := [], twin := [] } ∧
      bit (statAt t srcCoreW).status.toNat 9 = true ∧ ∀ k < 64, ∀ p, slotPort s k = some p → (portAt t p).kick.latch = true := by
  have hexec : exec .twinLost s = .next (kickSlots (twinGiven s) 6) := congrArg Host.Outcome.next (if_neg (by simp [hcmp, hgone]))
  have hgiven : KickStep { s with tandem := { s.tandem with lost := true, restore := false, own := [], twin := [] } } (twinGiven s) :=
    (setCause_eventStep _ _ _ _ _ _ _ _).kickStep
  have hbit : bit (statAt (twinGiven s) srcCoreW).status.toNat 9 = true := bit_statAt_setCause (by decide)
  refine leads_moves hexec execTwinLost_moves ⟨?_, (kickSlots_kickStep _ 6).bits _ _ hbit, fun k hk p hp => ?_⟩
  · rw [(kickSlots_kickStep _ 6).tandem, hgiven.tandem]
  · refine kickSlots_latch (hgiven.moves.maps hmaps) ?_ 6 hk ((hgiven.slotPort k).trans hp)
    rw [hgiven.boot]
    exact htrip

theorem leads_mgmtReceive {port : BitVec 9} {f : Frame} (htype : (headerOf f.hdr).type = 0xB) (hconf : (portAt s port.toNat).conf = true)
    (hoffer : mgmtSubtype (headerOf f.hdr) ≠ 1) (htandem : mgmtSubtype (headerOf f.hdr) ≠ 0x10) : leads (.mgmtReceive port f) s fun t =>
      t = { s with intake := t.intake } ∧ ∀ i, s.intake.find? (fun x => decide (x.frame = f)) = some i → t.intake = s.intake.erase i := by
  have hexec : exec (.mgmtReceive port f) s = .next (takeIntake s f).1 :=
    congrArg Host.Outcome.next (if_neg (by simp [htype, hconf, hoffer, htandem]))
  refine ⟨_, hexec, ?_, fun i hi => by rw [takeIntake_found hi]; rfl⟩
  unfold takeIntake
  split <;> rfl

end Expiry

/-- Settles O32: records of the twin as they come, those that find no pair, and the loss of the twin. -/
theorem twinsAreCompared : Obligations.TwinsAreCompared := by
  unfold Obligations.TwinsAreCompared
  refine ⟨fun s f i hmaps htype hsub hgood hfind hport harrival hcmp hlast => ?_, fun s hmaps => ⟨fun hcmp htrip =>
    ⟨fun i r hr hat => leads_windowExpiry_own hmaps hcmp htrip hr hat, fun i r hr hat => leads_windowExpiry_twin hcmp hr hat,
      leads_twinLost hmaps hcmp htrip⟩, fun port f htype hconf hoffer htandem => leads_mgmtReceive htype hconf hoffer htandem⟩⟩
  have hexec := exec_tandemRecordReceive htype hsub hgood hfind hport harrival hcmp hlast
  refine ⟨fun hkind => ?_, fun hkind => ?_⟩
  · rw [holdRecord_frame hcmp hkind] at hexec
    refine ⟨fun hnone => ?_, fun r hown hat htwin hsame hcrc => ?_⟩
    · rw [comparePairs_unpaired (s := twinHeld s i (slice f.payload 0 16)) hnone] at hexec
      exact ⟨_, hexec, (upd_tandem (upd_intake (Moves.refl [.tandem, .intake] s) rfl) rfl).only, rfl, rfl⟩
    · have htwin' : (twinHeld s i (slice f.payload 0 16)).tandem.twin = [recordOf (i.arrival + receiveStages) (slice f.payload 0 16)] := by
        change s.tandem.twin ++ _ = _
        rw [htwin]
        rfl
      rw [comparePairs_differing (s := twinHeld s i (slice f.payload 0 16)) hown htwin' hat hsame hcrc] at hexec
      obtain ⟨hstep, hbit, -⟩ := tandemMismatch_mismatched (pairTaken (twinHeld s i (slice f.payload 0 16))) r 1 r.crc.toNat
        (recordOf (i.arrival + receiveStages) (slice f.payload 0 16)).crc.toNat
      refine leads_moves hexec execTandemRecordReceive_moves ⟨?_, ?_, ?_, hbit⟩
      · rw [hstep.tandem]
        rfl
      · rw [hstep.tandem]
        rfl
      · rw [hstep.tandem]
        exact mismatchCounted_count _ _
  · have hstep := holdRecord_state (s := takenIn s i) (n := i.arrival + receiveStages) hkind
    refine leads_moves hexec execTandemRecordReceive_moves ⟨?_, ?_⟩
    · rw [hstep.tandem]
      rfl
    · rw [hstep.tandem]
      rfl

end Sys2Proof.Proofs

/-! PROOFS. Frames are checked, kept or routed (O34; 09 R257-R281; 10 R288-R309; 12 R335). -/

namespace Sys2Proof.Proofs

open Sys2Proof.Machine Sys2Proof.Safety Sys2Proof.Laws

/-! ### Lists of areas -/

theorem sub_iff {l m : List Area} : sub l m = true ↔ l ⊆ m := by
  simp only [sub, List.all_eq_true, decide_eq_true_eq]
  exact Iff.rfl

theorem sub_append_left (l m : List Area) : sub l (l ++ m) = true := sub_iff.2 (List.subset_append_left l m)

theorem sub_append_right (l : List Area) {m n : List Area} (h : sub m n = true) : sub m (l ++ n) = true :=
  sub_iff.2 (List.subset_append_of_subset_right l (sub_iff.1 h))

theorem sub_append_self (l : List Area) {m n : List Area} (h : sub m n = true) : sub (l ++ m) (l ++ n) = true :=
  sub_iff.2 (List.append_subset.2 ⟨List.subset_append_left l n, sub_iff.1 (sub_append_right l h)⟩)

theorem widen {l m : List Area} {s t : State} (h : Moves l s t) (hs : sub l m = true) : Moves m s t := (Moves.refl m s).trans h hs

/-! ### States in which frames meet the same checks -/

/-- Two states in which a frame meets the same tables, links, relays and requests. -/
structure Meets (s t : State) : Prop where
  now : t.now = s.now
  boot : t.boot = s.boot
  tick : t.tick = s.tick
  tables : t.tables = s.tables
  ports : t.ports = s.ports
  relays : t.relays = s.relays
  reqs : t.hbm.reqs = s.hbm.reqs
  tandem : t.tandem = s.tandem
  noFaults : t.faults.entries.isEmpty = s.faults.entries.isEmpty
  fails : ∀ tid i c, copyFails t tid i c = copyFails s tid i c

namespace Meets

variable {s t u : State}

theorem refl (s : State) : Meets s s := ⟨rfl, rfl, rfl, rfl, rfl, rfl, rfl, rfl, rfl, fun _ _ _ => rfl⟩

theorem trans (h : Meets s t) (k : Meets t u) : Meets s u where
  now := k.now.trans h.now
  boot := k.boot.trans h.boot
  tick := k.tick.trans h.tick
  tables := k.tables.trans h.tables
  ports := k.ports.trans h.ports
  relays := k.relays.trans h.relays
  reqs := k.reqs.trans h.reqs
  tandem := k.tandem.trans h.tandem
  noFaults := k.noFaults.trans h.noFaults
  fails tid i c := (k.fails tid i c).trans (h.fails tid i c)

/-- A step within areas that no check reads. -/
theorem of_moves {l : List Area} (h : Moves l s t)
    (hl : sub l [.host, .stats, .frames, .stalled, .reorder, .doneMsgs, .blockCounts, .shapers, .meters, .pools, .dropping, .intake,
      .parsing, .tills, .tallies, .progs, .ctxs, .tiles, .bridge, .toss, .jobFree, .ledger, .spdm, .doe, .fresh] = true) : Meets s t := by
  have hw := widen h hl
  have hfaults : t.faults = s.faults := hw.only .faults (by decide)
  exact {
    now := hw.only .now (by decide)
    boot := hw.only .boot (by decide)
    tick := hw.only .tick (by decide)
    tables := hw.only .tables (by decide)
    ports := hw.only .ports (by decide)
    relays := hw.only .relays (by decide)
    reqs := by rw [hbm_eq_of_moves hw (by decide) (by decide)]
    tandem := hw.only .tandem (by decide)
    noFaults := by rw [hfaults]
    fails := fun tid i c => by rw [copyFails, hfaults, ← copyFails] }

theorem bothFail (h : Meets s t) (tid i : Nat) : Machine.bothFail t tid i = Machine.bothFail s tid i := by
  rw [Machine.bothFail, h.fails, h.fails, ← Machine.bothFail]

theorem ew (h : Meets s t) (tid i k : Nat) : Machine.ew t tid i k = Machine.ew s tid i k := by
  unfold Machine.ew activeEntry
  rw [h.bothFail, h.tick, h.tables]

theorem portAt (h : Meets s t) (p : Nat) : Machine.portAt t p = Machine.portAt s p := by rw [Machine.portAt, h.ports, ← Machine.portAt]

theorem isEdge (h : Meets s t) (p : Nat) : Machine.isEdge t p = Machine.isEdge s p := by rw [Machine.isEdge, h.portAt, ← Machine.isEdge]
theorem jobEn (h : Meets s t) (j : Nat) : Machine.jobEn t j = Machine.jobEn s j := by rw [Machine.jobEn, h.ew, ← Machine.jobEn]
theorem jobEdge (h : Meets s t) (j : Nat) : Machine.jobEdge t j = Machine.jobEdge s j := by rw [Machine.jobEdge, h.ew, ← Machine.jobEdge]
theorem jobRmapBase (h : Meets s t) (j : Nat) : Machine.jobRmapBase t j = Machine.jobRmapBase s j := by
  rw [Machine.jobRmapBase, h.ew, ← Machine.jobRmapBase]
theorem jobRmapCount (h : Meets s t) (j : Nat) : Machine.jobRmapCount t j = Machine.jobRmapCount s j := by
  rw [Machine.jobRmapCount, h.ew, ← Machine.jobRmapCount]
theorem routeKind (h : Meets s t) (d : Nat) : Machine.routeKind t d = Machine.routeKind s d := by
  rw [Machine.routeKind, h.ew, ← Machine.routeKind]
theorem routeIndex (h : Meets s t) (d : Nat) : Machine.routeIndex t d = Machine.routeIndex s d := by
  rw [Machine.routeIndex, h.ew, ← Machine.routeIndex]
theorem pathCount (h : Meets s t) (n : Nat) : Machine.pathCount t n = Machine.pathCount s n := by
  rw [Machine.pathCount, h.ew, ← Machine.pathCount]
theorem pathPort (h : Meets s t) (n i : Nat) : Machine.pathPort t n i = Machine.pathPort s n i := by
  unfold Machine.pathPort
  rw [h.ew]
theorem clsReorder (h : Meets s t) (c : Nat) : Machine.clsReorder t c = Machine.clsReorder s c := by
  rw [Machine.clsReorder, h.ew, ← Machine.clsReorder]
theorem ownEndpoint (h : Meets s t) : Machine.ownEndpoint t = Machine.ownEndpoint s := by
  rw [Machine.ownEndpoint, h.boot, ← Machine.ownEndpoint]

theorem boundMeter (h : Meets s t) (j c : Nat) : Machine.boundMeter t j c = Machine.boundMeter s j c := by
  unfold Machine.boundMeter
  rw [h.ew]

theorem rankEndpoint (h : Meets s t) (j r : Nat) : Machine.rankEndpoint t j r = Machine.rankEndpoint s j r := by
  unfold Machine.rankEndpoint
  rw [h.jobRmapCount, h.jobRmapBase, h.ew]

theorem translate (h : Meets s t) (x : Header) : Machine.translate t x = Machine.translate s x := by
  unfold Machine.translate
  rw [h.rankEndpoint]

theorem toSelf (h : Meets s t) (x : Header) : Machine.toSelf t x = Machine.toSelf s x := by
  rw [Machine.toSelf, h.ownEndpoint, ← Machine.toSelf]

theorem consumes (h : Meets s t) (x : Header) : Machine.consumes t x = Machine.consumes s x := by
  rw [Machine.consumes, h.toSelf, h.relays, ← Machine.consumes]

theorem notConsumed (h : Meets s t) (x : Header) : Machine.notConsumed t x = Machine.notConsumed s x := by
  rw [Machine.notConsumed, h.toSelf, h.reqs, ← Machine.notConsumed]

theorem sourceOk (h : Meets s t) (p : Nat) (x : Header) : Machine.sourceOk t p x = Machine.sourceOk s p x := by
  rw [Machine.sourceOk, h.portAt, h.jobEdge, h.rankEndpoint, ← Machine.sourceOk]

theorem needed (h : Meets s t) (p : Nat) (x : Header) : Machine.needed t p x = Machine.needed s p x := by
  unfold Machine.needed
  simp only [h.translate, h.consumes, h.routeKind, h.routeIndex, h.jobRmapCount, h.jobRmapBase, h.boundMeter, h.isEdge, h.jobEdge]

theorem inputCheck (h : Meets s t) (p : Nat) (x : Header) : Machine.inputCheck t p x = Machine.inputCheck s p x := by
  unfold Machine.inputCheck
  simp only [h.portAt, h.noFaults, h.needed, h.bothFail, h.translate, h.isEdge, h.jobEn, h.sourceOk, h.notConsumed]

theorem usable (h : Meets s t) (p : Nat) (x : Header) (i : Nat) : Machine.usable t p x i = Machine.usable s p x i := by
  rw [Machine.usable, h.portAt, ← Machine.usable]

theorem derail (h : Meets s t) (x : Header) (p last : Nat) : Machine.derail t x p last = Machine.derail s x p last := by
  unfold Machine.derail
  simp only [h.portAt, h.usable, h.routeIndex, h.pathCount, h.pathPort]

theorem spreads (h : Meets s t) (x : Header) : Machine.spreads t x = Machine.spreads s x := by
  unfold Machine.spreads clsSpread
  rw [h.ew, h.routeKind]

theorem pathed (h : Meets s t) (p : Nat) (x : Header) : Machine.pathed t p x = Machine.pathed s p x := by
  unfold Machine.pathed writePath
  rw [h.isEdge, h.portAt, h.derail, h.spreads]

theorem localPort (h : Meets s t) (b d : Nat) : Machine.localPort t b d = Machine.localPort s b d := by
  unfold Machine.localPort
  rw [h.ew]

theorem route (h : Meets s t) (x : Header) (p : Nat) : Machine.route t x p = Machine.route s x p := by
  unfold Machine.route
  simp only [h.localPort, h.usable, h.routeKind, h.routeIndex, h.pathCount, h.pathPort]

theorem boardFrame (h : Meets s t) (x : Header) : Machine.boardFrame t x = Machine.boardFrame s x := by
  rw [Machine.boardFrame, h.boot, ← Machine.boardFrame]

theorem routed (h : Meets s t) (x : Header) (p : Nat) : Machine.routed t x p = Machine.routed s x p := by
  unfold Machine.routed
  simp only [h.route, h.portAt, h.boardFrame]

theorem noRoute (h : Meets s t) (p : Nat) (x : Header) : Machine.noRoute t p x = Machine.noRoute s p x := by
  unfold Machine.noRoute
  rw [h.consumes, h.pathed, h.routed]

theorem kickHolds (h : Meets s t) (p : Nat) (x : Header) : Machine.kickHolds t p x = Machine.kickHolds s p x := by
  unfold Machine.kickHolds kickEn kickHold kickJob
  simp only [h.portAt, h.ew]

theorem tandemEn (h : Meets s t) : Machine.tandemEn t = Machine.tandemEn s := by
  unfold Machine.tandemEn
  rw [h.ew]

theorem quotaAllows (h : Meets s t) (pool q k free : Nat) (used : Nat → Nat) :
    Machine.quotaAllows t pool q k free used = Machine.quotaAllows s pool q k free used := by
  unfold Machine.quotaAllows unmet quotaLimit quotaGuarantee
  simp only [h.ew, h.bothFail, h.tables]

theorem cellsAllowed (h : Meets s t) (hpools : t.pools = s.pools) (hstuck : t.faults.stuck = s.faults.stuck) (slice q k : Nat) :
    Machine.cellsAllowed t slice q k = Machine.cellsAllowed s slice q k := by
  have hfree : freeCells t slice = freeCells s slice := by
    unfold freeCells
    rw [hpools, hstuck]
  have huse : sliceUse t slice = sliceUse s slice := by
    funext q
    unfold sliceUse
    rw [hpools]
  rw [Machine.cellsAllowed, h.quotaAllows, hfree, huse, ← Machine.cellsAllowed]

end Meets

/-! ### The lookups of a frame (12 R335) -/

section Lookup

variable {s : State}

/-- What a lookup leaves: everything a frame meets, the marks of the pools, and all areas when no fault stands. -/
structure Looks (s t : State) : Prop where
  meets : Meets s t
  moves : Moves [.host, .stats, .faults, .fresh] s t
  stuck : t.faults.stuck = s.faults.stuck
  lost : t.faults.lost = s.faults.lost

theorem Looks.trans {t u : State} (h : Looks s t) (k : Looks t u) : Looks s u :=
  ⟨h.meets.trans k.meets, h.moves.trans k.moves rfl, k.stuck.trans h.stuck, k.lost.trans h.lost⟩

theorem any_map_same {α : Type} {f : α → α} {p : α → Bool} (h : ∀ x, p (f x) = p x) (l : List α) : (l.map f).any p = l.any p := by
  rw [List.any_map]
  exact congrArg (l.any ·) (funext h)

/-- A fault found in this cycle. -/
def faultFound (now : Nat) (e : Nat × Nat) (f : EntryFault) : EntryFault :=
  if f.tid == e.1 && f.idx == e.2 && f.found.isNone then { f with found := some now } else f

/-- The faults of an entry found. -/
def faultsFound (s : State) (e : Nat × Nat) : State :=
  { s with faults := { s.faults with entries := s.faults.entries.map (faultFound s.now e) } }

theorem faultsFound_meets (s : State) (e : Nat × Nat) : Meets s (faultsFound s e) := by
  refine { Meets.refl s with noFaults := ?_, fails := fun tid i c => any_map_same (fun f => ?_) _ }
  · simp [faultsFound]
  · unfold faultFound
    split <;> rfl

theorem noteLookup_looks (s : State) (e : Nat × Nat) : Looks s (noteLookup s e) := by
  have hmoves : Moves [.host, .stats, .faults, .fresh] s (noteLookup s e) := noteLookup_moves (Moves.refl _ s) rfl
  refine ⟨?_, hmoves, ?_, ?_⟩
  all_goals
    unfold noteLookup
    dsimp only
    split
  · exact .refl s
  · split
    · exact (faultsFound_meets s e).trans (.of_moves (setCause_eventStep _ _ _ _ _ _ _ _).moves rfl)
    · exact faultsFound_meets s e
  · rfl
  · split
    · rw [(setCause_eventStep _ _ _ _ _ _ _ _).faults]
    · rfl
  · rfl
  · split
    · rw [(setCause_eventStep _ _ _ _ _ _ _ _).faults]
    · rfl

theorem lookEntries_looks (s : State) (p : Nat) (h : Header) : Looks s (lookEntries s p h) := by
  have hfold : ∀ (l : List (Nat × Nat)) (s : State), Looks s (l.foldl noteLookup s) := by
    intro l
    induction l with
    | nil => exact fun s => ⟨.refl s, Moves.refl _ s, rfl, rfl⟩
    | cons e l ih => exact fun s => (noteLookup_looks s e).trans (ih _)
  unfold lookEntries
  split
  · exact ⟨.refl s, Moves.refl _ s, rfl, rfl⟩
  · exact hfold _ s

theorem lookEntries_moves_areas (s : State) (p : Nat) (h : Header) : Moves (lookAreas s) s (lookEntries s p h) := by
  have hlook := (lookEntries_looks s p h).moves
  unfold lookAreas
  split
  next hnone =>
    rw [lookEntries, if_pos hnone]
    exact Moves.refl _ s
  · exact hlook

end Lookup

/-! ### Frames discarded as they arrive (09 R262, Table 9.6; 10 R294) -/

/-- A key written with what it reads is not written at all. -/
theorem sput_sget {α : Type} [DecidableEq α] {d : α} {m : Sparse α} {k : Nat} (hm : canon d m = true) : sput d m k (sget d m k) = m := by
  induction m with
  | nil => exact if_pos rfl
  | cons e m ih =>
    obtain ⟨a, w⟩ := e
    obtain ⟨habove, hw, hm'⟩ := canon_cons.1 hm
    rw [sget]
    by_cases ha : a = k
    · rw [if_pos ha, sput, if_neg (by omega), if_pos ha.symm, if_neg hw, ha]
    · rw [if_neg ha, sput]
      by_cases hk : k < a
      · have hnone : sget d m k = d := sget_above fun e he => Nat.lt_trans hk (habove e he)
        rw [if_pos hk, if_pos hnone]
      · rw [if_neg hk, if_neg (Ne.symm ha), ih hm']

section Discard

variable {s : State} {p : Nat} {f : Frame}

theorem modLink_framingLost (hports : canon {} s.ports = true) (hnone : (portAt s p).link.framingLost = none) :
    modLink s p (fun l => { l with framingLost := none }) = s := by
  have hsame : ({ portAt s p with link := { (portAt s p).link with framingLost := none } } : Port) = portAt s p := by
    rw [← hnone]
  rw [modLink, modPort, hsame, setPort, portAt, sput_sget hports]

theorem discard_port (hports : canon {} s.ports = true) (reason : Nat) : portAt (discard s p reason) p =
    { portAt s p with counters := sbump Config.sat32 (portAt s p).counters (reason - 1) 1 } := by
  have hcount : portAt (countPort s p (reason - 1) 1) p =
      { portAt s p with counters := sbump Config.sat32 (portAt s p).counters (reason - 1) 1 } := by
    rw [countPort, modPort, portAt_setPort _ _ _ _ hports, if_pos rfl]
  unfold Machine.discard
  dsimp only
  split
  · rw [(setCause_eventStep _ _ _ _ _ _ _ _).portAt, hcount]
  · exact hcount

theorem discard_moves_here (s : State) (p reason : Nat) : Moves [.host, .stats, .ports, .fresh] s (discard s p reason) :=
  discard_moves (Moves.refl _ s) rfl

/-- The queues of a port whose neighbour gets the credit of a frame back. -/
def queueOwing (q : PortQ) (c k : Nat) : PortQ := { q with owed := addAt q.owed c k }

theorem dropIn_port (hmaps : mapsCanonical s) (reason : Nat) (h : Header) (f : Frame) : portAt (dropIn s p reason h f) p =
    { portAt s p with
      counters := sbump Config.sat32 (portAt s p).counters (reason - 1) 1
      q := queueOwing (portAt s p).q h.cls.toNat (ceilDiv (40 + f.payload.length) 256) } := by
  have hports : canon {} (discard s p reason).ports = true := ((discard_moves_here s p reason).maps hmaps).1
  rw [dropIn, owe, modPort, portAt_setPort _ _ _ _ hports, if_pos rfl, discard_port hmaps.1]
  rfl

theorem sget_sbump_one (m : Sparse Nat) (k : Nat) : sget 0 (sbump Config.sat32 m k 1) k = satAdd Config.sat32 (sget 0 m k) 1 := by
  refine sget_sput_ne ?_
  have hpos : 0 < Config.sat32 := by decide
  unfold satAdd
  omega

theorem dropIn_moves_here (s : State) (p reason : Nat) (h : Header) (f : Frame) :
    Moves [.host, .stats, .ports, .fresh] s (dropIn s p reason h f) := dropIn_moves (Moves.refl _ s) rfl

/-- What a frame that does not parse leaves. -/
theorem framingLoss_dropIn (hmaps : mapsCanonical s) (hnone : (portAt s p).link.framingLost = none) (reason : Nat) (h : Header) (n : Nat) :
    let t := framingLoss (dropIn s p reason h f) p n
    (portAt t p).link.framingLost = some (s.now, s.now + n) ∧
    sget 0 (portAt t p).counters (reason - 1) = satAdd Config.sat32 (sget 0 (portAt s p).counters (reason - 1)) 1 := by
  have hdrop := dropIn_moves_here s p reason h f
  have hport := dropIn_port (p := p) hmaps reason h f
  have hnow : (dropIn s p reason h f).now = s.now := hdrop.only .now (by decide)
  have hports := (hdrop.maps hmaps).1
  generalize dropIn s p reason h f = u at hdrop hport hnow hports
  have hunone : (portAt u p).link.framingLost = none := by rw [hport]; exact hnone
  dsimp only
  rw [framingLoss, modLink, modPort, portAt_setPort _ _ _ _ hports, if_pos rfl, hunone, hnow, hport]
  exact ⟨rfl, sget_sbump_one _ _⟩

/-- Where a frame goes that arrives on a port whose framing holds. -/
theorem exec_frameReceive {port : BitVec 9} (hports : canon {} s.ports = true) (hconf : (portAt s port.toNat).conf = true)
    (hnone : (portAt s port.toNat).link.framingLost = none) : exec (.frameReceive port f) s = .next (
      if (headerOf f.hdr).hcrc ≠ hcrcOf (headerBits { headerOf f.hdr with hcrc := 0 }) then
        framingLoss (dropIn s port.toNat rHcrc (headerOf f.hdr) f) port.toNat (cyclesHere s port.toNat f)
      else if malformed (headerOf f.hdr) then
        framingLoss (dropIn s port.toNat rMalformed (headerOf f.hdr) f) port.toNat (cyclesHere s port.toNat f)
      else if lookupLater s then { s with parsing := s.parsing ++ [(port.toNat, f, s.now)] }
      else checkFrame s port.toNat f) := by
  have hlost : stillLost s port.toNat = false := by rw [stillLost, hnone]
  have hlink := modLink_framingLost (p := port.toNat) hports hnone
  change Host.Outcome.next (if !(portAt s port.toNat).conf then s
    else if stillLost s port.toNat then framingLoss s port.toNat (cyclesHere s port.toNat f)
    else
      let s := modLink s port.toNat fun l => { l with framingLost := none }
      if (headerOf f.hdr).hcrc ≠ hcrcOf (headerBits { headerOf f.hdr with hcrc := 0 }) then
        framingLoss (dropIn s port.toNat rHcrc (headerOf f.hdr) f) port.toNat (cyclesHere s port.toNat f)
      else if malformed (headerOf f.hdr) then
        framingLoss (dropIn s port.toNat rMalformed (headerOf f.hdr) f) port.toNat (cyclesHere s port.toNat f)
      else if lookupLater s then { s with parsing := s.parsing ++ [(port.toNat, f, s.now)] }
      else checkFrame s port.toNat f) = _
  rw [if_neg (by simp [hconf]), if_neg (by simp [hlost]), hlink]

/-- A frame whose lookup waits goes its way as if it had not. -/
theorem lookUp_eq (hnot : (p, f, s.now) ∉ s.parsing) : lookUp s (p, f, s.now) = checkFrame s p f := by
  have hnow : (checkFrame s p f).now = s.now :=
    (checkFrame_moves (Moves.refl [.host, .stats, .ports, .frames, .reorder, .blockCounts, .meters, .pools, .tandem, .dropping, .intake,
      .faults, .fresh] s) rfl).only .now (by decide)
  rw [lookUp, List.erase_of_not_mem hnot]
  exact congrArg (fun n => ({ checkFrame s p f with now := n } : State)) hnow.symm

end Discard

/-! ### Frames that pass their checks -/

section Pass

variable {s : State} {p : Nat} {h : Header} {f : Frame}

theorem checkFrame_error {c : Nat} (hcheck : inputCheck s p (headerOf f.hdr) = .error c) :
    checkFrame s p f = dropIn (lookEntries s p (headerOf f.hdr)) p c (headerOf f.hdr) f := by
  rw [checkFrame]
  rw [(lookEntries_looks s p _).meets.inputCheck, hcheck]

theorem checkFrame_ok (hcheck : inputCheck s p (headerOf f.hdr) = .ok h) :
    checkFrame s p f = passed (lookEntries s p (headerOf f.hdr)) p (headerOf f.hdr) h f := by
  rw [checkFrame]
  rw [(lookEntries_looks s p _).meets.inputCheck, hcheck]

/-- No mirror session of the X7 is enabled. -/
def noMirrors (s : State) : Prop := ∀ m < 16, bit (ew s 0x17 m 0).toNat 63 = false

theorem Meets.noMirrors {t : State} (g : Meets s t) (hs : Proofs.noMirrors s) : Proofs.noMirrors t := fun m hm => by
  rw [g.ew]
  exact hs m hm

theorem foldl_unchanged {α : Type} {g : State → α → State} {l : List α} (hg : ∀ x ∈ l, g s x = s) : l.foldl g s = s := by
  induction l with
  | nil => rfl
  | cons x l ih =>
    rw [List.foldl_cons, hg x (by simp)]
    exact ih fun y hy => hg y (by simp [hy])

theorem mirrorIn_none (hs : noMirrors s) : mirrorIn s p h f = s := by
  unfold mirrorIn
  refine foldl_unchanged fun m hm => if_neg ?_
  simp [hs m (List.mem_range.1 hm)]

theorem mirrorOut_none (hs : noMirrors s) (slice : Nat) (e : Entry) : mirrorOut s p slice e = s := by
  unfold mirrorOut
  refine foldl_unchanged fun m hm => if_neg ?_
  simp [hs m (List.mem_range.1 hm)]

theorem noteStomp_good (hgood : trailerOf f = .good) : noteStomp s p f = s := by
  have hcut : f.cut = false := by
    unfold trailerOf at hgood
    dsimp only at hgood
    split at hgood
    next hall => exact hall.2.2.1
    · split at hgood <;> exact absurd hgood (by simp)
  rw [noteStomp, hgood]
  dsimp only
  rw [hcut]
  exact if_neg (by decide)

theorem colour_unbound {j c b : Nat} (hnone : boundMeter s j c = none) : colour s j c b = (.green, s) := by
  rw [colour, hnone]

/-- A frame that meets no stomp, meter or mirror session. -/
theorem passed_plain {old : Header} (hgood : trailerOf f = .good) (hs : noMirrors s) (hmeter : isEdge s p = true → boundMeter s h.job.toNat h.cls.toNat = none)
    (hgroup : consumes s h = true ∨ h.mc = 0) :
    passed s p old h f = if noRoute s p h then dropIn s p rNoRoute h f
      else if consumes s h then consume s p h f
      else if h.type == 5 then { s with intake := s.intake ++ [{ frame := f, port := p, arrival := s.now }] }
      else forward s p old h f false := by
  have hcolour : (if isEdge s p && h.type != 0xB && h.type != 0xA then colour s h.job.toNat h.cls.toNat (frameBytes f)
      else (.green, s)) = (Colour.green, s) := by
    split
    next hm =>
      simp only [Bool.and_eq_true] at hm
      exact colour_unbound (hmeter hm.1.1)
    · rfl
  unfold passed
  dsimp only
  rw [if_neg (by rcases hgroup with h | h <;> simp [h]), noteStomp_good hgood, hcolour]
  dsimp only
  by_cases hno : noRoute s p h = true
  · rw [if_pos hno, if_pos hno]
  · rw [if_neg hno, if_neg hno, if_neg (by decide), mirrorIn_none hs]
    rfl

theorem noRoute_of_consumes (hc : consumes s h = true) : noRoute s p h = false := by simp [noRoute, hc]

/-- What a consumed frame leaves. -/
theorem consume_good (hports : canon {} s.ports = true) (hgood : trailerOf f = .good) :
    (consume s p h f).intake = (if h.type = 0xC ∧ h.mc = 0 then s.intake else s.intake ++ [{ frame := f, port := p, arrival := s.now }]) ∧
    (portAt (consume s p h f) p).q.owed = addAt (portAt s p).q.owed h.cls.toNat (cellsOf f) ∧ Moves [.ports, .intake] s (consume s p h f) := by
  have howe : (portAt (owe s p h.cls.toNat (cellsOf f)) p).q.owed = addAt (portAt s p).q.owed h.cls.toNat (cellsOf f) := by
    rw [owe, modPort, portAt_setPort _ _ _ _ hports, if_pos rfl]
  refine ⟨?_, ?_, consume_moves (Moves.refl _ s) rfl⟩
  all_goals
    unfold consume
    dsimp only
    rw [if_neg (by simp [frameGood, hgood])]
  · by_cases hr : h.type = 0xC ∧ h.mc = 0
    · rw [if_pos (by simp [hr]), if_pos hr]
      rfl
    · rw [if_neg (by simpa using hr), if_neg hr]
      rfl
  · split <;> exact howe

end Pass

/-! ### Frames that join an output's queue (09 R276; 10 R289, R308, R309) -/

section Join

variable {s : State} {p o : Nat} {h : Header} {f : Frame}

theorem takeStuck_meets (s : State) (pool place q : Nat) : Meets s (takeStuck s pool place q).1 := by
  have hfold : ∀ (l : List (Nat × Nat)) (s : State), Meets s (l.foldl (fun s x => poolFault s true pool q x.2) s) := by
    intro l
    induction l with
    | nil => exact fun s => .refl s
    | cons x l ih => exact fun s => (Meets.of_moves (poolFault_moves (Moves.refl [.host, .stats, .pools, .fresh] s) rfl) rfl).trans (ih _)
  unfold takeStuck
  dsimp only
  split
  · exact .refl s
  · refine .trans ?_ (hfold _ _)
    exact ⟨rfl, rfl, rfl, rfl, rfl, rfl, rfl, rfl, rfl, fun _ _ _ => rfl⟩

theorem takeStuck_moves_areas (s : State) (pool place q : Nat) : Moves (poolAreas s ++ [.pools]) s (takeStuck s pool place q).1 := by
  have hall : Moves [.host, .stats, .pools, .faults, .fresh] s (takeStuck s pool place q).1 := takeStuck_moves (Moves.refl _ s) rfl
  unfold poolAreas
  split
  next hnone =>
    obtain ⟨hstuck, -⟩ := Bool.and_eq_true_iff.1 hnone
    have hgone : (marks s.faults.stuck pool place).isEmpty = true := by
      rw [List.isEmpty_iff.1 hstuck]
      rfl
    rw [takeStuck]
    dsimp only
    rw [if_pos hgone]
    exact Moves.refl _ s
  · exact widen hall rfl

theorem takeCells_meets (s : State) (slice q k : Nat) : Meets s (takeCells s slice q k) :=
  (Meets.of_moves (addUse_moves (Moves.refl [.pools] s) rfl) rfl).trans
    ((takeStuck_meets (addUse s q k) 0 slice q).trans (.of_moves (upd_pools (Moves.refl [.pools] _) rfl) rfl))

theorem takeCells_moves_areas (s : State) (slice q k : Nat) : Moves (poolAreas s ++ [.pools]) s (takeCells s slice q k) :=
  upd_pools ((addUse_moves (Moves.refl _ s) (sub_append_right _ rfl)).trans (takeStuck_moves_areas (addUse s q k) 0 slice q)
    (sub_append_self _ rfl)) (sub_append_right _ rfl)

theorem le_freeCells_of_allowed {slice q k : Nat} (hallow : cellsAllowed s slice q k = true) : k ≤ freeCells s slice := by
  simp only [cellsAllowed, quotaAllows, Bool.and_eq_true, decide_eq_true_eq] at hallow
  exact hallow.1.1

/-- A frame as it is held in its slice. -/
def heldAs (p : Nat) (h : Header) (f : Frame) : Held :=
  { slice := pgOf p, cells := cellsOf f, job := h.job.toNat, cls := h.cls.toNat, copies := 1, credit := some (p, cellsOf f) }

/-- A frame admitted to its slice. -/
def admitted_ (s : State) (p : Nat) (h : Header) (f : Frame) : State :=
  hold (takeCells { s with fresh := s.fresh + 1 } (pgOf p) (quotaIdx 0 h.job.toNat h.cls.toNat) (cellsOf f)) s.fresh (heldAs p h f)

theorem admitFrame_granted (hcls : h.cls ≠ 7)
    (hallow : cellsAllowed s (pgOf p) (quotaIdx 0 h.job.toNat h.cls.toNat) (cellsOf f) = true) :
    admitFrame s p [o] h f false = (admitted_ s p h f, some s.fresh) := by
  have hroom : makeRoom { s with fresh := s.fresh + 1 } (pgOf p) (cellsOf f) = { s with fresh := s.fresh + 1 } :=
    if_neg (Nat.not_lt.2 (le_freeCells_of_allowed (s := { s with fresh := s.fresh + 1 }) hallow))
  have hallow' : cellsAllowed { s with fresh := s.fresh + 1 } (pgOf p) (quotaIdx 0 h.job.toNat h.cls.toNat) (cellsOf f) = true := hallow
  rw [admitFrame]
  dsimp only [takeFresh]
  rw [beq_eq_false_iff_ne.2 hcls, Bool.false_and, if_neg (by decide), hroom, Bool.false_and, if_neg (by decide), hallow']
  rfl

theorem markCm_fields (s : State) (p : Nat) (e : Entry) : (markCm s p e).fid = e.fid ∧ (markCm s p e).cls = e.cls ∧
    (markCm s p e).src = e.src ∧ (markCm s p e).arrival = e.arrival ∧ (markCm s p e).frame.payload = e.frame.payload := by
  unfold markCm
  dsimp only
  split <;> exact ⟨rfl, rfl, rfl, rfl, rfl⟩

theorem enqueue_plain (hs : noMirrors s) {e : Entry} (hmirror : e.mirror = none) : enqueue s p e = pushEntry s p (markCm s p e) := by
  rw [enqueue, hmirror]
  dsimp only
  rw [mirrorOut_none hs, ite_self]
  exact if_neg (by decide)

theorem pushEntry_queue (hports : canon {} s.ports = true) (e : Entry) :
    (portAt (pushEntry s p e) p).q.queue = (portAt s p).q.queue ++ [e] := by
  rw [pushEntry, modPort, portAt_setPort _ _ _ _ hports, if_pos rfl]
  rfl

/-- The entry of a forwarded copy. -/
def copyEntry (s : State) (fid p o : Nat) (h : Header) (f : Frame) : Entry :=
  { fid := fid, frame := f, cls := h.cls.toNat, src := pgOf p, arrival := s.now, ready := forwardReady s p o h f,
    inPort := some (p, s.now + dataCycles f (widthOf s p) - 1), aligned := none,
    express := (ofind s.frames fid).any fun b => b.cells == 0 }

theorem formRecords_bulk {fid at_ : Nat} (hcls : (headerOf f.hdr).cls ≠ 7) : formRecords s fid p f at_ = s := by
  rw [formRecords]
  dsimp only
  rw [bne_iff_ne.2 hcls, Bool.or_true, Bool.true_or]
  exact if_pos rfl

theorem forwardCopy_plain {fid : Nat} (hkick : kickHolds s o h = false) (htandem : tandemEn s = false) (hcls : (headerOf f.hdr).cls ≠ 7)
    (hs : noMirrors s) : forwardCopy s fid p o h f = pushEntry s o (markCm s o (copyEntry s fid p o h f)) := by
  have hholds : tandemHolds s o h = false := by simp [tandemHolds, htandem]
  rw [forwardCopy, forwardCopyAs, hkick, hholds]
  dsimp only [Option.isSome]
  rw [formRecords_bulk hcls, if_neg (by decide), if_neg (by decide), ite_self]
  exact enqueue_plain hs rfl

/-- What a frame that takes its cells and joins a queue leaves. -/
structure Joined (s t : State) (p o : Nat) (h : Header) (f : Frame) : Prop where
  moves : Moves (poolAreas s ++ [.ports, .frames, .pools, .fresh]) s t
  entry : ∃ e, (portAt t o).q.queue = (portAt s o).q.queue ++ [e] ∧ e.cls = h.cls.toNat ∧ e.src = pgOf p ∧ e.arrival = s.now ∧
    e.frame.payload = f.payload ∧ ofind t.frames e.fid = some (heldAs p h f)

theorem deliver_joined (hmaps : mapsCanonical s) (hkick : kickHolds s o h = false) (htandem : tandemEn s = false) (hcls : h.cls ≠ 7)
    (hfcls : (headerOf f.hdr).cls ≠ 7) (hs : noMirrors s)
    (hallow : cellsAllowed s (pgOf p) (quotaIdx 0 h.job.toNat h.cls.toNat) (cellsOf f) = true) :
    Joined s (deliver s p o h f false).1 p o h f := by
  have hmeets : Meets s (admitted_ s p h f) := (Meets.of_moves (upd_fresh (Moves.refl [.fresh] s) rfl) rfl).trans
    ((takeCells_meets _ _ _ _).trans (.of_moves (hold_moves (Moves.refl [.frames] _) rfl) rfl))
  have hmoves : Moves (poolAreas s ++ [.ports, .frames, .pools, .fresh]) s (admitted_ s p h f) :=
    hold_moves ((upd_fresh (Moves.refl _ s) (sub_append_right _ rfl)).trans (takeCells_moves_areas { s with fresh := s.fresh + 1 } _ _ _)
      (sub_append_self _ rfl)) (sub_append_right _ rfl)
  have hheld : ofind (admitted_ s p h f).frames s.fresh = some (heldAs p h f) := ofind_oins_same _ _ _
  have hports : canon {} (admitted_ s p h f).ports = true := (hmoves.maps hmaps).1
  have hdeliver : (deliver s p o h f false).1 = forwardCopy (admitted_ s p h f) s.fresh p o h f := by
    rw [deliver, admitFrame_granted hcls hallow]
  rw [hdeliver, forwardCopy_plain (by rwa [hmeets.kickHolds]) (by rwa [hmeets.tandemEn]) hfcls (hmeets.noMirrors hs)]
  obtain ⟨hfid, hecls, hsrc, harrival, hpayload⟩ := markCm_fields (admitted_ s p h f) o (copyEntry (admitted_ s p h f) s.fresh p o h f)
  refine ⟨pushEntry_moves hmoves (sub_append_right _ rfl), _, ?_, hecls, hsrc, harrival.trans hmeets.now, hpayload, ?_⟩
  · rw [pushEntry_queue hports, hmeets.portAt]
  · rw [hfid]
    exact hheld

end Join

/-! ### A unicast frame goes its way (09 R263-R272) -/

section Forward

variable {s : State} {p o : Nat} {h : Header} {f : Frame}

theorem outgoing_hdr (f : Frame) (old new : Header) : (outgoing f old new).hdr = headerBits (withHcrc new) ∧
    (outgoing f old new).payload = f.payload := by
  unfold outgoing
  dsimp only
  by_cases hd : old.dest = new.dest
  · rw [if_pos hd]
    rcases trailerOf f with _ | _ | _ <;> exact ⟨rfl, rfl⟩
  · rw [if_neg hd]
    rcases trailerOf f with _ | _ | _ <;> exact ⟨rfl, rfl⟩

theorem headerOf_outgoing (f : Frame) (old new : Header) : headerOf (outgoing f old new).hdr = withHcrc new := by
  rw [(outgoing_hdr f old new).1, headerBitsRoundTrip.1]

/-- The first X7 writes PATH and nothing else of the header. -/
theorem pathed_fields (s : State) (p : Nat) (h : Header) : (pathed s p h).1 = { h with path := (pathed s p h).1.path } := by
  unfold pathed
  split
  · unfold writePath
    split
    · rfl
    · split
      · split <;> rfl
      · rfl
  · rfl

/-- A header that passes its checks differs from the one received in DEST alone. -/
theorem inputCheck_fields {x : Header} (hcheck : inputCheck s p x = .ok h) : h = { x with dest := h.dest } := by
  have htranslate : translate s x = some h := by
    revert hcheck
    unfold inputCheck
    dsimp only
    repeat' split
    all_goals intro hcheck
    all_goals simp_all
  unfold Machine.translate at htranslate
  split at htranslate
  · obtain ⟨e, -, rfl⟩ := Option.map_eq_some_iff.1 htranslate
    rfl
  · rw [← Option.some.inj htranslate]

theorem cellsOf_outgoing {old new : Header} (hlen : new.len = (headerOf f.hdr).len) : cellsOf (outgoing f old new) = cellsOf f := by
  have hhdr : (withHcrc new).len = new.len := rfl
  rw [cellsOf, frameBytes, headerOf_outgoing, hhdr, hlen, ← frameBytes, ← cellsOf]

/-- The state in which the path that the first X7 chose is noted. -/
def pathNoted (s : State) (p : Nat) (h : Header) : State := match (pathed s p h).2 with
  | some i => modQ s p fun q => { q with lastPath := q.lastPath.set (pathed s p h).1.cls.toNat i }
  | none => s

theorem forward_unicast {old : Header} (hmc : h.mc = 0) (hroute : routed s (pathed s p h).1 p = some o)
    (horder : h.type ≠ 0 ∨ clsReorder s h.cls.toNat = 0 ∨ routeKind s h.dest.toNat ≠ 1) :
    forward s p old h f false = (deliver (pathNoted s p h) p o (pathed s p h).1 (outgoing f old (pathed s p h).1) false).1 := by
  have hfields := pathed_fields s p h
  have hnoted : Meets { s with ports := [] } { pathNoted s p h with ports := [] } := by
    unfold pathNoted
    split <;> exact .refl _
  have hreorder : clsReorder (pathNoted s p h) h.cls.toNat = clsReorder s h.cls.toNat := hnoted.clsReorder _
  have hkind : routeKind (pathNoted s p h) h.dest.toNat = routeKind s h.dest.toNat := hnoted.routeKind _
  have hplain : ((pathed s p h).1.type == 0 && clsReorder (pathNoted s p h) (pathed s p h).1.cls.toNat != 0 &&
      routeKind (pathNoted s p h) (pathed s p h).1.dest.toNat == 1) = false := by
    rw [hfields]
    dsimp only
    rw [hreorder, hkind]
    rcases horder with hne | hne | hne
    · rw [beq_eq_false_iff_ne.2 hne, Bool.false_and, Bool.false_and]
    · simp [hne]
    · rw [beq_eq_false_iff_ne.2 hne, Bool.and_false]
  unfold forward
  rw [if_neg Bool.false_ne_true, if_neg (by rw [hmc]; decide)]
  change (match routed s (pathed s p h).1 p with
    | none => dropIn s p rNoRoute (pathed s p h).1 f
    | some o => if (pathed s p h).1.type == 0 && clsReorder (pathNoted s p h) (pathed s p h).1.cls.toNat != 0 &&
          routeKind (pathNoted s p h) (pathed s p h).1.dest.toNat == 1 then
        reorderIn (pathNoted s p h) p o (pathed s p h).1 (outgoing f old (pathed s p h).1) false
      else (deliver (pathNoted s p h) p o (pathed s p h).1 (outgoing f old (pathed s p h).1) false).1) = _
  rw [hroute]
  dsimp only
  rw [hplain]
  exact if_neg (by decide)

theorem Looks.poolAreas {t : State} (g : Looks s t) : Safety.poolAreas t = Safety.poolAreas s := by
  rw [Safety.poolAreas, g.stuck, g.lost, ← Safety.poolAreas]

theorem pathNoted_moves (s : State) (p : Nat) (h : Header) : Moves [.ports] s (pathNoted s p h) := by
  unfold pathNoted
  split
  · exact modQ_moves (Moves.refl _ s) rfl
  · exact Moves.refl _ s

theorem pathNoted_keeps {β : Type} {g : Port → β} (hg : ∀ v l, g { v with q := { v.q with lastPath := l } } = g v) (s : State) (p : Nat)
    (h : Header) : PortsKeep g s (pathNoted s p h) := by
  unfold pathNoted
  split
  · exact .modPort (fun v => hg v _) s p
  · exact .refl s

theorem forward_joined {old : Header} (hmaps : mapsCanonical s) (hmc : h.mc = 0) (hroute : routed s (pathed s p h).1 p = some o)
    (horder : h.type ≠ 0 ∨ clsReorder s h.cls.toNat = 0 ∨ routeKind s h.dest.toNat ≠ 1) (hkick : kickHolds s o h = false)
    (htandem : tandemEn s = false) (hcls : h.cls ≠ 7) (hs : noMirrors s) (hlen : h.len = (headerOf f.hdr).len)
    (hallow : cellsAllowed s (pgOf p) (quotaIdx 0 h.job.toNat h.cls.toNat) (cellsOf f) = true) :
    Moves (poolAreas s ++ [.ports, .frames, .pools, .fresh]) s (forward s p old h f false) ∧
    ∃ e b, (portAt (forward s p old h f false) o).q.queue = (portAt s o).q.queue ++ [e] ∧ e.cls = h.cls.toNat ∧ e.src = pgOf p ∧
      e.arrival = s.now ∧ e.frame.payload = f.payload ∧ ofind (forward s p old h f false).frames e.fid = some b ∧ b.cells = cellsOf f ∧
      b.copies = 1 ∧ b.credit = some (p, cellsOf f) := by
  rw [forward_unicast hmc hroute horder]
  have hnoted := pathNoted_moves s p h
  have hmaps' := hnoted.maps hmaps
  have hportless : Meets { s with ports := [] } { pathNoted s p h with ports := [] } := by
    unfold pathNoted
    split <;> exact .refl _
  have hkept : (portAt (pathNoted s p h) o).q.queue = (portAt s o).q.queue := (pathNoted_keeps (g := fun v => v.q.queue) (fun _ _ => rfl) s p h hmaps.1).2 o
  have hlatch := (pathNoted_keeps (g := Port.kick) (fun _ _ => rfl) s p h hmaps.1).2 o
  have hpools : (pathNoted s p h).pools = s.pools := hnoted.only .pools (by decide)
  have hfaults : (pathNoted s p h).faults = s.faults := hnoted.only .faults (by decide)
  have hnow : (pathNoted s p h).now = s.now := hnoted.only .now (by decide)
  have hew : ∀ tid i k, ew (pathNoted s p h) tid i k = ew s tid i k := hportless.ew
  have hkick' : kickHolds (pathNoted s p h) o (pathed s p h).1 = false := by
    rw [pathed_fields s p h]
    unfold kickHolds kickEn kickHold kickJob at hkick ⊢
    simp only [hlatch, hew]
    exact hkick
  have htandem' : tandemEn (pathNoted s p h) = false := by
    rw [tandemEn, hew]
    exact htandem
  have hs' : noMirrors (pathNoted s p h) := fun m hm => by
    rw [hew]
    exact hs m hm
  have hallow' : cellsAllowed (pathNoted s p h) (pgOf p) (quotaIdx 0 h.job.toNat h.cls.toNat) (cellsOf f) = true := by
    have hsame := hportless.cellsAllowed hpools (congrArg Faults.stuck hfaults) (pgOf p) (quotaIdx 0 h.job.toNat h.cls.toNat) (cellsOf f)
    exact hsame.trans hallow
  have hpathcls : (pathed s p h).1.cls = h.cls := by rw [pathed_fields s p h]
  have hpathjob : (pathed s p h).1.job = h.job := by rw [pathed_fields s p h]
  have hpathlen : (pathed s p h).1.len = h.len := by rw [pathed_fields s p h]
  have hcells : cellsOf (outgoing f old (pathed s p h).1) = cellsOf f := cellsOf_outgoing (hpathlen.trans hlen)
  obtain ⟨hmoves, e, hqueue, hecls, hsrc, harrival, hpayload, hheld⟩ := deliver_joined (p := p) (h := (pathed s p h).1)
    (f := outgoing f old (pathed s p h).1) hmaps' hkick' htandem' (by rwa [hpathcls])
    (by rw [headerOf_outgoing]; exact (congrArg (· ≠ (7 : BitVec 3)) hpathcls).mpr hcls) hs' (by rwa [hpathcls, hpathjob, hcells])
  have hareas : poolAreas (pathNoted s p h) = poolAreas s := by rw [poolAreas, hfaults, ← poolAreas]
  rw [hareas] at hmoves
  refine ⟨(widen hnoted (sub_append_right _ rfl)).trans hmoves (sub_append_self _ rfl), e, _, hqueue.trans (by rw [hkept]), by rw [hecls, hpathcls], hsrc,
    harrival.trans hnow, hpayload.trans (outgoing_hdr ..).2, hheld, hcells, rfl, ?_⟩
  rw [heldAs, hcells]

end Forward

/-- Settles O34: a frame that does not parse, one that fails a check, one that is consumed, and one that is sent on. -/
theorem framesAreCheckedAndRouted : Obligations.FramesAreCheckedAndRouted := by
  unfold Obligations.FramesAreCheckedAndRouted
  intro s port f hmaps hconf hnone
  dsimp only
  have hexec := exec_frameReceive (f := f) hmaps.1 hconf hnone
  have hlook := lookEntries_looks s port.toNat (headerOf f.hdr)
  have hlookmoves := lookEntries_moves_areas s port.toNat (headerOf f.hdr)
  have hlookmaps := hlookmoves.maps hmaps
  refine ⟨fun hbad => ?_, fun hcrc hform => ?_⟩
  · have hlost : ∀ c, exec (.frameReceive port f) s =
        .next (framingLoss (dropIn s port.toNat c (headerOf f.hdr) f) port.toNat (cyclesHere s port.toNat f)) →
        leads (.frameReceive port f) s fun t => onlyChanges [.host, .stats, .ports, .fresh] s t ∧
          (portAt t port.toNat).link.framingLost = some (s.now, s.now + cyclesHere s port.toNat f) ∧
          sget 0 (portAt t port.toNat).counters (c - 1) = satAdd Config.sat32 (sget 0 (portAt s port.toNat).counters (c - 1)) 1 :=
      fun c hc => ⟨_, hc, (framingLoss_moves (dropIn_moves_here s _ c _ f) rfl).only, framingLoss_dropIn hmaps hnone c _ _⟩
    by_cases hcrc : (headerOf f.hdr).hcrc ≠ hcrcOf (headerBits { headerOf f.hdr with hcrc := 0 })
    · rw [if_pos hcrc] at hexec ⊢
      exact hlost _ hexec
    · rw [if_neg hcrc, if_pos (hbad.resolve_left hcrc)] at hexec
      rw [if_neg hcrc]
      exact hlost _ hexec
  · rw [if_neg hcrc, if_neg (by simp [hform])] at hexec
    have hlooked : ∀ P : State → Prop, P (checkFrame s port.toNat f) → (lookupLater s = false → leads (.frameReceive port f) s P) ∧
        ((port.toNat, f, s.now) ∉ s.parsing → P (lookUp s (port.toNat, f, s.now))) := fun P hP =>
      ⟨fun hnow => ⟨_, hexec.trans (congrArg Host.Outcome.next (if_neg (by simp [hnow]))), hP⟩, fun hnot => by rwa [lookUp_eq hnot]⟩
    refine ⟨fun hlater => ⟨_, hexec.trans (congrArg Host.Outcome.next (if_pos hlater)), rfl⟩, fun c hcheck => hlooked _ ?_,
      fun h hcheck hgood hmirror hmeter => ?_⟩
    · rw [checkFrame_error hcheck, dropIn_port hlookmaps, hlook.meets.portAt]
      exact ⟨((widen hlookmoves (sub_append_left _ _)).trans (dropIn_moves_here _ _ c _ f) (sub_append_right _ rfl)).only,
        sget_sbump_one _ _, rfl, rfl⟩
    · have hs := hlook.meets.noMirrors hmirror
      have hmeter' : isEdge (lookEntries s port.toNat (headerOf f.hdr)) port.toNat = true →
          boundMeter (lookEntries s port.toNat (headerOf f.hdr)) h.job.toNat h.cls.toNat = none := by
        rw [hlook.meets.isEdge, hlook.meets.boundMeter]
        exact hmeter
      have hplain := checkFrame_ok hcheck
      refine ⟨fun hcons => hlooked _ ?_, fun hcons hmc htype => ⟨fun hroute => hlooked _ ?_,
        fun o hroute horder hkick htandem hcls hallow => hlooked _ ?_⟩⟩
      · have hcons' := hcons
        rw [← hlook.meets.consumes] at hcons'
        rw [passed_plain hgood hs hmeter' (.inl hcons'), if_neg (by simp [noRoute_of_consumes hcons']), if_pos hcons'] at hplain
        obtain ⟨hintake, howed, hmoves⟩ := consume_good (h := h) hlookmaps.1 hgood
        rw [hplain]
        refine ⟨((widen hlookmoves (sub_append_left _ _)).trans hmoves (sub_append_right _ rfl)).only, ?_, ?_⟩
        · rw [hintake, hlook.moves.only .intake (by decide), hlook.meets.now]
        · rw [howed, hlook.meets.portAt]
      · have hcons' := hcons
        rw [← hlook.meets.consumes] at hcons'
        have hnoroute : noRoute (lookEntries s port.toNat (headerOf f.hdr)) port.toNat h = true := by
          rw [hlook.meets.noRoute, noRoute, hcons, hroute]
          simp [hmc]
        rw [passed_plain hgood hs hmeter' (.inr hmc), if_pos hnoroute] at hplain
        rw [hplain, dropIn_port hlookmaps, hlook.meets.portAt]
        exact ⟨((widen hlookmoves (sub_append_left _ _)).trans (dropIn_moves_here _ _ _ _ f) (sub_append_right _ rfl)).only,
          sget_sbump_one _ _⟩
      · have hcons' := hcons
        rw [← hlook.meets.consumes] at hcons'
        have hnoroute : noRoute (lookEntries s port.toNat (headerOf f.hdr)) port.toNat h = false := by
          rw [hlook.meets.noRoute, noRoute, hcons, hroute]
          simp
        rw [passed_plain hgood hs hmeter' (.inr hmc), if_neg (by simp [hnoroute]), if_neg (by simp [hcons']),
          if_neg (by rw [beq_eq_false_iff_ne.2 htype]; decide)] at hplain
        rw [hplain]
        obtain ⟨hmoves, hentry⟩ := forward_joined (s := lookEntries s port.toNat (headerOf f.hdr)) (old := headerOf f.hdr) (o := o)
          hlookmaps hmc (by rwa [hlook.meets.pathed, hlook.meets.routed]) (by rwa [hlook.meets.clsReorder, hlook.meets.routeKind])
          (by rwa [hlook.meets.kickHolds]) (by rwa [hlook.meets.tandemEn]) hcls hs
          ((congrArg Header.len (inputCheck_fields hcheck)).trans rfl)
          (by rwa [hlook.meets.cellsAllowed (hlook.moves.only .pools (by decide)) hlook.stuck])
        rw [hlook.poolAreas] at hmoves
        rw [hlook.meets.portAt, hlook.meets.now] at hentry
        refine ⟨((widen hlookmoves (sub_iff.2 ?_)).trans hmoves (sub_iff.2 ?_)).only, hentry⟩
        · exact List.subset_append_of_subset_left _ (List.subset_append_left _ _)
        · rw [List.append_assoc]
          exact List.subset_append_right _ _

end Sys2Proof.Proofs

/-! PROOFS. Which frame takes the lane (O35; 10 R290-R298). -/

namespace Sys2Proof.Proofs

open Sys2Proof.Machine Sys2Proof.Safety Sys2Proof.Laws

/-! ### A frame starts (10 R290; 09 R277) -/

section StartFrame

variable {s : State} {p : Nat} {e : Entry}

theorem mirrorCopy_narrow (s : State) (m p slice : Nat) (e : Entry) (of : Option (Nat × Nat)) :
    Moves [.ports, .frames, .pools, .fresh] s (mirrorCopy s m p slice e of) := by
  unfold mirrorCopy
  refine ite_moves (fun _ => countPort_moves (Moves.refl _ s) rfl) fun _ => ?_
  exact pushEntry_moves (hold_moves (upd_pools (upd_fresh (Moves.refl _ s) rfl) rfl) rfl) rfl

theorem mirrorOut_narrow (s : State) (p slice : Nat) (e : Entry) : Moves [.ports, .frames, .pools, .fresh] s (mirrorOut s p slice e) :=
  foldl_moves (Moves.refl _ s) fun t m h => ite_moves (fun _ => h.trans (mirrorCopy_narrow t m p slice e _) rfl) fun _ => h

/-- A reading of a port that mirror copies, counters and watches leave. -/
structure OffCopies {β : Type} (g : Port → β) : Prop where
  push : ∀ v e, g { v with q := noteDepth { v.q with queue := v.q.queue ++ [e] } e.cls } = g v
  counters : ∀ v x, g { v with counters := x } = g v
  met : ∀ v x, g { v with met := x } = g v

theorem mirrorCopy_portsKeep {β : Type} {g : Port → β} (hg : OffCopies g) (s : State) (m p slice : Nat) (e : Entry)
    (of : Option (Nat × Nat)) : PortsKeep g s (mirrorCopy s m p slice e of) := by
  unfold mirrorCopy
  dsimp only
  split
  · exact .modPort (fun v => hg.counters v _) s _
  · exact .trans (.of_ports rfl) (.modPort (fun v => hg.push v _) _ _)

theorem mirrorOut_portsKeep {β : Type} {g : Port → β} (hg : OffCopies g) (s : State) (p slice : Nat) (e : Entry) :
    PortsKeep g s (mirrorOut s p slice e) := by
  refine .foldl (fun s m => ?_) _ s
  dsimp only
  split
  · exact mirrorCopy_portsKeep hg s m p slice e _
  · exact .refl s

theorem meetWatches_keeps {β : Type} {g : Port → β} (hg : ∀ v x, g { v with met := x } = g v) (s : State) (p : Nat) (h : Header) :
    PortsKeep g s (meetWatches s p h) := by
  unfold meetWatches
  split
  · exact .refl s
  · exact .modPort (fun v => hg v _) s p

theorem stompCopies_portsKeep {β : Type} {g : Port → β} (hg : ∀ v l x, g { v with q := { v.q with queue := l, lane := x } } = g v) (s : State)
    (of : Nat × Nat → Bool) (reason : W16) : PortsKeep g s (stompCopies s of reason) := by
  unfold stompCopies
  exact .foldl (fun s (q : Nat × Port) => .modPort (fun v => hg v _ _) s q.1) _ s

/-- A cell of the frame fails its check as it is read. -/
def readFails (s : State) (e : Entry) : Bool :=
  s.faults.cells.any (fun c => c.fid == e.fid) && ((ofind s.frames e.fid).map (·.cells)).getD 0 != 0

/-- The frame as it is sent. -/
def frameSent (s : State) (e : Entry) : Frame :=
  let f := if e.stomp = 0 then stamp s e else stompFrame (stamp s e) e.stomp
  if readFails s e then stompFrame f 0x0002 else f

/-- The failing cells of a frame read. -/
def cellsRead (s : State) (e : Entry) : State :=
  { s with faults := { s.faults with cells := s.faults.cells.map fun c => if c.fid = e.fid then { c with read := true } else c } }

/-- What a failing cell and the shaper have of a start. -/
def startRead (s : State) (p : Nat) (e : Entry) : State :=
  let s := if readFails s e then stompCopies (cellsRead s e) (· == (e.fid, p)) 0x0002 else s
  if isExempt e then s else spendTokens s p e

/-- The queues of a port whose lane a frame takes. -/
def laneTaken (s : State) (p : Nat) (e : Entry) (f : Frame) (q : PortQ) : PortQ :=
  settleDeficit (noteWait { q with
    queue := q.queue.filter fun x => x.fid != e.fid,
    credit := q.credit.set e.cls (nth q.credit e.cls - if spendsNone s p e then 0 else cellsOf e.frame),
    lastSrc := if isAligned e then q.lastSrc else q.lastSrc.set e.cls e.src,
    lane := .frame { e with frame := f } s.now (leaveCycles e (widthOf s p)), stallFrom := none, done := 0, cut := none } e.cls
      (s.now - e.arrival)) e.cls

/-- What follows a frame that has taken its lane. -/
def startTold (s : State) (p : Nat) (e : Entry) (f : Frame) (n : Nat) : State :=
  let s := if frameGood f then s else countPort s p cStompTx 1
  let s := if e.src == 16 && e.mirror.isNone && !isAligned e then formRecords s e.fid p f (s.now + n) else s
  endCtx (noteStart s e.fid) e.fid

theorem startFrame_eq (s : State) (p : Nat) (e : Entry) : startFrame s p e =
    let r := startRead s p e
    let f := frameSent s e
    let t := startTold (modQ r p (laneTaken r p e f)) p e f (leaveCycles e (widthOf r p))
    meetWatches (if e.src = 16 ∧ e.mirror = none then mirrorOut t p (pgOf p) { e with frame := f } else t) p (headerOf f.hdr) := rfl

theorem startRead_moves (s : State) (p : Nat) (e : Entry) : Moves [.ports, .shapers, .faults] s (startRead s p e) := by
  have hread : Moves [.ports, .shapers, .faults] s (if readFails s e then
      stompCopies (cellsRead s e)
        (· == (e.fid, p)) 0x0002 else s) :=
    ite_moves (fun _ => stompCopies_moves (upd_faults (Moves.refl _ s) rfl) rfl) fun _ => Moves.refl _ s
  exact ite_moves (fun _ => hread) fun _ => spendTokens_moves hread rfl

theorem spendTokens_ports (s : State) (p : Nat) (e : Entry) : (spendTokens s p e).ports = s.ports :=
  (spendTokens_moves (Moves.refl [.shapers] s) rfl).only .ports (by decide)

theorem startRead_portsKeep {β : Type} {g : Port → β} (hg : ∀ v l x, g { v with q := { v.q with queue := l, lane := x } } = g v) (s : State)
    (p : Nat) (e : Entry) : PortsKeep g s (startRead s p e) := by
  have hread : PortsKeep g s (if readFails s e then
      stompCopies (cellsRead s e)
        (· == (e.fid, p)) 0x0002 else s) := by
    split
    · exact fun hs => stompCopies_portsKeep hg (s := cellsRead s e) _ _ hs
    · exact .refl s
  unfold startRead
  dsimp only
  split
  · exact hread
  · exact hread.trans (.of_ports (spendTokens_ports _ p e))

/-- A frame of which no cell fails is read without a trace. -/
theorem startRead_sound (hcells : ∀ c ∈ s.faults.cells, c.fid ≠ e.fid) : Moves [.shapers] s (startRead s p e) := by
  have hfails : readFails s e = false := by
    have hnone : s.faults.cells.any (fun c => c.fid == e.fid) = false := by simpa using hcells
    rw [readFails, hnone, Bool.false_and]
  unfold startRead
  rw [hfails]
  exact ite_moves (fun _ => Moves.refl _ s) fun _ => spendTokens_moves (Moves.refl [.shapers] s) rfl

theorem startTold_moves (s : State) (p : Nat) (e : Entry) (f : Frame) (n : Nat) :
    Moves [.ports, .frames, .reorder, .doneMsgs, .tandem] s (startTold s p e f n) := by
  have hcount : Moves [.ports, .frames, .reorder, .doneMsgs, .tandem] s (if frameGood f then s else countPort s p cStompTx 1) :=
    ite_moves (fun _ => Moves.refl _ s) fun _ => countPort_moves (Moves.refl _ s) rfl
  exact endCtx_moves (noteStart_moves (ite_moves (fun _ => formRecords_moves hcount rfl) fun _ => hcount) rfl) rfl

theorem startTold_portsKeep {β : Type} {g : Port → β} (hg : ∀ v x, g { v with counters := x } = g v) (s : State) (p : Nat) (e : Entry) (f : Frame)
    (n : Nat) : PortsKeep g s (startTold s p e f n) := by
  have hcount : PortsKeep g s (if frameGood f then s else countPort s p cStompTx 1) := by
    split
    · exact .refl s
    · exact .modPort (fun v => hg v _) s p
  have hports : (startTold s p e f n).ports = (if frameGood f then s else countPort s p cStompTx 1).ports := by
    have hrest : Moves [.frames, .reorder, .doneMsgs, .tandem] (if frameGood f then s else countPort s p cStompTx 1) (startTold s p e f n) :=
      endCtx_moves (noteStart_moves (ite_moves (fun _ => formRecords_moves (Moves.refl _ _) rfl) fun _ => Moves.refl _ _) rfl) rfl
    exact hrest.only .ports (by decide)
  exact hcount.trans (.of_ports hports)

/-- What a frame that starts leaves. -/
structure FrameStarted (s : State) (p : Nat) (e : Entry) (t : State) : Prop where
  moves : Moves [.ports, .frames, .reorder, .doneMsgs, .shapers, .pools, .tandem, .faults, .fresh] s t
  lane : ∃ x n, (portAt t p).q.lane = .frame x s.now n ∧ x.fid = e.fid ∧ x.cls = e.cls
  queue : (∀ c ∈ s.faults.cells, c.fid ≠ e.fid) → noMirrors s → (portAt t p).q.queue = (portAt s p).q.queue.filter fun x => x.fid != e.fid
  credit : (portAt t p).q.credit = (portAt s p).q.credit.set e.cls
    (nth (portAt s p).q.credit e.cls - if spendsNone s p e then 0 else cellsOf e.frame)
  exempt : isExempt e = true → t.shapers = s.shapers

theorem startRead_exempt (h : isExempt e = true) : (startRead s p e).shapers = s.shapers := by
  unfold startRead
  rw [if_pos h]
  have hread : Moves [.ports, .faults] s (if readFails s e then stompCopies (cellsRead s e) (· == (e.fid, p)) 0x0002 else s) :=
    ite_moves (fun _ => stompCopies_moves (upd_faults (Moves.refl _ s) rfl) rfl) fun _ => Moves.refl _ s
  exact hread.only .shapers (by decide)

theorem settleDeficit_fields (q : PortQ) (c : Nat) : (settleDeficit q c).lane = q.lane ∧ (settleDeficit q c).queue = q.queue ∧
    (settleDeficit q c).credit = q.credit := by
  unfold settleDeficit
  split <;> exact ⟨rfl, rfl, rfl⟩

theorem laneTaken_fields (r : State) (p : Nat) (e : Entry) (f : Frame) (q : PortQ) :
    (laneTaken r p e f q).lane = .frame { e with frame := f } r.now (leaveCycles e (widthOf r p)) ∧
    (laneTaken r p e f q).queue = q.queue.filter (fun x => x.fid != e.fid) ∧
    (laneTaken r p e f q).credit = q.credit.set e.cls (nth q.credit e.cls - if spendsNone r p e then 0 else cellsOf e.frame) := by
  obtain ⟨hlane, hqueue, hcredit⟩ := settleDeficit_fields (noteWait { q with
    queue := q.queue.filter fun x => x.fid != e.fid,
    credit := q.credit.set e.cls (nth q.credit e.cls - if spendsNone r p e then 0 else cellsOf e.frame),
    lastSrc := if isAligned e then q.lastSrc else q.lastSrc.set e.cls e.src,
    lane := .frame { e with frame := f } r.now (leaveCycles e (widthOf r p)), stallFrom := none, done := 0, cut := none } e.cls
      (r.now - e.arrival)) e.cls
  exact ⟨hlane, hqueue, hcredit⟩

theorem startFrame_started (hmaps : mapsCanonical s) (p : Nat) (e : Entry) : FrameStarted s p e (startFrame s p e) := by
  rw [startFrame_eq]
  dsimp only
  have hread := startRead_moves s p e
  have hkept := (startRead_portsKeep (g := fun v => (v.plan, v.q.credit)) (fun _ _ _ => rfl) s p e hmaps.1).2 p
  have hnow : (startRead s p e).now = s.now := hread.only .now (by decide)
  have hsound := startRead_sound (s := s) (p := p) (e := e)
  have hexempt := startRead_exempt (s := s) (p := p) (e := e)
  have hports := (hread.maps hmaps).1
  generalize startRead s p e = r at hread hkept hnow hsound hexempt hports
  generalize frameSent s e = f
  obtain ⟨hplan, hcredit⟩ := Prod.mk.inj hkept
  obtain ⟨hlane, hqueue, hspent⟩ := laneTaken_fields r p e f (portAt r p).q
  rw [hnow] at hlane
  have htaken : portAt (modQ r p (laneTaken r p e f)) p = { portAt r p with q := laneTaken r p e f (portAt r p).q } := by
    rw [modQ, modPort, portAt_setPort _ _ _ _ hports, if_pos rfl]
  have hmoves : Moves [.ports, .shapers, .faults] s (modQ r p (laneTaken r p e f)) := hread.trans (modQ_moves (Moves.refl [.ports] r) rfl) rfl
  have htold := startTold_moves (modQ r p (laneTaken r p e f)) p e f (leaveCycles e (widthOf r p))
  have htoldKeep {β : Type} {g : Port → β} (hg : ∀ v x, g { v with counters := x } = g v) :=
    startTold_portsKeep hg (modQ r p (laneTaken r p e f)) p e f (leaveCycles e (widthOf r p))
  have hquiet : (∀ c ∈ s.faults.cells, c.fid ≠ e.fid) → noMirrors s →
      noMirrors (startTold (modQ r p (laneTaken r p e f)) p e f (leaveCycles e (widthOf r p))) := fun hcells hs m hm => by
    have hall : Moves [.shapers, .ports, .frames, .reorder, .doneMsgs, .tandem] s
        (startTold (modQ r p (laneTaken r p e f)) p e f (leaveCycles e (widthOf r p))) :=
      ((widen (hsound hcells) rfl).trans (modQ_moves (Moves.refl [.ports] r) rfl) rfl).trans htold rfl
    rw [ew, activeEntry_of_same (hall.only .tick (by decide)) (by rw [hall.only .tables (by decide)]) (hall.only .faults (by decide))]
    exact hs m hm
  have htakenMaps := hmoves.maps hmaps
  generalize startTold (modQ r p (laneTaken r p e f)) p e f (leaveCycles e (widthOf r p)) = u at htold htoldKeep hquiet
  have hmirror : Moves [.ports, .frames, .pools, .fresh] u (if e.src = 16 ∧ e.mirror = none then mirrorOut u p (pgOf p) { e with frame := f } else u) :=
    ite_moves (fun _ => mirrorOut_narrow u p _ _) fun _ => Moves.refl _ u
  have hmirrorKeep {β : Type} {g : Port → β} (hg : OffCopies g) : PortsKeep g u
      (if e.src = 16 ∧ e.mirror = none then mirrorOut u p (pgOf p) { e with frame := f } else u) := by
    split
    · exact mirrorOut_portsKeep hg u p _ _
    · exact .refl u
  have hmirrorNone : noMirrors u → (if e.src = 16 ∧ e.mirror = none then mirrorOut u p (pgOf p) { e with frame := f } else u) = u := fun hu => by
    rw [mirrorOut_none hu, ite_self]
  generalize (if e.src = 16 ∧ e.mirror = none then mirrorOut u p (pgOf p) { e with frame := f } else u) = w at hmirror hmirrorKeep hmirrorNone
  have hlaneKeep := (((htoldKeep (g := fun v => (v.q.lane, v.q.credit)) fun _ _ => rfl).trans
    (hmirrorKeep ⟨fun _ _ => rfl, fun _ _ => rfl, fun _ _ => rfl⟩)).trans
    (meetWatches_keeps (fun _ _ => rfl) w p (headerOf f.hdr)) htakenMaps.1).2 p
  rw [htaken] at hlaneKeep
  obtain ⟨hlaneEnd, hcreditEnd⟩ := Prod.mk.inj hlaneKeep
  refine ⟨?_, ⟨_, _, hlaneEnd.trans hlane, rfl, rfl⟩, fun hcells hs => ?_, ?_, fun h => ?_⟩
  · exact meetWatches_moves ((((widen hmoves rfl).trans htold rfl).trans hmirror rfl)) rfl
  · have hrports : r.ports = s.ports := (hsound hcells).only .ports (by decide)
    have hw := hmirrorNone (hquiet hcells hs)
    subst hw
    have hqueueEnd := (((htoldKeep (g := fun v => v.q.queue) fun _ _ => rfl).trans
      (meetWatches_keeps (fun _ _ => rfl) w p (headerOf f.hdr))) htakenMaps.1).2 p
    rw [htaken] at hqueueEnd
    refine hqueueEnd.trans (hqueue.trans ?_)
    rw [portAt, hrports, ← portAt]
  · have hspends : spendsNone r p e = spendsNone s p e := by rw [spendsNone, isEdge, hplan, ← isEdge, ← spendsNone]
    rw [hcreditEnd, hspent, hcredit, hspends]
  · have hrest : Moves [.ports, .frames, .reorder, .doneMsgs, .pools, .tandem, .fresh] r (meetWatches w p (headerOf f.hdr)) :=
      meetWatches_moves (((modQ_moves (Moves.refl _ r) rfl).trans htold rfl).trans hmirror rfl) rfl
    rw [hrest.only .shapers (by decide), hexempt h]

end StartFrame

/-! ### Which frame takes the lane (10 R290-R292, R295) -/

section Choose

variable {s : State} {p : Nat} {e : Entry}

theorem purge_unrefused (h : ∀ x ∈ (portAt s p).q.queue, refusedAt s p x = 0) (n : Nat) : purge n s p = s := by
  cases n with
  | zero => rfl
  | succ n =>
    have hnone : ((portAt s p).q.queue.find? fun e => refusedAt s p e != 0) = none :=
      List.find?_eq_none.2 fun x hx => by simp [h x hx]
    rw [purge, hnone]

theorem kickTakes_none (h : (portAt s p).kick.pending = []) : kickTakes s p = false := by
  rw [kickTakes, kickDue, h]
  rfl

theorem exec_frameStart {port : BitVec 9} (hopen : linkOpen s port.toNat = true) (hidle : (portAt s port.toNat).q.lane = .idle)
    (hqueue : ∀ x ∈ (portAt s port.toNat).q.queue, refusedAt s port.toNat x = 0) (hkick : (portAt s port.toNat).kick.pending = [])
    (haligned : alignedNow s port.toNat = none) : exec (.frameStart port) s = .next (match candidate s port.toNat 7 with
      | some e => startFrame s port.toNat e
      | none =>
        if creditDue s port.toNat then s
        else match candidate s port.toNat 6 with
        | some e => startFrame s port.toNat e
        | none => startBulk s port.toNat) := by
  change Host.Outcome.next (
    let s := if (portAt s port.toNat).link.degrading then s else purge (portAt s port.toNat).q.queue.length s port.toNat
    if !linkOpen s port.toNat || (portAt s port.toNat).q.lane != .idle || kickTakes s port.toNat then s
    else
      match alignedNow s port.toNat with
      | some e => if isEdge s port.toNat then s else startFrame s port.toNat e
      | none =>
        match candidate s port.toNat 7 with
        | some e => startFrame s port.toNat e
        | none =>
          if creditDue s port.toNat then s
          else match candidate s port.toNat 6 with
          | some e => startFrame s port.toNat e
          | none => startBulk s port.toNat) = _
  rw [purge_unrefused hqueue, ite_self]
  dsimp only
  rw [if_neg (by simp [hopen, hidle, kickTakes_none hkick]), haligned]

/-- A turn that is counted leaves what a start needs. -/
def turnCounted (s : State) (p c d : Nat) : State := modQ s p fun q => { q with turnOpen := true, deficit := q.deficit.set c d }

theorem drr_first {n : Nat} (hquantum : quantum s p (portAt s p).q.turn ≠ 0) (hcand : candidate s p (portAt s p).q.turn = some e)
    (hdeficit : frameBytes e.frame ≤ nth (portAt s p).q.deficit (portAt s p).q.turn +
      (if (portAt s p).q.turnOpen then 0 else quantum s p (portAt s p).q.turn * 256)) :
    ∃ d, drr (n + 1) s p = startFrame (turnCounted s p (portAt s p).q.turn d) p e := by
  rw [drr]
  dsimp only
  rw [if_neg hquantum, hcand]
  dsimp only
  rw [if_pos hdeficit]
  exact ⟨_, rfl⟩

theorem startBulk_turn (hquantum : quantum s p (portAt s p).q.turn ≠ 0) (hturn : (portAt s p).q.turn < 6)
    (hcand : candidate s p (portAt s p).q.turn = some e) : startBulk s p = drr 256 s p := by
  have hmem : (portAt s p).q.turn ∈ [5, 4, 3, 2, 1, 0].filter fun c => quantum s p c != 0 && (candidate s p c).isSome := by
    refine List.mem_filter.2 ⟨?_, by simp [hquantum, hcand]⟩
    simp only [List.mem_cons, List.not_mem_nil, or_false]
    omega
  have hne : ([5, 4, 3, 2, 1, 0].filter fun c => quantum s p c != 0 && (candidate s p c).isSome).isEmpty = false := by
    rw [Bool.eq_false_iff, ne_eq, List.isEmpty_iff]
    exact List.ne_nil_of_mem hmem
  unfold startBulk
  dsimp only
  rw [hne]
  exact if_pos rfl

theorem startBulk_free (hquantum : ∀ c < 6, quantum s p c = 0) (hfirst : [5, 4, 3, 2, 1, 0].findSome? (candidate s p) = some e) :
    startBulk s p = startFrame s p e := by
  have hnone : ([5, 4, 3, 2, 1, 0].filter fun c => quantum s p c != 0 && (candidate s p c).isSome) = [] := by
    refine List.filter_eq_nil_iff.2 fun c hc => ?_
    have hlt : c < 6 := by
      simp only [List.mem_cons, List.not_mem_nil, or_false] at hc
      omega
    simp [hquantum c hlt]
  unfold startBulk
  rw [hnone, hfirst]
  rfl

theorem turnCounted_started {t : State} {c d : Nat} (hmaps : mapsCanonical s) (h : FrameStarted (turnCounted s p c d) p e t) : FrameStarted s p e t := by
  have hport : portAt (turnCounted s p c d) p = { portAt s p with q := { (portAt s p).q with
      turnOpen := true, deficit := (portAt s p).q.deficit.set c d } } := by
    rw [turnCounted, modQ, modPort, portAt_setPort _ _ _ _ hmaps.1, if_pos rfl]
  have hspends : spendsNone (turnCounted s p c d) p e = spendsNone s p e := by
    rw [spendsNone, isEdge, hport, ← isEdge, ← spendsNone]
  refine ⟨(modQ_moves (Moves.refl _ s) rfl).trans h.moves rfl, h.lane, fun hcells hs => (h.queue hcells hs).trans (by rw [hport]), ?_,
    h.exempt⟩
  rw [h.credit, hspends, hport]

theorem startBulk_started (hmaps : mapsCanonical s)
    (h : (quantum s p (portAt s p).q.turn ≠ 0 ∧ (portAt s p).q.turn < 6 ∧ candidate s p (portAt s p).q.turn = some e ∧
        frameBytes e.frame ≤ nth (portAt s p).q.deficit (portAt s p).q.turn +
          (if (portAt s p).q.turnOpen then 0 else quantum s p (portAt s p).q.turn * 256)) ∨
      ((∀ c < 6, quantum s p c = 0) ∧ [5, 4, 3, 2, 1, 0].findSome? (candidate s p) = some e)) :
    FrameStarted s p e (startBulk s p) := by
  rcases h with ⟨hquantum, hturn, hcand, hdeficit⟩ | ⟨hquantum, hfirst⟩
  · obtain ⟨d, hd⟩ := drr_first (n := 255) hquantum hcand hdeficit
    rw [startBulk_turn hquantum hturn hcand, hd]
    exact turnCounted_started hmaps (startFrame_started ((modQ_moves (Moves.refl [.ports] s) rfl).maps hmaps) p e)
  · rw [startBulk_free hquantum hfirst]
    exact startFrame_started hmaps p e

end Choose

/-- Settles O35: the frame that the order of 10 R291 names takes the lane. -/
theorem framesStartInOrder : Obligations.FramesStartInOrder := by
  unfold Obligations.FramesStartInOrder
  intro s port e hmaps hopen hidle hqueue hkick haligned
  have hexec := exec_frameStart hopen hidle hqueue hkick haligned
  have hleads : ∀ {t : State}, exec (.frameStart port) s = .next t → FrameStarted s port.toNat e t → leads (.frameStart port) s fun t =>
      onlyChanges [.ports, .frames, .reorder, .doneMsgs, .shapers, .pools, .tandem, .faults, .fresh] s t ∧
      (∃ x n, (portAt t port.toNat).q.lane = .frame x s.now n ∧ x.fid = e.fid ∧ x.cls = e.cls) ∧
      ((∀ c ∈ s.faults.cells, c.fid ≠ e.fid) → (∀ m < 16, bit (ew s 0x17 m 0).toNat 63 = false) →
        (portAt t port.toNat).q.queue = (portAt s port.toNat).q.queue.filter fun x => x.fid != e.fid) ∧
      (portAt t port.toNat).q.credit = (portAt s port.toNat).q.credit.set e.cls
        (nth (portAt s port.toNat).q.credit e.cls - if spendsNone s port.toNat e then 0 else cellsOf e.frame) :=
    fun {t} ht h => ⟨t, ht, h.moves.only, h.lane, h.queue, h.credit⟩
  refine ⟨fun hnone hdue => ?_, fun h => ?_⟩
  · rw [hnone] at hexec
    exact ⟨_, hexec, if_pos hdue⟩
  · rcases h with h7 | ⟨h7, hcredit, h6 | ⟨h6, hbulk⟩⟩
    · rw [h7] at hexec
      exact hleads hexec (startFrame_started hmaps _ e)
    · rw [h7, hcredit, h6] at hexec
      exact hleads hexec (startFrame_started hmaps _ e)
    · rw [h7, hcredit, h6] at hexec
      exact hleads hexec (startBulk_started hmaps hbulk)
end Sys2Proof.Proofs

/-! PROOFS. Cuts, credit, release copies and reorder timers (O36; 06 R175, R176; 08 R244; 09 R274, R275, R278; 10 R294, R295). -/

namespace Sys2Proof.Proofs

open Sys2Proof.Machine Sys2Proof.Safety Sys2Proof.Laws

/-! ### A frame cut off its lane (08 R244; 09 R278) -/

section Stall

variable {s : State} {p : Nat} {e : Entry} {st n : Nat}

/-- The lane of a frame that was cut off it. -/
def laneCut (s : State) (p : Nat) (e : Entry) (reason : W16) (q : PortQ) : PortQ :=
  if (portAt s p).q.done = 0 then clearLane q
  else
    let f := cutFrame (knownFrame s e) (32 * widthOf s p * (portAt s p).q.done - 32) reason
    { clearLane q with lane := .cut (nextCycle s p), cut := some (nextCycle s p, trailerBytes f.crc f.status) }

theorem cutCopies_dropping (s : State) (x : Nat × Nat) (sent : Nat) (reason : W16) : (cutCopies s x sent reason).dropping = s.dropping :=
  (cutCopies_moves (Moves.refl [.ports] s) rfl).only .dropping (by decide)

theorem cutCopies_keepsLane {β : Type} {g : Port → β} (hg : ∀ v l, g { v with q := { v.q with queue := l } } = g v) (s : State) (x : Nat × Nat)
    (sent : Nat) (reason : W16) : PortsKeep g s (cutCopies s x sent reason) := by
  unfold cutCopies
  dsimp only
  split
  · exact .foldl (fun s p => .modPort (fun v => hg v _) s p) _ s
  · exact .refl s

/-- What a reading of a port's lane gives that is cut. -/
abbrev laneReading (q : PortQ) : OnLane × Option (Nat × List Byte) × Option Nat := (q.lane, q.cut, q.stallFrom)

theorem cutLane_frame (hports : canon {} s.ports = true) (hlane : (portAt s p).q.lane = .frame e st n) (reason : W16) :
    (cutLane s p reason).dropping = s.dropping ++ [e.fid] ∧
    laneReading (portAt (cutLane s p reason) p).q = laneReading (laneCut s p e reason (portAt s p).q) := by
  unfold cutLane
  rw [hlane]
  dsimp only
  generalize hrecords : cutRecords s e.fid p _ = r
  have hrports : r.ports = s.ports := hrecords ▸ cutRecords_ports s _ p _
  have hrdrop : r.dropping = s.dropping := hrecords ▸ (cutRecords_moves (Moves.refl [.tandem] s) rfl).only .dropping (by decide)
  have hrat : portAt r p = portAt s p := by rw [portAt, hrports, ← portAt]
  have hrcanon : canon {} r.ports = true := by rwa [hrports]
  generalize hcut : (if (portAt s p).q.done = 0 then modQ r p clearLane else _) = u
  have hu : canon {} u.ports = true ∧ u.dropping = s.dropping ∧
      laneReading (portAt u p).q = laneReading (laneCut s p e reason (portAt s p).q) := by
    subst hcut
    unfold laneCut
    split
    · refine ⟨canon_sput hrcanon, hrdrop, ?_⟩
      rw [modQ, modPort, portAt_setPort _ _ _ _ hrcanon, if_pos rfl]
      exact rfl
    · have hmod : ∀ f, canon {} (modQ r p f).ports = true := fun f => canon_sput hrcanon
      refine ⟨canon_sput (hmod _), hrdrop, ?_⟩
      rw [countPort, modPort, portAt_setPort _ _ _ _ (hmod _), if_pos rfl, modQ, modPort, portAt_setPort _ _ _ _ hrcanon, if_pos rfl]
      exact rfl
  obtain ⟨hucanon, hudrop, hread⟩ := hu
  refine ⟨?_, ?_⟩
  · change (cutCopies u _ _ _).dropping ++ _ = _
    rw [cutCopies_dropping, hudrop]
  · exact ((cutCopies_keepsLane (g := fun v => laneReading v.q) (fun _ _ => rfl) u _ _ _ hucanon).2 p).trans hread

theorem leads_sourceStall {port : BitVec 9} {c : Nat} (hports : canon {} s.ports = true) (hstall : (portAt s port.toNat).q.stallFrom = some c)
    (hc : c + 4096 ≤ s.now) (hlane : (portAt s port.toNat).q.lane = .frame e st n) :
    leads (.sourceStall port) s fun t => onlyChanges [.ports, .tandem, .dropping] s t ∧ t.dropping = s.dropping ++ [e.fid] ∧
      (portAt t port.toNat).q.stallFrom = none ∧
      ((portAt s port.toNat).q.done = 0 → (portAt t port.toNat).q.lane = .idle ∧ (portAt t port.toNat).q.cut = none) ∧
      ((portAt s port.toNat).q.done ≠ 0 →
        let f := cutFrame (knownFrame s e) (32 * widthOf s port.toNat * (portAt s port.toNat).q.done - 32) 0x0003
        (portAt t port.toNat).q.lane = .cut (nextCycle s port.toNat) ∧
        (portAt t port.toNat).q.cut = some (nextCycle s port.toNat, trailerBytes f.crc f.status)) := by
  have hexec : exec (.sourceStall port) s = .next (cutLane s port.toNat 0x0003) := by
    change Host.Outcome.next (match (portAt s port.toNat).q.stallFrom with
      | some c => if s.now ≥ c + 4096 then cutLane s port.toNat 0x0003 else s
      | none => s) = _
    rw [hstall]
    exact congrArg Host.Outcome.next (if_pos hc)
  obtain ⟨hdrop, hread⟩ := cutLane_frame hports hlane 0x0003
  obtain ⟨hl, hrest⟩ := Prod.mk.inj hread
  obtain ⟨hcut, hstallFrom⟩ := Prod.mk.inj hrest
  refine leads_moves hexec execSourceStall_moves ⟨hdrop, ?_, fun hdone => ?_, fun hdone => ?_⟩
  · rw [hstallFrom, laneCut]
    split <;> rfl
  · rw [hl, hcut, laneCut, if_pos hdone]
    exact ⟨rfl, rfl⟩
  · rw [hl, hcut, laneCut, if_neg hdone]
    exact ⟨rfl, rfl⟩

end Stall

/-! ### Credit cycles (10 R294, R295) -/

section Credit

variable {s : State} {port : BitVec 9}

theorem nth_map_range {f : Nat → Nat} {c : Nat} (hc : c < 8) : nth ((List.range 8).map f) c = f c := by
  simp [nth, List.getD_eq_getElem?_getD, hc]

theorem portAt_modQ {p : Nat} (hports : canon {} s.ports = true) (f : PortQ → PortQ) :
    portAt (modQ s p f) p = { portAt s p with q := f (portAt s p).q } := by
  rw [modQ, modPort, portAt_setPort _ _ _ _ hports, if_pos rfl]

theorem leads_creditCycleReceive (hports : canon {} s.ports = true) (ret : List (BitVec 16)) (hconf : (portAt s port.toNat).conf = true)
    (hcarry : carrying (portAt s port.toNat).link.st = true) (hframing : stillLost s port.toNat = false) :
    leads (.creditCycleReceive port ret) s fun t => onlyChanges [.ports] s t ∧
      (portAt t port.toNat).q.credit = (portAt s port.toNat).q.credit ∧
      ∀ c < 8, nth (portAt t port.toNat).q.coming c = nth (portAt s port.toNat).q.coming c + (ret.getD c 0).toNat := by
  have hexec : exec (.creditCycleReceive port ret) s = .next (modQ s port.toNat fun q =>
      { q with coming := (List.range 8).map fun c => nth q.coming c + (ret.getD c 0).toNat }) := by
    refine congrArg Host.Outcome.next ?_
    rw [if_neg (by simp [hconf, hcarry]), if_neg (by simp [hframing])]
  refine leads_moves hexec execCreditCycleReceive_moves ?_
  rw [portAt_modQ hports]
  exact ⟨rfl, fun c hc => nth_map_range (f := fun c => nth (portAt s port.toNat).q.coming c + (ret.getD c 0).toNat) hc⟩

theorem nth_of_sumNat_zero {l : List Nat} (h : sumNat l = 0) (c : Nat) : nth l c = 0 := by
  have hsum : l.sum = 0 := by rwa [sumNat, ← List.sum_eq_foldl] at h
  rw [nth, List.getD_eq_getElem?_getD]
  rcases hget : l[c]? with _ | x
  · rfl
  · exact List.sum_eq_zero_iff.1 hsum x (List.mem_of_getElem? hget)

theorem creditArrives_credit {p c : Nat} (hports : canon {} s.ports = true) (hc : c < 8) :
    nth (portAt (creditArrives s p) p).q.credit c = nth (portAt s p).q.credit c + nth (portAt s p).q.coming c := by
  unfold creditArrives
  dsimp only
  split
  next hzero => rw [nth_of_sumNat_zero hzero, Nat.add_zero]
  · rw [portAt_modQ hports]
    exact nth_map_range (f := fun c => nth (portAt s p).q.credit c + nth (portAt s p).q.coming c) hc

theorem leads_creditCycleSend (hports : canon {} s.ports = true) (hopen : linkOpen s port.toNat = true)
    (hidle : (portAt s port.toNat).q.lane = .idle) (hsum : sumNat (returns s port.toNat) ≠ 0) (hlast : (portAt s port.toNat).q.lastCredit = none)
    (hurgent : urgentAt s port.toNat s.now = false) (hurgent' : urgentAt s port.toNat (s.now + 1) = false) :
    leads (.creditCycleSend port) s fun t => onlyChanges [.ports] s t ∧
      (portAt t port.toNat).q.lane = .credit s.now ∧ (portAt t port.toNat).q.lastCredit = some s.now ∧
      ∀ c < 8, nth (portAt t port.toNat).q.owed c = nth (portAt s port.toNat).q.owed c - nth (returns s port.toNat) c := by
  have hdue : creditDue s port.toNat = true := by
    unfold creditDue
    simp [hopen, hidle, hsum, hlast, hurgent, hurgent']
  have hexec : exec (.creditCycleSend port) s = .next (modQ s port.toNat fun q =>
      { q with lane := .credit s.now, lastCredit := some s.now, ret := returns s port.toNat,
               owed := (List.range 8).map fun c => nth q.owed c - nth (returns s port.toNat) c }) :=
    congrArg Host.Outcome.next (if_neg (by simp [hdue]))
  refine leads_moves hexec execCreditCycleSend_moves ?_
  rw [portAt_modQ hports]
  exact ⟨rfl, rfl, fun c hc => nth_map_range (f := fun c => nth (portAt s port.toNat).q.owed c - nth (returns s port.toNat) c) hc⟩

end Credit

/-! ### Aligned release copies (06 R175, R176) -/

section Aligned

variable {s : State} {p : Nat} {e : Entry}

theorem foldl_least_mem {key : Entry → Nat} (l : List Entry) (b : Option Entry) {x : Entry}
    (h : l.foldl (fun b e => match b with
      | none => some e
      | some x => if key e < key x then some e else some x) b = some x) : b = some x ∨ x ∈ l := by
  induction l generalizing b with
  | nil => exact .inl h
  | cons e l ih =>
    rcases ih _ h with hb | hx
    · rcases b with _ | y
      · exact .inr (by simp_all)
      · dsimp only at hb
        split at hb
        · exact .inr (by simp_all)
        · exact .inl hb
    · exact .inr (List.mem_cons_of_mem e hx)

theorem isAligned_of_alignedNow (h : alignedNow s p = some e) : isAligned e = true := by
  have hmem := (foldl_least_mem _ none h).resolve_left (by simp)
  have hcond := (List.mem_filter.1 hmem).2
  simp only [Bool.and_eq_true] at hcond
  exact hcond.1.1

theorem noteLate_ports (s : State) (p : Nat) (e : Entry) : (noteLate s p e).ports = s.ports :=
  (noteLate_moves (Moves.refl [.host, .stats, .tallies, .fresh] s) rfl).only .ports (by decide)

theorem leads_alignedCopySend {port : BitVec 9} (hmaps : mapsCanonical s) (hopen : linkOpen s port.toNat = true)
    (hidle : (portAt s port.toNat).q.lane = .idle) (hedge : isEdge s port.toNat = true) (hkick : kickTakes s port.toNat = false)
    (hqueue : ∀ x ∈ (portAt s port.toNat).q.queue, refusedAt s port.toNat x = 0) (hnow : alignedNow s port.toNat = some e) :
    leads (.alignedCopySend port) s fun t =>
      onlyChanges [.host, .stats, .ports, .frames, .reorder, .doneMsgs, .pools, .tandem, .tallies, .faults, .fresh] s t ∧
      ∃ x n, (portAt t port.toNat).q.lane = .frame x s.now n ∧ x.fid = e.fid := by
  have hexec : exec (.alignedCopySend port) s = .next (startFrame (noteLate s port.toNat e) port.toNat e) := by
    change Host.Outcome.next (
      let s := if (portAt s port.toNat).link.degrading then s else purge (portAt s port.toNat).q.queue.length s port.toNat
      if !linkOpen s port.toNat || !isEdge s port.toNat || (portAt s port.toNat).q.lane != .idle || kickTakes s port.toNat then s
      else
        match alignedNow s port.toNat with
        | some e => startFrame (noteLate s port.toNat e) port.toNat e
        | none => s) = _
    rw [purge_unrefused hqueue, ite_self]
    dsimp only
    rw [if_neg (by simp [hopen, hedge, hidle, hkick]), hnow]
  have hlate := noteLate_moves (p := port.toNat) (e := e) (Moves.refl [.host, .stats, .tallies, .fresh] s) rfl
  have hstart := startFrame_started (hlate.maps hmaps) port.toNat e
  obtain ⟨x, n, hlane, hfid, -⟩ := hstart.lane
  have hnow' : (noteLate s port.toNat e).now = s.now := hlate.only .now (by decide)
  refine ⟨_, hexec, fun a ha => ?_, x, n, by rw [hlane, hnow'], hfid⟩
  by_cases hshapers : a = .shapers
  · subst hshapers
    have hexempt : isExempt e = true := by rw [isExempt, isAligned_of_alignedNow hnow, Bool.true_or]
    exact (hstart.exempt hexempt).trans (hlate.only .shapers (by decide))
  · have hall : Moves [.host, .stats, .ports, .frames, .reorder, .doneMsgs, .shapers, .pools, .tandem, .tallies, .faults, .fresh] s
        (startFrame (noteLate s port.toNat e) port.toNat e) := (widen hlate rfl).trans hstart.moves rfl
    refine hall.only a fun h => ha ?_
    simp only [List.mem_cons, List.not_mem_nil, or_false] at h ⊢
    tauto

end Aligned

/-! ### Reorder timers (09 R274, R275) -/

section Reorder

variable {s : State} {c : Reorder}

theorem release_joins (hs : noMirrors s) {p : Nat} (hjoins : joins s p = true) (e : Entry) :
    release s p e = pushEntry s p (if e.mirror.isSome then e else markCm s p e) := by
  unfold release enqueue
  rw [if_pos hjoins]
  dsimp only
  split
  · rfl
  · rw [mirrorOut_none hs, ite_self]

theorem foldl_release {p : Nat} (l : List Entry) (s : State) (hmaps : mapsCanonical s) (hs : noMirrors s) (hjoins : joins s p = true) :
    (portAt (l.foldl (fun s e => release s p e) s) p).q.queue.length = (portAt s p).q.queue.length + l.length := by
  induction l generalizing s with
  | nil => rfl
  | cons e l ih =>
    rw [List.foldl_cons, release_joins hs hjoins e]
    generalize (if e.mirror.isSome then e else markCm s p e) = x
    have hpush := pushEntry_moves (p := p) (e := x) (Moves.refl [.ports] s) rfl
    have hjoins' : joins (pushEntry s p x) p = true := by
      rw [joins, pushEntry, modPort, portAt_setPort _ _ _ _ hmaps.1, if_pos rfl]
      exact hjoins
    have hs' : noMirrors (pushEntry s p x) := hs
    rw [ih _ (hpush.maps hmaps) hs' hjoins', pushEntry_queue hmaps.1, List.length_append, List.length_cons]
    simp only [List.length_nil, List.length_cons]
    omega

/-- REORDER set and counted, with a count for each frame that comes late. -/
def expiryCounted (s : State) (c : Reorder) (n : Nat) : State :=
  (List.range n).foldl (fun s _ => countBlock s (reCount c.pg) 1) (setCause (countBlock s (reCount c.pg) 0) (srcPg c.pg) 11 c.port)

theorem countBlock_other (s : State) {src w k : Nat} (n : Nat) (hk : k ≠ src * 8 + w) :
    sget 0 (countBlock s src w n).blockCounts k = sget 0 s.blockCounts k := sget_sput_other hk

theorem expiryCounted_counts (s : State) (c : Reorder) (n : Nat) :
    sget 0 (expiryCounted s c n).blockCounts (srcPg c.pg * 8) = satAdd Config.sat32 (sget 0 s.blockCounts (srcPg c.pg * 8)) 1 := by
  have hlate : ∀ (l : List Nat) (t : State), sget 0 (l.foldl (fun s _ => countBlock s (reCount c.pg) 1) t).blockCounts (srcPg c.pg * 8) =
      sget 0 t.blockCounts (srcPg c.pg * 8) := by
    intro l
    induction l with
    | nil => exact fun t => rfl
    | cons x l ih =>
      intro t
      refine (ih _).trans (countBlock_other t 1 ?_)
      unfold reCount
      omega
  rw [expiryCounted, hlate, (setCause_eventStep _ _ _ _ _ _ _ _).blockCounts]
  exact sget_sbump_one _ _

theorem expiryCounted_moves (s : State) (c : Reorder) (n : Nat) : Moves [.host, .stats, .blockCounts, .fresh] s (expiryCounted s c n) :=
  foldl_moves (setCause_moves (countBlock_moves (Moves.refl _ s) rfl) rfl) fun _ _ h => countBlock_moves h rfl

theorem expiryCounted_bit (s : State) (c : Reorder) (n : Nat) : bit (statAt (expiryCounted s c n) (srcPg c.pg)).status.toNat 11 = true := by
  have hlate := (foldl_moves (xs := List.range n) (Moves.refl [.blockCounts] (setCause (countBlock s (reCount c.pg) 0) (srcPg c.pg) 11 c.port))
    fun _ _ h => countBlock_moves (src := reCount c.pg) (w := 1) (n := 1) h rfl).only .stats (by decide)
  rw [statAt, expiryCounted, hlate]
  exact bit_statAt_setCause (by decide)

/-- The contexts of a message as its timer leaves them: none, or one that holds nothing and passes. -/
def ctxPasses (c : Reorder) (l : List Reorder) : Prop := ∀ x ∈ l, sameCtx x c = true → x.held = [] ∧ x.pass = true

theorem putCtx_passes (s : State) {c x : Reorder} (hkey : ∀ y, sameCtx y x = sameCtx y c) (hheld : x.held = []) (hpass : x.pass = true) :
    ctxPasses c (putCtx s x).reorder := by
  intro y hy hsame
  obtain ⟨z, -, rfl⟩ := List.mem_map.1 hy
  by_cases hz : sameCtx z x = true
  · rw [if_pos hz]
    exact ⟨hheld, hpass⟩
  · rw [if_neg hz, ← hkey] at hsame
    exact absurd hsame hz

theorem dropCtx_passes (s : State) (c : Reorder) : ctxPasses c (dropCtx s c).reorder := by
  intro y hy hsame
  exact absurd hsame (by simpa using (List.mem_filter.1 hy).2)

/-- A context whose timer has run: its held frames are released, and what is left of it holds none. -/
theorem expireCtx_eq (s : State) (c : Reorder) : ∃ n r, expireCtx s c =
    { (c.held.foldl (fun s e => release s c.port e) (expiryCounted s c n)) with reorder := r } ∧ ctxPasses c r := by
  unfold expireCtx
  dsimp only
  split
  · exact ⟨_, _, rfl, putCtx_passes _ (fun _ => rfl) rfl rfl⟩
  · split
    · exact ⟨_, _, rfl, dropCtx_passes _ c⟩
    · exact ⟨_, _, rfl, putCtx_passes _ (fun _ => rfl) rfl rfl⟩

theorem leads_reorderTimerExpiry {pg : BitVec 4} {src : BitVec 20} {job : BitVec 8} {seq : BitVec 16} (hmaps : mapsCanonical s)
    (hfind : s.reorder.find? (fun x => x.pg == pg.toNat && x.src == src.toNat && x.job == job.toNat && x.seq == seq.toNat) = some c)
    (htimer : c.timer + clsTimeout s c.cls * 1024 ≤ s.now) : leads (.reorderTimerExpiry pg src job seq) s fun t =>
      onlyChanges [.host, .stats, .ports, .frames, .reorder, .blockCounts, .pools, .dropping, .fresh] s t ∧
      bit (statAt t (srcPg pg.toNat)).status.toNat 11 = true ∧
      sget 0 t.blockCounts (srcPg pg.toNat * 8) = satAdd Config.sat32 (sget 0 s.blockCounts (srcPg pg.toNat * 8)) 1 ∧
      (∀ x ∈ t.reorder, sameCtx x c = true → x.held = [] ∧ x.pass = true) ∧
      ((∀ m < 16, bit (ew s 0x17 m 0).toNat 63 = false) → joins s c.port = true →
        (portAt t c.port).q.queue.length = (portAt s c.port).q.queue.length + c.held.length) := by
  have hpg : c.pg = pg.toNat := by
    have hkey := List.find?_some hfind
    simp only [Bool.and_eq_true, beq_iff_eq] at hkey
    exact hkey.1.1.1
  have hexec : exec (.reorderTimerExpiry pg src job seq) s = .next (expireCtx s c) := by
    change Host.Outcome.next (match s.reorder.find? (fun x => x.pg == pg.toNat && x.src == src.toNat && x.job == job.toNat && x.seq == seq.toNat) with
      | none => s
      | some c => if s.now ≥ c.timer + clsTimeout s c.cls * 1024 then expireCtx s c else s) = _
    rw [hfind]
    exact congrArg Host.Outcome.next (if_pos htimer)
  obtain ⟨n, r, heq, hpasses⟩ := expireCtx_eq s c
  have hcounted := expiryCounted_moves s c n
  have hreleased := foldl_moves (xs := c.held) (Moves.refl [.host, .ports, .frames, .pools, .dropping, .fresh] (expiryCounted s c n))
    fun _ e h => release_moves (p := c.port) (e := e) h rfl
  have hmeets : Meets s (expiryCounted s c n) := .of_moves hcounted rfl
  refine leads_moves hexec execReorderTimerExpiry_moves ?_
  rw [heq, ← hpg]
  refine ⟨?_, ?_, hpasses, fun hs hjoins => ?_⟩
  · change bit (sget {} (List.foldl _ (expiryCounted s c n) c.held).stats (srcPg c.pg)).status.toNat 11 = true
    rw [hreleased.only .stats (by decide)]
    exact expiryCounted_bit s c n
  · change sget 0 (List.foldl _ (expiryCounted s c n) c.held).blockCounts (srcPg c.pg * 8) = _
    rw [hreleased.only .blockCounts (by decide)]
    exact expiryCounted_counts s c n
  · have hjoins' : joins (expiryCounted s c n) c.port = true := by rwa [joins, hmeets.portAt]
    exact (foldl_release c.held _ (hcounted.maps hmaps) (hmeets.noMirrors hs) hjoins').trans (by rw [hmeets.portAt])

end Reorder

/-- Settles O36: a stalled source, credit cycles, an aligned copy and a reorder timer. -/
theorem laneEventsAct : Obligations.LaneEventsAct := by
  unfold Obligations.LaneEventsAct
  refine ⟨fun s port hmaps => ⟨fun c e st n hstall hc hlane => leads_sourceStall hmaps.1 hstall hc hlane,
    fun ret hconf hcarry hframing => leads_creditCycleReceive hmaps.1 ret hconf hcarry hframing,
    fun c hc => creditArrives_credit hmaps.1 hc, fun hopen hidle =>
      ⟨fun hsum hlast hurgent hurgent' => leads_creditCycleSend hmaps.1 hopen hidle hsum hlast hurgent hurgent',
        fun e hedge hkick hqueue hnow => leads_alignedCopySend hmaps hopen hidle hedge hkick hqueue hnow⟩⟩,
    fun s pg src job seq c hmaps hfind htimer => leads_reorderTimerExpiry hmaps hfind htimer⟩
end Sys2Proof.Proofs

/-! PROOFS. LINK_DOWN, LINK_UP, link-up, its loss and its return (O37; 08 R230, R234-R239, R246-R249). -/

namespace Sys2Proof.Proofs

open Sys2Proof.Machine Sys2Proof.Safety Sys2Proof.Laws

/-! ### Fencing a port (09 R283, R284) -/

/-- A port after a fence somewhere on the X7: its layout and its link stand, and where nothing is queued or on the lane nothing comes. -/
structure Calm (r r' : Port) : Prop where
  conf : r'.conf = r.conf
  plan : r'.plan = r.plan
  lanes : r'.lanes = r.lanes
  link : r'.link = r.link
  queue : r.q.queue = [] → r'.q.queue = []
  lane : r.q.lane = .idle → r'.q.lane = .idle

namespace Calm

theorem refl (r : Port) : Calm r r := ⟨rfl, rfl, rfl, rfl, id, id⟩

theorem trans {r r' r'' : Port} (h : Calm r r') (k : Calm r' r'') : Calm r r'' :=
  ⟨k.conf.trans h.conf, k.plan.trans h.plan, k.lanes.trans h.lanes, k.link.trans h.link, fun e => k.queue (h.queue e),
    fun e => k.lane (h.lane e)⟩

end Calm

/-- Every port is calm over a change of the state. -/
def Calms (s t : State) : Prop := canon {} s.ports = true → canon {} t.ports = true ∧ ∀ q, Calm (portAt s q) (portAt t q)

namespace Calms

variable {s t u : State}

theorem trans (h : Calms s t) (k : Calms t u) : Calms s u := fun hs =>
  ⟨(k (h hs).1).1, fun q => ((h hs).2 q).trans ((k (h hs).1).2 q)⟩

theorem of_ports (h : t.ports = s.ports) : Calms s t := fun hs =>
  ⟨by rwa [h], fun q => by rw [portAt, portAt, h]; exact .refl _⟩

theorem refl (s : State) : Calms s s := of_ports rfl

theorem modPort {s : State} {p : Nat} {f : Port → Port} (hf : Calm (portAt s p) (f (portAt s p))) : Calms s (modPort s p f) := fun hs =>
  ⟨canon_sput hs, fun q => by
    rw [Machine.modPort, portAt_setPort s p q _ hs]
    split
    next h => rw [h]; exact hf
    · exact .refl _⟩

theorem foldl {α : Type} {f : State → α → State} (hf : ∀ s x, Calms s (f s x)) (l : List α) (s : State) : Calms s (l.foldl f s) := by
  induction l generalizing s with
  | nil => exact refl s
  | cons x l ih => exact (hf s x).trans (ih _)

theorem of_event (h : EventStep s t) : Calms s t := of_ports h.ports

end Calms

section Fence

variable {s : State} {p : Nat}

theorem modQ_calms {f : PortQ → PortQ} (hqueue : (portAt s p).q.queue = [] → (f (portAt s p).q).queue = [])
    (hlane : (portAt s p).q.lane = .idle → (f (portAt s p).q).lane = .idle) : Calms s (modQ s p f) :=
  .modPort ⟨rfl, rfl, rfl, rfl, hqueue, hlane⟩

theorem countPort_calms (s : State) (p word n : Nat) : Calms s (countPort s p word n) := .modPort ⟨rfl, rfl, rfl, rfl, id, id⟩

theorem modKick_calms (s : State) (p : Nat) (f : Kick → Kick) : Calms s (modKick s p f) := .modPort ⟨rfl, rfl, rfl, rfl, id, id⟩

theorem countFlush_calms (s : State) (p c : Nat) : Calms s (countFlush s p c) := (countPort_calms _ _ _ _).trans (countPort_calms _ _ _ _)

theorem loseLane_calms (s : State) (p : Nat) : Calms s (loseLane s p) := by
  have hclear : Calms s (modQ s p clearLane) := modQ_calms id fun _ => rfl
  unfold loseLane
  split
  · exact hclear.trans (.of_ports rfl)
  · exact hclear

theorem cutCopies_calms (s : State) (x : Nat × Nat) (sent : Nat) (reason : W16) : Calms s (cutCopies s x sent reason) := by
  unfold cutCopies
  dsimp only
  split
  · exact .foldl (fun s p => modQ_calms (fun h => by simp [h]) id) _ s
  · exact .refl s

theorem cutLane_calms (s : State) (p : Nat) (reason : W16) : Calms s (cutLane s p reason) := by
  unfold cutLane
  split
  next e _ _ hlane =>
    dsimp only
    generalize hrecords : cutRecords s _ p _ = r
    have hports : r.ports = s.ports := hrecords ▸ cutRecords_ports s _ p _
    have hr : Calms s r := .of_ports hports
    have hlane' : (portAt r p).q.lane ≠ .idle := by
      rw [portAt, hports, ← portAt, hlane]
      exact fun h => nomatch h
    refine .trans (.trans hr ?_) ((cutCopies_calms _ _ _ _).trans (.of_ports rfl))
    split
    · exact modQ_calms id fun _ => rfl
    · exact (modQ_calms id fun h => absurd h hlane').trans (countPort_calms _ _ _ _)
  · exact .refl s

/-- The frames still arriving over a port lost, and those of its reorder contexts cut. -/
def intakeCut (s : State) (p : Nat) : State :=
  { s with intake := s.intake.filter fun i => i.port != p || decide (i.arrival + dataCycles i.frame (widthOf s p) ≤ s.now + 1),
           reorder := s.reorder.map fun c => { c with held := c.held.map (cutEntry s p) } }

/-- What is still coming over a port and waits for another is cut. -/
theorem cutInput_calms (s : State) (p : Nat) : Calms s (cutInput s p) := by
  unfold cutInput
  dsimp only
  refine .trans (t := intakeCut s p) (.of_ports rfl) ?_
  apply Calms.foldl
  intro r o
  generalize hcut : (if ((portAt r o).q.queue.filter (stillComing r p)).isEmpty = true then r else _) = v
  have hv : Calms r v := by
    rw [← hcut]
    split
    · exact .refl r
    · refine .trans (modQ_calms (fun h => by simp [h]) id) (.foldl (fun t e => .of_ports (cutRecords_ports t _ _ _)) _ _)
  refine hv.trans ?_
  split
  · split
    · exact cutLane_calms v o _
    · exact .refl v
  · exact .refl v

theorem loseKicks_calms (s : State) (p : Nat) : Calms s (loseKicks s p) :=
  (modKick_calms s p _).trans (.foldl (fun r _ => (countPort_calms r p _ _).trans (.of_event (setCause_eventStep _ _ _ _ _ _ _ _))) _ _)

/-- The queue of a port emptied, before what it held is counted. -/
def queueEmptied (s : State) (p : Nat) : State :=
  { modQ s p fun q => { q with queue := [], deficit := List.replicate 6 0 } with stalled := s.stalled.filter fun x => x.1 != p }

/-- Each frame that was queued or stalled is counted as flushed. -/
def flushesCounted (p : Nat) (queued : List Entry) (waits : List (Nat × Entry)) (s : State) : State :=
  waits.foldl (fun s x => countFlush s p x.2.cls) (queued.foldl (fun s e => countFlush (dropLater s e.fid) p e.cls) s)

theorem flushQueue_eq (s : State) (p : Nat) : flushQueue s p =
    flushesCounted p (portAt s p).q.queue (s.stalled.filter fun x => x.1 == p) (queueEmptied s p) := rfl

theorem flushesCounted_calms (p : Nat) (queued : List Entry) (waits : List (Nat × Entry)) (s : State) :
    Calms s (flushesCounted p queued waits s) := by
  have hdropped (r : State) (e : Entry) : Calms r (dropLater r e.fid) := .of_ports rfl
  exact (Calms.foldl (fun r e => (hdropped r e).trans (countFlush_calms _ p e.cls)) queued s).trans
    (.foldl (fun r x => countFlush_calms r p x.2.cls) waits _)

theorem queueEmptied_calms (s : State) (p : Nat) : Calms s (queueEmptied s p) :=
  (modQ_calms (s := s) (p := p) (f := fun q => { q with queue := [], deficit := List.replicate 6 0 }) (fun _ => rfl) id).trans (.of_ports rfl)

theorem flushQueue_calms (s : State) (p : Nat) : Calms s (flushQueue s p) :=
  (queueEmptied_calms s p).trans (flushesCounted_calms p _ _ _)

theorem flushQueue_queue (hs : canon {} s.ports = true) : (portAt (flushQueue s p) p).q.queue = [] := by
  refine ((flushesCounted_calms p _ _ _ (queueEmptied_calms s p hs).1).2 p).queue ?_
  change (portAt (modQ s p fun q => { q with queue := [], deficit := List.replicate 6 0 }) p).q.queue = []
  rw [modQ, modPort, portAt_setPort _ _ _ _ hs, if_pos rfl]

theorem loseLane_lane (hs : canon {} s.ports = true) : (portAt (loseLane s p) p).q.lane = .idle := by
  have hclear : (portAt (modQ s p clearLane) p).q.lane = .idle := by
    rw [modQ, modPort, portAt_setPort _ _ _ _ hs, if_pos rfl, clearLane]
  unfold loseLane
  split <;> exact hclear

/-- A kickstand on the lane of a port that is fenced is lost. -/
def laneKickLost (s : State) (p : Nat) : State :=
  if kickOnLane (portAt s p).q then
    setCause (countPort s p cKickLost 1) (srcPg (pgOf p)) 15 p (((portAt s p).kick.sending.map fun k => fld (k.words.getD 0 0) 55 48).getD 0)
  else s

theorem laneKickLost_calms (s : State) (p : Nat) : Calms s (laneKickLost s p) := by
  unfold laneKickLost
  split
  · exact (countPort_calms s p _ _).trans (.of_event (setCause_eventStep _ _ _ _ _ _ _ _))
  · exact .refl s

/-- A port without credit, on either side. -/
def creditless (q : PortQ) : PortQ :=
  { q with credit := List.replicate 8 0, coming := List.replicate 8 0, owed := List.replicate 8 0, awaitCred := List.replicate 8 none }

theorem creditless_calms (s : State) (p : Nat) : Calms s (modQ s p creditless) := modQ_calms (f := creditless) id id

/-- What a fence does once the port has nothing queued and nothing on its lanes. -/
theorem fenceRest_calms (s : State) (p : Nat) : Calms s (modQ (loseKicks (cutInput s p) p) p creditless) :=
  ((cutInput_calms s p).trans (loseKicks_calms _ p)).trans (creditless_calms _ p)

theorem fenceDown_eq (s : State) (p : Nat) : fenceDown s p =
    modQ (loseKicks (cutInput (loseLane (flushQueue (laneKickLost s p) p) p) p) p) p creditless := by
  rw [fenceDown, laneKickLost]
  exact rfl

theorem fenceDown_calms (s : State) (p : Nat) : Calms s (fenceDown s p) := by
  rw [fenceDown_eq]
  exact ((laneKickLost_calms s p).trans (flushQueue_calms _ p)).trans ((loseLane_calms _ p).trans (fenceRest_calms _ p))

theorem fenceDown_clear (hs : canon {} s.ports = true) :
    (portAt (fenceDown s p) p).q.queue = [] ∧ (portAt (fenceDown s p) p).q.lane = .idle := by
  rw [fenceDown_eq]
  have hlost := (laneKickLost_calms s p hs).1
  have hflushed := flushQueue_calms _ p hlost
  have hlane := loseLane_calms _ p hflushed.1
  have hrest := (fenceRest_calms _ p hlane.1).2 p
  exact ⟨hrest.queue ((hlane.2 p).queue (flushQueue_queue hlost)), hrest.lane (loseLane_lane hflushed.1)⟩

end Fence

/-! ### Ports that enter QUIET or DOWN, and lanes (08 R236, R247) -/

theorem laneAt_setLane (s : State) (l k : Nat) (v : Lane) (hs : canon {} s.lanes = true) :
    laneAt (setLane s l v) k = if k = l then v else laneAt s k := by
  split
  next h => rw [h]; exact sget_sput_same hs
  next h => exact sget_sput_other h

/-- What a step over each element of a list brings about for it, and over any other leaves, holds for every element after all. -/
theorem foldl_each {α : Type} {f : State → α → State} {I : State → Prop} {P : α → State → Prop} (hinv : ∀ s x, I s → I (f s x))
    (hown : ∀ s x, I s → P x (f s x)) (hkeep : ∀ s x y, I s → P y s → P y (f s x)) (l : List α) (s : State) (hs : I s) :
    (∀ y, P y s → P y (l.foldl f s)) ∧ ∀ x ∈ l, P x (l.foldl f s) := by
  induction l generalizing s with
  | nil => exact ⟨fun _ h => h, fun _ h => nomatch h⟩
  | cons x l ih =>
    obtain ⟨hstays, heach⟩ := ih _ (hinv s x hs)
    refine ⟨fun y hy => hstays y (hkeep s x y hs hy), fun y hy => ?_⟩
    rcases List.mem_cons.1 hy with rfl | hy
    · exact hstays y (hown s y hs)
    · exact heach y hy

/-- A reading of the lanes that a change leaves: lanes in canonical form stay so, and g reads the same of each. -/
def LanesKeep {β : Type} (g : Lane → β) (s t : State) : Prop :=
  canon {} s.lanes = true → canon {} t.lanes = true ∧ ∀ k, g (laneAt t k) = g (laneAt s k)

section Lanes

variable {β : Type} {g : Lane → β} {s t u : State} {p : Nat}

theorem LanesKeep.trans (h : LanesKeep g s t) (k : LanesKeep g t u) : LanesKeep g s u := fun hs =>
  ⟨(k (h hs).1).1, fun l => ((k (h hs).1).2 l).trans ((h hs).2 l)⟩

theorem LanesKeep.of_lanes (h : t.lanes = s.lanes) : LanesKeep g s t := fun hs => ⟨by rwa [h], fun k => by rw [laneAt, h, ← laneAt]⟩

theorem LanesKeep.foldl {f : Lane → Lane} (hf : ∀ v, g (f v) = g v) (ls : List Nat) (s : State) :
    LanesKeep g s (ls.foldl (fun s l => setLane s l (f (laneAt s l))) s) := by
  induction ls generalizing s with
  | nil => exact .of_lanes rfl
  | cons l ls ih =>
    refine .trans (fun hs => ⟨canon_sput hs, fun k => ?_⟩) (ih _)
    rw [laneAt_setLane _ _ _ _ hs]
    split
    next h => rw [hf, h]
    · rfl

/-- A property that a change gives every lane has been given to each of a list. -/
theorem foldl_setLane {P : Lane → Prop} {f : Lane → Lane} (hf : ∀ v, P (f v)) (ls : List Nat) (s : State) (hs : canon {} s.lanes = true) :
    canon {} (ls.foldl (fun s l => setLane s l (f (laneAt s l))) s).lanes = true ∧
    (∀ k, P (laneAt s k) → P (laneAt (ls.foldl (fun s l => setLane s l (f (laneAt s l))) s) k)) ∧
    ∀ k ∈ ls, P (laneAt (ls.foldl (fun s l => setLane s l (f (laneAt s l))) s) k) := by
  have hcanon := (LanesKeep.foldl (g := fun _ => ()) (f := f) (fun _ => rfl) ls s hs).1
  refine ⟨hcanon, foldl_each (I := fun s => canon {} s.lanes = true) (P := fun k s => P (laneAt s k)) (fun _ _ h => canon_sput h)
    (fun t k ht => ?_) (fun t k l ht hl => ?_) ls s hs⟩
  · rw [laneAt_setLane _ _ _ _ ht, if_pos rfl]
    exact hf _
  · rw [laneAt_setLane _ _ _ _ ht]
    split
    · exact hf _
    · exact hl

theorem freshLanes_ports (s : State) (ls : List Nat) : (freshLanes s ls).ports = s.ports :=
  (freshLanes_moves (Moves.refl [.lanes] s) rfl).only .ports (by decide)

theorem freshLanes_now (s : State) (ls : List Nat) : (freshLanes s ls).now = s.now :=
  (freshLanes_moves (Moves.refl [.lanes] s) rfl).only .now (by decide)

theorem silence_ports (s : State) (ls : List Nat) : (silence s ls).ports = s.ports :=
  (silence_moves (Moves.refl [.lanes] s) rfl).only .ports (by decide)

theorem silence_now (s : State) (ls : List Nat) : (silence s ls).now = s.now :=
  (silence_moves (Moves.refl [.lanes] s) rfl).only .now (by decide)

/-- A port that enters QUIET or DOWN; every other stands. -/
theorem portAt_toQuiet (hs : canon {} s.ports = true) (p n : Nat) (st : LinkSt) (q : Nat) : portAt (toQuiet s p n st) q =
    if q = p then { portAt s p with link := quietLink (portAt s p).link s.now n st } else portAt s q := by
  have hports : (silence (freshLanes s (planLanes p (portAt s p).plan)) (planLanes p (portAt s p).plan)).ports = s.ports :=
    (silence_ports _ _).trans (freshLanes_ports _ _)
  have hnow : (silence (freshLanes s (planLanes p (portAt s p).plan)) (planLanes p (portAt s p).plan)).now = s.now :=
    (silence_now _ _).trans (freshLanes_now _ _)
  unfold toQuiet
  dsimp only
  generalize silence (freshLanes s (planLanes p (portAt s p).plan)) (planLanes p (portAt s p).plan) = r at hports hnow
  have hport (k : Nat) : portAt r k = portAt s k := by rw [portAt, hports, ← portAt]
  rw [modPort, portAt_setPort _ _ _ _ (by rw [hports]; exact hs), hnow, hport, hport]

theorem toQuiet_canon (hs : canon {} s.ports = true) (p n : Nat) (st : LinkSt) : canon {} (toQuiet s p n st).ports = true :=
  canon_sput (by rw [silence_ports, freshLanes_ports]; exact hs)

/-- A port that goes down. -/
theorem portDown_down (hs : canon {} s.ports = true) :
    (portAt (portDown s p) p).link.st = .quiet ∧ (portAt (portDown s p) p).link.degrading = false ∧
    (portAt (portDown s p) p).q.queue = [] ∧ (portAt (portDown s p) p).lanes = (portAt s p).lanes := by
  obtain ⟨hcanon, hcalm⟩ := fenceDown_calms s p hs
  rw [portDown, portAt_toQuiet hcanon, if_pos rfl]
  exact ⟨rfl, rfl, (fenceDown_clear hs).1, (hcalm p).lanes⟩

end Lanes

/-! ### LINK_DOWN and LINK_UP (13 Table 13.9) -/

section Groups

variable {s : State} {pg : Nat}

/-- A port taken down. -/
def TakenDown (s : State) (p : Nat) : Prop := (portAt s p).link.st = .down ∧ (portAt s p).q.queue = [] ∧ (portAt s p).q.lane = .idle

theorem widen_canon (hs : canon {} s.ports = true) (p : Nat) : canon {} (Machine.widen s p).ports = true := canon_sput hs

theorem portAt_widen (hs : canon {} s.ports = true) (p q : Nat) :
    portAt (Machine.widen s p) q = if q = p then { portAt s p with lanes := planLanes p (portAt s p).plan } else portAt s q := by
  rw [Machine.widen, modPort, portAt_setPort _ _ _ _ hs]

/-- The ports of a state whose port p is widened and enters QUIET or DOWN. -/
theorem portAt_toQuiet_widen (hs : canon {} s.ports = true) (p : Nat) (st : LinkSt) (q : Nat) :
    portAt (toQuiet (Machine.widen s p) p 0 st) q = if q = p then
      { portAt s p with lanes := planLanes p (portAt s p).plan, link := quietLink (portAt s p).link s.now 0 st } else portAt s q := by
  rw [portAt_toQuiet (widen_canon hs p), portAt_widen hs, if_pos rfl, portAt_widen hs]
  split <;> exact rfl

/-- A configured port taken down. -/
def portTaken (s : State) (p : Nat) : State := toQuiet (Machine.widen (fenceDown s p) p) p 0 .down

theorem portTaken_down (hs : canon {} s.ports = true) (p : Nat) : TakenDown (portTaken s p) p := by
  obtain ⟨hqueue, hlane⟩ := fenceDown_clear (p := p) hs
  have hport := portAt_toQuiet_widen (fenceDown_calms s p hs).1 p .down p
  rw [if_pos rfl] at hport
  unfold TakenDown portTaken
  rw [hport]
  exact ⟨rfl, hqueue, hlane⟩

/-- Taking a port down leaves what is configured, and every other port that is down. -/
theorem portTaken_keeps (hs : canon {} s.ports = true) (p q : Nat) : (portAt (portTaken s p) q).conf = (portAt s q).conf ∧
    (TakenDown s q → TakenDown (portTaken s p) q) := by
  obtain ⟨hfenced, hcalm⟩ := fenceDown_calms s p hs
  have hport := portAt_toQuiet_widen hfenced p .down q
  by_cases h : q = p
  · refine ⟨?_, fun _ => h ▸ portTaken_down hs p⟩
    rw [portTaken, hport, if_pos h, h]
    exact (hcalm p).conf
  · rw [if_neg h] at hport
    unfold TakenDown portTaken
    rw [hport, (hcalm q).link]
    exact ⟨(hcalm q).conf, fun ⟨hst, hq, hl⟩ => ⟨hst, (hcalm q).queue hq, (hcalm q).lane hl⟩⟩

theorem portTaken_canon (hs : canon {} s.ports = true) (p : Nat) : canon {} (portTaken s p).ports = true :=
  toQuiet_canon (widen_canon (fenceDown_calms _ _ hs).1 _) _ _ _

/-- What LINK_DOWN does to one port of a group. -/
def groupPortDown (pg : Nat) (s : State) (j : Nat) : State :=
  if (portAt s (32 * pg + j)).conf then portTaken s (32 * pg + j) else s

/-- LINK_DOWN of a group takes every configured port of it down. -/
theorem groupDown_down (hs : canon {} s.ports = true) : ∀ j < 32, (portAt s (32 * pg + j)).conf = true →
    TakenDown ((List.range 32).foldl (groupPortDown pg) s) (32 * pg + j) := by
  intro j hj
  refine (foldl_each (f := groupPortDown pg) (I := fun t => canon {} t.ports = true ∧ ∀ q, (portAt t q).conf = (portAt s q).conf)
    (P := fun j t => (portAt s (32 * pg + j)).conf = true → TakenDown t (32 * pg + j)) ?inv ?own ?keep (List.range 32) s
    ⟨hs, fun _ => rfl⟩).2 j (List.mem_range.2 hj)
  case inv =>
    intro t i ht
    unfold groupPortDown
    split
    · exact ⟨portTaken_canon ht.1 _, fun q => (portTaken_keeps ht.1 (32 * pg + i) q).1.trans (ht.2 q)⟩
    · exact ht
  case own =>
    intro t i ht hconf
    rw [groupPortDown, ht.2, if_pos hconf]
    exact portTaken_down ht.1 _
  case keep =>
    intro t i k ht hk hconf
    unfold groupPortDown
    split
    · exact (portTaken_keeps ht.1 (32 * pg + i) _).2 (hk hconf)
    · exact hk hconf

/-- A port of a group with a word of the plan. -/
def portPlanned (s : State) (p : Nat) (w : W64) : State :=
  if planUsed w then toQuiet (Machine.widen (modPort s p fun q => { q with conf := true, plan := w }) p) p 0 .quiet
  else modPort s p fun q => { q with conf := false, plan := w }

/-- What LINK_UP does to one port of a group. -/
def groupPortUp (pg : Nat) (s : State) (j : Nat) : State :=
  portPlanned (if carrying (portAt s (32 * pg + j)).link.st then fenceDown s (32 * pg + j) else s) (32 * pg + j)
    (sget 0 s.boot.planWords (32 * pg + j))

theorem raiseGroup_eq (s : State) (pg : Nat) : raiseGroup s pg = (List.range 32).foldl (groupPortUp pg) s := rfl

/-- A port as a word of the plan has it. -/
def AsPlanned (w : W64) (r : Port) : Prop := r.conf = planUsed w ∧ (planUsed w = true → r.link.st = .quiet)

theorem portAt_portPlanned (hs : canon {} s.ports = true) (p : Nat) (w : W64) : canon {} (portPlanned s p w).ports = true ∧
    AsPlanned w (portAt (portPlanned s p w) p) ∧ ∀ q ≠ p, portAt (portPlanned s p w) q = portAt s q := by
  unfold portPlanned AsPlanned
  split
  next hused =>
    have hset : canon {} (modPort s p fun q => { q with conf := true, plan := w }).ports = true := canon_sput hs
    have hport (q : Nat) := portAt_toQuiet_widen hset p .quiet q
    refine ⟨toQuiet_canon (widen_canon hset p) _ _ _, ?_, fun q hq => ?_⟩
    · rw [hport, if_pos rfl, modPort, portAt_setPort _ _ _ _ hs, if_pos rfl]
      exact ⟨hused.symm, fun _ => rfl⟩
    · rw [hport, if_neg hq, modPort, portAt_setPort _ _ _ _ hs, if_neg hq]
  next hunused =>
    refine ⟨canon_sput hs, ?_, fun q hq => ?_⟩
    · rw [modPort, portAt_setPort _ _ _ _ hs, if_pos rfl]
      exact ⟨(Bool.eq_false_iff.2 hunused).symm, fun h => absurd h hunused⟩
    · rw [modPort, portAt_setPort _ _ _ _ hs, if_neg hq]

theorem groupPortUp_boot (s : State) (j : Nat) : (groupPortUp pg s j).boot = s.boot := by
  have hmoves : Moves [.host, .stats, .ports, .lanes, .stalled, .reorder, .tandem, .dropping, .intake, .fresh] s (groupPortUp pg s j) := by
    unfold groupPortUp portPlanned
    refine ite_moves (fun _ => toQuiet_moves (widen_moves (modPort_moves ?_ rfl) rfl) rfl) (fun _ => modPort_moves ?_ rfl) <;>
      exact ite_moves (fun _ => fenceDown_moves (Moves.refl _ s) rfl) fun _ => Moves.refl _ s
  exact hmoves.only .boot (by decide)

theorem groupPortUp_port (hs : canon {} s.ports = true) (j : Nat) : canon {} (groupPortUp pg s j).ports = true ∧
    AsPlanned (sget 0 s.boot.planWords (32 * pg + j)) (portAt (groupPortUp pg s j) (32 * pg + j)) ∧
    ∀ q ≠ 32 * pg + j, (portAt (groupPortUp pg s j) q).conf = (portAt s q).conf ∧
      (portAt (groupPortUp pg s j) q).link = (portAt s q).link := by
  have hfence : Calms s (if carrying (portAt s (32 * pg + j)).link.st then fenceDown s (32 * pg + j) else s) := by
    split
    · exact fenceDown_calms s _
    · exact .refl s
  obtain ⟨hcanon, hcalm⟩ := hfence hs
  obtain ⟨hplanned, hown, hother⟩ := portAt_portPlanned hcanon (32 * pg + j) (sget 0 s.boot.planWords (32 * pg + j))
  unfold groupPortUp
  refine ⟨hplanned, hown, fun q hq => ?_⟩
  rw [hother q hq]
  exact ⟨(hcalm q).conf, (hcalm q).link⟩

/-- LINK_UP of a group has its ports as the plan gives them. -/
theorem raiseGroup_planned (hs : canon {} s.ports = true) :
    ∀ j < 32, AsPlanned (sget 0 s.boot.planWords (32 * pg + j)) (portAt (raiseGroup s pg) (32 * pg + j)) := by
  intro j hj
  rw [raiseGroup_eq]
  refine (foldl_each (f := groupPortUp pg) (I := fun t => canon {} t.ports = true ∧ t.boot = s.boot)
    (P := fun j t => AsPlanned (sget 0 s.boot.planWords (32 * pg + j)) (portAt t (32 * pg + j)))
    (fun t i ht => ⟨(groupPortUp_port ht.1 i).1, (groupPortUp_boot t i).trans ht.2⟩) (fun t i ht => ?own) (fun t i k ht hk => ?keep)
    (List.range 32) s ⟨hs, rfl⟩).2 j (List.mem_range.2 hj)
  case own =>
    rw [← ht.2]
    exact (groupPortUp_port ht.1 i).2.1
  case keep =>
    by_cases h : 32 * pg + k = 32 * pg + i
    · rw [h, ← ht.2]
      exact (groupPortUp_port ht.1 i).2.1
    · obtain ⟨hconf, hlink⟩ := (groupPortUp_port ht.1 i).2.2 _ h
      exact ⟨hconf.trans hk.1, fun hused => (congrArg Link.st hlink).trans (hk.2 hused)⟩

/-- Either command of a group once accepted: the change is recorded, the group's ports take it, and the command completes. -/
def groupDone (pg : Nat) (a : Accept) (effect : State → State) (s : State) : State :=
  complete (effect (recordRaw s oHost a.ring 0x16 (0x8000 + pg) 0 0)) a stOk

theorem hasPg_of_boot {u : State} (h : u.boot = s.boot) (pg : Nat) : hasPg u pg = hasPg s pg := by
  rw [hasPg, capUnits, Machine.grade, h, ← Machine.grade, ← capUnits, ← hasPg]

theorem planFault_of_boot {u : State} (h : u.boot = s.boot) (pg : Nat) : planFault u pg = planFault s pg := by
  rw [planFault, h, ← planFault]

variable {ring : BitVec 6} {d : Desc}

/-- A command that leads to P changes no more than its arm does. -/
theorem leads_runs {c : Instr} {P : State → Prop} {l : List Area} (h : leads c s P) (hruns : Runs l s (exec c s)) :
    leads c s fun t => onlyChanges l s t ∧ P t := by
  obtain ⟨t, ht, hP⟩ := h
  obtain ⟨t', ht', hmoves⟩ := ht ▸ hruns
  exact ⟨t, ht, (Host.Outcome.next.inj ht' ▸ hmoves).only, hP⟩

/-- What either command of a group leaves, its effect apart. -/
theorem leads_group {c : Instr} {op : Nat} {body : Accept → State → State} {effect : State → State}
    (hadm : admitted s ring d op (cringOf d.d0) none) (hexec : exec c s = .next (accept s ring d op none 0 (cringOf d.d0) body))
    (hbody : ∀ u, u.boot = s.boot → body (acceptNow s ring.toNat d.d0 0) u = groupDone pg (acceptNow s ring.toNat d.d0 0) effect u)
    (heffect : ∀ u, (effect u).ledger = u.ledger) {l : List Area} (hruns : Runs l s (exec c s)) :
    leads c s fun t => onlyChanges l s t ∧ answered s t ring d (cringOf d.d0) 0 stOk 0 0 ∧
      (∃ u, u.ports = s.ports ∧ u.boot = s.boot ∧ t.ports = (effect u).ports) ∧
      ∃ e, t.ledger.queue = enqueueChange s e ∧ e.kind = 0x16 ∧ e.target = BitVec.ofNat 64 (0x8000 + pg) := by
  refine leads_runs (leads_accepted hadm hexec rfl rfl fun u t hu ht => ?_) hruns
  rw [hbody u hu.boot, groupDone] at ht
  obtain ⟨e, hqueue, hkind, -, -, htarget, -, -⟩ := recordRaw_entry u oHost (acceptNow s ring.toNat d.d0 0).ring 0x16 (0x8000 + pg) 0 0
  refine ⟨ht.answered (answered_completeTo _ _ _), ⟨_, ?_, ?_, ht.ports.trans (complete_ringStep _ _ _ _ _ _).ports⟩, e, ?_, hkind, htarget⟩
  · exact hu.ports
  · exact hu.boot
  · rw [ht.ledger, (complete_ringStep _ _ _ _ _ _).ledger, heffect, hqueue, enqueueChange, recentOf, hu.ledger, hu.now, ← recentOf,
      ← enqueueChange]

theorem leads_linkDown (hs : canon {} s.ports = true) (hpg : hasPg s (fld d.d1 3 0) = true)
    (hadm : admitted s ring d 0x40 (cringOf d.d0) none) : leads (.linkDown ring d) s fun t =>
      onlyChanges [.host, .stats, .ports, .lanes, .stalled, .reorder, .tandem, .dropping, .intake, .ledger, .fresh] s t ∧
      answered s t ring d (cringOf d.d0) 0 stOk 0 0 ∧
      (∀ j < 32, (portAt s (32 * fld d.d1 3 0 + j)).conf = true → TakenDown t (32 * fld d.d1 3 0 + j)) ∧
      ∃ e, t.ledger.queue = enqueueChange s e ∧ e.kind = 0x16 ∧ e.target = BitVec.ofNat 64 (0x8000 + fld d.d1 3 0) := by
  refine (leads_group (effect := fun s => (List.range 32).foldl (groupPortDown (fld d.d1 3 0)) s) hadm rfl (fun u hu => if_neg ?_) (fun u => ?_)
    execLinkDown_moves).imp fun t ⟨ht, honly, hanswered, ⟨u, huports, huboot, hports⟩, hentry⟩ => ⟨ht, honly, hanswered, fun j hj hconf => ?_, hentry⟩
  · rw [hasPg_of_boot hu, hpg]
    decide
  · have hmoves : Moves [.host, .stats, .ports, .lanes, .stalled, .reorder, .tandem, .dropping, .intake, .fresh] u
        ((List.range 32).foldl (groupPortDown (fld d.d1 3 0)) u) :=
      foldl_moves (Moves.refl _ u) fun r j hr =>
        ite_moves (fun _ => toQuiet_moves (widen_moves (fenceDown_moves hr rfl) rfl) rfl) fun _ => hr
    exact hmoves.only .ledger (by decide)
  · have hport (p : Nat) : portAt u p = portAt s p := by rw [portAt, huports, ← portAt]
    have hdown := groupDown_down (pg := fld d.d1 3 0) (by rw [huports]; exact hs) j hj (by rw [hport]; exact hconf)
    rwa [TakenDown, portAt, hports, ← portAt, ← TakenDown]

theorem exec_linkUp (hsteward : s.boot.steward = true) : exec (.linkUp ring d) s =
    .next (accept s ring d 0x41 none 0 (cringOf d.d0) fun a s =>
      if !hasPg s (fld d.d1 3 0) || !bit s.boot.ready.toNat (fld d.d1 3 0) then complete s a stRefused
      else groupDone (fld d.d1 3 0) a (fun s => (openGroup s (fld d.d1 3 0)).1) s) :=
  congrArg Host.Outcome.next (if_neg (by rw [hsteward]; decide))

theorem leads_linkUp (hs : canon {} s.ports = true) (hpg : hasPg s (fld d.d1 3 0) = true) (hsteward : s.boot.steward = true)
    (hready : bit s.boot.ready.toNat (fld d.d1 3 0) = true) (hadm : admitted s ring d 0x41 (cringOf d.d0) none)
    (hfault : planFault s (fld d.d1 3 0) = none) : leads (.linkUp ring d) s fun t =>
      onlyChanges [.host, .stats, .ports, .lanes, .stalled, .reorder, .tandem, .dropping, .intake, .ledger, .fresh] s t ∧
      answered s t ring d (cringOf d.d0) 0 stOk 0 0 ∧
      (∀ j < 32, AsPlanned (sget 0 s.boot.planWords (32 * fld d.d1 3 0 + j)) (portAt t (32 * fld d.d1 3 0 + j))) ∧
      ∃ e, t.ledger.queue = enqueueChange s e ∧ e.kind = 0x16 ∧ e.target = BitVec.ofNat 64 (0x8000 + fld d.d1 3 0) := by
  refine (leads_group (effect := fun s => raiseGroup s (fld d.d1 3 0)) hadm (exec_linkUp hsteward)
    (fun u hu => ?_) (fun u => (raiseGroup_moves (Moves.refl
      [.host, .stats, .ports, .lanes, .stalled, .reorder, .tandem, .dropping, .intake, .fresh] u) rfl).only .ledger (by decide))
    execLinkUp_moves).imp fun t ⟨ht, honly, hanswered, ⟨u, huports, huboot, hports⟩, hentry⟩ => ⟨ht, honly, hanswered, fun j hj => ?_, hentry⟩
  · refine (if_neg (by rw [hasPg_of_boot hu, hpg, hu, hready]; decide)).trans ?_
    rw [groupDone, openGroup, planFault_of_boot (s := s) (u := recordRaw u oHost (acceptNow s ring.toNat d.d0 0).ring 0x16
      (0x8000 + fld d.d1 3 0) 0 0) hu, hfault]
    exact rfl
  · have hplanned := raiseGroup_planned (pg := fld d.d1 3 0) (s := u) (by rw [huports]; exact hs) j hj
    rwa [huboot, portAt, ← hports, ← portAt] at hplanned

end Groups

/-! ### Link-up (08 R236, R238, R239) -/

section LinkUp

variable {s : State} {port : BitVec 9} {p : Nat}

theorem portAt_modLink (hs : canon {} s.ports = true) (p : Nat) (f : Link → Link) :
    portAt (modLink s p f) p = { portAt s p with link := f (portAt s p).link } := by
  rw [modLink, modPort, portAt_setPort _ _ _ _ hs, if_pos rfl]

theorem portAt_of_ports {t : State} (h : t.ports = s.ports) (p : Nat) : portAt t p = portAt s p := by rw [portAt, h, ← portAt]

theorem link_linkTo {t : State} (hs : canon {} s.ports = true) (hports : t.ports = s.ports) (hnow : t.now = s.now) (p : Nat) (st : LinkSt) :
    (portAt (linkTo t p st) p).link = { (portAt s p).link with st := st, since := s.now } := by
  rw [linkTo, portAt_modLink (by rw [hports]; exact hs), portAt_of_ports hports, hnow]

theorem exec_linkStateEnd (hconf : (portAt s port.toNat).conf = true) (hsteward : s.boot.steward = true) (byLimit : Bool) :
    exec (.linkStateEnd port byLimit) s = .next (match (portAt s port.toNat).link.st with
      | .quiet =>
        if s.now < (portAt s port.toNat).link.since + 1024 || s.boot.allIdle then s
        else linkTo (freshLanes s (planLanes port.toNat (portAt s port.toNat).plan)) port.toNat .train
      | .train =>
        let want := (portAt s port.toNat).lanes.filter (laneEn s)
        let locked := want.filter fun l => (laneAt s l).lock && (laneAt s l).rxScr.isSome
        if (if byLimit then decide (s.now ≥ (portAt s port.toNat).link.since + 20000) else decide (want.length = locked.length ∧ want ≠ [])) then
          if locked.isEmpty then attemptFails s port.toNat
          else linkTo (countAnew (((portAt s port.toNat).lanes.filter fun l => !locked.contains l).foldl
            (fun s l => setLane s l { laneAt s l with bad := true }) s) (portAt s port.toNat).lanes) port.toNat .identify
        else s
      | .identify =>
        if (if byLimit then decide (s.now ≥ (portAt s port.toNat).link.since + 1930)
            else ((portAt s port.toNat).lanes.filter fun l => !(laneAt s l).bad).all fun l => decide ((laneAt s l).goodRots ≥ 2)) then
          identifyEnds s port.toNat
        else s
      | .measure => measureEnds s port.toNat byLimit
      | .check => if byLimit && decide (s.now ≥ (portAt s port.toNat).link.since + 640 + (portAt s port.toNat).link.delay) then
          checkEnds s port.toNat else s
      | _ => s) := by
  change Host.Outcome.next (if !(portAt s port.toNat).conf || !s.boot.steward then s else _) = _
  rw [hconf, hsteward]
  exact rfl

/-- QUIET ends after 1,024 cycles. -/
theorem leads_quietEnds (hs : canon {} s.ports = true) (hconf : (portAt s port.toNat).conf = true) (hsteward : s.boot.steward = true)
    (hst : (portAt s port.toNat).link.st = .quiet) (hsince : (portAt s port.toNat).link.since + 1024 ≤ s.now) (hidle : s.boot.allIdle = false)
    (byLimit : Bool) : leads (.linkStateEnd port byLimit) s fun t => onlyChanges [.ports, .lanes] s t ∧
      (portAt t port.toNat).link = { (portAt s port.toNat).link with st := .train, since := s.now } := by
  have hexec : exec (.linkStateEnd port byLimit) s =
      .next (linkTo (freshLanes s (planLanes port.toNat (portAt s port.toNat).plan)) port.toNat .train) := by
    rw [exec_linkStateEnd hconf hsteward, hst]
    exact congrArg Host.Outcome.next (if_neg (by simp [hidle]; omega))
  exact ⟨_, hexec, (linkTo_moves (freshLanes_moves (Moves.refl [.ports, .lanes] s) rfl) rfl).only,
    link_linkTo hs (freshLanes_ports _ _) (freshLanes_now _ _) _ _⟩

/-- Lanes taken for bad. -/
def markedBad (s : State) (ls : List Nat) : State := ls.foldl (fun s l => setLane s l { laneAt s l with bad := true }) s

/-- A port enters IDENTIFY, some of its lanes bad. -/
def identifying (s : State) (p : Nat) (bad : List Nat) : State := linkTo (countAnew (markedBad s bad) (portAt s p).lanes) p .identify

theorem identified_moves (s : State) (bad ls : List Nat) : Moves [.ports, .lanes] s (countAnew (markedBad s bad) ls) :=
  foldl_moves (foldl_moves (Moves.refl _ s) fun _ _ h => setLane_moves h rfl) fun _ _ h => setLane_moves h rfl

theorem bad_countAnew {bad : List Nat} (hs : canon {} s.lanes = true) (ls : List Nat) {k : Nat} (hk : k ∈ bad) :
    (laneAt (countAnew (markedBad s bad) ls) k).bad = true := by
  have hmarked := foldl_setLane (P := fun v => v.bad = true) (f := fun v => { v with bad := true }) (fun _ => rfl) bad s hs
  have hcounted := LanesKeep.foldl (g := Lane.bad) (f := fun v => { v with goodRots := 0, slots := [], rotation := [], ready := false })
    (fun _ => rfl) ls _ hmarked.1
  exact (hcounted.2 k).trans (hmarked.2.2 k hk)

theorem lanes_linkTo (s : State) (p : Nat) (st : LinkSt) : (linkTo s p st).lanes = s.lanes := rfl

/-- TRAIN ends once every enabled lane has locked. -/
theorem leads_trainEnds (hmaps : mapsCanonical s) (hconf : (portAt s port.toNat).conf = true) (hsteward : s.boot.steward = true)
    (hst : (portAt s port.toNat).link.st = .train) (hwant : (portAt s port.toNat).lanes.filter (laneEn s) ≠ [])
    (hlocked : ∀ l ∈ (portAt s port.toNat).lanes, laneEn s l = true → (laneAt s l).lock = true ∧ (laneAt s l).rxScr.isSome = true)
    (byLimit : Bool) (hlimit : byLimit = true → (portAt s port.toNat).link.since + 20000 ≤ s.now) :
    leads (.linkStateEnd port byLimit) s fun t => onlyChanges [.ports, .lanes] s t ∧
      (portAt t port.toNat).link = { (portAt s port.toNat).link with st := .identify, since := s.now } ∧
      ∀ k ∈ (portAt s port.toNat).lanes, laneEn s k = false → (laneAt t k).bad = true := by
  obtain ⟨hports, hlanes, -⟩ := hmaps
  have hall : ((portAt s port.toNat).lanes.filter (laneEn s)).filter (fun l => (laneAt s l).lock && (laneAt s l).rxScr.isSome) =
      (portAt s port.toNat).lanes.filter (laneEn s) := List.filter_eq_self.2 fun l hl => by
    obtain ⟨hmem, hen⟩ := List.mem_filter.1 hl
    obtain ⟨hlock, hscr⟩ := hlocked l hmem hen
    simp [hlock, hscr]
  have hover : (if byLimit then decide (s.now ≥ (portAt s port.toNat).link.since + 20000) else
      decide (((portAt s port.toNat).lanes.filter (laneEn s)).length = ((portAt s port.toNat).lanes.filter (laneEn s)).length ∧
        (portAt s port.toNat).lanes.filter (laneEn s) ≠ [])) = true := by
    split
    next h => exact decide_eq_true (hlimit h)
    · exact decide_eq_true ⟨rfl, hwant⟩
  have hsome : ((portAt s port.toNat).lanes.filter (laneEn s)).isEmpty ≠ true := fun h => hwant (List.isEmpty_iff.1 h)
  have hexec : exec (.linkStateEnd port byLimit) s = .next (identifying s port.toNat ((portAt s port.toNat).lanes.filter fun l =>
      !((portAt s port.toNat).lanes.filter (laneEn s)).contains l)) := by
    rw [exec_linkStateEnd hconf hsteward, hst]
    dsimp only
    rw [hall, if_pos hover, if_neg hsome]
    exact rfl
  have hmoves := identified_moves s ((portAt s port.toNat).lanes.filter fun l => !((portAt s port.toNat).lanes.filter (laneEn s)).contains l)
    (portAt s port.toNat).lanes
  refine ⟨_, hexec, (linkTo_moves hmoves rfl).only, ?_, fun k hk hen => ?_⟩
  · have honly : Moves [.lanes] s (countAnew (markedBad s ((portAt s port.toNat).lanes.filter fun l =>
        !((portAt s port.toNat).lanes.filter (laneEn s)).contains l)) (portAt s port.toNat).lanes) :=
      foldl_moves (foldl_moves (Moves.refl _ s) fun _ _ h => setLane_moves h rfl) fun _ _ h => setLane_moves h rfl
    exact link_linkTo hports (honly.only .ports (by decide)) (honly.only .now (by decide)) _ _
  · rw [identifying, laneAt, lanes_linkTo, ← laneAt]
    refine bad_countAnew hlanes _ (List.mem_filter.2 ⟨hk, ?_⟩)
    simp [hen]

/-- An attempt without a locked lane has failed. -/
theorem leads_trainFails (hs : canon {} s.ports = true) (hconf : (portAt s port.toNat).conf = true) (hsteward : s.boot.steward = true)
    (hst : (portAt s port.toNat).link.st = .train) (hdeg : (portAt s port.toNat).link.degrading = false)
    (hsince : (portAt s port.toNat).link.since + 20000 ≤ s.now) (hlock : ∀ l ∈ (portAt s port.toNat).lanes, (laneAt s l).lock = false) :
    leads (.linkStateEnd port true) s fun t =>
      onlyChanges [.ports, .lanes] s t ∧ (portAt t port.toNat).link.attempts = (portAt s port.toNat).link.attempts + 1 ∧
      (portAt t port.toNat).link.st = if (portAt s port.toNat).link.attempts + 1 ≥ 8 then .down else .quiet := by
  have hnone : ((portAt s port.toNat).lanes.filter (laneEn s)).filter (fun l => (laneAt s l).lock && (laneAt s l).rxScr.isSome) = [] :=
    List.filter_eq_nil_iff.2 fun l hl => by simp [hlock l (List.mem_filter.1 hl).1]
  have hexec : exec (.linkStateEnd port true) s = .next (toQuiet s port.toNat ((portAt s port.toNat).link.attempts + 1)
      (if (portAt s port.toNat).link.attempts + 1 ≥ 8 then .down else .quiet)) := by
    rw [exec_linkStateEnd hconf hsteward, hst]
    dsimp only
    rw [hnone]
    refine congrArg Host.Outcome.next ((if_pos (decide_eq_true hsince)).trans ((if_pos rfl).trans ?_))
    rw [attemptFails, hdeg]
    exact rfl
  refine ⟨_, hexec, (toQuiet_moves (Moves.refl [.ports, .lanes] s) rfl).only, ?_⟩
  rw [portAt_toQuiet hs, if_pos rfl]
  exact ⟨rfl, rfl⟩

/-- MEASURE ends when four echoes agree. -/
theorem leads_measureEnds (hs : canon {} s.ports = true) (hconf : (portAt s port.toNat).conf = true) (hsteward : s.boot.steward = true)
    (hst : (portAt s port.toNat).link.st = .measure) {a b c d : Int} (hechoes : (portAt s port.toNat).link.echoes = [a, b, c, d])
    (hplan : cyclesOf (halfUp a.toNat) ≤ planMaxDelay (portAt s port.toNat).plan) (hmax : cyclesOf (halfUp a.toNat) ≤ 2000) (byLimit : Bool) :
    leads (.linkStateEnd port byLimit) s fun t => onlyChanges [.ports] s t ∧ (portAt t port.toNat).link =
      { (portAt s port.toNat).link with st := .check, since := s.now, rtt := a.toNat, delaySym := halfUp a.toNat,
                                        delay := cyclesOf (halfUp a.toNat) } := by
  have hport := portAt_modLink hs port.toNat fun l =>
    { l with rtt := a.toNat, delaySym := halfUp a.toNat, delay := cyclesOf (halfUp a.toNat) }
  have hexec : exec (.linkStateEnd port byLimit) s = .next (linkTo (modLink s port.toNat fun l =>
      { l with rtt := a.toNat, delaySym := halfUp a.toNat, delay := cyclesOf (halfUp a.toNat) }) port.toNat .check) := by
    rw [exec_linkStateEnd hconf hsteward, hst]
    refine congrArg Host.Outcome.next ?_
    dsimp only
    rw [measureEnds, hechoes]
    refine (if_pos (by simp)).trans (if_neg ?_)
    rw [show [a, b, c, d].headD 0 = a from rfl, hport]
    simp only [not_or, Nat.not_lt]
    exact ⟨hplan, hmax⟩
  refine ⟨_, hexec, (linkTo_moves (modLink_moves (Moves.refl [.ports] s) rfl) rfl).only, ?_⟩
  rw [linkTo, portAt_modLink (canon_sput hs), hport]
  exact rfl

/-! #### A good rotation in CHECK (08 R248, R249) -/

theorem wiringFault_congr {t : State} (hlanes : t.lanes = s.lanes) (hboot : t.boot = s.boot) (hplan : (portAt t p).plan = (portAt s p).plan)
    (hports : (portAt t p).lanes = (portAt s p).lanes) (ls : List Nat) : wiringFault t p ls = wiringFault s p ls := by
  have hlane (l : Nat) : laneAt t l = laneAt s l := by rw [laneAt, hlanes, ← laneAt]
  have hsender (l : Nat) : senderPort t l = senderPort s l := by simp only [senderPort, rotNum, rotByte, hlane]
  simp only [wiringFault, rotNum, rotByte, hlane, hsender, hboot, hplan, hports]
  exact rfl

theorem compareRotation_congr {t : State} (htables : t.tables = s.tables) (htick : t.tick = s.tick) (hboot : t.boot = s.boot)
    (hplan : (portAt t p).plan = (portAt s p).plan) (hlink : (portAt t p).link = { (portAt s p).link with pbFails := n }) :
    compareRotation t p = compareRotation s p := by
  simp only [compareRotation, tickNear, tickAt, tickLen, htables, htick, hboot, hplan, hlink]
  exact rfl

/-- The neighbour's rotation kept, as read from a lane. -/
def nbrKept (s : State) (p lane : Nat) : State := modLink s p fun l => { l with nbr := (laneAt s lane).rotation, pbFails := 0 }

/-- The delays of both ends compared: an event when they differ by more than a cycle. -/
def delayCompared (s : State) (p : Nat) : State :=
  if nbrNum (portAt s p).link 18 2 > (portAt s p).link.delay + 1 ∨ (portAt s p).link.delay > nbrNum (portAt s p).link 18 2 + 1 then
    postEvent s (srcPg (pgOf p)) 0x27 0 p (nbrNum (portAt s p).link 18 2) (portAt s p).link.delay
  else s

/-- What a link learns of a compared rotation, and the verdict that is due. -/
def rotationLearnt (s : State) (k : Nat) (old l : Link) : Link :=
  addDue { l with
    tickWrong := false,
    agreeTick := if (match l.agreeTick with | some x => begunAtTick old.nbrTick x | none => false) then none else l.agreeTick,
    refuseTick := if (match l.refuseTick with | some x => begunAtTick old.nbrTick x | none => false) then none else l.refuseTick,
    nbrUp := l.nbrUp || bits (nbrByte old 21) 7 5 == 3 || bits (nbrByte old 21) 7 5 == 4 || bits (nbrByte old 21) 7 5 == 5 } s.now (.state k)

theorem delayCompared_eventStep (s : State) (p : Nat) : EventStep s (delayCompared s p) := by
  unfold delayCompared
  split
  · exact postEvent_eventStep _ _ _ _ _ _ _ _
  · exact .refl s

theorem settleCred_portsKeep {β : Type} {g : Port → β} (hg : OffQueues g) (s : State) (p : Nat) : PortsKeep g s (settleCred s p) :=
  modQ_portsKeep hg s p _

theorem goodRotation_check {lane : Nat} {rest : List Nat} (hs : canon {} s.ports = true) (hst : (portAt s p).link.st = .check)
    (hlanes : (portAt s p).lanes = lane :: rest) (hgood : (laneAt s lane).bad = false) (hwiring : wiringFault s p (lane :: rest) = none) :
    goodRotation s p = modLink (settleCred (delayCompared (nbrKept s p lane) p) p) p
      (rotationLearnt (settleCred (delayCompared (nbrKept s p lane) p) p) (compareRotation (delayCompared (nbrKept s p lane) p) p)
        (portAt (nbrKept s p lane) p).link) := by
  have hlane : ((portAt s p).lanes.find? fun l => !(laneAt s l).bad).getD p = lane := by
    rw [hlanes, List.find?_cons_of_pos (by simp [hgood])]
    exact rfl
  have hport : portAt (nbrKept s p lane) p = { portAt s p with link := { (portAt s p).link with nbr := (laneAt s lane).rotation, pbFails := 0 } } :=
    portAt_modLink hs p _
  have hwiring' : wiringFault (nbrKept s p lane) p (portAt s p).lanes = none := by
    rw [wiringFault_congr (s := s) (t := nbrKept s p lane) rfl rfl (by rw [hport]) (by rw [hport]), hlanes]
    exact hwiring
  have hcheck : (portAt (nbrKept s p lane) p).link.st = .check := by rw [hport]; exact hst
  unfold goodRotation
  dsimp only
  rw [hlane]
  generalize hr : nbrKept s p lane = r at *
  unfold nbrKept at hr
  rw [hr, hwiring', hcheck]
  dsimp only
  cases roundTrip (portAt r p).link with
  | none => exact rfl
  | some x =>
    dsimp only
    simp only [ne_eq, not_true, false_and, if_false]
    exact rfl

/-- A good rotation of every lane of a port in CHECK is compared; what it gives is due next. -/
theorem link_goodRotation {lane : Nat} {rest : List Nat} (hs : canon {} s.ports = true) (hst : (portAt s p).link.st = .check)
    (hlanes : (portAt s p).lanes = lane :: rest) (hgood : (laneAt s lane).bad = false) (hwiring : wiringFault s p (lane :: rest) = none) :
    (portAt (goodRotation s p) p).link.nbr = (laneAt s lane).rotation ∧
    (portAt (goodRotation s p) p).link.due = (portAt s p).link.due ++
      [(s.now, .state (compareRotation (modLink s p fun l => { l with nbr := (laneAt s lane).rotation }) p))] := by
  have hkept := portAt_modLink hs p fun l => { l with nbr := (laneAt s lane).rotation, pbFails := 0 }
  have hnbr := portAt_modLink hs p fun l => { l with nbr := (laneAt s lane).rotation }
  have hevent := delayCompared_eventStep (nbrKept s p lane) p
  have hcompare : compareRotation (delayCompared (nbrKept s p lane) p) p =
      compareRotation (modLink s p fun l => { l with nbr := (laneAt s lane).rotation }) p :=
    compareRotation_congr (n := 0) hevent.tables hevent.tick hevent.boot (by rw [hevent.portAt, nbrKept, hkept, hnbr])
      (by rw [hevent.portAt, nbrKept, hkept, hnbr])
  obtain ⟨hcanon, hsettled⟩ := settleCred_portsKeep (g := Port.link) ⟨fun _ _ => rfl, fun _ _ => rfl⟩
    (delayCompared (nbrKept s p lane) p) p (by rw [hevent.ports]; exact canon_sput hs)
  have hnow : (settleCred (delayCompared (nbrKept s p lane) p) p).now = s.now := hevent.now
  have hlink : (portAt (settleCred (delayCompared (nbrKept s p lane) p) p) p).link =
      { (portAt s p).link with nbr := (laneAt s lane).rotation, pbFails := 0 } := by
    rw [hsettled, hevent.portAt, nbrKept, hkept]
  rw [goodRotation_check hs hst hlanes hgood hwiring, portAt_modLink hcanon, hcompare, rotationLearnt, hlink, hnow]
  exact ⟨rfl, rfl⟩

theorem goodRotation_lanes (s : State) (p : Nat) : (goodRotation s p).lanes = s.lanes :=
  (goodRotation_moves (Moves.refl [.host, .stats, .ports, .fresh] s) rfl).only .lanes (by decide)

theorem leads_checkRotation {lane : Nat} {rest : List Nat} (hmaps : mapsCanonical s) (hconf : (portAt s port.toNat).conf = true)
    (hst : (portAt s port.toNat).link.st = .check) (hlanes : (portAt s port.toNat).lanes = lane :: rest)
    (hgood : ∀ l ∈ lane :: rest, (laneAt s l).bad = false ∧ (laneAt s l).ready = true ∧ (laneAt s l).bookOk = true)
    (hwiring : wiringFault s port.toNat (lane :: rest) = none) {bsn : BitVec 12} {arrival : Nat}
    (hlast : (portAt s port.toNat).link.lastIn = some (bsn, arrival)) :
    leads (.passbookRotation port bsn arrival) s fun t => onlyChanges [.host, .stats, .ports, .lanes, .fresh] s t ∧
      (portAt t port.toNat).link.nbr = (laneAt s lane).rotation ∧
      (portAt t port.toNat).link.due = (portAt s port.toNat).link.due ++
        [(s.now, .state (compareRotation (modLink s port.toNat fun l => { l with nbr := (laneAt s lane).rotation }) port.toNat))] ∧
      ∀ l ∈ lane :: rest, (laneAt t l).ready = false := by
  obtain ⟨hports, hcanon, -⟩ := hmaps
  have hall : (portAt s port.toNat).lanes.filter (fun l => !(laneAt s l).bad) = lane :: rest := by
    rw [hlanes, List.filter_eq_self.2 fun l hl => by simp [(hgood l hl).1]]
  have hready : (lane :: rest).all (fun l => (laneAt s l).ready) = true := List.all_eq_true.2 fun l hl => (hgood l hl).2.1
  have hbook : (lane :: rest).all (fun l => (laneAt s l).bookOk) = true := List.all_eq_true.2 fun l hl => (hgood l hl).2.2
  have hexec : exec (.passbookRotation port bsn arrival) s = .next
      ((lane :: rest).foldl (fun s l => setLane s l { laneAt s l with ready := false }) (goodRotation s port.toNat)) := by
    change Host.Outcome.next (if !(portAt s port.toNat).conf || !sends (portAt s port.toNat).link.st ||
      ((portAt s port.toNat).lanes.filter fun l => !(laneAt s l).bad).isEmpty ||
      !(((portAt s port.toNat).lanes.filter fun l => !(laneAt s l).bad).all fun l => (laneAt s l).ready) ||
      (portAt s port.toNat).link.lastIn != some (bsn, arrival) then s else
        (((portAt s port.toNat).lanes.filter fun l => !(laneAt s l).bad).foldl (fun s l => setLane s l { laneAt s l with ready := false })
          (if (((portAt s port.toNat).lanes.filter fun l => !(laneAt s l).bad).all fun l => (laneAt s l).bookOk) = true then
            goodRotation s port.toNat else _))) = _
    rw [hall, hconf, hst, hready, hlast, if_neg (by simp [sends]), if_pos hbook]
  have hlanesKept : canon {} (goodRotation s port.toNat).lanes = true := by rw [goodRotation_lanes]; exact hcanon
  obtain ⟨hnbr, hdue⟩ := link_goodRotation hports hst hlanes (hgood lane (by simp)).1 hwiring
  have hcleared := foldl_setLane (P := fun v => v.ready = false) (f := fun v => { v with ready := false }) (fun _ => rfl) (lane :: rest)
    (goodRotation s port.toNat) hlanesKept
  have hmoves : Moves [.lanes] (goodRotation s port.toNat)
      ((lane :: rest).foldl (fun s l => setLane s l { laneAt s l with ready := false }) (goodRotation s port.toNat)) :=
    foldl_moves (Moves.refl _ _) fun _ _ h => setLane_moves h rfl
  refine leads_moves hexec execPassbookRotation_moves ⟨?_, ?_, hcleared.2.2⟩
  · rw [portAt_of_ports (hmoves.only .ports (by decide)), hnbr]
  · rw [portAt_of_ports (hmoves.only .ports (by decide)), hdue]

/-! #### The verdict of a comparison (08 R249; 10 R294) -/

/-- The link of a port whose CHECK ends in a state. -/
def linkEntered (now : Nat) (new : LinkSt) (l : Link) : Link :=
  { l with st := new, since := if new = l.st then l.since else now, degrading := l.degrading && false, attempts := 0, fencedAt := none }

/-- The neighbour's full allotment held, and the port by which a tick may first have come from the root. -/
def creditFilled (s : State) (p : Nat) : State :=
  if s.tick.state == 2 && s.tick.rootFirst.isNone then
    { modQ s p fun q => { q with credit := fullCredit (portAt s p).link } with
      tick := { s.tick with rootFirst := some (if (portAt s p).link.nbrTstate = 1 then some p else none) } }
  else modQ s p fun q => { q with credit := fullCredit (portAt s p).link }

/-- A state other than CHECK is told. -/
def stateTold (s : State) (p : Nat) (new : LinkSt) : State :=
  if new = .check then s
  else if new = .refused then noteState s (srcPg (pgOf p)) 6 p
  else if new = .quarantine then noteState s (srcPg (pgOf p)) 5 p
  else s

theorem stateTold_eventStep (s : State) (p : Nat) (new : LinkSt) : EventStep s (stateTold s p new) := by
  unfold stateTold
  split
  · exact .refl s
  · split
    · exact noteState_eventStep _ _ _ _
    · split
      · exact noteState_eventStep _ _ _ _
      · exact .refl s

theorem creditFilled_ports (s : State) (p : Nat) :
    (creditFilled s p).ports = (modQ s p fun q => { q with credit := fullCredit (portAt s p).link }).ports := by
  unfold creditFilled
  split <;> exact rfl

theorem enterState_check (s : State) (hst : (portAt s p).link.st = .check) (k : Nat) : enterState s p k =
    stateTold (modLink (creditFilled s p) p (linkEntered (creditFilled s p).now (rowState k))) p (rowState k) := by
  unfold enterState
  dsimp only
  rw [hst]
  exact rfl

/-- A port after the verdict on its rotation. -/
theorem portAt_enterState (hs : canon {} s.ports = true) (hst : (portAt s p).link.st = .check) (k : Nat) :
    (portAt (enterState s p k) p).link.st = rowState k ∧ (portAt (enterState s p k) p).link.due = (portAt s p).link.due ∧
    (portAt (enterState s p k) p).q.credit = fullCredit (portAt s p).link := by
  have hports := creditFilled_ports s p
  rw [enterState_check s hst k, (stateTold_eventStep _ _ _).portAt]
  generalize creditFilled s p = r at hports
  have hr : portAt r p = { portAt s p with q := { (portAt s p).q with credit := fullCredit (portAt s p).link } } := by
    rw [portAt, hports, ← portAt, modQ, modPort, portAt_setPort _ _ _ _ hs, if_pos rfl]
  rw [portAt_modLink (by rw [hports]; exact canon_sput hs), hr]
  exact ⟨rfl, rfl, rfl⟩

theorem applyDue_check (hs : canon {} s.ports = true) (hsteward : s.boot.steward = true) (hst : (portAt s p).link.st = .check) {c k : Nat}
    (hdue : (portAt s p).link.due = [(c, .state k)]) (hc : c < s.now) :
    (portAt (applyDue s p) p).link.st = rowState k ∧ (portAt (applyDue s p) p).link.due = [] ∧
    (portAt (applyDue s p) p).q.credit = fullCredit (portAt s p).link := by
  have hport := portAt_modLink hs p fun l => { l with due := l.due.filter fun e => decide (e.1 ≥ s.now) }
  have hcleared : ([(c, Verdict.state k)].filter fun e => decide (e.1 ≥ s.now)) = [] := by simp [Nat.not_le.2 hc]
  have happlied : applyDue s p = enterState (modLink s p fun l => { l with due := l.due.filter fun e => decide (e.1 ≥ s.now) }) p k := by
    unfold applyDue
    dsimp only
    rw [hdue, show ([(c, Verdict.state k)].filter fun e => decide (e.1 < s.now)) = [(c, Verdict.state k)] by simp [hc]]
    exact if_pos (Or.inl ⟨by rw [hport]; exact hst, hsteward⟩)
  obtain ⟨hnew, hleft, hcredit⟩ := portAt_enterState (s := modLink s p fun l => { l with due := l.due.filter fun e => decide (e.1 ≥ s.now) })
    (canon_sput hs) (by rw [hport]; exact hst) k
  rw [happlied]
  refine ⟨hnew, hleft.trans ?_, hcredit.trans ?_⟩
  · rw [hport, hdue]
    exact hcleared
  · rw [hport]
    exact rfl

end LinkUp

/-! ### Ports that lose their lanes (08 R230, R246, R247) -/

section Loss

variable {s : State} {port lane : BitVec 9} {p k : Nat}

theorem leads_degradeTimeout (hs : canon {} s.ports = true) {c : Nat} (hfenced : (portAt s port.toNat).link.fencedAt = some c)
    (hdeg : (portAt s port.toNat).link.degrading = true) (hc : c + 65536 ≤ s.now) : leads (.degradeTimeout port) s fun t =>
      onlyChanges [.host, .stats, .ports, .lanes, .stalled, .reorder, .tandem, .dropping, .intake, .fresh] s t ∧
      (portAt t port.toNat).link.st = .quiet ∧ (portAt t port.toNat).link.degrading = false ∧ (portAt t port.toNat).q.queue = [] ∧
      (portAt t port.toNat).lanes = (portAt s port.toNat).lanes := by
  have hexec : exec (.degradeTimeout port) s = .next (portDown s port.toNat) := by
    change Host.Outcome.next (match (portAt s port.toNat).link.fencedAt with
      | some t => if (portAt s port.toNat).link.degrading && decide (s.now ≥ t + 65536) then portDown s port.toNat else s
      | none => s) = _
    rw [hfenced, hdeg]
    exact congrArg Host.Outcome.next (if_pos (decide_eq_true hc))
  exact leads_moves hexec execDegradeTimeout_moves (portDown_down hs)

/-- What a change leaves of the lock of a lane that has none, and of the status bits. -/
structure LossStep (k : Nat) (s t : State) : Prop where
  lock : canon {} s.lanes = true → (laneAt s k).lock = false → canon {} t.lanes = true ∧ (laneAt t k).lock = false
  bits : BitsStay s t

theorem LossStep.trans {t u : State} (h : LossStep k s t) (g : LossStep k t u) : LossStep k s u :=
  ⟨fun hs hk => g.lock (h.lock hs hk).1 (h.lock hs hk).2, fun src b hb => g.bits src b (h.bits src b hb)⟩

theorem LossStep.of_same {t : State} (hlanes : t.lanes = s.lanes) (hstats : t.stats = s.stats) : LossStep k s t :=
  ⟨fun hs hk => by rw [laneAt, hlanes, ← laneAt]; exact ⟨hs, hk⟩, fun src b hb => by rwa [statAt, hstats, ← statAt]⟩

theorem LossStep.of_event {t : State} (h : EventStep s t) : LossStep k s t :=
  ⟨fun hs hk => by rw [laneAt, h.lanes, ← laneAt]; exact ⟨hs, hk⟩, h.bits⟩

theorem LossStep.foldl {α : Type} {f : State → α → State} (hf : ∀ s x, LossStep k s (f s x)) (l : List α) (s : State) :
    LossStep k s (l.foldl f s) := by
  induction l generalizing s with
  | nil => exact .of_same rfl rfl
  | cons x l ih => exact (hf s x).trans (ih _)

/-- A change of other areas is such a step. -/
theorem LossStep.of_moves {t : State} {l : List Area} (h : Moves l s t) (hlanes : Area.lanes ∉ l) (hstats : Area.stats ∉ l) : LossStep k s t :=
  .of_same (h.only .lanes hlanes) (h.only .stats hstats)

theorem LossStep.of_lock {f : State → Nat → State} {g : Lane → Lane} (hf : ∀ s l, f s l = setLane s l (g (laneAt s l)))
    (hg : ∀ v, v.lock = false → (g v).lock = false) (ls : List Nat) (s : State) : LossStep k s (ls.foldl f s) :=
  .foldl (fun r l => by
    rw [hf]
    refine ⟨fun hr hk => ⟨canon_sput hr, ?_⟩, fun _ _ hb => hb⟩
    rw [laneAt_setLane _ _ _ _ hr]
    split
    next h => exact hg _ (h ▸ hk)
    · exact hk) ls s

theorem freshLanes_lossStep (s : State) (ls : List Nat) : LossStep k s (freshLanes s ls) :=
  .of_lock (g := fun v => { txScr := v.txScr, book := v.book, sent := v.sent, wire := v.wire }) (fun _ _ => rfl) (fun _ _ => rfl) ls s

theorem silence_lossStep (s : State) (ls : List Nat) : LossStep k s (silence s ls) :=
  .of_lock (g := fun v => { v with sent := 0, wire := 0 }) (fun _ _ => rfl) (fun _ h => h) ls s

theorem countAnew_lossStep (s : State) (ls : List Nat) : LossStep k s (countAnew s ls) :=
  .of_lock (g := fun v => { v with goodRots := 0, slots := [], rotation := [], ready := false }) (fun _ _ => rfl) (fun _ h => h) ls s

theorem recordRaw_lossStep (s : State) (origin id kind target old new : Nat) : LossStep k s (recordRaw s origin id kind target old new) :=
  .of_moves (recordRaw_moves (origin := origin) (id := id) (kind := kind) (target := target) (old := old) (new := new)
    (Moves.refl [.ledger] s) rfl) (by decide) (by decide)

theorem laneKickLost_lossStep (s : State) (p : Nat) : LossStep k s (laneKickLost s p) := by
  unfold laneKickLost
  split
  · exact (LossStep.of_same (s := s) (t := countPort s p cKickLost 1) rfl rfl).trans (.of_event (setCause_eventStep _ _ _ _ _ _ _ _))
  · exact .of_same rfl rfl

theorem loseKicks_lossStep (s : State) (p : Nat) : LossStep k s (loseKicks s p) :=
  (LossStep.of_same (s := s) (t := modKick s p fun k => { k with pending := [] }) rfl rfl).trans
    (.foldl (fun r _ => (LossStep.of_same (s := r) (t := countPort r p cKickLost 1) rfl rfl).trans (.of_event (setCause_eventStep _ _ _ _ _ _ _ _))) _ _)

theorem fenceDown_lossStep (s : State) (p : Nat) : LossStep k s (fenceDown s p) := by
  rw [fenceDown_eq]
  generalize hlost : laneKickLost s p = a
  have hcut : Moves [.ports, .stalled, .reorder, .tandem, .dropping, .intake] a (cutInput (loseLane (flushQueue a p) p) p) :=
    cutInput_moves (loseLane_moves (flushQueue_moves (Moves.refl _ a) rfl) rfl) rfl
  exact (hlost ▸ laneKickLost_lossStep s p).trans ((LossStep.of_moves hcut (by decide) (by decide)).trans
    ((loseKicks_lossStep _ p).trans (.of_same rfl rfl)))

theorem toQuiet_lossStep (s : State) (p n : Nat) (st : LinkSt) : LossStep k s (toQuiet s p n st) := by
  unfold toQuiet
  exact ((freshLanes_lossStep s _).trans (silence_lossStep _ _)).trans (.of_same rfl rfl)

theorem portDown_lossStep (s : State) (p : Nat) : LossStep k s (portDown s p) := (fenceDown_lossStep s p).trans (toQuiet_lossStep _ p 0 .quiet)

theorem narrow_lossStep (s : State) (p base v : Nat) (st : LinkSt) : LossStep k s (narrow s p base v st) := by
  unfold narrow
  dsimp only
  refine LossStep.trans (t := setCause (countPort s p cDegrade 1) (srcPg (pgOf p)) 3 p 0 ((portAt s p).lanes.length + v * 256)) ?_ ?_
  · exact (LossStep.of_same (s := s) (t := countPort s p cDegrade 1) rfl rfl).trans (.of_event (setCause_eventStep _ _ _ _ _ _ _ _))
  · exact (recordRaw_lossStep _ _ _ _ _ _ _).trans ((countAnew_lossStep _ _).trans ((silence_lossStep _ _).trans (.of_same rfl rfl)))

theorem portLoss_lossStep (s : State) (p : Nat) : LossStep k s (portLoss s p) := by
  unfold portLoss
  dsimp only
  generalize (if (planDegrade (portAt s p).plan && !(portAt s p).link.degrading) = true then _ else _) = sub
  rcases sub with _ | ⟨base, v⟩
  · exact portDown_lossStep s p
  · have hcut : Moves [.ports, .reorder, .tandem, .dropping, .intake] s (cutInput (loseLane (keepKick s p) p) p) :=
      cutInput_moves (loseLane_moves (keepKick_moves (Moves.refl _ s) rfl) rfl) rfl
    exact (LossStep.of_moves hcut (by decide) (by decide)).trans ((narrow_lossStep _ p base v .identify).trans (.of_same rfl rfl))

/-- The cause of a lost lock, before what it brings about. -/
def lockCaused (s : State) (p : Nat) : State := setCause (countPort s p cLockLoss 1) (srcPg (pgOf p)) 2 p

theorem lockCaused_calms (s : State) (p : Nat) : Calms s (lockCaused s p) :=
  (countPort_calms s p cLockLoss 1).trans (.of_event (setCause_eventStep _ _ _ _ _ _ _ _))

theorem lockLost_eq (s : State) (p : Nat) : lockLost s p =
    if carrying (portAt (lockCaused s p) p).link.st then portLoss (lockCaused s p) p
    else if (portAt (lockCaused s p) p).link.st = .held then portDown (lockCaused s p) p else lockCaused s p := rfl

theorem lockLost_lossStep (s : State) (p : Nat) : LossStep k (lockCaused s p) (lockLost s p) := by
  rw [lockLost_eq]
  split
  · exact portLoss_lossStep _ p
  · split
    · exact portDown_lossStep _ p
    · exact .of_same rfl rfl

theorem portLoss_whole (hplan : planDegrade (portAt s p).plan = false) : portLoss s p = portDown s p := by
  unfold portLoss
  dsimp only
  rw [hplan]
  exact rfl

/-- A lane without signal has no lock. -/
def lockCleared (s : State) (k : Nat) : State := setLane s k { laneAt s k with lock := false, goodRun := 0, rxScr := none }

theorem exec_lossOfSignal (hconf : (portAt s port.toNat).conf = true)
    (hlane : lane.toNat ∈ planLanes port.toNat (portAt s port.toNat).plan) (hlock : (laneAt s lane.toNat).lock = true) :
    exec (.lossOfSignal port lane) s = .next (if (portAt s port.toNat).lanes.contains lane.toNat then
      lockLost (lockCleared s lane.toNat) port.toNat else lockCleared s lane.toNat) := by
  refine congrArg Host.Outcome.next (if_neg ?_)
  rw [hconf, hlock, List.contains_iff_mem.2 hlane]
  decide

theorem leads_lossOfSignal (hmaps : mapsCanonical s) (hconf : (portAt s port.toNat).conf = true)
    (hlane : lane.toNat ∈ planLanes port.toNat (portAt s port.toNat).plan) (hlock : (laneAt s lane.toNat).lock = true) :
    leads (.lossOfSignal port lane) s fun t =>
      onlyChanges [.host, .stats, .ports, .lanes, .stalled, .reorder, .tandem, .dropping, .intake, .ledger, .fresh] s t ∧
      (laneAt t lane.toNat).lock = false ∧
      (lane.toNat ∈ (portAt s port.toNat).lanes → bit (statAt t (srcPg (pgOf port.toNat))).status.toNat 2 = true ∧
        (carrying (portAt s port.toNat).link.st = true → planDegrade (portAt s port.toNat).plan = false →
          (portAt t port.toNat).link.st = .quiet)) := by
  obtain ⟨hports, hlanes, -⟩ := hmaps
  have hcleared : canon {} (lockCleared s lane.toNat).lanes = true := canon_sput hlanes
  have hnone : (laneAt (lockCleared s lane.toNat) lane.toNat).lock = false := by
    rw [lockCleared, laneAt_setLane _ _ _ _ hlanes, if_pos rfl]
  have hcaused : LossStep lane.toNat (lockCleared s lane.toNat) (lockCaused (lockCleared s lane.toNat) port.toNat) :=
    (LossStep.of_same (s := lockCleared s lane.toNat) (t := countPort (lockCleared s lane.toNat) port.toNat cLockLoss 1) rfl rfl).trans
      (.of_event (setCause_eventStep _ _ _ _ _ _ _ _))
  have hlost := lockLost_lossStep (k := lane.toNat) (lockCleared s lane.toNat) port.toNat
  refine leads_moves (exec_lossOfSignal hconf hlane hlock) execLossOfSignal_moves ?_
  split
  next hmem =>
    refine ⟨((hcaused.trans hlost).lock hcleared hnone).2, fun _ => ⟨hlost.bits _ _ (bit_statAt_setCause (by decide)), fun hcarry hplan => ?_⟩⟩
    obtain ⟨hcanon, hcalm⟩ := lockCaused_calms (lockCleared s lane.toNat) port.toNat hports
    have hlink : (portAt (lockCaused (lockCleared s lane.toNat) port.toNat) port.toNat).link = (portAt s port.toNat).link := (hcalm _).link
    have hplan' : (portAt (lockCaused (lockCleared s lane.toNat) port.toNat) port.toNat).plan = (portAt s port.toNat).plan := (hcalm _).plan
    rw [lockLost_eq, hlink, if_pos hcarry, portLoss_whole (by rw [hplan']; exact hplan)]
    exact (portDown_down hcanon).1
  next hmem => exact ⟨hnone, fun h => absurd (List.contains_iff_mem.2 h) hmem⟩

end Loss

/-- Settles O37: the commands of a port group, each state of link-up, and the loss of lanes. -/
theorem linksComeUpAndGoDown : Obligations.LinksComeUpAndGoDown := by
  unfold Obligations.LinksComeUpAndGoDown
  refine ⟨fun s ring d ⟨hports, _⟩ hpg => ⟨leads_linkDown hports hpg, fun hsteward hready hadm hfault => ?up⟩,
    fun s port hmaps hconf => ⟨fun hst hsince hidle hsteward => leads_quietEnds hmaps.1 hconf hsteward hst hsince hidle,
      fun hsteward hst hwant hlocked => leads_trainEnds hmaps hconf hsteward hst hwant hlocked,
      fun hsteward hst hdeg hsince => leads_trainFails hmaps.1 hconf hsteward hst hdeg hsince,
      fun a b c d hsteward hst hechoes hplan hmax => leads_measureEnds hmaps.1 hconf hsteward hst hechoes hplan hmax,
      fun lane rest hst hlanes hgood hwiring bsn arrival => leads_checkRotation hmaps hconf hst hlanes hgood hwiring,
      fun c k hsteward hst hdue => applyDue_check hmaps.1 hsteward hst hdue⟩,
    fun s port lane hmaps hconf => ⟨fun c => leads_degradeTimeout hmaps.1, leads_lossOfSignal hmaps hconf⟩⟩
  case up =>
    obtain ⟨t, ht, honly, hanswered, hplanned, e, hqueue, hkind, -⟩ := leads_linkUp hports hpg hsteward hready hadm hfault
    exact ⟨t, ht, honly, hanswered, hplanned, e, hqueue, hkind⟩

end Sys2Proof.Proofs

/-! PROOFS. Block times, ACK and NAK (O38; 08 R226, R227, R230, R240-R243). -/

namespace Sys2Proof.Proofs

open Sys2Proof.Machine Sys2Proof.Safety Sys2Proof.Laws

/-! ### One block time, taken apart (08 R240) -/

section Taken

variable (s : State) (p : Nat) (bs act : List LaneBlock)

/-- The lanes whose block passes, with their headers. -/
def goodBlocks : List (Nat × BitVec 80) := act.filterMap fun b => (blockGood s b).map fun h => (b.lane, h)

/-- Every active lane brings the next block whole. -/
def allNext : Bool :=
  (goodBlocks s act).length == (portAt s p).lanes.length && (goodBlocks s act).all fun e => hBsn e.2 == (portAt s p).link.ack + 1

/-- The data of a block time in the order of the neighbour's lanes. -/
def timeData : List (List Byte) := if allNext s p act then (inNbrOrder s p act).map (rxBytes s) else []

/-- The reading of the data cycles with the HOLD bits of a header. -/
def cyclesRead (h : BitVec 80) : RxPos × Bool :=
  if allNext s p act then rxBlock (portAt s p).link.rx (bits h.toNat 28 19) (timeData s p act) else ((portAt s p).link.rx, false)

/-- Lanes whose HOLD bits mark a cycle that no frame occupies. -/
def oddLanes : List Nat := ((goodBlocks s act).filter fun e => (cyclesRead s p act e.2).2).map (·.1)

def headRead (b : LaneBlock) : Option (BitVec 80 × Bool) := if (oddLanes s p act).contains b.lane then none else blockHeader s b

def headsRead : List (Nat × BitVec 80) := act.filterMap fun b => (headRead s p act b).map fun h => (b.lane, h.1)

def goodRead : List (Nat × BitVec 80) := (goodBlocks s act).filter fun e => !(oddLanes s p act).contains e.1

def firstOf : Nat := (act.map (·.arrival)).foldl min ((act.head?.map (·.arrival)).getD 0)

def posRead : RxPos := ((goodBlocks s act).head?.map fun e => cyclesRead s p act e.2).getD ((portAt s p).link.rx, false) |>.1

def failingLanes : List Nat := (portAt s p).lanes.filter fun l => !((goodRead s p act).map (·.1)).contains l

/-- The lock handling of every block, and whether an active lane lost its lock. -/
def locksSeen : State × Bool := bs.foldl (fun (a : State × Bool) b =>
  let (r, l) := blockLock a.1 (portAt s p).link.st b (b.arrival - firstOf act) (if act.contains b then headRead s p act b else blockHeader s b)
  (r, a.2 || (l && (portAt s p).lanes.contains b.lane))) (s, false)

def fixedBlocks : List LaneBlock := act.filter fun b => match blockHeader s b with
  | some (_, inv) => !rsValid (blockWord s b inv) && (rsDecode (blockWord s b inv) b.decoded).isSome
  | none => false

/-- The lanes of a block time seen to, before its blocks are sequenced. -/
def lanesSeen : State :=
  let r := missedLanes (locksSeen s p bs act).1 ((planLanes p (portAt s p).plan).filter fun l => !(bs.map (·.lane)).contains l)
  if (fixedBlocks s act).isEmpty then r else countPort r p cFecCorrected (fixedBlocks s act).length

/-- The ACK and the NAK of a block time taken. -/
def ackTaken (heads : List (Nat × BitVec 80)) (s : State) : State := match heads with
  | [] => s
  | (_, h) :: _ => modLink s p fun l => { l with replay := ackUpTo l.replay (hAck h), nakSeen := l.nakSeen && hNak h }

/-- One block time of a running port. -/
def blocksTaken : State :=
  if (locksSeen s p bs act).2 then lockLost (lanesSeen s p bs act) p
  else if act.isEmpty then lanesSeen s p bs act
  else
    let r := ackTaken p (headsRead s p act) (lanesSeen s p bs act)
    if (portAt s p).link.started || (portAt s p).link.heard ||
        (allNext s p act && (List.range 10).any fun k => speaks ((timeData s p act).map fun d => slice d (32 * k) 32).flatten) then
      sequence (modLink r p fun l => { l with heard := true }) p (firstOf act) (posRead s p act) (headsRead s p act) (goodRead s p act)
        (failingLanes s p act)
    else
      let v := acceptBlocks r p (firstOf act) (failingLanes s p act).isEmpty (goodRead s p act)
      if (failingLanes s p act).isEmpty then modLink v p fun l => { l with rx := posRead s p act } else v

end Taken

section Receive

variable {s : State} {port : BitVec 9} {p : Nat} {blocks : List LaneBlock}

theorem exec_laneBlockReceive (port : BitVec 9) (blocks : List LaneBlock) (s : State) : exec (.laneBlockReceive port blocks) s = .next (
    if !(portAt s port.toNat).conf || !sends (portAt s port.toNat).link.st then s
    else blocksTaken s port.toNat (blocks.filter fun b => (planLanes port.toNat (portAt s port.toNat).plan).contains b.lane)
      ((blocks.filter fun b => (planLanes port.toNat (portAt s port.toNat).plan).contains b.lane).filter fun b =>
        (portAt s port.toNat).lanes.contains b.lane)) := rfl

/-- What the lock handling of a block time leaves: the links of all ports. -/
structure LockStep (s t : State) : Prop where
  moves : Moves [.host, .stats, .ports, .lanes, .fresh] s t
  links : PortsKeep Port.link s t

theorem LockStep.trans {s t u : State} (h : LockStep s t) (g : LockStep t u) : LockStep s u := ⟨h.moves.trans g.moves rfl, h.links.trans g.links⟩

theorem LockStep.refl (s : State) : LockStep s s := ⟨Moves.refl _ s, .refl s⟩

theorem LockStep.of_moves {s t : State} {l : List Area} (h : Moves l s t) (hsub : sub l [.host, .stats, .ports, .lanes, .fresh] = true)
    (hports : Area.ports ∉ l) : LockStep s t := ⟨Proofs.widen h hsub, .of_ports (h.only .ports hports)⟩

theorem countPort_lockStep (s : State) (p word n : Nat) : LockStep s (countPort s p word n) :=
  ⟨countPort_moves (Moves.refl _ s) rfl, countPort_portsKeep ⟨fun _ _ => rfl, fun _ _ => rfl⟩ s p word n⟩

theorem blockLock_lockStep (s : State) (st : LinkSt) (b : LaneBlock) (skew : Nat) (h : Option (BitVec 80 × Bool)) :
    LockStep s (blockLock s st b skew h).1 :=
  .of_moves (blockLock_moves (Moves.refl [.host, .stats, .lanes, .fresh] s) rfl) rfl (by decide)

theorem missedLanes_lockStep (s : State) (ls : List Nat) : LockStep s (missedLanes s ls) :=
  .of_moves (missedLanes_moves (Moves.refl [.lanes] s) rfl) rfl (by decide)

/-- A block whose header is read loses no lock. -/
theorem blockLock_read (s : State) (st : LinkSt) (b : LaneBlock) (skew : Nat) {h : Option (BitVec 80 × Bool)} (hread : h ≠ none) :
    (blockLock s st b skew h).2 = false := by
  obtain ⟨x, rfl⟩ := Option.ne_none_iff_exists'.1 hread
  exact rfl

/-- The lock handling of some blocks. -/
theorem foldl_blockLock {st : LinkSt} {skew : LaneBlock → Nat} {head : LaneBlock → Option (BitVec 80 × Bool)} {ls : List Nat}
    (bs : List LaneBlock) (hread : ∀ b ∈ bs, head b ≠ none) (s : State) (lost : Bool) :
    LockStep s (bs.foldl (fun (a : State × Bool) b =>
      ((blockLock a.1 st b (skew b) (head b)).1, a.2 || ((blockLock a.1 st b (skew b) (head b)).2 && ls.contains b.lane))) (s, lost)).1 ∧
    (bs.foldl (fun (a : State × Bool) b =>
      ((blockLock a.1 st b (skew b) (head b)).1, a.2 || ((blockLock a.1 st b (skew b) (head b)).2 && ls.contains b.lane))) (s, lost)).2 = lost := by
  induction bs generalizing s lost with
  | nil => exact ⟨.refl s, rfl⟩
  | cons b bs ih =>
    have hb := blockLock_read s st b (skew b) (hread b (by simp))
    obtain ⟨hstep, hlost⟩ := ih (fun x hx => hread x (by simp [hx])) (blockLock s st b (skew b) (head b)).1
      (lost || ((blockLock s st b (skew b) (head b)).2 && ls.contains b.lane))
    refine ⟨(blockLock_lockStep s st b (skew b) (head b)).trans hstep, hlost.trans ?_⟩
    rw [hb]
    simp

/-- The headers of all blocks read, none with a cycle that no frame occupies. -/
structure AllRead (s : State) (p : Nat) (blocks : List LaneBlock) : Prop where
  some : blocks ≠ []
  read : ∀ b ∈ blocks, blockHeader s b ≠ none
  even : oddLanes s p blocks = []

theorem AllRead.head (h : AllRead s p blocks) (b : LaneBlock) : headRead s p blocks b = blockHeader s b := by
  rw [headRead, h.even]
  exact rfl

theorem AllRead.good (h : AllRead s p blocks) : goodRead s p blocks = goodBlocks s blocks := by
  rw [goodRead, h.even]
  exact List.filter_eq_self.2 fun _ _ => rfl

theorem AllRead.locks (h : AllRead s p blocks) :
    LockStep s (locksSeen s p blocks blocks).1 ∧ (locksSeen s p blocks blocks).2 = false := by
  refine foldl_blockLock (st := (portAt s p).link.st) (skew := fun b => b.arrival - firstOf blocks)
    (head := fun b => if blocks.contains b then headRead s p blocks b else blockHeader s b) (ls := (portAt s p).lanes) blocks (fun b hb => ?_) s false
  rw [h.head, ite_self]
  exact h.read b hb

theorem AllRead.lanesSeen (h : AllRead s p blocks) : LockStep s (lanesSeen s p blocks blocks) := by
  unfold Proofs.lanesSeen
  dsimp only
  have hmissed := h.locks.1.trans (missedLanes_lockStep (locksSeen s p blocks blocks).1
    ((planLanes p (portAt s p).plan).filter fun l => !(blocks.map (·.lane)).contains l))
  split
  · exact hmissed
  · exact hmissed.trans (countPort_lockStep _ _ _ _)

/-- A state whose link of port p has only its replay and the neighbour's NAK and start taken. -/
def HeardFrom (s : State) (p : Nat) (r : State) : Prop := Moves [.host, .stats, .ports, .lanes, .fresh] s r ∧ canon {} r.ports = true ∧
  ∃ replay nakSeen, (portAt r p).link = { (portAt s p).link with replay := replay, nakSeen := nakSeen, heard := true }

theorem ackTaken_moves {s r : State} (h : Moves [.host, .stats, .ports, .lanes, .fresh] s r) (heads : List (Nat × BitVec 80)) :
    Moves [.host, .stats, .ports, .lanes, .fresh] s (ackTaken p heads r) := by
  unfold ackTaken
  split
  · exact h
  · exact modLink_moves h rfl

/-- A block time whose headers are all read, on a running port, is sequenced. -/
theorem AllRead.taken (h : AllRead s p blocks) (hs : canon {} s.ports = true) (hstarted : (portAt s p).link.started = true) :
    ∃ r, HeardFrom s p r ∧ blocksTaken s p blocks blocks =
      sequence r p (firstOf blocks) (posRead s p blocks) (headsRead s p blocks) (goodBlocks s blocks) (failingLanes s p blocks) := by
  obtain ⟨hmoves, hlinks⟩ := h.lanesSeen
  obtain ⟨hcanon, hlink⟩ := hlinks hs
  refine ⟨modLink (ackTaken p (headsRead s p blocks) (Proofs.lanesSeen s p blocks blocks)) p fun l => { l with heard := true }, ?_, ?_⟩
  · cases headsRead s p blocks with
    | nil =>
      refine ⟨modLink_moves hmoves rfl, canon_sput hcanon, (portAt s p).link.replay, (portAt s p).link.nakSeen, ?_⟩
      rw [ackTaken, portAt_modLink hcanon, hlink]
    | cons e es =>
      obtain ⟨l, x⟩ := e
      have hacked : Moves [.host, .stats, .ports, .lanes, .fresh] s (ackTaken p ((l, x) :: es) (Proofs.lanesSeen s p blocks blocks)) :=
        ackTaken_moves hmoves _
      refine ⟨modLink_moves hacked rfl, canon_sput (canon_sput hcanon), ackUpTo (portAt s p).link.replay (hAck x),
        (portAt s p).link.nakSeen && hNak x, ?_⟩
      rw [ackTaken, portAt_modLink (canon_sput hcanon), portAt_modLink hcanon, hlink]
  · have hact : blocks.isEmpty ≠ true := fun he => h.some (List.isEmpty_iff.1 he)
    rw [blocksTaken, h.locks.2, if_neg Bool.false_ne_true, if_neg hact]
    refine (if_pos ?_).trans ?_
    · rw [hstarted]
      exact rfl
    · rw [h.good]

/-! ### The sequence rules (08 R240, R242) -/

/-- The bytes of the passbook taken from accepted blocks, and a replay that has worked counted. -/
def slotsPassed (s : State) (p : Nat) (hs : List (Nat × BitVec 80)) : State :=
  let r := hs.foldl (fun s e => setLane s e.1 (passSlot (laneAt s e.1) e.2)) s
  if (portAt r p).link.failed then setCause (countPort r p cReplayOk 1) (srcPg (pgOf p)) 0 p else r

theorem slotsPassed_lockStep (s : State) (p : Nat) (hs : List (Nat × BitVec 80)) : LockStep s (slotsPassed s p hs) := by
  have hslots : LockStep s (hs.foldl (fun s e => setLane s e.1 (passSlot (laneAt s e.1) e.2)) s) :=
    .of_moves (l := [.lanes]) (foldl_moves (Moves.refl _ s) fun _ _ h => setLane_moves h rfl) rfl (by decide)
  unfold slotsPassed
  dsimp only
  split
  · have hevent {r : State} : LockStep (countPort r p cReplayOk 1) (setCause (countPort r p cReplayOk 1) (srcPg (pgOf p)) 0 p) :=
      .of_moves (setCause_eventStep _ _ _ _ _ _ _ _).moves rfl (by decide)
    exact hslots.trans ((countPort_lockStep _ p cReplayOk 1).trans hevent)
  · exact hslots

theorem ack_addDue (c : Prop) [Decidable c] (l : Link) (now : Nat) (v : Verdict) : (if c then addDue l now v else l).ack = l.ack := by
  split <;> rfl

theorem waiting_addDue (c : Prop) [Decidable c] (l : Link) (now : Nat) (v : Verdict) :
    (if c then addDue l now v else l).waiting = l.waiting := by
  split <;> rfl

/-- The link of a port that accepts a block time. -/
theorem acceptBlocks_link {arrival : Nat} (hs : canon {} s.ports = true) (e : Nat × BitVec 80) (es : List (Nat × BitVec 80)) :
    canon {} (acceptBlocks s p arrival true (e :: es)).ports = true ∧
    (portAt (acceptBlocks s p arrival true (e :: es)) p).link.ack = hBsn e.2 ∧
    (portAt (acceptBlocks s p arrival true (e :: es)) p).link.waiting = false := by
  obtain ⟨l, h⟩ := e
  obtain ⟨hcanon, -⟩ := (slotsPassed_lockStep s p ((l, h) :: es)).links hs
  unfold acceptBlocks
  dsimp only
  refine ⟨canon_sput hcanon, ?_⟩
  change (portAt (modLink (slotsPassed s p ((l, h) :: es)) p _) p).link.ack = _ ∧ (portAt (modLink (slotsPassed s p ((l, h) :: es)) p _) p).link.waiting = _
  rw [portAt_modLink hcanon]
  dsimp only
  rw [ack_addDue, waiting_addDue]
  exact ⟨rfl, rfl⟩

theorem mem_goodBlocks {e : Nat × BitVec 80} : e ∈ goodBlocks s blocks ↔ ∃ b ∈ blocks, blockGood s b = some e.2 ∧ b.lane = e.1 := by
  obtain ⟨l, h⟩ := e
  simp only [goodBlocks, List.mem_filterMap, Option.map_eq_some_iff, Prod.mk.injEq]
  exact exists_congr fun b => and_congr_right fun _ => ⟨fun ⟨x, hx, hl, he⟩ => ⟨he ▸ hx, hl⟩, fun ⟨hx, hl⟩ => ⟨h, hx, hl, rfl⟩⟩

theorem blockHeader_of_good {b : LaneBlock} {h : BitVec 80} (hb : blockGood s b = some h) : blockHeader s b ≠ none := by
  intro hnone
  rw [blockGood, hnone] at hb
  exact nomatch hb

/-- Each block passes, and shows the next number. -/
def NextBlocks (s : State) (p : Nat) (blocks : List LaneBlock) : Prop := ∀ b ∈ blocks, ∃ h, blockGood s b = some h ∧
  hBsn h = (portAt s p).link.ack + 1 ∧
  (rxBlock (portAt s p).link.rx (bits h.toNat 28 19) ((inNbrOrder s p blocks).map (rxBytes s))).2 = false

theorem NextBlocks.allNext (h : NextBlocks s p blocks) (hlanes : blocks.map (·.lane) = (portAt s p).lanes) : allNext s p blocks = true := by
  have hlength : (goodBlocks s blocks).length = (portAt s p).lanes.length := by
    rw [← hlanes, List.length_map, goodBlocks, List.filterMap_length_eq_length]
    intro b hb
    obtain ⟨x, hx, -⟩ := h b hb
    rw [hx]
    exact rfl
  rw [Proofs.allNext, hlength, beq_self_eq_true, Bool.true_and, List.all_eq_true]
  intro e he
  obtain ⟨b, hb, hgood, -⟩ := mem_goodBlocks.1 he
  obtain ⟨x, hx, hnext, -⟩ := h b hb
  rw [← Option.some.inj (hgood.symm.trans hx)] at hnext
  exact beq_iff_eq.2 hnext

theorem NextBlocks.allRead (h : NextBlocks s p blocks) (hsome : blocks ≠ []) (hlanes : blocks.map (·.lane) = (portAt s p).lanes) :
    AllRead s p blocks where
  some := hsome
  read b hb := by
    obtain ⟨x, hx, -⟩ := h b hb
    exact blockHeader_of_good hx
  even := by
    have hnext := h.allNext hlanes
    rw [oddLanes, List.map_eq_nil_iff, List.filter_eq_nil_iff]
    intro e he
    obtain ⟨b, hb, hgood, -⟩ := mem_goodBlocks.1 he
    obtain ⟨x, hx, -, heven⟩ := h b hb
    rw [cyclesRead, timeData, if_pos hnext, if_pos hnext, Option.some.inj (hgood.symm.trans hx), heven]
    exact Bool.false_ne_true

theorem failingLanes_of_all (h : AllRead s p blocks) (hlanes : blocks.map (·.lane) = (portAt s p).lanes)
    (hgood : ∀ b ∈ blocks, blockGood s b ≠ none) : failingLanes s p blocks = [] := by
  rw [failingLanes, h.good, List.filter_eq_nil_iff, ← hlanes]
  intro l hl
  obtain ⟨b, hb, rfl⟩ := List.mem_map.1 hl
  obtain ⟨x, hx⟩ := Option.ne_none_iff_exists'.1 (hgood b hb)
  simp only [Bool.not_eq_true', Bool.not_eq_false, List.contains_iff_mem]
  exact List.mem_map.2 ⟨(b.lane, x), mem_goodBlocks.2 ⟨b, hb, hx, rfl⟩, rfl⟩

/-- A block that fails has its lane among those that do. -/
theorem failingLanes_ne_nil (h : AllRead s p blocks) (hlanes : blocks.map (·.lane) = (portAt s p).lanes)
    (hnodup : (portAt s p).lanes.Nodup) {b : LaneBlock} (hb : b ∈ blocks) (hbad : blockGood s b = none) : failingLanes s p blocks ≠ [] := by
  refine List.ne_nil_of_mem (a := b.lane) ?_
  rw [failingLanes, h.good, List.mem_filter, ← hlanes]
  refine ⟨List.mem_map.2 ⟨b, hb, rfl⟩, ?_⟩
  simp only [Bool.not_eq_true', ← Bool.not_eq_true, List.contains_iff_mem]
  intro hmem
  obtain ⟨e, he, hlane⟩ := List.mem_map.1 hmem
  obtain ⟨c, hc, hgood, hcl⟩ := mem_goodBlocks.1 he
  rw [← hlanes] at hnodup
  have hcb : c = b := List.inj_on_of_nodup_map hnodup hc hb (hcl.trans hlane)
  rw [hcb, hbad] at hgood
  exact nomatch hgood

/-- A block time that fails somewhere, all its headers read. -/
theorem allRead_of_bad (hsome : blocks ≠ []) (hlanes : blocks.map (·.lane) = (portAt s p).lanes) (hread : ∀ b ∈ blocks, blockHeader s b ≠ none)
    {b : LaneBlock} (hb : b ∈ blocks) (hbad : blockGood s b = none) : AllRead s p blocks where
  some := hsome
  read := hread
  even := by
    have hshort : (goodBlocks s blocks).length ≠ (portAt s p).lanes.length := by
      rw [← hlanes, List.length_map, goodBlocks, Ne, List.filterMap_length_eq_length]
      intro h
      have hb' := h b hb
      rw [hbad] at hb'
      exact nomatch hb'
    have hnext : allNext s p blocks = false := by
      rw [allNext, beq_eq_false_iff_ne.2 hshort]
      exact rfl
    rw [oddLanes, List.map_eq_nil_iff, List.filter_eq_nil_iff]
    intro e _
    rw [cyclesRead, hnext]
    exact Bool.false_ne_true

theorem mem_headsRead (h : AllRead s p blocks) {e : Nat × BitVec 80} :
    e ∈ headsRead s p blocks ↔ ∃ b ∈ blocks, ∃ x, blockHeader s b = some x ∧ x.1 = e.2 ∧ b.lane = e.1 := by
  obtain ⟨l, y⟩ := e
  simp only [headsRead, h.head, List.mem_filterMap, Option.map_eq_some_iff, Prod.mk.injEq]
  exact exists_congr fun b => and_congr_right fun _ => exists_congr fun x => and_congr_right fun _ => and_comm

/-! ### The three outcomes -/

/-- The arm on a port that sends, whose lanes are those of the blocks. -/
theorem exec_laneBlockReceive_lanes (hconf : (portAt s port.toNat).conf = true) (hsends : sends (portAt s port.toNat).link.st = true)
    (hlanes : blocks.map (·.lane) = (portAt s port.toNat).lanes)
    (hplan : ∀ b ∈ blocks, b.lane ∈ planLanes port.toNat (portAt s port.toNat).plan) :
    exec (.laneBlockReceive port blocks) s = .next (blocksTaken s port.toNat blocks blocks) := by
  have hall : blocks.filter (fun b => (planLanes port.toNat (portAt s port.toNat).plan).contains b.lane) = blocks :=
    List.filter_eq_self.2 fun b hb => List.contains_iff_mem.2 (hplan b hb)
  have hactive : blocks.filter (fun b => (portAt s port.toNat).lanes.contains b.lane) = blocks :=
    List.filter_eq_self.2 fun b hb => List.contains_iff_mem.2 (hlanes ▸ List.mem_map.2 ⟨b, hb, rfl⟩)
  rw [exec_laneBlockReceive, hall, hactive, hconf, hsends]
  exact rfl

theorem leads_blockAccepted (hs : canon {} s.ports = true) (hconf : (portAt s port.toNat).conf = true)
    (hstarted : (portAt s port.toNat).link.started = true) (hsends : sends (portAt s port.toNat).link.st = true) (hsome : blocks ≠ [])
    (hlanes : blocks.map (·.lane) = (portAt s port.toNat).lanes)
    (hplan : ∀ b ∈ blocks, b.lane ∈ planLanes port.toNat (portAt s port.toNat).plan) (hnext : NextBlocks s port.toNat blocks) :
    leads (.laneBlockReceive port blocks) s fun t => onlyChanges [.host, .stats, .ports, .lanes, .fresh] s t ∧
      (portAt t port.toNat).link.ack = (portAt s port.toNat).link.ack + 1 ∧ (portAt t port.toNat).link.waiting = false := by
  have hread := hnext.allRead hsome hlanes
  obtain ⟨r, ⟨hmoves, hcanon, replay, nakSeen, hlink⟩, htaken⟩ := hread.taken hs hstarted
  have hfail : failingLanes s port.toNat blocks = [] := failingLanes_of_all hread hlanes fun b hb => by
    obtain ⟨x, hx, -⟩ := hnext b hb
    rw [hx]
    exact Option.some_ne_none x
  have hbsn : ∀ e ∈ goodBlocks s blocks, hBsn e.2 = (portAt s port.toNat).link.ack + 1 := fun e he => by
    obtain ⟨b, hb, hgood, -⟩ := mem_goodBlocks.1 he
    obtain ⟨x, hx, hn, -⟩ := hnext b hb
    rwa [Option.some.inj (hgood.symm.trans hx)]
  obtain ⟨e, es, hgood⟩ : ∃ e es, goodBlocks s blocks = e :: es := by
    obtain ⟨b, hb⟩ := List.exists_mem_of_ne_nil _ hsome
    obtain ⟨x, hx, -⟩ := hnext b hb
    exact List.exists_cons_of_ne_nil (List.ne_nil_of_mem (mem_goodBlocks.2 ⟨b, hb, hx, rfl⟩ : (b.lane, x) ∈ goodBlocks s blocks))
  have hsequence : Machine.sequence r port.toNat (firstOf blocks) (posRead s port.toNat blocks) (headsRead s port.toNat blocks) (e :: es) [] =
      modLink (acceptBlocks r port.toNat (firstOf blocks) true (e :: es)) port.toNat fun l => { l with rx := posRead s port.toNat blocks } := by
    have hall : ((e :: es).map fun e => hBsn e.2).all (fun b => b == (portAt r port.toNat).link.ack + 1) = true := by
      rw [List.all_eq_true, ← hgood]
      intro b hb
      obtain ⟨x, hx, rfl⟩ := List.mem_map.1 hb
      rw [hlink]
      exact beq_iff_eq.2 (hbsn x hx)
    unfold Machine.sequence
    dsimp only
    rw [hall]
    exact rfl
  obtain ⟨hcanon', hack, hwaiting⟩ := acceptBlocks_link (p := port.toNat) (arrival := firstOf blocks) hcanon e es
  rw [hgood, hfail] at htaken
  refine ⟨_, (exec_laneBlockReceive_lanes hconf hsends hlanes hplan).trans (congrArg Host.Outcome.next
    (htaken.trans hsequence)), (modLink_moves (acceptBlocks_moves hmoves rfl) rfl).only, ?_⟩
  rw [portAt_modLink hcanon']
  exact ⟨hack.trans (hbsn e (hgood ▸ List.mem_cons_self)), hwaiting⟩

/-- A block time with a failing lane, on a link that does not wait, is a lasting fault where it is a copy, else begins a wait. -/
theorem sequence_bad {r : State} {first : Nat} {pos : RxPos} {heads good : List (Nat × BitVec 80)} {bad : List Nat} (hbad : bad ≠ [])
    (hwaiting : (portAt r p).link.waiting = false) : Machine.sequence r p first pos heads good bad =
      if (portAt r p).link.copies.isSome || heads.any (fun e => hRpl e.2) then lasting r p bad
      else modLink r p fun l => beginWait l true (heads.map fun e => hBsn e.2).head? := by
  obtain ⟨x, xs, rfl⟩ := List.exists_cons_of_ne_nil hbad
  unfold Machine.sequence
  dsimp only
  rw [hwaiting]
  cases (portAt r p).link.copies.isSome <;> cases heads.any (fun e => hRpl e.2) <;> exact rfl

theorem leads_blockAwaited (hs : canon {} s.ports = true) (hconf : (portAt s port.toNat).conf = true)
    (hstarted : (portAt s port.toNat).link.started = true) (hsends : sends (portAt s port.toNat).link.st = true)
    (hwaiting : (portAt s port.toNat).link.waiting = false) (hsome : blocks ≠ []) (hlanes : blocks.map (·.lane) = (portAt s port.toNat).lanes)
    (hnodup : (portAt s port.toNat).lanes.Nodup) (hplan : ∀ b ∈ blocks, b.lane ∈ planLanes port.toNat (portAt s port.toNat).plan)
    (hread : ∀ b ∈ blocks, blockHeader s b ≠ none) (hbad : ∃ b ∈ blocks, blockGood s b = none)
    (hcopies : (portAt s port.toNat).link.copies = none) (hnew : ∀ b ∈ blocks, ∀ h, blockHeader s b = some h → hRpl h.1 = false) :
    leads (.laneBlockReceive port blocks) s fun t => onlyChanges [.host, .stats, .ports, .lanes, .fresh] s t ∧
      (portAt t port.toNat).link.ack = (portAt s port.toNat).link.ack ∧ (portAt t port.toNat).link.waiting = true ∧
      (portAt t port.toNat).link.failed = true := by
  obtain ⟨b, hb, hfails⟩ := hbad
  have hall := allRead_of_bad hsome hlanes hread hb hfails
  obtain ⟨r, ⟨hmoves, hcanon, replay, nakSeen, hlink⟩, htaken⟩ := hall.taken hs hstarted
  have hrpl : (headsRead s port.toNat blocks).any (fun e => hRpl e.2) = false := List.any_eq_false.2 fun e he => by
    obtain ⟨c, hc, x, hx, he2, -⟩ := (mem_headsRead hall).1 he
    rw [← he2, hnew c hc x hx]
    exact Bool.false_ne_true
  have hsequence := htaken.trans (sequence_bad (failingLanes_ne_nil hall hlanes hnodup hb hfails) (by rw [hlink]; exact hwaiting))
  rw [hrpl, hlink, hcopies, if_neg (by decide)] at hsequence
  refine ⟨_, (exec_laneBlockReceive_lanes hconf hsends hlanes hplan).trans (congrArg Host.Outcome.next hsequence),
    (modLink_moves hmoves rfl).only, ?_⟩
  rw [portAt_modLink hcanon, hlink]
  exact ⟨rfl, rfl, rfl⟩

/-- The cause of a replay that fails stands, whatever the fault brings about. -/
theorem lasting_bit (r : State) (p : Nat) (bad : List Nat) : bit (statAt (lasting r p bad) (srcPg (pgOf p))).status.toNat 1 = true := by
  unfold lasting
  dsimp only
  split
  · exact (portLoss_lossStep (k := 0) _ p).bits _ _ (bit_statAt_setCause (by decide))
  · exact bit_statAt_setCause (by decide)

theorem leads_blockLasting (hs : canon {} s.ports = true) (hconf : (portAt s port.toNat).conf = true)
    (hstarted : (portAt s port.toNat).link.started = true) (hsends : sends (portAt s port.toNat).link.st = true)
    (hwaiting : (portAt s port.toNat).link.waiting = false) (hsome : blocks ≠ []) (hlanes : blocks.map (·.lane) = (portAt s port.toNat).lanes)
    (hnodup : (portAt s port.toNat).lanes.Nodup) (hplan : ∀ b ∈ blocks, b.lane ∈ planLanes port.toNat (portAt s port.toNat).plan)
    (hread : ∀ b ∈ blocks, blockHeader s b ≠ none) (hbad : ∃ b ∈ blocks, blockGood s b = none)
    (hcopy : ∃ b ∈ blocks, ∃ h, blockHeader s b = some h ∧ hRpl h.1 = true) :
    leads (.laneBlockReceive port blocks) s fun t =>
      onlyChanges [.host, .stats, .ports, .lanes, .stalled, .reorder, .tandem, .dropping, .intake, .ledger, .fresh] s t ∧
      bit (statAt t (srcPg (pgOf port.toNat))).status.toNat 1 = true := by
  obtain ⟨b, hb, hfails⟩ := hbad
  obtain ⟨c, hc, x, hx, hrplx⟩ := hcopy
  have hall := allRead_of_bad hsome hlanes hread hb hfails
  obtain ⟨r, ⟨hmoves, hcanon, replay, nakSeen, hlink⟩, htaken⟩ := hall.taken hs hstarted
  have hrpl : (headsRead s port.toNat blocks).any (fun e => hRpl e.2) = true :=
    List.any_eq_true.2 ⟨(c.lane, x.1), (mem_headsRead hall).2 ⟨c, hc, x, hx, rfl, rfl⟩, hrplx⟩
  have hsequence := htaken.trans (sequence_bad (failingLanes_ne_nil hall hlanes hnodup hb hfails) (by rw [hlink]; exact hwaiting))
  rw [hrpl, Bool.or_true, if_pos rfl] at hsequence
  exact leads_moves ((exec_laneBlockReceive_lanes hconf hsends hlanes hplan).trans (congrArg Host.Outcome.next hsequence))
    execLaneBlockReceive_moves (lasting_bit r port.toNat _)

/-- A NAK has every block kept from ACK + 1 sent again. -/
theorem leads_nakReceive (hs : canon {} s.ports = true) (hconf : (portAt s port.toNat).conf = true)
    (hstarted : (portAt s port.toNat).link.started = true) {x h : BitVec 80} {inv : Bool} (hx : readHeader x = some (h, inv))
    (hnak : hNak h = true) (hseen : (portAt s port.toNat).link.nakSeen = false) :
    leads (.nakReceive port x) s fun t => onlyChanges [.ports] s t ∧ (portAt t port.toNat).link = { (portAt s port.toNat).link with
      replay := ackUpTo (portAt s port.toNat).link.replay (hAck h), nakSeen := true,
      resend := ackUpTo (portAt s port.toNat).link.replay (hAck h) } := by
  have hexec : exec (.nakReceive port x) s = .next (modLink s port.toNat fun l =>
      { l with replay := ackUpTo (portAt s port.toNat).link.replay (hAck h), nakSeen := true,
               resend := if l.nakSeen then l.resend else ackUpTo (portAt s port.toNat).link.replay (hAck h) }) := by
    change Host.Outcome.next (match readHeader x with
      | none => s
      | some (h, _) => if !(portAt s port.toNat).conf || !(portAt s port.toNat).link.started || !hNak h then s else _) = _
    rw [hx]
    exact congrArg Host.Outcome.next (if_neg (by simp [hconf, hstarted, hnak]))
  refine leads_moves hexec execNakReceive_moves ?_
  rw [portAt_modLink hs, hseen]
  exact rfl

end Receive

/-- Settles O38: a block time accepted, awaited again, or a lasting fault; and a NAK. -/
theorem blocksAreSequenced : Obligations.BlocksAreSequenced := by
  unfold Obligations.BlocksAreSequenced
  intro s port ⟨hs, _⟩ hconf hstarted
  refine ⟨fun hsends hwaiting blocks hsome hlanes hnodup hplan => ⟨fun hnext => ?_, fun hread hbad => ⟨fun hcopies hnew => ?_, fun hcopy => ?_⟩⟩,
    fun x h inv hx hnak hseen => leads_nakReceive hs hconf hstarted hx hnak hseen⟩
  · exact leads_blockAccepted hs hconf hstarted hsends hsome hlanes hplan hnext
  · exact leads_blockAwaited hs hconf hstarted hsends hwaiting hsome hlanes hnodup hplan hread hbad hcopies hnew
  · exact leads_blockLasting hs hconf hstarted hsends hwaiting hsome hlanes hnodup hplan hread hbad hcopy

end Sys2Proof.Proofs

/-! PROOFS. Tills that open (O39; 03 R87; 12 R338). -/

namespace Sys2Proof.Proofs

open Sys2Proof.Machine Sys2Proof.Safety Sys2Proof.Laws

/-- A till that waits for admission, whose descriptor gives no chunk but which lists one. -/
def waiterOfOneChunk : Till :=
  { st := .waitAdmit, words := [], shard := [], scales := [], fuse := [], chunks := [blankChunk 0], epoch := 0 }

/-- The till waits on a device whose tiles are ready, but for tile 0, which is unavailable and hosts the chunk. -/
def tileLost : State :=
  { State.reset with tiles := { State.reset.tiles with ready := true, unavailable := [0] }, tills := [(0, waiterOfOneChunk)] }

theorem tillAt_tileLost {m : Nat} {y : Till} (h : tillAt tileLost m = some y) : y = waiterOfOneChunk := by
  by_cases hm : 0 = m
  · subst hm
    exact (Option.some.inj h).symm
  · rw [tillAt, tileLost, ofind, List.find?_cons_of_neg (by simpa using hm)] at h
    exact nomatch h

/-- A command comes to a next state in which till n is FREE. -/
def freesTill (n : Nat) : Res → Bool
  | .next t => (tillAt t n).isNone
  | _ => false

/-- The tiles that admission asks for are those of the chunks a till lists, and here one of them is down: the till is dropped. -/
theorem admissionGrant_tileLost : freesTill 0 (exec (.admissionGrant 0) tileLost) = true := by decide +kernel

theorem tileLost_waits : waiterBefore tileLost waiterOfOneChunk.words waiterOfOneChunk.order = false ∧
    (grantTill tileLost 0 waiterOfOneChunk.words waiterOfOneChunk.shard).isSome = true ∧
    isBefore waiterOfOneChunk.order waiterOfOneChunk = false ∧ tVault waiterOfOneChunk.words = false ∧ tChunks waiterOfOneChunk.words = 0 := by
  decide +kernel

/-- Refutes O39: the clause on a waiter that is granted its slabs asks for the tiles of the descriptor's chunks, where the till may list
more chunks than its descriptor gives; one of an unavailable tile has the till refused. -/
theorem not_tillsOpen : ¬ Obligations.TillsOpen := by
  unfold Obligations.TillsOpen
  rintro ⟨-, hwaiter, -⟩
  obtain ⟨hbefore, hgrant, hself, hvault, hchunks⟩ := tileLost_waits
  obtain ⟨t, ht, -, y, hy, -⟩ := hwaiter tileLost 0 waiterOfOneChunk rfl rfl hbefore hgrant
    (fun m y hm hy => by rw [tillAt_tileLost hm, hself] at hy; exact nomatch hy) (fun h => by rw [hvault] at h; exact nomatch h)
    (fun k hk => absurd hk (by rw [hchunks]; exact Nat.not_lt_zero k))
  have hgone := admissionGrant_tileLost
  rw [ht, freesTill, show tillAt t 0 = some y from hy] at hgone
  exact nomatch hgone

end Sys2Proof.Proofs

/-! PROOFS. Tallies are opened, closed and excised (06 R166, R181, R182). -/

namespace Sys2Proof.Proofs

open Sys2Proof.Machine Sys2Proof.Safety Sys2Proof.Laws

/-! ### What tallies and the host interface keep -/

theorem ready_ringStep (s : State) (c : Cpl) : RingStep s (ready s c) := ⟨ready_moves (Moves.refl _ _) rfl, ready_ringSide s c⟩

theorem mem_ready (s : State) (c : Cpl) : c ∈ (ready s c).host.ready := List.mem_append_right _ (List.mem_singleton_self _)

theorem tallyAt_setTally_same (s : State) (n : Nat) (v : Tally) : tallyAt (setTally s n v) n = some v := by
  rw [tallyAt_setTally, if_pos rfl]

theorem tallyPosted_of_ready {s t : State} {n : Nat} {v : Tally} {status : Nat} {x : Told} (h : s.host.ready ⊆ t.host.ready)
    (hs : tallyPosted s n v status x) : tallyPosted t n v status x := by
  obtain ⟨c, hc, hrest⟩ := hs
  exact ⟨c, h hc, hrest⟩

theorem posted_of_ready {s t : State} {a : Accept} {cring st d0 d1 : Nat} (h : s.host.ready ⊆ t.host.ready)
    (hs : posted s a cring st d0 d1) : posted t a cring st d0 d1 :=
  hs.imp_right fun ⟨c, hc, hrest⟩ => ⟨c, h hc, hrest⟩

theorem mem_of_ofind {α : Type} {m : Sparse α} {k : Nat} {v : α} (h : ofind m k = some v) : (k, v) ∈ m := by
  obtain ⟨e, he, rfl⟩ := Option.map_eq_some_iff.1 h
  have hk : e.1 = k := by simpa using List.find?_some he
  subst hk
  exact List.mem_of_find?_eq_some he

theorem ofind_of_mem {α : Type} {m : Sparse α} (h : rising m = true) {k : Nat} {v : α} (hmem : (k, v) ∈ m) : ofind m k = some v := by
  obtain ⟨e, he⟩ := Option.isSome_iff_exists.1 (List.find?_isSome.2 ⟨(k, v), hmem, beq_self_eq_true k⟩ : (m.find? fun e => e.1 == k).isSome = true)
  have hk : e.1 = k := by simpa using List.find?_some he
  rw [ofind, he, eq_of_rising h (List.mem_of_find?_eq_some he) hmem hk]
  exact rfl

/-! ### A tally's own completion (R183) -/

section Post

variable {s : State} {n : Nat} {v : Tally} {status : Nat} {x : Told}

theorem postTally_ringStep : RingStep s (postTally s n v status x).1 := by
  rw [postTally]
  split
  · exact .refl s
  · exact ready_ringStep s _

/-- A tally that posts its completion begins its two counts again. -/
theorem postTally_posts (h : ¬ (status = stOk ∧ yNotify v.words = false)) : postTally s n v status x =
    (ready s { cring := yCring v.words, entries := [tallyEntry n v status x] }, { v with late := 0, discard := 0, excisedMark := false }) :=
  if_neg h

theorem tallyPosted_postTally (h : ¬ (status = stOk ∧ yNotify v.words = false)) : tallyPosted (postTally s n v status x).1 n v status x := by
  rw [postTally_posts h]
  exact ⟨_, mem_ready s _, rfl, rfl, rfl⟩

end Post

/-! ### TALLY_OPEN (R166) -/

theorem tallyOk_ringStep {s u : State} (h : RingStep s u) (w l : List W64) : tallyOk u w l = tallyOk s w l := by
  obtain ⟨host, fresh, rfl⟩ := h.exists_eq
  rfl

/-- The tally as TALLY_OPEN has it, before its cycle to open is set. -/
def newTally (w l : List W64) (a : Accept) : Tally :=
  { words := w, inputs := l, openAt := none, by_ := some a, gen := BitVec.ofNat 16 (wf w 0 43 28) }

/-- The inputs TALLY_OPEN reads: none for a counter. -/
def tallyInputs (words inputs : List W64) : List W64 :=
  if yCounter words then [] else (inputs ++ List.replicate (yEntries words) 0).take (yEntries words)

section Open

variable {s : State} {ring : BitVec 6} {d : Desc} {words inputs : List W64}

theorem leads_tallyOpen {P : State → Prop}
    (hadm : admitted s ring d 0x18 (yCring (words.take 8)) (some (yJob (words.take 8))))
    (hP : ∀ u t, RingStep s u →
      RingStep (if !tallyOk u (words.take 8) (tallyInputs (words.take 8) inputs) || (tallyAt u (wf (words.take 8) 0 63 52)).isSome then
          completeTo u (yCring (words.take 8)) (acceptNow s ring.toNat d.d0 (wf (words.take 8) 0 63 52)) stRefused
        else setTally u (wf (words.take 8) 0 63 52)
          (if yTick (words.take 8) || (yAlign (words.take 8) && u.tick.state == 0) then
            newTally (words.take 8) (tallyInputs (words.take 8) inputs) (acceptNow s ring.toNat d.d0 (wf (words.take 8) 0 63 52))
          else { newTally (words.take 8) (tallyInputs (words.take 8) inputs) (acceptNow s ring.toNat d.d0 (wf (words.take 8) 0 63 52)) with
            openAt := some (u.now + 1) })) t → P t) : leads (.tallyOpen ring d words inputs) s P :=
  leads_accepted hadm rfl rfl (if_pos (descOk_of_admitted hadm)) hP

theorem tallyOpen_refused (hadm : admitted s ring d 0x18 (yCring (words.take 8)) (some (yJob (words.take 8))))
    (hbad : tallyOk s (words.take 8) (tallyInputs (words.take 8) inputs) = false ∨ (tallyAt s (wf (words.take 8) 0 63 52)).isSome = true) :
    leads (.tallyOpen ring d words inputs) s fun t => onlyChanges [.host, .fresh] s t ∧
      answered s t ring d (yCring (words.take 8)) (wf (words.take 8) 0 63 52) stRefused 0 0 := by
  refine leads_tallyOpen hadm fun u t hu ht => ?_
  rw [tallyOk_ringStep hu, hu.tallyAt, if_pos (by simpa using hbad)] at ht
  exact ⟨((hu.trans (completeTo_ringStep ..)).trans ht).moves.only, ht.answered (answered_completeTo ..)⟩

theorem tallyOpen_opens (hadm : admitted s ring d 0x18 (yCring (words.take 8)) (some (yJob (words.take 8))))
    (hok : tallyOk s (words.take 8) (tallyInputs (words.take 8) inputs) = true) (hfree : tallyAt s (wf (words.take 8) 0 63 52) = none) :
    leads (.tallyOpen ring d words inputs) s fun t => onlyChanges [.host, .tallies, .fresh] s t ∧
      ∃ v, tallyAt t (wf (words.take 8) 0 63 52) = some v ∧ v.words = words.take 8 ∧
        v.inputs = tallyInputs (words.take 8) inputs ∧ v.gen = BitVec.ofNat 16 (wf (words.take 8) 0 43 28) ∧ v.arrived = [] ∧
        v.by_ = some (acceptNow s ring.toNat d.d0 (wf (words.take 8) 0 63 52)) ∧
        v.openAt = if yTick (words.take 8) = true ∨ (yAlign (words.take 8) = true ∧ s.tick.state = 0) then none else some (s.now + 1) := by
  refine leads_tallyOpen hadm fun u t hu ht => ?_
  rw [tallyOk_ringStep hu, hu.tallyAt, if_neg (by simp [hok, hfree])] at ht
  refine ⟨((setTally_moves (Proofs.widen hu.moves rfl) rfl).trans ht.moves rfl).only, _,
    (ht.tallyAt _).trans (tallyAt_setTally_same ..), ?_⟩
  rw [hu.tick, hu.now]
  by_cases hwait : yTick (words.take 8) = true ∨ (yAlign (words.take 8) = true ∧ s.tick.state = 0)
  · rw [if_pos (by simpa using hwait), if_pos hwait]
    exact ⟨rfl, rfl, rfl, rfl, rfl, rfl⟩
  · rw [if_neg (by simpa using hwait), if_neg hwait]
    exact ⟨rfl, rfl, rfl, rfl, rfl, rfl⟩

end Open

/-! ### A tally opens in its cycle (R166) -/

theorem openTally_moves_host (s : State) (n : Nat) (v : Tally) (c : Nat) : Moves [.host, .tallies] s (openTally s n v c) := by
  unfold openTally
  dsimp only
  split
  · exact completeTo_moves (setTally_moves (.refl _ _) rfl) rfl
  · exact setTally_moves (.refl _ _) rfl

theorem openTally_ready (s : State) (n : Nat) (v : Tally) (c : Nat) : s.host.ready ⊆ (openTally s n v c).host.ready := by
  unfold openTally
  dsimp only
  split
  · exact (completeTo_ringStep (setTally s n { v with openAt := some c, by_ := none }) _ _ _ _ _ _ _).side.ready.subset
  · exact List.Subset.refl _

theorem tallyAt_openTally (s : State) (n : Nat) (v : Tally) (c m : Nat) :
    tallyAt (openTally s n v c) m = if m = n then some { v with openAt := some c, by_ := none } else tallyAt s m := by
  rw [← tallyAt_setTally]
  unfold openTally
  dsimp only
  split
  · exact (completeTo_ringStep (setTally s n { v with openAt := some c, by_ := none }) _ _ _ _ _ _ _).tallyAt m
  · rfl

theorem openTally_posted (s : State) (n c : Nat) {v : Tally} {a : Accept} (h : v.by_ = some a) :
    posted (openTally s n v c) a (yCring v.words) stOk 0 0 := by
  unfold openTally
  rw [h]
  exact posted_completeTo ..

/-- The tally that stood under the number n in s opens in t. -/
def openNumber (s t : State) (n : Nat) : State := match tallyAt s n with
  | some v => openTally t n v t.now
  | none => t

/-- The tally that stood under the number n in s has opened: it stands so, and its command is completed. -/
def opened (s : State) (n : Nat) (t : State) : Prop := ∀ v, tallyAt s n = some v →
  tallyAt t n = some { v with openAt := some s.now, by_ := none } ∧ ∀ a, v.by_ = some a → posted t a (yCring v.words) stOk 0 0

theorem now_openNumber (s t : State) (n : Nat) : (openNumber s t n).now = t.now := by
  unfold openNumber
  split
  · exact (openTally_moves_host ..).only .now (by decide)
  · rfl

theorem opened_openNumber {s t : State} (n : Nat) (hnow : t.now = s.now) : opened s n (openNumber s t n) := by
  intro v hv
  simp only [openNumber, hv, hnow]
  exact ⟨by rw [tallyAt_openTally, if_pos rfl], fun a ha => openTally_posted t n s.now ha⟩

theorem opened_stays {s t : State} (n m : Nat) (hnow : t.now = s.now) (h : opened s m t) : opened s m (openNumber s t n) := by
  by_cases hnm : m = n
  · subst hnm
    exact opened_openNumber m hnow
  intro v hv
  obtain ⟨hat, hposted⟩ := h v hv
  unfold openNumber
  split
  · exact ⟨by rw [tallyAt_openTally, if_neg hnm, hat], fun a ha => posted_of_ready (openTally_ready ..) (hposted a ha)⟩
  · exact ⟨hat, hposted⟩

/-- The tallies whose cycle to open has come, by their numbers. -/
def openingNumbers (s : State) : List Nat := (s.tallies.filter fun e => e.2.by_.isSome && tallyOpenNow s e.2).map (·.1)

theorem tallyCycle_eq {s : State} (h : rising s.tallies = true) : tallyCycle s = (openingNumbers s).foldl (openNumber s) s := by
  rw [openingNumbers, List.foldl_map, tallyCycle]
  refine List.foldl_ext _ _ _ fun t e he => ?_
  rw [openNumber, show tallyAt s e.1 = some e.2 from ofind_of_mem h (List.mem_filter.1 he).1]

theorem tallyCycle_opens {s : State} {n : Nat} {v : Tally} {a : Accept} (hrising : rising s.tallies = true) (hv : tallyAt s n = some v)
    (hby : v.by_ = some a) (hopen : tallyOpenNow s v = true) :
    tallyAt (tallyCycle s) n = some { v with openAt := some s.now, by_ := none } ∧
      posted (tallyCycle s) a (yCring v.words) stOk 0 0 := by
  have hmem : n ∈ openingNumbers s :=
    List.mem_map.2 ⟨(n, v), List.mem_filter.2 ⟨mem_of_ofind hv, by simp [hby, hopen]⟩, rfl⟩
  have heach := (foldl_each (I := fun t => t.now = s.now) (P := opened s) (f := openNumber s)
    (fun t x ht => (now_openNumber s t x).trans ht) (fun t x ht => opened_openNumber x ht)
    (fun t x y ht => opened_stays x y ht) (openingNumbers s) s rfl).2 n hmem v hv
  rw [tallyCycle_eq hrising]
  exact ⟨heach.1, heach.2 a hby⟩

/-! ### TALLY_CLOSE and TALLY_ABORT (R182) -/

theorem toldNow_ringStep {s u : State} (h : RingStep s u) (v : Tally) (c : Int) : toldNow u v c = toldNow s v c := by
  rw [toldNow, h.tick, toldNow]

/-- What closing a tally posts before it is freed: its incomplete generation, its opening and its excisions, all ABORTED. -/
def abortTally (u : State) (n : Nat) (v : Tally) : State :=
  let s := (if v.first.isSome then postTally u n v stAborted (toldNow u v (if yCounter v.words then v.count else 0)) else (u, v)).1
  let s := match v.by_ with
    | some b => completeTo s (yCring v.words) b stAborted
    | none => s
  v.excisions.foldl (fun s x => complete s x.2.2 stAborted) s

theorem foldl_complete_ringStep {α : Type} (l : List α) (a : α → Accept) (st : Nat) (s : State) :
    RingStep s (l.foldl (fun s x => complete s (a x) st) s) := by
  induction l generalizing s with
  | nil => exact .refl s
  | cons x l ih => exact (complete_ringStep s _ _ _ _ _).trans (ih _)

/-- The completion of a tally's opening, when it has one. -/
theorem openingAborted_ringStep (s : State) (v : Tally) : RingStep s (match v.by_ with
    | some b => completeTo s (yCring v.words) b stAborted
    | none => s) := by
  split
  · exact completeTo_ringStep ..
  · exact .refl s

theorem abortTally_ringStep (u : State) (n : Nat) (v : Tally) : RingStep u (abortTally u n v) := by
  refine .trans ?_ ((openingAborted_ringStep _ v).trans (foldl_complete_ringStep v.excisions (fun x => x.2.2) stAborted _))
  split
  · exact postTally_ringStep
  · exact .refl u

theorem abortTally_posts {u : State} {n : Nat} {v : Tally} (h : v.first.isSome = true) :
    tallyPosted (abortTally u n v) n v stAborted (toldNow u v (if yCounter v.words then v.count else 0)) := by
  refine tallyPosted_of_ready ((openingAborted_ringStep _ v).trans (foldl_complete_ringStep v.excisions (fun x => x.2.2) stAborted _)).side.ready.subset ?_
  rw [if_pos h]
  exact tallyPosted_postTally fun h => absurd h.1 (by decide)

section Close

variable {s : State} {ring : BitVec 6} {d : Desc} {v : Tally}

theorem closeTally_eq (op : Nat) : closeTally ring d op s =
    accept s ring d op ((tallyAt s (objOf d)).map fun v => yJob v.words) (objOf d) (cringOf d.d0) fun a u =>
      match tallyAt u (objOf d) with
      | none => complete u a stRefused
      | some v => complete { abortTally u (objOf d) v with tallies := odel (abortTally u (objOf d) v).tallies (objOf d) } a stOk := rfl

theorem leads_closeTally {c : Instr} {op : Nat} (hexec : exec c s = .next (closeTally ring d op s)) (hv : tallyAt s (objOf d) = some v)
    (hadm : admitted s ring d op (cringOf d.d0) (some (yJob v.words))) : leads c s fun t =>
      onlyChanges [.host, .tallies, .fresh] s t ∧ tallyAt t (objOf d) = none ∧
      answered s t ring d (cringOf d.d0) (objOf d) stOk 0 0 ∧
      (v.first.isSome = true → tallyPosted t (objOf d) v stAborted (toldNow s v (if yCounter v.words then v.count else 0))) := by
  refine leads_accepted hadm (hexec.trans (congrArg _ (closeTally_eq op))) (by rw [hv]; rfl) rfl fun u t hu ht => ?_
  simp only [hu.tallyAt, hv] at ht
  have habort := abortTally_ringStep u (objOf d) v
  have hposts := abortTally_posts (u := u) (n := objOf d) (v := v)
  generalize hr : abortTally u (objOf d) v = r at ht habort hposts
  have hdone := (complete_ringStep { r with tallies := odel r.tallies (objOf d) } (acceptNow s ring.toNat d.d0 (objOf d)) stOk 0 0 []).trans ht
  refine ⟨(Moves.trans (upd_tallies (Proofs.widen (hu.trans habort).moves rfl) rfl) hdone.moves rfl).only, ?_, ?_, fun h => ?_⟩
  · exact (hdone.tallyAt _).trans (ofind_odel_same _ _)
  · exact ht.answered (answered_completeTo ..)
  · refine tallyPosted_of_ready hdone.side.ready.subset ?_
    rw [← toldNow_ringStep hu]
    exact hposts h

end Close

/-! ### TALLY_EXCISE (R181) -/

section Excise

variable {s : State} {n : Nat} {v : Tally}

/-- A barrier whose generation is neither late nor complete only stands. -/
theorem settleTally_waits {at_ port : Nat} (hbarrier : yCounter v.words = false) (hearly : tallyLate s v = false)
    (hwaits : allArrived v = false) : settleTally s n v at_ port = setTally s n v := by
  simp [settleTally, hbarrier, hearly, hwaits]

/-- The tally without the slot (R181). -/
def slotOut (v : Tally) (slot : Nat) : Tally := { v with excised := v.excised ++ [slot], excisedMark := true }

/-- An excision that leaves a barrier's generation incomplete only takes its slot out. -/
theorem exciseSlot_incomplete {slot : Nat} {a : Accept} (hbarrier : yCounter v.words = false) (hearly : tallyLate s v = false)
    (hwaits : allArrived (slotOut v slot) = false) : exciseSlot s n v slot a = complete (setTally s n (slotOut v slot)) a stOk := by
  have hsettle : settleTally s n (slotOut v slot) s.now 512 = setTally s n (slotOut v slot) := settleTally_waits hbarrier hearly hwaits
  change complete (if tallyOpenNow s (slotOut v slot) then settleTally s n (slotOut v slot) s.now 512 else setTally s n (slotOut v slot)) a stOk = _
  rw [hsettle, ite_self]

theorem tallyLate_ringStep {u : State} (h : RingStep s u) : tallyLate u v = tallyLate s v := by
  rw [tallyLate, h.now, tallyLate]

theorem laterTick_ringStep {u : State} (h : RingStep s u) (tk : BitVec 48) : laterTick u tk = laterTick s tk := by
  rw [laterTick, h.tick, laterTick]

theorem ticksOn_ringStep {u : State} (h : RingStep s u) : ticksOn u = ticksOn s := by
  obtain ⟨host, fresh, rfl⟩ := h.exists_eq
  rfl

/-- The effect of an excision that leaves the generation incomplete: the slot is out, and its command complete. -/
theorem setTally_completed (a : Accept) : Moves [.host, .tallies] s (complete (setTally s n v) a stOk) ∧
    tallyAt (complete (setTally s n v) a stOk) n = some v :=
  ⟨complete_moves (setTally_moves (.refl _ _) rfl) rfl,
    ((complete_ringStep (setTally s n v) a stOk 0 0 []).tallyAt n).trans (tallyAt_setTally_same s n v)⟩

variable {ring : BitVec 6} {d : Desc}

theorem leads_tallyExcise {P : State → Prop} (hv : tallyAt s (objOf d) = some v) (hslot : fld d.d1 21 12 < v.inputs.length)
    (hadm : admitted s ring d 0x1B (cringOf d.d0) (some (yJob v.words)))
    (hP : ∀ u t, RingStep s u → RingStep (if ticksOn s && laterTick s (BitVec.ofNat 48 (fld d.d2 47 0)) then
        setTally u (objOf d) { v with excisions := v.excisions ++
          [(fld d.d1 21 12, BitVec.ofNat 48 (fld d.d2 47 0), acceptNow s ring.toNat d.d0 (objOf d))] }
      else exciseSlot u (objOf d) v (fld d.d1 21 12) (acceptNow s ring.toNat d.d0 (objOf d))) t → P t) :
    leads (.tallyExcise ring d) s P := by
  refine leads_accepted hadm rfl (by rw [hv]; rfl) rfl fun u t hu ht => ?_
  refine hP u t hu ?_
  rw [← ticksOn_ringStep hu, ← laterTick_ringStep hu]
  simpa only [hu.tallyAt, hv, if_neg (Nat.not_le.2 hslot)] using ht

theorem tallyExcise_waits (hv : tallyAt s (objOf d) = some v) (hslot : fld d.d1 21 12 < v.inputs.length)
    (hadm : admitted s ring d 0x1B (cringOf d.d0) (some (yJob v.words))) (hticks : ticksOn s = true)
    (hlater : laterTick s (BitVec.ofNat 48 (fld d.d2 47 0)) = true) : leads (.tallyExcise ring d) s fun t =>
      onlyChanges [.host, .tallies, .fresh] s t ∧ tallyAt t (objOf d) = some { v with excisions := v.excisions ++
        [(fld d.d1 21 12, BitVec.ofNat 48 (fld d.d2 47 0), acceptNow s ring.toNat d.d0 (objOf d))] } := by
  refine leads_tallyExcise hv hslot hadm fun u t hu ht => ?_
  rw [if_pos (by rw [hticks, hlater]; exact rfl)] at ht
  exact ⟨((setTally_moves (Proofs.widen hu.moves rfl) rfl).trans ht.moves rfl).only, (ht.tallyAt _).trans (tallyAt_setTally_same ..)⟩

theorem tallyExcise_excises (hv : tallyAt s (objOf d) = some v) (hslot : fld d.d1 21 12 < v.inputs.length)
    (hadm : admitted s ring d 0x1B (cringOf d.d0) (some (yJob v.words)))
    (hnow : ticksOn s = false ∨ laterTick s (BitVec.ofNat 48 (fld d.d2 47 0)) = false) (hbarrier : yCounter v.words = false)
    (hearly : tallyLate s v = false)
    (hwaits : allArrived (slotOut v (fld d.d1 21 12)) = false) :
    leads (.tallyExcise ring d) s fun t => onlyChanges [.host, .tallies, .fresh] s t ∧
      tallyAt t (objOf d) = some (slotOut v (fld d.d1 21 12)) ∧
      answered s t ring d (cringOf d.d0) (objOf d) stOk 0 0 := by
  refine leads_tallyExcise hv hslot hadm fun u t hu ht => ?_
  rw [if_neg (by rcases hnow with h | h <;> simp [h]), exciseSlot_incomplete hbarrier ((tallyLate_ringStep hu).trans hearly) hwaits] at ht
  obtain ⟨hmoves, hat⟩ := setTally_completed (s := u) (n := objOf d)
    (v := slotOut v (fld d.d1 21 12)) (acceptNow s ring.toNat d.d0 (objOf d))
  exact ⟨((Proofs.widen hu.moves rfl).trans (((Proofs.widen hmoves rfl) : Moves [.host, .tallies, .fresh] u _).trans ht.moves rfl) rfl).only,
    (ht.tallyAt _).trans hat, ht.answered (answered_completeTo ..)⟩

/-- The effect tick of an excision that leaves the generation incomplete. -/
theorem tallyExciseEffect_excises {tally : BitVec 12} {slot : BitVec 10} {x : Nat × BitVec 48 × Accept}
    (hv : tallyAt s tally.toNat = some v)
    (hfind : v.excisions.find? (fun x => x.1 == slot.toNat && !(ticksOn s && laterTick s x.2.1)) = some x)
    (hbarrier : yCounter v.words = false) (hearly : tallyLate s v = false)
    (hwaits : allArrived (slotOut { v with excisions := v.excisions.erase x } slot.toNat) = false) :
    leads (.tallyExciseEffect tally slot) s fun t => onlyChanges [.host, .tallies] s t ∧
      tallyAt t tally.toNat =
        some (slotOut { v with excisions := v.excisions.erase x } slot.toNat) ∧
      posted t x.2.2 (cringOf x.2.2.d0) stOk 0 0 := by
  have hexec : exec (.tallyExciseEffect tally slot) s =
      .next (exciseSlot s tally.toNat { v with excisions := v.excisions.erase x } slot.toNat x.2.2) := by
    change Host.Outcome.next (match tallyAt s tally.toNat with | none => s | some v => _) = _
    rw [hv]
    simp only [hfind]
  refine ⟨_, hexec, ?_⟩
  rw [exciseSlot_incomplete (v := { v with excisions := v.excisions.erase x }) hbarrier hearly hwaits]
  obtain ⟨hmoves, hat⟩ := setTally_completed (s := s) (n := tally.toNat)
    (v := slotOut { v with excisions := v.excisions.erase x } slot.toNat) x.2.2
  exact ⟨hmoves.only, hat, posted_completeTo ..⟩

end Excise

/-- Settles O47: the host interface moves with the command, and closing, opening and excision each set or free the tally alone. -/
theorem tallyCommandsAct : Obligations.TallyCommandsAct := by
  unfold Obligations.TallyCommandsAct
  refine fun s ring d => ⟨fun words inputs hadm => ⟨fun hbad => tallyOpen_refused hadm hbad, fun hok hfree => tallyOpen_opens hadm hok hfree⟩,
    fun n v a hrising hv hby hopen => tallyCycle_opens hrising hv hby hopen, fun v hv => ⟨fun c op hc hadm => ?_, fun hadm hslot => ⟨?_, ?_⟩⟩,
    fun tally slot v x hv hfind hbarrier hearly hwaits => tallyExciseEffect_excises hv hfind hbarrier hearly hwaits⟩
  · simp only [List.mem_cons, Prod.mk.injEq, List.not_mem_nil, or_false] at hc
    obtain ⟨rfl, rfl⟩ | ⟨rfl, rfl⟩ := hc
    · exact leads_closeTally rfl hv hadm
    · exact leads_closeTally rfl hv hadm
  · exact fun hticks hlater => tallyExcise_waits hv hslot hadm hticks hlater
  · exact fun hnow hbarrier hearly hwaits => tallyExcise_excises hv hslot hadm hnow hbarrier hearly hwaits

end Sys2Proof.Proofs

/-! PROOFS. Releases that pass, timers and deadlines of a tally (06 R172, R179, R180). -/

namespace Sys2Proof.Proofs

open Sys2Proof.Machine Sys2Proof.Safety Sys2Proof.Laws

/-! ### Completions ready to be written stay when a kickstand is detected -/

theorem modKick_ready (s : State) (p : Nat) (f : Kick → Kick) : (modKick s p f).host = s.host :=
  (modKick_moves (ll := [.ports]) (Moves.refl _ s) rfl).only .host (by decide)

theorem countPort_ready (s : State) (p word n : Nat) : (countPort s p word n).host = s.host :=
  (countPort_moves (ll := [.ports]) (Moves.refl _ s) rfl).only .host (by decide)

theorem kickDetect_ready (s : State) (p cause till : Nat) : (kickDetect s p cause till).host.ready = s.host.ready :=
  kickDetect_steps (R := fun s t => t.host.ready = s.host.ready) (fun _ => rfl) (fun h g => g.trans h)
    (fun s f => by rw [modKick_ready]) (fun s word => by rw [countPort_ready]) (fun _ _ h => h.ready) s cause till

theorem kickLate_ready (s : State) (job cause till : Nat) : (kickLate s job cause till).host.ready = s.host.ready := by
  unfold kickLate
  induction kickMask s job generalizing s with
  | nil => rfl
  | cons p l ih => exact (ih _).trans (kickDetect_ready s p cause till)

theorem tallyAt_of_moves {l : List Area} {s t : State} (h : Moves l s t) (hl : Area.tallies ∉ l) (n : Nat) : tallyAt t n = tallyAt s n :=
  congrArg (ofind · n) (h.only .tallies hl)

/-! ### A generation that is LATE (R180) -/

section Late

variable {s : State} {n : Nat} {v : Tally}

/-- What LATE leaves of a tally: its next generation, its two counts begun again. -/
def lateNext (v : Tally) : Tally := { clearGen v with late := 0, discard := 0, excisedMark := false }

/-- The entry LATE posts. -/
def lateEntry (s : State) (n : Nat) (v : Tally) : Cpl :=
  { cring := yCring v.words,
    entries := [tallyEntry n v stLate (toldNow s v (if yCounter v.words then (clearGen v).count else 0))] }

theorem clearGen_words (v : Tally) : (clearGen v).words = v.words ∧ (clearGen v).late = v.late ∧ (clearGen v).discard = v.discard := by
  unfold clearGen newGen
  dsimp only
  split <;> exact ⟨rfl, rfl, rfl⟩

theorem lateTally_eq : lateTally s n v = if yKick v.words then kickLate (setTally (ready s (lateEntry s n v)) n (lateNext v)) (yJob v.words) 3 n
    else setTally (ready s (lateEntry s n v)) n (lateNext v) := by
  obtain ⟨hwords, hlate, hdiscard⟩ := clearGen_words v
  rw [lateTally]
  dsimp only
  rw [postTally_posts fun h => absurd h.1 (by decide)]
  simp only [tallyEntry, hwords, hlate, hdiscard, lateEntry, lateNext]

theorem lateTally_posts : tallyPosted (lateTally s n v) n v stLate (toldNow s v (if yCounter v.words then (clearGen v).count else 0)) := by
  refine ⟨lateEntry s n v, ?_, rfl, rfl, rfl⟩
  rw [lateTally_eq]
  split
  · rw [kickLate_ready]
    exact mem_ready s _
  · exact mem_ready s _

theorem tallyAt_lateTally : tallyAt (lateTally s n v) n = some (lateNext v) := by
  rw [lateTally_eq]
  split
  · rw [tallyAt_of_moves (kickLate_moves (.refl [.host, .stats, .ports, .fresh] _) rfl) (by decide), tallyAt_setTally_same]
  · exact tallyAt_setTally_same ..

theorem lateNext_clear (v : Tally) : (lateNext v).gen = v.gen + 1 ∧ (lateNext v).arrived = [] ∧ (lateNext v).first = none ∧
    (lateNext v).dueAt = none := by
  unfold lateNext clearGen newGen
  dsimp only
  split <;> exact ⟨rfl, rfl, rfl, rfl⟩

end Late

/-! ### A release that passes (R172) -/

/-- The release has left the ports it came to, in the cycle of its arrival. -/
def releasePassed (s : State) (p : Nat) (f : Frame) (i : Intake) : State :=
  let t := { takenIn s i with now := i.arrival }
  let t := match releaseCycle t (headerOf f.hdr) with
    | some r => alignedForward t p (headerOf f.hdr) f r
    | none => forward t p (headerOf f.hdr) (headerOf f.hdr) f false
  { t with now := s.now }

theorem releasePassed_moves (s : State) (p : Nat) (f : Frame) (i : Intake) :
    Moves [.now, .host, .stats, .ports, .frames, .reorder, .blockCounts, .pools, .tandem, .dropping, .intake, .faults, .fresh] s
      (releasePassed s p f i) := by
  refine upd_now ?_ rfl
  have hstart : Moves [.now, .host, .stats, .ports, .frames, .reorder, .blockCounts, .pools, .tandem, .dropping, .intake, .faults, .fresh] s
      { takenIn s i with now := i.arrival } := upd_now (upd_intake (.refl _ s) rfl) rfl
  split
  · exact alignedForward_moves hstart rfl
  · exact forward_moves hstart rfl

theorem tallyOpenNow_congr {s t : State} (h : t.now = s.now) (v : Tally) : tallyOpenNow t v = tallyOpenNow s v := by
  rw [tallyOpenNow, h, tallyOpenNow]

/-- An open inner tally of the release's job comes to the generation after the release's. -/
theorem tallyAt_advanceInner {s : State} {h : Header} {v : Tally} (hv : tallyAt s h.till.toNat = some v) (hinner : yInner v.words = true)
    (hjob : h.job.toNat = yJob v.words) (hopen : tallyOpenNow s v = true) :
    tallyAt (advanceInner s h) h.till.toNat = some (newGen v (h.epoch + 1)) := by
  rw [advanceInner]
  simp only [hv, hinner, hjob, hopen, Bool.not_true, bne_self_eq_false, Bool.or_self, Bool.false_eq_true, if_false]
  exact tallyAt_setTally_same ..

theorem onlyChanges_of_kept {l : List Area} {s t : State} (p : Area) (h : onlyChanges (p :: l) s t) (hp : same s t p) : onlyChanges l s t :=
  fun q hq => by
    by_cases hqp : q = p
    · exact hqp ▸ hp
    · exact h q (by simp [hqp, hq])

section Ends

variable {s : State} {tally : BitVec 12} {v : Tally}

theorem exec_tallyReleasePass {port : BitVec 9} {f : Frame} {i : Intake}
    (hfind : s.intake.find? (fun i => decide (i.frame = f ∧ i.port = port.toNat)) = some i) (hgood : frameGood f = true)
    (htype : (headerOf f.hdr).type = 5) :
    exec (.tallyReleasePass port f) s = .next (advanceInner (releasePassed s port.toNat f i) (headerOf f.hdr)) := by
  change Host.Outcome.next (match s.intake.find? fun i => decide (i.frame = f ∧ i.port = port.toNat) with | none => s | some i => _) = _
  rw [hfind]
  dsimp only
  rw [if_neg (by simp [htype]), if_pos hgood]
  exact rfl

theorem tallyReleasePass_advances {port : BitVec 9} {f : Frame} {i : Intake} (hv : tallyAt s tally.toNat = some v)
    (hfind : s.intake.find? (fun i => decide (i.frame = f ∧ i.port = port.toNat)) = some i) (hgood : frameGood f = true)
    (htype : (headerOf f.hdr).type = 5) (htill : (headerOf f.hdr).till = tally) (hinner : yInner v.words = true)
    (hjob : (headerOf f.hdr).job.toNat = yJob v.words) (hopen : tallyOpenNow s v = true) :
    leads (.tallyReleasePass port f) s fun t =>
      onlyChanges [.host, .stats, .ports, .frames, .stalled, .reorder, .doneMsgs, .blockCounts, .pools, .tandem, .dropping, .intake,
          .tallies, .faults, .fresh] s t ∧ tallyAt t tally.toNat = some (newGen v ((headerOf f.hdr).epoch + 1)) := by
  have hpassed := releasePassed_moves s port.toNat f i
  have hat : tallyAt (releasePassed s port.toNat f i) (headerOf f.hdr).till.toNat = some v := by
    rw [htill, tallyAt_of_moves hpassed (by decide), hv]
  refine ⟨_, exec_tallyReleasePass hfind hgood htype, onlyChanges_of_kept .now ?_ ?_, ?_⟩
  · exact (advanceInner_moves (Proofs.widen hpassed rfl) rfl).only
  · exact ((advanceInner_moves (.refl [.host, .stats, .tallies, .fresh] (releasePassed s port.toNat f i)) rfl).only .now (by decide))
  · rw [← htill]
    exact tallyAt_advanceInner hat hinner hjob ((tallyOpenNow_congr rfl v).trans hopen)

/-- The timer posts an event and runs again. -/
theorem exec_tallyTimerExpiry (hv : tallyAt s tally.toNat = some v) (hdue : dueNow s v.timerAt = true) (hwaits : allArrived v = false) :
    ∃ u, EventStep s u ∧ exec (.tallyTimerExpiry tally) s =
      .next (setTally u tally.toNat { v with timerAt := some (s.now + yTimeout v.words) }) := by
  let low := (firstIdx v.inputs.length fun i => !v.arrived.contains i && !v.excised.contains i).getD 0
  have hevent := postEvent_eventStep s srcTally 0x01 (yJob v.words) tally.toNat v.all (v.gen.toNat + low * 65536) none
  refine ⟨_, hevent, ?_⟩
  rw [← hevent.moves.only .now (by decide)]
  change Host.Outcome.next (match tallyAt s tally.toNat with | none => s | some v => _) = _
  rw [hv]
  exact congrArg _ (if_neg (by simp [hdue, hwaits]))

theorem tallyTimerExpiry_again (hv : tallyAt s tally.toNat = some v) (hdue : dueNow s v.timerAt = true) (hwaits : allArrived v = false) :
    leads (.tallyTimerExpiry tally) s fun t => onlyChanges [.host, .stats, .tallies, .fresh] s t ∧
      tallyAt t tally.toNat = some { v with timerAt := some (s.now + yTimeout v.words) } := by
  obtain ⟨u, -, hexec⟩ := exec_tallyTimerExpiry hv hdue hwaits
  exact leads_moves hexec execTallyTimerExpiry_moves (tallyAt_setTally_same ..)

theorem tallyDeadline_late (hv : tallyAt s tally.toNat = some v) (hlate : tallyLate s v = true) :
    leads (.tallyDeadline tally) s fun t => onlyChanges [.host, .stats, .ports, .tallies, .fresh] s t ∧
      tallyPosted t tally.toNat v stLate (toldNow s v (if yCounter v.words then (clearGen v).count else 0)) ∧
      ∃ z, tallyAt t tally.toNat = some z ∧ z.gen = v.gen + 1 ∧ z.arrived = [] ∧ z.first = none ∧ z.dueAt = none ∧ z.late = 0 ∧
        z.discard = 0 ∧ z.count = (clearGen v).count := by
  have hexec : exec (.tallyDeadline tally) s = .next (lateTally s tally.toNat v) := by
    change Host.Outcome.next (match tallyAt s tally.toNat with | none => s | some v => _) = _
    rw [hv]
    exact congrArg _ (if_pos hlate)
  obtain ⟨hgen, harrived, hfirst, hdue⟩ := lateNext_clear v
  exact leads_moves hexec execTallyDeadline_moves
    ⟨lateTally_posts, _, tallyAt_lateTally, hgen, harrived, hfirst, hdue, rfl, rfl, rfl⟩

end Ends

/-- Settles O49: the snooped release only advances the inner tally, the timer only runs again, and LATE posts and clears the generation. -/
theorem tallyGenerationsEnd : Obligations.TallyGenerationsEnd := by
  unfold Obligations.TallyGenerationsEnd
  exact fun s tally v hv => ⟨fun port f i hfind hgood htype htill hinner hjob hopen =>
    tallyReleasePass_advances hv hfind hgood htype htill hinner hjob hopen,
    fun hdue hwaits => tallyTimerExpiry_again hv hdue hwaits, fun hlate => tallyDeadline_late hv hlate⟩

end Sys2Proof.Proofs

/-! PROOFS. Slabs granted to a till: what a grant leaves, and that it depends on no completion, event or number (03 R87, 10 R308). -/

namespace Sys2Proof.Proofs

open Sys2Proof.Machine Sys2Proof.Safety Sys2Proof.Laws

/-! ### States that the pools do not tell apart -/

/-- The two states differ in the host interface, the status blocks and the numbering alone. -/
def EventsApart (s u : State) : Prop := ∃ host stats fresh, u = { s with host := host, stats := stats, fresh := fresh }

namespace EventsApart

variable {s t u : State}

theorem refl (s : State) : EventsApart s s := ⟨_, _, _, rfl⟩

theorem symm (h : EventsApart s t) : EventsApart t s := by
  obtain ⟨host, stats, fresh, rfl⟩ := h
  exact ⟨s.host, s.stats, s.fresh, rfl⟩

theorem trans (h : EventsApart s t) (g : EventsApart t u) : EventsApart s u := by
  obtain ⟨_, _, _, rfl⟩ := h
  obtain ⟨host, stats, fresh, rfl⟩ := g
  exact ⟨host, stats, fresh, rfl⟩

theorem of_moves (h : Moves [.host, .stats, .fresh] s t) : EventsApart s t := by
  have hhbm : t.hbm = s.hbm := hbm_eq_of_moves h (by decide) (by decide)
  exact ⟨t.host, t.stats, t.fresh, (State.mk.injEq ..).mpr ⟨h.only .now (by decide), h.only .boot (by decide), h.only .tick (by decide),
    h.only .tables (by decide), rfl, rfl, h.only .refused (by decide), h.only .ports (by decide), h.only .lanes (by decide),
    h.only .frames (by decide), h.only .stalled (by decide), h.only .reorder (by decide), h.only .doneMsgs (by decide),
    h.only .blockCounts (by decide), h.only .shapers (by decide), h.only .meters (by decide), h.only .pools (by decide),
    h.only .tandem (by decide), h.only .dropping (by decide), h.only .intake (by decide), h.only .parsing (by decide),
    h.only .tills (by decide), h.only .tallies (by decide), h.only .progs (by decide), h.only .ctxs (by decide), h.only .tiles (by decide),
    hhbm, h.only .faults (by decide), h.only .bridge (by decide), h.only .relays (by decide), h.only .toss (by decide),
    h.only .jobFree (by decide), h.only .ledger (by decide), h.only .spdm (by decide), h.only .doe (by decide), rfl,
    h.only .pending (by decide)⟩⟩

end EventsApart

theorem RingStep.eventsApart {s t : State} (h : RingStep s t) : EventsApart s t := .of_moves (Proofs.widen h.moves rfl)

theorem EventStep.eventsApart {s t : State} (h : EventStep s t) : EventsApart s t := .of_moves h.moves

/-- The state with another host interface, other status blocks and numbers, and other scratchpad lines taken. -/
def elsewhere (s : State) (host : HostIf) (stats : Sparse Stat) (fresh : Nat) (scratch : Sparse Nat) : State :=
  { s with host := host, stats := stats, fresh := fresh, tiles := { s.tiles with scratch := scratch } }

/-- The two states differ in parts that the pools and their grants do not ask for. -/
def PoolsApart (s u : State) : Prop := ∃ host stats fresh scratch, u = elsewhere s host stats fresh scratch

theorem PoolsApart.symm {s t : State} (h : PoolsApart s t) : PoolsApart t s := by
  obtain ⟨host, stats, fresh, scratch, rfl⟩ := h
  exact ⟨s.host, s.stats, s.fresh, s.tiles.scratch, rfl⟩

theorem PoolsApart.trans {s t u : State} (h : PoolsApart s t) (g : PoolsApart t u) : PoolsApart s u := by
  obtain ⟨_, _, _, _, rfl⟩ := h
  obtain ⟨host, stats, fresh, scratch, rfl⟩ := g
  exact ⟨host, stats, fresh, scratch, rfl⟩

theorem EventsApart.poolsApart {s u : State} (h : EventsApart s u) : PoolsApart s u := by
  obtain ⟨host, stats, fresh, rfl⟩ := h
  exact ⟨host, stats, fresh, s.tiles.scratch, rfl⟩

/-- A pool's fault differs from the same fault of another such state no more than the states do. -/
theorem poolFault_poolsApart {s u : State} (h : PoolsApart s u) (fence : Bool) (pool q unit : Nat) :
    PoolsApart (poolFault s fence pool q unit) (poolFault u fence pool q unit) := by
  obtain ⟨host, stats, fresh, scratch, rfl⟩ := h
  unfold poolFault
  cases fence
  all_goals
    refine ((setCause_eventStep ..).eventsApart.poolsApart.symm.trans ?_).trans (setCause_eventStep ..).eventsApart.poolsApart
    exact ⟨host, stats, fresh, scratch, rfl⟩

section Take

variable {s u : State}

theorem fenceSlab_poolsApart (h : PoolsApart s u) (q c : Nat) (b : Block) : PoolsApart (fenceSlab s q c b) (fenceSlab u q c b) := by
  obtain ⟨host, stats, fresh, scratch, rfl⟩ := h
  exact poolFault_poolsApart ⟨host, stats, fresh, scratch, rfl⟩ ..

/-- What a state gets, another that differs as little gets as well, and they still differ as little. -/
def GrantsAlike {α : Type} (x y : Option (State × α)) : Prop := ∀ t b, x = some (t, b) → ∃ v, y = some (v, b) ∧ PoolsApart t v

theorem takeSlab_alike (k : Nat) (h : PoolsApart s u) (q c z : Nat) : GrantsAlike (takeSlab k s q c z) (takeSlab k u q c z) := by
  induction k generalizing s u with
  | zero => exact fun t b (ht : none = some (t, b)) => nomatch ht
  | succ k ih =>
    obtain ⟨host, stats, fresh, scratch, rfl⟩ := h
    intro t b ht
    rw [takeSlab] at ht ⊢
    rw [show freeBlocks (elsewhere s host stats fresh scratch) c = freeBlocks s c from rfl]
    cases hblock : takeBlock4 (freeBlocks s c) z with
    | none => simp [hblock] at ht
    | some r =>
      have hfree : PoolsApart (setFree s c r.2) (setFree (elsewhere s host stats fresh scratch) c r.2) :=
        ⟨host, stats, fresh, scratch, rfl⟩
      simp only [hblock] at ht ⊢
      change (if (blockMarks s.faults.stuck c r.1).isEmpty then _ else _) = _ at ht
      change ∃ v, (if (blockMarks s.faults.stuck c r.1).isEmpty then _ else _) = _ ∧ _
      split at ht
      next hclean =>
        obtain ⟨rfl, rfl⟩ := Prod.mk.inj (Option.some.inj ht)
        exact ⟨_, if_pos hclean, hfree⟩
      next hclean =>
        rw [if_neg hclean]
        exact ih (fenceSlab_poolsApart hfree q c r.1) t b ht

theorem takeSlabs_alike (q : Nat) (l : List (Nat × Nat)) (h : PoolsApart s u) : GrantsAlike (takeSlabs q s l) (takeSlabs q u l) := by
  induction l generalizing s u with
  | nil =>
    intro t b ht
    obtain ⟨rfl, rfl⟩ := Prod.mk.inj (Option.some.inj ht)
    exact ⟨u, rfl, h⟩
  | cons e l ih =>
    have hone := takeSlab_alike (s.faults.stuck.length + 1) h q e.1 e.2
    have hfuel : u.faults = s.faults := by
      obtain ⟨host, stats, fresh, scratch, rfl⟩ := h
      rfl
    intro t b ht
    rw [takeSlabs] at ht ⊢
    rw [hfuel]
    cases hfirst : takeSlab (s.faults.stuck.length + 1) s q e.1 e.2 with
    | none => simp [hfirst] at ht
    | some r =>
      obtain ⟨v, hv, hapart⟩ := hone _ _ hfirst
      simp only [hfirst] at ht
      simp only [hv]
      cases hrest : takeSlabs q r.1 l with
      | none => simp [hrest] at ht
      | some p =>
        obtain ⟨w, hw, hlast⟩ := ih hapart _ _ hrest
        simp only [hrest] at ht
        obtain ⟨rfl, rfl⟩ := Prod.mk.inj (Option.some.inj ht)
        exact ⟨w, by simp only [hw], hlast⟩

theorem grantTill_alike (h : PoolsApart s u) (n : Nat) (w sh : List W64) : GrantsAlike (grantTill s n w sh) (grantTill u n w sh) := by
  obtain ⟨host, stats, fresh, scratch, rfl⟩ := id h
  intro t b ht
  rw [grantTill] at ht ⊢
  change (if notReadyFor s w then none else grantSlabs s (tillQuota 1 w) (slabNeed s n w sh)) = _ at ht
  change ∃ v, (if notReadyFor s w then none else grantSlabs _ (tillQuota 1 w) (slabNeed s n w sh)) = _ ∧ _
  split at ht
  · exact nomatch ht
  next hready =>
    rw [if_neg hready]
    rw [grantSlabs] at ht ⊢
    split at ht
    next hquota =>
      obtain ⟨r, hr, hput⟩ := Option.map_eq_some_iff.1 ht
      obtain ⟨rfl, rfl⟩ := Prod.mk.inj hput
      obtain ⟨v, hv, hapart⟩ := takeSlabs_alike _ _ h _ _ hr
      refine ⟨addUse v (tillQuota 1 w) (unitsOf (slabNeed s n w sh)), ?_, ?_⟩
      · exact (if_pos hquota).trans (congrArg (Option.map _) hv)
      · obtain ⟨host', stats', fresh', scratch', rfl⟩ := hapart
        exact ⟨host', stats', fresh', scratch', rfl⟩
    · exact nomatch ht

/-! ### What a grant of slabs moves -/

theorem takeSlab_moves_clean {k q c z : Nat} {t : State} {b : Block} (hstuck : s.faults.stuck = []) (h : takeSlab k s q c z = some (t, b)) :
    Moves [.pools] s t := by
  cases k with
  | zero => cases h
  | succ k =>
    rw [takeSlab] at h
    split at h
    · cases h
    next b' free hblock =>
      change (if (blockMarks s.faults.stuck c b').isEmpty then _ else _) = _ at h
      rw [hstuck, if_pos (show (blockMarks [] c b').isEmpty = true from rfl)] at h
      cases h
      exact setFree_moves (.refl _ s) rfl

theorem takeSlabs_moves_clean {q : Nat} {t : State} {l : List (Nat × Nat)} {b : List (Nat × Block)} (hstuck : s.faults.stuck = [])
    (h : takeSlabs q s l = some (t, b)) : Moves [.pools] s t := by
  induction l generalizing s b with
  | nil => cases h; exact .refl _ _
  | cons e l ih =>
    rw [takeSlabs] at h
    split at h
    · cases h
    next v b' hfirst =>
      have hone := takeSlab_moves_clean hstuck hfirst
      split at h
      · cases h
      next hrest =>
        cases h
        exact hone.trans (ih (by rw [show v.faults = s.faults from hone.only .faults (by decide), hstuck]) hrest) rfl

/-- Granted slabs move the pools alone, but where something stuck may have to be fenced. -/
theorem grantTill_moves_areas {n : Nat} {w sh : List W64} {t : State} {b : List (Nat × Block)} (h : grantTill s n w sh = some (t, b)) :
    Moves (poolAreas s ++ [.pools]) s t := by
  unfold poolAreas
  split
  next hnone =>
    obtain ⟨hstuck, -⟩ := Bool.and_eq_true_iff.1 hnone
    rw [grantTill] at h
    split at h
    · cases h
    rw [grantSlabs] at h
    split at h
    · obtain ⟨r, hr, hput⟩ := Option.map_eq_some_iff.1 h
      cases hput
      exact addUse_moves (takeSlabs_moves_clean (List.isEmpty_iff.1 hstuck) hr) rfl
    · cases h
  · exact grantTill_moves (.refl _ s) rfl h

theorem takeStaging_moves_areas {q k : Nat} {t : State} (h : takeStaging s q k = some t) : Moves (poolAreas s ++ [.pools]) s t := by
  rw [takeStaging] at h
  split at h
  · cases h
    exact upd_pools ((addUse_moves (Moves.refl _ s) (sub_append_right _ rfl)).trans (takeStuck_moves_areas (addUse s q k) 2 0 q)
      (sub_append_self _ rfl)) (sub_append_right _ rfl)
  · cases h

end Take

end Sys2Proof.Proofs

/-! PROOFS. Commands to an open till: they begin its drains, drop a waiter, and resume or restore (03 R87, R92-R96, R101). -/

namespace Sys2Proof.Proofs

open Sys2Proof.Machine Sys2Proof.Safety Sys2Proof.Laws

/-! ### Tills of a state -/

theorem tillAt_setTill_same (s : State) (n : Nat) (x : Till) : tillAt (setTill s n x) n = some x := by
  rw [tillAt_setTill, if_pos rfl]

theorem tillAt_of_moves {l : List Area} {s t : State} (h : Moves l s t) (hl : Area.tills ∉ l) (n : Nat) : tillAt t n = tillAt s n :=
  congrArg (ofind · n) (h.only .tills hl)

theorem tilesMissing_ringStep {s u : State} (h : RingStep s u) (n : Nat) (x : Till) : tilesMissing u n x = tilesMissing s n x := by
  obtain ⟨host, fresh, rfl⟩ := h.exists_eq
  rfl

/-- Accepting a command on a till and settling failed fetches move the host interface, so what its effect moves is moved in all. -/
theorem onlyChanges_between {l : List Area} {s u v t : State} (hu : RingStep s u) (ht : RingStep v t) (hv : Moves l u v)
    (hsub : sub [.host, .fresh] l = true) : onlyChanges l s t :=
  ((Proofs.widen hu.moves hsub).trans (hv.trans ht.moves hsub) (sub_iff.2 fun _ h => h)).only

section Command

variable {s : State} {ring : BitVec 6} {d : Desc} {x : Till} {op : Nat}

/-- A command that names a till whose epoch goes on has its effect on it. -/
theorem leads_tillCmd {c : Instr} {body : Accept → Nat → Till → State → State} {P : State → Prop} (r : Res)
    (hexec : exec c s = r) (hbody : r = tillCmd ring d op s body) (hx : tillAt s (objOf d) = some x) (hgoes : x.ended = false)
    (hadm : admitted s ring d op (cringOf d.d0) (some (tillJob x)))
    (hP : ∀ u t, RingStep s u → RingStep (body (acceptNow s ring.toNat d.d0 (objOf d)) (objOf d) x u) t → P t) : leads c s P := by
  refine leads_accepted hadm (hexec.trans (hbody.trans rfl)) (by rw [hx]; rfl) rfl fun u t hu ht => hP u t hu ?_
  simpa only [hu.tillAt, hx, hgoes, Bool.false_eq_true, if_false] using ht

/-- A drain joins those of the till. -/
def drainJoins (s : State) (x : Till) (kind : DrainKind) (a : Accept) : Till :=
  { x with drains := x.drains ++ [{ c := s.now, kind := kind, by_ := some a }] }

/-- A command whose effect only sets the till. -/
theorem leads_setsTill {c : Instr} {body : Accept → Nat → Till → State → State} {y : Till} (r : Res)
    (hexec : exec c s = r) (hr : r = tillCmd ring d op s body) (hx : tillAt s (objOf d) = some x) (hgoes : x.ended = false)
    (hadm : admitted s ring d op (cringOf d.d0) (some (tillJob x)))
    (hbody : ∀ u, RingStep s u → body (acceptNow s ring.toNat d.d0 (objOf d)) (objOf d) x u = setTill u (objOf d) y) :
    leads c s fun t => onlyChanges [.host, .tills, .fresh] s t ∧ tillAt t (objOf d) = some y := by
  refine leads_tillCmd r hexec hr hx hgoes hadm fun u t hu ht => ?_
  rw [hbody u hu] at ht
  exact ⟨onlyChanges_between hu ht (setTill_moves (.refl _ u) rfl) rfl, (ht.tillAt _).trans (tillAt_setTill_same ..)⟩

theorem addDrain_ringStep {u : State} (h : RingStep s u) (n : Nat) (k : DrainKind) (a : Accept) :
    addDrain u n x k (some a) = setTill u n (drainJoins s x k a) := by
  rw [addDrain, h.now, drainJoins]

theorem tillClose_drains (hx : tillAt s (objOf d) = some x) (hgoes : x.ended = false)
    (hadm : admitted s ring d 0x11 (cringOf d.d0) (some (tillJob x))) (hst : x.st = .open ∨ x.st = .stopped ∨ x.st = .saved)
    (hclose : isClosing x = false) : leads (.tillClose ring d) s fun t => onlyChanges [.host, .tills, .fresh] s t ∧
      tillAt t (objOf d) = some (drainJoins s x .close (acceptNow s ring.toNat d.d0 (objOf d))) := by
  refine leads_setsTill (execTillClose ring d s) rfl rfl hx hgoes hadm fun u hu => ?_
  rw [← addDrain_ringStep hu]
  refine if_neg ?_
  rcases hst with h | h | h <;> simp [h, hclose]

theorem tillAbort_drains (hx : tillAt s (objOf d) = some x) (hgoes : x.ended = false)
    (hadm : admitted s ring d 0x12 (cringOf d.d0) (some (tillJob x))) (hst : x.st = .open) (hclose : isClosing x = false)
    (hbusy : chunkBusy x = true) : leads (.tillAbort ring d) s fun t => onlyChanges [.host, .tills, .fresh] s t ∧
      tillAt t (objOf d) = some (drainJoins s x .abort (acceptNow s ring.toNat d.d0 (objOf d))) := by
  refine leads_setsTill (execTillAbort ring d s) rfl rfl hx hgoes hadm fun u hu => ?_
  rw [← addDrain_ringStep hu]
  rw [if_neg (by simp [hst]), if_neg (by simp [hclose]), if_pos (by simp [hst, hbusy])]

/-! ### The abort of a waiting till (R87) -/

/-- A waiter whose result is no vault's leaves with its slabs and its slices alone. -/
theorem dropWaiter_moves_waiting {u : State} {n status : Nat} (hvault : tVault x.words = false) :
    Moves [.host, .pools, .tills, .tiles, .jobFree] u (dropWaiter u n x status) ∧ tillAt (dropWaiter u n x status) n = none ∧
      ∀ b, x.by_ = some b → posted (dropWaiter u n x status) b (tCring x.words) status 0 0 := by
  have hgiven : Moves [.host, .pools, .tills, .tiles, .jobFree] u
      (returnSlabs (scratchGive (admitWaited u x) (fuseUse u n x.words)) u.now (tillQuota 1 x.words) x.slabs) :=
    returnSlabs_moves (scratchGive_moves (admitWaited_moves (.refl _ u) rfl) rfl) rfl
  unfold dropWaiter unbind
  dsimp only
  rw [if_neg (by simp [hvault])]
  generalize hr : returnSlabs (scratchGive (admitWaited u x) (fuseUse u n x.words)) u.now (tillQuota 1 x.words) x.slabs = r at hgiven
  have hgone : Moves [.host, .pools, .tills, .tiles, .jobFree] u { r with tills := odel r.tills n } := upd_tills hgiven rfl
  cases hby : x.by_ with
  | none => exact ⟨hgone, ofind_odel_same _ _, nofun⟩
  | some b =>
    refine ⟨completeTo_moves hgone rfl, ((completeTo_ringStep ..).tillAt n).trans (ofind_odel_same _ _), fun c hc => ?_⟩
    cases hc
    exact posted_completeTo ..

theorem tillAbort_drops (hx : tillAt s (objOf d) = some x) (hgoes : x.ended = false)
    (hadm : admitted s ring d 0x12 (cringOf d.d0) (some (tillJob x))) (hst : x.st = .waitAdmit) (hvault : tVault x.words = false) :
    leads (.tillAbort ring d) s fun t =>
      onlyChanges [.host, .pools, .tills, .tiles, .jobFree, .fresh] s t ∧ tillAt t (objOf d) = none ∧
      answered s t ring d (cringOf d.d0) (objOf d) stOk 0 0 ∧ ∀ b, x.by_ = some b → posted t b (tCring x.words) stAborted 0 0 := by
  refine leads_tillCmd (execTillAbort ring d s) rfl rfl hx hgoes hadm fun u t hu ht => ?_
  rw [if_pos (Or.inl hst)] at ht
  obtain ⟨hmoves, hgone, hposted⟩ := dropWaiter_moves_waiting (u := u) (n := objOf d) (status := stAborted) hvault
  have hdone := (complete_ringStep (dropWaiter u (objOf d) x stAborted) (acceptNow s ring.toNat d.d0 (objOf d)) stOk 0 0 []).trans ht
  exact ⟨onlyChanges_between hu hdone (Proofs.widen hmoves rfl) rfl, (hdone.tillAt _).trans hgone, ht.answered (answered_completeTo ..),
    fun b hb => hdone.posted (hposted b hb)⟩

/-! ### TILL_SAVE (R93) -/

/-- What a save begun leaves of the till: its drain and the staging it takes. -/
theorem beginSave_till {u t : State} {n : Nat} {kind : DrainKind} {by_ : Option Accept} (h : beginSave u n x kind by_ = some t) :
    ∃ y, tillAt t n = some y ∧ y.drains = x.drains ++ [{ c := u.now, kind := kind, by_ := by_ }] ∧ y.chunks = x.chunks := by
  unfold beginSave at h
  dsimp only at h
  split at h
  · cases h
    exact ⟨_, tillAt_setTill_same .., rfl, rfl⟩
  · split at h
    · cases h
    · obtain ⟨v, -, rfl⟩ := Option.map_eq_some_iff.1 h
      exact ⟨_, tillAt_setTill_same .., rfl, rfl⟩

theorem beginSave_moves_areas {u t : State} {n : Nat} {kind : DrainKind} {by_ : Option Accept} (h : beginSave u n x kind by_ = some t) :
    Moves (poolAreas u ++ [.pools, .tills]) u t := by
  unfold beginSave at h
  dsimp only at h
  split at h
  · cases h
    exact setTill_moves (.refl _ u) (sub_append_right _ rfl)
  · split at h
    · cases h
    · obtain ⟨v, hv, rfl⟩ := Option.map_eq_some_iff.1 h
      exact setTill_moves (Proofs.widen (takeStaging_moves_areas hv) (sub_append_self _ rfl)) (sub_append_right _ rfl)

/-- A save begins if host memory is its target, or the staging buffers can be had. -/
theorem beginSave_isSome (s : State) (n : Nat) (x : Till) (kind : DrainKind) (by_ : Option Accept) : (beginSave s n x kind by_).isSome =
    (tSaveHost x.words || !isN s && quotaAllows s 2 (tillQuota 2 x.words) (imageBuffers x) (freeStaging s) (sget 0 s.pools.use)) := by
  unfold beginSave takeStaging
  cases tSaveHost x.words
  · cases isN s
    · cases quotaAllows s 2 (tillQuota 2 x.words) (imageBuffers x) (freeStaging s) (sget 0 s.pools.use) <;> rfl
    · rfl
  · rfl

/-- Whether a save begins depends on no completion, number or command. -/
theorem beginSave_ringStep {u : State} (h : RingStep s u) (n : Nat) (kind : DrainKind) (a b : Option Accept) :
    (beginSave u n x kind a).isSome = (beginSave s n x kind b).isSome := by
  obtain ⟨host, fresh, rfl⟩ := h.exists_eq
  rw [beginSave_isSome, beginSave_isSome]
  rfl

theorem poolAreas_ringStep {u : State} (h : RingStep s u) : poolAreas u = poolAreas s := by rw [poolAreas, h.faults, poolAreas]

theorem tillSave_begins (hx : tillAt s (objOf d) = some x) (hgoes : x.ended = false)
    (hadm : admitted s ring d 0x13 (cringOf d.d0) (some (tillJob x))) (hst : x.st = .open) (hends : isEnding x = false)
    (hsaves : isSaving x = false) (hbegins : (beginSave s (objOf d) x .save none).isSome = true) :
    leads (.tillSave ring d) s fun t => onlyChanges (poolAreas s ++ [.host, .pools, .tills, .fresh]) s t ∧
      ∃ y, tillAt t (objOf d) = some y ∧
        y.drains = (drainJoins s x .save (acceptNow s ring.toNat d.d0 (objOf d))).drains ∧ y.chunks = x.chunks := by
  refine leads_tillCmd (execTillSave ring d s) rfl rfl hx hgoes hadm fun u t hu ht => ?_
  obtain ⟨v, hv⟩ := Option.isSome_iff_exists.1 ((beginSave_ringStep hu (objOf d) .save (some (acceptNow s ring.toNat d.d0 (objOf d))) none).trans
    hbegins)
  rw [if_neg (by simp [hst, hends, hsaves]), hv] at ht
  obtain ⟨y, hy, hdrains, hchunks⟩ := beginSave_till hv
  refine ⟨onlyChanges_between hu ht ?_ (sub_append_right _ rfl), y, (ht.tillAt _).trans hy, ?_, hchunks⟩
  · rw [← poolAreas_ringStep hu]
    exact Proofs.widen (beginSave_moves_areas hv) (sub_append_self _ rfl)
  · rw [hdrains, hu.now, drainJoins]

/-! ### TILL_EXCISE, TILL_RESUME and TILL_RESTORE (R95, R96, R101) -/

theorem tillExcise_begins (hx : tillAt s (objOf d) = some x) (hgoes : x.ended = false)
    (hadm : admitted s ring d 0x16 (cringOf d.d0) (some (tillJob x))) (hst : x.st = .open) (hends : isEnding x = false)
    (hsaves : isSaving x = false) (hslot : fld d.d1 21 12 ∈ inputsOf x.words x.shard) (hnew : fld d.d1 21 12 ∉ x.excised) :
    leads (.tillExcise ring d) s fun t => onlyChanges [.host, .tills, .fresh] s t ∧ tillAt t (objOf d) =
      some (if ticksOn s && laterTick s (BitVec.ofNat 48 (fld d.d2 47 0)) then
        { x with excisions := x.excisions ++ [(fld d.d1 21 12, fld d.d1 35 22, BitVec.ofNat 48 (fld d.d2 47 0),
          acceptNow s ring.toNat d.d0 (objOf d))] }
        else drainJoins s x (.excise (fld d.d1 21 12) (fld d.d1 35 22)) (acceptNow s ring.toNat d.d0 (objOf d))) := by
  refine leads_setsTill (execTillExcise ring d s) rfl rfl hx hgoes hadm fun u hu => ?_
  dsimp only
  rw [if_neg (by simp [hst, hends, hsaves, hslot, hnew]), ticksOn_ringStep hu, laterTick_ringStep hu, addDrain_ringStep hu]
  split <;> rfl

theorem deltaFor_ringStep {u : State} (h : RingStep s u) (w : List W64) (e : W16) : deltaFor u w e = deltaFor s w e := by
  obtain ⟨host, fresh, rfl⟩ := h.exists_eq
  rfl

theorem tillResume_resumes (hx : tillAt s (objOf d) = some x) (hgoes : x.ended = false)
    (hadm : admitted s ring d 0x15 (cringOf d.d0) (some (tillJob x))) (hst : x.st = .stopped) (hends : isEnding x = false)
    (hnone : x.resuming = none) (htiles : tilesMissing s (objOf d) x = false) :
    leads (.tillResume ring d) s fun t => onlyChanges [.host, .tills, .fresh] s t ∧ tillAt t (objOf d) =
      some { x with resuming := some (acceptNow s ring.toNat d.d0 (objOf d)), delta := deltaFor s x.words x.epoch } := by
  refine leads_setsTill (execTillResume ring d s) rfl rfl hx hgoes hadm fun u hu => ?_
  rw [if_neg (by simp [hst, hends, hnone, tilesMissing_ringStep hu, htiles]), deltaFor_ringStep hu]

theorem resumeTill_opens {n : Nat} {b : Accept} (hx : tillAt s n = some x) (hb : x.resuming = some b) :
    posted (resumeTill s n) b (cringOf b.d0) stOk 0 0 ∧
      ∃ y, tillAt (resumeTill s n) n = some y ∧ y.st = .open ∧ y.epoch = x.epoch ∧ y.chunks = x.chunks.map fun _ => blankChunk x.epoch := by
  unfold resumeTill
  simp only [hx, hb]
  exact ⟨posted_completeTo .., _, ((complete_ringStep ..).tillAt n).trans (tillAt_setTill_same ..), rfl, rfl, rfl⟩

section Restore

variable {img : TillImage} {chk : ReadCheck}

/-- TILL_RESTORE from host memory of a saved till, its image checked. -/
theorem leads_tillRestore {P : State → Prop} (hx : tillAt s (objOf d) = some x) (hgoes : x.ended = false)
    (hadm : admitted s ring d 0x14 (cringOf d.d0) (some (tillJob x))) (hst : x.st = .saved) (hends : isEnding x = false)
    (hsaves : isSaving x = false) (htiles : tilesMissing s (objOf d) x = false) (hhost : bit d.d1.toNat 12 = true)
    (hP : ∀ u t, RingStep s u → RingStep (let a := acceptNow s ring.toNat d.d0 (objOf d)
      if !imageGood (objOf d) x img .first then complete u a stDetect
      else match grantTill u (objOf d) x.words x.shard with
        | some (v, slabs) => setTill v (objOf d) { x with slabs := slabs, loading := some (img, some a) }
        | none => if tAdmit x.words then complete u a stRefused else setTill u (objOf d) { x with loading := some (img, some a) }) t → P t) :
    leads (.tillRestore ring d img chk) s P := by
  refine leads_tillCmd (execTillRestore ring d img chk s) rfl rfl hx hgoes hadm fun u t hu ht => hP u t hu ?_
  dsimp only at ht
  rw [if_pos hhost] at ht
  dsimp only at ht
  rw [if_neg (by simp [hends, hsaves, tilesMissing_ringStep hu, htiles]), if_neg (by simp [hst]), if_pos hst, if_pos hhost] at ht
  exact ht

theorem tillRestore_fails (hx : tillAt s (objOf d) = some x) (hgoes : x.ended = false)
    (hadm : admitted s ring d 0x14 (cringOf d.d0) (some (tillJob x))) (hst : x.st = .saved) (hends : isEnding x = false)
    (hsaves : isSaving x = false) (htiles : tilesMissing s (objOf d) x = false) (hhost : bit d.d1.toNat 12 = true)
    (hbad : imageGood (objOf d) x img .first = false) : leads (.tillRestore ring d img chk) s fun t => onlyChanges [.host, .fresh] s t ∧
      answered s t ring d (cringOf d.d0) (objOf d) stDetect 0 0 := by
  refine leads_tillRestore hx hgoes hadm hst hends hsaves htiles hhost fun u t hu ht => ?_
  dsimp only at ht
  rw [if_pos (by rw [hbad]; rfl)] at ht
  exact ⟨(hu.trans ((complete_ringStep ..).trans ht)).moves.only, ht.answered (answered_completeTo ..)⟩

theorem tillRestore_loads (hx : tillAt s (objOf d) = some x) (hgoes : x.ended = false)
    (hadm : admitted s ring d 0x14 (cringOf d.d0) (some (tillJob x))) (hst : x.st = .saved) (hends : isEnding x = false)
    (hsaves : isSaving x = false) (htiles : tilesMissing s (objOf d) x = false) (hhost : bit d.d1.toNat 12 = true)
    (hgood : imageGood (objOf d) x img .first = true) {g : State} {slabs : List (Nat × Block)}
    (hgrant : grantTill s (objOf d) x.words x.shard = some (g, slabs)) : leads (.tillRestore ring d img chk) s fun t =>
      onlyChanges (poolAreas s ++ [.host, .pools, .tills, .fresh]) s t ∧
        tillAt t (objOf d) = some { x with slabs := slabs, loading := some (img, some (acceptNow s ring.toNat d.d0 (objOf d))) } := by
  refine leads_tillRestore hx hgoes hadm hst hends hsaves htiles hhost fun u t hu ht => ?_
  obtain ⟨v, hv, -⟩ := grantTill_alike hu.eventsApart.poolsApart _ _ _ _ _ hgrant
  dsimp only at ht
  rw [if_neg (by rw [hgood]; exact Bool.false_ne_true), hv] at ht
  refine ⟨onlyChanges_between hu ht ?_ (sub_append_right _ rfl), (ht.tillAt _).trans (tillAt_setTill_same ..)⟩
  rw [← poolAreas_ringStep hu]
  exact setTill_moves (Proofs.widen (grantTill_moves_areas hv) (sub_append_self _ rfl)) (sub_append_right _ rfl)

end Restore

end Command

/-- Settles O40: each command that names the till sets it, and only a waiter that is dropped, a save and a grant move the pools. -/
theorem tillCommandsAct : Obligations.TillCommandsAct := by
  unfold Obligations.TillCommandsAct
  exact fun s ring d x hx hgoes =>
    ⟨fun hadm hst hclose => tillClose_drains hx hgoes hadm hst hclose,
      fun hadm hst hclose hbusy => tillAbort_drains hx hgoes hadm hst hclose hbusy,
      fun hadm hst hvault => tillAbort_drops hx hgoes hadm hst hvault,
      fun hadm hst hends hsaves hbegins => tillSave_begins hx hgoes hadm hst hends hsaves hbegins,
      fun hadm hst hends hsaves hslot hnew => tillExcise_begins hx hgoes hadm hst hends hsaves hslot hnew,
      fun hadm hst hends hnone htiles => tillResume_resumes hx hgoes hadm hst hends hnone htiles,
      fun b hb => resumeTill_opens hx hb,
      fun hadm hst hends hsaves htiles hhost img chk =>
        ⟨fun hbad => tillRestore_fails hx hgoes hadm hst hends hsaves htiles hhost hbad,
          fun hgood u slabs hgrant => tillRestore_loads hx hgoes hadm hst hends hsaves htiles hhost hgood hgrant⟩⟩

end Sys2Proof.Proofs

/-! PROOFS. How epochs of a till are posted and end, in time or late (03 R76, R77, R89, R102). -/

namespace Sys2Proof.Proofs

open Sys2Proof.Machine Sys2Proof.Safety Sys2Proof.Laws

/-! ### A till that is changed -/

section Tills

variable {s t : State} {n : Nat} {x : Till}

theorem modTill_found (h : tillAt s n = some x) (f : Till → Till) : modTill s n f = setTill s n (f x) := by
  rw [modTill, h]

theorem tillAt_modTill (h : tillAt s n = some x) (f : Till → Till) : tillAt (modTill s n f) n = some (f x) := by
  rw [modTill_found h, tillAt_setTill_same]

theorem modTill_none (h : tillAt s n = none) (f : Till → Till) : modTill s n f = s := by
  rw [modTill, h]

theorem chunkOf_congr {y : Till} (hchunks : y.chunks = x.chunks) (hepoch : y.epoch = x.epoch) (k : Nat) : chunkOf y k = chunkOf x k := by
  rw [chunkOf, hchunks, hepoch, chunkOf]

end Tills

/-! ### An epoch is posted (R77) -/

section Post

variable {s t : State} {n : Nat} {x : Till}

/-- What a posted epoch leaves of its till: the next epoch, with what is counted of it. -/
def nextEpoch (x : Till) : Till :=
  { x with epoch := x.epoch + 1, cnt := x.ahead.headD {}, ahead := x.ahead.drop 1, sums := [], sumTimers := [], sumAsked := [] }

/-- The completion an epoch posts. -/
def epochEntries (s : State) (n : Nat) (x : Till) : List (List W64) :=
  tillEntries n x (topStatus (seenOf (epochTotals s x x.epoch))) (seenOf (epochTotals s x x.epoch)) (epochTotals s x x.epoch)

theorem postEpoch_eq (h : tillAt s n = some x) (whole : Bool) (after : List After) : ∃ all,
    postEpoch s n whole after = setTill (ready (recordEpoch s x (topStatus (seenOf (epochTotals s x x.epoch))) whole (epochTotals s x x.epoch).part)
      { cring := tCring x.words, entries := epochEntries s n x, after := all }) n (nextEpoch x) := by
  rw [postEpoch, h]
  exact ⟨_, rfl⟩

theorem tillAt_postEpoch (h : tillAt s n = some x) (whole : Bool) (after : List After) :
    tillAt (postEpoch s n whole after) n = some (nextEpoch x) := by
  obtain ⟨all, heq⟩ := postEpoch_eq h whole after
  rw [heq, tillAt_setTill_same]

theorem postEpoch_posts (h : tillAt s n = some x) (whole : Bool) (after : List After) : epochPosted s (postEpoch s n whole after) n x := by
  obtain ⟨all, heq⟩ := postEpoch_eq h whole after
  rw [heq]
  exact ⟨_, mem_ready _ _, rfl, rfl, rfl⟩

theorem postEpoch_moves_plain (h : tillAt s n = some x) (hplain : tVault x.words = false) (whole : Bool) (after : List After) :
    Moves [.host, .tills] s (postEpoch s n whole after) := by
  obtain ⟨all, heq⟩ := postEpoch_eq h whole after
  have hrecord : recordEpoch s x (topStatus (seenOf (epochTotals s x x.epoch))) whole (epochTotals s x x.epoch).part = s :=
    if_pos (by rw [hplain]; rfl)
  rw [heq, hrecord]
  exact setTill_moves (ready_moves (.refl _ s) rfl) rfl

/-- What an epoch posts is the same wherever the same programs are loaded. -/
theorem epochTotals_congr {u : State} (h : u.progs = s.progs) (e : W16) : epochTotals u x e = epochTotals s x e := by
  rw [epochTotals, tillImage, progAt, h, epochTotals, tillImage, progAt]

/-- A completion posted for an epoch stays posted. -/
theorem epochPosted_stays {v u : State} (hprogs : v.progs = s.progs) (hready : u.host.ready ⊆ t.host.ready) (hposted : epochPosted v u n x) :
    epochPosted s t n x := by
  obtain ⟨c, hc, hcring, hring, hentries⟩ := hposted
  exact ⟨c, hready hc, hcring, hring, by rw [hentries, epochTotals_congr hprogs]⟩

end Post

/-! ### Timers of SUMMARY frames (R79) -/

/-- Starting and stopping summary timers only sets them. -/
theorem sumTimer_found {s : State} {n : Nat} {x : Till} (h : tillAt s n = some x) :
    ∃ l, sumTimer s n = setTill s n { x with sumTimers := l } := by
  rw [sumTimer, modTill_found h]
  dsimp only
  split
  · exact ⟨x.sumTimers, rfl⟩
  · exact ⟨_, rfl⟩

/-- An epoch ends now only where an ending is under way. -/
theorem endsNow_of_not_ending {x : Till} (h : isEnding x = false) : endsNow x = false := by
  rw [isEnding, List.any_eq_false] at h
  rw [endsNow, List.any_eq_false]
  intro e he
  have := h e he
  cases hk : e.kind <;> simp_all

/-! ### A chunk is DONE (R76) -/

section Done

variable {s : State} {n : Nat} {x z : Till}

/-- An epoch with chunks still to come goes on. -/
theorem settleTill_waits (hz : tillAt s n = some z) (hwaits : allDone z = false) : ∃ l, settleTill s n = setTill s n { z with sumTimers := l } := by
  have hsettle : settleEpoch 4 s n = s := by
    rw [settleEpoch, hz]
    exact if_pos (by simp [hwaits])
  rw [settleTill, hsettle]
  exact sumTimer_found hz

/-- What the posted epoch leaves of a till that is not standing: it waits to be freed. -/
def endedTill (z : Till) (l : List (Nat × Nat × Nat)) : Till :=
  { z with epoch := z.epoch + 1, cnt := z.ahead.headD {}, ahead := z.ahead.drop 1, sums := [], sumTimers := l, sumAsked := [], ended := true }

/-- The last chunk of a ROOT till that is not standing and has no children ends its epoch: it is posted, and the till ended. -/
theorem settleTill_posts (hz : tillAt s n = some z) (hopen : isOpenTill z = true) (hends : endsNow z = false) (hdone : allDone z = true)
    (hchildren : childrenOf z.words z.shard = []) (hroot : tInner z.words = false) (honce : tStanding z.words = false) :
    ∃ l, settleTill s n = setTill (setTill (postEpoch s n true [.freeSlabs n]) n (endedTill z [])) n (endedTill z l) := by
  have hsums : allSums z = true := by rw [allSums, hchildren]; rfl
  have hsettle : settleEpoch 4 s n = setTill (postEpoch s n true [.freeSlabs n]) n (endedTill z []) := by
    rw [settleEpoch, hz]
    dsimp only
    rw [if_neg (by simp [hopen, hends, hdone, hsums]), if_neg (by simp [honce]), if_neg (by simp [hroot]),
      modTill_found (tillAt_postEpoch hz true [.freeSlabs n])]
    exact rfl
  rw [settleTill, hsettle]
  exact sumTimer_found (tillAt_setTill_same ..)

variable {till : BitVec 12} {k : Nat}

/-- The till with chunk k DONE. -/
def chunkIsDone (x : Till) (k : Nat) : Till := putChunk x k { chunkOf x k with st := .done }

theorem exec_chunkDone (hx : tillAt s till.toNat = some x) (hopen : isOpenTill x = true) (hk : k < x.chunks.length)
    (hleft : chunkLeft s till.toNat x k = true) (hreset : (chunkOf x k).resetAt = none) (hplain : tVault x.words = false) :
    exec (.chunkDone till k false) s = .next (settleTill (setTill s till.toNat (chunkIsDone x k)) till.toNat) := by
  have hminting : (chunkOf x k).st = .minting := by
    simp only [chunkLeft, Bool.and_eq_true, beq_iff_eq] at hleft
    exact hleft.1.1.1.1.1
  change Host.Outcome.next (match tillAt s till.toNat with | none => s | some t => _) = _
  rw [hx]
  dsimp only
  rw [if_neg (by simp [hopen, hk, hminting, hreset]), if_neg Bool.false_ne_true, if_neg (by simp [hleft]), if_neg (by simp [hplain]),
    modChunk, modTill_found hx]
  exact rfl

theorem chunkDone_goesOn (hx : tillAt s till.toNat = some x) (hopen : isOpenTill x = true) (hk : k < x.chunks.length)
    (hleft : chunkLeft s till.toNat x k = true) (hreset : (chunkOf x k).resetAt = none) (hplain : tVault x.words = false)
    (hwaits : allDone (chunkIsDone x k) = false) : leads (.chunkDone till k false) s fun t => onlyChanges [.tills] s t ∧
      ∃ y, tillAt t till.toNat = some y ∧ y.chunks = (chunkIsDone x k).chunks ∧ y.epoch = x.epoch := by
  obtain ⟨l, hl⟩ := settleTill_waits (tillAt_setTill_same s till.toNat (chunkIsDone x k)) hwaits
  refine ⟨_, exec_chunkDone hx hopen hk hleft hreset hplain, ?_⟩
  rw [hl]
  exact ⟨(setTill_moves (setTill_moves (.refl _ s) rfl) rfl).only, _, tillAt_setTill_same .., rfl, rfl⟩

theorem chunkDone_ends (hx : tillAt s till.toNat = some x) (hopen : isOpenTill x = true) (hk : k < x.chunks.length)
    (hleft : chunkLeft s till.toNat x k = true) (hreset : (chunkOf x k).resetAt = none) (hplain : tVault x.words = false)
    (hdone : allDone (chunkIsDone x k) = true) (hends : isEnding x = false) (hchildren : childrenOf x.words x.shard = [])
    (hroot : tInner x.words = false) (honce : tStanding x.words = false) : leads (.chunkDone till k false) s fun t =>
      onlyChanges [.host, .tills] s t ∧ epochPosted s t till.toNat (chunkIsDone x k) ∧
        ∃ y, tillAt t till.toNat = some y ∧ y.chunks = (chunkIsDone x k).chunks ∧ y.epoch = x.epoch + 1 ∧ y.ended = true := by
  have hz := tillAt_setTill_same s till.toNat (chunkIsDone x k)
  obtain ⟨l, hl⟩ := settleTill_posts hz hopen (endsNow_of_not_ending (x := chunkIsDone x k) hends) hdone hchildren hroot honce
  have hmoves := postEpoch_moves_plain hz hplain true [.freeSlabs till.toNat]
  refine ⟨_, exec_chunkDone hx hopen hk hleft hreset hplain, ?_⟩
  rw [hl]
  refine ⟨(setTill_moves (setTill_moves ((setTill_moves (.refl _ s) rfl).trans hmoves rfl) rfl) rfl).only, ?_, _, tillAt_setTill_same ..,
    rfl, rfl, rfl⟩
  exact epochPosted_stays (v := setTill s till.toNat (chunkIsDone x k)) rfl (fun _ h => h) (postEpoch_posts hz true _)

end Done

end Sys2Proof.Proofs

/-! PROOFS. An epoch that is LATE at its deadline (03 R89). -/

namespace Sys2Proof.Proofs

open Sys2Proof.Machine Sys2Proof.Safety Sys2Proof.Laws

/-! ### Chunks set anew -/

/-- The chunks of the list set to c. -/
def chunksSet (l : List Nat) (c : Chunk) (cs : List Chunk) : List Chunk := l.foldl (fun cs k => cs.set k c) cs

theorem length_chunksSet (l : List Nat) (c : Chunk) (cs : List Chunk) : (chunksSet l c cs).length = cs.length := by
  unfold chunksSet
  induction l generalizing cs with
  | nil => rfl
  | cons k l ih => exact (ih _).trans List.length_set

theorem getD_chunksSet (l : List Nat) (c e : Chunk) (cs : List Chunk) {k : Nat} (hk : k < cs.length) :
    (chunksSet l c cs).getD k e = if k ∈ l then c else cs.getD k e := by
  unfold chunksSet
  induction l generalizing cs with
  | nil => rfl
  | cons j l ih =>
    rw [List.foldl_cons, ih _ (by rwa [List.length_set])]
    by_cases hkl : k ∈ l
    · rw [if_pos hkl, if_pos (List.mem_cons_of_mem _ hkl)]
    · by_cases hkj : k = j
      · subst hkj
        rw [if_neg hkl, if_pos (List.mem_cons_self ..), List.getD_eq_getElem _ _ (by rwa [List.length_set]), List.getElem_set_self]
      · rw [if_neg hkl, if_neg (by simp [hkl, hkj]), List.getD_eq_getElem _ _ (by rwa [List.length_set]), List.getD_eq_getElem _ _ hk,
          List.getElem_set_ne (Ne.symm hkj)]

theorem foldl_modChunk {s : State} {n : Nat} {x : Till} (h : tillAt s n = some x) (l : List Nat) (c : Chunk) :
    let t := l.foldl (fun s k => modChunk s n k fun _ => c) s
    tillAt t n = some { x with chunks := chunksSet l c x.chunks } ∧ t.host = s.host ∧ Moves [.tills] s t := by
  induction l generalizing s x with
  | nil => exact ⟨h, rfl, .refl _ s⟩
  | cons k l ih =>
    have hone : modChunk s n k (fun _ => c) = setTill s n (putChunk x k c) := modTill_found h _
    rw [List.foldl_cons, hone]
    obtain ⟨hat, hhost, hmoves⟩ := ih (tillAt_setTill_same s n (putChunk x k c))
    exact ⟨hat, hhost, (setTill_moves (.refl _ s) rfl).trans hmoves rfl⟩

/-! ### The work of open chunks is given up -/

/-- The chunks of the epoch not posted that are not DONE. -/
def openChunks (x : Till) : List Nat :=
  (List.range x.chunks.length).filter fun k => (chunkOf x k).epoch == x.epoch && (chunkOf x k).st != .done

theorem mem_openChunks {x : Till} {k : Nat} (hk : k < x.chunks.length) :
    k ∈ openChunks x ↔ (chunkOf x k).epoch = x.epoch ∧ (chunkOf x k).st ≠ .done := by
  simp [openChunks, hk]

/-- The unsent frames, the reads and the passes of the open chunks are taken back. -/
def workTaken (s : State) (n : Nat) (x : Till) : State :=
  (openChunks x).foldl (fun s k => abandonPass (dropReads (recallFrames s (isChunkFrame n x k x.epoch)) n k) n x k) s

theorem workTaken_moves (s : State) (n : Nat) (x : Till) :
    Moves [.host, .ports, .stalled, .dropping, .ctxs, .hbm, .jobFree] s (workTaken s n x) :=
  foldl_moves (.refl _ s) fun _ _ h => abandonPass_moves (dropReads_moves (recallFrames_moves h rfl) rfl) rfl

/-! ### LATE (R89) -/

section Late

variable {s : State} {n : Nat} {x : Till}

/-- The till in which LATE has been seen. -/
def lateSeen (x : Till) : Till := { x with cnt := { x.cnt with seen := addSeen x.cnt.seen stLate } }

/-- The till once LATE is posted: its open chunks begin the next epoch. -/
def afterLate (x : Till) : Till :=
  { nextEpoch (lateSeen x) with chunks := chunksSet (openChunks x) (blankChunk (x.epoch + 1)) x.chunks, ended := !tStanding x.words }

/-- The state in which the epoch is posted LATE, the till apart. -/
def latePosted (s : State) (n : Nat) (x : Till) : State :=
  postEpoch (setTill (workTaken s n x) n (lateSeen x)) n false (if tStanding x.words then [] else [.freeSlabs n])

theorem tillAt_workTaken (h : tillAt s n = some x) : tillAt (workTaken s n x) n = some x := by
  rw [tillAt_of_moves (workTaken_moves s n x) (by decide), h]

theorem lateEpoch_eq (h : tillAt s n = some x) : ∃ v, v.host = (latePosted s n x).host ∧ Moves [.tills] (latePosted s n x) v ∧
    lateEpoch s n = if tKick x.words then kickLate (setTill v n (afterLate x)) (tJob x.words) 2 n else setTill v n (afterLate x) := by
  have hat := tillAt_postEpoch (tillAt_setTill_same (workTaken s n x) n (lateSeen x)) false (if tStanding x.words then [] else [.freeSlabs n])
  obtain ⟨hchunks, hhost, hmoves⟩ := foldl_modChunk hat (openChunks x) (blankChunk (x.epoch + 1))
  refine ⟨_, hhost, hmoves, ?_⟩
  have hended : modTill ((openChunks x).foldl (fun s k => modChunk s n k fun _ => blankChunk (x.epoch + 1)) (latePosted s n x)) n
      (fun t => { t with ended := !tStanding t.words }) = setTill _ n (afterLate x) := modTill_found hchunks _
  have hseen : modTill (workTaken s n x) n (fun t => { t with cnt := { t.cnt with seen := addSeen t.cnt.seen stLate } }) =
      setTill (workTaken s n x) n (lateSeen x) := modTill_found (tillAt_workTaken h) _
  rw [lateEpoch, h]
  change (let s := modTill (workTaken s n x) n (fun t => { t with cnt := { t.cnt with seen := addSeen t.cnt.seen stLate } })
    let s := postEpoch s n false (if tStanding x.words then [] else [.freeSlabs n])
    let s := (openChunks x).foldl (fun s k => modChunk s n k fun _ => blankChunk (x.epoch + 1)) s
    let s := modTill s n fun t => { t with ended := !tStanding t.words }
    if tKick x.words then kickLate s (tJob x.words) 2 n else s) = _
  rw [hseen]
  dsimp only
  rw [← hended, latePosted]

theorem latePosted_moves (s : State) (n : Nat) (x : Till) :
    Moves [.host, .ports, .stalled, .dropping, .tills, .ctxs, .hbm, .jobFree] s (latePosted s n x) :=
  postEpoch_moves (setTill_moves (Proofs.widen (workTaken_moves s n x) rfl) rfl) rfl

theorem lateEpoch_moves_list (h : tillAt s n = some x) :
    Moves [.host, .stats, .ports, .stalled, .dropping, .tills, .ctxs, .hbm, .jobFree, .fresh] s (lateEpoch s n) := by
  obtain ⟨v, -, hmoves, heq⟩ := lateEpoch_eq h
  have hset : Moves [.host, .stats, .ports, .stalled, .dropping, .tills, .ctxs, .hbm, .jobFree, .fresh] s (setTill v n (afterLate x)) :=
    setTill_moves ((Proofs.widen (latePosted_moves s n x) rfl).trans hmoves rfl) rfl
  rw [heq]
  split
  · exact kickLate_moves hset rfl
  · exact hset

theorem tillAt_lateEpoch (h : tillAt s n = some x) : tillAt (lateEpoch s n) n = some (afterLate x) := by
  obtain ⟨v, -, -, heq⟩ := lateEpoch_eq h
  rw [heq]
  split
  · rw [tillAt_of_moves (kickLate_moves (.refl [.host, .stats, .ports, .fresh] _) rfl) (by decide), tillAt_setTill_same]
  · exact tillAt_setTill_same ..

theorem lateEpoch_posts (h : tillAt s n = some x) : epochPosted s (lateEpoch s n) n (lateSeen x) := by
  obtain ⟨v, hhost, -, heq⟩ := lateEpoch_eq h
  have hready : (lateEpoch s n).host.ready = (latePosted s n x).host.ready := by
    rw [heq, ← hhost]
    split
    · exact kickLate_ready ..
    · exact rfl
  refine epochPosted_stays (v := setTill (workTaken s n x) n (lateSeen x)) ((workTaken_moves s n x).only .progs (by decide))
    (u := latePosted s n x) (by rw [hready]; exact List.Subset.refl _) (postEpoch_posts (tillAt_setTill_same ..) false _)

theorem chunkOf_afterLate {k : Nat} (hk : k < x.chunks.length) : chunkOf (afterLate x) k =
    if (chunkOf x k).epoch = x.epoch ∧ (chunkOf x k).st ≠ .done then blankChunk (x.epoch + 1) else chunkOf x k := by
  have hset : chunkOf (afterLate x) k = if k ∈ openChunks x then blankChunk (x.epoch + 1) else x.chunks.getD k (blankChunk (x.epoch + 1)) :=
    getD_chunksSet _ _ _ _ hk
  have hdefault : x.chunks.getD k (blankChunk (x.epoch + 1)) = chunkOf x k := by
    rw [chunkOf, List.getD_eq_getElem _ _ hk, List.getD_eq_getElem _ _ hk]
  rw [hset, hdefault]
  simp only [mem_openChunks hk]

end Late

theorem exec_tillDeadline {s : State} {till : BitVec 12} {x : Till} {due : Nat} (hx : tillAt s till.toNat = some x)
    (hopen : isOpenTill x = true) (htick : tTick x.words = true) (hends : isEnding x = false) (hdue : x.cnt.dueAt = some due)
    (hnow : due ≤ s.now) (hlate : leftInTime s till.toNat x due = false) :
    exec (.tillDeadline till) s = .next (lateEpoch s till.toNat) := by
  change Host.Outcome.next (match tillAt s till.toNat with | none => s | some t => _) = _
  rw [hx]
  dsimp only
  rw [hdue]
  exact congrArg _ (if_neg (by simp [htick, hopen, endsNow_of_not_ending hends, Nat.not_lt.2 hnow, hlate]))

/-- Settles O44: a chunk that is DONE is set so, the last one posts its epoch, and LATE posts it with its open chunks begun again. -/
theorem epochsEnd : Obligations.EpochsEnd := by
  unfold Obligations.EpochsEnd
  refine fun s till x hx hopen => ⟨fun k hk hleft hreset hplain => ⟨fun hwaits => chunkDone_goesOn hx hopen hk hleft hreset hplain hwaits,
    fun hdone hends hchildren hroot honce => chunkDone_ends hx hopen hk hleft hreset hplain hdone hends hchildren hroot honce⟩,
    fun due htick hends hdue hnow hlate => ?_⟩
  exact ⟨_, exec_tillDeadline hx hopen htick hends hdue hnow hlate, (lateEpoch_moves_list hx).only, lateEpoch_posts hx, _,
    tillAt_lateEpoch hx, rfl, rfl, fun k hk => chunkOf_afterLate hk⟩

end Sys2Proof.Proofs

/-! PROOFS. What a drain carries out at its action cycle, and images of tills written and loaded (03 R88, R93, R95, R102). -/

namespace Sys2Proof.Proofs

open Sys2Proof.Machine Sys2Proof.Safety Sys2Proof.Laws

/-! ### Frames of the till that wait in intake (R72) -/

section Intake

variable {s : State} {n : Nat} {x : Till}

/-- Discards counted on a till only set its count. -/
theorem foldl_countDiscard {α : Type} (h : tillAt s n = some x) (l : List α) : ∃ c,
    tillAt (l.foldl (fun s _ => countDiscard s n) s) n = some { x with cnt := { x.cnt with discard := c } } ∧
      (l.foldl (fun s _ => countDiscard s n) s).host = s.host ∧ Moves [.tills] s (l.foldl (fun s _ => countDiscard s n) s) := by
  induction l generalizing s x with
  | nil => exact ⟨_, h, rfl, .refl _ s⟩
  | cons a l ih =>
    have hone : countDiscard s n = setTill s n { x with cnt := { x.cnt with discard := satAdd Config.sat32 x.cnt.discard 1 } } :=
      modTill_found h _
    rw [List.foldl_cons, hone]
    obtain ⟨c, hat, hhost, hmoves⟩ := ih (tillAt_setTill_same s n { x with cnt := { x.cnt with discard := satAdd Config.sat32 x.cnt.discard 1 } })
    exact ⟨c, hat, hhost, (setTill_moves (.refl _ s) rfl).trans hmoves rfl⟩

theorem dropIntake_found (h : tillAt s n = some x) : ∃ c, tillAt (dropIntake s n) n = some { x with cnt := { x.cnt with discard := c } } ∧
    (dropIntake s n).host = s.host ∧ Moves [.intake, .tills] s (dropIntake s n) := by
  rw [dropIntake]
  dsimp only
  generalize hs : ({ s with intake := _ } : State) = u
  have hu : tillAt u n = some x := by rw [← hs]; exact h
  have hhost : u.host = s.host := by rw [← hs]
  have hmoves : Moves [.intake, .tills] s u := hs ▸ upd_intake (.refl _ s) rfl
  obtain ⟨c, hat, hsame, hfold⟩ := foldl_countDiscard hu (List.range _)
  exact ⟨c, hat, hsame.trans hhost, hmoves.trans hfold rfl⟩

/-- With no such till the frames only leave. -/
theorem dropIntake_gone (h : tillAt s n = none) : tillAt (dropIntake s n) n = none := by
  rw [dropIntake]
  dsimp only
  generalize hs : ({ s with intake := _ } : State) = u
  have hu : tillAt u n = none := by rw [← hs]; exact h
  clear hs
  induction List.range _ generalizing u with
  | nil => exact hu
  | cons a l ih =>
    rw [List.foldl_cons, countDiscard, modTill_none hu]
    exact ih u hu

end Intake

/-! ### The action of a drain -/

section Action

variable {s : State} {till : BitVec 12} {x : Till} {e : Drain} {rest : List Drain}

theorem exec_drainAction (hx : tillAt s till.toNat = some x) (hdrains : x.drains = e :: rest) (hdue : actionAt e.c ≤ s.now) :
    exec (.drainAction till) s = .next (drainAct (setTill s till.toNat { x with drains := rest }) till.toNat e) := by
  change Host.Outcome.next (match tillAt s till.toNat with | none => s | some t => _) = _
  rw [hx]
  dsimp only
  rw [hdrains]
  exact congrArg _ (if_neg (Nat.not_lt.2 hdue))

/-- The image a save takes of a till. -/
def imageOf (n : Nat) (x : Till) : TillImage :=
  { digest := descDigest x.words, till := n, job := tJob x.words, format := 1, chunks := x.chunks, checksOk := true, epoch := some x.epoch,
    cnt := x.cnt, ahead := x.ahead, sums := x.sums, excised := x.excised, gens := x.gens }

/-- The till while its image is written out. -/
def savingTill (n : Nat) (x : Till) (writes : List Nat) (command : Option Accept) (readBy : Nat) : Till :=
  { x with st := .draining, image := some (imageOf n x), saveWrites := writes, preempted := false, by_ := command, readBy := readBy }

theorem snapshot_host {n : Nat} {y : Till} {u : State} {command : Option Accept} (hy : tillAt u n = some y) (hhost : tSaveHost y.words = true) :
    ∃ readBy, snapshot u n false command =
      setTill (hostWrite u (y.words.getD 9 0).toNat (tillImageBytes n y) (.save n)).2 n
        (savingTill n y [(hostWrite u (y.words.getD 9 0).toNat (tillImageBytes n y) (.save n)).1] command readBy) := by
  rw [snapshot, hy]
  dsimp only
  rw [if_pos hhost]
  exact ⟨_, rfl⟩

theorem drainAction_saves (hx : tillAt s till.toNat = some x) (hdrains : x.drains = e :: rest) (hdue : actionAt e.c ≤ s.now)
    (hkind : e.kind = .save) (hhost : tSaveHost x.words = true) : leads (.drainAction till) s fun t =>
      onlyChanges [.host, .tills, .fresh] s t ∧
      hostWriting t (x.words.getD 9 0).toNat (tillImageBytes till.toNat x) (.save till.toNat) ∧
      ∃ y img, tillAt t till.toNat = some y ∧ y.st = .draining ∧ y.drains = rest ∧ y.by_ = e.by_ ∧ y.saveWrites ≠ [] ∧
        y.image = some img ∧ img.chunks = x.chunks ∧ img.digest = descDigest x.words ∧ img.till = till.toNat := by
  refine ⟨_, exec_drainAction hx hdrains hdue, ?_⟩
  rw [drainAct, hkind]
  dsimp only
  obtain ⟨readBy, heq⟩ := snapshot_host (command := e.by_) (tillAt_setTill_same s till.toNat { x with drains := rest }) hhost
  rw [heq]
  refine ⟨(setTill_moves (hostWrite_moves (setTill_moves (.refl _ s) rfl) rfl) rfl).only, ?_, _, imageOf till.toNat x,
    tillAt_setTill_same .., rfl, rfl, rfl, nofun, rfl, rfl, rfl, rfl⟩
  exact (writeIssued_hostWrite (setTill s till.toNat { x with drains := rest }) (x.words.getD 9 0).toNat (tillImageBytes till.toNat x)
    (.save till.toNat)).writing

theorem drainAction_halts (hx : tillAt s till.toNat = some x) (hdrains : x.drains = e :: rest) (hdue : actionAt e.c ≤ s.now)
    (hkind : e.kind = .halt) : leads (.drainAction till) s fun t => onlyChanges [.tills] s t ∧
      tillAt t till.toNat = some { x with drains := rest } := by
  refine ⟨_, exec_drainAction hx hdrains hdue, ?_⟩
  rw [drainAct, hkind]
  exact ⟨(setTill_moves (.refl _ s) rfl).only, tillAt_setTill_same ..⟩

/-! ### A close (R101) -/

/-- Areas that a send may move wherever the pools stand, with some more, hold others. -/
theorem sub_sendAreas (s : State) {l m : List Area} (h : sub l ([.ports, .frames, .stalled, .pools, .intake, .fresh] ++ m) = true) :
    sub l (sendAreas s ++ m) = true := by
  rw [sendAreas, List.append_assoc, List.append_assoc]
  exact sub_append_right _ (sub_append_right _ h)

theorem tillAt_freeTill (u : State) (n : Nat) (wait : Bool) : tillAt (freeTill u n wait) n = none := by
  unfold freeTill
  split
  next h => exact h
  · dsimp only
    generalize dropCommands _ _ = v
    rw [tillAt_of_moves (unbind_moves (.refl [.host, .stats, .ports, .frames, .stalled, .blockCounts, .pools, .intake, .hbm, .faults, .fresh] _) rfl)
      (by decide)]
    exact ofind_odel_same v.tills n

theorem tillAt_stopChunks (u : State) (n m : Nat) : tillAt (stopChunks u n) m = tillAt u m :=
  tillAt_of_moves (stopChunks_moves (.refl [.host, .ports, .stalled, .dropping, .ctxs, .hbm, .jobFree] u) rfl) (by decide) m

/-- A till freed by command is gone, and the command complete. -/
theorem freeByCommand_frees (u : State) (n : Nat) (post : Bool) (by_ : Option Accept) : tillAt (freeByCommand u n post by_) n = none ∧
    ∀ a, by_ = some a → posted (freeByCommand u n post by_) a (cringOf a.d0) stOk 0 0 := by
  unfold freeByCommand
  dsimp only
  generalize (if post then _ else _ : State) = v
  have hgone : tillAt (dropIntake (freeTill v n true) n) n = none := dropIntake_gone (tillAt_freeTill v n true)
  cases by_ with
  | none => exact ⟨hgone, nofun⟩
  | some a =>
    refine ⟨((complete_ringStep ..).tillAt n).trans hgone, fun b hb => ?_⟩
    cases hb
    exact posted_completeTo ..

theorem drainAction_closes (hx : tillAt s till.toNat = some x) (hdrains : x.drains = e :: rest) (hdue : actionAt e.c ≤ s.now)
    (hkind : e.kind = .close) : leads (.drainAction till) s fun t =>
      onlyChanges (sendAreas s ++ [.host, .stats, .blockCounts, .dropping, .tills, .ctxs, .tiles, .hbm, .faults, .jobFree]) s t ∧
      tillAt t till.toNat = none ∧ ∀ a, e.by_ = some a → posted t a (cringOf a.d0) stOk 0 0 := by
  refine ⟨_, exec_drainAction hx hdrains hdue, ?_⟩
  rw [drainAct, hkind]
  dsimp only
  obtain ⟨hgone, hposted⟩ := freeByCommand_frees (setTill s till.toNat { x with drains := rest }) till.toNat
    (closePosts (setTill s till.toNat { x with drains := rest }) till.toNat) e.by_
  refine ⟨Moves.only (Proofs.widen (freeByCommand_moves (setTill_moves
    (.refl [.host, .stats, .ports, .frames, .stalled, .blockCounts, .pools, .dropping, .intake, .tills, .ctxs, .tiles, .hbm, .faults,
      .jobFree, .fresh] s) rfl) rfl) (sub_sendAreas s rfl)), hgone, hposted⟩

/-! ### An ending (R102) -/

/-- What the posted epoch leaves of a standing till. -/
def stoppedTill (y : Till) : Till :=
  { y with st := .stopped, epoch := y.epoch + 1, cnt := y.ahead.headD {}, ahead := y.ahead.drop 1, sums := [], sumTimers := [], sumAsked := [] }

/-- The end of the epoch not posted yet, at a standing till: it is posted, the till STOPPED, and its waiting frames dropped. -/
theorem endEpoch_standing {u : State} {n st : Nat} {y : Till} (hy : tillAt u n = some y) (hstanding : tStanding y.words = true) :
    endEpoch u n st y.epoch =
      dropIntake (setTill (postEpoch (stopChunks u n) n false []) n (stoppedTill y)) n := by
  have hstop : tillAt (stopChunks u n) n = some y := (tillAt_stopChunks u n n).trans hy
  have hahead : epochsAhead y y.epoch = 0 := by rw [epochsAhead, sub_self]; rfl
  rw [endEpoch]
  dsimp only
  rw [hstop]
  dsimp only
  rw [hahead, if_pos hstanding, if_pos (by decide), List.range_zero, List.foldl_nil]
  rw [modTill_found (tillAt_postEpoch hstop false [])]
  exact congrArg (fun z => dropIntake (setTill (postEpoch (stopChunks u n) n false []) n z) n) (if_pos hstanding)

theorem stopChunks_moves_list (u : State) (n : Nat) : Moves [.host, .ports, .stalled, .dropping, .ctxs, .hbm, .jobFree] u (stopChunks u n) :=
  stopChunks_moves (.refl _ u) rfl

theorem drainAction_ends {st : Nat} (hx : tillAt s till.toNat = some x) (hdrains : x.drains = e :: rest) (hdue : actionAt e.c ≤ s.now)
    (hkind : e.kind = .ending st x.epoch) (hstanding : tStanding x.words = true) : leads (.drainAction till) s fun t =>
      onlyChanges [.host, .ports, .stalled, .dropping, .intake, .tills, .ctxs, .hbm, .jobFree] s t ∧
      epochPosted s t till.toNat x ∧
      ∃ y, tillAt t till.toNat = some y ∧ y.st = .stopped ∧ y.epoch = x.epoch + 1 ∧ y.drains = rest := by
  have hy := tillAt_setTill_same s till.toNat { x with drains := rest }
  generalize hu : setTill s till.toNat { x with drains := rest } = u at hy
  have hsu : Moves [.tills] s u := hu ▸ setTill_moves (.refl _ s) rfl
  have hstop := stopChunks_moves_list u till.toNat
  have hstopped : tillAt (stopChunks u till.toNat) till.toNat = some { x with drains := rest } := (tillAt_stopChunks ..).trans hy
  have hposts := postEpoch_posts hstopped false []
  have hpost : Moves [.host, .tills, .hbm] (stopChunks u till.toNat) (postEpoch (stopChunks u till.toNat) till.toNat false []) :=
    postEpoch_moves (.refl _ _) rfl
  obtain ⟨c, hat, hhost, hmoves⟩ := dropIntake_found (tillAt_setTill_same (postEpoch (stopChunks u till.toNat) till.toNat false []) till.toNat
    (stoppedTill { x with drains := rest }))
  refine ⟨_, exec_drainAction hx hdrains hdue, ?_⟩
  rw [drainAct, hkind, hu]
  dsimp only
  rw [show endEpoch u till.toNat st x.epoch = _ from endEpoch_standing (y := { x with drains := rest }) hy hstanding]
  refine ⟨?_, ?_, _, hat, rfl, rfl, rfl⟩
  · exact ((Proofs.widen hsu rfl).trans (((setTill_moves ((Proofs.widen hstop rfl).trans hpost rfl) rfl :
      Moves [.host, .ports, .stalled, .dropping, .intake, .tills, .ctxs, .hbm, .jobFree] u _).trans hmoves rfl)) rfl).only
  · refine epochPosted_stays (v := stopChunks u till.toNat) (u := postEpoch (stopChunks u till.toNat) till.toNat false []) ?_ ?_ hposts
    · exact (hstop.only .progs (by decide)).trans (hsu.only .progs (by decide))
    · rw [hhost]
      exact List.Subset.refl _

end Action

/-! ### A snapshot is written (R93) -/

section Written

variable {s : State} {till : BitVec 12} {x : Till}

/-- The saved till. -/
def savedTill (x : Till) : Till := { x with st := .saved, slabs := [], by_ := none, chunks := x.chunks.map fun c => blankChunk c.epoch }

/-- The passes of the chunks of the till are abandoned and its slabs returned. -/
def slabsBack (s : State) (n : Nat) (x : Till) : State :=
  returnSlabs ((List.range x.chunks.length).foldl (fun s k => abandonPass s n x k) s)
    ((List.range x.chunks.length).foldl (fun s k => abandonPass s n x k) s).now (tillQuota 1 x.words) x.slabs

theorem slabsBack_moves (s : State) (n : Nat) (x : Till) : Moves [.host, .pools, .ctxs, .jobFree] s (slabsBack s n x) :=
  returnSlabs_moves (foldl_moves (.refl _ s) fun _ _ h => abandonPass_moves h rfl) rfl

theorem exec_snapshotWritten (hx : tillAt s till.toNat = some x) (hst : x.st = .draining) (hwrites : x.saveWrites = [])
    (himage : x.image.isSome = true) (hread : x.readBy ≤ s.now) : exec (.snapshotWritten till) s = .next (match x.by_ with
      | some a => complete (dropIntake (setTill (slabsBack s till.toNat x) till.toNat (savedTill x)) till.toNat) a stOk (imageBytes x)
      | none => dropIntake (setTill (slabsBack s till.toNat x) till.toNat (savedTill x)) till.toNat) := by
  change Host.Outcome.next (match tillAt s till.toNat with | none => s | some t => _) = _
  rw [hx]
  dsimp only
  rw [if_neg (by simp [hst, hwrites, Option.isSome_iff_ne_none.1 himage, Nat.not_lt.2 hread])]
  exact rfl

theorem snapshotWritten_saves (hx : tillAt s till.toNat = some x) (hst : x.st = .draining) (hwrites : x.saveWrites = [])
    (himage : x.image.isSome = true) (hread : x.readBy ≤ s.now) : leads (.snapshotWritten till) s fun t =>
      onlyChanges [.host, .pools, .intake, .tills, .ctxs, .jobFree] s t ∧
      (∀ a, x.by_ = some a → posted t a (cringOf a.d0) stOk (imageBytes x) 0) ∧
      ∃ y, tillAt t till.toNat = some y ∧ y.st = .saved ∧ y.slabs = [] ∧ y.image = x.image ∧
        y.chunks = x.chunks.map fun c => blankChunk c.epoch := by
  obtain ⟨c, hat, hhost, hmoves⟩ := dropIntake_found (tillAt_setTill_same (slabsBack s till.toNat x) till.toNat (savedTill x))
  have hset : Moves [.host, .pools, .intake, .tills, .ctxs, .jobFree] s
      (dropIntake (setTill (slabsBack s till.toNat x) till.toNat (savedTill x)) till.toNat) :=
    (setTill_moves (Proofs.widen (slabsBack_moves s till.toNat x) rfl) rfl).trans hmoves rfl
  refine ⟨_, exec_snapshotWritten hx hst hwrites himage hread, ?_⟩
  cases hby : x.by_ with
  | none => exact ⟨hset.only, nofun, _, hat, rfl, rfl, rfl, rfl⟩
  | some a =>
    refine ⟨(complete_moves hset rfl).only, fun b hb => ?_, _, ((complete_ringStep ..).tillAt _).trans hat, rfl, rfl, rfl, rfl⟩
    cases hb
    exact posted_completeTo ..

end Written

/-! ### An image is loaded (R95) -/

section Loaded

variable {s : State} {till : BitVec 12} {x : Till}

theorem withoutPass_of_not_minting {c : Chunk} (h : c.st ≠ .minting) : withoutPass c = c := by
  unfold withoutPass
  split
  · exact if_neg h
  · rfl

/-- The till as an image leaves it. -/
def loadedTill (s : State) (x : Till) (img : TillImage) : Till :=
  { takeLevel x img with st := .open, words := x.words, chunks := img.chunks.map (restoredChunk s x.words), image := none, staging := 0, preempted := false,
                         loading := none }

/-- Staging buffers that a till holds go back. -/
def stagingBack (s : State) (x : Till) : State := if x.staging = 0 then s else giveStaging s (tillQuota 2 x.words) x.staging

theorem giveLost_moves_areas (pool place q n : Nat) : Moves (poolAreas s ++ [.pools]) s (giveLost s pool place q n).1 := by
  unfold poolAreas
  split
  next hnone =>
    obtain ⟨-, hlost⟩ := Bool.and_eq_true_iff.1 hnone
    have hgone : ((marks s.faults.lost pool place).take n).isEmpty = true := by
      rw [List.isEmpty_iff.1 hlost, marks, List.filter_nil, List.take_nil]
      rfl
    rw [giveLost]
    dsimp only
    rw [if_pos hgone]
    exact Moves.refl _ s
  · exact giveLost_moves (.refl _ s) rfl

theorem giveStaging_moves_areas (q k : Nat) : Moves (poolAreas s ++ [.pools]) s (giveStaging s q k) := by
  have hlost := giveLost_moves_areas (s := s) 2 0 q k
  rw [giveStaging]
  exact upd_pools (subUse_moves hlost (sub_append_right _ rfl)) (sub_append_right _ rfl)

theorem stagingBack_moves_areas (s : State) (x : Till) : Moves (poolAreas s ++ [.pools]) s (stagingBack s x) :=
  ite_moves (fun _ => .refl _ s) fun _ => giveStaging_moves_areas ..

theorem restartChunks_idle {u : State} {n : Nat} {y : Till} (hy : tillAt u n = some y)
    (hidle : ∀ c ∈ y.chunks, c.st ≠ .minting) : restartChunks u n = u := by
  rw [restartChunks, hy]
  dsimp only
  rw [List.filter_eq_nil_iff.2, List.foldl_nil]
  intro k hk
  have hk' := List.mem_range.1 hk
  rw [chunkOf, List.getD_eq_getElem _ _ hk']
  simpa using hidle _ (List.getElem_mem hk')

theorem takeLevel_words (x : Till) (img : TillImage) : (takeLevel x img).words = x.words ∧ (takeLevel x img).staging = x.staging ∧
    (takeLevel x img).epoch = if x.image = some img then x.epoch else img.epoch.getD (restoredEpoch x img.chunks) := by
  unfold takeLevel
  dsimp only
  split <;> exact ⟨rfl, rfl, rfl⟩

/-- An image without passes under way takes the till's place. -/
theorem loadImage_idle {u : State} {n : Nat} {img : TillImage} {by_ : Option Accept} (hidle : ∀ c ∈ img.chunks, c.st ≠ .minting) :
    loadImage u n x img by_ = match by_ with
      | some a => complete (setTill (stagingBack u x) n (loadedTill u x img)) a stOk
      | none => setTill (stagingBack u x) n (loadedTill u x img) := by
  obtain ⟨hwords, hstaging, -⟩ := takeLevel_words x img
  have hchunks : img.chunks.map (fun c => restoredChunk u x.words (if x.image = some img then c else withoutPass c)) =
      img.chunks.map (restoredChunk u x.words) := by
    refine List.map_congr_left fun c hc => ?_
    rw [withoutPass_of_not_minting (hidle c hc), ite_self]
  have hrestart : restartChunks (setTill (stagingBack u x) n (loadedTill u x img)) n = setTill (stagingBack u x) n (loadedTill u x img) := by
    refine restartChunks_idle (tillAt_setTill_same ..) fun c hc => ?_
    obtain ⟨c', hc', rfl⟩ := List.mem_map.1 hc
    exact hidle c' hc'
  unfold loadImage
  dsimp only
  rw [hchunks, hwords, hstaging]
  change (match by_ with
    | some a => complete (restartChunks (setTill (stagingBack u x) n (loadedTill u x img)) n) a stOk
    | none => restartChunks (setTill (stagingBack u x) n (loadedTill u x img)) n) = _
  rw [hrestart]

theorem restoreLoaded_opens {img : TillImage} {b : Option Accept} (hx : tillAt s till.toNat = some x) (hload : x.loading = some (img, b))
    (hslabs : x.slabs ≠ []) (hidle : ∀ c ∈ img.chunks, c.st ≠ .minting) : leads (.restoreLoaded till) s fun t =>
      onlyChanges (poolAreas s ++ [.host, .pools, .intake, .tills]) s t ∧
      (∀ a, b = some a → posted t a (cringOf a.d0) stOk 0 0) ∧
      ∃ y, tillAt t till.toNat = some y ∧ y.st = .open ∧
        y.epoch = (if x.image = some img then x.epoch else img.epoch.getD (restoredEpoch x img.chunks)) ∧ y.loading = none ∧
        y.image = none ∧ y.staging = 0 ∧ y.chunks = img.chunks.map (restoredChunk s x.words) := by
  obtain ⟨c, hat, -, hmoves⟩ := dropIntake_found hx
  generalize hcounted : ({ x with cnt := { x.cnt with discard := c } } : Till) = x' at hat
  have hexec : exec (.restoreLoaded till) s = .next (loadImage (dropIntake s till.toNat) till.toNat x' img b) := by
    change Host.Outcome.next (match tillAt s till.toNat with | none => s | some t => _) = _
    rw [hx]
    dsimp only
    rw [hload]
    dsimp only
    rw [if_neg fun h => hslabs h.2.1, hat, Option.getD_some]
  have hareas : poolAreas (dropIntake s till.toNat) = poolAreas s := by
    rw [poolAreas, hmoves.only .faults (by decide), poolAreas]
  have hset : Moves (poolAreas s ++ [.host, .pools, .intake, .tills]) s
      (setTill (stagingBack (dropIntake s till.toNat) x') till.toNat (loadedTill (dropIntake s till.toNat) x' img)) := by
    have hback := stagingBack_moves_areas (dropIntake s till.toNat) x'
    rw [hareas] at hback
    exact setTill_moves ((Proofs.widen hmoves (sub_append_right _ rfl)).trans hback (sub_append_self _ rfl)) (sub_append_right _ rfl)
  have hchunks : (loadedTill (dropIntake s till.toNat) x' img).chunks = img.chunks.map (restoredChunk s x.words) := by
    have hnow : (dropIntake s till.toNat).now = s.now := hmoves.only .now (by decide)
    rw [← hcounted]
    refine List.map_congr_left fun c _ => ?_
    rw [restoredChunk, hnow, restoredChunk]
  have hepoch : (loadedTill (dropIntake s till.toNat) x' img).epoch =
      if x.image = some img then x.epoch else img.epoch.getD (restoredEpoch x img.chunks) := by
    rw [← hcounted]
    exact (takeLevel_words _ img).2.2
  refine ⟨_, hexec, ?_⟩
  rw [loadImage_idle hidle]
  cases b with
  | none => exact ⟨hset.only, nofun, _, tillAt_setTill_same .., rfl, hepoch, rfl, rfl, rfl, hchunks⟩
  | some a =>
    refine ⟨(complete_moves hset (sub_append_right _ rfl)).only, fun a' ha => ?_, _,
      ((complete_ringStep ..).tillAt _).trans (tillAt_setTill_same ..), rfl, hepoch, rfl, rfl, rfl, hchunks⟩
    cases ha
    exact posted_completeTo ..

end Loaded

/-! ### A till saved by pre-emption is restored (R88) -/

section Restored

variable {s : State} {till : BitVec 12} {x : Till}

theorem exec_preemptRestore {img : TillImage} {u : State} {slabs : List (Nat × Block)} (hx : tillAt s till.toNat = some x)
    (hst : x.st = .saved) (hpre : x.preempted = true) (hload : x.loading = none) (hends : isEnding x = false)
    (hturn : ∀ e ∈ s.tills, e.2.st = .saved → e.2.preempted = true → e.2.loading = none → till.toNat ≤ e.1)
    (hwaits : ∀ e ∈ s.tills, e.2.st = .waitAdmit → e.2.preempts = false) (himage : x.image = some img)
    (hgrant : grantTill s till.toNat x.words x.shard = some (u, slabs)) : exec (.preemptRestore till) s =
      .next (setTill (recordRaw u oDevice srcPool 0x19 (till.toNat + 32768) 0 x.epoch.toNat) till.toNat
        { x with slabs := slabs, loading := some (img, none) }) := by
  have hbefore : (s.tills.any fun e => (e.2.st == .saved && e.2.preempted && e.2.loading.isNone) && decide (e.1 < till.toNat)) = false := by
    refine List.any_eq_false.2 fun e he h => ?_
    simp only [Bool.and_eq_true, beq_iff_eq, Option.isNone_iff_eq_none, decide_eq_true_eq] at h
    exact absurd (hturn e he h.1.1.1 h.1.1.2 h.1.2) (Nat.not_le.2 h.2)
  have hwaiting : (s.tills.any fun e => e.2.st == .waitAdmit && e.2.preempts) = false := by
    refine List.any_eq_false.2 fun e he h => ?_
    simp only [Bool.and_eq_true, beq_iff_eq] at h
    exact absurd h.2 (by rw [hwaits e he h.1]; exact Bool.false_ne_true)
  change Host.Outcome.next (match tillAt s till.toNat with | none => s | some t => _) = _
  rw [hx]
  dsimp only
  rw [hbefore, hwaiting, if_neg (by simp [hst, hpre, hload, hends]), himage, hgrant]

theorem preemptRestore_restores {img : TillImage} {u : State} {slabs : List (Nat × Block)} (hx : tillAt s till.toNat = some x)
    (hst : x.st = .saved) (hpre : x.preempted = true) (hload : x.loading = none) (hends : isEnding x = false)
    (hturn : ∀ e ∈ s.tills, e.2.st = .saved → e.2.preempted = true → e.2.loading = none → till.toNat ≤ e.1)
    (hwaits : ∀ e ∈ s.tills, e.2.st = .waitAdmit → e.2.preempts = false) (himage : x.image = some img)
    (hgrant : grantTill s till.toNat x.words x.shard = some (u, slabs)) : leads (.preemptRestore till) s fun t =>
      onlyChanges (poolAreas s ++ [.pools, .tills, .ledger]) s t ∧
        tillAt t till.toNat = some { x with slabs := slabs, loading := some (img, none) } ∧
        ∃ e, t.ledger.queue = enqueueChange s e ∧ e.kind = 0x19 := by
  have hgranted := grantTill_moves_areas hgrant
  have hall : Moves [.host, .stats, .pools, .faults, .fresh] s u := grantTill_moves (.refl _ s) rfl hgrant
  obtain ⟨e, hqueue, hkind, -⟩ := recordRaw_entry u oDevice srcPool 0x19 (till.toNat + 32768) 0 x.epoch.toNat
  refine ⟨_, exec_preemptRestore hx hst hpre hload hends hturn hwaits himage hgrant,
    (setTill_moves (recordRaw_moves (Proofs.widen hgranted (sub_append_self _ rfl)) (sub_append_right _ rfl)) (sub_append_right _ rfl)).only,
    tillAt_setTill_same .., e, ?_, hkind⟩
  refine Eq.trans (by exact hqueue) ?_
  rw [enqueueChange, recentOf, hall.only .ledger (by decide), hall.only .now (by decide), ← recentOf, ← enqueueChange]

end Restored

/-- Settles O41: at its cycle a drain saves, frees, ends or leaves the till, and images are written, loaded and restored in its place. -/
theorem drainsAndImagesAct : Obligations.DrainsAndImagesAct := by
  unfold Obligations.DrainsAndImagesAct
  exact ⟨fun s till x e rest hx hdrains hdue =>
      ⟨fun hkind hhost => drainAction_saves hx hdrains hdue hkind hhost,
        fun hkind _ => drainAction_closes hx hdrains hdue hkind,
        fun st hkind hstanding => drainAction_ends hx hdrains hdue hkind hstanding,
        fun hkind => drainAction_halts hx hdrains hdue hkind⟩,
    fun s till x hx =>
      ⟨fun hst hwrites himage hread => snapshotWritten_saves hx hst hwrites himage hread,
        fun img b hload _ hslabs hidle => restoreLoaded_opens hx hload hslabs hidle,
        fun img u slabs hst hpre hload hends hturn hwaits himage hgrant =>
          preemptRestore_restores hx hst hpre hload hends hturn hwaits himage hgrant⟩⟩

end Sys2Proof.Proofs

/-! PROOFS. Frames the X7 originates: what sending them may move, and where a frame sent is found (09 R260, 10 R288, R309). -/

namespace Sys2Proof.Proofs

open Sys2Proof.Machine Sys2Proof.Safety Sys2Proof.Laws

/-! ### Sends stay within their areas -/

/-- Failures of cells and marks of the pools only go. -/
structure MarksGo (s t : State) : Prop where
  pools : s.faults.stuck = [] → s.faults.lost = [] → t.faults.stuck = [] ∧ t.faults.lost = []
  cells : s.faults.cells = [] → t.faults.cells = []

/-- What a send may do: it moves only what a send may, and marks only go. -/
structure SendStep (s t : State) : Prop where
  moves : Moves (sendAreas s) s t
  marks : MarksGo s t

namespace MarksGo

variable {s t u : State}

theorem of_faults (h : t.faults = s.faults) : MarksGo s t := by
  constructor <;> rw [h]
  · exact fun hstuck hlost => ⟨hstuck, hlost⟩
  · exact id

theorem trans (h : MarksGo s t) (g : MarksGo t u) : MarksGo s u :=
  ⟨fun hstuck hlost => (fun x : t.faults.stuck = [] ∧ t.faults.lost = [] => g.pools x.1 x.2) (h.pools hstuck hlost), fun hc => g.cells (h.cells hc)⟩

theorem poolAreas_sub (h : MarksGo s t) : poolAreas t ⊆ poolAreas s := by
  unfold poolAreas
  by_cases hs : s.faults.stuck = [] ∧ s.faults.lost = []
  · obtain ⟨hstuck, hlost⟩ := h.pools hs.1 hs.2
    rw [hstuck, hlost]
    exact List.nil_subset _
  · rw [if_neg (c := (s.faults.stuck.isEmpty && s.faults.lost.isEmpty) = true) (by simpa using hs)]
    split
    · exact List.nil_subset _
    · exact List.Subset.refl _

theorem cellAreas_sub (h : MarksGo s t) : cellAreas t ⊆ cellAreas s := by
  unfold cellAreas
  by_cases hs : s.faults.cells = []
  · rw [h.cells hs]
    exact List.nil_subset _
  · rw [if_neg (c := s.faults.cells.isEmpty = true) (by simpa using hs)]
    split
    · exact List.nil_subset _
    · exact List.Subset.refl _

theorem sendAreas_sub (h : MarksGo s t) : sub (sendAreas t) (sendAreas s) = true := by
  unfold sendAreas
  refine sub_iff.2 fun p hp => ?_
  simp only [List.mem_append] at hp ⊢
  exact hp.imp_left (Or.imp (fun h' => h.poolAreas_sub h') fun h' => h.cellAreas_sub h')

end MarksGo

namespace SendStep

variable {s t u : State}

theorem refl (s : State) : SendStep s s := ⟨.refl _ s, .of_faults rfl⟩

theorem trans (h : SendStep s t) (g : SendStep t u) : SendStep s u := ⟨h.moves.trans g.moves h.marks.sendAreas_sub, h.marks.trans g.marks⟩

/-- A change of ports, frames, pools and numbers alone. -/
theorem of_moves (h : Moves [.ports, .frames, .stalled, .pools, .intake, .fresh] s t) : SendStep s t :=
  ⟨Proofs.widen h (sub_append_right _ rfl), .of_faults (h.only .faults (by decide))⟩

/-- A change that the pools' own marks bring about. -/
theorem of_pools (h : Moves (poolAreas s ++ [.pools]) s t) (hmarks : MarksGo s t) : SendStep s t := by
  refine ⟨Proofs.widen h (sub_iff.2 fun p hp => ?_), hmarks⟩
  simp only [sendAreas, List.mem_append] at hp ⊢
  exact hp.elim (fun h' => .inl (.inl h')) fun h' => .inr ((by decide : ([.pools] : List Area) ⊆ [.ports, .frames, .stalled, .pools, .intake, .fresh]) h')

theorem foldl {α : Type} {f : State → α → State} (hf : ∀ s x, SendStep s (f s x)) (l : List α) (s : State) : SendStep s (l.foldl f s) := by
  induction l generalizing s with
  | nil => exact .refl s
  | cons x l ih => exact (hf s x).trans (ih _)

end SendStep

/-! ### Cells taken and given -/

section Cells

variable {s t : State}

/-- The faults of cells and marks stay while events are posted and ports, frames and pools change. -/
theorem poolFault_faults (s : State) (fence : Bool) (pool q unit : Nat) : (poolFault s fence pool q unit).faults = s.faults :=
  (poolFault_moves (.refl [.host, .stats, .pools, .fresh] s) rfl).only .faults (by decide)

theorem foldl_faults {α : Type} {f : State → α → State} (hf : ∀ s x, (f s x).faults = s.faults) (l : List α) (s : State) :
    (l.foldl f s).faults = s.faults := by
  induction l generalizing s with
  | nil => rfl
  | cons x l ih => exact (ih _).trans (hf s x)

theorem takeStuck_faults (s : State) (pool place q : Nat) : (takeStuck s pool place q).1.faults =
    if (marks s.faults.stuck pool place).isEmpty then s.faults
    else { s.faults with stuck := s.faults.stuck.filter fun x => !(marks s.faults.stuck pool place).contains x } := by
  rw [takeStuck]
  dsimp only
  split
  · rfl
  · exact foldl_faults (f := fun s x => poolFault s true pool q x.2) (fun s x => poolFault_faults s true pool q x.2) _ _

theorem takeStuck_marks (s : State) (pool place q : Nat) : MarksGo s (takeStuck s pool place q).1 := by
  refine ⟨fun hstuck hlost => ?_, fun hcells => ?_⟩
  · rw [takeStuck_faults, if_pos (by rw [hstuck]; rfl)]
    exact ⟨hstuck, hlost⟩
  · rw [takeStuck_faults]
    split <;> exact hcells

theorem giveLost_faults (s : State) (pool place q n : Nat) : (giveLost s pool place q n).1.faults =
    if ((marks s.faults.lost pool place).take n).isEmpty then s.faults
    else { s.faults with lost := s.faults.lost.filter fun x => !((marks s.faults.lost pool place).take n).contains x } := by
  rw [giveLost]
  dsimp only
  split
  · rfl
  · have hone (t : State) (x : Nat × Nat) : (poolFault t false pool q x.2).faults = t.faults := poolFault_faults t false pool q x.2
    exact foldl_faults hone _ _

theorem giveLost_marks (s : State) (pool place q n : Nat) : MarksGo s (giveLost s pool place q n).1 := by
  refine ⟨fun hstuck hlost => ?_, fun hcells => ?_⟩
  · rw [giveLost_faults, if_pos (by rw [hlost, marks, List.filter_nil, List.take_nil]; rfl)]
    exact ⟨hstuck, hlost⟩
  · rw [giveLost_faults]
    split <;> exact hcells

theorem takeCells_sendStep (s : State) (slice q k : Nat) : SendStep s (takeCells s slice q k) := by
  refine .of_pools (takeCells_moves_areas s slice q k) ?_
  have hused : MarksGo s (addUse s q k) := .of_faults rfl
  have htaken : MarksGo (takeStuck (addUse s q k) 0 slice q).1 (takeCells s slice q k) := .of_faults rfl
  exact hused.trans ((takeStuck_marks (addUse s q k) 0 slice q).trans htaken)

theorem giveCells_sendStep (s : State) (slice q k : Nat) : SendStep s (giveCells s slice q k) :=
  .of_pools (upd_pools (subUse_moves (giveLost_moves_areas 0 slice q k) (sub_append_right _ rfl)) (sub_append_right _ rfl))
    ((giveLost_marks s 0 slice q k).trans (.of_faults rfl))

theorem testCell_moves_list (s : State) (b : Held) (c : CellFault) : Moves [.host, .stats, .blockCounts, .pools, .fresh] s (testCell s b c) := by
  unfold testCell
  dsimp only
  split
  · exact countBlock_moves (setCause_moves (poolFault_moves (upd_pools (.refl _ s) rfl) rfl) rfl) rfl
  · exact countBlock_moves (setCause_moves (.refl _ s) rfl) rfl

theorem testCells_sendStep (s : State) (fid : Nat) (b : Held) : SendStep s (testCells s fid b) := by
  have hall : Moves [.host, .stats, .blockCounts, .pools, .faults, .fresh] s (testCells s fid b) := testCells_moves (.refl _ s) rfl
  by_cases hcells : s.faults.cells = []
  · have hsame : testCells s fid b = s := by rw [testCells, hcells]; rfl
    rw [hsame]
    exact .refl s
  · refine ⟨Proofs.widen hall ?_, ?_⟩
    · rw [sendAreas, cellAreas, if_neg (by simpa using hcells), List.append_assoc]
      exact sub_append_right _ (sub_append_left _ _)
    · refine ⟨fun hstuck hlost => ?_, fun h => absurd h hcells⟩
      have hfaults : (testCells s fid b).faults = { s.faults with cells := s.faults.cells.filter fun c => c.fid != fid } := by
        rw [testCells, if_neg (by simpa using hcells)]
        exact foldl_faults (fun s c => (testCell_moves_list s b c).only .faults (by decide)) _ _
      rw [hfaults]
      exact ⟨hstuck, hlost⟩

theorem dropCopy_sendStep (s : State) (fid : Nat) : SendStep s (dropCopy s fid) := by
  unfold dropCopy
  split
  · exact .refl s
  next h _ =>
    dsimp only
    split
    · exact .of_moves (upd_frames (.refl _ s) rfl)
    · have htest : SendStep s (testCells { s with frames := odel s.frames fid } fid h) :=
        (SendStep.of_moves (upd_frames (.refl _ s) rfl)).trans (testCells_sendStep _ fid h)
      generalize testCells { s with frames := odel s.frames fid } fid h = t at htest
      have hgiven : SendStep t (match h.mirror with
          | some m => { t with pools := { t.pools with cells := sdrop t.pools.cells h.slice h.cells,
                                                       cellsFreed := sput 0 t.pools.cellsFreed h.slice (sget 0 t.pools.cellsFreed h.slice + h.cells),
                                                       mirror := sdrop t.pools.mirror m h.cells } }
          | none => if h.cells = 0 || h.reserve then t else giveCells t h.slice (quotaIdx 0 h.job h.cls) h.cells) := by
        split
        · exact .of_moves (upd_pools (.refl _ t) rfl)
        · split
          · exact .refl t
          · exact giveCells_sendStep ..
      split
      · exact htest.trans hgiven
      · exact (htest.trans hgiven).trans (.of_moves (owe_moves (.refl _ _) rfl))

theorem evictMirror_sendStep (s : State) (fid p : Nat) : SendStep s (evictMirror s fid p) := by
  have hgone : SendStep s (modQ s p fun q => unqueue q fun e => e.fid == fid) := .of_moves (modQ_moves (.refl _ s) rfl)
  have hdrop := dropCopy_sendStep (modQ s p fun q => unqueue q fun e => e.fid == fid) fid
  refine (hgone.trans hdrop).trans (.of_moves ?_)
  exact countPort_moves (upd_pools (.refl _ _) rfl) rfl

theorem dropMirrors_sendStep (n slice k : Nat) (s : State) : SendStep s (dropMirrors n s slice k) := by
  induction n generalizing s with
  | zero => exact .refl s
  | succ n ih =>
    unfold dropMirrors
    dsimp only
    split
    · exact .refl s
    · split
      · exact .refl s
      · exact (evictMirror_sendStep s _ _).trans (ih _)

theorem makeRoom_sendStep (s : State) (slice k : Nat) : SendStep s (makeRoom s slice k) := by
  unfold makeRoom
  split
  · exact dropMirrors_sendStep ..
  · exact .refl s

end Cells

/-! ### Sending -/

section Send

variable {s t : State}

theorem takeOwn_sendStep {cs : List (Nat × Entry)} (h : takeOwn s cs = some t) : SendStep s t := by
  cases cs with
  | nil => exact nomatch h
  | cons c cs =>
    simp only [takeOwn] at h
    split at h
    · obtain rfl := Option.some.inj h
      exact (makeRoom_sendStep s _ _).trans ((takeCells_sendStep _ _ _ _).trans (.of_moves (hold_moves (.refl _ _) rfl)))
    · exact nomatch h

/-- A frame of the X7's own joins an output without a mirror. -/
def isOwn (e : Entry) : Prop := e.src = 16 ∧ e.mirror = none

theorem enqueue_own {e : Entry} (h : isOwn e) (s : State) (p : Nat) : enqueue s p e = pushEntry s p (markCm s p e) := by
  have hsrc : (markCm s p e).src = 16 := (markCm_fields s p e).2.2.1.trans h.1
  unfold enqueue
  rw [h.2]
  dsimp only
  rw [if_pos hsrc]
  exact if_neg Bool.false_ne_true

theorem enqueue_sendStep {e : Entry} (h : isOwn e) (s : State) (p : Nat) : SendStep s (enqueue s p e) := by
  rw [enqueue_own h]
  exact .of_moves (pushEntry_moves (.refl _ s) rfl)

theorem foldl_enqueue_sendStep (cs : List (Nat × Entry)) (hown : ∀ c ∈ cs, isOwn c.2) (s : State) :
    SendStep s (cs.foldl (fun s x => enqueue s x.1 x.2) s) := by
  induction cs generalizing s with
  | nil => exact .refl s
  | cons c cs ih =>
    exact (enqueue_sendStep (hown c (List.mem_cons_self ..)) s c.1).trans (ih (fun c hc => hown c (List.mem_cons_of_mem _ hc)) _)

theorem emitAll_sendStep (cs : List (Nat × Entry)) (hown : ∀ c ∈ cs, isOwn c.2) (s : State) : SendStep s (emitAll s cs) := by
  have hstall : SendStep s { s with stalled := s.stalled ++ cs } := .of_moves (upd_stalled (.refl _ s) rfl)
  unfold emitAll
  dsimp only
  split
  · exact foldl_enqueue_sendStep cs hown s
  · split
    · exact hstall
    · split
      next h => exact (takeOwn_sendStep h).trans (foldl_enqueue_sendStep cs hown _)
      · exact hstall

theorem isOwn_ownEntry (s : State) (fid : Nat) (f : Frame) (ready : Nat) (prepared : Bool) (aligned : Option (Nat × Nat)) :
    isOwn (ownEntry s fid f ready prepared aligned) := ⟨rfl, rfl⟩

theorem numbered_sendStep (s : State) (n : Nat) : SendStep s { s with fresh := s.fresh + n } := .of_moves (upd_fresh (.refl _ s) rfl)

theorem emitTo_sendStep (s : State) (p : Nat) (f : Frame) (ready : Nat) (prepared : Bool) (aligned : Option (Nat × Nat)) :
    SendStep s (emitTo s p f ready prepared aligned) :=
  (numbered_sendStep s 1).trans (emitAll_sendStep _ (fun c hc => by
    rw [List.mem_singleton.1 hc]
    exact isOwn_ownEntry ..) _)

theorem sendGroup_sendStep (s : State) (h : Header) (payload : List Byte) (ready : Nat → Nat) (prepared : Bool)
    (aligned : Nat → Option (Nat × Nat)) : SendStep s (sendGroup s h payload ready prepared aligned) := by
  unfold sendGroup
  dsimp only
  split
  · refine .trans ((SendStep.foldl (fun s p => .of_moves (countFlush_moves (.refl _ s) rfl)) _ s).trans (numbered_sendStep _ 1))
      (emitAll_sendStep _ (fun c hc => ?_) _)
    obtain ⟨p, -, rfl⟩ := List.mem_map.1 hc
    exact isOwn_ownEntry ..
  · exact numbered_sendStep s 1

/-- The path of a frame is noted at the port that stands for the X7. -/
def pathWritten (s : State) (h : Header) : State := match (writePath s h selfPort).2 with
  | some i => modQ s selfPort fun q => { q with lastPath := q.lastPath.set (writePath s h selfPort).1.cls.toNat i }
  | none => s

theorem pathWritten_sendStep (s : State) (h : Header) : SendStep s (pathWritten s h) := by
  unfold pathWritten
  split
  · exact .of_moves (modQ_moves (.refl _ s) rfl)
  · exact .refl s

theorem sendOwn_eq (s : State) (h : Header) (payload : List Byte) (ready : Nat → Nat) : sendOwn s h payload ready =
    if h.mc = 0 ∧ some h.dest = ownEndpoint s then
      if [0, 2, 5, 0xA, 0xC].contains h.type.toNat then { s with fresh := s.fresh + 1 }
      else { s with intake := s.intake ++ [{ frame := mkFrame h payload, port := selfPort, arrival := s.now }], fresh := s.fresh + 1 }
    else match routed (pathWritten s h) (writePath s h selfPort).1 selfPort with
      | some p => emitTo (pathWritten s h) p (mkFrame (writePath s h selfPort).1 payload) (ready p) false none
      | none => { pathWritten s h with fresh := (pathWritten s h).fresh + 1 } := rfl

theorem sendOwn_sendStep (s : State) (h : Header) (payload : List Byte) (ready : Nat → Nat) : SendStep s (sendOwn s h payload ready) := by
  rw [sendOwn_eq]
  split
  · split
    · exact numbered_sendStep s 1
    · have hin : Moves [.ports, .frames, .stalled, .pools, .intake, .fresh] s
          { s with intake := s.intake ++ [{ frame := mkFrame h payload, port := selfPort, arrival := s.now }] } := upd_intake (.refl _ s) rfl
      exact .of_moves (upd_fresh hin rfl)
  · split
    · exact (pathWritten_sendStep s h).trans (emitTo_sendStep ..)
    · exact (pathWritten_sendStep s h).trans (numbered_sendStep _ 1)

end Send

end Sys2Proof.Proofs

/-! PROOFS. A frame the X7 originates that can reach its destination is held by it once it is sent (09 R260, R267). -/

namespace Sys2Proof.Proofs

open Sys2Proof.Machine Sys2Proof.Safety Sys2Proof.Laws

/-! ### Routes do not depend on the port that stands for the X7 -/

section Routes

variable {s : State} {h : Header}

theorem usable_not_input {p q : Nat} (hu : usable s p h q = true) : p ≠ q := by
  simp only [usable, Bool.and_eq_true, bne_iff_ne] at hu
  exact hu.1.1.1.2

theorem route_usable {p o : Nat} (hr : route s h p = some o) : usable s o h p = true := by
  unfold route at hr
  dsimp only at hr
  split at hr
  · exact nomatch hr
  · split at hr
    · split at hr
      · split at hr
        next hu => exact Option.some.inj hr ▸ hu
        · exact nomatch hr
      · exact nomatch hr
    · split at hr
      · exact List.find?_some (p := fun q => usable s q h p) hr
      · exact nomatch hr

variable (f : PortQ → PortQ)

theorem portAt_modQ_other {p q : Nat} (hpq : p ≠ q) : portAt (modQ s q f) p = portAt s p := sget_sput_other hpq

theorem usable_modQ_self (p : Nat) : usable (modQ s selfPort f) p h selfPort = usable s p h selfPort := by
  by_cases hp : p = selfPort
  · simp [usable, hp]
  · rw [usable, portAt_modQ_other f hp, usable]

theorem route_modQ_self : route (modQ s selfPort f) h selfPort = route s h selfPort := by
  unfold route
  simp only [usable_modQ_self]
  rfl

theorem routed_modQ_self : routed (modQ s selfPort f) h selfPort = routed s h selfPort := by
  rw [routed, route_modQ_self, routed]
  cases hr : route s h selfPort with
  | none => rfl
  | some o =>
    have ho : o ≠ selfPort := usable_not_input (route_usable hr)
    rw [Option.filter_some, Option.filter_some, portAt_modQ_other f ho]
    rfl

end Routes

/-! ### The same frame, marked or not -/

/-- The two frames carry the same payload with the same TYPE, DEST and AUX. -/
def carriesSame (f g : Frame) : Prop :=
  g.payload = f.payload ∧ (headerOf g.hdr).type = (headerOf f.hdr).type ∧ (headerOf g.hdr).dest = (headerOf f.hdr).dest ∧
    (headerOf g.hdr).aux = (headerOf f.hdr).aux

theorem markCm_carriesSame (s : State) (p : Nat) (e : Entry) : carriesSame e.frame (markCm s p e).frame := by
  unfold markCm
  dsimp only
  split
  · exact ⟨rfl, rfl, rfl, rfl⟩
  · refine ⟨rfl, ?_⟩
    have hhdr : headerOf (rehead e.frame { headerOf e.frame.hdr with cm := 1 }).hdr = withHcrc { headerOf e.frame.hdr with cm := 1 } :=
      headerBitsRoundTrip.1 _
    dsimp only
    rw [hhdr]
    exact ⟨rfl, rfl, rfl⟩

/-! ### A frame sent is held -/

section Sent

variable {s : State}

theorem queue_pushEntry (p : Nat) (e : Entry) : (portAt (pushEntry s p e) p).q.queue = (portAt s p).q.queue ++ [e] := by
  have hne : ({ portAt s p with q := noteDepth { (portAt s p).q with queue := (portAt s p).q.queue ++ [e] } e.cls } : Port) ≠ {} := by
    intro h
    have hq := congrArg (fun v : Port => v.q.queue) h
    exact List.append_ne_nil_of_right_ne_nil (portAt s p).q.queue (List.cons_ne_nil e []) hq
  rw [pushEntry, modPort]
  rw [show portAt (setPort s p _) p = _ from sget_sput_ne hne]
  rfl

/-- An own copy that joins an output is in its queue, marked or not. -/
theorem enqueue_owned {e : Entry} (h : isOwn e) (p : Nat) : ∃ f, owned (enqueue s p e) f ∧ carriesSame e.frame f := by
  refine ⟨(markCm s p e).frame, .inr (.inr ⟨p, markCm s p e, ?_, (markCm_fields s p e).2.2.1.trans h.1, rfl⟩), markCm_carriesSame s p e⟩
  rw [enqueue_own h, queue_pushEntry]
  exact List.mem_append_right _ (List.mem_singleton_self _)

theorem emitTo_owned (p : Nat) (f : Frame) (ready : Nat) : ∃ g, owned (emitTo s p f ready false none) g ∧ carriesSame f g := by
  have hown := isOwn_ownEntry { s with fresh := s.fresh + 1 } s.fresh f ready false none
  have hstalled (u : State) (e : Entry) (he : e.frame = f) : ∃ g, owned { u with stalled := u.stalled ++ [(p, e)] } g ∧ carriesSame f g :=
    ⟨f, .inr (.inl ⟨(p, e), List.mem_append_right _ (List.mem_singleton_self _), he⟩), rfl, rfl, rfl, rfl⟩
  unfold emitTo emitAll
  dsimp only [takeFresh]
  rw [if_neg (by simp [ownEntry])]
  split
  · exact hstalled _ _ rfl
  · split
    · exact enqueue_owned hown p
    · exact hstalled _ _ rfl

theorem writePath_fields (s : State) (h : Header) (p : Nat) : (writePath s h p).1 = { h with path := (writePath s h p).1.path } := by
  unfold writePath
  split
  · rfl
  · split
    · split <;> rfl
    · rfl

theorem routed_pathWritten (h g : Header) : routed (pathWritten s h) g selfPort = routed s g selfPort := by
  unfold pathWritten
  split
  · exact routed_modQ_self _
  · rfl

/-- A unicast frame whose destination can be reached is held once it is sent. -/
theorem sendOwn_sent {h : Header} (payload : List Byte) (ready : Nat → Nat) (hreach : reaches s h.dest) (hmc : h.mc = 0)
    (htype : h.type.toNat ∉ [0, 2, 5, 0xA, 0xC]) : sent (sendOwn s h payload ready) h.type h.dest h.aux payload := by
  rw [sendOwn_eq]
  split
  · rw [if_neg (by simpa using htype)]
    refine ⟨mkFrame h payload, .inl ⟨_, List.mem_append_right _ (List.mem_singleton_self _), rfl⟩, rfl, ?_⟩
    rw [headerOf_mkFrame]
    exact ⟨rfl, rfl, rfl⟩
  next haway =>
    have hfields := writePath_fields s h selfPort
    have hroute : (routed s (writePath s h selfPort).1 selfPort).isSome = true :=
      hreach.elim (fun hself => absurd ⟨hmc, hself⟩ haway) fun hall => hall _ (by rw [hfields]) (by rw [hfields]; exact hmc)
    obtain ⟨o, ho⟩ := Option.isSome_iff_exists.1 hroute
    rw [routed_pathWritten, ho]
    obtain ⟨g, hg, hpayload, htype', hdest, haux⟩ := emitTo_owned (s := pathWritten s h) o (mkFrame (writePath s h selfPort).1 payload) (ready o)
    refine ⟨g, hg, hpayload, ?_, ?_, ?_⟩
    · rw [htype', headerOf_mkFrame, hfields]; rfl
    · rw [hdest, headerOf_mkFrame, hfields]; rfl
    · rw [haux, headerOf_mkFrame, hfields]; rfl

end Sent

end Sys2Proof.Proofs

/-! PROOFS. Inputs of a tally are marked and counted, and complete generations release or carry (06 R168-R172). -/

namespace Sys2Proof.Proofs

open Sys2Proof.Machine Sys2Proof.Safety Sys2Proof.Laws

/-! ### A generation is released (R171, R174) -/

section Release

variable {s₀ s : State} {n : Nat} {v : Tally} {a p : Nat}

/-- The tally after its release, before its completion is posted. -/
def releasedTally (s : State) (v : Tally) : Tally := { clearGen v with releasedAt := some s.now, excisedMark := v.excisedMark }

theorem straggle_moves_free (s : State) (v : Tally) : Moves [.jobFree] s (straggle s v) := straggle_moves (.refl _ s) rfl

/-- A release sends its frames, posts its completion and sets the next generation. -/
theorem releaseTally_eq : ∃ w x, SendStep s w ∧ (yAlign v.words = false → yCounter v.words = false → x = toldNow s v 0) ∧
    releaseTally s n v a p = setTally (postTally (straggle w v) n (releasedTally s v) (genStatus v) x).1 n
      { (postTally (straggle w v) n (releasedTally s v) (genStatus v) x).2 with excisedMark := false } := by
  refine ⟨_, _, ?_, ?_, rfl⟩
  · exact sendGroup_sendStep ..
  · intro halign hcounter
    simp [halign, hcounter]

/-- Posting a completion leaves of a tally all but its counts and its mark. -/
theorem postTally_keeps {z : Tally} {status : Nat} {x : Told} : ∃ late discard mark,
    (postTally s n z status x).2 = { z with late := late, discard := discard, excisedMark := mark } := by
  rw [postTally]
  split
  · exact ⟨z.late, z.discard, z.excisedMark, rfl⟩
  · exact ⟨0, 0, false, rfl⟩

/-- A release moves what a send, its completion and the straggle of its job may, and the tally stands in its next generation. -/
theorem releaseTally_next (hs : SendStep s₀ s) : Moves (sendAreas s₀ ++ [.host, .tallies, .jobFree]) s₀ (releaseTally s n v a p) ∧
    ∃ late discard, tallyAt (releaseTally s n v a p) n =
      some { releasedTally s v with late := late, discard := discard, excisedMark := false } := by
  obtain ⟨w, x, hw, -, heq⟩ := releaseTally_eq (s := s) (n := n) (v := v) (a := a) (p := p)
  obtain ⟨late, discard, mark, hkeep⟩ := postTally_keeps (s := straggle w v) (n := n) (z := releasedTally s v) (status := genStatus v) (x := x)
  have hsent : Moves (sendAreas s₀ ++ [.host, .tallies, .jobFree]) s₀ (straggle w v) :=
    straggle_moves (Proofs.widen (hs.trans hw).moves (sub_append_left _ _)) (sub_append_right _ rfl)
  rw [heq, hkeep]
  exact ⟨setTally_moves (hsent.trans postTally_ringStep.moves (sub_sendAreas s₀ rfl)) (sub_append_right _ rfl), late, discard,
    tallyAt_setTally_same ..⟩

/-- The completion of a release is that of the generation it ends. -/
theorem releaseTally_posts (halign : yAlign v.words = false) (hcounter : yCounter v.words = false)
    (hposts : yNotify v.words = true ∨ v.excisedMark = true) :
    tallyPosted (releaseTally s n v a p) n v (genStatus v) (toldNow s v 0) := by
  obtain ⟨w, x, -, hx, heq⟩ := releaseTally_eq (s := s) (n := n) (v := v) (a := a) (p := p)
  obtain ⟨hwords, hlate, hdiscard⟩ := clearGen_words v
  have hnotify : ¬ (genStatus v = stOk ∧ yNotify (releasedTally s v).words = false) := by
    rw [show (releasedTally s v).words = v.words from hwords]
    rintro ⟨hst, hquiet⟩
    rcases hposts with h | h
    · rw [h] at hquiet
      exact Bool.noConfusion hquiet
    · rw [genStatus, if_pos h] at hst
      exact absurd hst (by decide)
  obtain ⟨c, hc, hcring, hring, hentries⟩ := tallyPosted_postTally (s := straggle w v) (n := n) (x := x) hnotify
  rw [heq]
  refine ⟨c, hc, hcring.trans (congrArg yCring hwords), hring, ?_⟩
  rw [hentries, ← hx halign hcounter, tallyEntry, tallyEntry, show (releasedTally s v).words = v.words from hwords,
    show (releasedTally s v).late = v.late from hlate, show (releasedTally s v).discard = v.discard from hdiscard]

theorem clearGen_clear (v : Tally) : (clearGen v).gen = v.gen + 1 ∧ (clearGen v).arrived = [] ∧ (clearGen v).all = 0 ∧
    (clearGen v).yes = 0 ∧ (clearGen v).first = none ∧
    (yCounter v.words = true → (clearGen v).count = max minCount (v.count - (yThreshold v.words : Int))) := by
  unfold clearGen newGen
  dsimp only
  split
  next h => exact ⟨rfl, rfl, rfl, rfl, rfl, fun _ => rfl⟩
  next h => exact ⟨rfl, rfl, rfl, rfl, rfl, fun h' => absurd h' h⟩

end Release

/-! ### A generation is carried to the parent (R172) -/

section Carry

variable {s₀ s : State} {n : Nat} {v : Tally} {a p : Nat}

/-- The header of a CARRY. -/
def carryHeader (s : State) (n : Nat) (v : Tally) : Header :=
  ownFrame s 4 (yClass v.words) (yParent v.words) (yJob v.words) n v.gen 0 (2 * 2 ^ 28)

/-- The CARRY is sent. -/
def carrySent (s : State) (n : Nat) (v : Tally) (a p : Nat) : State :=
  sendOwn s (carryHeader s n v) (padTo 32 (leBytes 4 v.all ++ leBytes 4 v.yes)) (tallyReady a p)

/-- A CARRY sends its frame, posts a completion where a member was excised, and takes no further input. -/
theorem carryTally_eq : ∃ w late discard mark, RingStep (straggle (carrySent s n v a p) v) w ∧
    carryTally s n v a p = setTally w n { v with carried := true, timerAt := none, late := late, discard := discard, excisedMark := mark } := by
  unfold carryTally
  dsimp only
  split
  · obtain ⟨late, discard, mark, hkeep⟩ := postTally_keeps (s := straggle (carrySent s n v a p) v) (n := n)
      (z := { v with carried := true, timerAt := none }) (status := stExcised)
      (x := toldNow (carrySent s n v a p) { v with carried := true, timerAt := none } 0)
    exact ⟨_, late, discard, mark, postTally_ringStep, congrArg (setTally _ n) hkeep⟩
  · exact ⟨_, v.late, v.discard, v.excisedMark, .refl _, rfl⟩

theorem owned_of_moves {l : List Area} {t : State} {f : Frame} (h : Moves l s t) (hintake : Area.intake ∉ l) (hstalled : Area.stalled ∉ l)
    (hports : Area.ports ∉ l) (hf : owned s f) : owned t f := by
  rw [owned, h.only .intake hintake, h.only .stalled hstalled]
  simp only [portAt_of_ports (h.only .ports hports)]
  exact hf

theorem sent_of_moves {l : List Area} {t : State} {type : BitVec 4} {dest : BitVec 20} {aux : BitVec 32} {payload : List Byte}
    (h : Moves l s t) (hintake : Area.intake ∉ l) (hstalled : Area.stalled ∉ l) (hports : Area.ports ∉ l)
    (hs : sent s type dest aux payload) : sent t type dest aux payload := by
  obtain ⟨f, hf, hrest⟩ := hs
  exact ⟨f, owned_of_moves h hintake hstalled hports hf, hrest⟩

/-- Own headers are unicast. -/
theorem ownFrame_mc (s : State) (type cls dest job till : Nat) (epoch : W16) (offset aux : Nat) :
    (ownFrame s type cls dest job till epoch offset aux).mc = 0 := by
  show blankHeader.mc = 0
  decide

theorem carryTally_carries (hs : SendStep s₀ s) : Moves (sendAreas s₀ ++ [.host, .tallies, .jobFree]) s₀ (carryTally s n v a p) ∧
    (reaches s (BitVec.ofNat 20 (yParent v.words)) → sent (carryTally s n v a p) 4 (BitVec.ofNat 20 (yParent v.words)) 0x20000000
      (padTo 32 (leBytes 4 v.all ++ leBytes 4 v.yes))) ∧
    ∃ late discard mark, tallyAt (carryTally s n v a p) n =
      some { v with carried := true, timerAt := none, late := late, discard := discard, excisedMark := mark } := by
  obtain ⟨w, late, discard, mark, hw, heq⟩ := carryTally_eq (s := s) (n := n) (v := v) (a := a) (p := p)
  have hsend : SendStep s (carrySent s n v a p) := sendOwn_sendStep ..
  have hafter : Moves [.host, .tallies, .jobFree, .fresh] (carrySent s n v a p) (carryTally s n v a p) := by
    rw [heq]
    exact setTally_moves ((straggle_moves (.refl _ _) rfl).trans hw.moves rfl) rfl
  refine ⟨?_, fun hreach => ?_, late, discard, mark, by rw [heq, tallyAt_setTally_same]⟩
  · exact (Proofs.widen (hs.trans hsend).moves (sub_append_left _ _)).trans hafter (sub_sendAreas s₀ rfl)
  · refine sent_of_moves hafter (by decide) (by decide) (by decide) ?_
    exact sendOwn_sent (h := carryHeader s n v) _ _ hreach (ownFrame_mc ..) (by decide : (4 : BitVec 4).toNat ∉ [0, 2, 5, 0xA, 0xC])

end Carry

/-! ### A complete generation settles (R171, R172) -/

section Settle

variable {s : State} {n : Nat} {v : Tally} {a p : Nat}

theorem settleTally_releases (hbarrier : yCounter v.words = false) (hearly : tallyLate s v = false) (hall : allArrived v = true)
    (hcarried : v.carried = false) (hroot : yInner v.words = false) : settleTally s n v a p = releaseTally s n v a p := by
  simp [settleTally, hbarrier, hearly, hall, hcarried, hroot]

theorem settleTally_carries (hbarrier : yCounter v.words = false) (hearly : tallyLate s v = false) (hall : allArrived v = true)
    (hcarried : v.carried = false) (hinner : yInner v.words = true) : settleTally s n v a p = carryTally s n v a p := by
  simp [settleTally, hbarrier, hearly, hall, hcarried, hinner]

theorem settleTally_counts (hcounter : yCounter v.words = true) (hearly : tallyLate s v = false) (hlow : v.count < (yThreshold v.words : Int)) :
    settleTally s n v a p = setTally s n v := by
  have hdue : counterDue s v = false := by simp [counterDue, hlow]
  simp [settleTally, hcounter, hearly, hdue]

theorem settleTally_counted (hcounter : yCounter v.words = true) (hearly : tallyLate s v = false)
    (hfull : (yThreshold v.words : Int) ≤ v.count) (honce : v.releasedAt ≠ some s.now) : settleTally s n v a p = releaseTally s n v a p := by
  have hdue : counterDue s v = true := by simp [counterDue, hcounter, hfull, honce]
  simp [settleTally, hcounter, hearly, hdue]

end Settle

end Sys2Proof.Proofs

/-! PROOFS. TALLY_OP frames at their tally (06 R168-R172). -/

namespace Sys2Proof.Proofs

open Sys2Proof.Machine Sys2Proof.Safety Sys2Proof.Laws

section Op

variable {s : State} {f : Frame} {i : Intake} {v : Tally}

/-- A frame for another job, or one the tally does not take, is discarded and counted. -/
theorem tallyInput_discards {take : Tally → Header → Option Tally} (hfind : s.intake.find? (fun i => decide (i.frame = f)) = some i)
    (hv : tallyAt s (headerOf f.hdr).till.toNat = some v) (hjob : (headerOf f.hdr).job.toNat ≠ yJob v.words) :
    tallyInput s f take = setTally (takenIn s i) (headerOf f.hdr).till.toNat { v with discard := satAdd 0xFFFF v.discard 1 } := by
  unfold tallyInput
  rw [takeIntake_found hfind]
  dsimp only
  rw [show tallyAt (takenIn s i) (headerOf f.hdr).till.toNat = some v from hv]
  simp [hjob]

/-- A frame the tally takes settles it with its input noted. -/
theorem tallyInput_takes {take : Tally → Header → Option Tally} {w : Tally} (hfind : s.intake.find? (fun i => decide (i.frame = f)) = some i)
    (hv : tallyAt s (headerOf f.hdr).till.toNat = some v) (hopen : tallyOpenNow s v = true)
    (hjob : (headerOf f.hdr).job.toNat = yJob v.words) (hcls : (headerOf f.hdr).cls.toNat = yClass v.words)
    (htake : take v (headerOf f.hdr) = some w) :
    tallyInput s f take = settleTally (takenIn s i) (headerOf f.hdr).till.toNat (noteInput s w i.arrival) i.arrival i.port := by
  have hgood : (tallyOpenNow (takenIn s i) v && (headerOf f.hdr).job.toNat == yJob v.words &&
      (headerOf f.hdr).cls.toNat == yClass v.words) = true := by
    rw [tallyOpenNow_congr (s := s) (t := takenIn s i) rfl, hopen, hjob, hcls]
    simp
  unfold tallyInput
  rw [takeIntake_found hfind]
  dsimp only
  rw [show tallyAt (takenIn s i) (headerOf f.hdr).till.toNat = some v from hv]
  dsimp only
  rw [if_pos hgood, htake]
  rfl

theorem goodFrame_of {type : BitVec 4} (hgood : frameGood f = true) (htype : (headerOf f.hdr).type = type) :
    goodFrame f type.toNat = true := by
  rw [goodFrame, hgood, htype]
  simp

variable (hgood : frameGood f = true) (htype : (headerOf f.hdr).type = 4)

include hgood htype

theorem exec_tallyArrive (hop : tallyOpOf (headerOf f.hdr) = 0) : exec (.tallyArrive f) s =
    .next (tallyInput s f fun v h => markSlot v h false 1 (b2n (bit h.aux.toNat 0))) := by
  refine congrArg Host.Outcome.next ((if_neg ?_).trans ?_)
  · rw [show goodFrame f 4 = true from goodFrame_of hgood htype, hop]
    decide
  · simp only [hop, if_true]

theorem exec_tallyCarry (hop : tallyOpOf (headerOf f.hdr) = 2) : exec (.tallyCarry f) s =
    .next (tallyInput s f fun v h => markSlot v h true (leAt f.payload 0 4) (leAt f.payload 4 4)) := by
  refine congrArg Host.Outcome.next (if_neg ?_)
  rw [show goodFrame f 4 = true from goodFrame_of hgood htype, hop]
  decide

omit hgood htype in
/-- The event of a count that saturates. -/
def saturationNoted (s : State) (f : Frame) : State :=
  let h := headerOf f.hdr
  let add := toInt 24 (bits h.aux.toNat 23 0)
  if (match tallyAt s h.till.toNat with
    | some v => tallyOpenNow s v && h.job.toNat == yJob v.words && h.cls.toNat == yClass v.words && yCounter v.words && (addCount v.count add).2
    | none => false) then
    postEvent s srcTally 0x03 h.job.toNat h.till.toNat (ofInt 32 (addCount (((tallyAt s h.till.toNat).map (·.count)).getD 0) add).1) 0
  else s

theorem exec_tallyAdd (hop : tallyOpOf (headerOf f.hdr) = 1) : exec (.tallyAdd f) s =
    .next (tallyInput (saturationNoted s f) f fun v _ => if yCounter v.words then
      some { v with count := (addCount v.count (toInt 24 (bits (headerOf f.hdr).aux.toNat 23 0))).1 } else none) := by
  refine congrArg Host.Outcome.next ((if_neg ?_).trans rfl)
  rw [show goodFrame f 4 = true from goodFrame_of hgood htype, hop]
  decide

omit hgood htype in
theorem saturationNoted_eventStep (s : State) (f : Frame) : EventStep s (saturationNoted s f) := by
  unfold saturationNoted
  dsimp only
  generalize (match tallyAt s (headerOf f.hdr).till.toNat with | some v => _ | none => false) = sat
  cases sat
  · exact .refl s
  · exact postEvent_eventStep ..

end Op

/-! ### What the commands lead to -/

section Leads

variable {s : State} {f : Frame} {i : Intake} {v : Tally} {c : Instr}

theorem takenIn_sendStep (s : State) (i : Intake) : SendStep s (takenIn s i) := .of_moves (upd_intake (.refl _ s) rfl)

theorem leads_discards {take : Tally → Header → Option Tally} (hexec : exec c s = .next (tallyInput s f take))
    (hfind : s.intake.find? (fun i => decide (i.frame = f)) = some i) (hv : tallyAt s (headerOf f.hdr).till.toNat = some v)
    (hjob : (headerOf f.hdr).job.toNat ≠ yJob v.words) : leads c s fun t => onlyChanges [.intake, .tallies] s t ∧
      t.intake = s.intake.erase i ∧
      tallyAt t (headerOf f.hdr).till.toNat = some { v with discard := satAdd 0xFFFF v.discard 1 } := by
  refine ⟨_, hexec, ?_⟩
  rw [tallyInput_discards hfind hv hjob]
  exact ⟨(setTally_moves (upd_intake (.refl _ s) rfl) rfl).only, rfl, tallyAt_setTally_same ..⟩

/-- A slot marked for the first time in the generation. -/
theorem markSlot_marks {h : Header} {carry : Bool} {all yes k : Nat} (hslot : tallySlot v h carry = some k) (hbarrier : yCounter v.words = false)
    (hgen : h.epoch = v.gen) (hnew : k ∉ v.arrived) (hin : k ∉ v.excised) (hopen : v.carried = false) : markSlot v h carry all yes =
      some { v with arrived := v.arrived ++ [k], all := satAdd Config.sat32 v.all all, yes := satAdd Config.sat32 v.yes yes } := by
  simp [markSlot, hslot, hbarrier, hgen, hnew, hin, hopen]

/-- What a barrier's input leads to, y being the tally with its input noted. -/
theorem leads_marks {take : Tally → Header → Option Tally} {w : Tally} (hexec : exec c s = .next (tallyInput s f take))
    (hfind : s.intake.find? (fun i => decide (i.frame = f)) = some i) (hv : tallyAt s (headerOf f.hdr).till.toNat = some v)
    (hopen : tallyOpenNow s v = true) (hjob : (headerOf f.hdr).job.toNat = yJob v.words)
    (hcls : (headerOf f.hdr).cls.toNat = yClass v.words) (htake : take v (headerOf f.hdr) = some w)
    (hbarrier : yCounter w.words = false) (hearly : tallyLate s (noteInput s w i.arrival) = false) (hcarried : w.carried = false)
    (y : Tally) (hy : noteInput s w i.arrival = y) :
    (allArrived y = false → leads c s fun t => onlyChanges [.intake, .tallies] s t ∧ t.intake = s.intake.erase i ∧
      tallyAt t (headerOf f.hdr).till.toNat = some y) ∧
    (allArrived y = true → yInner w.words = false → yAlign w.words = false → leads c s fun t =>
      onlyChanges (sendAreas s ++ [.host, .tallies, .jobFree]) s t ∧
      (yNotify w.words = true ∨ w.excisedMark = true → tallyPosted t (headerOf f.hdr).till.toNat y (genStatus y) (toldNow s y 0)) ∧
      ∃ z, tallyAt t (headerOf f.hdr).till.toNat = some z ∧ z.gen = w.gen + 1 ∧ z.arrived = [] ∧ z.all = 0 ∧ z.yes = 0 ∧ z.first = none ∧
        z.releasedAt = some s.now) ∧
    (allArrived y = true → yInner w.words = true → leads c s fun t =>
      onlyChanges (sendAreas s ++ [.host, .tallies, .jobFree]) s t ∧
      (reaches s (BitVec.ofNat 20 (yParent w.words)) → sent t 4 (BitVec.ofNat 20 (yParent w.words)) 0x20000000
        (padTo 32 (leBytes 4 y.all ++ leBytes 4 y.yes))) ∧
      ∃ z, tallyAt t (headerOf f.hdr).till.toNat = some z ∧ z.gen = w.gen ∧ z.arrived = y.arrived ∧ z.carried = true ∧ z.timerAt = none) := by
  have htaken := hexec.trans (congrArg Host.Outcome.next (tallyInput_takes hfind hv hopen hjob hcls htake))
  subst hy
  refine ⟨fun hwaits => ⟨_, htaken, ?_⟩, fun hall hroot halign => ⟨_, htaken, ?_⟩, fun hall hinner => ⟨_, htaken, ?_⟩⟩
  · rw [settleTally_waits (s := takenIn s i) (v := noteInput s w i.arrival) hbarrier hearly hwaits]
    exact ⟨(setTally_moves (upd_intake (.refl _ s) rfl) rfl).only, rfl, tallyAt_setTally_same ..⟩
  · rw [settleTally_releases (s := takenIn s i) (v := noteInput s w i.arrival) hbarrier hearly hall hcarried hroot]
    obtain ⟨hmoves, late, discard, hat⟩ := releaseTally_next (n := (headerOf f.hdr).till.toNat) (v := noteInput s w i.arrival)
      (a := i.arrival) (p := i.port) (takenIn_sendStep s i)
    obtain ⟨hgen, harrived, hzero, hno, hfirst, -⟩ := clearGen_clear (noteInput s w i.arrival)
    exact ⟨hmoves.only, fun hposts => releaseTally_posts halign hbarrier hposts, _, hat, hgen, harrived, hzero, hno, hfirst, rfl⟩
  · rw [settleTally_carries (s := takenIn s i) (v := noteInput s w i.arrival) hbarrier hearly hall hcarried hinner]
    obtain ⟨hmoves, hsent, late, discard, mark, hat⟩ := carryTally_carries (n := (headerOf f.hdr).till.toNat)
      (v := noteInput s w i.arrival) (a := i.arrival) (p := i.port) (takenIn_sendStep s i)
    exact ⟨hmoves.only, hsent, _, hat, rfl, rfl, rfl, rfl⟩

/-! ### A counter (R171) -/

/-- The counter with an addition. -/
def counted (v : Tally) (f : Frame) : Tally :=
  { v with count := (addCount v.count (toInt 24 (bits (headerOf f.hdr).aux.toNat 23 0))).1 }

theorem saturationNoted_other (hv : tallyAt s (headerOf f.hdr).till.toNat = some v) (hjob : (headerOf f.hdr).job.toNat ≠ yJob v.words) :
    saturationNoted s f = s := by
  unfold saturationNoted
  dsimp only
  rw [hv]
  simp [hjob]

theorem noteInput_eventStep {u : State} (h : EventStep s u) (w : Tally) (a : Nat) : noteInput u w a = noteInput s w a := by
  obtain ⟨host, stats, fresh, rfl⟩ := h.eventsApart
  rfl

/-- An ADD at an open counter of its job settles the counter, whatever events a saturation posts. -/
theorem exec_tallyAdd_counts (hgood : frameGood f = true) (htype : (headerOf f.hdr).type = 4) (hop : tallyOpOf (headerOf f.hdr) = 1)
    (hfind : s.intake.find? (fun i => decide (i.frame = f)) = some i) (hv : tallyAt s (headerOf f.hdr).till.toNat = some v)
    (hopen : tallyOpenNow s v = true) (hjob : (headerOf f.hdr).job.toNat = yJob v.words)
    (hcls : (headerOf f.hdr).cls.toNat = yClass v.words) (hcounter : yCounter v.words = true) :
    ∃ u, EventStep s u ∧ exec (.tallyAdd f) s =
      .next (settleTally (takenIn u i) (headerOf f.hdr).till.toNat (noteInput s (counted v f) i.arrival) i.arrival i.port) := by
  have hu := saturationNoted_eventStep s f
  refine ⟨_, hu, (exec_tallyAdd hgood htype hop).trans (congrArg _ ?_)⟩
  rw [← noteInput_eventStep hu]
  refine tallyInput_takes ?_ ?_ ?_ hjob hcls (if_pos hcounter)
  · rw [hu.moves.only .intake (by decide), hfind]
  · rw [tallyAt_of_moves hu.moves (by decide), hv]
  · rw [tallyOpenNow_congr (hu.moves.only .now (by decide)), hopen]

theorem tallyLate_congr {u : State} (h : u.now = s.now) (y : Tally) : tallyLate u y = tallyLate s y := by
  rw [tallyLate, h, tallyLate]

/-- What an ADD leads to, y being the counter with the addition noted. -/
theorem leads_counts (hgood : frameGood f = true) (htype : (headerOf f.hdr).type = 4) (hop : tallyOpOf (headerOf f.hdr) = 1)
    (hfind : s.intake.find? (fun i => decide (i.frame = f)) = some i) (hv : tallyAt s (headerOf f.hdr).till.toNat = some v)
    (hopen : tallyOpenNow s v = true) (hjob : (headerOf f.hdr).job.toNat = yJob v.words)
    (hcls : (headerOf f.hdr).cls.toNat = yClass v.words) (hcounter : yCounter v.words = true) (y : Tally)
    (hy : noteInput s (counted v f) i.arrival = y) (hearly : tallyLate s y = false) :
    (y.count < (yThreshold v.words : Int) → leads (.tallyAdd f) s fun t =>
      onlyChanges [.host, .stats, .intake, .tallies, .fresh] s t ∧ tallyAt t (headerOf f.hdr).till.toNat = some y) ∧
    ((yThreshold v.words : Int) ≤ y.count → v.releasedAt ≠ some s.now → leads (.tallyAdd f) s fun t =>
      onlyChanges (sendAreas s ++ [.host, .stats, .tallies, .jobFree]) s t ∧
      ∃ z, tallyAt t (headerOf f.hdr).till.toNat = some z ∧ z.gen = v.gen + 1 ∧
        z.count = max minCount (y.count - (yThreshold v.words : Int)) ∧ z.releasedAt = some s.now) := by
  obtain ⟨u, hu, hexec⟩ := exec_tallyAdd_counts hgood htype hop hfind hv hopen hjob hcls hcounter
  have hnow : (takenIn u i).now = s.now := hu.moves.only .now (by decide)
  have hlate : tallyLate (takenIn u i) y = false := (tallyLate_congr hnow y).trans hearly
  rw [hy] at hexec
  have hwords : y.words = v.words := by rw [← hy]; rfl
  refine ⟨fun hlow => ⟨_, hexec, ?_⟩, fun hfull honce => ⟨_, hexec, ?_⟩⟩
  · rw [settleTally_counts (hwords ▸ hcounter) hlate (hwords ▸ hlow)]
    exact ⟨(setTally_moves (upd_intake (Proofs.widen hu.moves rfl) rfl) rfl).only, tallyAt_setTally_same ..⟩
  · have hreleased : y.releasedAt = v.releasedAt := by rw [← hy]; rfl
    have hgen : y.gen = v.gen := by rw [← hy]; rfl
    rw [settleTally_counted (hwords ▸ hcounter) hlate (hwords ▸ hfull) (by rw [hreleased, hnow]; exact honce)]
    obtain ⟨hmoves, late, discard, hat⟩ := releaseTally_next (n := (headerOf f.hdr).till.toNat) (v := y) (a := i.arrival) (p := i.port)
      (takenIn_sendStep u i)
    obtain ⟨hnext, -, -, -, -, hcount⟩ := clearGen_clear y
    have hareas : sendAreas u = sendAreas s := by
      obtain ⟨host, stats, fresh, rfl⟩ := hu.eventsApart
      rfl
    rw [hareas] at hmoves
    refine ⟨Moves.only ((Proofs.widen hu.moves (sub_sendAreas s rfl)).trans hmoves (sub_append_self _ rfl)), _, hat, ?_, ?_, ?_⟩
    · exact hnext.trans (by rw [hgen])
    · exact (hcount (hwords ▸ hcounter)).trans (by rw [hwords])
    · exact congrArg some hnow

end Leads

/-- Settles O48: an input not taken only counts as discarded, one taken marks or counts, and the last of a generation releases or carries. -/
theorem tallyInputsAreCounted : Obligations.TallyInputsAreCounted := by
  unfold Obligations.TallyInputsAreCounted
  intro s f i v hgood htype hfind hv
  refine ⟨?_, fun hopen hjob hcls hearly => ⟨?_, ?_⟩⟩
  · intro c op hc hop hjob
    simp only [List.mem_cons, Prod.mk.injEq, List.not_mem_nil, or_false] at hc
    obtain ⟨rfl, rfl⟩ | ⟨rfl, rfl⟩ | ⟨rfl, rfl⟩ := hc
    · exact leads_discards (exec_tallyArrive hgood htype hop) hfind hv hjob
    · have hadd := exec_tallyAdd (s := s) hgood htype hop
      rw [saturationNoted_other hv hjob] at hadd
      exact leads_discards hadd hfind hv hjob
    · exact leads_discards (exec_tallyCarry hgood htype hop) hfind hv hjob
  · intro c op carry k all yes hc hop hslot hbarrier hgen hnew hin hcarried
    simp only [List.mem_cons, Prod.mk.injEq, List.not_mem_nil, or_false] at hc
    obtain ⟨rfl, rfl, rfl, rfl, rfl⟩ | ⟨rfl, rfl, rfl, rfl, rfl⟩ := hc
    · exact leads_marks (exec_tallyArrive hgood htype hop) hfind hv hopen hjob hcls (markSlot_marks hslot hbarrier hgen hnew hin hcarried)
        hbarrier hearly hcarried _ rfl
    · exact leads_marks (exec_tallyCarry hgood htype hop) hfind hv hopen hjob hcls (markSlot_marks hslot hbarrier hgen hnew hin hcarried)
        hbarrier hearly hcarried _ rfl
  · intro hop hcounter
    exact leads_counts hgood htype hop hfind hv hopen hjob hcls hcounter _ rfl hearly

end Sys2Proof.Proofs

/-! PROOFS. SUMMARY frames, generation notices and the timers of a till (03 R78-R81, R97-R99). -/

namespace Sys2Proof.Proofs

open Sys2Proof.Machine Sys2Proof.Safety Sys2Proof.Laws

/-! ### Frames taken in, whether they wait or not -/

theorem takeIntake_moves_in (s : State) (f : Frame) : Moves [.intake] s (takeIntake s f).1 := by
  unfold takeIntake
  split
  · exact upd_intake (.refl _ s) rfl
  · exact .refl _ s

theorem takeIntake_eq (s : State) (f : Frame) : (takeIntake s f).1 = { s with intake := (takeIntake s f).1.intake } := by
  unfold takeIntake
  split <;> rfl

/-! ### SUMMARY (R78, R79) -/

section Summary

variable {s : State} {f : Frame} {x : Till} {i : Nat}

theorem chunkActive_words {y : Till} (hwords : y.words = x.words) (hshard : y.shard = x.shard) (k : Nat) :
    chunkActive y.words y.shard k = chunkActive x.words x.shard k := by rw [hwords, hshard]

/-- Chunks whose sums and waiting elements alone change are finished as before. -/
theorem allDone_map (g : Chunk → Chunk) (hst : ∀ c, (g c).st = c.st) (hepoch : ∀ c, (g c).epoch = c.epoch) {y : Till} (hwords : y.words = x.words)
    (hshard : y.shard = x.shard) (he : y.epoch = x.epoch) (hchunks : y.chunks = x.chunks.map g) : allDone y = allDone x := by
  have hlen : y.chunks.length = x.chunks.length := by rw [hchunks, List.length_map]
  have hat (k : Nat) : (chunkOf y k).st = (chunkOf x k).st ∧ (chunkOf y k).epoch = (chunkOf x k).epoch := by
    rw [chunkOf, hchunks, he, chunkOf, List.getD_eq_getElem?_getD, List.getD_eq_getElem?_getD, List.getElem?_map]
    cases x.chunks[k]? with
    | none => exact ⟨rfl, rfl⟩
    | some c => exact ⟨hst c, hepoch c⟩
  have hfinished : chunkFinished y = chunkFinished x := by
    funext k
    obtain ⟨h1, h2⟩ := hat k
    rw [chunkFinished, chunkFinished]
    rw [h1, h2, hwords, hshard, he, epochsAhead, epochsAhead, he]
  rw [allDone, allDone, hfinished, hlen, hwords, hshard]

theorem allDone_summaryTill (im : List Byte) (p : List Byte) : allDone (summaryTill im x i p) = allDone x := by
  refine allDone_map (fun c => if c.epoch = x.epoch then fixRanks c i (((summaryPart p).exc.map (·.rank)).getD 0) else c) ?_ ?_ rfl rfl rfl rfl
  · intro c; split <;> rfl
  · intro c; split <;> rfl

/-- The waits of the resends a SUMMARY answers are told. -/
def summaryWaited (s : State) (f : Frame) (x : Till) (i : Nat) : State :=
  (x.sumAsked.filter fun q => q.1 == i).foldl (fun t q => jobWait t (tJob x.words) 4 ((takeIntake s f).2.2 - q.2)) (takeIntake s f).1

theorem summaryWaited_moves (s : State) (f : Frame) (x : Till) (i : Nat) : Moves [.intake, .jobFree] s (summaryWaited s f x i) :=
  foldl_moves (Proofs.widen (takeIntake_moves_in s f) rfl) fun _ _ h => jobWait_moves h rfl

theorem exec_summaryReceive (hgood : frameGood f = true) (hx : tillAt s (headerOf f.hdr).till.toNat = some x)
    (htype : (headerOf f.hdr).type = 3) (hsum : isSummary f = true) (hslot : inputSlot x (headerOf f.hdr) true = some i)
    (hopen : isOpenTill x = true) (hok : summaryOk x (headerOf f.hdr) i = true) (hwaits : ∀ c ∈ x.chunks, c.waitSum = []) :
    exec (.summaryReceive f) s = .next (settleTill (setTill (summaryWaited s f x i) (headerOf f.hdr).till.toNat
      (summaryTill (tillImage s x.words) x i f.payload)) (headerOf f.hdr).till.toNat) := by
  have hgf : goodFrame f 3 = true := goodFrame_of hgood htype
  have hat : tillAt (takeIntake s f).1 (headerOf f.hdr).till.toNat = some x := by
    rw [tillAt_of_moves (takeIntake_moves_in s f) (by decide), hx]
  have himage : tillImage (summaryWaited s f x i) x.words = tillImage s x.words := by
    rw [tillImage, progAt, (summaryWaited_moves s f x i).only .progs (by decide), tillImage, progAt]
  change Host.Outcome.next (if !goodFrame f 3 || !isSummary f then s else _) = _
  rw [if_neg (by simp [hgf, hsum])]
  dsimp only
  rw [hat]
  dsimp only
  rw [hslot]
  dsimp only
  rw [if_neg (by simp [hopen, hok])]
  change Host.Outcome.next (settleTill ((List.range x.chunks.length).foldl _ (setTill (summaryWaited s f x i) _
    (summaryTill (tillImage (summaryWaited s f x i) x.words) x i f.payload))) _) = _
  rw [himage]
  refine congrArg (fun t => Host.Outcome.next (settleTill t _)) (foldl_unchanged fun k hk => if_neg fun h => h.2 ?_)
  have hk' := List.mem_range.1 hk
  rw [chunkOf, List.getD_eq_getElem _ _ hk']
  exact hwaits _ (List.getElem_mem hk')

theorem summaryReceive_adds (hgood : frameGood f = true) (hx : tillAt s (headerOf f.hdr).till.toNat = some x)
    (htype : (headerOf f.hdr).type = 3) (hsum : isSummary f = true) (hslot : inputSlot x (headerOf f.hdr) true = some i)
    (hopen : isOpenTill x = true) (hok : summaryOk x (headerOf f.hdr) i = true) (hmore : allDone x = false)
    (hwaits : ∀ c ∈ x.chunks, c.waitSum = []) : leads (.summaryReceive f) s fun t =>
      onlyChanges [.intake, .tills, .jobFree] s t ∧
      ∃ y, tillAt t (headerOf f.hdr).till.toNat = some y ∧ sget 0 y.sums i = ((summaryPart f.payload).exc.map (·.rank)).getD 0 + 1 ∧
        y.cnt.discard = satAdd Config.sat32 x.cnt.discard (leAt f.payload 14 4) ∧
        y.cnt.resend = satAdd Config.sat32 x.cnt.resend (leAt f.payload 18 4) ∧
        y.cnt.part = joinPart (tillImage s x.words) x.cnt.part (summaryPart f.payload) := by
  obtain ⟨l, hl⟩ := settleTill_waits (tillAt_setTill_same (summaryWaited s f x i) (headerOf f.hdr).till.toNat
    (summaryTill (tillImage s x.words) x i f.payload)) ((allDone_summaryTill _ _).trans hmore)
  refine ⟨_, exec_summaryReceive hgood hx htype hsum hslot hopen hok hwaits, ?_⟩
  rw [hl]
  refine ⟨(setTill_moves (setTill_moves (Proofs.widen (summaryWaited_moves s f x i) rfl) rfl) rfl).only, _, tillAt_setTill_same .., ?_,
    rfl, rfl, rfl⟩
  exact sget_sput_ne (Nat.succ_ne_zero _)

/-- A generation notice from the parent of an INNER till. -/
theorem resendReqReceive_notice (hgood : frameGood f = true) (hx : tillAt s (headerOf f.hdr).till.toNat = some x)
    (htype : (headerOf f.hdr).type = 9) (hinner : tInner x.words = true) (hjob : (headerOf f.hdr).job.toNat = tJob x.words)
    (hsrc : (headerOf f.hdr).src.toNat = tParent x.words) (hblocks : auxNblk (headerOf f.hdr) = 0)
    (hbit : bit (headerOf f.hdr).aux.toNat 31 = false) : leads (.resendReqReceive f) s fun t => onlyChanges [.intake, .tills] s t ∧
      tillAt t (headerOf f.hdr).till.toNat = some { x with gen := auxGen (headerOf f.hdr) } := by
  have hexec : exec (.resendReqReceive f) s =
      .next (setTill (takeIntake s f).1 (headerOf f.hdr).till.toNat { x with gen := auxGen (headerOf f.hdr) }) := by
    change Host.Outcome.next (if !goodFrame f 9 then s else _) = _
    rw [if_neg (by rw [show goodFrame f 9 = true from goodFrame_of hgood htype]; decide)]
    dsimp only
    rw [show tillAt (takeIntake s f).1 (headerOf f.hdr).till.toNat = some x by
      rw [tillAt_of_moves (takeIntake_moves_in s f) (by decide), hx]]
    dsimp only
    rw [if_neg (by simp [hinner, hjob, hsrc]), hblocks, hbit]
    simp only [gt_iff_lt, lt_irrefl, if_false, Bool.false_eq_true, ite_self]
  exact ⟨_, hexec, (setTill_moves (Proofs.widen (takeIntake_moves_in s f) rfl) rfl).only, tillAt_setTill_same ..⟩

end Summary

/-! ### The end of an epoch whose peer is lost (R97) -/

section Timers

variable {s : State} {n : Nat} {till : BitVec 12} {x : Till} {k : Nat}

/-- The till whose epoch ends PEER_LOST. -/
def peerLost (s : State) (x : Till) : Till :=
  { x with cnt := { x.cnt with seen := addSeen x.cnt.seen stPeerLost },
           drains := x.drains ++ [{ c := s.now, kind := .ending stPeerLost x.epoch, by_ := none }] }

theorem open_of_isOpenTill (h : isOpenTill x = true) : x.st = .open := by
  simp only [isOpenTill, Bool.and_eq_true, beq_iff_eq] at h
  exact h.1.1

theorem modCounts_now (f : Counts → Counts) : modCounts x x.epoch f = { x with cnt := f x.cnt } := by
  have hahead : epochsAhead x x.epoch = 0 := by rw [epochsAhead, sub_self]; rfl
  rw [modCounts, hahead]
  exact if_pos rfl

/-- An ending begins in an open till with none under way. -/
theorem endTill_begins (hx : tillAt s n = some x) (hopen : isOpenTill x = true) (hends : isEnding x = false) :
    endTill s n stPeerLost x.epoch = setTill s n (peerLost s x) := by
  rw [endTill, modTill_found hx]
  dsimp only
  rw [modCounts_now]
  dsimp only
  exact congrArg (setTill s n) ((if_neg fun h => Bool.noConfusion (hends.symm.trans h)).trans (if_neg (by simp [open_of_isOpenTill hopen])))

theorem endTill_lost (hx : tillAt s till.toNat = some x) (hopen : isOpenTill x = true) (hends : isEnding x = false) {c : Instr}
    (hexec : exec c s = .next (endTill s till.toNat stPeerLost x.epoch)) :
    leads c s fun t => onlyChanges [.tills] s t ∧ tillAt t till.toNat = some (peerLost s x) := by
  refine ⟨_, hexec, ?_⟩
  rw [endTill_begins hx hopen hends]
  exact ⟨(setTill_moves (.refl _ s) rfl).only, tillAt_setTill_same ..⟩

/-! ### A chunk's timer (R97) -/

/-- Sends move none of these areas. -/
theorem not_mem_sendAreas (s : State) {p : Area}
    (hp : p ∉ [.host, .stats, .ports, .frames, .stalled, .blockCounts, .pools, .intake, .faults, .fresh]) : p ∉ sendAreas s := by
  intro hmem
  refine hp ?_
  simp only [sendAreas, List.mem_append] at hmem
  rcases hmem with (hmem | hmem) | hmem
  · unfold poolAreas at hmem
    split at hmem
    · exact nomatch hmem
    · exact (by decide : ([.host, .stats, .faults, .fresh] : List Area) ⊆ _) hmem
  · unfold cellAreas at hmem
    split at hmem
    · exact nomatch hmem
    · exact (by decide : ([.host, .stats, .blockCounts, .pools, .faults, .fresh] : List Area) ⊆ _) hmem
  · exact (by decide : ([.ports, .frames, .stalled, .pools, .intake, .fresh] : List Area) ⊆ _) hmem

theorem SendStep.now {t : State} (h : SendStep s t) : t.now = s.now := h.moves.only .now (not_mem_sendAreas s (by decide))

theorem SendStep.tillAt {t : State} (h : SendStep s t) (n : Nat) : Machine.tillAt t n = Machine.tillAt s n :=
  tillAt_of_moves h.moves (not_mem_sendAreas s (by decide)) n

theorem sendResend_sendStep (s : State) (n : Nat) (t : Till) (i : Nat) (e : W16) (offset nblk : Nat) (summary : Bool) :
    SendStep s (sendResend s n t i e offset nblk summary) := sendOwn_sendStep ..

/-- RESEND_REQs to the inputs of a chunk are sent. -/
def resendsSent (s : State) (n : Nat) (x : Till) (k : Nat) (slots : List Nat) : State :=
  slots.foldl (fun s i => sendResend s n x i (chunkOf x k).epoch (delivery x.words x.shard i k).1 (delivery x.words x.shard i k).2 false) s

theorem resendsSent_sendStep (s : State) (n : Nat) (x : Till) (k : Nat) (slots : List Nat) : SendStep s (resendsSent s n x k slots) :=
  .foldl (fun s i => sendResend_sendStep s n x i (chunkOf x k).epoch _ _ false) slots s

/-- Requests for a chunk are counted on its till. -/
def resendAsked (s : State) (x : Till) (k : Nat) (slots : List Nat) : Till :=
  modCounts (putChunk x k { chunkOf x k with resendAt := (chunkOf x k).resendAt ++ slots.map fun i => (i, s.now) }) (chunkOf x k).epoch fun c =>
    { c with resend := satAdd Config.sat32 c.resend slots.length }

theorem askResend_found (hx : tillAt s n = some x) (slots : List Nat) :
    askResend s n k slots = setTill (resendsSent s n x k slots) n (resendAsked s x k slots) := by
  have hsent := resendsSent_sendStep s n x k slots
  have hnow : (resendsSent s n x k slots).now = s.now := hsent.now
  rw [askResend, hx]
  change modTill (resendsSent s n x k slots) n _ = _
  rw [modTill_found ((hsent.tillAt n).trans hx), resendAsked, ← hnow]
  exact rfl

theorem modCounts_chunks (y : Till) (e : W16) (f : Counts → Counts) : (modCounts y e f).chunks = y.chunks ∧ (modCounts y e f).epoch = y.epoch := by
  unfold modCounts
  dsimp only
  split
  · exact ⟨rfl, rfl⟩
  · split <;> exact ⟨rfl, rfl⟩

theorem chunkOf_putChunk (hk : k < x.chunks.length) (c : Chunk) : chunkOf (putChunk x k c) k = c := by
  rw [chunkOf, putChunk, List.getD_eq_getElem _ _ (by rwa [List.length_set]), List.getElem_set_self]

theorem chunkOf_putChunk_other {j : Nat} (hj : j ≠ k) (c : Chunk) : chunkOf (putChunk x k c) j = chunkOf x j := by
  rw [chunkOf, putChunk, chunkOf, List.getD_eq_getElem?_getD, List.getD_eq_getElem?_getD, List.getElem?_set_ne (Ne.symm hj)]

theorem chunkOf_resendAsked (hk : k < x.chunks.length) (slots : List Nat) : (resendAsked s x k slots).chunks.length = x.chunks.length ∧
    chunkOf (resendAsked s x k slots) k =
      { chunkOf x k with resendAt := (chunkOf x k).resendAt ++ slots.map fun i => (i, s.now) } := by
  obtain ⟨hchunks, hepoch⟩ := modCounts_chunks (putChunk x k { chunkOf x k with resendAt := (chunkOf x k).resendAt ++ slots.map fun i => (i, s.now) })
    (chunkOf x k).epoch fun c => { c with resend := satAdd Config.sat32 c.resend slots.length }
  refine ⟨by rw [resendAsked, hchunks, putChunk, List.length_set], ?_⟩
  rw [resendAsked, chunkOf_congr hchunks hepoch]
  exact chunkOf_putChunk hk _

/-- The inputs of a chunk that have not delivered. -/
def stillOut (x : Till) (k : Nat) : List Nat := (requiredOf x k).filter fun i => !hasB (chunkOf x k) i

theorem chunkTimerExpiry_asks (hx : tillAt s till.toNat = some x) (hopen : isOpenTill x = true) (hruns : timersStopped s x = false)
    (hk : k < x.chunks.length) (hst : (chunkOf x k).st = .filling) (hdue : dueNow s (chunkOf x k).timerAt = true)
    (hrounds : (chunkOf x k).rounds < tLimit x.words) : leads (.chunkTimerExpiry till k) s fun t =>
        onlyChanges (sendAreas s ++ [.tills]) s t ∧
        ∃ y, tillAt t till.toNat = some y ∧ (chunkOf y k).rounds = (chunkOf x k).rounds + 1 ∧
          (chunkOf y k).timerAt = some (s.now + tTimeout x.words) ∧
          ∀ i ∈ requiredOf x k, hasB (chunkOf x k) i = false → (i, s.now) ∈ (chunkOf y k).resendAt := by
  have hsent := resendsSent_sendStep s till.toNat x k (stillOut x k)
  obtain ⟨hlen, hchunk⟩ := chunkOf_resendAsked (s := s) hk (stillOut x k)
  have hexec : exec (.chunkTimerExpiry till k) s = .next (setTill (setTill (resendsSent s till.toNat x k (stillOut x k)) till.toNat
      (resendAsked s x k (stillOut x k))) till.toNat (putChunk (resendAsked s x k (stillOut x k)) k
        (nextRound (setTill (resendsSent s till.toNat x k (stillOut x k)) till.toNat (resendAsked s x k (stillOut x k))) x.words
          (chunkOf (resendAsked s x k (stillOut x k)) k)))) := by
    change Host.Outcome.next (match tillAt s till.toNat with | none => s | some t => _) = _
    rw [hx]
    dsimp only
    rw [if_neg (by simp [hopen, hruns, hk, hst, hdue]), if_neg (Nat.not_le.2 hrounds)]
    change Host.Outcome.next (modChunk (askResend s till.toNat k (stillOut x k)) till.toNat k (nextRound (askResend s till.toNat k (stillOut x k)) x.words)) = _
    rw [askResend_found hx, modChunk, modTill_found (tillAt_setTill_same ..)]
  refine ⟨_, hexec, (setTill_moves (setTill_moves (Proofs.widen hsent.moves (sub_append_left _ _)) (sub_append_right _ rfl))
    (sub_append_right _ rfl)).only, _, tillAt_setTill_same .., ?_⟩
  rw [chunkOf_putChunk (by rwa [hlen]), hchunk]
  refine ⟨rfl, congrArg (fun a => some (a + tTimeout x.words)) hsent.now, fun i hi hout => ?_⟩
  exact List.mem_append_right _ (List.mem_map.2 ⟨i, List.mem_filter.2 ⟨hi, by simpa using hout⟩, rfl⟩)

theorem chunkTimerExpiry_ends (hx : tillAt s till.toNat = some x) (hopen : isOpenTill x = true) (hruns : timersStopped s x = false)
    (hk : k < x.chunks.length) (hst : (chunkOf x k).st = .filling) (hdue : dueNow s (chunkOf x k).timerAt = true)
    (hrounds : tLimit x.words ≤ (chunkOf x k).rounds) (hends : isEnding x = false) (hepoch : (chunkOf x k).epoch = x.epoch) :
    leads (.chunkTimerExpiry till k) s fun t => onlyChanges [.tills] s t ∧ tillAt t till.toNat = some (peerLost s x) := by
  refine endTill_lost hx hopen hends ?_
  change Host.Outcome.next (match tillAt s till.toNat with | none => s | some t => _) = _
  rw [hx]
  dsimp only
  rw [if_neg (by simp [hopen, hruns, hk, hst, hdue]), if_pos hrounds, hepoch]

/-! ### A summary timer (R79) -/

/-- The request for a SUMMARY. -/
def summaryRequest (s : State) (n : Nat) (x : Till) (k : Nat) : State := sendResend s n x k x.epoch 0 0 true

/-- The till that has asked for a SUMMARY again. -/
def summaryAsked (s : State) (x : Till) (k rounds : Nat) : Till :=
  { x with cnt := { x.cnt with resend := satAdd Config.sat32 x.cnt.resend 1 }, sumAsked := x.sumAsked ++ [(k, s.now)],
           sumTimers := x.sumTimers.map fun y => if y.1 = k then (k, s.now + tTimeout x.words, rounds + 1) else y }

theorem sent_setTill {type : BitVec 4} {dest : BitVec 20} {aux : BitVec 32} {payload : List Byte} (y : Till)
    (h : sent s type dest aux payload) : sent (setTill s n y) type dest aux payload :=
  sent_of_moves (setTill_moves (.refl [.tills] s) rfl) (by decide) (by decide) (by decide) h

theorem summaryRequest_sent (hreach : reaches s (BitVec.ofNat 20 (shEndpoint x.shard k))) :
    sent (summaryRequest s n x k) 9 (BitVec.ofNat 20 (shEndpoint x.shard k))
      (BitVec.ofNat 32 (2 ^ 31 + if shKind x.shard k = 1 then genOf x k * 2 ^ 26 else 0)) [] := by
  have haux : BitVec.ofNat 32 (b2n true * 2 ^ 31 + (if shKind x.shard k == 1 then genOf x k * 2 ^ 26 else 0) + 0) =
      BitVec.ofNat 32 (2 ^ 31 + if shKind x.shard k = 1 then genOf x k * 2 ^ 26 else 0) := by
    by_cases h : shKind x.shard k = 1 <;> simp [h, b2n]
  rw [← haux]
  exact sendOwn_sent (h := ownFrame s 9 (clsResend x.words) (shEndpoint x.shard k) (tJob x.words)
    (if shKind x.shard k == 1 then shChildTill x.shard k else n) x.epoch 0
    (b2n true * 2 ^ 31 + (if shKind x.shard k == 1 then genOf x k * 2 ^ 26 else 0) + 0)) [] _ hreach (ownFrame_mc ..)
    (by decide : (9 : BitVec 4).toNat ∉ [0, 2, 5, 0xA, 0xC])

/-- The entry of a slot among entries of which its own are all replaced. -/
theorem find_replaced (l : List (Nat × Nat × Nat)) (e : Nat × Nat) (h : (l.find? fun y => y.1 == k).isSome = true) :
    ((l.map fun y => if y.1 = k then (k, e) else y).find? fun y => y.1 == k) = some (k, e) := by
  induction l with
  | nil => exact Bool.noConfusion h
  | cons y l ih =>
    by_cases hy : y.1 = k
    · simp [hy]
    · simp only [List.find?_cons, beq_eq_false_iff_ne.2 hy] at h
      simp only [List.map_cons, if_neg hy, List.find?_cons, beq_eq_false_iff_ne.2 hy]
      exact ih h

theorem exec_summaryTimerExpiry {at_ rounds : Nat} (hx : tillAt s till.toNat = some x) (hopen : isOpenTill x = true)
    (hruns : timersStopped s x = false) (hfind : x.sumTimers.find? (fun y => y.1 == k) = some (k, at_, rounds)) (hdue : at_ ≤ s.now) :
    exec (.summaryTimerExpiry till k) s = .next (if rounds ≥ tLimit x.words then endTill s till.toNat stPeerLost x.epoch
      else setTill (summaryRequest s till.toNat x k) till.toNat (summaryAsked s x k rounds)) := by
  have hsend : SendStep s (summaryRequest s till.toNat x k) := sendResend_sendStep ..
  change Host.Outcome.next (match tillAt s till.toNat with | none => s | some t => _) = _
  rw [hx]
  dsimp only
  rw [hfind]
  dsimp only
  rw [if_neg (by simp [hopen, hruns, Nat.not_lt.2 hdue])]
  split
  · rfl
  · change Host.Outcome.next (modTill (summaryRequest s till.toNat x k) till.toNat _) = _
    rw [modTill_found ((hsend.tillAt till.toNat).trans hx), summaryAsked, ← hsend.now]
    exact rfl

theorem summaryTimerExpiry_asks {at_ rounds : Nat} (hx : tillAt s till.toNat = some x) (hopen : isOpenTill x = true)
    (hruns : timersStopped s x = false) (hfind : x.sumTimers.find? (fun y => y.1 == k) = some (k, at_, rounds)) (hdue : at_ ≤ s.now)
    (hrounds : rounds < tLimit x.words) : leads (.summaryTimerExpiry till k) s fun t =>
        onlyChanges (sendAreas s ++ [.tills]) s t ∧
        (reaches s (BitVec.ofNat 20 (shEndpoint x.shard k)) → sent t 9 (BitVec.ofNat 20 (shEndpoint x.shard k))
          (BitVec.ofNat 32 (2 ^ 31 + if shKind x.shard k = 1 then genOf x k * 2 ^ 26 else 0)) []) ∧
        ∃ y, tillAt t till.toNat = some y ∧ y.cnt.resend = satAdd Config.sat32 x.cnt.resend 1 ∧
          y.sumTimers.find? (fun y => y.1 == k) = some (k, s.now + tTimeout x.words, rounds + 1) := by
  have hsend : SendStep s (summaryRequest s till.toNat x k) := sendResend_sendStep ..
  refine ⟨_, exec_summaryTimerExpiry hx hopen hruns hfind hdue, ?_⟩
  rw [if_neg (Nat.not_le.2 hrounds)]
  exact ⟨(setTill_moves (Proofs.widen hsend.moves (sub_append_left _ _)) (sub_append_right _ rfl)).only,
    fun hreach => sent_setTill _ (summaryRequest_sent hreach), _, tillAt_setTill_same .., rfl,
    find_replaced x.sumTimers (s.now + tTimeout x.words, rounds + 1) (by rw [hfind]; rfl)⟩

theorem summaryTimerExpiry_ends {at_ rounds : Nat} (hx : tillAt s till.toNat = some x) (hopen : isOpenTill x = true)
    (hruns : timersStopped s x = false) (hfind : x.sumTimers.find? (fun y => y.1 == k) = some (k, at_, rounds)) (hdue : at_ ≤ s.now)
    (hrounds : tLimit x.words ≤ rounds) (hends : isEnding x = false) : leads (.summaryTimerExpiry till k) s fun t =>
        onlyChanges [.tills] s t ∧ tillAt t till.toNat = some (peerLost s x) :=
  endTill_lost hx hopen hends ((exec_summaryTimerExpiry hx hopen hruns hfind hdue).trans (congrArg _ (if_pos hrounds)))

/-! ### The early-forward timer (R80, R81) -/

/-- The accumulands of the early part of a chunk. -/
def earlyPart (n : Nat) (x : Till) (k : Nat) : List Acc :=
  partAccs x k (earlyAccs n k (chunkOf x k).epoch (chunkAccs x.words k (chunkOf x k).acc))

/-- The header of the early part. -/
def earlyHeader (s : State) (x : Till) (k : Nat) : Header :=
  partialHeader s x (chunkOf x k).epoch (ownDelivery x.words x.shard k).1 (ownDelivery x.words x.shard k).2 false true false

/-- What leaves a chunk early. -/
def earlyOut (n : Nat) (x : Till) (k : Nat) : OutChunk :=
  partialOut x.words x.scales (ownDelivery x.words x.shard k).1 (ownDelivery x.words x.shard k).2 (spanAccs x k (earlyPart n x k))

/-- The early part is sent. -/
def earlySentTo (s : State) (n : Nat) (x : Till) (k : Nat) : State :=
  sendOwn s (earlyHeader s x k) (partialBody x.words (earlyOut n x k)) fun _ => freeDelay s

/-- The chunk once its early part has left. -/
def afterEarly (s : State) (n : Nat) (x : Till) (k : Nat) : Chunk :=
  { chunkOf x k with
    early := earlyPart n x k, earlySent := true, earlyOnce := true, acc := [], efAt := none, waitSum := [],
    sentEarly := headerBits (earlyHeader s x k), receipt := receipt (chunkOf x k).receipt (earlyOut n x k).syms,
    part := joinPart [] (chunkOf x k).part (earlyOut n x k).part }

theorem earlyHeader_mc (s : State) (x : Till) (k : Nat) : (earlyHeader s x k).mc = 0 := by
  show blankHeader.mc = 0
  decide

theorem earlyHeader_aux (s : State) (x : Till) (k : Nat) :
    (earlyHeader s x k).aux = BitVec.ofNat 32 (2 ^ 30 + x.gen % 16 * 2 ^ 26 + (ownDelivery x.words x.shard k).2) := by
  unfold earlyHeader partialHeader ownFrame
  simp [b2n]

theorem earlySentTo_sent (hreach : reaches s (BitVec.ofNat 20 (tParent x.words))) :
    sent (earlySentTo s n x k) 3 (BitVec.ofNat 20 (tParent x.words))
      (BitVec.ofNat 32 (2 ^ 30 + x.gen % 16 * 2 ^ 26 + (ownDelivery x.words x.shard k).2)) (partialBody x.words (earlyOut n x k)) := by
  rw [← earlyHeader_aux s]
  exact sendOwn_sent (h := earlyHeader s x k) _ _ hreach (earlyHeader_mc s x k) (by decide : (3 : BitVec 4).toNat ∉ [0, 2, 5, 0xA, 0xC])

theorem exec_earlyForwardExpiry (hx : tillAt s till.toNat = some x) (hopen : isOpenTill x = true) (hruns : timersStopped s x = false)
    (hk : k < x.chunks.length) (hst : (chunkOf x k).st = .filling) (honce : (chunkOf x k).earlyOnce = false)
    (hreset : (chunkOf x k).resetAt = none) (hdue : dueNow s (chunkOf x k).efAt = true)
    (htile : haltedTile s (tileOf s till.toNat x.words k) = false) : exec (.earlyForwardExpiry till k) s =
      .next (setTill (toss (earlySentTo s till.toNat x k) (tJob x.words) 0) till.toNat (putChunk x k (afterEarly s till.toNat x k))) := by
  have hsend : SendStep s (earlySentTo s till.toNat x k) := sendOwn_sendStep ..
  change Host.Outcome.next (match tillAt s till.toNat with | none => s | some t => _) = _
  rw [hx]
  dsimp only
  rw [if_neg (by simp [hopen, hruns, hk, hst, honce, hreset, hdue, htile])]
  change Host.Outcome.next (modTill (toss (earlySentTo s till.toNat x k) (tJob x.words) 0) till.toNat _) = _
  rw [modTill_found (show tillAt (toss (earlySentTo s till.toNat x k) (tJob x.words) 0) till.toNat = some x from
    (hsend.tillAt till.toNat).trans hx)]
  rfl

theorem sget_sbump {limit : Nat} (hlimit : 0 < limit) (m : Sparse Nat) (k : Nat) :
    sget 0 (sbump limit m k 1) k = satAdd limit (sget 0 m k) 1 := by
  refine sget_sput_ne ?_
  unfold satAdd
  omega

theorem earlyForwardExpiry_sends (hx : tillAt s till.toNat = some x) (hopen : isOpenTill x = true) (hruns : timersStopped s x = false)
    (hk : k < x.chunks.length) (hst : (chunkOf x k).st = .filling) (honce : (chunkOf x k).earlyOnce = false)
    (hreset : (chunkOf x k).resetAt = none) (hdue : dueNow s (chunkOf x k).efAt = true)
    (htile : haltedTile s (tileOf s till.toNat x.words k) = false) : leads (.earlyForwardExpiry till k) s fun t =>
        onlyChanges (sendAreas s ++ [.tills, .toss]) s t ∧
        sget 0 t.toss (tJob x.words * 4) = satAdd Config.sat48 (sget 0 s.toss (tJob x.words * 4)) 1 ∧
        (reaches s (BitVec.ofNat 20 (tParent x.words)) → sent t 3 (BitVec.ofNat 20 (tParent x.words))
          (BitVec.ofNat 32 (2 ^ 30 + x.gen % 16 * 2 ^ 26 + (ownDelivery x.words x.shard k).2))
          (partialBody x.words (earlyOut till.toNat x k))) ∧
        ∃ y, tillAt t till.toNat = some y ∧ (chunkOf y k).earlySent = true ∧ (chunkOf y k).acc = [] ∧ (chunkOf y k).efAt = none ∧
          (chunkOf y k).early = earlyPart till.toNat x k := by
  have hsend : SendStep s (earlySentTo s till.toNat x k) := sendOwn_sendStep ..
  have htoss : (earlySentTo s till.toNat x k).toss = s.toss := hsend.moves.only .toss (not_mem_sendAreas s (by decide))
  refine ⟨_, exec_earlyForwardExpiry hx hopen hruns hk hst honce hreset hdue htile, ?_, ?_, fun hreach => ?_, _, tillAt_setTill_same .., ?_⟩
  · exact (setTill_moves (toss_moves (Proofs.widen hsend.moves (sub_append_left _ _)) (sub_append_right _ rfl)) (sub_append_right _ rfl)).only
  · rw [← htoss]
    exact sget_sbump (by decide) _ _
  · refine sent_setTill _ (sent_of_moves (toss_moves (.refl [.toss] _) rfl) (by decide) (by decide) (by decide) (earlySentTo_sent hreach))
  · rw [chunkOf_putChunk hk]
    exact ⟨rfl, rfl, rfl, rfl⟩

end Timers

/-- Settles O43: a SUMMARY and a notice only set the till, and its timers send what they ask for, or end the epoch. -/
theorem tillFramesAndTimersAct : Obligations.TillFramesAndTimersAct := by
  unfold Obligations.TillFramesAndTimersAct
  refine ⟨fun s f x hgood hx => ⟨fun i htype hsum hslot hopen hok hmore hwaits =>
      summaryReceive_adds hgood hx htype hsum hslot hopen hok hmore hwaits,
    fun htype hinner hjob hsrc hblocks hbit => resendReqReceive_notice hgood hx htype hinner hjob hsrc hblocks hbit⟩,
    fun s till x k hx hopen hruns => ⟨fun hk hst hdue => ⟨fun hrounds => ?_, fun hrounds hends hepoch => ?_⟩,
      fun at_ rounds hfind hdue => ⟨fun hrounds => ?_, fun hrounds hends => ?_⟩, fun hk hst honce hreset hdue htile => ?_⟩⟩
  · exact chunkTimerExpiry_asks hx hopen hruns hk hst hdue hrounds
  · exact chunkTimerExpiry_ends hx hopen hruns hk hst hdue hrounds hends hepoch
  · exact summaryTimerExpiry_asks hx hopen hruns hfind hdue hrounds
  · exact summaryTimerExpiry_ends hx hopen hruns hfind hdue hrounds hends
  · exact earlyForwardExpiry_sends hx hopen hruns hk hst honce hreset hdue htile

end Sys2Proof.Proofs

/-! PROOFS. Inputs of a chunk are added, and a complete chunk is minted (03 R72, R74). -/

namespace Sys2Proof.Proofs

open Sys2Proof.Machine Sys2Proof.Safety Sys2Proof.Laws

/-! ### CONTRIB and PARTIAL (R72) -/

section Frames

variable {s : State} {f : Frame} {child : Bool} {x : Till} {i : Nat}

/-- The command that receives an input of a chunk. -/
def receive (f : Frame) (child : Bool) : Instr := if child then .partialReceive f false else .contribReceive f false

theorem exec_receive (htype : (headerOf f.hdr).type = (if child then 3 else 1)) (hgood : frameGood f = true)
    (hsum : child = true → isSummary f = false) : exec (receive f child) s = .next (inputFrame s f child false) := by
  cases child
  · exact congrArg Host.Outcome.next (if_pos (show goodFrame f 1 = true from goodFrame_of hgood htype))
  · refine congrArg Host.Outcome.next (if_pos ?_)
    rw [show goodFrame f 3 = true from goodFrame_of hgood htype, hsum rfl]
    rfl

/-- A frame for chunk k of a till, that neither waits nor crosses, is taken. -/
theorem inputFrame_taken (hx : tillAt s (headerOf f.hdr).till.toNat = some x)
    (hwaits : inputWaits s (headerOf f.hdr).till.toNat x ((headerOf f.hdr).offset.toNat / max 1 (tChunkBlocks x.words)) = false)
    (hcrosses : stillCrosses s f = false) : inputFrame s f child false = match inputSlot x (headerOf f.hdr) child with
      | none => countDiscard (takeIntake s f).1 (headerOf f.hdr).till.toNat
      | some i =>
        if !isOpenTill x || !inputOk x (headerOf f.hdr) i child f.payload.length then countDiscard (takeIntake s f).1 (headerOf f.hdr).till.toNat
        else match inputAccs x (headerOf f.hdr) i child f.payload with
          | .ends st => endTill (takeIntake s f).1 (headerOf f.hdr).till.toNat st (headerOf f.hdr).epoch
          | .ok accs trunc =>
            applyInput (takeIntake s f).1 (headerOf f.hdr).till.toNat ((headerOf f.hdr).offset.toNat / max 1 (tChunkBlocks x.words))
              { slot := i, epoch := (headerOf f.hdr).epoch, first := (headerOf f.hdr).offset.toNat, accs := accs, trunc := trunc,
                waits := waitingElems x (headerOf f.hdr) i child accs, more := child && auxMore (headerOf f.hdr) }
              (takeIntake s f).2.2 false := by
  unfold inputFrame
  dsimp only
  rw [hx]
  dsimp only
  rw [if_neg (by simp [hwaits, hcrosses])] <;> rfl

theorem receive_discards (htype : (headerOf f.hdr).type = (if child then 3 else 1)) (hgood : frameGood f = true)
    (hsum : child = true → isSummary f = false) (hx : tillAt s (headerOf f.hdr).till.toNat = some x)
    (hwaits : inputWaits s (headerOf f.hdr).till.toNat x ((headerOf f.hdr).offset.toNat / max 1 (tChunkBlocks x.words)) = false)
    (hcrosses : stillCrosses s f = false)
    (hbad : ∀ i, inputSlot x (headerOf f.hdr) child = some i →
      isOpenTill x = false ∨ inputOk x (headerOf f.hdr) i child f.payload.length = false) :
    leads (receive f child) s fun t => onlyChanges [.intake, .tills] s t ∧ tillAt t (headerOf f.hdr).till.toNat =
      some { x with cnt := { x.cnt with discard := satAdd Config.sat32 x.cnt.discard 1 } } := by
  have htaken := takeIntake_moves_in s f
  have hdiscard : inputFrame s f child false = countDiscard (takeIntake s f).1 (headerOf f.hdr).till.toNat := by
    rw [inputFrame_taken hx hwaits hcrosses]
    split
    · rfl
    next i hi => exact if_pos (by rcases hbad i hi with h | h <;> simp [h])
  refine ⟨_, (exec_receive htype hgood hsum).trans (congrArg _ hdiscard), ?_⟩
  rw [countDiscard, modTill_found ((tillAt_of_moves htaken (by decide) _).trans hx)]
  exact ⟨(setTill_moves (Proofs.widen htaken rfl) rfl).only, tillAt_setTill_same ..⟩

/-! ### An accepted input (R36, R72, R97) -/

/-- The till after an input of the epoch its chunk is in. -/
def inputTill (s : State) (x : Till) (k : Nat) (input : Input) (arrival : Nat) : Till :=
  let y := putChunk x k (inputChunk s x k (chunkOf x k) input arrival)
  { y with zeroAt := y.zeroAt.filter (fun z => z.1 != input.epoch) ++ [(input.epoch, s.now + 1, arrival)] }

theorem inputChunk_now {s t : State} (h : t.now = s.now) (x : Till) (k : Nat) (c : Chunk) (input : Input) (arrival : Nat) :
    inputChunk t x k c input arrival = inputChunk s x k c input arrival := by
  rw [inputChunk, h, inputChunk]

theorem applyInput_bulk {s : State} {n k : Nat} {input : Input} {arrival : Nat} (hx : tillAt s n = some x)
    (hepoch : (chunkOf x k).epoch = input.epoch) (hbulk : tTick x.words = false) : ∃ u l, Moves [.jobFree] s u ∧
      applyInput s n k input arrival false = setTill (setTill u n (inputTill s x k input arrival)) n
        { inputTill s x k input arrival with sumTimers := l } := by
  unfold applyInput
  rw [hx]
  dsimp only
  rw [if_pos hepoch]
  generalize hu : List.foldl _ s _ = u
  have hmoves : Moves [.jobFree] s u := hu ▸ foldl_moves (.refl _ s) fun _ _ h => jobWait_moves h rfl
  have hnow : u.now = s.now := hmoves.only .now (by decide)
  have hlate : (tTick (putChunk x k (inputChunk u x k (chunkOf x k) input arrival)).words) = false := hbulk
  simp only [hlate, Bool.false_and, Bool.false_eq_true, if_false]
  rw [inputChunk_now hnow, hnow]
  obtain ⟨l, hl⟩ := sumTimer_found (tillAt_setTill_same u n (inputTill s x k input arrival))
  exact ⟨u, l, hmoves, hl⟩

theorem receive_adds {accs : List Acc} {trunc : Nat} (htype : (headerOf f.hdr).type = (if child then 3 else 1)) (hgood : frameGood f = true)
    (hsum : child = true → isSummary f = false) (hx : tillAt s (headerOf f.hdr).till.toNat = some x) (k : Nat)
    (hat : (headerOf f.hdr).offset.toNat / max 1 (tChunkBlocks x.words) = k)
    (hwaits : inputWaits s (headerOf f.hdr).till.toNat x k = false) (hcrosses : stillCrosses s f = false)
    (hslot : inputSlot x (headerOf f.hdr) child = some i) (hopen : isOpenTill x = true)
    (hok : inputOk x (headerOf f.hdr) i child f.payload.length = true)
    (haccs : inputAccs x (headerOf f.hdr) i child f.payload = .ok accs trunc) (hepoch : (chunkOf x k).epoch = (headerOf f.hdr).epoch)
    (hbulk : tTick x.words = false) (hk : k < x.chunks.length) (input : Input)
    (hinput : input =
      { slot := i, epoch := (headerOf f.hdr).epoch, first := (headerOf f.hdr).offset.toNat, accs := accs, trunc := trunc,
        waits := waitingElems x (headerOf f.hdr) i child accs, more := child && auxMore (headerOf f.hdr) }) :
    leads (receive f child) s fun t => onlyChanges [.intake, .tills, .jobFree] s t ∧ ∃ y, tillAt t (headerOf f.hdr).till.toNat = some y ∧
      (∀ j, j ≠ k → chunkOf y j = chunkOf x j) ∧ chunkOf y k = inputChunk s x k (chunkOf x k) input (takeIntake s f).2.2 := by
  have htaken := takeIntake_moves_in s f
  have hstill : tillAt (takeIntake s f).1 (headerOf f.hdr).till.toNat = some x := (tillAt_of_moves htaken (by decide) _).trans hx
  subst hat
  have hadds : inputFrame s f child false = applyInput (takeIntake s f).1 (headerOf f.hdr).till.toNat
      ((headerOf f.hdr).offset.toNat / max 1 (tChunkBlocks x.words)) input (takeIntake s f).2.2 false := by
    rw [inputFrame_taken hx hwaits hcrosses, hslot]
    dsimp only
    rw [if_neg (by simp [hopen, hok]), haccs, hinput]
  obtain ⟨u, l, hu, happly⟩ := applyInput_bulk (input := input) (arrival := (takeIntake s f).2.2) hstill (by rw [hinput]; exact hepoch) hbulk
  refine ⟨_, (exec_receive htype hgood hsum).trans (congrArg _ (hadds.trans happly)), ?_, _, tillAt_setTill_same .., fun j hj => ?_, ?_⟩
  · exact (setTill_moves (setTill_moves ((Proofs.widen htaken rfl).trans hu rfl) rfl) rfl).only
  · exact chunkOf_putChunk_other hj _
  · refine (chunkOf_putChunk hk _).trans (inputChunk_now (htaken.only .now (by decide)) ..)

end Frames

/-! ### A complete chunk is minted (R74) -/

section Mint

variable {s : State} {n k : Nat} {x : Till}

theorem sendResults_sendStep (s : State) (n : Nat) (t : Till) (k : Nat) (e : W16) (f group : Nat) (ranks scatter : Bool)
    (blocks : List (Blk × List Nat)) (ready : Nat → Nat) : SendStep s (sendResults s n t k e f group ranks scatter blocks ready) := by
  unfold sendResults
  dsimp only
  split
  · exact .foldl (fun s i => .foldl (fun s fr => sendOwn_sendStep ..) _ s) _ s
  · exact .foldl (fun s fr => sendGroup_sendStep ..) _ s

/-- What a chunk of a ROOT till mints. -/
def minted (x : Till) (k : Nat) : OutChunk := mintRoot x.words x.scales (fuseSlice x k) k (chunkAccs x.words k (chunkOf x k).acc)

/-- The chunk once it is minted. -/
def mintedChunk (x : Till) (k : Nat) : Chunk :=
  { chunkOf x k with st := .minting, toMint := false, part := joinPart [] (chunkOf x k).part (minted x k).part,
                     receipt := receipt (chunkOf x k).receipt (minted x k).syms }

/-- A plain chunk of a ROOT till on a running tile is minted and sent. -/
theorem finishChunk_mints (hx : tillAt s n = some x) (htile : haltedTile s (tileOf s n x.words k) = false) (hroot : tInner x.words = false)
    (hplain : tVault x.words = false) : SendStep (setTill s n (putChunk x k (mintedChunk x k))) (finishChunk s n k) := by
  have heq : ∃ e f group ranks scatter blocks ready, finishChunk s n k =
      sendResults (setTill s n (putChunk x k (mintedChunk x k))) n x k e f group ranks scatter blocks ready := by
    unfold finishChunk
    rw [hx]
    dsimp only
    rw [if_neg (by simp [htile]), if_neg (by simp [hroot]), if_neg (by simp [hplain])]
    exact ⟨_, _, _, _, _, _, _, rfl⟩
  obtain ⟨e, f, group, ranks, scatter, blocks, ready, heq⟩ := heq
  rw [heq]
  exact sendResults_sendStep ..

/-- The till whose chunk k is complete, before it leaves. -/
def completeTill (x : Till) (k arrival : Nat) : Till :=
  putChunk x k { chunkOf x k with completeAt := arrival, timerAt := none, efAt := none }

/-- A chunk that may leave now: every required input has delivered, and its last addition has retired. -/
structure Complete (s : State) (n : Nat) (x : Till) (k : Nat) : Prop where
  filling : (chunkOf x k).st = .filling
  active : chunkActive x.words x.shard k = true
  opened : isOpenTill x = true
  inputs : (requiredOf x k).all (hasB (chunkOf x k)) = true
  sums : (chunkOf x k).waitSum = []
  retired : (chunkOf x k).retire ≤ s.now
  keeps : (chunkOf x k).resetAt = none
  runs : haltedTile s (tileOf s n x.words k) = false

/-- A complete chunk of a plain ROOT till leaves: its job's wait is told, and it is minted and sent. -/
theorem tryComplete_mints {arrival : Nat} (hx : tillAt s n = some x) (hk : k < x.chunks.length) (hc : Complete s n x k)
    (hmatch : (chunkOf x k).mismatch ≠ 1) (hroot : tInner x.words = false) (hplain : tVault x.words = false)
    (hunfused : tFused x.words = false) :
    ∃ u, Moves [.jobFree] s u ∧ SendStep (setTill (setTill u n (completeTill x k arrival)) n
      (putChunk (completeTill x k arrival) k (mintedChunk (completeTill x k arrival) k))) (tryComplete s n k arrival) := by
  obtain ⟨hst, hactive, hopen, hinputs, hsums, hretire, hreset, hruns⟩ := hc
  generalize hu : jobWait s (tJob x.words) 1 ((chunkOf x k).lastAt - (chunkOf x k).firstAt) = u
  have hmoves : Moves [.jobFree] s u := hu ▸ jobWait_moves (.refl _ s) rfl
  have hat := tillAt_setTill_same u n (completeTill x k arrival)
  have hover : mismatchOver (setTill u n (completeTill x k arrival)) n k = setTill u n (completeTill x k arrival) := by
    rw [mismatchOver, hat]
    exact if_neg (by rw [completeTill, chunkOf_putChunk hk]; exact hmatch)
  have heq : tryComplete s n k arrival = finishChunk (setTill u n (completeTill x k arrival)) n k := by
    unfold tryComplete
    rw [hx]
    dsimp only
    rw [if_pos ⟨hst, hactive, hopen, hinputs, hsums, hretire, hreset, hruns⟩, hu]
    change (if !tFused x.words then finishChunk (mismatchOver (setTill u n (completeTill x k arrival)) n k) n k else _) = _
    rw [hover, hunfused]
    rfl
  refine ⟨u, hmoves, ?_⟩
  rw [heq]
  refine finishChunk_mints hat ?_ hroot hplain
  rw [← hu]
  exact hruns

/-- A chunk with an input to come, or an addition that has not retired, stays. -/
theorem tryComplete_stays {arrival : Nat} (hx : tillAt s n = some x)
    (hwaits : (requiredOf x k).all (hasB (chunkOf x k)) = false ∨ s.now < (chunkOf x k).retire) : tryComplete s n k arrival = s := by
  unfold tryComplete
  rw [hx]
  refine if_neg fun h => ?_
  obtain ⟨-, -, -, hall, -, hretire, -, -⟩ := h
  rcases hwaits with h | h
  · rw [hall] at h
    exact Bool.noConfusion h
  · exact absurd hretire (Nat.not_le.2 h)

/-- The till once its chunk k has been minted. -/
def mintedTill (x : Till) (k arrival : Nat) : Till :=
  putChunk (completeTill x k arrival) k (mintedChunk (completeTill x k arrival) k)

theorem minted_completeTill (hk : k < x.chunks.length) (arrival : Nat) : minted (completeTill x k arrival) k = minted x k := by
  have hchunk : chunkOf (completeTill x k arrival) k = { chunkOf x k with completeAt := arrival, timerAt := none, efAt := none } :=
    chunkOf_putChunk hk _
  have hslice : fuseSlice (completeTill x k arrival) k = fuseSlice x k := by
    unfold fuseSlice
    rw [hchunk]
    rfl
  rw [minted, hslice, hchunk]
  rfl

theorem chunkOf_mintedTill (hk : k < x.chunks.length) (arrival : Nat) : (chunkOf (mintedTill x k arrival) k).st = .minting ∧
    (chunkOf (mintedTill x k arrival) k).acc = (chunkOf x k).acc ∧
    (chunkOf (mintedTill x k arrival) k).receipt = receipt (chunkOf x k).receipt (minted x k).syms := by
  have hlen : k < (completeTill x k arrival).chunks.length := by rw [completeTill, putChunk, List.length_set]; exact hk
  have hchunk : chunkOf (completeTill x k arrival) k = { chunkOf x k with completeAt := arrival, timerAt := none, efAt := none } :=
    chunkOf_putChunk hk _
  rw [mintedTill, chunkOf_putChunk hlen, mintedChunk, minted_completeTill hk, hchunk]
  exact ⟨rfl, rfl, rfl⟩

theorem chunkOf_mintedTill_other {j : Nat} (hj : j ≠ k) (arrival : Nat) : chunkOf (mintedTill x k arrival) j = chunkOf x j :=
  (chunkOf_putChunk_other hj _).trans (chunkOf_putChunk_other hj _)

/-- Chunk k is reset in this cycle. -/
def resetDue (s : State) (x : Till) (k : Nat) : Bool := match (chunkOf x k).resetAt with
  | some c => decide (c ≤ s.now) && (x.st == .open || x.st == .draining)
  | none => false

/-- The chunks of x that fill and are not reset in this cycle. -/
def fillingChunks (s : State) (x : Till) : List Nat :=
  (List.range x.chunks.length).filter fun k => (chunkOf x k).st == .filling && !resetDue s x k

/-- The chunks of x that a halted tile held back. -/
def heldMints (x : Till) : List Nat :=
  (List.range x.chunks.length).filter fun k => (chunkOf x k).toMint && (chunkOf x k).st == .minting && isOpenTill x

/-- The chunks of x have retired. -/
def chunksRetired (s : State) (n : Nat) (x : Till) : State :=
  (heldMints x).foldl (fun s k => finishChunk s n k)
    ((fillingChunks s x).foldl (fun s k => tryComplete s n k (chunkOf x k).completeAt)
      (((List.range x.chunks.length).filter (resetDue s x)).foldl (fun s k => recompute s n k) s))

theorem retireTill_eq (hx : tillAt s n = some x) : ∃ rest, retireTill s n =
    if (x.zeroAt.filter fun z => decide (z.2.1 ≤ (chunksRetired s n x).now)).isEmpty then chunksRetired s n x else rest := by
  unfold retireTill
  rw [hx]
  exact ⟨_, rfl⟩

/-- Where nothing is reset, held back or begun, only the chunks that fill may retire. -/
theorem chunksRetired_fills (hreset : ∀ j < x.chunks.length, (chunkOf x j).resetAt = none)
    (hheld : ∀ j < x.chunks.length, (chunkOf x j).toMint = false) :
    chunksRetired s n x = (fillingChunks s x).foldl (fun s j => tryComplete s n j (chunkOf x j).completeAt) s := by
  have hdue : (List.range x.chunks.length).filter (resetDue s x) = [] := by
    refine List.filter_eq_nil_iff.2 fun j hj => ?_
    rw [resetDue, hreset j (List.mem_range.1 hj)]
    exact Bool.false_ne_true
  have hmint : heldMints x = [] := by
    refine List.filter_eq_nil_iff.2 fun j hj => ?_
    rw [hheld j (List.mem_range.1 hj)]
    exact Bool.false_ne_true
  rw [chunksRetired, hdue, hmint, List.foldl_nil, List.foldl_nil]

/-- A fold in which one element alone does something does that. -/
theorem foldl_only {α : Type} {g : State → α → State} {l : List α} {a : α} {t : State} (hmem : a ∈ l) (hnodup : l.Nodup)
    (hbefore : ∀ b ∈ l, b ≠ a → g s b = s) (hone : g s a = t) (hafter : ∀ b ∈ l, b ≠ a → g t b = t) : l.foldl g s = t := by
  obtain ⟨l₁, l₂, rfl⟩ := List.append_of_mem hmem
  obtain ⟨-, htail, hdisjoint⟩ := List.nodup_append.1 hnodup
  have hfirst : l₁.foldl g s = s := foldl_unchanged fun b hb =>
    hbefore b (List.mem_append_left _ hb) fun h => hdisjoint b hb a (List.mem_cons_self ..) h
  have hlast : l₂.foldl g t = t := foldl_unchanged fun b hb =>
    hafter b (List.mem_append_right _ (List.mem_cons_of_mem _ hb)) fun h => (List.nodup_cons.1 htail).1 (h ▸ hb)
  rw [List.foldl_append, hfirst, List.foldl_cons, hone, hlast]

/-- The one complete chunk of a till is minted as its last addition retires. -/
theorem retireTill_mints (hx : tillAt s n = some x) (hk : k < x.chunks.length) (hc : Complete s n x k)
    (hothers : ∀ j < x.chunks.length, (chunkOf x j).toMint = false ∧ (j ≠ k → (chunkOf x j).resetAt = none ∧
      ((chunkOf x j).st = .filling → (requiredOf x j).all (hasB (chunkOf x j)) = false ∨ s.now < (chunkOf x j).retire)))
    (hzero : ∀ e ∈ x.zeroAt, s.now < e.2.1) (hmatch : (chunkOf x k).mismatch ≠ 1) (hroot : tInner x.words = false)
    (hplain : tVault x.words = false) (hunfused : tFused x.words = false) :
    ∃ u, Moves [.jobFree] s u ∧ SendStep (setTill (setTill u n (completeTill x k (chunkOf x k).completeAt)) n
      (mintedTill x k (chunkOf x k).completeAt)) (retireTill s n) := by
  obtain ⟨u, hu, hsend⟩ := tryComplete_mints (arrival := (chunkOf x k).completeAt) hx hk hc hmatch hroot hplain hunfused
  have hat : tillAt (tryComplete s n k (chunkOf x k).completeAt) n = some (mintedTill x k (chunkOf x k).completeAt) :=
    (hsend.tillAt n).trans (tillAt_setTill_same ..)
  have hnow : (tryComplete s n k (chunkOf x k).completeAt).now = s.now := hsend.now.trans (hu.only .now (by decide))
  have hreset : ∀ j < x.chunks.length, (chunkOf x j).resetAt = none := fun j hj => by
    by_cases hjk : j = k
    · exact hjk ▸ hc.keeps
    · exact ((hothers j hj).2 hjk).1
  have hwaits : ∀ j ∈ fillingChunks s x, j ≠ k →
      (requiredOf x j).all (hasB (chunkOf x j)) = false ∨ s.now < (chunkOf x j).retire := fun j hj hjk => by
    obtain ⟨hrange, hst⟩ := List.mem_filter.1 hj
    simp only [Bool.and_eq_true, beq_iff_eq] at hst
    exact ((hothers j (List.mem_range.1 hrange)).2 hjk).2 hst.1
  have hmem : k ∈ fillingChunks s x := List.mem_filter.2 ⟨List.mem_range.2 hk, by simp [hc.filling, resetDue, hc.keeps]⟩
  have hfold : chunksRetired s n x = tryComplete s n k (chunkOf x k).completeAt := by
    rw [chunksRetired_fills hreset fun j hj => (hothers j hj).1]
    refine foldl_only hmem (List.nodup_range.filter _) (fun j hj hjk => tryComplete_stays hx (hwaits j hj hjk)) rfl fun j hj hjk => ?_
    refine tryComplete_stays hat ?_
    rw [chunkOf_mintedTill_other hjk, hnow]
    exact hwaits j hj hjk
  obtain ⟨rest, heq⟩ := retireTill_eq hx
  refine ⟨u, hu, ?_⟩
  rw [heq, hfold, hnow, List.filter_eq_nil_iff.2 (by simpa using hzero), if_pos (show ([] : List (W16 × Nat × Nat)).isEmpty = true from rfl)]
  exact hsend

end Mint

/-- Settles O42: an input is discarded or added to its chunk alone, and the chunk that its last addition completes is minted and sent. -/
theorem inputsAreAdded : Obligations.InputsAreAdded := by
  unfold Obligations.InputsAreAdded
  refine ⟨fun s f child x htype hgood hsum hx => ?_, fun s n k x z hx hz hopen hk hst hretire hreset htile hothers hzero hactive hinputs hsums
    hmatch hroot hplain hunfused => ?_⟩
  · refine fun hwaits hcrosses => ⟨fun hbad => receive_discards htype hgood hsum hx hwaits hcrosses hbad,
      fun i accs trunc hslot hopen hok haccs hepoch hbulk hk => ?_⟩
    obtain ⟨t, hexec, honly, y, hy, hother, hchunk⟩ := receive_adds htype hgood hsum hx _ rfl hwaits hcrosses hslot hopen hok haccs hepoch hbulk hk
      _ rfl
    exact ⟨t, hexec, honly, y, hy, hother, hchunk, rfl, rfl, rfl, rfl⟩
  · subst hz
    obtain ⟨u, hu, hsend⟩ := retireTill_mints hx hk ⟨hst, hactive, hopen, hinputs, hsums, hretire, hreset, htile⟩ hothers hzero hmatch hroot
      hplain hunfused
    obtain ⟨hminting, hacc, hreceipt⟩ := chunkOf_mintedTill hk (chunkOf x k).completeAt
    refine ⟨?_, _, (hsend.tillAt n).trans (tillAt_setTill_same ..), fun j hj => chunkOf_mintedTill_other hj _, hminting, hacc, hreceipt⟩
    have hareas : sendAreas u = sendAreas s := by
      rw [sendAreas, poolAreas, cellAreas, hu.only .faults (by decide), sendAreas, poolAreas, cellAreas]
    have hset : Moves [.tills, .jobFree] s (setTill (setTill u n (completeTill x k (chunkOf x k).completeAt)) n
        (mintedTill x k (chunkOf x k).completeAt)) := setTill_moves (setTill_moves (Proofs.widen hu rfl) rfl) rfl
    have hsent := hsend.moves
    rw [show sendAreas (setTill (setTill u n (completeTill x k (chunkOf x k).completeAt)) n (mintedTill x k (chunkOf x k).completeAt)) =
      sendAreas s from hareas] at hsent
    exact ((Proofs.widen hset (sub_append_right _ rfl)).trans hsent (sub_append_left _ _)).only

end Sys2Proof.Proofs

/-! PROOFS. Programs: they are loaded, unloaded and run (04 R114, R115, R128, R129). -/

namespace Sys2Proof.Proofs

open Sys2Proof.Machine Sys2Proof.Safety Sys2Proof.Laws

/-! ### Loading and unloading (04 R115) -/

section Load

variable {s : State} {ring : BitVec 6} {d : Desc}

/-- The slot that a program command names. -/
def slotOf (d : Desc) : Nat := fld d.d1 7 0

/-- The image that PROG_LOAD was given. -/
def loadImage (image : List Byte) : List Byte := padTo (pgBytes image) image

/-- What PROG_LOAD refuses. -/
def loadRefused (s : State) (d : Desc) (image : List Byte) : Bool :=
  (ofind s.progs (slotOf d)).isSome || !imageOk s (loadImage image) ||
    decide (storeUsed s + pgLen (loadImage image) > Config.progInstrs)

/-- The program that a load brings. -/
def loadingProg (s : State) (a : Accept) (image : List Byte) : Prog where
  image := loadImage image
  digest := BitVec.ofNat 512 (beNat (sha512Bytes (loadImage image)))
  loading := some (s.now + 1 + Config.loadTime s.fresh, a)

/-- A load begins. -/
def loadBegun (s : State) (d : Desc) (a : Accept) (image : List Byte) : State :=
  { s with fresh := s.fresh + 1, progs := oins s.progs (slotOf d) (loadingProg s a image) }

theorem loadBegun_moves (s : State) (d : Desc) (a : Accept) (image : List Byte) :
    Moves [.host, .progs, .fresh] s (loadBegun s d a image) := by
  unfold loadBegun
  exact upd_progs (t := { s with fresh := s.fresh + 1 }) (upd_fresh (.refl _ s) rfl) rfl

theorem exec_progLoad (image : List Byte) : exec (.progLoad ring d image) s =
    .next (accept s ring d 0x20 none 0 (cringOf d.d0) fun a s =>
      if loadRefused s d image = true then complete s a stRefused else loadBegun s d a image) := rfl

theorem loadRefused_ringStep {u : State} (h : RingStep s u) (image : List Byte) : loadRefused u d image = loadRefused s d image := by
  obtain ⟨host, fresh, rfl⟩ := h.exists_eq
  rfl

theorem leads_progLoad_begins {image : List Byte} (hadm : admitted s ring d 0x20 (cringOf d.d0) none)
    (hfree : ofind s.progs (slotOf d) = none) (hok : imageOk s (loadImage image) = true)
    (hroom : storeUsed s + pgLen (loadImage image) ≤ Config.progInstrs) :
    leads (.progLoad ring d image) s fun t => onlyChanges [.host, .progs, .fresh] s t ∧ progAt t (slotOf d) = none ∧
      ∃ p at_, ofind t.progs (slotOf d) = some p ∧ p.image = loadImage image ∧
        p.digest = BitVec.ofNat 512 (beNat (sha512Bytes (loadImage image))) ∧
        p.loading = some (at_, acceptNow s ring.toNat d.d0 0) ∧ s.now < at_ := by
  refine leads_accepted hadm (exec_progLoad image) rfl rfl fun u t hu ht => ?_
  have hgood : loadRefused u d image = false := by
    rw [loadRefused_ringStep hu, loadRefused, hfree, hok]
    simpa using hroom
  rw [if_neg (by simp [hgood])] at ht
  have hat : ofind t.progs (slotOf d) = some (loadingProg u (acceptNow s ring.toNat d.d0 0) image) := by
    rw [ht.moves.only .progs (by decide)]
    exact ofind_oins_same ..
  refine ⟨onlyChanges_between hu ht (loadBegun_moves ..) rfl, ?_, _, _, hat, rfl, rfl, rfl, ?_⟩
  · rw [progAt, hat]
    rfl
  · rw [hu.now]
    omega

theorem leads_progLoad_refuses {image : List Byte} (hadm : admitted s ring d 0x20 (cringOf d.d0) none)
    (hbad : (ofind s.progs (slotOf d)).isSome = true ∨ imageOk s (loadImage image) = false ∨
      Config.progInstrs < storeUsed s + pgLen (loadImage image)) :
    leads (.progLoad ring d image) s fun t => onlyChanges [.host, .fresh] s t ∧
      answered s t ring d (cringOf d.d0) 0 stRefused 0 0 := by
  refine leads_accepted hadm (exec_progLoad image) rfl rfl fun u t hu ht => ?_
  have hrefused : loadRefused u d image = true := by
    rw [loadRefused_ringStep hu, loadRefused]
    simpa [or_assoc] using hbad
  rw [if_pos hrefused] at ht
  exact ⟨onlyChanges_between hu ht (complete_ringStep ..).moves rfl, ht.answered (answered_completeTo _ [] [])⟩

/-- A slot's image is usable: the load is recorded and completes. -/
def loadDone (s : State) (slot : Nat) (p : Prog) (a : Accept) : State :=
  complete { record s oHost a.ring 0x14 false slot [] (sha512Bytes p.image) with
    progs := oins s.progs slot { p with loading := none } } a stOk 0 (digestLow64 p.image).toNat

/-- One entry's part of the cycle. -/
def progStep (s : State) (e : Nat × Prog) : State :=
  match e.2.loading with
  | some (t, a) => if s.now < t then s else loadDone s e.1 e.2 a
  | none => s

theorem progCycle_eq (s : State) : progCycle s = s.progs.foldl progStep s := rfl

theorem loadDone_ringStep (s : State) (slot : Nat) (p : Prog) (a : Accept) :
    ∃ u, RingStep u (loadDone s slot p a) ∧ u.host = s.host ∧ u.now = s.now ∧ u.progs = oins s.progs slot { p with loading := none } ∧
      u.ledger = (record s oHost a.ring 0x14 false slot [] (sha512Bytes p.image)).ledger :=
  ⟨_, complete_ringStep .., rfl, rfl, rfl, rfl⟩

/-- What a slot's turn leaves of what stood before it. -/
structure SlotStep (s t : State) : Prop where
  now : t.now = s.now
  ready : s.host.ready ⊆ t.host.ready
  queue : entriesStay s t

theorem SlotStep.refl (s : State) : SlotStep s s := ⟨rfl, fun _ h => h, fun _ h => h⟩

theorem SlotStep.trans {s t u : State} (h : SlotStep s t) (g : SlotStep t u) : SlotStep s u :=
  ⟨g.now.trans h.now, fun _ hx => g.ready (h.ready hx), fun _ hx => g.queue _ (h.queue _ hx)⟩

theorem loadDone_slotStep (s : State) (slot : Nat) (p : Prog) (a : Accept) : SlotStep s (loadDone s slot p a) := by
  obtain ⟨u, hu, hhost, hnow, -, hledger⟩ := loadDone_ringStep s slot p a
  refine ⟨hu.now.trans hnow, fun x hx => hu.side.ready.subset (hhost ▸ hx), fun e he => ?_⟩
  rw [hu.ledger, hledger]
  exact entriesStay_record _ _ _ _ _ _ _ _ e he

theorem progStep_slotStep (s : State) (e : Nat × Prog) : SlotStep s (progStep s e) := by
  unfold progStep
  split
  · split
    · exact .refl s
    · exact loadDone_slotStep ..
  · exact .refl s

theorem foldl_slotStep (l : List (Nat × Prog)) (s : State) : SlotStep s (l.foldl progStep s) := by
  induction l generalizing s with
  | nil => exact .refl s
  | cons e l ih => exact (progStep_slotStep s e).trans (ih _)

theorem progStep_other {e : Nat × Prog} {slot : Nat} (h : e.1 ≠ slot) (s : State) :
    ofind (progStep s e).progs slot = ofind s.progs slot := by
  unfold progStep
  split
  · split
    · rfl
    · obtain ⟨u, hu, -, -, hprogs, -⟩ := loadDone_ringStep s e.1 e.2 ‹_›
      rw [hu.moves.only .progs (by decide), hprogs, ofind_oins_other _ _ (Ne.symm h)]
  · rfl

theorem foldl_progStep_other {slot : Nat} {l : List (Nat × Prog)} (h : ∀ e ∈ l, e.1 ≠ slot) (s : State) :
    ofind (l.foldl progStep s).progs slot = ofind s.progs slot := by
  induction l generalizing s with
  | nil => rfl
  | cons e l ih => exact (ih (fun x hx => h x (List.mem_cons_of_mem _ hx)) _).trans (progStep_other (h e (List.mem_cons_self ..)) s)

/-- In a rising map no entry after one has its key. -/
theorem key_ne_of_rising {α : Type} {l m : Sparse α} {e : Nat × α} (h : rising (l ++ e :: m) = true) : ∀ x ∈ m, x.1 ≠ e.1 := by
  induction l with
  | nil => exact fun x hx => Nat.ne_of_gt ((rising_cons.1 h).1 x hx)
  | cons a l ih => exact ih (rising_cons.1 h).2

theorem progCycle_loads {slot at_ : Nat} {p : Prog} {a : Accept} (hrising : rising s.progs = true) (hp : ofind s.progs slot = some p)
    (hload : p.loading = some (at_, a)) (hdue : at_ ≤ s.now) :
    progAt (progCycle s) slot = some { p with loading := none } ∧
      posted (progCycle s) a (cringOf a.d0) stOk 0 (digestLow64 p.image).toNat ∧
      ∃ e, e ∈ (progCycle s).ledger.queue ∧ e.kind = 0x14 ∧ e.target = BitVec.ofNat 64 slot ∧ e.new = padTo 16 (sha512Bytes p.image) := by
  obtain ⟨l, m, hlist⟩ := List.append_of_mem (mem_of_ofind hp)
  have hothers : ∀ x ∈ m, x.1 ≠ slot := key_ne_of_rising (hlist ▸ hrising)
  rw [progCycle_eq, hlist, List.foldl_append, List.foldl_cons]
  have hbefore : SlotStep s (l.foldl progStep s) := foldl_slotStep l s
  generalize l.foldl progStep s = u at hbefore ⊢
  have hstep : progStep u (slot, p) = loadDone u slot p a := by
    unfold progStep
    rw [hload]
    exact if_neg (by rw [hbefore.now]; omega)
  rw [hstep]
  have hafter : SlotStep (loadDone u slot p a) (m.foldl progStep (loadDone u slot p a)) := foldl_slotStep m _
  have hfind := foldl_progStep_other hothers (loadDone u slot p a)
  generalize m.foldl progStep (loadDone u slot p a) = t at hafter hfind ⊢
  obtain ⟨v, hv, -, -, hprogs, hledger⟩ := loadDone_ringStep u slot p a
  refine ⟨?_, posted_of_ready hafter.ready (posted_completeTo _ _ [] []), ?_⟩
  · rw [progAt, hfind, hv.moves.only .progs (by decide), hprogs, ofind_oins_same]
    rfl
  · obtain ⟨e, hq, hkind, -, -, htarget, -, hnew⟩ := record_enqueues u oHost a.ring 0x14 false slot [] (sha512Bytes p.image)
    refine ⟨e, hafter.queue e ?_, hkind, htarget, hnew⟩
    rw [hv.ledger, hledger, hq]
    exact mem_enqueueChange.2 (.inl rfl)

/-- An unused program leaves its slot. -/
def unloaded (s : State) (d : Desc) (p : Prog) (a : Accept) : State :=
  { record s oHost a.ring 0x14 false (slotOf d + 256) [] (digestBytes p.digest) with progs := odel s.progs (slotOf d) }

theorem unloaded_moves (s : State) (d : Desc) (p : Prog) (a : Accept) : Moves [.host, .progs, .ledger, .fresh] s (unloaded s d p a) := by
  unfold unloaded
  exact upd_progs (record_moves (.refl _ s) rfl) rfl

theorem leads_progUnload (hadm : admitted s ring d 0x21 (cringOf d.d0) none) (hp : (progAt s (slotOf d)).isSome = true)
    (hidle : slotBusy s (slotOf d) = false) :
    leads (.progUnload ring d) s fun t => onlyChanges [.host, .progs, .ledger, .fresh] s t ∧
      answered s t ring d (cringOf d.d0) 0 stOk 0 0 ∧ progAt t (slotOf d) = none ∧
      ∃ e, t.ledger.queue = enqueueChange s e ∧ e.kind = 0x14 ∧ e.target = BitVec.ofNat 64 (slotOf d + 256) := by
  obtain ⟨p, hp⟩ := Option.isSome_iff_exists.1 hp
  refine leads_accepted hadm (body := fun a s => match progAt s (slotOf d) with
    | none => complete s a stRefused
    | some p => if slotBusy s (slotOf d) then complete s a stRefused else complete (unloaded s d p a) a stOk) rfl rfl rfl
    fun u t hu ht => ?_
  have hpU : progAt u (slotOf d) = some p := (hu.progAt _).trans hp
  have hidleU : slotBusy u (slotOf d) = false := by
    obtain ⟨host, fresh, rfl⟩ := hu.exists_eq
    exact hidle
  simp only [hpU, hidleU, Bool.false_eq_true, if_false] at ht
  have hend : RingStep (unloaded u d p (acceptNow s ring.toNat d.d0 0)) t := (complete_ringStep ..).trans ht
  refine ⟨onlyChanges_between hu hend (unloaded_moves ..) rfl, ht.answered (answered_completeTo _ [] []), ?_, ?_⟩
  · rw [hend.progAt, progAt]
    change (ofind (odel u.progs (slotOf d)) (slotOf d)).filter _ = none
    rw [ofind_odel_same]
    rfl
  · obtain ⟨e, hq, hkind, -, -, htarget, -⟩ := record_enqueues u oHost (acceptNow s ring.toNat d.d0 0).ring 0x14 false (slotOf d + 256) []
      (digestBytes p.digest)
    refine ⟨e, ?_, hkind, htarget⟩
    rw [hend.ledger]
    refine hq.trans ?_
    rw [enqueueChange, recentOf, hu.ledger, hu.now, ← recentOf, ← enqueueChange]

end Load

/-! ### Runs (04 R128, R129) -/

section Run

variable {s : State}

theorem completeRun_ringStep (s : State) (a : Accept) (st inv index : Nat) (l : List W32) (w : List Nat) :
    RingStep s (completeRun s a st inv index l w) := by
  unfold completeRun
  dsimp only
  split
  · exact ⟨finished_moves (.refl _ _) rfl, finished_ringSide ..⟩
  · exact ready_ringStep ..

/-- The completion of a run. -/
def runCpl (a : Accept) (st inv index : Nat) (l : List W32) (w : List Nat) : Cpl where
  cring := cringOf a.d0
  entries := runEntries a st inv index l
  waits := w
  ring := some a.ring
  quiet := quietOf a.d0 && st == stOk

theorem postedRun_completeRun (s : State) (a : Accept) (st inv index : Nat) (l : List W32) :
    postedRun (completeRun s a st inv index l []) a st inv index l := by
  by_cases h : quietOf a.d0 = true ∧ st = stOk
  · exact .inl h
  · have hq : (quietOf a.d0 && st == stOk) = false := by simpa using h
    have heq : completeRun s a st inv index l [] = ready s (runCpl a st inv index l []) := by
      rw [completeRun, hq, if_neg (by simp), runCpl, hq]
    exact .inr ⟨runCpl a st inv index l [], heq ▸ mem_ready .., rfl, rfl, rfl⟩

theorem RingStep.postedRun {u t : State} (h : RingStep u t) {a : Accept} {st inv index : Nat} {l : List W32}
    (hu : postedRun u a st inv index l) : postedRun t a st inv index l :=
  hu.imp_right fun ⟨c, hc, hrest⟩ => ⟨c, h.side.ready.subset hc, hrest⟩

theorem ctxAt_setCtx_same {k : Nat} {c : Ctx} (hcanon : canon {} s.ctxs = true) : ctxAt (setCtx s k c) k = c := sget_sput_same hcanon

theorem ctxAt_of_moves {l : List Area} {s t : State} (h : Moves l s t) (hl : Area.ctxs ∉ l) (k : Nat) : ctxAt t k = ctxAt s k :=
  congrArg (sget ({} : Ctx) · k) (h.only .ctxs hl)

end Run

section RunCommand

variable {s : State} {ring : BitVec 6} {d : Desc}

/-- The run that PROG_RUN asks for. -/
def runAsked (s : State) (a : Accept) (d : Desc) (params data : List Byte) : RunReq where
  by_ := a
  slot := slotOf d
  count := fld d.d1 32 20
  idxBase := BitVec.ofNat 32 (fld d.d2 31 0)
  params := params
  data := padTo (fld d.d6 16 0) data
  outDst := bit d.d1.toNat 34
  outAddr := d.d5.toNat
  outLine := fld d.d1 45 35
  outBytes := fld d.d6 33 17
  job := fld d.d6 41 34
  window := 1024 * pgScr (((progAt s (slotOf d)).map (·.image)).getD [])
  src := if bit d.d1.toNat 33 && fld d.d6 16 0 != 0 then some d.d4.toNat else none

theorem exec_progRun (params data : List Byte) : exec (.progRun ring d params data) s =
    .next (accept s ring d 0x22 none (slotOf d) (cringOf d.d0) fun a s =>
      if (!runOk s d) = true then completeRun s a stRefused else pushRun s (fld d.d1 19 8) (runAsked s a d params data)) := rfl

theorem runOk_ringStep {u : State} (h : RingStep s u) : runOk u d = runOk s d := by
  obtain ⟨host, fresh, rfl⟩ := h.exists_eq
  rfl

theorem leads_progRun_refuses {params data : List Byte} (hadm : admitted s ring d 0x22 (cringOf d.d0) none) (hbad : runOk s d = false) :
    leads (.progRun ring d params data) s fun t => onlyChanges [.host, .fresh] s t ∧
      postedRun t (acceptNow s ring.toNat d.d0 (slotOf d)) stRefused 0 0 [] := by
  refine leads_accepted hadm (exec_progRun params data) rfl rfl fun u t hu ht => ?_
  rw [runOk_ringStep hu, hbad, if_pos (by rfl)] at ht
  exact ⟨onlyChanges_between hu ht (completeRun_ringStep ..).moves rfl, ht.postedRun (postedRun_completeRun ..)⟩

/-- A run waits behind the passes of its context. -/
def runWaits (s : State) (c : Ctx) (r : RunReq) : Ctx :=
  { c with ready := c.ready ++ [{ till := 0, chunk := 0, readyAt := s.now, run := some r }] }

theorem ctxAt_pushRun (s : State) (tile : Nat) (r : RunReq) :
    ctxAt (pushRun s tile r) (ctxKey tile false) = runWaits s (ctxAt s (ctxKey tile false)) r :=
  sget_sput_ne fun h => List.append_ne_nil_of_right_ne_nil _ (List.cons_ne_nil _ _) (congrArg Ctx.ready h)

theorem setCtx_moves_ctxs (s : State) (k : Nat) (c : Ctx) : Moves [.ctxs] s (setCtx s k c) := setCtx_moves (.refl _ s) rfl

theorem leads_progRun_waits {params data : List Byte} (hadm : admitted s ring d 0x22 (cringOf d.d0) none) (hok : runOk s d = true) :
    leads (.progRun ring d params data) s fun t => onlyChanges [.host, .ctxs, .fresh] s t ∧
      ∃ r : RunReq, r.by_ = acceptNow s ring.toNat d.d0 (slotOf d) ∧ r.slot = slotOf d ∧ r.count = fld d.d1 32 20 ∧
        r.params = params ∧ r.data = padTo (fld d.d6 16 0) data ∧
        ctxAt t (ctxKey (fld d.d1 19 8) false) = runWaits s (ctxAt s (ctxKey (fld d.d1 19 8) false)) r := by
  refine leads_accepted hadm (exec_progRun params data) rfl rfl fun u t hu ht => ?_
  rw [runOk_ringStep hu, hok, if_neg (by simp)] at ht
  refine ⟨onlyChanges_between hu ht (Proofs.widen (setCtx_moves_ctxs ..) rfl) rfl,
    runAsked u (acceptNow s ring.toNat d.d0 (slotOf d)) d params data, rfl, rfl, rfl, rfl, rfl, ?_⟩
  rw [ht.ctxAt, ctxAt_pushRun, hu.ctxAt, runWaits, hu.now, ← runWaits]

end RunCommand

section Start

variable {s : State} {tile : Nat} {p : Pass} {r : RunReq}

theorem ctxKey_half (tile : Nat) : ctxKey tile false / 2 = tile := by
  simp [ctxKey, b2n]

theorem ctxKey_tick_ne (tile : Nat) : ctxKey tile true ≠ ctxKey tile false := by
  simp [ctxKey, b2n]

/-- The tile of a run holds its program's words as they were written. -/
def wordsGood (s : State) (tile : Nat) : Prop := ∀ y ∈ s.faults.progs, y.1 ≠ tile

theorem readProgram_good (h : wordsGood s tile) : readProgram s tile = (s, true, 0) := by
  have hnone : (s.faults.progs.find? fun x => x.1 == tile) = none := List.find?_eq_none.2 fun y hy => by simpa using h y hy
  rw [readProgram, hnone]

/-- The cost of a run's pass. -/
def runCost (s : State) (r : RunReq) : Nat := passCost (((progAt s r.slot).map (·.image)).getD []) r.count

/-- A pass that has started. -/
def startedPass (s : State) (p : Pass) (ends : Nat) : Running where
  pass := p
  started := s.now
  endsAt := ends

/-- A context with a pass running. -/
def runningCtx (c : Ctx) (x : Running) : Ctx := { c with running := some x }

theorem ctxAt_setCtx_running (s : State) (k : Nat) (c : Ctx) (x : Running) : ctxAt (setCtx s k (runningCtx c x)) k = runningCtx c x :=
  sget_sput_ne fun h => Option.some_ne_none x (congrArg Ctx.running h)

theorem beginRun_starts {c : Ctx} {x : Running} (hgood : wordsGood s tile) (htick : (ctxAt s (ctxKey tile true)).running = none)
    (hc : ctxAt s (ctxKey tile false) = c) (hx : c.running = some x) (hrun : x.pass.run = some r) :
    beginRun s tile r = setCtx s (ctxKey tile false)
      (runningCtx c (startedPass s x.pass (passEnd s tile false (runCost s r)))) := by
  have hpass : { x.pass with run := some r } = x.pass := by rw [← hrun]
  unfold beginRun
  rw [readProgram_good hgood]
  dsimp only
  rw [htick, hc, hx]
  dsimp only
  rw [hpass]
  rfl

/-- The context of a tile as a run takes it. -/
def takenCtx (s : State) (c : Ctx) (p : Pass) : Ctx :=
  runningCtx { c with ready := c.ready.filter fun x => x != p } { pass := p, started := s.now, endsAt := s.now, loading := true }

/-- A run takes its tile's context and its window. -/
def runTaken (s : State) (tile : Nat) (p : Pass) (r : RunReq) : State :=
  setCtx (scratchTake s [(tile, r.window)]) (ctxKey tile false) (takenCtx s (ctxAt s (ctxKey tile false)) p)

theorem ctxAt_runTaken (s : State) (tile : Nat) (p : Pass) (r : RunReq) :
    ctxAt (runTaken s tile p r) (ctxKey tile false) = takenCtx s (ctxAt s (ctxKey tile false)) p := ctxAt_setCtx_running ..

theorem startRun_begins (hsrc : r.src = none) (hroom : r.window ≤ scratchFree s tile) (chk : ReadCheck) :
    startRun s (ctxKey tile false) p r chk = beginRun (runTaken s tile p r) tile r := by
  unfold startRun
  rw [ctxKey_half, if_neg (by omega), hsrc]
  rfl

theorem startRun_runs (hrun : p.run = some r) (hsrc : r.src = none) (hroom : r.window ≤ scratchFree s tile) (hgood : wordsGood s tile)
    (htick : (ctxAt s (ctxKey tile true)).running = none) (chk : ReadCheck) :
    startRun s (ctxKey tile false) p r chk = setCtx (runTaken s tile p r) (ctxKey tile false)
      (runningCtx (takenCtx s (ctxAt s (ctxKey tile false)) p) (startedPass s p (passEnd s tile false (runCost s r)))) := by
  have htickT : (ctxAt (runTaken s tile p r) (ctxKey tile true)).running = none :=
    (congrArg Ctx.running (sget_sput_other (ctxKey_tick_ne tile))).trans htick
  rw [startRun_begins hsrc hroom, beginRun_starts (s := runTaken s tile p r) hgood htickT (ctxAt_runTaken ..) rfl hrun]
  rfl

theorem leads_runStart {tile : BitVec 12} {rest : List Pass} (hfree : (ctxAt s (ctxKey tile.toNat false)).running = none)
    (htick : (ctxAt s (ctxKey tile.toNat true)).running = none)
    (hfirst : (ordered (ctxAt s (ctxKey tile.toNat false)).ready).filter (passLive s tile.toNat) = p :: rest) (hrun : p.run = some r)
    (hsrc : r.src = none) (hroom : r.window ≤ scratchFree s tile.toNat) (hgood : wordsGood s tile.toNat) :
    leads (.enginePassStart tile false .first) s fun t => onlyChanges [.ctxs, .tiles] s t ∧
      (ctxAt t (ctxKey tile.toNat false)).running = some (startedPass s p (passEnd s tile.toNat false (runCost s r))) := by
  have hexec : exec (.enginePassStart tile false .first) s = .next (startRun s (ctxKey tile.toNat false) p r .first) := by
    refine congrArg Host.Outcome.next ((if_neg ?_).trans ?_)
    · simp [hfree, htick]
    · rw [hfirst, startNext, hrun]
  refine ⟨_, hexec, ?_⟩
  rw [startRun_runs hrun hsrc hroom hgood htick]
  refine ⟨Moves.only (setCtx_moves (setCtx_moves (scratchTake_moves (.refl [.ctxs, .tiles] s) rfl) rfl) rfl), ?_⟩
  exact congrArg Ctx.running (ctxAt_setCtx_running ..)

end Start

section End

variable {s : State} {tile : BitVec 12} {run : Running} {r : RunReq}

/-- The run of a tile is over. -/
structure RunOver (s : State) (tile : Nat) (run : Running) (r : RunReq) : Prop where
  canon : canon {} s.ctxs = true
  runs : (ctxAt s (ctxKey tile false)).running = some run
  asked : run.pass.run = some r
  due : run.endsAt ≤ s.now
  loaded : run.loading = false
  goes : haltedTile s tile = false

/-- The run leaves its context. -/
def runLeft (s : State) (tile : Nat) : State := setCtx s (ctxKey tile false) { ctxAt s (ctxKey tile false) with running := none }

theorem runLeft_running (hcanon : Machine.canon {} s.ctxs = true) (tile : Nat) : (ctxAt (runLeft s tile) (ctxKey tile false)).running = none :=
  congrArg Ctx.running (ctxAt_setCtx_same hcanon)

/-- The image, the pass and the window of a run. -/
def runImage (s : State) (r : RunReq) : List Byte := ((progAt s r.slot).map (·.image)).getD []

def runPassed (s : State) (r : RunReq) : PassSt := runResult (runImage s r) r

def runStatus (s : State) (r : RunReq) : Nat := if (runPassed s r).invalid > 0 then stInvalid else stOk

def runData (s : State) (r : RunReq) : List Byte :=
  slice (runWindow (runImage s r) (padTo r.window r.data) (runPassed s r).outs) (32 * r.outLine) (round32 r.outBytes)

theorem runLeft_congr (s : State) (tile : Nat) (r : RunReq) : runPassed (runLeft s tile) r = runPassed s r ∧
    runStatus (runLeft s tile) r = runStatus s r ∧ runData (runLeft s tile) r = runData s r := ⟨rfl, rfl, rfl⟩

theorem scratchGive_ctxAt (s : State) (l : List (Nat × Nat)) (k : Nat) : ctxAt (scratchGive s l) k = ctxAt s k := rfl

theorem finishRun_some (s : State) (k : Nat) (r : RunReq) (st : Nat) (p : PassSt) (w : List Nat) :
    finishRun s k r st (passResult p) w =
      completeRun (scratchGive s [(k, r.window)]) r.by_ st p.invalid (p.index.getD 0) p.latch w := rfl

theorem finishRun_none (s : State) (k : Nat) (r : RunReq) (st : Nat) (w : List Nat) :
    finishRun s k r st none w = completeRun (scratchGive s [(k, r.window)]) r.by_ st 0 0 [] w := rfl

/-- What a run's end comes to. -/
def runEnded (s : State) (k : Nat) (r : RunReq) : State :=
  if r.outBytes = 0 then finishRun s k r (runStatus s r) (passResult (runPassed s r)) []
  else if r.outDst then runOut s k r (runStatus s r) (runPassed s r) (runData s r)
  else
    let w := hostWrite s r.outAddr ((runData s r).take r.outBytes) (.copy r.by_.ring (tagOf r.by_.d0))
    finishRun w.2 k r (runStatus s r) (passResult (runPassed s r)) [w.1]

/-- A line that failed its first read alone is read again as a run ends. -/
def runReread (s : State) (k : Nat) : State :=
  if s.faults.lines.contains k then rereadLine { s with faults := { s.faults with lines := s.faults.lines.erase k } } k else s

theorem runReread_good {k : Nat} (h : k ∉ s.faults.lines) : runReread s k = s := if_neg (by simpa using h)

theorem exec_progRunEnd_detect (h : RunOver s tile.toNat run r) : exec (.progRunEnd tile true) s =
    .next (finishRun (retireLine (runLeft s tile.toNat) tile.toNat) tile.toNat r stDetect none []) := by
  change Host.Outcome.next (match (ctxAt s (ctxKey tile.toNat false)).running with | none => s | some run => _) = _
  rw [h.runs]
  dsimp only
  rw [h.asked]
  dsimp only
  rw [if_neg (by simp [h.loaded, h.goes, h.due])]
  exact rfl

theorem exec_progRunEnd (h : RunOver s tile.toNat run r) (hlines : tile.toNat ∉ s.faults.lines) :
    exec (.progRunEnd tile false) s = .next (runEnded (runLeft s tile.toNat) tile.toNat r) := by
  change Host.Outcome.next (match (ctxAt s (ctxKey tile.toNat false)).running with | none => s | some run => _) = _
  rw [h.runs]
  dsimp only
  rw [h.asked]
  dsimp only
  rw [if_neg (by simp [h.loaded, h.goes, h.due]), ← runReread_good (s := runLeft s tile.toNat) hlines]
  exact rfl

theorem retireLine_retired (s : State) (k : Nat) : sget 0 (retireLine s k).tiles.retired k = sget 0 s.tiles.retired k + 1 := by
  have htiles : (retireLine s k).tiles = { s.tiles with retired := sput 0 s.tiles.retired k (sget 0 s.tiles.retired k + 1) } :=
    (setStat_moves (setCause_moves (.refl [.host, .stats, .fresh] _) rfl) rfl).only .tiles (by decide)
  rw [htiles]
  exact sget_sput_ne (Nat.succ_ne_zero _)

theorem leads_runEnd_detect (h : RunOver s tile.toNat run r) :
    leads (.progRunEnd tile true) s fun t => onlyChanges [.host, .stats, .ctxs, .tiles, .fresh] s t ∧
      (ctxAt t (ctxKey tile.toNat false)).running = none ∧ postedRun t r.by_ stDetect 0 0 [] ∧
      sget 0 t.tiles.retired tile.toNat = sget 0 s.tiles.retired tile.toNat + 1 := by
  refine ⟨_, exec_progRunEnd_detect h, ?_⟩
  have hretire : Moves [.host, .stats, .tiles, .fresh] (runLeft s tile.toNat) (retireLine (runLeft s tile.toNat) tile.toNat) :=
    retireLine_moves (.refl _ _) rfl
  have hretired := retireLine_retired (runLeft s tile.toNat) tile.toNat
  generalize retireLine (runLeft s tile.toNat) tile.toNat = u at hretire hretired
  have hend : RingStep (scratchGive u [(tile.toNat, r.window)]) (finishRun u tile.toNat r stDetect none []) := completeRun_ringStep ..
  refine ⟨(finishRun_moves ((setCtx_moves (.refl _ s) rfl).trans hretire rfl) rfl).only, ?_, postedRun_completeRun .., ?_⟩
  · rw [hend.ctxAt, scratchGive_ctxAt, ctxAt_of_moves hretire (by decide)]
    exact runLeft_running h.canon _
  · rw [hend.moves.only .tiles (by decide)]
    exact hretired

theorem leads_runEnd_plain (h : RunOver s tile.toNat run r) (hlines : tile.toNat ∉ s.faults.lines) (hout : r.outBytes = 0) :
    leads (.progRunEnd tile false) s fun t => onlyChanges [.host, .ctxs, .tiles] s t ∧
      (ctxAt t (ctxKey tile.toNat false)).running = none ∧
      postedRun t r.by_ (runStatus s r) (runPassed s r).invalid ((runPassed s r).index.getD 0) (runPassed s r).latch := by
  refine ⟨_, exec_progRunEnd h hlines, ?_⟩
  rw [runEnded, if_pos hout]
  obtain ⟨hpass, hstatus, -⟩ := runLeft_congr s tile.toNat r
  rw [hpass, hstatus]
  have hend : RingStep (scratchGive (runLeft s tile.toNat) [(tile.toNat, r.window)]) (finishRun (runLeft s tile.toNat) tile.toNat r
    (runStatus s r) (passResult (runPassed s r)) []) := completeRun_ringStep ..
  refine ⟨(finishRun_moves (setCtx_moves (.refl _ s) rfl) rfl).only, ?_, postedRun_completeRun ..⟩
  rw [hend.ctxAt, scratchGive_ctxAt]
  exact runLeft_running h.canon _

theorem completeRun_waiting (s : State) (a : Accept) (st inv index : Nat) (l : List W32) {w : List Nat} (hw : w ≠ []) :
    completeRun s a st inv index l w = ready s (runCpl a st inv index l w) := by
  have hsome : w.isEmpty = false := by simpa using hw
  rw [completeRun, hsome, Bool.and_false, if_neg Bool.false_ne_true, runCpl]

theorem leads_runEnd_copies (h : RunOver s tile.toNat run r) (hlines : tile.toNat ∉ s.faults.lines) (hout : r.outBytes ≠ 0)
    (hdst : r.outDst = false) :
    leads (.progRunEnd tile false) s fun t => onlyChanges [.host, .ctxs, .tiles, .fresh] s t ∧
      (ctxAt t (ctxKey tile.toNat false)).running = none ∧
      hostWriting t r.outAddr ((runData s r).take r.outBytes) (.copy r.by_.ring (tagOf r.by_.d0)) ∧
      ∃ c ∈ t.host.ready, c.waits ≠ [] ∧
        c.entries = runEntries r.by_ (runStatus s r) (runPassed s r).invalid ((runPassed s r).index.getD 0) (runPassed s r).latch := by
  refine ⟨_, exec_progRunEnd h hlines, ?_⟩
  rw [runEnded, if_neg hout, if_neg (by simp [hdst])]
  obtain ⟨hpass, hstatus, hdata⟩ := runLeft_congr s tile.toNat r
  rw [hpass, hstatus, hdata]
  dsimp only
  have hwrite := hostWrite_ringStep (runLeft s tile.toNat) r.outAddr ((runData s r).take r.outBytes) (.copy r.by_.ring (tagOf r.by_.d0))
  have hissued := writeIssued_hostWrite (runLeft s tile.toNat) r.outAddr ((runData s r).take r.outBytes) (.copy r.by_.ring (tagOf r.by_.d0))
  generalize hostWrite (runLeft s tile.toNat) r.outAddr ((runData s r).take r.outBytes) (.copy r.by_.ring (tagOf r.by_.d0)) = w
    at hwrite hissued ⊢
  rw [finishRun_some, completeRun_waiting _ _ _ _ _ _ (List.cons_ne_nil _ _)]
  refine ⟨Moves.only (ready_moves (scratchGive_moves ((setCtx_moves (.refl _ s) rfl).trans hwrite.moves rfl) rfl) rfl), ?_, ?_,
    _, mem_ready .., List.cons_ne_nil _ _, rfl⟩
  · rw [(ready_ringStep ..).ctxAt, scratchGive_ctxAt, hwrite.ctxAt]
    exact runLeft_running h.canon _
  · exact hissued.writing

end End

/-- Settles O45: a program's load, its turn in the cycle, its unloading, and a run from its acceptance to each of its ends. -/
theorem programsAreLoadedAndRun : Obligations.ProgramsAreLoadedAndRun := by
  unfold Obligations.ProgramsAreLoadedAndRun
  refine ⟨fun s ring d image => ⟨fun hadm => ⟨leads_progLoad_begins hadm, leads_progLoad_refuses hadm⟩,
    fun p at_ a => progCycle_loads, leads_progUnload⟩,
    fun s ring d params data hadm => ⟨leads_progRun_refuses hadm, fun hok _ => leads_progRun_waits hadm hok⟩,
    fun s tile p rest r hfree htick hfirst hrun hsrc hroom hgood => leads_runStart hfree htick hfirst hrun hsrc hroom hgood,
    fun s tile run r hmaps hruns hasked hdue hloaded hgoes => ?_⟩
  obtain ⟨-, -, -, -, -, hcanon⟩ := hmaps
  have hover : RunOver s tile.toNat run r := ⟨hcanon, hruns, hasked, hdue, hloaded, hgoes⟩
  exact ⟨leads_runEnd_detect hover, leads_runEnd_plain hover, leads_runEnd_copies hover⟩

end Sys2Proof.Proofs

/-! PROOFS. Update passes: they start in their turn, are passed over, and end (04 R116-R126, 05 R149-R151). -/

namespace Sys2Proof.Proofs

open Sys2Proof.Machine Sys2Proof.Safety Sys2Proof.Laws

/-! ### Start of an update pass (05 R149, R150) -/

section Start

variable {s : State} {x : Till} {g : Region} {p : Pass} {tile : Nat}

/-- The key of a till's context on a tile. -/
def passKey (tile : Nat) (x : Till) : Nat := ctxKey tile (tTick x.words)

theorem ctxKey_div (tile : Nat) (tick : Bool) : ctxKey tile tick / 2 = tile := by
  cases tick <;> (simp [ctxKey, b2n]; try omega)

theorem ctxKey_odd (tile : Nat) (tick : Bool) : (ctxKey tile tick % 2 == 1) = tick := by
  cases tick <;> simp [ctxKey, b2n]

/-- The elements of a pass. -/
def passElems (x : Till) (k : Nat) : Nat := validFrom x.words (chunkFirst x.words k) (chunkLen x.words k)

/-- The cost of an update pass. -/
def updateCost (s : State) (x : Till) (k : Nat) : Nat := passCost (tillImage s x.words) (passElems x k)

/-- The cycle in which an update pass that starts now ends. -/
def updateEnds (s : State) (x : Till) (tile k : Nat) : Nat := passEnd s tile (tTick x.words) (updateCost s x k)

/-- The pass leaves those that wait. -/
def passTaken (s : State) (key : Nat) (p : Pass) : State :=
  setCtx s key { ctxAt s key with ready := (ctxAt s key).ready.filter fun y => y != p }

/-- Bulk work of the tile makes way for a tick-class pass. -/
def makesWay (s : State) (tile cost : Nat) (tick : Bool) : State := if tick then delayBulk s tile (2 * cost) else s

/-- A version's pass that runs. -/
def updateRunning (s : State) (x : Till) (p : Pass) (ends : Nat) : Running where
  pass := p
  started := s.now
  endsAt := ends
  version := passVersion x p.chunk

/-- A pass that only computes starts. -/
def updateStarted (s : State) (x : Till) (p : Pass) (tile : Nat) : State :=
  let t := makesWay (passWaited (passTaken s (passKey tile x) p) (tJob x.words) p) tile (updateCost s x p.chunk) (tTick x.words)
  setCtx t (passKey tile x)
    (runningCtx (ctxAt t (passKey tile x)) (updateRunning t x p (passEnd t tile (tTick x.words) (updateCost s x p.chunk))))

/-- What an update pass that computes only needs for its start. -/
structure UpdateReady (s : State) (x : Till) (g : Region) (p : Pass) (tile : Nat) : Prop where
  till : tillAt s p.till = some x
  region : regionAt s (tRegion x.words) = some g
  next : (g.chunks.getD p.chunk {}).stored + 1 = passVersion x p.chunk
  plain : streamsOf (tillImage s x.words) 3 = []
  words : wordsGood s tile

theorem stored_ne_next (v : W16) : v ≠ v + 1 := by
  bv_omega

theorem passWaited_moves_own (s : State) (job : Nat) (p : Pass) : Moves [.jobFree] s (passWaited s job p) := passWaited_moves (.refl _ s) rfl

theorem passTaken_moves (s : State) (key : Nat) (p : Pass) : Moves [.ctxs] s (passTaken s key p) := setCtx_moves_ctxs ..

theorem passEnd_congr {t : State} (hnow : t.now = s.now) (hboot : t.boot = s.boot) (tile : Nat) (tick : Bool) (c : Nat) :
    passEnd t tile tick c = passEnd s tile tick c := by
  rw [passEnd, throttleOf, hnow, hboot, ← throttleOf, ← passEnd]

theorem makesWay_moves (s : State) (tile cost : Nat) (tick : Bool) : Moves [.ctxs] s (makesWay s tile cost tick) := by
  unfold makesWay
  split
  · exact delayBulk_moves (.refl _ s) rfl
  · exact .refl _ s

theorem readOpnds_nil (s : State) (n k : Nat) (chk : ReadCheck) : readOpnds s n k [] chk = (s, true, 0) := rfl

theorem startUpdate_starts (h : UpdateReady s x g p tile) (chk : ReadCheck) :
    startUpdate s (passKey tile x) p chk = updateStarted s x p tile := by
  have hneq : (g.chunks.getD p.chunk {}).stored ≠ passVersion x p.chunk := h.next ▸ stored_ne_next _
  have hwaited : Moves [.ctxs, .jobFree] s (passWaited (passTaken s (passKey tile x) p) (tJob x.words) p) :=
    passWaited_moves (setCtx_moves (.refl _ s) rfl) rfl
  have hbytes : ∀ n, fabricBytes (tillImage s x.words) n false = 0 := fun n => by
    rw [fabricBytes, h.plain]
    rfl
  unfold startUpdate updateStarted updateRunning
  rw [h.till]
  dsimp only
  rw [h.region]
  dsimp only
  rw [if_neg hneq, if_neg (not_not.2 h.next), h.plain, hbytes]
  simp only [passKey, ctxKey_div, ctxKey_odd, List.filter_nil, List.map_nil, readOpnds_nil]
  have hgood : wordsGood (passWaited (passTaken s (passKey tile x) p) (tJob x.words) p) tile := by
    rw [wordsGood, hwaited.only .faults (by decide)]
    exact h.words
  have hread := readProgram_good hgood
  unfold passTaken passKey at hread hwaited
  rw [hread]
  simp only [Bool.not_true, Bool.false_eq_true, if_false]
  exact rfl

theorem ctxAt_makesWay (s : State) (tile cost : Nat) (tick : Bool) :
    ctxAt (makesWay s tile cost tick) (ctxKey tile tick) = ctxAt s (ctxKey tile tick) := by
  unfold makesWay
  split
  next htick =>
    rw [htick]
    unfold delayBulk
    dsimp only
    split
    · exact sget_sput_other (ctxKey_tick_ne tile)
    · rfl
  next => rfl

theorem updateStarted_runs (hcanon : canon {} s.ctxs = true) (x : Till) (p : Pass) (tile : Nat) :
    onlyChanges [.ctxs, .jobFree, .fresh] s (updateStarted s x p tile) ∧
      (ctxAt (updateStarted s x p tile) (passKey tile x)).running = some (updateRunning s x p (updateEnds s x tile p.chunk)) ∧
      (ctxAt (updateStarted s x p tile) (passKey tile x)).ready = (ctxAt s (passKey tile x)).ready.filter fun y => y != p := by
  have hwaited : Moves [.jobFree] (passTaken s (passKey tile x) p) (passWaited (passTaken s (passKey tile x) p) (tJob x.words) p) :=
    passWaited_moves (.refl _ _) rfl
  unfold updateStarted
  dsimp only
  generalize passWaited (passTaken s (passKey tile x) p) (tJob x.words) p = u at hwaited ⊢
  have hmoves : Moves [.ctxs, .jobFree] s (makesWay u tile (updateCost s x p.chunk) (tTick x.words)) :=
    ((setCtx_moves (.refl _ s) rfl).trans hwaited rfl).trans (makesWay_moves ..) rfl
  have hat : ctxAt (makesWay u tile (updateCost s x p.chunk) (tTick x.words)) (passKey tile x) =
      { ctxAt s (passKey tile x) with ready := (ctxAt s (passKey tile x)).ready.filter fun y => y != p } := by
    refine (ctxAt_makesWay u tile _ _).trans ((ctxAt_of_moves hwaited (by decide) _).trans ?_)
    exact ctxAt_setCtx_same hcanon
  generalize makesWay u tile (updateCost s x p.chunk) (tTick x.words) = v at hmoves hat ⊢
  rw [hat, ctxAt_setCtx_running, updateRunning, passEnd_congr (hmoves.only .now (by decide)) (hmoves.only .boot (by decide)),
    hmoves.only .now (by decide), ← updateEnds, ← updateRunning]
  exact ⟨(setCtx_moves (Proofs.widen hmoves rfl) rfl).only, rfl, rfl⟩

/-! ### Its turn (04 R126) -/

theorem exec_enginePassStart {rest : List Pass} (htile : tile < 4096) (hx : tillAt s p.till = some x)
    (hpass : p.run = none) (hfree : (ctxAt s (passKey tile x)).running = none)
    (hbulk : tTick x.words = false → (ctxAt s (ctxKey tile true)).running = none)
    (hfirst : (ordered (ctxAt s (passKey tile x)).ready).filter (passLive s tile) = p :: rest) (hready : versionReady s x p.chunk = true) :
    exec (.enginePassStart (BitVec.ofNat 12 tile) (tTick x.words) .first) s = .next (startUpdate s (passKey tile x) p .first) := by
  have hnat : (BitVec.ofNat 12 tile).toNat = tile := by
    rw [BitVec.toNat_ofNat, Nat.mod_eq_of_lt htile]
  unfold passKey at hfree hfirst ⊢
  change Host.Outcome.next (if ((ctxAt s (ctxKey (BitVec.ofNat 12 tile).toNat (tTick x.words))).running.isSome ||
    (!tTick x.words && (ctxAt s (ctxKey (BitVec.ofNat 12 tile).toNat true)).running.isSome)) = true then s else _) = _
  rw [hnat, if_neg, hfirst, startNext, hpass]
  · dsimp only
    rw [hx]
    dsimp only
    rw [if_pos hready]
  · rw [hfree]
    cases htick : tTick x.words
    · simp [hbulk htick]
    · simp

/-- The pass has its turn among the live ones. -/
def hasTurn (s : State) (l : List Pass) (p : Pass) : Prop := ∀ y ∈ l, y = p ∨ passBefore y p = false ∨ mustWait s y = true

/-- What a pass that comes to its turn does. -/
def passTurns (s : State) (x : Till) (p : Pass) (key : Nat) : State :=
  if versionReady s x p.chunk then startUpdate s key p .first else passOver s key p

theorem exec_updatePassStart (htill : p.till < 4096) (htile : tile = tileOf s p.till x.words p.chunk) (hx : tillAt s p.till = some x)
    (hfree : (ctxAt s (passKey tile x)).running = none) (hbulk : tTick x.words = false → (ctxAt s (ctxKey tile true)).running = none)
    (hfind : ((ordered (ctxAt s (passKey tile x)).ready).filter (passLive s tile)).find? (isPassOf p.till p.chunk) = some p)
    (hturn : hasTurn s ((ordered (ctxAt s (passKey tile x)).ready).filter (passLive s tile)) p) :
    exec (.updatePassStart (BitVec.ofNat 12 p.till) p.chunk) s = .next (passTurns s x p (passKey tile x)) := by
  have hnat : (BitVec.ofNat 12 p.till).toNat = p.till := by
    rw [BitVec.toNat_ofNat, Nat.mod_eq_of_lt htill]
  have hall : (((ordered (ctxAt s (passKey tile x)).ready).filter (passLive s tile)).all
      fun y => y == p || !passBefore y p || mustWait s y) = true := by
    rw [List.all_eq_true]
    intro y hy
    obtain h | h | h := hturn y hy <;> simp [h]
  change Host.Outcome.next (match tillAt s (BitVec.ofNat 12 p.till).toNat with | none => s | some t => _) = _
  rw [hnat, hx]
  dsimp only
  unfold passKey at hfind hall hfree ⊢
  rw [← htile, hfind]
  dsimp only
  rw [hall, hfree, if_neg]
  · rfl
  · cases htick : tTick x.words
    · simp [hbulk htick]
    · simp

/-- A pass that is passed over is marked, once. -/
def markPassed (s : State) (p y : Pass) : Pass := if y = p ∧ y.passedAt = none then { y with passedAt := some s.now } else y

theorem passOver_marks (hcanon : canon {} s.ctxs = true) (key : Nat) (p : Pass) :
    onlyChanges [.ctxs] s (passOver s key p) ∧
      (ctxAt (passOver s key p) key).ready = (ctxAt s key).ready.map (markPassed s p) :=
  ⟨(setCtx_moves_ctxs ..).only, congrArg Ctx.ready (ctxAt_setCtx_same hcanon)⟩

end Start

/-! ### End of an update pass (04 R104-R121, 05 R151) -/

section End

variable {s : State} {tile : BitVec 12} {tick : Bool} {run : Running} {x : Till} {g : Region}

/-- An update pass that is over. -/
structure UpdateOver (s : State) (key tile : Nat) (run : Running) (x : Till) (g : Region) : Prop where
  canon : canon {} s.ctxs = true
  runs : (ctxAt s key).running = some run
  update : run.pass.run = none
  due : run.endsAt ≤ s.now
  goes : haltedTile s tile = false
  till : tillAt s run.pass.till = some x
  region : regionAt s (tRegion x.words) = some g
  chunk : run.pass.chunk < x.chunks.length
  slot : run.pass.chunk < g.chunks.length

/-- What the pass computes. -/
def passComputed (s : State) (x : Till) (g : Region) (k : Nat) : PassSt :=
  runPass { image := tillImage s x.words, k := paramWords (g.param.getD []), base := chunkFirst x.words k * tElems x.words }
    (fun _ => updateRead x (g.chunks.getD k {}) (tillImage s x.words) (((chunkMint x k).blocks.map fun b => b.1.encs).flatten))
    (validFrom x.words (chunkFirst x.words k) (chunkLen x.words k))

/-- The chunk slot of the vault after the pass. -/
def builtChunk (s : State) (x : Till) (g : Region) (k : Nat) (run : Running) : VChunk :=
  let v := { g.chunks.getD k {} with build := buildSlot (tillImage s x.words) (passComputed s x g k) }
  let bytes := (publishOut x k (tillImage s x.words) (passComputed s x g k)).1
  if !rPubEn g.words then v else if run.version.toNat % 2 = 0 then { v with pub0 := bytes } else { v with pub1 := bytes }

def builtRegion (s : State) (x : Till) (g : Region) (k : Nat) (run : Running) : Region :=
  { g with chunks := g.chunks.set k (builtChunk s x g k run) }

/-- What the pass counted. -/
def passCounted (s : State) (x : Till) (g : Region) (k : Nat) : Part :=
  { (publishOut x k (tillImage s x.words) (passComputed s x g k)).2 with
    engInvalid := (passComputed s x g k).invalid, engIndex := (passComputed s x g k).index, latch := some (passComputed s x g k).latch }

/-- The state in which the published chunk leaves. -/
def passWritten (s : State) (x : Till) (g : Region) (n k : Nat) (run : Running) : State :=
  modChunk (setRegion s (tRegion x.words) (builtRegion s x g k run)) n k fun c => Machine.mintedChunk c (chunkMint x k) (passCounted s x g k)

theorem endUpdate_writes {n k : Nat} (hx : tillAt s n = some x) (hg : regionAt s (tRegion x.words) = some g) :
    ∃ path, endUpdate s n k run = publishChunk (passWritten s x g n k run) n k x (builtRegion s x g k run)
      (publishOut x k (tillImage s x.words) (passComputed s x g k)).1 path := by
  unfold endUpdate
  rw [hx]
  dsimp only
  rw [hg]
  exact ⟨_, rfl⟩

theorem publishChunk_sendStep (s : State) (n k : Nat) (x : Till) (g : Region) (bytes : List Byte) (path : Nat → Nat) :
    SendStep s (publishChunk s n k x g bytes path) := by
  unfold publishChunk
  split
  · exact .refl s
  · exact sendResults_sendStep ..

theorem builtChunk_build (s : State) (x : Till) (g : Region) (k : Nat) (run : Running) :
    (builtChunk s x g k run).build = buildSlot (tillImage s x.words) (passComputed s x g k) := by
  unfold builtChunk
  dsimp only
  split
  · rfl
  · split <;> rfl

theorem passWritten_moves (s : State) (x : Till) (g : Region) (n k : Nat) (run : Running) :
    Moves [.tills, .hbm] s (passWritten s x g n k run) :=
  modChunk_moves (setRegion_moves (.refl _ s) rfl) rfl

theorem tillAt_passWritten {n : Nat} (hx : tillAt s n = some x) (k : Nat) : tillAt (passWritten s x g n k run) n =
    some (putChunk x k (Machine.mintedChunk (chunkOf x k) (chunkMint x k) (passCounted s x g k))) :=
  tillAt_modTill (s := setRegion s (tRegion x.words) (builtRegion s x g k run)) hx _

theorem latch_mintedChunk (c : Chunk) (o : OutChunk) (q : Part) (h : q.latch.isSome = true) :
    (Machine.mintedChunk c o q).part.latch.isSome = true := by
  obtain ⟨l, hl⟩ := Option.isSome_iff_exists.1 h
  simp only [Machine.mintedChunk, joinPart, hl]
  split
  · rfl
  · contradiction
  · rfl

theorem regionAt_passWritten (s : State) (x : Till) (g : Region) (n k : Nat) (run : Running) :
    regionAt (passWritten s x g n k run) (tRegion x.words) = some (builtRegion s x g k run) := by
  have hmod : Moves [.tills] (setRegion s (tRegion x.words) (builtRegion s x g k run)) (passWritten s x g n k run) := modChunk_moves (.refl _ _) rfl
  rw [regionAt, hbm_eq_of_moves hmod (by decide) (by decide), ← regionAt, regionAt_setRegion, if_pos rfl]

theorem sendAreas_of_faults {s t : State} (h : t.faults = s.faults) : sendAreas t = sendAreas s := by
  rw [sendAreas, poolAreas, cellAreas, h]
  rfl

/-- The context is left by the pass. -/
def passLeft (s : State) (key : Nat) (run : Running) : State := setCtx s key (endedCtx s (ctxAt s key) run)

theorem endedCtx_running (s : State) (c : Ctx) (run : Running) : (endedCtx s c run).running = none := by
  unfold endedCtx
  split <;> rfl

theorem exec_enginePassEnd (h : UpdateOver s (ctxKey tile.toNat tick) tile.toNat run x g) : exec (.enginePassEnd tile tick) s =
    .next (endUpdate (passLeft s (ctxKey tile.toNat tick) run) run.pass.till run.pass.chunk run) := by
  change Host.Outcome.next (match (ctxAt s (ctxKey tile.toNat tick)).running with | none => s | some run => _) = _
  rw [h.runs]
  dsimp only
  rw [if_neg (by simp [h.update, h.due, h.goes])]
  rfl

theorem leads_enginePassEnd (h : UpdateOver s (ctxKey tile.toNat tick) tile.toNat run x g) :
    leads (.enginePassEnd tile tick) s fun t => onlyChanges (sendAreas s ++ [.tills, .ctxs, .hbm]) s t ∧
      (ctxAt t (ctxKey tile.toNat tick)).running = none ∧
      (∃ y, tillAt t run.pass.till = some y ∧ (chunkOf y run.pass.chunk).part.latch.isSome = true) ∧
      ∃ r, regionAt t (tRegion x.words) = some r ∧
        (r.chunks.getD run.pass.chunk {}).build = buildSlot (tillImage s x.words) (passComputed s x g run.pass.chunk) := by
  refine ⟨_, exec_enginePassEnd h, ?_⟩
  have hleft : Moves [.ctxs] s (passLeft s (ctxKey tile.toNat tick) run) := setCtx_moves_ctxs ..
  have hfree : (ctxAt (passLeft s (ctxKey tile.toNat tick) run) (ctxKey tile.toNat tick)).running = none :=
    (congrArg Ctx.running (ctxAt_setCtx_same h.canon)).trans (endedCtx_running ..)
  have hcomputed : passComputed (passLeft s (ctxKey tile.toNat tick) run) x g run.pass.chunk = passComputed s x g run.pass.chunk := rfl
  have himage : tillImage (passLeft s (ctxKey tile.toNat tick) run) x.words = tillImage s x.words := rfl
  have hx : tillAt (passLeft s (ctxKey tile.toNat tick) run) run.pass.till = some x := h.till
  have hg : regionAt (passLeft s (ctxKey tile.toNat tick) run) (tRegion x.words) = some g := h.region
  have hareas : sendAreas (passLeft s (ctxKey tile.toNat tick) run) = sendAreas s := rfl
  generalize passLeft s (ctxKey tile.toNat tick) run = u at hleft hfree hcomputed himage hx hg hareas ⊢
  obtain ⟨path, hend⟩ := endUpdate_writes (run := run) (k := run.pass.chunk) hx hg
  have hwritten := passWritten_moves u x g run.pass.till run.pass.chunk run
  have htill := tillAt_passWritten (run := run) (g := g) hx run.pass.chunk
  have hregion := regionAt_passWritten u x g run.pass.till run.pass.chunk run
  have hareasW : sendAreas (passWritten u x g run.pass.till run.pass.chunk run) = sendAreas s :=
    (sendAreas_of_faults (hwritten.only .faults (by decide))).trans hareas
  rw [hend]
  generalize passWritten u x g run.pass.till run.pass.chunk run = v at hwritten htill hregion hareasW ⊢
  have hsent := publishChunk_sendStep v run.pass.till run.pass.chunk x (builtRegion u x g run.pass.chunk run)
    (publishOut x run.pass.chunk (tillImage u x.words) (passComputed u x g run.pass.chunk)).1 path
  have hmoves : Moves (sendAreas s ++ [.tills, .ctxs, .hbm]) s
      (publishChunk v run.pass.till run.pass.chunk x (builtRegion u x g run.pass.chunk run)
        (publishOut x run.pass.chunk (tillImage u x.words) (passComputed u x g run.pass.chunk)).1 path) :=
    (Proofs.widen ((Proofs.widen hleft rfl : Moves [.tills, .ctxs, .hbm] s u).trans hwritten rfl) (sub_append_right _ rfl)).trans
      hsent.moves (hareasW ▸ sub_append_left _ _)
  have hctxs : (ctxAt v (ctxKey tile.toNat tick)).running = none := by
    rw [ctxAt_of_moves hwritten (by decide)]
    exact hfree
  refine ⟨hmoves.only, ?_, ⟨_, (hsent.tillAt _).trans htill, ?_⟩, builtRegion u x g run.pass.chunk run, ?_, ?_⟩
  · rw [ctxAt_of_moves hsent.moves (not_mem_sendAreas v (by decide))]
    exact hctxs
  · rw [chunkOf_putChunk h.chunk]
    exact latch_mintedChunk _ _ _ rfl
  · rw [regionAt, hbm_eq_of_moves hsent.moves (not_mem_sendAreas v (by decide)) (not_mem_sendAreas v (by decide))]
    exact hregion
  · rw [builtRegion, List.getD_eq_getElem _ _ (by rw [List.length_set]; exact h.slot), List.getElem_set_self, builtChunk_build, himage,
      hcomputed]

end End

/-- Settles O46: an update pass in its turn starts or is passed over, and its end leaves the latch and the build slot. -/
theorem updatePassesRun : Obligations.UpdatePassesRun := by
  unfold Obligations.UpdatePassesRun
  refine ⟨fun s x g p tile c hmaps => ?_, fun s tile tick run x g hmaps hruns hupdate hdue hgoes hx hg hchunk hslot => ?_⟩
  · obtain ⟨-, -, -, -, -, hcanon⟩ := hmaps
    refine fun hx hpass hfree hbulk hc hg => ⟨fun hready hnext hplain hwords => ?_, fun hwaits hupdate => ?_⟩
    · have hexec : exec c s = .next (updateStarted s x p tile) := by
        rw [← startUpdate_starts ⟨hx, hg, hnext, hplain, hwords⟩ .first]
        obtain ⟨rest, rfl, htile, hfirst⟩ | ⟨rfl, htill, htile, hfind, hturn⟩ := hc
        · exact exec_enginePassStart htile hx hpass hfree hbulk hfirst hready
        · rw [exec_updatePassStart htill htile hx hfree hbulk hfind hturn, passTurns, if_pos hready]
      exact ⟨_, hexec, updateStarted_runs hcanon x p tile⟩
    · obtain ⟨rest, rfl, -⟩ | ⟨-, htill, htile, hfind, hturn⟩ := hc
      · exact nomatch hupdate
      · refine ⟨_, hupdate ▸ exec_updatePassStart htill htile hx hfree hbulk hfind hturn, ?_⟩
        rw [passTurns, if_neg (by simp [hwaits])]
        exact passOver_marks hcanon _ p
  · obtain ⟨-, -, -, -, -, hcanon⟩ := hmaps
    exact leads_enginePassEnd ⟨hcanon, hruns, hupdate, hdue, hgoes, hx, hg, hchunk, hslot⟩

end Sys2Proof.Proofs

/-! PROOFS. Regions of fabric memory: they open and close, and the staging buffers are set (05 R136, R137, R159). -/

namespace Sys2Proof.Proofs

open Sys2Proof.Machine Sys2Proof.Safety Sys2Proof.Laws

section Open

variable {s : State} {ring : BitVec 6} {d : Desc} {w : List W64} {init : List Byte} {param : Option (List Byte)}

theorem regionAt_setRegion_same (s : State) (n : Nat) (r : Region) : regionAt (setRegion s n r) n = some r := by
  rw [regionAt_setRegion, if_pos rfl]

/-- The region that REGION_OPEN creates. -/
def openedRegion (s : State) (a : Accept) (w : List W64) (init : List Byte) (param : Option (List Byte)) : Region where
  words := w
  current := if rVault w then rVersion0 w else 0
  chunks := if rVault w then initChunks w (if w.getD 6 0 == 0 then [] else init) else []
  param := if rVault w then param.map (padTo 64) else none
  paramTries := if rVault w && param.isNone then 1 else 0
  paramAt := s.now
  paramFrom := if rVault w then paramAddr w (rVersion0 w + 1) else 0
  waiting := if awaitsStack s w then some a else none

/-- The region is recorded and stands. -/
def regionRecorded (s : State) (a : Accept) (w : List W64) (init : List Byte) (param : Option (List Byte)) : State :=
  setRegion (record s oHost a.ring 0x15 false (rNum w) [] (sha512Bytes (bytesOf w))) (rNum w) (openedRegion s a w init param)

/-- Its first contents are written. -/
def regionFilled (s : State) (a : Accept) (w : List W64) (init : List Byte) (param : Option (List Byte)) : State :=
  let t := regionRecorded s a w init param
  if rVault w || w.getD 6 0 == 0 then t else accessWrite t (rNum w) 0 (padTo (rBytes w) init)

/-- A region is created; the parameter block of a vault was read. -/
def regionOpened (s : State) (a : Accept) (w : List W64) (init : List Byte) (param : Option (List Byte)) : State :=
  let t := regionFilled s a w init param
  if awaitsStack s w then t else complete t a stOk

theorem exec_regionOpen (words : List W64) (hw : w = regionWords words) (hparam : rVault w = true → param.isSome = true) :
    exec (.regionOpen ring d words init param) s =
      .next (accept s ring d 0x28 (some (regJob w)) (rNum w) (cringOf d.d0) fun a s =>
        if !regionOk s w then complete s a stRefused else regionOpened s a w init param) := by
  subst hw
  have hread : (rVault (regionWords words) && param.isNone) = false := by
    cases hv : rVault (regionWords words)
    · rfl
    · simpa using hparam hv
  change Host.Outcome.next (accept s ring d 0x28 _ _ _ _) = _
  refine congrArg (fun body => Host.Outcome.next (accept s ring d 0x28 (some (regJob (regionWords words))) (rNum (regionWords words))
    (cringOf d.d0) body)) (funext fun a => funext fun u => ?_)
  unfold regionOpened regionFilled regionRecorded openedRegion
  simp only [hread]
  exact rfl

theorem regionOk_ringStep {u : State} (h : RingStep s u) (w : List W64) : regionOk u w = regionOk s w := by
  obtain ⟨host, fresh, rfl⟩ := h.exists_eq
  rfl

theorem awaitsStack_ringStep {u : State} (h : RingStep s u) (w : List W64) : awaitsStack u w = awaitsStack s w := by
  obtain ⟨host, fresh, rfl⟩ := h.exists_eq
  rfl

theorem regionFilled_moves (s : State) (a : Accept) (w : List W64) (init : List Byte) (param : Option (List Byte)) :
    Moves [.host, .mem, .hbm, .ledger, .fresh] s (regionFilled s a w init param) := by
  have hrec : Moves [.host, .mem, .hbm, .ledger, .fresh] s (regionRecorded s a w init param) :=
    setRegion_moves (record_moves (.refl _ s) rfl) rfl
  unfold regionFilled
  dsimp only
  split
  · exact hrec
  · exact accessWrite_moves hrec rfl

theorem accessWrite_mem (s : State) (n : Nat) (data : List Byte) :
    (accessWrite s n 0 data).hbm.mem = memWrite (landAll s.hbm.mem s.hbm.writing) (n * 2 ^ 39) data :=
  congrArg (fun k => memWrite (landAll s.hbm.mem s.hbm.writing) k data) (Nat.add_zero _)

theorem regionFilled_holds (s : State) (a : Accept) (w : List W64) (init : List Byte) (param : Option (List Byte)) :
    (regionFilled s a w init param).hbm.mem = (if rVault w || w.getD 6 0 == 0 then s.hbm.mem
      else memWrite (landAll s.hbm.mem s.hbm.writing) (rNum w * 2 ^ 39) (padTo (rBytes w) init)) ∧
    regionAt (regionFilled s a w init param) (rNum w) = some (openedRegion s a w init param) ∧
    (regionFilled s a w init param).ledger = (record s oHost a.ring 0x15 false (rNum w) [] (sha512Bytes (bytesOf w))).ledger := by
  have hat := regionAt_setRegion_same (record s oHost a.ring 0x15 false (rNum w) [] (sha512Bytes (bytesOf w))) (rNum w)
    (openedRegion s a w init param)
  unfold regionFilled
  dsimp only
  split
  · exact ⟨rfl, hat, rfl⟩
  · exact ⟨accessWrite_mem .., hat, rfl⟩

theorem regionOpened_ringStep (s : State) (a : Accept) (w : List W64) (init : List Byte) (param : Option (List Byte)) :
    RingStep (regionFilled s a w init param) (regionOpened s a w init param) := by
  unfold regionOpened
  dsimp only
  split
  · exact .refl _
  · exact complete_ringStep ..

theorem leads_regionOpen_refuses {words : List W64} (hw : w = regionWords words)
    (hadm : admitted s ring d 0x28 (cringOf d.d0) (some (regJob w))) (hbad : regionOk s w = false) :
    leads (.regionOpen ring d words init param) s fun t => onlyChanges [.host, .fresh] s t ∧
      answered s t ring d (cringOf d.d0) (rNum w) stRefused 0 0 := by
  subst hw
  refine leads_accepted hadm (cring' := cringOf d.d0) (job' := some (regJob (regionWords words))) rfl rfl rfl fun u t hu ht => ?_
  rw [if_pos (by rw [regionOk_ringStep hu, hbad]; rfl)] at ht
  exact ⟨onlyChanges_between hu ht (complete_ringStep ..).moves rfl, ht.answered (answered_completeTo _ [] [])⟩

theorem leads_regionOpen_opens {words : List W64} (hw : w = regionWords words)
    (hadm : admitted s ring d 0x28 (cringOf d.d0) (some (regJob w))) (hok : regionOk s w = true)
    (hparam : rVault w = true → param.isSome = true) :
    leads (.regionOpen ring d words init param) s fun t => onlyChanges [.host, .mem, .hbm, .ledger, .fresh] s t ∧
      t.hbm.mem = (if rVault w || w.getD 6 0 == 0 then s.hbm.mem
        else memWrite (landAll s.hbm.mem s.hbm.writing) (rNum w * 2 ^ 39) (padTo (rBytes w) init)) ∧
      (awaitsStack s w = false → answered s t ring d (cringOf d.d0) (rNum w) stOk 0 0) ∧
      (∃ r, regionAt t (rNum w) = some r ∧ r.words = w ∧ r.waiting.isSome = awaitsStack s w ∧
        (rVault w = true → r.current = rVersion0 w ∧ r.param = param.map (padTo 64) ∧
          r.chunks = initChunks w (if w.getD 6 0 == 0 then [] else init))) ∧
      ∃ e, t.ledger.queue = enqueueChange s e ∧ e.kind = 0x15 ∧ e.target = BitVec.ofNat 64 (rNum w) := by
  refine leads_accepted hadm (exec_regionOpen words hw hparam) rfl rfl fun u t hu ht => ?_
  rw [if_neg (by simp [regionOk_ringStep hu, hok])] at ht
  have hend := (regionOpened_ringStep u (acceptNow s ring.toNat d.d0 (rNum w)) w init param).trans ht
  obtain ⟨hmem, hat, hledger⟩ := regionFilled_holds u (acceptNow s ring.toNat d.d0 (rNum w)) w init param
  refine ⟨onlyChanges_between hu hend (regionFilled_moves ..) rfl, ?_, fun hgoes => ht.answered ?_, ?_, ?_⟩
  · rw [hend.hbm, hmem, hu.hbm]
  · rw [regionOpened, awaitsStack_ringStep hu, hgoes]
    exact answered_completeTo _ [] []
  · refine ⟨_, (hend.regionAt _).trans hat, rfl, ?_, fun hv => ?_⟩
    · rw [openedRegion, awaitsStack_ringStep hu]
      cases awaitsStack s w <;> rfl
    · simp only [openedRegion, hv, if_true, and_self]
  · obtain ⟨e, hq, hkind, -, -, htarget, -⟩ := record_enqueues u oHost (acceptNow s ring.toNat d.d0 (rNum w)).ring 0x15 false (rNum w) []
      (sha512Bytes (bytesOf w))
    refine ⟨e, ?_, hkind, htarget⟩
    rw [hend.ledger, hledger, hq, enqueueChange, recentOf, hu.ledger, hu.now, ← recentOf, ← enqueueChange]

end Open

section Close

variable {s : State} {ring : BitVec 6} {d : Desc} {r : Region}

/-- Something still uses the region or writes to it. -/
def regionUsed (s : State) (n : Nat) (r : Region) : Bool :=
  (boundTill s n).isSome || r.transfers != 0 || r.gathers != 0 || r.waiting.isSome || s.hbm.writing.any fun j => j.region == n

/-- A region that nothing uses goes. -/
def regionClosed (s : State) (a : Accept) (n : Nat) (r : Region) : State :=
  dropRegion (record s oHost a.ring 0x15 false n (sha512Bytes (bytesOf r.words)) []) n

theorem regionClosed_moves (s : State) (a : Accept) (n : Nat) (r : Region) :
    Moves [.host, .mem, .hbm, .ledger, .fresh] s (regionClosed s a n r) := dropRegion_moves (record_moves (.refl _ s) rfl) rfl

/-- What REGION_CLOSE of a region comes to. -/
def closeResult (s : State) (a : Accept) (n : Nat) (r : Region) : State :=
  if regionUsed s n r then complete s a stRefused else complete (regionClosed s a n r) a stOk

theorem leads_regionClose {P : State → Prop} (hr : regionAt s (objOf d) = some r)
    (hadm : admitted s ring d 0x29 (cringOf d.d0) (some (regJob r.words)))
    (hP : ∀ u t, RingStep s u → RingStep (closeResult u (acceptNow s ring.toNat d.d0 (objOf d)) (objOf d) r) t → P t) :
    leads (.regionClose ring d) s P := by
  refine leads_accepted hadm (cring' := cringOf d.d0) (obj := objOf d) (body := fun a s => match regionAt s (objOf d) with
    | none => complete s a stRefused
    | some r => closeResult s a (objOf d) r) (job' := (regionAt s (objOf d)).map fun r => regJob r.words) rfl (by rw [hr]; rfl) rfl
    fun u t hu ht => hP u t hu ?_
  simpa only [hu.regionAt, hr] using ht

theorem regionUsed_ringStep {u : State} (h : RingStep s u) (n : Nat) (r : Region) : regionUsed u n r = regionUsed s n r := by
  obtain ⟨host, fresh, rfl⟩ := h.exists_eq
  rfl

theorem leads_regionClose_closes (hr : regionAt s (objOf d) = some r)
    (hadm : admitted s ring d 0x29 (cringOf d.d0) (some (regJob r.words))) (hfree : regionUsed s (objOf d) r = false) :
    leads (.regionClose ring d) s fun t => onlyChanges [.host, .mem, .hbm, .ledger, .fresh] s t ∧
      answered s t ring d (cringOf d.d0) (objOf d) stOk 0 0 ∧ regionAt t (objOf d) = none ∧
      t.hbm.mem = s.hbm.mem.filter (fun e => e.1 / 2 ^ 39 != objOf d) ∧
      ∃ e, t.ledger.queue = enqueueChange s e ∧ e.kind = 0x15 ∧ e.target = BitVec.ofNat 64 (objOf d) := by
  refine leads_regionClose hr hadm fun u t hu ht => ?_
  rw [closeResult, regionUsed_ringStep hu, hfree, if_neg Bool.false_ne_true] at ht
  have hend := (complete_ringStep ..).trans ht
  refine ⟨onlyChanges_between hu hend (regionClosed_moves ..) rfl, ht.answered (answered_completeTo _ [] []), ?_, ?_, ?_⟩
  · rw [hend.regionAt]
    exact ofind_odel_same ..
  · rw [hend.hbm, ← hu.hbm]
    rfl
  · obtain ⟨e, hq, hkind, -, -, htarget, -⟩ := record_enqueues u oHost (acceptNow s ring.toNat d.d0 (objOf d)).ring 0x15 false (objOf d)
      (sha512Bytes (bytesOf r.words)) []
    refine ⟨e, ?_, hkind, htarget⟩
    rw [hend.ledger]
    refine hq.trans ?_
    rw [enqueueChange, recentOf, hu.ledger, hu.now, ← recentOf, ← enqueueChange]

theorem leads_regionClose_refuses (hr : regionAt s (objOf d) = some r)
    (hadm : admitted s ring d 0x29 (cringOf d.d0) (some (regJob r.words))) (hused : regionUsed s (objOf d) r = true) :
    leads (.regionClose ring d) s fun t => onlyChanges [.host, .fresh] s t ∧
      answered s t ring d (cringOf d.d0) (objOf d) stRefused 0 0 := by
  refine leads_regionClose hr hadm fun u t hu ht => ?_
  rw [closeResult, regionUsed_ringStep hu, hused, if_pos rfl] at ht
  exact ⟨onlyChanges_between hu ht (complete_ringStep ..).moves rfl, ht.answered (answered_completeTo _ [] [])⟩

theorem regionUsed_iff (n : Nat) : regionUsed s n r = true ↔ (boundTill s n).isSome = true ∨ r.transfers ≠ 0 ∨ r.gathers ≠ 0 ∨
    r.waiting.isSome = true ∨ ∃ j ∈ s.hbm.writing, j.region = n := by
  simp [regionUsed, or_assoc]

theorem not_regionUsed (n : Nat) (hbound : boundTill s n = none) (htransfers : r.transfers = 0) (hgathers : r.gathers = 0)
    (hwaiting : r.waiting = none) (hwriting : ∀ j ∈ s.hbm.writing, j.region ≠ n) : regionUsed s n r = false := by
  rw [Bool.eq_false_iff, Ne, regionUsed_iff, hbound, hwaiting]
  rintro (h | h | h | h | ⟨j, hj, hn⟩)
  · exact Bool.false_ne_true h
  · exact h htransfers
  · exact h hgathers
  · exact Bool.false_ne_true h
  · exact hwriting j hj hn

end Close

section Config

variable {s : State} {ring : BitVec 6} {d : Desc}

/-- The staging buffers that MEM_CONFIG asks for. -/
def staged (s : State) (n : Nat) : Pools := { s.pools with staging := n, stagingOn := spread n (readyStacks s) }

/-- The staging buffers are set, and that is recorded. -/
def stagingSet (s : State) (a : Accept) (n : Nat) : State :=
  { recordRaw s oHost a.ring 0x15 0xFFFF s.pools.staging n with pools := staged s n }

theorem stagingSet_moves (s : State) (a : Accept) (n : Nat) : Moves [.host, .pools, .ledger, .fresh] s (stagingSet s a n) := by
  unfold stagingSet
  exact upd_pools (recordRaw_moves (.refl _ s) rfl) rfl

theorem leads_memConfig (hadm : admitted s ring d 0x2B (cringOf d.d0) none) (hgrade : isN s = false) (hnone : s.hbm.regions = [])
    (hunused : s.pools.stagingUsed = 0) :
    leads (.memConfig ring d) s fun t => onlyChanges [.host, .pools, .ledger, .fresh] s t ∧
      answered s t ring d (cringOf d.d0) 0 stOk 0 0 ∧ t.pools = staged s (fld d.d1 15 0) ∧
      ∃ e, t.ledger.queue = enqueueChange s e ∧ e.kind = 0x15 ∧ e.target = 0xFFFF := by
  refine leads_accepted hadm (cring' := cringOf d.d0) (obj := 0) (body := fun a s =>
    if isN s || !s.hbm.regions.isEmpty || s.pools.stagingUsed != 0 then complete s a stRefused
    else complete (stagingSet s a (fld d.d1 15 0)) a stOk) (job' := none) rfl rfl rfl fun u t hu ht => ?_
  have hgradeU : isN u = false := by
    obtain ⟨host, fresh, rfl⟩ := hu.exists_eq
    exact hgrade
  rw [if_neg (by simp [hgradeU, hu.hbm, hnone, hu.pools, hunused])] at ht
  have hend := (complete_ringStep ..).trans ht
  refine ⟨onlyChanges_between hu hend (stagingSet_moves ..) rfl, ht.answered (answered_completeTo _ [] []), ?_, ?_⟩
  · obtain ⟨host, fresh, rfl⟩ := hu.exists_eq
    exact hend.pools
  · obtain ⟨e, hq, hkind, -, -, htarget, -⟩ := recordRaw_entry u oHost (acceptNow s ring.toNat d.d0 0).ring 0x15 0xFFFF u.pools.staging
      (fld d.d1 15 0)
    refine ⟨e, ?_, hkind, htarget⟩
    rw [hend.ledger]
    refine hq.trans ?_
    rw [enqueueChange, recentOf, hu.ledger, hu.now, ← recentOf, ← enqueueChange]

end Config

/-- Settles O50: what each of the three commands on regions makes of the state. -/
theorem regionsOpenAndClose : Obligations.RegionsOpenAndClose := by
  unfold Obligations.RegionsOpenAndClose
  refine fun s ring d => ⟨fun words init param hadm => ⟨leads_regionOpen_refuses rfl hadm, leads_regionOpen_opens rfl hadm⟩,
    fun r hr hadm => ⟨fun hbound htransfers hgathers hwaiting hwriting => ?_, fun hused => ?_⟩, leads_memConfig⟩
  · exact leads_regionClose_closes hr hadm (not_regionUsed _ hbound htransfers hgathers hwaiting hwriting)
  · exact leads_regionClose_refuses hr hadm ((regionUsed_iff _).2 hused)

end Sys2Proof.Proofs

/-! PROOFS. What the statements on memory frames and on tills leave out: responses whose bytes still cross the bridge (05 R135; 01 R14), and
the tiles of a waiter's own chunks (03 R87; 12 R338). -/

namespace Sys2Proof.Proofs

open Sys2Proof.Machine Sys2Proof.Safety Sys2Proof.Laws

/-! ### A response that crosses the bridge -/

/-- A MEM_RSP without payload under tag 0. -/
def plainResponse : Frame := mkFrame { headerOf 0 with type := 8 } []

/-- A copy to another X7 that awaits two responses. -/
def pendingXfer : Xfer where
  by_ := { ring := 0, d0 := 0, tick := 0, ofs := 0, obj := 0 }
  hostAddr := 0
  toHost := false
  left := 2
  status := stOk
  data := []

/-- The request that the response answers. -/
def pendingRequest : MemReq where
  frame := plainResponse
  sentAt := 0
  again := false
  for_ := .xfer 0
  place := 0

/-- The response has been received, and its bytes still cross to the die that waits for them. -/
def responseCrosses : State :=
  { State.reset with
    intake := [{ frame := plainResponse, port := 0, arrival := 0 }]
    hbm := { State.reset.hbm with reqs := [(0, pendingRequest)], xfers := [(0, pendingXfer)] }
    bridge := { State.reset.bridge with
      crossings := [{ what := .input 0 0, die := 1, cls := 4, source := 0, rate := 32, left := 32, start := 0 }] } }

theorem plainResponse_good : goodFrame plainResponse 8 = true ∧ (headerOf plainResponse.hdr).seq = 0 := by decide +kernel

theorem responseCrosses_waits : stillCrosses responseCrosses plainResponse = true := by decide +kernel

/-- Until its bytes have crossed, a response is not taken. -/
theorem memRspReceive_waits : exec (.memRspReceive plainResponse) responseCrosses = .next responseCrosses :=
  congrArg Host.Outcome.next (if_pos (by rw [responseCrosses_waits, Bool.or_true]))

/-- So the request it answers goes on. -/
theorem memRspReceive_keeps : ¬ leads (.memRspReceive plainResponse) responseCrosses fun t => ofind t.hbm.reqs 0 = none := by
  rintro ⟨t, ht, hgone⟩
  rw [memRspReceive_waits] at ht
  cases ht
  exact nomatch hgone

/-- Refutes O52: the clause on a response does not ask that its bytes have crossed the bridge; one whose bytes still cross leaves the request. -/
theorem not_memoryFramesAreAnswered : ¬ Obligations.MemoryFramesAreAnswered := by
  unfold Obligations.MemoryFramesAreAnswered
  rintro ⟨-, hrequests⟩
  obtain ⟨hgood, hseq⟩ := plainResponse_good
  obtain ⟨hends, -⟩ := hrequests responseCrosses 0 pendingRequest rfl
  obtain ⟨hmore, -⟩ := hends (.memRspReceive plainResponse) _ _ pendingXfer 0 rfl rfl rfl rfl (.inl ⟨plainResponse, rfl, hgood, hseq, rfl, rfl⟩)
  obtain ⟨t, ht, -, hgone, -⟩ := hmore (Nat.le_refl 2)
  exact memRspReceive_keeps ⟨t, ht, hgone⟩

/-- Refutes O8: its clause on MEM_RSP does not ask that the bytes of the response have crossed the bridge either. -/
theorem not_fabricEventsComplete : ¬ Obligations.FabricEventsComplete := by
  unfold Obligations.FabricEventsComplete
  rintro ⟨-, -, -, hrequests, -⟩
  obtain ⟨hgood, hseq⟩ := plainResponse_good
  obtain ⟨hends, -⟩ := hrequests responseCrosses 0 pendingRequest rfl
  obtain ⟨t, ht, hgone, -⟩ := hends plainResponse pendingXfer 0 rfl rfl rfl rfl (Nat.le_refl 2) hgood hseq
  exact memRspReceive_keeps ⟨t, ht, hgone⟩

/-! ### A waiter's chunks -/

/-- Refutes O7: its clause on a waiter that is granted its slabs asks, as that of O39, for the tiles of the descriptor's chunks, where the till
may list more chunks; one of an unavailable tile has the till refused. -/
theorem not_tillEventsComplete : ¬ Obligations.TillEventsComplete := by
  unfold Obligations.TillEventsComplete
  rintro ⟨-, -, htills, -⟩
  obtain ⟨hbefore, hgrant, hself, hvault, hchunks⟩ := tileLost_waits
  obtain ⟨-, -, -, -, hwaiter, -⟩ := htills tileLost 0 waiterOfOneChunk 0 rfl
  obtain ⟨t, ht, y, hy, -⟩ := hwaiter rfl hbefore hgrant
    (fun m y hm hy => by rw [tillAt_tileLost hm, hself] at hy; exact nomatch hy) (fun h => by rw [hvault] at h; exact nomatch h)
    (fun k hk => absurd hk (by rw [hchunks]; exact Nat.not_lt_zero k))
  have hgone := admissionGrant_tileLost
  rw [ht, freesTill, show tillAt t 0 = some y from hy] at hgone
  exact nomatch hgone

end Sys2Proof.Proofs

/-! PROOFS. A copy into a region of the east die crosses the bridge (05 R134; 01 R14). -/

namespace Sys2Proof.Proofs

open Sys2Proof.Machine Sys2Proof.Safety Sys2Proof.Laws

/-- MEM_COPY of 32 bytes from the host to the first bytes of region 0. -/
def copyIn : Desc := ⟨0x2A00000000000000, 0, 0x6000, 0, 32, 0, 0, 0⟩

/-- A plain region of one page on stack H1, which is on the east die. -/
def eastRegion : Region := { words := [0x4000000000, 0x200000] }

/-- The copy is at the head of an enabled ring, and every stack has finished its training. -/
def copyWaits : State :=
  { State.reset with
    host := { State.reset.host with cmd := [(0, { ctl := 0xC0000006, pi := 1, slots := [.got copyIn] })], cpl := [(0, { ctl := 0x80000006 })] }
    hbm := { State.reset.hbm with regions := [(0, eastRegion)], stackOf := List.replicate 4 { trained := true } } }

/-- Crossings under way in the next state. -/
def crossingsOf : Res → Nat
  | .next t => t.bridge.crossings.length
  | _ => 0

/-- The bytes of the copy cross from the host interface, which is on the west die. -/
theorem memCopy_crosses : crossingsOf (exec (.memCopy 0 copyIn [] .first) copyWaits) = 1 := by decide +kernel

theorem copyWaits_admitted : admitted copyWaits 0 copyIn 0x2A (cringOf copyIn.d0) (some (fld copyIn.d4 39 32)) := by decide +kernel

/-- An access of the copy. -/
def copyAccess (p : Nat × Nat) : Access where
  region := baRegion copyIn.d3.toNat
  off := baOff copyIn.d3.toNat + p.1
  len := p.2
  job := fld copyIn.d4 39 32
  write := !bit copyIn.d1.toNat 0
  release := false
  version := 0

theorem copyWaits_allows : boardOk copyWaits copyIn.d3.toNat = true ∧ fld copyIn.d4 31 0 = 32 ∧
    ∀ p ∈ pieces (fld copyIn.d4 31 0), localStatus copyWaits (copyAccess p) = msOk := by decide +kernel

/-- Refutes O51: its clause on a copy into this X7's memory leaves out the bridge, over which the bytes for a stack of the east die go. -/
theorem not_memoryIsCopied : ¬ Obligations.MemoryIsCopied := by
  unfold Obligations.MemoryIsCopied
  intro h
  obtain ⟨hcopy, -⟩ := h copyWaits 0 copyIn
  obtain ⟨-, -, -, hlocal⟩ := hcopy copyWaits_admitted [] .first
  obtain ⟨hboard, hlen, hstatus⟩ := copyWaits_allows
  obtain ⟨hin, -⟩ := hlocal (by rw [hlen]; decide) (by rw [hlen]) rfl hboard rfl hstatus
  obtain ⟨t, ht, honly, -⟩ := hin rfl
  have hcross := memCopy_crosses
  rw [ht, crossingsOf, honly .bridge (by decide)] at hcross
  exact nomatch hcross

end Sys2Proof.Proofs

/-! PROOFS. Versions, parameter blocks, training and refresh (05 R132, R143, R153, R155). -/

namespace Sys2Proof.Proofs

open Sys2Proof.Machine Sys2Proof.Safety Sys2Proof.Laws

theorem regionAt_of_moves {l : List Area} {s t : State} (h : Moves l s t) (hmem : Area.mem ∉ l) (hrest : Area.hbm ∉ l) (n : Nat) :
    regionAt t n = regionAt s n := by
  rw [regionAt, hbm_eq_of_moves h hmem hrest, ← regionAt]

section Versions

variable {s : State} {region : BitVec 12} {r : Region}

/-- The previous version is held past its limit, and no release of it waits. -/
structure HeldTooLong (s : State) (n : Nat) (r : Region) : Prop where
  vault : rVault r.words = true
  held : r.prevHeld = true
  limited : rHoldLimit r.words ≠ 0
  since : r.prevAt + rHoldLimit r.words * 65536 ≤ s.now
  quiet : releaseWaits s n r = false

/-- The event of a version that is reclaimed. -/
def reclaimed (s : State) (n : Nat) (r : Region) : State :=
  postEvent (setRegion s n { r with prevHeld := false }) srcRegion 0x01 (regJob r.words) n (r.current - 1).toNat r.relPrev.length

theorem exec_versionReclaim (hr : regionAt s region.toNat = some r) (h : HeldTooLong s region.toNat r) :
    exec (.versionReclaim region) s = .next (toss (reclaimed s region.toNat r) (regJob r.words) 3) := by
  have hover := h.since
  change Host.Outcome.next (match regionAt s region.toNat with | none => s | some r => _) = _
  rw [hr]
  dsimp only
  rw [if_neg (by simp [h.vault, h.held, h.limited, h.quiet, hover])]
  exact rfl

theorem leads_versionReclaim (hr : regionAt s region.toNat = some r) (h : HeldTooLong s region.toNat r) :
    leads (.versionReclaim region) s fun t => onlyChanges [.host, .stats, .hbm, .toss, .fresh] s t ∧
      regionAt t region.toNat = some { r with prevHeld := false } ∧
      sget 0 t.toss (regJob r.words * 4 + 3) = satAdd Config.sat48 (sget 0 s.toss (regJob r.words * 4 + 3)) 1 := by
  refine leads_moves (exec_versionReclaim hr h) execVersionReclaim_moves ⟨?_, ?_⟩
  · have hposted : Moves [.host, .stats, .toss, .fresh] (setRegion s region.toNat { r with prevHeld := false })
        (toss (reclaimed s region.toNat r) (regJob r.words) 3) := toss_moves (postEvent_moves (.refl _ _) rfl) rfl
    rw [regionAt_of_moves hposted (by decide) (by decide), regionAt_setRegion_same]
  · have hposted : Moves [.host, .stats, .hbm, .fresh] s (reclaimed s region.toNat r) := postEvent_moves (setRegion_moves (.refl _ s) rfl) rfl
    rw [toss, hposted.only .toss (by decide)]
    exact sget_sbump (by decide) ..

/-- The parameter block has been read. -/
def paramRead (r : Region) (b : List Byte) : Region :=
  { r with param := some (padTo 64 b), paramTries := 0, paramFrom := paramAddr r.words (r.current + 1) }

/-- The parameter block could not be read. -/
def paramMissed (s : State) (r : Region) : Region :=
  { r with paramTries := r.paramTries + 1, paramAt := s.now, paramFrom := paramAddr r.words (r.current + 1) }

/-- The failed read is told. -/
def missTold (s : State) (n : Nat) (r : Region) : State := setCause (setRegion s n (paramMissed s r)) srcHost hbDmaRead 0

/-- After the sixteenth failure that is told as well. -/
def missesTold (s : State) (n : Nat) (r : Region) : State :=
  if r.paramTries = 16 then setCause (missTold s n r) srcHost hbParam n (regJob r.words) (r.current + 1).toNat else missTold s n r

theorem leads_paramBlock_read (hr : regionAt s region.toNat = some r) (hdue : paramDue s r = true) (b : List Byte) :
    leads (.paramBlockRead region (some b)) s fun t => onlyChanges [.hbm] s t ∧ regionAt t region.toNat = some (paramRead r b) := by
  have hexec : exec (.paramBlockRead region (some b)) s = .next (setRegion s region.toNat (paramRead r b)) := by
    change Host.Outcome.next (match regionAt s region.toNat with | none => s | some r => _) = _
    rw [hr]
    dsimp only
    rw [if_neg (by simp [hdue])]
    rfl
  exact ⟨_, hexec, (setRegion_moves (.refl _ s) rfl).only, regionAt_setRegion_same ..⟩

theorem missTold_missesTold (s : State) (n : Nat) (r : Region) : EventStep (missTold s n r) (missesTold s n r) := by
  unfold missesTold
  split
  · exact setCause_eventStep ..
  · exact .refl _

theorem leads_paramBlock_missed (hr : regionAt s region.toNat = some r) (hdue : paramDue s r = true) :
    leads (.paramBlockRead region none) s fun t => onlyChanges [.host, .stats, .hbm, .fresh] s t ∧
      regionAt t region.toNat = some (paramMissed s r) ∧ bit (statAt t srcHost).status.toNat hbDmaRead = true ∧
      (r.paramTries = 16 → bit (statAt t srcHost).status.toNat hbParam = true) := by
  have hexec : exec (.paramBlockRead region none) s = .next (missesTold s region.toNat r) := by
    change Host.Outcome.next (match regionAt s region.toNat with | none => s | some r => _) = _
    rw [hr]
    dsimp only
    rw [if_neg (by simp [hdue])]
    rfl
  refine leads_moves hexec (execParamBlockRead_moves (block := none)) ⟨?_, ?_, fun hlast => ?_⟩
  · have htold : EventStep (setRegion s region.toNat (paramMissed s r)) (missesTold s region.toNat r) :=
      (setCause_eventStep _ _ _ _ _ _ _ _).trans (missTold_missesTold ..)
    rw [regionAt_of_moves htold.moves (by decide) (by decide), regionAt_setRegion_same]
  · exact (missTold_missesTold s region.toNat r).bits _ _ (bit_statAt_setCause (by decide))
  · rw [missesTold, if_pos hlast]
    exact bit_statAt_setCause (by decide)

end Versions

section Stacks

variable {s : State} {stack : BitVec 2} {st : Stack}

theorem stackOf_getD {k : Nat} (h : s.hbm.stackOf[k]? = some st) : s.hbm.stackOf.getD k {} = st := by
  rw [List.getD_eq_getElem?_getD, h, Option.getD_some]

theorem stackOf_setStack {k : Nat} (h : s.hbm.stackOf[k]? = some st) (v : Stack) : (setStack s k v).hbm.stackOf[k]? = some v := by
  obtain ⟨hlt, -⟩ := List.getElem?_eq_some_iff.1 h
  exact List.getElem?_set_self hlt

/-- Regions that wait for stacks settle without a change of them. -/
theorem settleWaiting_stacks (s : State) (n : Nat) : (settleWaiting s n).hbm.stackOf = s.hbm.stackOf := by
  unfold settleWaiting
  split
  · rfl
  · split
    · rfl
    · split
      · rw [(complete_ringStep ..).hbm]
        rfl
      · split
        · rfl
        · rw [(complete_ringStep ..).hbm]
          rfl

theorem foldl_settleWaiting (l : List Nat) (s : State) :
    (l.foldl settleWaiting s).hbm.stackOf = s.hbm.stackOf ∧ (l.foldl settleWaiting s).boot = s.boot := by
  have hmoves : Moves [.host, .mem, .hbm] s (l.foldl settleWaiting s) :=
    foldl_moves (.refl _ s) fun _ _ h => settleWaiting_moves h rfl
  exact ⟨foldl_same (g := fun s => s.hbm.stackOf) settleWaiting_stacks l s, hmoves.only .boot (by decide)⟩

/-- A stack after its training. -/
def trainedStack (s : State) (st : Stack) (ok : Bool) : Stack :=
  { st with training := false, trained := ok, failed := !ok, refreshAt := s.now }

/-- The stack is trained and READY, or its failure noted. -/
def trainingTold (s : State) (k : Nat) (st : Stack) (ok : Bool) : State :=
  let t := setStack s k (trainedStack s st ok)
  if ok then { t with boot := { t.boot with ready := t.boot.ready ||| BitVec.ofNat 32 (2 ^ (24 + k)) } } else noteState t (srcHbm k) hbTrain 0

theorem exec_hbmTrainingDone (hst : s.hbm.stackOf[stack.toNat]? = some st) (hhas : hasStack s stack.toNat = true) (htrains : st.training = true)
    (ok : Bool) : exec (.hbmTrainingDone stack ok) s =
      .next (((trainingTold s stack.toNat st ok).hbm.regions.map (·.1)).foldl settleWaiting (trainingTold s stack.toNat st ok)) := by
  refine congrArg Host.Outcome.next ((if_neg ?_).trans ?_)
  · rw [stackOf_getD hst]
    simp [hhas, htrains]
  · rw [stackOf_getD hst]
    rfl

theorem stackOf_trainingTold (hst : s.hbm.stackOf[stack.toNat]? = some st) (ok : Bool) :
    (trainingTold s stack.toNat st ok).hbm.stackOf[stack.toNat]? = some (trainedStack s st ok) := by
  unfold trainingTold
  cases ok
  · rw [if_neg Bool.false_ne_true, hbm_eq_of_moves (noteState_eventStep _ _ _ _).moves (by decide) (by decide)]
    exact stackOf_setStack hst _
  · exact stackOf_setStack hst _

theorem leads_hbmTrainingDone (hst : s.hbm.stackOf[stack.toNat]? = some st) (hhas : hasStack s stack.toNat = true) (htrains : st.training = true)
    (ok : Bool) : leads (.hbmTrainingDone stack ok) s fun t => onlyChanges [.boot, .host, .stats, .mem, .hbm, .fresh] s t ∧
      t.hbm.stackOf[stack.toNat]? = some (trainedStack s st ok) ∧ (ok = true → bit t.boot.ready.toNat (24 + stack.toNat) = true) := by
  refine leads_moves (exec_hbmTrainingDone hst hhas htrains ok) execHbmTrainingDone_moves ?_
  obtain ⟨hstacks, hboot⟩ := foldl_settleWaiting ((trainingTold s stack.toNat st ok).hbm.regions.map (·.1)) (trainingTold s stack.toNat st ok)
  rw [hstacks, hboot]
  refine ⟨stackOf_trainingTold hst ok, fun hok => ?_⟩
  subst hok
  exact bit_or_twoPow _ (by omega)

/-- The stack after a refresh. -/
def refreshIssued (s : State) (st : Stack) : Stack :=
  { st with owed := st.owed + ((s.now - st.refreshAt) / refreshEvery st : Nat) - 1,
            refreshAt := st.refreshAt + (s.now - st.refreshAt) / refreshEvery st * refreshEvery st }

theorem leads_hbmRefresh (hst : s.hbm.stackOf[stack.toNat]? = some st) (htrained : st.trained = true)
    (hquiet : inQuiet s stack.toNat = false) (howed : st.owed + ((s.now - st.refreshAt) / refreshEvery st : Nat) - 1 ≥ -8) :
    leads (.hbmRefresh stack) s fun t => onlyChanges [.hbm] s t ∧ t.hbm.stackOf[stack.toNat]? = some (refreshIssued s st) := by
  have hexec : exec (.hbmRefresh stack) s = .next (setStack s stack.toNat (refreshIssued s st)) := by
    refine congrArg Host.Outcome.next ((if_neg ?_).trans ?_)
    · rw [stackOf_getD hst]
      have hpulled : ¬ st.owed + ((s.now - st.refreshAt) / refreshEvery st : Nat) - 1 < -8 := not_lt.2 howed
      simp only [htrained, hquiet, refreshOwed, hpulled, decide_false, Bool.not_true, Bool.or_false, Bool.false_eq_true, not_false_eq_true]
    · rw [stackOf_getD hst]
      rfl
  exact ⟨_, hexec, (setStack_moves (.refl _ s) rfl).only, stackOf_setStack hst _⟩

end Stacks

/-- Settles O53: what becomes of a version held too long, of a parameter block, of a stack's training and of its refreshes. -/
theorem versionsAndStacksProceed : Obligations.VersionsAndStacksProceed := by
  unfold Obligations.VersionsAndStacksProceed
  refine ⟨fun s region r hr => ⟨fun hvault hheld hlimit hover hquiet => leads_versionReclaim hr ⟨hvault, hheld, hlimit, hover, hquiet⟩,
    fun hdue => ⟨leads_paramBlock_read hr hdue, leads_paramBlock_missed hr hdue⟩⟩, fun s stack st hst => ⟨fun ok hhas htrains =>
      leads_hbmTrainingDone hst hhas htrains ok, leads_hbmRefresh hst⟩⟩

end Sys2Proof.Proofs

/-! PROOFS. The bridge's bytes and failures that stand (01 R14; 12 R335-R337). -/

namespace Sys2Proof.Proofs

open Sys2Proof.Machine Sys2Proof.Safety Sys2Proof.Laws

/-! ### Bytes over the bridge (01 R14) -/

section Bytes

theorem sumNat_eq (l : List Nat) : sumNat l = l.sum := by
  rw [sumNat, List.sum_eq_foldl]

theorem sum_serve_le (n : Nat) (l : List Crossing) : ((serve n l).map (·.2)).sum ≤ n := by
  induction l generalizing n with
  | nil => exact Nat.zero_le n
  | cons x l ih =>
    have hrest := ih (n - min n (min x.rate x.left))
    simp only [serve, List.map_cons, List.sum_cons]
    omega

theorem mem_serve {n : Nat} {l : List Crossing} {y : Crossing × Nat} (h : y ∈ serve n l) : y.1 ∈ l := by
  induction l generalizing n with
  | nil => simp [serve] at h
  | cons x l ih =>
    rcases List.mem_cons.1 h with rfl | h
    · exact List.mem_cons_self ..
    · exact List.mem_cons_of_mem _ (ih h)

theorem cls_of_inTurn {s : State} {die c : Nat} {x : Crossing} (h : x ∈ inTurn s die c) : x.cls = c := by
  obtain ⟨src, -, hx⟩ := List.mem_flatMap.1 h
  have hcls := (List.mem_filter.1 hx).2
  simp only [Bool.and_eq_true, beq_iff_eq] at hcls
  exact hcls.1

/-- What TC7 is granted. -/
def grantedSeven (s : State) (die : Nat) : List (Crossing × Nat) := serve Config.bridgeBytes (inTurn s die 7)

/-- What the other classes are granted. -/
def grantedOthers (s : State) (die : Nat) : List (Crossing × Nat) :=
  serve (min (Config.bridgeBytes - Config.bridgeExpress) (Config.bridgeBytes - sumNat ((grantedSeven s die).map (·.2))))
    ([6, 5, 4, 3, 2, 1, 0].flatMap (inTurn s die))

theorem granted_eq (s : State) (die : Nat) : granted s die = grantedSeven s die ++ grantedOthers s die := rfl

theorem granted_le (s : State) (die : Nat) : sumNat ((granted s die).map (·.2)) ≤ 12288 := by
  have hseven : ((grantedSeven s die).map (·.2)).sum ≤ 12288 := sum_serve_le _ _
  have hothers : ((grantedOthers s die).map (·.2)).sum ≤ 12288 - ((grantedSeven s die).map (·.2)).sum :=
    (sum_serve_le _ _).trans (sumNat_eq _ ▸ Nat.min_le_right _ _)
  rw [sumNat_eq, granted_eq, List.map_append, List.sum_append]
  omega

theorem granted_others_le (s : State) (die : Nat) : sumNat (((granted s die).filter fun x => x.1.cls != 7).map (·.2)) ≤ 11264 := by
  have hseven : (grantedSeven s die).filter (fun x => x.1.cls != 7) = [] := by
    refine List.filter_eq_nil_iff.2 fun x hx => ?_
    simp [cls_of_inTurn (mem_serve hx)]
  rw [sumNat_eq, granted_eq, List.filter_append, hseven, List.nil_append]
  have hsub : (((grantedOthers s die).filter fun x => x.1.cls != 7).map (·.2)).Sublist ((grantedOthers s die).map (·.2)) :=
    List.filter_sublist.map _
  exact hsub.sum_le_sum (fun _ _ => Nat.zero_le _) |>.trans ((sum_serve_le _ _).trans (Nat.min_le_left _ _))

end Bytes

/-! ### Table entries that fail (12 R335) -/

section Entries

variable {s : State} {f : EntryFault}

theorem not_bothFail (h : s.faults.entries = [f]) (tid i : Nat) : bothFail s tid i = false := by
  by_cases hc : f.copy = 0 <;> simp [bothFail, copyFails, h, hc]

theorem not_bothFail_nil (h : s.faults.entries = []) (tid i : Nat) : bothFail s tid i = false := by
  simp [bothFail, copyFails, h]

/-- The cause that the repair of a copy sets. -/
def repairCause (f : EntryFault) : Nat := if f.hard then coreLasting else coreTransient

/-- The failures that stand after the repair of the only one. -/
def repairedEntries (f : EntryFault) : List EntryFault := if f.hard then [{ f with unused := true }] else []

/-- The repair of the only copy that fails. -/
def repaired (s : State) (f : EntryFault) : State :=
  countBlock (setCause { s with faults := { s.faults with entries := repairedEntries f } } (srcCore f.die) (repairCause f)
    (f.tid * 2 ^ 20 + f.idx)) (srcCore f.die) (repairCause f) 1

theorem repairCopy_only (h : s.faults.entries = [f]) : repairCopy s f = repaired s f := by
  unfold repairCopy repaired repairedEntries repairCause
  dsimp only
  rw [if_neg (by simp [not_bothFail h])]
  split
  · rw [h, List.map_singleton, if_pos rfl]
  · rw [h, List.filter_cons_of_neg (by simp), List.filter_nil]

theorem repaired_entries (s : State) (f : EntryFault) : (repaired s f).faults.entries = repairedEntries f := by
  have hmoves : Moves [.host, .stats, .blockCounts, .fresh] { s with faults := { s.faults with entries := repairedEntries f } } (repaired s f) :=
    countBlock_moves (setCause_moves (.refl _ _) rfl) rfl
  exact congrArg Faults.entries (hmoves.only .faults (by decide))

theorem repaired_moves (s : State) (f : EntryFault) : Moves [.host, .stats, .blockCounts, .faults, .fresh] s (repaired s f) :=
  countBlock_moves (setCause_moves (upd_faults (.refl _ s) rfl) rfl) rfl

theorem bit_repaired (s : State) (f : EntryFault) : bit (statAt (repaired s f) (srcCore f.die)).status.toNat (repairCause f) = true := by
  refine bit_statAt_setCause (s := { s with faults := { s.faults with entries := repairedEntries f } }) ?_
  unfold repairCause
  split <;> decide

theorem noteLookup_found {t : State} (h : ∀ g ∈ t.faults.entries, g.found.isSome = true) (e : Nat × Nat) : noteLookup t e = t := by
  unfold noteLookup
  dsimp only
  rw [List.find?_eq_none.2]
  intro g hg
  have hfound := h g hg
  simp [Option.isSome_iff_ne_none.1 hfound]

theorem tableCycle_repairs {c : Nat} (h : s.faults.entries = [f]) (hused : f.unused = false) (hfound : f.found = some c) (hc : c < s.now) :
    tableCycle s = repaired s f := by
  have hentries := repaired_entries s f
  have hnoted : ∀ g ∈ (repaired s f).faults.entries, g.found.isSome = true := by
    rw [hentries]
    unfold repairedEntries
    split <;> simp [hfound]
  have hlen : bothFail (repaired s f) 0x01 0 = false := by
    unfold repairedEntries at hentries
    split at hentries
    · exact not_bothFail hentries ..
    · exact not_bothFail_nil hentries ..
  have hdue : (s.faults.entries.filter fun f => !f.unused && f.found.any fun t => decide (t < s.now)) = [f] := by
    simp [h, hused, hfound, hc]
  unfold tableCycle
  rw [if_neg (by simp [h]), hdue]
  simp only [List.foldl_cons, List.foldl_nil]
  rw [repairCopy_only h, foldl_unchanged (g := fun s (f : EntryFault) => noteLookup s (f.tid, f.idx)) fun _ _ => noteLookup_found hnoted _, settleTickLen, hlen, if_neg Bool.false_ne_true]

theorem setActive_repairs {tid i : Nat} (e : List W64) (h : ∀ f ∈ s.faults.entries, f.tid = tid → f.idx = i → f.hard = false) (c : Nat) :
    copyFails (setActive s tid i e) tid i c = false := by
  have hentries : (setActive s tid i e).faults.entries = s.faults.entries.filter fun f => f.tid != tid || f.idx != i || f.hard := by
    unfold setActive
    dsimp only
    split <;> rfl
  rw [copyFails, hentries, List.any_eq_false]
  intro f hf
  obtain ⟨hf, hkept⟩ := List.mem_filter.1 hf
  have hsoft := h f hf
  simp only [Bool.or_eq_true, bne_iff_ne, Bool.and_eq_true, beq_iff_eq] at hkept ⊢
  rintro ⟨⟨htid, hidx⟩, -⟩
  rw [hsoft htid hidx] at hkept
  simp [htid, hidx] at hkept

theorem inputCheck_table {p : Nat} {h : Header} {e : Nat × Nat} (hlink : linkAllows (portAt s p).link.st (portAt s p).plan h = true)
    (hform : formOk h = true) (hedge : isEdge s p = true → x7Only h.type = false ∧ (h.type ≠ 0xC ∨ h.mc ≠ 0))
    (hinner : isEdge s p = false → isRankAddr h = false) (he : e ∈ needed s p h) (hboth : bothFail s e.1 e.2 = true) :
    inputCheck s p h = .error 0x12 := by
  have hsome : s.faults.entries.isEmpty = false := by
    cases hnil : s.faults.entries with
    | nil => exact nomatch hboth.symm.trans (not_bothFail_nil hnil _ _)
    | cons f l => rfl
  have hany : ((needed s p h).any fun e => bothFail s e.1 e.2) = true := List.any_eq_true.2 ⟨e, he, hboth⟩
  have hrelay : (isEdge s p && h.type == 0xC && h.mc == 0) = false := by
    cases hp : isEdge s p
    · rfl
    · obtain ⟨-, htype | hmc⟩ := hedge hp
      · rw [beq_false_of_ne htype]
        rfl
      · rw [beq_false_of_ne hmc, Bool.and_false]
  have horigin : ((isEdge s p && x7Only h.type) || (!isEdge s p && isRankAddr h)) = false := by
    cases hp : isEdge s p
    · simp [hinner hp]
    · simp [(hedge hp).1]
  unfold inputCheck
  dsimp only
  rw [hlink, hform, hrelay, horigin, hsome, hany]
  rfl

end Entries

/-! ### Cells that fail (12 R336) -/

section Cells

variable {s : State} {b : Held} {c : CellFault}

theorem setCause_pools (s : State) (src b unit job d0 d1 : Nat) (more : Option (Nat × Nat × Nat)) :
    (setCause s src b unit job d0 d1 more).pools = s.pools :=
  (setCause_moves (.refl [.host, .stats, .fresh] s) rfl).only .pools (by decide)

theorem poolFault_pools (s : State) (q unit : Nat) :
    (poolFault s true 0 q unit).pools = { s.pools with fenced := addAt s.pools.fenced 0 1 } := setCause_pools _ _ _ _ _ _ _ _

/-- The cell joins those of its slice that are fenced. -/
def cellFenced (s : State) (b : Held) : State :=
  { s with pools := { s.pools with
      cellsFenced := sput 0 s.pools.cellsFenced b.slice (sget 0 s.pools.cellsFenced b.slice + 1) } }

theorem testCell_hard (hhard : c.hard = true) : sget 0 (testCell s b c).pools.cellsFenced b.slice = sget 0 s.pools.cellsFenced b.slice + 1 ∧
    bit (statAt (testCell s b c) (srcPg b.slice)).status.toNat 10 = true := by
  have heq : testCell s b c = countBlock (setCause (poolFault (cellFenced s b) true 0 (quotaIdx 0 b.job b.cls) 0) (srcPg b.slice) 10 c.cell b.job)
      (srcPg b.slice) 3 1 := if_pos hhard
  rw [heq]
  refine ⟨?_, bit_statAt_setCause (by decide)⟩
  have hpools : (testCell s b c).pools = { (cellFenced s b).pools with fenced := addAt s.pools.fenced 0 1 } := by
    rw [heq]
    exact (setCause_pools _ _ _ _ _ _ _ _).trans (poolFault_pools ..)
  rw [← heq, hpools]
  exact sget_sput_ne (Nat.succ_ne_zero _)

theorem testCell_soft (hsoft : c.hard = false) : (testCell s b c).pools = s.pools ∧
    bit (statAt (testCell s b c) (srcPg b.slice)).status.toNat 9 = true := by
  have heq : testCell s b c = countBlock (setCause s (srcPg b.slice) 9 c.cell b.job) (srcPg b.slice) 2 1 := if_neg (by simp [hsoft])
  rw [heq]
  exact ⟨setCause_pools _ _ _ _ _ _ _ _, bit_statAt_setCause (by decide)⟩

end Cells

/-! ### Flits that cannot be corrected (12 R337) -/

section Flits

variable {s : State} {die port arrival : Nat}

/-- The failure of a flit stands no more. -/
def flitTaken (s : State) (what : CrossOf) : State := { s with faults := { s.faults with flits := s.faults.flits.erase what } }

/-- A flit that failed is told. -/
def flitTold (s : State) (die : Nat) (what : CrossOf) : State :=
  countBlock (setCause (flitTaken s what) (srcCore die) coreUncorr 0) (srcCore die) 2 1

/-- The failures that a die remembers, with one more. -/
def flitsKept (s : State) (die : Nat) : List (Nat × Nat) :=
  (s.bridge.uncorr.filter fun x => decide (s.now < x.2 + 65536)) ++ [(die, s.now)]

/-- The sixteenth within their time. -/
def flitsFull (s : State) (die : Nat) : Bool := decide (((flitsKept s die).filter fun x => x.1 == die).length ≥ 16)

/-- The failure is remembered. -/
def flitKept (s : State) (die : Nat) : State :=
  { s with bridge := { s.bridge with uncorr := if flitsFull s die then (flitsKept s die).filter fun x => x.1 != die else flitsKept s die } }

/-- Sixteen are reported. -/
def flitsTold (s : State) (die : Nat) : State :=
  if flitsFull s die then setCause (flitKept s die) (srcCore die) coreBridge 0 else flitKept s die

/-- The contribution is lost. -/
def inputLost (s : State) (port arrival : Nat) : State :=
  countPort { s with intake := s.intake.filter fun i => !(i.port == port && i.arrival == arrival) } port (rBadTrailer - 1) 1

theorem flitTold_moves (s : State) (die : Nat) (what : CrossOf) :
    Moves [.host, .stats, .blockCounts, .faults, .fresh] s (flitTold s die what) :=
  countBlock_moves (setCause_moves (upd_faults (.refl _ s) rfl) rfl) rfl

theorem flitsTold_moves (s : State) (die : Nat) (what : CrossOf) :
    Moves [.host, .stats, .blockCounts, .faults, .bridge, .fresh] s (flitsTold (flitTold s die what) die) := by
  have hkept : Moves [.host, .stats, .blockCounts, .faults, .bridge, .fresh] s (flitKept (flitTold s die what) die) :=
    upd_bridge (Proofs.widen (flitTold_moves s die what) rfl) rfl
  unfold flitsTold
  split
  · exact setCause_moves hkept rfl
  · exact hkept

theorem flitsFull_told {what : CrossOf} (h : 15 ≤ (s.bridge.uncorr.filter fun x => x.1 == die && decide (s.now < x.2 + 65536)).length) :
    flitsFull (flitTold s die what) die = true := by
  have hmoves := flitTold_moves s die what
  have hkept : flitsKept (flitTold s die what) die = flitsKept s die := by
    rw [flitsKept, hmoves.only .bridge (by decide), hmoves.only .now (by decide), ← flitsKept]
  rw [flitsFull, hkept, flitsKept, List.filter_append, List.filter_filter]
  simpa using h

theorem flitsTold_bits (s : State) (die : Nat) (what : CrossOf) :
    bit (statAt (flitsTold (flitTold s die what) die) (srcCore die)).status.toNat coreUncorr = true ∧
    (15 ≤ (s.bridge.uncorr.filter fun x => x.1 == die && decide (s.now < x.2 + 65536)).length →
      bit (statAt (flitsTold (flitTold s die what) die) (srcCore die)).status.toNat coreBridge = true) := by
  have hone : bit (statAt (flitKept (flitTold s die what) die) (srcCore die)).status.toNat coreUncorr = true := by
    have hstat : statAt (flitKept (flitTold s die what) die) (srcCore die) = statAt (setCause (flitTaken s what) (srcCore die) coreUncorr 0)
      (srcCore die) := rfl
    rw [hstat]
    exact bit_statAt_setCause (by decide)
  unfold flitsTold
  refine ⟨?_, fun hmany => ?_⟩
  · split
    · exact (setCause_eventStep _ _ _ _ _ _ _ _).bits _ _ hone
    · exact hone
  · rw [if_pos (flitsFull_told hmany)]
    exact bit_statAt_setCause (by decide)

theorem uncorrectable_input (hin : ∃ i ∈ s.intake, i.port = port ∧ i.arrival = arrival) :
    uncorrectable s die (.input port arrival) = inputLost (flitsTold (flitTold s die (.input port arrival)) die) port arrival := by
  have htold : (flitsTold (flitTold s die (.input port arrival)) die).intake = s.intake := (flitsTold_moves s die (.input port arrival)).only .intake (by decide)
  obtain ⟨i, hi, hport, harrival⟩ := hin
  have hany : ((flitsTold (flitTold s die (.input port arrival)) die).intake.any fun i => i.port == port && i.arrival == arrival) = true := by
    rw [htold]
    exact List.any_eq_true.2 ⟨i, hi, by simp [hport, harrival]⟩
  exact if_pos hany

theorem leads_flit (hcanon : canon {} s.ports = true) (hin : ∃ i ∈ s.intake, i.port = port ∧ i.arrival = arrival) :
    (uncorrectable s die (.input port arrival)).intake = s.intake.filter (fun i => i.port != port || i.arrival != arrival) ∧
    sget 0 (portAt (uncorrectable s die (.input port arrival)) port).counters (rBadTrailer - 1) =
      satAdd Config.sat32 (sget 0 (portAt s port).counters (rBadTrailer - 1)) 1 ∧
    bit (statAt (uncorrectable s die (.input port arrival)) (srcCore die)).status.toNat coreUncorr = true ∧
    (15 ≤ (s.bridge.uncorr.filter fun x => x.1 == die && decide (s.now < x.2 + 65536)).length →
      bit (statAt (uncorrectable s die (.input port arrival)) (srcCore die)).status.toNat coreBridge = true) := by
  have hmoves := flitsTold_moves s die (.input port arrival)
  have hbits := flitsTold_bits s die (.input port arrival)
  rw [uncorrectable_input hin]
  generalize flitsTold (flitTold s die (.input port arrival)) die = u at hmoves hbits
  have hports : u.ports = s.ports := hmoves.only .ports (by decide)
  have hintake : u.intake = s.intake := hmoves.only .intake (by decide)
  refine ⟨?_, ?_, hbits.1, hbits.2⟩
  · change u.intake.filter _ = _
    rw [hintake]
    exact List.filter_congr fun i _ => by simp only [Bool.not_and, bne]
  · rw [inputLost, countPort, modPort, portAt_setPort _ _ _ _ (by rw [← hports] at hcanon; exact hcanon), if_pos rfl]
    change sget 0 (sbump Config.sat32 (portAt u port).counters (rBadTrailer - 1) 1) (rBadTrailer - 1) = _
    rw [sget_sbump_one, portAt_of_ports hports]

end Flits

/-- Settles O58: the bytes of a cycle, and what each kind of failure that stands brings about. -/
theorem bridgeAndFailuresAct : Obligations.BridgeAndFailuresAct := by
  unfold Obligations.BridgeAndFailuresAct
  refine ⟨fun s die => ⟨granted_le s die, granted_others_le s die⟩, fun s f c _ hentries hused hfound hc => ?_,
    fun s p h e hlink hform hedge hinner he hboth => inputCheck_table hlink hform hedge hinner he hboth,
    fun s tid i e hsoft c => setActive_repairs e hsoft c, fun s b c _ => ⟨testCell_hard, testCell_soft⟩,
    fun s die port arrival hmaps hin => leads_flit hmaps.1 hin⟩
  dsimp only
  rw [tableCycle_repairs hentries hused hfound hc]
  have hbit := bit_repaired s f
  refine ⟨(repaired_moves s f).only, fun hsoft => ⟨?_, ?_⟩, fun hhard => ⟨?_, ?_⟩⟩
  · rw [repaired_entries, repairedEntries, hsoft, if_neg Bool.false_ne_true]
  · rwa [repairCause, hsoft, if_neg Bool.false_ne_true] at hbit
  · rw [repaired_entries, repairedEntries, hhard, if_pos rfl]
  · rwa [repairCause, hhard, if_pos rfl] at hbit

end Sys2Proof.Proofs

/-! PROOFS. Commands and events of the host interface, registers and debug (O10). What each does besides stands in the statement of its
family, from which its own effect follows. -/

namespace Sys2Proof.Proofs
open Sys2Proof.Machine Sys2Proof.Safety Sys2Proof.Laws

theorem leads_imp {c : Instr} {s : State} {P Q : State → Prop} (h : leads c s P) (hpq : ∀ t, P t → Q t) : leads c s Q := by
  obtain ⟨t, ht, hp⟩ := h
  exact ⟨t, ht, hpq t hp⟩

/-! ### The CXL link stays as it is over what a reset ends -/

theorem cxlUp_poolFault (s : State) (hold : Bool) (pool place cell : Nat) : (poolFault s hold pool place cell).host.cxlUp = s.host.cxlUp := by
  unfold poolFault
  dsimp only
  rw [(setCause_eventStep _ _ _ _ _ _ _ _).cxlUp]
  split <;> rfl

theorem cxlUp_giveStaging (s : State) (q k : Nat) : (giveStaging s q k).host.cxlUp = s.host.cxlUp := by
  have hfold (l : List (Nat × Nat)) (s : State) :
      (l.foldl (fun s x => poolFault s false 2 q x.2) s).host.cxlUp = s.host.cxlUp :=
    foldl_same (g := fun s => s.host.cxlUp) (fun s x => cxlUp_poolFault s _ _ _ _) l s
  have hlost : (giveLost s 2 0 q k).1.host.cxlUp = s.host.cxlUp := by
    unfold giveLost
    dsimp only
    split
    · rfl
    · rw [hfold]
  exact hlost

theorem cxlUp_saveFailed (s : State) (n : Nat) : (saveFailed s n).host.cxlUp = s.host.cxlUp := by
  unfold saveFailed
  cases hn : tillAt s n with
  | none => rfl
  | some v =>
    dsimp only
    cases v.by_ with
    | none => exact cxlUp_giveStaging _ _ _
    | some a => exact (complete_ringStep ..).side.cxlUp.trans (cxlUp_giveStaging _ _ _)

theorem cxlUp_hostReset (s : State) (k : Nat) : (hostReset s k).host.cxlUp = s.host.cxlUp := by
  rw [hostReset, hostOff]
  exact foldl_same (g := fun s => s.host.cxlUp) cxlUp_saveFailed _ _

theorem leads_cxlLinkLoss_down {s : State} (hup : s.host.cxlUp = true) : leads .cxlLinkLoss s fun t => t.host.cxlUp = false :=
  ⟨_, exec_cxlLinkLoss hup, (noteState_eventStep _ _ _ _).cxlUp.trans (cxlUp_hostReset _ _)⟩

/-! ### Each family's statement has the effect of its commands -/

theorem leads_snoops {s : State} {line : BitVec 58} {k : Nat} {w : Watch} (hw : watchOfLine s line = some (k, w)) :
    leads (.snoopInvalidate line) s (fun t => t.host.snoopRsp = s.host.snoopRsp ++ [if w.held then 1 else 0]) ∧
    leads (.snoopData line) s (fun t => t.host.snoopRsp = s.host.snoopRsp ++ [if w.held then 2 else 0]) := by
  obtain ⟨hinv, hdata⟩ := (doorbellsAct.1 s line).2 k w hw
  refine ⟨leads_imp hinv fun t ⟨_, hrsp, _⟩ => hrsp, leads_imp hdata fun t ht => ?_⟩
  rw [ht]
  rfl

theorem leads_hostReset_records {s : State} {c : Instr} {k : Nat}
    (hc : (c, k) ∈ [(Instr.functionLevelReset, 0), (Instr.conventionalReset, 1)] ∨ (c = .cxlLinkLoss ∧ k = 2 ∧ s.host.cxlUp = true)) :
    leads c s fun t => (∀ n, ringEn (cmdRing t n).ctl = false) ∧ t.host.pending = [] ∧ ∃ e ∈ t.ledger.queue, e.kind = 0x09 := by
  refine leads_imp ((hostResetsDisableRings s).1 c k hc) fun t ht => ?_
  obtain ⟨_, hcmd, _, _, _, hpending, _, _, _, e, hqueue, hkind, _⟩ := ht
  exact ⟨fun n => (hcmd n).1, hpending, e, hqueue ▸ mem_enqueueChange.2 (.inl rfl), hkind⟩

theorem leads_cxlLinkLoss_records {s : State} (hup : s.host.cxlUp = true) : leads .cxlLinkLoss s fun t =>
    t.host.cxlUp = false ∧ (∀ n, ringEn (cmdRing t n).ctl = false) ∧ ∃ e ∈ t.ledger.queue, e.kind = 0x09 := by
  obtain ⟨t, ht, hdown⟩ := leads_cxlLinkLoss_down hup
  obtain ⟨u, hu, hcmd, _, hentry⟩ := leads_hostReset_records (.inr ⟨rfl, rfl, hup⟩ : (Instr.cxlLinkLoss, 2) ∈ _ ∨ _)
  obtain rfl : t = u := by simpa [ht] using hu
  exact ⟨t, ht, hdown, hcmd, hentry⟩

theorem leads_evroute {s : State} {x : W64} (hrun : s.boot.phase = .run) (hroom : ledgerRoom s = true)
    (hx : s.host.evroute ≠ lo32 x.toNat &&& 0x3FFFFF) :
    leads (.registerWrite .host 0x5080 4 x) s (fun t => t.host.evroute = lo32 x.toNat &&& 0x3FFFFF) ∧
    leads (.dbgreg true 0x5080 4 x) s (fun t => t.host.evroute = lo32 x.toNat &&& 0x3FFFFF) := by
  obtain ⟨hwrite, hdebug⟩ := registerWriteTakesEffect.1 s x hrun hroom hx
  refine ⟨leads_imp hwrite fun t ⟨_, hhost, _⟩ => ?_, leads_imp hdebug fun t ⟨_, hhost, _⟩ => ?_⟩ <;> rw [hhost]

theorem leads_kickLatchTaken {s : State} {org : RegOrigin} {v : W32} {nn : BitVec 4} {j : Nat} (hmaps : mapsCanonical s)
    (hrun : s.boot.phase = .run) (hroom : ledgerRoom s = true) (hpg : hasPg s nn.toNat = true) (hj : j < 32) (hbit : bit v.toNat j = true)
    (hlatch : (portAt s (32 * nn.toNat + j)).kick.latch = true) :
    leads (.kickLatchClear org nn v) s fun t => (portAt t (32 * nn.toNat + j)).kick.clearing = some (s.now, org) := by
  refine leads_imp ((registersEnableAndClear.2 s org v hmaps hrun hroom).2.2.2.1 nn j hpg hj).1 fun t ⟨_, hkick⟩ => ?_
  rw [hkick, if_pos ⟨hbit, hlatch⟩]

theorem leads_windowRead {s : State} {org : RegOrigin} {off : BitVec 20} (hrun : s.boot.phase = .run) (hlow : 0xC0000 ≤ off.toNat)
    (hhigh : off.toNat < 0xF0000) (halign : off.toNat % 8 = 0) (hhalt : haltNow s = 2) :
    leads (.accumulatorWindowRead org off 8) s fun t => t.host.readData = storeWord s ((off.toNat - 0xC0000) / 8) := by
  obtain ⟨_, _, _, hwindow, _⟩ := readsAnswer.1 s org hrun
  refine leads_imp ((hwindow off hlow hhigh halign).1 hhalt) fun t ht => ?_
  rw [ht]
  rfl

/-- Settles O10: each clause is the effect that the statement of its family gives. -/
theorem hostEventsComplete : Obligations.HostEventsComplete := by
  unfold Obligations.HostEventsComplete
  refine ⟨fun s ring d hadm => ?nop, fun s line k w hw => leads_snoops hw, fun s k index hreading => ?line, fun s id n i hread => ?reads,
    fun s ring d hreads hop hadm => ?object, fun s id n g w hw hkind => ?writes,
    fun s c e rest hpending hready hwaits hquiet hring hafter hentries hen hroom => ?written, fun s ring hdue hgone => ?coalesce,
    fun s => ⟨?resets, leads_cxlLinkLoss_records, fun hrun hnow hstrap => ?linkUp⟩, fun s org v hmaps hrun hroom => ?registers⟩
  case nop => exact leads_imp (nopAdvancesRingAndCompletes.1 s ring d hadm) fun t ⟨_, hanswered, _⟩ => hanswered
  case line => exact leads_imp (doorbellsAct.2 s k index hreading) fun t ⟨_, hvalue, _⟩ => hvalue
  case reads =>
    refine ⟨fun data => leads_imp (hostReadsAndWritesEnd.1 s id n i data hread).1 fun t ⟨_, hover, _⟩ => hover,
      leads_imp (hostReadsAndWritesEnd.1 s id n i [] hread).2 fun t ⟨_, hbit⟩ => hbit⟩
  case object => exact leads_imp (hostReadsAndWritesEnd.2.1 s ring d hreads hop hadm) fun t ⟨_, hanswered, _⟩ => hanswered
  case writes =>
    obtain ⟨hgo, herror⟩ := hostReadsAndWritesEnd.2.2 s id w hw
    exact ⟨leads_imp (hgo (by simp [hkind]) (by simp [hkind])) fun t ⟨_, hover, _⟩ => hover,
      leads_imp (herror n g hkind) fun t ⟨_, hbit, _⟩ => hbit⟩
  case written =>
    exact leads_imp (completionsAreWritten.1 s c e rest hpending hready hwaits hquiet hring hafter hentries hen hroom)
      fun t ⟨_, hrest, hwi, _⟩ => ⟨hrest, hwi⟩
  case coalesce => exact leads_imp ((completionsAreWritten.2.2 s ring).1 hdue hgone) fun t ⟨_, _, _, hsince⟩ => hsince
  case resets =>
    intro c hc
    obtain rfl | rfl : c = .functionLevelReset ∨ c = .conventionalReset := by simpa using hc
    · exact leads_hostReset_records (k := 0) (.inl (by simp))
    · exact leads_hostReset_records (k := 1) (.inl (by simp))
  case linkUp =>
    refine leads_imp ((hostResetsDisableRings s).2 hrun hnow hstrap) fun t ht => ?_
    rw [ht]
  case registers =>
    obtain ⟨hrings, hwatch⟩ := registersEnableAndClear.1
    obtain ⟨hstatus, _, _, _, hrefused, _⟩ := registersEnableAndClear.2 s org v hmaps hrun hroom
    obtain ⟨hhalt, hresume, _, htest⟩ := debugWritesAct.1 s org v hrun hroom
    refine ⟨fun x hx => leads_evroute hrun hroom hx, leads_imp (readsAnswer.1 s org hrun).1 fun t ⟨_, hdata, _⟩ => hdata,
      fun n hn hen hlow hhigh hoff => ?_, fun k hv hctl hring => ?_, fun off src hoff hsrc => ?_,
      fun nn j hpg hj hbit hlatch => leads_kickLatchTaken hmaps hrun hroom hpg hj hbit hlatch,
      fun hbit => leads_imp (hrefused hbit) fun t ⟨_, ht⟩ => ht, fun hop hidle htile hdown => ?_, fun hop hhalted => ?_,
      fun hconf hkick htrip => leads_imp (htest hconf hkick htrip) fun t ⟨_, ht⟩ => ht,
      fun off hlow hhigh halign hhalted => leads_windowRead hrun hlow hhigh halign hhalted⟩
    · exact leads_imp ((hrings s org n v hn hrun hroom hen hlow hhigh).1 hoff) fun t ⟨_, hon, _, _, hci, _⟩ => ⟨hon, hci⟩
    · exact leads_imp (hwatch s org k v hmaps hrun hroom hv hctl hring) fun t ⟨_, hbit, hheld, _⟩ => ⟨hbit, hheld⟩
    · refine leads_imp (hstatus off src 0 hoff hsrc (by decide) (.inr (by decide))).1 fun t ⟨_, hstat⟩ => ?_
      rw [hstat]
    · exact leads_imp (hhalt hop hidle htile hdown) fun t ⟨_, hstate, htile', _⟩ => ⟨hstate, htile'⟩
    · refine leads_imp (hresume hop hhalted) fun t ⟨_, htiles⟩ => ?_
      rw [htiles]

end Sys2Proof.Proofs

/-! PROOFS. Events of bring-up, resets, sensors, ledger, DOE and sideband (O11): the effect of each, as the statement of its family gives it. -/

namespace Sys2Proof.Proofs
open Sys2Proof.Machine Sys2Proof.Safety Sys2Proof.Laws

variable {s : State}

theorem leads_coldReset_clears (s : State) (cause : BitVec 2) : leads (.coldReset cause) s fun t =>
    t.boot.cause = cause ∧ t.boot.phase = (if cause = 2 then .plls else .reset) ∧ t.tills = [] ∧ t.ports = [] := by
  refine leads_imp ((bringUpToFclk.1 s).1 cause) fun t ⟨honly, hboot⟩ => ?_
  have htills : t.tills = [] := honly .tills (by decide)
  have hports : t.ports = [] := honly .ports (by decide)
  exact ⟨by rw [hboot], by rw [hboot], htills, hports⟩

theorem leads_warmReset_ends (hrun : s.boot.phase = .run) (hfw : s.boot.fw.isSome = true) (hheld : s.boot.held = false)
    (hwarm : s.boot.warm = false) : leads .warmReset s fun t =>
      t.boot.warm = true ∧ t.tills = [] ∧ t.frames = [] ∧ t.tables.active = s.tables.active := by
  refine leads_imp ((warmResetAndStewardRestart.1 s).1 hrun hfw hheld hwarm) fun t ht => ?_
  obtain ⟨_, htills, _, _, hframes, _, _, _, _, _, _, hactive, _, _, hwarmed, _⟩ := ht
  exact ⟨hwarmed, htills, hframes, hactive⟩

theorem leads_stewardRestart_records (hrun : s.boot.phase = .run) (hsteward : s.boot.steward = true) (exception : Bool)
    (core : BitVec 2) : leads (.stewardRestart exception core) s fun t =>
      t.boot.steward = false ∧ ∃ e ∈ t.ledger.queue, e.kind = 0x0A := by
  refine leads_imp ((warmResetAndStewardRestart.2 s hrun).1 hsteward exception core) fun t ht => ?_
  obtain ⟨_, hboot, _, _, _, _, e, he, hkind, _⟩ := ht
  exact ⟨by rw [hboot], e, he, hkind⟩

theorem leads_tilesReady_set (hrun : s.boot.phase = .run) (hstrap : strapFault s = none) : leads .tilesReady s fun t =>
    t.tiles.ready = true ∧ bit t.boot.ready.toNat 20 = true := by
  refine leads_imp ((bringUpToFclk.2 s).2.2.2 hrun hstrap) fun t ⟨_, htiles, _, hbit, _⟩ => ⟨?_, hbit⟩
  rw [htiles]

theorem leads_fuseWrite_burns {fw : Firmware} (hfw : s.boot.fw = some fw) (hsteward : s.boot.steward = true)
    (hsealed : s.ledger.sealed = true) (hroom : ledgerRoom s = true) : leads .fuseWrite s fun t =>
      t.boot.fuses.svn = (if fw.commitSvn then max s.boot.fuses.svn fw.svn else s.boot.fuses.svn) ∧
      t.boot.fuses.revoked0 = (s.boot.fuses.revoked0 || (fw.keySlot == 1 && fw.revoke0)) := by
  refine leads_imp (firmwareAndFusesAreChecked.2.2.1 s fw hfw hsteward hsealed hroom) fun t ⟨_, hboot, _⟩ => ?_
  rw [hboot]
  exact ⟨rfl, rfl⟩

theorem leads_i3cReady (hrun : s.boot.phase = .run) : leads (.i3cRegisterRead 0x800) s fun t => t.boot.i3cData = statReady s := by
  obtain ⟨_, _, _, _, _, hready, _⟩ := readsAnswer.1 s .host hrun
  refine leads_imp hready fun t ht => ?_
  rw [ht]

theorem leads_chainEntry_stored {c : Change} {rest : List Change} (hmaps : mapsCanonical s) (hqueue : s.ledger.queue = c :: rest)
    (hrecording : s.ledger.recording = true) (hlast : ∀ u, s.ledger.lastAt = some u → u + 160 ≤ s.now) :
    leads .ledgerChainEntry s fun t =>
      t.ledger.seq = s.ledger.seq + 1 ∧ sget [] t.ledger.store (s.ledger.seq % 65536) = entryBytes s.ledger.seq c := by
  refine leads_imp ((ledgerEnginesProceed.1 s c rest hmaps hqueue hrecording).2 hlast) fun t ⟨_, hseq, _, _, hstore, _⟩ => ?_
  exact ⟨hseq, hstore⟩

theorem leads_seal_enqueued (hsteward : s.boot.steward = true) (hsealing : s.ledger.sealing = none)
    (hrecording : s.ledger.recording = true) (hroom : ledgerRoom s = true) (hunsealed : s.ledger.unsealedAt.isSome = true) :
    leads .seal s fun t => t.ledger.sealing.isSome = true ∧ ∃ e ∈ t.ledger.queue, e.kind = 0x30 := by
  refine leads_imp (ledgerEnginesProceed.2.1.1 s hsteward hsealing hrecording hroom hunsealed) fun t ht => ?_
  obtain ⟨_, ⟨x, hx⟩, e, hqueue, hkind, _⟩ := ht
  exact ⟨by simp [hx], e, by simp [hqueue], hkind⟩

/-- Settles O11: each clause is the effect that the statement of its family gives. -/
theorem bootEventsComplete : Obligations.BootEventsComplete := by
  unfold Obligations.BootEventsComplete
  intro s
  obtain ⟨hrst, hlock, hsync, _⟩ := bringUpToFclk.2 s
  refine ⟨leads_coldReset_clears s, fun khz hlow hhigh => ?refclk, fun hreset => ?rst, fun hplls hok fuses pins => ?lock, fun hphase => ?sync,
    fun pins hpins => ?strap, fun dir l item chain ok slot hawaits hdir hslot hjtag hitem hfault => ?firmware,
    fun hrun => ⟨leads_tilesReady_set hrun, fun hsteward hplan dir plan eq => ?plan, fun hheld hfw hboot image => ?jtag,
      fun hfw hheld hwarm => ⟨leads_warmReset_ends hrun hfw hheld hwarm, fun hsteward hgood => ?returns⟩, fun hwarm => ?release,
      leads_stewardRestart_records hrun, fun htemps hthrottle hstacks west east hs hlen => ?sensors⟩,
    fun fw hfw hsteward hsealed hroom => leads_fuseWrite_burns hfw hsteward hsealed hroom, leads_i3cReady, fun a => ⟨_, rfl, rfl⟩,
    fun c rest hmaps hqueue hrecording hlast => leads_chainEntry_stored hmaps hqueue hrecording hlast, leads_seal_enqueued,
    fun u hu hnow => ?sealWait, fun hen hold hnext => ?mirror, fun hsteward hheld => ?spdm⟩
  case refclk =>
    refine leads_imp (((bringUpToFclk.1 s).2 khz).1 ⟨hlow, hhigh⟩) fun t ht => ?_
    rw [ht]
  case rst =>
    refine leads_imp (hrst hreset) fun t ht => ?_
    rw [ht]
  case lock =>
    exact leads_imp (hlock hplls hok fuses pins) fun t ⟨_, hphase, hfuses, hstrap, _⟩ => ⟨hphase, hfuses, hstrap⟩
  case sync =>
    refine leads_imp (hsync hphase) fun t ⟨_, hboot, hnow, _⟩ => ⟨?_, hnow⟩
    rw [hboot]
  case strap =>
    refine leads_imp (firmwareAndFusesAreChecked.2.2.2 s pins hpins) fun t ⟨_, hboot, _⟩ => ?_
    rw [hboot]
  case firmware =>
    refine leads_imp ((firmwareAndFusesAreChecked.1 s dir l item chain ok slot hawaits hdir hslot hjtag hitem).1 hfault) fun t ht => ?_
    obtain ⟨_, hsteward, _, ⟨fw, hfw, hfrom, _⟩, _⟩ := ht
    exact ⟨hsteward, fw, hfw, hfrom⟩
  case plan =>
    exact leads_imp ((firmwareAndFusesAreChecked.2.1 s hrun).1 hsteward hplan dir plan eq) fun t ⟨_, hdone, hbit, _⟩ => ⟨hdone, hbit⟩
  case jtag =>
    refine leads_imp ((firmwareAndFusesAreChecked.2.1 s hrun).2 hheld hfw hboot image) fun t ht => ?_
    rw [ht]
  case returns =>
    exact leads_imp (((warmResetAndStewardRestart.2 s hrun).2 hsteward hfw hheld hwarm).1 hgood) fun t ⟨_, hup, _⟩ => hup
  case release =>
    refine leads_imp ((warmResetAndStewardRestart.1 s).2 hwarm) fun t ht => ?_
    rw [ht]
    exact ⟨rfl, rfl⟩
  case sensors =>
    refine leads_imp (sensorsActOnTemperature s west east hs hrun htemps hthrottle hstacks hlen) fun t ht => ?_
    obtain ⟨_, hhead, _, _, hstack, _⟩ := ht
    exact ⟨hhead, fun k hk hhas => (hstack k hk hhas).1⟩
  case sealWait => exact leads_imp (ledgerEnginesProceed.2.1.2.1 s u hu hnow) fun t ⟨_, hbit⟩ => hbit
  case mirror => exact leads_imp (ledgerEnginesProceed.2.1.2.2 s hen hold hnext) fun t ⟨_, hmirror, _⟩ => hmirror
  case spdm =>
    obtain ⟨hversion, hcaps, halgs, hdoe⟩ := spdmAnswers.2.1 s hsteward hheld
    refine ⟨leads_imp hversion fun t ⟨_, hopen, _, _, _, hcode, _⟩ => ⟨hopen, hcode⟩,
      fun hv => leads_imp hcaps fun t ⟨_, hopen, hcode⟩ => ⟨by simp [hopen, hv], by simp [hcode, hv]⟩,
      fun hc => leads_imp halgs fun t ⟨_, hopen, hcode⟩ => ⟨by simp [hopen, hc], by simp [hcode, hc]⟩,
      leads_imp (hdoe 0) fun t ⟨_, _, hzero, _⟩ => hzero rfl, fun hopen => ?_⟩
    obtain ⟨hchain, hchallenge, hmeasure⟩ := spdmAnswers.2.2 s hsteward hheld hopen
    refine ⟨fun hprov => ⟨leads_imp ((hchain 0).2 hprov).1 fun t ⟨_, ht⟩ => ht,
        fun a n ha => leads_imp (((hchain n).2 hprov).2 a ha) fun t ⟨_, ht⟩ => ht⟩,
      fun nonce => leads_imp (hchallenge nonce) fun t ⟨_, hcode, hsigned, _⟩ => ⟨hcode, hsigned⟩,
      fun i sign nonce hlow hhigh => leads_imp (hmeasure i sign nonce hlow hhigh) fun t ⟨_, hcode, hsigned, _⟩ => ⟨hcode, hsigned⟩⟩

end Sys2Proof.Proofs

/-! PROOFS. Events of tick, tables, twin, ports, lanes and reorder contexts (O9): the effect of each, from the statement of its family or, for
the tick and its offers, from the command itself. -/

namespace Sys2Proof.Proofs
open Sys2Proof.Machine Sys2Proof.Safety Sys2Proof.Laws

variable {s : State} {port : BitVec 9}

/-! ### Ticks and their offers (07) -/

theorem leads_tickBegin (hdue : tickDue s = true) : leads .tickBegin s fun t =>
    t.tick.num = s.tick.num + 1 ∧ t.tick.start = s.tick.start + tickLen s := by
  refine ⟨beginTick s, congrArg Host.Outcome.next (if_pos hdue), ?_⟩
  have hrest (u : State) : Moves [.host, .ports, .tandem, .tills, .tallies, .jobFree] u
      (beginExcisions (openWaiting (openTills (tandemTick (clearWatches u false)) true) true)) :=
    beginExcisions_moves (openWaiting_moves (openTills_moves (tandemTick_moves (clearWatches_moves (.refl _ u) rfl) rfl) rfl) rfl) rfl
  have htick : (beginTick s).tick =
      { s.tick with num := s.tick.num + 1, start := s.tick.start + tickLen s, sampleNow := s.tick.sample } := (hrest _).only .tick (by decide)
  exact ⟨congrArg Tick.num htick, congrArg Tick.start htick⟩

/-- The tick that a part without one takes from the offer of its neighbour. -/
def offerTick (s : State) (port : BitVec 9) (f : Frame) (mark src : Nat) : Tick :=
  let bound : Int := (mark : Int) - (portAt s port.toNat).link.delaySym - leAt f.payload 8 4 * 140 - toInt 8 (leAt f.payload 12 1)
  { adoptTick s (BitVec.ofNat 48 (leAt f.payload 0 6)) bound with sourcePort := port, state := 1, source := BitVec.ofNat 3 src }

/-- Once an offer is taken, the neighbour's tick holds, and waiting tallies open. -/
def offerAdopted (s : State) (t : Tick) (port : BitVec 9) : State :=
  recordRaw (openWaiting (clearWatches { s with tick := t } true) false) oPeer port.toNat 0x0B 0 s.tick.num.toNat t.num.toNat

theorem offerAdopted_tick (s : State) (t : Tick) (port : BitVec 9) : (offerAdopted s t port).tick = t := by
  have hmoves : Moves [.host, .ports, .tallies, .ledger] { s with tick := t } (offerAdopted s t port) :=
    recordRaw_moves (openWaiting_moves (clearWatches_moves (.refl _ _) rfl) rfl) rfl
  exact hmoves.only .tick (by decide)

theorem exec_tickOfferReceive {f : Frame} {mark src : Nat} (htype : (headerOf f.hdr).type = 0xB) (hsub : mgmtSubtype (headerOf f.hdr) = 1)
    (hgood : frameGood f = true) (hcarry : carrying (portAt s port.toNat).link.st = true) (hstate : s.tick.state = 0)
    (htaken : offerTaken s port.toNat = some src) (hoffer : leAt f.payload 13 1 % 4 ≠ 0) :
    exec (.tickOfferReceive port f mark) s =
      .next (offerAdopted (takeIntake s f).1 (offerTick (takeIntake s f).1 port f mark src) port) := by
  have htaken' : offerTaken (takeIntake s f).1 port.toNat = some src := by
    rw [takeIntake_eq]
    exact htaken
  have hstate' : ((takeIntake s f).1.tick.state == 2) = false := by
    rw [takeIntake_eq]
    exact beq_false_of_ne (by simp [hstate])
  refine congrArg Host.Outcome.next ((if_neg (by simp [htype, hsub, hgood, hcarry])).trans ?_)
  dsimp only
  rw [htaken']
  dsimp only
  rw [if_neg hoffer, hstate', if_neg Bool.false_ne_true]
  exact rfl

theorem leads_tickOfferReceive {f : Frame} {mark src : Nat} (htype : (headerOf f.hdr).type = 0xB) (hsub : mgmtSubtype (headerOf f.hdr) = 1)
    (hgood : frameGood f = true) (hcarry : carrying (portAt s port.toNat).link.st = true) (hstate : s.tick.state = 0)
    (htaken : offerTaken s port.toNat = some src) (hoffer : leAt f.payload 13 1 % 4 ≠ 0) :
    leads (.tickOfferReceive port f mark) s fun t => t.tick.state = 1 ∧ t.tick.sourcePort = port := by
  refine ⟨_, exec_tickOfferReceive htype hsub hgood hcarry hstate htaken hoffer, ?_⟩
  have htick := offerAdopted_tick (takeIntake s f).1 (offerTick (takeIntake s f).1 port f mark src) port
  exact ⟨congrArg Tick.state htick, congrArg Tick.sourcePort htick⟩

/-- The state after an offer is sent, before its time is noted at the port. -/
def offerSent (s : State) (port : BitVec 9) : State :=
  emitTo s port.toNat (mkFrame (ownFrame s 0xB 6 (planNeighbour (portAt s port.toNat).plan) 0 0 0 0 0x01000000) (offerBytes s port.toNat))
    (freeDelay s) false none

theorem leads_tickOfferSend (hstate : s.tick.state ≠ 0) (hconf : (portAt s port.toNat).conf = true)
    (hcarry : carrying (portAt s port.toNat).link.st = true) (hlast : (portAt s port.toNat).lastOffer = none) :
    leads (.tickOfferSend port) s fun t => (portAt t port.toNat).lastOffer = some s.now := by
  have hexec : exec (.tickOfferSend port) s =
      .next (modPort (offerSent s port) port.toNat fun q => { q with lastOffer := some (offerSent s port).now }) :=
    congrArg Host.Outcome.next (if_neg (by simpa [hconf, hcarry, hlast] using hstate))
  have hnow : (offerSent s port).now = s.now := (emitTo_sendStep ..).now
  refine ⟨_, hexec, ?_⟩
  have hfound : portAt (modPort (offerSent s port) port.toNat fun q => { q with lastOffer := some (offerSent s port).now }) port.toNat =
      { portAt (offerSent s port) port.toNat with lastOffer := some (offerSent s port).now } :=
    sget_sput_ne fun h => Option.some_ne_none _ (congrArg Port.lastOffer h)
  exact (congrArg Port.lastOffer hfound).trans (congrArg some hnow)

/-! ### The families' statements, port by port -/

theorem leads_laneLoss {lane : BitVec 9} (hmaps : mapsCanonical s) (hconf : (portAt s port.toNat).conf = true)
    (hplan : lane.toNat ∈ planLanes port.toNat (portAt s port.toNat).plan) (hlock : (laneAt s lane.toNat).lock = true) :
    leads (.lossOfSignal port lane) s fun t => (laneAt t lane.toNat).lock = false :=
  leads_imp ((linksComeUpAndGoDown.2.2 s port lane hmaps hconf).2 hplan hlock) fun _ ⟨_, hgone, _⟩ => hgone

theorem leads_blockTaken {blocks : List LaneBlock} (hmaps : mapsCanonical s) (hconf : (portAt s port.toNat).conf = true)
    (hstarted : (portAt s port.toNat).link.started = true) (hsends : sends (portAt s port.toNat).link.st = true)
    (hwaiting : (portAt s port.toNat).link.waiting = false) (hsome : blocks ≠ []) (hlanes : blocks.map (·.lane) = (portAt s port.toNat).lanes)
    (hnodup : (portAt s port.toNat).lanes.Nodup) (hplan : ∀ b ∈ blocks, b.lane ∈ planLanes port.toNat (portAt s port.toNat).plan)
    (hgood : ∀ b ∈ blocks, ∃ h, blockGood s b = some h ∧ hBsn h = (portAt s port.toNat).link.ack + 1 ∧
      (rxBlock (portAt s port.toNat).link.rx (bits h.toNat 28 19) ((inNbrOrder s port.toNat blocks).map (rxBytes s))).2 = false) :
    leads (.laneBlockReceive port blocks) s fun t => (portAt t port.toNat).link.ack = (portAt s port.toNat).link.ack + 1 :=
  leads_imp (((blocksAreSequenced s port hmaps hconf hstarted).1 hsends hwaiting blocks hsome hlanes hnodup hplan).1 hgood)
    fun _ ⟨_, hack, _⟩ => hack

/-- Settles O9: each clause is the effect that the statement of its family gives; the tick and its offers act as above. -/
theorem portEventsComplete : Obligations.PortEventsComplete := by
  unfold Obligations.PortEventsComplete
  refine ⟨fun s a hmaps harmed => ⟨fun hdrain => ?drain, fun hdue hgood hidle hnodup hstaged => ?commit⟩,
    fun s hmaps => ⟨fun k e rest hover hat hk hboth => ?overflow, fun hdue => ?sample, leads_tickBegin,
      fun hcmp htrip => ⟨fun i r hr hwindow => ?window, fun hgone => ?lost⟩,
      fun f i htype hsub hgood hfind hport harrival hcmp hzero hkind => ?state⟩,
    fun s port hmaps hconf => ?port, fun s pg src job seq c hmaps hfind htimer => ?reorder⟩
  case drain =>
    refine leads_imp (commitSwitchesTables.2.1 s a harmed hdrain) fun t ⟨_, htables, _⟩ => ?_
    rw [htables]
  case commit =>
    refine leads_imp ((commitSwitchesTables.1 s a hmaps harmed hdue).2 hgood hidle hnodup hstaged) fun t ⟨_, hdone, hentries, _⟩ => ?_
    exact ⟨hdone, hentries⟩
  case overflow =>
    exact leads_imp (commitSwitchesTables.2.2.1 s k e rest hmaps hover hat hk hboth) fun t ⟨_, hentry, hrest, _⟩ => ⟨hentry, hrest⟩
  case sample =>
    refine leads_imp (commitSwitchesTables.2.2.2 s hmaps hdue) fun t ⟨_, htick, _⟩ => ?_
    rw [htick]
  case window => exact leads_imp (((twinsAreCompared.2 s hmaps).1 hcmp htrip).1 i r hr hwindow) fun t ⟨_, hown, _⟩ => hown
  case lost =>
    refine leads_imp (((twinsAreCompared.2 s hmaps).1 hcmp htrip).2.2 hgone) fun t ⟨_, htandem, _⟩ => ?_
    rw [htandem]
  case state =>
    exact leads_imp ((twinsAreCompared.1 s f i hmaps htype hsub hgood hfind hport harrival hcmp hzero).2 hkind)
      fun t ⟨_, hat, hmismatch⟩ => ⟨hat, hmismatch⟩
  case reorder =>
    have hact := laneEventsAct.2 s pg src job seq c hmaps hfind htimer
    exact leads_imp hact fun t ⟨_, hbit, _, hheld, _⟩ => ⟨hbit, fun x hx hsame => (hheld x hx hsame).1⟩
  case port =>
    intro p
    obtain ⟨hstall, hreceive, _, hopen⟩ := laneEventsAct.1 s port hmaps
    obtain ⟨hquiet, _, _, _, hrotation, _⟩ := linksComeUpAndGoDown.2.1 s port hmaps hconf
    refine ⟨fun f mark src htype hsub hgood hcarry hstate htaken hoffer =>
        leads_tickOfferReceive htype hsub hgood hcarry hstate htaken hoffer,
      fun f i htype hsub htandem hfind => ?_, fun hstate hcarry hlast => leads_tickOfferSend hstate hconf hcarry hlast,
      fun htrip hlen hrun => ⟨fun w hen hcycle hmet hfresh hmissed => ?_, fun hlatch hen hrep hofs htick hsent hdone => ?_⟩,
      fun k hdue hgo hsent hlane => ?_, fun f hframing hcrc hform => ⟨fun hlater => ?_,
        fun hnow h hcheck htrailer hfail hmeter hown htype => ?_⟩,
      fun e hopen' hidle hall hkick haligned hcand => ?_, fun c e st n hfrom hlate hlane => ?_, fun ret hcarry hlost => ?_,
      fun hopen' hidle => ⟨fun hsum hlast hurgent hurgent' => ?_, fun e hedge hkick hall haligned => ?_⟩,
      fun x h inv hstarted hread hnak hseen => ?_,
      fun blocks hstarted hsends hwaiting hsome hlanes hnodup hplan hgood =>
        leads_blockTaken hmaps hconf hstarted hsends hwaiting hsome hlanes hnodup hplan hgood,
      fun hst hsince hidle hsteward byLimit => ?_, fun lane rest hst hlanes hgood hwiring bsn arrival hlast => ?_,
      fun c hfence hdegrading hlate => ?_, fun lane hplan hlock => leads_laneLoss hmaps hconf hplan hlock⟩
    · refine leads_imp ((twinsAreCompared.2 s hmaps).2 port f htype hconf hsub htandem) fun t ⟨_, hin⟩ => hin i hfind
    · exact leads_imp ((kickstandsFireAndLeave.1 s port hmaps htrip hconf hlen hrun).1 w hen hcycle hmet hfresh hmissed)
        fun t ⟨_, hmiss, _⟩ => hmiss
    · exact leads_imp ((kickstandsFireAndLeave.1 s port hmaps htrip hconf hlen hrun).2 hlatch hen hrep hofs htick hsent hdone)
        fun t ⟨_, hrepeat, _⟩ => hrepeat
    · exact leads_imp (kickstandsFireAndLeave.2 s port k hmaps hdue hgo hsent hlane) fun t ⟨_, hat, _⟩ => hat
    · exact ((framesAreCheckedAndRouted s port f hmaps hconf hframing).2 (not_not.2 hcrc) hform).1 hlater
    · obtain ⟨_, _, htaken⟩ := (framesAreCheckedAndRouted s port f hmaps hconf hframing).2 (not_not.2 hcrc) hform
      refine leads_imp (((htaken h hcheck htrailer hfail hmeter).1 hown).1 hnow) fun t ⟨_, hin, _⟩ => ?_
      rw [hin, if_neg fun hm => htype.elim (· hm.1) (· hm.2)]
    · refine leads_imp ((framesStartInOrder s port e hmaps hopen' hidle hall hkick haligned).2 (.inl hcand)) fun t ⟨_, hlane, _⟩ => ?_
      obtain ⟨x, n, hon, hfid, _⟩ := hlane
      exact ⟨x, n, hon, hfid⟩
    · exact leads_imp (hstall c e st n hfrom hlate hlane) fun t ⟨_, hdropping, hstalled, _⟩ => ⟨hstalled, hdropping⟩
    · exact leads_imp (hreceive ret hconf hcarry hlost) fun t ⟨_, _, hcoming⟩ => hcoming
    · exact leads_imp ((hopen hopen' hidle).1 hsum hlast hurgent hurgent') fun t ⟨_, hlane, _⟩ => hlane
    · exact leads_imp ((hopen hopen' hidle).2 e hedge hkick hall haligned) fun t ⟨_, hlane⟩ => hlane
    · refine leads_imp ((blocksAreSequenced s port hmaps hconf hstarted).2 x h inv hread hnak hseen) fun t ⟨_, hlink⟩ => ?_
      rw [hlink]
    · exact leads_imp (hquiet hst hsince hidle hsteward byLimit) fun t ⟨_, hlink⟩ => hlink
    · exact leads_imp (hrotation lane rest hst hlanes hgood hwiring bsn arrival hlast) fun t ⟨_, hnbr, _⟩ => hnbr
    · exact leads_imp ((linksComeUpAndGoDown.2.2 s port 0 hmaps hconf).1 c hfence hdegrading hlate) fun t ⟨_, hst, _⟩ => hst

end Sys2Proof.Proofs

/-! PROOFS. Relays (05 R160-R163): opening, closing, and what the statement on frames leaves out, a number in use twice. -/

namespace Sys2Proof.Proofs
open Sys2Proof.Machine Sys2Proof.Safety Sys2Proof.Laws

/-! ### A relay's copy under a number that a mirror copy already has -/

/-- A RELAY frame of endpoint 0x300 for group 0. -/
def relayed : Frame := mkFrame { headerOf 0 with type := 0xC, mc := 1, src := 0x300 } []

/-- A relay of three members; the two receivers, endpoints 0x200 and 0x201, both wait for the sender's block. -/
def relayOfThree : Relay where
  job := 0
  cls := 0
  units := 4
  pace := 0
  depth := 100
  stageMax := 2
  rtimeout := 1
  members := [(5, 0x300), (6, 0x200), (7, 0x201)]
  recv := [{}, { dist := 1 }, { dist := 2 }]

/-- The mirror copy, under the number that the next frame of the X7 gets. -/
def mirrorCopy : Entry := { fid := 0, frame := relayed, cls := 0, src := 0, arrival := 0, ready := 0, mirror := some 0 }

def mirroringPort : Port := { conf := true, link := { st := .up }, q := { queue := [mirrorCopy] } }

/-- Both receivers stand behind port 0, whose slice has one cell free: the second copy has the mirror copy evicted. -/
def numberedTwice : State :=
  { State.reset with
    ports := [(0, mirroringPort)]
    tables := { State.reset.tables with
      active := [(tkey 0x12 2, [0x40000000]), (tkey 0x13 0, [0x8000]), (tkey 0x13 1, [0x8000]), (tkey 0x25 0, [0x7FFFFFFFF000000])] }
    pools := { State.reset.pools with cells := [(0, Sys2Proof.Config.sliceCells - Sys2Proof.Config.reorderReserve - 1)] }
    relays := [(0, relayOfThree)] }

theorem numberedTwice_receives : goodFrame relayed 0xC = true ∧ (headerOf relayed.hdr).mc = 1 ∧ (headerOf relayed.hdr).dest = 0 ∧
    firstIdx 3 (fun i => (relayOfThree.members.getD i (0, 0)).2 == (headerOf relayed.hdr).src.toNat) = some 0 := by decide +kernel

/-- The block that the frame belongs to. -/
def relayedBlock : RBlock := { sender := 0, round := (headerOf relayed.hdr).epoch, frames := [], units := 0 }

theorem numberedTwice_goesNow : stillWaits relayOfThree relayedBlock 1 = true ∧
    ∀ j < 3, stillWaits relayOfThree relayedBlock j = true → goesNow numberedTwice relayOfThree 0 relayed j = true := by decide +kernel

theorem route_numberedTwice {h : Header} (hdest : h.dest = 0x200) : route numberedTwice h selfPort = some 0 := by
  have husable : usable numberedTwice 0 h selfPort = true := rfl
  have hlocal : routeKind numberedTwice 0x200 = 1 ∧ localPort numberedTwice (routeIndex numberedTwice 0x200) 0x200 = some 0 := by decide +kernel
  obtain ⟨hkind, hport⟩ := hlocal
  unfold route
  rw [if_neg (by simp [neverRoutes, hdest]), hdest]
  dsimp only
  rw [show BitVec.toNat (0x200 : BitVec 20) = 0x200 from rfl, if_pos hkind, hport]
  exact if_pos husable

theorem reaches_numberedTwice : reaches numberedTwice 0x200 := by
  refine .inr fun h hdest _ => ?_
  have hboard : boardFrame numberedTwice h = false := Bool.and_false _
  rw [routed, route_numberedTwice hdest, Option.filter_some, hboard]
  rfl

/-- Nothing waits outside the output queues, and none of these holds a frame for an endpoint. -/
def noneFor (t : State) (dest : BitVec 20) : Bool :=
  t.intake.isEmpty && t.stalled.isEmpty && t.ports.all fun e => e.2.q.queue.all fun x => (headerOf x.frame.hdr).dest != dest

theorem not_sent_of_noneFor {t : State} {dest : BitVec 20} (hnone : noneFor t dest = true) (type : BitVec 4) (aux : BitVec 32)
    (payload : List Byte) : ¬ sent t type dest aux payload := by
  simp only [noneFor, Bool.and_eq_true, List.isEmpty_iff, List.all_eq_true, bne_iff_ne] at hnone
  obtain ⟨⟨hintake, hstalled⟩, hqueues⟩ := hnone
  rintro ⟨f, hf, -, -, hdest, -⟩
  rcases hf with ⟨i, hi, -⟩ | ⟨e, he, -⟩ | ⟨p, e, he, -, rfl⟩
  · exact absurd hi (by simp [hintake])
  · exact absurd he (by simp [hstalled])
  · have hport : ∀ x ∈ (portAt t p).q.queue, (headerOf x.frame.hdr).dest ≠ dest :=
      sget_of_forall (P := fun q : Port => ∀ x ∈ q.q.queue, (headerOf x.frame.hdr).dest ≠ dest) (fun _ hx => absurd hx List.not_mem_nil) hqueues p
    exact hport e he hdest

/-- The mirror copy is evicted by its number, and the copy for the first receiver goes with it. -/
theorem numberedTwice_loses : (match exec (.relayFrameReceive 0 relayed) numberedTwice with
    | .next t => noneFor t 0x200
    | _ => false) = true := by decide +kernel

/-- Refutes O54: a frame that leaves at once for two receivers need not be held for the first of them. The statement does not ask that the numbers
of frames still to come are free; here a mirror copy has the one that the first copy gets, and making room for the second evicts both. -/
theorem not_relaysAct : ¬ Obligations.RelaysAct := by
  unfold Obligations.RelaysAct
  rintro ⟨-, hframes, -⟩
  obtain ⟨hgood, hmc, hdest, hsender⟩ := numberedTwice_receives
  obtain ⟨hwants, hgo⟩ := numberedTwice_goesNow
  have hgroup : (headerOf relayed.hdr).dest.toNat % 65536 = 0 := by rw [hdest]; rfl
  obtain ⟨hnow, -⟩ := hframes numberedTwice 0 relayed relayOfThree 0 hgood hmc (by rw [hgroup]; rfl) (by decide +kernel) hsender
    ⟨1, by decide, hwants⟩
  obtain ⟨t, ht, -, -, hsent⟩ := hnow hgo
  have hnone := numberedTwice_loses
  rw [ht] at hnone
  exact not_sent_of_noneFor hnone _ _ _ (hsent 1 (by decide) hwants (Option.some_ne_none _) reaches_numberedTwice)

end Sys2Proof.Proofs

/-! PROOFS. Commands that copy: records, receipts and vault state to host memory, and bytes into the X7's own memory (05 R134, R154, R157; 06 R190;
10 R304, R312; 11 R321, R322; 12 R343). -/

namespace Sys2Proof.Proofs
open Sys2Proof.Machine Sys2Proof.Safety Sys2Proof.Laws

section Copies

variable {s : State} {ring : BitVec 6} {d : Desc}

/-! ### Records -/

/-- A command whose effect ends in a copy to its host address completes, and writes there. -/
theorem leads_copies {c : Instr} {op obj d0 : Nat} {job job' : Option Nat} {body : Accept → State → State}
    (hadm : admitted s ring d op (cringOf d.d0) job) (hexec : exec c s = .next (accept s ring d op job' obj (cringOf d.d0) body))
    (hjob : job' = job)
    (hbody : ∀ u, RingStep s u → ∃ v data, body (acceptNow s ring.toNat d.d0 obj) u = copyOut v (acceptNow s ring.toNat d.d0 obj) d.d2.toNat data d0) :
    leads c s fun t => answered s t ring d (cringOf d.d0) obj stOk d0 0 ∧
      ∃ data, hostWriting t d.d2.toNat data (.copy ring.toNat (tagOf d.d0)) := by
  refine leads_accepted hadm hexec hjob rfl fun u t hu ht => ?_
  obtain ⟨v, data, hcopy⟩ := hbody u hu
  rw [hcopy] at ht
  exact ⟨ht.answered (answered_copyOut _ _ _ _ _ _), data, (ht.writeIssued (writeIssued_copyOut _ _ _ _ _ _)).writing⟩

/-- The reads of queue samples, pools, counters, FREEWHEEL and the toss counters. -/
theorem leads_recordRead {c : Instr} {op : Nat} (hc : (c, op) ∈ [(Instr.queueRead ring d, 0x48), (.poolRead ring d, 0x49), (.counterRead ring d, 0x4A),
    (.freewheelRead ring d, 0x4B), (.tossRead ring d, 0x4D)]) (hadm : admitted s ring d op (cringOf d.d0) none)
    (hwhich : op = 0x4B → fld d.d1 2 1 ≠ 0) : leads c s fun t => answered s t ring d (cringOf d.d0) 0 stOk 0 0 ∧
      ∃ data, hostWriting t d.d2.toNat data (.copy ring.toNat (tagOf d.d0)) := by
  simp only [List.mem_cons, List.not_mem_nil, or_false, Prod.mk.injEq] at hc
  rcases hc with ⟨rfl, rfl⟩ | ⟨rfl, rfl⟩ | ⟨rfl, rfl⟩ | ⟨rfl, rfl⟩ | ⟨rfl, rfl⟩
  · exact leads_copies hadm rfl rfl fun u _ => ⟨_, _, rfl⟩
  · exact leads_copies hadm rfl rfl fun u _ => ⟨_, _, rfl⟩
  · exact leads_copies hadm rfl rfl fun u _ => ⟨_, _, rfl⟩
  · exact leads_copies hadm rfl rfl fun u _ => ⟨_, _, if_neg (hwhich rfl)⟩
  · exact leads_copies hadm rfl rfl fun u _ => ⟨_, _, rfl⟩

theorem leads_receiptRead {x : Till} (hx : tillAt s (objOf d) = some x) (hadm : admitted s ring d 0x4C (cringOf d.d0) (some (tillJob x))) :
    leads (.receiptRead ring d) s fun t => answered s t ring d (cringOf d.d0) (objOf d) stOk (receiptChunks x).length 0 := by
  refine leads_imp (leads_copies (d0 := (receiptChunks x).length) hadm rfl (by rw [hx]; rfl) fun u hu => ?_) fun _ ⟨hdone, _⟩ => hdone
  dsimp only
  rw [hu.tillAt, hx]
  exact ⟨_, _, rfl⟩

/-! ### Vaults -/

theorem isN_ringStep {u : State} (hu : RingStep s u) : isN u = isN s := by
  obtain ⟨host, fresh, rfl⟩ := hu.exists_eq
  rfl

theorem leads_vaultQuery {r : Region} (hr : regionAt s (objOf d) = some r) (hn : isN s = false) (hvault : rVault r.words = true)
    (hadm : admitted s ring d 0x2D (cringOf d.d0) (some (regJob r.words))) :
    leads (.vaultQuery ring d) s fun t => hostWriting t d.d2.toNat (vaultState r) (.copy ring.toNat (tagOf d.d0)) := by
  refine leads_accepted hadm rfl (by rw [hr]; rfl) rfl fun u t hu ht => ?_
  rw [hu.regionAt, hr] at ht
  dsimp only at ht
  rw [if_neg (by simp [isN_ringStep hu, hn, hvault])] at ht
  exact (ht.writeIssued (writeIssued_copyOut _ _ _ _ _ _)).writing

/-- Units that no failure lists read good. -/
theorem detect_good (hunits : s.faults.units = []) (n space first count : Nat) : detect s n space first count .first = (s, true, 0) := by
  rw [detect, failing, hunits]
  rfl

theorem writeIssued_of_host {t v : State} {addr : Nat} {data : List Byte} {kind : WriteKind} (hhost : v.host = t.host) (hfresh : v.fresh = t.fresh)
    (h : writeIssued t addr data kind) : writeIssued v addr data kind := by
  rw [writeIssued, hhost, hfresh]
  exact h

theorem addCrossing_moves_bridge (s : State) (x : Crossing) : Moves [.bridge] s (addCrossing s x) := addCrossing_moves (.refl _ s) rfl

theorem addCrossing_hbm (s : State) (x : Crossing) : (addCrossing s x).hbm = s.hbm :=
  hbm_eq_of_moves (addCrossing_moves_bridge s x) (by decide) (by decide)

theorem writeIssued_copyRegion (s : State) (a : Accept) (n addr : Nat) (data : List Byte) (gather : Bool) (space : Nat) (east : Nat × Nat)
    (more : List After) : writeIssued (copyRegion s a n addr data gather space east more) addr data (.copy a.ring (tagOf a.d0)) := by
  have hwrite := writeIssued_hostWrite (copyBegun s n gather) addr data (.copy a.ring (tagOf a.d0))
  refine (completeTo_ringStep ..).writeIssued (writeIssued_of_host ?_ ?_ hwrite)
  · exact (addCrossing_moves_bridge _ _).only .host (by decide)
  · exact (addCrossing_moves_bridge _ _).only .fresh (by decide)

theorem leads_vaultGather {r : Region} (hr : regionAt s (objOf d) = some r) (hwaiting : r.waiting = none) (hn : isN s = false)
    (hvault : rVault r.words = true) (hadm : admitted s ring d 0x2C (cringOf d.d0) (some (regJob r.words))) (hwhat : fld d.d1 31 28 = 0)
    (hheld : versionHeld r (BitVec.ofNat 16 (fld d.d1 27 12)) = true) (hunits : s.faults.units = []) :
    leads (.vaultGather ring d .first) s fun t =>
      hostWriting t d.d2.toNat (pubCopy r (BitVec.ofNat 16 (fld d.d1 27 12))) (.copy ring.toNat (tagOf d.d0)) := by
  refine leads_accepted hadm rfl (by rw [hr]; rfl) rfl fun u t hu ht => ?_
  have hgood (space first count : Nat) := detect_good (s := u) (by rw [hu.faults, hunits]) (objOf d) space first count
  rw [hu.regionAt, hr] at ht
  dsimp only at ht
  rw [if_neg (by simp [isN_ringStep hu, hn, hvault, hwaiting, hwhat])] at ht
  simp only [hwhat, if_true, hheld, Bool.not_true, Bool.false_eq_true, if_false, hgood] at ht
  exact (ht.writeIssued (writeIssued_copyRegion ..)).writing

/-! ### Copies into the X7's own memory -/

theorem localStatus_ringStep {u : State} (hu : RingStep s u) (a : Access) : localStatus u a = localStatus s a := by
  obtain ⟨host, fresh, rfl⟩ := hu.exists_eq
  rfl

/-- The access of a piece of a copy into the X7's own memory. -/
def pieceIn (addr job : Nat) (p : Nat × Nat) : Access :=
  { region := baRegion addr, off := baOff addr + p.1, len := p.2, job := job, write := true, release := false, version := 0 }

theorem pieces_ne_nil {len : Nat} (h : len ≠ 0) : pieces len ≠ [] := by
  have hcount : ceilDiv len 8192 ≠ 0 := by
    unfold ceilDiv
    omega
  simp [pieces, hcount]

/-- An access that is allowed names a region. -/
theorem region_of_localStatus {u : State} {a : Access} (h : localStatus u a = msOk) : ∃ r, regionAt u a.region = some r := by
  cases hr : regionAt u a.region with
  | some r => exact ⟨r, rfl⟩
  | none =>
    simp only [localStatus, accessStatus, hr] at h
    split at h <;> simp_all [msOk, msAbsent, msProtected]

/-- The bytes of a copy from the host that cross to the east die. -/
def inCrossing (u : State) (r : Region) (addr len job : Nat) : Crossing where
  what := .fromHost u.fresh
  die := 1
  cls := 3
  source := 16
  rate := stackRate
  left := (eastBytes u r (((pieces len).map fun p => (accessPlaces r (pieceIn addr job p)).1).headD 0)
    ((pieces len).flatMap fun p => accessUnits r (pieceIn addr job p)) fun _ => 32).1
  start := u.now

/-- Bytes from the host are written. -/
def copiedIn (u : State) (r : Region) (addr len job : Nat) (data : List Byte) : State :=
  accessWrite (addCrossing { u with fresh := u.fresh + 1 } (inCrossing u r addr len job)) (baRegion addr) (baOff addr) (padTo len data)

theorem copiedIn_mem (u : State) (r : Region) (addr len job : Nat) (data : List Byte) : (copiedIn u r addr len job data).hbm.mem =
    memWrite (landAll u.hbm.mem u.hbm.writing) (baRegion addr * 2 ^ 39 + baOff addr) (padTo len data) := by
  unfold copiedIn accessWrite
  rw [addCrossing_hbm]

theorem copyHere_in {u : State} {r : Region} {a : Accept} {addr host len job : Nat} {data : List Byte} (hr : regionAt u (baRegion addr) = some r)
    (hstatus : ∀ p ∈ pieces len, localStatus u (pieceIn addr job p) = msOk) :
    copyHere u a addr host len job false data .first = complete (copiedIn u r addr len job data) a stOk := by
  have hnone : ((pieces len).map fun p => localStatus u (pieceIn addr job p)).find? (fun st => st != msOk) = none := by
    rw [List.find?_eq_none]
    intro st hst
    obtain ⟨q, hq, rfl⟩ := List.mem_map.1 hst
    simp [hstatus q hq]
  change (match ((pieces len).map fun p => localStatus u (pieceIn addr job p)).find? (fun st => st != msOk) with
    | some st => complete u a (accessFails st)
    | none => _) = _
  rw [hnone]
  dsimp only
  rw [hr]
  exact rfl

theorem leads_memCopy_in {data : List Byte} (hadm : admitted s ring d 0x2A (cringOf d.d0) (some (fld d.d4 39 32))) (hlen : fld d.d4 31 0 ≠ 0)
    (hunits : fld d.d4 31 0 % 32 = 0) (halign : d.d3.toNat % 32 = 0) (hboard : boardOk s d.d3.toNat = true) (hown : baPos d.d3.toNat = ownPos s)
    (hin : bit d.d1.toNat 0 = false)
    (hstatus : ∀ p ∈ pieces (fld d.d4 31 0), localStatus s (pieceIn d.d3.toNat (fld d.d4 39 32) p) = msOk) :
    leads (.memCopy ring d data .first) s fun t => answered s t ring d (cringOf d.d0) 0 stOk 0 0 ∧
      t.hbm.mem = memWrite (landAll s.hbm.mem s.hbm.writing) (baRegion d.d3.toNat * 2 ^ 39 + baOff d.d3.toNat) (padTo (fld d.d4 31 0) data) := by
  refine leads_accepted hadm rfl rfl rfl fun u t hu ht => ?_
  obtain ⟨p, hp⟩ := List.exists_mem_of_ne_nil _ (pieces_ne_nil hlen)
  obtain ⟨r, hr⟩ := region_of_localStatus (hstatus p hp)
  have hboardU : boardOk u d.d3.toNat = true := by
    obtain ⟨host, fresh, rfl⟩ := hu.exists_eq
    exact hboard
  have hownU : baPos d.d3.toNat = ownPos u := by
    obtain ⟨host, fresh, rfl⟩ := hu.exists_eq
    exact hown
  dsimp only at ht
  rw [if_neg (by simp [hlen, hunits, halign, hboardU]), if_pos hownU, hin,
    copyHere_in ((hu.regionAt _).trans hr) fun q hq => (localStatus_ringStep hu _).trans (hstatus q hq)] at ht
  refine ⟨ht.answered (answered_completeTo _ [] []), ?_⟩
  rw [((complete_ringStep ..).trans ht).hbm, copiedIn_mem, hu.hbm]

end Copies

end Sys2Proof.Proofs

/-! PROOFS. RELAY_OPEN and RELAY_CLOSE (05 R160), and a TILL_OPEN that is granted its slabs at once (03 R87). -/

namespace Sys2Proof.Proofs
open Sys2Proof.Machine Sys2Proof.Safety Sys2Proof.Laws

variable {s : State} {ring : BitVec 6} {d : Desc}

/-! ### Relays -/

/-- The relay that RELAY_OPEN asks for. -/
def askedRelay (d : Desc) (members : List W64) : Relay where
  job := fld d.d1 23 16
  cls := fld d.d1 25 24
  units := fld d.d2 24 0
  pace := fld d.d2 48 25
  depth := fld d.d1 52 37
  stageMax := fld d.d3 12 0
  rtimeout := fld d.d3 28 13
  members := members.map memberOf
  recv := List.replicate (fld d.d1 36 26) {}

/-- The fields of RELAY_OPEN are in range, and its group is free. -/
structure RelayAllowed (s : State) (d : Desc) (members : List W64) : Prop where
  free : relayAt s (fld d.d1 15 0) = none
  plain : groupEn s (fld d.d1 15 0) = false
  length : members.length = fld d.d1 36 26
  atLeast : 2 ≤ members.length
  atMost : members.length ≤ 1024
  units : 1 ≤ fld d.d2 24 0
  unitsMost : fld d.d2 24 0 ≤ 2 ^ 24
  depth : 1 ≤ fld d.d1 52 37
  stage : 1 ≤ fld d.d3 12 0
  stageMost : fld d.d3 12 0 ≤ 4096
  timeout : 1 ≤ fld d.d3 28 13
  reserved : ∀ w ∈ members, fld w 63 34 = 0
  ranks : distinct (members.map fun w => (memberOf w).1) = true

theorem leads_relayOpen {members : List W64} (hadm : admitted s ring d 0x30 (cringOf d.d0) (some (fld d.d1 23 16)))
    (h : RelayAllowed s d members) : leads (.relayOpen ring d members) s fun t =>
      onlyChanges [.host, .relays, .fresh] s t ∧ answered s t ring d (cringOf d.d0) 0 stOk 0 0 ∧
        relayAt t (fld d.d1 15 0) = some (askedRelay d members) := by
  obtain ⟨hfree, hplain, hlength, hleast, hmost, hunits, hunitsMost, hdepth, hstage, hstageMost, htimeout, hreserved, hranks⟩ := h
  refine leads_accepted hadm rfl rfl rfl fun u t hu ht => ?_
  have htake : (members ++ List.replicate (fld d.d1 36 26) 0).take (fld d.d1 36 26) = members := by
    rw [← hlength, List.take_left]
  have hgroup : groupEn u (fld d.d1 15 0) = false := by
    obtain ⟨host, fresh, rfl⟩ := hu.exists_eq
    exact hplain
  dsimp only at ht
  rw [htake, hu.relayAt, hfree, hgroup] at ht
  rw [if_neg (by
    rw [hlength] at hleast hmost
    simp only [hleast, hmost, hunits, hunitsMost, hdepth, hstage, hstageMost, htimeout, hranks, decide_true, Bool.and_true]
    simpa using hreserved)] at ht
  refine ⟨onlyChanges_between hu ((complete_ringStep ..).trans ht) (setRelay_moves (.refl [.host, .relays, .fresh] u) rfl) rfl,
    ht.answered (answered_completeTo _ [] []), ?_⟩
  rw [((complete_ringStep ..).trans ht).relayAt]
  exact ofind_oins_same ..

theorem leads_relayClose {r : Relay} (hr : relayAt s (fld d.d1 15 0) = some r) (hadm : admitted s ring d 0x31 (cringOf d.d0) (some r.job)) :
    leads (.relayClose ring d) s fun t => answered s t ring d (cringOf d.d0) 0 stOk 0 0 ∧ relayAt t (fld d.d1 15 0) = none := by
  refine leads_accepted hadm rfl (by rw [hr]; rfl) rfl fun u t hu ht => ?_
  rw [hu.relayAt, hr] at ht
  refine ⟨ht.answered (answered_completeTo _ [] []), ?_⟩
  rw [((complete_ringStep ..).trans ht).relayAt]
  exact ofind_odel_same ..

/-! ### TILL_OPEN -/

variable {obj : TillObj}

theorem poolsApart_scratchTake (u : State) (l : List (Nat × Nat)) : PoolsApart u (scratchTake u l) := ⟨u.host, u.stats, u.fresh, _, rfl⟩

/-- Where no waiter is granted its slabs, those before a new till leave everything as it is. -/
theorem grantEarlier_none {u : State} (h : ∀ m y, tillAt u m = some y → y.st = .waitAdmit → grantTill u m y.words y.shard = none) (order : Nat) :
    grantEarlier u order = u := by
  have hone (n : Nat) : grantWaiter order u n = u := by
    unfold grantWaiter
    cases hn : tillAt u n with
    | none => rfl
    | some y =>
      dsimp only
      split
      · rfl
      next hwaits =>
        have hst : y.st = .waitAdmit := by
          simp only [Bool.or_eq_true, not_or, isBefore, Bool.not_eq_true', Bool.not_eq_false, Bool.and_eq_true, beq_iff_eq] at hwaits
          exact hwaits.1.1.1.1.1
        rw [h n y hn hst]
  unfold grantEarlier
  generalize ((u.tills.filter fun e => isBefore order e.2).foldl (fun l e => insertWaiter e l) []) = l
  induction l with
  | nil => rfl
  | cons e l ih => rw [List.foldl_cons, hone, ih]

theorem admitTill_granted {v g : State} {n : Nat} {x : Till} {slabs : List (Nat × Block)} (hearlier : grantEarlier v x.order = v)
    (hfirst : waiterBefore v x.words x.order = false)
    (hgrant : grantTill (scratchTake v (fuseUse v n x.words)) n x.words x.shard = some (g, slabs)) :
    admitTill v n x = openTill g n { x with waitAt := none } slabs := by
  unfold admitTill
  dsimp only
  rw [hearlier, hfirst, if_pos Bool.not_false, hgrant]

/-- What one state grants to no till, none that differs as little grants. -/
theorem grantTill_none_of_apart {u v : State} (h : PoolsApart u v) {n : Nat} {w sh : List W64} (hnone : grantTill u n w sh = none) :
    grantTill v n w sh = none := by
  cases hv : grantTill v n w sh with
  | none => rfl
  | some r =>
    obtain ⟨x, hx, -⟩ := grantTill_alike h.symm _ _ _ _ _ hv
    exact nomatch hnone.symm.trans hx

/-- A new till that no waiter precedes is granted what an apart state grants it. -/
theorem admitTill_new {v : State} {n : Nat} {x : Till} (hstep : EventsApart s v)
    (hothers : ∀ e ∈ s.tills, e.2.st = .waitAdmit → tillQuota 1 e.2.words ≠ tillQuota 1 x.words)
    (hnone : ∀ m y, tillAt s m = some y → y.st = .waitAdmit → grantTill s m y.words y.shard = none)
    (hgrant : (grantTill s n x.words x.shard).isSome = true) : ∃ g slabs, admitTill v n x = openTill g n { x with waitAt := none } slabs := by
  have htills : v.tills = s.tills := by
    obtain ⟨host, stats, fresh, rfl⟩ := hstep
    rfl
  obtain ⟨⟨g, slabs⟩, hg⟩ := Option.isSome_iff_exists.1 hgrant
  obtain ⟨h, hh, -⟩ := grantTill_alike (hstep.poolsApart.trans (poolsApart_scratchTake v (fuseUse v n x.words))) _ _ _ _ _ hg
  refine ⟨h, slabs, admitTill_granted (grantEarlier_none (fun m y hy hst => ?earlier) _) ?first hh⟩
  case earlier =>
    rw [tillAt, htills] at hy
    exact grantTill_none_of_apart hstep.poolsApart (hnone m y hy hst)
  case first =>
    refine List.any_eq_false.2 fun e he hwaits => ?_
    simp only [Bool.and_eq_true, beq_iff_eq] at hwaits
    exact hothers e (htills ▸ he) hwaits.1.1.1 hwaits.1.2

theorem wf_take (w : List W64) {i : Nat} (hi : i < 16) (hi' lo : Nat) : wf (w.take 16) i hi' lo = wf w i hi' lo := by
  rw [wf, wf, List.getD_eq_getElem?_getD, List.getElem?_take_of_lt hi, List.getD_eq_getElem?_getD]

theorem leads_tillOpen_granted (hadm : admitted s ring d 0x10 (tCring obj.words) (some (tJob obj.words))) (hrefusal : openRefusal s obj = none)
    (hothers : ∀ e ∈ s.tills, e.2.st = .waitAdmit → tillQuota 1 e.2.words ≠ tillQuota 1 (obj.words.take 16))
    (hnone : ∀ m y, tillAt s m = some y → y.st = .waitAdmit → grantTill s m y.words y.shard = none)
    (hgrant : (grantTill s (tTill obj.words) (obj.words.take 16) (obj.shard.take (4 * tEntries obj.words))).isSome = true) :
    leads (.tillOpen ring d obj) s fun t => ∃ x, tillAt t (tTill obj.words) = some x ∧ x.st = .opening ∧ x.words = obj.words.take 16 := by
  refine leads_accepted hadm rfl rfl (if_pos (descOk_of_admitted hadm)) fun u t hu ht => ?_
  have hrefusalU : openRefusal u obj = none := by
    obtain ⟨host, fresh, rfl⟩ := hu.exists_eq
    exact hrefusal
  have hstep : EventsApart s (takeFresh u).2 := hu.eventsApart.trans ⟨u.host, u.stats, u.fresh + 1, rfl⟩
  have hentries : (newTill u obj (acceptNow s ring.toNat d.d0 (tTill obj.words))).shard = obj.shard.take (4 * tEntries obj.words) :=
    congrArg (fun n => obj.shard.take (4 * n)) (wf_take obj.words (by decide) 22 12)
  obtain ⟨g, slabs, hopen⟩ := admitTill_new (n := tTill obj.words)
    (x := newTill u obj (acceptNow s ring.toNat d.d0 (tTill obj.words))) hstep hothers hnone (by rw [hentries]; exact hgrant)
  dsimp only at ht
  rw [hrefusalU] at ht
  dsimp only at ht
  rw [hopen] at ht
  exact ⟨_, (ht.tillAt _).trans (tillAt_setTill_same ..), rfl, rfl⟩

end Sys2Proof.Proofs

/-! PROOFS. Ring commands (O6): the effect of each, as the statement of its family or the command itself gives it. -/

namespace Sys2Proof.Proofs
open Sys2Proof.Machine Sys2Proof.Safety Sys2Proof.Laws

variable {s : State} {ring : BitVec 6} {d : Desc}

/-- Settles O6: each clause is the effect that the statement of its family, or the lemma on its command, gives. -/
theorem ringCommandsComplete : Obligations.RingCommandsComplete := by
  unfold Obligations.RingCommandsComplete
  intro s ring d
  dsimp only
  refine ⟨fun obj hadm hrefusal hothers hnone hgrant => leads_tillOpen_granted hadm hrefusal hothers hnone hgrant,
    fun x hx hended hends hcloses hsaves => ?tills, fun words inputs hadm hok hfree => ?tallyOpen, fun v hv => ?tallies,
    fun image hadm hslot hok hroom => ?progLoad, fun hadm hslot hidle => ?progUnload, fun params data hadm hok hdata => ?progRun,
    fun words init param hadm hok hparam => ?regionOpen, fun r hr hwaiting => ⟨fun hadm hbound htransfers hgathers hwriting => ?regionClose,
      fun hn hvault => ⟨fun hadm hwhat hheld hunits => leads_vaultGather hr hwaiting hn hvault hadm hwhat hheld hunits,
        fun hadm => leads_vaultQuery hr hn hvault hadm⟩⟩, fun hadm hn hregions hstaging => ?memConfig,
    fun data hadm hlen hunits halign hboard hown hin hstatus => leads_memCopy_in hadm hlen hunits halign hboard hown hin hstatus,
    fun members hadm hfree hplain hlength hleast hmost hunits hunitsMost hdepth hstage hstageMost htimeout hreserved hranks => ?relayOpen,
    fun r hr hadm => leads_relayClose hr hadm, fun image w c m hsteward hadm htable hcount htandem hsome habsent hset => ?stage,
    fun hadm hsets hroom hticks hlater hdrain => ?arm, fun x hadm hfind hticks hlater hlimit => ?cancel,
    fun c op hc _ hadm hwhich => leads_recordRead hc hadm hwhich, fun v hv hadm => leads_receiptRead hv hadm,
    fun hadm hlow hhigh => ?mirror, fun k hadm hfirst hmost hold hnew hk => ?ledgerRead, fun hmaps hpg => ?links⟩
  case tills =>
    obtain ⟨hclose, habort, _, hsave, hexcise, hresume, _, hrestore⟩ := tillCommandsAct s ring d x hx hended
    refine ⟨fun hadm hst => leads_imp (hclose hadm (.inl hst) hcloses) fun t ht => ht.2,
      fun hadm hst hbusy => leads_imp (habort hadm hst hcloses hbusy) fun t ht => ht.2, fun hadm hst hbegins => ?_,
      fun hadm hst hslot hexcised hticks => ?_, fun hadm hst hresuming htiles => ?_, fun img chk u slabs hadm hst htiles hhost hgood hgrant => ?_⟩
    · refine leads_imp (hsave hadm hst hends hsaves hbegins) fun t ⟨_, y, hy, hdrains, _⟩ => ?_
      exact ⟨y, hy, hdrains⟩
    · refine leads_imp (hexcise hadm hst hends hsaves hslot hexcised) fun t ⟨_, ht⟩ => ht.trans ?_
      rw [hticks, Bool.false_and, if_neg Bool.false_ne_true]
    · exact leads_imp (hresume hadm hst hends hresuming htiles) fun t ht => ⟨_, ht.2, rfl⟩
    · exact leads_imp ((hrestore hadm hst hends hsaves htiles hhost img chk).2 hgood u slabs hgrant) fun t ht => ⟨_, ht.2, rfl, rfl⟩
  case tallyOpen =>
    refine leads_imp (((tallyCommandsAct s ring d).1 words inputs hadm).2 hok hfree) fun t ⟨_, v, hv, hwords, hinputs, _⟩ => ?_
    exact ⟨v, hv, hwords, hinputs⟩
  case tallies =>
    obtain ⟨hfree, hexcise⟩ := (tallyCommandsAct s ring d).2.2.1 v hv
    refine ⟨fun hadm => leads_imp (hfree _ _ (by simp) hadm) fun t ⟨_, hgone, hdone, _⟩ => ⟨hgone, hdone⟩,
      fun hadm => leads_imp (hfree (.tallyAbort ring d) 0x1A (by simp) hadm) fun t ⟨_, hgone, hdone, _⟩ => ⟨hgone, hdone⟩,
      fun hadm hslot hticks hlater => ?_⟩
    refine leads_imp ((hexcise hadm hslot).1 hticks hlater) fun t ⟨_, ht⟩ => ⟨_, ht, ?_⟩
    exact List.length_append
  case progLoad =>
    refine leads_imp (((programsAreLoadedAndRun.1 s ring d image).1 hadm).1 hslot hok hroom) fun t ⟨_, _, p, _, hp, himage, _⟩ => ?_
    exact ⟨p, hp, himage⟩
  case progUnload =>
    exact leads_imp ((programsAreLoadedAndRun.1 s ring d []).2.2 hadm hslot hidle) fun t ⟨_, hdone, hgone, _⟩ => ⟨hgone, hdone⟩
  case progRun =>
    refine leads_imp ((programsAreLoadedAndRun.2.1 s ring d params data hadm).2 hok hdata) fun t ⟨_, r, _, _, _, _, _, hctx⟩ => ?_
    rw [hctx]
    exact List.length_append
  case regionOpen =>
    refine leads_imp (((regionsOpenAndClose s ring d).1 words init param hadm).2 hok hparam) fun t ht => ?_
    obtain ⟨_, _, _, ⟨r, hr, hwords, _⟩, _⟩ := ht
    exact ⟨r, hr, hwords⟩
  case regionClose =>
    refine leads_imp (((regionsOpenAndClose s ring d).2.1 r hr hadm).1 hbound htransfers hgathers hwaiting hwriting) fun t ht => ?_
    obtain ⟨_, hdone, hgone, _⟩ := ht
    exact ⟨hgone, hdone⟩
  case memConfig =>
    refine leads_imp ((regionsOpenAndClose s ring d).2.2 hadm hn hregions hstaging) fun t ⟨_, hdone, hpools, _⟩ => ⟨?_, hdone⟩
    rw [hpools]
  case relayOpen =>
    exact leads_imp (leads_relayOpen hadm ⟨hfree, hplain, hlength, hleast, hmost, hunits, hunitsMost, hdepth, hstage, hstageMost, htimeout,
      hreserved, hranks⟩) fun t ⟨_, hdone, hrelay⟩ => ⟨hdone, _, hrelay, rfl⟩
  case stage =>
    refine leads_imp (commitSetsAreStagedAndArmed.1 s ring d image w c m hsteward hadm htable hcount htandem habsent hset) fun t ht => ?_
    obtain ⟨_, _, _, _, hstaged⟩ := ht
    obtain ⟨y, hy, _, hentries, _⟩ := hstaged hsome
    exact ⟨y, hy, hentries⟩
  case arm =>
    refine leads_imp (((commitSetsAreStagedAndArmed.2 s ring d).2.1 hadm hsets hroom).2 hticks hlater hdrain) fun t ht => ?_
    obtain ⟨_, ⟨x, htables, hset, _⟩, _⟩ := ht
    exact ⟨x, by rw [htables], hset⟩
  case cancel =>
    refine leads_imp ((commitSetsAreStagedAndArmed.2 s ring d).2.2 x hadm hfind hticks hlater hlimit) fun t ht => ?_
    obtain ⟨_, harmed, _, hdone, _⟩ := ht
    exact ⟨harmed, hdone⟩
  case mirror =>
    exact leads_imp ((ledgerEnginesProceed.2.2 s ring d).1 hadm fun _ => ⟨hlow, hhigh⟩) fun t ⟨_, hdone, hen, _⟩ => ⟨hdone, hen⟩
  case ledgerRead =>
    exact leads_imp (((ledgerEnginesProceed.2.2 s ring d).2 hadm hfirst hmost).1 k hold hnew hk) fun t ⟨_, hdone, _⟩ => hdone
  case links =>
    obtain ⟨hdown, hup⟩ := linksComeUpAndGoDown.1 s ring d hmaps hpg
    refine ⟨fun hadm => ?_, fun hsteward hready hadm hplan => ?_⟩
    · exact leads_imp (hdown hadm) fun t ⟨_, hdone, hports, _⟩ => ⟨hdone, fun j hj hconf => (hports j hj hconf).1⟩
    · exact leads_imp (hup hsteward hready hadm hplan) fun t ⟨_, hdone, hports, _⟩ => ⟨hdone, fun j hj hused => (hports j hj).2 hused⟩

end Sys2Proof.Proofs
